-- ==== Sys2Proof/Word.lean ====
section
/-! DEFINITION. The word types of the machine (R2) and the plainest views of them. -/

namespace Sys2Proof

/-- A dword, the width of a g register (R2, R40). -/
abbrev Word := BitVec 64

/-- A byte (R2). -/
abbrev Byte := BitVec 8

/-- A v register, a sector or a manifest: 64 bytes (R2, R40). -/
abbrev V512 := BitVec 512

/-- A 96-bit instruction slot (R16). -/
abbrev Slot := BitVec 96

/-- A g register number. -/
abbrev GReg := BitVec 6

/-- A v register number. -/
abbrev VReg := BitVec 5

/-- A p, q or m register number. -/
abbrev Reg3 := BitVec 3

/-- An a register (view) number. -/
abbrev AReg := BitVec 2

/-- An fmt register number. -/
abbrev FReg := BitVec 4

end Sys2Proof
end

