-- ==== Sys2Proof/Config.lean ====
section
/-! DEFINITION. The free values: what the manual leaves open and no definition of the model fixes.
Each is an opaque constant: nothing in Lean can evaluate it. -/

namespace Sys2Proof.Config

/-- The global time in ns that passes with the n-th step of the machine. Latencies are not fixed by
the manual (R12). Assumption 4. -/
opaque elapsedNs : Nat → Nat

/-- The core cycles for which the n-th step holds issue (TCYC of R46). Assumption 4. -/
opaque elapsedCycles : Nat → Nat

/-- The cycles for which the thermal throttle holds a row's issue at the n-th step (counter 7 of R256). Assumption 4. -/
opaque heldCycles : Nat → Nat

/-- The GET_MEASUREMENTS signature of the n-th answer (R421). Assumption 4. -/
opaque signature : Nat → BitVec 512

/-- The digest of the present margin plan in the n-th answer: the manual does not give the plan's encoding (R421). Assumption 4. -/
opaque planDigest : Nat → BitVec 256

/-- Whether an image's ECDSA P-256 signature verifies under the fused key (R421). Assumption 4. -/
opaque imageVerifies : List Byte → Bool

/-- A value that an old reading leaves in a register field whose Reset entry is "none" (R5).
Assumption 4. -/
opaque freeWord : Nat → Word

/-- The energy in µJ that a cluster has drawn in the microsecond that ends with the n-th step (R351). Assumption 4. -/
opaque energy : Nat → Nat → Nat

/-- The temperature of a cluster in quarters of a degree at the n-th step (R352). Assumption 4. -/
opaque temperature : Nat → Nat → Nat

/-- What a core, or a link port, answers to a beacon at the n-th step: whether it answers, and its difference in ns (R103, R399). Assumption 4. -/
opaque beacon : Nat → Nat → Bool × Int

/-- The sectors in which the scrub of a day finds an error, at the n-th step, with what it finds (R413). Assumption 4. -/
opaque scrubbed : Nat → List (Nat × Nat)

/-- The tiles of a cluster's residencies in which the scrub of a day finds an error, at the n-th step: entry, tile and what it finds (R413).
Assumption 4. -/
opaque scrubbedTile : Nat → Nat → List (Nat × (Nat × Nat))

/-- The plan that a cluster's path-delay monitors lead to at the n-th step: offset in mV and clock in MHz (R418). Assumption 4. -/
opaque plan : Nat → Nat → Nat × Nat

/-- Whether the firmware gates the cores of a cluster in which nothing runs, in the microsecond that ends with the n-th step (R88). Assumption 4. -/
opaque gates : Nat → Nat → Bool

/-- What the host answers to the n-th BISnpInv: the data of a sector that it had modified, if it had (R99). Assumption 4. -/
opaque hostCopy : Nat → Option (BitVec 512)

/-- The set of a line in its slice of L2: the manual gives no function (R96). Assumption 44. -/
opaque l2Set : Nat → Nat

/-- The way of a set that a fill replaces at the n-th step (R96). Assumption 44. -/
opaque victim : Nat → Nat

/-- The first block number from which a free block of a caravanserai is taken at the n-th step (R96). Assumption 44. -/
opaque block : Nat → Nat

/-- The field whose merge table takes a key of the region, cause, level and address given (R84). Assumption 44. -/
opaque mergeField : Nat × Nat × Nat × Nat → Nat

end Sys2Proof.Config
end

