-- ==== Sys2Proof/Machine/Mem.lean ====
section
/-! DEFINITION. Byte memory as one canonical list of cells, little-endian views of it (R2), and association lists for the
sparse tables of the machine. -/

namespace Sys2Proof.Machine

/-- Memory: the bytes that differ from zero, by rising address. What nothing has written reads as zero (assumption 1). -/
abbrev Memory := List Host.Cell

/-- The canonical form: addresses strictly rising, no listed zero. -/
def Memory.wf (m : Memory) : Bool := m.Pairwise (fun a b => a.1 < b.1) && m.all (fun c => c.2 != 0)

/-- The byte at an address. -/
def memByte : Memory → Nat → Byte
  | [], _ => 0
  | c :: m, a => if c.1 = a then c.2 else memByte m a

/-- The n bytes from an address on. -/
def memBytes (m : Memory) (a : Nat) : Nat → List Byte
  | 0 => []
  | n + 1 => memByte m a :: memBytes m (a + 1) n

/-- The cells of a run of bytes, without its zeros. -/
def runCells (a : Nat) : List Byte → Memory
  | [] => []
  | b :: bs => if b = 0 then runCells (a + 1) bs else (a, b) :: runCells (a + 1) bs

/-- Memory with a run of bytes written. -/
def memWrite (m : Memory) (a : Nat) (bs : List Byte) : Memory :=
  m.filter (fun c => c.1 < a) ++ runCells a bs ++ m.filter (fun c => a + bs.length ≤ c.1)

/-- The number whose little-endian bytes these are (R2). -/
def ofBytes : List Byte → Nat
  | [] => 0
  | b :: bs => b.toNat + 256 * ofBytes bs

/-- The n little-endian bytes of a number (R2). -/
def toBytes : Nat → Nat → List Byte
  | 0, _ => []
  | n + 1, x => BitVec.ofNat 8 x :: toBytes n (x / 256)

/-- The little-endian number in n bytes of memory. -/
def memNat (m : Memory) (a n : Nat) : Nat := ofBytes (memBytes m a n)

/-- The dword at an address. -/
def memDword (m : Memory) (a : Nat) : Word := BitVec.ofNat 64 (memNat m a 8)

/-- The 64 bytes at an address. -/
def memSector (m : Memory) (a : Nat) : V512 := BitVec.ofNat 512 (memNat m a 64)

/-- The bytes of a sector. -/
def sectorBytes (d : V512) : List Byte := toBytes 64 d.toNat

/-- Byte i of a sector. -/
def sectorByte (d : V512) (i : Nat) : Byte := d.extractLsb' (8 * i) 8

/-- A byte mask as the mask of its bits. -/
def expandMask (mask : BitVec 64) : V512 :=
  BitVec.ofNat 512 (ofBytes ((List.range 64).map fun i => if mask.getLsbD i then 255 else 0))

/-- A sector with its masked bytes replaced. -/
def mergeSector (old new : V512) (mask : BitVec 64) : V512 :=
  let m := expandMask mask
  (new &&& m) ||| (old &&& ~~~m)

/-- Memory with the masked bytes of the sector at `a` written. -/
def memMerge (m : Memory) (a : Nat) (d : V512) (mask : BitVec 64) : Memory :=
  memWrite m a (sectorBytes (mergeSector (memSector m a) d mask))

/-! ### Association lists -/

/-- The value of a key. -/
def alook [DecidableEq κ] (k : κ) : List (κ × α) → Option α
  | [] => none
  | (k', v) :: l => if k' = k then some v else alook k l

/-- The table with the key's value set, in place or at the end. -/
def aset [DecidableEq κ] (k : κ) (v : α) : List (κ × α) → List (κ × α)
  | [] => [(k, v)]
  | (k', v') :: l => if k' = k then (k, v) :: l else (k', v') :: aset k v l

/-- The table without the key. -/
def adel [DecidableEq κ] (k : κ) (l : List (κ × α)) : List (κ × α) := l.filter (fun e => e.1 ≠ k)

end Sys2Proof.Machine
end

