-- ==== Sys2Proof/Syntax.lean ====
section
/-! DEFINITION. The instructions of the opcode map (R38) and the events of the other agents, as the table of
operations and events lists them: one constructor a row. An instruction carries the fields that have a meaning;
an event carries what the agent that causes it supplies. -/

namespace Sys2Proof

/-- The guard of R24 and R25: predicate p (GP) and its negation (GN). -/
structure Guard where
  p : BitVec 3
  neg : Bool
  deriving DecidableEq, Repr

/-- The integer widths of MOD bits 1:0 (R28). -/
inductive Width where
  | w64 | w32 | w16 | w8
  deriving DecidableEq, Repr

/-- The element types of R35. -/
inductive ElemType where
  | f64 | f32 | f16 | bf16 | e4m3 | e5m2 | e3m2 | e2m3 | e2m1 | ue8m0
  | i64 | i32 | i16 | i8 | i4 | lut4
  | fmt (n : FReg)
  deriving DecidableEq, Repr

/-- The rounding modes of R36; `rctl` is code 0, the mode held in RCTL. -/
inductive Rm where
  | rctl | rne | rz | rdn | rup | rna
  deriving DecidableEq, Repr

/-- The integer conditions 0x01 to 0x06 of R37. -/
inductive ICond where
  | eq | ne | lt | ge | ltu | geu
  deriving DecidableEq, Repr

/-- The floating conditions 0x11 to 0x16 of R37. -/
inductive FCond where
  | oeq | une | olt | ole | uno | ord
  deriving DecidableEq, Repr

/-- STREAM, PMASK and SCOPE of the M, C, N and X formats (R30, R33). -/
structure Str where
  stream : BitVec 3
  pmask : BitVec 8
  scope : BitVec 2
  deriving DecidableEq, Repr

/-- The addressing modes of R30. -/
inductive AddrMode where
  | virt | own | cluster | named
  deriving DecidableEq, Repr

/-! ### Shapes of the instructions -/

/-- Integer format A with two sources (R195). -/
structure AluA where
  g : Guard
  w : Width
  d : GReg
  a : GReg
  b : GReg
  deriving DecidableEq, Repr

/-- Integer format I (R29, R195), LEA's I form included (R199). -/
structure AluI where
  g : Guard
  d : GReg
  a : GReg
  imm : BitVec 48
  deriving DecidableEq, Repr

/-- A shift or rotate by an immediate count from 0 to 63 (R29). -/
structure ShI where
  g : Guard
  d : GReg
  a : GReg
  count : BitVec 6
  deriving DecidableEq, Repr

/-- Integer format A with one source (R197). -/
structure UnA where
  g : Guard
  w : Width
  d : GReg
  a : GReg
  deriving DecidableEq, Repr

/-- SEXT and ZEXT (R197); n runs from 1 to 64. -/
structure ExtA where
  g : Guard
  d : GReg
  a : GReg
  n : BitVec 8
  deriving DecidableEq, Repr

/-- BFX (R198). `len1` is len - 1. -/
structure BfxA where
  g : Guard
  d : GReg
  a : GReg
  pos : BitVec 6
  len1 : BitVec 6
  sx : Bool
  deriving DecidableEq, Repr

/-- BFI (R198). -/
structure BfiA where
  g : Guard
  d : GReg
  a : GReg
  pos : BitVec 6
  len1 : BitVec 6
  deriving DecidableEq, Repr

/-- CMP of format A (R199). -/
structure CmpA where
  g : Guard
  c : ICond
  w : Width
  d : Reg3
  a : GReg
  b : GReg
  deriving DecidableEq, Repr

/-- CMP of format I (R199). -/
structure CmpI where
  g : Guard
  c : ICond
  d : Reg3
  a : GReg
  imm : BitVec 48
  deriving DecidableEq, Repr

/-- SEL (R199). -/
structure SelA where
  g : Guard
  d : GReg
  a : GReg
  b : GReg
  c : Reg3
  deriving DecidableEq, Repr

/-- An instruction that names gD and gA only. -/
structure GD where
  g : Guard
  d : GReg
  a : GReg
  deriving DecidableEq, Repr

/-- An instruction that names gD only. -/
structure GDest where
  g : Guard
  d : GReg
  deriving DecidableEq, Repr

/-- An instruction that names gA only. -/
structure GSrc where
  g : Guard
  a : GReg
  deriving DecidableEq, Repr

/-- An instruction with a guard and nothing else. -/
structure GOnly where
  g : Guard
  deriving DecidableEq, Repr

/-- LI (R199). -/
structure LiI where
  g : Guard
  d : GReg
  imm : BitVec 48
  deriving DecidableEq, Repr

/-- LEA of format A (R199). -/
structure LeaA where
  g : Guard
  d : GReg
  a : GReg
  b : GReg
  k : BitVec 3
  deriving DecidableEq, Repr

/-- Scalar floating arithmetic that rounds (R201). -/
structure FpR where
  g : Guard
  ty : ElemType
  rm : Rm
  d : GReg
  a : GReg
  b : GReg
  deriving DecidableEq, Repr

/-- FMIN and FMAX (R201). -/
structure FpB where
  g : Guard
  ty : ElemType
  d : GReg
  a : GReg
  b : GReg
  deriving DecidableEq, Repr

/-- FABS, FNEG and FCLASS (R201, R202). -/
structure FpU where
  g : Guard
  ty : ElemType
  d : GReg
  a : GReg
  deriving DecidableEq, Repr

/-- FFMA (R201). -/
structure FpF where
  g : Guard
  ty : ElemType
  rm : Rm
  d : GReg
  a : GReg
  b : GReg
  c : GReg
  deriving DecidableEq, Repr

/-- FCMP (R202). -/
structure FpC where
  g : Guard
  c : FCond
  ty : ElemType
  d : Reg3
  a : GReg
  b : GReg
  deriving DecidableEq, Repr

/-- FCVT (R203). -/
structure FpV where
  g : Guard
  sat : Bool
  rm : Rm
  dst : ElemType
  src : ElemType
  d : GReg
  a : GReg
  deriving DecidableEq, Repr

/-- FRND (R203). -/
structure FpN where
  g : Guard
  ty : ElemType
  rm : Rm
  d : GReg
  a : GReg
  deriving DecidableEq, Repr

/-- BR (R204); `none` is COND 0x00, which requires A = B = 0 (R37). -/
structure BrB where
  g : Guard
  c : Option ICond
  a : GReg
  b : GReg
  disp : BitVec 48
  deriving DecidableEq, Repr

/-- JMP (R204). -/
structure JmpB where
  g : Guard
  disp : BitVec 48
  deriving DecidableEq, Repr

/-- CALL (R204). -/
structure CallB where
  g : Guard
  d : GReg
  disp : BitVec 48
  deriving DecidableEq, Repr

/-- LOOP (R204). -/
structure LoopB where
  g : Guard
  a : GReg
  disp : BitVec 48
  deriving DecidableEq, Repr

/-- PAND, POR and PXOR (R205). -/
structure PredA where
  g : Guard
  d : Reg3
  a : Reg3
  b : Reg3
  na : Bool
  nb : Bool
  deriving DecidableEq, Repr

/-- PNOT (R205). -/
structure PnotA where
  g : Guard
  d : Reg3
  a : Reg3
  deriving DecidableEq, Repr

/-- The two forms of PSET (R205). -/
inductive PsetSrc where
  | imm (v : Bool)
  | reg (a : GReg)
  deriving DecidableEq, Repr

/-- PSET (R205). -/
structure PsetA where
  g : Guard
  d : Reg3
  src : PsetSrc
  deriving DecidableEq, Repr

/-- QPUT (R206). -/
structure QputA where
  g : Guard
  q : Reg3
  a : GReg
  deriving DecidableEq, Repr

/-- QGET, QPEEK and QCNT (R206). -/
structure QgetA where
  g : Guard
  d : GReg
  q : Reg3
  deriving DecidableEq, Repr

/-- REPB (R208). -/
structure RepbA where
  g : Guard
  a : GReg
  stride : BitVec 5
  renv : Bool
  reng : Bool
  deriving DecidableEq, Repr

/-- LD (R132). `sz` is SIZE 0 to 3. -/
structure LdM where
  g : Guard
  str : Str
  am : AddrMode
  sz : BitVec 2
  sx : Bool
  nt : Bool
  ex : Bool
  off : BitVec 32
  d : GReg
  a : GReg
  c : GReg
  deriving DecidableEq, Repr

/-- ST (R132). -/
structure StM where
  g : Guard
  str : Str
  am : AddrMode
  sz : BitVec 2
  nt : Bool
  off : BitVec 32
  a : GReg
  b : GReg
  c : GReg
  deriving DecidableEq, Repr

/-- The widths of LDV and STV (R133). -/
inductive VSize where
  | b128 | b256 | b512
  deriving DecidableEq, Repr

/-- LDV (R133). -/
structure LdvM where
  g : Guard
  str : Str
  am : AddrMode
  sz : VSize
  nt : Bool
  ex : Bool
  off : BitVec 32
  d : VReg
  a : GReg
  c : GReg
  deriving DecidableEq, Repr

/-- STV (R133). -/
structure StvM where
  g : Guard
  str : Str
  am : AddrMode
  sz : VSize
  nt : Bool
  off : BitVec 32
  a : GReg
  b : VReg
  c : GReg
  deriving DecidableEq, Repr

/-- PFETCH (R134). -/
structure PfM where
  g : Guard
  str : Str
  nt : Bool
  ex : Bool
  off : BitVec 32
  a : GReg
  deriving DecidableEq, Repr

/-- CFLUSH and CINV (R135). -/
structure CacheM where
  g : Guard
  str : Str
  off : BitVec 32
  a : GReg
  deriving DecidableEq, Repr

/-- SCNT (R136). -/
structure ScntT where
  g : Guard
  d : GReg
  all : Bool
  s : BitVec 3
  deriving DecidableEq, Repr

/-- The integer atomics but AMOCAS (R137). `dword` selects SIZE 3. -/
structure AmoM where
  g : Guard
  str : Str
  am : AddrMode
  dword : Bool
  off : BitVec 32
  d : GReg
  a : GReg
  b : GReg
  c : GReg
  deriving DecidableEq, Repr

/-- AMOCAS (R138); AM 3 is illegal. -/
structure CasM where
  g : Guard
  str : Str
  am : AddrMode
  dword : Bool
  off : BitVec 32
  d : GReg
  a : GReg
  b : GReg
  c : GReg
  deriving DecidableEq, Repr

/-- The formats of the floating atomics (R140). -/
inductive AmoFmt where
  | bf16 | f32 | f64
  deriving DecidableEq, Repr

/-- The floating atomics (R140). -/
structure AmoF where
  g : Guard
  str : Str
  am : AddrMode
  ty : AmoFmt
  off : BitVec 32
  d : GReg
  a : GReg
  b : GReg
  c : GReg
  deriving DecidableEq, Repr

/-- WATCH, UNWATCH, WATCHQ and ACQR (R142 to R146). -/
structure WatchM where
  g : Guard
  str : Str
  off : BitVec 32
  d : GReg
  a : GReg
  b : GReg
  deriving DecidableEq, Repr

/-- RELR (R147). -/
structure RelM where
  g : Guard
  str : Str
  off : BitVec 32
  d : GReg
  a : GReg
  deriving DecidableEq, Repr

/-- LADQ (R148). -/
structure LadM where
  g : Guard
  str : Str
  off : BitVec 32
  d : VReg
  a : GReg
  deriving DecidableEq, Repr

/-- The source modes of the C format (R33). -/
inductive SrcMode where
  | virt | own | cluster
  deriving DecidableEq, Repr

/-- SEND (R163). -/
structure SendC where
  g : Guard
  str : Str
  am : SrcMode
  chan : BitVec 4
  a : GReg
  b : GReg
  c : GReg
  deriving DecidableEq, Repr

/-- SENDADD, SENDMIN and SENDMAX (R163); `m` is SAT of SENDADD and unsigned of the others. -/
structure SendA where
  g : Guard
  str : Str
  am : SrcMode
  ty : ElemType
  seq : Bool
  m : Bool
  chan : BitVec 4
  a : GReg
  b : GReg
  c : GReg
  deriving DecidableEq, Repr

/-- CHOPEN (R167). -/
structure ChopenC where
  g : Guard
  str : Str
  arith : Bool
  chan : BitVec 4
  d : GReg
  a : GReg
  b : GReg
  deriving DecidableEq, Repr

/-- CHCLOSE (R168). -/
structure ChcloseC where
  g : Guard
  str : Str
  chan : BitVec 4
  d : GReg
  deriving DecidableEq, Repr

/-- CHWM (R169). -/
structure ChwmC where
  g : Guard
  str : Str
  setwm : Bool
  setseq : Bool
  chan : BitVec 4
  d : GReg
  a : GReg
  b : GReg
  deriving DecidableEq, Repr

/-- The element widths of STN (R170). -/
inductive NSize where
  | b8 | b4 | b2
  deriving DecidableEq, Repr

/-- STN (R170). AM 0 is illegal. -/
structure StnM where
  g : Guard
  str : Str
  am : AddrMode
  sz : NSize
  off : BitVec 32
  a : GReg
  b : GReg
  c : GReg
  deriving DecidableEq, Repr

/-- LMCFG (R171). -/
structure LmcfgT where
  g : Guard
  d : GReg
  code : BitVec 2
  deriving DecidableEq, Repr

/-- SENDM and SPAWN (R300). -/
structure MsgC where
  g : Guard
  str : Str
  a : GReg
  b : GReg
  deriving DecidableEq, Repr

/-- SPAWNT (R300). -/
structure MsgtC where
  g : Guard
  str : Str
  a : GReg
  b : GReg
  c : GReg
  deriving DecidableEq, Repr

/-- VADD and VSUB (R218). -/
structure VAddV where
  g : Guard
  ty : ElemType
  rm : Rm
  sat : Bool
  uns : Bool
  d : VReg
  a : VReg
  b : VReg
  deriving DecidableEq, Repr

/-- VMUL (R218). -/
structure VMulV where
  g : Guard
  ty : ElemType
  rm : Rm
  d : VReg
  a : VReg
  b : VReg
  deriving DecidableEq, Repr

/-- VFMA and VFMS (R218). -/
structure VFmaV where
  g : Guard
  ty : ElemType
  rm : Rm
  d : VReg
  a : VReg
  b : VReg
  c : VReg
  deriving DecidableEq, Repr

/-- VNEG and VABS (R218). -/
structure VNegV where
  g : Guard
  ty : ElemType
  sat : Bool
  d : VReg
  a : VReg
  deriving DecidableEq, Repr

/-- VMIN and VMAX (R218). -/
structure VMinV where
  g : Guard
  ty : ElemType
  uns : Bool
  d : VReg
  a : VReg
  b : VReg
  deriving DecidableEq, Repr

/-- VAND, VOR and VXOR (R219). -/
structure VLogV where
  g : Guard
  d : VReg
  a : VReg
  b : VReg
  deriving DecidableEq, Repr

/-- The count of a lane shift: IMM8 or the lane of vB (R219). -/
inductive VCount where
  | imm (n : BitVec 8)
  | reg (b : VReg)
  deriving DecidableEq, Repr

/-- VSHL, VSHR and VSRA (R219). -/
structure VShV where
  g : Guard
  ty : ElemType
  d : VReg
  a : VReg
  cnt : VCount
  deriving DecidableEq, Repr

/-- The condition of VCMP (R219, R37). -/
inductive VCond where
  | int (c : ICond)
  | flt (c : FCond)
  deriving DecidableEq, Repr

/-- VCMP (R219). -/
structure VCmpV where
  g : Guard
  c : VCond
  ty : ElemType
  d : VReg
  a : VReg
  b : VReg
  deriving DecidableEq, Repr

/-- VSEL (R219). -/
structure VSelV where
  g : Guard
  d : VReg
  a : VReg
  b : VReg
  c : VReg
  deriving DecidableEq, Repr

/-- VCVT (R220). -/
structure VCvtV where
  g : Guard
  sat : Bool
  rm : Rm
  dst : ElemType
  src : ElemType
  d : VReg
  a : VReg
  k : BitVec 8
  deriving DecidableEq, Repr

/-- The special functions but VSQRT (R221). -/
structure VFunV where
  g : Guard
  ty : ElemType
  d : VReg
  a : VReg
  deriving DecidableEq, Repr

/-- VSQRT (R221). -/
structure VSqrtV where
  g : Guard
  ty : ElemType
  rm : Rm
  d : VReg
  a : VReg
  deriving DecidableEq, Repr

/-- VPERM (R224); `c` is the second table when TWO is set. -/
structure VPermV where
  g : Guard
  ty : ElemType
  d : VReg
  a : VReg
  b : VReg
  c : Option VReg
  deriving DecidableEq, Repr

/-- VBCAST (R224). -/
structure VBcastV where
  g : Guard
  ty : ElemType
  d : VReg
  a : VReg
  k : BitVec 8
  deriving DecidableEq, Repr

/-- VINS (R224). -/
structure VInsV where
  g : Guard
  ty : ElemType
  d : VReg
  a : GReg
  k : BitVec 8
  deriving DecidableEq, Repr

/-- VEXT (R224). -/
structure VExtV where
  g : Guard
  ty : ElemType
  d : GReg
  a : VReg
  k : BitVec 8
  deriving DecidableEq, Repr

/-- The operations of VRED (R225); VSCAN takes the first three (R226). -/
inductive RedOp where
  | add | min | max | and | or | xor
  deriving DecidableEq, Repr

/-- VRED and VSCAN (R225, R226). -/
structure VRedV where
  g : Guard
  op : RedOp
  uns : Bool
  ty : ElemType
  rm : Rm
  d : VReg
  a : VReg
  deriving DecidableEq, Repr

/-- VDOT (R227). -/
structure VDotV where
  g : Guard
  sat : Bool
  rm : Rm
  acc : ElemType
  src : ElemType
  d : VReg
  a : VReg
  b : VReg
  deriving DecidableEq, Repr

/-- VMOV (R224). -/
structure VMovV where
  g : Guard
  d : VReg
  a : VReg
  deriving DecidableEq, Repr

/-- VSPLAT (R224). -/
structure VSplatV where
  g : Guard
  ty : ElemType
  d : VReg
  a : GReg
  deriving DecidableEq, Repr

/-- MLD and MST (R232): `m` is the manifest register, `loc` MOD bit 0. -/
structure MldN where
  g : Guard
  str : Str
  loc : Bool
  m : Reg3
  a : GReg
  deriving DecidableEq, Repr

/-- LUTLD (R232). -/
structure LutN where
  g : Guard
  str : Str
  loc : Bool
  a : GReg
  deriving DecidableEq, Repr

/-- The field groups of MSET (R233). -/
inductive MField where
  | base | sbase | dim (d : BitVec 2) | ctl
  deriving DecidableEq, Repr

/-- MSET (R233). -/
structure MsetN where
  g : Guard
  f : MField
  d : Reg3
  a : GReg
  b : GReg
  deriving DecidableEq, Repr

/-- FMTSET (R234). -/
structure FmtsetA where
  g : Guard
  d : FReg
  a : GReg
  deriving DecidableEq, Repr

/-- FMTGET (R234). -/
structure FmtgetA where
  g : Guard
  d : GReg
  a : FReg
  deriving DecidableEq, Repr

/-- The operations of MEW (R236). -/
inductive EwOp where
  | add | sub | mul | min | max | neg | abs | rcp | rsq | sqrt | exp2 | log2 | sinp | tanh
  deriving DecidableEq, Repr

/-- MEW (R236). -/
structure MewN where
  g : Guard
  str : Str
  op : EwOp
  uns : Bool
  sat : Bool
  ty : ElemType
  rm : Rm
  d : Reg3
  a : Reg3
  b : Reg3
  deriving DecidableEq, Repr

/-- MFMA (R236). -/
structure MfmaN where
  g : Guard
  str : Str
  sat : Bool
  ty : ElemType
  rm : Rm
  d : Reg3
  a : Reg3
  b : Reg3
  c : Reg3
  deriving DecidableEq, Repr

/-- The operations of MRED (R237). -/
inductive MRedOp where
  | add | min | max
  deriving DecidableEq, Repr

/-- MRED (R237). -/
structure MredN where
  g : Guard
  str : Str
  op : MRedOp
  sat : Bool
  ty : ElemType
  rm : Rm
  dims : BitVec 4
  d : Reg3
  a : Reg3
  deriving DecidableEq, Repr

/-- MCVT (R238). -/
structure McvtN where
  g : Guard
  str : Str
  sat : Bool
  rm : Rm
  d : Reg3
  a : Reg3
  deriving DecidableEq, Repr

/-- MGATH (R239). -/
structure MgathN where
  g : Guard
  str : Str
  sat : Bool
  ty : ElemType
  rm : Rm
  d : Reg3
  a : Reg3
  b : Reg3
  deriving DecidableEq, Repr

/-- MSCAT (R239); `add` selects FN 1. -/
structure MscatN where
  g : Guard
  str : Str
  add : Bool
  sat : Bool
  ty : ElemType
  rm : Rm
  d : Reg3
  a : Reg3
  b : Reg3
  deriving DecidableEq, Repr

/-- MCOPY (R240). -/
structure McopyN where
  g : Guard
  str : Str
  d : Reg3
  a : Reg3
  deriving DecidableEq, Repr

/-- XRES (R264). -/
structure XresX where
  g : Guard
  str : Str
  ty : ElemType
  skind : BitVec 2
  pin : Bool
  d : GReg
  a : GReg
  b : GReg
  deriving DecidableEq, Repr

/-- XLOAD, XPIN, XUNPIN and XREVK (R265, R266). -/
structure XhX where
  g : Guard
  str : Str
  d : GReg
  a : GReg
  deriving DecidableEq, Repr

/-- XQRY (R267). -/
structure XqryX where
  g : Guard
  d : VReg
  a : GReg
  deriving DecidableEq, Repr

/-- XMM and XACC (R268); `drain` holds mC and SAT when DRAIN is set. -/
structure XmmX where
  g : Guard
  str : Str
  drain : Option (Reg3 × Bool)
  d : AReg
  a : Reg3
  b : GReg
  deriving DecidableEq, Repr

/-- XSTAT (R276); n runs from 0 to 12. -/
structure XstatX where
  g : Guard
  n : BitVec 4
  d : GReg
  deriving DecidableEq, Repr

/-- ACFG (R277). -/
structure AcfgX where
  g : Guard
  d : GReg
  a : GReg
  c : AReg
  deriving DecidableEq, Repr

/-- AGET (R278). -/
structure AgetX where
  g : Guard
  d : GReg
  a : AReg
  deriving DecidableEq, Repr

/-- AFREE and AZERO (R279). -/
structure AviewX where
  g : Guard
  d : AReg
  deriving DecidableEq, Repr

/-- AROWI and ACOLI (R280). -/
structure AinX where
  g : Guard
  d : AReg
  a : VReg
  b : GReg
  deriving DecidableEq, Repr

/-- AROWO and ACOLO (R280). -/
structure AoutX where
  g : Guard
  d : VReg
  a : AReg
  b : GReg
  deriving DecidableEq, Repr

/-- SLEEP (R304): SD in bits 7:0, W bit 8, WM bit 9, TO bit 10. -/
structure SleepT where
  g : Guard
  d : GReg
  a : GReg
  b : GReg
  sel : BitVec 11
  deriving DecidableEq, Repr

/-- THNEW (R309). -/
structure ThnewT where
  g : Guard
  start : Bool
  d : GReg
  a : GReg
  b : GReg
  c : GReg
  deriving DecidableEq, Repr

/-- THRD (R312). -/
structure ThrdT where
  g : Guard
  d : GReg
  c : Reg3
  a : GReg
  b : GReg
  deriving DecidableEq, Repr

/-- THWR (R312). -/
structure ThwrT where
  g : Guard
  d : GReg
  a : GReg
  b : GReg
  c : GReg
  deriving DecidableEq, Repr

/-- TRAP (R316). -/
structure TrapT where
  g : Guard
  code : BitVec 16
  deriving DecidableEq, Repr

/-- The system registers of R46. -/
inductive SysReg where
  | tid | lcore | rgn | passb | trapb | fltq | rsbase | rctl | lmsplit | ashape | sclamp | gt | tcyc
  deriving DecidableEq, Repr

/-- MFS (R317). -/
structure MfsT where
  g : Guard
  d : GReg
  r : SysReg
  deriving DecidableEq, Repr

/-- The registers MTS writes (R317). -/
inductive RwReg where
  | rctl | sclamp
  deriving DecidableEq, Repr

/-- MTS (R317). -/
structure MtsT where
  g : Guard
  r : RwReg
  a : GReg
  deriving DecidableEq, Repr

/-- The selectors of RGNQ (R319). -/
inductive RgnSel where
  | cores | attrs | lcoreOf (a : GReg) | lcnAt (a : GReg) | energy | frontier | state
  deriving DecidableEq, Repr

/-- RGNQ (R319). -/
structure RgnqT where
  g : Guard
  sel : RgnSel
  d : GReg
  deriving DecidableEq, Repr

/-! ### Events: the parties and records they carry. Cores are named by physical index (R8), clusters by cx + 128·cy,
regions by the physical address of their control block (R288). -/

/-- A message of R284: header, payload words 0 to 5 (word i at bits 64i+63:64i), and the tenant tag it carries (R287). -/
structure Msg where
  hdr : BitVec 128
  pay : BitVec 384
  tag : BitVec 16
  deriving DecidableEq, Repr

/-- An outstanding operation of a thread: the slot and the number the model gives the operation. -/
structure OpRef where
  core : Nat
  slot : Nat
  op : Nat
  deriving DecidableEq, Repr

/-- A thread slot. -/
structure EvThread where
  core : Nat
  slot : Nat
  deriving DecidableEq, Repr

/-- A sector that can hold an uncorrectable error (R411): of memory, or of a core's scratchpad, by number. -/
inductive ErrSec where
  | mem (sec : Nat)
  | sp (core sec : Nat)
  deriving DecidableEq, Repr

/-- An uncorrectable error that a read binds: the kind of its store (R410) and its sector. -/
structure Bad where
  kind : Nat
  sec : ErrSec
  deriving DecidableEq, Repr

/-- A place in a store that has a code (R410): an L1 copy of a sector, a scratchpad, the L2, the memory-side cache slice or the DRAM of a sector. -/
inductive ErrStore where
  | l1 (core pa : Nat)
  | sp (core off : Nat)
  | l2 (pa : Nat)
  | slice (pa : Nat)
  | dram (pa : Nat)
  deriving DecidableEq, Repr

/-- An uncorrectable error drops the consignment of a slot (R326): the address of the access that met it, and the error. -/
structure EvDrop where
  core : Nat
  slot : Nat
  va : Option Word
  bad : Bad
  deriving DecidableEq, Repr

/-- A fetch line reaches the fetch path (R19). The masks are the errors that hit the first copy and the refetched one. -/
structure EvFetch where
  core : Nat
  slot : Nat
  va : Word
  flip1 : V512
  flip2 : V512
  deriving DecidableEq, Repr

/-- The fault records of a region's queue that wait for room (R85). -/
structure EvRegion where
  region : Nat
  deriving DecidableEq, Repr

/-- GETS or GETX from an L1 for the sector at pa (R93); `lad` is the Lading Table entry that the GETS of a holder names (R94). -/
structure EvGet where
  core : Nat
  pa : Nat
  lad : Option Nat
  deriving DecidableEq, Repr

/-- Who sends a write to a home (R93, R97): an L1, an L1 that evicts a dirty L sector (R94), a path of a core, the host or a device agent. -/
inductive Writer where
  | l1 (core : Nat)
  | lad (core : Nat)
  | path (core : Nat)
  | host
  | device
  deriving DecidableEq, Repr

/-- A key of R333: timestamp and TID. -/
structure Key where
  ts : Nat
  tid : Nat
  deriving DecidableEq, Repr

/-- A store-through of masked bytes of one sector (R93); `key` is the key of an ordered writer (R335). -/
structure EvWrt where
  src : Writer
  pa : Nat
  data : V512
  mask : BitVec 64
  key : Option Key
  /-- The kind of the store whose error the data carries (R411). -/
  bad : Option Nat
  deriving DecidableEq, Repr

/-- A message about one sector between an L1 and its home. -/
structure EvSector where
  core : Nat
  pa : Nat
  deriving DecidableEq, Repr

/-- Sector data from an L1 to the home. -/
structure EvPut where
  core : Nat
  pa : Nat
  data : V512
  deriving DecidableEq, Repr

/-- The grants of DATA (R93). -/
inductive Grant where
  | s
  | e
  | m
  | sw
  | l (entry : Nat)
  deriving DecidableEq, Repr

/-- DATA from the home to an L1. -/
structure EvData where
  core : Nat
  pa : Nat
  data : V512
  grant : Grant
  deriving DecidableEq, Repr

/-- FWDS or FWDX to an owner (R93), with the number of its transaction. -/
structure EvFwd where
  core : Nat
  pa : Nat
  txn : Nat
  deriving DecidableEq, Repr

/-- Where an INV goes (R91, R93): to a core, or to every core of the tracts of a partition that a bit of TRACTS stands for, but for one
that keeps its copy. -/
inductive InvDst where
  | core (c : Nat)
  | tracts (part bit : Nat) (spare : Option Nat)
  deriving DecidableEq, Repr

/-- INV (R93); `line` says that every sector of the line goes (R91). -/
structure EvInv where
  dst : InvDst
  pa : Nat
  line : Bool
  deriving DecidableEq, Repr

/-- What an ACK answers (R91, R93): an INV to a core, an INV to a tract, a WRT of a core. -/
inductive AckOf where
  | inv (core : Nat)
  | tracts (part bit : Nat)
  | wrt (core : Nat)
  deriving DecidableEq, Repr

/-- ACK (R93). -/
structure EvAck where
  what : AckOf
  pa : Nat
  deriving DecidableEq, Repr

/-- GONE from an owner, with the number of the forward's transaction (R93). -/
structure EvGone where
  core : Nat
  pa : Nat
  dirty : Bool
  txn : Nat
  deriving DecidableEq, Repr

/-- A line at its home. -/
structure EvLine where
  part : Nat
  line : Nat
  deriving DecidableEq, Repr

/-- A KIND 1 wake (R98): the line, the written sectors and the record's TARGET. -/
structure EvWake where
  line : Nat
  mask : BitVec 4
  target : BitVec 32
  deriving DecidableEq, Repr

/-- Where an error stands (R361, R410 to R412, R416): uncorrectable, under the read of an operation, or in a sector that nothing reads now; corrected
by its store's code; in the register space of a slot; in the sector that entry `entry` of a consignment holds; in the block of a spilled context; in a
block of a watcher chain, of whose records the first `readable` can still be read; in an entry of the Lading Table; in a router, a rim port or the
firmware complex, beside a core. -/
inductive EvBad where
  | read (op : OpRef) (place : ErrStore)
  | sector (place : ErrStore)
  | corrected (place : ErrStore)
  | entry (core slot entry : Nat)
  | fabric (core kind : Nat)
  | registers (core slot : Nat)
  | context (core slot gen : Nat)
  | chain (part line readable : Nat)
  | lading (part idx : Nat)
  deriving DecidableEq, Repr

/-- A sector of the host range or of device memory that the host asks about. -/
structure EvHost where
  pa : Nat
  deriving DecidableEq, Repr

/-- Sector data supplied by the host. -/
structure EvHostData where
  pa : Nat
  data : V512
  deriving DecidableEq, Repr

/-- The host's answer to BISnpInv, with the data it held modified (R99). -/
structure EvBi where
  pa : Nat
  data : Option V512
  deriving DecidableEq, Repr

/-- A host CXL.mem write (R99). -/
structure EvMemWr where
  pa : Nat
  data : V512
  mask : BitVec 64
  deriving DecidableEq, Repr

/-- A host CXL.mem read through an HDM decoder (R379). -/
structure EvMemRd where
  part : Nat
  pa : Nat
  deriving DecidableEq, Repr

/-- The CXL.cache requests of the home (R99). -/
inductive CxlReq where
  | rdShared
  | rdOwn
  | dirtyEvict
  | cleanEvict
  deriving DecidableEq, Repr

/-- The host's answer to a CXL.cache request. -/
structure EvCxl where
  pa : Nat
  req : CxlReq
  data : V512
  deriving DecidableEq, Repr

/-- An entry of a partition's Lading Table. -/
structure EvLad where
  part : Nat
  idx : Nat
  deriving DecidableEq, Repr

/-- A beacon of R103: whether the core answered, and its GT less the reference in ns. -/
structure EvBeacon where
  core : Nat
  answered : Bool
  diff : Int
  deriving DecidableEq, Repr

/-- A packet of a SEND: one destination granule (R155). `dst` is the physical core, `off` the channel offset of the first byte. -/
structure EvPacket where
  src : OpRef
  region : Nat
  dst : Nat
  lcn : Nat
  chan : BitVec 4
  off : Nat
  bytes : List Byte
  last : Bool
  deriving DecidableEq, Repr

/-- The operations of destination arithmetic (R162). -/
inductive ArithOp where
  | add
  | min
  | max
  deriving DecidableEq, Repr

/-- Updates of a destination-arithmetic operation (R160): one element, or the whole operation when sequenced (R161). -/
structure EvUpdate where
  src : OpRef
  region : Nat
  dst : Nat
  lcn : Nat
  chan : BitVec 4
  off : Nat
  op : ArithOp
  ty : ElemType
  m : Bool
  elems : List Word
  seq : Option (BitVec 16)
  deriving DecidableEq, Repr

/-- What a remote message of R153 does to the bytes at the destination interface: a store, an integer or floating atomic with D = 0, or STN. -/
inductive RemoteAct where
  | store (bytes : List Byte)
  | amo (fn : Nat) (dword : Bool) (b : Word)
  | amof (fn : Nat) (ty : AmoFmt) (b : Word)
  | stn (sz : NSize) (pos : Nat) (v : Word)
  deriving DecidableEq, Repr

/-- An AM 3 store, D = 0 atomic or STN at its destination (R129, R153). -/
structure EvRemote where
  src : OpRef
  region : Nat
  dst : Nat
  lcn : Nat
  off : Nat
  act : RemoteAct
  key : Option Key
  deriving DecidableEq, Repr

/-- What the interfaces know of a message beside its 64 bytes: its redeliveries (R326), whether it goes to the second pair (R329) or
binds in buffered mode (R340), the pair that it belongs to, with a mark on the partner's copy, and the region that counts it as sent
(R291; zero when none does). -/
structure MsgMark where
  redlv : Nat
  second : Bool
  force : Bool
  pair : Option (Nat × Bool)
  region : Nat
  deriving DecidableEq, Repr

/-- The mark of a message that is sent for the first time. -/
def MsgMark.new : MsgMark := ⟨0, false, false, none, 0⟩

/-- A message at a core's inbox (R285); `core` is the core that it is addressed to, `src` the sender's operation, `fwd` marks a message
forwarded under R359. -/
structure EvMsg where
  core : Nat
  msg : Msg
  src : Option OpRef
  fwd : Bool
  mark : MsgMark
  deriving DecidableEq, Repr

/-- A core. -/
structure EvCore where
  core : Nat
  deriving DecidableEq, Repr

/-- A post of a core. -/
structure EvPost where
  core : Nat
  post : Nat
  deriving DecidableEq, Repr

/-- An idle core asks for work of a region (R286). -/
structure EvSteal where
  core : Nat
  region : Nat
  deriving DecidableEq, Repr

/-- A spilled thread (R295). -/
structure EvSpilled where
  core : Nat
  slot : Nat
  gen : Nat
  deriving DecidableEq, Repr

/-- A cluster's energy in µJ of the last microsecond (R351). -/
structure EvEnergy where
  cluster : Nat
  energy : Nat
  deriving DecidableEq, Repr

/-- A global event without operands. -/
structure EvNone where
  unit : Unit
  deriving DecidableEq, Repr

/-- A cluster's temperature in steps of 0.25 °C (R352). -/
structure EvTemp where
  cluster : Nat
  quarter : Nat
  deriving DecidableEq, Repr

/-- A partition. -/
structure EvPart where
  part : Nat
  deriving DecidableEq, Repr

/-- A core of a drover's unit (R359). -/
structure EvJoin where
  part : Nat
  core : Nat
  deriving DecidableEq, Repr

/-- The two pipes of a thread (R42). -/
inductive Pipe where
  | lead
  | trail
  deriving DecidableEq, Repr

/-- What a trap reports (R362, R365). -/
structure TrapInfo where
  cause : BitVec 8
  detail : BitVec 16
  pipe : Pipe
  acck : BitVec 3
  level : BitVec 3
  faddr : Word
  pc : Word
  iword : Slot
  aux1 : Word
  aux2 : Word
  deriving DecidableEq, Repr

/-- A trap of a thread (R369). -/
structure EvTrap where
  core : Nat
  slot : Nat
  info : TrapInfo
  deriving DecidableEq, Repr

/-- A sector entry of a clearing consignment (R324). -/
structure EvPrep where
  core : Nat
  slot : Nat
  idx : Nat
  deriving DecidableEq, Repr

/-- The partner's hash (R332). -/
structure EvHash where
  core : Nat
  slot : Nat
  hash : Word
  deriving DecidableEq, Repr

/-- The place of a sector (R322): physical memory, or a core's scratchpad. -/
inductive Place where
  | mem (sector : Nat)
  | sh (sector : Nat)
  | loc (core : Nat) (sector : Nat)
  deriving DecidableEq, Repr

/-- A write intent (R334). -/
structure EvIntent where
  region : Nat
  place : Place
  key : Key
  deriving DecidableEq, Repr

/-- A residency of an engine. -/
structure EvRes where
  cluster : Nat
  idx : Nat
  deriving DecidableEq, Repr

/-- A fault of a residency load (R264). -/
structure EvResFault where
  cluster : Nat
  idx : Nat
  cause : BitVec 8
  level : BitVec 3
  bad : Option Bad
  deriving DecidableEq, Repr

/-- A tile of a residency (R412). -/
structure EvTile where
  cluster : Nat
  idx : Nat
  tile : Nat
  deriving DecidableEq, Repr

/-- A fetched command of a queue (R386): its index and its 128 bytes. -/
structure EvCmd where
  fn : Nat
  q : Nat
  idx : Nat
  cmd : BitVec 1024
  deriving DecidableEq, Repr

/-- A write of NOTIFY q (R387). -/
structure EvNotify where
  fn : Nat
  q : Nat
  v : BitVec 32
  deriving DecidableEq, Repr

/-- A function of the device: 0 the PF, n + 1 VF n. -/
structure EvFn where
  fn : Nat
  deriving DecidableEq, Repr

/-- A write of a function register (R380, R385). -/
structure EvReg where
  fn : Nat
  off : Nat
  v : Word
  /-- A write of 64 bits; one of 32 otherwise. -/
  wide : Bool
  deriving DecidableEq, Repr

/-- A queue of a function. -/
structure EvQueue where
  fn : Nat
  q : Nat
  deriving DecidableEq, Repr

/-- A completion that waits to be written (R389). -/
structure EvCpl where
  fn : Nat
  q : Nat
  idx : Nat
  deriving DecidableEq, Repr

/-- A store to an endpoint's SQPROD (R402). -/
structure EvSq where
  part : Nat
  ep : Nat
  deriving DecidableEq, Repr

/-- A link descriptor that a port issues (R401). -/
structure EvDesc where
  part : Nat
  ep : Nat
  idx : Nat
  deriving DecidableEq, Repr

/-- The effect a link request asks for (R404, R408). -/
inductive LinkOp where
  | put (bytes : List Byte)
  | get (len : Nat)
  | aadd (dword : Bool) (v : Word)
  | acas (dword : Bool) (new cmp : Word)
  | aswp (dword : Bool) (v : Word)
  /-- A packet of a child's combined elements for its parent, and of a parent's result for a child, from an offset on, in a collective (R408). -/
  | up (group : Nat) (tag : BitVec 32) (child off : Nat) (bytes : List Byte)
  | down (group : Nat) (tag : BitVec 32) (off : Nat) (bytes : List Byte)
  deriving DecidableEq, Repr

/-- A link request packet at the target (R405): source module, port and request number, target partition and endpoint. -/
structure EvLinkReq where
  part : Nat
  smod : Nat
  sport : Nat
  req : Nat
  tep : Nat
  roff : Nat
  op : LinkOp
  expiry : Nat
  deriving DecidableEq, Repr

/-- The answers to a link request (R403, R405). -/
inductive LinkAns where
  | ok (old : Word) (bytes : List Byte)
  | status (code : Nat)
  | nack (afterNs : Nat)
  deriving DecidableEq, Repr

/-- An end-to-end answer at the sender port; `copy` is the expiry of the copy that it answers. -/
structure EvLinkAck where
  part : Nat
  port : Nat
  req : Nat
  ans : LinkAns
  copy : Nat
  deriving DecidableEq, Repr

/-- A packet in a port's retry buffer. -/
structure EvLinkPkt where
  part : Nat
  port : Nat
  req : Nat
  deriving DecidableEq, Repr

/-- A beacon between two ports (R399). -/
structure EvLinkBeacon where
  port : Nat
  diff : Int
  deriving DecidableEq, Repr

/-- A Caravan Link port. -/
structure EvPort where
  port : Nat
  deriving DecidableEq, Repr

/-- An abort for a collective (R409). -/
structure EvCollAbort where
  part : Nat
  group : Nat
  tag : BitVec 32
  first : Bool
  deriving DecidableEq, Repr

/-- An endpoint context that reached a port (R406). -/
structure EvCtx where
  part : Nat
  port : Nat
  ep : Nat
  deriving DecidableEq, Repr

/-- A key of the atomic result cache (R405). -/
structure EvAtom where
  port : Nat
  smod : Nat
  sport : Nat
  req : Nat
  deriving DecidableEq, Repr

/-- What a scrub read found (R413). -/
inductive ScrubOut where
  | clean
  | corrected
  | uncorrectable
  deriving DecidableEq, Repr

/-- What a scrub reads (R413): a DRAM sector, or an entry of a cluster's residencies. -/
inductive ScrubAt where
  | dram (pa : Nat)
  | tile (cluster idx tile : Nat)
  deriving DecidableEq, Repr

/-- A scrubbed sector. -/
structure EvScrub where
  place : ScrubAt
  found : ScrubOut
  deriving DecidableEq, Repr

/-- A new plan of a cluster (R418): offset in mV and clock in MHz. -/
structure EvPlan where
  cluster : Nat
  mv : Nat
  mhz : Nat
  deriving DecidableEq, Repr

/-- A Customs alarm (R419); `port` is the link port whose probe raised level 1. -/
structure EvAlarm where
  level : Nat
  port : Option Nat
  deriving DecidableEq, Repr

/-- The images the boot chain reads, each with its security version (R421). -/
structure EvBoot where
  images : List (List Byte × Nat)
  deriving DecidableEq, Repr

/-- An SPDM request with the requester's nonce (R421). -/
structure EvSpdm where
  nonce : BitVec 256
  deriving DecidableEq, Repr

/-- The thread-state requests of R308 and R309. -/
inductive ThReq where
  | stop
  | start
  | read (off : Word)
  | write (off v : Word)
  | stat
  | kill
  | create (pc g1 : Word) (start : Bool)
  deriving DecidableEq, Repr

/-- A thread-state request at the target core (R308): the issuer's operation, the rights it holds, the target. -/
structure EvThReq where
  src : OpRef
  core : Nat
  tid : BitVec 32
  req : ThReq
  region : Nat
  deriving DecidableEq, Repr

/-- A core that the firmware removes, and the core that takes it as a guest (R376). -/
structure EvRemove where
  core : Nat
  host : Nat
  deriving DecidableEq, Repr

/-- A new engine configuration word (R254). -/
structure EvEngCfg where
  cluster : Nat
  word : Word
  deriving DecidableEq, Repr

/-- The steps of the machine, one constructor a row of the table of operations and events. The first 211 are the
instructions of R38; the rest are the events of the other agents. -/
inductive Instr where
  | add (x : AluA)
  | addImm (x : AluI)
  | sub (x : AluA)
  | subImm (x : AluI)
  | mul (x : AluA)
  | mulImm (x : AluI)
  | mulh (x : AluA)
  | mulhImm (x : AluI)
  | mulhu (x : AluA)
  | mulhuImm (x : AluI)
  | div (x : AluA)
  | divImm (x : AluI)
  | divu (x : AluA)
  | divuImm (x : AluI)
  | rem (x : AluA)
  | remImm (x : AluI)
  | remu (x : AluA)
  | remuImm (x : AluI)
  | min (x : AluA)
  | minImm (x : AluI)
  | max (x : AluA)
  | maxImm (x : AluI)
  | minu (x : AluA)
  | minuImm (x : AluI)
  | maxu (x : AluA)
  | maxuImm (x : AluI)
  | and (x : AluA)
  | andImm (x : AluI)
  | or (x : AluA)
  | orImm (x : AluI)
  | xor (x : AluA)
  | xorImm (x : AluI)
  | andn (x : AluA)
  | andnImm (x : AluI)
  | orn (x : AluA)
  | ornImm (x : AluI)
  | shl (x : AluA)
  | shlImm (x : ShI)
  | shr (x : AluA)
  | shrImm (x : ShI)
  | sra (x : AluA)
  | sraImm (x : ShI)
  | rol (x : AluA)
  | rolImm (x : ShI)
  | clz (x : UnA)
  | ctz (x : UnA)
  | popc (x : UnA)
  | brev (x : UnA)
  | sext (x : ExtA)
  | zext (x : ExtA)
  | bfx (x : BfxA)
  | bfi (x : BfiA)
  | cmp (x : CmpA)
  | cmpImm (x : CmpI)
  | sel (x : SelA)
  | mov (x : GD)
  | li (x : LiI)
  | lea (x : LeaA)
  | leaImm (x : AluI)
  | fadd (x : FpR)
  | fsub (x : FpR)
  | fmul (x : FpR)
  | fmin (x : FpB)
  | fmax (x : FpB)
  | fabs (x : FpU)
  | fneg (x : FpU)
  | ffma (x : FpF)
  | fcmp (x : FpC)
  | fclass (x : FpU)
  | fcvt (x : FpV)
  | frnd (x : FpN)
  | br (x : BrB)
  | jmp (x : JmpB)
  | jmpi (x : GSrc)
  | call (x : CallB)
  | calli (x : GD)
  | ret (x : GSrc)
  | loop (x : LoopB)
  | nop (x : GOnly)
  | pand (x : PredA)
  | por (x : PredA)
  | pxor (x : PredA)
  | pnot (x : PnotA)
  | pset (x : PsetA)
  | qput (x : QputA)
  | qget (x : QgetA)
  | qpeek (x : QgetA)
  | qcnt (x : QgetA)
  | repb (x : RepbA)
  | repe (x : EvNone)
  | reprun (x : GSrc)
  | repstat (x : GDest)
  | ld (x : LdM)
  | st (x : StM)
  | ldv (x : LdvM)
  | stv (x : StvM)
  | pfetch (x : PfM)
  | cflush (x : CacheM)
  | cinv (x : CacheM)
  | scnt (x : ScntT)
  | amoadd (x : AmoM)
  | amoand (x : AmoM)
  | amoor (x : AmoM)
  | amoxor (x : AmoM)
  | amomin (x : AmoM)
  | amomax (x : AmoM)
  | amominu (x : AmoM)
  | amomaxu (x : AmoM)
  | amoswp (x : AmoM)
  | amocas (x : CasM)
  | amofadd (x : AmoF)
  | amofmin (x : AmoF)
  | amofmax (x : AmoF)
  | watch (x : WatchM)
  | unwatch (x : WatchM)
  | watchq (x : WatchM)
  | acqr (x : WatchM)
  | relr (x : RelM)
  | ladq (x : LadM)
  | send (x : SendC)
  | sendadd (x : SendA)
  | sendmin (x : SendA)
  | sendmax (x : SendA)
  | chopen (x : ChopenC)
  | chclose (x : ChcloseC)
  | chwm (x : ChwmC)
  | stn (x : StnM)
  | lmcfg (x : LmcfgT)
  | sendm (x : MsgC)
  | vadd (x : VAddV)
  | vsub (x : VAddV)
  | vmul (x : VMulV)
  | vfma (x : VFmaV)
  | vfms (x : VFmaV)
  | vneg (x : VNegV)
  | vabs (x : VNegV)
  | vmin (x : VMinV)
  | vmax (x : VMinV)
  | vand (x : VLogV)
  | vor (x : VLogV)
  | vxor (x : VLogV)
  | vshl (x : VShV)
  | vshr (x : VShV)
  | vsra (x : VShV)
  | vcmp (x : VCmpV)
  | vsel (x : VSelV)
  | vcvt (x : VCvtV)
  | vrcp (x : VFunV)
  | vrsq (x : VFunV)
  | vsqrt (x : VSqrtV)
  | vexp2 (x : VFunV)
  | vlog2 (x : VFunV)
  | vsinp (x : VFunV)
  | vtanh (x : VFunV)
  | vperm (x : VPermV)
  | vbcast (x : VBcastV)
  | vins (x : VInsV)
  | vext (x : VExtV)
  | vred (x : VRedV)
  | vscan (x : VRedV)
  | vdot (x : VDotV)
  | vmov (x : VMovV)
  | vsplat (x : VSplatV)
  | mld (x : MldN)
  | mst (x : MldN)
  | mset (x : MsetN)
  | mew (x : MewN)
  | mfma (x : MfmaN)
  | mred (x : MredN)
  | mcvt (x : McvtN)
  | mgath (x : MgathN)
  | mscat (x : MscatN)
  | mcopy (x : McopyN)
  | fmtset (x : FmtsetA)
  | fmtget (x : FmtgetA)
  | lutld (x : LutN)
  | xres (x : XresX)
  | xload (x : XhX)
  | xpin (x : XhX)
  | xunpin (x : XhX)
  | xrevk (x : XhX)
  | xqry (x : XqryX)
  | xmm (x : XmmX)
  | xacc (x : XmmX)
  | xzero (x : GSrc)
  | xstat (x : XstatX)
  | acfg (x : AcfgX)
  | aget (x : AgetX)
  | afree (x : AviewX)
  | arowi (x : AinX)
  | arowo (x : AoutX)
  | acoli (x : AinX)
  | acolo (x : AoutX)
  | azero (x : AviewX)
  | spawn (x : MsgC)
  | spawnt (x : MsgtC)
  | end_ (x : GOnly)
  | sleep (x : SleepT)
  | yield (x : GOnly)
  | thnew (x : ThnewT)
  | thstop (x : GD)
  | thstart (x : GD)
  | thrd (x : ThrdT)
  | thwr (x : ThwrT)
  | thstat (x : GD)
  | thkill (x : GD)
  | trap (x : TrapT)
  | mfs (x : MfsT)
  | mts (x : MtsT)
  | gtime (x : GDest)
  | rgnq (x : RgnqT)
  | fetchLineArrival (x : EvFetch)
  | pipeDeadlock (x : EvThread)
  | reissue (x : EvThread)
  | tableWalk (x : OpRef)
  | queuedFaultRecordWrite (x : EvRegion)
  | gets (x : EvGet)
  | getx (x : EvGet)
  | wrt (x : EvWrt)
  | putx (x : EvPut)
  | pute (x : EvSector)
  | fwds (x : EvFwd)
  | fwdx (x : EvFwd)
  | inv (x : EvInv)
  | data (x : EvData)
  | ownerData (x : EvPut)
  | clean (x : EvSector)
  | gone (x : EvGone)
  | ack (x : EvAck)
  | wback (x : EvSector)
  | fillArrives (x : EvLine)
  | l2Replacement (x : EvLine)
  | l1Eviction (x : EvSector)
  | wake (x : EvWake)
  | drop (x : EvWake)
  | snpData (x : EvHost)
  | snpInv (x : EvHostData)
  | snpCur (x : EvHost)
  | rdSharedReread (x : EvHostData)
  | biSnpInvResponse (x : EvBi)
  | memWr (x : EvMemWr)
  | hostMemRd (x : EvMemRd)
  | ladingGrant (x : EvLad)
  | beacon (x : EvBeacon)
  | ladingRevocation (x : EvLad)
  | revoke (x : EvLad)
  | packetArrival (x : EvPacket)
  | packetRetry (x : EvPacket)
  | updateArrival (x : EvUpdate)
  | sendComplete (x : OpRef)
  | remoteStoreArrival (x : EvRemote)
  | streamOperationComplete (x : OpRef)
  | messageArrival (x : EvMsg)
  | binding (x : EvCore)
  | ageStep (x : EvPost)
  | stealRequest (x : EvSteal)
  | reload (x : EvSpilled)
  | yieldExpiry (x : EvThread)
  | porterSpill (x : EvMsg)
  | porterReplay (x : EvCore)
  | sliceFullRetry (x : EvMsg)
  | wave (x : EvRegion)
  | energyMeter (x : EvEnergy)
  | tariffWindow (x : EvNone)
  | temperatureRead (x : EvTemp)
  | droverPeriod (x : EvPart)
  | droverCoreJoin (x : EvJoin)
  | trapEntry (x : EvTrap)
  | uncorrectableData (x : EvBad)
  | switchDeadline (x : EvRegion)
  | clearing (x : EvThread)
  | prep (x : EvPrep)
  | commit (x : EvThread)
  | consignmentDrop (x : EvDrop)
  | consignmentOverflow (x : EvThread)
  | hashArrival (x : EvHash)
  | writeIntent (x : EvIntent)
  | staleMark (x : EvRes)
  | residencyLoadComplete (x : EvRes)
  | residencyLoadFault (x : EvResFault)
  | drainComplete (x : OpRef)
  | tileError (x : EvTile)
  | nopCommand (x : EvCmd)
  | launch (x : EvCmd)
  | rrelease (x : EvCmd)
  | preemptSwitch (x : EvCmd)
  | preemptSpatial (x : EvCmd)
  | restore (x : EvCmd)
  | rprio (x : EvCmd)
  | postset (x : EvCmd)
  | tflush (x : EvCmd)
  | drover (x : EvCmd)
  | qcreate (x : EvCmd)
  | qdestroy (x : EvCmd)
  | signal (x : EvCmd)
  | mapq (x : EvCmd)
  | dirdump (x : EvCmd)
  | resize (x : EvCmd)
  | notify (x : EvNotify)
  | admqcbCreate (x : EvReg)
  | admqcbDestroy (x : EvFn)
  | registerWrite (x : EvReg)
  | qcbPoll (x : EvQueue)
  | commandFetch (x : EvQueue)
  | commandDispatch (x : EvQueue)
  | completionWrite (x : EvCpl)
  | pluginOverrun (x : EvFn)
  | frontEndRestart (x : EvNone)
  | quantumExpiry (x : EvPart)
  | functionLevelReset (x : EvFn)
  | sqprod (x : EvSq)
  | put (x : EvDesc)
  | get (x : EvDesc)
  | aadd (x : EvDesc)
  | acas (x : EvDesc)
  | aswp (x : EvDesc)
  | allred (x : EvDesc)
  | linkRequestArrival (x : EvLinkReq)
  | linkAcknowledgement (x : EvLinkAck)
  | linkRetry (x : EvLinkPkt)
  | linkRetire (x : EvLinkPkt)
  | linkBeacon (x : EvLinkBeacon)
  | collectiveAbort (x : EvCollAbort)
  | scrub (x : EvScrub)
  | marginReplan (x : EvPlan)
  | customsAlarm (x : EvAlarm)
  | level2Clear (x : EvNone)
  | coldReset (x : EvBoot)
  | getMeasurements (x : EvSpdm)
  | sleepDeadline (x : EvThread)
  | threadStateRequest (x : EvThReq)
  | cxlCacheResponse (x : EvCxl)
  | flitCrcFailure (x : EvPort)
  | endpointContextFill (x : EvCtx)
  | atomicResultCacheExpiry (x : EvAtom)
  | coreRemoval (x : EvRemove)
  | engineConfigurationWrite (x : EvEngCfg)
  deriving DecidableEq, Repr

/-- The events of the other agents, as the agenda of the machine holds them: the constructors of `Instr` from FETCH_LINE_ARRIVAL
on, one for one. (A run of compiled Lean cannot build a constructor that stands beyond the 245th of its type.) -/
inductive Event where
  | fetchLineArrival (x : EvFetch)
  | pipeDeadlock (x : EvThread)
  | reissue (x : EvThread)
  | tableWalk (x : OpRef)
  | queuedFaultRecordWrite (x : EvRegion)
  | gets (x : EvGet)
  | getx (x : EvGet)
  | wrt (x : EvWrt)
  | putx (x : EvPut)
  | pute (x : EvSector)
  | fwds (x : EvFwd)
  | fwdx (x : EvFwd)
  | inv (x : EvInv)
  | data (x : EvData)
  | ownerData (x : EvPut)
  | clean (x : EvSector)
  | gone (x : EvGone)
  | ack (x : EvAck)
  | wback (x : EvSector)
  | fillArrives (x : EvLine)
  | l2Replacement (x : EvLine)
  | l1Eviction (x : EvSector)
  | wake (x : EvWake)
  | drop (x : EvWake)
  | snpData (x : EvHost)
  | snpInv (x : EvHostData)
  | snpCur (x : EvHost)
  | rdSharedReread (x : EvHostData)
  | biSnpInvResponse (x : EvBi)
  | memWr (x : EvMemWr)
  | hostMemRd (x : EvMemRd)
  | ladingGrant (x : EvLad)
  | beacon (x : EvBeacon)
  | ladingRevocation (x : EvLad)
  | revoke (x : EvLad)
  | packetArrival (x : EvPacket)
  | packetRetry (x : EvPacket)
  | updateArrival (x : EvUpdate)
  | sendComplete (x : OpRef)
  | remoteStoreArrival (x : EvRemote)
  | streamOperationComplete (x : OpRef)
  | messageArrival (x : EvMsg)
  | binding (x : EvCore)
  | ageStep (x : EvPost)
  | stealRequest (x : EvSteal)
  | reload (x : EvSpilled)
  | yieldExpiry (x : EvThread)
  | porterSpill (x : EvMsg)
  | porterReplay (x : EvCore)
  | sliceFullRetry (x : EvMsg)
  | wave (x : EvRegion)
  | energyMeter (x : EvEnergy)
  | tariffWindow (x : EvNone)
  | temperatureRead (x : EvTemp)
  | droverPeriod (x : EvPart)
  | droverCoreJoin (x : EvJoin)
  | trapEntry (x : EvTrap)
  | uncorrectableData (x : EvBad)
  | switchDeadline (x : EvRegion)
  | clearing (x : EvThread)
  | prep (x : EvPrep)
  | commit (x : EvThread)
  | consignmentDrop (x : EvDrop)
  | consignmentOverflow (x : EvThread)
  | hashArrival (x : EvHash)
  | writeIntent (x : EvIntent)
  | staleMark (x : EvRes)
  | residencyLoadComplete (x : EvRes)
  | residencyLoadFault (x : EvResFault)
  | drainComplete (x : OpRef)
  | tileError (x : EvTile)
  | nopCommand (x : EvCmd)
  | launch (x : EvCmd)
  | rrelease (x : EvCmd)
  | preemptSwitch (x : EvCmd)
  | preemptSpatial (x : EvCmd)
  | restore (x : EvCmd)
  | rprio (x : EvCmd)
  | postset (x : EvCmd)
  | tflush (x : EvCmd)
  | drover (x : EvCmd)
  | qcreate (x : EvCmd)
  | qdestroy (x : EvCmd)
  | signal (x : EvCmd)
  | mapq (x : EvCmd)
  | dirdump (x : EvCmd)
  | resize (x : EvCmd)
  | notify (x : EvNotify)
  | admqcbCreate (x : EvReg)
  | admqcbDestroy (x : EvFn)
  | registerWrite (x : EvReg)
  | qcbPoll (x : EvQueue)
  | commandFetch (x : EvQueue)
  | commandDispatch (x : EvQueue)
  | completionWrite (x : EvCpl)
  | pluginOverrun (x : EvFn)
  | frontEndRestart (x : EvNone)
  | quantumExpiry (x : EvPart)
  | functionLevelReset (x : EvFn)
  | sqprod (x : EvSq)
  | put (x : EvDesc)
  | get (x : EvDesc)
  | aadd (x : EvDesc)
  | acas (x : EvDesc)
  | aswp (x : EvDesc)
  | allred (x : EvDesc)
  | linkRequestArrival (x : EvLinkReq)
  | linkAcknowledgement (x : EvLinkAck)
  | linkRetry (x : EvLinkPkt)
  | linkRetire (x : EvLinkPkt)
  | linkBeacon (x : EvLinkBeacon)
  | collectiveAbort (x : EvCollAbort)
  | scrub (x : EvScrub)
  | marginReplan (x : EvPlan)
  | customsAlarm (x : EvAlarm)
  | level2Clear (x : EvNone)
  | coldReset (x : EvBoot)
  | getMeasurements (x : EvSpdm)
  | sleepDeadline (x : EvThread)
  | threadStateRequest (x : EvThReq)
  | cxlCacheResponse (x : EvCxl)
  | flitCrcFailure (x : EvPort)
  | endpointContextFill (x : EvCtx)
  | atomicResultCacheExpiry (x : EvAtom)
  | coreRemoval (x : EvRemove)
  | engineConfigurationWrite (x : EvEngCfg)
  deriving DecidableEq, Repr

/-- The event that a row of the table stands for; none for an instruction. -/
def Instr.event? : Instr → Option Event
  | .add _ => none
  | .addImm _ => none
  | .sub _ => none
  | .subImm _ => none
  | .mul _ => none
  | .mulImm _ => none
  | .mulh _ => none
  | .mulhImm _ => none
  | .mulhu _ => none
  | .mulhuImm _ => none
  | .div _ => none
  | .divImm _ => none
  | .divu _ => none
  | .divuImm _ => none
  | .rem _ => none
  | .remImm _ => none
  | .remu _ => none
  | .remuImm _ => none
  | .min _ => none
  | .minImm _ => none
  | .max _ => none
  | .maxImm _ => none
  | .minu _ => none
  | .minuImm _ => none
  | .maxu _ => none
  | .maxuImm _ => none
  | .and _ => none
  | .andImm _ => none
  | .or _ => none
  | .orImm _ => none
  | .xor _ => none
  | .xorImm _ => none
  | .andn _ => none
  | .andnImm _ => none
  | .orn _ => none
  | .ornImm _ => none
  | .shl _ => none
  | .shlImm _ => none
  | .shr _ => none
  | .shrImm _ => none
  | .sra _ => none
  | .sraImm _ => none
  | .rol _ => none
  | .rolImm _ => none
  | .clz _ => none
  | .ctz _ => none
  | .popc _ => none
  | .brev _ => none
  | .sext _ => none
  | .zext _ => none
  | .bfx _ => none
  | .bfi _ => none
  | .cmp _ => none
  | .cmpImm _ => none
  | .sel _ => none
  | .mov _ => none
  | .li _ => none
  | .lea _ => none
  | .leaImm _ => none
  | .fadd _ => none
  | .fsub _ => none
  | .fmul _ => none
  | .fmin _ => none
  | .fmax _ => none
  | .fabs _ => none
  | .fneg _ => none
  | .ffma _ => none
  | .fcmp _ => none
  | .fclass _ => none
  | .fcvt _ => none
  | .frnd _ => none
  | .br _ => none
  | .jmp _ => none
  | .jmpi _ => none
  | .call _ => none
  | .calli _ => none
  | .ret _ => none
  | .loop _ => none
  | .nop _ => none
  | .pand _ => none
  | .por _ => none
  | .pxor _ => none
  | .pnot _ => none
  | .pset _ => none
  | .qput _ => none
  | .qget _ => none
  | .qpeek _ => none
  | .qcnt _ => none
  | .repb _ => none
  | .repe _ => none
  | .reprun _ => none
  | .repstat _ => none
  | .ld _ => none
  | .st _ => none
  | .ldv _ => none
  | .stv _ => none
  | .pfetch _ => none
  | .cflush _ => none
  | .cinv _ => none
  | .scnt _ => none
  | .amoadd _ => none
  | .amoand _ => none
  | .amoor _ => none
  | .amoxor _ => none
  | .amomin _ => none
  | .amomax _ => none
  | .amominu _ => none
  | .amomaxu _ => none
  | .amoswp _ => none
  | .amocas _ => none
  | .amofadd _ => none
  | .amofmin _ => none
  | .amofmax _ => none
  | .watch _ => none
  | .unwatch _ => none
  | .watchq _ => none
  | .acqr _ => none
  | .relr _ => none
  | .ladq _ => none
  | .send _ => none
  | .sendadd _ => none
  | .sendmin _ => none
  | .sendmax _ => none
  | .chopen _ => none
  | .chclose _ => none
  | .chwm _ => none
  | .stn _ => none
  | .lmcfg _ => none
  | .sendm _ => none
  | .vadd _ => none
  | .vsub _ => none
  | .vmul _ => none
  | .vfma _ => none
  | .vfms _ => none
  | .vneg _ => none
  | .vabs _ => none
  | .vmin _ => none
  | .vmax _ => none
  | .vand _ => none
  | .vor _ => none
  | .vxor _ => none
  | .vshl _ => none
  | .vshr _ => none
  | .vsra _ => none
  | .vcmp _ => none
  | .vsel _ => none
  | .vcvt _ => none
  | .vrcp _ => none
  | .vrsq _ => none
  | .vsqrt _ => none
  | .vexp2 _ => none
  | .vlog2 _ => none
  | .vsinp _ => none
  | .vtanh _ => none
  | .vperm _ => none
  | .vbcast _ => none
  | .vins _ => none
  | .vext _ => none
  | .vred _ => none
  | .vscan _ => none
  | .vdot _ => none
  | .vmov _ => none
  | .vsplat _ => none
  | .mld _ => none
  | .mst _ => none
  | .mset _ => none
  | .mew _ => none
  | .mfma _ => none
  | .mred _ => none
  | .mcvt _ => none
  | .mgath _ => none
  | .mscat _ => none
  | .mcopy _ => none
  | .fmtset _ => none
  | .fmtget _ => none
  | .lutld _ => none
  | .xres _ => none
  | .xload _ => none
  | .xpin _ => none
  | .xunpin _ => none
  | .xrevk _ => none
  | .xqry _ => none
  | .xmm _ => none
  | .xacc _ => none
  | .xzero _ => none
  | .xstat _ => none
  | .acfg _ => none
  | .aget _ => none
  | .afree _ => none
  | .arowi _ => none
  | .arowo _ => none
  | .acoli _ => none
  | .acolo _ => none
  | .azero _ => none
  | .spawn _ => none
  | .spawnt _ => none
  | .end_ _ => none
  | .sleep _ => none
  | .yield _ => none
  | .thnew _ => none
  | .thstop _ => none
  | .thstart _ => none
  | .thrd _ => none
  | .thwr _ => none
  | .thstat _ => none
  | .thkill _ => none
  | .trap _ => none
  | .mfs _ => none
  | .mts _ => none
  | .gtime _ => none
  | .rgnq _ => none
  | .fetchLineArrival x => some (.fetchLineArrival x)
  | .pipeDeadlock x => some (.pipeDeadlock x)
  | .reissue x => some (.reissue x)
  | .tableWalk x => some (.tableWalk x)
  | .queuedFaultRecordWrite x => some (.queuedFaultRecordWrite x)
  | .gets x => some (.gets x)
  | .getx x => some (.getx x)
  | .wrt x => some (.wrt x)
  | .putx x => some (.putx x)
  | .pute x => some (.pute x)
  | .fwds x => some (.fwds x)
  | .fwdx x => some (.fwdx x)
  | .inv x => some (.inv x)
  | .data x => some (.data x)
  | .ownerData x => some (.ownerData x)
  | .clean x => some (.clean x)
  | .gone x => some (.gone x)
  | .ack x => some (.ack x)
  | .wback x => some (.wback x)
  | .fillArrives x => some (.fillArrives x)
  | .l2Replacement x => some (.l2Replacement x)
  | .l1Eviction x => some (.l1Eviction x)
  | .wake x => some (.wake x)
  | .drop x => some (.drop x)
  | .snpData x => some (.snpData x)
  | .snpInv x => some (.snpInv x)
  | .snpCur x => some (.snpCur x)
  | .rdSharedReread x => some (.rdSharedReread x)
  | .biSnpInvResponse x => some (.biSnpInvResponse x)
  | .memWr x => some (.memWr x)
  | .hostMemRd x => some (.hostMemRd x)
  | .ladingGrant x => some (.ladingGrant x)
  | .beacon x => some (.beacon x)
  | .ladingRevocation x => some (.ladingRevocation x)
  | .revoke x => some (.revoke x)
  | .packetArrival x => some (.packetArrival x)
  | .packetRetry x => some (.packetRetry x)
  | .updateArrival x => some (.updateArrival x)
  | .sendComplete x => some (.sendComplete x)
  | .remoteStoreArrival x => some (.remoteStoreArrival x)
  | .streamOperationComplete x => some (.streamOperationComplete x)
  | .messageArrival x => some (.messageArrival x)
  | .binding x => some (.binding x)
  | .ageStep x => some (.ageStep x)
  | .stealRequest x => some (.stealRequest x)
  | .reload x => some (.reload x)
  | .yieldExpiry x => some (.yieldExpiry x)
  | .porterSpill x => some (.porterSpill x)
  | .porterReplay x => some (.porterReplay x)
  | .sliceFullRetry x => some (.sliceFullRetry x)
  | .wave x => some (.wave x)
  | .energyMeter x => some (.energyMeter x)
  | .tariffWindow x => some (.tariffWindow x)
  | .temperatureRead x => some (.temperatureRead x)
  | .droverPeriod x => some (.droverPeriod x)
  | .droverCoreJoin x => some (.droverCoreJoin x)
  | .trapEntry x => some (.trapEntry x)
  | .uncorrectableData x => some (.uncorrectableData x)
  | .switchDeadline x => some (.switchDeadline x)
  | .clearing x => some (.clearing x)
  | .prep x => some (.prep x)
  | .commit x => some (.commit x)
  | .consignmentDrop x => some (.consignmentDrop x)
  | .consignmentOverflow x => some (.consignmentOverflow x)
  | .hashArrival x => some (.hashArrival x)
  | .writeIntent x => some (.writeIntent x)
  | .staleMark x => some (.staleMark x)
  | .residencyLoadComplete x => some (.residencyLoadComplete x)
  | .residencyLoadFault x => some (.residencyLoadFault x)
  | .drainComplete x => some (.drainComplete x)
  | .tileError x => some (.tileError x)
  | .nopCommand x => some (.nopCommand x)
  | .launch x => some (.launch x)
  | .rrelease x => some (.rrelease x)
  | .preemptSwitch x => some (.preemptSwitch x)
  | .preemptSpatial x => some (.preemptSpatial x)
  | .restore x => some (.restore x)
  | .rprio x => some (.rprio x)
  | .postset x => some (.postset x)
  | .tflush x => some (.tflush x)
  | .drover x => some (.drover x)
  | .qcreate x => some (.qcreate x)
  | .qdestroy x => some (.qdestroy x)
  | .signal x => some (.signal x)
  | .mapq x => some (.mapq x)
  | .dirdump x => some (.dirdump x)
  | .resize x => some (.resize x)
  | .notify x => some (.notify x)
  | .admqcbCreate x => some (.admqcbCreate x)
  | .admqcbDestroy x => some (.admqcbDestroy x)
  | .registerWrite x => some (.registerWrite x)
  | .qcbPoll x => some (.qcbPoll x)
  | .commandFetch x => some (.commandFetch x)
  | .commandDispatch x => some (.commandDispatch x)
  | .completionWrite x => some (.completionWrite x)
  | .pluginOverrun x => some (.pluginOverrun x)
  | .frontEndRestart x => some (.frontEndRestart x)
  | .quantumExpiry x => some (.quantumExpiry x)
  | .functionLevelReset x => some (.functionLevelReset x)
  | .sqprod x => some (.sqprod x)
  | .put x => some (.put x)
  | .get x => some (.get x)
  | .aadd x => some (.aadd x)
  | .acas x => some (.acas x)
  | .aswp x => some (.aswp x)
  | .allred x => some (.allred x)
  | .linkRequestArrival x => some (.linkRequestArrival x)
  | .linkAcknowledgement x => some (.linkAcknowledgement x)
  | .linkRetry x => some (.linkRetry x)
  | .linkRetire x => some (.linkRetire x)
  | .linkBeacon x => some (.linkBeacon x)
  | .collectiveAbort x => some (.collectiveAbort x)
  | .scrub x => some (.scrub x)
  | .marginReplan x => some (.marginReplan x)
  | .customsAlarm x => some (.customsAlarm x)
  | .level2Clear x => some (.level2Clear x)
  | .coldReset x => some (.coldReset x)
  | .getMeasurements x => some (.getMeasurements x)
  | .sleepDeadline x => some (.sleepDeadline x)
  | .threadStateRequest x => some (.threadStateRequest x)
  | .cxlCacheResponse x => some (.cxlCacheResponse x)
  | .flitCrcFailure x => some (.flitCrcFailure x)
  | .endpointContextFill x => some (.endpointContextFill x)
  | .atomicResultCacheExpiry x => some (.atomicResultCacheExpiry x)
  | .coreRemoval x => some (.coreRemoval x)
  | .engineConfigurationWrite x => some (.engineConfigurationWrite x)

end Sys2Proof
end

