-- ==== Sys2Proof/Machine/ThreadTypes.lean ====
section
/-! DEFINITION. What a thread slot holds: registers (R40, R46, R54), the outstanding operations (R113, R116, R119), the
repetition buffer (R208 to R213), the armed watches (R141), the consignment (R321 to R323) and the stop (R369, R427). -/

namespace Sys2Proof.Machine

/-- The functions of the integer atomics (R137). -/
inductive AmoFn where
  | add | and | or | xor | min | max | minu | maxu | swp
  deriving DecidableEq, Repr

/-- The functions of the floating atomics (R140). -/
inductive AmofFn where
  | add | min | max
  deriving DecidableEq, Repr

/-- What one access of the direct path, or a watch, lading or cache-maintenance path, does at its address. -/
inductive AccAct where
  | loadG (d : GReg) (sx : Bool)
  | loadV (d : VReg)
  | loadM (d : Reg3)
  | loadLut
  | store (bytes : List Byte)
  | amo (fn : AmoFn) (d : GReg) (b : Word)
  | cas (d : GReg) (new cmp : Word)
  | amof (fn : AmofFn) (ty : AmoFmt) (d : GReg) (b : Word)
  | stn (sz : NSize) (v : Word)
  | flush
  | inval
  | watch (d : GReg) (ctl : Word)
  | unwatch (d : GReg) (ctl : Word)
  | watchq (d : GReg) (ctl : Word)
  | acqr (d : GReg) (ctl : Word)
  | relr (d : GReg)
  | ladq (d : VReg)
  deriving DecidableEq, Repr

/-- A run of bytes that an access touches: physical memory (`core` none), or the scratchpad of a core. -/
structure Seg where
  core : Option Nat
  addr : Nat
  len : Nat
  sh : Bool
  deriving DecidableEq, Repr

/-- An access with its operands captured at issue (R127). `n` is its width in bytes; for STN `ea` counts elements.
`segs` are the bytes that its translation or local mapping gave; none before a replay has translated afresh (R82). -/
structure MemAcc where
  ea : Word
  segs : List Seg
  am : AddrMode
  lcn : Word
  n : Nat
  size : BitVec 4
  opc : BitVec 8
  ex : Bool
  nt : Bool
  act : AccAct
  deriving DecidableEq, Repr

/-- A copy operation (R163) with its operands captured: the source range, the destination, and its progress. `next` is the source offset
of the first byte not sent, `fpage` that of a faulting page; `acked` and `refused` count granules or updates, `bytes` the bytes
acknowledged; `sent` is set once every packet has left. -/
structure CopyOp where
  ea : Word
  am : AddrMode
  len : Nat
  dst : Nat
  lcn : Nat
  chan : BitVec 4
  off : Nat
  arith : Option (ArithOp × ElemType × Bool)
  seq : Option (BitVec 16)
  next : Nat
  fpage : Nat
  sent : Bool
  total : Nat
  acked : Nat
  refused : Nat
  bytes : Nat
  deriving DecidableEq, Repr

/-- A tensor instruction in progress (R235, R241): what it copied at its start, with the table T from its first element on, its processing index, the flags of the elements done
and the scale code of the block at hand (R238). -/
structure TensorOp where
  instr : Instr
  md : V512
  ma : V512
  mb : V512
  mc : V512
  fmt : Vector (BitVec 32) 16
  lut : Option (List Byte)
  rm : Rm
  n : Nat
  fl : BitVec 5
  scale : Nat
  deriving DecidableEq, Repr

/-- The states of a residency (R249, R250). -/
inductive ResSt where
  | empty | loading | resident | pinned | evicted | stale | revoked
  deriving DecidableEq, Repr

/-- The codes of R249. -/
def ResSt.code : ResSt → Nat
  | .empty => 0 | .loading => 1 | .resident => 2 | .pinned => 3 | .evicted => 4 | .stale => 5 | .revoked => 6

/-- An entry of a residency table (R249). `data` are the latched source bytes, weights then scales (R243, R247), `lut` the copied
table of R177, `recency` orders the uses, `loader` is the operation that counts the load in progress. -/
structure Residency where
  st : ResSt
  side : Bool
  ty : ElemType
  skind : BitVec 2
  special : Bool
  held : Bool
  pin : Bool
  mark : Bool
  tiles : Nat
  gen : BitVec 6
  eng : Nat
  slots : Nat
  srcpa : Nat
  owner : Nat
  ttag : BitVec 16
  fdesc : BitVec 32
  reloads : Nat
  data : List Byte
  lut : List Byte
  recency : Nat
  loader : Option OpRef
  sh : Bool
  deriving DecidableEq, Repr

/-- A matrix pass in progress (R268, R259): what it copied at its start, the residency that it uses from its beginning on with the
weights that it latched (R250, R251); `tile` and `row` count what is done, `drained` the rows whose drain writes are issued, `dop` is the
operation that counts the drain, `str` the stream, in which the fetch counts until the last A row is read (R273). -/
structure MatOp where
  acc : Bool
  view : AReg
  a : V512
  drain : Option (V512 × Bool)
  dop : Option Nat
  gb : Word
  fmt : Vector (BitVec 32) 16
  lut : Option (List Byte)
  wts : Option ((Bool × Nat) × Residency)
  tile : Nat
  row : Nat
  drained : Nat
  str : BitVec 3
  /-- The tile before whose latching the pass stops, for an error of its residency (R412). -/
  cut : Option Nat
  deriving DecidableEq, Repr

/-- What a counted residency operation does (R264 to R266): XRES with its operands, a load of an entry of the cluster's table before and
after its source is read, or a revocation. The key's flag tells a guest entry (R375). -/
inductive ResAct where
  | xres (ty : ElemType) (skind : BitVec 2) (pin : Bool) (ea n : Word) (fdesc : BitVec 32)
  | load (key : Bool × Nat)
  | await (key : Bool × Nat)
  | revoke (key : Bool × Nat) (gen : BitVec 6)
  deriving DecidableEq, Repr

/-- What a channel instruction does (R166 to R169): CHOPEN with KIND, BASE and LEN; CHCLOSE; CHWM with its two writes. -/
inductive ChanAct where
  | opn (arith : Bool) (base len : Word)
  | close
  | wm (setwm setseq : Bool) (wm seq : Word)
  deriving DecidableEq, Repr

/-- The kinds of outstanding operation. -/
inductive OpKind where
  /-- An access of R111, or a cache, watch or lading path. -/
  | acc (a : MemAcc)
  /-- An ACQR that waits for its grant at a Lading Table entry (R146). -/
  | acqrWait (a : MemAcc) (entry : Nat) (k : Nat) (leaseNs : Nat)
  /-- A remote store, atomic or STN on its way (R153). -/
  | remote (dst lcn off : Nat) (act : RemoteAct) (sent : Bool)
  | copy (c : CopyOp)
  | chan (d : GReg) (chan : BitVec 4) (act : ChanAct)
  /-- A message on its way to the inbox of a core (R301). -/
  | msg (core : Nat) (m : Msg) (sent : Bool)
  | tensor (t : TensorOp)
  | mat (m : MatOp)
  /-- The drain that a matrix instruction counts beside its operand fetch (R273). -/
  | drain
  /-- A residency operation; `d` receives the result of an XRES that parked and of XREVK. -/
  | res (d : GReg) (act : ResAct)
  /-- A thread-state request on its way (R308). -/
  | thread (d : GReg) (succ : Option Reg3) (core : Nat) (tid : BitVec 32) (req : ThReq) (sent : Bool)
  deriving DecidableEq, Repr

/-- Why an operation is parked (R81, R361). -/
structure Park where
  cause : BitVec 8
  level : BitVec 3
  addr : Word
  deriving DecidableEq, Repr

/-- A page walk in progress (R74): the address, the table to read at a level, and the sectors read. -/
structure Walk where
  va : Word
  table : Nat
  lvl : Nat
  srcs : List Nat
  deriving DecidableEq, Repr

/-- What an operation waits for: an outstanding operation, a store of another thread of the core that an older load has bound before it
performed (R114), or a trail instruction at a place that has not executed (R44), for an edge (R113) or for a common byte (R111). -/
inductive Dep where
  | op (id : Nat)
  | far (r : OpRef)
  | instr (no : Nat)
  | bytes (no : Nat)
  deriving DecidableEq, Repr

def Dep.isOp : Dep → Bool
  | .op _ | .far _ => true
  | .instr _ | .bytes _ => false

/-- An outstanding operation. `no` is the place of its instruction among those that the lead has issued (R44). `stream` is none for the uncounted ones; `deps` are what its edges wait for (R113);
`scope` is the scope after R32 and R122; `ended` says that only acknowledgements are still to come; `rep` is the pass and the index of an
instruction that the repetition buffer reissued (R211, R214). -/
structure Op where
  id : Nat
  no : Nat
  stream : Option (BitVec 3)
  pmask : BitVec 8
  scope : BitVec 2
  deps : List Dep
  pc : Word
  iword : Slot
  kind : OpKind
  parked : Option Park
  walk : Option Walk
  ended : Bool
  rep : Option (Nat × Nat)
  deriving DecidableEq, Repr

/-- An instruction of the stream that the walk has passed and its pipe has not executed (R44). `rep` marks a REPRUN whose passes stand at
its place (R211), `no` counts the instructions before it in the stream, `pair` marks the second slot of a pair (R23). -/
structure TrailEntry where
  pc : Word
  iword : Slot
  instr : Instr
  rep : Bool
  no : Nat
  pair : Bool
  deriving DecidableEq, Repr

/-- The repetition state of R208 to R213; `run` is the last REPRUN, its PC and its word, at which a trap of the resumption stands (R215). -/
structure RepState where
  savePa : Nat
  act : Bool
  valid : Bool
  capt : Bool
  pass : Nat
  npass : Nat
  idx : Nat
  stride : BitVec 5
  reng : Bool
  renv : Bool
  buf : List Slot
  run : Option (Word × Slot)
  deriving DecidableEq, Repr

/-- No repetition. -/
def RepState.empty : RepState := ⟨0, false, false, false, 0, 0, 0, 0, false, false, [], none⟩

/-- Where a view's elements are (R257, R258): a physical tile, with whether the save area holds the same contents. -/
inductive ViewPlace where
  | tile (n : Nat) (backed : Bool)
  | saved
  | zero
  deriving DecidableEq, Repr

/-- An accumulator view: its place, the sticky overflow of R256 and its element codes by rows. -/
structure View where
  place : ViewPlace
  ovf : Bool
  elems : List Word
  deriving DecidableEq, Repr

/-- An entry of the armed-watch table at its position (R141). -/
structure WatchEntry where
  pos : Nat
  line : Nat
  mask : BitVec 4
  pending : BitVec 4
  deriving DecidableEq, Repr

/-- What a sleeping thread waits for (R304, R305), and the global time since when. -/
structure SleepCond where
  sel : BitVec 11
  deadline : Word
  wm : Word
  since : Nat
  deriving DecidableEq, Repr

/-- The thread states of R54. -/
inductive ThState where
  | free | bound | running | sleeping | stopped | spilled
  deriving DecidableEq, Repr

/-- The codes of R54. -/
def ThState.code : ThState → Nat
  | .free => 0 | .bound => 1 | .running => 2 | .sleeping => 3 | .stopped => 4 | .spilled => 5

/-- A write that the activation made to a sector entry after an atomic whose old value only its owner has (R123, R153): bits of the sector, or the atomic at
an offset of the sector. -/
inductive HeldWrite where
  | bits (data bits : V512)
  | rmw (off : Nat) (act : RemoteAct)
  deriving DecidableEq, Repr

/-- A sector entry of a consignment (R322). `lcn` is the logical core of a local entry; `bits` are the bits written, fewer than those of
`mask` after an STN (R170); `after` are the writes that the owner applies at clearing, from the first atomic sent to another cluster on (R153); `scope`
the widest scope named. -/
structure SectEntry where
  place : Place
  lcn : Nat
  data : V512
  mask : BitVec 64
  bits : V512
  after : List HeldWrite
  scope : BitVec 2
  prepped : Bool
  /-- An uncorrectable error has hit the entry (R326). -/
  bad : Bool
  deriving DecidableEq, Repr

/-- A message entry of a consignment (R322, R331): the instruction with its operand values and payload at issue, and the operation
that clearing starts. `child` marks a speculative child that was delivered already (R336). -/
structure HeldMsg where
  iword : Slot
  pc : Word
  ga : Word
  gb : Word
  gc : Word
  pay : BitVec 384
  what : OpKind
  child : Bool
  deriving DecidableEq, Repr

/-- Where a consignment stands between binding and the freeing of its slot (R325). -/
inductive ConsPhase where
  | running
  | ended
  | clearing (next : Nat)
  | released
  deriving DecidableEq, Repr

/-- A message in an inbox or a deque: `dest` is the core that it was addressed to (R374); kept entries stay until their consignment has
cleared (R325). -/
structure InMsg where
  msg : Msg
  dest : Nat
  kept : Bool
  mark : MsgMark
  deriving DecidableEq, Repr

/-- A consignment (R321 to R323, R332, R336). -/
structure Consign where
  mode : BitVec 2
  sects : List SectEntry
  msgs : List HeldMsg
  early : Bool
  demote : Bool
  redlv : BitVec 2
  spec : Bool
  copy : Bool
  tag : BitVec 16
  sptag : BitVec 16
  key : Key
  lateKey : Option Key
  trig : InMsg
  phase : ConsPhase
  hash : Option Word
  matched : Bool
  /-- The activation stalled at an overflow and waits to clear as the next unit (R340). -/
  overflow : Bool
  deriving DecidableEq, Repr

/-- A stop: the trap's report, or cause 0 with its DETAIL (R427). `phase` is the next step of R369 (4 while the record waits, 6 when
complete); `ops` are the operations recorded as descriptors, in issue order. -/
structure StopInfo where
  info : TrapInfo
  phase : Nat
  frameLost : Bool
  recseq : Word
  ops : List Op
  pcWritten : Bool
  leadWritten : Bool
  gt : Word
  streams : Word
  /-- The dwords that the context holds above a queue's count (R312). -/
  qpad : List ((Nat × Nat) × Word)
  /-- The ACQRs that a register-space switch withdrew, issued again at resumption (R370). -/
  again : List Op
  deriving DecidableEq, Repr

/-- The lifetimes of R283. -/
inductive Life where
  | activation (post : Nat) (trig : Msg)
  | resident
  deriving DecidableEq, Repr

/-- A grant that was revoked and whose holder has not touched the region since (R104). -/
structure StaleGrant where
  entry : Nat
  gen : Nat
  disc : Nat
  base : Nat
  log2 : Nat
  sectors : List Nat
  deriving DecidableEq, Repr

/-- A thread slot in use. -/
structure Thread where
  g : Vector Word 64
  p : BitVec 8
  v : Vector V512 32
  q : Vector (List Word) 8
  m : Vector V512 8
  fmt : Vector (BitVec 32) 16
  ashape : Word
  views : Vector View 4
  leadPc : Word
  trailPc : Word
  trailQ : List TrailEntry
  /-- The lead's instructions that the trail has passed while the lead waits at the first of them (R44). -/
  ahead : List TrailEntry
  /-- The PC at which the walk stands while `ahead` holds instructions. -/
  scanPc : Word
  line : Option (Word × V512)
  tid : BitVec 32
  rgn : Word
  passb : Word
  trapb : Word
  fltq : Word
  rctl : Word
  sclamp : Word
  tcyc : Word
  ops : List Op
  nextOp : Nat
  rep : RepState
  vsave : Word
  st : ThState
  watch : List WatchEntry
  sleep : Option SleepCond
  life : Life
  region : Nat
  cons : Option Consign
  stop : Option StopInfo
  yielded : Bool
  /-- The slot waits for its counters after END or THKILL (R118). -/
  ending : Bool
  /-- The instructions that the walk has passed (R44). -/
  issued : Nat
  /-- The pipe that issued last. -/
  lastPipe : Pipe
  /-- One more than the global time from which on no instruction has completed while one waited (R45); zero when none waits. -/
  blocked : Nat
  stale : List StaleGrant
  /-- The issue priority (R345), and the global time at which the thread issued last. -/
  prio : Nat
  issuedAt : Nat
  /-- The instruction at hand waits. -/
  waited : Bool
  /-- The time at which a YIELD expires (R307). -/
  yieldAt : Nat
  /-- The vacated core and the slot by which a guest is named (R374). -/
  guest : Option (Nat × Nat)
  /-- A spilled thread has taken a wake (R295). -/
  woken : Bool
  /-- The start of the thread is a transfer (R22). -/
  jump : Bool
  /-- The last time that a GTIME returned (R318). -/
  lastGt : Nat
  /-- The accesses that have parked while walks of the thread are under way: what their records say, the log2 of the span and the addresses of
  continuation records (R81). -/
  parks : List (TrapInfo × (Nat × List Nat))
  /-- The stores of other threads that loads of a stream have bound from the core's store path, and that have not performed (R107, R114). -/
  fwds : List (BitVec 3 × OpRef)
  deriving DecidableEq, Repr

/-- The registers of a thread at binding and creation (R40, R46): everything zero or empty. -/
def Thread.fresh (tid : BitVec 32) (region : Nat) (life : Life) (pc : Word) : Thread where
  g := Vector.replicate 64 0
  p := 0
  v := Vector.replicate 32 0
  q := Vector.replicate 8 []
  m := Vector.replicate 8 0
  fmt := Vector.replicate 16 0
  ashape := 0
  views := Vector.replicate 4 ⟨.zero, false, []⟩
  leadPc := pc
  trailPc := pc
  trailQ := []
  ahead := []
  scanPc := pc
  line := none
  tid := tid
  rgn := 0
  passb := 0
  trapb := 0
  fltq := 0
  rctl := 1
  sclamp := 0
  tcyc := 0
  ops := []
  nextOp := 0
  rep := .empty
  vsave := 0
  st := .running
  watch := []
  sleep := none
  life := life
  region := region
  cons := none
  stop := none
  yielded := false
  ending := false
  issued := 0
  lastPipe := .trail
  blocked := 0
  stale := []
  prio := 0
  issuedAt := 0
  waited := false
  yieldAt := 0
  guest := none
  woken := false
  jump := false
  lastGt := 0
  parks := []
  fwds := []

end Sys2Proof.Machine
end

