-- ==== Sys2Proof/Machine/HomeTypes.lean ====
section
/-! DEFINITION. What a core and its partition hold: L1 sectors (R89, R94), channels (R154), posts and queues of messages (R285,
R341), the directory (R90, R95), watcher records (R96), ladings (R102), the TLB (R76 to R78) and the regions (R288, R291). -/

namespace Sys2Proof.Machine

/-- The states of an L1 sector (R94). -/
inductive L1St where
  | m | e | s | sw | l | isd | imd | sma | mia | eia | ild
  deriving DecidableEq, Repr

/-- A sector in an L1. `entry` is the Lading Table entry of a sector in state L; `held` a forward that waits for DATA, FWDX or not, with its
transaction (R94); `nt` says that it is placed first for replacement (R132); `rd` are the read bits of the core's slots (R334); `bad` is the
kind of the store whose uncorrectable error the data carries (R411). -/
structure L1Sec where
  st : L1St
  data : V512
  dirty : BitVec 64
  entry : Nat
  held : Option (Bool × Nat)
  nt : Bool
  rd : BitVec 256
  bad : Option Nat
  deriving DecidableEq, Repr

/-- A receive channel (R154). -/
structure Channel where
  seqnext : BitVec 16
  gen : BitVec 8
  arith : Bool
  isOpen : Bool
  len : Nat
  wm : Nat
  base : Nat
  arrived : BitVec 128
  region : Nat
  deriving DecidableEq, Repr

/-- A channel after core reset. -/
def Channel.closed : Channel := ⟨0, 0, false, false, 0, 0, 0, 0, 0⟩

/-- A post of a core (R341): the handler PC and the fields of its post table entry, with the binder's state. -/
structure Post where
  region : Nat
  hpc : Word
  prio : Nat
  ownPrio : Bool
  cls : Nat
  fmask : Bool
  rsv : Nat
  age : Nat
  streak : Nat
  tmask : Bool
  dmask : Bool
  smask : Bool
  drain : Bool
  /-- The thousandths of a cycle for which the post has stood as R343 counts them since its last AGE step, and the rotation of forwarded
  messages (R359). -/
  stood : Nat
  fwd : Nat
  deriving DecidableEq, Repr

/-- A speculative reader record (R334); `name` is the line of an AM 0 record or the sector of a local one. -/
structure Reader where
  name : Nat
  smask : BitVec 4
  key : Key
  region : Nat
  deriving DecidableEq, Repr

/-- What one core holds. -/
structure Core where
  rsbase : Nat
  l1sz : BitVec 2
  l1 : List (Nat × L1Sec)
  sp : Memory
  chans : Vector Channel 16
  hold : List EvUpdate
  lut : List Byte
  inbox : List InMsg
  deque : List InMsg
  /-- The messages that the regions' slices hold (R347), with what travels beside them. -/
  spilling : List (Nat × InMsg)
  /-- The porter replays (R349); the region that it served last. -/
  replaying : Bool
  served : Nat
  /-- The slices that have been full since they last had room (R350). -/
  fulls : List (Nat × Nat)
  /-- For each region the steal requests that the core has sent, and the time of its next (R286). -/
  steals : List (Nat × (Nat × Nat))
  lastGen : List (Nat × BitVec 6)
  spilledMap : List (Nat × BitVec 64)
  posts : List (Nat × Post)
  rotation : Nat
  suspectTime : Bool
  missed : Nat
  gtOff : Int
  suspect : Bool
  corrected : Nat
  readers : List Reader
  /-- The sectors of the scratchpad that a clearing has prepared (R324). -/
  prepped : List (Nat × (Nat × Nat))
  /-- The sectors whose ACK or WBACK an operation of a thread awaits (R94, R135). -/
  acks : List (Nat × OpRef)
  /-- The sectors of the scratchpad with an uncorrectable error (R411). -/
  spBad : List Nat
  guests : List Nat
  /-- An LMCFG that waits: the size to which the scratchpad shrinks, and the slot of its thread (R171). -/
  shrink : Option (Nat × Nat)
  deriving DecidableEq, Repr

/-- A core after core reset (R50, R150, R154, R232, R281); what the spec leaves open there is named in assumption 3. -/
def Core.reset : Core where
  rsbase := 0
  l1sz := 0
  l1 := []
  sp := []
  chans := Vector.replicate 16 .closed
  hold := []
  lut := List.replicate 16 0
  inbox := []
  deque := []
  spilling := []
  replaying := false
  served := 0
  fulls := []
  steals := []
  lastGen := []
  spilledMap := []
  posts := []
  rotation := 0
  suspectTime := false
  missed := 0
  gtOff := 0
  suspect := false
  corrected := 0
  readers := []
  prepped := []
  acks := []
  spBad := []
  guests := []
  shrink := none

/-- A TLB entry (R72, R78); `srcs` are the sectors of page table that it was derived from. -/
structure TlbEntry where
  asid : BitVec 16
  glob : Bool
  vbase : Nat
  size : Nat
  pbase : Nat
  rd : Bool
  w : Bool
  x : Bool
  sh : Bool
  d : Bool
  level : Nat
  srcs : List Nat
  deriving DecidableEq, Repr

/-- The states of a sector at its home (R95). -/
inductive HomeSt where
  | u | s | x | uf | si | xfs | xfx | xfsg | xfxg
  deriving DecidableEq, Repr

/-- The open transaction of a sector (R93): the request, its number, the cores and the bits of TRACTS whose replies are awaited, and whether
the host's is. -/
structure Txn where
  req : Event
  no : Nat
  wait : List Nat
  tracts : List Nat
  host : Bool
  deriving DecidableEq, Repr

/-- A sector's state at its home; `prep` names the clearing that prepared it (R324); `queue` the requests that wait. -/
structure HomeSec where
  st : HomeSt
  txn : Option Txn
  prep : Option (Nat × Nat)
  queue : List Event
  deriving DecidableEq, Repr

/-- A sector that no L1 holds. -/
def HomeSec.idle : HomeSec := ⟨.u, none, none, []⟩

/-- A watcher record (R96). `tag` is the tenant tag of a WATCHQ record (R287), `eng` the cluster of a KIND 2 record's engine. -/
structure Watcher where
  kind : BitVec 2
  smask : BitVec 4
  target : BitVec 32
  tag : BitVec 16
  eng : Nat
  deriving DecidableEq, Repr

/-- A directory entry or shell (R90, R96). `ptrs` are cores with their sector masks; in coarse mode `tracts` stands for them; `chain` is the
block of the caravanserai with which the chain of its watchers and speculative readers begins. -/
structure DirEntry where
  secs : Vector HomeSec 4
  coarse : Bool
  ptrs : List (Nat × BitVec 4)
  tracts : BitVec 64
  host : Bool
  tu : Bool
  watchers : List Watcher
  chain : Option Nat
  inL2 : Bool
  dirty : BitVec 4
  deriving DecidableEq, Repr

/-- The entry of a line without copies, watchers or marks, which is not in the L2. -/
def DirEntry.empty : DirEntry := ⟨Vector.replicate 4 .idle, false, [], 0, false, false, [], none, false, 0⟩

/-- The states of a lading (R102, R105). -/
inductive LadSt where
  | held | releasing | revoked
  deriving DecidableEq, Repr

/-- A live entry of the Lading Table (R102); `holder` is the thread's slot beside its TID; `waiters` are the operations of waiting
ACQRs, oldest first; `waitAcc` says that an access waits; `tries` are the slots whose next instruction waits for one (R101); `clear` says that
the holder's core has given its sectors up (R101, R104). -/
structure Lading where
  st : LadSt
  log2 : Nat
  base : Nat
  tid : BitVec 32
  core : Nat
  slot : Nat
  gen : BitVec 8
  tsus : Bool
  expiry : Nat
  disc : Nat
  waiters : List OpRef
  waitAcc : Bool
  tries : List (Nat × Nat)
  clear : Bool
  deriving DecidableEq, Repr

/-- What a Lading Table entry keeps while it is free (R102). -/
structure LadRest where
  gen : BitVec 8
  disc : Nat
  deriving DecidableEq, Repr

/-- The state of a speculation tag (R336). -/
inductive TagSt where
  | live | cleared | aborted
  deriving DecidableEq, Repr

/-- An entry of the speculation tag table (R336). -/
structure TagEntry where
  key : Key
  parent : BitVec 16
  st : TagSt
  deriving DecidableEq, Repr

/-- A memory window of a partition (R66), its own (`priv`) or shared, interleaved or whole fields; `fields` is F: each field with its FOFF and
FLEN; `hdm` are the HDM decoders that the monitor binds to it, each a host port with one of its four (R379). -/
structure Window where
  base : Nat
  size : Nat
  priv : Bool
  interleaved : Bool
  fields : List (Nat × Nat × Nat)
  hdm : List (Nat × Nat)
  deriving DecidableEq, Repr

/-- An open key of the fault merge table (R84): region, cause, level, the log2 of the span and the address above it, with the index of its
record; no index while the record waits for room (R85). One whose record was lost stays, and what merges into it is lost (R428). -/
structure MergeKey where
  region : Nat
  cause : BitVec 8
  level : BitVec 3
  log : Nat
  span : Nat
  idx : Option Nat
  lost : Bool
  deriving DecidableEq, Repr

/-- A fault record that has no place in the queue yet (R85, R368), with the continuation addresses that follow it and the threads
whose trap waits for it. -/
structure PendingRec where
  region : Nat
  fields : List (Nat × Nat × Nat)
  cont : List Nat
  key : Option MergeKey
  count : Nat
  waits : List (Nat × Nat)
  deriving DecidableEq, Repr

/-- The control record of a drover (R355 to R359). -/
structure Drover where
  on : Bool
  block : Nat
  /-- The cores that change their role: each with its donor and its recipient stage (R359). -/
  moving : List (Nat × (Nat × Nat))
  deriving DecidableEq, Repr

/-- An error event (R415): its class and kind, its sector, the virtual address of a consuming access, the thread and the core that report it, and the
region of the thread. -/
structure ErrEvent where
  cls : Nat
  kind : Nat
  sec : Option ErrSec
  va : Option Word
  tid : BitVec 32
  core : Nat
  region : Option Nat
  deriving DecidableEq, Repr

/-- An error record whose index has not been consumed, by its class, kind and sector (R414). -/
structure ErrKey where
  cls : Nat
  kind : Nat
  sec : Option ErrSec
  idx : Nat
  deriving DecidableEq, Repr

/-- A world switch in progress (R396): the functions that leave and come; `flushed` says that the L1s were told to write back. -/
structure World where
  out : Nat
  into : Nat
  flushed : Bool
  restoring : Bool
  deriving DecidableEq, Repr

/-- A resize in progress (R377): its tracts and the command. -/
structure Resize where
  tracts : List Nat
  cmd : Nat × (Nat × Nat)
  /-- The threads that the freeze has stopped. -/
  stopped : List (BitVec 32)
  deriving DecidableEq, Repr

/-- A partition (R66, R86, R87, R381). -/
structure Part where
  tracts : List Nat
  windows : List Window
  cvw : Nat
  /-- The functions that are bound to the partition, and those of them that hold SYS (R381). -/
  fns : List Nat
  sysFns : List Nat
  dir : List (Nat × DirEntry)
  hostSecs : List (Nat × Bool)
  ladings : List (Nat × Lading)
  ladRest : List (Nat × LadRest)
  readers : List Reader
  tags : List (Nat × TagEntry)
  spilled : List ((Nat × Nat × Nat) × Thread)
  merge : List MergeKey
  pending : List PendingRec
  drover : Drover
  orphans : Nat
  frozen : Bool
  /-- The link ports and the host ports that the monitor assigns (R400, R380). -/
  ports : List Nat
  hports : List Nat
  /-- The open records of the virtual error queue (R414). -/
  errs : List ErrKey
  /-- The error events that wait for a region, through whose address space their ring is reached (R414). -/
  errWait : List ErrEvent
  /-- The function whose time slice runs, the quantum in ns, the time at which it ends, and a switch in progress (R396). -/
  active : Nat
  quantum : Nat
  quantumEnd : Nat
  world : Option World
  resize : Option Resize
  /-- The number of the next transaction of a home (R93). -/
  txns : Nat
  deriving DecidableEq, Repr

/-- A partition reaches the host range and is not tenant-limited when a function bound to it holds SYS (R67, R381). -/
def Part.sys (q : Part) : Bool := q.fns.any fun f => q.sysFns.contains f

/-- The lifecycle of a region (R288). -/
inductive RState where
  | notLaunched | live | terminated | ended
  deriving DecidableEq, Repr

/-- A stop of a region by PREEMPT, by a world switch, for a resize or for a core's removal (R372 to R377): the mode 0 run to completion, 1
register-space switch, 2 spatial; its area, deadline and command; the cores that are vacated with their hosts, and the engines; the messages
saved in the area, by the core that they were addressed to and whether in the deque, with what travels beside them; the RSBASE of each core;
the threads that it stopped. `cut` says that the deadline has passed, `keep` that nothing restores it, `world` that it is a world switch's. -/
structure Switch where
  mode : Nat
  sva : Nat
  deadline : Nat
  cmd : Option (Nat × (Nat × Nat))
  moves : List (Nat × Nat)
  engines : List (Nat × Nat)
  saved : List (Nat × (Bool × InMsg))
  rsb : List (Nat × Nat)
  stopped : List (BitVec 32)
  cut : Bool
  done : Bool
  keep : Bool
  world : Bool
  /-- Non-direct activations are dropped, since the quantum has ended under the switch (R328, R396). -/
  drop : Bool
  restoring : Bool
  restore : Option (Nat × (Nat × Nat))
  deriving DecidableEq, Repr

/-- A region while live: the effective fields of R288 and R289, as resolved at launch, and the device state of R291. -/
structure Region where
  parent : Nat
  children : List Nat
  part : Nat
  selfva : Word
  cmap : List Nat
  slots : Nat
  prio : Nat
  emode : BitVec 2
  swmode : Bool
  lmperm : Bool
  l1sz : BitVec 2
  rootp : Nat
  tceil : Nat
  asid : BitVec 16
  rquota : Nat
  troot : Nat
  tariff : Nat
  fltq : Word
  fline : Word
  crec : Word
  trapa : Word
  passa : Word
  passr : Word
  postt : Word
  posts : BitVec 64
  sheap : Word
  shlen : Nat
  nsp : List (Nat × Nat)
  rstate : RState
  rlive : Nat
  acts : Nat
  sent : Nat
  consumed : Nat
  lastWave : Option (Nat × Nat)
  faults : Nat
  ovfclr : Bool
  rerun : Bool
  disc : Nat
  /-- Pairing offsets o1, o2, o3 (R329), and the logical numbers left out of E. -/
  pairing : Option (Nat × Nat × Nat)
  unpaired : List Nat
  charge : Nat
  /-- The allowance of the window (R351). -/
  allow : Nat
  tmasked : Bool
  frontier : Key
  lastCleared : Option Key
  clearq : List (Nat × Nat)
  tag : BitVec 16
  /-- Vacated cores of the map with the core that hosts each (R374). -/
  aliases : List (Nat × Nat)
  /-- The completion record has not performed (R291). -/
  crecDue : Bool
  /-- The last update of the record failed (R291). -/
  crecLost : Bool
  /-- The global time of termination (R291). -/
  gtend : Nat
  /-- The function, queue and index of the LAUNCH. -/
  launch : Option (Nat × Nat × Nat)
  /-- A stop that has not been restored. -/
  switch : Option Switch
  /-- The spatial pre-emptions that have completed and that no RESTORE has reversed, oldest first (R374, R375). -/
  vacated : List Switch
  deriving DecidableEq, Repr

end Sys2Proof.Machine
end

