-- ==== Sys2Proof/Machine/EngineTypes.lean ====
section
/-! DEFINITION. What a cluster and its matrix engine hold: the residency table (R249), counters and the
progress word of each side (R256, R259, R276), and the sensors and plan of the cluster (R352, R418). -/

namespace Sys2Proof.Machine

/-- One side of an engine (R256, R259). -/
structure Side where
  counters : Vector (BitVec 48) 8
  progress : BitVec 32
  deriving DecidableEq, Repr

def Side.reset : Side := ⟨Vector.replicate 8 0, 0⟩

/-- A cluster: its engine with the residency table (R249; guest entries under a flag, R375), its sensors and its plan. `host` is the
cluster that carries it as a guest (R374); `maxcls` the classes allowed by each region's ceiling (R352); `throttle` the feeding of R353. -/
structure Cluster where
  cfg : Word
  table : List ((Bool × Nat) × Residency)
  side0 : Side
  side1 : Side
  uses : Nat
  /-- The weight of each region since the meter's last report (R351). -/
  weights : List (Nat × Nat)
  host : Option Nat
  quarter : Nat
  maxcls : List (Nat × Nat)
  throttle : Nat
  grade : Nat
  mhz : Nat
  mv : Nat
  /-- The class 2 and 3 events of kinds 3 to 5 since the last plan (R418). -/
  events : Nat
  deriving DecidableEq, Repr

/-- A cluster after reset; what the spec leaves open there is named in assumption 3. -/
def Cluster.reset : Cluster := ⟨0, [], .reset, .reset, 0, [], none, 0, [], 0, 0, 1500, 0, 0⟩

end Sys2Proof.Machine
end

