-- ==== Sys2Proof/Machine/DeviceTypes.lean ====
section
/-! DEFINITION. What the host ports, the link ports and the module hold: functions and queues (R380 to R390), retry buffers and caches of the
ports (R398 to R409), the error log (R415 to R417), Customs (R419, R420) and boot (R421). -/

namespace Sys2Proof.Machine

/-! ### Functions (R380 to R390) -/

/-- A queue's states (R383). -/
inductive QState where
  | active | paused | draining | error | destroyed
  deriving DecidableEq, Repr

/-- The codes of R383. -/
def QState.code : QState → Nat
  | .active => 0 | .paused => 1 | .draining => 2 | .error => 3 | .destroyed => 4

/-- An accepted copy of a QCB (R383). -/
structure Qcb where
  rbase : Word
  cbase : Word
  log2d : Nat
  log2c : Nat
  req : Nat
  vec : Nat
  ven : Bool
  gen : Nat
  deriving DecidableEq, Repr

/-- Where a fetched command stands (R386, R389). -/
inductive CmdSt where
  | fetched
  | running
  | done (status detail disp disc : Nat)
  deriving DecidableEq, Repr

/-- A command in a slot (R382). `held` says that it occupies one of the function's slots; `step` counts what it has done, the parts of a LAUNCH;
`disc` the parts discarded (R394); `sealed` is false of one that failed its seal (R388). -/
structure CmdSlot where
  idx : Nat
  cmd : BitVec 1024
  st : CmdSt
  held : Bool
  step : Nat
  disc : Nat
  sealed : Bool
  deriving DecidableEq, Repr

/-- A queue of a function: its QCB's address and accepted copy, CIDX, PIDX, the completions written, the failures of the entry at CIDX, the next
poll, and the commands that wait for its acceptance or for its destruction. -/
structure Queue where
  addr : Word
  copy : Option Qcb
  cidx : Nat
  pidx : Nat
  st : QState
  done : Nat
  tries : Nat
  pollAt : Nat
  slots : List CmdSlot
  creator : Option (Nat × Nat)
  destroyers : List (Nat × Nat)
  /-- The time of the next fetch of an entry that failed its seal (R388). -/
  fetchAt : Nat
  deriving DecidableEq, Repr

/-- An MSI-X table entry (R380). -/
structure MsixEntry where
  addr : Word
  data : BitVec 32
  ctl : BitVec 32
  deriving DecidableEq, Repr

/-- A function of the device (R380, R381): its registers, its attributes, its dependence counters and its queues. -/
structure Fn where
  part : Nat
  qq : Nat
  dq : Nat
  asidLo : Nat
  asidHi : Nat
  gres : Nat
  admqcb : Word
  msix : List (Nat × MsixEntry)
  pba : Word
  counters : List (Nat × Word)
  queues : List (Nat × Queue)
  resetting : Bool
  /-- The reset of the PF waits for those of the VFs (R397). -/
  resetDue : Bool
  plugin : Bool
  deriving DecidableEq, Repr

/-- A function after reset: the defaults of R381; it belongs to partition 0 until the monitor binds it (assumption 3). -/
def Fn.reset : Fn := ⟨0, 32, 128, 0, 65535, 0, 0, [], 0, [], [], false, false, true⟩

/-- An MSI-X write that left the module on a host port (R390). -/
structure Msi where
  port : Nat
  fn : Nat
  vec : Nat
  addr : Word
  data : BitVec 32
  /-- The tenant tag that the write carries (R381). -/
  tag : BitVec 16
  deriving DecidableEq, Repr

/-! ### Link ports (R398 to R409) -/

/-- A packet in a port's retry buffer (R405): its request number, the descriptor it belongs to, its target and effect, where a GET's bytes go, the
expiries of the copies sent, the time of the next copy, the unanswered copies, and the answer. -/
structure LinkPkt where
  req : Nat
  part : Nat
  ep : Nat
  idx : Nat
  tmod : Nat
  tep : Nat
  roff : Nat
  op : LinkOp
  laddr : Nat
  expiries : List Nat
  again : Nat
  unanswered : Nat
  ans : Option LinkAns
  deriving DecidableEq, Repr

/-- An entry of the atomic result cache (R405). -/
structure AtomEntry where
  smod : Nat
  sport : Nat
  req : Nat
  old : Word
  expiry : Nat
  deriving DecidableEq, Repr

/-- A request that an endpoint has issued and that has not performed (R403, R407): the function that runs in its partition (R396, R409), its
descriptor's index and fields, its state; `done` says that the result of an ALLRED is written (R408). -/
structure LinkReq where
  part : Nat
  fn : Nat
  ep : Nat
  idx : Nat
  desc : V512
  status : Nat
  old : Word
  done : Bool
  deriving DecidableEq, Repr

/-- What a port has sent to another module beside the packets of its retry buffer: the answer to a request of a module, port and number (R405),
or the abort of a collective to a member (R409). -/
inductive LinkOut where
  | answer (smod sport req : Nat) (ans : LinkAns)
  | abort (member group : Nat) (tag : BitVec 32)
  deriving DecidableEq, Repr

/-- A link port: `synced` of R399, the cached contexts and the endpoint-miss buffer of R406, disabled by Customs (R419); `out` is what has left. -/
structure Port where
  nextReq : Nat
  retry : List LinkPkt
  cached : List (Nat × Nat)
  waiting : List EvLinkReq
  atoms : List AtomEntry
  /-- The packets of collectives that the port has taken, while a copy of one can still arrive (R405, R408). -/
  seen : List AtomEntry
  synced : Bool
  crc : List Nat
  disabled : Bool
  out : List LinkOut
  deriving DecidableEq, Repr

def Port.reset : Port := ⟨0, [], [], [], [], [], true, [], false, []⟩

/-- A member's part of an all-reduce (R408): its ALLRED's place, its own number, and the packets that the children and the parent have
sent, each with its offset. -/
structure Coll where
  part : Nat
  ep : Nat
  idx : Nat
  group : Nat
  tag : BitVec 32
  no : Nat
  mods : List Nat
  own : List Byte
  left : List (Nat × List Byte)
  right : List (Nat × List Byte)
  down : List (Nat × List Byte)
  sentUp : Bool
  deriving DecidableEq, Repr

/-! ### Errors, Customs and boot (R415 to R421) -/

/-- The physical log, and its open records (R417). -/
structure Ras where
  plbase : Nat
  pllog2n : Nat
  plprod : Nat
  plcons : Nat
  alarm : Nat
  alseq : Nat
  open_ : List ErrKey
  alarmRec : V512
  /-- No command fetch (R419); everything halted, keys erased (R420). -/
  noFetch : Bool
  halted : Bool
  erased : Bool
  deriving DecidableEq, Repr

def Ras.reset : Ras := ⟨0, 0, 0, 0, 0, 0, [], 0, false, false, false⟩

/-- An answer to GET_MEASUREMENTS (R421). -/
structure SpdmAnswer where
  regs : List (BitVec 256)
  modId : Nat
  nonce : BitVec 256
  plan : BitVec 256
  sig : BitVec 512
  deriving DecidableEq, Repr

/-- Boot: the measurement registers, the fused counter, ROM recovery, and the answers given. -/
structure Boot where
  regs : List (BitVec 256)
  fused : Nat
  recovery : Bool
  answers : List SpdmAnswer
  deriving DecidableEq, Repr

def Boot.reset : Boot := ⟨List.replicate 8 0, 0, false, []⟩

/-- The global times of the next events that recur (R103, R291, R351, R352, R357, R413). -/
structure Recur where
  us : Nat
  tenUs : Nat
  window : Nat
  day : Nat
  deriving DecidableEq, Repr

/-- The next of each after a time. -/
def Recur.after (gt : Nat) : Recur :=
  ⟨(gt / 1000 + 1) * 1000, (gt / 10000 + 1) * 10000, (gt / 100000 + 1) * 100000, (gt / 86400000000000 + 1) * 86400000000000⟩

end Sys2Proof.Machine
end

