-- ==== Sys2Proof/Machine/State.lean ====
section
/-! DEFINITION. The state of the machine, the reasons a step can stop, and the state after reset. -/

namespace Sys2Proof.Machine

/-- Why a step stops with a fault. -/
inductive Fault where
  /-- An instruction executes while `cur` names no thread in its slot. Raised by every instruction's meaning; `step` selects a
  thread first and never raises it. Safe: the machine has no such step. -/
  | noThread
  deriving DecidableEq, Repr

/-- Why a step is refused. -/
inductive Refusal where
  /-- The row of the table of operations has no meaning in the model. Raised by `exec`. Safe. -/
  | notModelled (mnemonic : String)
  deriving DecidableEq, Repr

/-- The instruction that executes: its thread, its pipe, its place and its word. `rep` is the pass and
index of an instruction that the repetition buffer reissues (R211), `no` its place among the lead's instructions, `blocked`
since when the thread waited. -/
structure Cur where
  core : Nat
  slot : Nat
  pipe : Pipe
  ipc : Word
  iword : Slot
  rep : Option (Nat × Nat)
  instr : Instr
  no : Nat
  blocked : Nat
  deriving DecidableEq, Repr

/-- A choice of the interleaving: the pipe of a thread that executes next. -/
structure Choice where
  core : Nat
  slot : Nat
  pipe : Pipe
  deriving DecidableEq, Repr

/-- The machine. Cores are keyed by physical index x + 512 y, clusters by cx + 128 cy (R8), regions by the physical address of their
control block, partitions by number. `unitWaits` are the sectors, with their partitions, at whose homes a unit of the device had to wait in the
step that runs: the step is then undone (R93, R100); between steps it is empty. `poison` are the sectors of memory with an uncorrectable error,
each with the kind of its store (R411). -/
structure State where
  mem : Memory
  threads : List ((Nat × Nat) × Thread)
  cores : List (Nat × Core)
  tlbs : List (Nat × List TlbEntry)
  clusters : List (Nat × Cluster)
  parts : List (Nat × Part)
  regions : List (Nat × Region)
  fns : List (Nat × Fn)
  msis : List Msi
  ports : List (Nat × Port)
  reqs : List LinkReq
  colls : List Coll
  modId : Nat
  ras : Ras
  boot : Boot
  recur : Recur
  poison : List (Nat × Nat)
  gt : Nat
  fusedCores : List Nat
  fusedEngines : List Nat
  agenda : List Event
  later : List Event
  timers : List (Nat × Event)
  sched : List Choice
  slow : Bool
  unitWaits : List (Nat × Nat)
  cur : Cur
  fresh : Nat
  deriving DecidableEq, Repr

/-- The machine after reset: no partition, region or thread, memory and scratchpads with nothing listed (assumptions 1 to 3), the
model's own fields as assumptions 4, 6 and 7 say. -/
def State.reset : State where
  mem := []
  threads := []
  cores := []
  tlbs := []
  clusters := []
  parts := []
  regions := []
  fns := []
  msis := []
  ports := []
  reqs := []
  colls := []
  modId := 0
  ras := .reset
  boot := .reset
  recur := .after 0
  poison := []
  gt := 0
  fusedCores := []
  fusedEngines := []
  agenda := []
  later := []
  timers := []
  sched := []
  slow := false
  unitWaits := []
  cur := ⟨0, 0, .lead, 0, 0, none, .nop ⟨⟨0, false⟩⟩, 0, 0⟩
  fresh := 0

end Sys2Proof.Machine
end

