-- ==== Sys2Proof/Machine/Access.lean ====
section
/-! DEFINITION. Access to the parts of the state: threads and their registers (R26, R40), cores and places (R8, R9), region maps
(R290), windows (R66, R67), the agenda. -/

namespace Sys2Proof.Machine

/-- What a step answers. -/
abbrev Out := Host.Outcome State Fault Refusal

/-! ### Threads, cores and tables -/

def State.thread? (s : State) (c k : Nat) : Option Thread := alook (c, k) s.threads

def State.setThread (s : State) (c k : Nat) (t : Thread) : State := { s with threads := aset (c, k) t s.threads }

def State.delThread (s : State) (c k : Nat) : State := { s with threads := adel (c, k) s.threads }

def State.modThread (s : State) (c k : Nat) (f : Thread → Thread) : State :=
  match s.thread? c k with
  | some t => s.setThread c k (f t)
  | none => s

/-- A core; one that nothing has touched is as core reset leaves it. -/
def State.core (s : State) (c : Nat) : Core := (alook c s.cores).getD .reset

def State.setCore (s : State) (c : Nat) (x : Core) : State := { s with cores := aset c x s.cores }

def State.modCore (s : State) (c : Nat) (f : Core → Core) : State := s.setCore c (f (s.core c))

def State.part? (s : State) (p : Nat) : Option Part := alook p s.parts

def State.modPart (s : State) (p : Nat) (f : Part → Part) : State :=
  match s.part? p with
  | some x => { s with parts := aset p (f x) s.parts }
  | none => s

def State.region? (s : State) (r : Nat) : Option Region := alook r s.regions

def State.modRegion (s : State) (r : Nat) (f : Region → Region) : State :=
  match s.region? r with
  | some x => { s with regions := aset r (f x) s.regions }
  | none => s

/-- The thread that `cur` names. -/
def State.curT? (s : State) : Option Thread := s.thread? s.cur.core s.cur.slot

def State.setCur (s : State) (t : Thread) : State := s.setThread s.cur.core s.cur.slot t

def State.modCur (s : State) (f : Thread → Thread) : State := s.modThread s.cur.core s.cur.slot f

/-- Events that happen next, after those already pending. -/
def State.push (s : State) (es : List Event) : State := { s with agenda := s.agenda ++ es }

/-- An event that is tried after the next instruction, once. -/
def State.later1 (s : State) (e : Event) : State := if s.later.contains e then s else { s with later := s.later ++ [e] }

/-- An event that happens at a time of its own. -/
def State.timer (s : State) (at_ : Nat) (e : Event) : State := { s with timers := s.timers ++ [(at_, e)] }

/-! ### Places (R8, R9) -/

def coreX (c : Nat) : Nat := c % 512
def coreY (c : Nat) : Nat := c / 512
def coreAt (x y : Nat) : Nat := x + 512 * y

/-- The cluster of a core. -/
def clusterOf (c : Nat) : Nat := coreX c / 4 + 128 * (coreY c / 4)

/-- The cluster index (x mod 4) + 4 (y mod 4). -/
def clusterIdx (c : Nat) : Nat := coreX c % 4 + 4 * (coreY c % 4)

/-- The core of a cluster with a cluster index. -/
def coreOfCluster (k i : Nat) : Nat := coreAt (4 * (k % 128) + i % 4) (4 * (k / 128) + i / 4)

/-- The tract of a core. -/
def tractOf (c : Nat) : Nat := coreX c / 32 + 16 * (coreY c / 32)

/-- The tract of a cluster. -/
def tractOfCluster (k : Nat) : Nat := (k % 128) / 8 + 16 * ((k / 128) / 8)

/-- The field of a tract: tracts 2fx and 2fx + 1 of a row are field fx's (R8). -/
def fieldOfTract (t : Nat) : Nat := t % 16 / 2 + 8 * (t / 16)

/-- The field of a core: x div 64 and y div 32 (R8). -/
def fieldOf (c : Nat) : Nat := coreX c / 64 + 8 * (coreY c / 32)

def State.coreEnabled (s : State) (c : Nat) : Bool := c < 163840 && !s.fusedCores.contains c

/-- The enabled cores of a cluster in ascending cluster index. -/
def State.clusterCores (s : State) (k : Nat) : List Nat :=
  ((List.range 16).map (coreOfCluster k)).filter s.coreEnabled

/-- The cluster has an enabled matrix engine. -/
def State.engineEnabled (s : State) (k : Nat) : Bool := !s.fusedEngines.contains k

def State.cluster (s : State) (k : Nat) : Cluster := (alook k s.clusters).getD .reset

def State.modCluster (s : State) (k : Nat) (f : Cluster → Cluster) : State :=
  { s with clusters := aset k (f (s.cluster k)) s.clusters }

/-- The meter of a cluster weighs what a region does there (R351). -/
def State.weigh (s : State) (k region n : Nat) : State :=
  s.modCluster k fun x => { x with weights := aset region ((alook region x.weights).getD 0 + n) x.weights }

/-- The partition whose tracts hold a core. -/
def State.partOf (s : State) (c : Nat) : Nat :=
  match s.parts.find? (fun e => e.2.tracts.contains (tractOf c)) with
  | some e => e.1
  | none => 0

/-- The home list C of a partition (R86). -/
def homeList (p : Part) : List Nat :=
  (p.tracts.mergeSort (· ≤ ·)).flatMap fun t =>
    (List.range 64).map fun i => (8 * (t % 16) + i % 8) + 128 * (8 * (t / 16) + i / 8)

/-- The cluster in whose slice a block of the caravanserai lies (R87). -/
def blockHome (p : Part) (b : Nat) : Nat := (homeList p).getD (b % (homeList p).length) 0

/-- Entry n of the home list (R86): cluster n mod 64 of tract n div 64. -/
def homeAt (p : Part) (n : Nat) : Nat :=
  let t := (p.tracts.mergeSort (· ≤ ·)).getD (n / 64) 0
  (8 * (t % 16) + n % 8) + 128 * (8 * (t / 16) + n % 64 / 8)

/-- The home cluster of a physical address (R86). -/
def homeOf (p : Part) (pa : Nat) : Nat :=
  let h := (pa / 2 ^ 8 % 2 ^ 16) ^^^ (pa / 2 ^ 24 % 2 ^ 16) ^^^ (pa / 2 ^ 40 % 2 ^ 12)
  homeAt p (h * (64 * p.tracts.length) / 65536)

/-! ### Region maps (R290, R374) -/

/-- The cores that a region's map lists, by logical number: the enabled cores of the listed clusters. -/
def State.mapOrig (s : State) (r : Region) : List Nat := r.cmap.flatMap s.clusterCores

/-- The core that carries a core of the map: its host while it is vacated. -/
def Region.hostOf (r : Region) (c : Nat) : Nat := (alook c r.aliases).getD c

/-- The cluster that carries a cluster of the map. -/
def Region.hostCluster (r : Region) (k : Nat) : Nat := ((r.aliases.find? fun e => clusterOf e.1 = k).map fun e => clusterOf e.2).getD k

/-- The cores of a region's map by logical number, with the host's core in place of a vacated one. -/
def State.mapCores (s : State) (r : Region) : List Nat := (s.mapOrig r).map r.hostOf

/-- The core of a logical number. -/
def State.physOf (s : State) (r : Region) (lcn : Nat) : Option Nat := (s.mapCores r)[lcn]?

/-- The listed core of a logical number, vacated or not. -/
def State.origOf (s : State) (r : Region) (lcn : Nat) : Option Nat := (s.mapOrig r)[lcn]?

/-- A logical number of a region names a vacated core. -/
def State.guestLcn (s : State) (region lcn : Nat) : Bool :=
  match s.region? region with
  | some r => s.origOf r lcn ≠ s.physOf r lcn
  | none => false

/-- The place of a core in a list of cores. -/
def placeIn (l : List Nat) (c : Nat) : Option Nat :=
  let i := l.idxOf c
  if i < l.length then some i else none

/-- The logical number of a core. -/
def State.lcnOf (s : State) (r : Region) (c : Nat) : Option Nat := placeIn (s.mapOrig r) c

/-- The core and slot by which a thread is named (R374). -/
def Thread.home (t : Thread) (c k : Nat) : Nat × Nat := t.guest.getD (c, k)

/-! ### Windows (R66, R67) -/

/-- Whether an address lies in a window. -/
def inWindow (w : Window) (pa : Nat) : Bool := w.base ≤ pa && pa < w.base + w.size

/-- The field that holds an address of a window, and the address in that field (R66). -/
def Window.place (w : Window) (pa : Nat) : Nat × Nat :=
  let off := pa - w.base
  let n := w.fields.length
  if w.interleaved then
    let k := off / 4096
    let f := w.fields.getD (k % n) (0, 0, 0)
    (f.1, f.2.1 + k / n * 4096 + off % 4096)
  else ((w.fields.getD (off / 2 ^ 35) (0, 0, 0)).1, off % 2 ^ 35)

/-- A window as the monitor gives it (R66): PBASE and PSIZE in GiB, 1 to 80 fields, each range inside the field's 32 GiB; interleaved, no
larger than n times the least FLEN; in whole fields, all of each. -/
def Window.ok (w : Window) : Bool :=
  w.base % 2 ^ 30 = 0 && w.size % 2 ^ 30 = 0 && 0 < w.size && 1 ≤ w.fields.length && w.fields.length ≤ 80
    && w.fields.all (fun f => f.1 < 80 && f.2.1 + f.2.2 ≤ 2 ^ 35)
    && (if w.interleaved then w.fields.all fun f => w.size ≤ w.fields.length * f.2.2
        else w.size ≤ w.fields.length * 2 ^ 35 && w.fields.all fun f => f.2.1 = 0 && f.2.2 = 2 ^ 35)

/-- A partition as the monitor makes it (R10, R66, R87): whole tracts, one window of its own, which is interleaved over fields of its
tracts or in whole fields, at most 16 shared windows, and 1 to 8 ways pinned. -/
def Part.ok (p : Part) : Bool :=
  p.tracts.all (· < 160) && p.tracts.Nodup && (p.windows.filter (·.priv)).length = 1 && (p.windows.filter (!·.priv)).length ≤ 16
    && p.windows.all Window.ok && 1 ≤ p.cvw && p.cvw ≤ 8
    && p.windows.all fun w => !w.priv || ((!w.interleaved || w.fields.all fun f => p.tracts.any fun t => fieldOfTract t = f.1)
      && (p.tracts.length ≠ 1 || w.fields.all fun f => f.2.2 < 2 ^ 35))

/-- Ranges of fields (field, FOFF, FLEN) of which no two share a byte. -/
def fieldsApart : List (Nat × Nat × Nat) → Bool
  | [] => true
  | x :: l => (l.all fun y => x.1 ≠ y.1 || x.2.1 + x.2.2 ≤ y.2.1 || y.2.1 + y.2.2 ≤ x.2.1) && fieldsApart l

/-- The monitor has made no more partitions than the device has room for (R10), in tracts that none shares and in ranges of the fields that none
shares (R66). -/
def State.partsOk (s : State) : Bool :=
  s.parts.length ≤ 40 && s.parts.all (fun e => e.2.ok) && (s.parts.flatMap (·.2.tracts)).Nodup
    && fieldsApart (s.parts.flatMap fun e => (e.2.windows.filter (·.priv)).flatMap (·.fields))

/-- The address lies in the partition's own window. -/
def inPriv (p : Part) (pa : Nat) : Bool := p.windows.any fun w => w.priv && inWindow w pa

/-- The address lies in a shared window. -/
def inShared (p : Part) (pa : Nat) : Bool := p.windows.any fun w => !w.priv && inWindow w pa

/-- The address lies in the host range. -/
def inHost (pa : Nat) : Bool := 2 ^ 51 ≤ pa && pa < 2 ^ 52

/-- The bytes from an address up to the end of the window, or of the host range, that holds it (R67). -/
def windowRoom (p : Part) (pa : Nat) : Nat :=
  match p.windows.find? fun w => inWindow w pa with
  | some w => w.base + w.size - pa
  | none => if inHost pa then 2 ^ 52 - pa else 0

/-- R67: the access is made. -/
def physOk (p : Part) (pa : Nat) : Bool := inPriv p pa || inShared p pa || (inHost pa && p.sys)

/-! ### Registers -/

/-- g r; g0 reads zero (R26). -/
def Thread.rg (t : Thread) (r : GReg) : Word := if r = 0 then 0 else t.g[r.toNat]

/-- g r written; a write to g0 is discarded (R26). -/
def Thread.wg (t : Thread) (r : GReg) (w : Word) : Thread := if r = 0 then t else { t with g := t.g.set r.toNat w }

/-- p r; p0 reads one (R26). -/
def Thread.rp (t : Thread) (r : Reg3) : Bool := r = 0 || t.p.getLsbD r.toNat

/-- p r written; a write to p0 is discarded (R26). -/
def Thread.wp (t : Thread) (r : Reg3) (b : Bool) : Thread :=
  if r = 0 then t else { t with p := (t.p &&& ~~~(1#8 <<< r.toNat)) ||| (BitVec.ofBool b).setWidth 8 <<< r.toNat }

def Thread.rv (t : Thread) (r : VReg) : V512 := t.v[r.toNat]

def Thread.wv (t : Thread) (r : VReg) (w : V512) : Thread := { t with v := t.v.set r.toNat w }

def Thread.rm (t : Thread) (r : Reg3) : V512 := t.m[r.toNat]

def Thread.wm (t : Thread) (r : Reg3) (w : V512) : Thread := { t with m := t.m.set r.toNat w }

def Thread.rq (t : Thread) (r : Reg3) : List Word := t.q[r.toNat]

def Thread.wq (t : Thread) (r : Reg3) (l : List Word) : Thread := { t with q := t.q.set r.toNat l }

def Thread.rf (t : Thread) (r : FReg) : BitVec 32 := t.fmt[r.toNat]

def Thread.wf (t : Thread) (r : FReg) (w : BitVec 32) : Thread := { t with fmt := t.fmt.set r.toNat w }

def Thread.view (t : Thread) (a : AReg) : View := t.views[a.toNat]

def Thread.setView (t : Thread) (a : AReg) (x : View) : Thread := { t with views := t.views.set a.toNat x }

/-- Field i of ASHAPE (R51). -/
def Thread.shape (t : Thread) (a : AReg) : BitVec 16 := t.ashape.extractLsb' (16 * a.toNat) 16

def Thread.setShape (t : Thread) (a : AReg) (x : BitVec 16) : Thread :=
  { t with ashape := (t.ashape &&& ~~~(0xFFFF#64 <<< (16 * a.toNat))) ||| x.setWidth 64 <<< (16 * a.toNat) }

/-- The activation counts as bound: it has not ended, or its consignment has not cleared (R291, R325). -/
def Thread.bound (t : Thread) : Bool :=
  !t.ending || (match t.cons with
    | some x => (match x.phase with
      | .ended | .clearing _ => true
      | _ => false)
    | none => false)

/-- The thread in a slot that is named by a core, a slot and a generation (R281, R374). -/
def State.findThread (s : State) (core slot : Nat) (gen : BitVec 6) : Option (Nat × Nat) :=
  (s.threads.find? fun e => e.2.home e.1.1 e.1.2 = (core, slot) && e.2.tid.extractLsb' 26 6 = gen && e.2.bound).map (·.1)

/-- The regions from a region up to its root; the fuel bounds the depth of the tree. -/
def State.chain (s : State) (fuel r : Nat) : List Nat :=
  match fuel with
  | 0 => []
  | fuel + 1 =>
    match s.region? r with
    | some x => r :: (if x.parent = 0 then [] else s.chain fuel x.parent)
    | none => []

/-- A region with its ancestors. -/
def State.ancestors (s : State) (r : Nat) : List Nat := s.chain (s.regions.length + 1) r

/-- The guard of R25. -/
def Thread.guard (t : Thread) (g : Guard) : Bool := t.rp g.p != g.neg

/-- Stream counter s (R116): the operations of the stream that are outstanding. -/
def Thread.counter (t : Thread) (n : Nat) : Nat := (t.ops.filter fun o => o.stream = some (BitVec.ofNat 3 n)).length

/-- All counters as at context offset 0xFA0 (R54). -/
def Thread.counters (t : Thread) : Word :=
  BitVec.ofNat 64 ((List.range 8).foldl (fun acc i => acc + t.counter i % 64 * 2 ^ (6 * i)) 0)

/-- A consignment takes entries until it clears: after END those of the paths that its activation started (R325, R340). -/
def Consign.takes (x : Consign) : Bool := x.phase == .running || x.phase == .ended

/-- The consignment of an activation that has reached END: it is to clear, unless an early clearing is under way (R325, R340). -/
def Consign.atEnd (x : Consign) : Consign :=
  { x with phase := if x.phase != .running then x.phase else if x.demote then .released else .ended }

/-- The mode of R320 in which the thread runs; a demoted activation runs in direct mode (R340). -/
def Thread.buffered (t : Thread) : Bool :=
  match t.cons with
  | some c => !c.demote
  | none => false

/-! ### The executing instruction -/

/-- A meaning over the thread that `cur` names. -/
def withT (s : State) (f : Thread → Out) : Out :=
  match s.curT? with
  | some t => f t
  | none => .fault .noThread

/-- A meaning under its guard (R25): a false guard leaves everything as it is. -/
def guarded (g : Guard) (s : State) (f : Thread → Out) : Out :=
  withT s fun t => if t.guard g then f t else .next s

/-- The word at the PC of an instruction that traps: for a reissued one that of the REPRUN (R214, R362). -/
def Thread.wordAtPc (t : Thread) (pc : Word) (w : Slot) : Slot :=
  match t.rep.run with
  | some (p, r) => if p = pc then r else w
  | none => w

/-- The repetition stands again at a pass and index, with its REPRUN at the front of the trail (R214). -/
def Thread.backRep (t : Thread) (e0 : TrailEntry) (pos : Nat × Nat) : Thread :=
  let t := { t with rep := { t.rep with act := true, pass := pos.1, idx := pos.2 } }
  let e0 := { e0 with iword := t.wordAtPc e0.pc e0.iword }
  match t.trailQ with
  | e :: _ => if e.rep then t else { t with trailQ := { e0 with rep := true } :: t.trailQ }
  | [] => { t with trailQ := [{ e0 with rep := true }] }

/-- The lead pipe stands at an instruction again: the walk too, unless it has passed others since. -/
def Thread.backLead (t : Thread) (e : TrailEntry) : Thread :=
  if t.ahead.isEmpty && t.issued = e.no + 1 then { t with leadPc := e.pc, issued := e.no }
  else { t with leadPc := e.pc, ahead := e :: t.ahead }

/-- The instruction has not executed: its pipe stands at it again. -/
def State.unissue (s : State) : State :=
  let e : TrailEntry := ⟨s.cur.ipc, s.cur.iword, s.cur.instr, false, s.cur.no, false⟩
  s.modCur fun t =>
    let t := { t with waited := true, blocked := if s.cur.blocked = 0 then s.gt + 1 else s.cur.blocked }
    match s.cur.pipe, s.cur.rep with
    | .lead, _ => t.backLead e
    | .trail, none => { t with trailQ := e :: t.trailQ }
    | .trail, some pos => t.backRep e pos

/-- The instruction waits and is tried again. -/
def wait (s : State) : Out := .next s.unissue

/-- A fresh word that nothing constrains (assumption 4), with the counter advanced. -/
def State.freeWord (s : State) : Word × State := (Config.freeWord s.fresh, { s with fresh := s.fresh + 1 })

end Sys2Proof.Machine
end

