-- ==== Sys2Proof/Machine/Home.lean ====
section
/-! DEFINITION. The home of a sector (R89 to R98): grants, recalls and writes with no message in flight, wakes, stale marks (R251), the
aborts of speculative readers (R335, R337), and the sectors of an L1 and of a scratchpad. -/

namespace Sys2Proof

/-! ### Messages (R284) -/

def Msg.post (m : Msg) : Nat := (m.hdr.extractLsb' 0 6).toNat
def Msg.kind (m : Msg) : Nat := (m.hdr.extractLsb' 6 2).toNat
def Msg.prio (m : Msg) : Nat := (m.hdr.extractLsb' 8 4).toNat
def Msg.redlv (m : Msg) : Bool := m.hdr.getLsbD 12
def Msg.tsv (m : Msg) : Bool := m.hdr.getLsbD 13
def Msg.ts (m : Msg) : Nat := (m.hdr.extractLsb' 16 48).toNat
def Msg.srcTid (m : Msg) : BitVec 32 := m.hdr.extractLsb' 64 32
def Msg.sptag (m : Msg) : BitVec 16 := m.hdr.extractLsb' 104 16

/-- The message with REDLV set (R326). -/
def Msg.redeliver (m : Msg) : Msg := { m with hdr := m.hdr ||| (1#128 <<< 12) }

end Sys2Proof

namespace Sys2Proof.Machine

/-- The key that orders an activation: that of the last cleared for a late one (R333, R339). -/
def Consign.order (x : Consign) : Key := x.lateKey.getD x.key

/-- A header (R284). -/
def mkHdr (post kind prio : Nat) (ts : Option Nat) (src : BitVec 32) (devsub : Nat) (sptag : BitVec 16) : BitVec 128 :=
  BitVec.ofNat 128 (post % 64 + kind % 4 * 2 ^ 6 + prio % 16 * 2 ^ 8
    + (match ts with | some v => 2 ^ 13 + v % 2 ^ 48 * 2 ^ 16 | none => 0)
    + src.toNat * 2 ^ 64 + devsub % 256 * 2 ^ 96 + sptag.toNat * 2 ^ 104)

/-- The order of keys (R333). -/
def keyLt (a b : Key) : Bool := a.ts < b.ts || (a.ts = b.ts && a.tid < b.tid)

/-! ### Aborts (R337) -/

/-- One round of the closure of tags under "the chain of owners' tags reaches". -/
def tagRound (tags : List (Nat × TagEntry)) (d : List Nat) : List Nat :=
  d ++ (tags.filter fun e => d.contains e.2.parent.toNat && !d.contains e.1).map (·.1)

/-- The tags whose chain of owners' tags reaches `t`, with `t`. -/
def tagClosure (tags : List (Nat × TagEntry)) (t : Nat) : List Nat :=
  (List.range tags.length).foldl (fun d _ => tagRound tags d) [t]

/-- The first kept inbox entry of a message becomes unbound again; `keep` gives the message, none discards it (R325, R326). -/
def unkeep (m : InMsg) (keep : Option InMsg) : List InMsg → List InMsg
  | [] => []
  | e :: l => if e.kept && e.msg = m.msg then (match keep with | some m' => { m' with kept := false } :: l | none => l) else e :: unkeep m keep l

/-- Messages of the regions of a core's posts count as consumed (R291). -/
def State.consume (s : State) (region n : Nat) : State := s.modRegion region fun r => { r with consumed := r.consumed + n }

/-- The region to which the messages of the post of a core belong. -/
def State.postRegion (s : State) (c post : Nat) : Option Nat := (alook post (s.core c).posts).map (·.region)

/-- The read bit of a thread's slot in the tag of an L1 sector (R334). -/
def readBit (tid : BitVec 32) : BitVec 256 := 1#256 <<< (tid.extractLsb' 0 8).toNat

/-- The reader records of a thread go, and its read bits (R337). -/
def State.dropReaders (s : State) (c : Nat) (t : Thread) : State :=
  let mine : Reader → Bool := fun r => r.key.tid = t.tid.toNat && r.region = t.region
  let s := { s with cores := s.cores.map fun (e : Nat × Core) => (e.1, { e.2 with readers := e.2.readers.filter fun r => !mine r }) }
  let s := s.modCore c fun y => { y with l1 := y.l1.map fun e => (e.1, { e.2 with rd := e.2.rd &&& ~~~(readBit t.tid) }) }
  s.modPart (s.partOf c) fun p => { p with readers := p.readers.filter fun r => !mine r }

/-- The inbox entry of an activation's message is released, or holds the message again (R325, R326). -/
def State.freeEntry (s : State) (c : Nat) (t : Thread) (keep : Option InMsg) : State :=
  match t.cons with
  | some x => s.modCore c fun y => { y with inbox := unkeep x.trig keep y.inbox }
  | none => s

/-- An activation that goes without clearing leaves the clearing queue; the unit behind the first starts (R337, R338). The units behind one
whose message is delivered again leave it too: its key is uncleared again, so that they are not below F (R333). -/
def State.leaveQueue (s : State) (region c k : Nat) (again : Bool) : State :=
  match s.region? region with
  | none => s
  | some r =>
    if !r.clearq.contains (c, k) then s
    else
      let q := if again then r.clearq.takeWhile (· ≠ (c, k)) else r.clearq.filter (· ≠ (c, k))
      let s := s.modRegion region fun r => { r with clearq := q }
      match (if r.clearq.head? = some (c, k) then q.head? else none) with
      | some e => s.push [.clearing ⟨e.1, e.2⟩]
      | none => s

/-- The write intents of an activation that have not arrived go (R337). -/
def State.dropIntents (s : State) (t : Thread) : State :=
  let mine : Event → Bool := fun e => match e with
    | .writeIntent x => x.region = t.region && t.cons.any fun y => y.order = x.key
    | _ => false
  { s with agenda := s.agenda.filter fun e => !mine e, later := s.later.filter fun e => !mine e }

/-- Frees the slot of an activation that ends without clearing: its reservation, its reader records, its write intents and its slot (R326, R337). -/
def State.dropActivation (s : State) (c k : Nat) (keep : Option InMsg) : State :=
  match s.thread? c k with
  | none => s
  | some t =>
    let s := ((((s.delThread c k).freeEntry c t keep).dropReaders c t).dropIntents t).leaveQueue t.region c k keep.isSome
    if keep.isSome then s.modRegion t.region fun r => { r with consumed := r.consumed - 1 } else s

/-- The message that an event carries to a core. -/
def eventMsg (e : Event) : Option InMsg :=
  match e with
  | .messageArrival m | .porterSpill m | .sliceFullRetry m => some ⟨m.msg, m.core, false, m.mark⟩
  | _ => none

/-- The messages that have not been consumed, with the core that each is addressed to: those in queues, in slices and kept by a switch, and
those on their way. -/
def State.unconsumed (s : State) : List InMsg :=
  let inCores := s.cores.flatMap fun e => (e.2.inbox ++ e.2.deque ++ e.2.spilling.map (·.2)).filter fun i => !i.kept
  let saved := s.regions.flatMap fun e => e.2.switch.elim [] fun w => (w.saved.map (·.2.2)).filter fun i => !i.kept
  inCores ++ saved ++ (s.agenda ++ s.later ++ s.timers.map (·.2)).filterMap eventMsg

/-- Unconsumed messages are discarded wherever they are; each counts as consumed. The record of one in a slice or in a save
area stays there, marked: what reads it back passes over it. -/
def State.discardMsgs (s : State) (dead : InMsg → Bool) : State :=
  let s := (s.unconsumed.filter fun i => dead i && i.mark.region ≠ 0).foldl (fun s i => s.consume i.mark.region 1) s
  let live : InMsg → Bool := fun i => i.kept || !dead i
  let mark : InMsg → InMsg := fun i => { i with kept := i.kept || dead i }
  let goes : Event → Bool := fun e => !(eventMsg e).any dead
  { s with
    cores := s.cores.map fun e =>
      (e.1, { e.2 with inbox := e.2.inbox.filter live, deque := e.2.deque.filter live,
                       spilling := e.2.spilling.map fun y => (y.1, mark y.2) })
    regions := s.regions.map fun e => (e.1, { e.2 with switch := e.2.switch.map fun w => { w with saved := w.saved.map fun y => (y.1, (y.2.1, mark y.2.2)) } })
    agenda := s.agenda.filter goes
    later := s.later.filter goes
    timers := s.timers.filter fun e => goes e.2 }

/-- Discards the messages of a partition that carry a dead tag (R337). -/
def State.discardTagged (s : State) (p : Nat) (dead : List Nat) : State :=
  s.discardMsgs fun i => s.partOf i.dest = p && i.msg.sptag ≠ 0 && dead.contains i.msg.sptag.toNat

/-- The copy of a pair's message that has not been bound goes with its primary (R329, R332). -/
def State.dropCopy (s : State) (x : Consign) : State :=
  match x.trig.mark.pair with
  | some (n, false) => s.discardMsgs fun i => i.mark.pair = some (n, true)
  | _ => s

/-- A tag that is live. -/
def State.tagLive (s : State) (p : Nat) (tag : BitVec 16) : Bool :=
  tag ≠ 0 && ((s.part? p).bind fun q => alook tag.toNat q.tags).any fun e => e.st == .live

/-- A tag leaves the table once its owner has cleared or aborted and nothing carries it (R336). -/
def State.freeTags (s : State) (p : Nat) : State :=
  let inThreads := s.threads.flatMap fun e => (e.2.cons.map fun x => [x.sptag.toNat, x.tag.toNat]).getD []
  let used := inThreads ++ s.unconsumed.map fun i => i.msg.sptag.toNat
  s.modPart p fun q => { q with tags := q.tags.filter fun e => e.2.st == .live || used.contains e.1 }

/-- A tag is aborted, with every tag, activation and message that descends from it (R337); that of an owner that has cleared is not. -/
def State.killTag (s : State) (p : Nat) (tag : BitVec 16) : State :=
  if !s.tagLive p tag then s
  else
    let dead := tagClosure ((s.part? p).elim [] (·.tags)) tag.toNat
    let s := s.modPart p fun q => { q with tags := q.tags.map fun e => if dead.contains e.1 then (e.1, { e.2 with st := .aborted }) else e }
    let victims := s.threads.filter fun e => s.partOf e.1.1 = p && (match e.2.cons with
      | some y => y.sptag ≠ 0 && dead.contains y.sptag.toNat
      | none => false)
    (victims.foldl (fun s e => s.dropActivation e.1.1 e.1.2 none) s).discardTagged p dead

/-- An activation can still be aborted: it has not begun to clear (R335, R340). -/
def Consign.abortable (x : Consign) : Bool := !x.demote && (x.phase == .running || x.phase == .ended)

/-- Aborts the ordered activation in a slot, with the activations and messages that descend from its tag (R337). -/
def State.abortOrdered (s : State) (c k : Nat) : State :=
  match (s.thread? c k).bind (·.cons) with
  | none => s
  | some x =>
    if !x.abortable then s
    else
      let p := s.partOf c
      (s.dropActivation c k (if s.tagLive p x.sptag then none else some { x.trig with msg := x.trig.msg.redeliver })).killTag p x.tag

/-- The slot of an uncleared ordered activation by its region and TID. -/
def State.findOrdered (s : State) (region tid : Nat) : Option (Nat × Nat) :=
  (s.threads.find? fun e => e.2.region = region && e.2.tid.toNat = tid && e.2.cons.isSome).map (·.1)

/-- The activations that a write with a key aborts: readers of the region above the key; a write with no key aborts every reader
of every region (R335). -/
def hitReaders (rs : List Reader) (name : Nat) (bit : Nat) (w : Option (Nat × Key)) : List Reader :=
  rs.filter fun r => r.name = name && r.smask.getLsbD bit && (match w with
    | some (region, key) => if r.region = region then keyLt key r.key else true
    | none => true)

/-- Aborts the readers of a list, except the writer itself. -/
def State.abortReaders (s : State) (rs : List Reader) : State :=
  rs.foldl (fun s r => match s.findOrdered r.region r.key.tid with
    | some (c, k) => s.abortOrdered c k
    | none => s) s

/-! ### The directory (R90 to R92) -/

def Part.entry (p : Part) (line : Nat) : DirEntry := (alook line p.dir).getD .empty

def State.entry (s : State) (p line : Nat) : DirEntry := (s.part? p).elim .empty (·.entry line)

def State.modEntry (s : State) (p line : Nat) (f : DirEntry → DirEntry) : State :=
  s.modPart p fun q => { q with dir := aset line (f (q.entry line)) q.dir }

/-- Sector i of an entry. -/
def DirEntry.sec (e : DirEntry) (i : Nat) : HomeSec := e.secs.toList.getD i .idle

def DirEntry.setSec (e : DirEntry) (i : Nat) (x : HomeSec) : DirEntry := { e with secs := e.secs.setIfInBounds i x }

/-- The sector is covered by a watcher (R95). -/
def DirEntry.watched (e : DirEntry) (i : Nat) : Bool := e.watchers.any fun w => w.smask.getLsbD i

/-- The pointers with a core's sector added (R90, R91); a fifth core turns the entry to coarse mode. -/
def addPtr (ptrs : List (Nat × BitVec 4)) (c i : Nat) : List (Nat × BitVec 4) :=
  aset c (((alook c ptrs).getD 0) ||| (1#4 <<< i)) ptrs

/-- The pointers with a sector removed, except that of `keep`. -/
def cutPtr (ptrs : List (Nat × BitVec 4)) (keep : Option Nat) (i : Nat) : List (Nat × BitVec 4) :=
  (ptrs.map fun e => if some e.1 = keep then e else (e.1, e.2 &&& ~~~(1#4 <<< i))).filter fun e => e.2 ≠ 0

/-- The number of a tract in its partition (R86). -/
def tractNo (p : Part) (t : Nat) : Nat := (p.tracts.mergeSort (· ≤ ·)).idxOf t

/-! ### L1 sectors -/

def State.l1 (s : State) (c sec : Nat) : Option L1Sec := alook sec (s.core c).l1

def State.setL1 (s : State) (c sec : Nat) (x : L1Sec) : State := s.modCore c fun y => { y with l1 := aset sec x y.l1 }

def State.delL1 (s : State) (c sec : Nat) : State := s.modCore c fun y => { y with l1 := adel sec y.l1 }

/-- The sector's eviction is under way (R94). -/
def L1Sec.leaves (x : L1Sec) : Bool := x.st == .mia || x.st == .eia

/-- A sector in a state, with data. -/
def L1Sec.of (st : L1St) (data : V512) : L1Sec := ⟨st, data, 0, 0, none, false, 0, none⟩

/-- A sector of memory carries the uncorrectable error that its data has, or none (R411). -/
def State.setPoison (s : State) (sec : Nat) (kind : Option Nat) : State :=
  { s with poison := match kind with
    | some k => aset sec k s.poison
    | none => adel sec s.poison }

/-- The poison of a sector of memory. -/
def State.poisonOf (s : State) (sec : Nat) : Option Nat := alook sec s.poison

/-- Bytes are stored in memory; a sector that is stored whole loses its poison (R411). -/
def State.memPut (s : State) (a : Nat) (bs : List Byte) : State :=
  { s with
    mem := memWrite s.mem a bs
    poison := s.poison.filter fun e => !(decide (a ≤ 64 * e.1) && decide (64 * e.1 + 64 ≤ a + bs.length)) }

/-- The cores of a partition that hold a sector tracked by the home. -/
def State.holders (s : State) (p sec : Nat) : List Nat :=
  (s.cores.filter fun e => s.partOf e.1 = p && (match alook sec e.2.l1 with
    | some x => x.st == .m || x.st == .e || x.st == .s || x.st == .sw || x.st == .sma || x.leaves
    | none => false)).map (·.1)

/-- One copy is called back (R94): its data goes to the home if it is M; with `drop` it goes to I, else to S. A copy that is being evicted
gives its data as the PUTX does that crosses the forward (R95). -/
def State.recallOne (s : State) (sec : Nat) (drop : Bool) (c : Nat) : State :=
  match s.l1 c sec with
  | none => s
  | some x =>
    let s := if x.st == .m || x.st == .mia then { s with mem := memWrite s.mem (64 * sec) (sectorBytes x.data) } else s
    let s := if x.st == .m || x.st == .mia || x.st == .e then s.setPoison sec x.bad else s
    if x.leaves then s.setL1 c sec { x with st := .eia }
    else if x.st == .sma then (if drop then s.setL1 c sec { x with st := .imd } else s)
    else if drop then s.delL1 c sec
    else if x.st == .m || x.st == .e then s.setL1 c sec { x with st := .s } else s

/-- Calls back the copies of a sector held by cores other than `keep` (the S_I, X_FS and X_FX rows of R95). -/
def State.recall (s : State) (p sec : Nat) (drop : Bool) (keep : Option Nat) : State :=
  let hs := (s.holders p sec).filter fun c => some c ≠ keep
  let gone := hs.filter fun c => (s.l1 c sec).any (·.leaves)
  let dirty := hs.any fun c => (s.l1 c sec).any fun x => x.st == .m || x.st == .mia
  let cut : Nat × BitVec 4 → Nat × BitVec 4 := fun x => if gone.contains x.1 then (x.1, x.2 &&& ~~~(1#4 <<< (sec % 4))) else x
  let s := hs.foldl (fun s c => s.recallOne sec drop c) s
  s.modEntry p (sec / 4) fun e =>
    let h := e.sec (sec % 4)
    let e := { e with dirty := if dirty && e.inL2 then e.dirty ||| (1#4 <<< (sec % 4)) else e.dirty }
    if drop then { e.setSec (sec % 4) { h with st := if keep.isSome then h.st else .u } with ptrs := cutPtr e.ptrs keep (sec % 4) }
    else if h.st == .x && keep.isNone then
      { e.setSec (sec % 4) { h with st := if gone.length < hs.length then .s else .u } with
        ptrs := (e.ptrs.map cut).filter fun x => x.2 ≠ 0 }
    else e

/-- Records a core as holder (R91): the entry turns to coarse mode when a fifth core must be named, after its X sectors are downgraded. -/
def State.addHolder (s : State) (p sec c : Nat) (st : HomeSt) : State :=
  let e := s.entry p (sec / 4)
  let ptrs := addPtr e.ptrs c (sec % 4)
  let set := fun (e : DirEntry) => e.setSec (sec % 4) { e.sec (sec % 4) with st := st }
  let bit := fun (x : Nat) => 1#64 <<< ((s.part? p).elim 0 (tractNo · (tractOf x)) % 64)
  if e.coarse then s.modEntry p (sec / 4) fun e => { set e with tracts := e.tracts ||| bit c }
  else if ptrs.length ≤ 4 then s.modEntry p (sec / 4) fun e => { set e with ptrs := ptrs }
  else
    let s := (List.range 4).foldl (fun s i => s.recall p (sec / 4 * 4 + i) false none) s
    s.modEntry p (sec / 4) fun e =>
      { set e with coarse := true, ptrs := [], tracts := ptrs.foldl (fun acc x => acc ||| bit x.1) 0 }

/-- Leaves coarse mode by invalidating every copy of the line (R91). -/
def State.leaveCoarse (s : State) (p line : Nat) : State :=
  if (s.entry p line).coarse then
    let s := (List.range 4).foldl (fun s i => s.recall p (line * 4 + i) true none) s
    s.modEntry p line fun e => { e with coarse := false, tracts := 0, ptrs := [] }
  else s

/-- Recording a core for a sector needs a fifth pointer (R91). -/
def DirEntry.fifth (e : DirEntry) (c i : Nat) : Bool := !e.coarse && decide (4 < (addPtr e.ptrs c i).length)

/-- A line of which a fifth core writes a sector enters coarse mode, and that GETX invalidates every copy of it (R91). -/
def State.fifthOut (s : State) (p sec c : Nat) : State :=
  if (s.entry p (sec / 4)).fifth c (sec % 4) then (s.modEntry p (sec / 4) fun e => { e with coarse := true }).leaveCoarse p (sec / 4) else s

/-! ### Translation-used marks (R78) -/

/-- A walk that has read a sector of the line starts again at the root. -/
def Op.rewalk (line troot : Nat) (o : Op) : Op :=
  { o with walk := o.walk.map fun x => if x.srcs.any fun y => y / 4 = line then ⟨x.va, troot, 0, []⟩ else x }

/-- The virtual bytes that an operation has translated and not used yet: an access, an ACQR that waits, or a copy's source. -/
def OpKind.translated : OpKind → Option (Nat × Nat)
  | .acc a | .acqrWait a _ _ _ => if a.am = .virt && !a.segs.isEmpty then some (a.ea.toNat, a.n) else none
  | .copy x => if x.am = .virt && !x.sent then some (x.ea.toNat + x.next, x.len - x.next) else none
  | _ => none

/-- An access that has translated through an entry derived from a line of page table and has not performed (R78). Of the writer's own thread one
that waits for an edge on an operation not older than the write does not count, since it may wait for the write itself (DEDUCED, assumption 44). -/
def State.tuHeld (s : State) (line : Nat) (me : Option ((Nat × Nat) × Nat)) : Bool :=
  s.tlbs.any fun l => (l.2.filter fun t => t.srcs.any fun x => x / 4 = line).any fun t =>
    s.threads.any fun e => clusterOf e.1.1 = l.1 && e.2.ops.any fun o => o.parked.isNone && o.walk.isNone
      && !(me.any fun m => m.1 = e.1 && decide (m.2 ≤ o.no))
      && o.kind.translated.any fun r => decide (r.1 < t.vbase + t.size) && decide (t.vbase < r.1 + r.2)

/-- A write to a marked sector clears the mark, invalidates what was derived from the sector, and makes the walks that have read it start
again. -/
def State.clearTu (s : State) (p sec : Nat) : State :=
  if (s.entry p (sec / 4)).tu then
    let s := s.modEntry p (sec / 4) fun e => { e with tu := false }
    let troot := fun (t : Thread) => (s.region? t.region).elim 0 (·.troot)
    { s with
      threads := s.threads.map fun e =>
        if e.2.ops.any fun o => o.walk.isSome then (e.1, { e.2 with ops := e.2.ops.map (·.rewalk (sec / 4) (troot e.2)) }) else e
      tlbs := s.tlbs.map fun e => (e.1, e.2.filter fun t => !(t.srcs.any fun x => x / 4 = sec / 4)) }
  else s

/-! ### The caravanserai (R87) -/

/-- The blocks that are taken: the Lading Table, watcher chains, shells, reader chains, speculation tags and spilled contexts. -/
def Part.blocksUsed (p : Part) : Nat :=
  2048
  + (p.dir.map fun e => (e.2.watchers.length - 4 + 6) / 7
      + (if !e.2.inL2 && (!e.2.watchers.isEmpty || e.2.tu || p.readers.any fun r => r.name = e.1) then 1 else 0)).sum
  + ((p.readers.map (·.name)).dedup.map fun n => (p.readers.countP (fun r => r.name = n) + 2) / 3).sum
  + (p.tags.map fun e => e.1 / 4).dedup.length
  + 65 * p.spilled.countP fun e => e.2.st == .spilled

/-- The blocks of the caravanserai: CVW ways of 32 KiB in every cluster of the partition. -/
def Part.blocks (p : Part) : Nat := p.cvw * 512 * (64 * p.tracts.length)

/-- The first free block of the caravanserai from a number on, behind those of the Lading Table (R87). -/
def Part.freeBlock (p : Part) (x : Nat) : Nat :=
  let n := p.blocks - 2048
  let used := p.dir.filterMap (·.2.chain)
  ((List.range (used.length + 1)).map fun i => 2048 + (x + i) % n).find? (fun b => !used.contains b) |>.getD 2048

/-- n more blocks are free. -/
def Part.hasBlocks (p : Part) (n : Nat) : Bool := p.blocksUsed + n ≤ p.blocks

/-! ### The L2 (R95, R96) -/

/-- The line needs a shell in the caravanserai (R96). -/
def DirEntry.shell (e : DirEntry) (readers : Bool) : Bool := !e.watchers.isEmpty || e.tu || readers

/-- A message that brings a write or data of a sector is on its way (R93). -/
def Event.onWay (sec : Nat) : Event → Bool
  | .wrt x => x.pa / 64 = sec
  | .data x => x.pa / 64 = sec
  | _ => false

/-- No transaction and no clearing holds the sector at its home, and no write or data of it is on its way. -/
def State.homeFree (s : State) (p sec : Nat) : Bool :=
  let h := (s.entry p (sec / 4)).sec (sec % 4)
  h.txn.isNone && h.prep.isNone && !s.agenda.any (Event.onWay sec)

/-- No sector of the line is held at its home. -/
def State.lineFree (s : State) (p line : Nat) : Bool := (List.range 4).all fun i => s.homeFree p (4 * line + i)

/-- Replacement may choose a line (R95, R96): one with no open transaction, whose shell can be written. -/
def State.replaceable (s : State) (p : Nat) (q : Part) (line : Nat) : Bool :=
  let e := q.entry line
  e.inL2 && s.lineFree p line && (!e.shell (q.readers.any fun r => r.name = line) || q.hasBlocks 1)

/-- The L2 replaces a line (R95, R96). -/
def State.replaceLine (s : State) (p line : Nat) : State :=
  match s.part? p with
  | none => s
  | some q =>
    if !s.replaceable p q line then s
    else
      let e := q.entry line
      let s := (List.range 4).foldl (fun s i => s.recall p (4 * line + i) true none) (s.leaveCoarse p line)
      let s := s.clearTu p (4 * line)
      let gone := q.hostSecs.filter fun y => y.1 / 4 = line && !e.watched (y.1 % 4)
      let s := s.push (gone.map fun y => .cxlCacheResponse ⟨64 * y.1, if y.2 then .dirtyEvict else .cleanEvict, memSector s.mem (64 * y.1)⟩)
      s.modEntry p line fun e => { e with inL2 := false, dirty := 0 }

/-- The lines of a set of a home's slice that are in it, for a line; none while the L2 holds fewer lines than a set has ways. -/
def Part.setLines (q : Part) (line : Nat) : List Nat :=
  let l := (q.dir.filter fun e => e.2.inL2).map (·.1)
  if l.length < 16 - q.cvw then [] else l.filter fun x => Config.l2Set x = Config.l2Set line && homeOf q (256 * x) = homeOf q (256 * line)

/-- A way is found for a line (R96): a free one, or that of a line that replacement chooses; none where no line of the set can be chosen. -/
def State.takeWay (s : State) (p line : Nat) : State :=
  match s.part? p with
  | none => s
  | some q =>
    let l := q.setLines line
    let enter := fun (s : State) => s.modEntry p line fun e => { e with inL2 := true }
    if l.length < 16 - q.cvw then enter s
    else
      match l.filter (s.replaceable p q) with
      | [] => s
      | c :: cs => enter ({ s with fresh := s.fresh + 1 }.replaceLine p ((c :: cs).getD (Config.victim s.fresh % (cs.length + 1)) c))

/-- A request at the home of a line that the L2 does not hold reads it from the memory-side cache slice into a way, where it can have one; what the
L2 holds is not given at reset, and there it is empty (R95, R96; DESIGN CHOICE, assumption 47). -/
def State.fill (s : State) (p line : Nat) : State := if (s.entry p line).inL2 then s else s.takeWay p line

/-- The private window of a partition: its base is PBASE (R66). -/
def Part.privBase (p : Part) : Nat := ((p.windows.find? (·.priv)).map (·.base)).getD 0

/-- The port that serves an endpoint (R400). -/
def Part.portOf (q : Part) (e : Nat) : Option Nat := q.ports[e % max 1 q.ports.length]?

/-- The port that holds the sector of a valid context as an S holder (R402). -/
def State.portHolds (s : State) (p sec : Nat) : Option Nat :=
  match s.part? p with
  | some q =>
    let b := q.privBase / 64
    if b ≤ sec && decide (sec < b + 65536) && (memNat s.mem (64 * sec) 1).testBit 0 then q.portOf (sec - b) else none
  | none => none

/-- The number by which a home names a port among its holders, above those of the cores. -/
def portAgent (n : Nat) : Nat := 2 ^ 18 + n

/-! ### Reads and writes at the home -/

/-- A write of a sector that the home's rows send to S_I sends BISnpInv for it while the host may hold the line (R99); the host's answer is
free, and what it had modified goes into the L2. -/
def State.biSnoop (s : State) (p sec : Nat) : State :=
  if (s.entry p (sec / 4)).host then
    let s' := { s with fresh := s.fresh + 1 }
    match Config.hostCopy s.fresh with
    | some d => ({ s' with mem := memWrite s.mem (64 * sec) (sectorBytes d) } : State).modEntry p (sec / 4) fun e =>
        { e with dirty := e.dirty ||| (1#4 <<< (sec % 4)) }
    | none => s'
  else s

/-- A read at the home leaves the home's copy current (the U, S and X rows for a GETS of a path). -/
def State.homeRead (s : State) (p sec : Nat) : State :=
  let s := s.fill p (sec / 4)
  if (s.holders p sec).isEmpty then s else s.recall p sec false none

/-- A grant of a sector can be made at its home: in coarse mode, or where a fifth core is recorded, no sector of the line is held there (R91). -/
def State.grantable (s : State) (p c sec : Nat) : Bool :=
  let e := s.entry p (sec / 4)
  if e.coarse || e.fifth c (sec % 4) then s.lineFree p (sec / 4) else s.homeFree p sec

/-- Grants a sector to an L1 for reading (GETS of R95). -/
def State.grantRead (s : State) (p c sec : Nat) : State :=
  let s := s.homeRead p sec
  let e := s.entry p (sec / 4)
  let excl := !e.watched (sec % 4) && (e.sec (sec % 4)).st == .u && (s.holders p sec).isEmpty && !e.coarse && !e.fifth c (sec % 4)
    && (s.portHolds p sec).isNone
  let s := s.addHolder p sec c (if excl then .x else .s)
  s.setL1 c sec { L1Sec.of (if excl then .e else .s) (memSector s.mem (64 * sec)) with bad := s.poisonOf sec }

/-- What a write permission does to others: speculative readers, translations (R78, R335). -/
def State.beforeWrite (s : State) (p sec : Nat) (w : Option (Nat × Key)) : State :=
  let rs := (s.part? p).elim [] fun q => hitReaders q.readers (sec / 4) (sec % 4) w
  (s.abortReaders rs).clearTu p sec

/-- A GETX takes a row that leads to S_I: of a watched sector, of a shared one, or of a line in coarse mode (R91, R95). -/
def DirEntry.shared (e : DirEntry) (i : Nat) : Bool := e.watched i || (e.sec i).st == .s || e.coarse

/-- Grants a sector to an L1 for writing (GETX of R95): M, or SW when the sector is watched. -/
def State.grantWrite (s : State) (p c sec : Nat) : State :=
  let own := s.l1 c sec
  let s := s.fill p (sec / 4)
  let s := if (s.entry p (sec / 4)).shared (sec % 4) then s.biSnoop p sec else s
  let s := s.leaveCoarse p (sec / 4)
  let s := (s.recall p sec true (some c)).fifthOut p sec c
  let w := (s.entry p (sec / 4)).watched (sec % 4)
  let s := s.addHolder p sec c (if w then .s else .x)
  let data := match own with
    | some x => if x.st == .m then x.data else memSector s.mem (64 * sec)
    | none => memSector s.mem (64 * sec)
  s.setL1 c sec { L1Sec.of (if w then .sw else .m) data with bad := own.elim (s.poisonOf sec) (·.bad) }

/-- The residency takes a stale mark (the mark rows of R250, R251). -/
def Residency.stale (r : Residency) : Residency :=
  match r.st with
  | .loading => { r with mark := true }
  | .resident | .pinned | .evicted => { r with st := .stale }
  | _ => r

/-- Counter i of a side counts n more (R256). -/
def Side.bump (x : Side) (i n : Nat) : Side := { x with counters := x.counters.setIfInBounds i (x.counters.toList.getD i 0 + BitVec.ofNat 48 n) }

def State.modSide (s : State) (k : Nat) (side : Bool) (f : Side → Side) : State :=
  s.modCluster k fun x => if side then { x with side1 := f x.side1 } else { x with side0 := f x.side0 }

/-- The engine that holds the table of a cluster's engine, and whether as a guest (R375). -/
def State.engineAt (s : State) (k : Nat) : Nat × Bool :=
  match (s.cluster k).host with
  | some h => (h, true)
  | none => (k, false)

/-- The entry of a record's handle in a cluster's table, its own or a guest's (R251, R375). -/
def State.recordEntry (s : State) (k : Nat) (h : BitVec 32) : Option (Nat × (Bool × Nat) × Residency) :=
  let idx := (h.extractLsb' 1 11).toNat
  let mine : Residency → Bool := fun r => r.gen = h.extractLsb' 26 6 && r.eng = (h.extractLsb' 12 14).toNat
  [(k, (false, idx)), ((s.engineAt k).1, ((s.engineAt k).2, idx))].findSome? fun e =>
    ((alook e.2 (s.cluster e.1).table).filter mine).map fun r => (e.1, e.2, r)

/-- A stale mark reaches the entry of a record (R251). -/
def State.markStale (s : State) (k : Nat) (h : BitVec 32) : State :=
  match s.recordEntry k h with
  | some (e, key, r) => (s.modCluster e fun x => { x with table := aset key r.stale x.table }).modSide e r.side (·.bump 5 1)
  | none => s

/-- The core to which the routing delivers what is addressed to a core for a post: the host of a vacated core of the post's region (R374). -/
def State.route (s : State) (core post : Nat) : Nat :=
  match s.regions.find? fun e => (alook core e.2.aliases).isSome && e.2.posts.getLsbD post && e.2.rstate == .live with
  | some e => e.2.hostOf core
  | none => core

/-- A message leaves for the inbox of a core; it counts as sent for the region of its post (R291). -/
def State.sendMsg (s : State) (core : Nat) (m : Msg) (src : Option OpRef) (mark : MsgMark) : State :=
  let r := s.postRegion (s.route core m.post) m.post
  let s := match r with
    | some r => s.modRegion r fun x => { x with sent := x.sent + 1 }
    | none => s
  s.push [.messageArrival ⟨core, m, src, false, { mark with region := r.getD 0 }⟩]

/-- Every residency record of a written sector takes its stale mark, before the write performs (R251). -/
def State.markSector (s : State) (p sec : Nat) : State :=
  ((s.entry p (sec / 4)).watchers.filter fun x => x.kind = 2 && x.smask.getLsbD (sec % 4)).foldl (fun s x => s.markStale x.eng x.target) s

/-- The message of a KIND 3 wake (R144). Its PRIO is 0: the spec gives none for a message from a home (DESIGN CHOICE, assumption 44). -/
def wakeMsg (line : Nat) (mask : BitVec 4) (w : Watcher) : Msg :=
  ⟨mkHdr (w.target.extractLsb' 0 6).toNat 3 0 none 0 1 0,
    BitVec.ofNat 384 (line * 256 + (mask.toNat + (w.target.extractLsb' 24 8).toNat * 256) * 2 ^ 64), w.tag⟩

/-- The wakes leave the home, after the write has performed: one for each record that covers a written sector (R97). -/
def State.sendWakes (s : State) (p line : Nat) (mask : BitVec 4) : State :=
  (s.entry p line).watchers.foldl (fun s w =>
    let hit := w.smask &&& mask
    if hit = 0 then s
    else if w.kind = 1 then s.push [.wake ⟨line, hit, w.target⟩]
    else if w.kind = 3 then s.sendMsg (w.target.extractLsb' 6 18).toNat (wakeMsg line hit w) none .new
    else s) s

def State.port (s : State) (n : Nat) : Port := (alook n s.ports).getD .reset

def State.modPort (s : State) (n : Nat) (f : Port → Port) : State := { s with ports := aset n (f (s.port n)) s.ports }

/-- A write to an endpoint's context makes its port read the context again (R402). -/
def State.linkWrite (s : State) (p sec : Nat) : State :=
  match s.part? p with
  | none => s
  | some q =>
    let b := q.privBase / 64
    let e := Event.sqprod ⟨p, sec - b⟩
    if q.ports.isEmpty || sec < b || b + 65536 ≤ sec || s.agenda.contains e then s else s.push [e]

/-- Masked bytes are stored into a copy; a store of the whole sector takes its poison away (R411). -/
def L1Sec.merge (x : L1Sec) (data : V512) (mask : BitVec 64) : L1Sec :=
  { x with data := mergeSector x.data data mask, bad := if mask = BitVec.allOnes 64 then none else x.bad }

/-- Masked bytes of a sector are applied at the home once no other copy stands: stale marks are taken, and the wakes follow. `keep` is a sender
that holds the sector in SW. -/
def State.homeStore (s : State) (p sec : Nat) (keep : Option Nat) (data : V512) (mask : BitVec 64) : State :=
  let s := (s.markSector p sec).modEntry p (sec / 4) fun e => { e with dirty := if e.inL2 then e.dirty ||| (1#4 <<< (sec % 4)) else e.dirty }
  let s := { s with mem := memMerge s.mem (64 * sec) data mask, poison := if mask = BitVec.allOnes 64 then adel sec s.poison else s.poison }
  let s := match keep with
    | some c => match s.l1 c sec with
      | some x => s.setL1 c sec (x.merge data mask)
      | none => s
    | none => s
  (s.sendWakes p (sec / 4) (1#4 <<< (sec % 4))).linkWrite p sec

/-- Masked bytes of a sector are written at the home, the host's answer in (the S_I row of R95): other copies of the sector go, and the bytes are
applied. `w` is the key of an ordered writer. A line in coarse mode stays in it, and its other sectors stay: R91 names a GETX alone (DEDUCED,
assumption 44). -/
def State.homeApply (s : State) (p sec : Nat) (keep : Option Nat) (data : V512) (mask : BitVec 64) (w : Option (Nat × Key)) : State :=
  (((s.fill p (sec / 4)).beforeWrite p sec w).recall p sec true keep).homeStore p sec keep data mask

/-- A write at the home: the host's copy is called back first (R95, R99). -/
def State.homeWrite (s : State) (p sec : Nat) (keep : Option Nat) (data : V512) (mask : BitVec 64) (w : Option (Nat × Key)) : State :=
  (s.biSnoop p sec).homeApply p sec keep data mask w

/-! ### Ladings (R100) -/

/-- A live lading covers an address. -/
def Lading.covers (l : Lading) (pa : Nat) : Bool := l.base ≤ pa && pa < l.base + 2 ^ l.log2

/-- The lading that covers an address. -/
def State.lading? (s : State) (p pa : Nat) : Option (Nat × Lading) := ((s.part? p).elim [] (·.ladings)).find? fun e => e.2.covers pa

def State.modLading (s : State) (p i : Nat) (f : Lading → Lading) : State :=
  s.modPart p fun q => { q with ladings := q.ladings.map fun e => if e.1 = i then (e.1, f e.2) else e }

/-- An access waits at a lading (R105), of an operation, or of the next instruction of a slot. -/
def State.ladWait (s : State) (p i : Nat) (next : Option (Nat × Nat)) : State :=
  s.modLading p i fun l => { l with waitAcc := true, tries := l.tries ++ (next.filter fun x => !l.tries.contains x).toList }

/-- A unit of the device comes to the home of a sector. Where a transaction, a clearing or a lading holds it, or translations that a write waits
for, the step is to be undone (R78, R93, R100). -/
def State.unitAt (s : State) (p sec : Nat) (write : Bool) : State :=
  if s.homeFree p sec && !((s.lading? p (64 * sec)).any fun e => !e.2.clear)
      && !(write && (s.entry p (sec / 4)).tu && s.tuHeld (sec / 4) none) then s
  else { s with unitWaits := s.unitWaits ++ [(p, sec)] }

/-! ### Bytes across sectors -/

/-- The byte mask of n bytes from offset o in a sector. -/
def runMask (o n : Nat) : BitVec 64 := (BitVec.allOnes 64 >>> (64 - n)) <<< o

/-- The bytes of a run as sector data from offset o. -/
def runData (o : Nat) (bs : List Byte) : V512 := BitVec.ofNat 512 (ofBytes bs * 256 ^ o)

/-- The pieces (sector, offset, length) of n bytes from an address on; a piece lies in one sector. -/
def pieces (a n : Nat) : List (Nat × Nat × Nat) :=
  let k := (a + n + 63) / 64 - a / 64
  (List.range k).filterMap fun i =>
    let sec := a / 64 + i
    let lo := max a (64 * sec)
    let hi := min (a + n) (64 * sec + 64)
    if lo < hi then some (sec, lo - 64 * sec, hi - lo) else none

/-- Bytes are written at the home, sector by sector. -/
def State.homeWriteBytes (s : State) (p pa : Nat) (bs : List Byte) (w : Option (Nat × Key)) : State :=
  (pieces pa bs.length).foldl (fun s x =>
    let (sec, o, n) := x
    (s.unitAt p sec true).homeWrite p sec none (runData o ((bs.drop (64 * sec + o - pa)).take n)) (runMask o n) w) s

/-- Bytes as the home has them, after every dirty copy is called back. -/
def State.homeReadBytes (s : State) (p pa n : Nat) : List Byte × State :=
  let s := (pieces pa n).foldl (fun s x => (s.unitAt p x.1 false).homeRead p x.1) s
  (memBytes s.mem pa n, s)

/-! ### Scratchpads (R150, R151) -/

/-- SPSZ of a core (R150). -/
def Core.spsz (c : Core) : Nat := (192 - 32 * (c.l1sz.toNat + 1)) * 1024

/-- A clearing has prepared a sector that a run of a scratchpad touches (R324). -/
def State.spHeld (s : State) (c o n : Nat) : Bool := (s.core c).prepped.any fun e => decide (64 * e.1 < o + n) && decide (o < 64 * e.1 + 64)

/-- Bytes of a scratchpad; a sector that is stored whole loses its poison (R411). -/
def Core.spPut (y : Core) (o : Nat) (bs : List Byte) : Core :=
  { y with sp := memWrite y.sp o bs, spBad := y.spBad.filter fun e => !(decide (o ≤ 64 * e) && decide (64 * e + 64 ≤ o + bs.length)) }

/-- The poisoned sector that a read of a scratchpad meets (R410, R411). -/
def State.spPoison (s : State) (c o n : Nat) : Option Bad :=
  ((s.core c).spBad.find? fun e => decide (64 * e < o + n) && decide (o < 64 * e + 64)).map fun e => ⟨3, .sp c e⟩

/-- Bytes are written to a scratchpad, after the uncleared readers that the write aborts (R335). -/
def State.spWrite (s : State) (c o : Nat) (bs : List Byte) (w : Option (Nat × Key)) : State :=
  let rs := (pieces o bs.length).flatMap fun x => hitReaders (s.core c).readers (x.1 / 4) (x.1 % 4) w
  let s := s.abortReaders rs
  s.modCore c (·.spPut o bs)

end Sys2Proof.Machine
end

