-- ==== Sys2Proof/Machine/Translate.lean ====
section
/-! DEFINITION. Translation (R70 to R78, R80): the page walk, the TLB of a cluster, and the rights of each kind of access. -/

namespace Sys2Proof.Machine

/-- The kinds of access that R75 and R76 tell apart. `lading` is ACQR and RELR, `look` is WATCH, WATCHQ and LADQ. -/
inductive TrKind where
  | fetch | load | store | atomic | look | unwatch | flush | cinv | lading | pathR | pathW | prefetch
  deriving DecidableEq, Repr

/-- The access needs RD (R75). -/
def TrKind.needR : TrKind → Bool
  | .fetch | .store | .pathW => false
  | _ => true

/-- The access needs W (R75). -/
def TrKind.needW : TrKind → Bool
  | .store | .atomic | .cinv | .lading | .pathW => true
  | _ => false

/-- The access needs X (R75). -/
def TrKind.needX : TrKind → Bool
  | .fetch => true
  | _ => false

/-- The access is a write that sets D (R75). -/
def TrKind.writes : TrKind → Bool
  | .store | .atomic | .pathW => true
  | _ => false

/-- The access is refused on an SH page (R76). -/
def TrKind.noSh : TrKind → Bool
  | .look | .lading => true
  | _ => false

/-- ACCK of R365. -/
def TrKind.acck : TrKind → BitVec 3
  | .load | .prefetch => 0
  | .store => 1
  | .atomic => 2
  | .fetch => 3
  | .pathR => 4
  | .pathW => 5
  | .look | .unwatch | .lading => 6
  | .flush | .cinv => 7

/-- A failed translation: its cause and level (R80), and whether a walk found it (R81). -/
structure TrFault where
  cause : BitVec 8
  level : Nat
  walk : Bool
  span : Nat
  deriving DecidableEq, Repr

/-- The pages of R73: log2 of the size and the level of a size code. -/
def pageLog : Nat → Nat
  | 0 => 12 | 1 => 16 | 2 => 18 | 3 => 21 | 4 => 25 | 5 => 28 | 6 => 30 | _ => 34

def pageLevel (sz : Nat) : Nat := if sz ≤ 3 then 3 else if sz ≤ 6 then 2 else 1

/-- log2 of the span of one entry of a level (R70). -/
def spanLog (lvl : Nat) : Nat := 45 - 11 * lvl

/-- R70: bits 63:56 all equal bit 55. -/
def canonical (va : Word) : Bool := va.extractLsb' 55 9 == 0 || va.extractLsb' 55 9 == BitVec.allOnes 9

/-- A page-table entry breaks a reserved or size rule at its level (R72, R73). -/
def pteBad (e : Word) (lvl : Nat) : Bool :=
  if e.getLsbD 1 then
    let sz := (e.extractLsb' 2 3).toNat
    lvl = 0 || e.extractLsb' 52 4 != 0 || pageLevel sz != lvl || (e.extractLsb' 12 40).toNat * 4096 % 2 ^ pageLog sz != 0
  else lvl = 3 || e.extractLsb' 2 10 != 0 || e.extractLsb' 52 4 != 0 || e.extractLsb' 12 2 != 0

/-- R75: the rights of a leaf. -/
def rightsOk (rd w x : Bool) (k : TrKind) : Bool := (!k.needR || rd) && (!k.needW || w) && (!k.needX || x)

/-- R76: the SH rule of a leaf. -/
def shOk (p : Part) (pbase : Nat) (sh : Bool) (k : TrKind) : Bool :=
  (if inShared p pbase then sh else if inPriv p pbase then true else !sh) && !(sh && k.noSh)

/-- What a walk answers. -/
inductive WalkRes where
  | ok (e : TlbEntry)
  | fault (f : TrFault)
  deriving DecidableEq, Repr

/-- One entry of a walk (R74): reads the entry of `lvl` in the table at `t`. Answers the next table, or the end of the walk. -/
def walkStep (p : Part) (mem : Memory) (va : Word) (asid : BitVec 16) (k : TrKind) (t lvl : Nat) (srcs : List Nat) :
    Sum Nat WalkRes :=
  let bad := fun (c : BitVec 8) (span : Nat) => Sum.inr (WalkRes.fault ⟨c, lvl, true, span⟩)
  if !physOk p t then bad 0x15 (spanLog lvl)
  else if !inPriv p t then bad 0x12 (spanLog lvl)
  else
    let a := t + 8 * (va.toNat / 2 ^ spanLog lvl % 2048)
    let e := memDword mem a
    if !e.getLsbD 0 then bad 0x11 (spanLog lvl)
    else if pteBad e lvl then bad 0x12 (spanLog lvl)
    else if e.getLsbD 1 then
      let log := pageLog (e.extractLsb' 2 3).toNat
      let pbase := (e.extractLsb' 12 40).toNat * 4096
      let rd := e.getLsbD 5
      let w := e.getLsbD 6
      let x := e.getLsbD 7
      let sh := e.getLsbD 8
      if !rightsOk rd w x k then bad 0x13 log
      else if !shOk p pbase sh k then bad 0x14 log
      else if !physOk p pbase || !physOk p (pbase + va.toNat % 2 ^ log) then bad 0x15 log
      else .inr (.ok ⟨asid, e.getLsbD 11, va.toNat / 2 ^ log * 2 ^ log, 2 ^ log, pbase, rd, w, x, sh,
        e.getLsbD 10 || k.writes, lvl, srcs ++ [a / 64]⟩)
    else .inl ((e.extractLsb' 12 40).toNat * 4096)

/-- The sector of the entry that a walk reads at a level. -/
def pteAddr (va : Word) (t lvl : Nat) : Nat := t + 8 * (va.toNat / 2 ^ spanLog lvl % 2048)

/-- The home marks a sector of page table as used by a translation (R78). -/
def State.markTu (s : State) (p sec : Nat) : State := s.modEntry p (sec / 4) fun e => { e with tu := true }

/-- A and D are set in a leaf by a compare-and-swap at partition scope that invalidates nothing (R75). -/
def State.setAd (s : State) (p a : Nat) (write : Bool) : State :=
  let e := memDword s.mem a
  let e' := e ||| (if write then 0x600#64 else 0x200#64)
  if e = e' then s
  else
    let s := s.modEntry p (a / 256) fun x => { x with tu := false }
    (s.homeWriteBytes p a (toBytes 8 e'.toNat) none).markTu p (a / 64)

/-- The walk from a table down (R74), one level after another. -/
def State.walkFrom (s : State) (p : Nat) (va : Word) (asid : BitVec 16) (k : TrKind) (t : Nat) (srcs : List Nat) :
    List Nat → WalkRes × State
  | [] => (.fault ⟨0x12, 3, true, 12⟩, s)
  | lvl :: lvls =>
    match s.part? p with
    | none => (.fault ⟨0x15, lvl, true, spanLog lvl⟩, s)
    | some q =>
      let a := pteAddr va t lvl
      let reads := inPriv q t
      let s := if reads then ((s.unitAt p (a / 64) false).homeRead p (a / 64)).markTu p (a / 64) else s
      match walkStep q s.mem va asid k t lvl srcs with
      | .inl t' => s.walkFrom p va asid k t' (srcs ++ [a / 64]) lvls
      | .inr (.ok e) => (.ok e, s.setAd p a k.writes)
      | .inr r => (r, s)

/-- A walk of R74 through a root. The fault of an address that is not canonical has level 0, where the walk would begin, and the span of an
entry of that level: the spec gives it neither (DESIGN CHOICE, assumption 44). -/
def State.walk (s : State) (p : Nat) (va : Word) (asid : BitVec 16) (troot : Nat) (k : TrKind) : WalkRes × State :=
  if !canonical va then (.fault ⟨0x10, 0, true, 45⟩, s)
  else s.walkFrom p va asid k troot [] [0, 1, 2, 3]

/-- The entry of a TLB that covers an address. -/
def tlbHit (l : List TlbEntry) (asid : BitVec 16) (va : Nat) : Option TlbEntry :=
  l.find? fun e => (e.glob || e.asid = asid) && e.vbase ≤ va && va < e.vbase + e.size

/-- What a translation answers: a physical address with its SH mark and the bytes left in the page, or a fault. -/
inductive TrRes where
  | ok (pa : Nat) (sh : Bool) (room : Nat)
  | fault (f : TrFault)
  deriving DecidableEq, Repr

/-- The place of an address in the page of an entry, with the bytes up to the end of the page or of the window (R67). -/
def TlbEntry.place (e : TlbEntry) (p : Option Part) (va : Nat) : TrRes :=
  let pa := e.pbase + (va - e.vbase)
  .ok pa e.sh (min (e.vbase + e.size - va) (p.elim 0 (windowRoom · pa)))

/-- The sectors of page table that a walk through a root would read now, level after level. -/
def State.walkSecs (s : State) (va : Word) (t : Nat) : List Nat → List Nat
  | [] => []
  | lvl :: lvls =>
    let a := pteAddr va t lvl
    let e := memDword s.mem a
    a / 64 :: (if e.getLsbD 0 && !e.getLsbD 1 then s.walkSecs va ((e.extractLsb' 12 40).toNat * 4096) lvls else [])

/-- A walk would wait at the home of an entry: for a lading, an open transaction or a clearing (R74, R100). -/
def State.walkHeld (s : State) (p troot : Nat) (va : Word) : Bool :=
  let some := (s.part? p).any fun q => !q.ladings.isEmpty || q.dir.any fun e => e.2.secs.toList.any fun h => h.txn.isSome || h.prep.isSome
  some && (s.walkSecs va troot [0, 1, 2, 3]).any fun sec => ((s.lading? p (64 * sec)).any fun e => !e.2.clear) || !s.homeFree p sec

/-- The cluster's entry after a walk replaces the one it had for the page. -/
def State.fillTlb (s : State) (cl : Nat) (e : TlbEntry) : State :=
  let l := (alook cl s.tlbs).getD []
  { s with tlbs := aset cl (e :: l.filter fun x => !((x.glob || x.asid = e.asid) && x.vbase = e.vbase)) s.tlbs }

/-- A translation by a core of a cluster (R70 to R78). A hit that fails the rights or the SH rule is precise; a write through an entry
with D clear walks again (R75), and so does an access outside every window (R67). -/
def State.translate (s : State) (p cl : Nat) (asid : BitVec 16) (troot : Nat) (va : Word) (k : TrKind) : TrRes × State :=
  let viaWalk : Unit → TrRes × State := fun _ =>
    match s.walk p va asid troot k with
    | (.ok e, s') => (e.place (s.part? p) va.toNat, s'.fillTlb cl e)
    | (.fault f, s') => (.fault f, s')
  match tlbHit ((alook cl s.tlbs).getD []) asid va.toNat with
  | none => viaWalk ()
  | some e =>
    if !canonical va then viaWalk ()
    else if !rightsOk e.rd e.w e.x k then (.fault ⟨0x13, e.level, false, Nat.log2 e.size⟩, s)
    else if !((s.part? p).elim false fun q => shOk q e.pbase e.sh k) then (.fault ⟨0x14, e.level, false, Nat.log2 e.size⟩, s)
    else if k.writes && !e.d then viaWalk ()
    else if !((s.part? p).elim false fun q => physOk q (e.pbase + (va.toNat - e.vbase))) then viaWalk ()
    else (e.place (s.part? p) va.toNat, s)

/-- Translation in the address space of a region, from a core. -/
def State.translateR (s : State) (core region : Nat) (va : Word) (k : TrKind) : TrRes × State :=
  match s.region? region with
  | some r => s.translate r.part (clusterOf core) r.asid r.troot va k
  | none => (.fault ⟨0x15, 0, true, 45⟩, s)

/-- A run of physical bytes. -/
structure Run where
  pa : Nat
  len : Nat
  sh : Bool
  deriving DecidableEq, Repr

/-- The physical runs of n bytes from a virtual address on, page by page; the fuel is the number of pages it may touch. -/
def State.translateRun (s : State) (core region : Nat) (va : Word) (n : Nat) (k : TrKind) :
    Nat → (Except (TrFault × Word) (List Run)) × State
  | 0 => (.ok [], s)
  | fuel + 1 =>
    if n = 0 then (.ok [], s)
    else
      match s.translateR core region va k with
      | (.fault f, s) => (.error (f, va), s)
      | (.ok pa sh room, s) =>
        if n ≤ room then (.ok [⟨pa, n, sh⟩], s)
        else
          match s.translateRun core region (va + BitVec.ofNat 64 room) (n - room) k fuel with
          | (.ok rs, s) => (.ok (⟨pa, room, sh⟩ :: rs), s)
          | (.error f, s) => (.error f, s)

/-- Device reads and writes of virtual memory on a region's behalf: bytes at the home, or no value when the translation fails or
leaves the partition's own window (R364, R428). -/
def State.devRead (s : State) (core region : Nat) (va : Word) (n : Nat) : Option (List Byte) × State :=
  match s.region? region with
  | none => (none, s)
  | some r =>
    match s.translateRun core region va n .pathR (n / 4096 + 2) with
    | (.error _, s) => (none, s)
    | (.ok rs, s) =>
      let (bs, s) := rs.foldl (fun (acc : List Byte × State) x =>
        let (b, s) := if x.sh then (memBytes acc.2.mem x.pa x.len, acc.2) else acc.2.homeReadBytes r.part x.pa x.len
        (acc.1 ++ b, s)) ([], s)
      (some bs, s)

/-- The runs of a device write, if each lies in the partition's own window (R364). -/
def State.devRuns (s : State) (core region : Nat) (va : Word) (n : Nat) (k : TrKind) (noSh : Bool) : Option (List Run) × State :=
  match s.region? region with
  | none => (none, s)
  | some r =>
    match s.translateRun core region va n k (n / 4096 + 2) with
    | (.error _, s) => (none, s)
    | (.ok rs, s) =>
      if rs.all fun x => ((s.part? r.part).elim false fun q => inPriv q x.pa) && !(noSh && x.sh) then (some rs, s) else (none, s)

/-- Writes runs of physical bytes at the home. -/
def State.writeRuns (s : State) (p : Nat) (rs : List Run) (bs : List Byte) (w : Option (Nat × Key)) : State :=
  (rs.foldl (fun (acc : State × List Byte) x =>
    let b := acc.2.take x.len
    (if x.sh then acc.1.memPut x.pa b else acc.1.homeWriteBytes p x.pa b w, acc.2.drop x.len)) (s, bs)).1

/-- A device write of virtual memory; false when it cannot be made. -/
def State.devWrite (s : State) (core region : Nat) (va : Word) (bs : List Byte) (noSh : Bool) : Bool × State :=
  match s.devRuns core region va bs.length .store noSh with
  | (none, s) => (false, s)
  | (some rs, s) => (true, s.writeRuns ((s.region? region).elim 0 (·.part)) rs bs none)

end Sys2Proof.Machine
end

