-- ==== Sys2Proof/WellFormed.lean ====
section
/-! DEFINITION. Which instructions have an encoding: the limits on operand values that R27 (subcodes 4 and 5) and the
instructions' entries set, one check a shape, and `Instr.wf` over all constructors. -/

namespace Sys2Proof

/-- Class F of R217, the arithmetic types of R201. -/
def ElemType.isF : ElemType → Bool
  | .f64 | .f32 | .f16 | .bf16 => true
  | _ => false

/-- Class I of R217. -/
def ElemType.isI : ElemType → Bool
  | .i64 | .i32 | .i16 | .i8 => true
  | _ => false

/-- The types of the special functions (R221). -/
def ElemType.isS : ElemType → Bool
  | .f32 | .f16 | .bf16 => true
  | _ => false

/-- The compute types of R236. -/
def ElemType.isCompute : ElemType → Bool
  | .f64 | .f32 | .f16 | .bf16 | .i64 | .i32 => true
  | _ => false

/-- The floating types that FCLASS accepts (R202). -/
def ElemType.isClass : ElemType → Bool
  | .f64 | .f32 | .f16 | .bf16 | .e4m3 | .e5m2 | .e3m2 | .e2m3 | .e2m1 | .fmt _ => true
  | _ => false

/-- The weight formats of R243, or a descriptor (R264). -/
def ElemType.isWeight : ElemType → Bool
  | .ue8m0 | .i64 | .i32 => false
  | _ => true

/-- The lane width of R216; a descriptor's width is known only at execution. -/
def ElemType.lane? : ElemType → Option Nat
  | .f64 | .i64 => some 64
  | .f32 | .i32 => some 32
  | .f16 | .bf16 | .i16 => some 16
  | .e4m3 | .e5m2 | .e3m2 | .e2m3 | .ue8m0 | .i8 => some 8
  | .e2m1 | .i4 | .lut4 => some 4
  | .fmt _ => none

/-- An integer type takes no rounding mode (R36). -/
def rmFits (ty : ElemType) (rm : Rm) : Bool := !ty.isI || rm == .rctl

/-- The two's complement types of R177. -/
def ElemType.isInt : ElemType → Bool
  | .i64 | .i32 | .i16 | .i8 | .i4 => true
  | _ => false

/-- A lane conversion between two integer types takes no rounding mode (R217); a LUT4 source, whose values are INT8 but whose type is none
of these, takes one (DEDUCED, assumption 10). -/
def rmFitsPair (dst src : ElemType) (rm : Rm) : Bool := !(dst.isInt && src.isInt) || rm == .rctl

/-- A lane index below the number of lanes (R224). -/
def laneFits (ty : ElemType) (k : Nat) : Bool :=
  match ty.lane? with
  | some w => k < 512 / w
  | none => true

/-- C holds a core only in AM 3 (R30). -/
def coreFits (am : AddrMode) (c : GReg) : Bool := am == .named || c == 0

def ExtA.ok (x : ExtA) : Bool := 1 ≤ x.n.toNat && x.n.toNat ≤ 64
def BfxA.ok (x : BfxA) : Bool := x.pos.toNat + x.len1.toNat + 1 ≤ 64
def BfiA.ok (x : BfiA) : Bool := x.pos.toNat + x.len1.toNat + 1 ≤ 64
def FpR.ok (x : FpR) : Bool := x.ty.isF
def FpB.ok (x : FpB) : Bool := x.ty.isF
def FpU.ok (x : FpU) : Bool := x.ty.isF
def FpU.okClass (x : FpU) : Bool := x.ty.isClass
def FpF.ok (x : FpF) : Bool := x.ty.isF
def FpC.ok (x : FpC) : Bool := x.ty.isF
/-- FCVT takes a rounding mode in its entry, between two integer types too: R36 does not say that such a conversion is "an instruction on
an integer type" (DEDUCED, assumption 10). -/
def FpV.ok (x : FpV) : Bool := x.dst != .lut4 && rmFitsPair x.dst x.src x.rm
def FpN.ok (x : FpN) : Bool := x.ty.isF
def BrB.ok (x : BrB) : Bool := x.c.isSome || (x.a == 0 && x.b == 0)
def LdM.ok (x : LdM) : Bool := coreFits x.am x.c && (!x.sx || x.sz != 3)
def StM.ok (x : StM) : Bool := coreFits x.am x.c
def LdvM.ok (x : LdvM) : Bool := coreFits x.am x.c
def StvM.ok (x : StvM) : Bool := coreFits x.am x.c
def ScntT.ok (x : ScntT) : Bool := !x.all || x.s == 0
def AmoM.ok (x : AmoM) : Bool := coreFits x.am x.c
def CasM.ok (x : CasM) : Bool := x.am != .named
def AmoF.ok (x : AmoF) : Bool := coreFits x.am x.c
def StnM.ok (x : StnM) : Bool := coreFits x.am x.c && x.am != .virt
def SendA.ok (x : SendA) : Bool := (x.ty.isF && !x.m) || x.ty.isI
def MsgC.ok (x : MsgC) : Bool := x.a.toNat ≤ 58
def MsgtC.ok (x : MsgtC) : Bool := x.a.toNat ≤ 58
def VAddV.ok (x : VAddV) : Bool :=
  (x.ty.isF && !x.sat && !x.uns) || (x.ty.isI && x.rm == .rctl && (x.sat || !x.uns))
def VMulV.ok (x : VMulV) : Bool := (x.ty.isF || x.ty.isI) && rmFits x.ty x.rm
def VFmaV.ok (x : VFmaV) : Bool := (x.ty.isF || x.ty.isI) && rmFits x.ty x.rm
def VNegV.ok (x : VNegV) : Bool := (x.ty.isF && !x.sat) || x.ty.isI
def VMinV.ok (x : VMinV) : Bool := (x.ty.isF && !x.uns) || x.ty.isI

def VShV.ok (x : VShV) : Bool :=
  x.ty.isI && match x.cnt with
    | .imm n => match x.ty.lane? with
      | some w => n.toNat < w
      | none => false
    | .reg _ => true

def VCmpV.ok (x : VCmpV) : Bool :=
  match x.c with
  | .int _ => x.ty.isI
  | .flt _ => x.ty.isF

/-- R220: k is below the ratio of the lane counts; with a descriptor this is judged at execution. -/
def VCvtV.ok (x : VCvtV) : Bool :=
  x.dst != .lut4 && rmFitsPair x.dst x.src x.rm && match x.dst.lane?, x.src.lane? with
    | some d, some s => x.k.toNat < max d s / min d s
    | _, _ => true

def VFunV.ok (x : VFunV) : Bool := x.ty.isS
def VSqrtV.ok (x : VSqrtV) : Bool := x.ty.isF
def VPermV.ok (x : VPermV) : Bool := x.ty.lane? != some 4
def VBcastV.ok (x : VBcastV) : Bool := laneFits x.ty x.k.toNat
def VInsV.ok (x : VInsV) : Bool := laneFits x.ty x.k.toNat
def VExtV.ok (x : VExtV) : Bool := laneFits x.ty x.k.toNat

/-- The logical reductions of R225. -/
def RedOp.isLogic : RedOp → Bool
  | .and | .or | .xor => true
  | _ => false

def VRedV.ok (x : VRedV) : Bool :=
  (x.ty.isI || (x.ty.isF && !x.op.isLogic)) &&
  (x.rm == .rctl || (x.op == .add && x.ty.isF)) &&
  (!x.uns || (x.ty.isI && (x.op == .min || x.op == .max)))

def VRedV.okScan (x : VRedV) : Bool := x.ok && !x.op.isLogic

/-- The pairs of R227. -/
def VDotV.ok (x : VDotV) : Bool :=
  match x.acc, x.src with
  | .f32, .bf16 | .f32, .f16 | .f32, .e4m3 | .f32, .e5m2 => !x.sat
  | .i32, .i8 | .i32, .i4 | .i32, .lut4 => x.rm == .rctl
  | _, _ => false

/-- The special functions among the operations of MEW. -/
def EwOp.isFun : EwOp → Bool
  | .rcp | .rsq | .sqrt | .exp2 | .log2 | .sinp | .tanh => true
  | _ => false

/-- The operations of MEW that take mB. -/
def EwOp.isBinary : EwOp → Bool
  | .add | .sub | .mul | .min | .max => true
  | _ => false

def MewN.ok (x : MewN) : Bool :=
  x.ty.isCompute && (x.op.isBinary || x.b == 0) &&
  (!x.op.isFun || x.ty.isS || (x.op == .sqrt && x.ty == .f64)) &&
  (!x.uns || (x.ty.isI && (x.op == .min || x.op == .max))) && rmFits x.ty x.rm

/-- Only the extents take gB (R233). -/
def MsetN.ok (x : MsetN) : Bool :=
  match x.f with
  | .dim _ => true
  | .base | .sbase | .ctl => x.b == 0

def MfmaN.ok (x : MfmaN) : Bool := x.ty.isCompute && rmFits x.ty x.rm
def MredN.ok (x : MredN) : Bool := x.ty.isCompute && rmFits x.ty x.rm && x.dims != 0
def MgathN.ok (x : MgathN) : Bool := x.ty.isCompute && rmFits x.ty x.rm
def MscatN.ok (x : MscatN) : Bool := x.ty.isCompute && rmFits x.ty x.rm
def XresX.ok (x : XresX) : Bool := x.ty.isWeight
def XstatX.ok (x : XstatX) : Bool := x.n.toNat ≤ 12

def SleepT.ok (x : SleepT) : Bool :=
  x.sel != 0 && ((x.a != 0) == x.sel.getLsbD 10) && ((x.b != 0) == x.sel.getLsbD 9)

/-- An instruction that R24 to R38 and its entry give an encoding. The events have none and are well formed. -/
def Instr.wf : Instr → Bool
  | .add _ => true
  | .addImm _ => true
  | .sub _ => true
  | .subImm _ => true
  | .mul _ => true
  | .mulImm _ => true
  | .mulh _ => true
  | .mulhImm _ => true
  | .mulhu _ => true
  | .mulhuImm _ => true
  | .div _ => true
  | .divImm _ => true
  | .divu _ => true
  | .divuImm _ => true
  | .rem _ => true
  | .remImm _ => true
  | .remu _ => true
  | .remuImm _ => true
  | .min _ => true
  | .minImm _ => true
  | .max _ => true
  | .maxImm _ => true
  | .minu _ => true
  | .minuImm _ => true
  | .maxu _ => true
  | .maxuImm _ => true
  | .and _ => true
  | .andImm _ => true
  | .or _ => true
  | .orImm _ => true
  | .xor _ => true
  | .xorImm _ => true
  | .andn _ => true
  | .andnImm _ => true
  | .orn _ => true
  | .ornImm _ => true
  | .shl _ => true
  | .shlImm _ => true
  | .shr _ => true
  | .shrImm _ => true
  | .sra _ => true
  | .sraImm _ => true
  | .rol _ => true
  | .rolImm _ => true
  | .clz _ => true
  | .ctz _ => true
  | .popc _ => true
  | .brev _ => true
  | .sext x => x.ok
  | .zext x => x.ok
  | .bfx x => x.ok
  | .bfi x => x.ok
  | .cmp _ => true
  | .cmpImm _ => true
  | .sel _ => true
  | .mov _ => true
  | .li _ => true
  | .lea _ => true
  | .leaImm _ => true
  | .fadd x => x.ok
  | .fsub x => x.ok
  | .fmul x => x.ok
  | .fmin x => x.ok
  | .fmax x => x.ok
  | .fabs x => x.ok
  | .fneg x => x.ok
  | .ffma x => x.ok
  | .fcmp x => x.ok
  | .fclass x => x.okClass
  | .fcvt x => x.ok
  | .frnd x => x.ok
  | .br x => x.ok
  | .jmp _ => true
  | .jmpi _ => true
  | .call _ => true
  | .calli _ => true
  | .ret _ => true
  | .loop _ => true
  | .nop _ => true
  | .pand _ => true
  | .por _ => true
  | .pxor _ => true
  | .pnot _ => true
  | .pset _ => true
  | .qput _ => true
  | .qget _ => true
  | .qpeek _ => true
  | .qcnt _ => true
  | .repb _ => true
  | .repe _ => true
  | .reprun _ => true
  | .repstat _ => true
  | .ld x => x.ok
  | .st x => x.ok
  | .ldv x => x.ok
  | .stv x => x.ok
  | .pfetch _ => true
  | .cflush _ => true
  | .cinv _ => true
  | .scnt x => x.ok
  | .amoadd x => x.ok
  | .amoand x => x.ok
  | .amoor x => x.ok
  | .amoxor x => x.ok
  | .amomin x => x.ok
  | .amomax x => x.ok
  | .amominu x => x.ok
  | .amomaxu x => x.ok
  | .amoswp x => x.ok
  | .amocas x => x.ok
  | .amofadd x => x.ok
  | .amofmin x => x.ok
  | .amofmax x => x.ok
  | .watch _ => true
  | .unwatch _ => true
  | .watchq _ => true
  | .acqr _ => true
  | .relr _ => true
  | .ladq _ => true
  | .send _ => true
  | .sendadd x => x.ok
  | .sendmin x => x.ok
  | .sendmax x => x.ok
  | .chopen _ => true
  | .chclose _ => true
  | .chwm _ => true
  | .stn x => x.ok
  | .lmcfg _ => true
  | .sendm x => x.ok
  | .vadd x => x.ok
  | .vsub x => x.ok
  | .vmul x => x.ok
  | .vfma x => x.ok
  | .vfms x => x.ok
  | .vneg x => x.ok
  | .vabs x => x.ok
  | .vmin x => x.ok
  | .vmax x => x.ok
  | .vand _ => true
  | .vor _ => true
  | .vxor _ => true
  | .vshl x => x.ok
  | .vshr x => x.ok
  | .vsra x => x.ok
  | .vcmp x => x.ok
  | .vsel _ => true
  | .vcvt x => x.ok
  | .vrcp x => x.ok
  | .vrsq x => x.ok
  | .vsqrt x => x.ok
  | .vexp2 x => x.ok
  | .vlog2 x => x.ok
  | .vsinp x => x.ok
  | .vtanh x => x.ok
  | .vperm x => x.ok
  | .vbcast x => x.ok
  | .vins x => x.ok
  | .vext x => x.ok
  | .vred x => x.ok
  | .vscan x => x.okScan
  | .vdot x => x.ok
  | .vmov _ => true
  | .vsplat _ => true
  | .mld _ => true
  | .mst _ => true
  | .mset x => x.ok
  | .mew x => x.ok
  | .mfma x => x.ok
  | .mred x => x.ok
  | .mcvt _ => true
  | .mgath x => x.ok
  | .mscat x => x.ok
  | .mcopy _ => true
  | .fmtset _ => true
  | .fmtget _ => true
  | .lutld _ => true
  | .xres x => x.ok
  | .xload _ => true
  | .xpin _ => true
  | .xunpin _ => true
  | .xrevk _ => true
  | .xqry _ => true
  | .xmm _ => true
  | .xacc _ => true
  | .xzero _ => true
  | .xstat x => x.ok
  | .acfg _ => true
  | .aget _ => true
  | .afree _ => true
  | .arowi _ => true
  | .arowo _ => true
  | .acoli _ => true
  | .acolo _ => true
  | .azero _ => true
  | .spawn x => x.ok
  | .spawnt x => x.ok
  | .end_ _ => true
  | .sleep x => x.ok
  | .yield _ => true
  | .thnew _ => true
  | .thstop _ => true
  | .thstart _ => true
  | .thrd _ => true
  | .thwr _ => true
  | .thstat _ => true
  | .thkill _ => true
  | .trap _ => true
  | .mfs _ => true
  | .mts _ => true
  | .gtime _ => true
  | .rgnq _ => true
  | .fetchLineArrival _ => true
  | .pipeDeadlock _ => true
  | .reissue _ => true
  | .tableWalk _ => true
  | .queuedFaultRecordWrite _ => true
  | .gets _ => true
  | .getx _ => true
  | .wrt _ => true
  | .putx _ => true
  | .pute _ => true
  | .fwds _ => true
  | .fwdx _ => true
  | .inv _ => true
  | .data _ => true
  | .ownerData _ => true
  | .clean _ => true
  | .gone _ => true
  | .ack _ => true
  | .wback _ => true
  | .fillArrives _ => true
  | .l2Replacement _ => true
  | .l1Eviction _ => true
  | .wake _ => true
  | .drop _ => true
  | .snpData _ => true
  | .snpInv _ => true
  | .snpCur _ => true
  | .rdSharedReread _ => true
  | .biSnpInvResponse _ => true
  | .memWr _ => true
  | .hostMemRd _ => true
  | .ladingGrant _ => true
  | .beacon _ => true
  | .ladingRevocation _ => true
  | .revoke _ => true
  | .packetArrival _ => true
  | .packetRetry _ => true
  | .updateArrival _ => true
  | .sendComplete _ => true
  | .remoteStoreArrival _ => true
  | .streamOperationComplete _ => true
  | .messageArrival _ => true
  | .binding _ => true
  | .ageStep _ => true
  | .stealRequest _ => true
  | .reload _ => true
  | .yieldExpiry _ => true
  | .porterSpill _ => true
  | .porterReplay _ => true
  | .sliceFullRetry _ => true
  | .wave _ => true
  | .energyMeter _ => true
  | .tariffWindow _ => true
  | .temperatureRead _ => true
  | .droverPeriod _ => true
  | .droverCoreJoin _ => true
  | .trapEntry _ => true
  | .uncorrectableData _ => true
  | .switchDeadline _ => true
  | .clearing _ => true
  | .prep _ => true
  | .commit _ => true
  | .consignmentDrop _ => true
  | .consignmentOverflow _ => true
  | .hashArrival _ => true
  | .writeIntent _ => true
  | .staleMark _ => true
  | .residencyLoadComplete _ => true
  | .residencyLoadFault _ => true
  | .drainComplete _ => true
  | .tileError _ => true
  | .nopCommand _ => true
  | .launch _ => true
  | .rrelease _ => true
  | .preemptSwitch _ => true
  | .preemptSpatial _ => true
  | .restore _ => true
  | .rprio _ => true
  | .postset _ => true
  | .tflush _ => true
  | .drover _ => true
  | .qcreate _ => true
  | .qdestroy _ => true
  | .signal _ => true
  | .mapq _ => true
  | .dirdump _ => true
  | .resize _ => true
  | .notify _ => true
  | .admqcbCreate _ => true
  | .admqcbDestroy _ => true
  | .registerWrite _ => true
  | .qcbPoll _ => true
  | .commandFetch _ => true
  | .commandDispatch _ => true
  | .completionWrite _ => true
  | .pluginOverrun _ => true
  | .frontEndRestart _ => true
  | .quantumExpiry _ => true
  | .functionLevelReset _ => true
  | .sqprod _ => true
  | .put _ => true
  | .get _ => true
  | .aadd _ => true
  | .acas _ => true
  | .aswp _ => true
  | .allred _ => true
  | .linkRequestArrival _ => true
  | .linkAcknowledgement _ => true
  | .linkRetry _ => true
  | .linkRetire _ => true
  | .linkBeacon _ => true
  | .collectiveAbort _ => true
  | .scrub _ => true
  | .marginReplan _ => true
  | .customsAlarm _ => true
  | .level2Clear _ => true
  | .coldReset _ => true
  | .getMeasurements _ => true
  | .sleepDeadline _ => true
  | .threadStateRequest _ => true
  | .cxlCacheResponse _ => true
  | .flitCrcFailure _ => true
  | .endpointContextFill _ => true
  | .atomicResultCacheExpiry _ => true
  | .coreRemoval _ => true
  | .engineConfigurationWrite _ => true

end Sys2Proof
end

