-- ==== Sys2Proof/Decode.lean ====
section
/-! DEFINITION. The instruction word: the fields of R24 and R28 to R34, the decoder with the check order of R27, and
the encoder, written from the same tables. -/

namespace Sys2Proof

/-- Why a word is no instruction: the conditions of R27, in their order. -/
inductive DecodeErr where
  | opcUnassigned
  | fmtIllegal
  | fnUndefined
  | reservedNonzero
  | valueIllegal
  deriving DecidableEq, Repr

/-- The subcode of R27. -/
def DecodeErr.subcode : DecodeErr → Nat
  | .opcUnassigned => 1
  | .fmtIllegal => 2
  | .fnUndefined => 3
  | .reservedNonzero => 4
  | .valueIllegal => 5

/-! ### Fields -/

/-- The header of R24. -/
structure Head where
  opc : BitVec 8
  fmt : BitVec 4
  g : Guard
  d : BitVec 6 := 0
  a : BitVec 6 := 0
  b : BitVec 6 := 0
  c : BitVec 6 := 0
  deriving DecidableEq, Repr

/-- Formats A and V (R28). -/
structure BodyA where
  rsv : BitVec 16 := 0
  imm8 : BitVec 8 := 0
  ty2 : BitVec 6 := 0
  ty : BitVec 6 := 0
  rm : BitVec 4 := 0
  md : BitVec 8 := 0
  fn : BitVec 8 := 0
  deriving DecidableEq, Repr

/-- Formats I and B (R29, R34): the immediate or displacement, and FN or COND. -/
structure BodyI where
  imm : BitVec 48 := 0
  fn : BitVec 8 := 0
  deriving DecidableEq, Repr

/-- Format M (R30). -/
structure BodyM where
  stream : BitVec 3 := 0
  pmask : BitVec 8 := 0
  scope : BitVec 3 := 0
  am : BitVec 2 := 0
  size : BitVec 4 := 0
  sx : BitVec 1 := 0
  nt : BitVec 1 := 0
  ex : BitVec 1 := 0
  rsv : BitVec 1 := 0
  off : BitVec 32 := 0
  deriving DecidableEq, Repr

/-- Format C (R33); `rsv` is bits 32:20. -/
structure BodyC where
  stream : BitVec 3 := 0
  pmask : BitVec 8 := 0
  scope : BitVec 3 := 0
  am : BitVec 2 := 0
  ty : BitVec 6 := 0
  seq : BitVec 1 := 0
  rsv : BitVec 13 := 0
  chan : BitVec 4 := 0
  md : BitVec 8 := 0
  fn : BitVec 8 := 0
  deriving DecidableEq, Repr

/-- Formats N and X (R33). -/
structure BodyN where
  stream : BitVec 3 := 0
  pmask : BitVec 8 := 0
  scope : BitVec 3 := 0
  ty : BitVec 6 := 0
  rm : BitVec 4 := 0
  dims : BitVec 4 := 0
  rsv : BitVec 12 := 0
  md : BitVec 8 := 0
  fn : BitVec 8 := 0
  deriving DecidableEq, Repr

/-- Format T (R34). -/
structure BodyT where
  rsv : BitVec 32 := 0
  imm16 : BitVec 16 := 0
  fn : BitVec 8 := 0
  deriving DecidableEq, Repr

/-- A word from its header and its bits 55:0. -/
def packWord (h : Head) (body : BitVec 56) : Slot :=
  h.opc ++ h.fmt ++ h.g.p ++ BitVec.ofBool h.g.neg ++ h.d ++ h.a ++ h.b ++ h.c ++ body

/-- The header of a word. -/
def headOf (w : Slot) : Head where
  opc := w.extractLsb' 88 8
  fmt := w.extractLsb' 84 4
  g := ⟨w.extractLsb' 81 3, w.getLsbD 80⟩
  d := w.extractLsb' 74 6
  a := w.extractLsb' 68 6
  b := w.extractLsb' 62 6
  c := w.extractLsb' 56 6

/-- Bits 55:0 of a word. -/
def bodyOf (w : Slot) : BitVec 56 := w.extractLsb' 0 56

def BodyA.pack (b : BodyA) : BitVec 56 := b.rsv ++ b.imm8 ++ b.ty2 ++ b.ty ++ b.rm ++ b.md ++ b.fn

def BodyA.ofBits (w : BitVec 56) : BodyA where
  rsv := w.extractLsb' 40 16
  imm8 := w.extractLsb' 32 8
  ty2 := w.extractLsb' 26 6
  ty := w.extractLsb' 20 6
  rm := w.extractLsb' 16 4
  md := w.extractLsb' 8 8
  fn := w.extractLsb' 0 8

def BodyI.pack (b : BodyI) : BitVec 56 := b.imm ++ b.fn

def BodyI.ofBits (w : BitVec 56) : BodyI where
  imm := w.extractLsb' 8 48
  fn := w.extractLsb' 0 8

def BodyM.pack (b : BodyM) : BitVec 56 :=
  b.stream ++ b.pmask ++ b.scope ++ b.am ++ b.size ++ b.sx ++ b.nt ++ b.ex ++ b.rsv ++ b.off

def BodyM.ofBits (w : BitVec 56) : BodyM where
  stream := w.extractLsb' 53 3
  pmask := w.extractLsb' 45 8
  scope := w.extractLsb' 42 3
  am := w.extractLsb' 40 2
  size := w.extractLsb' 36 4
  sx := w.extractLsb' 35 1
  nt := w.extractLsb' 34 1
  ex := w.extractLsb' 33 1
  rsv := w.extractLsb' 32 1
  off := w.extractLsb' 0 32

def BodyC.pack (b : BodyC) : BitVec 56 :=
  b.stream ++ b.pmask ++ b.scope ++ b.am ++ b.ty ++ b.seq ++ b.rsv ++ b.chan ++ b.md ++ b.fn

def BodyC.ofBits (w : BitVec 56) : BodyC where
  stream := w.extractLsb' 53 3
  pmask := w.extractLsb' 45 8
  scope := w.extractLsb' 42 3
  am := w.extractLsb' 40 2
  ty := w.extractLsb' 34 6
  seq := w.extractLsb' 33 1
  rsv := w.extractLsb' 20 13
  chan := w.extractLsb' 16 4
  md := w.extractLsb' 8 8
  fn := w.extractLsb' 0 8

def BodyN.pack (b : BodyN) : BitVec 56 :=
  b.stream ++ b.pmask ++ b.scope ++ b.ty ++ b.rm ++ b.dims ++ b.rsv ++ b.md ++ b.fn

def BodyN.ofBits (w : BitVec 56) : BodyN where
  stream := w.extractLsb' 53 3
  pmask := w.extractLsb' 45 8
  scope := w.extractLsb' 42 3
  ty := w.extractLsb' 36 6
  rm := w.extractLsb' 32 4
  dims := w.extractLsb' 28 4
  rsv := w.extractLsb' 16 12
  md := w.extractLsb' 8 8
  fn := w.extractLsb' 0 8

def BodyT.pack (b : BodyT) : BitVec 56 := b.rsv ++ b.imm16 ++ b.fn

def BodyT.ofBits (w : BitVec 56) : BodyT where
  rsv := w.extractLsb' 24 32
  imm16 := w.extractLsb' 8 16
  fn := w.extractLsb' 0 8

/-! ### Codes -/

def Width.code : Width → BitVec 8
  | .w64 => 0
  | .w32 => 1
  | .w16 => 2
  | .w8 => 3

/-- The width of MOD bits 1:0 (R28). -/
def Width.ofMod (md : BitVec 8) : Width :=
  if md.extractLsb' 0 2 = 0 then .w64 else if md.extractLsb' 0 2 = 1 then .w32
  else if md.extractLsb' 0 2 = 2 then .w16 else .w8

/-- The codes of R35. -/
def ElemType.code : ElemType → BitVec 6
  | .f64 => 0x00 | .f32 => 0x01 | .f16 => 0x02 | .bf16 => 0x03 | .e4m3 => 0x04 | .e5m2 => 0x05
  | .e3m2 => 0x06 | .e2m3 => 0x07 | .e2m1 => 0x08 | .ue8m0 => 0x09
  | .i64 => 0x10 | .i32 => 0x11 | .i16 => 0x12 | .i8 => 0x13 | .i4 => 0x14 | .lut4 => 0x15
  | .fmt n => 2#2 ++ n

/-- The type of a code of R35; none for an illegal one. -/
def ElemType.ofCode (c : BitVec 6) : Option ElemType :=
  if c = 0x00 then some .f64 else if c = 0x01 then some .f32 else if c = 0x02 then some .f16
  else if c = 0x03 then some .bf16 else if c = 0x04 then some .e4m3 else if c = 0x05 then some .e5m2
  else if c = 0x06 then some .e3m2 else if c = 0x07 then some .e2m3 else if c = 0x08 then some .e2m1
  else if c = 0x09 then some .ue8m0 else if c = 0x10 then some .i64 else if c = 0x11 then some .i32
  else if c = 0x12 then some .i16 else if c = 0x13 then some .i8 else if c = 0x14 then some .i4
  else if c = 0x15 then some .lut4
  else if c.extractLsb' 4 2 = 2 then some (.fmt (c.extractLsb' 0 4)) else none

/-- The codes of R36. -/
def Rm.code : Rm → BitVec 4
  | .rctl => 0 | .rne => 1 | .rz => 2 | .rdn => 3 | .rup => 4 | .rna => 5

def Rm.ofCode (c : BitVec 4) : Option Rm :=
  if c = 0 then some .rctl else if c = 1 then some .rne else if c = 2 then some .rz
  else if c = 3 then some .rdn else if c = 4 then some .rup else if c = 5 then some .rna else none

/-- The integer conditions of R37. -/
def ICond.code : ICond → BitVec 8
  | .eq => 1 | .ne => 2 | .lt => 3 | .ge => 4 | .ltu => 5 | .geu => 6

def ICond.ofCode (c : BitVec 8) : Option ICond :=
  if c = 1 then some .eq else if c = 2 then some .ne else if c = 3 then some .lt
  else if c = 4 then some .ge else if c = 5 then some .ltu else if c = 6 then some .geu else none

/-- The floating conditions of R37. -/
def FCond.code : FCond → BitVec 8
  | .oeq => 0x11 | .une => 0x12 | .olt => 0x13 | .ole => 0x14 | .uno => 0x15 | .ord => 0x16

def FCond.ofCode (c : BitVec 8) : Option FCond :=
  if c = 0x11 then some .oeq else if c = 0x12 then some .une else if c = 0x13 then some .olt
  else if c = 0x14 then some .ole else if c = 0x15 then some .uno else if c = 0x16 then some .ord else none

def VCond.code : VCond → BitVec 8
  | .int c => c.code
  | .flt c => c.code

def VCond.ofCode (c : BitVec 8) : Option VCond :=
  match ICond.ofCode c with
  | some i => some (.int i)
  | none => (FCond.ofCode c).map .flt

/-- The condition of BR; COND 0 is "always". -/
def brCode : Option ICond → BitVec 8
  | none => 0
  | some c => c.code

def brOfCode (c : BitVec 8) : Option (Option ICond) :=
  if c = 0 then some none else (ICond.ofCode c).map some

/-- AM of format M (R30). -/
def AddrMode.code : AddrMode → BitVec 2
  | .virt => 0 | .own => 1 | .cluster => 2 | .named => 3

def AddrMode.ofCode (c : BitVec 2) : AddrMode :=
  if c = 0 then .virt else if c = 1 then .own else if c = 2 then .cluster else .named

/-- AM of format C (R33). -/
def SrcMode.code : SrcMode → BitVec 2
  | .virt => 0 | .own => 1 | .cluster => 2

def SrcMode.ofCode (c : BitVec 2) : Option SrcMode :=
  if c = 0 then some .virt else if c = 1 then some .own else if c = 2 then some .cluster else none

/-- SIZE of LDV and STV (R31). -/
def VSize.code : VSize → BitVec 4
  | .b128 => 4 | .b256 => 5 | .b512 => 6

def VSize.ofCode (c : BitVec 4) : Option VSize :=
  if c = 4 then some .b128 else if c = 5 then some .b256 else if c = 6 then some .b512 else none

/-- SIZE of STN (R31). -/
def NSize.code : NSize → BitVec 4
  | .b8 => 0 | .b4 => 7 | .b2 => 8

def NSize.ofCode (c : BitVec 4) : Option NSize :=
  if c = 0 then some .b8 else if c = 7 then some .b4 else if c = 8 then some .b2 else none

/-- SIZE of the floating atomics (R31). -/
def AmoFmt.code : AmoFmt → BitVec 4
  | .bf16 => 1 | .f32 => 2 | .f64 => 3

def AmoFmt.ofCode (c : BitVec 4) : Option AmoFmt :=
  if c = 1 then some .bf16 else if c = 2 then some .f32 else if c = 3 then some .f64 else none

/-- FN of VRED (R225). -/
def RedOp.code : RedOp → BitVec 8
  | .add => 0 | .min => 1 | .max => 2 | .and => 3 | .or => 4 | .xor => 5

def RedOp.ofCode (c : BitVec 8) : Option RedOp :=
  if c = 0 then some .add else if c = 1 then some .min else if c = 2 then some .max
  else if c = 3 then some .and else if c = 4 then some .or else if c = 5 then some .xor else none

/-- FN of MSET (R233). -/
def MField.code : MField → BitVec 8
  | .base => 0 | .sbase => 1 | .dim d => 2 + d.setWidth 8 | .ctl => 6

def MField.ofCode (c : BitVec 8) : Option MField :=
  if c = 0 then some .base else if c = 1 then some .sbase
  else if c = 2 then some (.dim 0) else if c = 3 then some (.dim 1) else if c = 4 then some (.dim 2)
  else if c = 5 then some (.dim 3) else if c = 6 then some .ctl else none

/-- FN of MEW (R236). -/
def EwOp.code : EwOp → BitVec 8
  | .add => 0 | .sub => 1 | .mul => 2 | .min => 3 | .max => 4 | .neg => 5 | .abs => 6 | .rcp => 7
  | .rsq => 8 | .sqrt => 9 | .exp2 => 10 | .log2 => 11 | .sinp => 12 | .tanh => 13

def EwOp.ofCode (c : BitVec 8) : Option EwOp :=
  if c = 0 then some .add else if c = 1 then some .sub else if c = 2 then some .mul
  else if c = 3 then some .min else if c = 4 then some .max else if c = 5 then some .neg
  else if c = 6 then some .abs else if c = 7 then some .rcp else if c = 8 then some .rsq
  else if c = 9 then some .sqrt else if c = 10 then some .exp2 else if c = 11 then some .log2
  else if c = 12 then some .sinp else if c = 13 then some .tanh else none

/-- FN of MRED (R237). -/
def MRedOp.code : MRedOp → BitVec 8
  | .add => 0 | .min => 1 | .max => 2

def MRedOp.ofCode (c : BitVec 8) : Option MRedOp :=
  if c = 0 then some .add else if c = 1 then some .min else if c = 2 then some .max else none

/-- The numbers of R46. -/
def SysReg.code : SysReg → BitVec 16
  | .tid => 0x00 | .lcore => 0x01 | .rgn => 0x02 | .passb => 0x03 | .trapb => 0x04 | .fltq => 0x05
  | .rsbase => 0x06 | .rctl => 0x10 | .lmsplit => 0x11 | .ashape => 0x12 | .sclamp => 0x13
  | .gt => 0x20 | .tcyc => 0x21

def SysReg.ofCode (c : BitVec 16) : Option SysReg :=
  if c = 0x00 then some .tid else if c = 0x01 then some .lcore else if c = 0x02 then some .rgn
  else if c = 0x03 then some .passb else if c = 0x04 then some .trapb else if c = 0x05 then some .fltq
  else if c = 0x06 then some .rsbase else if c = 0x10 then some .rctl else if c = 0x11 then some .lmsplit
  else if c = 0x12 then some .ashape else if c = 0x13 then some .sclamp else if c = 0x20 then some .gt
  else if c = 0x21 then some .tcyc else none

def RwReg.code : RwReg → BitVec 16
  | .rctl => 0x10 | .sclamp => 0x13

def RwReg.ofCode (c : BitVec 16) : Option RwReg :=
  if c = 0x10 then some .rctl else if c = 0x13 then some .sclamp else none

/-- One bit as a truth value. -/
def flag (b : BitVec 1) : Bool := b.getLsbD 0

/-- A number in the low three bits of a register field (R26). -/
def lo3 (x : BitVec 6) : Reg3 := x.extractLsb' 0 3

/-- A number in the low five bits of a register field (R26). -/
def lo5 (x : BitVec 6) : VReg := x.extractLsb' 0 5

/-- A number in the low two bits of a register field (R26). -/
def lo2 (x : BitVec 6) : AReg := x.extractLsb' 0 2

/-- A number in the low four bits of a register field (R26). -/
def lo4 (x : BitVec 6) : FReg := x.extractLsb' 0 4

/-- The bits above a p, q or m register number are zero (R26). -/
def hi3 (x : BitVec 6) : Bool := x.extractLsb' 3 3 == 0

/-- The bits above a v register number are zero (R26). -/
def hi5 (x : BitVec 6) : Bool := x.extractLsb' 5 1 == 0

/-- The bits above an a register number are zero (R26). -/
def hi2 (x : BitVec 6) : Bool := x.extractLsb' 2 4 == 0

/-- The bits above an fmt register number are zero (R26). -/
def hi4 (x : BitVec 6) : Bool := x.extractLsb' 4 2 == 0

/-! ### The decoders of the shapes. Each states the conditions of subcode 4 first and builds the shape under those of
subcode 5 (R27). -/

/-- The order of subcodes 4 and 5: all fields of the first class are judged before any of the second. -/
def build (zeros : Bool) (x : Option α) : Except DecodeErr α :=
  if zeros then
    match x with
    | some v => .ok v
    | none => .error .valueIllegal
  else .error .reservedNonzero

/-- A value that passes its check. -/
def chk (p : α → Bool) (x : α) : Option α := if p x then some x else none

/-- A condition of subcode 5. -/
def need (c : Bool) : Option Unit := if c then some () else none

/-- STREAM, PMASK and SCOPE, where SCOPE 4 to 7 is illegal (R30). -/
def strOf (stream : BitVec 3) (pmask : BitVec 8) (scope : BitVec 3) : Option Str :=
  if scope.getLsbD 2 then none else some ⟨stream, pmask, scope.extractLsb' 0 2⟩

/-- SCOPE as its three bits. -/
def Str.code (s : Str) : BitVec 3 := 0#1 ++ s.scope

/-- Format A with the fields of a conversion zero. -/
def BodyA.noConv (b : BodyA) : Bool := b.rsv == 0 && b.imm8 == 0 && b.ty2 == 0

/-- Format A with nothing but FN and RM. -/
def BodyA.bare (b : BodyA) : Bool := b.noConv && b.ty == 0 && b.md == 0

def decAluA (h : Head) (b : BodyA) : Except DecodeErr AluA :=
  build (h.c == 0 && b.noConv && b.ty == 0 && b.md.extractLsb' 2 6 == 0) do
    need (b.rm == 0)
    some ⟨h.g, .ofMod b.md, h.d, h.a, h.b⟩

def decAluI (h : Head) (b : BodyI) : Except DecodeErr AluI :=
  build (h.b == 0 && h.c == 0) (some ⟨h.g, h.d, h.a, b.imm⟩)

def decShI (h : Head) (b : BodyI) : Except DecodeErr ShI :=
  build (h.b == 0 && h.c == 0) do
    need (b.imm.extractLsb' 6 42 == 0)
    some ⟨h.g, h.d, h.a, b.imm.extractLsb' 0 6⟩

def decUnA (h : Head) (b : BodyA) : Except DecodeErr UnA :=
  build (h.b == 0 && h.c == 0 && b.noConv && b.ty == 0 && b.md.extractLsb' 2 6 == 0) do
    need (b.rm == 0)
    some ⟨h.g, .ofMod b.md, h.d, h.a⟩

def decExtA (h : Head) (b : BodyA) : Except DecodeErr ExtA :=
  build (h.b == 0 && h.c == 0 && b.rsv == 0 && b.ty2 == 0 && b.ty == 0 && b.md == 0) do
    need (b.rm == 0)
    chk ExtA.ok ⟨h.g, h.d, h.a, b.imm8⟩

def decBfxA (h : Head) (b : BodyA) : Except DecodeErr BfxA :=
  build (h.b == 0 && h.c == 0 && b.rsv == 0 && b.ty2 == 0 && b.ty == 0 && b.md.extractLsb' 0 2 == 0
      && !b.imm8.getLsbD 7) do
    need (b.rm == 0)
    chk BfxA.ok ⟨h.g, h.d, h.a, b.imm8.extractLsb' 0 6, b.md.extractLsb' 2 6, b.imm8.getLsbD 6⟩

def decBfiA (h : Head) (b : BodyA) : Except DecodeErr BfiA :=
  build (h.b == 0 && h.c == 0 && b.rsv == 0 && b.ty2 == 0 && b.ty == 0 && b.md.extractLsb' 0 2 == 0
      && !b.imm8.getLsbD 7) do
    need (b.rm == 0 && !b.imm8.getLsbD 6)
    chk BfiA.ok ⟨h.g, h.d, h.a, b.imm8.extractLsb' 0 6, b.md.extractLsb' 2 6⟩

def decCmpA (h : Head) (b : BodyA) : Except DecodeErr CmpA :=
  build (hi3 h.d && h.c == 0 && b.noConv && b.ty == 0 && b.md.extractLsb' 2 6 == 0) do
    need (b.rm == 0)
    let c ← ICond.ofCode b.fn
    some ⟨h.g, c, .ofMod b.md, lo3 h.d, h.a, h.b⟩

def decCmpI (h : Head) (b : BodyI) : Except DecodeErr CmpI :=
  build (hi3 h.d && h.b == 0 && h.c == 0) do
    let c ← ICond.ofCode b.fn
    some ⟨h.g, c, lo3 h.d, h.a, b.imm⟩

def decSelA (h : Head) (b : BodyA) : Except DecodeErr SelA :=
  build (hi3 h.c && b.bare) do
    need (b.rm == 0)
    some ⟨h.g, h.d, h.a, h.b, lo3 h.c⟩

def decGDA (h : Head) (b : BodyA) : Except DecodeErr GD :=
  build (h.b == 0 && h.c == 0 && b.bare) do
    need (b.rm == 0)
    some ⟨h.g, h.d, h.a⟩

def decGSrcA (h : Head) (b : BodyA) : Except DecodeErr GSrc :=
  build (h.d == 0 && h.b == 0 && h.c == 0 && b.bare) do
    need (b.rm == 0)
    some ⟨h.g, h.a⟩

def decGDestA (h : Head) (b : BodyA) : Except DecodeErr GDest :=
  build (h.a == 0 && h.b == 0 && h.c == 0 && b.bare) do
    need (b.rm == 0)
    some ⟨h.g, h.d⟩

/-- NOP: R39 gives every nonzero field but the guard subcode 4, RM and FN among them (DEDUCED, assumption 10). -/
def decNop (h : Head) (b : BodyA) : Except DecodeErr GOnly :=
  build (h.d == 0 && h.a == 0 && h.b == 0 && h.c == 0 && b.bare && b.rm == 0 && b.fn == 0) (some ⟨h.g⟩)

/-- REPE, whose guard is zero too (R210). -/
def decRepe (h : Head) (b : BodyA) : Except DecodeErr EvNone :=
  build (h.d == 0 && h.a == 0 && h.b == 0 && h.c == 0 && b.bare && h.g.p == 0 && !h.g.neg) do
    need (b.rm == 0)
    some ⟨()⟩

def decLiI (h : Head) (b : BodyI) : Except DecodeErr LiI :=
  build (h.a == 0 && h.b == 0 && h.c == 0) (some ⟨h.g, h.d, b.imm⟩)

def decLeaA (h : Head) (b : BodyA) : Except DecodeErr LeaA :=
  build (h.c == 0 && b.rsv == 0 && b.ty2 == 0 && b.ty == 0 && b.md == 0 && b.imm8.extractLsb' 3 5 == 0) do
    need (b.rm == 0)
    some ⟨h.g, h.d, h.a, h.b, b.imm8.extractLsb' 0 3⟩

def decFpR (h : Head) (b : BodyA) : Except DecodeErr FpR :=
  build (h.c == 0 && b.noConv && b.md == 0) do
    let ty ← ElemType.ofCode b.ty
    let rm ← Rm.ofCode b.rm
    chk FpR.ok ⟨h.g, ty, rm, h.d, h.a, h.b⟩

def decFpB (h : Head) (b : BodyA) : Except DecodeErr FpB :=
  build (h.c == 0 && b.noConv && b.md == 0) do
    let ty ← ElemType.ofCode b.ty
    need (b.rm == 0)
    chk FpB.ok ⟨h.g, ty, h.d, h.a, h.b⟩

def decFpU (p : FpU → Bool) (h : Head) (b : BodyA) : Except DecodeErr FpU :=
  build (h.b == 0 && h.c == 0 && b.noConv && b.md == 0) do
    let ty ← ElemType.ofCode b.ty
    need (b.rm == 0)
    chk p ⟨h.g, ty, h.d, h.a⟩

def decFpF (h : Head) (b : BodyA) : Except DecodeErr FpF :=
  build (b.noConv && b.md == 0) do
    let ty ← ElemType.ofCode b.ty
    let rm ← Rm.ofCode b.rm
    chk FpF.ok ⟨h.g, ty, rm, h.d, h.a, h.b, h.c⟩

def decFpC (h : Head) (b : BodyA) : Except DecodeErr FpC :=
  build (hi3 h.d && h.c == 0 && b.noConv && b.md == 0) do
    let ty ← ElemType.ofCode b.ty
    need (b.rm == 0)
    let c ← FCond.ofCode b.fn
    chk FpC.ok ⟨h.g, c, ty, lo3 h.d, h.a, h.b⟩

def decFpV (h : Head) (b : BodyA) : Except DecodeErr FpV :=
  build (h.b == 0 && h.c == 0 && b.rsv == 0 && b.imm8 == 0 && b.md.extractLsb' 0 2 == 0
      && b.md.extractLsb' 3 5 == 0) do
    let dst ← ElemType.ofCode b.ty
    let src ← ElemType.ofCode b.ty2
    let rm ← Rm.ofCode b.rm
    chk FpV.ok ⟨h.g, b.md.getLsbD 2, rm, dst, src, h.d, h.a⟩

def decFpN (h : Head) (b : BodyA) : Except DecodeErr FpN :=
  build (h.b == 0 && h.c == 0 && b.noConv && b.md == 0) do
    let ty ← ElemType.ofCode b.ty
    let rm ← Rm.ofCode b.rm
    chk FpN.ok ⟨h.g, ty, rm, h.d, h.a⟩

/-- BR; with COND 0, A and B are unused and so zero (R37). -/
def decBrB (h : Head) (b : BodyI) : Except DecodeErr BrB :=
  build (h.d == 0 && h.c == 0 && (b.fn != 0 || (h.a == 0 && h.b == 0))) do
    let c ← brOfCode b.fn
    chk BrB.ok ⟨h.g, c, h.a, h.b, b.imm⟩

def decJmpB (h : Head) (b : BodyI) : Except DecodeErr JmpB :=
  build (h.d == 0 && h.a == 0 && h.b == 0 && h.c == 0) do
    need (b.fn == 0)
    some ⟨h.g, b.imm⟩

def decCallB (h : Head) (b : BodyI) : Except DecodeErr CallB :=
  build (h.a == 0 && h.b == 0 && h.c == 0) do
    need (b.fn == 0)
    some ⟨h.g, h.d, b.imm⟩

def decLoopB (h : Head) (b : BodyI) : Except DecodeErr LoopB :=
  build (h.d == 0 && h.b == 0 && h.c == 0) do
    need (b.fn == 0)
    some ⟨h.g, h.a, b.imm⟩

def decPredA (h : Head) (b : BodyA) : Except DecodeErr PredA :=
  build (hi3 h.d && hi3 h.a && hi3 h.b && h.c == 0 && b.noConv && b.ty == 0 && b.md.extractLsb' 2 6 == 0) do
    need (b.rm == 0)
    some ⟨h.g, lo3 h.d, lo3 h.a, lo3 h.b, b.md.getLsbD 0, b.md.getLsbD 1⟩

def decPnotA (h : Head) (b : BodyA) : Except DecodeErr PnotA :=
  build (hi3 h.d && hi3 h.a && h.b == 0 && h.c == 0 && b.bare) do
    need (b.rm == 0)
    some ⟨h.g, lo3 h.d, lo3 h.a⟩

def decPsetA (h : Head) (b : BodyA) : Except DecodeErr PsetA :=
  build (hi3 h.d && h.b == 0 && h.c == 0 && b.rsv == 0 && b.ty2 == 0 && b.ty == 0 && b.md == 0
      && b.imm8.extractLsb' 2 6 == 0 && (b.imm8.getLsbD 1 || h.a == 0)) do
    need (b.rm == 0)
    some ⟨h.g, lo3 h.d, if b.imm8.getLsbD 1 then .reg h.a else .imm (b.imm8.getLsbD 0)⟩

def decQputA (h : Head) (b : BodyA) : Except DecodeErr QputA :=
  build (hi3 h.d && h.b == 0 && h.c == 0 && b.bare) do
    need (b.rm == 0)
    some ⟨h.g, lo3 h.d, h.a⟩

def decQgetA (h : Head) (b : BodyA) : Except DecodeErr QgetA :=
  build (hi3 h.a && h.b == 0 && h.c == 0 && b.bare) do
    need (b.rm == 0)
    some ⟨h.g, h.d, lo3 h.a⟩

def decRepbA (h : Head) (b : BodyA) : Except DecodeErr RepbA :=
  build (h.d == 0 && h.b == 0 && h.c == 0 && b.rsv == 0 && b.ty2 == 0 && b.ty == 0
      && b.imm8.extractLsb' 5 3 == 0 && b.md.extractLsb' 2 6 == 0) do
    need (b.rm == 0)
    some ⟨h.g, h.a, b.imm8.extractLsb' 0 5, b.md.getLsbD 0, b.md.getLsbD 1⟩

/-- Format M: the conditions on its register fields and its reserved bit. -/
def BodyM.coreOk (b : BodyM) (h : Head) : Bool := b.rsv == 0 && (b.am == 3 || h.c == 0)

/-- No flag of format M. -/
def BodyM.noFlags (b : BodyM) : Bool := b.sx == 0 && b.nt == 0 && b.ex == 0

def decLdM (h : Head) (b : BodyM) : Except DecodeErr LdM :=
  build (h.b == 0 && b.coreOk h) do
    let s ← strOf b.stream b.pmask b.scope
    need (b.size.extractLsb' 2 2 == 0)
    chk LdM.ok ⟨h.g, s, .ofCode b.am, b.size.extractLsb' 0 2, flag b.sx, flag b.nt, flag b.ex, b.off, h.d, h.a, h.c⟩

def decStM (h : Head) (b : BodyM) : Except DecodeErr StM :=
  build (h.d == 0 && b.coreOk h) do
    let s ← strOf b.stream b.pmask b.scope
    need (b.size.extractLsb' 2 2 == 0 && b.sx == 0 && b.ex == 0)
    chk StM.ok ⟨h.g, s, .ofCode b.am, b.size.extractLsb' 0 2, flag b.nt, b.off, h.a, h.b, h.c⟩

def decLdvM (h : Head) (b : BodyM) : Except DecodeErr LdvM :=
  build (hi5 h.d && h.b == 0 && b.coreOk h) do
    let s ← strOf b.stream b.pmask b.scope
    need (b.sx == 0)
    let sz ← VSize.ofCode b.size
    chk LdvM.ok ⟨h.g, s, .ofCode b.am, sz, flag b.nt, flag b.ex, b.off, lo5 h.d, h.a, h.c⟩

def decStvM (h : Head) (b : BodyM) : Except DecodeErr StvM :=
  build (h.d == 0 && hi5 h.b && b.coreOk h) do
    let s ← strOf b.stream b.pmask b.scope
    need (b.sx == 0 && b.ex == 0)
    let sz ← VSize.ofCode b.size
    chk StvM.ok ⟨h.g, s, .ofCode b.am, sz, flag b.nt, b.off, h.a, lo5 h.b, h.c⟩

/-- Format M where only AM 0 and SIZE 3 are legal (R31, R128). -/
def BodyM.lineOnly (b : BodyM) : Bool := b.am == 0 && b.size == 3 && b.sx == 0

def decPfM (h : Head) (b : BodyM) : Except DecodeErr PfM :=
  build (h.d == 0 && h.b == 0 && h.c == 0 && b.rsv == 0) do
    let s ← strOf b.stream b.pmask b.scope
    need b.lineOnly
    some ⟨h.g, s, flag b.nt, flag b.ex, b.off, h.a⟩

def decCacheM (h : Head) (b : BodyM) : Except DecodeErr CacheM :=
  build (h.d == 0 && h.b == 0 && h.c == 0 && b.rsv == 0) do
    let s ← strOf b.stream b.pmask b.scope
    need (b.lineOnly && b.noFlags)
    some ⟨h.g, s, b.off, h.a⟩

def decScntT (h : Head) (b : BodyT) : Except DecodeErr ScntT :=
  build (h.a == 0 && h.b == 0 && h.c == 0 && b.rsv == 0 && b.imm16.extractLsb' 4 12 == 0
      && (!b.imm16.getLsbD 3 || b.imm16.extractLsb' 0 3 == 0))
    (chk ScntT.ok ⟨h.g, h.d, b.imm16.getLsbD 3, b.imm16.extractLsb' 0 3⟩)

def decAmoM (h : Head) (b : BodyM) : Except DecodeErr AmoM :=
  build (b.coreOk h) do
    let s ← strOf b.stream b.pmask b.scope
    need (b.size.extractLsb' 1 3 == 1 && b.noFlags)
    chk AmoM.ok ⟨h.g, s, .ofCode b.am, b.size.getLsbD 0, b.off, h.d, h.a, h.b, h.c⟩

def decCasM (h : Head) (b : BodyM) : Except DecodeErr CasM :=
  build (b.rsv == 0) do
    let s ← strOf b.stream b.pmask b.scope
    need (b.size.extractLsb' 1 3 == 1 && b.noFlags)
    chk CasM.ok ⟨h.g, s, .ofCode b.am, b.size.getLsbD 0, b.off, h.d, h.a, h.b, h.c⟩

def decAmoF (h : Head) (b : BodyM) : Except DecodeErr AmoF :=
  build (b.coreOk h) do
    let s ← strOf b.stream b.pmask b.scope
    need b.noFlags
    let ty ← AmoFmt.ofCode b.size
    chk AmoF.ok ⟨h.g, s, .ofCode b.am, ty, b.off, h.d, h.a, h.b, h.c⟩

def decWatchM (h : Head) (b : BodyM) : Except DecodeErr WatchM :=
  build (h.c == 0 && b.rsv == 0) do
    let s ← strOf b.stream b.pmask b.scope
    need (b.lineOnly && b.noFlags)
    some ⟨h.g, s, b.off, h.d, h.a, h.b⟩

def decRelM (h : Head) (b : BodyM) : Except DecodeErr RelM :=
  build (h.b == 0 && h.c == 0 && b.rsv == 0) do
    let s ← strOf b.stream b.pmask b.scope
    need (b.lineOnly && b.noFlags)
    some ⟨h.g, s, b.off, h.d, h.a⟩

def decLadM (h : Head) (b : BodyM) : Except DecodeErr LadM :=
  build (hi5 h.d && h.b == 0 && h.c == 0 && b.rsv == 0) do
    let s ← strOf b.stream b.pmask b.scope
    need (b.lineOnly && b.noFlags)
    some ⟨h.g, s, b.off, lo5 h.d, h.a⟩

def decStnM (h : Head) (b : BodyM) : Except DecodeErr StnM :=
  build (h.d == 0 && b.coreOk h) do
    let s ← strOf b.stream b.pmask b.scope
    need b.noFlags
    let sz ← NSize.ofCode b.size
    chk StnM.ok ⟨h.g, s, .ofCode b.am, sz, b.off, h.a, h.b, h.c⟩

def decSendC (h : Head) (b : BodyC) : Except DecodeErr SendC :=
  build (h.d == 0 && b.rsv == 0 && b.ty == 0 && b.seq == 0 && b.md == 0) do
    let s ← strOf b.stream b.pmask b.scope
    let am ← SrcMode.ofCode b.am
    some ⟨h.g, s, am, b.chan, h.a, h.b, h.c⟩

/-- SENDADD uses MOD bit 0, SENDMIN and SENDMAX MOD bit 1 (R163). -/
def decSendA (bit : Nat) (h : Head) (b : BodyC) : Except DecodeErr SendA :=
  build (h.d == 0 && b.rsv == 0 && b.md.extractLsb' 2 6 == 0 && !b.md.getLsbD (1 - bit)) do
    let s ← strOf b.stream b.pmask b.scope
    let am ← SrcMode.ofCode b.am
    let ty ← ElemType.ofCode b.ty
    chk SendA.ok ⟨h.g, s, am, ty, flag b.seq, b.md.getLsbD bit, b.chan, h.a, h.b, h.c⟩

/-- Format C of an instruction that reads no source range. -/
def BodyC.noSrc (b : BodyC) : Bool := b.rsv == 0 && b.ty == 0 && b.seq == 0

def decChopenC (h : Head) (b : BodyC) : Except DecodeErr ChopenC :=
  build (h.c == 0 && b.noSrc && b.am == 0 && b.md.extractLsb' 1 7 == 0) do
    let s ← strOf b.stream b.pmask b.scope
    some ⟨h.g, s, b.md.getLsbD 0, b.chan, h.d, h.a, h.b⟩

def decChcloseC (h : Head) (b : BodyC) : Except DecodeErr ChcloseC :=
  build (h.a == 0 && h.b == 0 && h.c == 0 && b.noSrc && b.am == 0 && b.md == 0) do
    let s ← strOf b.stream b.pmask b.scope
    some ⟨h.g, s, b.chan, h.d⟩

def decChwmC (h : Head) (b : BodyC) : Except DecodeErr ChwmC :=
  build (h.c == 0 && b.noSrc && b.am == 0 && b.md.extractLsb' 2 6 == 0) do
    let s ← strOf b.stream b.pmask b.scope
    some ⟨h.g, s, b.md.getLsbD 0, b.md.getLsbD 1, b.chan, h.d, h.a, h.b⟩

def decLmcfgT (h : Head) (b : BodyT) : Except DecodeErr LmcfgT :=
  build (h.a == 0 && h.b == 0 && h.c == 0 && b.rsv == 0 && b.imm16.extractLsb' 2 14 == 0)
    (some ⟨h.g, h.d, b.imm16.extractLsb' 0 2⟩)

def decMsgC (h : Head) (b : BodyC) : Except DecodeErr MsgC :=
  build (h.d == 0 && h.c == 0 && b.noSrc && b.am == 0 && b.chan == 0 && b.md == 0) do
    let s ← strOf b.stream b.pmask b.scope
    chk MsgC.ok ⟨h.g, s, h.a, h.b⟩

def decMsgtC (h : Head) (b : BodyC) : Except DecodeErr MsgtC :=
  build (h.d == 0 && b.noSrc && b.am == 0 && b.chan == 0 && b.md == 0) do
    let s ← strOf b.stream b.pmask b.scope
    chk MsgtC.ok ⟨h.g, s, h.a, h.b, h.c⟩

/-! Format V -/

def decVAddV (h : Head) (b : BodyA) : Except DecodeErr VAddV :=
  build (hi5 h.d && hi5 h.a && hi5 h.b && h.c == 0 && b.noConv && b.md.extractLsb' 2 6 == 0) do
    let ty ← ElemType.ofCode b.ty
    let rm ← Rm.ofCode b.rm
    chk VAddV.ok ⟨h.g, ty, rm, b.md.getLsbD 0, b.md.getLsbD 1, lo5 h.d, lo5 h.a, lo5 h.b⟩

def decVMulV (h : Head) (b : BodyA) : Except DecodeErr VMulV :=
  build (hi5 h.d && hi5 h.a && hi5 h.b && h.c == 0 && b.noConv && b.md == 0) do
    let ty ← ElemType.ofCode b.ty
    let rm ← Rm.ofCode b.rm
    chk VMulV.ok ⟨h.g, ty, rm, lo5 h.d, lo5 h.a, lo5 h.b⟩

def decVFmaV (h : Head) (b : BodyA) : Except DecodeErr VFmaV :=
  build (hi5 h.d && hi5 h.a && hi5 h.b && hi5 h.c && b.noConv && b.md == 0) do
    let ty ← ElemType.ofCode b.ty
    let rm ← Rm.ofCode b.rm
    chk VFmaV.ok ⟨h.g, ty, rm, lo5 h.d, lo5 h.a, lo5 h.b, lo5 h.c⟩

def decVNegV (h : Head) (b : BodyA) : Except DecodeErr VNegV :=
  build (hi5 h.d && hi5 h.a && h.b == 0 && h.c == 0 && b.noConv && b.md.extractLsb' 1 7 == 0) do
    let ty ← ElemType.ofCode b.ty
    need (b.rm == 0)
    chk VNegV.ok ⟨h.g, ty, b.md.getLsbD 0, lo5 h.d, lo5 h.a⟩

def decVMinV (h : Head) (b : BodyA) : Except DecodeErr VMinV :=
  build (hi5 h.d && hi5 h.a && hi5 h.b && h.c == 0 && b.noConv && b.md.extractLsb' 2 6 == 0 && !b.md.getLsbD 0) do
    let ty ← ElemType.ofCode b.ty
    need (b.rm == 0)
    chk VMinV.ok ⟨h.g, ty, b.md.getLsbD 1, lo5 h.d, lo5 h.a, lo5 h.b⟩

def decVLogV (h : Head) (b : BodyA) : Except DecodeErr VLogV :=
  build (hi5 h.d && hi5 h.a && hi5 h.b && h.c == 0 && b.bare) do
    need (b.rm == 0)
    some ⟨h.g, lo5 h.d, lo5 h.a, lo5 h.b⟩

def decVShV (h : Head) (b : BodyA) : Except DecodeErr VShV :=
  build (hi5 h.d && hi5 h.a && hi5 h.b && h.c == 0 && b.rsv == 0 && b.ty2 == 0 && b.md.extractLsb' 1 7 == 0
      && (if b.md.getLsbD 0 then h.b == 0 else b.imm8 == 0)) do
    let ty ← ElemType.ofCode b.ty
    need (b.rm == 0)
    chk VShV.ok ⟨h.g, ty, lo5 h.d, lo5 h.a, if b.md.getLsbD 0 then .imm b.imm8 else .reg (lo5 h.b)⟩

def decVCmpV (h : Head) (b : BodyA) : Except DecodeErr VCmpV :=
  build (hi5 h.d && hi5 h.a && hi5 h.b && h.c == 0 && b.noConv && b.md == 0) do
    let ty ← ElemType.ofCode b.ty
    need (b.rm == 0)
    let c ← VCond.ofCode b.fn
    chk VCmpV.ok ⟨h.g, c, ty, lo5 h.d, lo5 h.a, lo5 h.b⟩

def decVSelV (h : Head) (b : BodyA) : Except DecodeErr VSelV :=
  build (hi5 h.d && hi5 h.a && hi5 h.b && hi5 h.c && b.bare) do
    need (b.rm == 0)
    some ⟨h.g, lo5 h.d, lo5 h.a, lo5 h.b, lo5 h.c⟩

def decVCvtV (h : Head) (b : BodyA) : Except DecodeErr VCvtV :=
  build (hi5 h.d && hi5 h.a && h.b == 0 && h.c == 0 && b.rsv == 0 && b.md.extractLsb' 0 2 == 0
      && b.md.extractLsb' 3 5 == 0) do
    let dst ← ElemType.ofCode b.ty
    let src ← ElemType.ofCode b.ty2
    let rm ← Rm.ofCode b.rm
    chk VCvtV.ok ⟨h.g, b.md.getLsbD 2, rm, dst, src, lo5 h.d, lo5 h.a, b.imm8⟩

def decVFunV (h : Head) (b : BodyA) : Except DecodeErr VFunV :=
  build (hi5 h.d && hi5 h.a && h.b == 0 && h.c == 0 && b.noConv && b.md == 0) do
    let ty ← ElemType.ofCode b.ty
    need (b.rm == 0)
    chk VFunV.ok ⟨h.g, ty, lo5 h.d, lo5 h.a⟩

def decVSqrtV (h : Head) (b : BodyA) : Except DecodeErr VSqrtV :=
  build (hi5 h.d && hi5 h.a && h.b == 0 && h.c == 0 && b.noConv && b.md == 0) do
    let ty ← ElemType.ofCode b.ty
    let rm ← Rm.ofCode b.rm
    chk VSqrtV.ok ⟨h.g, ty, rm, lo5 h.d, lo5 h.a⟩

def decVPermV (h : Head) (b : BodyA) : Except DecodeErr VPermV :=
  build (hi5 h.d && hi5 h.a && hi5 h.b && hi5 h.c && b.noConv && b.md.extractLsb' 1 7 == 0
      && (b.md.getLsbD 0 || h.c == 0)) do
    let ty ← ElemType.ofCode b.ty
    need (b.rm == 0)
    chk VPermV.ok ⟨h.g, ty, lo5 h.d, lo5 h.a, lo5 h.b, if b.md.getLsbD 0 then some (lo5 h.c) else none⟩

def decVBcastV (h : Head) (b : BodyA) : Except DecodeErr VBcastV :=
  build (hi5 h.d && hi5 h.a && h.b == 0 && h.c == 0 && b.rsv == 0 && b.ty2 == 0 && b.md == 0) do
    let ty ← ElemType.ofCode b.ty
    need (b.rm == 0)
    chk VBcastV.ok ⟨h.g, ty, lo5 h.d, lo5 h.a, b.imm8⟩

def decVInsV (h : Head) (b : BodyA) : Except DecodeErr VInsV :=
  build (hi5 h.d && h.b == 0 && h.c == 0 && b.rsv == 0 && b.ty2 == 0 && b.md == 0) do
    let ty ← ElemType.ofCode b.ty
    need (b.rm == 0)
    chk VInsV.ok ⟨h.g, ty, lo5 h.d, h.a, b.imm8⟩

def decVExtV (h : Head) (b : BodyA) : Except DecodeErr VExtV :=
  build (hi5 h.a && h.b == 0 && h.c == 0 && b.rsv == 0 && b.ty2 == 0 && b.md == 0) do
    let ty ← ElemType.ofCode b.ty
    need (b.rm == 0)
    chk VExtV.ok ⟨h.g, ty, h.d, lo5 h.a, b.imm8⟩

def decVRedV (p : VRedV → Bool) (h : Head) (b : BodyA) : Except DecodeErr VRedV :=
  build (hi5 h.d && hi5 h.a && h.b == 0 && h.c == 0 && b.noConv && b.md.extractLsb' 2 6 == 0 && !b.md.getLsbD 0) do
    let op ← RedOp.ofCode b.fn
    let ty ← ElemType.ofCode b.ty
    let rm ← Rm.ofCode b.rm
    chk p ⟨h.g, op, b.md.getLsbD 1, ty, rm, lo5 h.d, lo5 h.a⟩

def decVDotV (h : Head) (b : BodyA) : Except DecodeErr VDotV :=
  build (hi5 h.d && hi5 h.a && hi5 h.b && h.c == 0 && b.rsv == 0 && b.imm8 == 0 && b.md.extractLsb' 1 7 == 0) do
    let acc ← ElemType.ofCode b.ty
    let src ← ElemType.ofCode b.ty2
    let rm ← Rm.ofCode b.rm
    chk VDotV.ok ⟨h.g, b.md.getLsbD 0, rm, acc, src, lo5 h.d, lo5 h.a, lo5 h.b⟩

def decVMovV (h : Head) (b : BodyA) : Except DecodeErr VMovV :=
  build (hi5 h.d && hi5 h.a && h.b == 0 && h.c == 0 && b.bare) do
    need (b.rm == 0)
    some ⟨h.g, lo5 h.d, lo5 h.a⟩

def decVSplatV (h : Head) (b : BodyA) : Except DecodeErr VSplatV :=
  build (hi5 h.d && h.b == 0 && h.c == 0 && b.noConv && b.md == 0) do
    let ty ← ElemType.ofCode b.ty
    need (b.rm == 0)
    some ⟨h.g, ty, lo5 h.d, h.a⟩

/-! Formats N, X and A of the manifest and matrix instructions -/

/-- Format N or X without TYPE and DIMS. -/
def BodyN.plain (b : BodyN) : Bool := b.rsv == 0 && b.ty == 0 && b.dims == 0

/-- STREAM, PMASK and SCOPE zero. -/
def BodyN.noStr (b : BodyN) : Bool := b.stream == 0 && b.pmask == 0 && b.scope == 0

def decMldN (h : Head) (b : BodyN) : Except DecodeErr MldN :=
  build (hi3 h.d && h.b == 0 && h.c == 0 && b.plain && b.md.extractLsb' 1 7 == 0) do
    let s ← strOf b.stream b.pmask b.scope
    need (b.rm == 0)
    some ⟨h.g, s, b.md.getLsbD 0, lo3 h.d, h.a⟩

def decMstN (h : Head) (b : BodyN) : Except DecodeErr MldN :=
  build (h.d == 0 && hi3 h.b && h.c == 0 && b.plain && b.md.extractLsb' 1 7 == 0) do
    let s ← strOf b.stream b.pmask b.scope
    need (b.rm == 0)
    some ⟨h.g, s, b.md.getLsbD 0, lo3 h.b, h.a⟩

def decLutN (h : Head) (b : BodyN) : Except DecodeErr LutN :=
  build (h.d == 0 && h.b == 0 && h.c == 0 && b.plain && b.md.extractLsb' 1 7 == 0) do
    let s ← strOf b.stream b.pmask b.scope
    need (b.rm == 0)
    some ⟨h.g, s, b.md.getLsbD 0, h.a⟩

def decMsetN (h : Head) (b : BodyN) : Except DecodeErr MsetN :=
  build (hi3 h.d && h.c == 0 && b.plain && b.noStr && b.md == 0 && ((2 ≤ b.fn.toNat && b.fn.toNat ≤ 5) || h.b == 0)) do
    need (b.rm == 0)
    let f ← MField.ofCode b.fn
    chk MsetN.ok ⟨h.g, f, lo3 h.d, h.a, h.b⟩

def decFmtsetA (h : Head) (b : BodyA) : Except DecodeErr FmtsetA :=
  build (hi4 h.d && h.b == 0 && h.c == 0 && b.bare) do
    need (b.rm == 0)
    some ⟨h.g, lo4 h.d, h.a⟩

def decFmtgetA (h : Head) (b : BodyA) : Except DecodeErr FmtgetA :=
  build (hi4 h.a && h.b == 0 && h.c == 0 && b.bare) do
    need (b.rm == 0)
    some ⟨h.g, h.d, lo4 h.a⟩

def decMewN (h : Head) (b : BodyN) : Except DecodeErr MewN :=
  build (hi3 h.d && hi3 h.a && hi3 h.b && h.c == 0 && b.rsv == 0 && b.dims == 0 && b.md.extractLsb' 3 5 == 0
      && !b.md.getLsbD 0 && (b.fn.toNat < 5 || h.b == 0)) do
    let s ← strOf b.stream b.pmask b.scope
    let op ← EwOp.ofCode b.fn
    let ty ← ElemType.ofCode b.ty
    let rm ← Rm.ofCode b.rm
    chk MewN.ok ⟨h.g, s, op, b.md.getLsbD 1, b.md.getLsbD 2, ty, rm, lo3 h.d, lo3 h.a, lo3 h.b⟩

/-- MOD with SAT (bit 2) only. -/
def BodyN.satOnly (b : BodyN) : Bool := b.md.extractLsb' 3 5 == 0 && b.md.extractLsb' 0 2 == 0

def decMfmaN (h : Head) (b : BodyN) : Except DecodeErr MfmaN :=
  build (hi3 h.d && hi3 h.a && hi3 h.b && hi3 h.c && b.rsv == 0 && b.dims == 0 && b.satOnly) do
    let s ← strOf b.stream b.pmask b.scope
    let ty ← ElemType.ofCode b.ty
    let rm ← Rm.ofCode b.rm
    chk MfmaN.ok ⟨h.g, s, b.md.getLsbD 2, ty, rm, lo3 h.d, lo3 h.a, lo3 h.b, lo3 h.c⟩

def decMredN (h : Head) (b : BodyN) : Except DecodeErr MredN :=
  build (hi3 h.d && hi3 h.a && h.b == 0 && h.c == 0 && b.rsv == 0 && b.satOnly) do
    let s ← strOf b.stream b.pmask b.scope
    let op ← MRedOp.ofCode b.fn
    let ty ← ElemType.ofCode b.ty
    let rm ← Rm.ofCode b.rm
    chk MredN.ok ⟨h.g, s, op, b.md.getLsbD 2, ty, rm, b.dims, lo3 h.d, lo3 h.a⟩

def decMcvtN (h : Head) (b : BodyN) : Except DecodeErr McvtN :=
  build (hi3 h.d && hi3 h.a && h.b == 0 && h.c == 0 && b.plain && b.satOnly) do
    let s ← strOf b.stream b.pmask b.scope
    let rm ← Rm.ofCode b.rm
    some ⟨h.g, s, b.md.getLsbD 2, rm, lo3 h.d, lo3 h.a⟩

def decMgathN (h : Head) (b : BodyN) : Except DecodeErr MgathN :=
  build (hi3 h.d && hi3 h.a && hi3 h.b && h.c == 0 && b.rsv == 0 && b.dims == 0 && b.satOnly) do
    let s ← strOf b.stream b.pmask b.scope
    let ty ← ElemType.ofCode b.ty
    let rm ← Rm.ofCode b.rm
    chk MgathN.ok ⟨h.g, s, b.md.getLsbD 2, ty, rm, lo3 h.d, lo3 h.a, lo3 h.b⟩

def decMscatN (h : Head) (b : BodyN) : Except DecodeErr MscatN :=
  build (hi3 h.d && hi3 h.a && hi3 h.b && h.c == 0 && b.rsv == 0 && b.dims == 0 && b.satOnly) do
    let s ← strOf b.stream b.pmask b.scope
    let ty ← ElemType.ofCode b.ty
    let rm ← Rm.ofCode b.rm
    chk MscatN.ok ⟨h.g, s, b.fn.getLsbD 0, b.md.getLsbD 2, ty, rm, lo3 h.d, lo3 h.a, lo3 h.b⟩

def decMcopyN (h : Head) (b : BodyN) : Except DecodeErr McopyN :=
  build (hi3 h.d && hi3 h.a && h.b == 0 && h.c == 0 && b.plain && b.md == 0) do
    let s ← strOf b.stream b.pmask b.scope
    need (b.rm == 0)
    some ⟨h.g, s, lo3 h.d, lo3 h.a⟩

def decXresX (h : Head) (b : BodyN) : Except DecodeErr XresX :=
  build (h.c == 0 && b.rsv == 0 && b.dims == 0 && b.md.extractLsb' 3 5 == 0) do
    let s ← strOf b.stream b.pmask b.scope
    need (b.rm == 0)
    let ty ← ElemType.ofCode b.ty
    chk XresX.ok ⟨h.g, s, ty, b.md.extractLsb' 0 2, b.md.getLsbD 2, h.d, h.a, h.b⟩

def decXhX (h : Head) (b : BodyN) : Except DecodeErr XhX :=
  build (h.b == 0 && h.c == 0 && b.plain && b.md == 0) do
    let s ← strOf b.stream b.pmask b.scope
    need (b.rm == 0)
    some ⟨h.g, s, h.d, h.a⟩

def decXqryX (h : Head) (b : BodyN) : Except DecodeErr XqryX :=
  build (hi5 h.d && h.b == 0 && h.c == 0 && b.plain && b.noStr && b.md == 0) do
    need (b.rm == 0)
    some ⟨h.g, lo5 h.d, h.a⟩

def decXmmX (h : Head) (b : BodyN) : Except DecodeErr XmmX :=
  build (hi2 h.d && hi3 h.a && hi3 h.c && b.plain && b.md.extractLsb' 2 6 == 0 && (b.md.getLsbD 0 || h.c == 0)) do
    let s ← strOf b.stream b.pmask b.scope
    need (b.rm == 0 && (b.md.getLsbD 0 || !b.md.getLsbD 1))
    some ⟨h.g, s, if b.md.getLsbD 0 then some (lo3 h.c, b.md.getLsbD 1) else none, lo2 h.d, lo3 h.a, h.b⟩

/-- Format X of an instruction that takes no stream. -/
def BodyN.bare (b : BodyN) : Bool := b.plain && b.noStr && b.md == 0

def decGSrcX (h : Head) (b : BodyN) : Except DecodeErr GSrc :=
  build (h.d == 0 && h.b == 0 && h.c == 0 && b.bare) do
    need (b.rm == 0)
    some ⟨h.g, h.a⟩

def decXstatX (h : Head) (b : BodyN) : Except DecodeErr XstatX :=
  build (h.a == 0 && h.b == 0 && h.c == 0 && b.bare) do
    need (b.rm == 0)
    chk XstatX.ok ⟨h.g, b.fn.extractLsb' 0 4, h.d⟩

def decAcfgX (h : Head) (b : BodyN) : Except DecodeErr AcfgX :=
  build (h.b == 0 && hi2 h.c && b.bare) do
    need (b.rm == 0)
    some ⟨h.g, h.d, h.a, lo2 h.c⟩

def decAgetX (h : Head) (b : BodyN) : Except DecodeErr AgetX :=
  build (hi2 h.a && h.b == 0 && h.c == 0 && b.bare) do
    need (b.rm == 0)
    some ⟨h.g, h.d, lo2 h.a⟩

def decAviewX (h : Head) (b : BodyN) : Except DecodeErr AviewX :=
  build (hi2 h.d && h.a == 0 && h.b == 0 && h.c == 0 && b.bare) do
    need (b.rm == 0)
    some ⟨h.g, lo2 h.d⟩

def decAinX (h : Head) (b : BodyN) : Except DecodeErr AinX :=
  build (hi2 h.d && hi5 h.a && h.c == 0 && b.bare) do
    need (b.rm == 0)
    some ⟨h.g, lo2 h.d, lo5 h.a, h.b⟩

def decAoutX (h : Head) (b : BodyN) : Except DecodeErr AoutX :=
  build (hi5 h.d && hi2 h.a && h.c == 0 && b.bare) do
    need (b.rm == 0)
    some ⟨h.g, lo5 h.d, lo2 h.a, h.b⟩

/-! Format T -/

def decGOnlyT (h : Head) (b : BodyT) : Except DecodeErr GOnly :=
  build (h.d == 0 && h.a == 0 && h.b == 0 && h.c == 0 && b.rsv == 0 && b.imm16 == 0) (some ⟨h.g⟩)

def decSleepT (h : Head) (b : BodyT) : Except DecodeErr SleepT :=
  build (h.c == 0 && b.rsv == 0 && b.imm16.extractLsb' 11 5 == 0)
    (chk SleepT.ok ⟨h.g, h.d, h.a, h.b, b.imm16.extractLsb' 0 11⟩)

def decThnewT (h : Head) (b : BodyT) : Except DecodeErr ThnewT :=
  build (b.rsv == 0 && b.imm16.extractLsb' 1 15 == 0) (some ⟨h.g, b.imm16.getLsbD 0, h.d, h.a, h.b, h.c⟩)

def decGDT (h : Head) (b : BodyT) : Except DecodeErr GD :=
  build (h.b == 0 && h.c == 0 && b.rsv == 0 && b.imm16 == 0) (some ⟨h.g, h.d, h.a⟩)

def decThrdT (h : Head) (b : BodyT) : Except DecodeErr ThrdT :=
  build (hi3 h.c && b.rsv == 0 && b.imm16 == 0) (some ⟨h.g, h.d, lo3 h.c, h.a, h.b⟩)

def decThwrT (h : Head) (b : BodyT) : Except DecodeErr ThwrT :=
  build (b.rsv == 0 && b.imm16 == 0) (some ⟨h.g, h.d, h.a, h.b, h.c⟩)

def decTrapT (h : Head) (b : BodyT) : Except DecodeErr TrapT :=
  build (h.d == 0 && h.a == 0 && h.b == 0 && h.c == 0 && b.rsv == 0) (some ⟨h.g, b.imm16⟩)

def decMfsT (h : Head) (b : BodyT) : Except DecodeErr MfsT :=
  build (h.a == 0 && h.b == 0 && h.c == 0 && b.rsv == 0) do
    let r ← SysReg.ofCode b.imm16
    some ⟨h.g, h.d, r⟩

def decMtsT (h : Head) (b : BodyT) : Except DecodeErr MtsT :=
  build (h.d == 0 && h.b == 0 && h.c == 0 && b.rsv == 0) do
    let r ← RwReg.ofCode b.imm16
    some ⟨h.g, r, h.a⟩

def decGDestT (h : Head) (b : BodyT) : Except DecodeErr GDest :=
  build (h.a == 0 && h.b == 0 && h.c == 0 && b.rsv == 0 && b.imm16 == 0) (some ⟨h.g, h.d⟩)

/-- The selectors of R319. -/
def RgnSel.code : RgnSel → BitVec 16
  | .cores => 0 | .attrs => 1 | .lcoreOf _ => 2 | .lcnAt _ => 3 | .energy => 4 | .frontier => 5 | .state => 6

def RgnSel.arg : RgnSel → GReg
  | .lcoreOf a => a
  | .lcnAt a => a
  | _ => 0

def RgnSel.ofCode (c : BitVec 16) (a : GReg) : Option RgnSel :=
  if c = 0 then some .cores else if c = 1 then some .attrs else if c = 2 then some (.lcoreOf a)
  else if c = 3 then some (.lcnAt a) else if c = 4 then some .energy else if c = 5 then some .frontier
  else if c = 6 then some .state else none

def decRgnqT (h : Head) (b : BodyT) : Except DecodeErr RgnqT :=
  build (h.b == 0 && h.c == 0 && b.rsv == 0
      && (h.a == 0 || !(b.imm16 == 0 || b.imm16 == 1 || b.imm16 == 4 || b.imm16 == 5 || b.imm16 == 6))) do
    let s ← RgnSel.ofCode b.imm16 h.a
    some ⟨h.g, s, h.d⟩

/-! ### The opcode map (R38) -/

/-- The FMT codes that R38 allows for an OPC; none where it is unassigned. -/
def fmtsOf (opc : Nat) : List Nat :=
  if opc = 0x00 || opc = 0x01 || opc = 0x04 || opc = 0x08 then [0, 1]
  else if opc = 0x07 then [1]
  else if opc ≤ 0x06 then [0]
  else if 0x20 ≤ opc && opc ≤ 0x25 then [0]
  else if opc = 0x30 || opc = 0x31 || opc = 0x33 || opc = 0x36 then [3]
  else if 0x30 ≤ opc && opc ≤ 0x3F then [0]
  else if opc = 0x47 then [8]
  else if 0x40 ≤ opc && opc ≤ 0x54 then [2]
  else if 0x58 ≤ opc && opc ≤ 0x5A then [2]
  else if 0x5C ≤ opc && opc ≤ 0x5E then [2]
  else if 0x60 ≤ opc && opc ≤ 0x66 then [7]
  else if opc = 0x67 then [2]
  else if opc = 0x68 then [8]
  else if opc = 0x69 then [7]
  else if 0x70 ≤ opc && opc ≤ 0x91 then [4]
  else if opc = 0xAA || opc = 0xAB then [0]
  else if 0xA0 ≤ opc && opc ≤ 0xAC then [5]
  else if 0xB0 ≤ opc && opc ≤ 0xBF then [6]
  else if opc = 0xC0 || opc = 0xC1 then [7]
  else if 0xC2 ≤ opc && opc ≤ 0xCF then [8]
  else []

/-- FN 0 is the only legal one. -/
def fn0 (fn : BitVec 8) (x : Except DecodeErr Instr) : Except DecodeErr Instr :=
  if fn = 0 then x else .error .fnUndefined

/-- FN is a reserved field, which must be zero (R298). -/
def fnReserved (fn : BitVec 8) (x : Except DecodeErr Instr) : Except DecodeErr Instr :=
  if fn = 0 then x else .error .reservedNonzero

/-- Format A: the rows of R38. -/
def decodeA (h : Head) (b : BodyA) : Except DecodeErr Instr :=
  match h.opc.toNat with
  | 0x00 =>
    match b.fn.toNat with
    | 0 => (decAluA h b).map .add
    | 1 => (decAluA h b).map .sub
    | 2 => (decAluA h b).map .mul
    | 3 => (decAluA h b).map .mulh
    | 4 => (decAluA h b).map .mulhu
    | 5 => (decAluA h b).map .div
    | 6 => (decAluA h b).map .divu
    | 7 => (decAluA h b).map .rem
    | 8 => (decAluA h b).map .remu
    | 9 => (decAluA h b).map .min
    | 10 => (decAluA h b).map .max
    | 11 => (decAluA h b).map .minu
    | 12 => (decAluA h b).map .maxu
    | _ => .error .fnUndefined
  | 0x01 =>
    match b.fn.toNat with
    | 0 => (decAluA h b).map .and
    | 1 => (decAluA h b).map .or
    | 2 => (decAluA h b).map .xor
    | 3 => (decAluA h b).map .andn
    | 4 => (decAluA h b).map .orn
    | 5 => (decAluA h b).map .shl
    | 6 => (decAluA h b).map .shr
    | 7 => (decAluA h b).map .sra
    | 8 => (decAluA h b).map .rol
    | _ => .error .fnUndefined
  | 0x02 =>
    match b.fn.toNat with
    | 0 => (decUnA h b).map .clz
    | 1 => (decUnA h b).map .ctz
    | 2 => (decUnA h b).map .popc
    | 3 => (decUnA h b).map .brev
    | 4 => (decExtA h b).map .sext
    | 5 => (decExtA h b).map .zext
    | _ => .error .fnUndefined
  | 0x03 =>
    match b.fn.toNat with
    | 0 => (decBfxA h b).map .bfx
    | 1 => (decBfiA h b).map .bfi
    | _ => .error .fnUndefined
  | 0x04 => (decCmpA h b).map .cmp
  | 0x05 => fn0 b.fn ((decSelA h b).map .sel)
  | 0x06 => fn0 b.fn ((decGDA h b).map .mov)
  | 0x08 => fn0 b.fn ((decLeaA h b).map .lea)
  | 0x20 =>
    match b.fn.toNat with
    | 0 => (decFpR h b).map .fadd
    | 1 => (decFpR h b).map .fsub
    | 2 => (decFpR h b).map .fmul
    | 3 => (decFpB h b).map .fmin
    | 4 => (decFpB h b).map .fmax
    | 5 => (decFpU FpU.ok h b).map .fabs
    | 6 => (decFpU FpU.ok h b).map .fneg
    | _ => .error .fnUndefined
  | 0x21 => fn0 b.fn ((decFpF h b).map .ffma)
  | 0x22 => (decFpC h b).map .fcmp
  | 0x23 => fn0 b.fn ((decFpU FpU.okClass h b).map .fclass)
  | 0x24 => fn0 b.fn ((decFpV h b).map .fcvt)
  | 0x25 => fn0 b.fn ((decFpN h b).map .frnd)
  | 0x32 => fn0 b.fn ((decGSrcA h b).map .jmpi)
  | 0x34 => fn0 b.fn ((decGDA h b).map .calli)
  | 0x35 => fn0 b.fn ((decGSrcA h b).map .ret)
  | 0x37 => (decNop h b).map .nop
  | 0x38 =>
    match b.fn.toNat with
    | 0 => (decPredA h b).map .pand
    | 1 => (decPredA h b).map .por
    | 2 => (decPredA h b).map .pxor
    | 3 => (decPnotA h b).map .pnot
    | 4 => (decPsetA h b).map .pset
    | _ => .error .fnUndefined
  | 0x39 => fn0 b.fn ((decQputA h b).map .qput)
  | 0x3A => fn0 b.fn ((decQgetA h b).map .qget)
  | 0x3B => fn0 b.fn ((decQgetA h b).map .qpeek)
  | 0x3C => fn0 b.fn ((decQgetA h b).map .qcnt)
  | 0x3D => fn0 b.fn ((decRepbA h b).map .repb)
  | 0x3E => fn0 b.fn ((decRepe h b).map .repe)
  | 0x3F =>
    match b.fn.toNat with
    | 0 => (decGSrcA h b).map .reprun
    | 1 => (decGDestA h b).map .repstat
    | _ => .error .fnUndefined
  | 0xAA => fn0 b.fn ((decFmtsetA h b).map .fmtset)
  | 0xAB => fn0 b.fn ((decFmtgetA h b).map .fmtget)
  | _ => .error .fmtIllegal

/-- Format I: the rows of R38. -/
def decodeI (h : Head) (b : BodyI) : Except DecodeErr Instr :=
  match h.opc.toNat with
  | 0x00 =>
    match b.fn.toNat with
    | 0 => (decAluI h b).map .addImm
    | 1 => (decAluI h b).map .subImm
    | 2 => (decAluI h b).map .mulImm
    | 3 => (decAluI h b).map .mulhImm
    | 4 => (decAluI h b).map .mulhuImm
    | 5 => (decAluI h b).map .divImm
    | 6 => (decAluI h b).map .divuImm
    | 7 => (decAluI h b).map .remImm
    | 8 => (decAluI h b).map .remuImm
    | 9 => (decAluI h b).map .minImm
    | 10 => (decAluI h b).map .maxImm
    | 11 => (decAluI h b).map .minuImm
    | 12 => (decAluI h b).map .maxuImm
    | _ => .error .fnUndefined
  | 0x01 =>
    match b.fn.toNat with
    | 0 => (decAluI h b).map .andImm
    | 1 => (decAluI h b).map .orImm
    | 2 => (decAluI h b).map .xorImm
    | 3 => (decAluI h b).map .andnImm
    | 4 => (decAluI h b).map .ornImm
    | 5 => (decShI h b).map .shlImm
    | 6 => (decShI h b).map .shrImm
    | 7 => (decShI h b).map .sraImm
    | 8 => (decShI h b).map .rolImm
    | _ => .error .fnUndefined
  | 0x04 => (decCmpI h b).map .cmpImm
  | 0x07 => fn0 b.fn ((decLiI h b).map .li)
  | 0x08 => fn0 b.fn ((decAluI h b).map .leaImm)
  | _ => .error .fmtIllegal

/-- Format M: the rows of R38. -/
def decodeM (h : Head) (b : BodyM) : Except DecodeErr Instr :=
  match h.opc.toNat with
  | 0x40 => (decLdM h b).map .ld
  | 0x41 => (decStM h b).map .st
  | 0x42 => (decLdvM h b).map .ldv
  | 0x43 => (decStvM h b).map .stv
  | 0x44 => (decPfM h b).map .pfetch
  | 0x45 => (decCacheM h b).map .cflush
  | 0x46 => (decCacheM h b).map .cinv
  | 0x48 => (decAmoM h b).map .amoadd
  | 0x49 => (decAmoM h b).map .amoand
  | 0x4A => (decAmoM h b).map .amoor
  | 0x4B => (decAmoM h b).map .amoxor
  | 0x4C => (decAmoM h b).map .amomin
  | 0x4D => (decAmoM h b).map .amomax
  | 0x4E => (decAmoM h b).map .amominu
  | 0x4F => (decAmoM h b).map .amomaxu
  | 0x50 => (decAmoM h b).map .amoswp
  | 0x51 => (decCasM h b).map .amocas
  | 0x52 => (decAmoF h b).map .amofadd
  | 0x53 => (decAmoF h b).map .amofmin
  | 0x54 => (decAmoF h b).map .amofmax
  | 0x58 => (decWatchM h b).map .watch
  | 0x59 => (decWatchM h b).map .unwatch
  | 0x5A => (decWatchM h b).map .watchq
  | 0x5C => (decWatchM h b).map .acqr
  | 0x5D => (decRelM h b).map .relr
  | 0x5E => (decLadM h b).map .ladq
  | 0x67 => (decStnM h b).map .stn
  | _ => .error .fmtIllegal

/-- Format B: the rows of R38. -/
def decodeB (h : Head) (b : BodyI) : Except DecodeErr Instr :=
  match h.opc.toNat with
  | 0x30 => (decBrB h b).map .br
  | 0x31 => (decJmpB h b).map .jmp
  | 0x33 => (decCallB h b).map .call
  | 0x36 => (decLoopB h b).map .loop
  | _ => .error .fmtIllegal

/-- Format V: the rows of R38. -/
def decodeV (h : Head) (b : BodyA) : Except DecodeErr Instr :=
  match h.opc.toNat with
  | 0x70 => fn0 b.fn ((decVAddV h b).map .vadd)
  | 0x71 => fn0 b.fn ((decVAddV h b).map .vsub)
  | 0x72 => fn0 b.fn ((decVMulV h b).map .vmul)
  | 0x73 => fn0 b.fn ((decVFmaV h b).map .vfma)
  | 0x74 => fn0 b.fn ((decVFmaV h b).map .vfms)
  | 0x75 => fn0 b.fn ((decVNegV h b).map .vneg)
  | 0x76 => fn0 b.fn ((decVNegV h b).map .vabs)
  | 0x77 => fn0 b.fn ((decVMinV h b).map .vmin)
  | 0x78 => fn0 b.fn ((decVMinV h b).map .vmax)
  | 0x79 => fn0 b.fn ((decVLogV h b).map .vand)
  | 0x7A => fn0 b.fn ((decVLogV h b).map .vor)
  | 0x7B => fn0 b.fn ((decVLogV h b).map .vxor)
  | 0x7C => fn0 b.fn ((decVShV h b).map .vshl)
  | 0x7D => fn0 b.fn ((decVShV h b).map .vshr)
  | 0x7E => fn0 b.fn ((decVShV h b).map .vsra)
  | 0x7F => (decVCmpV h b).map .vcmp
  | 0x80 => fn0 b.fn ((decVSelV h b).map .vsel)
  | 0x81 => fn0 b.fn ((decVCvtV h b).map .vcvt)
  | 0x82 => fn0 b.fn ((decVFunV h b).map .vrcp)
  | 0x83 => fn0 b.fn ((decVFunV h b).map .vrsq)
  | 0x84 => fn0 b.fn ((decVSqrtV h b).map .vsqrt)
  | 0x85 => fn0 b.fn ((decVFunV h b).map .vexp2)
  | 0x86 => fn0 b.fn ((decVFunV h b).map .vlog2)
  | 0x87 => fn0 b.fn ((decVFunV h b).map .vsinp)
  | 0x88 => fn0 b.fn ((decVFunV h b).map .vtanh)
  | 0x89 => fn0 b.fn ((decVPermV h b).map .vperm)
  | 0x8A => fn0 b.fn ((decVBcastV h b).map .vbcast)
  | 0x8B => fn0 b.fn ((decVInsV h b).map .vins)
  | 0x8C => fn0 b.fn ((decVExtV h b).map .vext)
  | 0x8D => if RedOp.ofCode b.fn |>.isSome then (decVRedV VRedV.ok h b).map .vred else .error .fnUndefined
  | 0x8E => if b.fn.toNat ≤ 2 then (decVRedV VRedV.okScan h b).map .vscan else .error .fnUndefined
  | 0x8F => fn0 b.fn ((decVDotV h b).map .vdot)
  | 0x90 => fn0 b.fn ((decVMovV h b).map .vmov)
  | 0x91 => fn0 b.fn ((decVSplatV h b).map .vsplat)
  | _ => .error .fmtIllegal

/-- Format N: the rows of R38. -/
def decodeN (h : Head) (b : BodyN) : Except DecodeErr Instr :=
  match h.opc.toNat with
  | 0xA0 => fn0 b.fn ((decMldN h b).map .mld)
  | 0xA1 => fn0 b.fn ((decMstN h b).map .mst)
  | 0xA2 => if MField.ofCode b.fn |>.isSome then (decMsetN h b).map .mset else .error .fnUndefined
  | 0xA3 => if EwOp.ofCode b.fn |>.isSome then (decMewN h b).map .mew else .error .fnUndefined
  | 0xA4 => fn0 b.fn ((decMfmaN h b).map .mfma)
  | 0xA5 => if MRedOp.ofCode b.fn |>.isSome then (decMredN h b).map .mred else .error .fnUndefined
  | 0xA6 => fn0 b.fn ((decMcvtN h b).map .mcvt)
  | 0xA7 => fn0 b.fn ((decMgathN h b).map .mgath)
  | 0xA8 => if b.fn.toNat ≤ 1 then (decMscatN h b).map .mscat else .error .fnUndefined
  | 0xA9 => fn0 b.fn ((decMcopyN h b).map .mcopy)
  | 0xAC => fn0 b.fn ((decLutN h b).map .lutld)
  | _ => .error .fmtIllegal

/-- Format X: the rows of R38. -/
def decodeX (h : Head) (b : BodyN) : Except DecodeErr Instr :=
  match h.opc.toNat with
  | 0xB0 => fn0 b.fn ((decXresX h b).map .xres)
  | 0xB1 => fn0 b.fn ((decXhX h b).map .xload)
  | 0xB2 => fn0 b.fn ((decXhX h b).map .xpin)
  | 0xB3 => fn0 b.fn ((decXhX h b).map .xunpin)
  | 0xB4 => fn0 b.fn ((decXhX h b).map .xrevk)
  | 0xB5 => fn0 b.fn ((decXqryX h b).map .xqry)
  | 0xB6 => fn0 b.fn ((decXmmX h b).map .xmm)
  | 0xB7 => fn0 b.fn ((decXmmX h b).map .xacc)
  | 0xB8 => fn0 b.fn ((decGSrcX h b).map .xzero)
  | 0xB9 => if b.fn.toNat ≤ 12 then (decXstatX h b).map .xstat else .error .fnUndefined
  | 0xBA => fn0 b.fn ((decAcfgX h b).map .acfg)
  | 0xBB => fn0 b.fn ((decAgetX h b).map .aget)
  | 0xBC => fn0 b.fn ((decAviewX h b).map .afree)
  | 0xBD =>
    match b.fn.toNat with
    | 0 => (decAinX h b).map .arowi
    | 1 => (decAoutX h b).map .arowo
    | _ => .error .fnUndefined
  | 0xBE =>
    match b.fn.toNat with
    | 0 => (decAinX h b).map .acoli
    | 1 => (decAoutX h b).map .acolo
    | _ => .error .fnUndefined
  | 0xBF => fn0 b.fn ((decAviewX h b).map .azero)
  | _ => .error .fmtIllegal

/-- Format C: the rows of R38. -/
def decodeC (h : Head) (b : BodyC) : Except DecodeErr Instr :=
  match h.opc.toNat with
  | 0x60 => fn0 b.fn ((decSendC h b).map .send)
  | 0x61 => fn0 b.fn ((decSendA 0 h b).map .sendadd)
  | 0x62 => fn0 b.fn ((decSendA 1 h b).map .sendmin)
  | 0x63 => fn0 b.fn ((decSendA 1 h b).map .sendmax)
  | 0x64 => fn0 b.fn ((decChopenC h b).map .chopen)
  | 0x65 => fn0 b.fn ((decChcloseC h b).map .chclose)
  | 0x66 => fn0 b.fn ((decChwmC h b).map .chwm)
  | 0x69 => fnReserved b.fn ((decMsgC h b).map .sendm)
  | 0xC0 => fnReserved b.fn ((decMsgC h b).map .spawn)
  | 0xC1 => fnReserved b.fn ((decMsgtC h b).map .spawnt)
  | _ => .error .fmtIllegal

/-- Format T: the rows of R38. -/
def decodeT (h : Head) (b : BodyT) : Except DecodeErr Instr :=
  match h.opc.toNat with
  | 0x47 => fn0 b.fn ((decScntT h b).map .scnt)
  | 0x68 => fn0 b.fn ((decLmcfgT h b).map .lmcfg)
  | 0xC2 => fnReserved b.fn ((decGOnlyT h b).map .end_)
  | 0xC3 => fnReserved b.fn ((decSleepT h b).map .sleep)
  | 0xC4 => fnReserved b.fn ((decGOnlyT h b).map .yield)
  | 0xC5 => fnReserved b.fn ((decThnewT h b).map .thnew)
  | 0xC6 =>
    match b.fn.toNat with
    | 0 => (decGDT h b).map .thstop
    | 1 => (decGDT h b).map .thstart
    | _ => .error .fnUndefined
  | 0xC7 => fnReserved b.fn ((decThrdT h b).map .thrd)
  | 0xC8 => fnReserved b.fn ((decThwrT h b).map .thwr)
  | 0xC9 => fnReserved b.fn ((decGDT h b).map .thstat)
  | 0xCA => fnReserved b.fn ((decGDT h b).map .thkill)
  | 0xCB => fnReserved b.fn ((decTrapT h b).map .trap)
  | 0xCC => fnReserved b.fn ((decMfsT h b).map .mfs)
  | 0xCD => fnReserved b.fn ((decMtsT h b).map .mts)
  | 0xCE => fnReserved b.fn ((decGDestT h b).map .gtime)
  | 0xCF => fnReserved b.fn ((decRgnqT h b).map .rgnq)
  | _ => .error .fmtIllegal

/-- The instruction of a 96-bit word, with the checks of R27 in their order. -/
def decode (w : Slot) : Except DecodeErr Instr :=
  let h := headOf w
  let fmts := fmtsOf h.opc.toNat
  if fmts.isEmpty then .error .opcUnassigned
  else if !fmts.contains h.fmt.toNat then .error .fmtIllegal
  else
    match h.fmt.toNat with
    | 0 => decodeA h (.ofBits (bodyOf w))
    | 1 => decodeI h (.ofBits (bodyOf w))
    | 2 => decodeM h (.ofBits (bodyOf w))
    | 3 => decodeB h (.ofBits (bodyOf w))
    | 4 => decodeV h (.ofBits (bodyOf w))
    | 5 => decodeN h (.ofBits (bodyOf w))
    | 6 => decodeX h (.ofBits (bodyOf w))
    | 7 => decodeC h (.ofBits (bodyOf w))
    | 8 => decodeT h (.ofBits (bodyOf w))
    | _ => .error .fmtIllegal

/-! ### The encoder -/

/-- The register of PSET's second form. -/
def PsetSrc.reg? : PsetSrc → GReg
  | .imm _ => 0
  | .reg a => a

/-- IMM8 of PSET (R205). -/
def PsetSrc.imm8 : PsetSrc → BitVec 8
  | .imm v => 0#7 ++ BitVec.ofBool v
  | .reg _ => 2

def VCount.isImm : VCount → Bool
  | .imm _ => true
  | .reg _ => false

def VCount.imm8 : VCount → BitVec 8
  | .imm n => n
  | .reg _ => 0

def VCount.reg? : VCount → BitVec 6
  | .imm _ => 0
  | .reg b => b.setWidth 6

/-- C of XMM and XACC. -/
def drainReg : Option (Reg3 × Bool) → Reg3
  | some (m, _) => m
  | none => 0

/-- MOD of XMM and XACC (R260). -/
def drainMod : Option (Reg3 × Bool) → BitVec 8
  | some (_, sat) => 0#6 ++ BitVec.ofBool sat ++ 1#1
  | none => 0

def encAluA (opc : BitVec 8) (fmt : BitVec 4) (fn : BitVec 8) (x : AluA) : Slot :=
  packWord ⟨opc, fmt, x.g, x.d, x.a, x.b, 0⟩ (BodyA.pack { md := x.w.code, fn := fn })

def encAluI (opc : BitVec 8) (fmt : BitVec 4) (fn : BitVec 8) (x : AluI) : Slot :=
  packWord ⟨opc, fmt, x.g, x.d, x.a, 0, 0⟩ (BodyI.pack { imm := x.imm, fn := fn })

def encShI (opc : BitVec 8) (fmt : BitVec 4) (fn : BitVec 8) (x : ShI) : Slot :=
  packWord ⟨opc, fmt, x.g, x.d, x.a, 0, 0⟩ (BodyI.pack { imm := 0#42 ++ x.count, fn := fn })

def encUnA (opc : BitVec 8) (fmt : BitVec 4) (fn : BitVec 8) (x : UnA) : Slot :=
  packWord ⟨opc, fmt, x.g, x.d, x.a, 0, 0⟩ (BodyA.pack { md := x.w.code, fn := fn })

def encExtA (opc : BitVec 8) (fmt : BitVec 4) (fn : BitVec 8) (x : ExtA) : Slot :=
  packWord ⟨opc, fmt, x.g, x.d, x.a, 0, 0⟩ (BodyA.pack { imm8 := x.n, fn := fn })

def encBfxA (opc : BitVec 8) (fmt : BitVec 4) (fn : BitVec 8) (x : BfxA) : Slot :=
  packWord ⟨opc, fmt, x.g, x.d, x.a, 0, 0⟩ (BodyA.pack { imm8 := 0#1 ++ BitVec.ofBool x.sx ++ x.pos, md := x.len1 ++ 0#2, fn := fn })

def encBfiA (opc : BitVec 8) (fmt : BitVec 4) (fn : BitVec 8) (x : BfiA) : Slot :=
  packWord ⟨opc, fmt, x.g, x.d, x.a, 0, 0⟩ (BodyA.pack { imm8 := 0#2 ++ x.pos, md := x.len1 ++ 0#2, fn := fn })

def encCmpA (opc : BitVec 8) (fmt : BitVec 4) (x : CmpA) : Slot :=
  packWord ⟨opc, fmt, x.g, x.d.setWidth 6, x.a, x.b, 0⟩ (BodyA.pack { md := x.w.code, fn := x.c.code })

def encCmpI (opc : BitVec 8) (fmt : BitVec 4) (x : CmpI) : Slot :=
  packWord ⟨opc, fmt, x.g, x.d.setWidth 6, x.a, 0, 0⟩ (BodyI.pack { imm := x.imm, fn := x.c.code })

def encSelA (opc : BitVec 8) (fmt : BitVec 4) (fn : BitVec 8) (x : SelA) : Slot :=
  packWord ⟨opc, fmt, x.g, x.d, x.a, x.b, x.c.setWidth 6⟩ (BodyA.pack { fn := fn })

def encGDA (opc : BitVec 8) (fmt : BitVec 4) (fn : BitVec 8) (x : GD) : Slot :=
  packWord ⟨opc, fmt, x.g, x.d, x.a, 0, 0⟩ (BodyA.pack { fn := fn })

def encLiI (opc : BitVec 8) (fmt : BitVec 4) (fn : BitVec 8) (x : LiI) : Slot :=
  packWord ⟨opc, fmt, x.g, x.d, 0, 0, 0⟩ (BodyI.pack { imm := x.imm, fn := fn })

def encLeaA (opc : BitVec 8) (fmt : BitVec 4) (fn : BitVec 8) (x : LeaA) : Slot :=
  packWord ⟨opc, fmt, x.g, x.d, x.a, x.b, 0⟩ (BodyA.pack { imm8 := 0#5 ++ x.k, fn := fn })

def encFpR (opc : BitVec 8) (fmt : BitVec 4) (fn : BitVec 8) (x : FpR) : Slot :=
  packWord ⟨opc, fmt, x.g, x.d, x.a, x.b, 0⟩ (BodyA.pack { ty := x.ty.code, rm := x.rm.code, fn := fn })

def encFpB (opc : BitVec 8) (fmt : BitVec 4) (fn : BitVec 8) (x : FpB) : Slot :=
  packWord ⟨opc, fmt, x.g, x.d, x.a, x.b, 0⟩ (BodyA.pack { ty := x.ty.code, fn := fn })

def encFpU (opc : BitVec 8) (fmt : BitVec 4) (fn : BitVec 8) (x : FpU) : Slot :=
  packWord ⟨opc, fmt, x.g, x.d, x.a, 0, 0⟩ (BodyA.pack { ty := x.ty.code, fn := fn })

def encFpF (opc : BitVec 8) (fmt : BitVec 4) (fn : BitVec 8) (x : FpF) : Slot :=
  packWord ⟨opc, fmt, x.g, x.d, x.a, x.b, x.c⟩ (BodyA.pack { ty := x.ty.code, rm := x.rm.code, fn := fn })

def encFpC (opc : BitVec 8) (fmt : BitVec 4) (x : FpC) : Slot :=
  packWord ⟨opc, fmt, x.g, x.d.setWidth 6, x.a, x.b, 0⟩ (BodyA.pack { ty := x.ty.code, fn := x.c.code })

def encFpV (opc : BitVec 8) (fmt : BitVec 4) (fn : BitVec 8) (x : FpV) : Slot :=
  packWord ⟨opc, fmt, x.g, x.d, x.a, 0, 0⟩ (BodyA.pack { ty := x.dst.code, ty2 := x.src.code, rm := x.rm.code, md := 0#5 ++ BitVec.ofBool x.sat ++ 0#2, fn := fn })

def encFpN (opc : BitVec 8) (fmt : BitVec 4) (fn : BitVec 8) (x : FpN) : Slot :=
  packWord ⟨opc, fmt, x.g, x.d, x.a, 0, 0⟩ (BodyA.pack { ty := x.ty.code, rm := x.rm.code, fn := fn })

def encBrB (opc : BitVec 8) (fmt : BitVec 4) (x : BrB) : Slot :=
  packWord ⟨opc, fmt, x.g, 0, x.a, x.b, 0⟩ (BodyI.pack { imm := x.disp, fn := brCode x.c })

def encJmpB (opc : BitVec 8) (fmt : BitVec 4) (fn : BitVec 8) (x : JmpB) : Slot :=
  packWord ⟨opc, fmt, x.g, 0, 0, 0, 0⟩ (BodyI.pack { imm := x.disp, fn := fn })

def encGSrcA (opc : BitVec 8) (fmt : BitVec 4) (fn : BitVec 8) (x : GSrc) : Slot :=
  packWord ⟨opc, fmt, x.g, 0, x.a, 0, 0⟩ (BodyA.pack { fn := fn })

def encCallB (opc : BitVec 8) (fmt : BitVec 4) (fn : BitVec 8) (x : CallB) : Slot :=
  packWord ⟨opc, fmt, x.g, x.d, 0, 0, 0⟩ (BodyI.pack { imm := x.disp, fn := fn })

def encLoopB (opc : BitVec 8) (fmt : BitVec 4) (fn : BitVec 8) (x : LoopB) : Slot :=
  packWord ⟨opc, fmt, x.g, 0, x.a, 0, 0⟩ (BodyI.pack { imm := x.disp, fn := fn })

def encGOnlyA (opc : BitVec 8) (fmt : BitVec 4) (fn : BitVec 8) (x : GOnly) : Slot :=
  packWord ⟨opc, fmt, x.g, 0, 0, 0, 0⟩ (BodyA.pack { fn := fn })

def encPredA (opc : BitVec 8) (fmt : BitVec 4) (fn : BitVec 8) (x : PredA) : Slot :=
  packWord ⟨opc, fmt, x.g, x.d.setWidth 6, x.a.setWidth 6, x.b.setWidth 6, 0⟩ (BodyA.pack { md := 0#6 ++ BitVec.ofBool x.nb ++ BitVec.ofBool x.na, fn := fn })

def encPnotA (opc : BitVec 8) (fmt : BitVec 4) (fn : BitVec 8) (x : PnotA) : Slot :=
  packWord ⟨opc, fmt, x.g, x.d.setWidth 6, x.a.setWidth 6, 0, 0⟩ (BodyA.pack { fn := fn })

def encPsetA (opc : BitVec 8) (fmt : BitVec 4) (fn : BitVec 8) (x : PsetA) : Slot :=
  packWord ⟨opc, fmt, x.g, x.d.setWidth 6, x.src.reg?, 0, 0⟩ (BodyA.pack { imm8 := x.src.imm8, fn := fn })

def encQputA (opc : BitVec 8) (fmt : BitVec 4) (fn : BitVec 8) (x : QputA) : Slot :=
  packWord ⟨opc, fmt, x.g, x.q.setWidth 6, x.a, 0, 0⟩ (BodyA.pack { fn := fn })

def encQgetA (opc : BitVec 8) (fmt : BitVec 4) (fn : BitVec 8) (x : QgetA) : Slot :=
  packWord ⟨opc, fmt, x.g, x.d, x.q.setWidth 6, 0, 0⟩ (BodyA.pack { fn := fn })

def encRepbA (opc : BitVec 8) (fmt : BitVec 4) (fn : BitVec 8) (x : RepbA) : Slot :=
  packWord ⟨opc, fmt, x.g, 0, x.a, 0, 0⟩ (BodyA.pack { imm8 := 0#3 ++ x.stride, md := 0#6 ++ BitVec.ofBool x.reng ++ BitVec.ofBool x.renv, fn := fn })

def encGDestA (opc : BitVec 8) (fmt : BitVec 4) (fn : BitVec 8) (x : GDest) : Slot :=
  packWord ⟨opc, fmt, x.g, x.d, 0, 0, 0⟩ (BodyA.pack { fn := fn })

def encLdM (opc : BitVec 8) (fmt : BitVec 4) (x : LdM) : Slot :=
  packWord ⟨opc, fmt, x.g, x.d, x.a, 0, x.c⟩ (BodyM.pack { stream := x.str.stream, pmask := x.str.pmask, scope := x.str.code, off := x.off, am := x.am.code, size := 0#2 ++ x.sz, sx := BitVec.ofBool x.sx, nt := BitVec.ofBool x.nt, ex := BitVec.ofBool x.ex })

def encStM (opc : BitVec 8) (fmt : BitVec 4) (x : StM) : Slot :=
  packWord ⟨opc, fmt, x.g, 0, x.a, x.b, x.c⟩ (BodyM.pack { stream := x.str.stream, pmask := x.str.pmask, scope := x.str.code, off := x.off, am := x.am.code, size := 0#2 ++ x.sz, nt := BitVec.ofBool x.nt })

def encLdvM (opc : BitVec 8) (fmt : BitVec 4) (x : LdvM) : Slot :=
  packWord ⟨opc, fmt, x.g, x.d.setWidth 6, x.a, 0, x.c⟩ (BodyM.pack { stream := x.str.stream, pmask := x.str.pmask, scope := x.str.code, off := x.off, am := x.am.code, size := x.sz.code, nt := BitVec.ofBool x.nt, ex := BitVec.ofBool x.ex })

def encStvM (opc : BitVec 8) (fmt : BitVec 4) (x : StvM) : Slot :=
  packWord ⟨opc, fmt, x.g, 0, x.a, x.b.setWidth 6, x.c⟩ (BodyM.pack { stream := x.str.stream, pmask := x.str.pmask, scope := x.str.code, off := x.off, am := x.am.code, size := x.sz.code, nt := BitVec.ofBool x.nt })

def encPfM (opc : BitVec 8) (fmt : BitVec 4) (x : PfM) : Slot :=
  packWord ⟨opc, fmt, x.g, 0, x.a, 0, 0⟩ (BodyM.pack { stream := x.str.stream, pmask := x.str.pmask, scope := x.str.code, off := x.off, size := 3, nt := BitVec.ofBool x.nt, ex := BitVec.ofBool x.ex })

def encCacheM (opc : BitVec 8) (fmt : BitVec 4) (x : CacheM) : Slot :=
  packWord ⟨opc, fmt, x.g, 0, x.a, 0, 0⟩ (BodyM.pack { stream := x.str.stream, pmask := x.str.pmask, scope := x.str.code, off := x.off, size := 3 })

def encScntT (opc : BitVec 8) (fmt : BitVec 4) (fn : BitVec 8) (x : ScntT) : Slot :=
  packWord ⟨opc, fmt, x.g, x.d, 0, 0, 0⟩ (BodyT.pack { imm16 := 0#12 ++ BitVec.ofBool x.all ++ x.s, fn := fn })

def encAmoM (opc : BitVec 8) (fmt : BitVec 4) (x : AmoM) : Slot :=
  packWord ⟨opc, fmt, x.g, x.d, x.a, x.b, x.c⟩ (BodyM.pack { stream := x.str.stream, pmask := x.str.pmask, scope := x.str.code, off := x.off, am := x.am.code, size := 1#3 ++ BitVec.ofBool x.dword })

def encCasM (opc : BitVec 8) (fmt : BitVec 4) (x : CasM) : Slot :=
  packWord ⟨opc, fmt, x.g, x.d, x.a, x.b, x.c⟩ (BodyM.pack { stream := x.str.stream, pmask := x.str.pmask, scope := x.str.code, off := x.off, am := x.am.code, size := 1#3 ++ BitVec.ofBool x.dword })

def encAmoF (opc : BitVec 8) (fmt : BitVec 4) (x : AmoF) : Slot :=
  packWord ⟨opc, fmt, x.g, x.d, x.a, x.b, x.c⟩ (BodyM.pack { stream := x.str.stream, pmask := x.str.pmask, scope := x.str.code, off := x.off, am := x.am.code, size := x.ty.code })

def encWatchM (opc : BitVec 8) (fmt : BitVec 4) (x : WatchM) : Slot :=
  packWord ⟨opc, fmt, x.g, x.d, x.a, x.b, 0⟩ (BodyM.pack { stream := x.str.stream, pmask := x.str.pmask, scope := x.str.code, off := x.off, size := 3 })

def encRelM (opc : BitVec 8) (fmt : BitVec 4) (x : RelM) : Slot :=
  packWord ⟨opc, fmt, x.g, x.d, x.a, 0, 0⟩ (BodyM.pack { stream := x.str.stream, pmask := x.str.pmask, scope := x.str.code, off := x.off, size := 3 })

def encLadM (opc : BitVec 8) (fmt : BitVec 4) (x : LadM) : Slot :=
  packWord ⟨opc, fmt, x.g, x.d.setWidth 6, x.a, 0, 0⟩ (BodyM.pack { stream := x.str.stream, pmask := x.str.pmask, scope := x.str.code, off := x.off, size := 3 })

def encSendC (opc : BitVec 8) (fmt : BitVec 4) (fn : BitVec 8) (x : SendC) : Slot :=
  packWord ⟨opc, fmt, x.g, 0, x.a, x.b, x.c⟩ (BodyC.pack { stream := x.str.stream, pmask := x.str.pmask, scope := x.str.code, am := x.am.code, chan := x.chan, fn := fn })

def encSendA (opc : BitVec 8) (fmt : BitVec 4) (fn : BitVec 8) (bit : Nat) (x : SendA) : Slot :=
  packWord ⟨opc, fmt, x.g, 0, x.a, x.b, x.c⟩ (BodyC.pack { stream := x.str.stream, pmask := x.str.pmask, scope := x.str.code, am := x.am.code, ty := x.ty.code, seq := BitVec.ofBool x.seq, chan := x.chan, md := (BitVec.ofBool x.m).setWidth 8 <<< bit, fn := fn })

def encChopenC (opc : BitVec 8) (fmt : BitVec 4) (fn : BitVec 8) (x : ChopenC) : Slot :=
  packWord ⟨opc, fmt, x.g, x.d, x.a, x.b, 0⟩ (BodyC.pack { stream := x.str.stream, pmask := x.str.pmask, scope := x.str.code, chan := x.chan, md := 0#7 ++ BitVec.ofBool x.arith, fn := fn })

def encChcloseC (opc : BitVec 8) (fmt : BitVec 4) (fn : BitVec 8) (x : ChcloseC) : Slot :=
  packWord ⟨opc, fmt, x.g, x.d, 0, 0, 0⟩ (BodyC.pack { stream := x.str.stream, pmask := x.str.pmask, scope := x.str.code, chan := x.chan, fn := fn })

def encChwmC (opc : BitVec 8) (fmt : BitVec 4) (fn : BitVec 8) (x : ChwmC) : Slot :=
  packWord ⟨opc, fmt, x.g, x.d, x.a, x.b, 0⟩ (BodyC.pack { stream := x.str.stream, pmask := x.str.pmask, scope := x.str.code, chan := x.chan, md := 0#6 ++ BitVec.ofBool x.setseq ++ BitVec.ofBool x.setwm, fn := fn })

def encStnM (opc : BitVec 8) (fmt : BitVec 4) (x : StnM) : Slot :=
  packWord ⟨opc, fmt, x.g, 0, x.a, x.b, x.c⟩ (BodyM.pack { stream := x.str.stream, pmask := x.str.pmask, scope := x.str.code, off := x.off, am := x.am.code, size := x.sz.code })

def encLmcfgT (opc : BitVec 8) (fmt : BitVec 4) (fn : BitVec 8) (x : LmcfgT) : Slot :=
  packWord ⟨opc, fmt, x.g, x.d, 0, 0, 0⟩ (BodyT.pack { imm16 := 0#14 ++ x.code, fn := fn })

def encMsgC (opc : BitVec 8) (fmt : BitVec 4) (fn : BitVec 8) (x : MsgC) : Slot :=
  packWord ⟨opc, fmt, x.g, 0, x.a, x.b, 0⟩ (BodyC.pack { stream := x.str.stream, pmask := x.str.pmask, scope := x.str.code, fn := fn })

def encVAddV (opc : BitVec 8) (fmt : BitVec 4) (fn : BitVec 8) (x : VAddV) : Slot :=
  packWord ⟨opc, fmt, x.g, x.d.setWidth 6, x.a.setWidth 6, x.b.setWidth 6, 0⟩ (BodyA.pack { ty := x.ty.code, rm := x.rm.code, md := 0#6 ++ BitVec.ofBool x.uns ++ BitVec.ofBool x.sat, fn := fn })

def encVMulV (opc : BitVec 8) (fmt : BitVec 4) (fn : BitVec 8) (x : VMulV) : Slot :=
  packWord ⟨opc, fmt, x.g, x.d.setWidth 6, x.a.setWidth 6, x.b.setWidth 6, 0⟩ (BodyA.pack { ty := x.ty.code, rm := x.rm.code, fn := fn })

def encVFmaV (opc : BitVec 8) (fmt : BitVec 4) (fn : BitVec 8) (x : VFmaV) : Slot :=
  packWord ⟨opc, fmt, x.g, x.d.setWidth 6, x.a.setWidth 6, x.b.setWidth 6, x.c.setWidth 6⟩ (BodyA.pack { ty := x.ty.code, rm := x.rm.code, fn := fn })

def encVNegV (opc : BitVec 8) (fmt : BitVec 4) (fn : BitVec 8) (x : VNegV) : Slot :=
  packWord ⟨opc, fmt, x.g, x.d.setWidth 6, x.a.setWidth 6, 0, 0⟩ (BodyA.pack { ty := x.ty.code, md := 0#7 ++ BitVec.ofBool x.sat, fn := fn })

def encVMinV (opc : BitVec 8) (fmt : BitVec 4) (fn : BitVec 8) (x : VMinV) : Slot :=
  packWord ⟨opc, fmt, x.g, x.d.setWidth 6, x.a.setWidth 6, x.b.setWidth 6, 0⟩ (BodyA.pack { ty := x.ty.code, md := 0#6 ++ BitVec.ofBool x.uns ++ 0#1, fn := fn })

def encVLogV (opc : BitVec 8) (fmt : BitVec 4) (fn : BitVec 8) (x : VLogV) : Slot :=
  packWord ⟨opc, fmt, x.g, x.d.setWidth 6, x.a.setWidth 6, x.b.setWidth 6, 0⟩ (BodyA.pack { fn := fn })

def encVShV (opc : BitVec 8) (fmt : BitVec 4) (fn : BitVec 8) (x : VShV) : Slot :=
  packWord ⟨opc, fmt, x.g, x.d.setWidth 6, x.a.setWidth 6, x.cnt.reg?, 0⟩ (BodyA.pack { ty := x.ty.code, imm8 := x.cnt.imm8, md := 0#7 ++ BitVec.ofBool x.cnt.isImm, fn := fn })

def encVCmpV (opc : BitVec 8) (fmt : BitVec 4) (x : VCmpV) : Slot :=
  packWord ⟨opc, fmt, x.g, x.d.setWidth 6, x.a.setWidth 6, x.b.setWidth 6, 0⟩ (BodyA.pack { ty := x.ty.code, fn := x.c.code })

def encVSelV (opc : BitVec 8) (fmt : BitVec 4) (fn : BitVec 8) (x : VSelV) : Slot :=
  packWord ⟨opc, fmt, x.g, x.d.setWidth 6, x.a.setWidth 6, x.b.setWidth 6, x.c.setWidth 6⟩ (BodyA.pack { fn := fn })

def encVCvtV (opc : BitVec 8) (fmt : BitVec 4) (fn : BitVec 8) (x : VCvtV) : Slot :=
  packWord ⟨opc, fmt, x.g, x.d.setWidth 6, x.a.setWidth 6, 0, 0⟩ (BodyA.pack { ty := x.dst.code, ty2 := x.src.code, rm := x.rm.code, md := 0#5 ++ BitVec.ofBool x.sat ++ 0#2, imm8 := x.k, fn := fn })

def encVFunV (opc : BitVec 8) (fmt : BitVec 4) (fn : BitVec 8) (x : VFunV) : Slot :=
  packWord ⟨opc, fmt, x.g, x.d.setWidth 6, x.a.setWidth 6, 0, 0⟩ (BodyA.pack { ty := x.ty.code, fn := fn })

def encVSqrtV (opc : BitVec 8) (fmt : BitVec 4) (fn : BitVec 8) (x : VSqrtV) : Slot :=
  packWord ⟨opc, fmt, x.g, x.d.setWidth 6, x.a.setWidth 6, 0, 0⟩ (BodyA.pack { ty := x.ty.code, rm := x.rm.code, fn := fn })

def encVPermV (opc : BitVec 8) (fmt : BitVec 4) (fn : BitVec 8) (x : VPermV) : Slot :=
  packWord ⟨opc, fmt, x.g, x.d.setWidth 6, x.a.setWidth 6, x.b.setWidth 6, (x.c.getD 0).setWidth 6⟩ (BodyA.pack { ty := x.ty.code, md := 0#7 ++ BitVec.ofBool x.c.isSome, fn := fn })

def encVBcastV (opc : BitVec 8) (fmt : BitVec 4) (fn : BitVec 8) (x : VBcastV) : Slot :=
  packWord ⟨opc, fmt, x.g, x.d.setWidth 6, x.a.setWidth 6, 0, 0⟩ (BodyA.pack { ty := x.ty.code, imm8 := x.k, fn := fn })

def encVInsV (opc : BitVec 8) (fmt : BitVec 4) (fn : BitVec 8) (x : VInsV) : Slot :=
  packWord ⟨opc, fmt, x.g, x.d.setWidth 6, x.a, 0, 0⟩ (BodyA.pack { ty := x.ty.code, imm8 := x.k, fn := fn })

def encVExtV (opc : BitVec 8) (fmt : BitVec 4) (fn : BitVec 8) (x : VExtV) : Slot :=
  packWord ⟨opc, fmt, x.g, x.d, x.a.setWidth 6, 0, 0⟩ (BodyA.pack { ty := x.ty.code, imm8 := x.k, fn := fn })

def encVRedV (opc : BitVec 8) (fmt : BitVec 4) (x : VRedV) : Slot :=
  packWord ⟨opc, fmt, x.g, x.d.setWidth 6, x.a.setWidth 6, 0, 0⟩ (BodyA.pack { ty := x.ty.code, rm := x.rm.code, md := 0#6 ++ BitVec.ofBool x.uns ++ 0#1, fn := x.op.code })

def encVDotV (opc : BitVec 8) (fmt : BitVec 4) (fn : BitVec 8) (x : VDotV) : Slot :=
  packWord ⟨opc, fmt, x.g, x.d.setWidth 6, x.a.setWidth 6, x.b.setWidth 6, 0⟩ (BodyA.pack { ty := x.acc.code, ty2 := x.src.code, rm := x.rm.code, md := 0#7 ++ BitVec.ofBool x.sat, fn := fn })

def encVMovV (opc : BitVec 8) (fmt : BitVec 4) (fn : BitVec 8) (x : VMovV) : Slot :=
  packWord ⟨opc, fmt, x.g, x.d.setWidth 6, x.a.setWidth 6, 0, 0⟩ (BodyA.pack { fn := fn })

def encVSplatV (opc : BitVec 8) (fmt : BitVec 4) (fn : BitVec 8) (x : VSplatV) : Slot :=
  packWord ⟨opc, fmt, x.g, x.d.setWidth 6, x.a, 0, 0⟩ (BodyA.pack { ty := x.ty.code, fn := fn })

def encMldN (opc : BitVec 8) (fmt : BitVec 4) (fn : BitVec 8) (x : MldN) : Slot :=
  packWord ⟨opc, fmt, x.g, x.m.setWidth 6, x.a, 0, 0⟩ (BodyN.pack { stream := x.str.stream, pmask := x.str.pmask, scope := x.str.code, md := 0#7 ++ BitVec.ofBool x.loc, fn := fn })

def encMstN (opc : BitVec 8) (fmt : BitVec 4) (fn : BitVec 8) (x : MldN) : Slot :=
  packWord ⟨opc, fmt, x.g, 0, x.a, x.m.setWidth 6, 0⟩ (BodyN.pack { stream := x.str.stream, pmask := x.str.pmask, scope := x.str.code, md := 0#7 ++ BitVec.ofBool x.loc, fn := fn })

def encMsetN (opc : BitVec 8) (fmt : BitVec 4) (x : MsetN) : Slot :=
  packWord ⟨opc, fmt, x.g, x.d.setWidth 6, x.a, x.b, 0⟩ (BodyN.pack { fn := x.f.code })

def encMewN (opc : BitVec 8) (fmt : BitVec 4) (x : MewN) : Slot :=
  packWord ⟨opc, fmt, x.g, x.d.setWidth 6, x.a.setWidth 6, x.b.setWidth 6, 0⟩ (BodyN.pack { stream := x.str.stream, pmask := x.str.pmask, scope := x.str.code, ty := x.ty.code, rm := x.rm.code, md := 0#5 ++ BitVec.ofBool x.sat ++ BitVec.ofBool x.uns ++ 0#1, fn := x.op.code })

def encMfmaN (opc : BitVec 8) (fmt : BitVec 4) (fn : BitVec 8) (x : MfmaN) : Slot :=
  packWord ⟨opc, fmt, x.g, x.d.setWidth 6, x.a.setWidth 6, x.b.setWidth 6, x.c.setWidth 6⟩ (BodyN.pack { stream := x.str.stream, pmask := x.str.pmask, scope := x.str.code, ty := x.ty.code, rm := x.rm.code, md := 0#5 ++ BitVec.ofBool x.sat ++ 0#2, fn := fn })

def encMredN (opc : BitVec 8) (fmt : BitVec 4) (x : MredN) : Slot :=
  packWord ⟨opc, fmt, x.g, x.d.setWidth 6, x.a.setWidth 6, 0, 0⟩ (BodyN.pack { stream := x.str.stream, pmask := x.str.pmask, scope := x.str.code, ty := x.ty.code, rm := x.rm.code, dims := x.dims, md := 0#5 ++ BitVec.ofBool x.sat ++ 0#2, fn := x.op.code })

def encMcvtN (opc : BitVec 8) (fmt : BitVec 4) (fn : BitVec 8) (x : McvtN) : Slot :=
  packWord ⟨opc, fmt, x.g, x.d.setWidth 6, x.a.setWidth 6, 0, 0⟩ (BodyN.pack { stream := x.str.stream, pmask := x.str.pmask, scope := x.str.code, rm := x.rm.code, md := 0#5 ++ BitVec.ofBool x.sat ++ 0#2, fn := fn })

def encMgathN (opc : BitVec 8) (fmt : BitVec 4) (fn : BitVec 8) (x : MgathN) : Slot :=
  packWord ⟨opc, fmt, x.g, x.d.setWidth 6, x.a.setWidth 6, x.b.setWidth 6, 0⟩ (BodyN.pack { stream := x.str.stream, pmask := x.str.pmask, scope := x.str.code, ty := x.ty.code, rm := x.rm.code, md := 0#5 ++ BitVec.ofBool x.sat ++ 0#2, fn := fn })

def encMscatN (opc : BitVec 8) (fmt : BitVec 4) (x : MscatN) : Slot :=
  packWord ⟨opc, fmt, x.g, x.d.setWidth 6, x.a.setWidth 6, x.b.setWidth 6, 0⟩ (BodyN.pack { stream := x.str.stream, pmask := x.str.pmask, scope := x.str.code, ty := x.ty.code, rm := x.rm.code, md := 0#5 ++ BitVec.ofBool x.sat ++ 0#2, fn := 0#7 ++ BitVec.ofBool x.add })

def encMcopyN (opc : BitVec 8) (fmt : BitVec 4) (fn : BitVec 8) (x : McopyN) : Slot :=
  packWord ⟨opc, fmt, x.g, x.d.setWidth 6, x.a.setWidth 6, 0, 0⟩ (BodyN.pack { stream := x.str.stream, pmask := x.str.pmask, scope := x.str.code, fn := fn })

def encFmtsetA (opc : BitVec 8) (fmt : BitVec 4) (fn : BitVec 8) (x : FmtsetA) : Slot :=
  packWord ⟨opc, fmt, x.g, x.d.setWidth 6, x.a, 0, 0⟩ (BodyA.pack { fn := fn })

def encFmtgetA (opc : BitVec 8) (fmt : BitVec 4) (fn : BitVec 8) (x : FmtgetA) : Slot :=
  packWord ⟨opc, fmt, x.g, x.d, x.a.setWidth 6, 0, 0⟩ (BodyA.pack { fn := fn })

def encLutN (opc : BitVec 8) (fmt : BitVec 4) (fn : BitVec 8) (x : LutN) : Slot :=
  packWord ⟨opc, fmt, x.g, 0, x.a, 0, 0⟩ (BodyN.pack { stream := x.str.stream, pmask := x.str.pmask, scope := x.str.code, md := 0#7 ++ BitVec.ofBool x.loc, fn := fn })

def encXresX (opc : BitVec 8) (fmt : BitVec 4) (fn : BitVec 8) (x : XresX) : Slot :=
  packWord ⟨opc, fmt, x.g, x.d, x.a, x.b, 0⟩ (BodyN.pack { stream := x.str.stream, pmask := x.str.pmask, scope := x.str.code, ty := x.ty.code, md := 0#5 ++ BitVec.ofBool x.pin ++ x.skind, fn := fn })

def encXhX (opc : BitVec 8) (fmt : BitVec 4) (fn : BitVec 8) (x : XhX) : Slot :=
  packWord ⟨opc, fmt, x.g, x.d, x.a, 0, 0⟩ (BodyN.pack { stream := x.str.stream, pmask := x.str.pmask, scope := x.str.code, fn := fn })

def encXqryX (opc : BitVec 8) (fmt : BitVec 4) (fn : BitVec 8) (x : XqryX) : Slot :=
  packWord ⟨opc, fmt, x.g, x.d.setWidth 6, x.a, 0, 0⟩ (BodyN.pack { fn := fn })

def encXmmX (opc : BitVec 8) (fmt : BitVec 4) (fn : BitVec 8) (x : XmmX) : Slot :=
  packWord ⟨opc, fmt, x.g, x.d.setWidth 6, x.a.setWidth 6, x.b, (drainReg x.drain).setWidth 6⟩ (BodyN.pack { stream := x.str.stream, pmask := x.str.pmask, scope := x.str.code, md := drainMod x.drain, fn := fn })

def encGSrcN (opc : BitVec 8) (fmt : BitVec 4) (fn : BitVec 8) (x : GSrc) : Slot :=
  packWord ⟨opc, fmt, x.g, 0, x.a, 0, 0⟩ (BodyN.pack { fn := fn })

def encXstatX (opc : BitVec 8) (fmt : BitVec 4) (x : XstatX) : Slot :=
  packWord ⟨opc, fmt, x.g, x.d, 0, 0, 0⟩ (BodyN.pack { fn := 0#4 ++ x.n })

def encAcfgX (opc : BitVec 8) (fmt : BitVec 4) (fn : BitVec 8) (x : AcfgX) : Slot :=
  packWord ⟨opc, fmt, x.g, x.d, x.a, 0, x.c.setWidth 6⟩ (BodyN.pack { fn := fn })

def encAgetX (opc : BitVec 8) (fmt : BitVec 4) (fn : BitVec 8) (x : AgetX) : Slot :=
  packWord ⟨opc, fmt, x.g, x.d, x.a.setWidth 6, 0, 0⟩ (BodyN.pack { fn := fn })

def encAviewX (opc : BitVec 8) (fmt : BitVec 4) (fn : BitVec 8) (x : AviewX) : Slot :=
  packWord ⟨opc, fmt, x.g, x.d.setWidth 6, 0, 0, 0⟩ (BodyN.pack { fn := fn })

def encAinX (opc : BitVec 8) (fmt : BitVec 4) (fn : BitVec 8) (x : AinX) : Slot :=
  packWord ⟨opc, fmt, x.g, x.d.setWidth 6, x.a.setWidth 6, x.b, 0⟩ (BodyN.pack { fn := fn })

def encAoutX (opc : BitVec 8) (fmt : BitVec 4) (fn : BitVec 8) (x : AoutX) : Slot :=
  packWord ⟨opc, fmt, x.g, x.d.setWidth 6, x.a.setWidth 6, x.b, 0⟩ (BodyN.pack { fn := fn })

def encMsgtC (opc : BitVec 8) (fmt : BitVec 4) (fn : BitVec 8) (x : MsgtC) : Slot :=
  packWord ⟨opc, fmt, x.g, 0, x.a, x.b, x.c⟩ (BodyC.pack { stream := x.str.stream, pmask := x.str.pmask, scope := x.str.code, fn := fn })

def encGOnlyT (opc : BitVec 8) (fmt : BitVec 4) (fn : BitVec 8) (x : GOnly) : Slot :=
  packWord ⟨opc, fmt, x.g, 0, 0, 0, 0⟩ (BodyT.pack { fn := fn })

def encSleepT (opc : BitVec 8) (fmt : BitVec 4) (fn : BitVec 8) (x : SleepT) : Slot :=
  packWord ⟨opc, fmt, x.g, x.d, x.a, x.b, 0⟩ (BodyT.pack { imm16 := 0#5 ++ x.sel, fn := fn })

def encThnewT (opc : BitVec 8) (fmt : BitVec 4) (fn : BitVec 8) (x : ThnewT) : Slot :=
  packWord ⟨opc, fmt, x.g, x.d, x.a, x.b, x.c⟩ (BodyT.pack { imm16 := 0#15 ++ BitVec.ofBool x.start, fn := fn })

def encGDT (opc : BitVec 8) (fmt : BitVec 4) (fn : BitVec 8) (x : GD) : Slot :=
  packWord ⟨opc, fmt, x.g, x.d, x.a, 0, 0⟩ (BodyT.pack { fn := fn })

def encThrdT (opc : BitVec 8) (fmt : BitVec 4) (fn : BitVec 8) (x : ThrdT) : Slot :=
  packWord ⟨opc, fmt, x.g, x.d, x.a, x.b, x.c.setWidth 6⟩ (BodyT.pack { fn := fn })

def encThwrT (opc : BitVec 8) (fmt : BitVec 4) (fn : BitVec 8) (x : ThwrT) : Slot :=
  packWord ⟨opc, fmt, x.g, x.d, x.a, x.b, x.c⟩ (BodyT.pack { fn := fn })

def encTrapT (opc : BitVec 8) (fmt : BitVec 4) (fn : BitVec 8) (x : TrapT) : Slot :=
  packWord ⟨opc, fmt, x.g, 0, 0, 0, 0⟩ (BodyT.pack { imm16 := x.code, fn := fn })

def encMfsT (opc : BitVec 8) (fmt : BitVec 4) (fn : BitVec 8) (x : MfsT) : Slot :=
  packWord ⟨opc, fmt, x.g, x.d, 0, 0, 0⟩ (BodyT.pack { imm16 := x.r.code, fn := fn })

def encMtsT (opc : BitVec 8) (fmt : BitVec 4) (fn : BitVec 8) (x : MtsT) : Slot :=
  packWord ⟨opc, fmt, x.g, 0, x.a, 0, 0⟩ (BodyT.pack { imm16 := x.r.code, fn := fn })

def encGDestT (opc : BitVec 8) (fmt : BitVec 4) (fn : BitVec 8) (x : GDest) : Slot :=
  packWord ⟨opc, fmt, x.g, x.d, 0, 0, 0⟩ (BodyT.pack { fn := fn })

def encRgnqT (opc : BitVec 8) (fmt : BitVec 4) (fn : BitVec 8) (x : RgnqT) : Slot :=
  packWord ⟨opc, fmt, x.g, x.d, x.sel.arg, 0, 0⟩ (BodyT.pack { imm16 := x.sel.code, fn := fn })

/-- The word of an instruction, from the fields of R24 and R28 to R34; the events have none. -/
def encode : Instr → Option Slot
  | .add x => some (encAluA 0x00 0 0 x)
  | .addImm x => some (encAluI 0x00 1 0 x)
  | .sub x => some (encAluA 0x00 0 1 x)
  | .subImm x => some (encAluI 0x00 1 1 x)
  | .mul x => some (encAluA 0x00 0 2 x)
  | .mulImm x => some (encAluI 0x00 1 2 x)
  | .mulh x => some (encAluA 0x00 0 3 x)
  | .mulhImm x => some (encAluI 0x00 1 3 x)
  | .mulhu x => some (encAluA 0x00 0 4 x)
  | .mulhuImm x => some (encAluI 0x00 1 4 x)
  | .div x => some (encAluA 0x00 0 5 x)
  | .divImm x => some (encAluI 0x00 1 5 x)
  | .divu x => some (encAluA 0x00 0 6 x)
  | .divuImm x => some (encAluI 0x00 1 6 x)
  | .rem x => some (encAluA 0x00 0 7 x)
  | .remImm x => some (encAluI 0x00 1 7 x)
  | .remu x => some (encAluA 0x00 0 8 x)
  | .remuImm x => some (encAluI 0x00 1 8 x)
  | .min x => some (encAluA 0x00 0 9 x)
  | .minImm x => some (encAluI 0x00 1 9 x)
  | .max x => some (encAluA 0x00 0 10 x)
  | .maxImm x => some (encAluI 0x00 1 10 x)
  | .minu x => some (encAluA 0x00 0 11 x)
  | .minuImm x => some (encAluI 0x00 1 11 x)
  | .maxu x => some (encAluA 0x00 0 12 x)
  | .maxuImm x => some (encAluI 0x00 1 12 x)
  | .and x => some (encAluA 0x01 0 0 x)
  | .andImm x => some (encAluI 0x01 1 0 x)
  | .or x => some (encAluA 0x01 0 1 x)
  | .orImm x => some (encAluI 0x01 1 1 x)
  | .xor x => some (encAluA 0x01 0 2 x)
  | .xorImm x => some (encAluI 0x01 1 2 x)
  | .andn x => some (encAluA 0x01 0 3 x)
  | .andnImm x => some (encAluI 0x01 1 3 x)
  | .orn x => some (encAluA 0x01 0 4 x)
  | .ornImm x => some (encAluI 0x01 1 4 x)
  | .shl x => some (encAluA 0x01 0 5 x)
  | .shlImm x => some (encShI 0x01 1 5 x)
  | .shr x => some (encAluA 0x01 0 6 x)
  | .shrImm x => some (encShI 0x01 1 6 x)
  | .sra x => some (encAluA 0x01 0 7 x)
  | .sraImm x => some (encShI 0x01 1 7 x)
  | .rol x => some (encAluA 0x01 0 8 x)
  | .rolImm x => some (encShI 0x01 1 8 x)
  | .clz x => some (encUnA 0x02 0 0 x)
  | .ctz x => some (encUnA 0x02 0 1 x)
  | .popc x => some (encUnA 0x02 0 2 x)
  | .brev x => some (encUnA 0x02 0 3 x)
  | .sext x => some (encExtA 0x02 0 4 x)
  | .zext x => some (encExtA 0x02 0 5 x)
  | .bfx x => some (encBfxA 0x03 0 0 x)
  | .bfi x => some (encBfiA 0x03 0 1 x)
  | .cmp x => some (encCmpA 0x04 0 x)
  | .cmpImm x => some (encCmpI 0x04 1 x)
  | .sel x => some (encSelA 0x05 0 0 x)
  | .mov x => some (encGDA 0x06 0 0 x)
  | .li x => some (encLiI 0x07 1 0 x)
  | .lea x => some (encLeaA 0x08 0 0 x)
  | .leaImm x => some (encAluI 0x08 1 0 x)
  | .fadd x => some (encFpR 0x20 0 0 x)
  | .fsub x => some (encFpR 0x20 0 1 x)
  | .fmul x => some (encFpR 0x20 0 2 x)
  | .fmin x => some (encFpB 0x20 0 3 x)
  | .fmax x => some (encFpB 0x20 0 4 x)
  | .fabs x => some (encFpU 0x20 0 5 x)
  | .fneg x => some (encFpU 0x20 0 6 x)
  | .ffma x => some (encFpF 0x21 0 0 x)
  | .fcmp x => some (encFpC 0x22 0 x)
  | .fclass x => some (encFpU 0x23 0 0 x)
  | .fcvt x => some (encFpV 0x24 0 0 x)
  | .frnd x => some (encFpN 0x25 0 0 x)
  | .br x => some (encBrB 0x30 3 x)
  | .jmp x => some (encJmpB 0x31 3 0 x)
  | .jmpi x => some (encGSrcA 0x32 0 0 x)
  | .call x => some (encCallB 0x33 3 0 x)
  | .calli x => some (encGDA 0x34 0 0 x)
  | .ret x => some (encGSrcA 0x35 0 0 x)
  | .loop x => some (encLoopB 0x36 3 0 x)
  | .nop x => some (encGOnlyA 0x37 0 0 x)
  | .pand x => some (encPredA 0x38 0 0 x)
  | .por x => some (encPredA 0x38 0 1 x)
  | .pxor x => some (encPredA 0x38 0 2 x)
  | .pnot x => some (encPnotA 0x38 0 3 x)
  | .pset x => some (encPsetA 0x38 0 4 x)
  | .qput x => some (encQputA 0x39 0 0 x)
  | .qget x => some (encQgetA 0x3A 0 0 x)
  | .qpeek x => some (encQgetA 0x3B 0 0 x)
  | .qcnt x => some (encQgetA 0x3C 0 0 x)
  | .repb x => some (encRepbA 0x3D 0 0 x)
  | .repe _ => some (packWord ⟨0x3E, 0, ⟨0, false⟩, 0, 0, 0, 0⟩ 0)
  | .reprun x => some (encGSrcA 0x3F 0 0 x)
  | .repstat x => some (encGDestA 0x3F 0 1 x)
  | .ld x => some (encLdM 0x40 2 x)
  | .st x => some (encStM 0x41 2 x)
  | .ldv x => some (encLdvM 0x42 2 x)
  | .stv x => some (encStvM 0x43 2 x)
  | .pfetch x => some (encPfM 0x44 2 x)
  | .cflush x => some (encCacheM 0x45 2 x)
  | .cinv x => some (encCacheM 0x46 2 x)
  | .scnt x => some (encScntT 0x47 8 0 x)
  | .amoadd x => some (encAmoM 0x48 2 x)
  | .amoand x => some (encAmoM 0x49 2 x)
  | .amoor x => some (encAmoM 0x4A 2 x)
  | .amoxor x => some (encAmoM 0x4B 2 x)
  | .amomin x => some (encAmoM 0x4C 2 x)
  | .amomax x => some (encAmoM 0x4D 2 x)
  | .amominu x => some (encAmoM 0x4E 2 x)
  | .amomaxu x => some (encAmoM 0x4F 2 x)
  | .amoswp x => some (encAmoM 0x50 2 x)
  | .amocas x => some (encCasM 0x51 2 x)
  | .amofadd x => some (encAmoF 0x52 2 x)
  | .amofmin x => some (encAmoF 0x53 2 x)
  | .amofmax x => some (encAmoF 0x54 2 x)
  | .watch x => some (encWatchM 0x58 2 x)
  | .unwatch x => some (encWatchM 0x59 2 x)
  | .watchq x => some (encWatchM 0x5A 2 x)
  | .acqr x => some (encWatchM 0x5C 2 x)
  | .relr x => some (encRelM 0x5D 2 x)
  | .ladq x => some (encLadM 0x5E 2 x)
  | .send x => some (encSendC 0x60 7 0 x)
  | .sendadd x => some (encSendA 0x61 7 0 0 x)
  | .sendmin x => some (encSendA 0x62 7 0 1 x)
  | .sendmax x => some (encSendA 0x63 7 0 1 x)
  | .chopen x => some (encChopenC 0x64 7 0 x)
  | .chclose x => some (encChcloseC 0x65 7 0 x)
  | .chwm x => some (encChwmC 0x66 7 0 x)
  | .stn x => some (encStnM 0x67 2 x)
  | .lmcfg x => some (encLmcfgT 0x68 8 0 x)
  | .sendm x => some (encMsgC 0x69 7 0 x)
  | .vadd x => some (encVAddV 0x70 4 0 x)
  | .vsub x => some (encVAddV 0x71 4 0 x)
  | .vmul x => some (encVMulV 0x72 4 0 x)
  | .vfma x => some (encVFmaV 0x73 4 0 x)
  | .vfms x => some (encVFmaV 0x74 4 0 x)
  | .vneg x => some (encVNegV 0x75 4 0 x)
  | .vabs x => some (encVNegV 0x76 4 0 x)
  | .vmin x => some (encVMinV 0x77 4 0 x)
  | .vmax x => some (encVMinV 0x78 4 0 x)
  | .vand x => some (encVLogV 0x79 4 0 x)
  | .vor x => some (encVLogV 0x7A 4 0 x)
  | .vxor x => some (encVLogV 0x7B 4 0 x)
  | .vshl x => some (encVShV 0x7C 4 0 x)
  | .vshr x => some (encVShV 0x7D 4 0 x)
  | .vsra x => some (encVShV 0x7E 4 0 x)
  | .vcmp x => some (encVCmpV 0x7F 4 x)
  | .vsel x => some (encVSelV 0x80 4 0 x)
  | .vcvt x => some (encVCvtV 0x81 4 0 x)
  | .vrcp x => some (encVFunV 0x82 4 0 x)
  | .vrsq x => some (encVFunV 0x83 4 0 x)
  | .vsqrt x => some (encVSqrtV 0x84 4 0 x)
  | .vexp2 x => some (encVFunV 0x85 4 0 x)
  | .vlog2 x => some (encVFunV 0x86 4 0 x)
  | .vsinp x => some (encVFunV 0x87 4 0 x)
  | .vtanh x => some (encVFunV 0x88 4 0 x)
  | .vperm x => some (encVPermV 0x89 4 0 x)
  | .vbcast x => some (encVBcastV 0x8A 4 0 x)
  | .vins x => some (encVInsV 0x8B 4 0 x)
  | .vext x => some (encVExtV 0x8C 4 0 x)
  | .vred x => some (encVRedV 0x8D 4 x)
  | .vscan x => some (encVRedV 0x8E 4 x)
  | .vdot x => some (encVDotV 0x8F 4 0 x)
  | .vmov x => some (encVMovV 0x90 4 0 x)
  | .vsplat x => some (encVSplatV 0x91 4 0 x)
  | .mld x => some (encMldN 0xA0 5 0 x)
  | .mst x => some (encMstN 0xA1 5 0 x)
  | .mset x => some (encMsetN 0xA2 5 x)
  | .mew x => some (encMewN 0xA3 5 x)
  | .mfma x => some (encMfmaN 0xA4 5 0 x)
  | .mred x => some (encMredN 0xA5 5 x)
  | .mcvt x => some (encMcvtN 0xA6 5 0 x)
  | .mgath x => some (encMgathN 0xA7 5 0 x)
  | .mscat x => some (encMscatN 0xA8 5 x)
  | .mcopy x => some (encMcopyN 0xA9 5 0 x)
  | .fmtset x => some (encFmtsetA 0xAA 0 0 x)
  | .fmtget x => some (encFmtgetA 0xAB 0 0 x)
  | .lutld x => some (encLutN 0xAC 5 0 x)
  | .xres x => some (encXresX 0xB0 6 0 x)
  | .xload x => some (encXhX 0xB1 6 0 x)
  | .xpin x => some (encXhX 0xB2 6 0 x)
  | .xunpin x => some (encXhX 0xB3 6 0 x)
  | .xrevk x => some (encXhX 0xB4 6 0 x)
  | .xqry x => some (encXqryX 0xB5 6 0 x)
  | .xmm x => some (encXmmX 0xB6 6 0 x)
  | .xacc x => some (encXmmX 0xB7 6 0 x)
  | .xzero x => some (encGSrcN 0xB8 6 0 x)
  | .xstat x => some (encXstatX 0xB9 6 x)
  | .acfg x => some (encAcfgX 0xBA 6 0 x)
  | .aget x => some (encAgetX 0xBB 6 0 x)
  | .afree x => some (encAviewX 0xBC 6 0 x)
  | .arowi x => some (encAinX 0xBD 6 0 x)
  | .arowo x => some (encAoutX 0xBD 6 1 x)
  | .acoli x => some (encAinX 0xBE 6 0 x)
  | .acolo x => some (encAoutX 0xBE 6 1 x)
  | .azero x => some (encAviewX 0xBF 6 0 x)
  | .spawn x => some (encMsgC 0xC0 7 0 x)
  | .spawnt x => some (encMsgtC 0xC1 7 0 x)
  | .end_ x => some (encGOnlyT 0xC2 8 0 x)
  | .sleep x => some (encSleepT 0xC3 8 0 x)
  | .yield x => some (encGOnlyT 0xC4 8 0 x)
  | .thnew x => some (encThnewT 0xC5 8 0 x)
  | .thstop x => some (encGDT 0xC6 8 0 x)
  | .thstart x => some (encGDT 0xC6 8 1 x)
  | .thrd x => some (encThrdT 0xC7 8 0 x)
  | .thwr x => some (encThwrT 0xC8 8 0 x)
  | .thstat x => some (encGDT 0xC9 8 0 x)
  | .thkill x => some (encGDT 0xCA 8 0 x)
  | .trap x => some (encTrapT 0xCB 8 0 x)
  | .mfs x => some (encMfsT 0xCC 8 0 x)
  | .mts x => some (encMtsT 0xCD 8 0 x)
  | .gtime x => some (encGDestT 0xCE 8 0 x)
  | .rgnq x => some (encRgnqT 0xCF 8 0 x)
  | .fetchLineArrival _ => none
  | .pipeDeadlock _ => none
  | .reissue _ => none
  | .tableWalk _ => none
  | .queuedFaultRecordWrite _ => none
  | .gets _ => none
  | .getx _ => none
  | .wrt _ => none
  | .putx _ => none
  | .pute _ => none
  | .fwds _ => none
  | .fwdx _ => none
  | .inv _ => none
  | .data _ => none
  | .ownerData _ => none
  | .clean _ => none
  | .gone _ => none
  | .ack _ => none
  | .wback _ => none
  | .fillArrives _ => none
  | .l2Replacement _ => none
  | .l1Eviction _ => none
  | .wake _ => none
  | .drop _ => none
  | .snpData _ => none
  | .snpInv _ => none
  | .snpCur _ => none
  | .rdSharedReread _ => none
  | .biSnpInvResponse _ => none
  | .memWr _ => none
  | .hostMemRd _ => none
  | .ladingGrant _ => none
  | .beacon _ => none
  | .ladingRevocation _ => none
  | .revoke _ => none
  | .packetArrival _ => none
  | .packetRetry _ => none
  | .updateArrival _ => none
  | .sendComplete _ => none
  | .remoteStoreArrival _ => none
  | .streamOperationComplete _ => none
  | .messageArrival _ => none
  | .binding _ => none
  | .ageStep _ => none
  | .stealRequest _ => none
  | .reload _ => none
  | .yieldExpiry _ => none
  | .porterSpill _ => none
  | .porterReplay _ => none
  | .sliceFullRetry _ => none
  | .wave _ => none
  | .energyMeter _ => none
  | .tariffWindow _ => none
  | .temperatureRead _ => none
  | .droverPeriod _ => none
  | .droverCoreJoin _ => none
  | .trapEntry _ => none
  | .uncorrectableData _ => none
  | .switchDeadline _ => none
  | .clearing _ => none
  | .prep _ => none
  | .commit _ => none
  | .consignmentDrop _ => none
  | .consignmentOverflow _ => none
  | .hashArrival _ => none
  | .writeIntent _ => none
  | .staleMark _ => none
  | .residencyLoadComplete _ => none
  | .residencyLoadFault _ => none
  | .drainComplete _ => none
  | .tileError _ => none
  | .nopCommand _ => none
  | .launch _ => none
  | .rrelease _ => none
  | .preemptSwitch _ => none
  | .preemptSpatial _ => none
  | .restore _ => none
  | .rprio _ => none
  | .postset _ => none
  | .tflush _ => none
  | .drover _ => none
  | .qcreate _ => none
  | .qdestroy _ => none
  | .signal _ => none
  | .mapq _ => none
  | .dirdump _ => none
  | .resize _ => none
  | .notify _ => none
  | .admqcbCreate _ => none
  | .admqcbDestroy _ => none
  | .registerWrite _ => none
  | .qcbPoll _ => none
  | .commandFetch _ => none
  | .commandDispatch _ => none
  | .completionWrite _ => none
  | .pluginOverrun _ => none
  | .frontEndRestart _ => none
  | .quantumExpiry _ => none
  | .functionLevelReset _ => none
  | .sqprod _ => none
  | .put _ => none
  | .get _ => none
  | .aadd _ => none
  | .acas _ => none
  | .aswp _ => none
  | .allred _ => none
  | .linkRequestArrival _ => none
  | .linkAcknowledgement _ => none
  | .linkRetry _ => none
  | .linkRetire _ => none
  | .linkBeacon _ => none
  | .collectiveAbort _ => none
  | .scrub _ => none
  | .marginReplan _ => none
  | .customsAlarm _ => none
  | .level2Clear _ => none
  | .coldReset _ => none
  | .getMeasurements _ => none
  | .sleepDeadline _ => none
  | .threadStateRequest _ => none
  | .cxlCacheResponse _ => none
  | .flitCrcFailure _ => none
  | .endpointContextFill _ => none
  | .atomicResultCacheExpiry _ => none
  | .coreRemoval _ => none
  | .engineConfigurationWrite _ => none

/-- The decoder on a word numbered as the table of operations numbers it: an instruction is one 96-bit word, whose bits above
`nbits` are zero. -/
def decodeTableWord (nbits w : Nat) : Option Instr :=
  match decode (BitVec.ofNat 96 (w % 2 ^ nbits)) with
  | .ok i => some i
  | .error _ => none

end Sys2Proof
end

