-- ==== Sys2Proof/Machine/Uses.lean ====
section
/-! DEFINITION. What each instruction reads and writes (R41, R23), the pipe that carries it (R42), and the renaming of the repetition
buffer (R211). -/

namespace Sys2Proof

/-- A register that R41 orders, or a state that the pipes' waits order: `all` is waited for by an MFS of RCTL (R49), `exec` by END
(R303), `eng` by the matrix and tile instructions (R261); `rm` and `flags` are the two parts of RCTL. -/
inductive Res where
  | g (r : GReg)
  | p (r : Reg3)
  | v (r : VReg)
  | q (r : Reg3)
  | m (r : Reg3)
  | f (r : FReg)
  | a (r : AReg)
  | ashape | rm | flags | sclamp | eng | all | exec
  deriving DecidableEq, Repr

/-- What is read and what is written. -/
structure Use where
  reads : List Res
  writes : List Res
  deriving DecidableEq, Repr

/-- A named register of R40, as a pair's conditions see it (R23). -/
def Res.isReg : Res → Bool
  | .g _ | .p _ | .v _ | .q _ | .m _ | .f _ | .a _ => true
  | _ => false

/-- A queue register, which carries values without the waits of R41. -/
def Res.isQ : Res → Bool
  | .q _ => true
  | _ => false

def gr (r : GReg) : List Res := if r = 0 then [] else [.g r]
def pr (r : Reg3) : List Res := if r = 0 then [] else [.p r]

/-- The six payload registers of a message (R300). -/
def pay (a : GReg) : List Res := (List.range 6).flatMap fun i => gr (a + BitVec.ofNat 6 i)

/-- RCTL as an instruction that rounds reads it, with the flags that it ORs. -/
def fl : List Res := [.rm, .flags]

def flt (ty : ElemType) : List Res := if ty.isI then [] else fl

/-- The registers of a list of R280. -/
def vlist (v : VReg) : List Res := (List.range 4).map fun i => .v (v + BitVec.ofNat 5 i)

/-- The descriptor that a type names. -/
def tyr : ElemType → List Res
  | .fmt n => [.f n]
  | _ => []

/-- All descriptors: a manifest may name any. -/
def fmts : List Res := (List.range 16).map fun i => .f (BitVec.ofNat 4 i)

/-- What every trail instruction does to the waits of MFS and END. -/
def tr : List Res := [.all, .exec]

/-- What an instruction reads and writes: R40's registers as R41 and R23 count them, its guard and the queues among the reads. -/
def Instr.use : Instr → Use
  | .add x => ⟨pr x.g.p ++ gr x.a ++ gr x.b, gr x.d⟩
  | .addImm x => ⟨pr x.g.p ++ gr x.a, gr x.d⟩
  | .sub x => ⟨pr x.g.p ++ gr x.a ++ gr x.b, gr x.d⟩
  | .subImm x => ⟨pr x.g.p ++ gr x.a, gr x.d⟩
  | .mul x => ⟨pr x.g.p ++ gr x.a ++ gr x.b, gr x.d⟩
  | .mulImm x => ⟨pr x.g.p ++ gr x.a, gr x.d⟩
  | .mulh x => ⟨pr x.g.p ++ gr x.a ++ gr x.b, gr x.d⟩
  | .mulhImm x => ⟨pr x.g.p ++ gr x.a, gr x.d⟩
  | .mulhu x => ⟨pr x.g.p ++ gr x.a ++ gr x.b, gr x.d⟩
  | .mulhuImm x => ⟨pr x.g.p ++ gr x.a, gr x.d⟩
  | .div x => ⟨pr x.g.p ++ gr x.a ++ gr x.b, gr x.d⟩
  | .divImm x => ⟨pr x.g.p ++ gr x.a, gr x.d⟩
  | .divu x => ⟨pr x.g.p ++ gr x.a ++ gr x.b, gr x.d⟩
  | .divuImm x => ⟨pr x.g.p ++ gr x.a, gr x.d⟩
  | .rem x => ⟨pr x.g.p ++ gr x.a ++ gr x.b, gr x.d⟩
  | .remImm x => ⟨pr x.g.p ++ gr x.a, gr x.d⟩
  | .remu x => ⟨pr x.g.p ++ gr x.a ++ gr x.b, gr x.d⟩
  | .remuImm x => ⟨pr x.g.p ++ gr x.a, gr x.d⟩
  | .min x => ⟨pr x.g.p ++ gr x.a ++ gr x.b, gr x.d⟩
  | .minImm x => ⟨pr x.g.p ++ gr x.a, gr x.d⟩
  | .max x => ⟨pr x.g.p ++ gr x.a ++ gr x.b, gr x.d⟩
  | .maxImm x => ⟨pr x.g.p ++ gr x.a, gr x.d⟩
  | .minu x => ⟨pr x.g.p ++ gr x.a ++ gr x.b, gr x.d⟩
  | .minuImm x => ⟨pr x.g.p ++ gr x.a, gr x.d⟩
  | .maxu x => ⟨pr x.g.p ++ gr x.a ++ gr x.b, gr x.d⟩
  | .maxuImm x => ⟨pr x.g.p ++ gr x.a, gr x.d⟩
  | .and x => ⟨pr x.g.p ++ gr x.a ++ gr x.b, gr x.d⟩
  | .andImm x => ⟨pr x.g.p ++ gr x.a, gr x.d⟩
  | .or x => ⟨pr x.g.p ++ gr x.a ++ gr x.b, gr x.d⟩
  | .orImm x => ⟨pr x.g.p ++ gr x.a, gr x.d⟩
  | .xor x => ⟨pr x.g.p ++ gr x.a ++ gr x.b, gr x.d⟩
  | .xorImm x => ⟨pr x.g.p ++ gr x.a, gr x.d⟩
  | .andn x => ⟨pr x.g.p ++ gr x.a ++ gr x.b, gr x.d⟩
  | .andnImm x => ⟨pr x.g.p ++ gr x.a, gr x.d⟩
  | .orn x => ⟨pr x.g.p ++ gr x.a ++ gr x.b, gr x.d⟩
  | .ornImm x => ⟨pr x.g.p ++ gr x.a, gr x.d⟩
  | .shl x => ⟨pr x.g.p ++ gr x.a ++ gr x.b, gr x.d⟩
  | .shlImm x => ⟨pr x.g.p ++ gr x.a, gr x.d⟩
  | .shr x => ⟨pr x.g.p ++ gr x.a ++ gr x.b, gr x.d⟩
  | .shrImm x => ⟨pr x.g.p ++ gr x.a, gr x.d⟩
  | .sra x => ⟨pr x.g.p ++ gr x.a ++ gr x.b, gr x.d⟩
  | .sraImm x => ⟨pr x.g.p ++ gr x.a, gr x.d⟩
  | .rol x => ⟨pr x.g.p ++ gr x.a ++ gr x.b, gr x.d⟩
  | .rolImm x => ⟨pr x.g.p ++ gr x.a, gr x.d⟩
  | .clz x => ⟨pr x.g.p ++ gr x.a, gr x.d⟩
  | .ctz x => ⟨pr x.g.p ++ gr x.a, gr x.d⟩
  | .popc x => ⟨pr x.g.p ++ gr x.a, gr x.d⟩
  | .brev x => ⟨pr x.g.p ++ gr x.a, gr x.d⟩
  | .sext x => ⟨pr x.g.p ++ gr x.a, gr x.d⟩
  | .zext x => ⟨pr x.g.p ++ gr x.a, gr x.d⟩
  | .bfx x => ⟨pr x.g.p ++ gr x.a, gr x.d⟩
  | .bfi x => ⟨pr x.g.p ++ gr x.a ++ gr x.d, gr x.d⟩
  | .cmp x => ⟨pr x.g.p ++ gr x.a ++ gr x.b, pr x.d⟩
  | .cmpImm x => ⟨pr x.g.p ++ gr x.a, pr x.d⟩
  | .sel x => ⟨pr x.g.p ++ gr x.a ++ gr x.b ++ pr x.c, gr x.d⟩
  | .mov x => ⟨pr x.g.p ++ gr x.a, gr x.d⟩
  | .li x => ⟨pr x.g.p, gr x.d⟩
  | .lea x => ⟨pr x.g.p ++ gr x.a ++ gr x.b, gr x.d⟩
  | .leaImm x => ⟨pr x.g.p ++ gr x.a, gr x.d⟩
  | .fadd x => ⟨pr x.g.p ++ gr x.a ++ gr x.b ++ fl ++ tr, gr x.d⟩
  | .fsub x => ⟨pr x.g.p ++ gr x.a ++ gr x.b ++ fl ++ tr, gr x.d⟩
  | .fmul x => ⟨pr x.g.p ++ gr x.a ++ gr x.b ++ fl ++ tr, gr x.d⟩
  | .fmin x => ⟨pr x.g.p ++ gr x.a ++ gr x.b ++ fl ++ tr, gr x.d⟩
  | .fmax x => ⟨pr x.g.p ++ gr x.a ++ gr x.b ++ fl ++ tr, gr x.d⟩
  | .fabs x => ⟨pr x.g.p ++ gr x.a ++ tyr x.ty ++ tr, gr x.d⟩
  | .fneg x => ⟨pr x.g.p ++ gr x.a ++ tyr x.ty ++ tr, gr x.d⟩
  | .ffma x => ⟨pr x.g.p ++ gr x.a ++ gr x.b ++ gr x.c ++ fl ++ tr, gr x.d⟩
  | .fcmp x => ⟨pr x.g.p ++ gr x.a ++ gr x.b ++ tr, pr x.d⟩
  | .fclass x => ⟨pr x.g.p ++ gr x.a ++ tyr x.ty ++ tr, gr x.d⟩
  | .fcvt x => ⟨pr x.g.p ++ gr x.a ++ fl ++ tyr x.dst ++ tyr x.src ++ tr, gr x.d⟩
  | .frnd x => ⟨pr x.g.p ++ gr x.a ++ fl ++ tr, gr x.d⟩
  | .br x => ⟨pr x.g.p ++ gr x.a ++ gr x.b, []⟩
  | .jmp x => ⟨pr x.g.p, []⟩
  | .jmpi x => ⟨pr x.g.p ++ gr x.a, []⟩
  | .call x => ⟨pr x.g.p, gr x.d⟩
  | .calli x => ⟨pr x.g.p ++ gr x.a, gr x.d⟩
  | .ret x => ⟨pr x.g.p ++ gr x.a, []⟩
  | .loop x => ⟨pr x.g.p ++ gr x.a, gr x.a⟩
  | .nop x => ⟨pr x.g.p, []⟩
  | .pand x => ⟨pr x.g.p ++ pr x.a ++ pr x.b, pr x.d⟩
  | .por x => ⟨pr x.g.p ++ pr x.a ++ pr x.b, pr x.d⟩
  | .pxor x => ⟨pr x.g.p ++ pr x.a ++ pr x.b, pr x.d⟩
  | .pnot x => ⟨pr x.g.p ++ pr x.a, pr x.d⟩
  | .pset x => ⟨pr x.g.p ++ (match x.src with | .reg a => gr a | .imm _ => []), pr x.d⟩
  | .qput x => ⟨pr x.g.p ++ gr x.a ++ [.q x.q], [.q x.q]⟩
  | .qget x => ⟨pr x.g.p ++ [.q x.q], gr x.d ++ [.q x.q]⟩
  | .qpeek x => ⟨pr x.g.p ++ [.q x.q], gr x.d ++ [.q x.q]⟩
  | .qcnt x => ⟨pr x.g.p ++ [.q x.q], gr x.d ++ [.q x.q]⟩
  | .repb x => ⟨pr x.g.p ++ gr x.a, []⟩
  | .repe _ => ⟨[], []⟩
  | .reprun x => ⟨pr x.g.p ++ gr x.a, []⟩
  | .repstat x => ⟨pr x.g.p, gr x.d⟩
  | .ld x => ⟨pr x.g.p ++ gr x.a ++ gr x.c, gr x.d⟩
  | .st x => ⟨pr x.g.p ++ gr x.a ++ gr x.b ++ gr x.c, []⟩
  | .ldv x => ⟨pr x.g.p ++ gr x.a ++ gr x.c, [.v x.d]⟩
  | .stv x => ⟨pr x.g.p ++ gr x.a ++ [.v x.b] ++ gr x.c, []⟩
  | .pfetch x => ⟨pr x.g.p ++ gr x.a, []⟩
  | .cflush x => ⟨pr x.g.p ++ gr x.a, []⟩
  | .cinv x => ⟨pr x.g.p ++ gr x.a, []⟩
  | .scnt x => ⟨pr x.g.p, gr x.d⟩
  | .amoadd x => ⟨pr x.g.p ++ gr x.a ++ gr x.b ++ gr x.c, gr x.d⟩
  | .amoand x => ⟨pr x.g.p ++ gr x.a ++ gr x.b ++ gr x.c, gr x.d⟩
  | .amoor x => ⟨pr x.g.p ++ gr x.a ++ gr x.b ++ gr x.c, gr x.d⟩
  | .amoxor x => ⟨pr x.g.p ++ gr x.a ++ gr x.b ++ gr x.c, gr x.d⟩
  | .amomin x => ⟨pr x.g.p ++ gr x.a ++ gr x.b ++ gr x.c, gr x.d⟩
  | .amomax x => ⟨pr x.g.p ++ gr x.a ++ gr x.b ++ gr x.c, gr x.d⟩
  | .amominu x => ⟨pr x.g.p ++ gr x.a ++ gr x.b ++ gr x.c, gr x.d⟩
  | .amomaxu x => ⟨pr x.g.p ++ gr x.a ++ gr x.b ++ gr x.c, gr x.d⟩
  | .amoswp x => ⟨pr x.g.p ++ gr x.a ++ gr x.b ++ gr x.c, gr x.d⟩
  | .amocas x => ⟨pr x.g.p ++ gr x.a ++ gr x.b ++ gr x.c, gr x.d⟩
  | .amofadd x => ⟨pr x.g.p ++ gr x.a ++ gr x.b ++ gr x.c, gr x.d⟩
  | .amofmin x => ⟨pr x.g.p ++ gr x.a ++ gr x.b ++ gr x.c, gr x.d⟩
  | .amofmax x => ⟨pr x.g.p ++ gr x.a ++ gr x.b ++ gr x.c, gr x.d⟩
  | .watch x => ⟨pr x.g.p ++ gr x.a ++ gr x.b, gr x.d⟩
  | .unwatch x => ⟨pr x.g.p ++ gr x.a ++ gr x.b, gr x.d⟩
  | .watchq x => ⟨pr x.g.p ++ gr x.a ++ gr x.b, gr x.d⟩
  | .acqr x => ⟨pr x.g.p ++ gr x.a ++ gr x.b, gr x.d⟩
  | .relr x => ⟨pr x.g.p ++ gr x.a, gr x.d⟩
  | .ladq x => ⟨pr x.g.p ++ gr x.a, [.v x.d]⟩
  | .send x => ⟨pr x.g.p ++ gr x.a ++ gr x.b ++ gr x.c, []⟩
  | .sendadd x => ⟨pr x.g.p ++ gr x.a ++ gr x.b ++ gr x.c, []⟩
  | .sendmin x => ⟨pr x.g.p ++ gr x.a ++ gr x.b ++ gr x.c, []⟩
  | .sendmax x => ⟨pr x.g.p ++ gr x.a ++ gr x.b ++ gr x.c, []⟩
  | .chopen x => ⟨pr x.g.p ++ gr x.a ++ gr x.b, gr x.d⟩
  | .chclose x => ⟨pr x.g.p, gr x.d⟩
  | .chwm x => ⟨pr x.g.p ++ gr x.a ++ gr x.b, gr x.d⟩
  | .stn x => ⟨pr x.g.p ++ gr x.a ++ gr x.b ++ gr x.c, []⟩
  | .lmcfg x => ⟨pr x.g.p, gr x.d⟩
  | .sendm x => ⟨pr x.g.p ++ pay x.a ++ gr x.b, []⟩
  | .vadd x => ⟨pr x.g.p ++ [.v x.a] ++ [.v x.b] ++ flt x.ty ++ tr, [.v x.d]⟩
  | .vsub x => ⟨pr x.g.p ++ [.v x.a] ++ [.v x.b] ++ flt x.ty ++ tr, [.v x.d]⟩
  | .vmul x => ⟨pr x.g.p ++ [.v x.a] ++ [.v x.b] ++ flt x.ty ++ tr, [.v x.d]⟩
  | .vfma x => ⟨pr x.g.p ++ [.v x.a] ++ [.v x.b] ++ [.v x.c] ++ flt x.ty ++ tr, [.v x.d]⟩
  | .vfms x => ⟨pr x.g.p ++ [.v x.a] ++ [.v x.b] ++ [.v x.c] ++ flt x.ty ++ tr, [.v x.d]⟩
  | .vneg x => ⟨pr x.g.p ++ [.v x.a] ++ tr, [.v x.d]⟩
  | .vabs x => ⟨pr x.g.p ++ [.v x.a] ++ tr, [.v x.d]⟩
  | .vmin x => ⟨pr x.g.p ++ [.v x.a] ++ [.v x.b] ++ flt x.ty ++ tr, [.v x.d]⟩
  | .vmax x => ⟨pr x.g.p ++ [.v x.a] ++ [.v x.b] ++ flt x.ty ++ tr, [.v x.d]⟩
  | .vand x => ⟨pr x.g.p ++ [.v x.a] ++ [.v x.b] ++ tr, [.v x.d]⟩
  | .vor x => ⟨pr x.g.p ++ [.v x.a] ++ [.v x.b] ++ tr, [.v x.d]⟩
  | .vxor x => ⟨pr x.g.p ++ [.v x.a] ++ [.v x.b] ++ tr, [.v x.d]⟩
  | .vshl x => ⟨pr x.g.p ++ [.v x.a] ++ (match x.cnt with | .reg b => [.v b] | .imm _ => []) ++ tr, [.v x.d]⟩
  | .vshr x => ⟨pr x.g.p ++ [.v x.a] ++ (match x.cnt with | .reg b => [.v b] | .imm _ => []) ++ tr, [.v x.d]⟩
  | .vsra x => ⟨pr x.g.p ++ [.v x.a] ++ (match x.cnt with | .reg b => [.v b] | .imm _ => []) ++ tr, [.v x.d]⟩
  | .vcmp x => ⟨pr x.g.p ++ [.v x.a] ++ [.v x.b] ++ tr, [.v x.d]⟩
  | .vsel x => ⟨pr x.g.p ++ [.v x.a] ++ [.v x.b] ++ [.v x.c] ++ tr, [.v x.d]⟩
  | .vcvt x => ⟨pr x.g.p ++ [.v x.a] ++ [.v x.d] ++ fl ++ tyr x.dst ++ tyr x.src ++ tr, [.v x.d]⟩
  | .vrcp x => ⟨pr x.g.p ++ [.v x.a] ++ flt x.ty ++ tr, [.v x.d]⟩
  | .vrsq x => ⟨pr x.g.p ++ [.v x.a] ++ flt x.ty ++ tr, [.v x.d]⟩
  | .vsqrt x => ⟨pr x.g.p ++ [.v x.a] ++ flt x.ty ++ tr, [.v x.d]⟩
  | .vexp2 x => ⟨pr x.g.p ++ [.v x.a] ++ flt x.ty ++ tr, [.v x.d]⟩
  | .vlog2 x => ⟨pr x.g.p ++ [.v x.a] ++ flt x.ty ++ tr, [.v x.d]⟩
  | .vsinp x => ⟨pr x.g.p ++ [.v x.a] ++ flt x.ty ++ tr, [.v x.d]⟩
  | .vtanh x => ⟨pr x.g.p ++ [.v x.a] ++ flt x.ty ++ tr, [.v x.d]⟩
  | .vperm x => ⟨pr x.g.p ++ [.v x.a] ++ [.v x.b] ++ (match x.c with | some c => [.v c] | none => []) ++ tyr x.ty ++ tr, [.v x.d]⟩
  | .vbcast x => ⟨pr x.g.p ++ [.v x.a] ++ tyr x.ty ++ tr, [.v x.d]⟩
  | .vins x => ⟨pr x.g.p ++ gr x.a ++ [.v x.d] ++ tyr x.ty ++ tr, [.v x.d]⟩
  | .vext x => ⟨pr x.g.p ++ [.v x.a] ++ tyr x.ty ++ tr, gr x.d⟩
  | .vred x => ⟨pr x.g.p ++ [.v x.a] ++ flt x.ty ++ tr, [.v x.d]⟩
  | .vscan x => ⟨pr x.g.p ++ [.v x.a] ++ flt x.ty ++ tr, [.v x.d]⟩
  | .vdot x => ⟨pr x.g.p ++ [.v x.a] ++ [.v x.b] ++ [.v x.d] ++ fl ++ tr, [.v x.d]⟩
  | .vmov x => ⟨pr x.g.p ++ [.v x.a] ++ tr, [.v x.d]⟩
  | .vsplat x => ⟨pr x.g.p ++ gr x.a ++ tyr x.ty ++ tr, [.v x.d]⟩
  | .mld x => ⟨pr x.g.p ++ gr x.a, [.m x.m]⟩
  | .mst x => ⟨pr x.g.p ++ gr x.a ++ [.m x.m], []⟩
  | .mset x => ⟨pr x.g.p ++ gr x.a ++ gr x.b ++ [.m x.d], [.m x.d]⟩
  | .mew x => ⟨pr x.g.p ++ [.m x.d] ++ [.m x.a] ++ (if x.op.isBinary then [.m x.b] else []) ++ fl ++ fmts ++ tr, [.sclamp]⟩
  | .mfma x => ⟨pr x.g.p ++ [.m x.d] ++ [.m x.a] ++ [.m x.b] ++ [.m x.c] ++ fl ++ fmts ++ tr, [.sclamp]⟩
  | .mred x => ⟨pr x.g.p ++ [.m x.d] ++ [.m x.a] ++ fl ++ fmts ++ tr, [.sclamp]⟩
  | .mcvt x => ⟨pr x.g.p ++ [.m x.d] ++ [.m x.a] ++ fl ++ fmts ++ tr, [.sclamp]⟩
  | .mgath x => ⟨pr x.g.p ++ [.m x.d] ++ [.m x.a] ++ [.m x.b] ++ fl ++ fmts ++ tr, [.sclamp]⟩
  | .mscat x => ⟨pr x.g.p ++ [.m x.d] ++ [.m x.a] ++ [.m x.b] ++ fl ++ fmts ++ tr, [.sclamp]⟩
  | .mcopy x => ⟨pr x.g.p ++ [.m x.d] ++ [.m x.a] ++ fmts ++ tr, [.sclamp]⟩
  | .fmtset x => ⟨pr x.g.p ++ gr x.a, [.f x.d]⟩
  | .fmtget x => ⟨pr x.g.p ++ [.f x.a], gr x.d⟩
  | .lutld x => ⟨pr x.g.p ++ gr x.a, []⟩
  | .xres x => ⟨pr x.g.p ++ gr x.a ++ gr x.b ++ tyr x.ty, gr x.d⟩
  | .xload x => ⟨pr x.g.p ++ gr x.a ++ [.eng], gr x.d ++ [.eng]⟩
  | .xpin x => ⟨pr x.g.p ++ gr x.a ++ [.eng], gr x.d ++ [.eng]⟩
  | .xunpin x => ⟨pr x.g.p ++ gr x.a ++ [.eng], gr x.d ++ [.eng]⟩
  | .xrevk x => ⟨pr x.g.p ++ gr x.a ++ [.eng], gr x.d ++ [.eng]⟩
  | .xqry x => ⟨pr x.g.p ++ gr x.a ++ [.eng], [.v x.d] ++ [.eng]⟩
  | .xmm x => ⟨pr x.g.p ++ [.m x.a] ++ gr x.b ++ (match x.drain with | some (c, _) => [.m c] | none => []) ++ fmts ++ [.ashape, .eng] ++ tr, [.a x.d, .ashape, .eng, .sclamp]⟩
  | .xacc x => ⟨pr x.g.p ++ [.m x.a] ++ gr x.b ++ (match x.drain with | some (c, _) => [.m c] | none => []) ++ fmts ++ [.ashape, .eng] ++ tr, [.a x.d, .ashape, .eng, .sclamp]⟩
  | .xzero x => ⟨pr x.g.p ++ gr x.a ++ [.eng] ++ tr, [.eng]⟩
  | .xstat x => ⟨pr x.g.p ++ [.eng], gr x.d ++ [.eng]⟩
  | .acfg x => ⟨pr x.g.p ++ gr x.a ++ [.eng], gr x.d ++ [.a x.c, .ashape, .eng]⟩
  | .aget x => ⟨pr x.g.p ++ [.a x.a, .ashape, .eng], gr x.d ++ [.eng]⟩
  | .afree x => ⟨pr x.g.p ++ [.eng], [.a x.d, .ashape, .eng]⟩
  | .arowi x => ⟨pr x.g.p ++ vlist x.a ++ gr x.b ++ [.ashape, .eng] ++ tr, [.a x.d, .ashape, .eng]⟩
  | .arowo x => ⟨pr x.g.p ++ gr x.b ++ [.a x.a, .ashape, .eng] ++ tr, vlist x.d ++ [.eng]⟩
  | .acoli x => ⟨pr x.g.p ++ vlist x.a ++ gr x.b ++ [.ashape, .eng] ++ tr, [.a x.d, .ashape, .eng]⟩
  | .acolo x => ⟨pr x.g.p ++ gr x.b ++ [.a x.a, .ashape, .eng] ++ tr, vlist x.d ++ [.eng]⟩
  | .azero x => ⟨pr x.g.p ++ [.eng] ++ tr, [.a x.d, .ashape, .eng]⟩
  | .spawn x => ⟨pr x.g.p ++ pay x.a ++ gr x.b, []⟩
  | .spawnt x => ⟨pr x.g.p ++ pay x.a ++ gr x.b ++ gr x.c, []⟩
  | .end_ x => ⟨pr x.g.p, [.exec]⟩
  | .sleep x => ⟨pr x.g.p ++ gr x.a ++ gr x.b, gr x.d⟩
  | .yield x => ⟨pr x.g.p, []⟩
  | .thnew x => ⟨pr x.g.p ++ gr x.a ++ gr x.b ++ gr x.c, gr x.d⟩
  | .thstop x => ⟨pr x.g.p ++ gr x.a, gr x.d⟩
  | .thstart x => ⟨pr x.g.p ++ gr x.a, gr x.d⟩
  | .thrd x => ⟨pr x.g.p ++ gr x.a ++ gr x.b, gr x.d ++ pr x.c⟩
  | .thwr x => ⟨pr x.g.p ++ gr x.a ++ gr x.b ++ gr x.c, gr x.d⟩
  | .thstat x => ⟨pr x.g.p ++ gr x.a, gr x.d⟩
  | .thkill x => ⟨pr x.g.p ++ gr x.a, gr x.d⟩
  | .trap x => ⟨pr x.g.p, []⟩
  | .mfs x => ⟨pr x.g.p ++ (match x.r with | .ashape => [.ashape] | .sclamp => [.sclamp] | .rctl => [.rm, .flags] | _ => []), gr x.d ++ (match x.r with | .rctl => [.all] | _ => [])⟩
  | .mts x => ⟨pr x.g.p ++ gr x.a, (match x.r with | .rctl => [.rm, .flags] | .sclamp => [.sclamp])⟩
  | .gtime x => ⟨pr x.g.p, gr x.d⟩
  | .rgnq x => ⟨pr x.g.p ++ (match x.sel with | .lcoreOf a | .lcnAt a => gr a | _ => []), gr x.d⟩
  | .fetchLineArrival _ => ⟨[], []⟩
  | .pipeDeadlock _ => ⟨[], []⟩
  | .reissue _ => ⟨[], []⟩
  | .tableWalk _ => ⟨[], []⟩
  | .queuedFaultRecordWrite _ => ⟨[], []⟩
  | .gets _ => ⟨[], []⟩
  | .getx _ => ⟨[], []⟩
  | .wrt _ => ⟨[], []⟩
  | .putx _ => ⟨[], []⟩
  | .pute _ => ⟨[], []⟩
  | .fwds _ => ⟨[], []⟩
  | .fwdx _ => ⟨[], []⟩
  | .inv _ => ⟨[], []⟩
  | .data _ => ⟨[], []⟩
  | .ownerData _ => ⟨[], []⟩
  | .clean _ => ⟨[], []⟩
  | .gone _ => ⟨[], []⟩
  | .ack _ => ⟨[], []⟩
  | .wback _ => ⟨[], []⟩
  | .fillArrives _ => ⟨[], []⟩
  | .l2Replacement _ => ⟨[], []⟩
  | .l1Eviction _ => ⟨[], []⟩
  | .wake _ => ⟨[], []⟩
  | .drop _ => ⟨[], []⟩
  | .snpData _ => ⟨[], []⟩
  | .snpInv _ => ⟨[], []⟩
  | .snpCur _ => ⟨[], []⟩
  | .rdSharedReread _ => ⟨[], []⟩
  | .biSnpInvResponse _ => ⟨[], []⟩
  | .memWr _ => ⟨[], []⟩
  | .hostMemRd _ => ⟨[], []⟩
  | .ladingGrant _ => ⟨[], []⟩
  | .beacon _ => ⟨[], []⟩
  | .ladingRevocation _ => ⟨[], []⟩
  | .revoke _ => ⟨[], []⟩
  | .packetArrival _ => ⟨[], []⟩
  | .packetRetry _ => ⟨[], []⟩
  | .updateArrival _ => ⟨[], []⟩
  | .sendComplete _ => ⟨[], []⟩
  | .remoteStoreArrival _ => ⟨[], []⟩
  | .streamOperationComplete _ => ⟨[], []⟩
  | .messageArrival _ => ⟨[], []⟩
  | .binding _ => ⟨[], []⟩
  | .ageStep _ => ⟨[], []⟩
  | .stealRequest _ => ⟨[], []⟩
  | .reload _ => ⟨[], []⟩
  | .yieldExpiry _ => ⟨[], []⟩
  | .porterSpill _ => ⟨[], []⟩
  | .porterReplay _ => ⟨[], []⟩
  | .sliceFullRetry _ => ⟨[], []⟩
  | .wave _ => ⟨[], []⟩
  | .energyMeter _ => ⟨[], []⟩
  | .tariffWindow _ => ⟨[], []⟩
  | .temperatureRead _ => ⟨[], []⟩
  | .droverPeriod _ => ⟨[], []⟩
  | .droverCoreJoin _ => ⟨[], []⟩
  | .trapEntry _ => ⟨[], []⟩
  | .uncorrectableData _ => ⟨[], []⟩
  | .switchDeadline _ => ⟨[], []⟩
  | .clearing _ => ⟨[], []⟩
  | .prep _ => ⟨[], []⟩
  | .commit _ => ⟨[], []⟩
  | .consignmentDrop _ => ⟨[], []⟩
  | .consignmentOverflow _ => ⟨[], []⟩
  | .hashArrival _ => ⟨[], []⟩
  | .writeIntent _ => ⟨[], []⟩
  | .staleMark _ => ⟨[], []⟩
  | .residencyLoadComplete _ => ⟨[], []⟩
  | .residencyLoadFault _ => ⟨[], []⟩
  | .drainComplete _ => ⟨[], []⟩
  | .tileError _ => ⟨[], []⟩
  | .nopCommand _ => ⟨[], []⟩
  | .launch _ => ⟨[], []⟩
  | .rrelease _ => ⟨[], []⟩
  | .preemptSwitch _ => ⟨[], []⟩
  | .preemptSpatial _ => ⟨[], []⟩
  | .restore _ => ⟨[], []⟩
  | .rprio _ => ⟨[], []⟩
  | .postset _ => ⟨[], []⟩
  | .tflush _ => ⟨[], []⟩
  | .drover _ => ⟨[], []⟩
  | .qcreate _ => ⟨[], []⟩
  | .qdestroy _ => ⟨[], []⟩
  | .signal _ => ⟨[], []⟩
  | .mapq _ => ⟨[], []⟩
  | .dirdump _ => ⟨[], []⟩
  | .resize _ => ⟨[], []⟩
  | .notify _ => ⟨[], []⟩
  | .admqcbCreate _ => ⟨[], []⟩
  | .admqcbDestroy _ => ⟨[], []⟩
  | .registerWrite _ => ⟨[], []⟩
  | .qcbPoll _ => ⟨[], []⟩
  | .commandFetch _ => ⟨[], []⟩
  | .commandDispatch _ => ⟨[], []⟩
  | .completionWrite _ => ⟨[], []⟩
  | .pluginOverrun _ => ⟨[], []⟩
  | .frontEndRestart _ => ⟨[], []⟩
  | .quantumExpiry _ => ⟨[], []⟩
  | .functionLevelReset _ => ⟨[], []⟩
  | .sqprod _ => ⟨[], []⟩
  | .put _ => ⟨[], []⟩
  | .get _ => ⟨[], []⟩
  | .aadd _ => ⟨[], []⟩
  | .acas _ => ⟨[], []⟩
  | .aswp _ => ⟨[], []⟩
  | .allred _ => ⟨[], []⟩
  | .linkRequestArrival _ => ⟨[], []⟩
  | .linkAcknowledgement _ => ⟨[], []⟩
  | .linkRetry _ => ⟨[], []⟩
  | .linkRetire _ => ⟨[], []⟩
  | .linkBeacon _ => ⟨[], []⟩
  | .collectiveAbort _ => ⟨[], []⟩
  | .scrub _ => ⟨[], []⟩
  | .marginReplan _ => ⟨[], []⟩
  | .customsAlarm _ => ⟨[], []⟩
  | .level2Clear _ => ⟨[], []⟩
  | .coldReset _ => ⟨[], []⟩
  | .getMeasurements _ => ⟨[], []⟩
  | .sleepDeadline _ => ⟨[], []⟩
  | .threadStateRequest _ => ⟨[], []⟩
  | .cxlCacheResponse _ => ⟨[], []⟩
  | .flitCrcFailure _ => ⟨[], []⟩
  | .endpointContextFill _ => ⟨[], []⟩
  | .atomicResultCacheExpiry _ => ⟨[], []⟩
  | .coreRemoval _ => ⟨[], []⟩
  | .engineConfigurationWrite _ => ⟨[], []⟩

/-- The places of R42. `queue` instructions go by their queue; `either` are NOP and the predicate instructions. -/
inductive Steer where
  | lead | trail | either
  deriving DecidableEq, Repr

/-- R42. -/
def Instr.steer : Instr → Steer
  | .add _ => .lead
  | .addImm _ => .lead
  | .sub _ => .lead
  | .subImm _ => .lead
  | .mul _ => .lead
  | .mulImm _ => .lead
  | .mulh _ => .lead
  | .mulhImm _ => .lead
  | .mulhu _ => .lead
  | .mulhuImm _ => .lead
  | .div _ => .lead
  | .divImm _ => .lead
  | .divu _ => .lead
  | .divuImm _ => .lead
  | .rem _ => .lead
  | .remImm _ => .lead
  | .remu _ => .lead
  | .remuImm _ => .lead
  | .min _ => .lead
  | .minImm _ => .lead
  | .max _ => .lead
  | .maxImm _ => .lead
  | .minu _ => .lead
  | .minuImm _ => .lead
  | .maxu _ => .lead
  | .maxuImm _ => .lead
  | .and _ => .lead
  | .andImm _ => .lead
  | .or _ => .lead
  | .orImm _ => .lead
  | .xor _ => .lead
  | .xorImm _ => .lead
  | .andn _ => .lead
  | .andnImm _ => .lead
  | .orn _ => .lead
  | .ornImm _ => .lead
  | .shl _ => .lead
  | .shlImm _ => .lead
  | .shr _ => .lead
  | .shrImm _ => .lead
  | .sra _ => .lead
  | .sraImm _ => .lead
  | .rol _ => .lead
  | .rolImm _ => .lead
  | .clz _ => .lead
  | .ctz _ => .lead
  | .popc _ => .lead
  | .brev _ => .lead
  | .sext _ => .lead
  | .zext _ => .lead
  | .bfx _ => .lead
  | .bfi _ => .lead
  | .cmp _ => .lead
  | .cmpImm _ => .lead
  | .sel _ => .lead
  | .mov _ => .lead
  | .li _ => .lead
  | .lea _ => .lead
  | .leaImm _ => .lead
  | .fadd _ => .trail
  | .fsub _ => .trail
  | .fmul _ => .trail
  | .fmin _ => .trail
  | .fmax _ => .trail
  | .fabs _ => .trail
  | .fneg _ => .trail
  | .ffma _ => .trail
  | .fcmp _ => .trail
  | .fclass _ => .trail
  | .fcvt _ => .trail
  | .frnd _ => .trail
  | .br _ => .lead
  | .jmp _ => .lead
  | .jmpi _ => .lead
  | .call _ => .lead
  | .calli _ => .lead
  | .ret _ => .lead
  | .loop _ => .lead
  | .nop _ => .either
  | .pand _ => .either
  | .por _ => .either
  | .pxor _ => .either
  | .pnot _ => .either
  | .pset _ => .either
  | .qput x => if x.q.toNat < 6 then .lead else .trail
  | .qget x => if x.q.toNat < 6 then .trail else .lead
  | .qpeek x => if x.q.toNat < 6 then .trail else .lead
  | .qcnt x => if x.q.toNat < 6 then .trail else .lead
  | .repb _ => .lead
  | .repe _ => .lead
  | .reprun _ => .lead
  | .repstat _ => .lead
  | .ld _ => .lead
  | .st _ => .lead
  | .ldv _ => .lead
  | .stv _ => .lead
  | .pfetch _ => .lead
  | .cflush _ => .lead
  | .cinv _ => .lead
  | .scnt _ => .lead
  | .amoadd _ => .lead
  | .amoand _ => .lead
  | .amoor _ => .lead
  | .amoxor _ => .lead
  | .amomin _ => .lead
  | .amomax _ => .lead
  | .amominu _ => .lead
  | .amomaxu _ => .lead
  | .amoswp _ => .lead
  | .amocas _ => .lead
  | .amofadd _ => .lead
  | .amofmin _ => .lead
  | .amofmax _ => .lead
  | .watch _ => .lead
  | .unwatch _ => .lead
  | .watchq _ => .lead
  | .acqr _ => .lead
  | .relr _ => .lead
  | .ladq _ => .lead
  | .send _ => .lead
  | .sendadd _ => .lead
  | .sendmin _ => .lead
  | .sendmax _ => .lead
  | .chopen _ => .lead
  | .chclose _ => .lead
  | .chwm _ => .lead
  | .stn _ => .lead
  | .lmcfg _ => .lead
  | .sendm _ => .lead
  | .vadd _ => .trail
  | .vsub _ => .trail
  | .vmul _ => .trail
  | .vfma _ => .trail
  | .vfms _ => .trail
  | .vneg _ => .trail
  | .vabs _ => .trail
  | .vmin _ => .trail
  | .vmax _ => .trail
  | .vand _ => .trail
  | .vor _ => .trail
  | .vxor _ => .trail
  | .vshl _ => .trail
  | .vshr _ => .trail
  | .vsra _ => .trail
  | .vcmp _ => .trail
  | .vsel _ => .trail
  | .vcvt _ => .trail
  | .vrcp _ => .trail
  | .vrsq _ => .trail
  | .vsqrt _ => .trail
  | .vexp2 _ => .trail
  | .vlog2 _ => .trail
  | .vsinp _ => .trail
  | .vtanh _ => .trail
  | .vperm _ => .trail
  | .vbcast _ => .trail
  | .vins _ => .trail
  | .vext _ => .trail
  | .vred _ => .trail
  | .vscan _ => .trail
  | .vdot _ => .trail
  | .vmov _ => .trail
  | .vsplat _ => .trail
  | .mld _ => .lead
  | .mst _ => .lead
  | .mset _ => .lead
  | .mew _ => .trail
  | .mfma _ => .trail
  | .mred _ => .trail
  | .mcvt _ => .trail
  | .mgath _ => .trail
  | .mscat _ => .trail
  | .mcopy _ => .trail
  | .fmtset _ => .lead
  | .fmtget _ => .lead
  | .lutld _ => .lead
  | .xres _ => .lead
  | .xload _ => .lead
  | .xpin _ => .lead
  | .xunpin _ => .lead
  | .xrevk _ => .lead
  | .xqry _ => .lead
  | .xmm _ => .trail
  | .xacc _ => .trail
  | .xzero _ => .trail
  | .xstat _ => .lead
  | .acfg _ => .lead
  | .aget _ => .lead
  | .afree _ => .lead
  | .arowi _ => .trail
  | .arowo _ => .trail
  | .acoli _ => .trail
  | .acolo _ => .trail
  | .azero _ => .trail
  | .spawn _ => .lead
  | .spawnt _ => .lead
  | .end_ _ => .lead
  | .sleep _ => .lead
  | .yield _ => .lead
  | .thnew _ => .lead
  | .thstop _ => .lead
  | .thstart _ => .lead
  | .thrd _ => .lead
  | .thwr _ => .lead
  | .thstat _ => .lead
  | .thkill _ => .lead
  | .trap _ => .lead
  | .mfs _ => .lead
  | .mts _ => .lead
  | .gtime _ => .lead
  | .rgnq _ => .lead
  | .fetchLineArrival _ => .lead
  | .pipeDeadlock _ => .lead
  | .reissue _ => .lead
  | .tableWalk _ => .lead
  | .queuedFaultRecordWrite _ => .lead
  | .gets _ => .lead
  | .getx _ => .lead
  | .wrt _ => .lead
  | .putx _ => .lead
  | .pute _ => .lead
  | .fwds _ => .lead
  | .fwdx _ => .lead
  | .inv _ => .lead
  | .data _ => .lead
  | .ownerData _ => .lead
  | .clean _ => .lead
  | .gone _ => .lead
  | .ack _ => .lead
  | .wback _ => .lead
  | .fillArrives _ => .lead
  | .l2Replacement _ => .lead
  | .l1Eviction _ => .lead
  | .wake _ => .lead
  | .drop _ => .lead
  | .snpData _ => .lead
  | .snpInv _ => .lead
  | .snpCur _ => .lead
  | .rdSharedReread _ => .lead
  | .biSnpInvResponse _ => .lead
  | .memWr _ => .lead
  | .hostMemRd _ => .lead
  | .ladingGrant _ => .lead
  | .beacon _ => .lead
  | .ladingRevocation _ => .lead
  | .revoke _ => .lead
  | .packetArrival _ => .lead
  | .packetRetry _ => .lead
  | .updateArrival _ => .lead
  | .sendComplete _ => .lead
  | .remoteStoreArrival _ => .lead
  | .streamOperationComplete _ => .lead
  | .messageArrival _ => .lead
  | .binding _ => .lead
  | .ageStep _ => .lead
  | .stealRequest _ => .lead
  | .reload _ => .lead
  | .yieldExpiry _ => .lead
  | .porterSpill _ => .lead
  | .porterReplay _ => .lead
  | .sliceFullRetry _ => .lead
  | .wave _ => .lead
  | .energyMeter _ => .lead
  | .tariffWindow _ => .lead
  | .temperatureRead _ => .lead
  | .droverPeriod _ => .lead
  | .droverCoreJoin _ => .lead
  | .trapEntry _ => .lead
  | .uncorrectableData _ => .lead
  | .switchDeadline _ => .lead
  | .clearing _ => .lead
  | .prep _ => .lead
  | .commit _ => .lead
  | .consignmentDrop _ => .lead
  | .consignmentOverflow _ => .lead
  | .hashArrival _ => .lead
  | .writeIntent _ => .lead
  | .staleMark _ => .lead
  | .residencyLoadComplete _ => .lead
  | .residencyLoadFault _ => .lead
  | .drainComplete _ => .lead
  | .tileError _ => .lead
  | .nopCommand _ => .lead
  | .launch _ => .lead
  | .rrelease _ => .lead
  | .preemptSwitch _ => .lead
  | .preemptSpatial _ => .lead
  | .restore _ => .lead
  | .rprio _ => .lead
  | .postset _ => .lead
  | .tflush _ => .lead
  | .drover _ => .lead
  | .qcreate _ => .lead
  | .qdestroy _ => .lead
  | .signal _ => .lead
  | .mapq _ => .lead
  | .dirdump _ => .lead
  | .resize _ => .lead
  | .notify _ => .lead
  | .admqcbCreate _ => .lead
  | .admqcbDestroy _ => .lead
  | .registerWrite _ => .lead
  | .qcbPoll _ => .lead
  | .commandFetch _ => .lead
  | .commandDispatch _ => .lead
  | .completionWrite _ => .lead
  | .pluginOverrun _ => .lead
  | .frontEndRestart _ => .lead
  | .quantumExpiry _ => .lead
  | .functionLevelReset _ => .lead
  | .sqprod _ => .lead
  | .put _ => .lead
  | .get _ => .lead
  | .aadd _ => .lead
  | .acas _ => .lead
  | .aswp _ => .lead
  | .allred _ => .lead
  | .linkRequestArrival _ => .lead
  | .linkAcknowledgement _ => .lead
  | .linkRetry _ => .lead
  | .linkRetire _ => .lead
  | .linkBeacon _ => .lead
  | .collectiveAbort _ => .lead
  | .scrub _ => .lead
  | .marginReplan _ => .lead
  | .customsAlarm _ => .lead
  | .level2Clear _ => .lead
  | .coldReset _ => .lead
  | .getMeasurements _ => .lead
  | .sleepDeadline _ => .lead
  | .threadStateRequest _ => .lead
  | .cxlCacheResponse _ => .lead
  | .flitCrcFailure _ => .lead
  | .endpointContextFill _ => .lead
  | .atomicResultCacheExpiry _ => .lead
  | .coreRemoval _ => .lead
  | .engineConfigurationWrite _ => .lead

/-- The renaming of one pass (R211). -/
structure Renaming where
  g : GReg → GReg
  v : VReg → VReg

/-- ren(f, p) of R211. -/
def passRen (r : Machine.RepState) (pass : Nat) : Renaming where
  g f := if r.reng && f != 0 then f + BitVec.ofNat 6 (pass * r.stride.toNat) else f
  v f := if r.renv then f + BitVec.ofNat 5 (pass * r.stride.toNat) else f

/-- A captured instruction with its v and g fields renamed (R211); every other field is unchanged. -/
def Instr.rename (r : Renaming) : Instr → Instr
  | .fadd x => .fadd { x with d := r.g x.d, a := r.g x.a, b := r.g x.b }
  | .fsub x => .fsub { x with d := r.g x.d, a := r.g x.a, b := r.g x.b }
  | .fmul x => .fmul { x with d := r.g x.d, a := r.g x.a, b := r.g x.b }
  | .fmin x => .fmin { x with d := r.g x.d, a := r.g x.a, b := r.g x.b }
  | .fmax x => .fmax { x with d := r.g x.d, a := r.g x.a, b := r.g x.b }
  | .fabs x => .fabs { x with d := r.g x.d, a := r.g x.a }
  | .fneg x => .fneg { x with d := r.g x.d, a := r.g x.a }
  | .ffma x => .ffma { x with d := r.g x.d, a := r.g x.a, b := r.g x.b, c := r.g x.c }
  | .fcmp x => .fcmp { x with a := r.g x.a, b := r.g x.b }
  | .fclass x => .fclass { x with d := r.g x.d, a := r.g x.a }
  | .fcvt x => .fcvt { x with d := r.g x.d, a := r.g x.a }
  | .frnd x => .frnd { x with d := r.g x.d, a := r.g x.a }
  | .pset x => .pset { x with src := match x.src with | .reg a => .reg (r.g a) | y => y }
  | .qput x => .qput { x with a := r.g x.a }
  | .qget x => .qget { x with d := r.g x.d }
  | .qpeek x => .qpeek { x with d := r.g x.d }
  | .qcnt x => .qcnt { x with d := r.g x.d }
  | .vadd x => .vadd { x with d := r.v x.d, a := r.v x.a, b := r.v x.b }
  | .vsub x => .vsub { x with d := r.v x.d, a := r.v x.a, b := r.v x.b }
  | .vmul x => .vmul { x with d := r.v x.d, a := r.v x.a, b := r.v x.b }
  | .vfma x => .vfma { x with d := r.v x.d, a := r.v x.a, b := r.v x.b, c := r.v x.c }
  | .vfms x => .vfms { x with d := r.v x.d, a := r.v x.a, b := r.v x.b, c := r.v x.c }
  | .vneg x => .vneg { x with d := r.v x.d, a := r.v x.a }
  | .vabs x => .vabs { x with d := r.v x.d, a := r.v x.a }
  | .vmin x => .vmin { x with d := r.v x.d, a := r.v x.a, b := r.v x.b }
  | .vmax x => .vmax { x with d := r.v x.d, a := r.v x.a, b := r.v x.b }
  | .vand x => .vand { x with d := r.v x.d, a := r.v x.a, b := r.v x.b }
  | .vor x => .vor { x with d := r.v x.d, a := r.v x.a, b := r.v x.b }
  | .vxor x => .vxor { x with d := r.v x.d, a := r.v x.a, b := r.v x.b }
  | .vshl x => .vshl { x with d := r.v x.d, a := r.v x.a, cnt := match x.cnt with | .reg b => .reg (r.v b) | y => y }
  | .vshr x => .vshr { x with d := r.v x.d, a := r.v x.a, cnt := match x.cnt with | .reg b => .reg (r.v b) | y => y }
  | .vsra x => .vsra { x with d := r.v x.d, a := r.v x.a, cnt := match x.cnt with | .reg b => .reg (r.v b) | y => y }
  | .vcmp x => .vcmp { x with d := r.v x.d, a := r.v x.a, b := r.v x.b }
  | .vsel x => .vsel { x with d := r.v x.d, a := r.v x.a, b := r.v x.b, c := r.v x.c }
  | .vcvt x => .vcvt { x with d := r.v x.d, a := r.v x.a }
  | .vrcp x => .vrcp { x with d := r.v x.d, a := r.v x.a }
  | .vrsq x => .vrsq { x with d := r.v x.d, a := r.v x.a }
  | .vsqrt x => .vsqrt { x with d := r.v x.d, a := r.v x.a }
  | .vexp2 x => .vexp2 { x with d := r.v x.d, a := r.v x.a }
  | .vlog2 x => .vlog2 { x with d := r.v x.d, a := r.v x.a }
  | .vsinp x => .vsinp { x with d := r.v x.d, a := r.v x.a }
  | .vtanh x => .vtanh { x with d := r.v x.d, a := r.v x.a }
  | .vperm x => .vperm { x with d := r.v x.d, a := r.v x.a, b := r.v x.b, c := x.c.map r.v }
  | .vbcast x => .vbcast { x with d := r.v x.d, a := r.v x.a }
  | .vins x => .vins { x with d := r.v x.d, a := r.g x.a }
  | .vext x => .vext { x with d := r.g x.d, a := r.v x.a }
  | .vred x => .vred { x with d := r.v x.d, a := r.v x.a }
  | .vscan x => .vscan { x with d := r.v x.d, a := r.v x.a }
  | .vdot x => .vdot { x with d := r.v x.d, a := r.v x.a, b := r.v x.b }
  | .vmov x => .vmov { x with d := r.v x.d, a := r.v x.a }
  | .vsplat x => .vsplat { x with d := r.v x.d, a := r.g x.a }
  | .xmm x => .xmm { x with b := r.g x.b }
  | .xacc x => .xacc { x with b := r.g x.b }
  | .xzero x => .xzero { x with a := r.g x.a }
  | .arowi x => .arowi { x with a := r.v x.a, b := r.g x.b }
  | .arowo x => .arowo { x with d := r.v x.d, b := r.g x.b }
  | .acoli x => .acoli { x with a := r.v x.a, b := r.g x.b }
  | .acolo x => .acolo { x with d := r.v x.d, b := r.g x.b }
  | i => i

/-- STREAM, PMASK and SCOPE of an instruction that has them (R30, R33). -/
def Instr.str? : Instr → Option Str
  | .ld x => some x.str
  | .st x => some x.str
  | .ldv x => some x.str
  | .stv x => some x.str
  | .pfetch x => some x.str
  | .cflush x => some x.str
  | .cinv x => some x.str
  | .amoadd x => some x.str
  | .amoand x => some x.str
  | .amoor x => some x.str
  | .amoxor x => some x.str
  | .amomin x => some x.str
  | .amomax x => some x.str
  | .amominu x => some x.str
  | .amomaxu x => some x.str
  | .amoswp x => some x.str
  | .amocas x => some x.str
  | .amofadd x => some x.str
  | .amofmin x => some x.str
  | .amofmax x => some x.str
  | .watch x => some x.str
  | .unwatch x => some x.str
  | .watchq x => some x.str
  | .acqr x => some x.str
  | .relr x => some x.str
  | .ladq x => some x.str
  | .send x => some x.str
  | .sendadd x => some x.str
  | .sendmin x => some x.str
  | .sendmax x => some x.str
  | .chopen x => some x.str
  | .chclose x => some x.str
  | .chwm x => some x.str
  | .stn x => some x.str
  | .sendm x => some x.str
  | .mld x => some x.str
  | .mst x => some x.str
  | .mew x => some x.str
  | .mfma x => some x.str
  | .mred x => some x.str
  | .mcvt x => some x.str
  | .mgath x => some x.str
  | .mscat x => some x.str
  | .mcopy x => some x.str
  | .lutld x => some x.str
  | .xres x => some x.str
  | .xload x => some x.str
  | .xpin x => some x.str
  | .xunpin x => some x.str
  | .xrevk x => some x.str
  | .xmm x => some x.str
  | .xacc x => some x.str
  | .spawn x => some x.str
  | .spawnt x => some x.str
  | _ => none

/-- The instruction counts in a stream when it executes; of the trail's instructions these are the tensor and matrix ones (R116). -/
def Instr.counts : Instr → Bool
  | .mew _ | .mfma _ | .mred _ | .mcvt _ | .mgath _ | .mscat _ | .mcopy _ | .xmm _ | .xacc _ => true
  | _ => false

/-- The younger use waits for the older one (R41). -/
def Use.waitsFor (y o : Use) : Bool :=
  (y.reads.any fun r => !r.isQ && o.writes.contains r) ||
  (y.writes.any fun r => !r.isQ && (o.writes.contains r || o.reads.contains r))

/-- The second slot of a pair depends on the first (R23). -/
def Use.pairDep (a b : Use) : Bool :=
  (b.reads.any fun r => r.isReg && a.writes.contains r) || (b.writes.any fun r => r.isReg && a.writes.contains r)

/-- OPC and FMT of a word (R24). -/
def slotOpc (w : Slot) : Nat := (w.extractLsb' 88 8).toNat
def slotFmt (w : Slot) : Nat := (w.extractLsb' 84 4).toNat

/-- FMT is M, C, N, X or T (R23). -/
def isAccessFmt (w : Slot) : Bool := [2, 5, 6, 7, 8].contains (slotFmt w)

/-- OPC 0x30 to 0x36 (R23). -/
def isTransfer (w : Slot) : Bool := 0x30 ≤ slotOpc w && slotOpc w ≤ 0x36

/-- The v registers of a list of R280 that an instruction of a thread needs or touches: those of COLS or ROWS elements. -/
def tileRegs (t : Machine.Thread) (a : AReg) (row : Bool) : Nat :=
  let sh := t.shape a
  let n := (if row then sh.extractLsb' 6 6 else sh.extractLsb' 0 6).toNat
  let e := if sh.extractLsb' 12 2 = 2 then 8 else 16
  (n + e - 1) / e

/-- What an instruction of a thread reads and writes (R23): of the descriptors those that its manifests name (R235, R268), of the v registers of
a tile instruction those that it needs or touches (R280). -/
def Instr.useAt (t : Machine.Thread) (i : Instr) : Use :=
  let u := i.use
  let named := u.reads.flatMap fun r => match r with
    | .m m => tyr ((ElemType.ofCode ((t.rm m).extractLsb' 384 6)).getD .f64)
    | _ => []
  let u := if u.reads.any (fun r => r matches .m _) then { u with reads := u.reads.filter fun r => match r with
    | .f _ => named.contains r
    | _ => true } else u
  let list := fun (l : List Res) (v : VReg) (n : Nat) => l.filter fun r => !(vlist v).contains r || ((vlist v).take n).contains r
  match i with
  | .arowi x => { u with reads := list u.reads x.a (tileRegs t x.d true) }
  | .acoli x => { u with reads := list u.reads x.a (tileRegs t x.d false) }
  | .arowo x => { u with writes := list u.writes x.d (tileRegs t x.a true) }
  | .acolo x => { u with writes := list u.writes x.d (tileRegs t x.a false) }
  | _ => u

/-- The conditions of R23 on a pair of words of a thread and the instructions they decode to. -/
def pairOk (t : Machine.Thread) (wa wb : Slot) (a b : Instr) : Bool :=
  !(a.useAt t).pairDep (b.useAt t) && !(isAccessFmt wa && isAccessFmt wb) && !isTransfer wa

end Sys2Proof
end

