-- ==== Sys2Proof/Machine/Ops.lean ====
section
/-! DEFINITION. The shared operations of the meanings: outstanding operations (R113, R116), the context (R53, R54) and the trap frame
(R362, R363), fault records (R365 to R368, R428), taking a trap (R369) and stopping (R427), fetch and the transfer check (R16 to
R22), and the return from a stop (R44, R82, R214). -/

namespace Sys2Proof.Machine

/-! ### Fields packed into bytes -/

/-- A record of fields (lowest bit, width, value) as a number. -/
def packFields (l : List (Nat × Nat × Nat)) : Nat := l.foldl (fun acc f => acc + f.2.2 % 2 ^ f.2.1 * 2 ^ f.1) 0

/-- A truth value as a bit. -/
def bitN (b : Bool) : Nat := if b then 1 else 0

/-- The bytes of a vector of bit vectors. -/
def vecBytes (n : Nat) (l : List Nat) : List Byte := l.flatMap (toBytes n)

/-- The first `n` entries of a queue, padded with zeros (R53). -/
def padQ (n : Nat) (l : List Word) : List Nat := ((l.map fun w : Word => w.toNat) ++ List.replicate n 0).take n

/-! ### Outstanding operations (R113, R116) -/

/-- A store in the core's store path (R107): it has translated, its edges are satisfied, and it waits for its sectors. -/
def Op.inPath (o : Op) : Bool :=
  o.deps.isEmpty && o.parked.isNone && o.walk.isNone && !o.ended && (match o.kind with
    | .acc a => (match a.act with
      | .store _ => a.am = .virt && !a.segs.isEmpty && a.segs.all fun x => !x.sh
      | _ => false)
    | _ => false)

/-- A store of a direct-mode thread has performed at its scope, which is the core's, as it entered the store path (R107). -/
def Thread.corePerformed (t : Thread) (o : Op) : Bool := !t.buffered && o.scope = 0 && o.inPath

/-- The operations that the edges of a mask wait for: the outstanding ones of its streams that are older than the instruction and have not
performed at their scope (R113), and the stores that loads of those streams have bound from the store path (R114). -/
def Thread.opEdges (t : Thread) (pmask : BitVec 8) (no : Nat) : List Dep :=
  ((t.ops.filter fun o => o.no ≤ no && !t.corePerformed o && (match o.stream with
    | some s => pmask.getLsbD s.toNat
    | none => false)).map fun o => .op o.id)
  ++ (t.fwds.filter fun e => pmask.getLsbD e.1.toNat).map fun e => .far e.2

/-- An operation is entered in program order (R116). -/
def Thread.addOp (t : Thread) (o : Op) : Thread := { t with ops := t.ops ++ [o], nextOp := t.nextOp + 1 }

def Thread.op? (t : Thread) (id : Nat) : Option Op := t.ops.find? fun o => o.id = id

def Thread.modOp (t : Thread) (id : Nat) (f : Op → Op) : Thread :=
  { t with ops := t.ops.map fun o => if o.id = id then f o else o }

/-- The operation completes: its count is released and the edges on it are satisfied. -/
def Thread.endOp (t : Thread) (id : Nat) : Thread :=
  { t with ops := (t.ops.filter fun o => o.id ≠ id).map fun o => { o with deps := o.deps.filter (· ≠ .op id) } }

/-- The held operations of a thread are tried again. -/
def retryEvents (c k : Nat) (t : Thread) : List Event :=
  (t.ops.filter fun o => o.deps.isEmpty && o.parked.isNone && o.walk.isNone && !o.ended && (match o.kind with
    | .acc _ => true
    | .copy x => !x.sent
    | .chan _ _ _ => true
    | .remote _ _ _ _ x | .msg _ _ x | .thread _ _ _ _ _ x => !x
    | .tensor _ | .mat _ => true
    | .res _ act => (match act with
      | .await _ => false
      | _ => true)
    | _ => false)).map fun o => .streamOperationComplete ⟨c, k, o.id⟩

/-- A slot that END or THKILL released becomes free once all counters are zero (R118); a consignment that has ended clears then (R325). -/
def State.tryFree (s : State) (c k : Nat) : State :=
  match s.thread? c k with
  | some t =>
    if !t.ending || !t.ops.isEmpty then s
    else
      match t.cons.map Consign.phase with
      | none | some .released => s.delThread c k
      | some .ended => if s.agenda.contains (.clearing ⟨c, k⟩) then s else s.push [.clearing ⟨c, k⟩]
      | some _ => s
  | none => s

/-- A store of a thread has performed: what waited for it in other threads of the core goes on (R114). -/
def State.unfar (s : State) (r : OpRef) : State :=
  s.threads.foldl (fun s e =>
    if e.2.fwds.any fun x => x.2 = r then
      let t := { e.2 with fwds := e.2.fwds.filter (fun x => x.2 ≠ r), ops := e.2.ops.map fun o => { o with deps := o.deps.filter (· ≠ .far r) } }
      (s.setThread e.1.1 e.1.2 t).push ((retryEvents e.1.1 e.1.2 t).filter fun x => !s.agenda.contains x)
    else s) s

/-- An operation of a thread in a slot completes, once it awaits no acknowledgement. -/
def State.finishHere (s : State) (c k id : Nat) : State :=
  match s.thread? c k with
  | none => s
  | some t =>
    if s.cores.any fun e => e.2.acks.any fun x => x.2.op = id then s.setThread c k (t.modOp id fun o => { o with ended := true }) else
    let t' := t.endOp id
    let s := (s.setThread c k t').push ((retryEvents c k t').filter fun e => !s.agenda.contains e)
    (s.unfar ⟨c, k, id⟩).tryFree c k

/-- The thread has an operation. -/
def Thread.owns (t : Thread) (id : Nat) : Bool := t.ops.any fun o => o.id = id

/-- A thread that has spilled, by the operation that it left outstanding (R295). -/
def State.spilledOwner (s : State) (id : Nat) : Option (Nat × (Nat × Nat × Nat) × Thread) :=
  s.parts.findSome? fun p => (p.2.spilled.find? fun e => e.2.owns id).map fun e => (p.1, e.1, e.2)

/-- What happens to a spilled thread's operation: the thread stands in the slot of its name while it happens, and goes back, unless it has
ended; the slot's occupant is untouched. -/
def State.inSpilled (s : State) (p : Nat) (key : Nat × Nat × Nat) (t : Thread) (f : Nat → Nat → State → State) : State :=
  let c := key.1
  let k := key.2.1
  let occupant := s.thread? c k
  let s := f c k ((s.modPart p fun q => { q with spilled := adel key q.spilled }).setThread c k t)
  let s := match s.thread? c k with
    | some t' => s.modPart p fun q => { q with spilled := aset key { t' with st := t.st, line := none } q.spilled }
    | none => s.modCore c fun y => { y with spilledMap := aset k ((alook k y.spilledMap).getD 0 &&& ~~~(1#64 <<< key.2.2)) y.spilledMap }
  match occupant with
  | some x => s.setThread c k x
  | none => s.delThread c k

/-- What happens to an operation, at the slot in which its thread is now: that of the reference, another one (R374), or none while the
thread is spilled (R295). -/
def State.withOp (s : State) (r : OpRef) (f : Nat → Nat → State → State) : State :=
  if (s.thread? r.core r.slot).any (·.owns r.op) then f r.core r.slot s
  else
    match s.threads.find? fun e => e.2.owns r.op with
    | some e => f e.1.1 e.1.2 s
    | none =>
      match s.spilledOwner r.op with
      | some (p, key, t) => s.inSpilled p key t f
      | none => s

/-- An operation of a thread completes; what waited for it is tried next. -/
def State.finishOp (s : State) (c k id : Nat) : State := s.withOp ⟨c, k, id⟩ fun c k s => s.finishHere c k id

/-! ### The context (R53, R54) -/

/-- The PC at which the walk stands: the lead's, unless the trail has passed the lead. -/
def Thread.walkPc (t : Thread) : Word := if t.ahead.isEmpty then t.leadPc else t.scanPc

/-- The PC of the trail pipe: that of the oldest instruction that it has not executed (R44). -/
def Thread.trailAt (t : Thread) : Word :=
  match t.trailQ with
  | e :: _ => e.pc
  | [] => t.walkPc

/-- The path between the two PCs is discarded, and both pipes stand at one PC, with no pass left (R44, R214). -/
def Thread.oneAt (t : Thread) (pc : Word) : Thread :=
  { t with leadPc := pc, trailPc := pc, trailQ := [], ahead := [], rep := { t.rep with act := false } }

/-- The word of R213. -/
def RepState.word (r : RepState) : Nat :=
  packFields [(44, 20, r.pass), (24, 20, r.npass), (18, 6, r.buf.length), (13, 5, r.idx), (8, 5, r.stride.toNat), (7, 1, bitN r.reng),
    (6, 1, bitN r.renv), (5, 1, bitN r.act), (4, 1, bitN r.valid), (3, 1, bitN r.capt)]

/-- The dword of R212. -/
def RepState.state (r : RepState) : Nat :=
  packFields [(9, 43, r.savePa / 512), (4, 1, bitN r.act), (3, 1, bitN r.valid), (2, 1, bitN r.capt)]

/-- The save area has to hold the repetition (R212). -/
def RepState.live (r : RepState) : Bool := r.act || r.valid || r.capt

/-- The 512 bytes of the save area (R212). -/
def RepState.area (r : RepState) : List Byte :=
  let body := toBytes 64 r.word ++ r.buf.flatMap fun w => toBytes 12 w.toNat
  body ++ List.replicate (512 - body.length) 0

/-- The operations that a stop leaves as descriptors (R370): parked ones, tensor instructions and passes. -/
def Op.stays (o : Op) : Bool :=
  o.parked.isSome || (match o.kind with
    | .tensor _ | .mat _ => true
    | _ => false)

/-- The repetition as a save shows it: at the oldest reissued instruction whose operation stays (R214), else where the sequencer stands. -/
def Thread.repSaved (t : Thread) : RepState :=
  match (t.ops.filter (·.stays)).findSome? (·.rep) with
  | some (pass, idx) => { t.rep with act := true, pass := pass, idx := idx }
  | none => t.rep

/-- The 4 KiB of a context (R53, R54). -/
def Thread.context (t : Thread) : List Byte :=
  vecBytes 8 (0 :: (t.g.toList.drop 1).map (·.toNat)) ++ vecBytes 64 (t.v.toList.map (·.toNat))
  ++ vecBytes 64 (t.m.toList.map (·.toNat))
  ++ ((t.q.toList.take 6).flatMap fun l => vecBytes 8 (padQ 16 l)) ++ ((t.q.toList.drop 6).flatMap fun l => vecBytes 8 (padQ 4 l))
  ++ vecBytes 4 (t.fmt.toList.map (·.toNat))
  ++ vecBytes 8 [t.leadPc.toNat, t.trailPc.toNat, (t.p ||| 1).toNat,
      packFields ((List.range 8).map fun i => (5 * i, 5, (t.q.toList.getD i []).length)), t.counters.toNat, t.rctl.toNat, t.sclamp.toNat,
      t.repSaved.state, t.tid.toNat, t.rgn.toNat, t.passb.toNat, t.trapb.toNat, t.fltq.toNat, t.ashape.toNat, t.vsave.toNat,
      t.st.code + t.tcyc.toNat % 2 ^ 32 * 2 ^ 32]

/-- The physical address of the context of a slot's thread (R53); a guest's stays in the vacated core's register space (R374). -/
def State.ctxPa (s : State) (c k : Nat) : Nat :=
  let h := (s.thread? c k).elim (c, k) (·.home c k)
  (s.core h.1).rsbase + 4096 * h.2

/-- The context is made current in register space (R55), with the repetition save area (R212). -/
def State.saveContext (s : State) (c k : Nat) : State :=
  match s.thread? c k with
  | none => s
  | some t =>
    let s := s.memPut (s.ctxPa c k) t.context
    if t.repSaved.live then s.homeWriteBytes (s.partOf c) t.rep.savePa t.repSaved.area none else s

/-! ### The frame and its descriptors (R362, R363) -/

/-- The destination register number of an operation, zero if none (R363). -/
def OpKind.dreg : OpKind → Nat
  | .acc a | .acqrWait a _ _ _ => match a.act with
    | .loadG d _ | .amo _ d _ | .cas d _ _ | .amof _ _ d _ | .watch d _ | .unwatch d _ | .watchq d _ | .acqr d _ | .relr d => d.toNat
    | .loadV d | .ladq d => d.toNat
    | .loadM d => d.toNat
    | _ => 0
  | .res d _ => d.toNat
  | .chan d _ _ => d.toNat
  | .mat m => m.view.toNat
  | _ => 0

/-- The address of a descriptor (R363). -/
def OpKind.addr : OpKind → Word
  | .acc a | .acqrWait a _ _ _ => a.ea
  | .copy x => x.ea
  | .res _ (.xres _ _ _ ea _ _) => ea
  | _ => 0

/-- PROG of a descriptor (R363). -/
def OpKind.prog : OpKind → Nat
  | .acc a => match a.act with
    | .store bs => ofBytes (bs.take 8)
    | _ => 0
  | .copy x => packFields [(0, 32, x.bytes), (32, 32, x.fpage)]
  | .tensor x => x.n
  | .mat m => packFields [(0, 20, m.row), (20, 12, m.tile), (32, 20, m.drained)]
  | _ => 0

/-- DKIND of a descriptor (R363). -/
def Op.dkind (o : Op) : Nat :=
  if o.parked.any fun p => p.cause = 0x34 then 5
  else match o.kind with
  | .copy _ => 2
  | .tensor _ => 3
  | .mat _ => 4
  | _ => 1

/-- AM of an operation. -/
def OpKind.am : OpKind → BitVec 2
  | .acc a => a.am.code
  | .copy x => x.am.code
  | _ => 0

def OpKind.size : OpKind → BitVec 4
  | .acc a => a.size
  | _ => 0

/-- The stream of an operation, of a pass whose fetch counts no longer too (R273). -/
def Op.dstream (o : Op) : BitVec 3 :=
  match o.kind with
  | .mat m => m.str
  | _ => o.stream.getD 0

/-- A descriptor (R363), with REPLAY set. -/
def Op.desc (o : Op) : List Byte :=
  toBytes 32 (packFields [(63, 1, 1), (60, 3, o.dkind), (57, 3, o.dstream.toNat), (49, 8, o.pmask.toNat), (46, 3, o.scope.toNat),
    (44, 2, o.kind.am.toNat), (40, 4, o.kind.size.toNat), (32, 8, (o.parked.elim 0 (·.cause)).toNat), (24, 8, (o.iword.extractLsb' 88 8).toNat),
    (18, 6, o.kind.dreg), (64, 64, (o.parked.elim o.kind.addr fun p => if o.dkind = 1 then o.kind.addr else p.addr).toNat),
    (128, 64, if o.dkind = 5 then 0 else o.kind.prog), (192, 64, o.pc.toNat)])

/-- The consignment state (R323). -/
def Thread.cstate (t : Thread) : Nat :=
  match t.cons with
  | none => 0
  | some c => packFields [(0, 2, c.mode.toNat), (2, 7, c.sects.length), (9, 5, c.msgs.length), (14, 1, bitN c.early), (15, 1, bitN c.demote),
      (16, 2, c.redlv.toNat), (18, 1, bitN c.spec), (19, 1, bitN c.copy), (20, 16, c.tag.toNat)]

/-- Translation causes (R80). -/
def isTrans (c : BitVec 8) : Bool := 0x10 ≤ c.toNat && c.toNat ≤ 0x15

/-- The frame of R362. -/
def frameBytes (t : Thread) (ctxpa : Nat) (i : TrapInfo) (gt : Nat) (recseq : Word) (ds : List Op) : List Byte :=
  let ackOk := (0x09 ≤ i.cause.toNat && i.cause.toNat ≤ 0x19) || i.cause = 0x34
  toBytes 256 (packFields [(0, 8, i.cause.toNat), (8, 16, i.detail.toNat), (24, 1, bitN (i.pipe == .trail)),
    (25, 3, if ackOk then i.acck.toNat else 0), (28, 3, if isTrans i.cause then i.level.toNat else 0), (32, 4, min 8 ds.length),
    (64, 64, t.leadPc.toNat), (128, 64, t.trailPc.toNat), (192, 64, i.faddr.toNat), (256, 64, ctxpa), (320, 32, t.tid.toNat),
    (384, 64, t.counters.toNat), (448, 64, t.cstate), (512, 64, gt), (576, 64, recseq.toNat), (640, 96, i.iword.toNat),
    (768, 64, t.repSaved.word), (832, 64, t.ashape.toNat), (896, 64, if i.cause = 0x08 then i.aux1.toNat else 0)])
  ++ ((ds.take 8).flatMap (·.desc)) ++ List.replicate (256 - 32 * (ds.take 8).length) 0

/-! ### Fault records (R84, R85, R365 to R368, R428) -/

/-- What becomes of a record. -/
inductive RecRes where
  | seq (i : Nat)
  | lost
  | waits
  deriving DecidableEq, Repr

/-- The control sector of a region's fault queue, judged (R367, R428): its address runs, QBASE, N, PROD and CONS. -/
structure QueueCtl where
  runs : List Run
  qbase : Nat
  n : Nat
  prod : Nat
  cons : Nat
  deriving DecidableEq, Repr

def State.queueCtl (s : State) (core region : Nat) : Option QueueCtl × State :=
  match s.region? region with
  | none => (none, s)
  | some r =>
    if r.fltq.toNat % 64 ≠ 0 then (none, s)
    else
      match s.devRuns core region r.fltq 64 .store true with
      | (none, s) => (none, s)
      | (some rs, s) =>
        let (bs, s) := rs.foldl (fun (acc : List Byte × State) x =>
          let (b, s) := acc.2.homeReadBytes r.part x.pa x.len
          (acc.1 ++ b, s)) ([], s)
        let w := ofBytes bs
        let lg := w / 2 ^ 64 % 32
        if w / 2 ^ 69 % 2 ^ 59 ≠ 0 || w / 2 ^ 257 ≠ 0 || lg < 4 || lg > 20 || w % 2 ^ 64 % (64 * 2 ^ lg) ≠ 0 then (none, s)
        else (some ⟨rs, w % 2 ^ 64, 2 ^ lg, w / 2 ^ 128 % 2 ^ 64, w / 2 ^ 192 % 2 ^ 64⟩, s)

/-- A dword of a run written at the home at an offset. -/
def State.writeDword (s : State) (p : Nat) (rs : List Run) (off v : Nat) : State :=
  match rs with
  | r :: _ => s.homeWriteBytes p (r.pa + off) (toBytes 8 v) none
  | [] => s

/-- A change of a dword of the fault line (R367, R368); a line that cannot be written is not (R428). -/
def State.modFline (s : State) (core region : Nat) (off : Nat) (f : Nat → Nat) : State :=
  match s.region? region with
  | none => s
  | some r =>
    match s.devRuns core region r.fline 64 .store false with
    | (some (x :: xs), s) =>
      let (bs, s) := s.homeReadBytes r.part (x.pa + off) 8
      if xs.isEmpty then s.writeDword r.part [x] off (f (ofBytes bs) % 2 ^ 64) else s
    | (_, s) => s

/-- A lost record is counted in LOST (R428). -/
def State.loseRec (s : State) (core region : Nat) : State := s.modFline core region 16 (· + 1)

/-- The continuation records of seven addresses each (R365). -/
def contRecs : List Nat → Nat → List (List Byte)
  | _, 0 => []
  | l, fuel + 1 =>
    if l.isEmpty then []
    else
      let a := l.take 7
      let rest := l.drop 7
      toBytes 64 (packFields ([(30, 1, 1), (31, 1, bitN !rest.isEmpty), (32, 32, a.length)] ++
        (List.range a.length).map fun i => (64 + 64 * i, 64, a.getD i 0))) :: contRecs rest fuel

/-- The ring slots of a queue from an index on, each translated and in the partition's own window (R428). -/
def State.ringSlots (s : State) (core region qbase n prod : Nat) : Nat → Option (List (List Run)) × State
  | 0 => (some [], s)
  | k + 1 =>
    match s.ringSlots core region qbase n prod k with
    | (none, s) => (none, s)
    | (some l, s) =>
      match s.devRuns core region (BitVec.ofNat 64 (qbase + 64 * ((prod + k) % n))) 64 .store false with
      | (none, s) => (none, s)
      | (some r, s) => (some (l ++ [r]), s)

/-- OVF is set as a record begins to wait for room (R367). -/
def State.setOvf (s : State) (core region : Nat) : State :=
  let p := (s.region? region).elim 0 (·.part)
  match s.queueCtl core region with
  | (some q, s) =>
    match q.runs with
    | r :: _ =>
      let (b, s) := s.homeReadBytes p (r.pa + 32) 8
      if (ofBytes b) % 2 = 1 then s else s.writeDword p q.runs 32 (ofBytes b + 1)
    | [] => s
  | (none, s) => s

/-- Places a record and its continuations in the queue (R368), or says that it waits or is lost. -/
def State.placeRec (s : State) (x : PendingRec) (core : Nat) : RecRes × State :=
  let p := (s.region? x.region).elim 0 (·.part)
  match s.queueCtl core x.region with
  | (none, s) => (.lost, s.loseRec core x.region)
  | (some q, s) =>
    let conts := contRecs x.cont x.cont.length
    let n := 1 + conts.length
    if (q.prod + 2 ^ 64 - q.cons) % 2 ^ 64 + n > q.n then (.waits, s)
    else
      match s.ringSlots core x.region q.qbase q.n q.prod n with
      | (none, s) => (.lost, s.loseRec core x.region)
      | (some slots, s) =>
        let s := s.writeDword p q.runs 16 ((q.prod + n) % 2 ^ 64)
        let head := toBytes 64 (packFields (x.fields ++ [(31, 1, bitN !conts.isEmpty), (32, 32, min x.count (2 ^ 32 - 1)), (448, 64, q.prod)]))
        let s := (slots.zip (head :: conts)).foldl (fun s e => s.writeRuns p e.1 e.2 none) s
        let s := s.modFline core x.region 0 (fun v => max v ((q.prod + 1) % 2 ^ 64))
        let s := s.modRegion x.region fun r => { r with faults := r.faults + 1 }
        (.seq q.prod, s)

/-- The merge tables of a partition after a key has been entered (R84): the keys spread over its fields by a hash, and a field's table keeps
4,096, without its oldest. -/
def Part.keepMerge (p : Part) (l : List MergeKey) (k : MergeKey) : List MergeKey :=
  if l.length ≤ 4096 then l
  else
    let n := max 1 ((p.windows.flatMap fun w => w.fields.map (·.1)).dedup.length)
    let field : MergeKey → Nat := fun x => Config.mergeField (x.region, x.cause.toNat, x.level.toNat, x.span * 2 ^ x.log) % n
    let mine := l.filter fun x => field x = field k
    match mine with
    | x :: _ => if mine.length ≤ 4096 then l else l.erase x
    | [] => l

/-- The key of a fault (R84); only translation causes merge. -/
def mergeKey (region : Nat) (cause : BitVec 8) (level : BitVec 3) (span : Nat) (addr : Word) : Option MergeKey :=
  if isTrans cause then some ⟨region, cause, level, span, addr.toNat / 2 ^ span, none, false⟩ else none

def sameKey (a b : MergeKey) : Bool := a.region = b.region && a.cause = b.cause && a.level = b.level && a.log = b.log && a.span = b.span

/-- Appends a fault record, or merges it under its key (R84, R85, R368). `w` is a thread whose trap waits for it. -/
def State.appendRec (s : State) (core region : Nat) (fields : List (Nat × Nat × Nat)) (cont : List Nat) (key : Option MergeKey)
    (w : Option (Nat × Nat)) : RecRes × State :=
  match s.region? region with
  | none => (.lost, s)
  | some r =>
    let p := r.part
    let merge := (s.part? p).elim [] (·.merge)
    let rec0 : PendingRec := ⟨region, fields, cont, key, 1, w.toList⟩
    let fresh : Unit → RecRes × State := fun _ =>
      let blocked := ((s.part? p).elim [] (·.pending)).any fun x => x.region = region
      let (res, s) := if blocked then (RecRes.waits, s) else s.placeRec rec0 core
      let s := match res with
        | .waits => ((s.setOvf core region).modPart p fun q => { q with pending := q.pending ++ [rec0] }).later1 (.queuedFaultRecordWrite ⟨region⟩)
        | _ => s
      match key, res with
      | some k, res =>
        let k' : MergeKey := match res with
          | .seq i => { k with idx := some i }
          | .lost => { k with lost := true }
          | .waits => k
        (res, s.modPart p fun q =>
          { q with merge := q.keepMerge ((q.merge.filter fun y => !sameKey k y) ++ [k']) k' })
      | none, res => (res, s)
    match key.bind fun k => merge.find? fun y => sameKey k y with
    | none => fresh ()
    | some k =>
      match k.idx with
      | none =>
        if k.lost then (.lost, s.loseRec core region) else
        let more : PendingRec → PendingRec := fun x => { x with count := x.count + 1, waits := x.waits ++ w.toList }
        let same : PendingRec → Bool := fun x => x.key.any (sameKey k)
        (.waits, s.modPart p fun q => { q with pending := q.pending.map fun x => bif same x then more x else x })
      | some i =>
        match s.queueCtl core region with
        | (none, _) => fresh ()
        | (some q, s) =>
          if q.cons > i then fresh ()
          else
            match s.devRuns core region (BitVec.ofNat 64 (q.qbase + 64 * (i % q.n))) 64 .store false with
            | (some (x :: _), s) =>
              let (b, s) := s.homeReadBytes p (x.pa + 4) 4
              (.seq i, s.homeWriteBytes p (x.pa + 4) (toBytes 4 (min (ofBytes b + 1) (2 ^ 32 - 1))) none)
            | (_, s) => (.lost, s.loseRec core region)

/-- The fields of a record that a thread reports (R365). -/
def recFields (s : State) (core : Nat) (tid : BitVec 32) (i : TrapInfo) (flost : Bool) : List (Nat × Nat × Nat) :=
  [(0, 8, i.cause.toNat), (8, 16, i.detail.toNat), (24, 3, i.acck.toNat), (27, 3, if isTrans i.cause then i.level.toNat else 0),
   (64, 64, i.faddr.toNat), (128, 32, tid.toNat), (160, 9, coreX core), (169, 9, coreY core), (178, 1, bitN flost), (192, 64, s.gt),
   (256, 64, i.pc.toNat), (320, 64, i.aux1.toNat), (384, 64, i.aux2.toNat)]

/-! ### Taking a trap (R369) and stopping (R427) -/

/-- The address of the frame's dword k (R312). -/
def frameVa (t : Thread) (off : Nat) : Word := t.trapb + BitVec.ofNat 64 off

/-- Step 5 of R369: RECSEQ stands in the frame, TRAPS counts the trap. -/
def State.endTrap (s : State) (c k : Nat) (recseq : Word) : State :=
  match s.thread? c k with
  | none => s
  | some t =>
    match t.stop with
    | none => s
    | some x =>
      if x.phase = 6 then s else
      let s := if x.frameLost then s else (s.devWrite c t.region (frameVa t 72) (toBytes 8 recseq.toNat) false).2
      let s := s.modFline c t.region 8 (· + 1)
      s.modThread c k fun t => { t with stop := t.stop.map fun x => { x with phase := 6, recseq := recseq } }

/-- The side of a core (R254). -/
def State.sideOf (s : State) (c : Nat) : Bool :=
  (s.cluster (clusterOf c)).cfg.extractLsb' 0 2 ≠ 0 && (s.cluster (clusterOf c)).cfg.getLsbD (4 + clusterIdx c)

/-- The progress word of a pass that is stopped (R259). -/
def State.recordProgress (s : State) (c : Nat) (t : Thread) : State :=
  match t.ops.find? fun o => match o.kind with
    | .mat _ => true
    | _ => false with
  | some o => s.modSide (clusterOf c) (s.sideOf c) fun x => { x with progress := BitVec.ofNat 32 o.kind.prog }
  | none => s

/-- An LMCFG of a thread that stops or ends no longer waits (R171). -/
def State.dropShrink (s : State) (c k : Nat) : State := if (s.core c).shrink.any fun x => x.2 = k then s.modCore c fun y => { y with shrink := none } else s

/-- The thread is stopped: the operations that stay become descriptors, the context is saved and the frame is written (steps 1 to 3
of R369, and R427). -/
def State.halt (s : State) (c k : Nat) (i : TrapInfo) : State :=
  match s.thread? c k with
  | none => s
  | some t =>
    let ds := t.ops.filter (·.stays)
    let s := s.recordProgress c t
    let rest : Op → Op := fun o => match o.kind with
      | .mat m => { o with kind := .mat { m with wts := none } }
      | _ => o
    let rep := if t.rep.capt && i.cause ≠ 0 then { t.rep with capt := false, valid := false } else t.rep
    let tpc := if i.cause ≠ 0 && i.pipe == .trail then i.pc else
      match t.ops.find? fun o => match o.kind with
        | .tensor _ | .mat _ => true
        | _ => false with
      | some o => o.pc
      | none => t.trailAt
    let t := { t with st := .stopped, sleep := none, trailPc := tpc, line := none, rep := rep, yielded := false, waited := false, blocked := 0,
                       ops := t.ops.map rest }
    let recseq := BitVec.allOnes 64
    let x : StopInfo := ⟨i, 4, false, recseq, ds, false, false, BitVec.ofNat 64 s.gt, t.counters, [], []⟩
    let s := (s.setThread c k { t with stop := some x }).dropShrink c k
    let s := s.saveContext c k
    let bytes := frameBytes t (s.ctxPa c k) i s.gt recseq ds
    let (ok, s) := s.devWrite c t.region t.trapb bytes false
    s.modThread c k fun t => { t with stop := t.stop.map fun x => { x with frameLost := !ok } }

/-- TAKING A TRAP (R369): the thread of a slot halts with the pipes' PCs as they stand, the frame is written at TRAPB, a record is
appended or merged, and TRAPS is incremented. `span` is the log2 of the span of a translation cause (R84); `cont` the addresses of
continuation records. -/
def State.takeTrap (s : State) (c k : Nat) (i : TrapInfo) (span : Nat) (cont : List Nat) : State :=
  match s.thread? c k with
  | none => s
  | some t =>
    let s := s.halt c k i
    let lost := ((s.thread? c k).bind (·.stop)).elim false (·.frameLost)
    match s.appendRec c t.region (recFields s c t.tid i lost) cont (mergeKey t.region i.cause i.level span i.faddr) (some (c, k)) with
    | (.seq n, s) => s.endTrap c k (BitVec.ofNat 64 n)
    | (.lost, s) => s.endTrap c k (BitVec.allOnes 64)
    | (.waits, s) => s

/-- The records of accesses that parked beside the one that the trap names (R81, R84). -/
def State.parkRecs (s : State) (c k region : Nat) (tid : BitVec 32) (l : List (TrapInfo × (Nat × List Nat))) : State :=
  l.foldl (fun s x => (s.appendRec c region (recFields s c tid x.1 false) x.2.2
    (mergeKey region x.1.cause x.1.level x.2.1 x.1.faddr) (some (c, k))).2) s

/-- Once every walk of a thread has resolved, it takes the trap of the first access that parked (R81, R361). -/
def State.trapParked (s : State) (c k : Nat) : State :=
  match s.thread? c k with
  | none => s
  | some t =>
    match t.parks with
    | [] => s
    | x :: rest =>
      if t.ops.any fun o => o.walk.isSome then s
      else ((s.setThread c k { t with parks := [] }).takeTrap c k x.1 x.2.1 x.2.2).parkRecs c k t.region t.tid rest

/-- A record that a stopped thread's accesses await has no place yet (R85). -/
def State.recDue (s : State) (c k : Nat) : Bool :=
  ((s.part? (s.partOf c)).elim [] (·.pending)).any fun x => x.waits.contains (c, k)

/-- A stop that is not a trap (R427), with its DETAIL; a thread that is already stopped keeps its frame. -/
def State.stopThread (s : State) (c k detail : Nat) : State :=
  match s.thread? c k with
  | none => s
  | some t =>
    if t.st == .stopped then s
    else
      let s := (s.setThread c k { t with parks := [] }).halt c k ⟨0, BitVec.ofNat 16 detail, .lead, 0, 0, 0, 0, 0, 0, 0⟩
      let s := s.parkRecs c k t.region t.tid t.parks
      s.modThread c k fun t => { t with stop := t.stop.map fun x => { x with phase := 6 } }

/-- The word at the PC of the executing instruction (R362). -/
def State.trapWord (s : State) : Slot := s.curT?.elim s.cur.iword fun t => t.wordAtPc s.cur.ipc s.cur.iword

/-- A precise trap of the executing instruction (R360): nothing of it takes effect, its pipe stands at it, the trap is taken. -/
def trapAt (s : State) (cause : BitVec 8) (detail : Nat) (faddr : Word) : Out :=
  let s := s.unissue
  .next (s.takeTrap s.cur.core s.cur.slot
    ⟨cause, BitVec.ofNat 16 detail, s.cur.pipe, 7, 0, faddr, s.cur.ipc, s.trapWord, 0, 0⟩ 12 [])

/-- A precise translation trap, or one with an access kind. -/
def trapAcc (s : State) (cause : BitVec 8) (acck : BitVec 3) (level span : Nat) (faddr : Word) : Out :=
  let s := s.unissue
  .next (s.takeTrap s.cur.core s.cur.slot
    ⟨cause, 0, s.cur.pipe, acck, BitVec.ofNat 3 level, faddr, s.cur.ipc, s.trapWord, 0, 0⟩ span [])

/-! ### Fetch and transfers (R16 to R23) -/

/-- Slot k of a line (R16). -/
def lineSlot (l : V512) (k : Nat) : Slot := l.extractLsb' (96 * k) 96

def lineBtm (l : V512) : BitVec 5 := l.extractLsb' 480 5
def linePair (l : V512) : BitVec 4 := l.extractLsb' 485 4

/-- The parity of the bits of a number below a width. -/
def oddOnes (n w : Nat) : Bool := (List.range w).foldl (fun acc i => acc != n.testBit i) false

/-- R18: every group, with its parity bit, holds an even number of ones. -/
def parityOk (l : V512) : Bool :=
  (List.range 8).all fun j =>
    let grp := if j = 7 then (l.extractLsb' 448 48).toNat + (l.extractLsb' 504 8).toNat * 2 ^ 48 else (l.extractLsb' (64 * j) 64).toNat
    oddOnes grp 64 == l.getLsbD (496 + j)

/-- Reserved bits of the line word are nonzero, or two adjacent PAIR bits are set (R17, R22, R23). -/
def lineBad (l : V512) : Bool :=
  l.extractLsb' 489 7 != 0 || l.extractLsb' 504 8 != 0 || (linePair l &&& (linePair l >>> 1)) != 0

/-- R21: a valid PC. -/
def pcValid (pc : Word) : Bool :=
  (pc.extractLsb' 55 9 == 0 || pc.extractLsb' 55 9 == BitVec.allOnes 9) && [0, 12, 24, 36, 48].contains (pc.toNat % 64)

/-- The slot of a PC in its line. -/
def pcSlot (pc : Word) : Nat := pc.toNat % 64 / 12

/-- The line of a PC. -/
def pcLine (pc : Word) : Word := pc &&& ~~~63#64

/-- Sequential flow (R21). -/
def nextPc (pc : Word) : Word := if pc.toNat % 64 = 48 then pc + 16 else pc + 12

/-- The slot of a PC is the second of a pair (R22). -/
def secondOfPair (l : V512) (k : Nat) : Bool := k ≠ 0 && (linePair l).getLsbD (k - 1)

/-- What fetching a line answers: the line, the cause, DETAIL, level and span of a trap (R19, R22), or that the fetch waits at a lading
(R100). -/
inductive FetchRes where
  | ok (l : V512)
  | trap (cause : BitVec 8) (detail level span : Nat)
  | busy
  deriving DecidableEq, Repr

/-- The L1 has the sector's data (R94). -/
def L1Sec.readable (x : L1Sec) : Bool :=
  match x.st with
  | .isd | .imd | .ild => false
  | _ => true

/-- The core's copy of a sector is discarded, with nothing written back (R19). -/
def State.discardCopy (s : State) (p c sec : Nat) : State :=
  match s.l1 c sec with
  | some x =>
    if !x.readable || x.leaves then s
    else
      (s.delL1 c sec).modEntry p (sec / 4) fun e =>
        let h := e.sec (sec % 4)
        let ptrs := (e.ptrs.map fun y => if y.1 = c then (c, y.2 &&& ~~~(1#4 <<< (sec % 4))) else y).filter fun y => y.2 ≠ 0
        { e.setSec (sec % 4) { h with st := if (x.st == .m || x.st == .e) && h.txn.isNone then .u else h.st } with ptrs := ptrs }
  | none => s

/-- How a fetch of a slot finds the sector of its line: under the slot's own lading, at a lading that another holds (R100), at a home that it has
to wait for (R93), or free to read. -/
inductive FetchAt where
  | free
  | mine
  | lading (i : Nat)
  | held
  deriving DecidableEq, Repr

/-- The place of a line for a fetch; a copy that the L1 has is read there. -/
def State.fetchAt (s : State) (c k sec : Nat) : FetchAt :=
  let p := s.partOf c
  let home : FetchAt := match s.l1 c sec with
    | some x => if x.readable && x.st != .l then .free else .held
    | none => if s.grantable p c sec then .free else .held
  match (s.lading? p (64 * sec)).filter fun e => !e.2.clear with
  | some (i, l) => if l.st == .held && l.core = c && l.slot = k && (s.thread? c k).any fun t => t.tid = l.tid then .mine else .lading i
  | none => home

/-- A line as the fetch path receives it (R20): from the L1, which a miss fills; under the slot's own lading the home records no holder (R100). A
sector that is poisoned gives the bytes that it holds: R361 and R411 name no fetch among what an uncorrectable error stops (DESIGN CHOICE,
assumption 47). -/
def State.readLine (s : State) (c sec : Nat) (sh own : Bool) : V512 × State :=
  if sh then (memSector s.mem (64 * sec), s)
  else
    match s.l1 c sec with
    | some x => (x.data, s)
    | none =>
      let s := if own then s else s.grantRead (s.partOf c) c sec
      ((s.l1 c sec).elim (memSector s.mem (64 * sec)) (·.data), s)

/-- The control sector of a partition's error queue (R414). -/
def errCtlPa (p : Part) : Nat := p.privBase + 2 ^ 22 + 2 ^ 16

/-- A corrected event of a kind counts (R410, R414). -/
def State.corr (s : State) (p kind : Nat) : State :=
  match s.part? p with
  | none => s
  | some q =>
    let a := errCtlPa q + 36 + 4 * (kind - 1)
    let (bs, s) := s.homeReadBytes p a 4
    s.homeWriteBytes p a (toBytes 4 (min (ofBytes bs + 1) (2 ^ 32 - 1))) none

/-- A line is read through L1 and the home (R20) for a slot and checked against its parity. At a mismatch the core's copies are discarded and the
line is fetched and checked once more (R19). -/
def State.fetchLine (s : State) (c k region : Nat) (pc : Word) : FetchRes × State :=
  match s.translateR c region (pcLine pc) .fetch with
  | (.fault f, s) => (.trap f.cause 0 f.level f.span, s)
  | (.ok pa sh _, s) =>
    let sec := pa / 64
    match (if sh then .free else s.fetchAt c k sec) with
    | .lading i => (.busy, s.ladWait (s.partOf c) i (some (c, k)))
    | .held => (.busy, s)
    | see =>
      let (l, s) := s.readLine c sec sh (see == .mine)
      if parityOk l then (.ok l, s)
      else
        let s := if sh || see == .mine then s else s.discardCopy (s.partOf c) c sec
        if !sh && see != .mine && s.fetchAt c k sec != .free then (.busy, s) else
        let (l, s) := s.readLine c sec sh (see == .mine)
        if parityOk l then (.ok l, (s.modCore c fun x => { x with corrected := x.corrected + 1 }).corr (s.partOf c) 1)
        else (.trap 0x03 0 0 12, s)

/-- The check of a transfer against its target (R22). -/
def State.checkTarget (s : State) (c k region : Nat) (pc : Word) : FetchRes × State :=
  if !pcValid pc then (.trap 0x02 0 0 12, s)
  else
    match s.fetchLine c k region pc with
    | (.ok l, s) =>
      if lineBad l then (.trap 0x01 7 0 12, s)
      else if !(lineBtm l).getLsbD (pcSlot pc) || secondOfPair l (pcSlot pc) then (.trap 0x04 0 0 12, s)
      else (.ok l, s)
    | r => r

/-- The word that a trap of a transfer reports: none for the causes of R362 that leave INSTR zero. -/
def transferWord (cause : BitVec 8) (w : Slot) : Slot := if cause = 0x01 then w else 0

/-- The instruction at a PC, as a frame reports it; zero when it cannot be fetched. -/
def State.wordAt (s : State) (c k region : Nat) (pc : Word) : Slot × State :=
  match s.fetchLine c k region pc with
  | (.ok l, s) => (lineSlot l (pcSlot pc), s)
  | (_, s) => (0, s)

/-- INSTR of a trap at a target or at sequential entry into a line (R362): the instruction there where the line came but is malformed, else zero. -/
def State.entryWord (s : State) (c k region : Nat) (pc : Word) (cause : BitVec 8) : Slot := if cause = 0x01 then (s.wordAt c k region pc).1 else 0

/-- A taken transfer of the executing instruction (R22): `link` and `done` apply with the lead PC at the target, or the trap with the target's
PC is taken in the state before the transfer, `link` alone applied. A target that has to be waited for leaves everything as it was. -/
def transferLink (s : State) (pc : Word) (link done : Thread → Thread) : Out :=
  withT s fun t =>
    match s.checkTarget s.cur.core s.cur.slot t.region pc with
    | (.ok l, s) => .next (s.modCur fun t => done { link t with leadPc := pc, line := some (pcLine pc, l) })
    | (.busy, s) => wait s
    | (.trap cause detail level span, s) =>
      let s := (s.modCur link).unissue
      .next (s.takeTrap s.cur.core s.cur.slot
        ⟨cause, BitVec.ofNat 16 detail, s.cur.pipe, if isTrans cause then 3 else 7, BitVec.ofNat 3 level, pc, s.cur.ipc,
          transferWord cause s.cur.iword, 0, 0⟩ span [])

/-- A taken transfer without a link. -/
def transferTo (s : State) (pc : Word) (done : Thread → Thread) : Out := transferLink s pc id done

/-! ### The return from a stop (R44, R82, R214, R364) -/

/-- Whether the REPLAY bits of a stopped thread's descriptors are set: read from the frame, or all set when it was lost (R364). -/
def State.replayBits (s : State) (c : Nat) (t : Thread) (x : StopInfo) : List Bool × State :=
  if x.frameLost then (x.ops.map fun _ => true, s)
  else
    match s.devRead c t.region (frameVa t 256) 256 with
    | (some bs, s) => ((List.range x.ops.length).map fun i => 8 ≤ i || (memByteOf bs (32 * i + 7)).getLsbD 7, s)
    | (none, s) => (x.ops.map fun _ => true, s)
where
  memByteOf (l : List Byte) (i : Nat) : Byte := l.getD i 0

/-- The repetition state read back from its save area (R212, R215), or the subcode of the trap. -/
def repRestore (r : RepState) (bs : List Byte) : Except (BitVec 8 × Nat) RepState :=
  let w := ofBytes (bs.take 8)
  let len := w / 2 ^ 18 % 64
  let idx := w / 2 ^ 13 % 32
  let act := w.testBit 5
  let pass := w / 2 ^ 44 % 2 ^ 20
  let npass := w / 2 ^ 24 % 2 ^ 20
  if w % 8 ≠ 0 || len > 32 || (act && idx ≥ len) || pass > npass then .error (0x25, 6)
  else
    let buf := (List.range len).map fun i => BitVec.ofNat 96 (ofBytes ((bs.drop (64 + 12 * i)).take 12))
    match (buf.filterMap fun w => match decode w with
        | .error e => some e.subcode
        | .ok i => if i.steer = .lead then some 6 else none).head? with
    | some n => .error (0x01, n)
    | none => .ok ⟨r.savePa, act, w.testBit 4, w.testBit 3, pass, npass, idx, BitVec.ofNat 5 (w / 2 ^ 8), w.testBit 7, w.testBit 6, buf, r.run⟩

/-- The device reads the save area back, and decodes each slot again (R212). Where the area names the instruction of an operation that stays,
that operation is its execution (R214), and the sequencer goes on where it stood. -/
def State.readRep (s : State) (c : Nat) (t : Thread) : Except (BitVec 8 × Nat) RepState × State :=
  let saved := t.repSaved
  if saved.live then
    let (bs, s) := s.homeReadBytes (s.partOf c) saved.savePa 512
    ((repRestore saved bs).map fun r => if r.act && r.pass = saved.pass && r.idx = saved.idx then
      { r with act := t.rep.act, pass := t.rep.pass, idx := t.rep.idx } else r, s)
  else (.ok t.rep, s)

/-- A trap of the resumption itself: of the repetition at the REPRUN (R215), else at the one PC, as a transfer (R22). -/
def State.resumeTrap (s : State) (c k : Nat) (t : Thread) (cause : BitVec 8) (sub : Nat) : State :=
  let r := t.rep.run.getD (t.trailAt, 0)
  (s.setThread c k t).takeTrap c k ⟨cause, BitVec.ofNat 16 sub, .trail, 7, 0, 0, r.1, r.2, 0, 0⟩ 12 []

/-- At a resumption the parked operations with REPLAY set are issued again and the others are dropped; an ACQR that a switch withdrew
is issued again (R82, R370). -/
def State.replayOps (s : State) (c : Nat) (t : Thread) (x : StopInfo) : Thread × State :=
  let (bits, s) := s.replayBits c t x
  let dropped := ((x.ops.zip bits).filter fun e => !e.2).flatMap fun e => match e.1.kind with
    | .mat m => e.1.id :: m.dop.toList
    | _ => [e.1.id]
  let t := dropped.foldl (fun t i => t.endOp i) t
  let clear : Op → Op := fun o => { o with parked := none, kind := match o.kind with
    | .acc a => .acc { a with segs := [] }
    | .copy y => .copy { y with sent := false }
    | y => y }
  let held : Op → Bool := fun o => o.parked.isSome || (x.ops.map (·.id)).contains o.id
  let t : Thread := { t with ops := t.ops.map fun (o : Op) => if held o then clear o else o }
  let reissue : Thread → Op → Thread := fun t o => t.addOp { o with id := t.nextOp, no := t.issued, deps := t.opEdges o.pmask t.issued }
  (x.again.foldl reissue t, s)

/-- The stopped thread of a slot runs again (R44, R82, R214, R311); a PC that THWR rewrote makes both pipes start at one PC as a
transfer. -/
def State.resume (s : State) (c k : Nat) : State :=
  match s.thread? c k with
  | none => s
  | some t0 =>
    match t0.stop with
    | none => s
    | some x =>
      let (t, s) := s.replayOps c t0 x
      let t := { t with st := .running, stop := none, line := none }
      match s.readRep c t0 with
      | (.error (cause, sub), s) => s.resumeTrap c k t cause sub
      | (.ok rep, s) =>
        if x.pcWritten then
          let pc := if x.leadWritten then t.leadPc else t.trailPc
          let t := { t with rep := rep }.oneAt pc
          match s.checkTarget c k t.region pc with
          | (.ok l, s) => (s.setThread c k { t with line := some (pcLine pc, l) }).push (retryEvents c k t)
          | (.busy, s) => (s.setThread c k { t with jump := true }).push (retryEvents c k t)
          | (.trap cause d lv span, s) =>
            (s.setThread c k t).takeTrap c k
              ⟨cause, BitVec.ofNat 16 d, .lead, if isTrans cause then 3 else 7, BitVec.ofNat 3 lv, pc, pc, s.entryWord c k t.region pc cause, 0, 0⟩ span []
        else (s.setThread c k { t with rep := rep }).push (retryEvents c k t)

end Sys2Proof.Machine
end

