-- ==== Sys2Proof/Machine/Operands.lean ====
section
/-! DEFINITION. What a thread's instructions wait for: outstanding operations and instructions of the other pipe (R41), the edges of a mask
(R113), the pairs of R23. -/

namespace Sys2Proof.Machine

/-- The registers that an outstanding operation has still to write, and what waits for it. -/
def OpKind.use : OpKind → Use
  | .acc a | .acqrWait a _ _ _ => match a.act with
    | .loadG d _ | .amo _ d _ | .cas d _ _ | .amof _ _ d _ | .watch d _ | .unwatch d _ | .watchq d _ | .acqr d _ | .relr d => ⟨[], gr d⟩
    | .loadV d | .ladq d => ⟨[], [.v d]⟩
    | .loadM d => ⟨[], [.m d]⟩
    | _ => ⟨[], []⟩
  | .res d act => match act with
    | .xres .. | .revoke _ _ => ⟨[], gr d ++ [.eng]⟩
    | _ => ⟨[], []⟩
  | .chan d _ _ => ⟨[], gr d⟩
  | .thread d c _ _ _ _ => ⟨[], gr d ++ c.elim [] pr⟩
  | .tensor _ => ⟨[.flags, .all], []⟩
  | .mat m => ⟨[.all, .exec], [.a m.view, .ashape, .eng]⟩
  | _ => ⟨[], []⟩

/-- What the repetition buffer has still to issue: the rest of this pass, then each later pass; the fields of passes 64 apart agree. -/
def RepState.pending (r : RepState) : List Instr :=
  let pass := fun (p i : Nat) => ((r.buf.drop i).filterMap fun w => (decode w).toOption).map fun x => x.rename (passRen r p)
  if r.pass < r.npass then
    pass r.pass r.idx ++ ((List.range (min 64 (r.npass - r.pass - 1))).flatMap fun k => pass (r.pass + 1 + k) 0)
  else []

/-- The instructions that an entry of the stream still stands for. -/
def Thread.instrsOf (t : Thread) (e : TrailEntry) : List Instr := if e.rep then t.rep.pending else [e.instr]

/-- The instructions of the stream that their pipe has not executed: the trail's, and those that the lead waits at (R44). -/
def Thread.queued (t : Thread) : List TrailEntry := t.trailQ ++ t.ahead

/-- An entry will count in a stream of a mask. -/
def Thread.entryCounts (t : Thread) (pmask : BitVec 8) (e : TrailEntry) : Bool :=
  (t.instrsOf e).any fun i => i.counts && i.str?.any fun x => pmask.getLsbD x.stream.toNat

/-- A trail instruction that has not executed will count in a stream of a mask. -/
def Thread.trailCounts (t : Thread) (pmask : BitVec 8) : Bool := t.trailQ.any fun e => t.entryCounts pmask e

/-- What the edges of a mask wait for: the outstanding operations of its streams that are older than the instruction, and the older
instructions that have not executed and count in one of them (R113, R41). -/
def Thread.edges (t : Thread) (pmask : BitVec 8) (no : Nat) : List Dep :=
  t.opEdges pmask no ++ (t.queued.filter fun e => decide (e.no < no) && t.entryCounts pmask e).map fun e => .instr e.no

/-- The older instructions of the other pipe that have not executed. -/
def Thread.olderOther (t : Thread) (pipe : Pipe) (no : Nat) : List TrailEntry :=
  (match pipe with
    | .lead => t.trailQ
    | .trail => t.ahead).filter fun e => e.no < no

/-- A use waits for an older instruction (R41): for an operation that has still to write, or for the other pipe. -/
def Thread.useWaits (t : Thread) (pipe : Pipe) (u : Use) (no : Nat) : Bool :=
  (t.ops.any fun o => o.no ≤ no && u.waitsFor o.kind.use)
    || (t.olderOther pipe no).any fun e => (t.instrsOf e).any fun i => u.waitsFor i.use

/-- An instruction that every older instruction of the trail precedes: END (R303), and MFS of RCTL (R49). -/
def waitsForTrail : Instr → Bool
  | .end_ _ => true
  | .mfs x => x.r == .rctl
  | _ => false

/-- A word makes accesses in its pipe, of which the bytes are not known before it executes (R41, R111). -/
def touches (w : Slot) : Bool := [2, 5, 6, 7].contains (slotFmt w)

/-- An instruction at a place of the stream waits under R41. One whose guard is false has no effect (R25), and waits for its guard only. -/
def Thread.hazard (t : Thread) (pipe : Pipe) (w : Slot) (i : Instr) (no : Nat) : Bool :=
  let g := (headOf w).g
  t.useWaits pipe ⟨pr g.p, []⟩ no
    || (t.guard g && (t.useWaits pipe i.use no
      || (waitsForTrail i && !(t.olderOther pipe no).isEmpty)
      || (pipe == .trail && touches w && (t.olderOther .trail no).any fun e => touches e.iword)))

/-- The second slot of a pair stands until the first has executed (R23). -/
def Thread.coupled (t : Thread) (pipe : Pipe) (no : Nat) (pair : Bool) : Bool := pair && (t.olderOther pipe no).any fun e => e.no + 1 = no

end Sys2Proof.Machine
end

