-- ==== Sys2Proof/Machine/Flags.lean ====
section
/-! DEFINITION. RCTL: the sticky flags of R49 and R180, the rounding modes of R36 and R179, and the conditions of R37. -/

namespace Sys2Proof.Machine

/-- Flags in the order of RCTL bits 20:16: NV, DZ, OF, UF, NX from bit 0 (R49). -/
abbrev Fl := BitVec 5

def flNV : Fl := 1
def flDZ : Fl := 2
def flOF : Fl := 4
def flUF : Fl := 8
def flNX : Fl := 16

/-- The five rounding modes of R179. -/
inductive Round where
  | rne | rz | rdn | rup | rna
  deriving DecidableEq, Repr

/-- The mode of RCTL.RM (R49), codes 1 to 5 of R36; the register never holds another code. -/
def rctlRound (rctl : Word) : Round :=
  match (rctl.extractLsb' 0 4).toNat with
  | 2 => .rz
  | 3 => .rdn
  | 4 => .rup
  | 5 => .rna
  | _ => .rne

/-- The mode that an RM field selects (R36). -/
def Thread.round (t : Thread) : Rm → Round
  | .rctl => rctlRound t.rctl
  | .rne => .rne
  | .rz => .rz
  | .rdn => .rdn
  | .rup => .rup
  | .rna => .rna

/-- Flags are ORed into RCTL (R181). -/
def Thread.orFlags (t : Thread) (f : Fl) : Thread := { t with rctl := t.rctl ||| (f.setWidth 64 <<< 16) }

/-- A write of RCTL (R49): flag bits clear where a one is written; an RM outside 1 to 5 leaves RM. -/
def rctlWrite (old v : Word) : Word :=
  let flags := old.extractLsb' 16 5 &&& ~~~(v.extractLsb' 16 5)
  let rm := (v.extractLsb' 0 4).toNat
  let rm' := if 1 ≤ rm && rm ≤ 5 then v.extractLsb' 0 4 else old.extractLsb' 0 4
  (flags.setWidth 64 <<< 16) ||| rm'.setWidth 64

/-- A write of SCLAMP (R52). -/
def sclampWrite (v : Word) : Word := v &&& 0xFFFFFFFF#64

/-- The integer conditions of R37 at a width. -/
def icond {w : Nat} (c : ICond) (a b : BitVec w) : Bool :=
  match c with
  | .eq => a == b
  | .ne => a != b
  | .lt => a.slt b
  | .ge => !a.slt b
  | .ltu => a.ult b
  | .geu => !a.ult b

end Sys2Proof.Machine
end

