-- ==== Sys2Proof/Machine/Formats.lean ====
section
/-! DEFINITION. The number formats of R172 to R178, exact values, rounding and delivery (R179 to R187). A code is a natural number
below 2 to the width of its format. -/

namespace Sys2Proof.Machine

/-- A floating format (R172, R174): sign, exponent bits, mantissa bits, bias and SPEC; `wide` is FP32 and FP64, which keep gradual
underflow (R182). -/
structure FFmt where
  sgn : Bool
  e : Nat
  m : Nat
  bias : Nat
  spec : Nat
  wide : Bool
  deriving DecidableEq, Repr

/-- What a TYPE names: a floating format, UE8M0, a two's complement width, or LUT4 (R35, R177). -/
inductive NumFmt where
  | flt (f : FFmt)
  | ue8m0
  | int (w : Nat)
  | lut4
  deriving DecidableEq, Repr

def fp64 : FFmt := ⟨true, 11, 52, 1023, 1, true⟩
def fp32 : FFmt := ⟨true, 8, 23, 127, 1, true⟩
def fp16 : FFmt := ⟨true, 5, 10, 15, 1, false⟩
def bf16 : FFmt := ⟨true, 8, 7, 127, 1, false⟩
def fE4M3 : FFmt := ⟨true, 4, 3, 7, 2, false⟩
def fE5M2 : FFmt := ⟨true, 5, 2, 15, 1, false⟩
def fE3M2 : FFmt := ⟨true, 3, 2, 3, 0, false⟩
def fE2M3 : FFmt := ⟨true, 2, 3, 1, 0, false⟩
def fE2M1 : FFmt := ⟨true, 2, 1, 1, 0, false⟩

/-- The width S + E + M. -/
def FFmt.width (f : FFmt) : Nat := (if f.sgn then 1 else 0) + f.e + f.m

/-- emin = 1 - B. -/
def FFmt.emin (f : FFmt) : Int := 1 - (f.bias : Int)

/-- The magnitude code of the largest finite value (R172, R174). -/
def FFmt.maxMag (f : FFmt) : Nat :=
  match f.spec with
  | 0 => 2 ^ (f.e + f.m) - 1
  | 1 => (2 ^ f.e - 1) * 2 ^ f.m - 1
  | _ => 2 ^ (f.e + f.m) - 2

/-- The canonical NaN; zero in a format that has none. -/
def FFmt.nan (f : FFmt) : Nat :=
  match f.spec with
  | 0 => 0
  | 1 => (2 ^ f.e - 1) * 2 ^ f.m + 2 ^ (f.m - 1)
  | _ => 2 ^ (f.e + f.m) - 1

/-- The sign bit of a code. -/
def FFmt.signBit (f : FFmt) (s : Bool) : Nat := if f.sgn && s then 2 ^ (f.e + f.m) else 0

/-- The code of a signed infinity. -/
def FFmt.inf (f : FFmt) (s : Bool) : Nat := f.signBit s + (2 ^ f.e - 1) * 2 ^ f.m

/-- The largest finite value of a sign. -/
def FFmt.maxCode (f : FFmt) (s : Bool) : Nat := f.signBit s + f.maxMag

/-! ### Descriptors (R174, R175) -/

/-- The format of a descriptor word. -/
def descFmt (d : BitVec 32) : FFmt :=
  ⟨d.getLsbD 8, (d.extractLsb' 4 4).toNat, (d.extractLsb' 0 4).toNat, (d.extractLsb' 24 8).toNat, (d.extractLsb' 16 2).toNat, false⟩

/-- The smallest nonzero magnitude code of a format is 1; its value is at least 2^-149 and the largest finite value is below 2^128. -/
def descRange (f : FFmt) : Bool :=
  let mx := f.maxMag
  let top : Int := if mx / 2 ^ f.m = 0 then f.emin - 1 else (mx / 2 ^ f.m : Nat) - (f.bias : Int)
  let low : Int := if f.m = 0 then f.emin else f.emin - f.m
  top < 128 && -149 ≤ low

/-- R175. -/
def descValid (d : BitVec 32) : Bool :=
  let f := descFmt d
  let w := f.width
  1 ≤ f.e && f.e ≤ 8 && f.m ≤ 7 && 3 ≤ w && w ≤ 8 && f.spec ≤ 2 && (f.spec != 1 || (1 ≤ f.m && 2 ≤ f.e)) &&
  d.extractLsb' 18 6 == 0 && d.extractLsb' 9 7 == 0 && descRange f

/-- The format that a type names, with the descriptors in force; none for an invalid descriptor (R175). -/
def numFmt (fmt : FReg → BitVec 32) : ElemType → Option NumFmt
  | .f64 => some (.flt fp64)
  | .f32 => some (.flt fp32)
  | .f16 => some (.flt fp16)
  | .bf16 => some (.flt bf16)
  | .e4m3 => some (.flt fE4M3)
  | .e5m2 => some (.flt fE5M2)
  | .e3m2 => some (.flt fE3M2)
  | .e2m3 => some (.flt fE2M3)
  | .e2m1 => some (.flt fE2M1)
  | .ue8m0 => some .ue8m0
  | .i64 => some (.int 64)
  | .i32 => some (.int 32)
  | .i16 => some (.int 16)
  | .i8 => some (.int 8)
  | .i4 => some (.int 4)
  | .lut4 => some .lut4
  | .fmt n => if descValid (fmt n) then some (.flt (descFmt (fmt n))) else none

/-- The width of a code. -/
def NumFmt.width : NumFmt → Nat
  | .flt f => f.width
  | .ue8m0 => 8
  | .int w => w
  | .lut4 => 4

/-- The memory container of an element (R173, R174). -/
def NumFmt.container (n : NumFmt) : Nat :=
  let w := n.width
  if w ≤ 4 then 4 else if w ≤ 6 then 6 else if w ≤ 8 then 8 else if w ≤ 16 then 16 else if w ≤ 32 then 32 else 64

/-- The lane of an element in a v register (R216). -/
def NumFmt.lane (n : NumFmt) : Nat :=
  let w := n.width
  if w ≤ 4 then 4 else if w ≤ 8 then 8 else if w ≤ 16 then 16 else if w ≤ 32 then 32 else 64

/-! ### Exact values -/

/-- A value: NaN, a signed infinity, or (-1)^s · m · 2^e, a zero when m = 0. -/
inductive Val where
  | nan
  | inf (s : Bool)
  | fin (s : Bool) (m : Nat) (e : Int)
  deriving DecidableEq, Repr

/-- The value of a code (R172), subnormals as themselves. -/
def FFmt.value (f : FFmt) (code : Nat) : Val :=
  let s := f.sgn && code.testBit (f.e + f.m)
  let mag := code % 2 ^ (f.e + f.m)
  let ef := mag / 2 ^ f.m
  let fr := mag % 2 ^ f.m
  if f.spec = 1 && ef = 2 ^ f.e - 1 then (if fr = 0 then .inf s else .nan)
  else if f.spec = 2 && mag = 2 ^ (f.e + f.m) - 1 then .nan
  else if ef = 0 then .fin s fr (f.emin - f.m)
  else .fin s (2 ^ f.m + fr) (ef - (f.bias : Int) - f.m)

/-- A code is subnormal (R172). -/
def FFmt.isSub (f : FFmt) (code : Nat) : Bool :=
  let mag := code % 2 ^ (f.e + f.m)
  mag / 2 ^ f.m = 0 && mag % 2 ^ f.m ≠ 0

/-- The value of an operand, after the input flush of R182. -/
def FFmt.read (f : FFmt) (code : Nat) : Val :=
  if !f.wide && f.isSub code then .fin (f.sgn && code.testBit (f.e + f.m)) 0 0 else f.value code

/-- The signed reading of a code at a width. -/
def sextN (w code : Nat) : Int := if code % 2 ^ w < 2 ^ (w - 1) then (code % 2 ^ w : Nat) else (code % 2 ^ w : Nat) - (2 ^ w : Nat)

/-- An integer as a code of a width. -/
def wrapN (w : Nat) (x : Int) : Nat := (x % (2 ^ w : Nat)).toNat

/-- An integer as a value. -/
def Val.ofInt (x : Int) : Val := .fin (x < 0) x.natAbs 0

/-- The value of a UE8M0 code. -/
def ue8m0Value (code : Nat) : Val := if code % 256 = 255 then .nan else .fin false 1 (code % 256 - 127)

/-- The value of an element; LUT4 codes have been looked up before. -/
def NumFmt.read (n : NumFmt) (code : Nat) : Val :=
  match n with
  | .flt f => f.read code
  | .ue8m0 => ue8m0Value code
  | .int w => .ofInt (sextN w code)
  | .lut4 => .ofInt (sextN 8 code)

/-- T[c] of R177. -/
def lutRead (lut : List Byte) (c : Nat) : Nat := (lut.getD (c % 16) 0).toNat

def Val.neg : Val → Val
  | .nan => .nan
  | .inf s => .inf !s
  | .fin s m e => .fin (!s) m e

def Val.isNan : Val → Bool
  | .nan => true
  | _ => false

def Val.isInf : Val → Bool
  | .inf _ => true
  | _ => false

def Val.isZero : Val → Bool
  | .fin _ 0 _ => true
  | _ => false

def Val.sign : Val → Bool
  | .nan => false
  | .inf s => s
  | .fin s _ _ => s

/-- Signed magnitude at a common exponent. -/
def signedAt (s : Bool) (m : Nat) (e q : Int) : Int :=
  let x : Int := (m * 2 ^ (e - q).toNat : Nat)
  if s then -x else x

/-- The exact sum of two finite values; an exact zero takes the sign that R201 gives it. -/
def addFin (rm : Round) (s1 : Bool) (m1 : Nat) (e1 : Int) (s2 : Bool) (m2 : Nat) (e2 : Int) : Val :=
  if m1 = 0 && m2 = 0 then .fin (if s1 = s2 then s1 else rm == .rdn) 0 0
  else if m1 = 0 then .fin s2 m2 e2
  else if m2 = 0 then .fin s1 m1 e1
  else
    let q := min e1 e2
    let x := signedAt s1 m1 e1 q + signedAt s2 m2 e2 q
    if x = 0 then .fin (rm == .rdn) 0 0 else .fin (x < 0) x.natAbs q

/-- The exact sum; Inf - Inf is NaN. -/
def Val.add (rm : Round) : Val → Val → Val
  | .nan, _ | _, .nan => .nan
  | .inf a, .inf b => if a = b then .inf a else .nan
  | .inf a, _ => .inf a
  | _, .inf b => .inf b
  | .fin s1 m1 e1, .fin s2 m2 e2 => addFin rm s1 m1 e1 s2 m2 e2

/-- The exact product; 0 · Inf is NaN, and a zero is signed by the XOR of the signs (R201). -/
def Val.mul : Val → Val → Val
  | .nan, _ | _, .nan => .nan
  | .inf a, .inf b => .inf (a != b)
  | .inf a, .fin s m _ => if m = 0 then .nan else .inf (a != s)
  | .fin s m _, .inf b => if m = 0 then .nan else .inf (s != b)
  | .fin s1 m1 e1, .fin s2 m2 e2 => if m1 = 0 || m2 = 0 then .fin (s1 != s2) 0 0 else .fin (s1 != s2) (m1 * m2) (e1 + e2)

/-- The order of two values; none when one is NaN. Zeros are equal (R37, R202). -/
def Val.cmp : Val → Val → Option Ordering
  | .nan, _ | _, .nan => none
  | .inf a, .inf b => some (if a = b then .eq else if a then .lt else .gt)
  | .inf a, .fin .. => some (if a then .lt else .gt)
  | .fin .., .inf b => some (if b then .gt else .lt)
  | .fin s1 m1 e1, .fin s2 m2 e2 =>
    let q := min e1 e2
    some (compare (signedAt s1 m1 e1 q) (signedAt s2 m2 e2 q))

/-- Minimum and maximum (R183, R140): a NaN gives the other operand, and -0 is less than +0. -/
def Val.minmax (big : Bool) (a b : Val) : Val :=
  match a.cmp b with
  | none => if a.isNan then b else a
  | some .eq => if big then (if a.sign then b else a) else (if a.sign then a else b)
  | some .lt => if big then b else a
  | some .gt => if big then a else b

/-! ### Rounding (R179) -/

/-- m · 2^e (with a sticky remainder below the last bit when `st`) to a multiple of 2^q: the multiple, and whether it differs. A tie goes to the
even multiple; so in a format without mantissa bits, whose neighbours have no field that is even, the larger power of two is taken (R179; DESIGN
CHOICE, assumption 47). -/
def roundAt (rm : Round) (s : Bool) (m : Nat) (e : Int) (st : Bool) (q : Int) : Nat × Bool :=
  if q ≤ e then (m * 2 ^ (e - q).toNat + (if st && (match rm with | .rdn => s | .rup => !s | _ => false) then 1 else 0), st)
  else
    let d := (q - e).toNat
    let n := m / 2 ^ d
    let r := 2 * (m % 2 ^ d) + (if st then 1 else 0)
    let half := 2 ^ d
    let up := match rm with
      | .rne => half < r || (r = half && n % 2 = 1)
      | .rz => false
      | .rdn => s && r ≠ 0
      | .rup => !s && r ≠ 0
      | .rna => half ≤ r
    (if up then n + 1 else n, r ≠ 0)

/-- floor(log2 (m · 2^e)) of a nonzero magnitude. -/
def topBit (m : Nat) (e : Int) : Int := (Nat.log2 m : Nat) + e

/-- The overflow row of R186. -/
def overflow (f : FFmt) (rm : Round) (sat s : Bool) : Nat :=
  match f.spec, sat with
  | 1, false => match rm with
    | .rne | .rna => f.inf s
    | .rz => f.maxCode s
    | .rdn => if s then f.inf s else f.maxCode s
    | .rup => if s then f.maxCode s else f.inf s
  | 2, false => f.nan
  | _, _ => f.maxCode s

/-- A finite value delivered in a format (R180, R182, R185). `conv` tells a conversion, whose tiny results set UF by R185. -/
def deliverFin (f : FFmt) (rm : Round) (sat conv s : Bool) (m : Nat) (e : Int) (st : Bool) : Nat × Fl :=
  if m = 0 && !st then (f.signBit s, 0)
  else if !f.sgn && s then (0, flNV)
  else
    let top := topBit m e
    let qn := top - f.m
    let (n, inx) := roundAt rm s m e st qn
    let top' := if 2 ^ (f.m + 1) ≤ n then top + 1 else top
    if f.wide && top < f.emin then
      let q := f.emin - f.m
      let (n', inx') := roundAt rm s m e st q
      (f.signBit s + n', if inx' then (if conv || top' < f.emin then flUF ||| flNX else flNX) else 0)
    else if top' < f.emin then (f.signBit s, flUF ||| flNX)
    else
      let mag : Int := (qn + f.m + f.bias - 1) * (2 ^ f.m : Nat) + n
      if (f.maxMag : Int) < mag then (overflow f rm sat s, flOF ||| flNX)
      else (f.signBit s + mag.toNat, if inx then flNX else 0)

/-- A value delivered in a floating format (R183, R185, R186). -/
def FFmt.deliver (f : FFmt) (rm : Round) (sat conv : Bool) : Val → Nat × Fl
  | .nan => if f.spec = 0 then (0, flNV) else (f.nan, 0)
  | .inf s =>
    if !f.sgn && s then (0, flNV)
    else match f.spec, sat with
      | 1, false => (f.inf s, 0)
      | 2, false => (f.nan, flNV)
      | _, _ => (f.maxCode s, flNV)
  | .fin s m e => deliverFin f rm sat conv s m e false

/-- A value that the format represents, subnormals included, without flush or flag (R184). -/
def FFmt.exact (f : FFmt) : Val → Nat
  | .nan => f.nan
  | .inf s => f.inf s
  | .fin s m e =>
    if m = 0 then f.signBit s
    else
      let top := topBit m e
      if top < f.emin then f.signBit s + (roundAt .rz s m e false (f.emin - f.m)).1
      else f.signBit s + ((top + f.bias - 1) * (2 ^ f.m : Nat) + (roundAt .rz s m e false (top - f.m)).1).toNat

/-- The conversion to UE8M0 (R185). -/
def toUe8m0 : Val → Nat × Fl
  | .nan => (255, 0)
  | .inf s => (254, if s then flNV else 0)
  | .fin s m e =>
    if m = 0 then (0, 0)
    else
      let t := topBit m e
      let c := max (-127) (min 127 t)
      let isPow := m = 2 ^ Nat.log2 m && c = t
      ((c + 127).toNat, (if isPow then 0 else flNX) ||| (if s then flNV else 0))

/-- The conversion of a floating value to an integer width (R187). -/
def toIntFmt (w : Nat) (rm : Round) : Val → Nat × Fl
  | .nan => (0, flNV)
  | .inf s => (if s then 2 ^ (w - 1) else 2 ^ (w - 1) - 1, flNV)
  | .fin s m e =>
    let (n, inx) := roundAt rm s m e false 0
    let x : Int := if s then -(n : Int) else n
    let lo : Int := -(2 ^ (w - 1) : Nat)
    let hi : Int := (2 ^ (w - 1) : Nat) - 1
    let nx := if inx then flNX else 0
    if x < lo then (wrapN w lo, nx ||| flNV) else if hi < x then (wrapN w hi, nx ||| flNV) else (wrapN w x, nx)

/-- The widening pairs of R184. -/
def widens (dst src : ElemType) : Bool :=
  match src, dst with
  | .f32, .f64 => true
  | .f16, .f32 | .f16, .f64 | .bf16, .f32 | .bf16, .f64 => true
  | .e4m3, .f16 | .e4m3, .bf16 | .e4m3, .f32 | .e4m3, .f64 => true
  | .e5m2, .f16 | .e5m2, .bf16 | .e5m2, .f32 | .e5m2, .f64 => true
  | .e3m2, .f16 | .e3m2, .bf16 | .e3m2, .f32 | .e3m2, .f64 => true
  | .e2m3, .f16 | .e2m3, .bf16 | .e2m3, .f32 | .e2m3, .f64 => true
  | .e2m1, .f16 | .e2m1, .bf16 | .e2m1, .f32 | .e2m1, .f64 => true
  | .fmt _, .f32 | .fmt _, .f64 => true
  | _, _ => false

/-- A value into a format (R185 to R187). -/
def NumFmt.deliver (n : NumFmt) (rm : Round) (sat : Bool) (v : Val) : Nat × Fl :=
  match n with
  | .flt f => f.deliver rm sat true v
  | .ue8m0 => toUe8m0 v
  | .int w => toIntFmt w rm v
  | .lut4 => (0, 0)

/-- An integer into an integer width (R187). -/
def intToInt (w : Nat) (sat : Bool) (x : Int) : Nat × Fl :=
  let lo : Int := -(2 ^ (w - 1) : Nat)
  let hi : Int := (2 ^ (w - 1) : Nat) - 1
  if sat && x < lo then (wrapN w lo, flNV) else if sat && hi < x then (wrapN w hi, flNV) else (wrapN w x, 0)

/-- One element converted (R184 to R187); `code` of a LUT4 source is the looked-up INT8. -/
def convert (dst src : ElemType) (nd ns : NumFmt) (rm : Round) (sat : Bool) (code : Nat) : Nat × Fl :=
  match nd, ns with
  | .flt fd, .flt fs => if widens dst src then (fd.exact (fs.value code), 0) else fd.deliver rm sat true (fs.read code)
  | .int w, .int w' => intToInt w sat (sextN w' code)
  | .int w, .lut4 => intToInt w sat (sextN 8 code)
  | nd, ns => nd.deliver rm sat (ns.read code)

/-! ### Arithmetic in one format (R179 to R183, R201) -/

/-- A rounded arithmetic result: an invalid operation on operands that are no NaN sets NV (R180). -/
def FFmt.arith (f : FFmt) (rm : Round) (nanIn : Bool) (v : Val) : Nat × Fl :=
  match v with
  | .nan => (f.nan, if nanIn then 0 else flNV)
  | v => f.deliver rm false false v

def FFmt.fadd (f : FFmt) (rm : Round) (a b : Nat) : Nat × Fl :=
  let x := f.read a
  let y := f.read b
  f.arith rm (x.isNan || y.isNan) (x.add rm y)

def FFmt.fsub (f : FFmt) (rm : Round) (a b : Nat) : Nat × Fl :=
  let x := f.read a
  let y := f.read b
  f.arith rm (x.isNan || y.isNan) (x.add rm y.neg)

def FFmt.fmul (f : FFmt) (rm : Round) (a b : Nat) : Nat × Fl :=
  let x := f.read a
  let y := f.read b
  f.arith rm (x.isNan || y.isNan) (x.mul y)

/-- a · b + c, rounded once; `sub` negates c. 0 · Inf sets NV even when c is a NaN (R201). -/
def FFmt.ffma (f : FFmt) (rm : Round) (sub : Bool) (a b c : Nat) : Nat × Fl :=
  let x := f.read a
  let y := f.read b
  let z := if sub then (f.read c).neg else f.read c
  let p := x.mul y
  if p.isNan && !x.isNan && !y.isNan then (f.nan, flNV)
  else f.arith rm (x.isNan || y.isNan || z.isNan) (p.add rm z)

def FFmt.fminmax (f : FFmt) (big : Bool) (a b : Nat) : Nat := f.exact ((f.read a).minmax big (f.read b))

/-- FABS and FNEG (R201). -/
def FFmt.fabs (f : FFmt) (a : Nat) : Nat :=
  match f.read a with
  | .nan => f.nan
  | .inf _ => f.inf false
  | .fin _ m e => f.exact (.fin false m e)

def FFmt.fneg (f : FFmt) (a : Nat) : Nat :=
  match f.read a with
  | .nan => f.nan
  | v => f.exact v.neg

/-- The conditions 0x11 to 0x16 of R37 (R202). -/
def FFmt.fcmp (f : FFmt) (c : FCond) (a b : Nat) : Bool :=
  let r := (f.read a).cmp (f.read b)
  match c with
  | .oeq => r == some .eq
  | .une => r != some .eq
  | .olt => r == some .lt
  | .ole => r == some .lt || r == some .eq
  | .uno => r == none
  | .ord => r != none

/-- The class bit of a code (R202). -/
def FFmt.fclass (f : FFmt) (code : Nat) : Nat :=
  match f.value code with
  | .nan => 8
  | .inf s => if s then 0 else 7
  | .fin s m _ => if m = 0 then (if s then 3 else 4) else if f.isSub code then (if s then 2 else 5) else (if s then 1 else 6)

/-- FRND (R203). -/
def FFmt.frnd (f : FFmt) (rm : Round) (a : Nat) : Nat × Fl :=
  match f.read a with
  | .nan => (f.nan, 0)
  | .inf s => (f.inf s, 0)
  | .fin s m e =>
    let (n, inx) := roundAt rm s m e false 0
    (if 0 ≤ e then f.exact (.fin s m e) else f.exact (.fin s n 0), if inx then flNX else 0)

/-! ### Integer lanes (R218, R219) -/

/-- Clamps to a width (R218). -/
def clampW (w : Nat) (uns : Bool) (x : Int) : Int :=
  let lo : Int := if uns then 0 else -(2 ^ (w - 1) : Nat)
  let hi : Int := if uns then (2 ^ w : Nat) - 1 else (2 ^ (w - 1) : Nat) - 1
  max lo (min hi x)

/-- A code read at a width, signed or not. -/
def readW (w : Nat) (uns : Bool) (a : Nat) : Int := if uns then (a % 2 ^ w : Nat) else sextN w a

/-- An integer lane result: modulo 2^w, or clamped. -/
def laneInt (w : Nat) (sat uns : Bool) (x : Int) : Nat := wrapN w (if sat then clampW w uns x else x)

end Sys2Proof.Machine
end

