-- ==== Sys2Proof/Machine/Local.lean ====
section
/-! DEFINITION. Local memory: the addressing of R152, the wait on a watermark (R157), the scopes of R32 and R122, and the channels of
R154 to R169. -/

namespace Sys2Proof.Machine

/-! ### Addresses (R150, R152) -/

/-- The pieces (address, length) of n bytes from an address on, cut at multiples of g. -/
def chunks (g a n : Nat) : List (Nat × Nat) :=
  let k := (a + n + g - 1) / g - a / g
  (List.range k).filterMap fun i =>
    let lo := max a (g * (a / g + i))
    let hi := min (a + n) (g * (a / g + i) + g)
    if lo < hi then some (lo, hi - lo) else none

/-- SPMIN of a cluster (R152). -/
def State.spmin (s : State) (k : Nat) : Nat := (s.clusterCores k).foldl (fun m c => min m (s.core c).spsz) (192 * 1024)

/-- The bytes of AM 2 at a core: consecutive dwords rotate over the cluster's enabled cores (R152). -/
def State.clusterSegs (s : State) (c ea n : Nat) : List Seg :=
  let l := s.clusterCores (clusterOf c)
  let ne := l.length
  (chunks 8 ea n).map fun x => ⟨some (l.getD (x.1 / 8 % ne) 0), x.1 / 8 / ne * 8 + x.1 % 8, x.2, false⟩

/-- The core that gC names (R127): an enabled logical core of the thread's region map. -/
def State.named (s : State) (t : Thread) (lcn : Word) : Option Nat :=
  (s.region? t.region).bind fun r => s.physOf r (lcn.extractLsb' 0 18).toNat

/-- What checks 2 to 5 of R130 answer for an access: the cause of the trap, the bytes of local memory, a core outside the cluster, or
nothing to map for AM 0. -/
inductive LocRes where
  | trap (cause : BitVec 8)
  | segs (l : List Seg)
  | away (core : Nat)
  | virt
  deriving DecidableEq, Repr

/-- Checks 2 to 5 of R130 for n bytes at ea. `ret` says that the access returns a value, `atom` that it must be aligned. -/
def State.locCheck (s : State) (c : Nat) (t : Thread) (am : AddrMode) (lcn ea : Word) (n : Nat) (ret atom : Bool) : LocRes :=
  let e := ea.toNat
  let aligned := !atom || e % n = 0
  let small := decide (e < 2 ^ 24)
  match am with
  | .virt => if aligned then .virt else .trap 0x18
  | .own =>
    if !aligned then .trap 0x18
    else if small && decide (e + n ≤ (s.core c).spsz) then .segs [⟨some c, e, n, false⟩] else .trap 0x19
  | .cluster =>
    let k := clusterOf c
    if !aligned then .trap 0x18
    else if small && decide (e + n ≤ (s.clusterCores k).length * s.spmin k) then .segs (s.clusterSegs c e n) else .trap 0x19
  | .named =>
    match s.named t lcn with
    | none => .trap 0x1B
    | some d =>
      if clusterOf d = clusterOf c then
        if !aligned then .trap 0x18
        else if small && decide (e + n ≤ (s.core d).spsz) then .segs [⟨some d, e, n, false⟩] else .trap 0x19
      else if ret then .trap 0x1A
      else if !aligned then .trap 0x18
      else if small then .away d else .trap 0x19

/-! ### Scopes (R32, R122) -/

/-- The narrowest scope that contains the thread and its target (R32). -/
def scopeFloor (c : Nat) (am : AddrMode) (dst : Option Nat) : BitVec 2 :=
  match am with
  | .virt | .own => 0
  | .cluster => 1
  | .named => match dst with
    | some d => if clusterOf d = clusterOf c then 1 else 2
    | none => 0

/-- The wider of two scopes. -/
def wider (a b : BitVec 2) : BitVec 2 := if a.ult b then b else a

/-- R122: the partition of a core serves only VFs of tenant scope. -/
def State.tenant (s : State) (c : Nat) : Bool := (s.part? (s.partOf c)).elim true fun p => !p.sys

/-- The scope after R32 and R122. -/
def State.effScope (s : State) (c : Nat) (sc floor : BitVec 2) : BitVec 2 :=
  if wider sc floor = 3 && s.tenant c then 2 else wider sc floor

/-- SCLAMP counts the instruction when R122 clamps it, and stays at its largest value. -/
def Thread.countClamp (t : Thread) (clamped : Bool) : Thread :=
  if clamped && t.sclamp ≠ 0xFFFFFFFF#64 then { t with sclamp := t.sclamp + 1 } else t

/-- The count of an instruction that traps after it was counted goes back: it was not executed (R122). -/
def Thread.uncountClamp (t : Thread) (clamped : Bool) : Thread :=
  if clamped && t.sclamp ≠ 0xFFFFFFFF#64 then { t with sclamp := t.sclamp - 1 } else t

/-- The clamp applies to an instruction. -/
def State.clamps (s : State) (c : Nat) (sc floor : BitVec 2) : Bool := wider sc floor = 3 && s.tenant c

/-! ### Waiting on a watermark (R157) -/

/-- A local access of n bytes at offset o has to wait for a channel: it touches bytes at or above the watermark and below LEN. The touch is
judged afresh at each try: an access that reaches past BASE + LEN, whose n bytes no watermark covers, goes on once WM is LEN (DEDUCED,
assumption 44). -/
def Channel.holds (x : Channel) (o n : Nat) : Bool :=
  x.isOpen && !x.arith && decide (max o (x.base + x.wm) < min (o + n) (x.base + x.len)) && decide (x.base + x.wm < o + n)

/-- A local access waits on some channel of its core. -/
def State.chanWaits (s : State) (c o n : Nat) : Bool := (s.core c).chans.toList.any fun x => x.holds o n

/-- An access of n bytes at offset o of a core waits for an LMCFG that waits itself (R171). -/
def State.shrinkWaits (s : State) (c o n : Nat) : Bool := (s.core c).shrink.any fun x => decide (x.1 < o + n)

/-- Some local byte of an access that has not been issued waits for an LMCFG. -/
def State.segsShrink (s : State) (l : List Seg) : Bool := l.any fun x => x.core.any fun c => s.shrinkWaits c x.addr x.len

/-- Some local byte of an access waits. -/
def State.segsWait (s : State) (l : List Seg) : Bool := l.any fun x => x.core.any fun c => s.chanWaits c x.addr x.len

/-! ### The watermark (R155, R156) -/

/-- The channel state word (R154). -/
def Channel.word (x : Channel) (err : Bool) : Word :=
  BitVec.ofNat 64 (packFields [(48, 16, x.seqnext.toNat), (47, 1, bitN err), (38, 8, x.gen.toNat), (37, 1, bitN x.arith), (36, 1, bitN x.isOpen),
    (18, 18, x.len), (0, 18, x.wm)])

/-- WM moves over every granule at WM that has arrived (R156); the fuel bounds the granules. -/
def Channel.rise : Nat → Channel → Channel
  | 0, x => x
  | n + 1, x => if x.arrived.getLsbD 0 && decide (x.wm < x.len) then Channel.rise n { x with wm := x.wm + 64, arrived := x.arrived >>> 1 } else x

/-- The granule at a channel offset has arrived: WM and the map change only at or above WM. -/
def Channel.arrive (x : Channel) (off : Nat) : Channel :=
  if off / 64 * 64 < x.wm then x else Channel.rise 129 { x with arrived := x.arrived ||| (1#128 <<< ((off / 64 * 64 - x.wm) / 64)) }

def State.chan (s : State) (c : Nat) (n : BitVec 4) : Channel := (s.core c).chans[n.toNat]

def State.setChan (s : State) (c : Nat) (n : BitVec 4) (x : Channel) : State :=
  s.modCore c fun y => { y with chans := y.chans.set n.toNat x }

/-- What judges a copy operation complete (R158): every packet answered, and WM past the range unless one was refused. -/
def CopyOp.complete (s : State) (region : Option Region) (x : CopyOp) : Bool :=
  x.sent && x.acked + x.refused = x.total && (x.arith.isSome || x.refused ≠ 0 || x.len = 0 ||
    (match region.bind fun r => s.physOf r x.lcn with
     | some d => decide (x.off + x.len ≤ (s.chan d x.chan).wm)
     | none => true))

/-- The copy operations that a core's channel may complete are looked at again. -/
def State.chanEvents (s : State) (c : Nat) (n : BitVec 4) : List Event :=
  s.threads.flatMap fun e => e.2.ops.filterMap fun o => match o.kind with
    | .copy x => if x.chan = n && x.sent && ((s.region? e.2.region).bind fun r => s.physOf r x.lcn) = some c then
        some (.sendComplete ⟨e.1.1, e.1.2, o.id⟩) else none
    | _ => none

/-! ### Refusals and the record of R159 -/

/-- The record that a copy operation with refused packets leaves in its thread's region; the core that refused them reports. -/
def State.refusedRec (s : State) (c : Nat) (t : Thread) (pc : Word) (x : CopyOp) : State :=
  let i : TrapInfo := ⟨0x1D, 0, .lead, 5, 0, 0, pc, 0, BitVec.ofNat 64 (packFields [(0, 18, x.lcn), (18, 4, x.chan.toNat), (32, 32, x.refused)]), 0⟩
  (s.appendRec c t.region (recFields s x.dst t.tid i false) [] none none).2

/-- A copy operation of a thread in a slot completes once its packets are answered. -/
def State.copyDoneAt (s : State) (c k id : Nat) : State :=
  match s.thread? c k with
  | none => s
  | some t =>
    match t.op? id with
    | none => s
    | some o =>
      match o.kind with
      | .copy x =>
        if x.complete s (s.region? t.region) then
          let s := if x.refused = 0 then s else s.refusedRec c t o.pc x
          s.finishOp c k id
        else s
      | _ => s

/-- SEND COMPLETE (R158, R160): a copy operation whose packets are answered completes for its stream. -/
def State.copyDone (s : State) (r : OpRef) : State := s.withOp r fun c k s => s.copyDoneAt c k r.op

def execSendComplete (x : OpRef) (s : State) : Out := .next (s.copyDone x)

/-- The answer to packets or updates counts at their operation, whose completion is looked at. -/
def State.answer (s : State) (r : OpRef) (n bytes : Nat) (ok : Bool) : State :=
  let count : Op → Op := fun o => { o with kind := match o.kind with
    | .copy x => .copy (if ok then { x with acked := x.acked + n, bytes := x.bytes + bytes } else { x with refused := x.refused + n })
    | k => k }
  (s.withOp r fun c k s => s.modThread c k fun t => t.modOp r.op count).push [.sendComplete r]

/-! ### Packets (R155, R156, R159) -/

/-- A packet at its channel: written, answered with retry, or refused. -/
def State.packet (s : State) (x : EvPacket) : State :=
  let ch := s.chan x.dst x.chan
  if !ch.isOpen || ch.arith || decide (ch.len < x.off + x.bytes.length) || s.guestLcn x.region x.lcn then s.answer x.src 1 0 false
  else if s.spHeld x.dst (ch.base + x.off) x.bytes.length then { s with later := s.later ++ [.packetRetry x] }
  else if ch.wm + 8192 ≤ x.off / 64 * 64 then { s with later := s.later ++ [.packetRetry x] }
  else
    let s := s.spWrite x.dst (ch.base + x.off) x.bytes none
    let s := s.setChan x.dst x.chan (ch.arrive x.off)
    let s := s.answer x.src 1 x.bytes.length true
    let s := if (s.chan x.dst x.chan).wm = ch.wm then s else s.push (s.chanEvents x.dst x.chan)
    s

def execPacketArrival (x : EvPacket) (s : State) : Out := .next (s.packet x)

/-- A packet that was answered with retry is sent again (R155). -/
def execPacketRetry (x : EvPacket) (s : State) : Out := .next (s.push [.packetArrival x])

end Sys2Proof.Machine
end

