-- ==== Sys2Proof/Machine/Manifest.lean ====
section
/-! DEFINITION. Manifests: the record (R228), iteration (R229), blocks (R230), and the bytes that one may touch (R111). -/

namespace Sys2Proof.Machine

/-! ### The record (R228) -/

/-- A manifest's fields. -/
structure Manif where
  base : Word
  sbase : Word
  ext : List Nat
  str : List Int
  ty : BitVec 6
  space : BitVec 2
  ndim : Nat
  skind : BitVec 2
  sspace : BitVec 2
  chan : BitVec 4
  res : Bool
  deriving DecidableEq, Repr

/-- The record as it is laid out. -/
def Manif.ofBits (v : V512) : Manif where
  base := v.extractLsb' 0 64
  sbase := v.extractLsb' 64 64
  ext := (List.range 4).map fun d => (v.extractLsb' (128 + 64 * d) 24).toNat
  str := (List.range 4).map fun d => (v.extractLsb' (152 + 64 * d) 40).toInt
  ty := v.extractLsb' 384 6
  space := v.extractLsb' 390 2
  ndim := (v.extractLsb' 392 3).toNat
  skind := v.extractLsb' 395 2
  sspace := v.extractLsb' 397 2
  chan := v.extractLsb' 400 4
  res := v.extractLsb' 399 1 != 0 || v.extractLsb' 404 108 != 0

/-- The element type. -/
def Manif.elem (m : Manif) : ElemType := (ElemType.ofCode m.ty).getD .f64

/-- The extent of a dimension, 1 for one that is not in use. -/
def Manif.extent (m : Manif) (d : Nat) : Nat := if d < m.ndim then m.ext.getD d 1 else 1

/-- The number of tuples. -/
def Manif.count (m : Manif) : Nat := m.extent 0 * m.extent 1 * m.extent 2 * m.extent 3

/-- The tuple at a place of the iteration order, i0 fastest (R229). -/
def Manif.tuple (m : Manif) (n : Nat) : List Nat :=
  let e := m.extent
  [n % e 0, n / e 0 % e 1, n / (e 0 * e 1) % e 2, n / (e 0 * e 1 * e 2) % e 3]

/-- The element position of a tuple. -/
def Manif.pos (m : Manif) (i : List Nat) : Int := ((i.zip m.str).map fun x => (x.1 : Int) * x.2).foldl (· + ·) 0

/-- The block size of a scale kind (R230). -/
def Manif.block (m : Manif) : Nat := if m.skind = 1 then 32 else 16

/-- A type that takes scales (R230). -/
def ElemType.scales : ElemType → Bool
  | .e4m3 | .e5m2 | .e3m2 | .e2m3 | .e2m1 | .fmt _ => true
  | _ => false

/-- SPACE as an addressing mode (R228). -/
def spaceMode (sp : BitVec 2) : AddrMode := if sp = 0 then .virt else if sp = 2 then .cluster else .own

/-- The bytes that a manifest's elements may touch: the lowest and the first beyond the highest. -/
def Manif.reach (m : Manif) (fmt : FReg → BitVec 32) : Int × Int :=
  let cont := (numFmt fmt m.elem).elim 64 (·.container)
  let ends := (List.range m.ndim).map fun d => ((m.extent d : Int) - 1) * m.str.getD d 0
  let lo := (ends.map (min 0)).foldl (· + ·) 0
  let hi := (ends.map (max 0)).foldl (· + ·) 0
  ((m.base.toNat : Int) + lo * cont / 8, (m.base.toNat : Int) + (hi * cont + cont + 7) / 8)

/-- A range of a space may meet n bytes at an address under a mode. Two modes of local memory that are not both own are taken to meet. -/
def spaceMeets (sp : BitVec 2) (shift lo hi : Int) (am : AddrMode) (addr : Word) (n : Nat) : Bool :=
  let touch := decide (lo + shift < (addr.toNat : Int) + n) && decide ((addr.toNat : Int) < hi + shift)
  match spaceMode sp, am with
  | .virt, .virt | .own, .own => touch
  | .virt, _ | _, .virt => false
  | _, _ => true

/-- A manifest may touch a byte of n bytes at an address, by its elements or its scales (R111). -/
def Manif.meets (m : Manif) (s : State) (c : Nat) (fmt : FReg → BitVec 32) (am : AddrMode) (addr : Word) (n : Nat) : Bool :=
  let shift : Int := if m.space = 3 then (s.chan c m.chan).base else 0
  let (lo, hi) := m.reach fmt
  spaceMeets m.space shift lo hi am addr n
    || (m.skind ≠ 0 && spaceMeets m.sspace 0 m.sbase.toNat (m.sbase.toNat + m.count / m.block + 1) am addr n)

/-- The manifests of a tensor instruction in progress. -/
def TensorOp.manifs (x : TensorOp) : List V512 := [x.md, x.ma, x.mb, x.mc].filter (· ≠ 0)

/-- The manifests of a pass: that of its A rows and that of its drain. -/
def MatOp.manifs (x : MatOp) : List V512 := x.a :: x.drain.toList.map (·.1)

/-- The manifests that a tensor instruction names. -/
def tensorManifs (t : Thread) : Instr → List V512
  | .mew x => [t.rm x.d, t.rm x.a] ++ (if x.op.isBinary then [t.rm x.b] else [])
  | .mfma x => [t.rm x.d, t.rm x.a, t.rm x.b, t.rm x.c]
  | .mred x => [t.rm x.d, t.rm x.a]
  | .mcvt x => [t.rm x.d, t.rm x.a]
  | .mgath x => [t.rm x.d, t.rm x.a, t.rm x.b]
  | .mscat x => [t.rm x.d, t.rm x.a, t.rm x.b]
  | .mcopy x => [t.rm x.d, t.rm x.a]
  | _ => []

/-- A register that tells where a tensor instruction's elements are. -/
def Res.isShape : Res → Bool
  | .m _ | .f _ => true
  | _ => false

/-- The places of the trail's instructions, older than an access, that have not executed and may touch a byte of it (R41, R111): their
manifests tell, or an instruction before them has still to write one. -/
def Thread.queuedMeets (t : Thread) (s : State) (c no : Nat) (am : AddrMode) (addr : Word) (n : Nat) : List Nat :=
  ((t.queued.filter fun e => e.no < no).foldl entry ([], [])).2
where
  one (x : List Res × Bool) (i : Instr) : List Res × Bool :=
    (x.1 ++ i.use.writes.filter Res.isShape,
      x.2 || (!(tensorManifs t i).isEmpty && i.use.reads.any x.1.contains)
        || (tensorManifs t i).any fun m => (Manif.ofBits m).meets s c t.rf am addr n)
  entry (x : List Res × List Nat) (e : TrailEntry) : List Res × List Nat :=
    let y := (t.instrsOf e).foldl one (x.1, false)
    (y.1, if y.2 then x.2 ++ [e.no] else x.2)

end Sys2Proof.Machine
end

