-- ==== Sys2Proof/Machine/Ras.lean ====
section
/-! DEFINITION. Host memory as the device writes it (R389, R417), and the reports of errors: virtual error queues (R414, R416) and the physical
log (R415, R417). -/

namespace Sys2Proof.Machine

/-! ### Host memory -/

/-- Bytes of the host's memory at a host physical address: the host range of R65. -/
def hostPa (a : Nat) : Nat := 2 ^ 51 + a % 2 ^ 51

/-- The partitions that reach the host range (R67). -/
def State.hostParts (s : State) : List Nat := (s.parts.filter fun e => e.2.sys).map (·.1)

/-- The device writes host memory: copies that homes hold are taken back, as a snoop does (R99). -/
def State.hostWrite (s : State) (a : Nat) (bs : List Byte) : State :=
  let s := s.hostParts.foldl (fun s p => s.homeWriteBytes p (hostPa a) bs none) s
  s.memPut (hostPa a) bs

/-- The device reads host memory. -/
def State.hostRead (s : State) (a n : Nat) : List Byte × State :=
  let s := s.hostParts.foldl (fun s p => (s.homeReadBytes p (hostPa a) n).2) s
  (memBytes s.mem (hostPa a) n, s)

/-! ### Error records (R415) -/

/-- The fields that both logs share. -/
def ErrEvent.fields (e : ErrEvent) (gt seq count : Nat) : List (Nat × Nat × Nat) :=
  [(0, 8, e.cls), (8, 8, e.kind), (32, 32, count), (128, 32, e.tid.toNat), (160, 9, coreX e.core), (169, 9, coreY e.core), (256, 64, gt),
   (448, 64, seq)]

/-- The offset of an address from the base of the window that holds it. -/
def Part.winOffset (p : Part) (pa : Nat) : Nat := ((p.windows.find? fun w => inWindow w pa).map fun w => pa - w.base).getD 0

/-- The physical address of the sector of an event; a scratchpad's has none. -/
def ErrEvent.pa (e : ErrEvent) : Option Nat :=
  match e.sec with
  | some (.mem n) => some (64 * n)
  | _ => none

/-- An open record that the event repeats: an event that has no sector repeats none. -/
def ErrEvent.same (e : ErrEvent) (k : ErrKey) : Bool := k.cls = e.cls && k.kind = e.kind && e.sec.isSome && k.sec = e.sec

/-! ### The virtual error queue (R414) -/

/-- The region through which the ring of a partition is translated: that of the thread, else the first of the partition. -/
def State.errRegion (s : State) (p : Nat) (e : ErrEvent) : Option Nat :=
  match e.region with
  | some r => some r
  | none => (s.regions.find? fun x => x.2.part = p).map (·.1)

/-- A record enters a partition's error queue, or counts in an open one; a full ring drops it. QBASE is a virtual address: while the partition has no
region the event waits for one (DEDUCED, assumption 46). -/
def State.virtReport (s : State) (p : Nat) (e : ErrEvent) : State :=
  match s.part? p, s.errRegion p e with
  | some q, some g =>
    let a := errCtlPa q
    let (bs, s) := s.homeReadBytes p a 40
    let w := ofBytes bs
    let qbase := w % 2 ^ 64
    let lg := w / 2 ^ 64 % 32
    let prod := w / 2 ^ 128 % 2 ^ 64
    let cons := w / 2 ^ 192 % 2 ^ 64
    let slot := fun (i : Nat) => BitVec.ofNat 64 (qbase + 64 * (i % 2 ^ lg))
    if qbase = 0 || lg < 4 || 16 < lg || qbase % (64 * 2 ^ lg) ≠ 0 || w / 2 ^ 69 % 2 ^ 59 ≠ 0 then s
    else
      match q.errs.find? fun k => e.same k && decide (cons ≤ k.idx) with
      | some k =>
        match s.devRead e.core g (slot k.idx + 4) 4 with
        | (some c, s) => (s.devWrite e.core g (slot k.idx + 4) (toBytes 4 (min (ofBytes c + 1) (2 ^ 32 - 1))) false).2
        | (none, s) => s
      | none =>
        if (prod + 2 ^ 64 - cons) % 2 ^ 64 ≥ 2 ^ lg then s.homeWriteBytes p (a + 32) (toBytes 4 1) none
        else
          let addr := match e.va, e.pa with
            | some v, _ => v.toNat
            | none, some pa => q.winOffset pa
            | none, none => 0
          let rec0 := packFields (e.fields s.gt prod 1 ++ [(16, 1, bitN e.va.isSome), (17, 1, bitN (e.va.isNone && e.pa.isNone)), (64, 64, addr)])
          let s := s.homeWriteBytes p (a + 16) (toBytes 8 (prod + 1)) none
          let s := (s.devWrite e.core g (slot prod) (toBytes 64 rec0) false).2
          s.modPart p fun q => { q with errs := (q.errs.filter fun k => !e.same k) ++ [⟨e.cls, e.kind, e.sec, prod⟩] }
  | some _, none => s.modPart p fun q => { q with errWait := q.errWait ++ [e] }
  | none, _ => s

/-- The events that waited for a region of the partition enter its queue, in their order. -/
def State.lateErrs (s : State) (p : Nat) : State :=
  ((s.part? p).elim [] (·.errWait)).foldl (fun s e => s.virtReport p e) (s.modPart p fun q => { q with errWait := [] })

/-! ### The physical log (R417) -/

/-- The tenant tag of a function in a partition (R381): the PF is function 0. -/
def tenantTag (fn part : Nat) : BitVec 16 := BitVec.ofNat 16 (if fn = 0 then 2 ^ 15 + part else (fn - 1) * 64 + part)

/-- The tenant tag that an event is attributed to. -/
def State.errTag (s : State) (p : Option Nat) (e : ErrEvent) : BitVec 16 :=
  match e.region.bind s.region? with
  | some r => r.tag
  | none => ((p.bind s.part?).bind fun q => q.fns.head?.map fun f => tenantTag f (p.getD 0)).getD 0xFFFF

/-- A record enters the physical log. A full ring drops it, or its oldest record for one of class 2, 5 or 6. -/
def State.physReport (s : State) (p : Option Nat) (e : ErrEvent) : State :=
  let r := s.ras
  let (synd, s) := s.freeWord
  if r.pllog2n < 4 || 20 < r.pllog2n then s
  else
    let slot := fun (i : Nat) => r.plbase + 64 * (i % 2 ^ r.pllog2n)
    match r.open_.find? fun k => e.same k && decide (r.plcons ≤ k.idx) with
    | some k =>
      let (c, s) := s.hostRead (slot k.idx + 4) 4
      s.hostWrite (slot k.idx + 4) (toBytes 4 (min (ofBytes c + 1) (2 ^ 32 - 1)))
    | none =>
      let full := decide (2 ^ r.pllog2n ≤ r.plprod - r.plcons)
      if full && !(e.cls = 2 || e.cls = 5 || e.cls = 6) then s
      else
        let rec0 := packFields (e.fields s.gt r.plprod 1 ++
          [(17, 1, bitN e.pa.isNone), (64, 64, e.pa.getD 0), (192, 16, (s.errTag p e).toNat), (320, 64, synd.toNat)])
        let s := s.hostWrite (slot r.plprod) (toBytes 64 rec0)
        { s with ras := { r with plprod := r.plprod + 1, plcons := if full then r.plcons + 1 else r.plcons
                                 open_ := (r.open_.filter fun k => !e.same k) ++ [⟨e.cls, e.kind, e.sec, r.plprod⟩] } }

/-- An event is reported (R416): to the physical log, and to the partition `p` that consumed it or owns its sector or unit. -/
def State.report (s : State) (p : Option Nat) (e : ErrEvent) : State :=
  let s := s.physReport p e
  let s := match p with
    | some p => s.virtReport p e
    | none => s
  if (e.cls = 2 || e.cls = 3) && 3 ≤ e.kind && e.kind ≤ 5 then s.modCluster (clusterOf e.core) fun k => { k with events := k.events + 1 } else s

/-- A thread's access has consumed an uncorrectable error (R361, R416). -/
def State.consumed (s : State) (c : Nat) (t : Thread) (b : Bad) (va : Word) : State :=
  s.report (some (s.partOf c)) ⟨2, b.kind, some b.sec, some va, t.tid, c, some t.region⟩

/-- The partition of a sender's core reaches an address (R92). -/
def State.reaches (s : State) (c pa : Nat) : Bool := (s.part? (s.partOf c)).elim false fun q => physOk q pa

/-- The partition in whose windows an address lies. -/
def State.partOfPa (s : State) (pa : Nat) : Option Nat := (s.parts.find? fun e => inPriv e.2 pa || inShared e.2 pa).map (·.1)

/-- The home of an address, by a core of its cluster. -/
def State.homeAgent (s : State) (pa : Nat) : Nat :=
  coreOfCluster (((s.partOfPa pa).bind s.part?).elim 0 fun q => homeOf q pa) 0

/-- The coordinates of the home of an address, as AUX1 holds those of a denying home (R366). -/
def State.homeXy (s : State) (pa : Nat) : Word := BitVec.ofNat 64 (packFields [(0, 9, coreX (s.homeAgent pa)), (9, 9, coreY (s.homeAgent pa))])

/-- A home turns away a request from outside its partition (R92). -/
def State.confined (s : State) (c pa : Nat) : State := s.physReport none ⟨5, 0, some (.mem (pa / 64)), none, 0, c, none⟩

end Sys2Proof.Machine
end

