-- ==== Sys2Proof/Machine/Special.lean ====
section
/-! DEFINITION. The special functions of R221 to R223. The functions that are no roots are evaluated as series in fixed point with 512
fractional bits, and the value is rounded once; assumption 12 says why that is the exact value's rounding. -/

namespace Sys2Proof.Machine

/-- The special functions. -/
inductive SpFn where
  | rcp | rsq | sqrt | exp2 | log2 | sinp | tanh
  deriving DecidableEq, Repr

/-- The fractional bits of the fixed point. -/
def fxBits : Nat := 512

def fxOne : Nat := 2 ^ fxBits

/-- The integer square root, two bits a step. -/
def isqrtAux : Nat → Nat → Nat
  | 0, _ => 0
  | fuel + 1, n =>
    if n = 0 then 0
    else
      let r := 2 * isqrtAux fuel (n / 4)
      if (r + 1) * (r + 1) ≤ n then r + 1 else r

def isqrt (n : Nat) : Nat := isqrtAux (Nat.log2 n + 1) n

/-- Σ z^(2i+1) / (2i+1), with the signs of atan when `alt`, else of atanh. -/
def atSeries (alt : Bool) (z : Nat) (terms : Nat) : Nat :=
  let z2 := z * z / fxOne
  let step := fun (acc : Nat × Nat × Nat) (i : Nat) =>
    let (p, add, sub) := acc
    let t := p / (2 * i + 1)
    (p * z2 / fxOne, if alt && i % 2 = 1 then add else add + t, if alt && i % 2 = 1 then sub + t else sub)
  let (_, add, sub) := (List.range terms).foldl step (z, 0, 0)
  add - sub

/-- ln 2 = 2 atanh (1/3). -/
def fxLn2 : Nat := 2 * atSeries false (fxOne / 3) 200

/-- π = 16 atan (1/5) - 4 atan (1/239). -/
def fxPi : Nat := 16 * atSeries true (fxOne / 5) 150 - 4 * atSeries true (fxOne / 239) 80

/-- Σ y^(2i) / (2i + o)!, o 0 or 1, with alternating signs when `alt`. -/
def evenSeries (alt : Bool) (y o terms : Nat) : Nat :=
  let y2 := y * y / fxOne
  let step := fun (acc : Nat × Nat × Nat) (i : Nat) =>
    let (t, add, sub) := acc
    let t' := t * y2 / fxOne / ((2 * i + 1 + o) * (2 * i + 2 + o))
    (t', if alt && i % 2 = 1 then add else add + t, if alt && i % 2 = 1 then sub + t else sub)
  let (_, add, sub) := (List.range terms).foldl step (fxOne, 0, 0)
  add - sub

/-- e^y for y below 1. -/
def expSeries (y terms : Nat) : Nat :=
  ((List.range terms).foldl (fun (acc : Nat × Nat) i => (acc.1 * y / fxOne / (i + 1), acc.2 + acc.1)) (fxOne, 0)).2

/-- The FP32 delivery of R221: beyond the largest finite value the result is that value, with OF and NX. -/
def deliver32 (rm : Round) (exact s : Bool) (m : Nat) (e : Int) : Nat × Fl :=
  let (c, f) := deliverFin fp32 rm false false s m e (!exact)
  if c = fp32.inf s then (fp32.maxCode s, flOF ||| flNX) else (c, if exact then f else f ||| flNX)

/-- q · 2^ex truncated to 15 significant bits, with whether anything was lost. -/
def trunc15 (q : Nat) (ex : Int) : Nat × Int × Bool :=
  let sh := Nat.log2 q - 14
  (q / 2 ^ sh, ex + sh, q % 2 ^ sh ≠ 0)

/-- A truncated result; a tiny inexact one sets UF (R180, R222). -/
def deliverT (exact s : Bool) (q : Nat) (ex : Int) : Nat × Fl :=
  let (c, f) := deliverFin fp32 .rz false false s q ex false
  (c, if exact then f else if topBit q ex < -126 then f ||| flUF ||| flNX else f ||| flNX)

/-- VRCP of a nonzero finite magnitude (R221, R222). -/
def rcp32 (s : Bool) (m : Nat) (e : Int) : Nat × Fl :=
  if topBit m e < -128 then (fp32.inf s, flOF ||| flNX)
  else
    let k := 17 + Nat.log2 m
    let (q, ex, lost) := trunc15 (2 ^ k / m) (-(k : Int) - e)
    let exact := !lost && 2 ^ k % m = 0
    if topBit q ex < -126 && ex < -149 then
      let d := (-149 - ex).toNat
      deliverT (exact && q % 2 ^ d = 0) s (q / 2 ^ d) (-149)
    else deliverT exact s q ex

/-- VRSQ of a positive finite value. -/
def rsq32 (m : Nat) (e : Int) : Nat × Fl :=
  let (m, e) := if e % 2 = 0 then (m, e) else (2 * m, e - 1)
  let k := 17 + (Nat.log2 m + 1) / 2
  let r := isqrt (4 ^ k / m)
  let (q, ex, lost) := trunc15 r (-(k : Int) - e / 2)
  deliverT (!lost && r * r * m = 4 ^ k) false q ex

/-- VSQRT of a positive finite value, correctly rounded (R221). -/
def sqrtFmt (f : FFmt) (rm : Round) (m : Nat) (e : Int) : Nat × Fl :=
  let k : Nat := 130 + (if (e - 130) % 2 = 0 then 0 else 1)
  let n := m * 2 ^ k
  let r := isqrt n
  deliverFin f rm false false false r ((e - k) / 2) (r * r ≠ n)

/-- VEXP2 of a nonzero finite value. -/
def exp2Fx (s : Bool) (m : Nat) (e : Int) : Nat × Fl :=
  let big := 0 ≤ topBit m e - 8
  if !s && 7 ≤ topBit m e then (fp32.inf false, flOF ||| flNX)
  else if s && (big || ((Val.fin s m e).cmp (.fin true 150 0)) = some .lt) then (0, flUF ||| flNX)
  else
    -- x = n + f with f in [0, 1), in units of 2^-fxBits
    let x := signedAt s m (e + fxBits) 0
    let n := x / fxOne
    let f := (x % fxOne).toNat
    if f = 0 then deliver32 .rne true false 1 n
    else deliver32 .rne false false (expSeries (f * fxLn2 / fxOne) 130) (n - fxBits)

/-- VLOG2 of a positive finite value. -/
def log2Fx (m : Nat) (e : Int) : Nat × Fl :=
  let l := Nat.log2 m
  if m = 2 ^ l then
    let k : Int := l + e
    deliver32 .rne true (k < 0) k.natAbs 0
  else
    let up := 3 * 2 ^ l ≤ 2 * m
    let p := if up then 2 ^ (l + 1) else 2 ^ l
    let k : Int := l + e + (if up then 1 else 0)
    let z := (if up then p - m else m - p) * fxOne / (m + p)
    let a : Int := (2 * atSeries false z 130 * fxOne / fxLn2 : Nat)
    let x := k * fxOne + (if up then -a else a)
    deliver32 .rne false (x < 0) x.natAbs (-(fxBits : Int))

/-- VSINP of a nonzero finite value. -/
def sinpFx (s : Bool) (m : Nat) (e : Int) : Nat × Fl :=
  let zero := (fp32.signBit s, (0 : Fl))
  if 0 ≤ e then zero
  else
    let k := (-e).toNat
    let r := m % 2 ^ (k + 1)
    if r % 2 ^ k = 0 then zero
    else
      let s := s != (2 ^ k < r)
      let r := r % 2 ^ k
      if 2 * r = 2 ^ k then (fp32.signBit s + 0x3F800000, 0)
      else
        let r := if 2 ^ k < 2 * r then 2 ^ k - r else r
        let w := fxPi * r / 2 ^ k
        deliver32 .rne false s (fxPi * r * evenSeries true w 1 80) (-(2 * fxBits + k : Int))

/-- VTANH of a nonzero finite value. -/
def tanhFx (s : Bool) (m : Nat) (e : Int) : Nat × Fl :=
  if ((Val.fin false m e).cmp (.fin false 73 (-3))) != some .lt then (fp32.signBit s + 0x3F800000, 0)
  else
    let x := (signedAt false m (e + fxBits) 0).toNat
    let a := evenSeries false x 1 110
    let b := evenSeries false x 0 110
    deliver32 .rne false s (m * a * fxOne / b) (e - fxBits)

/-- A special function on a value, as an FP32 code (R221 to R223). -/
def SpFn.on32 (fn : SpFn) (v : Val) : Nat × Fl :=
  match v with
  | .nan => (fp32.nan, 0)
  | .inf s =>
    match fn with
    | .rcp => (fp32.signBit s, 0)
    | .rsq => if s then (fp32.nan, flNV) else (0, 0)
    | .sqrt | .log2 => if s then (fp32.nan, flNV) else (fp32.inf false, 0)
    | .exp2 => if s then (0, 0) else (fp32.inf false, 0)
    | .sinp => (fp32.nan, flNV)
    | .tanh => (fp32.signBit s + 0x3F800000, 0)
  | .fin s m e =>
    if m = 0 then
      match fn with
      | .rcp | .rsq => (fp32.inf s, flDZ)
      | .sqrt | .sinp | .tanh => (fp32.signBit s, 0)
      | .exp2 => (0x3F800000, 0)
      | .log2 => (fp32.inf true, flDZ)
    else
      match fn with
      | .rcp => rcp32 s m e
      | .rsq => if s then (fp32.nan, flNV) else rsq32 m e
      | .sqrt => if s then (fp32.nan, flNV) else sqrtFmt fp32 .rne m e
      | .exp2 => exp2Fx s m e
      | .log2 => if s then (fp32.nan, flNV) else log2Fx m e
      | .sinp => sinpFx s m e
      | .tanh => tanhFx s m e

/-- VSQRT in a format (R221, R223). -/
def FFmt.fsqrt (f : FFmt) (rm : Round) (a : Nat) : Nat × Fl :=
  match f.read a with
  | .nan => (f.nan, 0)
  | .inf s => if s then (f.nan, flNV) else (f.inf false, 0)
  | .fin s m e => if m = 0 then (f.signBit s, 0) else if s then (f.nan, flNV) else sqrtFmt f rm m e

/-- A special function in FP32, FP16 or BF16; the narrow types round the FP32 result (R221). -/
def FFmt.special (f : FFmt) (fn : SpFn) (rm : Round) (a : Nat) : Nat × Fl :=
  if fn = .sqrt then f.fsqrt rm a
  else
    let (c, fl) := fn.on32 (f.read a)
    if f = fp32 then (c, fl)
    else
      let (c', fl') := f.deliver .rne false false (fp32.value c)
      (c', fl ||| fl')

end Sys2Proof.Machine
end

