-- ==== Sys2Proof/Machine/Scalar.lean ====
section
/-! DEFINITION. The scalar integer and address instructions (R194 to R199) and scalar floating point (R200 to R203). -/

namespace Sys2Proof.Machine

/-! ### Integer arithmetic at a width (R194 to R196) -/

/-- An operation at a width on the low bits of two registers, its result sign-extended (R194). -/
def atWidth (f : (n : Nat) → BitVec n → BitVec n → BitVec n) (w : Width) (a b : Word) : Word :=
  match w with
  | .w64 => f 64 a b
  | .w32 => (f 32 (a.setWidth 32) (b.setWidth 32)).signExtend 64
  | .w16 => (f 16 (a.setWidth 16) (b.setWidth 16)).signExtend 64
  | .w8 => (f 8 (a.setWidth 8) (b.setWidth 8)).signExtend 64

def iAdd (n : Nat) (a b : BitVec n) : BitVec n := a + b
def iSub (n : Nat) (a b : BitVec n) : BitVec n := a - b
def iMul (n : Nat) (a b : BitVec n) : BitVec n := a * b

/-- Bits 2w-1:w of the signed product. -/
def iMulh (n : Nat) (a b : BitVec n) : BitVec n := (a.signExtend (2 * n) * b.signExtend (2 * n)).extractLsb' n n

/-- Bits 2w-1:w of the unsigned product. -/
def iMulhu (n : Nat) (a b : BitVec n) : BitVec n := (a.setWidth (2 * n) * b.setWidth (2 * n)).extractLsb' n n

/-- R196: by zero all ones; MINW by -1 is MINW. -/
def iDiv (n : Nat) (a b : BitVec n) : BitVec n := if b = 0 then BitVec.allOnes n else a.sdiv b
def iDivu (n : Nat) (a b : BitVec n) : BitVec n := if b = 0 then BitVec.allOnes n else a / b
def iRem (n : Nat) (a b : BitVec n) : BitVec n := if b = 0 then a else a.srem b
def iRemu (n : Nat) (a b : BitVec n) : BitVec n := if b = 0 then a else a % b
def iMin (n : Nat) (a b : BitVec n) : BitVec n := if b.slt a then b else a
def iMax (n : Nat) (a b : BitVec n) : BitVec n := if a.slt b then b else a
def iMinu (n : Nat) (a b : BitVec n) : BitVec n := if b.ult a then b else a
def iMaxu (n : Nat) (a b : BitVec n) : BitVec n := if a.ult b then b else a
def iAnd (n : Nat) (a b : BitVec n) : BitVec n := a &&& b
def iOr (n : Nat) (a b : BitVec n) : BitVec n := a ||| b
def iXor (n : Nat) (a b : BitVec n) : BitVec n := a ^^^ b
def iAndn (n : Nat) (a b : BitVec n) : BitVec n := a &&& ~~~b
def iOrn (n : Nat) (a b : BitVec n) : BitVec n := a ||| ~~~b

/-- Shifts by b mod w (R195). -/
def iShl (n : Nat) (a b : BitVec n) : BitVec n := a <<< (b.toNat % n)
def iShr (n : Nat) (a b : BitVec n) : BitVec n := a >>> (b.toNat % n)
def iSra (n : Nat) (a b : BitVec n) : BitVec n := a.sshiftRight (b.toNat % n)
def iRol (n : Nat) (a b : BitVec n) : BitVec n := a.rotateLeft (b.toNat % n)

/-- R197. -/
def iClz (n : Nat) (a _ : BitVec n) : BitVec n := BitVec.ofNat n (if a = 0 then n else n - 1 - Nat.log2 a.toNat)
def iCtz (n : Nat) (a _ : BitVec n) : BitVec n := BitVec.ofNat n (((List.range n).find? fun i => a.getLsbD i).getD n)
def iPopc (n : Nat) (a _ : BitVec n) : BitVec n := BitVec.ofNat n ((List.range n).countP fun i => a.getLsbD i)
def iBrev (n : Nat) (a _ : BitVec n) : BitVec n := BitVec.ofNat n ((List.range n).foldl (fun acc i => 2 * acc + (a.getLsbD i).toNat) 0)

/-- The signed immediate of format I (R29). -/
def immWord (imm : BitVec 48) : Word := imm.signExtend 64

/-- A result in gD under the guard. -/
def setG (g : Guard) (d : GReg) (s : State) (r : Thread → Word) : Out := guarded g s fun t => .next (s.setCur (t.wg d (r t)))

/-- A result in pD under the guard. -/
def setP (g : Guard) (d : Reg3) (s : State) (r : Thread → Bool) : Out := guarded g s fun t => .next (s.setCur (t.wp d (r t)))

def aluA (f : (n : Nat) → BitVec n → BitVec n → BitVec n) (x : AluA) (s : State) : Out :=
  setG x.g x.d s fun t => atWidth f x.w (t.rg x.a) (t.rg x.b)

def aluI (f : (n : Nat) → BitVec n → BitVec n → BitVec n) (x : AluI) (s : State) : Out :=
  setG x.g x.d s fun t => f 64 (t.rg x.a) (immWord x.imm)

def aluSh (f : (n : Nat) → BitVec n → BitVec n → BitVec n) (x : ShI) (s : State) : Out :=
  setG x.g x.d s fun t => f 64 (t.rg x.a) (x.count.setWidth 64)

def aluU (f : (n : Nat) → BitVec n → BitVec n → BitVec n) (x : UnA) (s : State) : Out :=
  setG x.g x.d s fun t => atWidth f x.w (t.rg x.a) 0

def execAdd (x : AluA) (s : State) : Out := aluA iAdd x s
def execAddImm (x : AluI) (s : State) : Out := aluI iAdd x s
def execSub (x : AluA) (s : State) : Out := aluA iSub x s
def execSubImm (x : AluI) (s : State) : Out := aluI iSub x s
def execMul (x : AluA) (s : State) : Out := aluA iMul x s
def execMulImm (x : AluI) (s : State) : Out := aluI iMul x s
def execMulh (x : AluA) (s : State) : Out := aluA iMulh x s
def execMulhImm (x : AluI) (s : State) : Out := aluI iMulh x s
def execMulhu (x : AluA) (s : State) : Out := aluA iMulhu x s
def execMulhuImm (x : AluI) (s : State) : Out := aluI iMulhu x s
def execDiv (x : AluA) (s : State) : Out := aluA iDiv x s
def execDivImm (x : AluI) (s : State) : Out := aluI iDiv x s
def execDivu (x : AluA) (s : State) : Out := aluA iDivu x s
def execDivuImm (x : AluI) (s : State) : Out := aluI iDivu x s
def execRem (x : AluA) (s : State) : Out := aluA iRem x s
def execRemImm (x : AluI) (s : State) : Out := aluI iRem x s
def execRemu (x : AluA) (s : State) : Out := aluA iRemu x s
def execRemuImm (x : AluI) (s : State) : Out := aluI iRemu x s
def execMin (x : AluA) (s : State) : Out := aluA iMin x s
def execMinImm (x : AluI) (s : State) : Out := aluI iMin x s
def execMax (x : AluA) (s : State) : Out := aluA iMax x s
def execMaxImm (x : AluI) (s : State) : Out := aluI iMax x s
def execMinu (x : AluA) (s : State) : Out := aluA iMinu x s
def execMinuImm (x : AluI) (s : State) : Out := aluI iMinu x s
def execMaxu (x : AluA) (s : State) : Out := aluA iMaxu x s
def execMaxuImm (x : AluI) (s : State) : Out := aluI iMaxu x s
def execAnd (x : AluA) (s : State) : Out := aluA iAnd x s
def execAndImm (x : AluI) (s : State) : Out := aluI iAnd x s
def execOr (x : AluA) (s : State) : Out := aluA iOr x s
def execOrImm (x : AluI) (s : State) : Out := aluI iOr x s
def execXor (x : AluA) (s : State) : Out := aluA iXor x s
def execXorImm (x : AluI) (s : State) : Out := aluI iXor x s
def execAndn (x : AluA) (s : State) : Out := aluA iAndn x s
def execAndnImm (x : AluI) (s : State) : Out := aluI iAndn x s
def execOrn (x : AluA) (s : State) : Out := aluA iOrn x s
def execOrnImm (x : AluI) (s : State) : Out := aluI iOrn x s
def execShl (x : AluA) (s : State) : Out := aluA iShl x s
def execShlImm (x : ShI) (s : State) : Out := aluSh iShl x s
def execShr (x : AluA) (s : State) : Out := aluA iShr x s
def execShrImm (x : ShI) (s : State) : Out := aluSh iShr x s
def execSra (x : AluA) (s : State) : Out := aluA iSra x s
def execSraImm (x : ShI) (s : State) : Out := aluSh iSra x s
def execRol (x : AluA) (s : State) : Out := aluA iRol x s
def execRolImm (x : ShI) (s : State) : Out := aluSh iRol x s
def execClz (x : UnA) (s : State) : Out := aluU iClz x s
def execCtz (x : UnA) (s : State) : Out := aluU iCtz x s
def execPopc (x : UnA) (s : State) : Out := aluU iPopc x s
def execBrev (x : UnA) (s : State) : Out := aluU iBrev x s

/-! ### Fields, comparison, selection, addresses (R197 to R199) -/

def execSext (x : ExtA) (s : State) : Out := setG x.g x.d s fun t => ((t.rg x.a).extractLsb' 0 x.n.toNat).signExtend 64
def execZext (x : ExtA) (s : State) : Out := setG x.g x.d s fun t => ((t.rg x.a).extractLsb' 0 x.n.toNat).setWidth 64

def execBfx (x : BfxA) (s : State) : Out :=
  setG x.g x.d s fun t =>
    let f := (t.rg x.a).extractLsb' x.pos.toNat (x.len1.toNat + 1)
    if x.sx then f.signExtend 64 else f.setWidth 64

/-- gD with the field at pos replaced by the low len bits of gA (R198). -/
def bfi (old v : Word) (pos len : Nat) : Word :=
  let mask := (BitVec.allOnes len).setWidth 64 <<< pos
  (old &&& ~~~mask) ||| ((v <<< pos) &&& mask)

def execBfi (x : BfiA) (s : State) : Out := setG x.g x.d s fun t => bfi (t.rg x.d) (t.rg x.a) x.pos.toNat (x.len1.toNat + 1)

/-- A condition at a width (R37, R199). -/
def cmpW (c : ICond) (w : Width) (a b : Word) : Bool :=
  match w with
  | .w64 => icond c a b
  | .w32 => icond c (a.setWidth 32) (b.setWidth 32)
  | .w16 => icond c (a.setWidth 16) (b.setWidth 16)
  | .w8 => icond c (a.setWidth 8) (b.setWidth 8)

def execCmp (x : CmpA) (s : State) : Out := setP x.g x.d s fun t => cmpW x.c x.w (t.rg x.a) (t.rg x.b)
def execCmpImm (x : CmpI) (s : State) : Out := setP x.g x.d s fun t => icond x.c (t.rg x.a) (immWord x.imm)
def execSel (x : SelA) (s : State) : Out := setG x.g x.d s fun t => if t.rp x.c then t.rg x.a else t.rg x.b
def execMov (x : GD) (s : State) : Out := setG x.g x.d s fun t => t.rg x.a
def execLi (x : LiI) (s : State) : Out := setG x.g x.d s fun _ => immWord x.imm
def execLea (x : LeaA) (s : State) : Out := setG x.g x.d s fun t => t.rg x.a + (t.rg x.b <<< x.k.toNat)
def execLeaImm (x : AluI) (s : State) : Out := setG x.g x.d s fun t => t.rg x.a + immWord x.imm

/-! ### Scalar floating point (R200 to R203) -/

/-- The format of a type of class F (R217); the others have none. -/
def ffmt : ElemType → FFmt
  | .f32 => fp32
  | .f16 => fp16
  | .bf16 => bf16
  | _ => fp64

/-- The code in the low bits of a register (R200). -/
def lowCode (w : Nat) (v : Word) : Nat := v.toNat % 2 ^ w

/-- A floating result with its flags: gD and RCTL (R181, R200). -/
def setF (g : Guard) (d : GReg) (s : State) (r : Thread → Nat × Fl) : Out :=
  guarded g s fun t =>
    let (c, f) := r t
    .next (s.setCur ((t.wg d (BitVec.ofNat 64 c)).orFlags f))

def fpR (op : FFmt → Round → Nat → Nat → Nat × Fl) (x : FpR) (s : State) : Out :=
  setF x.g x.d s fun t =>
    let f := ffmt x.ty
    op f (t.round x.rm) (lowCode f.width (t.rg x.a)) (lowCode f.width (t.rg x.b))

def execFadd (x : FpR) (s : State) : Out := fpR FFmt.fadd x s
def execFsub (x : FpR) (s : State) : Out := fpR FFmt.fsub x s
def execFmul (x : FpR) (s : State) : Out := fpR FFmt.fmul x s

def fpMinMax (big : Bool) (x : FpB) (s : State) : Out :=
  setF x.g x.d s fun t =>
    let f := ffmt x.ty
    (f.fminmax big (lowCode f.width (t.rg x.a)) (lowCode f.width (t.rg x.b)), 0)

def execFmin (x : FpB) (s : State) : Out := fpMinMax false x s
def execFmax (x : FpB) (s : State) : Out := fpMinMax true x s

def execFabs (x : FpU) (s : State) : Out :=
  setF x.g x.d s fun t => ((ffmt x.ty).fabs (lowCode (ffmt x.ty).width (t.rg x.a)), 0)

def execFneg (x : FpU) (s : State) : Out :=
  setF x.g x.d s fun t => ((ffmt x.ty).fneg (lowCode (ffmt x.ty).width (t.rg x.a)), 0)

def execFfma (x : FpF) (s : State) : Out :=
  setF x.g x.d s fun t =>
    let f := ffmt x.ty
    let c := fun r => lowCode f.width (t.rg r)
    f.ffma (t.round x.rm) false (c x.a) (c x.b) (c x.c)

def execFcmp (x : FpC) (s : State) : Out :=
  setP x.g x.d s fun t =>
    let f := ffmt x.ty
    f.fcmp x.c (lowCode f.width (t.rg x.a)) (lowCode f.width (t.rg x.b))

/-- The bad-format trap of R175. -/
def badFormat (s : State) : Out := trapAt s 0x1E 0 0

def execFclass (x : FpU) (s : State) : Out :=
  guarded x.g s fun t =>
    match numFmt t.rf x.ty with
    | some (.flt f) => .next (s.setCur (t.wg x.d (1#64 <<< f.fclass (lowCode f.width (t.rg x.a)))))
    | _ => badFormat s

/-- A converted code as a register value: an integer sign-extended, a floating code zero-extended (R203). -/
def NumFmt.toReg (n : NumFmt) (c : Nat) : Word :=
  match n with
  | .int w => BitVec.ofInt 64 (sextN w c)
  | _ => BitVec.ofNat 64 c

/-- The code of an operand, with a LUT4 code looked up (R177). -/
def NumFmt.operand (n : NumFmt) (lut : List Byte) (c : Nat) : Nat :=
  match n with
  | .lut4 => lutRead lut c
  | n => c % 2 ^ n.width

def execFcvt (x : FpV) (s : State) : Out :=
  guarded x.g s fun t =>
    match numFmt t.rf x.dst, numFmt t.rf x.src with
    | some nd, some ns =>
      let (c, f) := convert x.dst x.src nd ns (t.round x.rm) x.sat (ns.operand (s.core s.cur.core).lut (t.rg x.a).toNat)
      .next (s.setCur ((t.wg x.d (nd.toReg c)).orFlags f))
    | _, _ => badFormat s

def execFrnd (x : FpN) (s : State) : Out :=
  setF x.g x.d s fun t => (ffmt x.ty).frnd (t.round x.rm) (lowCode (ffmt x.ty).width (t.rg x.a))

end Sys2Proof.Machine
end

