-- ==== Sys2Proof/Machine/MemPath.lean ====
section
/-! DEFINITION. The paths of an access to memory: sectors through the L1 (R94), through the home for engine and copy paths (R89), under
ladings (R100), to SH pages (R76) and to scratchpads (R151), with the reader records of R334 and the consignment of R322. -/

namespace Sys2Proof.Machine

/-- The thread that an access belongs to. -/
structure Who where
  p : Nat
  core : Nat
  slot : Nat
  region : Nat
  tid : BitVec 32
  /-- The operation that awaits the acknowledgements of the messages that the access sends. -/
  op : Option Nat
  /-- The place of its instruction. -/
  no : Nat
  /-- The access is non-temporal (R132). -/
  nt : Bool
  /-- The stream and the operation whose reads count as loads (R114, R120). -/
  str : Option (BitVec 3 × Nat)
  deriving DecidableEq, Repr

/-- The thread of a slot as the owner of its accesses. -/
def State.who (s : State) (c k : Nat) (t : Thread) : Who := ⟨s.partOf c, c, k, t.region, t.tid, none, 0, false, none⟩

/-- The thread of a slot as the owner of what an operation reads and writes. -/
def State.whoOp (s : State) (c k : Nat) (t : Thread) (o : Op) : Who := { s.who c k t with no := o.no, str := o.stream.map fun n => (n, o.id) }

/-- What a part of an access answers: its value, that it waits, or that it met an uncorrectable error (R361). -/
inductive Got (α : Type) where
  | ok (a : α) (s : State)
  | busy (s : State)
  | poison (b : Bad) (s : State)

def Got.bind (x : Got α) (f : α → State → Got β) : Got β :=
  match x with
  | .ok a s => f a s
  | .busy s => .busy s
  | .poison k s => .poison k s

/-- A fold of parts, from the first that does not go on. -/
def gotAll (f : β → State → Got α) : List β → State → Got (List α)
  | [], s => .ok [] s
  | x :: l, s => (f x s).bind fun a s => (gotAll f l s).bind fun as s => .ok (a :: as) s

/-! ### Ladings (R100) -/

/-- The thread holds a lading. -/
def Lading.mine (l : Lading) (w : Who) : Bool := l.st == .held && l.core = w.core && l.slot = w.slot && l.tid = w.tid

/-- How the lading of an address stands for a thread: none, its own entry, or one that it waits for. Once a holder's core has given its
sectors up, what waited performs, before the next grant (R101, R104, R105). -/
inductive LadSee where
  | none
  | mine (i : Nat)
  | other (i : Nat)
  deriving DecidableEq, Repr

def State.ladSee (s : State) (w : Who) (pa : Nat) : LadSee :=
  match s.lading? w.p pa with
  | some (i, l) => if l.clear then .none else if l.mine w then .mine i else .other i
  | none => .none

/-! ### Sectors (R93 to R95) -/

/-- The home obtains a host-range sector from the host (R99): RdShared, or RdOwn for a write. -/
def State.hostGet (s : State) (p sec : Nat) (own : Bool) : State :=
  if inHost (64 * sec) then s.modPart p fun q => { q with hostSecs := aset sec (own || (alook sec q.hostSecs).getD false) q.hostSecs } else s

/-- A message of a core is on its way whose ACK or WBACK an operation awaits (R94, R135). -/
def State.awaitAck (s : State) (c sec : Nat) (r : OpRef) : State := s.modCore c fun y => { y with acks := y.acks ++ [(sec, r)] }

/-- The error that a read of a sector at its home binds (R411): that of its owner's copy, else that of memory. -/
def State.homeBad (s : State) (p sec : Nat) : Option Nat :=
  match (s.holders p sec).findSome? fun c => (s.l1 c sec).filter fun x => x.st == .m || x.st == .mia || x.st == .e with
  | some x => x.bad
  | none => s.poisonOf sec

/-- A read of a sector binds its error, or goes on. -/
def Got.unlessBad (kind : Option Nat) (sec : Nat) (s : State) (x : Got α) : Got α :=
  match kind with
  | some k => .poison ⟨k, .mem sec⟩ s
  | none => x

/-- A sector that has just been filled is placed first for replacement where the access is non-temporal (R132). -/
def State.markNt (s : State) (w : Who) (sec : Nat) : State :=
  if w.nt then
    match s.l1 w.core sec with
    | some x => s.setL1 w.core sec { x with nt := true }
    | none => s
  else s

/-- A request for a sector leaves the L1, which waits in a state for its DATA; a holder's names its Lading Table entry (R94). -/
def State.askHome (s : State) (w : Who) (sec : Nat) (st : L1St) (ex : Bool) (lad : Option Nat := none) : State :=
  let x : L1Sec := match s.l1 w.core sec with
    | some y => { y with st := st }
    | none => { L1Sec.of st 0 with nt := w.nt }
  (s.setL1 w.core sec x).push [if ex then .getx ⟨w.core, 64 * sec, lad⟩ else .gets ⟨w.core, 64 * sec, lad⟩]

/-- The data of a sector that the L1 holds. -/
def State.l1Data (s : State) (c sec : Nat) : V512 := (s.l1 c sec).elim (memSector s.mem (64 * sec)) (·.data)

/-- A write to a sector of page table waits for the accesses that have translated through it (R78). -/
def State.tuWaits (s : State) (w : Who) (sec : Nat) : Bool :=
  (s.entry w.p (sec / 4)).tu && s.tuHeld (sec / 4) (some ((w.core, w.slot), w.no))

/-- A sector that an L1 reads: from the L1, else granted by the home, or in L under the thread's own lading. -/
def State.l1Read (s : State) (w : Who) (sec : Nat) (ex : Bool) : Got V512 :=
  match s.ladSee w (64 * sec) with
  | .other i => .busy (s.ladWait w.p i none)
  | .mine i =>
    match s.l1 w.core sec with
    | some x => if x.st ≠ .l then .busy s else .unlessBad x.bad sec s (.ok x.data s)
    | none =>
      if !s.homeFree w.p sec then .busy s
      else .unlessBad (s.poisonOf sec) sec s
        (if s.slow then .busy (s.askHome w sec .ild false (some i))
        else
          let d := memSector s.mem (64 * sec)
          .ok d ((s.setL1 w.core sec { L1Sec.of .l d with entry := i }).markNt w sec))
  | .none =>
    match s.l1 w.core sec with
    | some x =>
      match x.st with
      | .m | .e | .s | .sw => .unlessBad x.bad sec s (.ok x.data s)
      | _ => .busy s
    | none =>
      if !s.grantable w.p w.core sec then .busy s
      else .unlessBad (s.homeBad w.p sec) sec s
        (if s.slow then .busy (s.askHome w sec (if ex then .imd else .isd) ex)
        else
          let s := s.hostGet w.p sec ex
          let s := (if ex then s.grantWrite w.p w.core sec else s.grantRead w.p w.core sec).markNt w sec
          .ok (s.l1Data w.core sec) s)

/-- Masked bytes are stored into a sector in M, E or L, or through SW at the home; the WRT of an operation that can await its ACK is a
message (R94). -/
def State.l1Put (s : State) (w : Who) (sec : Nat) (data : V512) (mask : BitVec 64) : State :=
  match s.l1 w.core sec with
  | some x =>
    match x.st with
    | .sw =>
      match (if s.slow then w.op else none) with
      | some id => (s.awaitAck w.core sec ⟨w.core, w.slot, id⟩).push [.wrt ⟨.l1 w.core, 64 * sec, data, mask, none, none⟩]
      | none => s.homeWrite w.p sec (some w.core) data mask none
    | .l => s.setL1 w.core sec { x.merge data mask with dirty := x.dirty ||| mask }
    | _ =>
      let s := s.beforeWrite w.p sec none
      let y := { x.merge data mask with st := .m }
      let s := if y.bad.isSome then s else s.setPoison sec none
      (s.setL1 w.core sec y).linkWrite w.p sec
  | none => s

/-- A sector is brought to the L1 with the right to write it: M, SW, or L under the thread's own lading. Poison comes with it: a store binds no
error (R411). -/
def State.l1Own (s : State) (w : Who) (sec : Nat) : Got V512 :=
  match s.ladSee w (64 * sec) with
  | .other i => .busy (s.ladWait w.p i none)
  | .mine i =>
    match s.l1 w.core sec with
    | some x => if x.st == .l then .ok x.data s else .busy s
    | none =>
      if !s.homeFree w.p sec then .busy s
      else if s.slow then .busy (s.askHome w sec .ild false (some i))
      else
        let d := memSector s.mem (64 * sec)
        .ok d ((s.setL1 w.core sec { L1Sec.of .l d with entry := i, bad := s.poisonOf sec }).markNt w sec)
  | .none =>
    let st := (s.l1 w.core sec).map (·.st)
    if s.tuWaits w sec then .busy s
    else if st = some .m || st = some .e || st = some .sw then
      (if st = some .sw && !s.homeFree w.p sec then .busy s else .ok (s.l1Data w.core sec) s)
    else if st.isSome && st ≠ some .s then .busy s
    else if !s.grantable w.p w.core sec then .busy s
    else if s.slow then .busy (s.askHome w sec (if st.isSome then .sma else .imd) true)
    else
      let s := ((s.hostGet w.p sec true).grantWrite w.p w.core sec).markNt w sec
      .ok (s.l1Data w.core sec) s

/-- A sector that a path reads at the home (R89); its own lading's sectors are read where the holder has them. -/
def State.pathSec (s : State) (w : Who) (sec : Nat) : Got V512 :=
  match s.ladSee w (64 * sec) with
  | .other i => .busy (s.ladWait w.p i none)
  | .mine _ => .unlessBad ((s.l1 w.core sec).elim (s.poisonOf sec) (·.bad)) sec s (.ok (s.l1Data w.core sec) s)
  | .none =>
    if !s.homeFree w.p sec then .busy s
    else .unlessBad (s.homeBad w.p sec) sec s
      (let s := (s.hostGet w.p sec false).homeRead w.p sec
      .ok (memSector s.mem (64 * sec)) s)

/-- Masked bytes of a sector are written at the home: a path write, or an atomic of a wide scope (R93, R95). -/
def State.pathPut (s : State) (w : Who) (sec : Nat) (data : V512) (mask : BitVec 64) (key : Option (Nat × Key)) : Got Unit :=
  match s.ladSee w (64 * sec) with
  | .other i => .busy (s.ladWait w.p i none)
  | .mine i =>
    match s.l1 w.core sec with
    | some x => .ok () (s.setL1 w.core sec { x.merge data mask with dirty := x.dirty ||| mask })
    | none =>
      let x : L1Sec := { L1Sec.of .l (memSector s.mem (64 * sec)) with entry := i, bad := s.poisonOf sec }
      .ok () (s.setL1 w.core sec { x.merge data mask with dirty := mask })
  | .none =>
    if !s.homeFree w.p sec || s.tuWaits w sec then .busy s
    else
      let s := s.hostGet w.p sec true
      let keep := match (s.l1 w.core sec).map (·.st) with
        | some .sw => some w.core
        | _ => none
      .ok () (s.homeWrite w.p sec keep data mask key)

/-! ### Bytes -/

/-- Bytes o to o + n - 1 of a sector. -/
def sectorPart (d : V512) (o n : Nat) : List Byte := ((sectorBytes d).drop o).take n

/-- How a run is read: as a load, as a load with EX, or as a path reads. -/
inductive Via where
  | l1 (ex : Bool)
  | path
  deriving DecidableEq, Repr

/-- Bytes of memory that no cache keeps (R76, R92). -/
def State.memGet (s : State) (a n : Nat) : Got (List Byte) :=
  match (pieces a n).findSome? fun y => (s.poisonOf y.1).map fun k => (⟨k, .mem y.1⟩ : Bad) with
  | some b => .poison b s
  | none => .ok (memBytes s.mem a n) s

/-- The bytes of a run. -/
def State.readSeg (w : Who) (via : Via) (x : Seg) (s : State) : Got (List Byte) :=
  match x.core with
  | some c =>
    if s.spHeld c x.addr x.len then .busy s
    else match s.spPoison c x.addr x.len with
      | some b => .poison b s
      | none => .ok (memBytes (s.core c).sp x.addr x.len) s
  | none =>
    if x.sh then s.memGet x.addr x.len
    else
      (gotAll (fun (y : Nat × Nat × Nat) s =>
        (match via with
          | .l1 ex => s.l1Read w y.1 ex
          | .path => s.pathSec w y.1).bind fun d s => .ok (sectorPart d y.2.1 y.2.2) s) (pieces x.addr x.len) s).bind fun l s => .ok l.flatten s

/-- The bytes of the runs of an access. -/
def State.readSegs (w : Who) (via : Via) (l : List Seg) (s : State) : Got (List Byte) :=
  (gotAll (State.readSeg w via) l s).bind fun bs s => .ok bs.flatten s

/-- Runs paired with their bytes. -/
def cutSegs : List Seg → List Byte → List (Seg × List Byte)
  | [], _ => []
  | x :: l, bs => (x, bs.take x.len) :: cutSegs l (bs.drop x.len)

/-- A run is brought to where it can be written. -/
def State.ownSeg (w : Who) (x : Seg) (s : State) : Got Unit :=
  match x.core with
  | some c => if s.spHeld c x.addr x.len then .busy s else .ok () s
  | none =>
    if x.sh then .ok () s
    else (gotAll (fun (y : Nat × Nat × Nat) s => s.l1Own w y.1) (pieces x.addr x.len) s).bind fun _ s => .ok () s

/-- The bytes of a run are stored. -/
def State.putSeg (w : Who) (x : Seg) (bs : List Byte) (s : State) : State :=
  match x.core with
  | some c => s.spWrite c x.addr bs none
  | none =>
    if x.sh then s.memPut x.addr bs
    else (pieces x.addr x.len).foldl (fun s y =>
      s.l1Put w y.1 (runData y.2.1 ((bs.drop (64 * y.1 + y.2.1 - x.addr)).take y.2.2)) (runMask y.2.1 y.2.2)) s

/-- A store of the runs of an access: all are brought in, then all are written. -/
def State.storeSegs (w : Who) (l : List Seg) (bs : List Byte) (s : State) : Got Unit :=
  (gotAll (State.ownSeg w) l s).bind fun _ s => .ok () ((cutSegs l bs).foldl (fun s e => State.putSeg w e.1 e.2 s) s)

/-- The bytes of a run are written as a path writes them. -/
def State.pathSeg (w : Who) (x : Seg) (bs : List Byte) (key : Option (Nat × Key)) (s : State) : Got Unit :=
  match x.core with
  | some c => if s.spHeld c x.addr x.len then .busy s else .ok () (s.spWrite c x.addr bs key)
  | none =>
    if x.sh then .ok () (s.memPut x.addr bs)
    else (gotAll (fun (y : Nat × Nat × Nat) s =>
      s.pathPut w y.1 (runData y.2.1 ((bs.drop (64 * y.1 + y.2.1 - x.addr)).take y.2.2)) (runMask y.2.1 y.2.2) key) (pieces x.addr x.len) s).bind
        fun _ s => .ok () s

/-- Path writes of runs. -/
def State.pathSegs (w : Who) (l : List Seg) (bs : List Byte) (key : Option (Nat × Key)) (s : State) : Got Unit :=
  (gotAll (fun (e : Seg × List Byte) s => State.pathSeg w e.1 e.2 key s) (cutSegs l bs) s).bind fun _ s => .ok () s

/-! ### The consignment (R322, R334) -/

/-- The pieces of an access as consignment places with their offsets and lengths. -/
def placesOf (l : List Seg) : List (Place × Nat × Nat) :=
  l.flatMap fun x => (pieces x.addr x.len).map fun y =>
    (match x.core with
      | some c => Place.loc c y.1
      | none => if x.sh then Place.sh y.1 else Place.mem y.1, y.2.1, y.2.2)

def Consign.entry? (x : Consign) (pl : Place) : Option SectEntry := x.sects.find? fun e => e.place = pl

/-- A sector with the bits of a mask replaced. -/
def mergeBits (old new bits : V512) : V512 := (new &&& bits) ||| (old &&& ~~~bits)

/-- Bytes as the activation sees them: its own entries over ordinary memory (R123). -/
def Consign.overlay (x : Consign) : List (Place × Nat × Nat) → List Byte → List Byte
  | [], _ => []
  | (pl, o, n) :: l, bs =>
    (match x.entry? pl with
      | some e => sectorPart (mergeBits (runData o (bs.take n)) e.data e.bits) o n
      | none => bs.take n) ++ x.overlay l (bs.drop n)

/-- The entries that writes of these places would add. -/
def Consign.newEntries (x : Consign) (ps : List (Place × Nat × Nat)) : Nat := ((ps.map (·.1)).filter fun p => (x.entry? p).isNone).dedup.length

/-- A write of bits merges into an entry (R322), or follows the atomics that only the owner can apply. -/
def SectEntry.put (e : SectEntry) (data : V512) (mask : BitVec 64) (bits : V512) (scope : BitVec 2) : SectEntry :=
  let e := { e with mask := e.mask ||| mask, scope := wider e.scope scope }
  if e.after.isEmpty then { e with data := mergeBits e.data data bits, bits := e.bits ||| bits } else { e with after := e.after ++ [.bits data bits] }

/-- An atomic without a result that leaves the cluster merges into an entry (R153): its old value is the owner's at clearing. -/
def SectEntry.putAct (e : SectEntry) (off : Nat) (act : RemoteAct) (mask : BitVec 64) (scope : BitVec 2) : SectEntry :=
  { e with after := e.after ++ [.rmw off act], mask := e.mask ||| mask, scope := wider e.scope scope }

/-- A write merges into the entry of its place, or takes a new one (R322). -/
def Consign.modEntry (x : Consign) (pl : Place) (lcn : Nat) (f : SectEntry → SectEntry) : Consign :=
  match x.entry? pl with
  | some _ => { x with sects := x.sects.map fun e => if e.place = pl then f e else e }
  | none => { x with sects := x.sects ++ [f ⟨pl, lcn, 0, 0, 0, [], 0, false, false⟩] }

/-- A write of bits in masked bytes enters the consignment. -/
def Consign.enter (x : Consign) (pl : Place) (lcn : Nat) (data : V512) (mask : BitVec 64) (bits : V512) (scope : BitVec 2) : Consign :=
  x.modEntry pl lcn fun e => e.put data mask bits scope

/-- Bytes of an access enter the consignment; `parts` holds the bits of each byte that are written. -/
def Consign.enterBytes (x : Consign) (lcnOf : Nat → Nat) (scope : BitVec 2) : List (Place × Nat × Nat) → List Byte → List Byte → Consign
  | [], _, _ => x
  | (pl, o, n) :: l, bs, parts =>
    (x.enter pl (match pl with
      | .loc c _ => lcnOf c
      | .mem _ | .sh _ => 0) (runData o (bs.take n)) (runMask o n) (runData o (parts.take n)) scope).enterBytes lcnOf scope l (bs.drop n) (parts.drop n)

/-- The thread's consignment with writes entered; in an ordered activation each write sends its intent (R334). -/
def State.consWrite (s : State) (c k : Nat) (t : Thread) (l : List Seg) (bs parts : List Byte) (scope : BitVec 2) : State :=
  match t.cons with
  | none => s
  | some x =>
    let lcnOf := fun (d : Nat) => ((s.region? t.region).bind fun r => s.lcnOf r d).getD 0
    let ps := placesOf l
    let s := s.modThread c k fun t => { t with cons := some (x.enterBytes lcnOf scope ps bs parts) }
    if x.mode = 3 then s.push ((ps.map (·.1)).dedup.map fun p => .writeIntent ⟨t.region, p, x.order⟩) else s

/-- An atomic of another cluster's scratchpad enters the consignment as an operation: no instruction reads that memory (R123, R153). -/
def State.consAct (s : State) (c k : Nat) (t : Thread) (d off : Nat) (act : RemoteAct) (n : Nat) (scope : BitVec 2) : State :=
  match t.cons with
  | none => s
  | some x =>
    let lcn := ((s.region? t.region).bind fun r => s.lcnOf r d).getD 0
    let pl := Place.loc d (off / 64)
    let s := s.modThread c k fun t => { t with cons := some (x.modEntry pl lcn fun e => e.putAct (off % 64) act (runMask (off % 64) n) scope) }
    if x.mode = 3 then s.push [.writeIntent ⟨t.region, pl, x.order⟩] else s

/-- An activation records what it reads while it is speculative. -/
def Consign.records (x : Consign) : Bool := x.mode = 3 && x.spec && !x.demote

/-- The sectors that a read takes from ordinary memory: those of which some byte is not in the consignment. -/
def Consign.outside (x : Consign) (ps : List (Place × Nat × Nat)) : List Place :=
  (ps.filter fun y => match x.entry? y.1 with
    | some e => expandMask (runMask y.2.1 y.2.2) &&& ~~~e.bits ≠ 0
    | none => true).map (·.1)

/-- A reader record grows by a sector, or is entered (R334). -/
def addReader (rs : List Reader) (name bit : Nat) (key : Key) (region : Nat) : List Reader :=
  if rs.any fun r => r.name = name && r.key = key && r.region = region then
    rs.map fun r => if r.name = name && r.key = key && r.region = region then { r with smask := r.smask ||| (1#4 <<< bit) } else r
  else rs ++ [⟨name, 1#4 <<< bit, key, region⟩]

/-- A reader record for a place; none when no block or table entry is free (R334). -/
def State.enterReader (s : State) (w : Who) (key : Key) (pl : Place) : Option State :=
  match pl with
  | .sh _ => some s
  | .mem sec =>
    match s.part? w.p with
    | none => some s
    | some q =>
      let q' : Part := { q with readers := addReader q.readers (sec / 4) (sec % 4) key w.region }
      if q'.blocksUsed ≤ q.blocksUsed || q'.blocksUsed ≤ q.blocks then
        some ((((s.recall w.p sec false none).modPart w.p fun y => { y with readers := q'.readers }).modEntry w.p (sec / 4) fun e =>
          { e with chain := some (e.chain.getD (q.freeBlock (Config.block s.fresh))) }))
      else none
  | .loc c sec =>
    let rs := addReader (s.core c).readers (sec / 4) (sec % 4) key w.region
    if rs.length ≤ 512 then some (s.modCore c fun y => { y with readers := rs }) else none

/-- The read bit of the slot is set in the tags of the sectors that its core's L1 holds (R334). -/
def State.markRead (s : State) (w : Who) (pl : Place) : State :=
  match pl with
  | .mem sec => match s.l1 w.core sec with
    | some x => s.setL1 w.core sec { x with rd := x.rd ||| readBit w.tid }
    | none => s
  | .loc _ _ | .sh _ => s

/-- Reader records for every place; none when one cannot be entered. -/
def State.enterReaders (s : State) (w : Who) (key : Key) : List Place → Option State
  | [] => some s
  | p :: l => (s.enterReader w key p).bind fun s => s.enterReaders w key l

/-- Two runs share a byte. -/
def Seg.meets (x y : Seg) : Bool := x.core = y.core && decide (x.addr < y.addr + y.len) && decide (y.addr < x.addr + x.len)

/-- A store waits at the home for another thread's lading (R100). -/
def State.ladStays (s : State) (w : Who) (a : MemAcc) : Bool := a.segs.any fun x => s.ladSee w x.addr matches .other _

/-- The stores in the store path of a core that share a byte with runs of an access (R107): those of other threads, and with `own` those of the
thread itself, which a path that it started binds but its direct path follows by R111. One that waits for another thread's lading is not bound. -/
def State.pathStores (s : State) (w : Who) (own : Bool) (l : List Seg) : List (OpRef × MemAcc) :=
  s.threads.flatMap fun e =>
    if e.1.1 ≠ w.core || (e.1.2 = w.slot && !own) || e.2.buffered then []
    else e.2.ops.filterMap fun o => match o.kind with
      | .acc a =>
        if o.inPath && a.segs.any (fun x => l.any x.meets) && !s.ladStays (s.who e.1.1 e.1.2 e.2) a then some (⟨e.1.1, e.1.2, o.id⟩, a) else none
      | _ => none

/-- A store's bytes laid over the bytes of a run. -/
def forwardRun (x : Seg) (bs : List Byte) (a : MemAcc) : List Byte :=
  match a.act with
  | .store new => (cutSegs a.segs new).foldl (fun bs e =>
      if e.1.core.isNone && x.core.isNone then
        (List.range bs.length).map fun i =>
          if e.1.addr ≤ x.addr + i && x.addr + i < e.1.addr + e.1.len then e.2.getD (x.addr + i - e.1.addr) 0 else bs.getD i 0
      else bs) bs
  | _ => bs

/-- A read of an operation has bound stores of the store path: the edges that name its stream wait for them, those of operations that it held back
already too (R114). -/
def Thread.bindsPath (t : Thread) (n : BitVec 3) (id : Nat) (l : List OpRef) : Thread :=
  { t with
    fwds := t.fwds ++ l.map fun r => (n, r)
    ops := t.ops.map fun y => if y.deps.contains (.op id) && y.pmask.getLsbD n.toNat then { y with deps := (y.deps ++ l.map Dep.far).dedup } else y }

/-- The bytes of runs as the threads of a core and their paths bind them: those of its store path over memory (R106, R107, R108). Stores of two
threads to the bytes have no order before they perform: the access waits. -/
def State.readBound (w : Who) (via : Via) (l : List Seg) (s : State) : Got (List Byte) :=
  let ps := s.pathStores w (via == .path) l
  if ps.isEmpty then State.readSegs w via l s
  else if 1 < (ps.map (·.1.slot)).dedup.length then .busy s
  else
    (State.readSegs w via l s).bind fun bs s =>
      let bs := ((cutSegs l bs).map fun e => ps.foldl (fun b p => forwardRun e.1 b p.2) e.2).flatten
      .ok bs (match w.str with
        | some (n, id) => s.modThread w.core w.slot fun t => t.bindsPath n id (ps.map (·.1))
        | none => s)

/-- The bytes of an access as its thread reads them: recorded when it is speculative, and under its consignment. -/
def State.readFor (w : Who) (t : Thread) (via : Via) (l : List Seg) (s : State) : Got (List Byte) :=
  match (if t.buffered then t.cons else none) with
  | none => State.readBound w via l s
  | some x =>
    let ps := placesOf l
    let out := x.outside ps
    if out.isEmpty then .ok (x.overlay ps []) s
    else
      (State.readBound w via l s).bind fun bs s =>
        match (if x.records then s.enterReaders w x.order out else some s) with
        | none => .busy s
        | some s => .ok (x.overlay ps bs) (if x.records then out.foldl (fun s p => s.markRead w p) s else s)

end Sys2Proof.Machine
end

