-- ==== Sys2Proof/Machine/Watch.lean ====
section
/-! DEFINITION. Cache maintenance (R135), watches (R141 to R144) and ladings (R100 to R105, R146 to R148) at the L1, the home and the
Lading Table. -/

namespace Sys2Proof.Machine

/-! ### Evictions (R94, R135) -/

/-- The owner of a sector no longer holds it: PUTX and PUTE of R95. -/
def State.dropOwner (s : State) (p c sec : Nat) : State :=
  s.modEntry p (sec / 4) fun e =>
    let h := e.sec (sec % 4)
    { e.setSec (sec % 4) { h with st := .u } with ptrs :=
        (e.ptrs.map fun x => if x.1 = c then (c, x.2 &&& ~~~(1#4 <<< (sec % 4))) else x).filter fun x => x.2 ≠ 0 }

/-- Dirty bytes of a sector under a lading are written at the home, with the error that they carry (R411). -/
def State.homeBytes (s : State) (p sec : Nat) (data : V512) (dirty : BitVec 64) (bad : Option Nat) : State :=
  let s := s.homeWrite p sec none data dirty none
  if bad.isSome then s.setPoison sec bad else s

/-- An L1 gives a sector up (R94): M with its data, E with a message, S and SW silently, dirty L bytes as a write by the holder. With `msgs`
the PUTX or PUTE is a message, which WBACK ends, and the write of dirty L bytes a WRT. -/
def State.evict (s : State) (p c sec : Nat) (keepData msgs : Bool) : State :=
  match s.l1 c sec with
  | none => s
  | some x =>
    let put := keepData && x.st == .m
    match x.st with
    | .m | .e =>
      if msgs then
        (s.setL1 c sec { x with st := if put then .mia else .eia }).push
          [if put then .putx ⟨c, 64 * sec, x.data⟩ else .pute ⟨c, 64 * sec⟩]
      else
        let s := if put then { s with mem := memWrite s.mem (64 * sec) (sectorBytes x.data) } else s
        let s := if put && inHost (64 * sec) then s.push [.cxlCacheResponse ⟨64 * sec, .dirtyEvict, x.data⟩] else s
        let s := if put then s.modEntry p (sec / 4) fun e => { e with dirty := e.dirty ||| (1#4 <<< (sec % 4)) } else s
        (s.delL1 c sec).dropOwner p c sec
    | .s | .sw => s.delL1 c sec
    | .l =>
      let s := s.delL1 c sec
      if x.dirty = 0 || !keepData then s
      else if msgs then s.push [.wrt ⟨.lad c, 64 * sec, x.data, x.dirty, none, x.bad⟩]
      else s.homeBytes p sec x.data x.dirty x.bad
    | _ => s

/-- The sectors of a line. -/
def lineSecs (pa : Nat) : List Nat := (List.range 4).map fun i => pa / 256 * 4 + i

/-- An eviction of a sector takes messages: the memory system is slow, or a transaction of the sector is open. -/
def State.evictMsgs (s : State) (p sec : Nat) : Bool := s.slow || !s.homeFree p sec

/-- A core's L1 gives a sector up: at once, or by a message where `evictMsgs` says so. A sector with a message under way keeps its state until
that ends. -/
def State.giveUp (s : State) (c sec : Nat) : State := s.evict (s.partOf c) c sec true (s.evictMsgs (s.partOf c) sec)

/-- A core's L1 writes back its dirty sectors, releases its E and M sectors and drops its S sectors (R88). -/
def State.dropL1 (s : State) (c : Nat) : State := ((s.core c).l1.map (·.1)).foldl (fun s sec => s.giveUp c sec) s

/-- CFLUSH of a sector (R135): dirty L bytes are written back and the sector stays, clean. -/
def State.flushSec (s : State) (w : Who) (sec : Nat) : State :=
  match s.l1 w.core sec with
  | some x =>
    if x.st == .l then
      (if x.dirty = 0 then s else (s.setL1 w.core sec { x with dirty := 0 }).homeBytes w.p sec x.data x.dirty x.bad)
    else s.evict w.p w.core sec true (s.evictMsgs w.p sec)
  | none => s

/-- CFLUSH of a line. -/
def State.flushLine (s : State) (w : Who) (pa : Nat) : State := (lineSecs pa).foldl (fun s x => s.flushSec w x) s

/-- The home writes a line's dirty sectors to the memory-side cache slice, or to the host by DirtyEvict (CFLUSH at system scope, R135). -/
def State.cleanHome (s : State) (p pa : Nat) : State :=
  if inHost pa then
    let own := (((s.part? p).elim [] (·.hostSecs)).filter fun e => e.1 / 4 = pa / 256 && e.2).map (·.1)
    s.push (own.map fun x => .cxlCacheResponse ⟨64 * x, .dirtyEvict, memSector s.mem (64 * x)⟩)
  else s.modEntry p (pa / 256) fun e => { e with dirty := 0 }

/-- CINV of a line (R135): modified bytes are lost. -/
def State.invalLine (s : State) (w : Who) (pa : Nat) : State :=
  (lineSecs pa).foldl (fun s x => s.evict w.p w.core x false (s.evictMsgs w.p x)) s

/-- A WBACK of the line is still to come (R94). -/
def State.lineLeaves (s : State) (c pa : Nat) : Bool := (lineSecs pa).any fun x => (s.l1 c x).any (·.leaves)

/-! ### Watches (R96, R141 to R144) -/

/-- The sector mask of a watch: zero means the sector of the address. -/
def watchMask (ctl : Word) (pa : Nat) : BitVec 4 := if ctl.extractLsb' 0 4 = 0 then 1#4 <<< (pa / 64 % 4) else ctl.extractLsb' 0 4

/-- TARGET of a KIND 1 record (R96): the TID with the physical core in place of the logical one. -/
def watchTarget (tid : BitVec 32) (core : Nat) : BitVec 32 := (tid &&& 0xFC0000FF#32) ||| (BitVec.ofNat 32 (core * 256) &&& 0x03FFFF00#32)

/-- A watcher record grows, or is entered (R96); none when its chain, or the shell of a line outside the L2, needs a block and none is free. -/
def State.addWatcher (s : State) (p line : Nat) (x : Watcher) : Option State :=
  let e := s.entry p line
  let same : Watcher → Bool := fun y => y.kind = x.kind && y.target = x.target && y.eng = x.eng
  if e.watchers.any same then
    some (s.modEntry p line fun e => { e with watchers := e.watchers.map fun y => if same y then { y with smask := y.smask ||| x.smask } else y })
  else
    let n := e.watchers.length
    let chains := decide (4 ≤ n) && (n - 4) % 7 = 0
    let shell := !e.inL2 && e.watchers.isEmpty && !e.tu && !((s.part? p).elim false fun q => q.readers.any fun r => r.name = line)
    if !((s.part? p).elim false (·.hasBlocks (bitN chains + bitN shell))) && (chains || shell) then none
    else
      let b := (s.part? p).elim 0 (·.freeBlock (Config.block s.fresh))
      some (s.modEntry p line fun e =>
        { e with watchers := e.watchers ++ [x], chain := if 4 ≤ n then some (e.chain.getD b) else e.chain })

/-- Sectors leave the records of a kind and target; answers whether something was removed. -/
def State.cutWatcher (s : State) (p line : Nat) (kind : BitVec 2) (target : BitVec 32) (mask : BitVec 4) : Bool × State :=
  let hit : Watcher → Bool := fun y => y.kind = kind && y.target = target && y.smask &&& mask ≠ 0
  let e := s.entry p line
  let left := (e.watchers.map fun y => if hit y then { y with smask := y.smask &&& ~~~mask } else y).filter fun y => y.smask ≠ 0
  let spr := (s.part? p).elim false fun q => q.readers.any fun r => r.name = line
  (e.watchers.any hit, s.modEntry p line fun e => { e with watchers := left, chain := if left.length ≤ 4 && !spr then none else e.chain })

/-- The owners of a line's watched sectors are downgraded when a watch is armed (R95); of a host-range line the home holds copies (R99). -/
def State.armDown (s : State) (p line : Nat) (mask : BitVec 4) : State :=
  (List.range 4).foldl (fun s i => if mask.getLsbD i then (s.hostGet p (4 * line + i) false).recall p (4 * line + i) false none else s) s

/-- The core by which a thread's records name it: a guest's vacated core (R374). -/
def State.homeCore (s : State) (w : Who) : Nat := (s.thread? w.core w.slot).elim w.core fun t => (t.home w.core w.slot).1

/-- The lowest free position of an armed-watch table (R305). -/
def freePos (l : List WatchEntry) : Nat := ((List.range 8).find? fun i => !(l.any fun e => e.pos = i)).getD 8

/-- WATCH at a line (R142): the status and the state. -/
def State.watchLine (s : State) (w : Who) (pa : Nat) (ctl : Word) : Nat × State :=
  let line := pa / 256
  let mask := watchMask ctl pa
  let rec1 : Watcher := ⟨1, mask, watchTarget w.tid (s.homeCore w), 0, 0⟩
  if ctl.extractLsb' 4 60 ≠ 0 then (7, s)
  else
    match s.thread? w.core w.slot with
    | none => (7, s)
    | some t =>
      let enter := fun (l : List WatchEntry) (st : Nat) (s : State) => (st, s.modThread w.core w.slot fun t => { t with watch := l })
      if t.watch.any fun e => e.line = line then
        match (s.armDown w.p line mask).addWatcher w.p line rec1 with
        | some s => enter (t.watch.map fun e => if e.line = line then { e with mask := e.mask ||| mask } else e) 1 s
        | none => (3, s)
      else if 8 ≤ t.watch.length then (2, s)
      else
        match (s.armDown w.p line mask).addWatcher w.p line rec1 with
        | some s => enter (t.watch ++ [⟨freePos t.watch, line, mask, 0⟩]) 0 s
        | none => (3, s)

/-- A queue tag with its logical core turned into the physical one (R144). -/
def State.convTag (s : State) (w : Who) (tag : BitVec 32) : Option (BitVec 32) :=
  ((s.region? w.region).bind fun r => s.origOf r (tag.extractLsb' 6 18).toNat).map fun c =>
    (tag &&& 0xFF00003F#32) ||| (BitVec.ofNat 32 (c * 64) &&& 0x00FFFFC0#32)

/-- UNWATCH at a line (R143). -/
def State.unwatchLine (s : State) (w : Who) (pa : Nat) (ctl : Word) : Nat × State :=
  let line := pa / 256
  let mask : BitVec 4 := if ctl.extractLsb' 0 4 = 0 then 15 else ctl.extractLsb' 0 4
  let queue := ctl.getLsbD 4
  if ctl.extractLsb' 5 27 ≠ 0 || (!queue && ctl.extractLsb' 32 32 ≠ 0) then (7, s)
  else if queue then
    match s.convTag w (ctl.extractLsb' 32 32) with
    | none => (6, s)
    | some tag =>
      let (ok, s) := s.cutWatcher w.p line 3 tag mask
      (if ok then 0 else 6, s)
  else
    let inTable := (s.thread? w.core w.slot).elim false fun t => t.watch.any fun e => e.line = line && e.mask &&& mask ≠ 0
    let (ok, s) := s.cutWatcher w.p line 1 (watchTarget w.tid (s.homeCore w)) mask
    let s := s.modThread w.core w.slot fun t => { t with watch :=
      (t.watch.map fun e => if e.line = line then { e with mask := e.mask &&& ~~~mask, pending := e.pending &&& ~~~mask } else e).filter fun e =>
        e.mask ≠ 0 }
    (if ok || inTable then 0 else 6, s)

/-- WATCHQ at a line (R144). -/
def State.watchqLine (s : State) (w : Who) (pa : Nat) (ctl : Word) : Nat × State :=
  let line := pa / 256
  let mask := watchMask ctl pa
  if ctl.extractLsb' 4 28 ≠ 0 then (7, s)
  else
    match s.convTag w (ctl.extractLsb' 32 32) with
    | none => (7, s)
    | some tag =>
      match (s.armDown w.p line mask).addWatcher w.p line ⟨3, mask, tag, (s.region? w.region).elim 0 (·.tag), 0⟩ with
      | some s => (0, s)
      | none => (3, s)

/-! ### Ladings (R100 to R105, R146 to R148) -/

/-- What ACQR and RELR write into gD (R145). -/
def ladStatus (st : Nat) (idx : Nat) (gen : BitVec 8) : Word := BitVec.ofNat 64 (st + 256 * gen.toNat + 65536 * idx)

/-- Every copy of a region's sectors is called back, the host's among them, as by a GETX (R99, R100). -/
def State.clearRegion (s : State) (p base log2 : Nat) : State :=
  let inside : Nat → Bool := fun sec => base ≤ 64 * sec && 64 * sec < base + 2 ^ log2
  let secs := ((s.cores.filter fun e => s.partOf e.1 = p).flatMap fun e => (e.2.l1.filter fun x => inside x.1).map (·.1)).dedup
  let host := (((s.part? p).elim [] (·.dir)).filter fun e => e.2.host && inside (4 * e.1)).flatMap fun e => (List.range 4).map fun i => 4 * e.1 + i
  let s := host.foldl (fun s sec => s.biSnoop p sec) s
  secs.foldl (fun s sec => s.recall p sec true none) s

/-- A request, a write or data of a sector of a region is on its way (R93). -/
def Event.asks (inside : Nat → Bool) : Event → Bool
  | .gets x | .getx x => inside (x.pa / 64)
  | .wrt x => inside (x.pa / 64)
  | .data x => inside (x.pa / 64)
  | _ => false

/-- No home holds a sector of a region, and no message about one is on its way. -/
def State.regionFree (s : State) (p base log2 : Nat) : Bool :=
  let inside : Nat → Bool := fun sec => base ≤ 64 * sec && 64 * sec < base + 2 ^ log2
  !(((s.part? p).elim [] (·.dir)).any fun e => inside (4 * e.1) && e.2.secs.toList.any fun h => h.txn.isSome || h.prep.isSome || !h.queue.isEmpty)
    && !s.agenda.any (Event.asks inside)

/-- A grant (R100, R105): copies go, and the entry has its holder. -/
def State.grant (s : State) (p idx base log2 lease : Nat) (w : Who) (waiters : List OpRef) : BitVec 8 × State :=
  let old := (s.part? p).bind fun q => alook idx q.ladRest
  let live := (s.part? p).bind fun q => alook idx q.ladings
  let gen0 : BitVec 8 := match live with
    | some l => l.gen
    | none => old.elim 0 (·.gen)
  let disc := match live with
    | some l => l.disc
    | none => old.elim 0 (·.disc)
  let gen := gen0 + 1
  let s := s.clearRegion p base log2
  let l : Lading := ⟨.held, log2, base, w.tid, w.core, w.slot, gen, false, s.gt + lease, disc, waiters, false, [], false⟩
  (gen, s.modPart p fun q => { q with ladings := aset idx l q.ladings })

/-- The free entry of the Lading Table that a grant takes: the one with the lowest index (DESIGN CHOICE, assumption 47). -/
def freeLading (q : Part) : Option Nat := (List.range (q.ladings.length + 1)).find? fun i => (alook i q.ladings).isNone && decide (i < 4096)

/-- What an ACQR answers: its status word, that it waits at an entry, or that a home of its region is held. -/
inductive AcqRes where
  | busy
  | now (v : Word)
  | waits (idx k lease : Nat)
  deriving DecidableEq, Repr

/-- ACQR (R146); `room` is what is left of the page from the address on, `ref` the operation that would wait. -/
def State.acquire (s : State) (w : Who) (ea : Word) (pa room : Nat) (ctl : Word) (ref : OpRef) : AcqRes × State :=
  let k := (ctl.extractLsb' 0 5).toNat
  let leaseUs := (ctl.extractLsb' 16 32).toNat
  let st := fun (n : Nat) => AcqRes.now (BitVec.ofNat 64 n)
  if ctl.extractLsb' 5 11 ≠ 0 || ctl.extractLsb' 48 16 ≠ 0 || k < 12 || 30 < k || leaseUs < 1 || 1000000 < leaseUs then (st 7, s)
  else if ea.toNat % 2 ^ k ≠ 0 || pa % 2 ^ k ≠ 0 || room < 2 ^ k then (st 7, s)
  else if (s.core w.core).suspectTime then (st 5, s)
  else
    match s.part? w.p with
    | none => (st 7, s)
    | some q =>
      match q.ladings.find? fun e => decide (e.2.base < pa + 2 ^ k) && decide (pa < e.2.base + 2 ^ e.2.log2) with
      | some (i, l) =>
        if l.base = pa && l.log2 = k then
          if l.mine w then (.now (ladStatus 1 i l.gen), s.modLading w.p i fun x => { x with expiry := s.gt + 1000 * leaseUs })
          else (.waits i k (1000 * leaseUs), s.modLading w.p i fun x => { x with waiters := x.waiters ++ [ref] })
        else (st 4, s)
      | none =>
        match freeLading q with
        | none => (st 3, s)
        | some i =>
          if !s.regionFree w.p pa k then (.busy, s)
          else
          let (gen, s) := s.grant w.p i pa k (1000 * leaseUs) w []
          (.now (ladStatus 0 i gen), s)

/-- The sectors that a holder's core holds under an entry, or has asked for (R94). -/
def State.ladSecs (s : State) (idx : Nat) (l : Lading) : List (Nat × L1Sec) :=
  (s.core l.core).l1.filter fun e => (e.2.st == .l && e.2.entry = idx) || (e.2.st == .ild && l.covers (64 * e.1))

/-- What waits at an entry goes on, once the holder's core has given its sectors up: the accesses first, then the oldest ACQR (R101). -/
def State.ladNext (s : State) (p idx : Nat) : State :=
  let s := s.modLading p idx fun l => { l with clear := true, waitAcc := false }
  { s with agenda := s.agenda ++ s.later ++ [.ladingGrant ⟨p, idx⟩], later := [] }

/-- A release (R101): dirty L sectors are written back by the holder, all are invalidated. -/
def State.release (s : State) (p idx : Nat) : State :=
  match (s.part? p).bind fun q => alook idx q.ladings with
  | none => s
  | some l =>
    let xs := s.ladSecs idx l
    let s := s.modLading p idx fun x => { x with st := .releasing }
    let s := xs.foldl (fun s e => s.delL1 l.core e.1) s
    let s := xs.foldl (fun s e => if e.2.dirty = 0 then s else s.homeWrite p e.1 none e.2.data e.2.dirty none) s
    s.ladNext p idx

/-- RELR at an address (R147): the status. -/
def State.relr (s : State) (w : Who) (pa : Nat) : Nat × State :=
  match s.lading? w.p pa with
  | some (i, l) => if l.mine w then (0, s.release w.p i) else (6, s)
  | none => (6, s)

/-- The entry of a live lading as LADQ returns it (R102). -/
def Lading.entry (l : Lading) : V512 :=
  BitVec.ofNat 512 (packFields [(0, 3, match l.st with | .held => 1 | .releasing => 2 | .revoked => 3), (3, 5, l.log2), (12, 40, l.base / 4096),
    (64, 32, l.tid.toNat), (96, 16, l.waiters.length), (112, 8, l.gen.toNat), (120, 1, bitN l.tsus), (128, 64, l.expiry), (192, 32, l.disc)])

/-- LADQ at an address (R148). -/
def State.ladq (s : State) (w : Who) (pa : Nat) : V512 := (s.lading? w.p pa).elim 0 fun e => e.2.entry

/-- An access that waited at a lading has still to perform, once the region is free (R101): of an operation that nothing else holds, of a slot's next
instruction, or at the home. -/
def State.ladPending (s : State) (p : Nat) (l : Lading) : Bool :=
  let touches : Seg → Bool := fun x => x.core.isNone && !x.sh && decide (x.addr < l.base + 2 ^ l.log2) && decide (l.base < x.addr + x.len)
  !s.regionFree p l.base l.log2
    || l.tries.any (fun x => (s.thread? x.1 x.2).any fun t => t.st == .running && !t.ending)
    || s.threads.any fun e => s.partOf e.1.1 = p && e.2.ops.any fun o => o.deps.isEmpty && o.parked.isNone && o.walk.isNone && !o.ended &&
      (match o.kind with
        | .acc a => a.segs.any touches
        | _ => false)

/-- LADING GRANT (R101, R105): what waits performs first; then the oldest waiting ACQR is granted, or the entry is free. One whose core is time-suspect by then completes with
that status: R103's sentence has no exception for an ACQR that waits (DEDUCED, assumption 44). -/
def State.ladGrant (s : State) (p idx : Nat) : State :=
  match (s.part? p).bind fun q => alook idx q.ladings with
  | none => s
  | some l =>
    if l.st == .held then s
    else if s.ladPending p l then s.later1 (.ladingGrant ⟨p, idx⟩)
    else
      let find : OpRef → Option (Thread × Op) := fun r => (s.thread? r.core r.slot).bind fun t => (t.op? r.op).map fun o => (t, o)
      match l.waiters.dropWhile fun r => (find r).isNone with
      | [] => s.modPart p fun q => { q with ladings := adel idx q.ladings, ladRest := aset idx ⟨l.gen, l.disc⟩ q.ladRest }
      | r :: rest =>
        match find r with
        | none => s
        | some (t, o) =>
          match o.kind with
          | .acqrWait a _ _ lease =>
            let d := match a.act with
              | .acqr d _ => d
              | _ => 0
            if (s.core r.core).suspectTime then
              let s := (s.modLading p idx fun x => { x with waiters := rest }).push [.ladingGrant ⟨p, idx⟩]
              (s.modThread r.core r.slot fun t => t.wg d 5).finishOp r.core r.slot r.op
            else
            let (gen, s) := s.grant p idx l.base l.log2 lease (s.who r.core r.slot t) rest
            (s.modThread r.core r.slot fun t => t.wg d (ladStatus 0 idx gen)).finishOp r.core r.slot r.op
          | _ => s

def execLadingGrant (x : EvLad) (s : State) : Out := .next (s.ladGrant x.part x.idx)

/-- LADING REVOCATION (R104): a held entry on which another agent waits, its lease past EXPIRY + 250 ns. -/
def execLadingRevocation (x : EvLad) (s : State) : Out :=
  match (s.part? x.part).bind fun q => alook x.idx q.ladings with
  | none => .next s
  | some l =>
    if l.st == .held && (l.waitAcc || !l.waiters.isEmpty) && decide (l.expiry + 250 < s.gt) then
      if (s.part? x.part).any (·.frozen) then .next (s.later1 (.ladingRevocation x))
      else .next ((s.modLading x.part x.idx fun l => { l with st := .revoked }).push [.revoke x])
    else .next s

/-- The holder of a revoked grant takes the mark of its trap, in its slot or spilled (R104, R296). -/
def State.markRevoked (s : State) (p core : Nat) (tid : BitVec 32) (g : StaleGrant) : State :=
  let mark : Thread → Thread := fun t => { t with stale := t.stale ++ [g] }
  let s : State := { s with threads := s.threads.map fun e => if e.1.1 = core && e.2.tid = tid then (e.1, mark e.2) else e }
  s.modPart p fun q => { q with spilled := q.spilled.map fun e =>
    if (e.1.1 = core || ((s.region? e.2.region).any fun r => r.hostOf e.1.1 = core)) && e.2.tid = tid then (e.1, mark e.2) else e }

/-- The holder's core discards its L sectors of an entry (R104): the dirty ones are counted into DISC. -/
def State.discard (s : State) (p idx : Nat) (mark : Bool) : State :=
  match (s.part? p).bind fun q => alook idx q.ladings with
  | none => s
  | some l =>
    let xs := s.ladSecs idx l
    let dirty := (xs.filter fun e => e.2.dirty ≠ 0).map (·.1)
    let s := xs.foldl (fun s e => s.delL1 l.core e.1) s
    let s := s.modLading p idx fun x => { x with st := .revoked, disc := dirty.length }
    let g : StaleGrant := ⟨idx, l.gen.toNat, dirty.length, l.base, l.log2, (dirty.map (64 * ·)).mergeSort (· ≤ ·)⟩
    let s := if mark then s.markRevoked p l.core l.tid g else s
    s.ladNext p idx

/-- REVOKE at the holder's core (R104). -/
def execRevoke (x : EvLad) (s : State) : Out := .next (s.discard x.part x.idx true)

/-- The grants of a thread end with it (R149): released, or revoked without a mark; its waiting ACQRs are withdrawn. -/
def State.endGrants (s : State) (c k : Nat) (kill : Bool) : State :=
  match s.thread? c k with
  | none => s
  | some t =>
    let p := s.partOf c
    let mine := (((s.part? p).elim [] (·.ladings)).filter fun e => e.2.mine (s.who c k t)).map (·.1)
    let s := mine.foldl (fun s i => if kill then s.discard p i false else s.release p i) s
    let withdraw := fun (s : State) (o : Op) => match o.kind with
      | .acqrWait _ i _ _ => (s.modLading p i fun l => { l with waiters := l.waiters.filter (· ≠ ⟨c, k, o.id⟩) }).finishOp c k o.id
      | .acc a => match a.act with
        | .acqr _ _ => s.finishOp c k o.id
        | _ => s
      | _ => s
    t.ops.foldl withdraw s

/-- Entries held by a core's threads. -/
def State.coreLadings (s : State) (c : Nat) : List (Nat × Lading) :=
  ((s.part? (s.partOf c)).elim [] (·.ladings)).filter fun e => e.2.core = c && e.2.st == .held

/-- A core becomes time-suspect (R103): its entries take TSUS and an expiry no later than now. -/
def State.suspectTime (s : State) (c : Nat) : State :=
  let ids := (s.coreLadings c).map (·.1)
  let s := s.modCore c fun y => { y with suspectTime := true }
  ids.foldl (fun s i => s.modLading (s.partOf c) i fun l => { l with tsus := true, expiry := min l.expiry s.gt }) s

/-- BEACON (R103): a core whose time differs by more than 250 ns, or that misses two beacons running, is marked; the mark clears once it
agrees and no grant with TSUS is left. -/
def execBeacon (x : EvBeacon) (s : State) : Out :=
  let y := s.core x.core
  if !x.answered then
    let s := s.modCore x.core fun y => { y with missed := y.missed + 1 }
    .next (if y.missed ≥ 1 && !y.suspectTime then s.suspectTime x.core else s)
  else
    let s := s.modCore x.core fun y => { y with missed := 0, gtOff := x.diff }
    if decide (250 < x.diff.natAbs) then .next (if y.suspectTime then s else s.suspectTime x.core)
    else if y.suspectTime && !((s.coreLadings x.core).any fun e => e.2.tsus) then .next (s.modCore x.core fun y => { y with suspectTime := false })
    else .next s

end Sys2Proof.Machine
end

