-- ==== Sys2Proof/Machine/MemOps.lean ====
section
/-! DEFINITION. The memory-access instructions (R127 to R149, R170): their checks, the issue of one access with its edges, its
performing, its parking, and the messages of R153. -/

namespace Sys2Proof

/-- The element width of STN. -/
def NSize.bits : NSize → Nat
  | .b8 => 8
  | .b4 => 4
  | .b2 => 2

/-- The format of a floating atomic (R140). -/
def AmoFmt.fmt : AmoFmt → Machine.FFmt
  | .bf16 => Machine.bf16
  | .f32 => Machine.fp32
  | .f64 => Machine.fp64

def AmoFmt.bytes : AmoFmt → Nat
  | .bf16 => 2
  | .f32 => 4
  | .f64 => 8

/-- A remote message reads what it replaces. -/
def RemoteAct.reads : RemoteAct → Bool
  | .amo _ _ _ | .amof _ _ _ => true
  | .store _ | .stn _ _ _ => false

/-- The bytes that a remote message touches. -/
def RemoteAct.len : RemoteAct → Nat
  | .store bs => bs.length
  | .amo _ dw _ => if dw then 8 else 4
  | .amof _ ty _ => ty.bytes
  | .stn _ _ _ => 1

def VSize.bytes : VSize → Nat
  | .b128 => 16
  | .b256 => 32
  | .b512 => 64

end Sys2Proof

namespace Sys2Proof.Machine

/-! ### What an access does -/

/-- The kind of translation of an access (R75). -/
def AccAct.tr : AccAct → TrKind
  | .loadG _ _ | .loadV _ | .loadM _ | .loadLut => .load
  | .store _ | .stn _ _ => .store
  | .amo _ _ _ | .cas _ _ _ | .amof _ _ _ _ => .atomic
  | .flush => .flush
  | .inval => .cinv
  | .watch _ _ | .watchq _ _ | .ladq _ => .look
  | .unwatch _ _ => .unwatch
  | .acqr _ _ | .relr _ => .lading

/-- The access returns a value, so that it cannot leave the cluster (R128). -/
def AccAct.ret : AccAct → Bool
  | .loadG _ _ | .loadV _ | .loadM _ | .loadLut | .cas _ _ _ => true
  | .amo _ d _ | .amof _ _ d _ => d ≠ 0
  | _ => false

/-- The access is an atomic: aligned (R129), and both a load and a store. -/
def AccAct.atom : AccAct → Bool
  | .amo _ _ _ | .cas _ _ _ | .amof _ _ _ _ => true
  | _ => false

/-- The access is one of the direct path that writes memory. -/
def AccAct.stores : AccAct → Bool
  | .store _ | .stn _ _ => true
  | _ => false

/-- An engine path of R119 that leaves no mark in a consignment (R131). -/
def AccAct.isPath : AccAct → Bool
  | .flush | .inval | .watch _ _ | .unwatch _ _ | .watchq _ _ | .acqr _ _ | .relr _ => true
  | _ => false

/-- The access is one of the direct path that touches bytes of memory (R111); LADQ reads the table. -/
def AccAct.direct : AccAct → Bool
  | .ladq _ => false
  | x => !x.isPath

/-- The register that takes a status (R145). -/
def AccAct.status : AccAct → GReg
  | .watch d _ | .unwatch d _ | .watchq d _ | .acqr d _ | .relr d => d
  | _ => 0

/-- The first byte of an access; STN counts elements (R170). -/
def MemAcc.addr (a : MemAcc) : Word :=
  match a.act with
  | .stn z _ => BitVec.ofNat 64 (a.ea.toNat / (8 / z.bits))
  | _ => a.ea

/-- The bit position of an STN element in its byte (R170). -/
def stnPos (z : NSize) (ea : Word) : Nat := ea.toNat % (8 / z.bits) * z.bits

/-- A byte with one element replaced. -/
def stnByte (z : NSize) (pos : Nat) (v : Word) (old : Byte) : Byte :=
  let m : Byte := (BitVec.allOnes z.bits).setWidth 8 <<< pos
  (old &&& ~~~m) ||| ((v.setWidth 8 <<< pos) &&& m)

/-- f of R137 at a width. -/
def amoFn (f : AmoFn) (n : Nat) (a b : BitVec n) : BitVec n :=
  match f with
  | .add => a + b
  | .and => a &&& b
  | .or => a ||| b
  | .xor => a ^^^ b
  | .min => if b.slt a then b else a
  | .max => if a.slt b then b else a
  | .minu => if b.ult a then b else a
  | .maxu => if a.ult b then b else a
  | .swp => b

/-- The number of an integer function, as a remote message carries it. -/
def AmoFn.code : AmoFn → Nat
  | .add => 0 | .and => 1 | .or => 2 | .xor => 3 | .min => 4 | .max => 5 | .minu => 6 | .maxu => 7 | .swp => 8

def amoOfCode : Nat → AmoFn
  | 0 => .add | 1 => .and | 2 => .or | 3 => .xor | 4 => .min | 5 => .max | 6 => .minu | 7 => .maxu | _ => .swp

def AmofFn.code : AmofFn → Nat
  | .add => 0 | .min => 1 | .max => 2

def amofOfCode : Nat → AmofFn
  | 0 => .add | 1 => .min | _ => .max

/-- The new bytes of an integer atomic of n bytes. -/
def amoBytes (f : AmoFn) (n : Nat) (old : List Byte) (b : Word) : List Byte :=
  if n = 4 then toBytes 4 (amoFn f 32 (BitVec.ofNat 32 (ofBytes old)) (b.setWidth 32)).toNat
  else toBytes 8 (amoFn f 64 (BitVec.ofNat 64 (ofBytes old)) b).toNat

/-- A floating atomic or update on codes: to nearest even, no flag (R140). -/
def amofCode (f : AmofFn) (fm : FFmt) (old b : Nat) : Nat :=
  match f with
  | .add => (fm.fadd .rne old b).1
  | .min => fm.fminmax false old b
  | .max => fm.fminmax true old b

/-- The new bytes of a floating atomic. -/
def amofBytes (f : AmofFn) (ty : AmoFmt) (old : List Byte) (b : Word) : List Byte :=
  toBytes ty.bytes (amofCode f ty.fmt (ofBytes old) (lowCode ty.fmt.width b))

/-- What an atomic or STN writes for the bytes that it found; none for a CAS that fails (R138). -/
def AccAct.update (x : AccAct) (ea : Word) (n : Nat) (old : List Byte) : Option (List Byte) :=
  match x with
  | .amo f _ b => some (amoBytes f n old b)
  | .amof f ty _ b => some (amofBytes f ty old b)
  | .cas _ new cmp => if ofBytes old = cmp.toNat % 2 ^ (8 * n) then some (toBytes n new.toNat) else none
  | .stn z v => some (old.map (stnByte z (stnPos z ea) v))
  | _ => none

/-- A value of n bytes in a g register: zero-extended, or sign-extended. -/
def loadValue (sx : Bool) (bs : List Byte) : Word :=
  if sx then BitVec.ofInt 64 (sextN (8 * bs.length) (ofBytes bs)) else BitVec.ofNat 64 (ofBytes bs)

/-- What an access writes into registers for the bytes that it bound (R132, R133, R137, R138, R140). -/
def AccAct.bind (x : AccAct) (bs : List Byte) (t : Thread) : Thread :=
  match x with
  | .loadG d sx => t.wg d (loadValue sx bs)
  | .loadV d => t.wv d (BitVec.ofNat 512 (ofBytes bs))
  | .loadM d => t.wm d (BitVec.ofNat 512 (ofBytes bs))
  | .amo _ d _ | .cas d _ _ => t.wg d (loadValue true bs)
  | .amof _ _ d _ => t.wg d (loadValue false bs)
  | _ => t

/-! ### Performing -/

/-- What performing an access answers. -/
inductive Perf where
  | done (s : State)
  | busy (s : State)
  | poison (b : Bad) (s : State)
  | waits (idx k lease : Nat) (s : State)

/-- A result of the memory paths as the end of an access. -/
def Got.perf (x : Got α) (f : α → State → State) : Perf :=
  match x with
  | .ok a s => .done (f a s)
  | .busy s => .busy s
  | .poison k s => .poison k s

/-- A store of the core's store path stands before an atomic of its bytes by another thread of the core, unless the store waits for accesses that
have translated (R78, R107, R111): the atomic follows it in the coherence order. -/
def State.rmwHeld (s : State) (w : Who) (l : List Seg) : Bool :=
  (s.pathStores w false l).any fun p => !p.2.segs.any fun x => s.tuWaits w (x.addr / 64)

/-- A read-modify-write of the runs of an access (R110): at the home for the wide scopes and the host range, else in the L1. -/
def State.rmw (w : Who) (home : Bool) (l : List Seg) (f : List Byte → Option (List Byte)) (s : State) : Got (List Byte) :=
  if s.rmwHeld w l then .busy s
  else if home then
    (State.readSegs w .path l s).bind fun old s =>
      match f old with
      | some new => (State.pathSegs w l new none s).bind fun _ s => .ok old s
      | none => .ok old s
  else
    (gotAll (State.ownSeg w) l s).bind fun _ s =>
      (State.readSegs w (.l1 true) l s).bind fun old s =>
        match f old with
        | some new => (State.storeSegs w l new s).bind fun _ s => .ok old s
        | none => .ok old s

/-- The bits of a byte that an access writes. -/
def AccAct.part (x : AccAct) (ea : Word) : Byte :=
  match x with
  | .stn z _ => (BitVec.allOnes z.bits).setWidth 8 <<< stnPos z ea
  | _ => 255

/-- The physical address of an AM 0 access, and the bytes left in its page. -/
def MemAcc.pa (a : MemAcc) : Nat := a.segs.head?.elim 0 (·.addr)

/-- An access performs (R106 to R110): a load binds, a store or atomic writes, a cache, watch or lading path acts. `room` is what is left
of the page from the address on (R146). -/
def State.performAcc (w : Who) (t : Thread) (scope : BitVec 2) (a : MemAcc) (room : Nat) (ref : OpRef) (s : State) : Perf :=
  let reg : (Thread → Thread) → State → State := fun f s => s.modThread w.core w.slot f
  let status : GReg → Nat × State → Perf := fun d r => .done (reg (fun t => t.wg d (BitVec.ofNat 64 r.1)) r.2)
  match a.act with
  | .loadG _ _ | .loadV _ | .loadM _ => (State.readFor w t (.l1 a.ex) a.segs s).perf fun bs s => reg (a.act.bind bs) s
  | .loadLut => (State.readFor w t (.l1 a.ex) a.segs s).perf fun bs s => s.modCore w.core fun y => { y with lut := bs }
  | .store bs => (State.storeSegs { w with op := some ref.op } a.segs bs s).perf fun _ s => s
  | .amo _ _ _ | .cas _ _ _ | .amof _ _ _ _ | .stn _ _ =>
    (State.rmw w (2 ≤ scope.toNat || inHost a.pa) a.segs (a.act.update a.ea a.n) s).perf fun old s => reg (a.act.bind old) s
  | .flush =>
    let s := s.flushLine w a.pa
    if scope ≠ 0 && s.lineLeaves w.core a.pa then .busy s else .done (if scope = 3 then s.cleanHome w.p a.pa else s)
  | .inval =>
    let s := s.invalLine w a.pa
    if scope ≠ 0 && s.lineLeaves w.core a.pa then .busy s else .done s
  | .watch d ctl => if (lineSecs a.pa).all (s.homeFree w.p) then status d (s.watchLine w a.pa ctl) else .busy s
  | .unwatch d ctl => status d (s.unwatchLine w a.pa ctl)
  | .watchq d ctl => if (lineSecs a.pa).all (s.homeFree w.p) then status d (s.watchqLine w a.pa ctl) else .busy s
  | .acqr d ctl =>
    match s.acquire w a.ea a.pa room ctl ref with
    | (.now v, s) => .done (reg (fun t => t.wg d v) s)
    | (.waits i k l, s) => .waits i k l s
    | (.busy, s) => .busy s
  | .relr d => status d (s.relr w a.pa)
  | .ladq d => .done (reg (fun t => t.wv d (s.ladq w a.pa)) s)

/-! ### Parking (R81, R361) -/

/-- A stopped thread's frame takes one more descriptor, in the order in which the operations were issued (R363): the later ones move up with the REPLAY
bits that they have. -/
def State.addDesc (s : State) (c k : Nat) (o : Op) : State :=
  match (s.thread? c k).bind fun t => t.stop.map fun x => (t, x) with
  | none => s
  | some (t, x) =>
    let n := (x.ops.filter fun y => y.id < o.id).length
    let ops := x.ops.take n ++ o :: x.ops.drop n
    let s := s.modThread c k fun t => { t with stop := t.stop.map fun x => { x with ops := ops } }
    if x.frameLost || 8 ≤ n then s
    else
      match s.devRead c t.region (frameVa t 256) 256 with
      | (none, s) => s
      | (some bs, s) =>
        let new := (bs.take (32 * n) ++ o.desc ++ bs.drop (32 * n)).take (32 * min 8 ops.length)
        let s := (s.devWrite c t.region (frameVa t 256) new false).2
        (s.devWrite c t.region (frameVa t 4) [BitVec.ofNat 8 (min 8 ops.length)] false).2

/-- An operation of a thread parks, and the thread traps once its walks have resolved (R81). One whose thread is stopped already leaves a record, and its descriptor
joins those of the frame. An uncorrectable error that it has bound is reported. -/
def State.park (s : State) (c k : Nat) (o : Op) (p : Park) (detail span : Nat) (acck : BitVec 3) (pipe : Pipe) (aux : Word := 0)
    (cont : List Nat := []) (bad : Option Bad := none) : State :=
  match s.thread? c k with
  | none => s
  | some t =>
    let o := { o with parked := some p, walk := none }
    let t := if t.ops.any fun x => x.id = o.id then t.modOp o.id fun _ => o else t.addOp o
    let s := s.setThread c k t
    let s := bad.elim s fun b => s.consumed c t b p.addr
    let (w, s) := match pipe with
      | .lead => s.wordAt c k t.region t.leadPc
      | .trail => (t.wordAtPc o.pc o.iword, s)
    let i : TrapInfo := ⟨p.cause, BitVec.ofNat 16 detail, pipe, acck, p.level, p.addr, o.pc, w, aux, 0⟩
    if t.st == .stopped then
      let s := s.parkRecs c k t.region t.tid [(i, (span, cont))]
      s.addDesc c k o
    else (s.modThread c k fun t => { t with parks := t.parks ++ [(i, (span, cont))] }).trapParked c k

/-- A read of an operation has bound an uncorrectable error: the operation of a direct thread parks, the consignment of another is dropped (R326,
R361). -/
def State.bindBad (s : State) (c k : Nat) (t : Thread) (o : Op) (b : Bad) (va : Word) (acck : BitVec 3) (pipe : Pipe) : State :=
  if t.buffered then s.push [.consignmentDrop ⟨c, k, some va, b⟩] else s.park c k o ⟨0x34, 0, va⟩ b.kind 12 acck pipe 0 [] (some b)

/-- A SEND's copy path has met an uncorrectable error (R360): a fault record and no trap, or the drop of the consignment; what it has not sent stays
unsent, and the operation is over (DESIGN CHOICE, assumption 46). -/
def State.copyBad (s : State) (c k : Nat) (t : Thread) (o : Op) (x : CopyOp) (b : Bad) : State :=
  let va := x.ea + BitVec.ofNat 64 x.next
  if t.buffered then s.push [.consignmentDrop ⟨c, k, some va, b⟩]
  else
    let i : TrapInfo := ⟨0x34, BitVec.ofNat 16 b.kind, .lead, 4, 0, va, o.pc, 0, 0, 0⟩
    ((s.consumed c t b va).appendRec c t.region (recFields s c t.tid i false) [] none none).2.finishOp c k o.id

/-! ### Issue -/

/-- The runs of an AM 0 access: translated, or the fault with its address, or that its walk is under way (R81). -/
inductive AccTr where
  | ok (l : List Seg) (room : Nat)
  | fault (f : TrFault) (va : Word)
  | walking

/-- The address space that a thread's accesses use. -/
def State.space (s : State) (t : Thread) : BitVec 16 × Nat := (s.region? t.region).elim (0, 0) fun r => (r.asid, r.troot)

/-- The translation of n bytes. While the memory system is slow, and where the walk waits at a home, an address without an entry is left to
TABLE WALK. -/
def State.accTranslate (s : State) (c : Nat) (t : Thread) (va : Word) (n : Nat) (k : TrKind) : AccTr × State :=
  let miss := (tlbHit ((alook (clusterOf c) s.tlbs).getD []) (s.space t).1 va.toNat).isNone
  if (s.slow && miss) || (miss && s.walkHeld (s.partOf c) (s.space t).2 va) then (.walking, s)
  else
    match s.translateRun c t.region va n k 3 with
    | (.error (f, a), s) => (.fault f a, s)
    | (.ok rs, s) =>
      let room := match tlbHit ((alook (clusterOf c) s.tlbs).getD []) (s.space t).1 va.toNat with
        | some e => e.vbase + e.size - va.toNat
        | none => n
      (.ok (rs.map fun x => ⟨none, x.pa, x.len, x.sh⟩) room, s)

/-- Two accesses touch a common byte (R111); before translation their addresses tell. -/
def MemAcc.meets (x y : MemAcc) : Bool :=
  if x.segs.isEmpty || y.segs.isEmpty then
    x.am = y.am && decide (x.addr.toNat < y.addr.toNat + y.n) && decide (y.addr.toNat < x.addr.toNat + x.n)
  else x.segs.any fun a => y.segs.any a.meets

/-- The older operations of the direct path that an access follows for a common byte (R111): single ones, remote ones and those of tensor
instructions. -/
def Thread.behindOps (t : Thread) (s : State) (c no : Nat) (a : MemAcc) : List Dep :=
  (t.ops.filter fun o => o.no ≤ no && (match o.kind with
    | .acc b => b.act.direct && a.meets b
    | .remote dst _ off act _ => a.segs.any (Seg.meets ⟨some dst, off, act.len, false⟩)
    | .tensor x => x.manifs.any fun m => (Manif.ofBits m).meets s c (fun r => x.fmt[r.toNat]) a.am a.addr a.n
    | _ => false)).map fun o => .op o.id

/-- What an access follows for a common byte (R111): operations, and instructions of the trail that have not executed. -/
def Thread.behind (t : Thread) (s : State) (c no : Nat) (a : MemAcc) : List Dep :=
  if !a.act.direct then [] else t.behindOps s c no a ++ (t.queuedMeets s c no a.am a.addr a.n).map .bytes

/-- The older direct-path operations that a tensor instruction follows (R111). -/
def Thread.behindTensor (t : Thread) (s : State) (c no : Nat) (ms : List V512) : List Dep :=
  (t.ops.filter fun o => o.no ≤ no && (match o.kind with
    | .acc b => b.act.direct && ms.any fun m => (Manif.ofBits m).meets s c t.rf b.am b.addr b.n
    | .tensor _ => true
    | _ => false)).map fun o => .op o.id

/-- The operation of the executing instruction. -/
def State.newOp (s : State) (t : Thread) (stream : Option (BitVec 3)) (pmask : BitVec 8) (scope : BitVec 2) (deps : List Dep) (kind : OpKind) : Op :=
  ⟨t.nextOp, s.cur.no, stream, pmask, scope, deps, s.cur.ipc, s.cur.iword, kind, none, none, false, s.cur.rep⟩

/-- The executing instruction is an operation of its thread. -/
def State.enterOp (s : State) (o : Op) : State := s.modCur fun t => t.addOp o

/-- The operation is tried again later. -/
def State.defer (s : State) (r : OpRef) : State :=
  if s.later.contains (.streamOperationComplete r) then s else { s with later := s.later ++ [.streamOperationComplete r] }

/-- Counter 63 stalls the pipe (R116). -/
def Thread.full (t : Thread) (str : BitVec 3) : Bool := 63 ≤ t.counter str.toNat

/-- The stall of a consignment that overflows (R340): its event happens once, and the instruction waits. -/
def overflowWait (s : State) (x : Consign) : Out :=
  if x.overflow || x.phase ≠ .running then wait s
  else
    let s := s.modCur fun t => { t with cons := t.cons.map fun x => { x with overflow := true } }
    .next (s.unissue.push [.consignmentOverflow ⟨s.cur.core, s.cur.slot⟩])

/-- LADW of R362 and AUX1 of R366. -/
def StaleGrant.word (g : StaleGrant) : Word := BitVec.ofNat 64 (packFields [(0, 12, g.entry), (12, 8, g.gen), (32, 32, g.disc)])

/-- The stale-lading trap (R104): the first access to the region of a grant that was revoked. -/
def staleTrap (s : State) (t : Thread) (g : StaleGrant) (acck : BitVec 3) (ea : Word) : Out :=
  let s := s.setCur { t with stale := t.stale.filter (· ≠ g) }
  let s := s.unissue
  .next (s.takeTrap s.cur.core s.cur.slot ⟨0x08, 0, s.cur.pipe, acck, 0, ea, s.cur.ipc, s.cur.iword, g.word, 0⟩ 12 g.sectors)

/-- The revoked grant of a thread that covers a physical address. -/
def Thread.staleAt (t : Thread) (l : List Seg) : Option StaleGrant :=
  t.stale.find? fun g => l.any fun x => x.core.isNone && decide (x.addr < g.base + 2 ^ g.log2) && decide (g.base < x.addr + x.len)

/-- The result of performing the executing instruction's access: it is over, or it stays as an operation. -/
def Perf.issue (r : Perf) (o : Op) (ref : OpRef) : Out :=
  match r with
  | .done s => .next (if s.cores.any fun e => e.2.acks.any fun x => x.2 = ref then s.enterOp { o with ended := true } else s)
  | .busy s => .next ((s.enterOp o).defer ref)
  | .poison b s =>
    match s.thread? ref.core ref.slot with
    | some t =>
      let acck := match o.kind with
        | .acc a => a.act.tr.acck
        | _ => 4
      .next ((if t.buffered then s.unissue else s).bindBad ref.core ref.slot t o b o.kind.addr acck .lead)
    | none => .next s
  | .waits i k l s =>
    match o.kind with
    | .acc a => .next (s.enterOp { o with kind := .acqrWait a i k l })
    | _ => .next s

/-- What a remote message does (R153). -/
def AccAct.remote (x : AccAct) (ea : Word) (n : Nat) : RemoteAct :=
  match x with
  | .store bs => .store bs
  | .amo f _ b => .amo f.code (n = 8) b
  | .amof f ty _ b => .amof f.code ty b
  | .stn z v => .stn z (stnPos z ea) v
  | _ => .store []

/-- The core outside the cluster whose scratchpad an access names. -/
def MemAcc.farCore (a : MemAcc) (c : Nat) : Option Nat := (a.segs.head?.bind (·.core)).filter fun d => clusterOf d ≠ clusterOf c

/-- A store or atomic of a buffered activation: into the consignment (R123, R321). -/
def State.performCons (w : Who) (t : Thread) (scope : BitVec 2) (a : MemAcc) (s : State) : Perf :=
  match a.act with
  | .store bs => .done (s.consWrite w.core w.slot t a.segs bs (List.replicate bs.length 255) scope)
  | .stn z v => .done (s.consWrite w.core w.slot t a.segs [stnByte z (stnPos z a.ea) v 0] [a.act.part a.ea] scope)
  | act =>
    match a.farCore w.core with
    | some d => .done (s.consAct w.core w.slot t d a.pa (act.remote a.ea a.n) a.n scope)
    | none =>
      (State.readFor w t (.l1 false) a.segs s).perf fun old s =>
        let s := s.modThread w.core w.slot (act.bind old)
        match act.update a.ea a.n old with
        | some new => s.consWrite w.core w.slot t a.segs new (List.replicate new.length 255) scope
        | none => s

/-- The executing instruction counts in SCLAMP where R122 clamps it. -/
def State.countCur (s : State) (str : Str) (floor : BitVec 2) : State := s.modCur (·.countClamp (s.clamps s.cur.core str.scope floor))

/-- The thread of a slot as the owner of an access. -/
def State.whoAcc (s : State) (c k : Nat) (t : Thread) (o : Op) (a : MemAcc) : Who := { s.whoOp c k t o with nt := a.nt }

/-- The access of the executing instruction with its bytes known: into the consignment, where only older accesses to a common byte hold it (R123),
performed, or held for its edges (R113). -/
def issueSegs (s : State) (t : Thread) (str : Str) (floor : BitVec 2) (a : MemAcc) (room : Nat) : Out :=
  let c := s.cur.core
  let k := s.cur.slot
  let scope := s.effScope c str.scope floor
  match t.staleAt a.segs with
  | some g => staleTrap s t g a.act.tr.acck a.ea
  | none =>
    let behind := t.behind s c s.cur.no a
    let o := s.newOp t (some str.stream) str.pmask scope [] (.acc a)
    let ref : OpRef := ⟨c, k, o.id⟩
    match (if t.buffered && (a.act.stores || a.act.atom) then t.cons else none) with
    | none =>
      let s := s.countCur str floor
      let deps := (t.edges str.pmask s.cur.no ++ behind).dedup
      if deps.isEmpty then (State.performAcc (s.whoAcc c k t o a) t scope a room ref s).issue o ref else .next (s.enterOp { o with deps := deps })
    | some x =>
      if x.phase ≠ .running then wait s
      else if 64 < x.sects.length + x.newEntries (placesOf a.segs) then overflowWait s x
      else
        let s := s.countCur str floor
        if behind.isEmpty then (State.performCons (s.whoAcc c k t o a) t scope a s).issue o ref else .next (s.enterOp { o with deps := behind })

/-- A remote message of R153 leaves, or waits for its edges and for older accesses to a common byte (R111). -/
def issueRemote (s : State) (t : Thread) (str : Str) (a : MemAcc) (dst : Nat) (act : RemoteAct) : Out :=
  let c := s.cur.core
  let s := s.countCur str 2
  let deps := (t.edges str.pmask s.cur.no ++ t.behind s c s.cur.no { a with segs := [⟨some dst, a.addr.toNat, a.n, false⟩] }).dedup
  let lcn := (a.lcn.extractLsb' 0 18).toNat
  let o := s.newOp t (some str.stream) str.pmask (s.effScope c str.scope 2) deps (.remote dst lcn a.addr.toNat act deps.isEmpty)
  let s := s.enterOp o
  .next (if deps.isEmpty then s.push [.remoteStoreArrival ⟨⟨c, s.cur.slot, o.id⟩, t.region, dst, lcn, a.addr.toNat, act, none⟩] else s)

/-- The access of an M-format instruction, or of MLD, MST and LUTLD: the checks of R130 in their order, then issue. -/
def issueAcc (s : State) (t : Thread) (str : Str) (a : MemAcc) : Out :=
  let c := s.cur.core
  let k := a.act.tr
  match s.locCheck c t a.am a.lcn a.addr a.n a.act.ret a.act.atom with
  | .trap cause => trapAcc s cause k.acck 0 12 (if a.am = .virt then a.ea else 0)
  | .segs l =>
    if t.full str.stream || s.segsWait l || s.segsShrink l then wait s
    else issueSegs s t str (scopeFloor c a.am ((l.head?).bind (·.core))) { a with segs := l } 0
  | .away d =>
    if t.full str.stream then wait s
    else if t.buffered then issueSegs s t str 2 { a with segs := [⟨some d, a.addr.toNat, a.n, false⟩] } 0
    else issueRemote s t str a d (a.act.remote a.ea a.n)
  | .virt =>
    if t.full str.stream then wait s
    else if t.buffered && a.act.isPath then .next (s.setCur ((t.countClamp (s.clamps c str.scope 0)).wg a.act.status 8))
    else
      let edges := if t.buffered && (a.act.stores || a.act.atom) then [] else t.edges str.pmask s.cur.no
      let o := s.newOp t (some str.stream) str.pmask (s.effScope c str.scope 0) (edges ++ t.behind s c s.cur.no a).dedup (.acc a)
      match s.accTranslate c t a.ea a.n k with
      | (.ok l room, s) => issueSegs s t str 0 { a with segs := l } room
      | (.walking, s) =>
        if 8 ≤ (t.ops.filter fun o => o.walk.isSome).length then wait s
        else .next (((s.countCur str 0).enterOp
          { o with walk := some ⟨a.ea, (s.space t).2, 0, []⟩ }).push [.tableWalk ⟨c, s.cur.slot, o.id⟩])
      | (.fault f va, s) =>
        if f.walk then
          let s := s.countCur str 0
          .next (s.park c s.cur.slot o ⟨f.cause, BitVec.ofNat 3 f.level, va⟩ 0 f.span k.acck .lead)
        else trapAcc s f.cause k.acck f.level f.span va

/-! ### An operation that waited -/

/-- A consignment that an operation overflows is handled once (R340). -/
def State.overflowOf (s : State) (c k : Nat) : State :=
  match (s.thread? c k).bind (·.cons) with
  | some x =>
    if x.overflow || !x.takes then s
    else (s.modThread c k fun t => { t with cons := t.cons.map fun x => { x with overflow := true } }).push [.consignmentOverflow ⟨c, k⟩]
  | none => s

/-- The older accesses to a common byte that an operation of the thread still follows (R111). -/
def Thread.stillBehind (t : Thread) (s : State) (c : Nat) (o : Op) (a : MemAcc) : List Dep :=
  if !a.act.direct then [] else (t.behindOps s c o.no a).filter fun d => match d with
    | .op i => i < o.id
    | _ => false

/-- A store enters the core's store path (R107): what waits for its edge alone goes on, where its scope is the core's. -/
def State.enterPath (s : State) (c k id : Nat) : State :=
  match (s.thread? c k).bind fun t => (t.op? id).map fun o => (t, o) with
  | none => s
  | some (t, o) =>
    if !t.corePerformed o then s
    else
      let shares : Op → Bool := fun y => match o.kind, y.kind with
        | .acc a, .acc b => b.act.direct && a.meets b
        | _, _ => true
      let t' := { t with ops := t.ops.map fun y => if y.deps.contains (.op id) && !shares y then { y with deps := y.deps.filter (· ≠ .op id) } else y }
      if t' = t then s else (s.setThread c k t').push ((retryEvents c k t').filter fun e => !s.agenda.contains e)

/-- A held or replayed access is tried (R82, R113). One that follows an older access to a common byte, or meets a watermark (R157), waits on;
the access to the region of a grant that was revoked parks with the trap of R104. -/
def State.tryAcc (s : State) (c k : Nat) (t : Thread) (o : Op) (a : MemAcc) : State :=
  let ref : OpRef := ⟨c, k, o.id⟩
  let go : MemAcc → Nat → State → State := fun a room s =>
    let behind := t.stillBehind s c o a
    let x := if t.buffered && (a.act.stores || a.act.atom) then t.cons else none
    let full := x.any fun x => decide (64 < x.sects.length + x.newEntries (placesOf a.segs))
    if !behind.isEmpty then s.modThread c k fun t => t.modOp o.id fun o => { o with deps := behind }
    else if a.segs.any fun y => y.core.any fun d => clusterOf d = clusterOf c && (s.core d).spsz < y.addr + y.len then
      s.park c k o ⟨0x19, 0, 0⟩ 0 12 a.act.tr.acck .lead
    else if a.segs.any fun y => y.core.any fun d => clusterOf d = clusterOf c && s.chanWaits d y.addr y.len then s.defer ref
    else
    match t.staleAt a.segs with
    | some g =>
      let s := s.modThread c k fun t => { t with stale := t.stale.filter (· ≠ g) }
      s.park c k o ⟨0x08, 0, a.ea⟩ 0 12 a.act.tr.acck .lead g.word g.sectors
    | none =>
    match (if x.any fun x => !x.takes then .busy s
      else if full then .busy (s.overflowOf c k)
      else if x.isSome then State.performCons (s.whoAcc c k t o a) t o.scope a s
      else State.performAcc (s.whoAcc c k t o a) t o.scope a room ref s) with
    | .done s => s.finishOp c k o.id
    | .busy s => (s.enterPath c k o.id).defer ref
    | .poison b s => s.bindBad c k t o b a.ea a.act.tr.acck .lead
    | .waits i g l s => s.modThread c k fun t => t.modOp o.id fun o => { o with kind := .acqrWait a i g l }
  if a.am = .virt then
    match s.accTranslate c t a.ea a.n a.act.tr with
    | (.ok l room, s) =>
      let a := { a with segs := l }
      go a room (s.modThread c k fun t => t.modOp o.id fun o => { o with kind := .acc a })
    | (.walking, s) =>
      if 8 ≤ (t.ops.filter fun o => o.walk.isSome).length then s.defer ref
      else (s.modThread c k fun t => t.modOp o.id fun o => { o with walk := some ⟨a.ea, (s.space t).2, 0, []⟩ }).push [.tableWalk ref]
    | (.fault f va, s) => s.park c k o ⟨f.cause, BitVec.ofNat 3 f.level, va⟩ 0 f.span a.act.tr.acck .lead
  else go a 0 s

/-- TABLE WALK (R74): one entry is read; the walk goes on, answers the access, faults, or starts again when it cannot read. -/
def State.walkOnAt (s : State) (r : OpRef) : State :=
  match (s.thread? r.core r.slot).bind fun t => (t.op? r.op).map fun o => (t, o) with
  | none => s
  | some (t, o) =>
    match o.walk, o.kind with
    | some x, .acc a =>
      let p := s.partOf r.core
      let set : Option Walk → State → State := fun w s => s.modThread r.core r.slot fun t => t.modOp o.id fun o => { o with walk := w }
      let k := a.act.tr
      let fail : TrFault → State → State := fun f s => s.park r.core r.slot o ⟨f.cause, BitVec.ofNat 3 f.level, x.va⟩ 0 f.span k.acck .lead
      if !canonical x.va then fail ⟨0x10, 0, true, 45⟩ s
      else
        match s.part? p with
        | none => fail ⟨0x15, x.lvl, true, spanLog x.lvl⟩ s
        | some q =>
          let e := pteAddr x.va x.table x.lvl
          if inPriv q x.table && (!s.homeFree p (e / 64) || ((s.lading? p e).any fun l => !l.2.clear)) then
            { ((s.lading? p e).elim s fun l => s.ladWait p l.1 none) with later := s.later ++ [.tableWalk r] }
          else
          let s := if inPriv q x.table then (s.homeRead p (e / 64)).markTu p (e / 64) else s
          match walkStep q s.mem x.va (s.space t).1 k x.table x.lvl x.srcs with
          | .inl t' => if x.lvl < 3 then (set (some ⟨x.va, t', x.lvl + 1, x.srcs ++ [e / 64]⟩) s).push [.tableWalk r] else fail ⟨0x12, 3, true, 12⟩ s
          | .inr (.ok en) =>
            let s := (s.setAd p e k.writes).fillTlb (clusterOf r.core) en
            ((set none s).trapParked r.core r.slot).push (if o.deps.isEmpty then [.streamOperationComplete r] else [])
          | .inr (.fault f) => fail f s
    | _, _ => s

def State.walkOn (s : State) (r : OpRef) : State := s.withOp r fun c k s => s.walkOnAt ⟨c, k, r.op⟩

def execTableWalk (x : OpRef) (s : State) : Out := .next (s.walkOn x)

/-- An outstanding read of a thread has bound a poisoned sector (R361). -/
def State.poisonedOp (s : State) (c k id : Nat) (b : Bad) : State :=
  match (s.thread? c k).bind fun t => (t.op? id).map fun o => (t, o) with
  | none => s
  | some (t, o) =>
    match o.kind with
    | .copy x => s.copyBad c k t o x b
    | .tensor _ | .mat _ => s.bindBad c k t o b o.kind.addr 4 .trail
    | .acc a => s.bindBad c k t o b o.kind.addr a.act.tr.acck .lead
    | _ => s.bindBad c k t o b o.kind.addr 4 .lead

/-! ### Messages at their destination (R129, R153) -/

/-- The bytes after a remote message, for those before. -/
def remoteNew (x : RemoteAct) (old : List Byte) : List Byte :=
  match x with
  | .store bs => bs
  | .amo f dw b => amoBytes (amoOfCode f) (if dw then 8 else 4) old b
  | .amof f ty b => amofBytes (amofOfCode f) ty old b
  | .stn z pos v => old.map (stnByte z pos v)

/-- REMOTE STORE ARRIVAL: range-checked, held by a watermark, or applied in one bank step (R129, R153, R157). -/
def execRemoteStoreArrival (x : EvRemote) (s : State) : Out :=
  let n := x.act.len
  if (s.core x.dst).spsz < x.off + n then
    let i : TrapInfo := ⟨0x19, 0, .lead, (match x.act with | .store _ | .stn _ _ _ => 1 | _ => 2), 0, 0,
      (((s.thread? x.src.core x.src.slot).bind fun t => t.op? x.src.op).elim 0 (·.pc)), 0,
      BitVec.ofNat 64 (packFields [(0, 18, x.lcn), (32, 32, 1)]), 0⟩
    let tid := (s.thread? x.src.core x.src.slot).elim 0 (·.tid)
    let s := (s.appendRec x.src.core x.region (recFields s x.dst tid i false) [] none none).2
    .next (s.finishOp x.src.core x.src.slot x.src.op)
  else if s.chanWaits x.dst x.off n || s.spHeld x.dst x.off n then .next { s with later := s.later ++ [.remoteStoreArrival x] }
  else
    match (if x.act.reads then s.spPoison x.dst x.off n else none) with
    | some b => .next (s.poisonedOp x.src.core x.src.slot x.src.op b)
    | none =>
      let s := s.spWrite x.dst x.off (remoteNew x.act (memBytes (s.core x.dst).sp x.off n)) (x.key.map fun key => (x.region, key))
      .next (s.finishOp x.src.core x.src.slot x.src.op)

/-! ### The instructions -/

/-- ea of R127. -/
def memEa (t : Thread) (a : GReg) (off : BitVec 32) : Word := t.rg a + off.signExtend 64

/-- The opcode of the executing instruction. -/
def State.opc (s : State) : BitVec 8 := s.cur.iword.extractLsb' 88 8

/-- An access of an M-format instruction. -/
def accM (g : Guard) (str : Str) (am : AddrMode) (a c : GReg) (off : BitVec 32) (n : Nat) (size : BitVec 4) (ex nt : Bool)
    (act : Thread → AccAct) (s : State) : Out :=
  guarded g s fun t => issueAcc s t str ⟨memEa t a off, [], am, t.rg c, n, size, s.opc, ex, nt, act t⟩

/-- The SIZE code of a width in bytes (R30). -/
def sizeCode (n : Nat) : BitVec 4 := BitVec.ofNat 4 (Nat.log2 n)

def execLd (x : LdM) (s : State) : Out := accM x.g x.str x.am x.a x.c x.off (2 ^ x.sz.toNat) (x.sz.setWidth 4) x.ex x.nt (fun _ => .loadG x.d x.sx) s

def execSt (x : StM) (s : State) : Out :=
  accM x.g x.str x.am x.a x.c x.off (2 ^ x.sz.toNat) (x.sz.setWidth 4) false x.nt (fun t => .store (toBytes (2 ^ x.sz.toNat) (t.rg x.b).toNat)) s

def execLdv (x : LdvM) (s : State) : Out :=
  accM x.g x.str x.am x.a x.c x.off x.sz.bytes (sizeCode x.sz.bytes) x.ex x.nt (fun _ => .loadV x.d) s

def execStv (x : StvM) (s : State) : Out :=
  accM x.g x.str x.am x.a x.c x.off x.sz.bytes (sizeCode x.sz.bytes) false x.nt (fun t => .store (toBytes x.sz.bytes (t.rv x.b).toNat)) s

/-- PFETCH asks for the line's sectors for the L1, where that needs no fault and no wait (R83, R134): GETS, or GETX with EX, also of a sector that
is held shared; a line under the thread's own lading is fetched in L. -/
def State.prefetch (s : State) (w : Who) (pa : Nat) (ex : Bool) : State :=
  (lineSecs pa).foldl (fun s sec =>
    let st := (s.l1 w.core sec).map (·.st)
    if (st.isSome && !(ex && st = some .s)) || !s.grantable w.p w.core sec then s
    else
      match s.ladSee w (64 * sec) with
      | .other _ => s
      | .mine i => if st.isSome then s else if s.slow then s.askHome w sec .ild false (some i)
          else (s.setL1 w.core sec { L1Sec.of .l (memSector s.mem (64 * sec)) with entry := i, bad := s.poisonOf sec }).markNt w sec
      | .none =>
        if s.slow then s.askHome w sec (if ex then (if st.isSome then .sma else .imd) else .isd) ex
        else (if ex then s.grantWrite w.p w.core sec else s.grantRead w.p w.core sec).markNt w sec) s

/-- PFETCH (R134): on an SH page, a host-range line or a line under another thread's lading it does nothing. -/
def execPfetch (x : PfM) (s : State) : Out :=
  guarded x.g s fun t =>
    if s.walkHeld (s.partOf s.cur.core) (s.space t).2 (memEa t x.a x.off) then .next s
    else
    match s.translateR s.cur.core t.region (memEa t x.a x.off) .prefetch with
    | (.fault _, s) => .next s
    | (.ok pa sh _, s) => if sh || inHost pa then .next s else .next (s.prefetch { s.who s.cur.core s.cur.slot t with nt := x.nt } pa x.ex)

def execCflush (x : CacheM) (s : State) : Out := accM x.g x.str .virt x.a 0 x.off 1 3 false false (fun _ => .flush) s
def execCinv (x : CacheM) (s : State) : Out := accM x.g x.str .virt x.a 0 x.off 1 3 false false (fun _ => .inval) s

/-- Every instruction of the trail older than a place has been counted (R136). -/
def Thread.allCounted (t : Thread) (no : Nat) : Bool := (t.olderOther .lead no).all fun e => !((t.instrsOf e).any Instr.counts)

def execScnt (x : ScntT) (s : State) : Out :=
  guarded x.g s fun t =>
    if !t.allCounted s.cur.no then wait s
    else .next (s.setCur (t.wg x.d (if x.all then t.counters else BitVec.ofNat 64 (t.counter x.s.toNat))))

def amoM (f : AmoFn) (x : AmoM) (s : State) : Out :=
  accM x.g x.str x.am x.a x.c x.off (if x.dword then 8 else 4) (if x.dword then 3 else 2) true false (fun t => .amo f x.d (t.rg x.b)) s

def execAmoadd (x : AmoM) (s : State) : Out := amoM .add x s
def execAmoand (x : AmoM) (s : State) : Out := amoM .and x s
def execAmoor (x : AmoM) (s : State) : Out := amoM .or x s
def execAmoxor (x : AmoM) (s : State) : Out := amoM .xor x s
def execAmomin (x : AmoM) (s : State) : Out := amoM .min x s
def execAmomax (x : AmoM) (s : State) : Out := amoM .max x s
def execAmominu (x : AmoM) (s : State) : Out := amoM .minu x s
def execAmomaxu (x : AmoM) (s : State) : Out := amoM .maxu x s
def execAmoswp (x : AmoM) (s : State) : Out := amoM .swp x s

def execAmocas (x : CasM) (s : State) : Out :=
  accM x.g x.str x.am x.a x.c x.off (if x.dword then 8 else 4) (if x.dword then 3 else 2) true false (fun t => .cas x.d (t.rg x.b) (t.rg x.c)) s

def amofM (f : AmofFn) (x : AmoF) (s : State) : Out :=
  accM x.g x.str x.am x.a x.c x.off x.ty.bytes (sizeCode x.ty.bytes) true false (fun t => .amof f x.ty x.d (t.rg x.b)) s

def execAmofadd (x : AmoF) (s : State) : Out := amofM .add x s
def execAmofmin (x : AmoF) (s : State) : Out := amofM .min x s
def execAmofmax (x : AmoF) (s : State) : Out := amofM .max x s

def execWatch (x : WatchM) (s : State) : Out := accM x.g x.str .virt x.a 0 x.off 1 3 false false (fun t => .watch x.d (t.rg x.b)) s
def execUnwatch (x : WatchM) (s : State) : Out := accM x.g x.str .virt x.a 0 x.off 1 3 false false (fun t => .unwatch x.d (t.rg x.b)) s
def execWatchq (x : WatchM) (s : State) : Out := accM x.g x.str .virt x.a 0 x.off 1 3 false false (fun t => .watchq x.d (t.rg x.b)) s
def execAcqr (x : WatchM) (s : State) : Out := accM x.g x.str .virt x.a 0 x.off 1 3 false false (fun t => .acqr x.d (t.rg x.b)) s
def execRelr (x : RelM) (s : State) : Out := accM x.g x.str .virt x.a 0 x.off 1 3 false false (fun _ => .relr x.d) s
def execLadq (x : LadM) (s : State) : Out := accM x.g x.str .virt x.a 0 x.off 1 3 false false (fun _ => .ladq x.d) s

def execStn (x : StnM) (s : State) : Out := accM x.g x.str x.am x.a x.c x.off 1 x.sz.code false false (fun t => .stn x.sz (t.rg x.b)) s

end Sys2Proof.Machine
end

