-- ==== Sys2Proof/Machine/Copies.lean ====
section
/-! DEFINITION. The copy instructions (R163 to R165), destination arithmetic at its channel (R160 to R162), channel control (R166 to
R169) and LMCFG (R171). -/

namespace Sys2Proof.Machine

/-! ### Destination arithmetic -/

/-- The width of an element of R162 in bytes. -/
def elemBytes : ElemType → Nat
  | .f64 | .i64 => 8
  | .f32 | .i32 => 4
  | .f16 | .bf16 | .i16 => 2
  | _ => 1

/-- A number clamped to a width in two's complement. -/
def clampS (w : Nat) (x : Int) : Int := max (-(2 ^ (w - 1) : Nat)) (min x ((2 ^ (w - 1) : Nat) - 1))

/-- One element update on codes (R162); `m` is SAT of an integer sum, and unsigned of a minimum or maximum. -/
def arithCode (op : ArithOp) (ty : ElemType) (m : Bool) (old new : Nat) : Nat :=
  if ty.isI then
    let w := 8 * elemBytes ty
    let a := sextN w old
    let b := sextN w new
    match op with
    | .add => wrapN w (if m then clampS w (a + b) else a + b)
    | .min => if m then min (old % 2 ^ w) (new % 2 ^ w) else wrapN w (min a b)
    | .max => if m then max (old % 2 ^ w) (new % 2 ^ w) else wrapN w (max a b)
  else
    let f := ffmt ty
    amofCode (match op with | .add => .add | .min => .min | .max => .max) f old (new % 2 ^ f.width)

/-- Updates of consecutive elements from a local offset on, in ascending order. -/
def State.applyElems (s : State) (c : Nat) (op : ArithOp) (ty : ElemType) (m : Bool) : Nat → List Word → State
  | _, [] => s
  | o, v :: vs =>
    let n := elemBytes ty
    let old := memNat (s.core c).sp o n
    (s.spWrite c o (toBytes n (arithCode op ty m old v.toNat)) none).applyElems c op ty m (o + n) vs

/-- Held operations of a channel whose turn has come arrive again (R161). One that a CHWM write of SEQNEXT makes stale stays held until
CHCLOSE: the spec judges staleness at arrival alone (DEDUCED, assumption 44). -/
def State.releaseHold (s : State) (c : Nat) (n : BitVec 4) : State :=
  let q := (s.chan c n).seqnext
  let turn : EvUpdate → Bool := fun u => u.chan = n && u.seq = some q
  let out := (s.core c).hold.filter turn
  (s.modCore c fun y => { y with hold := y.hold.filter fun u => !turn u }).push (out.map .updateArrival)

/-- UPDATE ARRIVAL (R159 to R161): applied, held for its turn, answered with retry, or refused. -/
def State.update (s : State) (x : EvUpdate) : State :=
  let ch := s.chan x.dst x.chan
  let n := x.elems.length
  let size := n * elemBytes x.ty
  let apply : State → State := fun s => (s.applyElems x.dst x.op x.ty x.m (ch.base + x.off) x.elems).answer x.src n size true
  if !ch.isOpen || !ch.arith || ch.len < x.off + size || s.guestLcn x.region x.lcn then s.answer x.src n 0 false
  else if s.spHeld x.dst (ch.base + x.off) size then { s with later := s.later ++ [.updateArrival x] }
  else
    match x.seq with
    | none => apply s
    | some q =>
      let d := (q - ch.seqnext).toNat
      if d = 0 then ((apply s).setChan x.dst x.chan { ch with seqnext := ch.seqnext + 1 }).releaseHold x.dst x.chan
      else if d ≤ 32767 then
        if (s.core x.dst).hold.length < 16 then s.modCore x.dst fun y => { y with hold := y.hold ++ [x] }
        else { s with later := s.later ++ [.updateArrival x] }
      else s.answer x.src n 0 false

def execUpdateArrival (x : EvUpdate) (s : State) : Out := .next (s.update x)

/-! ### Sending -/

/-- The packets of a SEND, or the updates of destination arithmetic, for source bytes `next` to `next + bs.length - 1`: one packet a
granule (R155), one event an element (R160), one event in all when sequenced (R161). -/
def CopyOp.events (x : CopyOp) (ref : OpRef) (region : Nat) (bs : List Byte) : List Event :=
  match x.arith with
  | none => (chunks 64 (x.off + x.next) bs.length).map fun g =>
      .packetArrival ⟨ref, region, x.dst, x.lcn, x.chan, g.1, (bs.drop (g.1 - x.off - x.next)).take g.2, g.1 + g.2 = x.off + x.len⟩
  | some (op, ty, m) =>
    let n := elemBytes ty
    let es := (List.range (bs.length / n)).map fun i => BitVec.ofNat 64 (ofBytes ((bs.drop (n * i)).take n))
    match x.seq with
    | some q => if es.isEmpty then [] else [.updateArrival ⟨ref, region, x.dst, x.lcn, x.chan, x.off, op, ty, m, es, some q⟩]
    | none => (List.range es.length).map fun i =>
        .updateArrival ⟨ref, region, x.dst, x.lcn, x.chan, x.off + x.next + n * i, op, ty, m, [es.getD i 0], none⟩

/-- The packets or updates of a whole operation. -/
def CopyOp.count (x : CopyOp) : Nat :=
  match x.arith with
  | none => (chunks 64 x.off x.len).length
  | some (_, ty, _) => x.len / elemBytes ty

/-- The source bytes that can be sent up to a fault: whole granules or elements, and none of a sequenced operation. -/
def CopyOp.upTo (x : CopyOp) (f : Nat) : Nat :=
  match x.arith, x.seq with
  | some _, some _ => x.next
  | some (_, ty, _), none => f / elemBytes ty * elemBytes ty
  | none, _ => max x.next ((x.off + f) / 64 * 64 - x.off)

/-- The runs of a copy's source from its next byte to an end: or the fault with its address. -/
def State.copySrc (s : State) (c : Nat) (t : Thread) (x : CopyOp) (till : Nat) : (Except (TrFault × Word) (List Seg)) × State :=
  let n := till - x.next
  match x.am with
  | .virt =>
    match s.translateRun c t.region (x.ea + BitVec.ofNat 64 x.next) n .pathR (n / 4096 + 3) with
    | (.ok rs, s) => (.ok (rs.map fun r => ⟨none, r.pa, r.len, r.sh⟩), s)
    | (.error e, s) => (.error e, s)
  | .cluster => (.ok (s.clusterSegs c (x.ea.toNat + x.next) n), s)
  | _ => (.ok [⟨some c, x.ea.toNat + x.next, n, false⟩], s)

/-- The operation with its progress. -/
def State.setCopy (s : State) (c k id : Nat) (x : CopyOp) : State :=
  s.modThread c k fun t => t.modOp id fun o => { o with kind := .copy x }

/-- gC of a copy instruction (R163). -/
def CopyOp.gc (x : CopyOp) : Word := BitVec.ofNat 64 (packFields [(0, 18, x.lcn), (20, 18, x.off), (48, 16, x.seq.elim 0 (·.toNat))])

/-- A replayed copy of a non-direct activation takes its message entry (R82, R123). -/
def State.holdCopy (s : State) (c k : Nat) (o : Op) (x : CopyOp) (y : Consign) : State :=
  let h : HeldMsg := ⟨o.iword, o.pc, x.ea, BitVec.ofNat 64 x.len, x.gc, 0, .copy x, false⟩
  if !y.takes then s.defer ⟨c, k, o.id⟩
  else if 16 ≤ y.msgs.length then (s.overflowOf c k).defer ⟨c, k, o.id⟩
  else (s.modThread c k fun t => { t with cons := t.cons.map fun z => { z with msgs := z.msgs ++ [h] } }).finishOp c k o.id

/-- A copy operation reads its source and sends what it can (R165); a faulting page parks it there. What a consignment held counts in no
stream when it starts. -/
def State.tryCopy (s : State) (c k : Nat) (t : Thread) (o : Op) (x : CopyOp) : State :=
  let ref : OpRef := ⟨c, k, o.id⟩
  let w := s.whoOp c k t o
  if x.sent then s
  else
    match (if t.buffered && o.stream.isSome then t.cons else none) with
    | some y => s.holdCopy c k o x y
    | none =>
    let send : Nat → List Seg → State → (State → CopyOp → State) → State := fun till segs s next =>
      if s.segsWait segs then s.defer ref
      else
        match State.readFor w t .path segs s with
        | .busy s => s.defer ref
        | .poison b s => s.copyBad c k t o x b
        | .ok bs s => next (s.push (x.events ref t.region bs)) { x with next := till }
    match s.copySrc c t x x.len with
    | (.ok segs, s) =>
      send x.len segs s fun s x => (s.setCopy c k o.id { x with sent := true }).push [.sendComplete ref]
    | (.error (f, va), s) =>
      let foff := (va - x.ea).toNat
      let till := x.upTo foff
      let fail : State → CopyOp → State := fun s x =>
        s.park c k { o with kind := .copy { x with fpage := foff } } ⟨f.cause, BitVec.ofNat 3 f.level, va⟩ 0 f.span 4 .lead
      if till ≤ x.next then fail s x
      else
        match s.copySrc c t x till with
        | (.ok segs, s) => send till segs s fun s x => fail (s.setCopy c k o.id x) x
        | (.error _, s) => fail s x

/-- A message entry takes the executing instruction, which counts in SCLAMP as `count` says, or the consignment overflows (R322, R340). -/
def holdMsg (s : State) (count : State → State) (x : Consign) (h : HeldMsg) : Out :=
  if x.phase ≠ .running then wait s
  else if 16 ≤ x.msgs.length then overflowWait s x
  else .next ((count s).modCur fun t => { t with cons := some { x with msgs := x.msgs ++ [h] } })

/-- SRC of format C as an addressing mode. -/
def srcMode : SrcMode → AddrMode
  | .virt => .virt
  | .own => .own
  | .cluster => .cluster

/-- A copy instruction: the checks of R164 in their order, then its effect (R165). -/
def issueCopy (g : Guard) (str : Str) (am : SrcMode) (a b c : GReg) (chan : BitVec 4) (arith : Option (ArithOp × ElemType × Bool))
    (seq : Bool) (s : State) : Out :=
  guarded g s fun t =>
    let core := s.cur.core
    let ga := t.rg a
    let len := (t.rg b).toNat
    let gc := t.rg c
    let doff := (gc.extractLsb' 20 18).toNat
    let size := arith.elim 1 fun y => elemBytes y.2.1
    match s.named t gc with
    | none => trapAt s 0x1B 0 0
    | some d =>
      if gc.extractLsb' 38 10 ≠ 0 || gc.extractLsb' 18 2 ≠ 0 || (!seq && gc.extractLsb' 48 16 ≠ 0) || 196608 < len
          || (if arith.isSome then len % size ≠ 0 || doff % size ≠ 0 || ga.toNat % size ≠ 0 else doff % 64 ≠ 0) then trapAt s 0x1C 0 0
      else
        let mode := srcMode am
        let loc := if len = 0 || mode = .virt then .virt else s.locCheck core t mode 0 ga len false false
        let shrinks := match loc with
          | .segs l => s.segsShrink l
          | _ => false
        match loc with
        | .trap cause => trapAcc s cause 4 0 12 0
        | _ =>
          if t.full str.stream || shrinks then wait s
          else
            let x0 : CopyOp := ⟨ga, mode, len, d, (gc.extractLsb' 0 18).toNat, chan, doff, arith, if seq then some (gc.extractLsb' 48 16) else none,
              0, 0, false, 0, 0, 0, 0⟩
            let x := { x0 with total := x0.count }
            let floor := scopeFloor core .named (some d)
            let count := fun (s : State) => s.modCur (·.countClamp (s.clamps core str.scope floor))
            let deps := t.edges str.pmask s.cur.no
            let o := s.newOp t (some str.stream) str.pmask (s.effScope core str.scope floor) deps (.copy x)
            let start : State → Out := fun s =>
              match (if t.buffered then t.cons else none) with
              | some y => holdMsg s count y ⟨s.cur.iword, s.cur.ipc, ga, t.rg b, gc, 0, .copy x, false⟩
              | none =>
                let s := (count s).enterOp o
                if !deps.isEmpty then .next s
                else
                  match s.curT? with
                  | some t => .next (s.tryCopy core s.cur.slot t o x)
                  | none => .next s
            if len = 0 || mode ≠ .virt then start s
            else
              match s.translateR core t.region ga .pathR with
              | (.ok .., s) => start s
              | (.fault f, s) =>
                if f.walk then .next ((count s).park core s.cur.slot o ⟨f.cause, BitVec.ofNat 3 f.level, ga⟩ 0 f.span 4 .lead)
                else trapAcc s f.cause 4 f.level f.span ga

def execSend (x : SendC) (s : State) : Out := issueCopy x.g x.str x.am x.a x.b x.c x.chan none false s
def execSendadd (x : SendA) (s : State) : Out := issueCopy x.g x.str x.am x.a x.b x.c x.chan (some (.add, x.ty, x.m)) x.seq s
def execSendmin (x : SendA) (s : State) : Out := issueCopy x.g x.str x.am x.a x.b x.c x.chan (some (.min, x.ty, x.m)) x.seq s
def execSendmax (x : SendA) (s : State) : Out := issueCopy x.g x.str x.am x.a x.b x.c x.chan (some (.max, x.ty, x.m)) x.seq s

/-! ### Channel control (R166 to R169) -/

/-- Two channels' ranges overlap. -/
def Channel.overlaps (x : Channel) (base len : Nat) : Bool := x.isOpen && decide (x.base < base + len) && decide (base < x.base + x.len)

/-- CHOPEN (R167). -/
def State.chopen (s : State) (c region : Nat) (n : BitVec 4) (arith : Bool) (base len : Nat) : Nat × State :=
  let ch := s.chan c n
  if base % 64 ≠ 0 || len % 64 ≠ 0 || len = 0 || (s.core c).spsz < base + len then (7, s)
  else if ch.isOpen then (9, s)
  else if (s.core c).chans.toList.any fun y => y.overlaps base len then (4, s)
  else (0, s.setChan c n ⟨0, ch.gen + 1, arith, true, len, if arith then len else 0, base, 0, region⟩)

/-- The held sequenced operations of a channel are refused (R161, R168). -/
def State.dropHold (s : State) (c : Nat) (n : BitVec 4) : State :=
  let out := (s.core c).hold.filter fun u => u.chan = n
  out.foldl (fun s u => s.answer u.src u.elems.length 0 false) (s.modCore c fun y => { y with hold := y.hold.filter fun u => u.chan ≠ n })

/-- CHCLOSE (R168). -/
def State.chclose (s : State) (c : Nat) (n : BitVec 4) : Nat × State :=
  let ch := s.chan c n
  if ch.isOpen then (0, (s.setChan c n { ch with isOpen := false }).dropHold c n) else (6, s)

/-- WM rewritten (R169): arrivals at or above it within the new window stay, and WM advances under R156. -/
def Channel.setWm (x : Channel) (wm : Nat) : Channel :=
  Channel.rise 129 { x with wm := wm, arrived := if x.wm ≤ wm then x.arrived >>> ((wm - x.wm) / 64) else x.arrived <<< ((x.wm - wm) / 64) }

/-- CHWM (R169): the state word, with ERR when a write is rejected; `ro` rejects every write. -/
def State.chwm (s : State) (c : Nat) (n : BitVec 4) (setwm setseq : Bool) (wm seq : Word) (ro : Bool) : Word × State :=
  let ch := s.chan c n
  let bad := (ro && (setwm || setseq)) || (setseq && seq.extractLsb' 16 48 ≠ 0)
    || (setwm && (wm.toNat % 64 ≠ 0 || ch.len < wm.toNat || !ch.isOpen || ch.arith))
  if bad || !(setwm || setseq) then (ch.word bad, s)
  else
    let ch' := if setseq then { ch with seqnext := seq.extractLsb' 0 16 } else ch
    let ch' := if setwm then ch'.setWm wm.toNat else ch'
    let s := s.setChan c n ch'
    let s := if setwm then s.push (s.chanEvents c n) else s
    (ch.word false, if setseq then s.releaseHold c n else s)

/-- A channel instruction acts; what it writes into gD. -/
def State.doChan (s : State) (c region : Nat) (n : BitVec 4) : ChanAct → Word × State
  | .opn k b l => let (st, s) := s.chopen c region n k b.toNat l.toNat; (BitVec.ofNat 64 st, s)
  | .close => let (st, s) := s.chclose c n; (BitVec.ofNat 64 st, s)
  | .wm a b wm seq => s.chwm c n a b wm seq false

/-- What a channel instruction writes into gD, and its change: none in an activation that is not direct, where CHWM only reads (R166). -/
def State.chanAct (s : State) (c : Nat) (t : Thread) (n : BitVec 4) (act : ChanAct) : Word × State :=
  if t.buffered then
    match act with
    | .wm a b wm seq => ((s.chwm c n a b wm seq true).1, s)
    | _ => (8, s)
  else s.doChan c t.region n act

/-- A held channel instruction is tried. -/
def State.tryChan (s : State) (c k : Nat) (t : Thread) (o : Op) (d : GReg) (n : BitVec 4) (act : ChanAct) : State :=
  let (v, s) := s.chanAct c t n act
  (s.modThread c k fun t => t.wg d v).finishOp c k o.id

/-- A channel instruction: counted, and after its edges (R166). -/
def issueChan (g : Guard) (str : Str) (d : GReg) (n : BitVec 4) (act : Thread → ChanAct) (s : State) : Out :=
  guarded g s fun t =>
    let c := s.cur.core
    if t.full str.stream then wait s
    else
      let t := t.countClamp (s.clamps c str.scope 0)
      let s := s.setCur t
      let deps := t.edges str.pmask s.cur.no
      if deps.isEmpty then
        let (v, s) := s.chanAct c t n (act t)
        .next (s.modCur fun t => t.wg d v)
      else .next (s.enterOp (s.newOp t (some str.stream) str.pmask (s.effScope c str.scope 0) deps (.chan d n (act t))))

def execChopen (x : ChopenC) (s : State) : Out := issueChan x.g x.str x.d x.chan (fun t => .opn x.arith (t.rg x.a) (t.rg x.b)) s
def execChclose (x : ChcloseC) (s : State) : Out := issueChan x.g x.str x.d x.chan (fun _ => .close) s
def execChwm (x : ChwmC) (s : State) : Out := issueChan x.g x.str x.d x.chan (fun t => .wm x.setwm x.setseq (t.rg x.a) (t.rg x.b)) s

/-! ### LMCFG (R171) -/

/-- SPSZ for a code of L1SZ (R50, R150). -/
def spszOf (code : BitVec 2) : Nat := (192 - 32 * (code.toNat + 1)) * 1024

/-- The reservations in force on a core (R321). -/
def State.reservations (s : State) (c : Nat) : Nat := s.threads.countP fun e => e.1.1 = c && e.2.cons.isSome

/-- The non-direct activations that an L1 of a code allows (R321). -/
def reserveMax (code : BitVec 2) : Nat := 3 * (code.toNat + 1)

/-- A manifest may reach local offsets of a core at or above a bound. -/
def State.manifAbove (s : State) (t : Thread) (c bound : Nat) (m : V512) : Bool :=
  (Manif.ofBits m).meets s c t.rf .own (BitVec.ofNat 64 bound) (192 * 1024 - bound)

/-- An operation in flight touches local offsets of a core at or above a bound (R171): a single access, one of a tensor instruction, of a pass or of
a copy's source, a store on its way from another core. What still waits for an instruction of the trail that has not executed waits with it. -/
def State.inFlight (s : State) (c bound : Nat) : Bool :=
  (s.threads.any fun e => e.2.ops.any fun o => o.parked.isNone && o.deps.all Dep.isOp && (match o.kind with
    | .acc a => a.segs.any fun x => x.core = some c && decide (bound < x.addr + x.len)
    | .tensor x => clusterOf e.1.1 = clusterOf c && x.manifs.any (s.manifAbove e.2 c bound)
    | .mat x => clusterOf e.1.1 = clusterOf c && x.manifs.any (s.manifAbove e.2 c bound)
    | .copy x => !x.sent && (match x.am with
      | .own => e.1.1 = c && decide (bound < x.ea.toNat + x.len)
      | .cluster => clusterOf e.1.1 = clusterOf c && (s.clusterSegs e.1.1 x.ea.toNat x.len).any fun y => y.core = some c && decide (bound < y.addr + y.len)
      | _ => false)
    | _ => false))
  || (s.agenda ++ s.later).any fun i => match i with
    | .remoteStoreArrival x => x.dst = c && decide (bound < x.off + x.act.len)
    | _ => false

/-- The sequence of LMCFG on a core: its status, or none while accesses to the bytes that leave are in flight. -/
def State.resplit (s : State) (c : Nat) (code : BitVec 2) : Option Nat × State :=
  let y := s.core c
  let new := spszOf code
  if code = y.l1sz then (some 0, s)
  else if new < y.spsz then
    if y.chans.toList.any fun x => x.isOpen && decide (new < x.base + x.len) then (some 9, s)
    else if s.inFlight c new then (none, s)
    else (some 0, s.modCore c fun y => { y with l1sz := code, sp := y.sp.filter fun e => e.1 < new })
  else if reserveMax code < s.reservations c then (some 9, s)
  else
    let p := s.partOf c
    let s := (y.l1.map (·.1)).foldl (fun s sec => s.evict p c sec true false) s
    (some 0, s.modCore c fun y => { y with l1sz := code })

def execLmcfg (x : LmcfgT) (s : State) : Out :=
  guarded x.g s fun t =>
    if t.buffered then .next (s.setCur (t.wg x.d 8))
    else if !((s.region? t.region).elim false (·.lmperm)) then .next (s.setCur (t.wg x.d 10))
    else
      match s.resplit s.cur.core x.code with
      | (some st, s) => .next ((s.dropShrink s.cur.core s.cur.slot).modCur fun t => t.wg x.d (BitVec.ofNat 64 st))
      | (none, _) => wait (s.modCore s.cur.core fun y => { y with shrink := some (spszOf x.code, s.cur.slot) })

end Sys2Proof.Machine
end

