-- ==== Sys2Proof/Machine/Vector.lean ====
section
/-! DEFINITION. The vector instructions (R216 to R227): lanes, lane arithmetic, conversion, special functions, lane movement, reductions
and dot products. -/

namespace Sys2Proof.Machine

/-! ### Lanes (R216) -/

/-- Lane i of width w. -/
def lane (w : Nat) (v : V512) (i : Nat) : Nat := (v.extractLsb' (w * i) w).toNat

/-- The lanes of a register. -/
def lanes (w : Nat) (v : V512) : List Nat := (List.range (512 / w)).map (lane w v)

/-- A register from its lanes. -/
def ofLanes (w : Nat) (l : List Nat) : V512 := BitVec.ofNat 512 (l.foldr (fun x acc => x % 2 ^ w + 2 ^ w * acc) 0)

/-- The lane width of a type of class F or I. -/
def laneW (ty : ElemType) : Nat := if ty.isI then (match ty with | .i64 => 64 | .i32 => 32 | .i16 => 16 | _ => 8) else (ffmt ty).width

/-- The register and the flags of lane results. -/
def laneRes (w : Nat) (l : List (Nat × Fl)) : V512 × Fl := (ofLanes w (l.map (·.1)), l.foldl (fun f x => f ||| x.2) 0)

/-- A result in vD under the guard, with the flags of its lanes (R217). -/
def setV (g : Guard) (d : VReg) (s : State) (r : Thread → V512 × Fl) : Out :=
  guarded g s fun t =>
    let (v, f) := r t
    .next (s.setCur ((t.wv d v).orFlags f))

/-! ### Lane arithmetic (R218) -/

/-- The lane operations of R218, for one lane of a type. `sat` and `uns` are the integer modifiers. -/
inductive LaneOp where
  | add | sub | mul | fma | fms | neg | abs | min | max
  deriving DecidableEq, Repr

/-- An integer lane. -/
def LaneOp.int (op : LaneOp) (w : Nat) (sat uns : Bool) (a b c : Nat) : Nat :=
  let x := readW w uns a
  let y := readW w uns b
  match op with
  | .add => laneInt w sat uns (x + y)
  | .sub => laneInt w sat uns (x - y)
  | .mul => laneInt w false false (x * y)
  | .fma => laneInt w false false (x * y + readW w uns c)
  | .fms => laneInt w false false (x * y - readW w uns c)
  | .neg => laneInt w sat false (-x)
  | .abs => laneInt w sat false x.natAbs
  | .min => wrapN w (if y < x then y else x)
  | .max => wrapN w (if x < y then y else x)

/-- A floating lane: the scalar instruction of the same name. -/
def LaneOp.flt (op : LaneOp) (f : FFmt) (rm : Round) (a b c : Nat) : Nat × Fl :=
  match op with
  | .add => f.fadd rm a b
  | .sub => f.fsub rm a b
  | .mul => f.fmul rm a b
  | .fma => f.ffma rm false a b c
  | .fms => f.ffma rm true a b c
  | .neg => (f.fneg a, 0)
  | .abs => (f.fabs a, 0)
  | .min => (f.fminmax false a b, 0)
  | .max => (f.fminmax true a b, 0)

/-- One lane of a type. -/
def LaneOp.one (op : LaneOp) (ty : ElemType) (rm : Round) (sat uns : Bool) (a b c : Nat) : Nat × Fl :=
  if ty.isI then (op.int (laneW ty) sat uns a b c, 0) else op.flt (ffmt ty) rm a b c

/-- Every lane. -/
def LaneOp.all (op : LaneOp) (ty : ElemType) (rm : Round) (sat uns : Bool) (a b c : V512) : V512 × Fl :=
  let w := laneW ty
  laneRes w ((List.range (512 / w)).map fun i => op.one ty rm sat uns (lane w a i) (lane w b i) (lane w c i))

def vAddSub (op : LaneOp) (x : VAddV) (s : State) : Out :=
  setV x.g x.d s fun t => op.all x.ty (t.round x.rm) x.sat x.uns (t.rv x.a) (t.rv x.b) 0

def execVadd (x : VAddV) (s : State) : Out := vAddSub .add x s
def execVsub (x : VAddV) (s : State) : Out := vAddSub .sub x s

def execVmul (x : VMulV) (s : State) : Out :=
  setV x.g x.d s fun t => LaneOp.mul.all x.ty (t.round x.rm) false false (t.rv x.a) (t.rv x.b) 0

def vFma (op : LaneOp) (x : VFmaV) (s : State) : Out :=
  setV x.g x.d s fun t => op.all x.ty (t.round x.rm) false false (t.rv x.a) (t.rv x.b) (t.rv x.c)

def execVfma (x : VFmaV) (s : State) : Out := vFma .fma x s
def execVfms (x : VFmaV) (s : State) : Out := vFma .fms x s

def vNegAbs (op : LaneOp) (x : VNegV) (s : State) : Out := setV x.g x.d s fun t => op.all x.ty .rne x.sat false (t.rv x.a) 0 0

def execVneg (x : VNegV) (s : State) : Out := vNegAbs .neg x s
def execVabs (x : VNegV) (s : State) : Out := vNegAbs .abs x s

def vMinMax (op : LaneOp) (x : VMinV) (s : State) : Out := setV x.g x.d s fun t => op.all x.ty .rne false x.uns (t.rv x.a) (t.rv x.b) 0

def execVmin (x : VMinV) (s : State) : Out := vMinMax .min x s
def execVmax (x : VMinV) (s : State) : Out := vMinMax .max x s

/-! ### Bits, shifts, comparison, selection (R219) -/

def vLog (f : V512 → V512 → V512) (x : VLogV) (s : State) : Out := setV x.g x.d s fun t => (f (t.rv x.a) (t.rv x.b), 0)

def execVand (x : VLogV) (s : State) : Out := vLog (· &&& ·) x s
def execVor (x : VLogV) (s : State) : Out := vLog (· ||| ·) x s
def execVxor (x : VLogV) (s : State) : Out := vLog (· ^^^ ·) x s

/-- The count of lane i. -/
def VCount.at (c : VCount) (t : Thread) (w i : Nat) : Nat :=
  match c with
  | .imm n => n.toNat
  | .reg b => lane w (t.rv b) i % w

def vShift (f : Nat → Nat → Nat → Nat) (x : VShV) (s : State) : Out :=
  setV x.g x.d s fun t =>
    let w := laneW x.ty
    (ofLanes w ((List.range (512 / w)).map fun i => f w (lane w (t.rv x.a) i) (VCount.at x.cnt t w i)), 0)

def execVshl (x : VShV) (s : State) : Out := vShift (fun _ a c => a * 2 ^ c) x s
def execVshr (x : VShV) (s : State) : Out := vShift (fun _ a c => a / 2 ^ c) x s
def execVsra (x : VShV) (s : State) : Out := vShift (fun w a c => wrapN w (sextN w a / (2 ^ c : Nat))) x s

/-- The condition of a VCMP lane. -/
def vcond (c : VCond) (ty : ElemType) (a b : Nat) : Bool :=
  match c with
  | .flt c => (ffmt ty).fcmp c a b
  | .int c =>
    match laneW ty with
    | 64 => icond c (BitVec.ofNat 64 a) (BitVec.ofNat 64 b)
    | 32 => icond c (BitVec.ofNat 32 a) (BitVec.ofNat 32 b)
    | 16 => icond c (BitVec.ofNat 16 a) (BitVec.ofNat 16 b)
    | _ => icond c (BitVec.ofNat 8 a) (BitVec.ofNat 8 b)

def execVcmp (x : VCmpV) (s : State) : Out :=
  setV x.g x.d s fun t =>
    let w := laneW x.ty
    (ofLanes w ((List.range (512 / w)).map fun i => if vcond x.c x.ty (lane w (t.rv x.a) i) (lane w (t.rv x.b) i) then 2 ^ w - 1 else 0), 0)

def execVsel (x : VSelV) (s : State) : Out :=
  setV x.g x.d s fun t => ((t.rv x.a &&& t.rv x.c) ||| (t.rv x.b &&& ~~~t.rv x.c), 0)

/-! ### Conversion (R220) -/

/-- The traps of the vector unit that wait for a descriptor: subcode 5 of R27. -/
def badLane (s : State) : Out := trapAt s 0x01 5 0

/-- The lanes of a conversion: same count, widening from group k, or narrowing into group k over the old lanes. -/
def cvtLanes (nd ns k : Nat) (conv : Nat → Nat × Fl) (src dst : Nat → Nat) : List (Nat × Fl) :=
  if nd ≤ ns then (List.range nd).map fun i => conv (src (k * nd + i))
  else (List.range nd).map fun i => if k * ns ≤ i && i < k * ns + ns then conv (src (i - k * ns)) else (dst i, 0)

def execVcvt (x : VCvtV) (s : State) : Out :=
  guarded x.g s fun t =>
    match numFmt t.rf x.dst, numFmt t.rf x.src with
    | some fd, some fs =>
      let nd := 512 / fd.lane
      let ns := 512 / fs.lane
      let k := x.k.toNat
      if max nd ns / min nd ns ≤ k then badLane s
      else
        let lut := (s.core s.cur.core).lut
        let conv := fun (c : Nat) => convert x.dst x.src fd fs (t.round x.rm) x.sat (fs.operand lut c)
        let (v, f) := laneRes fd.lane (cvtLanes nd ns k conv (lane fs.lane (t.rv x.a)) (lane fd.lane (t.rv x.d)))
        .next (s.setCur ((t.wv x.d v).orFlags f))
    | _, _ => badFormat s

/-! ### Special functions (R221 to R223) -/

def vFun (fn : SpFn) (g : Guard) (ty : ElemType) (rm : Rm) (d a : VReg) (s : State) : Out :=
  setV g d s fun t =>
    let w := laneW ty
    laneRes w ((lanes w (t.rv a)).map fun c => (ffmt ty).special fn (t.round rm) c)

def execVrcp (x : VFunV) (s : State) : Out := vFun .rcp x.g x.ty .rne x.d x.a s
def execVrsq (x : VFunV) (s : State) : Out := vFun .rsq x.g x.ty .rne x.d x.a s
def execVsqrt (x : VSqrtV) (s : State) : Out := vFun .sqrt x.g x.ty x.rm x.d x.a s
def execVexp2 (x : VFunV) (s : State) : Out := vFun .exp2 x.g x.ty .rne x.d x.a s
def execVlog2 (x : VFunV) (s : State) : Out := vFun .log2 x.g x.ty .rne x.d x.a s
def execVsinp (x : VFunV) (s : State) : Out := vFun .sinp x.g x.ty .rne x.d x.a s
def execVtanh (x : VFunV) (s : State) : Out := vFun .tanh x.g x.ty .rne x.d x.a s

/-! ### Moving lanes (R224) -/

/-- An instruction that needs only the lane width of its type; an invalid descriptor takes the trap of R175. -/
def withLane (g : Guard) (ty : ElemType) (s : State) (f : Thread → Nat → Out) : Out :=
  guarded g s fun t =>
    match numFmt t.rf ty with
    | some n => f t n.lane
    | none => badFormat s

def execVperm (x : VPermV) (s : State) : Out :=
  withLane x.g x.ty s fun t w =>
    if w = 4 then badLane s
    else
      let n := 512 / w
      let tab := lanes w (t.rv x.a) ++ (match x.c with | some c => lanes w (t.rv c) | none => [])
      .next (s.setCur (t.wv x.d (ofLanes w ((List.range n).map fun i => tab.getD (lane w (t.rv x.b) i % tab.length) 0))))

def execVbcast (x : VBcastV) (s : State) : Out :=
  withLane x.g x.ty s fun t w =>
    if 512 / w ≤ x.k.toNat then badLane s
    else .next (s.setCur (t.wv x.d (ofLanes w (List.replicate (512 / w) (lane w (t.rv x.a) x.k.toNat)))))

def execVins (x : VInsV) (s : State) : Out :=
  withLane x.g x.ty s fun t w =>
    if 512 / w ≤ x.k.toNat then badLane s
    else .next (s.setCur (t.wv x.d (ofLanes w ((List.range (512 / w)).map fun i =>
      if i = x.k.toNat then (t.rg x.a).toNat else lane w (t.rv x.d) i))))

def execVext (x : VExtV) (s : State) : Out :=
  withLane x.g x.ty s fun t w =>
    if 512 / w ≤ x.k.toNat then badLane s
    else
      let c := lane w (t.rv x.a) x.k.toNat
      .next (s.setCur (t.wg x.d (if x.ty.isI || x.ty = .i4 then BitVec.ofInt 64 (sextN w c) else BitVec.ofNat 64 c)))

def execVmov (x : VMovV) (s : State) : Out := setV x.g x.d s fun t => (t.rv x.a, 0)

def execVsplat (x : VSplatV) (s : State) : Out :=
  withLane x.g x.ty s fun t w => .next (s.setCur (t.wv x.d (ofLanes w (List.replicate (512 / w) (t.rg x.a).toNat))))

/-! ### Reductions (R225, R226) -/

/-- One step of a reduction. -/
def redStep (op : RedOp) (ty : ElemType) (rm : Round) (uns : Bool) (a b : Nat) : Nat × Fl :=
  match op with
  | .add => LaneOp.add.one ty rm false false a b 0
  | .min => LaneOp.min.one ty rm false uns a b 0
  | .max => LaneOp.max.one ty rm false uns a b 0
  | .and => (Nat.land a b, 0)
  | .or => (Nat.lor a b, 0)
  | .xor => (Nat.xor a b, 0)

/-- The halving tree; the fuel bounds its levels. -/
def redTree (f : Nat → Nat → Nat × Fl) : Nat → List Nat → Fl → Nat × Fl
  | 0, l, fl => (l.headD 0, fl)
  | n + 1, l, fl =>
    if l.length ≤ 1 then (l.headD 0, fl)
    else
      let h := l.length / 2
      let r := (List.range h).map fun i => f (l.getD i 0) (l.getD (i + h) 0)
      redTree f n (r.map (·.1)) (r.foldl (fun a x => a ||| x.2) fl)

/-- The inclusive prefix. -/
def scanList (f : Nat → Nat → Nat × Fl) : Nat → List Nat → List (Nat × Fl)
  | _, [] => []
  | acc, x :: l => let r := f acc x; r :: scanList f r.1 l

def execVred (x : VRedV) (s : State) : Out :=
  setV x.g x.d s fun t =>
    let w := laneW x.ty
    let (v, f) := redTree (redStep x.op x.ty (t.round x.rm) x.uns) 7 (lanes w (t.rv x.a)) 0
    (ofLanes w [v], f)

def execVscan (x : VRedV) (s : State) : Out :=
  setV x.g x.d s fun t =>
    let w := laneW x.ty
    match lanes w (t.rv x.a) with
    | [] => (0, 0)
    | y :: l => laneRes w ((y, 0) :: scanList (redStep x.op x.ty (t.round x.rm) x.uns) y l)

/-! ### Dot products (R227) -/

/-- The terms of an exact sum: whether a NaN is among them, an invalid product, the infinities, and the finite part. -/
structure DotAcc where
  nan : Bool
  inv : Bool
  pos : Bool
  negi : Bool
  sum : Val

/-- A term joins the sum. -/
def DotAcc.add (x : DotAcc) (v : Val) : DotAcc :=
  match v with
  | .nan => { x with nan := true }
  | .inf s => if s then { x with negi := true } else { x with pos := true }
  | v => { x with sum := x.sum.add .rne v }

/-- A product joins the sum; Inf times zero is invalid. -/
def DotAcc.mul (x : DotAcc) (a b : Val) : DotAcc :=
  if a.isNan || b.isNan then { x with nan := true }
  else match a.mul b with
    | .nan => { x with inv := true }
    | v => x.add v

/-- The rounded sum with its flags: an exact zero is +0, or -0 toward minus infinity. NV is set where Inf meets a zero, or infinite terms have both
signs, also beside a NaN lane: R227 orders the two sentences in no way (DESIGN CHOICE, assumption 47). -/
def DotAcc.round (x : DotAcc) (f : FFmt) (rm : Round) : Nat × Fl :=
  if x.inv || (x.pos && x.negi) then (f.nan, flNV)
  else if x.nan then (f.nan, 0)
  else if x.pos || x.negi then (f.inf x.negi, 0)
  else match x.sum with
    | .fin _ 0 _ => (f.signBit (rm == .rdn), 0)
    | v => f.deliver rm false false v

/-- One lane of VDOT: the accumulator and the products, rounded once. -/
def dotLane (acc src : ElemType) (rm : Round) (sat : Bool) (lut : List Byte) (c : Nat) (l : List (Nat × Nat)) : Nat × Fl :=
  if acc.isI then
    let rd := fun (x : Nat) => match src with
      | .lut4 => sextN 8 (lutRead lut x)
      | .i4 => sextN 4 x
      | _ => sextN 8 x
    (laneInt 32 sat false (sextN 32 c + (l.map fun y => rd y.1 * rd y.2).foldl (· + ·) 0), 0)
  else
    let f := match src with
      | .e4m3 => fE4M3
      | .e5m2 => fE5M2
      | _ => ffmt src
    let x0 : DotAcc := DotAcc.add ⟨false, false, false, false, .fin false 0 0⟩ (fp32.read c)
    (l.foldl (fun (x : DotAcc) y => x.mul (f.read y.1) (f.read y.2)) x0).round fp32 rm

/-- The source lane width of VDOT. -/
def dotW : ElemType → Nat
  | .bf16 | .f16 => 16
  | .i4 | .lut4 => 4
  | _ => 8

def execVdot (x : VDotV) (s : State) : Out :=
  setV x.g x.d s fun t =>
    let w := dotW x.src
    let k := 32 / w
    let lut := (s.core s.cur.core).lut
    laneRes 32 ((List.range 16).map fun i =>
      dotLane x.acc x.src (t.round x.rm) x.sat lut (lane 32 (t.rv x.d) i)
        ((List.range k).map fun j => (lane w (t.rv x.a) (k * i + j), lane w (t.rv x.b) (k * i + j))))

end Sys2Proof.Machine
end

