-- ==== Sys2Proof/Machine/Tensor.lean ====
section
/-! DEFINITION. Manifests (R228 to R231), manifest registers, descriptors and the table T (R232 to R234), and the tensor instructions
(R235 to R241). -/

namespace Sys2Proof.Machine

/-! ### The checks (R231) -/

/-- What an instruction asks of a manifest that it names. -/
structure MUse where
  bits : V512
  written : Bool
  index : Bool
  scaled : Bool

/-- The conditions of one manifest (R231): the subcode of the first that fails; 8 stands for the descriptor check of R175. -/
def Manif.check (s : State) (c : Nat) (fmt : FReg → BitVec 32) (u : MUse) : Option Nat :=
  let m := Manif.ofBits u.bits
  let ty := ElemType.ofCode m.ty
  let spare := (List.range 4).any fun d => m.ndim ≤ d && (m.ext.getD d 0 ≠ 0 || m.str.getD d 0 ≠ 0)
  let badTy : Bool := match ty with
    | none | some .ue8m0 => true
    | some .lut4 => u.written || u.index
    | some t => u.index && t ≠ .i32 && t ≠ .i64
  if m.ndim = 0 || 4 < m.ndim then some 1
  else if m.res || spare || (m.skind = 0 && m.sbase ≠ 0) || (m.space ≠ 3 && m.chan ≠ 0) then some 2
  else if (List.range m.ndim).any fun d => m.ext.getD d 0 = 0 then some 3
  else if badTy then some 5
  else if (numFmt fmt m.elem).isNone then some 8
  else if m.skind = 3 || m.sspace = 3 || (m.skind ≠ 0 && (!ElemType.scales m.elem || m.str.getD 0 0 ≠ 1 || m.ext.getD 0 0 % m.block ≠ 0
      || (u.written && !u.scaled))) then some 6
  else if m.space = 3 && (!(s.chan c m.chan).isOpen || (s.chan c m.chan).arith) then some 7
  else none

/-- The first manifest of a list that fails. -/
def firstBad (s : State) (c : Nat) (fmt : FReg → BitVec 32) : List MUse → Option Nat
  | [] => none
  | u :: l => match Manif.check s c fmt u with
    | some n => some n
    | none => firstBad s c fmt l

/-- The manifest trap, or the bad-format trap where the descriptor check stands. -/
def manifTrap (s : State) (sub : Nat) : Out := if sub = 8 then badFormat s else trapAt s 0x1F sub 0

/-! ### Element access (R229, R235) -/

/-- A fault of an element access. -/
structure TFault where
  cause : BitVec 8
  level : Nat
  va : Word
  span : Nat
  acck : BitVec 3
  aux : Word
  cont : List Nat

/-- What a part of a tensor instruction answers. -/
inductive TRes (α : Type) where
  | ok (a : α) (s : State)
  | busy (s : State)
  | fault (f : TFault) (s : State)
  | poison (b : Bad) (va : Word) (s : State)
  | full (s : State)

def TRes.bind (x : TRes α) (f : α → State → TRes β) : TRes β :=
  match x with
  | .ok a s => f a s
  | .busy s => .busy s
  | .fault e s => .fault e s
  | .poison b va s => .poison b va s
  | .full s => .full s

/-- The access at an address as a part of a tensor instruction. -/
def Got.elem (va : Word) (x : Got α) : TRes α :=
  match x with
  | .ok a s => .ok a s
  | .busy s => .busy s
  | .poison b s => .poison b va s

/-- The bytes of an element: the address of the first, the bit where the element starts in it, and their number (R173). -/
def elemSpan (base : Word) (cont : Nat) (e : Int) : Word × Nat × Nat :=
  let bit := e * (cont : Int)
  let off := bit / 8
  let k := (bit % 8).toNat
  (base + BitVec.ofInt 64 off, k, (k + cont + 7) / 8)

/-- The runs of n bytes in a space, with the checks of R129 and the wait of R157. -/
def State.spaceSegs (s : State) (c : Nat) (t : Thread) (sp : BitVec 2) (chan : BitVec 4) (a : Word) (n : Nat) (k : TrKind) : TRes (List Seg) :=
  let err := fun (cause : BitVec 8) (level span : Nat) (va : Word) (s : State) => TRes.fault ⟨cause, level, va, span, k.acck, 0, []⟩ s
  if sp = 0 then
    match s.translateRun c t.region a n k 3 with
    | (.error (f, va), s) => err f.cause f.level f.span va s
    | (.ok rs, s) =>
      let l : List Seg := rs.map fun r => ⟨none, r.pa, r.len, r.sh⟩
      match t.staleAt l with
      | some g => .fault ⟨0x08, 0, a, 12, k.acck, g.word, g.sectors⟩ s
      | none => .ok l s
  else
    let a := if sp = 3 then a + BitVec.ofNat 64 (s.chan c chan).base else a
    match s.locCheck c t (spaceMode sp) 0 a n false false with
    | .segs l => if s.segsWait l then .busy s else .ok l s
    | _ => err 0x19 0 12 0 s

/-- Whose element accesses these are: an operation of the direct path, or an engine path (R111, R119). -/
structure ElemBy where
  path : Bool
  no : Nat
  str : Option (BitVec 3 × Nat)

def ElemBy.who (b : ElemBy) (s : State) (c k : Nat) (t : Thread) : Who := { s.who c k t with no := b.no, str := b.str }

/-- n bytes of a space, as the thread's direct path or one of its engine paths reads them. -/
def State.spaceRead (s : State) (c k : Nat) (t : Thread) (b : ElemBy) (sp : BitVec 2) (chan : BitVec 4) (a : Word) (n : Nat) :
    TRes (List Byte) :=
  (s.spaceSegs c t sp chan a n (if b.path then .pathR else .load)).bind fun l s =>
    (State.readFor (b.who s c k t) t (if b.path then .path else .l1 false) l s).elem a

/-- The bits that `cont` bits at bit `k` cover in n bytes. -/
def bitMask (k cont n : Nat) : List Byte := toBytes n ((2 ^ cont - 1) * 2 ^ k)

/-- Bytes with the masked bits replaced. -/
def putBits (old new mask : List Byte) : List Byte :=
  (List.range old.length).map fun i => (new.getD i 0 &&& mask.getD i 0) ||| (old.getD i 0 &&& ~~~mask.getD i 0)

/-- An element's bits are written: whole bytes stored, bits of shared bytes by a read-modify-write, or all entered in the consignment. -/
def State.spaceWrite (s : State) (c k : Nat) (t : Thread) (b : ElemBy) (sp : BitVec 2) (chan : BitVec 4) (a : Word) (bit cont n code : Nat) (scope : BitVec 2) :
    TRes Unit :=
  (s.spaceSegs c t sp chan a n (if b.path then .pathW else .store)).bind fun l s =>
    let w := b.who s c k t
    let new := toBytes n (code % 2 ^ cont * 2 ^ bit)
    let mask := bitMask bit cont n
    match (if t.buffered then t.cons else none) with
    | some x =>
      if !x.takes then .busy s
      else if 64 < x.sects.length + x.newEntries (placesOf l) then .full s
      else .ok () (s.consWrite c k t l new mask scope)
    | none =>
      if cont % 8 = 0 then (if b.path then State.pathSegs w l new none s else State.storeSegs w l new s).elem a
      else ((State.rmw w b.path l (fun old => some (putBits old new mask)) s).elem a).bind fun _ s => .ok () s

/-- The code of an element, the container's upper bits included. -/
def State.getElem (s : State) (c k : Nat) (t : Thread) (b : ElemBy) (fmt : FReg → BitVec 32) (m : Manif) (i : List Nat) : TRes Nat :=
  match numFmt fmt m.elem with
  | none => .ok 0 s
  | some f =>
    let (a, bit, n) := elemSpan m.base f.container (m.pos i)
    (s.spaceRead c k t b m.space m.chan a n).bind fun bs s => .ok (ofBytes bs / 2 ^ bit % 2 ^ f.container) s

/-- An element is written. -/
def State.putElem (s : State) (c k : Nat) (t : Thread) (b : ElemBy) (fmt : FReg → BitVec 32) (m : Manif) (i : List Nat) (code : Nat)
    (scope : BitVec 2) : TRes Unit :=
  match numFmt fmt m.elem with
  | none => .ok () s
  | some f =>
    let (a, bit, n) := elemSpan m.base f.container (m.pos i)
    s.spaceWrite c k t b m.space m.chan a bit f.container n (code % 2 ^ f.width) scope

/-- The address of the scale of a tuple (R230). -/
def Manif.scaleAt (m : Manif) (i : List Nat) : Word :=
  let e := m.extent
  m.sbase + BitVec.ofNat 64 (i.getD 0 0 / m.block + e 0 / m.block * (i.getD 1 0 + e 1 * (i.getD 2 0 + e 2 * i.getD 3 0)))

/-- The value of a scale code. -/
def scaleVal (skind : BitVec 2) (code : Nat) : Val := if skind = 1 then ue8m0Value code else fE4M3.value code

/-- An element read: its looked-up code, and its scaled value when it has a scale (R177, R178). -/
structure Elem where
  code : Nat
  val : Option Val

def State.readElem (s : State) (c k : Nat) (t : Thread) (b : ElemBy) (fmt : FReg → BitVec 32) (lut : List Byte) (m : Manif) (i : List Nat) :
    TRes Elem :=
  (s.getElem c k t b fmt m i).bind fun code s =>
    match numFmt fmt m.elem with
    | none => .ok ⟨0, none⟩ s
    | some f =>
      let code := f.operand lut code
      if m.skind = 0 then .ok ⟨code, none⟩ s
      else (s.spaceRead c k t b m.sspace 0 (m.scaleAt i) 1).bind fun x s => .ok ⟨code, some ((f.read code).mul (scaleVal m.skind (ofBytes x)))⟩ s

/-- An element's value. -/
def Elem.value (e : Elem) (f : NumFmt) : Val := e.val.getD (f.read e.code)

/-- An element in another type (R184 to R187). -/
def Elem.to (e : Elem) (dst src : ElemType) (fd fs : NumFmt) (rm : Round) (sat : Bool) : Nat × Fl :=
  match e.val with
  | none => convert dst src fd fs rm sat e.code
  | some v => fd.deliver rm sat v

/-! ### One element (R236 to R240) -/

/-- The rounding mode of an operation, which never reads RCTL after its start. -/
def fixedRound : Rm → Round
  | .rz => .rz
  | .rdn => .rdn
  | .rup => .rup
  | .rna => .rna
  | _ => .rne

/-- RM with RCTL read. -/
def Thread.fixRm (t : Thread) (rm : Rm) : Rm :=
  match t.round rm with
  | .rne => .rne
  | .rz => .rz
  | .rdn => .rdn
  | .rup => .rup
  | .rna => .rna

/-- An operation of MEW in its compute type. -/
def ewOp (op : EwOp) (ty : ElemType) (rm : Round) (uns : Bool) (a b : Nat) : Nat × Fl :=
  let l := fun (o : LaneOp) => o.one ty rm false uns a b 0
  let f := fun (n : SpFn) => (ffmt ty).special n rm a
  match op with
  | .add => l .add
  | .sub => l .sub
  | .mul => l .mul
  | .min => l .min
  | .max => l .max
  | .neg => l .neg
  | .abs => l .abs
  | .rcp => f .rcp
  | .rsq => f .rsq
  | .sqrt => f .sqrt
  | .exp2 => f .exp2
  | .log2 => f .log2
  | .sinp => f .sinp
  | .tanh => f .tanh

/-- What every element step needs. -/
structure TCtx where
  c : Nat
  k : Nat
  t : Thread
  scope : BitVec 2
  x : TensorOp
  acc : ElemBy

def TCtx.fmt (y : TCtx) : FReg → BitVec 32 := fun r => y.x.fmt[r.toNat]

def TCtx.nf (y : TCtx) (ty : ElemType) : NumFmt := (numFmt y.fmt ty).getD (.flt fp64)

def TCtx.read (y : TCtx) (m : Manif) (i : List Nat) (s : State) : TRes Elem := s.readElem y.c y.k y.t y.acc y.fmt (y.x.lut.getD []) m i

def TCtx.write (y : TCtx) (m : Manif) (i : List Nat) (code : Nat) (s : State) : TRes Unit := s.putElem y.c y.k y.t y.acc y.fmt m i code y.scope

/-- A source element in the compute type. -/
def TCtx.load (y : TCtx) (ty : ElemType) (m : Manif) (i : List Nat) (s : State) : TRes (Nat × Fl) :=
  (y.read m i s).bind fun e s => .ok (e.to ty m.elem (y.nf ty) (y.nf m.elem) (fixedRound y.x.rm) false) s

/-- A result of the compute type converted to the destination and written; the flags of both steps. -/
def TCtx.store (y : TCtx) (ty : ElemType) (sat : Bool) (m : Manif) (i : List Nat) (r : Nat × Fl) (s : State) : TRes Fl :=
  let (c, f) := convert m.elem ty (y.nf m.elem) (y.nf ty) (fixedRound y.x.rm) sat r.1
  (y.write m i c s).bind fun _ s => .ok (r.2 ||| f) s

/-- The source tuples of one element of MRED, in the iteration order of the source (R237). -/
def redTuples (ma : Manif) (dims : BitVec 4) (i : List Nat) : List (List Nat) :=
  let span := fun (d : Nat) => if dims.getLsbD d then List.range (ma.extent d) else [i.getD d 0]
  (span 3).flatMap fun i3 => (span 2).flatMap fun i2 => (span 1).flatMap fun i1 => (span 0).map fun i0 => [i0, i1, i2, i3]

/-- The further elements of a reduction. -/
def TCtx.reduce (y : TCtx) (op : MRedOp) (ty : ElemType) (ma : Manif) : List (List Nat) → Nat × Fl → State → TRes (Nat × Fl)
  | [], acc, s => .ok acc s
  | i :: l, acc, s =>
    (y.load ty ma i s).bind fun v s =>
      let o : LaneOp := match op with
        | .add => .add
        | .min => .min
        | .max => .max
      let r := o.one ty (fixedRound y.x.rm) false false acc.1 v.1 0
      y.reduce op ty ma l (r.1, acc.2 ||| v.2 ||| r.2) s

/-- The larger magnitude; NaN when one is. -/
def magMax (a b : Val) : Val :=
  match a, b with
  | .nan, _ | _, .nan => .nan
  | .inf _, _ | _, .inf _ => .inf false
  | .fin _ m e, .fin _ m' e' => ((Val.fin false m e).minmax true (.fin false m' e'))

/-- The largest magnitude of a block. -/
def TCtx.amax (y : TCtx) (ma : Manif) : List (List Nat) → Val → State → TRes Val
  | [], acc, s => .ok acc s
  | i :: l, acc, s => (y.read ma i s).bind fun e s => y.amax ma l (magMax acc (e.value (y.nf ma.elem))) s

/-- The scale code of a block (R238) for a destination format: 256 plus the NaN code when amax is not finite, 512 plus that of 1.0 when it
is zero. -/
def blockScale (skind : BitVec 2) (f : FFmt) (amax : Val) : Nat :=
  match amax with
  | .nan | .inf _ => 256 + (if skind = 1 then 0xFF else 0x7F)
  | .fin _ 0 _ => 512 + (if skind = 1 then 0x7F else 0x38)
  | .fin _ m e =>
    let maxf := f.value f.maxMag
    if skind = 1 then
      let mt := match maxf with
        | .fin _ m e => topBit m e
        | _ => 0
      (max 0 (min 254 (topBit m e - mt + 127))).toNat
    else ((List.range 127).find? fun c => ((fE4M3.value c).mul maxf).cmp amax matches some .gt | some .eq).getD 0x7E

/-- x / scale converted with saturation (R238). -/
def divScale (f : FFmt) (rm : Round) (v sc : Val) : Nat × Fl :=
  match v, sc with
  | .fin s m e, .fin _ ms es =>
    let q := m * 2 ^ 160 / ms
    deliverFin f rm true true s q (e - es - 160) (m * 2 ^ 160 % ms ≠ 0)
  | v, _ => f.deliver rm true true v

/-- One element of MCVT into a scaled destination: the block's scale is written with its first element. -/
def TCtx.cvtScaled (y : TCtx) (md ma : Manif) (i : List Nat) (s : State) : TRes (Fl × Nat) :=
  match y.nf md.elem with
  | .flt f =>
    let first := i.getD 0 0 % md.block = 0
    let tuples := (List.range md.block).map fun j => (i.getD 0 0 / md.block * md.block + j) :: i.drop 1
    let scale : TRes Nat :=
      if first then
        (y.amax ma tuples (.fin false 0 0) s).bind fun v s =>
          let sc := blockScale md.skind f v
          (s.spaceWrite y.c y.k y.t y.acc md.sspace 0 (md.scaleAt i) 0 8 1 (sc % 256) y.scope).bind fun _ s => .ok sc s
      else .ok y.x.scale s
    scale.bind fun sc s =>
      (y.read ma i s).bind fun e s =>
        let v := e.value (y.nf ma.elem)
        let (c, fl) := if 512 ≤ sc then (f.signBit v.sign, 0) else if 256 ≤ sc then (f.nan, 0)
          else divScale f (fixedRound y.x.rm) v (scaleVal md.skind sc)
        (y.write md i c s).bind fun _ s => .ok (fl, sc) s
  | _ => .ok (0, 0) s

/-- An index element, read as signed (R239). -/
def TCtx.index (y : TCtx) (mb : Manif) (i : List Nat) (s : State) : TRes Int :=
  (y.read mb i s).bind fun e s => .ok (sextN (y.nf mb.elem).width e.code) s

/-- The element at the processing index: its flags and the block scale. -/
def TCtx.step (y : TCtx) (s : State) : TRes (Fl × Nat) :=
  let md := Manif.ofBits y.x.md
  let ma := Manif.ofBits y.x.ma
  let mb := Manif.ofBits y.x.mb
  let mc := Manif.ofBits y.x.mc
  let rm := fixedRound y.x.rm
  let i := md.tuple y.x.n
  let done : TRes Fl → TRes (Fl × Nat) := fun r => r.bind fun f s => .ok (f, 0) s
  match y.x.instr with
  | .mew o =>
    done ((y.load o.ty ma i s).bind fun a s =>
      (if o.op.isBinary then y.load o.ty mb i s else .ok (0, 0) s).bind fun b s =>
        let r := ewOp o.op o.ty rm o.uns a.1 b.1
        y.store o.ty o.sat md i (r.1, a.2 ||| b.2 ||| r.2) s)
  | .mfma o =>
    done ((y.load o.ty ma i s).bind fun a s => (y.load o.ty mb i s).bind fun b s => (y.load o.ty mc i s).bind fun c s =>
      let r := LaneOp.fma.one o.ty rm false false a.1 b.1 c.1
      y.store o.ty o.sat md i (r.1, a.2 ||| b.2 ||| c.2 ||| r.2) s)
  | .mred o =>
    match redTuples ma o.dims i with
    | [] => .ok (0, 0) s
    | j :: l => done ((y.load o.ty ma j s).bind fun a s => (y.reduce o.op o.ty ma l a s).bind fun r s => y.store o.ty o.sat md i r s)
  | .mcvt o =>
    if md.skind ≠ 0 then y.cvtScaled md ma i s
    else
      done ((y.read ma i s).bind fun e s =>
        let (c, f) := e.to md.elem ma.elem (y.nf md.elem) (y.nf ma.elem) rm o.sat
        (y.write md i c s).bind fun _ s => .ok f s)
  | .mgath o =>
    done ((y.index mb i s).bind fun j s =>
      if j < 0 || (ma.extent 0 : Int) ≤ j then (y.write md i 0 s).bind fun _ s => .ok 0 s
      else (y.load o.ty ma (j.toNat :: i.drop 1) s).bind fun a s => y.store o.ty o.sat md i a s)
  | .mscat o =>
    let i := ma.tuple y.x.n
    done ((y.index mb i s).bind fun j s =>
      if j < 0 || (md.extent 0 : Int) ≤ j then .ok 0 s
      else
        let i' := j.toNat :: i.drop 1
        (y.load o.ty ma i s).bind fun a s =>
          if o.add then
            (y.load o.ty md i' s).bind fun d s =>
              let r := LaneOp.add.one o.ty rm false false d.1 a.1 0
              y.store o.ty o.sat md i' (r.1, a.2 ||| d.2 ||| r.2) s
          else y.store o.ty o.sat md i' a s)
  | .mcopy _ => done ((s.getElem y.c y.k y.t y.acc y.fmt ma i).bind fun c s => (y.write md i c s).bind fun _ s => .ok 0 s)
  | _ => .ok (0, 0) s

/-- The elements that a tensor instruction processes. -/
def TensorOp.total (x : TensorOp) : Nat :=
  match x.instr with
  | .mscat _ => (Manif.ofBits x.ma).count
  | _ => (Manif.ofBits x.md).count

/-! ### The instruction (R235, R241) -/

/-- How the processing of elements ended. -/
inductive TEnd where
  | done
  | busy
  | fault (f : TFault)
  | poison (b : Bad) (va : Word)
  | full

/-- Elements are processed in order until the instruction ends, waits or is interrupted at a boundary. -/
def tensorLoop (y : TCtx) : Nat → TensorOp → State → TEnd × TensorOp × State
  | 0, x, s => (.done, x, s)
  | n + 1, x, s =>
    match s.thread? y.c y.k with
    | none => (.done, x, s)
    | some t =>
      match TCtx.step { y with t := t, x := x } s with
      | .ok (f, sc) s => tensorLoop y n { x with n := x.n + 1, fl := x.fl ||| f, scale := sc } s
      | .busy s => (.busy, x, s)
      | .fault f s => (.fault f, x, s)
      | .poison b va s => (.poison b va, x, s)
      | .full s => (.full, x, s)

/-- A tensor instruction goes on from its processing index; it copies T when it starts, once its edges are satisfied (R177, R235). -/
def State.tryTensor (s : State) (c k : Nat) (t : Thread) (o : Op) (x : TensorOp) : State :=
  if t.st == .stopped then s
  else
    let ref : OpRef := ⟨c, k, o.id⟩
    let x := { x with lut := some (x.lut.getD (s.core c).lut) }
    let (e, x, s) := tensorLoop ⟨c, k, t, o.scope, x, ⟨false, o.no, o.stream.map fun n => (n, o.id)⟩⟩ (x.total - x.n) x s
    let flush : State → State := fun s => s.modThread c k fun t => t.orFlags x.fl
    let o' := { o with kind := .tensor { x with fl := 0 } }
    match e with
    | .done => (flush s).finishOp c k o.id
    | .busy => (s.modThread c k fun t => t.modOp o.id fun y => { y with kind := .tensor x }).defer ref
    | .full => ((s.modThread c k fun t => t.modOp o.id fun y => { y with kind := .tensor x }).overflowOf c k).defer ref
    | .poison b va => (if t.buffered then s else flush s).bindBad c k t o' b va 0 .trail
    | .fault f =>
      let s := (flush s).modThread c k fun t => if f.cause = 0x08 then { t with stale := t.stale.filter fun g => g.word ≠ f.aux } else t
      s.park c k o' ⟨f.cause, BitVec.ofNat 3 f.level, f.va⟩ 0 f.span f.acck .trail f.aux f.cont

/-- The scope that SPACE names (R235). SPACE 3, a channel of the own core, is taken as the core's (DESIGN CHOICE, assumption 47). -/
def spaceFloor (m : V512) : BitVec 2 := if (Manif.ofBits m).space = 2 then 1 else 0

/-- A tensor instruction: its checks (R231), then an operation that goes on while it can. `rel` is the subcode of the conditions that
relate manifests. -/
def issueTensor (g : Guard) (str : Str) (rm : Rm) (d : Reg3) (srcs : List (Reg3 × Bool)) (scaled : Bool) (rel : Thread → Option Nat) (s : State) :
    Out :=
  guarded g s fun t =>
    let c := s.cur.core
    let k := s.cur.slot
    let us := ⟨t.rm d, true, false, scaled⟩ :: srcs.map fun x => ⟨t.rm x.1, false, x.2, false⟩
    match (match firstBad s c t.rf us with
      | some n => some n
      | none => rel t) with
    | some n => manifTrap s n
    | none =>
      if t.full str.stream || (s.core c).shrink.any fun x => s.shrinkWaits c x.1 1 && us.any fun u => s.manifAbove t c x.1 u.bits then wait s
      else
        let ms := us.map (·.bits)
        let floor := ms.foldl (fun a m => wider a (spaceFloor m)) 0
        let x : TensorOp := ⟨s.cur.instr, ms.getD 0 0, ms.getD 1 0, ms.getD 2 0, ms.getD 3 0, t.fmt, none, t.fixRm rm, 0, 0, 0⟩
        let deps := (t.edges str.pmask s.cur.no ++ t.behindTensor s c s.cur.no ms).dedup
        let o := s.newOp t (some str.stream) str.pmask (s.effScope c str.scope floor) deps (.tensor x)
        let s := (s.modCur (·.countClamp (s.clamps c str.scope floor))).enterOp o
        match s.thread? c k with
        | some t => if deps.isEmpty then .next (s.tryTensor c k t o x) else .next s
        | none => .next s

/-- Extents of two manifests are equal. -/
def extEq (a b : V512) : Bool := (Manif.ofBits a).ext == (Manif.ofBits b).ext

/-- Extents are equal in the dimensions from 1 on. -/
def extTail (a b : V512) : Bool := (Manif.ofBits a).ext.drop 1 == (Manif.ofBits b).ext.drop 1

def failIf (b : Bool) (n : Nat) : Option Nat := if b then some n else none

def execMew (x : MewN) (s : State) : Out :=
  issueTensor x.g x.str x.rm x.d ((x.a, false) :: if x.op.isBinary then [(x.b, false)] else []) false
    (fun t => failIf (!extEq (t.rm x.a) (t.rm x.d) || (x.op.isBinary && !extEq (t.rm x.b) (t.rm x.d))) 4) s

def execMfma (x : MfmaN) (s : State) : Out :=
  issueTensor x.g x.str x.rm x.d [(x.a, false), (x.b, false), (x.c, false)] false
    (fun t => failIf (!extEq (t.rm x.a) (t.rm x.d) || !extEq (t.rm x.b) (t.rm x.d) || !extEq (t.rm x.c) (t.rm x.d)) 4) s

/-- The shapes of MRED (R237). -/
def redShape (md ma : V512) (dims : BitVec 4) : Bool :=
  let d := Manif.ofBits md
  let a := Manif.ofBits ma
  d.ndim = a.ndim && (List.range 4).all fun i =>
    if dims.getLsbD i then decide (i < a.ndim) && d.ext.getD i 0 = 1 else d.ext.getD i 0 = a.ext.getD i 0

def execMred (x : MredN) (s : State) : Out :=
  issueTensor x.g x.str x.rm x.d [(x.a, false)] false (fun t => failIf (!redShape (t.rm x.d) (t.rm x.a) x.dims) 4) s

def execMcvt (x : McvtN) (s : State) : Out :=
  issueTensor x.g x.str x.rm x.d [(x.a, false)] true (fun t => failIf (!extEq (t.rm x.a) (t.rm x.d)) 4) s

def execMgath (x : MgathN) (s : State) : Out :=
  issueTensor x.g x.str x.rm x.d [(x.a, false), (x.b, true)] false
    (fun t => failIf (!extEq (t.rm x.b) (t.rm x.d) || !extTail (t.rm x.a) (t.rm x.d)) 4) s

def execMscat (x : MscatN) (s : State) : Out :=
  issueTensor x.g x.str x.rm x.d [(x.a, false), (x.b, true)] false
    (fun t => failIf (!extEq (t.rm x.b) (t.rm x.a) || !extTail (t.rm x.a) (t.rm x.d)) 4) s

def execMcopy (x : McopyN) (s : State) : Out :=
  issueTensor x.g x.str .rne x.d [(x.a, false)] false
    (fun t => if (Manif.ofBits (t.rm x.a)).ty ≠ (Manif.ofBits (t.rm x.d)).ty then some 5 else failIf (!extEq (t.rm x.a) (t.rm x.d)) 4) s

/-! ### Manifest registers, descriptors and the table (R232 to R234) -/

/-- MLD, MST and LUTLD: one aligned access (R232). -/
def accN (g : Guard) (str : Str) (loc : Bool) (a : GReg) (n : Nat) (act : Thread → AccAct) (s : State) : Out :=
  guarded g s fun t =>
    let am : AddrMode := if loc then .own else .virt
    let acc : MemAcc := ⟨t.rg a, [], am, 0, n, sizeCode n, s.opc, false, false, act t⟩
    if (t.rg a).toNat % n ≠ 0 then trapAcc s 0x18 acc.act.tr.acck 0 12 (if loc then 0 else t.rg a) else issueAcc s t str acc

def execMld (x : MldN) (s : State) : Out := accN x.g x.str x.loc x.a 64 (fun _ => .loadM x.m) s
def execMst (x : MldN) (s : State) : Out := accN x.g x.str x.loc x.a 64 (fun t => .store (toBytes 64 (t.rm x.m).toNat)) s
def execLutld (x : LutN) (s : State) : Out := accN x.g x.str x.loc x.a 16 (fun _ => .loadLut) s

/-- Bits lo to lo + n - 1 of a record replaced. -/
def putField (v : V512) (lo n : Nat) (x : Nat) : V512 :=
  let m : V512 := (BitVec.allOnes n).setWidth 512 <<< lo
  (v &&& ~~~m) ||| ((BitVec.ofNat 512 x <<< lo) &&& m)

/-- MSET's field groups (R233). -/
def MField.put (f : MField) (v : V512) (a b : Word) : V512 :=
  match f with
  | .base => putField v 0 64 a.toNat
  | .sbase => putField v 64 64 a.toNat
  | .dim d => putField (putField v (128 + 64 * d.toNat) 24 a.toNat) (152 + 64 * d.toNat) 40 b.toNat
  | .ctl => putField (putField v 384 20 a.toNat) 404 108 0

def execMset (x : MsetN) (s : State) : Out :=
  guarded x.g s fun t => .next (s.setCur (t.wm x.d (MField.put x.f (t.rm x.d) (t.rg x.a) (t.rg x.b))))

def execFmtset (x : FmtsetA) (s : State) : Out := guarded x.g s fun t => .next (s.setCur (t.wf x.d ((t.rg x.a).setWidth 32)))

def execFmtget (x : FmtgetA) (s : State) : Out := setG x.g x.d s fun t => (t.rf x.a).setWidth 64

end Sys2Proof.Machine
end

