-- ==== Sys2Proof/Machine/Engine.lean ====
section
/-! DEFINITION. The matrix engine's state: residencies with their quotas, loads and marks (R243 to R253), the split (R254), and the
accumulator tiles and views (R257, R258). -/

namespace Sys2Proof.Machine

/-- One element of a list that the spec does not choose (assumption 4). -/
def State.choose (s : State) : List α → Option α × State
  | [] => (none, s)
  | a :: l => (some ((a :: l).getD (s.freeWord.1.toNat % (l.length + 1)) a), s.freeWord.2)

/-! ### The split (R254) -/

/-- The row h of a split side, 32 without a split. -/
def sideRows (cfg : Word) (side : Bool) : Nat :=
  let h := 8 * (cfg.extractLsb' 0 2).toNat
  if h = 0 then (if side then 0 else 32) else if side then 32 - h else h

/-- The tile slots of a side. -/
def sideSlots (cfg : Word) (side : Bool) : Nat := 64 * sideRows cfg side

/-- The physical tiles of a side. -/
def sideTiles (cfg : Word) (side : Bool) : List Nat :=
  let n := sideRows cfg side / 2
  if side then (List.range n).map (16 - n + ·) else List.range n

/-- The bands in which a side latches a tile. -/
def sideBands (cfg : Word) (side : Bool) : Nat := (32 + sideRows cfg side - 1) / max 1 (sideRows cfg side)

/-! ### Shapes (R243, R247) -/

/-- The format of weights. -/
def weightFmt (ty : ElemType) (fdesc : BitVec 32) : Option NumFmt := numFmt (fun _ => fdesc) ty

/-- The tile depth for a container width. -/
def tileDepth (cont : Nat) : Nat := if cont = 64 then 8 else if cont = 32 then 16 else if cont = 16 then 32 else if 7 ≤ cont then 64 else 128

/-- The bytes of a tile. -/
def tileBytes (cont : Nat) : Nat := 4 * tileDepth cont * cont

/-- The block of a scale kind. -/
def scaleBlock (skind : BitVec 2) : Nat := if skind = 1 then 32 else 16

/-- The scale bytes of a tile. -/
def scaleBytes (cont : Nat) (skind : BitVec 2) : Nat := if skind = 0 then 0 else 32 * tileDepth cont / scaleBlock skind

/-- The slots of n tiles. -/
def slotsOf (cont : Nat) (skind : BitVec 2) (n : Nat) : Nat := (n * tileBytes cont + 2047) / 2048 + (n * scaleBytes cont skind + 2047) / 2048

/-- The container width of weights, of an invalid descriptor too while its width is one of R174; none for another. -/
def weightCont (ty : ElemType) (fdesc : BitVec 32) : Option Nat :=
  match weightFmt ty fdesc, ty with
  | some f, _ => some f.container
  | none, .fmt _ => let w := (descFmt fdesc).width; if 3 ≤ w && w ≤ 8 then some (NumFmt.container (.flt (descFmt fdesc))) else none
  | none, _ => none

def Residency.cont (r : Residency) : Nat := (weightFmt r.ty r.fdesc).elim 8 (·.container)

def Residency.size (r : Residency) : Nat := r.tiles * (tileBytes r.cont + scaleBytes r.cont r.skind)

/-- The sectors of the source. -/
def Residency.sectors (r : Residency) : List Nat := (pieces r.srcpa r.size).map (·.1)

/-- The source sectors that a home answers for: no record stands for a sector outside the windows (R92), and the memory-side slice keeps none of a
source on an SH page (R76; DEDUCED, assumption 44). -/
def State.watched (s : State) (c : Nat) (r : Residency) : List Nat := if r.sh then [] else r.sectors.filter fun x => s.reaches c (64 * x)

/-- The values of a tile: column j, row k (R246, R247), prepared under R188. -/
def Residency.tile (r : Residency) (t : Nat) : List (List Val) :=
  match weightFmt r.ty r.fdesc with
  | none => []
  | some f =>
    let kt := tileDepth f.container
    let tb := tileBytes f.container
    let sb := scaleBytes f.container r.skind
    let w := ofBytes ((r.data.drop (t * tb)).take tb)
    let sc := (r.data.drop (r.tiles * tb + t * sb)).take sb
    let bk := scaleBlock r.skind
    (List.range 32).map fun j => (List.range kt).map fun k =>
      let v := f.read (f.operand r.lut (w / 2 ^ ((j * kt + k) * f.container) % 2 ^ f.container))
      if r.skind = 0 then v else v.mul (scaleVal r.skind (sc.getD (j * kt / bk + k / bk) 0).toNat)

/-- A special value. -/
def Val.special (v : Val) : Bool := v.isNan || v.isInf

/-- A tile holds a special value. -/
def specialTile (l : List (List Val)) : Bool := l.any fun c => c.any Val.special

/-! ### The table (R248, R249, R252, R253) -/

/-- The thread runs as a guest of another cluster's engine (R374). -/
def Thread.visits (t : Thread) (c : Nat) : Bool := clusterOf (t.home c 0).1 ≠ clusterOf c

/-- The engine of the thread's own core, which its handles name wherever it runs (R248, R374). -/
def Thread.engine (t : Thread) (c : Nat) : Nat := clusterOf (t.home c 0).1

/-- The tables of an engine in the order in which a thread's handles name them: a guest's own entries stand in the guest table (R375). -/
def Thread.tables (t : Thread) (c : Nat) : List Bool := [t.visits c, !t.visits c]

/-- The logical number of an engine in a region's map (R290). -/
def State.engNo (s : State) (region k : Nat) : Option Nat :=
  match s.region? region with
  | none => none
  | some r =>
    let l := r.cmap.filter s.engineEnabled
    if l.contains k then some (l.idxOf k) else none

/-- The engine that a logical number names. -/
def State.engOf (s : State) (region n : Nat) : Option Nat :=
  (s.region? region).bind fun r => ((r.cmap.filter s.engineEnabled)[n]?).map fun e => r.hostCluster e

/-- The tenant tag of a region (R381). -/
def State.tagOf (s : State) (region : Nat) : BitVec 16 := (s.region? region).elim 0 (·.tag)

def State.resid? (s : State) (k : Nat) (key : Bool × Nat) : Option Residency := alook key (s.cluster k).table

def State.setResid (s : State) (k : Nat) (key : Bool × Nat) (r : Residency) : State :=
  s.modCluster k fun x => { x with table := aset key r x.table }

/-- A handle. -/
def mkHandle (gen : BitVec 6) (eng idx : Nat) (side : Bool) : Nat := packFields [(26, 6, gen.toNat), (12, 14, eng), (1, 11, idx), (0, 1, bitN side)]

def Residency.handle (r : Residency) (idx : Nat) : Nat := mkHandle r.gen r.eng idx r.side

/-- The entry that a handle names, or the cause of the trap (R263). -/
def State.lookup (s : State) (c : Nat) (t : Thread) (h : Word) : Except (BitVec 8) ((Bool × Nat) × Residency) :=
  let k := clusterOf c
  let idx := (h.extractLsb' 1 11).toNat
  let live : Residency → Bool := fun r => r.gen = h.extractLsb' 26 6 && r.eng = (h.extractLsb' 12 14).toNat && r.st != .revoked && r.st != .empty
  match (t.tables c).findSome? fun g => ((s.resid? k (g, idx)).filter live).map fun r => ((g, idx), r) with
  | none => .error 0x27
  | some e =>
    if e.2.ttag ≠ s.tagOf t.region then .error 0x27
    else if h.getLsbD 0 ≠ s.sideOf c then .error 0x2A
    else .ok e

/-- The slots that a side's residencies of an owner hold. -/
def State.charge (s : State) (k : Nat) (side : Bool) (owner : Nat) : Nat :=
  (((s.cluster k).table.filter fun e => e.2.held && e.2.side = side && e.2.owner = owner).map (·.2.slots)).sum

/-- Those of them that are pinned. -/
def State.pinCharge (s : State) (k : Nat) (side : Bool) (owner : Nat) : Nat :=
  (((s.cluster k).table.filter fun e => e.2.held && e.2.pin && e.2.side = side && e.2.owner = owner).map (·.2.slots)).sum

/-- The regions with an entry of the quota table of a side: those that hold slots (R252). -/
def State.quotaRegions (s : State) (k : Nat) (side : Bool) : List Nat :=
  (((s.cluster k).table.filter fun e => e.2.held && e.2.side = side).map (·.2.owner)).dedup

def State.quotaOf (s : State) (region : Nat) : Nat := (s.region? region).elim 0 (·.rquota)

/-- Free slots of a side. -/
def State.freeSlots (s : State) (k : Nat) (side : Bool) : Nat :=
  sideSlots (s.cluster k).cfg side - (((s.cluster k).table.filter fun e => e.2.held && e.2.side = side).map (·.2.slots)).sum

/-- A pass uses the entry (R250). -/
def State.resInUse (s : State) (k : Nat) (key : Bool × Nat) : Bool :=
  s.threads.any fun e => clusterOf e.1.1 = k && e.2.ops.any fun o => match o.kind with
    | .mat m => m.wts.any fun w => w.1 = key
    | _ => false

/-- Eviction: the slots are free, nothing is written (R250, R253). -/
def State.evictRes (s : State) (k : Nat) (key : Bool × Nat) : State :=
  match s.resid? k key with
  | none => s
  | some r => (s.setResid k key { r with st := if r.st == .stale then .stale else .evicted, held := false, data := [] }).modSide k r.side (·.bump 4 1)

/-- The least recently used of the entries that qualify. -/
def leastRecent (l : List ((Bool × Nat) × Residency)) : Option (Bool × Nat) :=
  (l.foldl (fun (b : Option ((Bool × Nat) × Residency)) e => match b with
    | some x => if e.2.recency < x.2.recency then some e else b
    | none => some e) none).map (·.1)

/-- The next victim (R253): of a region over its quota, then of the requesting region. -/
def State.victim (s : State) (k : Nat) (side : Bool) (region : Nat) (short : Bool) : Option (Bool × Nat) :=
  let l := (s.cluster k).table.filter fun e => e.2.side = side && e.2.held && !e.2.pin && e.2.st != .loading && !s.resInUse k e.1
  match (if short then leastRecent (l.filter fun e => s.quotaOf e.2.owner < s.charge k side e.2.owner) else none) with
  | some e => some e
  | none => leastRecent (l.filter fun e => e.2.owner = region)

/-- An allocation of n slots for a region (R253): none when no victim remains. -/
def State.allocate (s : State) (k : Nat) (side : Bool) (region n : Nat) : Nat → Bool × State
  | 0 => (false, s)
  | fuel + 1 =>
    let short := decide (s.freeSlots k side < n)
    if !short && decide (s.charge k side region + n ≤ s.quotaOf region) then (true, s)
    else
      match s.victim k side region short with
      | none => (false, s)
      | some key => (s.evictRes k key).allocate k side region n fuel

/-- An allocation with all the victims that a table can hold. -/
def State.alloc (s : State) (k : Nat) (side : Bool) (region n : Nat) : Bool × State := s.allocate k side region n ((s.cluster k).table.length + 1)

/-! ### Records (R96, R250) -/

/-- A KIND 2 record of a source sector. -/
def Residency.record (r : Residency) (k idx sec : Nat) : Watcher := ⟨2, 1#4 <<< (sec % 4), BitVec.ofNat 32 (r.handle idx), 0, k⟩

/-- The records of a list of sectors; false when one finds no block. -/
def State.armAll (s : State) (p k idx : Nat) (r : Residency) : List Nat → Bool × State
  | [] => (true, s)
  | sec :: l =>
    match (s.armDown p (sec / 4) (1#4 <<< (sec % 4))).addWatcher p (sec / 4) (r.record k idx sec) with
    | none => (false, s)
    | some s => s.armAll p k idx r l

/-- The records of an entry are removed. -/
def State.disarm (s : State) (p k idx : Nat) (r : Residency) : State :=
  let mine : Watcher → Bool := fun w => w.kind = 2 && w.target = BitVec.ofNat 32 (r.handle idx) && w.eng = k
  (r.sectors.map (· / 4)).dedup.foldl (fun s line => s.modEntry p line fun e => { e with watchers := e.watchers.filter fun w => !mine w }) s

/-- The cluster whose engine the records of an entry name. -/
def State.recordEng (s : State) (k : Nat) (key : Bool × Nat) : Nat :=
  if key.1 then ((s.clusters.find? fun e => e.2.host = some k).map (·.1)).getD k else k

/-! ### Loads (R250, R264) -/

/-- An index of a table as an event carries it: guest entries from 2,048 on. -/
def resKey (idx : Nat) : Bool × Nat := (2048 ≤ idx, idx % 2048)
def resIdx (key : Bool × Nat) : Nat := if key.1 then key.2 + 2048 else key.2

/-- The row XRES, XLOAD or a pass takes to loading. -/
def State.startLoad (s : State) (k : Nat) (key : Bool × Nat) (r : Residency) (loader : OpRef) : State :=
  let n := (s.cluster k).uses
  (s.setResid k key { r with st := .loading, held := true, data := [], recency := n, loader := some loader }).modCluster k fun x => { x with uses := n + 1 }

/-- A load whose edges are satisfied reads its source, and LUT4 codes are looked up in the table of the core that issued it (R177, R264); its end
follows as an event. A sector outside the windows of the partition is denied. -/
def State.tryLoad (s : State) (c k : Nat) (t : Thread) (o : Op) (key : Bool × Nat) (d : GReg) : State :=
  let e := clusterOf c
  let ref : OpRef := ⟨c, k, o.id⟩
  match s.resid? e key with
  | none => s.finishOp c k o.id
  | some r =>
    if r.st != .loading || r.loader ≠ some ref then s.finishOp c k o.id
    else
      match (r.sectors.find? fun x => !s.reaches c (64 * x)) with
      | some x => (s.confined c (64 * x)).push [.residencyLoadFault ⟨e, resIdx key, 0x09, 0, none⟩]
      | none =>
      match State.readBound (s.whoOp c k t o) .path [⟨none, r.srcpa, r.size, r.sh⟩] s with
      | .busy s => s.defer ref
      | .poison b s => s.push [.residencyLoadFault ⟨e, resIdx key, 0x34, 0, some b⟩]
      | .ok bs s =>
        ((s.setResid e key { r with data := bs, lut := (s.core c).lut }).modThread c k fun t => t.modOp o.id fun o => { o with kind := .res d (.await key) }).push
          [.residencyLoadComplete ⟨e, resIdx key⟩]

/-- The operation that counted a load completes. -/
def State.endLoader (s : State) (r : Residency) : State :=
  match r.loader with
  | some x => s.finishOp x.core x.slot x.op
  | none => s

/-- RESIDENCY LOAD COMPLETE (R250). -/
def execResidencyLoadComplete (x : EvRes) (s : State) : Out :=
  match s.resid? x.cluster (resKey x.idx) with
  | none => .next s
  | some r =>
    if r.st != .loading then .next s
    else
      let r' := { r with st := if r.mark then .stale else if r.pin then .pinned else .resident, mark := false, loader := none
                         special := if r.mark then r.special else (List.range r.tiles).any fun t => specialTile (r.tile t) }
      .next ((s.setResid x.cluster (resKey x.idx) r').endLoader r)

/-- RESIDENCY LOAD FAULT (R250, R264): the entry is evicted, the owner's queue takes a record that names the handle. -/
def execResidencyLoadFault (x : EvResFault) (s : State) : Out :=
  match s.resid? x.cluster (resKey x.idx) with
  | none => .next s
  | some r =>
    if r.st != .loading then .next s
    else
      let s := s.setResid x.cluster (resKey x.idx) { r with st := .evicted, held := false, data := [], loader := none }
      let c := r.loader.elim (coreOfCluster x.cluster 0) (·.core)
      let op := r.loader.bind fun l => (s.thread? l.core l.slot).bind fun t => (t.op? l.op).map fun o => (t.tid, o.pc)
      let i : TrapInfo := ⟨x.cause, x.bad.elim 0 fun b => BitVec.ofNat 16 b.kind, .lead, 4, x.level, BitVec.ofNat 64 r.srcpa, op.elim 0 (·.2), 0,
        if x.cause = 0x09 then s.homeXy (64 * ((r.sectors.find? fun y => !s.reaches c (64 * y)).getD 0)) else BitVec.ofNat 64 (r.handle (resKey x.idx).2), 0⟩
      let s := (s.appendRec c r.owner (recFields s c (op.elim 0 (·.1)) i false) [] none none).2
      let s := x.bad.elim s fun b => s.report (some (s.partOf c)) ⟨2, b.kind, some b.sec, none, op.elim 0 (·.1), c, some r.owner⟩
      .next (s.endLoader r)

/-- A pass that uses a residency stops before it latches a tile (R412); one that has latched it stops before the next, which is evicted too. -/
def Op.cutAt (key : Bool × Nat) (tile : Nat) (o : Op) : Op :=
  match o.kind with
  | .mat m =>
    if m.wts.any (·.1 = key) then
      let j := tile - (m.gb.extractLsb' 32 12).toNat
      { o with kind := .mat { m with cut := some (max j (if m.row = 0 then m.tile else m.tile + 1)) } }
    else o
  | _ => o

/-- TILE ERROR (R412): treated as an eviction, and reloaded at the next use, or by the pass that needs the tile; the recovery is reported (R415). -/
def execTileError (x : EvTile) (s : State) : Out :=
  match s.resid? x.cluster (resKey x.idx) with
  | none => .next s
  | some r =>
    let c := coreOfCluster x.cluster 0
    let s := s.report (some (s.partOf c)) ⟨4, 5, none, none, 0, c, some r.owner⟩
    if r.held && r.st != .loading then
      let cut : Thread → Thread := fun t => { t with ops := t.ops.map (·.cutAt (resKey x.idx) x.tile) }
      let s : State := { s with threads := s.threads.map fun e => if clusterOf e.1.1 = x.cluster then (e.1, cut e.2) else e }
      .next (s.evictRes x.cluster (resKey x.idx))
    else .next s

/-- STALE MARK (R251): a mark reaches a residency. -/
def execStaleMark (x : EvRes) (s : State) : Out :=
  match s.resid? x.cluster (resKey x.idx) with
  | none => .next s
  | some r => .next ((s.setResid x.cluster (resKey x.idx) r.stale).modSide x.cluster r.side (·.bump 5 1))

/-- The revocation row of R250. PIN and MARK of the entry are cleared, of which the row says nothing (DESIGN CHOICE, assumption 47). -/
def State.revokeRes (s : State) (k : Nat) (key : Bool × Nat) : State :=
  match s.resid? k key with
  | none => s
  | some r =>
    let s := s.disarm ((s.region? r.owner).elim (s.partOf (coreOfCluster k 0)) (·.part)) (s.recordEng k key) key.2 r
    (s.setResid k key { r with st := .revoked, held := false, pin := false, mark := false, data := [], loader := none }).endLoader r

/-- An entry that is neither empty nor revoked. -/
def Residency.live (r : Residency) : Bool := r.st != .revoked && r.st != .empty

/-- Every residency of a region is revoked (R266, R292); one that a pass uses follows after that use (R250). -/
def State.revokeRegion (s : State) (region : Nat) : State :=
  s.clusters.foldl (fun s e => e.2.table.foldl (fun s x =>
    if x.2.owner = region && x.2.live && !s.resInUse e.1 x.1 then s.revokeRes e.1 x.1 else s) s) s

/-- A residency of a region that has ended is revoked after its last use (R250, R266). -/
def State.endedRes (s : State) : Option State :=
  s.clusters.findSome? fun e => (e.2.table.find? fun x =>
    x.2.live && ((s.region? x.2.owner).all fun r => r.rstate == .ended) && !s.resInUse e.1 x.1).map fun x => s.revokeRes e.1 x.1

/-! ### Tiles and views (R257, R258) -/

def shapeRows (x : BitVec 16) : Nat := (x.extractLsb' 0 6).toNat
def shapeCols (x : BitVec 16) : Nat := (x.extractLsb' 6 6).toNat
def shapeKind (x : BitVec 16) : Nat := (x.extractLsb' 12 2).toNat
def shapeDirty (x : BitVec 16) : Bool := x.getLsbD 14
def withDirty (x : BitVec 16) (b : Bool) : BitVec 16 := (x &&& 0xBFFF) ||| (if b then 0x4000 else 0)

/-- The physical tile of a view. -/
def View.tile? (v : View) : Option Nat :=
  match v.place with
  | .tile n _ => some n
  | _ => none

/-- The tiles of a side that views hold; a thread that a switch displaced keeps those that it cannot save (R258). -/
def State.usedTiles (s : State) (k : Nat) (side : Bool) : List Nat :=
  let on : Nat → Bool := fun c => clusterOf c = k && s.sideOf c = side
  let away := (s.parts.flatMap fun p => p.2.spilled).filter fun e => on e.1.1
  ((s.threads.filter fun e => on e.1.1).map (·.2) ++ away.map (·.2)).flatMap fun t => t.views.toList.filterMap View.tile?

def State.freeTiles (s : State) (k : Nat) (side : Bool) : List Nat :=
  let u := s.usedTiles k side
  (sideTiles (s.cluster k).cfg side).filter fun n => !u.contains n

/-- The bytes of an accumulator element. -/
def kindBytes (kind : Nat) : Nat := if kind = 2 then 8 else 4

/-- The word at offset 16,384 of the view save area. -/
def viewWord (t : Thread) : Nat :=
  packFields ((List.range 4).flatMap fun i =>
    let v := t.view (BitVec.ofNat 2 i)
    [(2 * i, 2, match v.place with | .tile _ _ => 0 | .saved => 1 | .zero => 2), (8 + i, 1, bitN v.ovf)])

/-- A view is saved (R258). -/
def State.saveView (s : State) (c k : Nat) (a : AReg) : State :=
  match s.thread? c k with
  | none => s
  | some t =>
    let x := t.shape a
    let n := kindBytes (shapeKind x)
    let p := s.partOf c
    let base := t.vsave.toNat + 4096 * a.toNat
    let v := t.view a
    let s := (List.range (shapeRows x)).foldl (fun s i =>
      s.homeWriteBytes p (base + 32 * n * i) (((v.elems.drop (shapeCols x * i)).take (shapeCols x)).flatMap fun w => toBytes n w.toNat) none) s
    let t := (t.setView a { v with place := .saved, elems := [] }).setShape a (withDirty x false)
    (s.modThread c k fun u => { u with views := t.views, ashape := t.ashape }).homeWriteBytes p (t.vsave.toNat + 16384) (toBytes 64 (viewWord t)) none

/-- A view gives up its tile: silently when it is clean, else saved. -/
def State.dropTile (s : State) (c k : Nat) (a : AReg) : State :=
  match s.thread? c k with
  | none => s
  | some t =>
    let v := t.view a
    match v.place with
    | .tile _ backed =>
      if shapeDirty (t.shape a) then s.saveView c k a
      else s.modThread c k fun t => t.setView a { v with place := if backed then .saved else .zero, elems := [] }
    | _ => s

/-- A pass of the thread is in progress. -/
def Thread.inPass (t : Thread) : Bool := t.ops.any fun o => match o.kind with
  | .mat _ => true
  | _ => false

/-- The thread is not issuing to the engine, so that its tiles may be taken. -/
def Thread.atRest (t : Thread) : Bool := (t.st == .sleeping && !t.inPass) || t.st == .stopped

/-- The views of a side whose tiles can be taken: a thread without a save area loses none (R258). -/
def State.tileVictims (s : State) (k : Nat) (side : Bool) : List (Nat × Nat × AReg) :=
  (s.threads.filter fun e => clusterOf e.1.1 = k && s.sideOf e.1.1 = side && e.2.atRest).flatMap fun e =>
    (List.range 4).filterMap fun i =>
      let a := BitVec.ofNat 2 i
      if (e.2.view a).tile?.isSome && e.2.vsave ≠ 0 then some (e.1.1, e.1.2, a) else none

/-- A tile of a side: a free one, or one that is taken; none when neither is there. -/
def State.getTile (s : State) (k : Nat) (side : Bool) : Option Nat × State :=
  match s.choose (s.freeTiles k side) with
  | (some n, s) => (some n, s)
  | (none, s) =>
    match s.choose (s.tileVictims k side) with
    | (none, s) => (none, s)
    | (some x, s) => (((s.thread? x.1 x.2.1).bind fun t => (t.view x.2.2).tile?), s.dropTile x.1 x.2.1 x.2.2)

/-- A view of a thread is brought into a tile (R258); false when no tile is to be had. The state word of the save area stands as the last save wrote
it: R258 has no other write of it (DESIGN CHOICE, assumption 47). -/
def State.bringView (s : State) (c k : Nat) (a : AReg) : Bool × State :=
  match s.thread? c k with
  | none => (false, s)
  | some t =>
    let v := t.view a
    let x := t.shape a
    let size := shapeRows x * shapeCols x
    match v.place with
    | .tile _ _ => (true, s)
    | .zero =>
      match s.getTile (clusterOf c) (s.sideOf c) with
      | (none, s) => (false, s)
      | (some n, s) => (true, s.modThread c k fun t => t.setView a { v with place := .tile n false, elems := List.replicate size 0 })
    | .saved =>
      match s.getTile (clusterOf c) (s.sideOf c) with
      | (none, s) => (false, s)
      | (some n, s) =>
        let p := s.partOf c
        let b := kindBytes (shapeKind x)
        let base := t.vsave.toNat + 4096 * a.toNat
        let (bs, s) := s.homeReadBytes p base 4096
        let (f, s) := s.homeReadBytes p (t.vsave.toNat + 16384) 2
        let elems := (List.range (shapeRows x)).flatMap fun i => (List.range (shapeCols x)).map fun j =>
          BitVec.ofNat 64 (ofBytes ((bs.drop (32 * b * i + b * j)).take b))
        (true, s.modThread c k fun t => t.setView a ⟨.tile n true, (ofBytes f).testBit (8 + a.toNat), elems⟩)

/-- Views are brought in, in order. -/
def State.bringViews (s : State) (c k : Nat) : List AReg → Bool × State
  | [] => (true, s)
  | a :: l =>
    match s.bringView c k a with
    | (false, s) => (false, s)
    | (true, s) => s.bringViews c k l

/-- Element (i, j) of a view; every element of a view that is not in a tile is taken as zero here. -/
def Thread.elem (t : Thread) (a : AReg) (i j : Nat) : Word := (t.view a).elems.getD (i * shapeCols (t.shape a) + j) 0

/-- Element (i, j) of a view is written. -/
def Thread.putElem (t : Thread) (a : AReg) (i j : Nat) (w : Word) : Thread :=
  let v := t.view a
  t.setView a { v with elems := v.elems.set (i * shapeCols (t.shape a) + j) w }

/-- The view is dirty. -/
def Thread.dirty (t : Thread) (a : AReg) : Thread := t.setShape a (withDirty (t.shape a) true)

/-- A view of a thread is discarded by an event that vacates its engine: zero, with a record of cause 0x35 (R258). -/
def State.loseView (s : State) (c k : Nat) (a : AReg) : State :=
  match s.thread? c k with
  | none => s
  | some t =>
    let s := s.modThread c k fun t => (t.setView a ⟨.zero, false, []⟩).setShape a (withDirty (t.shape a) false)
    let i : TrapInfo := ⟨0x35, BitVec.ofNat 16 a.toNat, .lead, 7, 0, 0, 0, 0, 0, 0⟩
    (s.appendRec c t.region (recFields s c t.tid i false) [] none none).2

/-- The views of a thread leave their tiles (R258, R370): saved where the thread has an area; with `vacate` discarded where it has
none, else kept. -/
def State.saveViews (s : State) (c k : Nat) (vacate : Bool) : State :=
  (List.range 4).foldl (fun s i =>
    let a := BitVec.ofNat 2 i
    match s.thread? c k with
    | none => s
    | some t =>
      if (t.view a).tile?.isNone then s
      else if !shapeDirty (t.shape a) then (if vacate || t.vsave ≠ 0 then s.dropTile c k a else s)
      else if t.vsave ≠ 0 then s.saveView c k a
      else if vacate then s.loseView c k a
      else s) s

/-- The vacate row of R250 for an entry. -/
def State.vacateRes (s : State) (k : Nat) (key : Bool × Nat) : State :=
  match s.resid? k key with
  | some r => if r.held then s.evictRes k key else s
  | none => s

end Sys2Proof.Machine
end

