-- ==== Sys2Proof/Machine/Matrix.lean ====
section
/-! DEFINITION. The matrix instructions: residencies (R263 to R267), counters (R275, R276), views (R277 to R280), and passes with their
arithmetic, drain, progress and checks (R188 to R193, R268 to R274). -/

namespace Sys2Proof.Machine

/-- An instruction of the chapter: under its guard, with an engine (R262). -/
def withEngine (g : Guard) (s : State) (f : Thread → Out) : Out :=
  guarded g s fun t => if s.engineEnabled (clusterOf s.cur.core) then f t else trapAt s 0x2B 0 0

/-- A status in bits 63:56 with the bits below. -/
def statusWord (st low : Nat) : Word := BitVec.ofNat 64 (st * 2 ^ 56 + low)

/-! ### XRES (R264) -/

/-- What the decision of XRES answers. -/
inductive XresEnd where
  | fault (f : TrFault) (s : State)
  | badFmt (s : State)
  | status (st : Nat) (s : State)
  | taken (key : Bool × Nat) (r : Residency) (s : State)

/-- The bytes from an address to the end of its page, where the cluster's TLB has it. -/
def State.pageRoom (s : State) (c region : Nat) (ea : Word) : Nat :=
  ((s.region? region).bind fun r => tlbHit ((alook (clusterOf c) s.tlbs).getD []) r.asid ea.toNat).elim 0 fun e => e.vbase + e.size - ea.toNat

/-- The page test and then the descriptor (R264): the container, or with `true` bad-operand and with `false` the bad-format trap. -/
def State.xresFit (s : State) (c region : Nat) (ty : ElemType) (skind : BitVec 2) (ea : Word) (n : Nat) (fdesc : BitVec 32) : Except Bool Nat :=
  match weightCont ty fdesc with
  | none => .error false
  | some cont =>
    if s.pageRoom c region ea < n * (tileBytes cont + scaleBytes cont skind) then .error true
    else if (weightFmt ty fdesc).isNone then .error false
    else .ok cont

/-- The decision after the operand checks: translation, the page, the descriptor, the quota, an entry, its slots and its records. The
operation that counts the load is `ref`. -/
def State.xres (s : State) (c : Nat) (t : Thread) (ty : ElemType) (skind : BitVec 2) (pin : Bool) (ea : Word) (n : Nat) (fdesc : BitVec 32)
    (ref : OpRef) : XresEnd :=
  let k := clusterOf c
  let side := s.sideOf c
  match s.translateR c t.region ea .pathR with
  | (.fault f, s) => .fault f s
  | (.ok pa sh _, s) =>
    match s.xresFit c t.region ty skind ea n fdesc with
    | .error false => .badFmt s
    | .error true => .status 7 s
    | .ok cont =>
      let slots := slotsOf cont skind n
      if !(s.quotaRegions k side).contains t.region && 16 ≤ (s.quotaRegions k side).length then .status 12 s
      else if pin && decide (s.quotaOf t.region < s.pinCharge k side t.region + slots) then .status 11 s
      else
        let g := t.visits c
        let free := (List.range 2048).filter fun i => (s.resid? k (g, i)).all fun r => r.st == .revoked || r.st == .empty
        match s.choose free with
        | (none, s) => .status 3 s
        | (some i, s) =>
          match s.alloc k side t.region slots with
          | (false, s) => .status 3 s
          | (true, s) =>
            let r : Residency := { st := .loading, side := side, ty := ty, skind := skind, special := false, held := true, pin := pin, mark := false
                                   tiles := n, gen := ((s.resid? k (g, i)).elim 0 (·.gen)) + 1, eng := (s.engNo t.region (t.engine c)).getD 0
                                   slots := slots, srcpa := pa, owner := t.region, ttag := s.tagOf t.region, fdesc := fdesc, reloads := 0
                                   data := [], lut := (s.core c).lut, recency := 0, loader := none, sh := sh }
            let e := s.recordEng k (g, i)
            match s.armAll (s.partOf c) e i r (s.watched c r) with
            | (false, s) => .status 3 (s.disarm (s.partOf c) e i r)
            | (true, s) => .taken (g, i) r (s.startLoad k (g, i) r ref)

/-- An XRES that is an operation is decided (R264, R81). -/
def State.tryXres (s : State) (c k : Nat) (t : Thread) (o : Op) (d : GReg) (ty : ElemType) (skind : BitVec 2) (pin : Bool) (ea n : Word)
    (fdesc : BitVec 32) : State :=
  match s.xres c t ty skind pin ea n.toNat fdesc ⟨c, k, o.id⟩ with
  | .fault f s => s.park c k o ⟨f.cause, BitVec.ofNat 3 f.level, ea⟩ 0 f.span 4 .lead
  | .badFmt s => s.park c k o ⟨0x1E, 0, 0⟩ 0 12 7 .lead
  | .status st s => (s.modThread c k fun t => t.wg d (statusWord st 0)).finishOp c k o.id
  | .taken key r s =>
    let s := s.modThread c k fun t => (t.wg d (statusWord 0 (r.handle key.2))).modOp o.id fun o => { o with kind := .res d (.load key) }
    if o.deps.isEmpty then s.push [.streamOperationComplete ⟨c, k, o.id⟩] else s

def execXres (x : XresX) (s : State) : Out :=
  withEngine x.g s fun t =>
    let c := s.cur.core
    let k := s.cur.slot
    let ea := t.rg x.a
    let n := t.rg x.b
    let fdesc := match x.ty with
      | .fmt r => t.rf r
      | _ => 0
    if t.full x.str.stream then wait s
    else
      let count : State → State := fun s => s.modCur (·.countClamp (s.clamps c x.str.scope 0))
      let fin := fun (st : Nat) => Host.Outcome.next ((count s).modCur fun t => t.wg x.d (statusWord st 0))
      if t.buffered then fin 8
      else if n = 0 || 2048 < n.toNat || ea.toNat % 64 ≠ 0 || x.skind = 3 || (x.skind ≠ 0 && !ElemType.scales x.ty) then fin 7
      else
        let o := s.newOp t (some x.str.stream) x.str.pmask (s.effScope c x.str.scope 0) (t.edges x.str.pmask s.cur.no)
          (.res x.d (.xres x.ty x.skind x.pin ea n fdesc))
        match s.translateR c t.region ea .pathR with
        | (.fault f, s) =>
          if f.walk then .next ((count s).park c k o ⟨f.cause, BitVec.ofNat 3 f.level, ea⟩ 0 f.span 4 .lead) else trapAcc s f.cause 4 f.level f.span ea
        | (.ok .., s) =>
          match s.xresFit c t.region x.ty x.skind ea n.toNat fdesc with
          | .error false => badFormat s
          | _ =>
            let s := (count s).enterOp o
            match s.curT? with
            | some t => .next (s.tryXres c k t o x.d x.ty x.skind x.pin ea n fdesc)
            | none => .next s

/-! ### XLOAD, XPIN, XUNPIN, XREVK (R265, R266) -/

/-- A load of an entry begins, counted in the instruction's stream; its status stands in gD. -/
def State.beginLoad (s : State) (c k : Nat) (t : Thread) (str : Str) (d : GReg) (key : Bool × Nat) (r : Residency) : State :=
  let o := s.newOp t (some str.stream) str.pmask (s.effScope c str.scope 0) (t.edges str.pmask s.cur.no) (.res d (.load key))
  let s := (s.enterOp o).startLoad (clusterOf c) key r ⟨c, k, o.id⟩
  if o.deps.isEmpty then s.push [.streamOperationComplete ⟨c, k, o.id⟩] else s

/-- A residency instruction with a handle: the checks of R263 in their order, then its action. -/
def withHandle (x : XhX) (s : State) (f : Thread → (Bool × Nat) → Residency → State → (Nat → State → Out) → Out) : Out :=
  withEngine x.g s fun t =>
    match s.lookup s.cur.core t (t.rg x.a) with
    | .error cause => trapAt s cause 0 0
    | .ok (key, r) =>
      if t.full x.str.stream then wait s
      else
        let s := s.setCur (t.countClamp (s.clamps s.cur.core x.str.scope 0))
        let fin := fun (st : Nat) (s : State) => Host.Outcome.next (s.modCur fun t => t.wg x.d (statusWord st 0))
        if !(s.ancestors r.owner).contains t.region then fin 10 s
        else if t.buffered then fin 8 s
        else f t key r s fin

/-- XLOAD (R265). The requesting region of R253 is the residency's owner, whose charge the slots are, and not the thread's (DESIGN CHOICE,
assumption 47). -/
def execXload (x : XhX) (s : State) : Out :=
  withHandle x s fun t key r s fin =>
    let c := s.cur.core
    let e := clusterOf c
    if r.st == .loading then fin 9 s
    else
      match (if r.held then (true, s) else s.alloc e r.side r.owner r.slots) with
      | (false, s) => fin 3 s
      | (true, s) =>
        match fin 0 s with
        | .next s => .next (s.beginLoad c s.cur.slot t x.str x.d key r)
        | o => o

def execXpin (x : XhX) (s : State) : Out :=
  withHandle x s fun t key r s fin =>
    let c := s.cur.core
    let e := clusterOf c
    if r.pin then fin 1 s
    else if s.quotaOf r.owner < s.pinCharge e r.side r.owner + r.slots then fin 11 s
    else
      match r.st with
      | .evicted =>
        match s.alloc e r.side r.owner r.slots with
        | (false, s) => fin 3 s
        | (true, s) =>
          match fin 0 s with
          | .next s => .next (s.beginLoad c s.cur.slot t x.str x.d key { r with pin := true })
          | o => o
      | .resident => fin 0 (s.setResid e key { r with pin := true, st := .pinned })
      | _ => fin 0 (s.setResid e key { r with pin := true })

def execXunpin (x : XhX) (s : State) : Out :=
  withHandle x s fun _ key r s fin =>
    if r.pin then fin 0 (s.setResid (clusterOf s.cur.core) key { r with pin := false, st := if r.st == .pinned then .resident else r.st })
    else fin 1 s

/-- A revocation waits for the passes that use the entry (R266); one that finds its residency revoked meanwhile is over. -/
def State.tryRevoke (s : State) (c k : Nat) (o : Op) (d : GReg) (key : Bool × Nat) (gen : BitVec 6) : State :=
  if !((s.resid? (clusterOf c) key).any fun r => r.gen = gen && r.live) then (s.modThread c k fun t => t.wg d (statusWord 0 0)).finishOp c k o.id
  else if s.resInUse (clusterOf c) key then s.defer ⟨c, k, o.id⟩
  else ((s.revokeRes (clusterOf c) key).modThread c k fun t => t.wg d (statusWord 0 0)).finishOp c k o.id

def execXrevk (x : XhX) (s : State) : Out :=
  withHandle x s fun t key r s fin =>
    let c := s.cur.core
    if s.resInUse (clusterOf c) key then
      let o := s.newOp t (some x.str.stream) x.str.pmask (s.effScope c x.str.scope 0) [] (.res x.d (.revoke key r.gen))
      .next ((s.enterOp o).defer ⟨c, s.cur.slot, o.id⟩)
    else fin 0 (s.revokeRes (clusterOf c) key)

/-- A held residency operation goes on. -/
def State.tryRes (s : State) (c k : Nat) (t : Thread) (o : Op) (d : GReg) (act : ResAct) : State :=
  match act with
  | .xres ty skind pin ea n fdesc => s.tryXres c k t o d ty skind pin ea n fdesc
  | .load key => s.tryLoad c k t o key d
  | .await _ => s
  | .revoke key gen => s.tryRevoke c k o d key gen

/-! ### XQRY, XZERO, XSTAT (R267, R275, R276) -/

/-- An entry as XQRY returns it (R249). -/
def Residency.entry (r : Residency) : V512 :=
  BitVec.ofNat 512 (packFields [(0, 3, r.st.code), (3, 1, bitN r.side), (4, 6, r.ty.code.toNat), (10, 2, r.skind.toNat), (12, 1, bitN r.special),
    (13, 1, bitN r.held), (14, 1, bitN r.pin), (15, 1, bitN r.mark), (16, 12, r.tiles), (32, 6, r.gen.toNat), (48, 12, r.slots), (64, 52, r.srcpa),
    (128, 43, r.owner / 512), (171, 16, r.ttag.toNat), (192, 32, r.fdesc.toNat), (224, 32, r.reloads)])

def execXqry (x : XqryX) (s : State) : Out :=
  withEngine x.g s fun t =>
    let k := clusterOf s.cur.core
    let h := t.rg x.a
    let idx := (h.extractLsb' 1 11).toNat
    let eng := (h.extractLsb' 12 14).toNat
    let own := ((t.tables s.cur.core).filterMap fun g => s.resid? k (g, idx)).find? fun r => r.eng = eng
    match own with
    | some r =>
      if r.ttag ≠ s.tagOf t.region then trapAt s 0x27 0 0
      else if h.getLsbD 0 ≠ s.sideOf s.cur.core then trapAt s 0x2A 0 0
      else .next (s.setCur (t.wv x.d r.entry))
    | none =>
      if ((s.resid? k (t.visits s.cur.core, idx)).any fun r => r.st != .empty) || s.engOf t.region eng ≠ some k || s.tagOf t.region ≠ 0 then trapAt s 0x27 0 0
      else if h.getLsbD 0 ≠ s.sideOf s.cur.core then trapAt s 0x2A 0 0
      else .next (s.setCur (t.wv x.d 0))

def State.side (s : State) (k : Nat) (side : Bool) : Side := if side then (s.cluster k).side1 else (s.cluster k).side0

def execXzero (x : GSrc) (s : State) : Out :=
  withEngine x.g s fun t =>
    let m := t.rg x.a
    .next (s.modSide (clusterOf s.cur.core) (s.sideOf s.cur.core) fun y =>
      { y with counters := Vector.ofFn fun i => if m.getLsbD i.val then 0 else y.counters[i] })

def execXstat (x : XstatX) (s : State) : Out :=
  withEngine x.g s fun t =>
    let k := clusterOf s.cur.core
    let side := s.sideOf s.cur.core
    let y := s.side k side
    let v : Word := match x.n.toNat with
      | 8 => (s.cluster k).cfg
      | 9 => y.progress.setWidth 64
      | 10 => BitVec.ofNat 64 (s.freeSlots k side)
      | 11 => BitVec.ofNat 64 (s.freeTiles k side).length
      | 12 =>
        if (s.quotaRegions k side).contains t.region then
          BitVec.ofNat 64 (packFields [(0, 12, s.quotaOf t.region), (16, 12, s.charge k side t.region), (32, 12, s.pinCharge k side t.region)])
        else 0
      | n => (y.counters.toList.getD n 0).setWidth 64
    .next (s.setCur (t.wg x.d v))

/-! ### Views (R277 to R280) -/

def execAcfg (x : AcfgX) (s : State) : Out :=
  withEngine x.g s fun t =>
    let sh : BitVec 16 := (t.rg x.a).setWidth 16 &&& 0x3FFF
    let rows := shapeRows sh
    let cols := shapeCols sh
    let kind := shapeKind sh
    if rows = 0 || 32 < rows || cols = 0 || 32 < cols || kind = 3 || (kind = 2 && 16 < rows) then .next (s.setCur (t.wg x.d (statusWord 7 0)))
    else .next (s.setCur (((t.setView x.c ⟨.zero, false, []⟩).setShape x.c sh).wg x.d (statusWord 0 0)))

/-- AGET (R278). The overflow indicator of R191 is read here: R181 names XSTAT for it, whose table R276 has no row of it (DEDUCED, assumption 44). -/
def execAget (x : AgetX) (s : State) : Out :=
  withEngine x.g s fun t =>
    let sh := t.shape x.a
    let v := t.view x.a
    if shapeRows sh = 0 then .next (s.setCur (t.wg x.d 0))
    else .next (s.setCur (t.wg x.d (BitVec.ofNat 64 (packFields [(0, 16, sh.toNat), (18, 1, bitN v.ovf), (20, 4, v.tile?.getD 0),
      (16, 2, match v.place with | .tile _ _ => 0 | .saved => 1 | .zero => 2)]))))

/-- A view as AFREE leaves it (R279). -/
def Thread.freeView (t : Thread) (a : AReg) : Thread := (t.setView a ⟨.zero, false, []⟩).setShape a 0

def execAfree (x : AviewX) (s : State) : Out := withEngine x.g s fun t => .next (s.setCur (t.freeView x.d))

def execAzero (x : AviewX) (s : State) : Out :=
  withEngine x.g s fun t =>
    if shapeRows (t.shape x.d) = 0 then trapAt s 0x29 0 0
    else .next (s.setCur ((t.setView x.d ⟨.zero, false, []⟩).setShape x.d (withDirty (t.shape x.d) false)))

/-- The element lanes of a register list (R280): element i of the list that starts at a register. -/
def Thread.listElem (t : Thread) (f : VReg) (b i : Nat) : Word :=
  let e := 64 / b
  BitVec.ofNat 64 (lane (8 * b) (t.rv (f + BitVec.ofNat 5 (i / e))) (i % e))

/-- A register list is written, with zero beyond its elements. -/
def Thread.putList (t : Thread) (f : VReg) (b : Nat) (l : List Word) : Thread :=
  let e := 64 / b
  (List.range ((l.length + e - 1) / e)).foldl (fun t r =>
    t.wv (f + BitVec.ofNat 5 r) (ofLanes (8 * b) ((List.range e).map fun i => (l.getD (r * e + i) 0).toNat))) t

/-- A move between a view and a list: its checks, then the move; `row` tells rows from columns (R280). -/
def tileMove (g : Guard) (a : AReg) (idx : GReg) (row : Bool) (s : State) (f : Thread → Nat → Nat → Nat → Thread) : Out :=
  withEngine g s fun t =>
    let sh := t.shape a
    let i := (t.rg idx).toNat
    if shapeRows sh = 0 then trapAt s 0x29 0 0
    else if (if row then shapeRows sh else shapeCols sh) ≤ i then trapAt s 0x2D 0 0
    else
      match s.bringView s.cur.core s.cur.slot a with
      | (false, s) => trapAt s 0x2C 0 0
      | (true, s) => .next (s.modCur fun t => f t i (if row then shapeCols sh else shapeRows sh) (kindBytes (shapeKind sh)))

def tileIn (x : AinX) (row : Bool) (s : State) : Out :=
  tileMove x.g x.d x.b row s fun t i n b =>
    ((List.range n).foldl (fun t' j => if row then t'.putElem x.d i j (t.listElem x.a b j) else t'.putElem x.d j i (t.listElem x.a b j)) t).dirty x.d

def tileOut (x : AoutX) (row : Bool) (s : State) : Out :=
  tileMove x.g x.a x.b row s fun t i n b =>
    t.putList x.d b ((List.range n).map fun j => if row then t.elem x.a i j else t.elem x.a j i)

def execArowi (x : AinX) (s : State) : Out := tileIn x true s
def execAcoli (x : AinX) (s : State) : Out := tileIn x false s
def execArowo (x : AoutX) (s : State) : Out := tileOut x true s
def execAcolo (x : AoutX) (s : State) : Out := tileOut x false s

/-! ### The arithmetic of a pass (R188 to R193) -/

/-- The modes of R188. -/
inductive MMode where
  | f64 | f32 | int | window
  deriving DecidableEq, Repr

/-- An integer type of a pass. -/
def passInt : ElemType → Bool
  | .i16 | .i8 | .i4 | .lut4 => true
  | _ => false

/-- A floating type of 16 bits or fewer. -/
def passNarrow : ElemType → Bool
  | .f16 | .bf16 | .e4m3 | .e5m2 | .e3m2 | .e2m3 | .e2m1 | .fmt _ => true
  | _ => false

/-- The mode of two types. -/
def passMode (a b : ElemType) : Option MMode :=
  if a = .f64 && b = .f64 then some .f64
  else if a = .f32 && b = .f32 then some .f32
  else if passInt a && passInt b then some .int
  else if passNarrow a && passNarrow b then some .window
  else none

/-- The KIND that a mode requires (R269). -/
def MMode.kind : MMode → Nat
  | .f64 => 2
  | .int => 1
  | _ => 0

/-- The group size G of windowed mode. -/
def groupSize (ca cb : Nat) : Nat := if 16 ≤ max ca cb then 8 else if 7 ≤ max ca cb then 16 else 32

/-- A magnitude at a weight, truncated. -/
def floorAt (m : Nat) (e q : Int) : Nat := if q ≤ e then m * 2 ^ (e - q).toNat else m / 2 ^ (q - e).toNat

/-- A group of exact finite products summed in the window (R189): its rounded sum. -/
def windowSum (g : Nat) (ps : List Val) : Nat :=
  let nz := ps.filterMap fun p => match p with
    | .fin s m e => if m = 0 then none else some (s, m, e)
    | _ => none
  match nz with
  | [] => 0
  | x :: xs =>
    let emax := xs.foldl (fun a y => max a (topBit y.2.1 y.2.2)) (topBit x.2.1 x.2.2)
    let l : Int := emax + (Nat.log2 g : Nat) - 54
    let w : Int := (nz.map fun y => if y.1 then -(floorAt y.2.1 y.2.2 l : Int) else (floorAt y.2.1 y.2.2 l : Int)).foldl (· + ·) 0
    if w = 0 then 0 else (fp32.deliver .rne false false (.fin (w < 0) w.natAbs l)).1

/-- The groups of a list of products. -/
def groupsOf (g : Nat) : List Val → Nat → List (List Val)
  | _, 0 => []
  | l, fuel + 1 => if l.isEmpty then [] else l.take g :: groupsOf g (l.drop g) fuel

/-- The fallback of R193: the value of an element that a special reaches; none when the array's value stands. -/
def fallback (f : FFmt) (acc : Nat) (ab : List (Val × Val)) : Option Nat :=
  let a := f.value acc
  let ps := ab.map fun x => x.1.mul x.2
  let infs := (ps.filter Val.isInf) ++ (if a.isInf then [a] else [])
  if a.isNan || ab.any fun x => x.1.isNan || x.2.isNan then some f.nan
  else if ab.any fun x => (x.1.isInf && x.2.isZero) || (x.1.isZero && x.2.isInf) then some f.nan
  else if infs.any (·.sign) && infs.any fun v => !v.sign then some f.nan
  else match infs with
    | v :: _ => some (f.inf v.sign)
    | [] => none

/-- An integer value of a format. -/
def Val.toInt : Val → Int
  | .fin s m e => let n : Int := floorAt m e 0; if s then -n else n
  | _ => 0

/-- One element over one tile: the accumulator after the products of a row and a column, with the overflow of R191. An exact zero sum is +0
(R192). The fallback is taken only where a mark of R193 reaches. -/
def passElem (mode : MMode) (marked : Bool) (g : Nat) (acc : Nat) (ab : List (Val × Val)) : Nat × Bool :=
  let fma := fun (f : FFmt) =>
    (match (if marked then fallback f acc ab else none) with
      | some c => c
      | none => ab.foldl (fun c x => match (x.1.mul x.2).add .rne (f.value c) with
        | .fin _ 0 _ => 0
        | v => (f.arith .rne false v).1) acc, false)
  match mode with
  | .f64 => fma fp64
  | .f32 => fma fp32
  | .int =>
    ab.foldl (fun (c : Nat × Bool) x =>
      let n := sextN 32 c.1 + x.1.toInt * x.2.toInt
      (wrapN 32 n, c.2 || decide (n < -(2 ^ 31)) || decide (2 ^ 31 ≤ n))) (acc, false)
  | .window =>
    (match (if marked then fallback fp32 acc ab else none) with
      | some c => c
      | none =>
        let ps := ab.map fun x => x.1.mul x.2
        (groupsOf g ps ps.length).foldl (fun c grp => (fp32.fadd .rne c (windowSum g grp)).1) acc, false)

/-! ### XMM and XACC (R268 to R274) -/

/-- A pass after its static checks (R269): the residency, the tiles, the rows of its views and its mode. -/
structure Pass where
  key : Bool × Nat
  res : Residency
  t0 : Nat
  nt : Nat
  m : Nat
  cols : Nat
  views : List AReg
  rows : List (AReg × Nat)
  mode : MMode
  deriving DecidableEq, Repr

/-- The views from one on whose rows reach M (R269); none when one before is unconfigured. -/
def Thread.span (t : Thread) (m : Nat) : Nat → Nat → Nat → Option (List AReg)
  | 0, _, _ => some []
  | fuel + 1, v, sum =>
    if m ≤ sum && sum ≠ 0 then some []
    else
      let a := BitVec.ofNat 2 v
      if shapeRows (t.shape a) = 0 then none
      else (t.span m fuel (v + 1) (sum + shapeRows (t.shape a))).map (a :: ·)

/-- The rows of A (R269). -/
def MatOp.rows (x : MatOp) : Nat := (Manif.ofBits x.a).ext.getD 1 0

/-- The views of the pass. -/
def Thread.passViews (t : Thread) (x : MatOp) : Option (List AReg) := t.span x.rows (4 - x.view.toNat) x.view.toNat 0

/-- The pass of an operation with its residency, views and mode. -/
def MatOp.pass (x : MatOp) (t : Thread) (key : Bool × Nat) (r : Residency) (views : List AReg) (mode : MMode) : Pass :=
  let t0 := (x.gb.extractLsb' 32 12).toNat
  let nt := if x.gb.extractLsb' 44 12 = 0 then r.tiles - t0 else (x.gb.extractLsb' 44 12).toNat
  let rows := views.flatMap fun a => (List.range (shapeRows (t.shape a))).map fun i => (a, i)
  ⟨key, r, t0, nt, x.rows, shapeCols (t.shape x.view), views, rows, mode⟩

/-- A pass that is in progress, with the residency that it latched; its checks are not made again (R250). -/
def MatOp.going (x : MatOp) (t : Thread) (key : Bool × Nat) (r : Residency) : Pass :=
  x.pass t key r ((t.passViews x).getD []) ((passMode (Manif.ofBits x.a).elem r.ty).getD .window)

/-- The operands agree (R269). -/
def Pass.fits (y : Pass) (x : MatOp) (t : Thread) : Bool :=
  let ma := Manif.ofBits x.a
  ma.ndim = 2 && ma.ext.getD 0 0 = y.nt * tileDepth y.res.cont && y.m ≠ 0 && y.m ≤ 128 && y.rows.length = y.m
    && (y.views.all fun a => shapeCols (t.shape a) = y.cols) && decide (y.t0 < y.res.tiles) && decide (y.t0 + y.nt ≤ y.res.tiles)
    && x.drain.all fun d =>
      let mc := Manif.ofBits d.1
      mc.ndim = 2 && mc.ext.getD 0 0 = y.cols && mc.ext.getD 1 0 = y.m

/-- Checks 2 to 4 of R270: the cause and subcode of the first that fails; subcode 8 of the manifest trap stands for the bad-format trap. -/
def State.passCheck (s : State) (c : Nat) (t : Thread) (x : MatOp) : Except (BitVec 8 × Nat) Pass :=
  let fmt : FReg → BitVec 32 := fun r => x.fmt[r.toNat]
  match t.passViews x with
  | none => .error (0x29, 0)
  | some views =>
    match s.lookup c t x.gb with
    | .error cause => .error (cause, 0)
    | .ok (key, r) =>
      match firstBad s c fmt (⟨x.a, false, false, false⟩ :: (x.drain.toList.map fun d => ⟨d.1, true, false, false⟩)) with
      | some n => .error (0x1F, n)
      | none =>
        match passMode (Manif.ofBits x.a).elem r.ty with
        | none => .error (0x1F, 5)
        | some mode =>
          let y := x.pass t key r views mode
          if views.any fun a => shapeKind (t.shape a) ≠ mode.kind then .error (0x1F, 5)
          else if y.fits x t then .ok y
          else .error (0x1F, 4)

/-- What checks 5 and 6 of R270 answer. -/
inductive PassGo where
  | trap (cause : BitVec 8) (s : State)
  | busy (s : State)
  | reload (s : State)
  | go (s : State)

/-- The state of the residency and the tiles of the views; a trap leaves every view and residency as it was. A reload goes on where the owner's
quota entry was freed and 16 other regions hold entries: R252 fails an XRES alone (DESIGN CHOICE, assumption 47). -/
def State.passState (s : State) (c k : Nat) (y : Pass) : PassGo :=
  let e := clusterOf c
  match y.res.st with
  | .stale => .trap 0x26 s
  | .loading => .busy s
  | .evicted =>
    match s.alloc e y.res.side y.res.owner y.res.slots with
    | (false, _) => .trap 0x28 s
    | (true, s) => .reload (s.modSide e y.res.side (·.bump 3 1))
  | _ =>
    match s.bringViews c k y.views with
    | (false, _) => .trap 0x2C s
    | (true, s) =>
      let n := (s.cluster e).uses
      .go ((s.setResid e y.key { y.res with recency := n }).modCluster e fun x => { x with uses := n + 1 })

/-- One more silent reload. -/
def Residency.again (r : Residency) : Residency := { r with reloads := if r.reloads = 0xFFFFFFFF then r.reloads else r.reloads + 1 }

/-- The A row of a tile, element by element (R271). -/
def State.rowRead (s : State) (c k : Nat) (t : Thread) (b : ElemBy) (x : MatOp) (m : Manif) (r : Nat) : List Nat → TRes (List Val)
  | [] => .ok [] s
  | i :: l =>
    let fmt : FReg → BitVec 32 := fun r => x.fmt[r.toNat]
    (s.readElem c k t b fmt (x.lut.getD []) m [i, r, 0, 0]).bind fun e s =>
      (s.rowRead c k t b x m r l).bind fun vs s => .ok (e.value ((numFmt fmt m.elem).getD (.flt fp64)) :: vs) s

/-- A row of a tile is fed (R271): the accumulators of the row take its products, the overflow of R191 and the counters follow. -/
def State.feedRow (s : State) (c k : Nat) (b : ElemBy) (y : Pass) (x : MatOp) (w : Residency) : TRes Unit :=
  let ma := Manif.ofBits x.a
  let kt := tileDepth w.cont
  match s.thread? c k with
  | none => .ok () s
  | some t =>
    (s.rowRead c k t b x ma x.row ((List.range kt).map (x.tile * kt + ·))).bind fun a s =>
      let tile := w.tile (y.t0 + x.tile)
      let g := groupSize ((numFmt (fun r => x.fmt[r.toNat]) ma.elem).elim 64 (·.container)) w.cont
      let (v, i) := y.rows.getD x.row (0, 0)
      let e := clusterOf c
      let bands := sideBands (s.cluster e).cfg w.side
      let marked := y.mode != .int && (a.any Val.special || specialTile tile)
      let cycles := Config.elapsedCycles s.fresh
      let held := Config.heldCycles s.fresh
      let s := s.modThread c k fun t =>
        let out := (List.range y.cols).map fun j => passElem y.mode marked g (t.elem v i j).toNat (a.zip (tile.getD j []))
        let t := (List.range y.cols).foldl (fun t j => t.putElem v i j (BitVec.ofNat 64 (out.getD j (0, false)).1)) t
        let u := t.view v
        (t.setView v { u with ovf := u.ovf || out.any (·.2) }).dirty v
      let count := fun (z : Side) =>
        let z := ((z.bump 0 cycles).bump 1 bands).bump 6 (if marked then 1 else 0)
        let z := if x.row = 0 then z.bump 2 bands else z
        if (s.cluster e).throttle = 0 then z else z.bump 7 held
      .ok () { (s.modSide e w.side count).weigh e w.owner (4 * cycles) with fresh := s.fresh + 1 }

/-- Every write of a row's drain translates (R272). -/
def State.drainPlace (s : State) (c : Nat) (t : Thread) (f : NumFmt) (m : Manif) (r : Nat) : List Nat → TRes Unit
  | [] => .ok () s
  | j :: l =>
    let (a, _, n) := elemSpan m.base f.container (m.pos [j, r, 0, 0])
    (s.spaceSegs c t m.space m.chan a n .pathW).bind fun _ s => s.drainPlace c t f m r l

/-- The elements of a row of the result are written (R272). -/
def State.drainElems (s : State) (c k : Nat) (b : ElemBy) (y : Pass) (x : MatOp) (mc : V512) (sat : Bool) (scope : BitVec 2) : List Nat → TRes Unit
  | [] => .ok () s
  | j :: l =>
    let fmt : FReg → BitVec 32 := fun r => x.fmt[r.toNat]
    let m := Manif.ofBits mc
    let (v, i) := y.rows.getD x.drained (0, 0)
    let src : ElemType := match y.mode with
      | .f64 => .f64
      | .int => .i32
      | _ => .f32
    match s.thread? c k with
    | none => .ok () s
    | some t =>
      let nf := fun (ty : ElemType) => (numFmt fmt ty).getD (.flt fp64)
      let code := (convert m.elem src (nf m.elem) (nf src) .rne sat (t.elem v i j).toNat).1
      (s.putElem c k t b fmt m [j, x.drained, 0, 0] code scope).bind fun _ s => s.drainElems c k b y x mc sat scope l

/-- A row of the result is drained: none of its writes is issued while one fails translation (R272). -/
def State.drainRow (s : State) (c k : Nat) (b : ElemBy) (y : Pass) (x : MatOp) (mc : V512) (sat : Bool) (scope : BitVec 2) : TRes Unit :=
  let l := List.range y.cols
  let m := Manif.ofBits mc
  match s.thread? c k, numFmt (fun r => x.fmt[r.toNat]) m.elem with
  | some t, some f => (s.drainPlace c t f m x.drained l).bind fun _ s => s.drainElems c k b y x mc sat scope l
  | _, _ => .ok () s

/-- A pass goes on, row by row: drains first what is due, then feeds the next row (R271, R272). Before a tile that has failed it stops, and waits for
the reload (R412). -/
def State.passLoop (c k : Nat) (b : ElemBy) (y : Pass) (scope : BitVec 2) (w : Residency) : Nat → MatOp → State → TEnd × MatOp × State
  | 0, x, s => (.done, x, s)
  | fuel + 1, x, s =>
    let last := x.tile + 1 = y.nt
    match (if last && decide (x.drained < x.row) then x.drain else none) with
    | some (mc, sat) =>
      match s.drainRow c k b y x mc sat scope with
      | .ok _ s => State.passLoop c k b y scope w fuel { x with drained := x.drained + 1 } s
      | .busy s => (.busy, x, s)
      | .fault f s => (.fault { f with acck := 5 }, x, s)
      | .poison b va s => (.poison b va, x, s)
      | .full s => (.full, x, s)
    | none =>
      if x.row = 0 && x.cut = some x.tile then (.busy, { x with wts := none, cut := none }, s)
      else if x.row = y.m then (if last then (.done, x, s) else State.passLoop c k b y scope w fuel { x with tile := x.tile + 1, row := 0, drained := 0 } s)
      else
        match s.feedRow c k b y x w with
        | .ok _ s =>
          let x := { x with row := x.row + 1 }
          State.passLoop c k b y scope w fuel (if x.drain.isSome && last then x else { x with drained := x.row }) s
        | .busy s => (.busy, x, s)
        | .fault f s => (.fault { f with acck := 4 }, x, s)
        | .poison b va s => (.poison b va, x, s)
        | .full s => (.full, x, s)

/-- The last A row of a pass is read: the fetch no longer counts, and what waited for it goes on (R273). -/
def State.fetched (s : State) (c k id : Nat) : State :=
  match s.thread? c k with
  | none => s
  | some t =>
    let t' := { t with ops := t.ops.map fun o =>
      { o with deps := o.deps.filter (· ≠ .op id), stream := if o.id = id then none else o.stream } }
    (s.setThread c k t').push ((retryEvents c k t').filter fun e => !s.agenda.contains e && e ≠ .streamOperationComplete ⟨c, k, id⟩)

/-- A pass in progress runs on until it ends, waits, or is stopped (R259, R272, R273). -/
def State.runPass (s : State) (c k : Nat) (o : Op) (x : MatOp) (y : Pass) (w : Residency) : State :=
  let ref : OpRef := ⟨c, k, o.id⟩
  let (e, x, s) := State.passLoop c k ⟨true, o.no, some (x.str, o.id)⟩ y o.scope w (2 * (y.nt + 1) * (y.m + 2)) x s
  let read := decide (x.tile + 1 = y.nt) && x.row = y.m && o.stream.isSome && (match e with
    | .done => false
    | _ => true)
  let s := if read then s.fetched c k o.id else s
  let o := if read then { o with stream := none } else o
  let set : State → State := fun s => s.modThread c k fun t => t.modOp o.id fun o => { o with kind := .mat x }
  let stop := { o with kind := .mat { x with wts := none } }
  match e with
  | .done => (s.finishOp c k o.id).push (x.dop.toList.map fun d => .drainComplete ⟨c, k, d⟩)
  | .busy => (set s).defer ref
  | .full => ((set s).overflowOf c k).defer ref
  | .poison b va =>
    match s.thread? c k with
    | none => s
    | some t =>
      (if t.buffered then s else s.modSide (clusterOf c) w.side fun z => { z with progress := BitVec.ofNat 32 stop.kind.prog }).bindBad c k t stop b va 4 .trail
  | .fault f =>
    let s := s.modSide (clusterOf c) w.side fun z => { z with progress := BitVec.ofNat 32 stop.kind.prog }
    let s := s.modThread c k fun t => if f.cause = 0x08 then { t with stale := t.stale.filter fun g => g.word ≠ f.aux } else t
    s.park c k stop ⟨f.cause, BitVec.ofNat 3 f.level, f.va⟩ 0 f.span f.acck .trail f.aux f.cont

/-- XMM starts from zero (R268): each view that has a tile holds zeros there that its save area does not (R258). -/
def Thread.zeroSpan (t : Thread) (l : List AReg) : Thread :=
  l.foldl (fun t a =>
    let v := t.view a
    let place := match v.place with
      | .tile n _ => ViewPlace.tile n false
      | p => p
    t.setView a ⟨place, false, v.elems.map fun _ => 0⟩) t

/-- A pass begins, or begins again where it was stopped (R271, R274): XMM zeroes its views before the first row; a tile that is taken up in its
middle is latched again (R256). -/
def State.beginPass (s : State) (c k : Nat) (o : Op) (x : MatOp) (y : Pass) : State :=
  let x := { x with wts := some (y.key, y.res), lut := some (x.lut.getD (s.core c).lut) }
  let e := clusterOf c
  let s := s.modThread c k fun t =>
    let t := if !x.acc && x.tile = 0 && x.row = 0 then t.zeroSpan y.views else t
    t.modOp o.id fun o => { o with kind := .mat x }
  let s := if x.row ≠ 0 && x.row < y.m then s.modSide e y.res.side (·.bump 2 (sideBands (s.cluster e).cfg y.res.side)) else s
  s.runPass c k { o with kind := .mat x } x y y.res

/-- A pass that was stopped and fails a check of R270 at its resumption: its trap has the descriptor with the word unchanged (R259). -/
def State.failPass (s : State) (c k : Nat) (o : Op) (cause : BitVec 8) (sub : Nat) : State :=
  let (cause, sub) := if sub = 8 then (0x1E, 0) else (cause, sub)
  s.park c k o ⟨cause, 0, 0⟩ sub 12 7 .trail

/-- A pass that waited goes on; one that was stopped is checked afresh (R270, R274). -/
def State.tryMat (s : State) (c k : Nat) (t : Thread) (o : Op) (x : MatOp) : State :=
  let ref : OpRef := ⟨c, k, o.id⟩
  if t.st == .stopped then s
  else
    match x.wts with
    | some (key, w) => s.runPass c k o x (x.going t key w) w
    | none =>
      match s.passCheck c t x with
      | .error (cause, sub) => s.failPass c k o cause sub
      | .ok y =>
        match s.passState c k y with
        | .trap cause s => s.failPass c k o cause 0
        | .busy s => s.defer ref
        | .reload s' =>
          if t.full x.str then s.defer ref
          else
            let l : Op := ⟨t.nextOp, o.no, some x.str, o.pmask, o.scope, [], o.pc, o.iword, .res 0 (.load y.key), none, none, false, none⟩
            let s := s'.modThread c k fun t => t.addOp l
            ((s.startLoad (clusterOf c) y.key y.res.again ⟨c, k, l.id⟩).push [.streamOperationComplete ⟨c, k, l.id⟩]).defer ref
        | .go s => s.beginPass c k o x y

/-- XMM and XACC: the checks of R270, then the pass (R271). The instruction waits in its pipe for its edges and for the residency (R45), so that the
checks 5 and 6 see what its edges order before it (R251) and their traps are precise (R259, R270). -/
def issuePass (acc : Bool) (x : XmmX) (s : State) : Out :=
  withEngine x.g s fun t =>
    let c := s.cur.core
    let k := s.cur.slot
    let str := x.str
    let drain := x.drain.map fun d => (t.rm d.1, d.2)
    let n := t.counter str.stream.toNat
    let m0 : MatOp := ⟨acc, x.d, t.rm x.a, drain, none, t.rg x.b, t.fmt, none, none, 0, 0, 0, str.stream, none⟩
    let ms := [m0.a] ++ drain.toList.map (·.1)
    match s.passCheck c t m0 with
    | .error (cause, sub) => if sub = 8 then badFormat s else trapAt s cause sub 0
    | .ok y =>
      if 63 < n + (if drain.isSome then 2 else 1) || (s.core c).shrink.any fun z => s.shrinkWaits c z.1 1 && ms.any (s.manifAbove t c z.1) then
        wait s
      else
        let floor := ms.foldl (fun a m => wider a (spaceFloor m)) 0
        let scope := s.effScope c str.scope floor
        let deps := t.edges str.pmask s.cur.no
        let m := { m0 with dop := drain.map fun _ => t.nextOp + 1 }
        let o := s.newOp t (some str.stream) str.pmask scope [] (.mat m)
        let enter : State → State := fun s =>
          let s := (s.modCur (·.countClamp (s.clamps c str.scope floor))).enterOp o
          match m.dop with
          | some d => s.enterOp { o with id := d, kind := .drain }
          | none => s
        if !deps.isEmpty then wait s
        else
          match s.passState c k y with
          | .trap cause s => trapAt s cause 0 0
          | .busy s => wait s
          | .reload s =>
            match wait (s.beginLoad c k t str 0 y.key y.res.again) with
            | .next s => .next s
            | r => r
          | .go s => .next ((enter s).beginPass c k o m y)

def execXmm (x : XmmX) (s : State) : Out := issuePass false x s
def execXacc (x : XmmX) (s : State) : Out := issuePass true x s

/-- DRAIN COMPLETE (R273): every write of a drain has performed. -/
def execDrainComplete (x : OpRef) (s : State) : Out :=
  .next (s.withOp x fun c k s =>
    match ((s.thread? c k).bind fun t => t.op? x.op).map Op.kind with
    | some .drain => s.finishOp c k x.op
    | _ => s)

end Sys2Proof.Machine
end

