-- ==== Sys2Proof/Machine/Threads.lean ====
section
/-! DEFINITION. The life of threads (R281, R282, R295, R296, R303): slots and generations, placing and starting, spills and
reloads, wakes, the end of a thread and of a region; END, SLEEP and YIELD (R303 to R307), TRAP, the system registers, GTIME and
RGNQ (R316 to R319). -/

namespace Sys2Proof.Machine

/-! ### Slots and generations (R281, R285) -/

def Core.lastOf (y : Core) (n : Nat) : BitVec 6 := (alook n y.lastGen).getD 63

def Core.spilledOf (y : Core) (n : Nat) : BitVec 64 := (alook n y.spilledMap).getD 0

/-- The GEN of the next thread placed in a slot: the next value of which the spilled-map bit is clear. -/
def Core.nextGen (y : Core) (n : Nat) : Option (BitVec 6) :=
  ((List.range 64).map fun i => y.lastOf n + 1 + BitVec.ofNat 6 i).find? fun g => !(y.spilledOf n).getLsbD g.toNat

/-- A TID (R47). -/
def mkTid (gen : BitVec 6) (lcn slot : Nat) : BitVec 32 := BitVec.ofNat 32 (packFields [(26, 6, gen.toNat), (8, 18, lcn), (0, 8, slot)])

/-- A region is another, or descends from it. -/
def State.inTree (s : State) (r anc : Nat) : Bool := (s.ancestors r).contains anc

/-- The slots of a core that a region and its descendants hold (R285). -/
def State.held (s : State) (c r : Nat) : Nat := s.threads.countP fun e => e.1.1 = c && e.2.bound && s.inTree e.2.region r

/-- The region or ancestor that is at its limit on a core (R285). -/
def State.limited (s : State) (c region : Nat) : Option Nat :=
  (s.ancestors region).find? fun a => (s.region? a).elim false fun r => r.slots ≤ s.held c a

/-- Where a new thread would stand: its slot, with the slot and the GEN that name it. A guest is named by the vacated core and a slot that
no thread of it has (R374). -/
def State.findSlot (s : State) (c orig : Nat) : Option (Nat × Nat × BitVec 6) :=
  let free : Nat → Bool := fun k => (s.thread? c k).isNone
  if c = orig then (List.range 255).findSome? fun k => if free k then ((s.core c).nextGen k).map fun g => (k, k, g) else none
  else
    let taken : Nat → Bool := fun n => s.threads.any fun e => e.2.home e.1.1 e.1.2 = (orig, n)
    match (List.range 255).find? free with
    | none => none
    | some k => (List.range 255).findSome? fun n => if taken n then none else ((s.core orig).nextGen n).map fun g => (k, n, g)

/-! ### Spills (R295) -/

/-- A sleeping resident thread that may spill: nothing of it is still to execute, no pass holds its views, and no dirty view would be
lost. What it has left outstanding goes on (R118). -/
def Thread.maySpill (t : Thread) : Bool :=
  t.life == .resident && t.st == .sleeping && t.stop.isNone && !t.ending && t.trailQ.isEmpty && !t.inPass
    && (t.vsave ≠ 0 || (List.range 4).all fun i =>
      (t.view (BitVec.ofNat 2 i)).tile?.isNone || !shapeDirty (t.shape (BitVec.ofNat 2 i)))

/-- The thread of a core that has slept longest among those that may spill. -/
def State.sleeper (s : State) (c : Nat) (ok : Thread → Bool) : Option (Nat × Nat) :=
  let l := s.threads.filter fun e => e.1.1 = c && e.2.maySpill && ok e.2
  let since : Thread → Nat := fun t => t.sleep.elim 0 (·.since)
  (l.find? fun e => l.all fun f => since e.2 ≤ since f.2).map (·.1)

/-- A spill: the context, current in register space (R55), and the armed watches go to 65 blocks of the caravanserai; none when they are not free. -/
def State.spill (s : State) (c k : Nat) : Option State :=
  if !((s.part? (s.partOf c)).elim false (·.hasBlocks 65)) then none
  else
    let s := s.saveViews c k true
    let s := (s.modThread c k fun t => { t with st := .spilled, trailPc := t.trailAt, line := none }).saveContext c k
    match s.thread? c k with
    | none => some s
    | some t =>
      let h := t.home c k
      let g := (t.tid.extractLsb' 26 6).toNat
      let s := (s.delThread c k).modCore h.1 fun y => { y with spilledMap := aset h.2 (y.spilledOf h.2 ||| (1#64 <<< g)) y.spilledMap }
      some (s.modPart (s.partOf c) fun p => { p with spilled := aset (h.1, h.2, g) { t with guest := none, woken := false } p.spilled })

/-- A slot is found for a new thread of a region on a core, sleeping threads spilled where that makes room (R285, R295, R309). -/
def State.makeRoom (s : State) (c orig region : Nat) : Nat → Option ((Nat × Nat × BitVec 6) × State)
  | 0 => none
  | fuel + 1 =>
    match s.limited c region with
    | some a => (s.sleeper c fun t => s.inTree t.region a).bind fun e => (s.spill e.1 e.2).bind fun s => s.makeRoom c orig region fuel
    | none =>
      match s.findSlot c orig with
      | some x => some (x, s)
      | none => (s.sleeper c fun _ => true).bind fun e => (s.spill e.1 e.2).bind fun s => s.makeRoom c orig region fuel

/-! ### Placing and starting (R282, R285, R56) -/

/-- The root of a region's tree. -/
def State.rootOf (s : State) (region : Nat) : Nat := ((s.ancestors region).getLast?).getD region

/-- A region's entry in memory follows its state (R288): RSTATE, RLIVE and ACTS. -/
def RState.code : RState → Nat
  | .notLaunched => 0
  | .live => 1
  | .terminated => 2
  | .ended => 3

def State.syncRegion (s : State) (region : Nat) : State :=
  match s.region? region with
  | none => s
  | some r => s.homeWriteBytes r.part (region + 240) (toBytes 16 (packFields [(0, 2, r.rstate.code), (32, 32, r.rlive), (64, 64, r.acts)])) none

/-- A thread is placed in a slot with the registers of R40 and R46, as binding and THNEW set them. -/
def State.place (s : State) (c orig : Nat) (at_ : Nat × Nat × BitVec 6) (region : Nat) (life : Life) (pc : Word) (f : Thread → Thread) : State :=
  match s.region? region with
  | none => s
  | some r =>
    let (k, n, gen) := at_
    let lcn := (s.lcnOf r orig).getD 0
    let plcn := ((s.region? (s.rootOf region)).bind fun q => s.lcnOf q orig).getD 0
    let t := Thread.fresh (mkTid gen lcn n) region life pc
    let t := { t with
      rgn := r.selfva
      passb := r.passa
      fltq := r.fltq
      trapb := r.trapa + BitVec.ofNat 64 (512 * (256 * plcn + n))
      nextOp := 2 ^ 64 * s.fresh
      prio := r.prio
      issuedAt := s.gt
      guest := if c = orig then none else some (orig, n)
      st := .bound }
    (s.modCore orig fun y => { y with lastGen := aset n gen y.lastGen }).setThread c k (f t)

/-- A thread starts at its PC: a transfer (R22, R56). -/
def State.startThread (s : State) (c k : Nat) : State :=
  match s.thread? c k with
  | none => s
  | some t =>
    let pc := t.leadPc
    let t := { t with st := .running, trailPc := pc, jump := false }
    match s.checkTarget c k t.region pc with
    | (.ok l, s) => s.setThread c k { t with line := some (pcLine pc, l) }
    | (.busy, s) => s.setThread c k { t with line := none, jump := true }
    | (.trap cause d lv span, s) =>
      (s.setThread c k { t with line := none }).takeTrap c k
        ⟨cause, BitVec.ofNat 16 d, .lead, if isTrans cause then 3 else 7, BitVec.ofNat 3 lv, pc, pc, s.entryWord c k t.region pc cause, 0, 0⟩ span []

/-! ### Reloads (R295) -/

/-- A spilled thread of a partition, while it is live. -/
def State.spilled? (s : State) (core slot gen : Nat) : Option Thread :=
  ((s.part? (s.partOf core)).bind fun p => alook (core, slot, gen) p.spilled).filter fun t => !t.ending

def State.modSpilled (s : State) (core slot gen : Nat) (f : Thread → Thread) : State :=
  s.modPart (s.partOf core) fun p => { p with spilled := p.spilled.map fun e => if e.1 = (core, slot, gen) then (e.1, f e.2) else e }

def State.delSpilled (s : State) (core slot gen : Nat) : State :=
  (s.modPart (s.partOf core) fun p => { p with spilled := adel (core, slot, gen) p.spilled }).modCore core fun y =>
    { y with spilledMap := aset slot (y.spilledOf slot &&& ~~~(1#64 <<< gen)) y.spilledMap }

/-- The core that carries the threads of a core of a region (R374). -/
def State.carrier (s : State) (region core : Nat) : Nat := (s.region? region).elim core (·.hostOf core)

/-- The slot into which a spilled thread can reload: its own, free or made free by a spill; a guest's is any. -/
def State.reloadSlot (s : State) (c core slot : Nat) : Option (Nat × State) :=
  if c = core then
    match s.thread? c slot with
    | none => some (slot, s)
    | some t => if t.maySpill then (s.spill c slot).map fun s => (slot, s) else none
  else
    match (List.range 255).find? fun k => (s.thread? c k).isNone with
    | some k => some (k, s)
    | none => (s.sleeper c fun _ => true).bind fun e => (s.spill e.1 e.2).map fun s => (e.2, s)

/-- A reload: the thread tests its SLEEP again with its pending wake masks; the repetition's save area is read back (R212). -/
def State.reload (s : State) (core slot gen : Nat) : Option State :=
  match s.spilled? core slot gen with
  | none => none
  | some t =>
    if !t.woken || t.stop.isSome then none
    else
      let c := s.carrier t.region core
      (s.reloadSlot c core slot).map fun (k, s) =>
        let s := (s.delSpilled core slot gen).modCore core fun y => { y with lastGen := aset slot (BitVec.ofNat 6 gen) y.lastGen }
        let t := { t with st := .running, sleep := none, woken := false, tcyc := t.tcyc &&& 0xFFFFFFFF#64
                          guest := if c = core then none else some (core, slot) }
        match s.readRep c t with
        | (.error (cause, sub), s) => s.resumeTrap c k t cause sub
        | (.ok rep, s) =>
          let s := s.setThread c k (if t.jump then { t with rep := { rep with act := false } } else { t with rep := rep })
          if t.jump then s.startThread c k else s

/-- A thread that a register-space switch displaced takes a slot again, stopped (R373). -/
def State.seat (s : State) (core slot gen : Nat) : Option ((Nat × Nat) × State) :=
  match s.spilled? core slot gen with
  | none => none
  | some t =>
    let c := s.carrier t.region core
    let k := if c = core then (if (s.thread? c slot).isNone then some slot else none)
      else (List.range 255).find? fun k => (s.thread? c k).isNone
    if t.st != .stopped then none
    else k.map fun k =>
      let s := (s.delSpilled core slot gen).modCore core fun y => { y with lastGen := aset slot (BitVec.ofNat 6 gen) y.lastGen }
      ((c, k), s.setThread c k { t with guest := if c = core then none else some (core, slot) })

/-- RELOAD (R295). -/
def execReload (x : EvSpilled) (s : State) : Out := .next ((s.reload x.core x.slot x.gen).getD s)

/-! ### Wakes (R98, R141, R296) -/

/-- A wake enters the armed-watch table; none when the line is not in it. -/
def Thread.takeWake (t : Thread) (line : Nat) (mask : BitVec 4) : Option Thread :=
  if t.watch.any fun e => e.line = line then
    some { t with watch := t.watch.map fun e => if e.line = line then { e with pending := e.pending ||| mask } else e }
  else none

/-- WAKE (R98, R296): taken by the thread that the target names, in its slot or spilled, else answered with DROP; one of a line outside the
core's partition is dropped and logged (R92). -/
def execWake (x : EvWake) (s : State) : Out :=
  let core := (x.target.extractLsb' 8 18).toNat
  let slot := (x.target.extractLsb' 0 8).toNat
  let gen := x.target.extractLsb' 26 6
  if !s.reaches core (256 * x.line) then .next (s.confined (s.homeAgent (256 * x.line)) (256 * x.line))
  else
  match s.findThread core slot gen with
  | some (c, k) =>
    match (s.thread? c k).bind fun t => t.takeWake x.line x.mask with
    | some t => .next (s.setThread c k t)
    | none => .next (s.push [.drop x])
  | none =>
    match (s.spilled? core slot gen.toNat).bind fun t => t.takeWake x.line x.mask with
    | some t => .next (s.modSpilled core slot gen.toNat fun _ => { t with woken := true })
    | none => .next (s.push [.drop x])

/-- DROP at the home (R98): the record is deleted. -/
def execDrop (x : EvWake) (s : State) : Out :=
  .next (s.modEntry (s.partOf (x.target.extractLsb' 8 18).toNat) x.line fun e =>
    { e with watchers := e.watchers.filter fun y => !(y.kind = 1 && y.target = x.target) })

/-! ### SLEEP and YIELD (R304 to R307) -/

/-- The core's view of global time (R103). -/
def State.coreTime (s : State) (c : Nat) : Nat := ((s.gt : Int) + (s.core c).gtOff).toNat

/-- cW, cS, cM and cT of R305, from bit 0 on. -/
def State.sleepTests (s : State) (c : Nat) (t : Thread) (x : SleepCond) : BitVec 4 :=
  let sd := x.sel.extractLsb' 0 8
  let ch := s.chan c (x.wm.extractLsb' 0 4)
  let cW := x.sel.getLsbD 8 && t.watch.any fun e => e.pending ≠ 0
  let cS := sd ≠ 0 && (List.range 8).all (fun i => !sd.getLsbD i || t.counter i = 0)
  let cM := x.sel.getLsbD 9 && (t.guest.isSome || !ch.isOpen || ch.arith || (x.wm.extractLsb' 8 18).toNat ≤ ch.wm)
  let cT := x.sel.getLsbD 10 && x.deadline.toNat ≤ s.coreTime c
  BitVec.ofNat 4 (bitN cW + 2 * bitN cS + 4 * bitN cM + 8 * bitN cT)

/-- What SLEEP writes into gD (R305). -/
def sleepWord (tests : BitVec 4) (w : Bool) (l : List WatchEntry) : Word :=
  BitVec.ofNat 64 (packFields ((0, 4, tests.toNat) :: (if w then l.map fun e => (16 + 4 * e.pos, 4, e.pending.toNat) else [])))

/-- SLEEP: it has not executed while the thread sleeps, and tests again when the thread wakes (R305, R306). -/
def execSleep (x : SleepT) (s : State) : Out :=
  guarded x.g s fun t =>
    let wm := t.rg x.b
    let y : SleepCond := ⟨x.sel, t.rg x.a, wm, s.gt⟩
    if x.sel.getLsbD 9 && (wm.extractLsb' 4 4 ≠ 0 || wm.extractLsb' 26 38 ≠ 0) then trapAt s 0x1C 0 0
    else
      let tests := s.sleepTests s.cur.core t y
      if tests = 0 then .next (s.unissue.modCur fun t => { t with st := .sleeping, sleep := some y, waited := false, blocked := 0 })
      else
        let w := x.sel.getLsbD 8
        let t := { t with watch := if w then t.watch.map fun (e : WatchEntry) => { e with pending := 0 } else t.watch }
        .next (s.setCur (t.wg x.d (sleepWord tests w ((s.curT?).elim [] (·.watch)))))

/-- A condition of a thread's SLEEP holds, of those in a mask of R305's tests. -/
def State.stirs (s : State) (c : Nat) (t : Thread) (m : BitVec 4) : Bool :=
  match t.sleep with
  | some x => s.sleepTests c t x &&& m ≠ 0
  | none => false

/-- A sleeping thread of which a condition other than its deadline holds. -/
def State.awake (s : State) (c : Nat) (t : Thread) : Bool := t.st == .sleeping && s.stirs c t 7

/-- The deadline of a sleeping thread has passed. -/
def State.expired (s : State) (c : Nat) (t : Thread) : Bool :=
  match t.sleep with
  | some x => t.st == .sleeping && x.sel.getLsbD 10 && x.deadline.toNat ≤ s.coreTime c
  | none => false

/-- Sleeping threads run again from the moment that a condition holds; spilled ones take it as a wake (R295, R305). -/
def State.wakeSleepers (s : State) : State :=
  let s : State := { s with threads := s.threads.map fun e => if s.awake e.1.1 e.2 then (e.1, { e.2 with st := .running, sleep := none }) else e }
  { s with parts := s.parts.map fun e => (e.1, { e.2 with spilled := e.2.spilled.map fun y =>
      (y.1, { y.2 with woken := y.2.woken || s.stirs y.1.1 y.2 7 }) }) }

/-- SLEEP DEADLINE (R305): the thread runs again when its deadline has passed; a spilled one takes it as a wake. -/
def execSleepDeadline (x : EvThread) (s : State) : Out :=
  let s : State := match s.thread? x.core x.slot with
    | some t => if s.expired x.core t then s.setThread x.core x.slot { t with st := .running, sleep := none } else s
    | none => s
  .next (s.modPart (s.partOf x.core) fun p => { p with spilled := p.spilled.map fun y =>
    if y.1.1 = x.core && y.1.2.1 = x.slot then (y.1, { y.2 with woken := y.2.woken || s.stirs x.core y.2 8 }) else y })

/-- The least ns in which a number of cycles of a core are over at its cluster's clock. -/
def State.cyclesNs (s : State) (c n : Nat) : Nat :=
  let f := max 1 (s.cluster (clusterOf c)).mhz
  (n * 1000 + f - 1) / f

def execYield (x : GOnly) (s : State) : Out :=
  guarded x.g s fun t => .next (s.setCur { t with yielded := true, yieldAt := s.gt + s.cyclesNs s.cur.core 64 })

/-- YIELD EXPIRY (R307). -/
def execYieldExpiry (x : EvThread) (s : State) : Out := .next (s.modThread x.core x.slot fun t => { t with yielded := false })

/-! ### The end of a thread and of a region (R292, R303, R314) -/

/-- A region ends once it has terminated and has no resident thread (R292). -/
def State.endRegion (s : State) (region : Nat) : State :=
  match s.region? region with
  | none => s
  | some r =>
    if r.rstate != .terminated || r.rlive ≠ 0 then s
    else
      let s := s.revokeRegion region
      let s := { s with cores := s.cores.map fun (e : Nat × Core) => (e.1, { e.2 with posts := e.2.posts.filter fun p => p.2.region ≠ region }) }
      (s.modRegion region fun r => { r with rstate := .ended }).syncRegion region

/-- What END and THKILL release of a thread (R303): queues, views and, for a resident thread, its count. -/
def State.releaseThread (s : State) (c k : Nat) : State :=
  match s.thread? c k with
  | none => s
  | some t =>
    let t := (List.range 4).foldl (fun (t : Thread) i => t.freeView (BitVec.ofNat 2 i)) t
    let s := s.setThread c k { t with ending := true, sleep := none, q := Vector.replicate 8 [], waited := false, yielded := false }
    let s := s.dropShrink c k
    if t.life == .resident then
      ((s.modRegion t.region fun r => { r with rlive := r.rlive - 1 }).syncRegion t.region).endRegion t.region
    else s

/-- END (R303). -/
def execEnd (x : GOnly) (s : State) : Out :=
  guarded x.g s fun t =>
    let c := s.cur.core
    let k := s.cur.slot
    let s := (s.endGrants c k false).releaseThread c k
    let s := s.modThread c k fun t => { t with cons := t.cons.map (·.atEnd) }
    let s := match t.cons with
      | some y => if y.demote then ((s.freeEntry c t none).dropReaders c t).freeTags (s.partOf c) else s
      | none => s
    .next (s.tryFree c k)

/-- The other copy of a paired activation (R329). -/
def State.otherCopy (s : State) (x : Consign) : Option ((Nat × Nat) × Thread) :=
  match x.trig.mark.pair with
  | none => none
  | some (n, copy) => s.threads.find? fun e => e.2.cons.any fun y => y.trig.mark.pair = some (n, !copy)

/-- The consignment of an activation is discarded without redelivery (R314, R125): its entry, its records and its dependants. -/
def State.discardCons (s : State) (c k : Nat) : State :=
  match s.thread? c k with
  | none => s
  | some t =>
    match t.cons with
    | none => s
    | some x =>
      let s := (((s.freeEntry c t none).dropReaders c t).leaveQueue t.region c k false).modThread c k fun t => { t with cons := none }
      (s.dropCopy x).killTag (s.partOf c) x.tag

/-- The parked operations of a thread go with it (R314), and those that a stop has left as descriptors; the others go on (R118, R303). -/
def State.dropStill (s : State) (c k : Nat) : State :=
  match s.thread? c k with
  | none => s
  | some t =>
    let ids := (t.ops.filter fun o => o.parked.isSome || (t.st == .stopped && o.stays)).flatMap fun o => match o.kind with
      | .mat m => o.id :: m.dop.toList
      | _ => [o.id]
    ids.foldl (fun s i => s.finishOp c k i) s

/-- A thread in a slot is killed (R314). -/
def State.killSlot (s : State) (c k : Nat) : State :=
  let s := ((s.endGrants c k true).discardCons c k).releaseThread c k
  let s := s.modThread c k fun t => { t with stop := none, trailQ := [], ahead := [], rep := { t.rep with act := false } }
  (s.dropStill c k).tryFree c k

/-- THKILL of a thread in a slot; both copies of a pair go. -/
def State.kill (s : State) (c k : Nat) : State :=
  match (s.thread? c k).bind fun t => t.cons.bind s.otherCopy with
  | some e => (s.killSlot c k).killSlot e.1.1 e.1.2
  | none => s.killSlot c k

/-! ### TRAP, system registers, time and regions (R316 to R319) -/

/-- TRAP retires, and the thread takes the software trap (R316). -/
def execTrap (x : TrapT) (s : State) : Out :=
  guarded x.g s fun _ =>
    .next (s.takeTrap s.cur.core s.cur.slot ⟨0x20, x.code, .lead, 7, 0, 0, s.cur.ipc, s.cur.iword, 0, 0⟩ 12 [])

/-- TRAP ENTRY (R369): a trap that its agent reports. -/
def execTrapEntry (x : EvTrap) (s : State) : Out :=
  match s.thread? x.core x.slot with
  | some t => if t.st == .stopped then .next s else .next (s.takeTrap x.core x.slot x.info 12 [])
  | none => .next s

/-- The LCORE word (R48). -/
def lcoreWord (lcn c : Nat) : Word := BitVec.ofNat 64 (packFields [(0, 18, lcn), (18, 9, coreX c), (27, 9, coreY c)])

/-- The TID that a thread reads: a copy of a pair reads the primary's, none while that is not bound (R330). -/
def State.readTid (s : State) (t : Thread) : Option (BitVec 32) :=
  match t.cons.bind fun x => x.trig.mark.pair with
  | some (_, true) => (t.cons.bind s.otherCopy).map fun e => e.2.tid
  | _ => some t.tid

/-- A system register as a thread reads it (R46); none when the read waits. -/
def State.sysReg (s : State) (c : Nat) (t : Thread) : SysReg → Option Word
  | .tid => (s.readTid t).map fun x => x.setWidth 64
  | .lcore => some (lcoreWord (t.tid.extractLsb' 8 18).toNat c)
  | .rgn => some t.rgn
  | .passb => some t.passb
  | .trapb => some t.trapb
  | .fltq => some t.fltq
  | .rsbase => some (BitVec.ofNat 64 (s.core (t.home c 0).1).rsbase)
  | .rctl => some t.rctl
  | .lmsplit => some ((s.core c).l1sz.setWidth 64)
  | .ashape => some t.ashape
  | .sclamp => some t.sclamp
  | .gt => some (BitVec.ofNat 64 (s.coreTime c))
  | .tcyc => some t.tcyc

def execMfs (x : MfsT) (s : State) : Out :=
  guarded x.g s fun t =>
    match s.sysReg s.cur.core t x.r with
    | some v => .next (s.setCur (t.wg x.d v))
    | none => wait s

def execMts (x : MtsT) (s : State) : Out :=
  guarded x.g s fun t =>
    .next (s.setCur (match x.r with
      | .rctl => { t with rctl := rctlWrite t.rctl (t.rg x.a) }
      | .sclamp => { t with sclamp := sclampWrite (t.rg x.a) }))

/-- GTIME (R318): it never decreases. -/
def execGtime (x : GDest) (s : State) : Out :=
  guarded x.g s fun t =>
    let v := max t.lastGt (s.coreTime s.cur.core)
    .next (s.setCur ({ t with lastGt := v }.wg x.d
      (BitVec.ofNat 64 (packFields [(0, 63, v), (63, 1, bitN (s.core s.cur.core).suspectTime)]))))

/-- The tariff masks of a region's posts are set: the region or an ancestor of it is masked (R351), or alarm level 2 stands (R419). -/
def State.tariffMasked (s : State) (region : Nat) : Bool := s.ras.noFetch || (s.ancestors region).any fun a => (s.region? a).elim false (·.tmasked)

/-- What RGNQ reads (R319). Selector 3 names no core where bits 63:18 of gA are not zero: all ones (DESIGN CHOICE, assumption 47). -/
def State.rgnq (s : State) (c : Nat) (t : Thread) (r : Region) : RgnSel → Word
  | .cores => BitVec.ofNat 64 (packFields [(0, 18, (s.mapOrig r).length), (32, 14, r.cmap.length)])
  | .attrs => BitVec.ofNat 64 (packFields [(0, 4, r.prio), (4, 2, r.emode.toNat), (6, 1, bitN r.swmode), (7, 1, bitN r.lmperm), (8, 8, r.slots),
      (16, 8, r.tceil), (24, 12, r.rquota)])
  | .lcoreOf a => match s.physOf r (t.rg a).toNat with
    | some d => lcoreWord (t.rg a).toNat d
    | none => BitVec.allOnes 64
  | .lcnAt a =>
    let v := t.rg a
    match (if v.extractLsb' 18 46 = 0 then placeIn (s.mapCores r) (coreAt (v.extractLsb' 0 9).toNat (v.extractLsb' 9 9).toNat) else none) with
    | some n => BitVec.ofNat 64 n
    | none => BitVec.allOnes 64
  | .energy => BitVec.ofNat 64 (packFields [(0, 32, if r.tariff = 0 then 0xFFFFFFFF else r.allow - r.charge), (32, 1, bitN (s.tariffMasked t.region)),
      (33, 1, bitN (decide (4 * r.tceil < (s.cluster (clusterOf c)).quarter)))])
  | .frontier => BitVec.ofNat 64 (packFields [(0, 48, if r.emode = 3 then r.frontier.ts else 0), (63, 1, bitN (r.emode != 3))])
  | .state => BitVec.ofNat 64 (packFields [(0, 2, r.rstate.code), (32, 32, r.rlive)])

def execRgnq (x : RgnqT) (s : State) : Out :=
  guarded x.g s fun t =>
    .next (s.setCur (t.wg x.d ((s.region? t.region).elim 0 fun r => s.rgnq s.cur.core t r x.sel)))

end Sys2Proof.Machine
end

