-- ==== Sys2Proof/Machine/Msgs.lean ====
section
/-! DEFINITION. Messages: SENDM, SPAWN and SPAWNT (R300 to R302), arrival, inboxes and deques (R285 to R287), the porter (R347 to R350),
and the binder (R341 to R346), with the copies of a pair (R329). -/

namespace Sys2Proof.Machine

/-! ### Sending (R300 to R302, R336) -/

/-- The header of an executed message instruction (R302). -/
def State.msgHdr (s : State) (t : Thread) (post kind : Nat) (ts : Option Nat) (sptag : BitVec 16) : BitVec 128 :=
  mkHdr post kind ((s.region? t.region).elim 0 (·.prio)) ts t.tid 0 sptag

/-- The payload (R300). -/
def Thread.payload (t : Thread) (a : GReg) : BitVec 384 :=
  BitVec.ofNat 384 (packFields ((List.range 6).map fun i => (64 * i, 64, (t.rg (a + BitVec.ofNat 6 i)).toNat)))

/-- A block of the tag table is taken when its first entry is (R87). -/
def tagBlock (tags : List (Nat × TagEntry)) (n : Nat) : Bool := tags.any fun e => e.1 / 4 = n / 4

/-- A speculation tag that is free (R336); none when the table is full. -/
def Part.freeTag (p : Part) : Option Nat :=
  ((List.range 65535).map (· + 1)).find? fun n => (alook n p.tags).isNone && (tagBlock p.tags n || p.hasBlocks 1)

/-- The tag that an activation owns, taken the first time (R336). -/
def State.ownTag (s : State) (c k : Nat) (x : Consign) : Option (BitVec 16) × State :=
  if x.tag ≠ 0 then (some x.tag, s)
  else
    match (s.part? (s.partOf c)).bind (·.freeTag) with
    | none => (none, s)
    | some n =>
      let tag := BitVec.ofNat 16 n
      let s := s.modPart (s.partOf c) fun p => { p with tags := p.tags ++ [(n, ⟨x.key, x.sptag, .live⟩)] }
      (some tag, s.modThread c k fun t => { t with cons := t.cons.map fun y => { y with tag := tag } })

/-- A held message operation whose edges are satisfied leaves. -/
def State.tryMsg (s : State) (c k : Nat) (o : Op) (core : Nat) (m : Msg) : State :=
  (s.modThread c k fun t => t.modOp o.id fun o => { o with kind := .msg core m true }).sendMsg core m (some ⟨c, k, o.id⟩) .new

/-- A message instruction past its checks: delivered after its edges, or held (R302, R322, R336). -/
def issueMsg (s : State) (t : Thread) (str : Str) (kind core post : Nat) (ts : Option Nat) (a : GReg) (gb gc : Word) : Out :=
  let c := s.cur.core
  let k := s.cur.slot
  if t.full str.stream then wait s
  else
    let floor := if kind = 0 then scopeFloor c .named (some core) else 0
    let pay := t.payload a
    let msg := fun (sptag : BitVec 16) => (⟨s.msgHdr t post kind ts sptag, pay, (s.region? t.region).elim 0 (·.tag)⟩ : Msg)
    let count := fun (s : State) => s.modCur (·.countClamp (s.clamps c str.scope floor))
    match (if t.buffered then t.cons else none) with
    | none =>
      let deps := t.edges str.pmask s.cur.no
      let o := s.newOp t (some str.stream) str.pmask (s.effScope c str.scope floor) deps (.msg core (msg 0) deps.isEmpty)
      let s := (count s).enterOp o
      .next (if deps.isEmpty then s.sendMsg core (msg 0) (some ⟨c, k, o.id⟩) .new else s)
    | some x =>
      let child := kind = 2 && x.mode = 3 && x.spec && s.postRegion c post = some t.region
      let hold := fun (s : State) (count : State → State) (m : Msg) (child : Bool) =>
        match (s.thread? c k).bind (·.cons) with
        | some x => holdMsg s count x ⟨s.cur.iword, s.cur.ipc, t.rg a, gb, gc, pay, .msg core m false, child⟩
        | none => .next s
      if x.phase ≠ .running || 16 ≤ x.msgs.length || !child then hold s count (msg 0) false
      else
        match (count s).ownTag c k x with
        | (some tag, s) => hold (s.sendMsg core (msg tag) none .new) id (msg tag) true
        | (none, s) => hold s id (msg 0) false

/-- The message-operand trap (R301). -/
def msgTrap (s : State) (sub : Nat) : Out := trapAt s 0x2E sub 0

def execSendm (x : MsgC) (s : State) : Out :=
  guarded x.g s fun t =>
    let b := t.rg x.b
    match (s.region? t.region).bind fun r => s.origOf r (b.extractLsb' 0 18).toNat with
    | none => trapAt s 0x1B 0 0
    | some core =>
      if b.extractLsb' 24 40 ≠ 0 then msgTrap s 1
      else issueMsg s t x.str 0 core (b.extractLsb' 18 6).toNat none x.a b 0

/-- The core to whose deque a thread's SPAWN goes: the one by which it is named. -/
def State.spawnCore (s : State) (t : Thread) : Nat := (t.home s.cur.core s.cur.slot).1

def execSpawn (x : MsgC) (s : State) : Out :=
  guarded x.g s fun t =>
    let b := t.rg x.b
    if b.extractLsb' 6 58 ≠ 0 then msgTrap s 1
    else issueMsg s t x.str 1 (s.spawnCore t) b.toNat none x.a b 0

def execSpawnt (x : MsgtC) (s : State) : Out :=
  guarded x.g s fun t =>
    let b := t.rg x.b
    let c := t.rg x.c
    if b.extractLsb' 6 58 ≠ 0 || c.extractLsb' 48 16 ≠ 0 then msgTrap s 1
    else if t.cons.any fun y => y.mode = 3 && c.toNat < y.trig.msg.ts then msgTrap s 2
    else issueMsg s t x.str 2 (s.spawnCore t) b.toNat (some c.toNat) x.a b c

/-! ### Slices (R347 to R350) -/

/-- The place of a core's slice in a region's spill heap: its address and its records. -/
def State.slice (s : State) (r : Region) (dest : Nat) : Word × Nat :=
  let e := max 1 (s.mapOrig r).length
  let z := r.shlen / e / 64 * 64
  (r.sheap + BitVec.ofNat 64 ((s.lcnOf r dest).getD 0 * z), (z - 64) / 64)

/-- The control sector's HEAD, TAIL, COUNT and FULLS. -/
structure SliceCtl where
  head : Nat
  tail : Nat
  count : Nat
  fulls : Nat
  deriving DecidableEq, Repr

/-- Its 64 bytes: what is reserved is zero (R4). -/
def SliceCtl.bytes (x : SliceCtl) : List Byte := toBytes 64 (packFields [(0, 32, x.head), (32, 32, x.tail), (64, 32, x.count), (96, 32, x.fulls)])

def State.sliceCtl (s : State) (c region : Nat) (va : Word) : Option SliceCtl × State :=
  match s.devRead c region va 16 with
  | (some bs, s) =>
    let f := fun (i : Nat) => ofBytes ((bs.drop (4 * i)).take 4)
    (some ⟨f 0, f 1, f 2, f 3⟩, s)
  | (none, s) => (none, s)

/-- The 64 bytes of a message (R284). -/
def msgBytes (m : Msg) : List Byte := toBytes 16 m.hdr.toNat ++ toBytes 48 m.pay.toNat

/-- The sender's operation completes (R119). -/
def State.sent (s : State) (src : Option OpRef) : State :=
  match src with
  | some r => s.finishOp r.core r.slot r.op
  | none => s

/-- PORTER SPILL (R348, R350): the message becomes the record at HEAD, or is answered with retry when the slice is full. -/
def execPorterSpill (x : EvMsg) (s : State) : Out :=
  let c := s.route x.core x.msg.post
  match (s.postRegion c x.msg.post).bind fun g => (s.region? g).map fun r => (g, r) with
  | none => .next s
  | some (g, r) =>
    let (va, n) := s.slice r x.core
    let again : State → State := fun s => s.timer (s.gt + 1000) (.sliceFullRetry x)
    match s.sliceCtl c g va with
    | (none, s) => .next (again s)
    | (some y, s) =>
      if y.count < n then
        let (ok, s) := s.devWrite c g (va + BitVec.ofNat 64 (64 + 64 * y.head)) (msgBytes x.msg) false
        if !ok then .next (again s)
        else
          let s := (s.devWrite c g va (SliceCtl.bytes { y with head := (y.head + 1) % n, count := y.count + 1 }) false).2
          let s := s.modCore c fun z => { z with spilling := z.spilling ++ [(g, ⟨x.msg, x.core, false, x.mark⟩)] }
          .next (s.sent x.src)
      else
        let fulls := min (y.fulls + 1) 0xFFFFFFFF
        let s := (s.devWrite c g va (SliceCtl.bytes { y with fulls := fulls }) false).2
        if (s.core c).fulls.contains (g, x.core) then .next (again s)
        else
          let s := s.modCore c fun z => { z with fulls := z.fulls ++ [(g, x.core)] }
          let i : TrapInfo := ⟨0x33, 0, .lead, 7, 0, 0, 0, 0, BitVec.ofNat 64 ((s.lcnOf r x.core).getD 0), BitVec.ofNat 64 fulls⟩
          .next (again (s.appendRec c g (recFields s c (if x.msg.kind = 3 then 0 else x.msg.srcTid) i false) [] none none).2)

/-- SLICE FULL RETRY (R350): the sender repeats the message. -/
def execSliceFullRetry (x : EvMsg) (s : State) : Out := .next (s.push [.messageArrival x])

/-! ### Arrival (R285, R287) -/

/-- A message at a core is an orphan: its post has no live region there, or one of another tenant (R287). -/
def State.orphan (s : State) (c : Nat) (m : Msg) : Bool :=
  match (s.postRegion c m.post).bind s.region? with
  | some r => r.rstate != .live || r.tag ≠ m.tag
  | none => true

/-- An orphan is discarded and counted (R287, R291). -/
def State.dropOrphan (s : State) (c : Nat) (mark : MsgMark) : State :=
  let s := s.modPart (s.partOf c) fun p => { p with orphans := p.orphans + 1 }
  s.consume mark.region 1

/-- A replay stops once the inbox holds 448 entries or the slices are empty (R349). -/
def Core.settled (y : Core) : Core := { y with replaying := y.replaying && decide (y.inbox.length < 448) && !y.spilling.isEmpty }

/-- A message enters an inbox. -/
def State.enterInbox (s : State) (c : Nat) (i : InMsg) : State :=
  s.modCore c fun y => Core.settled { y with inbox := y.inbox ++ [i] }

/-! ### The drover's block (R355) -/

/-- A stage entry. -/
structure Stage where
  no : Nat
  cluster : Bool
  post : Nat
  hold : Nat
  minu : Nat
  maxu : Nat
  region : Nat
  hi : Nat
  lo : Nat
  mring : Nat
  occa : Nat
  units : Nat
  hotn : Nat
  coldn : Nat
  deriving DecidableEq, Repr

/-- The address of a stage entry. -/
def stagePa (block i : Nat) : Nat := block + 64 + 64 * i

/-- A stage entry from its 64 bytes; none when VALID is clear. -/
def Stage.ofBytes? (i : Nat) (bs : List Byte) : Option Stage :=
  let w := ofBytes bs
  let f := fun (lo n : Nat) => w / 2 ^ lo % 2 ^ n
  if w % 2 = 0 then none
  else some ⟨i, w.testBit 1, f 2 6, f 8 8, f 16 16, f 32 16, f 64 64, f 128 32, f 160 32, f 192 64, f 256 64, f 320 32, f 352 16, f 368 16⟩

/-- The valid stages of a partition's drover block. -/
def State.stages (s : State) (p : Nat) : List Stage × State :=
  match s.part? p with
  | none => ([], s)
  | some q =>
    let (h, s) := s.homeReadBytes p q.drover.block 8
    let n := ofBytes h / 16 % 16
    let n := if n = 0 then 16 else n
    (List.range n).foldl (fun (acc : List Stage × State) i =>
      let (bs, s) := acc.2.homeReadBytes p (stagePa q.drover.block i) 64
      (acc.1 ++ (Stage.ofBytes? i bs).toList, s)) ([], s)

/-! ### Member tables (R356) -/

/-- A core of a region's map from which the device writes the region's virtual memory. -/
def State.anyCore (s : State) (r : Region) : Nat := (s.mapCores r).headD 0

/-- The logical cores of a member table. -/
def State.memberList (s : State) (x : Stage) : List Nat × State :=
  match s.region? x.region with
  | none => ([], s)
  | some r =>
    let c := s.anyCore r
    match s.devRead c x.region (BitVec.ofNat 64 x.mring) 8 with
    | (none, s) => ([], s)
    | (some n, s) =>
      let cnt := min (ofBytes (n.take 4)) (16 * x.maxu)
      match s.devRead c x.region (BitVec.ofNat 64 (x.mring + 16)) (4 * cnt) with
      | (none, s) => ([], s)
      | (some bs, s) => ((List.range cnt).map fun j => ofBytes ((bs.drop (4 * j)).take 4), s)

/-- The core of a member. -/
def State.memberCore (s : State) (x : Stage) (lcn : Nat) : Option Nat := (s.region? x.region).bind fun r => s.origOf r lcn

/-- A change of a post of a core. -/
def State.modPost (s : State) (c post : Nat) (f : Post → Post) : State :=
  s.modCore c fun y => { y with posts := y.posts.map fun e => if e.1 = post then (e.1, f e.2) else e }

/-- The cores of the stage of a post, from the stage's member table (R356). -/
def State.members (s : State) (p post : Nat) : List Nat × State :=
  if !(s.part? p).any (·.drover.on) then ([], s)
  else
    let (l, s) := s.stages p
    match l.find? fun x => x.post = post with
    | none => ([], s)
    | some x =>
      let (ns, s) := s.memberList x
      (ns.filterMap (s.memberCore x), s)

/-- A PORTER SPILL into a region's slice of a core is still to happen: what arrives after it goes behind it (R348). -/
def State.spillQueued (s : State) (region dest : Nat) : Bool :=
  (s.agenda ++ s.later).any fun e =>
    match e with
    | .porterSpill y => y.core = dest && s.postRegion (s.route dest y.msg.post) y.msg.post = some region
    | _ => false

/-- MESSAGE ARRIVAL (R285 to R287, R348, R359). A SPAWNT to an ordered region goes to the inbox, from which nothing is stolen (R286, R302). -/
def execMessageArrival (x : EvMsg) (s : State) : Out :=
  let c := s.route x.core x.msg.post
  if s.orphan c x.msg then .next ((s.dropOrphan c x.mark).sent x.src)
  else
    match alook x.msg.post (s.core c).posts with
    | none => .next s
    | some p =>
      let i : InMsg := ⟨x.msg, x.core, false, x.mark⟩
      let here : State → Out := fun s =>
        let ordered := x.msg.kind = 2 && (s.region? p.region).any fun r => r.emode = 3
        let local_ := (x.msg.kind = 1 || x.msg.kind = 2) && !ordered && !x.fwd && !x.mark.second && !x.mark.force && x.mark.pair.isNone && x.mark.redlv = 0
        let y := s.core c
        if local_ && y.deque.length < 64 then
          .next ((s.modCore c fun y => { y with deque := i :: y.deque }).sent x.src)
        else if 512 ≤ y.inbox.length || (y.spilling.any fun e => e.1 = p.region && e.2.dest = x.core) || s.spillQueued p.region x.core then .next (s.push [.porterSpill x])
        else .next ((s.enterInbox c i).sent x.src)
      if !p.dmask then here s
      else
        let (ms, s) := s.members (s.partOf c) x.msg.post
        match ms[p.fwd % max 1 ms.length]? with
        | none => here s
        | some d =>
          let s := s.modCore c fun y => { y with posts := aset x.msg.post { p with fwd := p.fwd + 1 } y.posts }
          .next (s.push [.messageArrival { x with core := d, fwd := true }])

/-- The region whose slice the porter serves next (R349). -/
def Core.nextSlice (y : Core) : Option (Nat × InMsg) :=
  let l := y.spilling
  match l.find? fun e => y.served < e.1 with
  | some _ =>
    let g := (l.filterMap fun e => if y.served < e.1 then some e.1 else none).foldl min (2 ^ 64)
    l.find? fun e => e.1 = g
  | none =>
    let g := (l.map (·.1)).foldl min (2 ^ 64)
    l.find? fun e => e.1 = g

/-- PORTER REPLAY (R349): the record at TAIL of the next slice goes to the inbox; it is checked as on arrival. -/
def execPorterReplay (x : EvCore) (s : State) : Out :=
  let c := x.core
  let y := s.core c
  match (if y.inbox.length < 448 then y.nextSlice else none) with
  | none => .next (s.modCore c Core.settled)
  | some (g, i) =>
    let s := s.modCore c fun y => { y with spilling := y.spilling.erase (g, i), served := g, replaying := true, fulls := y.fulls.filter (· ≠ (g, i.dest)) }
    let enter : InMsg → State → State := fun i s => if i.kept then s else if s.orphan c i.msg then s.dropOrphan c i.mark else s.enterInbox c i
    match s.region? g with
    | none => .next ((if i.kept then s else s.dropOrphan c i.mark).modCore c Core.settled)
    | some r =>
      let (va, n) := s.slice r i.dest
      match s.sliceCtl c g va with
      | (none, s) => .next ((enter i s).modCore c Core.settled)
      | (some z, s) =>
        let (bs, s) := s.devRead c g (va + BitVec.ofNat 64 (64 + 64 * z.tail)) 64
        let s := (s.devWrite c g va (SliceCtl.bytes { z with tail := (z.tail + 1) % max 1 n, count := z.count - 1 }) false).2
        let m : Msg := match bs with
          | some bs => { i.msg with hdr := BitVec.ofNat 128 (ofBytes (bs.take 16)), pay := BitVec.ofNat 384 (ofBytes (bs.drop 16)) }
          | none => i.msg
        .next ((enter { i with msg := m } s).modCore c Core.settled)

/-! ### The binder (R285, R329, R342, R343) -/

/-- The message that a post would bind, and whether it comes from the deque: the deque's head first, the oldest inbox message after eight
of those in a row (R285). -/
def Core.candidate (y : Core) (post : Nat) (streak : Nat) : Option (InMsg × Bool) :=
  let d := y.deque.find? fun i => i.msg.post = post
  let q := y.inbox.find? fun i => !i.kept && i.msg.post = post
  match d, q with
  | some i, some j => if 8 ≤ streak then some (j, false) else some (i, true)
  | some i, none => some (i, true)
  | none, some j => some (j, false)
  | none, none => none

/-- A limit in °C holds a temperature off, with 2 °C of hysteresis once it has. -/
def overLimit (quarter limit : Nat) (was : Bool) : Bool := if was then 4 * limit < quarter + 8 else 4 * limit ≤ quarter

/-- The largest class that is allowed at a temperature, from the largest that was. -/
def maxClassAt (quarter tceil was : Nat) : Nat :=
  if !overLimit quarter (tceil - 10) (was < 3) then 3
  else if !overLimit quarter (tceil - 5) (was < 2) then 2
  else if !overLimit quarter tceil (was < 1) then 1
  else 0

/-- The largest class that the cluster's temperature allows a region (R352); one that has come since the last reading is judged by that
reading. -/
def State.maxClass (s : State) (c region : Nat) : Nat :=
  let k := s.cluster (clusterOf c)
  (alook region k.maxcls).getD (maxClassAt k.quarter ((s.region? region).elim 0 (·.tceil)) 3)

/-- The masks of a post are clear; a draining post still binds what is queued (R342, R359). -/
def Post.unmasked (p : Post) : Bool := !p.fmask && !p.tmask && (!p.dmask || p.drain) && !p.smask

/-- B_q of R342. -/
def State.boundFrom (s : State) (c post region : Nat) : Nat :=
  s.threads.countP fun e => e.1.1 = c && e.2.bound && e.2.region = region && (match e.2.life with
    | .activation p _ => p = post
    | .resident => false)

/-- The slots that the other posts' reservations keep free (R342). -/
def State.reserved (s : State) (c post : Nat) : Nat :=
  ((s.core c).posts.map fun e => if e.1 = post then 0 else e.2.rsv - s.boundFrom c e.1 e.2.region).sum

/-- The free slots of a core. -/
def State.freeCount (s : State) (c : Nat) : Nat := 255 - s.threads.countP fun e => e.1.1 = c

/-- The posts of a region can bind on a core: the region is live, the class allowed, and a reservation of R321 is left; `force` is a rerun in
buffered mode. -/
def State.mayBind (s : State) (c : Nat) (p : Post) (force : Bool) : Bool :=
  (s.region? p.region).any fun r => r.rstate == .live && decide (p.cls ≤ s.maxClass c p.region)
    && !(r.emode ≠ 0 && decide (reserveMax (s.core c).l1sz ≤ s.reservations c)) && !(r.emode = 2 && !force && (s.core c).suspect)

/-- The key that an unconsumed message counts with: that of the porter of its core. -/
def State.msgKey (s : State) (r : Region) (i : InMsg) : Key :=
  ⟨if i.msg.tsv then i.msg.ts else 0, (mkTid 0 ((s.lcnOf r i.dest).getD 0) 255).toNat⟩

/-- Of messages that wait in an ordered region the first one of the lowest key (R333). -/
def State.leastKey (s : State) (r : Region) (l : List (InMsg × Bool)) : Option (InMsg × Bool) :=
  l.find? fun i => l.all fun j => !keyLt (s.msgKey r j.1) (s.msgKey r i.1)

/-- The messages of a core that an idle core may take from an ordered queue: its unbound SPAWNT messages of the region (R302). -/
def State.orderedQueue (s : State) (c region : Nat) : List (InMsg × Bool) :=
  ((s.core c).inbox.filter fun i => !i.kept && i.msg.kind = 2 && s.postRegion c i.msg.post = some region).map fun i => (i, false)

/-- The core without the messages of its ordered queues (R302). -/
def Core.unordered (y : Core) : Core := { y with deque := y.deque.filter (·.msg.kind ≠ 2), inbox := y.inbox.filter (·.msg.kind ≠ 2) }

/-- What a post binds next (R285): in an ordered region, whose SPAWNT messages R302 puts into ordered queues, the one of the lowest key of those, or the
message that the deque and the inbox give, by their keys. Where those queues are and how they bind the spec does not say (DESIGN CHOICE,
assumption 21). -/
def State.nextMsg (s : State) (c post : Nat) (p : Post) : Option (InMsg × Bool) :=
  match (s.region? p.region).filter fun r => r.emode = 3 with
  | some r =>
    let q := (s.orderedQueue c p.region).filter fun i => i.1.msg.post = post
    s.leastKey r (((s.core c).unordered.candidate post p.streak).toList ++ (s.leastKey r q).toList)
  | none => (s.core c).candidate post p.streak

/-- An eligible post (R342): what it would bind, where, and the state in which there is room. -/
def State.eligible (s : State) (c post : Nat) (p : Post) : Option ((InMsg × Bool) × (Nat × Nat × BitVec 6) × State) :=
  match s.nextMsg c post p with
  | some m =>
    if !p.unmasked || !s.mayBind c p m.1.mark.force then none
    else
      match s.makeRoom c m.1.dest p.region (s.threads.length + 1) with
      | some (x, s') => if s.reserved c post + 1 ≤ s'.freeCount c then some (m, x, s') else none
      | none => none
  | none => none

/-- EP of R342. -/
def Post.ep (p : Post) : Nat := min 15 (p.prio + p.age)

/-- The post that the binder takes: of the largest EP the first at or after the rotation pointer (R343). -/
def State.winner (s : State) (c : Nat) : Option (Nat × Post × (InMsg × Bool) × (Nat × Nat × BitVec 6) × State) :=
  let y := s.core c
  let l := y.posts.filterMap fun e => (s.eligible c e.1 e.2).map fun x => (e.1, e.2, x)
  let far : Nat → Nat := fun p => (p + 64 - y.rotation % 64) % 64
  l.find? fun e => l.all fun f => f.2.1.ep < e.2.1.ep || (f.2.1.ep = e.2.1.ep && far e.1 ≤ far f.1)

/-- The message taken from its queue; a non-direct activation's stays in an inbox entry (R325). -/
def Core.take (y : Core) (i : InMsg) (deque keep : Bool) : Core :=
  let kept := { i with kept := true }
  if deque then Core.settled { y with deque := y.deque.erase i, inbox := if keep then y.inbox ++ [kept] else y.inbox }
  else { y with inbox := if keep then y.inbox.map fun j => if j = i then kept else j else y.inbox.erase i }

/-- A key with the TID of an activation; a late message takes the last cleared TS (R333, R339). -/
def Region.keyOf (r : Region) (m : Msg) (tid : BitVec 32) : Key × Option Key :=
  let k : Key := ⟨if m.tsv then m.ts else 0, tid.toNat⟩
  match r.lastCleared with
  | some l => if keyLt k l then (k, some ⟨l.ts, tid.toNat⟩) else (k, none)
  | none => (k, none)

/-- The consignment of a new activation (R320, R321). -/
def mkConsign (r : Region) (i : InMsg) (tid : BitVec 32) : Option Consign :=
  if r.emode = 0 then none
  else
    let (key, late) := r.keyOf i.msg tid
    let mode : BitVec 2 := if i.mark.force then 1 else r.emode
    some {
      mode := mode
      sects := []
      msgs := []
      early := false
      demote := false
      redlv := BitVec.ofNat 2 i.mark.redlv
      spec := mode = 3 && keyLt r.frontier (late.getD key)
      copy := i.mark.pair.any (·.2)
      tag := 0
      sptag := if mode = 3 then i.msg.sptag else 0
      key := key
      lateKey := late
      trig := { i with kept := true }
      phase := .running
      hash := none
      matched := false
      overflow := false }

/-- The logical numbers that the pairing offsets count (R329). -/
def State.paired (s : State) (r : Region) : List Nat := (List.range (s.mapOrig r).length).filter fun l => !r.unpaired.contains l

/-- The logical number that stands some places after another among them. -/
def State.pairAt (s : State) (r : Region) (l o : Nat) : Nat :=
  let ps := s.paired r
  ps.getD ((ps.idxOf l + o) % max 1 ps.length) l

/-- The partner's core of a pair whose primary is on a core (R329). -/
def State.partner (s : State) (r : Region) (core : Nat) (second : Bool) : Option Nat :=
  match r.pairing, s.lcnOf r core with
  | some (o1, o2, o3), some l =>
    let e := (s.paired r).length
    s.origOf r (s.pairAt r l (if second then e - o2 + o3 else o1))
  | _, _ => none

/-! ### The frontier (R333) -/

/-- The key above those of every activation: the frontier of a region in which nothing is uncleared. -/
def Key.top : Key := ⟨2 ^ 48 - 1, 2 ^ 32⟩

/-- The smaller of two keys. -/
def keyMin (a b : Key) : Key := if keyLt b a then b else a

/-- The keys of the SPAWNTs that a consignment holds: they count from the moment that they execute (R424). -/
def State.heldKeys (s : State) (r : Region) (core : Nat) (x : Consign) : List Key :=
  x.msgs.filterMap fun h => match h.what with
    | .msg _ m _ => if h.child || m.kind ≠ 2 then none
        else some ⟨if m.tsv then m.ts else 0, (mkTid 0 ((s.lcnOf r core).getD 0) 255).toNat⟩
    | _ => none

/-- An uncleared activation that has not reached END; one that clears at an overflow is among them until that clearing is done (R333). -/
def Consign.unended (x : Consign) (ending : Bool) : Bool :=
  match x.phase with
  | .running => true
  | .clearing _ => !ending
  | _ => false

/-- F: the lowest key of an activation that has not reached END, or of a message that is held, that a clearing has started, or that is not
consumed (R333, R424). -/
def State.frontierOf (s : State) (region : Nat) (r : Region) : Key :=
  let acts := s.threads.filterMap fun e => match e.2.cons with
    | some x => if e.2.region = region && x.mode = 3 && x.unended e.2.ending then some x.order else none
    | none => none
  let msgs := (s.unconsumed.filter fun i => i.mark.region = region).map (s.msgKey r)
  let held := s.threads.flatMap fun (e : (Nat × Nat) × Thread) => if e.2.region = region then e.2.cons.elim [] (s.heldKeys r (e.2.home e.1.1 e.1.2).1) else []
  let started := s.threads.flatMap fun (e : (Nat × Nat) × Thread) => e.2.ops.filterMap fun o => match o.kind with
    | .msg core m false => if o.stream.isNone && s.postRegion core m.post = some region then some (s.msgKey r ⟨m, core, false, .new⟩) else none
    | _ => none
  (acts ++ msgs ++ held ++ started).foldl keyMin Key.top

/-- F is taken anew, and with it which activations are speculative (R424). -/
def State.takeFrontier (s : State) (region : Nat) : State :=
  match s.region? region with
  | none => s
  | some r =>
    let f := s.frontierOf region r
    let spec : Thread → Thread := fun t => { t with cons := t.cons.map fun x =>
      if x.mode = 3 then { x with spec := !x.demote && keyLt f x.order } else x }
    ({ s with threads := s.threads.map fun (e : (Nat × Nat) × Thread) => if e.2.region = region then (e.1, spec e.2) else e } : State).modRegion region fun r => { r with frontier := f }

/-! ### Binding (R343) -/

/-- A message binds at a post: the registers of R56, the consignment, the counts, the copy of a pair, and the start of both pipes. -/
def State.bind (s : State) (c post : Nat) (p : Post) (m : InMsg × Bool) (x : Nat × Nat × BitVec 6) : State :=
  match s.region? p.region with
  | none => s
  | some r =>
    let (i, deque) := m
    let lcn := (s.lcnOf r i.dest).getD 0
    let tid := mkTid x.2.2 lcn x.2.1
    let paired := r.emode = 2 && !i.mark.force && i.mark.pair.isNone
    let i' := if paired then { i with mark := { i.mark with pair := some ((c * 256 + x.1) * 64 + x.2.2.toNat, false) } } else i
    let s := s.modCore c fun y => { (y.take i deque (r.emode ≠ 0)) with rotation := post + 1 }
    let p' : Post := { p with age := 0, streak := if deque then p.streak + 1 else 0, stood := 0 }
    let s := s.modCore c fun y => { y with posts := aset post p' y.posts }
    let s := if i.mark.region = p.region then s.consume p.region 1 else s
    let s := if i.mark.pair.any (·.2) then s else (s.modRegion p.region fun r => { r with acts := r.acts + 1 }).syncRegion p.region
    let prio := max i.msg.prio p.ep
    let hdr := (i.msg.hdr &&& ~~~0xF00#128) ||| BitVec.ofNat 128 (prio * 256)
    let s := s.place c i.dest x p.region (.activation post i.msg) p.hpc fun t =>
      let t := (List.range 6).foldl (fun t j => t.wg (BitVec.ofNat 6 (1 + j)) (i.msg.pay.extractLsb' (64 * j) 64)) t
      let t := (t.wg 7 (hdr.extractLsb' 0 64)).wg 8 (hdr.extractLsb' 64 64)
      { t with prio := p.ep, cons := mkConsign r i' tid }
    let s := match (if paired then s.partner r i.dest i.mark.second else none) with
      | some d => s.push [.messageArrival ⟨d, i.msg, none, false, { i'.mark with pair := i'.mark.pair.map fun (q : Nat × Bool) => (q.1, true), region := 0 }⟩]
      | none => s
    let s := if r.emode = 3 && r.frontier = Key.top then s.takeFrontier p.region else s
    s.startThread c x.1

/-- BINDING (R343): at most one post of a core binds. -/
def execBinding (x : EvCore) (s : State) : Out :=
  match s.winner x.core with
  | some (post, p, m, at_, s) => .next (s.bind x.core post p m at_)
  | none => .next s

/-- The cycles of a post count toward its AGE: it is runnable, its masks are clear and its class is allowed (R343). -/
def State.ages (s : State) (c post : Nat) (p : Post) : Bool :=
  ((s.core c).candidate post 0).isSome && p.unmasked && !p.dmask && decide (p.cls ≤ s.maxClass c p.region)

/-- The posts stand for some ns more, in the cycles of their clusters' clocks. -/
def State.agePosts (s : State) (n : Nat) : State :=
  let stand : Nat → Nat × Post → Nat × Post := fun c p =>
    if s.ages c p.1 p.2 then (p.1, { p.2 with stood := p.2.stood + n * (s.cluster (clusterOf c)).mhz }) else p
  { s with cores := s.cores.map fun e => (e.1, { e.2 with posts := e.2.posts.map (stand e.1) }) }

/-- The thousandths of a cycle of an AGE step. -/
def ageStep : Nat := 4096 * 1000

/-- AGE STEP (R343): one step for each 4,096 cycles that the post has stood. -/
def execAgeStep (x : EvPost) (s : State) : Out :=
  .next (s.modPost x.core x.post fun p => { p with age := min 15 (p.age + p.stood / ageStep), stood := p.stood % ageStep })

/-! ### Stealing (R286) -/

/-- The victims of a core's steal requests in their order: its cluster, its tract, then the map. -/
def State.victims (s : State) (r : Region) (c : Nat) : List Nat :=
  let l := (s.mapCores r).filter (· ≠ c)
  let a := l.filter fun d => clusterOf d = clusterOf c
  let b := l.filter fun d => clusterOf d ≠ clusterOf c && tractOf d = tractOf c
  a ++ b ++ l.filter fun d => tractOf d ≠ tractOf c

/-- A core is idle for a region: it has none of its work runnable and could bind some (R286). -/
def State.idleFor (s : State) (c region : Nat) : Bool :=
  let y := s.core c
  let posts := y.posts.filter fun e => e.2.region = region
  (posts.all fun e => (y.candidate e.1 0).isNone)
    && (match s.makeRoom c c region (s.threads.length + 1) with
      | some (_, s') => posts.any fun e => e.2.unmasked && !e.2.dmask && s.mayBind c e.2 false && decide (s.reserved c e.1 + 1 ≤ s'.freeCount c)
      | none => false)

/-- How many steal requests a core has sent for a region, and the time of its next. -/
def Core.stealOf (y : Core) (region : Nat) : Nat × Nat := (alook region y.steals).getD (0, 0)

/-- What a victim gives of a region: the oldest message in its deque (R286), else what is next in its ordered queue, as in the cascade of
R340 a child binds on another core than the one to which it is delivered (assumption 21). -/
def State.stealable (s : State) (v region : Nat) (r : Region) : Option (InMsg × Bool) :=
  match (s.core v).deque.reverse.find? fun i => s.postRegion v i.msg.post = some region with
  | some i => some (i, true)
  | none => if r.emode = 3 then s.leastKey r (s.orderedQueue v region) else none

/-- STEAL REQUEST (R286): the victim answers with a message of the region. -/
def execStealRequest (x : EvSteal) (s : State) : Out :=
  let n := ((s.core x.core).stealOf x.region).1
  let s := s.modCore x.core fun y => { y with steals := aset x.region (n + 1, s.gt + s.cyclesNs x.core 512) y.steals }
  match s.region? x.region with
  | none => .next s
  | some r =>
    let l := s.victims r x.core
    match (if s.idleFor x.core x.region then l[n % max 1 l.length]? else none) with
    | none => .next s
    | some v =>
      match s.stealable v x.region r with
      | none => .next s
      | some (i, deque) =>
        let s := s.modCore v fun z =>
          if deque then { z with deque := (z.deque.reverse.erase i).reverse } else { z with inbox := z.inbox.erase i }
        .next (s.push [.messageArrival ⟨x.core, i.msg, none, true, i.mark⟩])

end Sys2Proof.Machine
end

