-- ==== Sys2Proof/Machine/Clear.lean ====
section
/-! DEFINITION. Consignments from their end on: clearing (R324, R325), drops and redelivery (R326 to R328), the hashes of a pair
(R331, R332), write intents (R335) and overflow (R340). -/

namespace Sys2Proof.Machine

def State.modCons (s : State) (c k : Nat) (f : Consign → Consign) : State := s.modThread c k fun t => { t with cons := t.cons.map f }

/-! ### The order of entries (R324) -/

/-- The place of an entry in the order of clearing: AM 0 by address, then local entries by logical core and offset. -/
def SectEntry.rank (e : SectEntry) : Nat :=
  match e.place with
  | .mem sec | .sh sec => sec
  | .loc _ sec => 2 ^ 64 + e.lcn * 2 ^ 24 + sec

def Consign.sorted (x : Consign) : List SectEntry := x.sects.mergeSort fun a b => a.rank ≤ b.rank

/-- The key with which an ordered activation's writes are judged (R335). -/
def Consign.writeKey (x : Consign) (region : Nat) : Option (Nat × Key) := if x.mode = 3 then some (region, x.order) else none

/-! ### Prepare, commit, release (R324) -/

/-- Clearing begins: the first entry is prepared, or an empty consignment clears at once. -/
def State.beginClear (s : State) (c k : Nat) : State :=
  let s := s.modCons c k fun x => { x with phase := .clearing 0 }
  match (s.thread? c k).bind (·.cons) with
  | some x => s.push [if x.sects.isEmpty then .commit ⟨c, k⟩ else .prep ⟨c, k, 0⟩]
  | none => s

/-- The outcome of a PREP. -/
inductive PrepRes where
  | ok (s : State)
  | waits (s : State)

/-- An entry reaches its home or interface: the sector's holders leave, and later requests wait (R324). -/
def State.prepEntry (s : State) (c k : Nat) (t : Thread) (x : Consign) (e : SectEntry) : PrepRes :=
  let w := s.who c k t
  match e.place with
  | .mem sec =>
    match s.ladSee w (64 * sec) with
    | .other i => .waits (s.ladWait w.p i none)
    | see =>
      let s := if see = .none then s else s.evict w.p w.core sec true false
      if !s.homeFree w.p sec || ((s.entry w.p (sec / 4)).tu && s.tuHeld (sec / 4) (some ((c, k), 0))) then .waits s
      else
        let s := ((s.hostGet w.p sec true).biSnoop w.p sec).beforeWrite w.p sec (x.writeKey t.region)
        let s := s.recall w.p sec true none
        .ok (s.modEntry w.p (sec / 4) fun d => d.setSec (sec % 4) { d.sec (sec % 4) with prep := some (c, k) })
  | .sh _ => .ok s
  | .loc d sec =>
    let away := clusterOf d ≠ clusterOf c
    let held := (List.range 64).any fun i => e.mask.getLsbD i && s.chanWaits d (64 * sec + i) 1
    if s.spHeld d (64 * sec) 64 || (away && held) then .waits s
    else
      let s := s.abortReaders (hitReaders (s.core d).readers (sec / 4) (sec % 4) (x.writeKey t.region))
      .ok (s.modCore d fun y => { y with prepped := y.prepped ++ [(sec, (c, k))] })

/-- The sectors that a clearing has prepared are free again. -/
def State.unprep (s : State) (c k : Nat) (e : SectEntry) : State :=
  match e.place with
  | .mem sec => s.modEntry (s.partOf c) (sec / 4) fun d =>
      let h := d.sec (sec % 4)
      if h.prep = some (c, k) then d.setSec (sec % 4) { h with prep := none } else d
  | .sh _ => s
  | .loc d _ => s.modCore d fun y => { y with prepped := y.prepped.filter fun p => p.2 ≠ (c, k) }

/-- What an entry writes over the bytes of its sector: its bits, then the writes that only the owner can apply (R153, R170). -/
def SectEntry.applyTo (e : SectEntry) (old : V512) : V512 :=
  e.after.foldl (fun v h => match h with
    | .bits data bits => mergeBits v data bits
    | .rmw o act => mergeSector v (runData o (remoteNew act (sectorPart v o act.len))) (runMask o act.len)) (mergeBits old e.data e.bits)

/-- An entry's bytes are applied (R324), its readers judged as it was prepared (R335); those beyond the scratchpad of another core are dropped with a record (R129). -/
def State.commitEntry (s : State) (c : Nat) (t : Thread) (e : SectEntry) : State :=
  match e.place with
  | .mem sec => s.homeStore (s.partOf c) sec none (e.applyTo (memSector s.mem (64 * sec))) e.mask
  | .sh sec =>
    let s := if e.mask = BitVec.allOnes 64 then s.setPoison sec none else s
    { s with mem := memMerge s.mem (64 * sec) (e.applyTo (memSector s.mem (64 * sec))) e.mask }
  | .loc d sec =>
    let old := BitVec.ofNat 512 (memNat (s.core d).sp (64 * sec) 64)
    let size := (s.core d).spsz
    let inside := (List.range 64).filter fun i => 64 * sec + i < size
    let new := mergeSector old (e.applyTo old) (inside.foldl (fun m i => m ||| (1#64 <<< i)) 0 &&& e.mask)
    let s := s.modCore d fun y =>
      { y.spPut (64 * sec) ((sectorBytes new).take inside.length) with spBad := if e.mask = BitVec.allOnes 64 then y.spBad.filter (· ≠ sec) else y.spBad }
    if (List.range 64).any fun i => e.mask.getLsbD i && size ≤ 64 * sec + i then
      let i : TrapInfo := ⟨0x19, 0, .lead, if e.bits = 0 then 2 else 1, 0, 0, 0, 0, BitVec.ofNat 64 (packFields [(0, 18, e.lcn), (32, 32, 1)]), 0⟩
      (s.appendRec c t.region (recFields s d t.tid i false) [] none none).2
    else s

/-- The held operations start in issue order, each ordered after the unit and after what the activation has outstanding, as if its PMASK named
every stream (R123, R124); a child that was delivered already is confirmed. -/
def State.startHeld (s : State) (c k : Nat) (l : List HeldMsg) : State :=
  l.foldl (fun s h =>
    match s.thread? c k with
    | none => s
    | some t =>
      if h.child then s
      else
        let o : Op := ⟨t.nextOp, t.issued, none, 0xFF, 2, t.edges 0xFF t.issued, h.pc, h.iword, h.what, none, none, false, none⟩
        (s.setThread c k (t.addOp o)).push [.streamOperationComplete ⟨c, k, o.id⟩]) s

/-- The next unit of the clearing queue may start (R338); after the last F is taken again over what remains (R424). -/
def State.nextUnit (s : State) (region : Nat) (done : Nat × Nat) : State :=
  match s.region? region with
  | none => s
  | some r =>
    let q := r.clearq.filter (· ≠ done)
    let s := s.modRegion region fun r => { r with clearq := q }
    match q with
    | e :: _ => s.push [.clearing ⟨e.1, e.2⟩]
    | [] => s.takeFrontier region

/-- The tag that an activation owns is cleared with it (R336). -/
def State.clearTag (s : State) (p : Nat) (tag : BitVec 16) : State :=
  s.modPart p fun q => { q with tags := q.tags.map fun e => if tag ≠ 0 && e.1 = tag.toNat then (e.1, { e.2 with st := .cleared }) else e }

/-- Release (R324, R325): the held entries start, the message's inbox entry and the records go, the tag is cleared, a pair's partner is
freed; an early clearing goes on with an empty consignment (R340). -/
def State.releaseCons (s : State) (c k : Nat) (t : Thread) (x : Consign) : State :=
  let s := s.modRegion t.region fun r => if x.mode = 3 then { r with lastCleared := some x.order } else r
  let done := fun (s : State) => if x.mode = 3 then s.nextUnit t.region (c, k) else s
  let p := s.partOf c
  let s := s.clearTag p x.tag
  if x.overflow then
    let phase := if !t.ending then ConsPhase.running else if x.mode = 3 then .released else .ended
    let s := s.modCons c k fun y =>
      { y with sects := [], msgs := [], early := true, overflow := false, phase := phase, spec := false, demote := x.mode = 3 }
    let s := if t.ending && x.mode = 3 then (s.freeEntry c t none).dropReaders c t else s
    let s := s.modRegion t.region fun r => { r with ovfclr := r.ovfclr || x.mode ≠ 3 }
    done (s.startHeld c k x.msgs)
  else
    let s := ((s.freeEntry c t none).dropReaders c t).modCons c k fun y => { y with sects := [], msgs := [], phase := .released }
    let s := s.startHeld c k x.msgs
    let s := match s.otherCopy x with
      | some e => if x.mode = 2 then (s.discardCons e.1.1 e.1.2).tryFree e.1.1 e.1.2 else s
      | none => s
    done ((s.freeTags p).tryFree c k)

/-- COMMIT (R324): every prepared sector takes its bytes as one unit, then the wakes and the held operations follow. -/
def execCommit (x : EvThread) (s : State) : Out :=
  match s.thread? x.core x.slot with
  | none => .next s
  | some t =>
    match t.cons with
    | none => .next s
    | some y =>
      if !(y.phase matches .clearing _) then .next s
      else
        let s := y.sorted.foldl (fun s e => s.unprep x.core x.slot e) s
        let s := y.sorted.foldl (fun s e => s.commitEntry x.core t e) s
        .next (s.releaseCons x.core x.slot t y)

/-! ### Redelivery (R326 to R328) -/

/-- Both copies of a pair, or the activation alone, are discarded without clearing; the message's entry holds what is kept. -/
def State.dropBoth (s : State) (c k : Nat) (x : Consign) (keep : Option InMsg) : State :=
  let other := s.otherCopy x
  let unprep := fun (s : State) => x.sects.foldl (fun s e => s.unprep c k e) s
  let mine := if x.copy then none else keep
  let s := (((unprep s).dropCopy x).dropActivation c k mine).killTag (s.partOf c) x.tag
  match other with
  | some e => s.dropActivation e.1.1 e.1.2 (if x.copy then keep else none)
  | none => s

/-- The message of a dropped activation, as it is redelivered; `count` says that the redelivery counts (R326, R328). -/
def InMsg.again (i : InMsg) (count : Bool) : InMsg :=
  { i with msg := i.msg.redeliver, kept := false, mark := { i.mark with redlv := if count then i.mark.redlv + 1 else i.mark.redlv, pair := none } }

/-- The message of an activation, or of its pair's primary. -/
def State.keptMsg (s : State) (x : Consign) : InMsg :=
  if x.copy then ((s.otherCopy x).bind fun e => e.2.cons).elim x.trig (·.trig) else x.trig

/-- A record about a discarded message, which counts in DISC (R326, R327, R366). -/
def State.lostMsg (s : State) (c : Nat) (t : Thread) (cause : BitVec 8) (i : InMsg) : State :=
  let aux1 := BitVec.ofNat 64 (packFields [(0, 32, i.msg.srcTid.toNat), (32, 6, i.msg.post)])
  let info : TrapInfo := ⟨cause, 0, .lead, 7, 0, 0, 0, 0, aux1, BitVec.ofNat 64 i.msg.ts⟩
  let s := s.modRegion t.region fun r => { r with disc := r.disc + 1 }
  (s.appendRec c t.region (recFields s c (if i.msg.kind = 3 then 0 else t.tid) info false) [] none none).2

/-- A drop (R326 to R328): the message is redelivered, or discarded after an early clearing or a fourth drop. -/
def State.dropCons (s : State) (c k : Nat) (count : Bool) : State :=
  match s.thread? c k with
  | none => s
  | some t =>
    match t.cons with
    | none => s
    | some x =>
      let i := s.keptMsg x
      if x.early then (s.dropBoth c k x none).lostMsg c t 0x30 i
      else if count && 3 ≤ i.mark.redlv then (s.dropBoth c k x none).lostMsg c t 0x32 i
      else s.dropBoth c k x (some (i.again count))

/-- CONSIGNMENT DROP (R326). -/
def execConsignmentDrop (x : EvDrop) (s : State) : Out :=
  match (s.thread? x.core x.slot).bind (·.cons) with
  | some y =>
    let t := s.thread? x.core x.slot
    let s := s.report (some (s.partOf x.core)) ⟨2, x.bad.kind, some x.bad.sec, x.va, t.elim 0 (·.tid), x.core, t.map (·.region)⟩
    if y.demote then .next s else .next (s.dropCons x.core x.slot true)
  | none => .next s

/-- The sector that a place names. -/
def placeSec : Place → ErrSec
  | .mem sec | .sh sec => .mem sec
  | .loc c sec => .sp c sec

/-- PREP (R324): the entry is prepared, and the next one, or the commit, follows; it waits for another clearing of the sector. An uncorrectable error
that has hit the entry drops the consignment (R326). -/
def execPrep (x : EvPrep) (s : State) : Out :=
  match s.thread? x.core x.slot with
  | none => .next s
  | some t =>
    match t.cons with
    | none => .next s
    | some y =>
      match y.sorted[x.idx]? with
      | none => .next s
      | some e =>
        if y.phase != .clearing x.idx then .next s
        else if e.bad then .next (s.push [.consignmentDrop ⟨x.core, x.slot, none, ⟨3, placeSec e.place⟩⟩])
        else
        match s.prepEntry x.core x.slot t y e with
        | .waits s => .next { s with later := s.later ++ [.prep x] }
        | .ok s =>
          let s := s.modCons x.core x.slot fun z => { z with phase := .clearing (x.idx + 1) }
          .next (s.push [if x.idx + 1 < y.sects.length then .prep { x with idx := x.idx + 1 } else .commit ⟨x.core, x.slot⟩])

/-! ### The hashes of a pair (R331, R332) -/

/-- One bit of the CRC-64 of ECMA-182. -/
def crcBit (r : BitVec 64) : BitVec 64 := if r.getLsbD 63 then (r <<< 1) ^^^ 0x42F0E1EBA9EA3693#64 else r <<< 1

/-- The CRC over bytes, from its initial value to its final complement. -/
def crc64 (l : List Byte) : Word :=
  ~~~(l.foldl (fun (r : Word) (b : Byte) => (List.range 8).foldl (fun (r : Word) _ => crcBit r) (r ^^^ (b.setWidth 64) <<< 56)) (BitVec.allOnes 64))

/-- The 80 bytes of a sector record (R331). -/
def SectEntry.record (e : SectEntry) : List Byte :=
  let name := match e.place with
    | .mem sec | .sh sec => 64 * sec
    | .loc _ sec => 2 ^ 62 + e.lcn * 2 ^ 24 + 64 * sec
  toBytes 8 name ++ toBytes 8 e.mask.toNat ++ sectorBytes (mergeSector 0 e.data e.mask)

/-- The 80 bytes of a message record (R331). -/
def HeldMsg.record (h : HeldMsg) : List Byte :=
  let w := h.iword &&& ~~~(0xF#96 <<< 80)
  toBytes 8 (w.extractLsb' 32 64).toNat ++ toBytes 8 h.ga.toNat ++ toBytes 8 h.gb.toNat ++ toBytes 8 h.gc.toNat ++ toBytes 48 h.pay.toNat

def Consign.hashOf (x : Consign) : Word := crc64 ((x.sorted.flatMap (·.record)) ++ x.msgs.flatMap (·.record))

/-- The logical core that a pair's message was first sent to (R329). -/
def State.baseLcn (s : State) (r : Region) (i : InMsg) : Nat :=
  let l := (s.lcnOf r i.dest).getD 0
  match r.pairing with
  | some (_, o2, _) => if i.mark.second then s.pairAt r l ((s.paired r).length - o2) else l
  | none => l

/-- A message whose pair is discarded is sent on to a core (R329, R340): it is no longer consumed. -/
def State.resend (s : State) (t : Thread) (c k : Nat) (x : Consign) (core : Nat) (mark : MsgMark) : State :=
  let i := s.keptMsg x
  let s := s.dropBoth c k x none
  let s := if i.mark.region = 0 then s else s.modRegion t.region fun r => { r with consumed := r.consumed - 1 }
  s.push [.messageArrival ⟨core, i.msg.redeliver, none, false, { mark with region := i.mark.region }⟩]

/-- HASH ARRIVAL (R332): a match lets the primary clear; the first mismatch sends the message to the second pair, the second discards it
and marks that pair's cores. -/
def execHashArrival (x : EvHash) (s : State) : Out :=
  match s.thread? x.core x.slot with
  | none => .next s
  | some t =>
    match t.cons, s.region? t.region with
    | some y, some r =>
      match y.hash with
      | none => .next s
      | some h =>
        if h = x.hash then .next ((s.modCons x.core x.slot fun y => { y with matched := true }).push [.clearing ⟨x.core, x.slot⟩])
        else
          let base := s.baseLcn r y.trig
          match r.pairing with
          | none => .next s
          | some (o1, o2, o3) =>
            let next := s.pairAt r base
            if !y.trig.mark.second then
              .next (s.resend t x.core x.slot y ((s.origOf r (next o2)).getD x.core) { y.trig.mark with second := true, pair := none })
            else
              let two := [next o2, next o3]
              let aux1 := BitVec.ofNat 64 (packFields [(0, 18, base), (32, 18, next o1)])
              let aux2 := BitVec.ofNat 64 (packFields [(0, 18, next o2), (32, 18, next o3)])
              let info : TrapInfo := ⟨0x31, 0, .lead, 7, 0, 0, 0, 0, aux1, aux2⟩
              let s := (s.dropBoth x.core x.slot y none).modRegion t.region fun r => { r with disc := r.disc + 1 }
              let s := two.foldl (fun s l => match s.origOf r l with
                | some c => s.modCore c fun z => { z with suspect := true }
                | none => s) s
              .next (s.appendRec x.core t.region (recFields s x.core (if y.trig.msg.kind = 3 then 0 else t.tid) info false) [] none none).2
    | _, _ => .next s

/-! ### Clearing in its turn (R325, R332, R338) -/

/-- Each copy of a pair that has ended hashes its consignment; the primary takes the partner's once both have (R331, R332). -/
def State.pairEnded (s : State) (c k : Nat) (x : Consign) : State :=
  let h := x.hashOf
  let s := s.modCons c k fun y => { y with hash := some h }
  match s.otherCopy x with
  | none => s
  | some e =>
    match e.2.cons.bind (·.hash) with
    | none => s
    | some g => s.push [if x.copy then .hashArrival ⟨e.1.1, e.1.2, h⟩ else .hashArrival ⟨c, k, g⟩]

/-- CLEARING (R324, R325): a consignment whose turn it is begins to clear. -/
def execClearing (x : EvThread) (s : State) : Out :=
  match s.thread? x.core x.slot with
  | none => .next s
  | some t =>
    match t.cons with
    | none => .next s
    | some y =>
      let ready := (y.phase == .ended && t.ops.isEmpty) || (y.takes && y.overflow)
      let first := (s.region? t.region).elim false fun r => r.clearq.head? = some (x.core, x.slot)
      if !ready then .next s
      else if y.mode = 1 then .next (s.beginClear x.core x.slot)
      else if y.mode = 2 then
        if y.matched && !y.copy then .next (s.beginClear x.core x.slot)
        else if y.hash.isSome then .next s
        else .next (s.pairEnded x.core x.slot y)
      else if first then .next (s.beginClear x.core x.slot)
      else .next s

/-- CONSIGNMENT OVERFLOW (R340). -/
def execConsignmentOverflow (x : EvThread) (s : State) : Out :=
  match s.thread? x.core x.slot with
  | none => .next s
  | some t =>
    match t.cons, s.region? t.region with
    | some y, some r =>
      if !y.overflow || !y.takes then .next s
      else if y.mode = 1 then .next (s.beginClear x.core x.slot)
      else if y.mode = 2 then
        let core := (s.origOf r (s.baseLcn r (s.keptMsg y))).getD x.core
        let s := s.modRegion t.region fun r => { r with rerun := true }
        .next (s.resend t x.core x.slot y core { y.trig.mark with second := false, force := true, pair := none })
      else .next s
    | _, _ => .next s

/-- WRITE INTENT (R335): the readers of the region with later keys are aborted. -/
def execWriteIntent (x : EvIntent) (s : State) : Out :=
  let hit := fun (rs : List Reader) (sec : Nat) =>
    hitReaders (rs.filter fun r => r.region = x.region) (sec / 4) (sec % 4) (some (x.region, x.key))
  match x.place with
  | .mem sec => .next (s.abortReaders (hit ((s.part? ((s.region? x.region).elim 0 (·.part))).elim [] (·.readers)) sec))
  | .loc c sec => .next (s.abortReaders (hit (s.core c).readers sec))
  | .sh _ => .next s

end Sys2Proof.Machine
end

