-- ==== Sys2Proof/Machine/Host.lean ====
section
/-! DEFINITION. The front end's queues (R380 to R391, R394): function registers, QCBs, notifies, the fetch of commands, slots and quotas, their
dispatch and their completion. -/

namespace Sys2Proof.Machine

/-! ### Functions and their memory -/

def State.fn (s : State) (f : Nat) : Fn := (alook f s.fns).getD .reset

def State.modFn (s : State) (f : Nat) (g : Fn → Fn) : State := { s with fns := aset f (g (s.fn f)) s.fns }

def State.queue? (s : State) (f q : Nat) : Option Queue := alook q (s.fn f).queues

def State.setQueue (s : State) (f q : Nat) (x : Queue) : State := s.modFn f fun y => { y with queues := aset q x y.queues }

def State.modQueue (s : State) (f q : Nat) (g : Queue → Queue) : State :=
  match s.queue? f q with
  | some x => s.setQueue f q (g x)
  | none => s

/-- The tenant tag of a function (R381). -/
def State.fnTag (s : State) (f : Nat) : BitVec 16 := tenantTag f (s.fn f).part

/-- A function reaches bytes at an address: of the host with bit 63 set, else of a window of its partition (R383). -/
def State.fnReach (s : State) (f : Nat) (a : Word) (n : Nat) : Bool :=
  if a.getLsbD 63 then a.extractLsb' 51 12 = 0 && decide ((a.extractLsb' 0 51).toNat + n ≤ 2 ^ 51)
  else (s.part? (s.fn f).part).elim false fun p => p.windows.any fun w => inWindow w a.toNat && decide (a.toNat + n ≤ w.base + w.size)

/-- A function's read of memory; zeros where it reaches nothing. -/
def State.fnRead (s : State) (f : Nat) (a : Word) (n : Nat) : List Byte × State :=
  if !s.fnReach f a n then (List.replicate n 0, s)
  else if a.getLsbD 63 then s.hostRead (a.extractLsb' 0 51).toNat n
  else s.homeReadBytes (s.fn f).part a.toNat n

/-- A function's write of memory, with its wakes. -/
def State.fnWrite (s : State) (f : Nat) (a : Word) (bs : List Byte) : State :=
  if !s.fnReach f a bs.length then s
  else if a.getLsbD 63 then s.hostWrite (a.extractLsb' 0 51).toNat bs
  else s.homeWriteBytes (s.fn f).part a.toNat bs none

/-! ### Slots (R382) -/

def State.slot? (s : State) (f q idx : Nat) : Option CmdSlot := (s.queue? f q).bind fun x => x.slots.find? fun y => y.sealed && y.idx = idx

def State.modSlot (s : State) (f q idx : Nat) (g : CmdSlot → CmdSlot) : State :=
  s.modQueue f q fun x => { x with slots := x.slots.map fun y => if y.sealed && y.idx = idx then g y else y }

/-- The slots that a function occupies. -/
def Fn.busy (x : Fn) : Nat := (x.queues.map fun e => e.2.slots.countP (·.held)).sum

/-- A command's work is done: its completion follows (R389). -/
def State.finishCmd (s : State) (f q idx status detail disp disc : Nat) : State :=
  (s.modSlot f q idx fun y => { y with st := .done status detail disp disc }).push [.completionWrite ⟨f, q, idx⟩]

/-! ### The fields of a command (R386) -/

def cmdBits (c : BitVec 1024) (lo n : Nat) : Nat := (c.extractLsb' lo n).toNat
def cmdOp (c : BitVec 1024) : Nat := cmdBits c 0 8
def cmdCpl (c : BitVec 1024) : Bool := c.getLsbD 8
def cmdIrq (c : BitVec 1024) : Bool := c.getLsbD 9
def cmdWait (c : BitVec 1024) : Bool := c.getLsbD 10
def cmdSig (c : BitVec 1024) : Bool := c.getLsbD 11

/-- Argument dword i (assumption 30). -/
def cmdArg (c : BitVec 1024) (i : Nat) : Nat := cmdBits c (256 + 64 * i) 64

/-- A reserved bit of the command, or an argument bit outside the fields named, is set. -/
def cmdReserved (c : BitVec 1024) (fields : List (Nat × Nat)) : Bool :=
  cmdBits c 12 4 ≠ 0 || cmdBits c 48 16 ≠ 0 ||
    (c.extractLsb' 256 752 &&& ~~~(fields.foldl (fun m x => m ||| ((BitVec.allOnes 752 >>> (752 - x.2)) <<< x.1)) 0)) ≠ 0

/-- SEQ and CHK hold for the entry of an index (R386, R388). -/
def cmdSealed (bs : List Byte) (idx log2d : Nat) : Bool :=
  let sum := (bs.take 127).foldl (fun a b => a + b.toNat) 0
  (bs.getD 126 0).toNat = idx / 2 ^ log2d % 256 && (bs.getD 127 0).toNat = 255 - sum % 256

/-! ### QCBs (R383 to R385) -/

/-- A copy of a QCB with GEN and CHK in order: its fields, or none when a field is not as it must be. -/
def qcbOf (bs : List Byte) : Option Qcb :=
  let w := ofBytes bs
  let f := fun (lo n : Nat) => w / 2 ^ lo % 2 ^ n
  let lg := fun (v : Nat) => if v = 0 then 16 else v
  let d := lg (f 128 4)
  let c := lg (f 132 4)
  let low := fun (a : Nat) => a % 2 ^ 63
  if f 145 47 ≠ 0 || f 256 256 ≠ 0 || f 136 2 = 3 || d < 4 || c < 4 || low (f 0 64) % (128 * 2 ^ d) ≠ 0 || low (f 64 64) % (32 * 2 ^ c) ≠ 0 then none
  else some ⟨BitVec.ofNat 64 (f 0 64), BitVec.ofNat 64 (f 64 64), d, c, f 136 2, f 138 6, w.testBit 144, f 192 56⟩

/-- CHK of a copy holds. -/
def qcbChk (bs : List Byte) : Bool := (bs.getD 31 0).toNat = 255 - ((bs.take 31).foldl (fun a b => a + b.toNat) 0) % 256

/-- QSTATE is written (R383). -/
def State.putQState (s : State) (f q : Nat) (st : QState) : State :=
  match s.queue? f q with
  | some x => (s.setQueue f q { x with st := st }).fnWrite f (x.addr + 16) (toBytes 8 st.code)
  | none => s

/-- A queue that drains is destroyed once its slots are free (R394). -/
def State.checkDrained (s : State) (f q : Nat) : State :=
  match s.queue? f q with
  | some x =>
    if x.st == .draining && x.slots.isEmpty then
      let s := s.putQState f q .destroyed
      x.destroyers.foldl (fun s d => s.finishCmd f d.1 d.2 0 0 0 0) s
    else s
  | none => s

/-- The parts of a LAUNCH that are not delivered are discarded (R394): they count as consumed and in DISC. -/
def State.dropParts (s : State) (f q : Nat) (y : CmdSlot) : State :=
  let n := cmdBits y.cmd 384 8
  if cmdOp y.cmd = 1 && y.st == .running && 0 < y.step && y.step < n then
    let lost := n - y.step
    let s := s.modRegion (cmdArg y.cmd 0) fun r => { r with consumed := r.consumed + lost, disc := r.disc + lost }
    s.modSlot f q y.idx fun z => { z with step := n, disc := lost }
  else s

/-- A queue begins to drain (R394). -/
def State.startDrain (s : State) (f q : Nat) : State :=
  match s.queue? f q with
  | some x =>
    if x.st == .draining || x.st == .destroyed then s
    else
      let s := s.putQState f q .draining
      let s := x.slots.foldl (fun s y =>
        match y.st with
        | .fetched => s.finishCmd f q y.idx 7 0 0 0
        | _ => s.dropParts f q y) s
      s.checkDrained f q
  | none => s

/-- A copy comes into force, with what its REQ asks for (R384, R385, R388). -/
def State.acceptCopy (s : State) (f q : Nat) (x : Queue) (c : Qcb) : State :=
  let first := x.copy.isNone
  let s := s.setQueue f q { x with copy := some c, creator := none }
  let s := match x.creator with
    | some (cq, ci) => s.finishCmd f cq ci 0 0 0 0
    | none => s
  match c.req, x.st with
  | _, .draining | _, .destroyed | 0, .active => s
  | 2, _ => s.startDrain f q
  | 1, .error => if first then s.putQState f q .paused else s
  | 1, _ => s.putQState f q .paused
  | _, st => ((s.putQState f q .active).modQueue f q fun x => if st == .error then { x with tries := 0, fetchAt := 0 } else x).push [.commandFetch ⟨f, q⟩]

/-- The front end reads the selector (R384): copy SEL comes into force when its GEN is the selector's and CHK holds. -/
def State.pollQcb (s : State) (f q : Nat) : State :=
  match s.queue? f q with
  | none => s
  | some x =>
    if x.st == .draining || x.st == .destroyed then s
    else
      let s := s.setQueue f q { x with pollAt := s.gt + 100000 }
      let (sel, s) := s.fnRead f x.addr 8
      let w := ofBytes sel
      let (bs, s) := s.fnRead f (x.addr + BitVec.ofNat 64 (64 + 64 * (w % 2))) 64
      let gen := ofBytes bs / 2 ^ 192 % 2 ^ 56
      if gen ≠ w / 256 || !qcbChk bs || x.copy.any (fun c => c.gen = gen) then s
      else
        match qcbOf bs with
        | none => s.putQState f q .error
        | some c => s.acceptCopy f q { x with pollAt := s.gt + 100000 } c

/-- QCB POLL (R384). -/
def execQcbPoll (x : EvQueue) (s : State) : Out := .next (s.pollQcb x.fn x.q)

/-- A queue begins with its QCB read: it is paused until a copy is accepted (R385). -/
def State.createQueue (s : State) (f q : Nat) (addr : Word) (creator : Option (Nat × Nat)) : State :=
  let s := s.setQueue f q ⟨addr, none, 0, 0, .paused, 0, 0, 0, [], creator, [], 0⟩
  let s := (s.putQState f q .paused).fnWrite f (addr + 8) (toBytes 8 0)
  s.pollQcb f q

/-! ### Notifies and registers (R380, R385, R387, R390) -/

/-- What a read of an aligned dword of BAR0 returns (R5, R380): NOTIFY is write only and reads as zero. -/
def Fn.barRead (x : Fn) (off : Nat) : Word :=
  if off = 0x800 then x.admqcb
  else if 0x1000 ≤ off && off < 0x1400 then
    let e := (alook (off % 0x400 / 16) x.msix).getD ⟨0, 0, 1⟩
    if off % 16 < 8 then e.addr else BitVec.ofNat 64 (packFields [(0, 32, e.data.toNat), (32, 32, e.ctl.toNat)])
  else if off = 0x1800 then x.pba
  else 0

/-- A read of BAR0: all ones once Customs has halted the module (R420). -/
def State.barRead (s : State) (f off : Nat) : Word := if s.ras.halted then BitVec.allOnes 64 else (s.fn f).barRead off

/-- NOTIFY (R387). An entry that is to be fetched again is so after its 1 µs (R388). -/
def execNotify (x : EvNotify) (s : State) : Out :=
  if (s.fn x.fn).resetting then .next s
  else
    let s := s.pollQcb x.fn x.q
    match s.queue? x.fn x.q with
    | none => .next s
    | some y =>
      match y.copy with
      | none => .next s
      | some c =>
        let ahead := fun (v : Nat) => (v + 2 ^ 32 - y.cidx % 2 ^ 32) % 2 ^ 32
        if y.st == .active && ahead x.v.toNat ≤ 2 ^ c.log2d && ahead y.pidx < ahead x.v.toNat then
          .next ((s.setQueue x.fn x.q { y with pidx := x.v.toNat }).push (if y.tries = 0 then [.commandFetch ⟨x.fn, x.q⟩] else []))
        else .next s

/-- ADMQCB written with a nonzero value (R385). -/
def execAdmqcbCreate (x : EvReg) (s : State) : Out :=
  let live := (s.queue? x.fn 0).any fun y => y.st != .destroyed
  if live || (s.fn x.fn).resetting || x.v = 0 then .next s
  else .next ((s.modFn x.fn fun y => { y with admqcb := x.v &&& ~~~63#64 }).createQueue x.fn 0 (x.v &&& ~~~63#64) none)

/-- ADMQCB written with zero (R385, R394). -/
def execAdmqcbDestroy (x : EvFn) (s : State) : Out :=
  if (s.queue? x.fn 0).any fun y => y.st != .destroyed then .next ((s.modFn x.fn fun y => { y with admqcb := 0 }).startDrain x.fn 0)
  else .next (s.modFn x.fn fun y => { y with admqcb := 0 })

/-- An MSI-X entry; its reset value is PCIe's: masked. -/
def Fn.msixAt (x : Fn) (v : Nat) : MsixEntry := (alook v x.msix).getD ⟨0, 0, 1⟩

/-- The host port on which a function's traffic at an address goes out (R380): those assigned to its partition take turns by 4 KiB. -/
def State.hostPort (s : State) (f : Nat) (a : Word) : Nat :=
  let l := (s.part? (s.fn f).part).elim [] (·.hports)
  l.getD ((a.extractLsb' 12 39).toNat % max 1 l.length) 0

/-- A vector is signalled (R390): the write leaves on a port, or the pending bit of a masked vector is set; a function in reset sends none (R397). -/
def State.signalVec (s : State) (f v : Nat) (port : Word → Nat := s.hostPort f) : State :=
  let e := (s.fn f).msixAt v
  if (s.fn f).resetting then s
  else if e.ctl.getLsbD 0 then s.modFn f fun y => { y with pba := y.pba ||| (1#64 <<< v) }
  else { (s.modFn f fun y => { y with pba := y.pba &&& ~~~(1#64 <<< v) }) with msis := s.msis ++ [⟨port e.addr, f, v, e.addr, e.data, s.fnTag f⟩] }

/-- Half of a 64-bit register is replaced. -/
def putHalf (old v : Word) (upper : Bool) : Word :=
  if upper then (old &&& 0xFFFFFFFF#64) ||| (v <<< 32) else (old &&& ~~~0xFFFFFFFF#64) ||| (v &&& 0xFFFFFFFF#64)

/-- A write of 64 or 32 bits at an offset of an MSI-X entry (PCIe). -/
def MsixEntry.put (e : MsixEntry) (off : Nat) (v : Word) (wide : Bool) : MsixEntry :=
  let lo := v.extractLsb' 0 32
  if wide then (if off = 0 then { e with addr := v } else { e with data := lo, ctl := v.extractLsb' 32 32 })
  else if off < 8 then { e with addr := putHalf e.addr v (off = 4) } else if off = 8 then { e with data := lo } else { e with ctl := lo }

/-- REGISTER WRITE (R380): NOTIFY, whose upper bits are ignored, ADMQCB, whole or by halves, or the MSI-X table, where unmasking sends what is
pending. -/
def execRegisterWrite (x : EvReg) (s : State) : Out :=
  if x.off < 0x800 && x.off % 8 = 0 then .next (s.push [.notify ⟨x.fn, x.off / 8, x.v.setWidth 32⟩])
  else if x.off = 0x800 || (x.off = 0x804 && !x.wide) then
    let v := if x.wide then x.v else putHalf (s.fn x.fn).admqcb x.v (x.off = 0x804)
    .next (s.push [if v = 0 then .admqcbDestroy ⟨x.fn⟩ else .admqcbCreate ⟨x.fn, 0x800, v, true⟩])
  else if 0x1000 ≤ x.off && x.off < 0x1400 && x.off % (if x.wide then 8 else 4) = 0 then
    let v := (x.off - 0x1000) / 16
    let e' := ((s.fn x.fn).msixAt v).put (x.off % 16) x.v x.wide
    let s := s.modFn x.fn fun y => { y with msix := aset v e' y.msix }
    .next (if !e'.ctl.getLsbD 0 && (s.fn x.fn).pba.getLsbD v then s.signalVec x.fn v else s)
  else .next s

/-! ### Fetch (R382, R388) -/

/-- The commands of a function that wait at a counter are tried again. -/
def State.retryWaits (s : State) (f : Nat) : State :=
  s.push (((s.fn f).queues.filter fun e => e.2.slots.any fun y => y.st == .fetched).map fun e => .commandDispatch ⟨f, e.1⟩)

/-- The counters that a command names. -/
def cmdCounters (c : BitVec 1024) : List Nat :=
  (if cmdWait c then [cmdBits c 16 16] else []) ++ (if cmdSig c then [cmdBits c 32 16] else []) ++ (if cmdOp c = 0x0B then [cmdArg c 0] else [])

/-- A command names a counter at or above the quota (R382). -/
def Fn.overDq (x : Fn) (c : BitVec 1024) : Bool := (cmdCounters c).any fun i => decide (x.dq ≤ i)

/-- All functions together occupy the 16,384 slots that there are; a command needs a counter beyond the 65,536 (R381). -/
def State.slotsFull (s : State) : Bool := decide (16384 ≤ (s.fns.map (·.2.busy)).sum)

def State.countersFull (s : State) (f : Nat) (c : BitVec 1024) : Bool :=
  decide (65536 ≤ (s.fns.map (·.2.counters.length)).sum) && (cmdCounters c).any fun i => (alook i (s.fn f).counters).isNone

/-- A fetched entry takes a slot within the quota of slots, or is over quota; one that names a counter beyond its quota takes its slot too. -/
def State.enterCmd (s : State) (f q idx : Nat) (c : BitVec 1024) : State :=
  let x := s.fn f
  let none_ := decide (x.qq ≤ x.busy) || s.slotsFull
  let excess := none_ || x.overDq c || s.countersFull f c
  let y : CmdSlot := ⟨idx, c, .fetched, !none_, 0, 0, true⟩
  let s := s.modQueue f q fun z => { z with slots := z.slots ++ [y] }
  if excess then s.finishCmd f q idx 2 0 0 0 else s.push [.commandDispatch ⟨f, q⟩]

/-- COMMAND FETCH (R388): the entry at CIDX, judged by its seal; after nine failures the queue is in error. An entry that failed is not fetched before its
microsecond is over. -/
def execCommandFetch (x : EvQueue) (s : State) : Out :=
  match s.queue? x.fn x.q with
  | none => .next s
  | some y =>
    match y.copy with
    | none => .next s
    | some c =>
      if y.st != .active || s.gt < y.fetchAt || y.cidx % 2 ^ 32 = y.pidx || (s.fn x.fn).resetting || s.ras.noFetch || s.boot.recovery then .next s
      else
        let (bs, s) := s.fnRead x.fn (c.rbase + BitVec.ofNat 64 (128 * (y.cidx % 2 ^ c.log2d))) 128
        let w := BitVec.ofNat 1024 (ofBytes bs)
        if cmdSealed bs y.cidx c.log2d then
          let s := s.setQueue x.fn x.q { y with cidx := y.cidx + 1, tries := 0 }
          let s := s.fnWrite x.fn (y.addr + 8) (toBytes 8 (y.cidx + 1))
          .next ((s.enterCmd x.fn x.q y.cidx w).push [.commandFetch x])
        else if y.tries < 8 then
          .next ((s.setQueue x.fn x.q { y with tries := y.tries + 1, fetchAt := s.gt + 1000 }).timer (s.gt + 1000) (.commandFetch x))
        else
          let s := (s.setQueue x.fn x.q { y with tries := 0, slots := y.slots ++ [⟨y.cidx, w, .done 9 0 0 0, false, 0, 0, false⟩] }).putQState x.fn x.q .error
          .next (s.push [.completionWrite ⟨x.fn, x.q, y.cidx⟩])

/-! ### Dispatch (R386, R392) -/

/-- The event of a command; none for an undefined OP. -/
def cmdEvent (x : EvCmd) : Option Event :=
  match cmdOp x.cmd with
  | 0x00 => some (.nopCommand x)
  | 0x01 => some (.launch x)
  | 0x02 => some (.rrelease x)
  | 0x03 => some (if cmdBits x.cmd 320 2 = 0 then .preemptSwitch x else .preemptSpatial x)
  | 0x04 => some (.restore x)
  | 0x05 => some (.rprio x)
  | 0x06 => some (.postset x)
  | 0x07 => some (.tflush x)
  | 0x08 => some (.drover x)
  | 0x09 => some (.qcreate x)
  | 0x0A => some (.qdestroy x)
  | 0x0B => some (.signal x)
  | 0x0C => some (.mapq x)
  | 0x0D => some (.dirdump x)
  | 0x0E => some (.resize x)
  | _ => none

/-- Counter i of a function. -/
def Fn.counter (x : Fn) (i : Nat) : Word := (alook i x.counters).getD 0

/-- The WAIT of a command holds no longer (R386). -/
def Fn.goes (x : Fn) (c : BitVec 1024) : Bool := !cmdWait c || decide (cmdBits c 128 64 ≤ (x.counter (cmdBits c 16 16)).toNat)

/-- A queue among queues in the order of their numbers. -/
def insertQueue (e : Nat × Queue) : List (Nat × Queue) → List (Nat × Queue)
  | [] => [e]
  | x :: l => if e.1 ≤ x.1 then e :: x :: l else x :: insertQueue e l

/-- The ready commands of a function, by queue: the oldest of each that has not dispatched, once its WAIT holds (R386). -/
def Fn.ready (x : Fn) : List (Nat × CmdSlot) :=
  (x.queues.foldr insertQueue []).filterMap fun e =>
    ((e.2.slots.find? fun z => z.st == .fetched).filter fun z => x.goes z.cmd).map fun z => (e.1, z)

/-- The command of a function that dispatches next (R395): its tenant's plug-in chooses among the ready ones; without it they go in the order of the queues.
What a plug-in prefers is free (assumption 4). -/
def State.pickCmd (s : State) (f : Nat) : Option (Nat × CmdSlot) × State :=
  match (s.fn f).ready with
  | [] => (none, s)
  | a :: l => if l.isEmpty || !(s.fn f).plugin then (some a, s) else (some ((a :: l).getD (s.freeWord.1.toNat % (l.length + 1)) a), s.freeWord.2)

/-- COMMAND DISPATCH (R386): a ready command of the function runs; none of one that is in reset (R397). -/
def execCommandDispatch (x : EvQueue) (s : State) : Out :=
  if (s.fn x.fn).resetting then .next s
  else
    match s.pickCmd x.fn with
    | (none, s) => .next s
    | (some (q, y), s) =>
      let s := s.modSlot x.fn q y.idx fun z => { z with st := .running }
      let s := match cmdEvent ⟨x.fn, q, y.idx, y.cmd⟩ with
        | some e => s.push [e]
        | none => s.finishCmd x.fn q y.idx 1 0 0 0
      .next (s.push [.commandDispatch x])

/-- A command that runs: the checks of R392 and R393 that all share, then its own effect. `fields` are its argument bits. -/
def asCommand (x : EvCmd) (adm priv : Bool) (fields : List (Nat × Nat)) (s : State) (f : State → State) : Out :=
  match s.slot? x.fn x.q x.idx with
  | none => .next s
  | some y =>
    if y.st != .running || (s.fn x.fn).resetting then .next s
    else if adm && x.q ≠ 0 then .next (s.finishCmd x.fn x.q x.idx 1 0 0 0)
    else if priv && x.fn ≠ 0 then .next (s.finishCmd x.fn x.q x.idx 6 0 0 0)
    else if cmdReserved x.cmd fields then .next (s.finishCmd x.fn x.q x.idx 4 0 0 0)
    else .next (f s)

/-- The command ends with a status. -/
def State.endCmd (s : State) (x : EvCmd) (status : Nat) (detail : Nat := 0) : State := s.finishCmd x.fn x.q x.idx status detail 0 0

/-! ### Completion (R386, R389, R390) -/

/-- A completion entry. -/
def cplBytes (c : BitVec 1024) (idx n log2c status detail disp disc gt : Nat) : List Byte :=
  toBytes 32 (packFields [(0, 64, cmdBits c 64 64), (64, 8, status), (72, 8, detail), (80, 1, bitN (n / 2 ^ log2c % 2 = 0)), (96, 32, idx),
    (128, 32, disp), (160, 32, disc), (192, 64, gt)])

/-- The slot of a completed command is free; the SIG addition has performed, and what waits goes on. -/
def State.freeSlot (s : State) (f q : Nat) (y : CmdSlot) (status : Nat) : State :=
  let s := s.modQueue f q fun x => { x with slots := x.slots.filter fun z => z.idx ≠ y.idx || z.sealed ≠ y.sealed }
  let s := if cmdSig y.cmd && status ≠ 2 && status ≠ 9 then
      let i := cmdBits y.cmd 32 16
      s.modFn f fun x => { x with counters := aset i (x.counter i + BitVec.ofNat 64 (cmdBits y.cmd 192 64)) x.counters }
    else s
  (s.retryWaits f).checkDrained f q

/-- COMPLETION WRITE (R389): the entry is written once the completion ring has room, then the vector is signalled. -/
def execCompletionWrite (x : EvCpl) (s : State) : Out :=
  match s.queue? x.fn x.q with
  | none => .next s
  | some z =>
    match z.slots.find? fun y => y.idx = x.idx && (match y.st with | .done .. => true | _ => false) with
    | none => .next s
    | some y =>
      match y.st with
      | .done status detail disp disc =>
        let must := status = 2 || status = 9
        if (s.fn x.fn).resetting then .next (s.modQueue x.fn x.q fun z => { z with slots := z.slots.erase y })
        else if !cmdCpl y.cmd && !must then .next (s.freeSlot x.fn x.q y status)
        else
          match z.copy with
          | none => .next (s.freeSlot x.fn x.q y status)
          | some c =>
            let (bs, s) := s.fnRead x.fn (z.addr + 24) 8
            if (z.done + 2 ^ 64 - ofBytes bs) % 2 ^ 64 < 2 ^ c.log2c then
              let at_ := c.cbase + BitVec.ofNat 64 (32 * (z.done % 2 ^ c.log2c))
              let entry := cplBytes y.cmd y.idx z.done c.log2c status detail disp disc s.gt
              let s := s.fnWrite x.fn at_ entry
              let s := s.modQueue x.fn x.q fun z => { z with done := z.done + 1 }
              let s := if cmdIrq y.cmd && c.ven then s.signalVec x.fn c.vec (fun a => s.hostPort x.fn (if at_.getLsbD 63 then at_ else a)) else s
              .next (s.freeSlot x.fn x.q y status)
            else .next (s.later1 (.completionWrite x))
      | _ => .next s

/-! ### Firmware (R395) -/

/-- PLUGIN OVERRUN (R395): the plug-in is disabled; the tenant's commands dispatch in queue order. -/
def execPluginOverrun (x : EvFn) (s : State) : Out := .next ((s.modFn x.fn fun y => { y with plugin := false }).retryWaits x.fn)

/-- FRONT END RESTART (R395): every queue resumes from its CIDX and the slots; one that is not active fetches nothing. -/
def execFrontEndRestart (_ : EvNone) (s : State) : Out :=
  .next (s.push (s.fns.flatMap fun f => f.2.queues.flatMap fun q => [.commandFetch ⟨f.1, q.1⟩, .commandDispatch ⟨f.1, q.1⟩]))

/-- A configuration read of a function returns retry status while it is in reset (R397). -/
def State.configRetry (s : State) (f : Nat) : Bool := (s.fn f).resetting || (s.fn f).resetDue

end Sys2Proof.Machine
end

