-- ==== Sys2Proof/Machine/Wave.lean ====
section
/-! DEFINITION. The wave of a region's tree: the frontier (R333), the clearing queue (R338, R340), termination and the completion record
(R291). -/

namespace Sys2Proof.Machine

/-! ### The clearing queue (R338, R340) -/

/-- The ordered activations of a region that have ended, with nothing outstanding and not yet collected. -/
def State.endedOrdered (s : State) (region : Nat) (q : List (Nat × Nat)) : List ((Nat × Nat) × Consign) :=
  s.threads.filterMap fun e => match e.2.cons with
    | some x => if e.2.region = region && x.mode = 3 && x.phase == .ended && e.2.ops.isEmpty && !q.contains e.1 then some (e.1, x) else none
    | none => none

/-- The activations whose owner clears with or before them. -/
def ownedRound (live : Consign → Bool) (queued : List (BitVec 16)) (l : List ((Nat × Nat) × Consign)) : List ((Nat × Nat) × Consign) :=
  l.filter fun e => !live e.2 || queued.contains e.2.sptag || l.any fun f => f.2.tag = e.2.sptag

/-- Each activation behind its owner, otherwise in the order of the list. -/
def ownersFirst : List ((Nat × Nat) × Consign) → Nat → List ((Nat × Nat) × Consign)
  | l, 0 => l
  | l, fuel + 1 =>
    match l.find? fun e => e.2.sptag = 0 || !(l.any fun f => f.2.tag = e.2.sptag) with
    | some e => e :: ownersFirst (l.filter fun f => f.1 ≠ e.1) fuel
    | none => l

/-- The activations that a wave collects: those that have ended with keys below F, at most 256, by key, each child after its owner. -/
def State.collected (s : State) (region : Nat) (r : Region) (f : Key) : List (Nat × Nat) :=
  let l := (s.endedOrdered region r.clearq).filter fun e => keyLt e.2.order f
  let queued := r.clearq.filterMap fun n => ((s.thread? n.1 n.2).bind (·.cons)).map (·.tag)
  let l := (List.range l.length).foldl (fun l _ => ownedRound (fun x => s.tagLive r.part x.sptag) queued l) l
  let l := l.mergeSort fun a b => !keyLt b.2.order a.2.order
  ((ownersFirst l l.length).take 256).map (·.1)

/-- The activation that stands at an overflow with F as its key, when nothing below it is uncleared and the owner of its SPTAG has cleared
(R336, R340). -/
def State.overflowNext (s : State) (region : Nat) (r : Region) (f : Key) : Option (Nat × Nat) :=
  let below := s.threads.any fun e => match e.2.cons with
    | some x => e.2.region = region && x.mode = 3 && (x.phase matches .ended | .clearing _) && keyLt x.order f
    | none => false
  if below then none
  else
    (s.threads.find? fun e => match e.2.cons with
      | some x => e.2.region = region && x.mode = 3 && x.takes && x.overflow && x.order = f && !s.tagLive r.part x.sptag
      | none => false).map (·.1)

/-- An ordered region takes its new frontier, and the wave's units enter the clearing queue. -/
def State.orderedWave (s : State) (region : Nat) (r : Region) : State :=
  let s := (s.freeTags r.part).takeFrontier region
  let f := (s.region? region).elim Key.top (·.frontier)
  let new := s.collected region r f
  let q := r.clearq ++ new
  let q := if q.isEmpty then (s.overflowNext region r f).toList else q
  let s := s.modRegion region fun r => { r with clearq := q }
  match r.clearq, q with
  | [], e :: _ => s.push [.clearing ⟨e.1, e.2⟩]
  | _, _ => s

/-! ### Termination (R291) -/

/-- The activations of a region that a register-space switch has displaced (R373). -/
def State.displaced (s : State) (region : Nat) : Bool :=
  s.parts.any fun q => q.2.spilled.any fun e => e.2.region = region && e.2.life != .resident

/-- What a wave must report for a region to terminate. -/
def State.quiet (s : State) (region : Nat) (r : Region) : Bool :=
  r.sent = r.consumed
    && (s.cores.all fun e => e.2.deque.all fun i => s.postRegion e.1 i.msg.post ≠ some region)
    && (s.threads.all fun e => !(e.2.region = region && e.2.bound && e.2.life != .resident)) && !s.displaced region
    && r.children.all fun c => (s.region? c).elim true fun x => x.rstate != .live

/-- An access or engine path of an activation of the region has not performed. -/
def State.busyActs (s : State) (region : Nat) : Bool :=
  (s.threads.any fun e => e.2.region = region && e.2.life != .resident) || s.displaced region

/-- The completion record. -/
def Region.record (r : Region) : List Byte :=
  let status := if r.disc ≠ 0 then 2 else if r.faults ≠ 0 then 1 else 0
  toBytes 32 (packFields [(0, 8, status), (8, 1, bitN r.ovfclr), (9, 1, bitN r.rerun), (32, 32, min r.faults (2 ^ 32 - 1)),
    (64, 64, r.acts), (128, 64, r.gtend), (192, 64, r.disc)])

/-- The completion record is written, once, or is lost with its record in the fault queue; the LAUNCH completes (R291, R393). -/
def State.writeCrec (s : State) (region : Nat) (r : Region) : State :=
  let c := s.anyCore r
  let (ok, s) := if r.crec.toNat % 32 = 0 then s.devWrite c region r.crec r.record true else (false, s)
  let s := s.modRegion region fun r => { r with crecDue := false, crecLost := !ok }
  let s := match r.launch with
    | some (f, q, idx) =>
      match s.slot? f q idx with
      | some y => if y.st == .running then s.finishCmd f q idx 0 (bitN !ok) (y.step - y.disc) y.disc else s
      | none => s
    | none => s
  if ok then s
  else (s.appendRec c region (recFields s c 0 ⟨0x36, 0, .lead, 7, 0, r.crec, 0, 0, 0, 0⟩ false) [] none none).2

/-- The region terminates: its posts are masked, RSTATE becomes 2. -/
def State.terminate (s : State) (region : Nat) : State :=
  let s : State := { s with cores := s.cores.map fun e =>
    (e.1, { e.2 with posts := e.2.posts.map fun p => if p.2.region = region then (p.1, { p.2 with smask := true }) else p }) }
  ((s.modRegion region fun r => { r with rstate := .terminated, crecDue := true, gtend := s.gt }).syncRegion region)

/-- The record and the end of a region that has terminated follow as soon as they can. -/
def State.afterTermination (s : State) (region : Nat) : State :=
  match s.region? region with
  | none => s
  | some r =>
    let s := if r.crecDue && !s.busyActs region then s.writeCrec region r else s
    s.endRegion region

/-- WAVE (R291, R333, R338). -/
def execWave (x : EvRegion) (s : State) : Out :=
  match s.region? x.region with
  | none => .next s
  | some r =>
    if r.rstate == .live then
      let s := if r.emode = 3 then s.orderedWave x.region r else s
      if s.quiet x.region r then
        if r.lastWave = some (r.sent, r.consumed) then .next ((s.terminate x.region).afterTermination x.region)
        else .next (s.modRegion x.region fun r => { r with lastWave := some (r.sent, r.consumed) })
      else .next (s.modRegion x.region fun r => { r with lastWave := none })
    else .next (s.afterTermination x.region)

end Sys2Proof.Machine
end

