-- ==== Sys2Proof/Machine/Meters.lean ====
section
/-! DEFINITION. Energy, tariffs and temperature (R351 to R353), and the drover (R355 to R359). -/

namespace Sys2Proof.Machine

/-! ### Tariffs (R351) -/

/-- A region's charge has reached its allowance. -/
def Region.spent (r : Region) : Bool := r.tariff ≠ 0 && r.allow ≤ r.charge

/-- The tariff masks of the posts: set where the region of the post or an ancestor of it is masked, and everywhere at alarm level 2 (R419). -/
def State.retariff (s : State) : State :=
  { s with cores := s.cores.map fun e => (e.1, { e.2 with posts := e.2.posts.map fun p => (p.1, { p.2 with tmask := s.tariffMasked p.2.region }) }) }

/-- The charge of a region and of every ancestor of it. -/
def State.chargeUp (s : State) (region n : Nat) : State :=
  (s.ancestors region).foldl (fun s a => s.modRegion a fun r => { r with charge := r.charge + n }) s

/-- The cores of a cluster in which no thread runs are gated, when the firmware does so: before that each L1 writes back and drops its
copies (R88). The next thread that runs finds it empty. -/
def State.gate (s : State) (k : Nat) : State :=
  if s.threads.all (fun e => clusterOf e.1.1 ≠ k || e.2.st != .running) && Config.gates k s.fresh then
    (((s.cores.map (·.1)).filter fun c => clusterOf c = k)).foldl (fun s c => s.dropL1 c) s
  else s

/-- ENERGY METER: a microsecond's energy of a cluster is divided by the weights of the regions; the shares are rounded down. -/
def execEnergyMeter (x : EvEnergy) (s : State) : Out :=
  let w := (s.cluster x.cluster).weights
  let total := (w.map (·.2)).sum
  let s := w.foldl (fun s e => s.chargeUp e.1 (x.energy * e.2 / max 1 total)) s
  let s := s.modCluster x.cluster fun k => { k with weights := [] }
  let s : State := { s with regions := s.regions.map fun e => (e.1, if e.2.spent then { e.2 with tmasked := true } else e.2) }
  .next (s.retariff.gate x.cluster)

/-- The region at the start of a window. -/
def Region.newWindow (r : Region) : Region :=
  let allow := r.tariff - min (r.charge - r.allow) r.tariff
  { r with allow := allow, charge := 0, tmasked := r.tmasked && allow = 0 && r.tariff ≠ 0 }

/-- TARIFF WINDOW. -/
def execTariffWindow (_ : EvNone) (s : State) : Out :=
  let s : State := { s with regions := s.regions.map fun e => (e.1, e.2.newWindow) }
  .next s.retariff

/-! ### Temperature (R352, R353) -/

/-- A region is live: launched, or terminated with resident threads (R292). -/
def Region.alive (r : Region) : Bool := r.rstate == .live || (r.rstate == .terminated && r.rlive ≠ 0)

/-- The live regions with posts or resident threads on the cores of a cluster: resident threads keep a terminated region live (R292). -/
def State.regionsOn (s : State) (k : Nat) : List Nat :=
  let posts := s.cores.flatMap fun e => if clusterOf e.1 = k then e.2.posts.map (·.2.region) else []
  let residents := s.threads.filterMap fun e => if clusterOf e.1.1 = k && e.2.life == .resident && e.2.bound then some e.2.region else none
  ((posts ++ residents).dedup).filter fun g => (s.region? g).any Region.alive

/-- The throttle of an engine's feeding: a row in every cycle (0), in every 4 (1) or in every 16 (2). -/
def throttleAt (quarter : Nat) (ceil : Option Nat) (was : Nat) : Nat :=
  match ceil with
  | none => 0
  | some c => if overLimit quarter (c + 5) (2 ≤ was) then 2 else if overLimit quarter c (1 ≤ was) then 1 else 0

/-- The throttle of a cluster's engine at a temperature; alarm level 2 sets the strongest (R419). -/
def State.throttleFor (s : State) (k quarter : Nat) : Nat :=
  if s.ras.noFetch then 2
  else throttleAt quarter (((s.regionsOn k).filterMap fun g => (s.region? g).map (·.tceil)).min?) (s.cluster k).throttle

/-- A cluster's throttle as the regions on it stand now (R353); one that no region's ceiling can hold needs no look. -/
def State.heat (s : State) : State :=
  let hot : Cluster → Bool := fun x => x.throttle ≠ 0 || s.regions.any fun e => e.2.alive && decide (4 * e.2.tceil ≤ x.quarter)
  { s with clusters := s.clusters.map fun e => if hot e.2 then (e.1, { e.2 with throttle := s.throttleFor e.1 e.2.quarter }) else e }

/-- The throttles of clusters after a change of the regions on them. -/
def State.rethrottle (s : State) (l : List Nat) : State :=
  l.foldl (fun s k => s.modCluster k fun x => { x with throttle := s.throttleFor k x.quarter }) s

/-- The alarm that a cluster's temperature raises: level 2 at 115 °C, level 3 at 125 °C (R419). -/
def heatAlarm (quarter : Nat) : List Event :=
  if 4 * 125 ≤ quarter then [.customsAlarm ⟨3, none⟩] else if 4 * 115 ≤ quarter then [.customsAlarm ⟨2, none⟩] else []

/-- TEMPERATURE READ. -/
def execTemperatureRead (x : EvTemp) (s : State) : Out :=
  let on := s.regionsOn x.cluster
  let old := s.cluster x.cluster
  let cls := on.map fun g => (g, maxClassAt x.quarter ((s.region? g).elim 0 (·.tceil)) ((alook g old.maxcls).getD 3))
  .next ((s.modCluster x.cluster fun k =>
    { k with quarter := x.quarter, maxcls := cls, throttle := s.throttleFor x.cluster x.quarter }).push (heatAlarm x.quarter))

/-! ### Stage entries and member tables, written (R355, R356) -/

/-- UNITS, HOTN and COLDN of a stage are written, and the reserved bits behind them as zero (R4). -/
def State.putStage (s : State) (p block : Nat) (x : Stage) : State :=
  s.homeWriteBytes p (stagePa block x.no + 40) (toBytes 24 (packFields [(0, 32, x.units), (32, 16, min x.hotn 65535), (48, 16, min x.coldn 65535)])) none

/-- The words and COUNT of a member table are rewritten. -/
def State.putMembers (s : State) (x : Stage) (l : List Nat) : State :=
  match s.region? x.region with
  | none => s
  | some r =>
    let c := s.anyCore r
    let s := (s.devWrite c x.region (BitVec.ofNat 64 (x.mring + 16)) (vecBytes 4 l) false).2
    (s.devWrite c x.region (BitVec.ofNat 64 x.mring) (toBytes 4 l.length) false).2

/-- ENABLE is set: the drover masks of the listed cores follow the member tables. -/
def State.droverMasks (s : State) (p : Nat) : State :=
  let (l, s) := s.stages p
  l.foldl (fun s x =>
    let (ms, s) := s.memberList x
    (ms.filterMap (s.memberCore x)).foldl (fun s c =>
      l.foldl (fun s y => s.modPost c y.post fun q => { q with dmask := y.no ≠ x.no }) s) s) s

/-! ### A period (R357 to R359) -/

/-- The signed dword of the occupancy counter; none when it cannot be loaded. -/
def State.occupancy (s : State) (x : Stage) : Option Int × State :=
  match s.region? x.region with
  | none => (none, s)
  | some r =>
    match s.devRead (s.anyCore r) x.region (BitVec.ofNat 64 x.occa) 8 with
    | (some bs, s) => (some (BitVec.ofNat 64 (ofBytes bs)).toInt, s)
    | (none, s) => (none, s)

/-- A stage with its counter judged. -/
def Stage.judge (x : Stage) (occ : Int) : Stage :=
  if (x.hi * x.units : Nat) < occ then { x with hotn := x.hotn + 1, coldn := 0 }
  else if occ < (x.lo * x.units : Nat) then { x with coldn := x.coldn + 1, hotn := 0 }
  else { x with hotn := 0, coldn := 0 }

/-- The counter per unit of one stage is below that of another. -/
def perUnitLt (a b : Stage × Int) : Bool := a.2 * (b.1.units : Int) < b.2 * (a.1.units : Int)

/-- The least of a list under an order, the first of equals. -/
def leastBy {α : Type} (lt : α → α → Bool) : List α → Option α
  | [] => none
  | x :: l => some (l.foldl (fun a b => if lt b a then b else a) x)

/-- A unit of a stage: its logical cores, with the cluster's grade and temperature. -/
structure DUnit where
  cores : List Nat
  grade : Nat
  quarter : Nat
  deriving DecidableEq, Repr

def State.unitOf (s : State) (x : Stage) (lcns : List Nat) : DUnit :=
  let k := s.cluster (clusterOf ((lcns.head?.bind (s.memberCore x)).getD 0))
  ⟨lcns, k.grade, k.quarter⟩

/-- The units of a stage, in ascending logical number. -/
def State.unitsOf (s : State) (x : Stage) (l : List Nat) : List DUnit :=
  let l := l.mergeSort (· ≤ ·)
  let key : Nat → Nat := fun n => if x.cluster then clusterOf ((s.memberCore x n).getD 0) else n
  ((l.map key).dedup.map fun k => s.unitOf x (l.filter fun n => key n = k)).mergeSort fun a b => a.cores.headD 0 ≤ b.cores.headD 0

/-- A unit may move: not of grade 3, cool enough, and none of its cores still changing its role. -/
def State.mayMove (s : State) (p : Nat) (tceil : Nat) (x : Stage) (u : DUnit) : Bool :=
  let moving := (s.part? p).elim [] (·.drover.moving)
  let cluster := fun n => clusterOf ((s.memberCore x n).getD 0)
  u.grade ≠ 3 && decide (u.quarter < 4 * (tceil - 10))
    && u.cores.all fun n => moving.all fun m => if x.cluster then clusterOf m.1 ≠ cluster n else some m.1 ≠ s.memberCore x n

/-- The drover takes a unit from the donor: its cores leave the table and drain. -/
def State.moveUnit (s : State) (p : Nat) (d r : Stage) (all : List Nat) (u : DUnit) : State :=
  let s := s.putMembers d (all.filter fun n => !u.cores.contains n)
  (u.cores.filterMap (s.memberCore d)).foldl (fun s c =>
    (s.modPost c d.post fun q => { q with dmask := true, drain := true }).modPart p fun q =>
      { q with drover := { q.drover with moving := q.drover.moving ++ [(c, (d.no, r.no))] } }) s

/-- DROVER PERIOD (R357, R358). -/
def execDroverPeriod (x : EvPart) (s : State) : Out :=
  match s.part? x.part with
  | none => .next s
  | some q =>
    if !q.drover.on then .next s
    else
      let b := q.drover.block
      let (ep, s) := s.homeReadBytes x.part (b + 4) 4
      let s := s.homeWriteBytes x.part (b + 4) (toBytes 4 (ofBytes ep + 1)) none
      let (l, s) := s.stages x.part
      let (js, s) := l.foldl (fun (acc : List (Stage × Int) × State) y =>
        match acc.2.occupancy y with
        | (some o, s) => (acc.1 ++ [(y.judge o, o)], s)
        | (none, s) => (acc.1, s)) ([], s)
      let s := js.foldl (fun s y => s.putStage x.part b y.1) s
      let to_ := leastBy (fun a b => perUnitLt b a) (js.filter fun y => y.1.hold ≤ y.1.hotn && y.1.units < y.1.maxu)
      let from_ := leastBy perUnitLt (js.filter fun y => y.1.hold ≤ y.1.coldn && y.1.minu < y.1.units)
      match to_, from_ with
      | some (r, _), some (d, _) =>
        let (all, s) := s.memberList d
        let tceil := (s.region? r.region).elim 0 (·.tceil)
        let better : DUnit → DUnit → Bool := fun a b => a.grade < b.grade || (a.grade = b.grade && a.quarter < b.quarter)
        match leastBy better ((s.unitsOf d all).filter (s.mayMove x.part tceil d)) with
        | none => .next s
        | some u =>
          let s := s.putStage x.part b { d with units := d.units - 1, hotn := 0, coldn := 0 }
          let s := s.putStage x.part b { r with units := r.units + 1, hotn := 0, coldn := 0 }
          .next (s.moveUnit x.part d r all u)
      | _, _ => .next s

/-- A core holds neither a bound activation nor a queued message of a post (R359). -/
def State.drained (s : State) (c post region : Nat) : Bool :=
  let y := s.core c
  s.boundFrom c post region = 0
    && (y.inbox ++ y.deque ++ y.spilling.map (·.2)).all fun i => i.kept || i.msg.post ≠ post

/-- DROVER CORE JOIN (R359): a core without work of the donor's post joins the recipient. -/
def execDroverCoreJoin (x : EvJoin) (s : State) : Out :=
  match (s.part? x.part).bind fun q => alook x.core q.drover.moving with
  | none => .next s
  | some (di, ri) =>
    let (l, s) := s.stages x.part
    match l.find? fun y => y.no = di, l.find? fun y => y.no = ri with
    | some d, some r =>
      if !s.drained x.core d.post d.region then .next s
      else
        let s := (s.modPost x.core d.post fun q => { q with drain := false }).modPost x.core r.post fun q => { q with dmask := false }
        let (ms, s) := s.memberList r
        let s := match (s.region? r.region).bind fun g => s.lcnOf g x.core with
          | some n => s.putMembers r (ms ++ [n])
          | none => s
        .next (s.modPart x.part fun q => { q with drover := { q.drover with moving := adel x.core q.drover.moving } })
    | _, _ => .next s

end Sys2Proof.Machine
end

