-- ==== Sys2Proof/Machine/Coherence.lean ====
section
/-! DEFINITION. The messages between the L1s, the homes and the host (R92 to R95, R99): each row of the two tables as an event of its own. -/

namespace Sys2Proof.Machine

/-! ### The home -/

def State.homeSec (s : State) (p sec : Nat) : HomeSec := (s.entry p (sec / 4)).sec (sec % 4)

def State.modHome (s : State) (p sec : Nat) (f : HomeSec → HomeSec) : State :=
  s.modEntry p (sec / 4) fun e => e.setSec (sec % 4) (f (e.sec (sec % 4)))

/-- The cores that the entry names as holders of a sector. -/
def DirEntry.named (e : DirEntry) (i : Nat) : List Nat := (e.ptrs.filter fun x => x.2.getLsbD i).map (·.1)

/-- DATA with a grant leaves for an L1, and the requester is recorded. -/
def State.sendData (s : State) (p sec c : Nat) (g : Grant) : State :=
  let st : HomeSt := match g with
    | .e | .m => .x
    | .s | .sw => .s
    | .l _ => .u
  let s := match g with
    | .l _ => s
    | _ => s.addHolder p sec c st
  s.push [.data ⟨c, 64 * sec, memSector s.mem (64 * sec), g⟩]

/-- The number of the next transaction (R93). -/
def State.nextTxn (s : State) (p : Nat) : Nat := (s.part? p).elim 0 (·.txns)

/-- A transaction opens: the state it waits in, the cores and the bits of TRACTS that must answer, and the host when it may hold a copy. -/
def State.openTxn (s : State) (p sec : Nat) (st : HomeSt) (req : Event) (wait tracts : List Nat) (host : Bool) : State :=
  let no := s.nextTxn p
  let s := s.modPart p fun q => { q with txns := no + 1 }
  let s := s.modHome p sec fun h => { h with st := st, txn := some ⟨req, no, wait, tracts, host⟩ }
  if host then ({ s with fresh := s.fresh + 1 } : State).push [.biSnpInvResponse ⟨64 * sec, Config.hostCopy s.fresh⟩] else s

/-- The key of a write, with the region of its activation (R335). -/
def State.wrtKey (s : State) (x : EvWrt) : Option (Nat × Key) :=
  x.key.bind fun k => (s.threads.find? fun e => e.2.tid.toNat = k.tid && e.2.cons.isSome).map fun e => (e.2.region, k)

/-- The core that sends a write and keeps the sector in SW. -/
def State.wrtKeeper (s : State) (sec : Nat) (w : Writer) : Option Nat :=
  match w with
  | .l1 c => if (s.l1 c sec).any fun x => x.st == .sw then some c else none
  | _ => none

/-- A line leaves coarse mode after a GETX, with no copy left (R91). -/
def DirEntry.uncoarse (e : DirEntry) : DirEntry :=
  if e.coarse then
    { e with coarse := false, tracts := 0, ptrs := [], secs := e.secs.map fun h => if h.txn.isNone then { h with st := .u } else h }
  else e

/-- The S_I row with all replies in (R95). -/
def State.endSi (s : State) (p sec : Nat) (req : Event) : State :=
  let s := s.modHome p sec fun h => { h with txn := none, st := .u }
  match req with
  | .getx x =>
    let s := s.modEntry p (sec / 4) fun e => { e.uncoarse with ptrs := cutPtr e.uncoarse.ptrs (some x.core) (sec % 4) }
    s.sendData p sec x.core (if (s.entry p (sec / 4)).watched (sec % 4) then .sw else .m)
  | .wrt x =>
    let keep := s.wrtKeeper sec x.src
    let s := s.homeApply p sec keep x.data x.mask (s.wrtKey x)
    let s := if x.bad.isSome then s.setPoison sec x.bad else s
    let s := s.modHome p sec fun h => { h with st := if keep.isSome then .s else .u }
    match x.src with
    | .l1 c | .lad c | .path c => s.push [.ack ⟨.wrt c, 64 * sec⟩]
    | _ => s
  | _ => s

/-- The answers of a transaction in S_I are in, or some are awaited. -/
def State.checkSi (s : State) (p sec : Nat) : State :=
  match (s.homeSec p sec).txn with
  | some t => if t.wait.isEmpty && t.tracts.isEmpty && !t.host then s.endSi p sec t.req else s
  | none => s

/-- The bits of TRACTS that are set. -/
def DirEntry.tractBits (e : DirEntry) : List Nat := if e.coarse then (List.range 64).filter fun j => e.tracts.getLsbD j else []

/-- FWDX to the owner and INV to the other holders, a port among them (R402), except one that keeps its copy; in coarse mode one INV to each marked tract, of the whole
line for a GETX (R91, R95). -/
def State.invalidate (s : State) (p sec : Nat) (req : Event) (keep : Option Nat) : State :=
  let e := s.entry p (sec / 4)
  let port := (s.portHolds p sec).toList.map portAgent
  let others := (if e.coarse then [] else (e.named (sec % 4)).filter fun c => some c ≠ keep) ++ port
  let owner := (e.sec (sec % 4)).st == .x
  let no := s.nextTxn p
  let line := match req with
    | .getx _ => true
    | _ => false
  let s := s.openTxn p sec .si req others e.tractBits e.host
  let s := s.push (others.map fun c => if owner && !port.contains c then .fwdx ⟨c, 64 * sec, no⟩ else .inv ⟨.core c, 64 * sec, false⟩)
  let s := s.push (e.tractBits.map fun j => .inv ⟨.tracts p j (if line then none else keep), 64 * sec, line⟩)
  s.checkSi p sec

/-- The request of a sector at rest in the row that applies to it (R95). -/
def State.serveHit (s : State) (p sec : Nat) (req : Event) : State :=
  let e := s.entry p (sec / 4)
  let st := (e.sec (sec % 4)).st
  let watched := e.watched (sec % 4)
  let owner := (e.named (sec % 4)).head?
  match req with
  | .gets x =>
    match st, owner with
    | .x, some o =>
      if o = x.core then s.sendData p sec x.core .e
      else (s.openTxn p sec .xfs req [o] [] false).push [.fwds ⟨o, 64 * sec, s.nextTxn p⟩]
    | .u, _ => s.sendData p sec x.core (if watched || e.coarse || (s.portHolds p sec).isSome then .s else .e)
    | _, _ => s.sendData p sec x.core .s
  | .getx x =>
    match st, owner with
    | .x, some o =>
      if o = x.core then s.sendData p sec x.core .m
      else if watched then s.invalidate p sec req (some x.core)
      else (s.openTxn p sec .xfx req [o] [] false).push [.fwdx ⟨o, 64 * sec, s.nextTxn p⟩]
    | .u, _ => if watched || e.coarse || (s.portHolds p sec).isSome then s.invalidate p sec req (some x.core) else s.sendData p sec x.core .m
    | _, _ => s.invalidate p sec req (some x.core)
  | .wrt x => s.invalidate p sec req (match x.src with | .l1 c => if (s.wrtKeeper sec x.src).isSome then some c else none | _ => none)
  | _ => s

/-- The requester of a request. -/
def reqCore : Event → Option Nat
  | .gets x | .getx x => some x.core
  | .wrt x => match x.src with
    | .l1 c | .lad c | .path c => some c
    | _ => none
  | _ => none

/-- The requester that a grant records (R91). -/
def reqGrant : Event → Option Nat
  | .gets x | .getx x => some x.core
  | _ => none

/-- A GETX of another sector invalidates the whole line (R91). -/
def DirEntry.emptying (e : DirEntry) (i : Nat) : Bool :=
  e.coarse && (List.range 4).any fun j => j ≠ i && (e.sec j).txn.any fun t => match t.req with
    | .getx _ => true
    | _ => false

/-- A line enters coarse mode: its pointers become tracts (R91). -/
def State.coarsen (s : State) (p line : Nat) : State :=
  let bit := fun (x : Nat) => 1#64 <<< ((s.part? p).elim 0 (tractNo · (tractOf x)) % 64)
  s.modEntry p line fun e => { e with coarse := true, ptrs := [], tracts := e.ptrs.foldl (fun acc x => acc ||| bit x.1) 0 }

/-- FWDS downgrades each X sector of a line at rest, before the line enters coarse mode (R91); nobody is answered. -/
def State.downgrade (s : State) (p line : Nat) : State :=
  (List.range 4).foldl (fun s i =>
    let h := (s.entry p line).sec i
    match ((s.entry p line).named i).head? with
    | some o => if h.st == .x && h.txn.isNone then
        (s.openTxn p (4 * line + i) .xfs (.fillArrives ⟨p, line⟩) [o] [] false).push [.fwds ⟨o, 64 * (4 * line + i), s.nextTxn p⟩] else s
    | none => s) s

/-- A write that covers the whole sector does not wait for a fill (R95). -/
def wholeWrite : Event → Bool
  | .wrt x => x.mask = BitVec.allOnes 64
  | _ => false

/-- The request is a WRT. -/
def isWrt : Event → Bool
  | .wrt _ => true
  | _ => false

/-- A request at a home: it waits for an open transaction, for a lading that it does not come from, for a clearing, for accesses that have translated
through what it writes (R78), or for the line to enter or leave coarse mode (R91); a line that is not present, or a sector that the host must
give, is fetched first. A GETS that names an entry which is no longer held belongs to a sector that its L1 has given up. -/
def State.serve (s : State) (p sec : Nat) (req : Event) : State :=
  let h := s.homeSec p sec
  let e := s.entry p (sec / 4)
  if h.txn.isSome then s.modHome p sec fun h => { h with queue := h.queue ++ [req] }
  else if h.prep.isSome then { s with later := s.later ++ [req] }
  else
    let lad := (s.lading? p (64 * sec)).filter fun e => !e.2.clear
    let own := match req with
      | .gets x => x.lad.isSome && lad.map (·.1) = x.lad
      | .wrt x => match x.src with
        | .lad _ => true
        | _ => false
      | _ => false
    let stale := match req with
      | .gets x => x.lad.isSome
      | _ => false
    match lad.filter fun _ => !own with
    | some (i, _) => if stale then s else { s.ladWait p i none with later := s.later ++ [req] }
    | none =>
      match req, lad with
      | .gets x, some (i, _) => s.push [.data ⟨x.core, 64 * sec, memSector s.mem (64 * sec), .l i⟩]
      | _, _ =>
      if stale then s
      else if e.emptying (sec % 4) || (e.tu && isWrt req && s.tuHeld (sec / 4) none) then { s with later := s.later ++ [req] }
      else if (reqGrant req).any fun c => e.fifth c (sec % 4) && (e.secs.toList.any fun h => h.st == .x || h.txn.isSome || h.prep.isSome) then
        { s.downgrade p (sec / 4) with later := s.later ++ [req] }
      else
      let s := if (reqGrant req).any fun c => e.fifth c (sec % 4) then s.coarsen p (sec / 4) else s
      let s := if isWrt req then s.clearTu p sec else s
      let own := match req with
        | .gets _ => false
        | _ => true
      let got := ((s.part? p).bind fun q => alook sec q.hostSecs)
      if inHost (64 * sec) && (match got with | some o => own && !o | none => true) then
        (s.openTxn p sec .uf req [] [] false).push
          [.cxlCacheResponse ⟨64 * sec, if own then .rdOwn else .rdShared, memSector s.mem (64 * sec)⟩]
      else if !e.inL2 && !wholeWrite req then (s.openTxn p sec .uf req [] [] false).push [.fillArrives ⟨p, sec / 4⟩]
      else s.serveHit p sec req

/-- The requests that wait at a sector follow in their order, as far as they complete at once. -/
def State.drainHome (s : State) (p sec : Nat) : Nat → State
  | 0 => s
  | fuel + 1 =>
    let h := s.homeSec p sec
    if h.txn.isSome then s
    else
      match h.queue with
      | [] => s
      | e :: q => ((s.modHome p sec fun h => { h with queue := q }).serve p sec e).drainHome p sec fuel

/-- The home goes on after a transaction. -/
def State.nextReq (s : State) (p sec : Nat) : State := s.drainHome p sec ((s.homeSec p sec).queue.length + 1)

/-- DENY (R92): the access that asked takes the confinement fault; the home writes its record. The trap stands at the access while no younger
instruction has executed (R360); otherwise the access parks (assumption 44). -/
def State.deny (s : State) (c pa : Nat) : State :=
  let s := (s.confined c pa).delL1 c (pa / 64)
  let hit : Op → Bool := fun o => match o.kind with
    | .acc a => a.segs.any fun x => x.core.isNone && decide (x.addr / 64 ≤ pa / 64) && decide (pa / 64 ≤ (x.addr + x.len - 1) / 64)
    | _ => false
  match s.threads.findSome? fun e => if e.1.1 = c then (e.2.ops.find? hit).map fun o => (e.1.2, (e.2, o)) else none with
  | none => s
  | some (k, (t, o)) =>
    let acck := match o.kind with
      | .acc a => a.act.tr.acck
      | _ => 7
    let aux := s.homeXy pa
    if o.no + 1 = t.issued && t.st == .running && t.trailQ.isEmpty && t.ahead.isEmpty then
      let t := (t.endOp o.id).uncountClamp (s.clamps c (o.iword.extractLsb' 42 2) 0)
      (s.setThread c k { t with leadPc := o.pc, line := none, issued := o.no }).takeTrap c k ⟨0x09, 0, .lead, acck, 0, o.kind.addr, o.pc, o.iword, aux, 0⟩ 12 []
    else s.park c k o ⟨0x09, 0, o.kind.addr⟩ 0 12 acck .lead aux

/-- A request of a core reaches its home. -/
def State.request (s : State) (c pa : Nat) (req : Event) : State :=
  if s.reaches c pa then (s.serve (s.partOf c) (pa / 64) req).nextReq (s.partOf c) (pa / 64) else s.deny c pa

/-- GETS, GETX and WRT at the home (R95). -/
def execGets (x : EvGet) (s : State) : Out := .next (s.request x.core x.pa (.gets x))

def execGetx (x : EvGet) (s : State) : Out := .next (s.request x.core x.pa (.getx x))

def execWrt (x : EvWrt) (s : State) : Out :=
  match x.src with
  | .l1 c | .lad c | .path c => .next (s.request c x.pa (.wrt x))
  | _ =>
    match s.partOfPa x.pa with
    | some p => .next ((s.serve p (x.pa / 64) (.wrt x)).nextReq p (x.pa / 64))
    | none => .next s

/-- The owner has answered: the requester is served (the X_FS and X_FX rows), the owner kept as S after FWDS unless it holds nothing. -/
def State.answerFwd (s : State) (p sec o : Nat) (keep : Bool) : State :=
  match (s.homeSec p sec).txn with
  | none => s
  | some t =>
    let s := s.modHome p sec fun h => { h with txn := none, st := if keep then .s else .u }
    let s := if keep then s else s.modEntry p (sec / 4) fun e =>
      { e with ptrs := (e.ptrs.map fun x => if x.1 = o then (x.1, x.2 &&& ~~~(1#4 <<< (sec % 4))) else x).filter fun x => x.2 ≠ 0 }
    let s := match t.req with
      | .gets x => s.sendData p sec x.core .s
      | .getx x => s.sendData p sec x.core .m
      | _ => s
    s.nextReq p sec

/-- A reply of a core is in, in S_I. -/
def State.replyIn (s : State) (p sec c : Nat) : State :=
  let s := s.modHome p sec fun h => { h with txn := h.txn.map fun t => { t with wait := t.wait.filter (· ≠ c) } }
  (s.checkSi p sec).nextReq p sec

/-- The combined reply of a tract is in, in S_I (R91). -/
def State.tractsIn (s : State) (p sec j : Nat) : State :=
  let s := s.modHome p sec fun h => { h with txn := h.txn.map fun t => { t with tracts := t.tracts.filter (· ≠ j) } }
  (s.checkSi p sec).nextReq p sec

/-- A reply of a core goes on at its home; one from outside the partition of the line is dropped and logged (R92). -/
def State.cohReply (s : State) (c pa : Nat) (f : State → State) : Out := .next (if s.reaches c pa then f s else s.confined c pa)

/-- A core is an awaited owner or sharer of the open transaction. -/
def State.awaited (s : State) (p sec c : Nat) : Bool := (s.homeSec p sec).txn.any fun t => t.wait.contains c

/-- Data of a sector is written into the L2. -/
def State.putL2 (s : State) (p sec : Nat) (d : V512) : State :=
  ({ s with mem := memWrite s.mem (64 * sec) (sectorBytes d) } : State).modEntry p (sec / 4) fun e => { e with dirty := e.dirty ||| (1#4 <<< (sec % 4)) }

/-- The home answers an owner's data or CLEAN by the state of the sector. -/
def State.ownerAnswer (s : State) (p sec c : Nat) : State :=
  let h := s.homeSec p sec
  if !s.awaited p sec c then s
  else
    match h.st with
    | .xfs | .xfsg => s.answerFwd p sec c true
    | .xfx | .xfxg => s.answerFwd p sec c false
    | _ => s.replyIn p sec c

/-- OWNER DATA (R95). -/
def execOwnerData (x : EvPut) (s : State) : Out :=
  s.cohReply x.core x.pa fun s =>
    let p := s.partOf x.core
    if s.awaited p (x.pa / 64) x.core then (s.putL2 p (x.pa / 64) x.data).ownerAnswer p (x.pa / 64) x.core else s

/-- CLEAN (R95). -/
def execClean (x : EvSector) (s : State) : Out :=
  s.cohReply x.core x.pa fun s => s.ownerAnswer (s.partOf x.core) (x.pa / 64) x.core

/-- GONE of a forward that is still open (R95): a dirty one waits for the PUTX that crosses it; one whose forward a PUTX has ended is
discarded. -/
def State.gone (s : State) (x : EvGone) : State :=
  let p := s.partOf x.core
  let sec := x.pa / 64
  if !(s.awaited p sec x.core && (s.homeSec p sec).txn.any fun t => t.no = x.txn) then s
  else
    match (s.homeSec p sec).st, x.dirty with
    | .xfs, true => s.modHome p sec fun h => { h with st := .xfsg }
    | .xfx, true => s.modHome p sec fun h => { h with st := .xfxg }
    | .xfs, false | .xfx, false => s.answerFwd p sec x.core false
    | .si, false => s.replyIn p sec x.core
    | _, _ => s

def execGone (x : EvGone) (s : State) : Out := s.cohReply x.core x.pa fun s => s.gone x

/-- The sole owner of an X sector holds it no longer (R95). -/
def State.ownerOut (s : State) (p sec : Nat) : State :=
  s.modEntry p (sec / 4) fun e => { e.setSec (sec % 4) { e.sec (sec % 4) with st := .u } with ptrs := cutPtr e.ptrs none (sec % 4) }

/-- PUTX at the home (R95): the owner's eviction, alone or matched to an open forward. -/
def State.putx (s : State) (x : EvPut) : State :=
  let p := s.partOf x.core
  let sec := x.pa / 64
  let h := s.homeSec p sec
  let s := s.push [.wback ⟨x.core, x.pa⟩]
  if s.awaited p sec x.core then
    let s := s.putL2 p sec x.data
    match h.st with
    | .xfs | .xfx | .xfsg | .xfxg => s.answerFwd p sec x.core false
    | _ => s.replyIn p sec x.core
  else if h.st == .x && (s.entry p (sec / 4)).named (sec % 4) = [x.core] then
    let s := if inHost x.pa then s.push [.cxlCacheResponse ⟨64 * sec, .dirtyEvict, x.data⟩] else s
    (s.putL2 p sec x.data).ownerOut p sec
  else s

def execPutx (x : EvPut) (s : State) : Out := s.cohReply x.core x.pa fun s => s.putx x

/-- PUTE (R95). -/
def execPute (x : EvSector) (s : State) : Out :=
  s.cohReply x.core x.pa fun s =>
    let p := s.partOf x.core
    let sec := x.pa / 64
    let s := s.push [.wback ⟨x.core, x.pa⟩]
    if (s.homeSec p sec).st == .x && (s.entry p (sec / 4)).named (sec % 4) = [x.core] then s.ownerOut p sec else s

/-- An operation has the ACK of a WRT (R94): it completes with the last that it awaits. -/
def State.ackIn (s : State) (c sec : Nat) : State :=
  match (s.core c).acks.find? fun e => e.1 = sec with
  | none => s
  | some e =>
    let s := s.modCore c fun y => { y with acks := y.acks.erase e }
    s.withOp e.2 fun c k s => if (s.thread? c k).any fun t => (t.op? e.2.op).any (·.ended) then s.finishHere c k e.2.op else s

/-- The cores of a partition in the tracts that a bit of TRACTS stands for (R90). -/
def State.tractCores (s : State) (p j : Nat) : List Nat :=
  match s.part? p with
  | some q => (s.cores.map (·.1)).filter fun c => s.partOf c = p && tractNo q (tractOf c) % 64 = j
  | none => []

/-- ACK (R91, R95): of an INV to a core or a tract at the home, of a WRT at its L1. -/
def execAck (x : EvAck) (s : State) : Out :=
  let sec := x.pa / 64
  let p := (s.partOfPa x.pa).getD 0
  match x.what with
  | .inv c =>
    if portAgent 0 ≤ c then .next (if s.awaited p sec c then s.replyIn p sec c else s) else
    s.cohReply c x.pa fun s => if s.awaited (s.partOf c) sec c then s.replyIn (s.partOf c) sec c else s
  | .tracts p j =>
    if s.partOfPa x.pa ≠ some p then .next (s.confined ((s.tractCores p j).headD 0) x.pa)
    else .next (if (s.homeSec p sec).txn.any fun t => t.tracts.contains j then s.tractsIn p sec j else s)
  | .wrt c => s.cohReply c x.pa fun s => s.ackIn c sec

/-- L2 REPLACEMENT (R95, R96). -/
def execL2Replacement (x : EvLine) (s : State) : Out := .next (s.replaceLine x.part x.line)

/-- FILL ARRIVES (R95): the line takes a way where one can be chosen, and the waiting requests take the rows of U. -/
def execFillArrives (x : EvLine) (s : State) : Out :=
  let s := s.takeWay x.part x.line
  .next ((List.range 4).foldl (fun s i =>
    let sec := 4 * x.line + i
    match (s.homeSec x.part sec).st, (s.homeSec x.part sec).txn with
    | .uf, some t =>
      let s := s.modHome x.part sec fun h => { h with st := .u, txn := none }
      (if (s.entry x.part x.line).inL2 then s.serve x.part sec t.req else s.serveHit x.part sec t.req).nextReq x.part sec
    | _, _ => s) s)

/-! ### The L1 (R94) -/

/-- The L1 answers a forward; `inv` is FWDX. -/
def State.forward (s : State) (c pa : Nat) (inv : Bool) (txn : Nat) : State :=
  let sec := pa / 64
  match s.l1 c sec with
  | none => s.push [.gone ⟨c, pa, false, txn⟩]
  | some x =>
    let s := if x.st == .m || x.st == .e then s.setPoison sec x.bad else s
    let go := fun (s : State) => if inv then s.delL1 c sec else s.setL1 c sec { x with st := .s, held := none }
    match x.st with
    | .m => (go s).push [.ownerData ⟨c, pa, x.data⟩]
    | .e => (go s).push [.clean ⟨c, pa⟩]
    | .mia => s.push [.gone ⟨c, pa, true, txn⟩]
    | .isd | .imd | .sma => s.setL1 c sec { x with held := some (inv, txn) }
    | _ => s.push [.gone ⟨c, pa, false, txn⟩]

def execFwds (x : EvFwd) (s : State) : Out := .next (s.forward x.core x.pa false x.txn)

def execFwdx (x : EvFwd) (s : State) : Out := .next (s.forward x.core x.pa true x.txn)

/-- A core's copy of a sector at an INV: it goes, or full data is awaited. -/
def State.invAt (s : State) (sec c : Nat) : State :=
  match s.l1 c sec with
  | some y => match y.st with
    | .s | .sw => s.delL1 c sec
    | .sma => s.setL1 c sec { y with st := .imd }
    | _ => s
  | none => s

/-- INV (R91, R94): the copy of a core, or those of every core of a tract, with one reply in every state. -/
def execInv (x : EvInv) (s : State) : Out :=
  let secs := if x.line then lineSecs x.pa else [x.pa / 64]
  match x.dst with
  | .core c => .next ((secs.foldl (fun s y => s.invAt y c) s).push [.ack ⟨.inv c, x.pa⟩])
  | .tracts p j spare =>
    let cores := (s.tractCores p j).filter fun c => some c ≠ spare
    .next ((cores.foldl (fun s c => secs.foldl (fun s y => s.invAt y c) s) s).push [.ack ⟨.tracts p j, x.pa⟩])

/-- A message of a home reaches an L1; one from outside the core's partition is dropped and logged (R92). -/
def State.fromHome (s : State) (c pa : Nat) (f : State → Out) : Out := if s.reaches c pa then f s else .next (s.confined (s.homeAgent pa) pa)

/-- DATA at an L1: the granted state, then a forward that was held. -/
def execData (x : EvData) (s : State) : Out :=
  s.fromHome x.core x.pa fun s =>
  let sec := x.pa / 64
  match s.l1 x.core sec with
  | none => .next s
  | some y =>
    let st : Option (L1St × Nat) := match y.st, x.grant with
      | .isd, .s => some (.s, 0)
      | .isd, .e => some (.e, 0)
      | .imd, .m | .sma, .m => some (.m, 0)
      | .imd, .sw | .sma, .sw => some (.sw, 0)
      | .ild, .l i => some (.l, i)
      | _, _ => none
    match st with
    | none => .next s
    | some (st, i) =>
      let bad := if y.st == .sma then y.bad else s.poisonOf sec
      let s := s.setL1 x.core sec { L1Sec.of st x.data with entry := i, nt := y.nt, rd := y.rd, bad := bad }
      .next (match y.held with
        | some (inv, txn) => s.forward x.core x.pa inv txn
        | none => s)

/-- WBACK at an L1. -/
def execWback (x : EvSector) (s : State) : Out :=
  s.fromHome x.core x.pa fun s =>
    match s.l1 x.core (x.pa / 64) with
    | some y => .next (if y.leaves then s.delL1 x.core (x.pa / 64) else s)
    | none => .next s

/-- L1 EVICTION (R94). A sector that is placed first for replacement goes before the others of its line (R132; the spec gives the L1 no sets:
DESIGN CHOICE, assumption 44). -/
def execL1Eviction (x : EvSector) (s : State) : Out :=
  let nt := (lineSecs x.pa).filter fun y => (s.l1 x.core y).any (·.nt)
  let sec := if nt.contains (x.pa / 64) then x.pa / 64 else nt.head?.getD (x.pa / 64)
  .next (s.evict (s.partOf x.core) x.core sec true true)

/-! ### The host (R99, R379) -/

/-- A change of every partition whose homes track a sector for the host. -/
def State.forHost (s : State) (sec : Nat) (f : Nat → State → State) : State :=
  s.parts.foldl (fun s e => if e.2.sys && (alook sec e.2.hostSecs).isSome then f e.1 s else s) s

/-- A home that tracks a sector for the host holds it: a snoop waits as a request does (R95, R99). -/
def State.hostHeld (s : State) (sec : Nat) : Bool :=
  s.parts.any fun e => e.2.sys && (alook sec e.2.hostSecs).isSome
    && (!s.homeFree e.1 sec || ((e.2.entry (sec / 4)).tu && s.tuHeld (sec / 4) none))

def State.setHostSec (s : State) (p sec : Nat) (own : Option Bool) : State :=
  s.modPart p fun q => { q with hostSecs := match own with
    | some o => aset sec o q.hostSecs
    | none => adel sec q.hostSecs }

/-- SNPDATA (R99): the sector is recalled, the home keeps it shared. -/
def execSnpData (x : EvHost) (s : State) : Out :=
  if s.hostHeld (x.pa / 64) then .next { s with later := s.later ++ [.snpData x] } else
  .next (s.forHost (x.pa / 64) fun p s => (s.homeRead p (x.pa / 64)).setHostSec p (x.pa / 64) (some false))

/-- SNPINV (R99): every copy goes, the host writes; a watched sector is read again. -/
def execSnpInv (x : EvHostData) (s : State) : Out :=
  let sec := x.pa / 64
  if s.hostHeld sec then .next { s with later := s.later ++ [.snpInv x] } else
  let s := s.forHost sec fun p s =>
    let s := ((s.beforeWrite p sec none).recall p sec true none).markSector p sec
    let s := s.setHostSec p sec none
    if (s.entry p (sec / 4)).watched (sec % 4) then s.push [.rdSharedReread x] else s
  .next { s with mem := memWrite s.mem (64 * sec) (sectorBytes x.data) }

/-- SNPCUR (R99): the current data is returned. -/
def execSnpCur (x : EvHost) (s : State) : Out :=
  if s.hostHeld (x.pa / 64) then .next { s with later := s.later ++ [.snpCur x] } else .next (s.forHost (x.pa / 64) fun p s => s.homeRead p (x.pa / 64))

/-- RDSHARED REREAD (R99): the home holds the sector again, and the wakes are sent. -/
def execRdSharedReread (x : EvHostData) (s : State) : Out :=
  let sec := x.pa / 64
  let s : State := { s with mem := memWrite s.mem (64 * sec) (sectorBytes x.data) }
  .next (s.parts.foldl (fun s e =>
    if e.2.sys && (e.2.entry (sec / 4)).watched (sec % 4) then (s.setHostSec e.1 sec (some false)).sendWakes e.1 (sec / 4) (1#4 <<< (sec % 4)) else s) s)

/-- BISNPINV RESPONSE (R99): the host has given up its copy; data that it had modified goes into the L2. -/
def execBiSnpInvResponse (x : EvBi) (s : State) : Out :=
  match s.partOfPa x.pa with
  | none => .next s
  | some p =>
    let sec := x.pa / 64
    let open_ := (s.homeSec p sec).txn.any (·.host)
    let s := match (if open_ then x.data else none) with
      | some d => s.putL2 p sec d
      | none => s
    let s := s.modHome p sec fun h => { h with txn := h.txn.map fun t => { t with host := false } }
    .next ((s.checkSi p sec).nextReq p sec)

/-- An HDM decoder of a host port is bound to the window that holds an address (R379). -/
def Part.decodes (q : Part) (pa : Nat) : Bool := q.windows.any fun w => inWindow w pa && !w.hdm.isEmpty

/-- MEMWR (R99, R379): a write at the home, through a decoder. -/
def execMemWr (x : EvMemWr) (s : State) : Out :=
  match (s.partOfPa x.pa).filter fun p => (s.part? p).any fun q => q.decodes x.pa with
  | none => .next s
  | some p =>
    let sec := x.pa / 64
    let lad := (s.lading? p x.pa).filter fun e => !e.2.clear
    if (s.part? p).elim false (·.frozen) || !s.homeFree p sec || lad.isSome || ((s.entry p (sec / 4)).tu && s.tuHeld (sec / 4) none) then
      .next { (lad.elim s fun e => s.ladWait p e.1 none) with later := s.later ++ [.memWr x] }
    else .next (s.homeWrite p (x.pa / 64) none x.data x.mask none)

/-- HOST MEMRD (R99, R379): a read at the line's home; the host caches the line. -/
def execHostMemRd (x : EvMemRd) (s : State) : Out :=
  match s.part? x.part with
  | none => .next s
  | some q =>
    if !q.decodes x.pa then .next s
    else
    let lad := (s.lading? x.part x.pa).filter fun e => !e.2.clear
    if q.frozen || !s.homeFree x.part (x.pa / 64) || lad.isSome then
      .next { (lad.elim s fun e => s.ladWait x.part e.1 none) with later := s.later ++ [.hostMemRd x] }
    else .next ((s.homeRead x.part (x.pa / 64)).modEntry x.part (x.pa / 256) fun e => { e with host := true })

/-- CXL.CACHE RESPONSE (R99): the sector arrives for the request that waits; an eviction's answer ends it. -/
def execCxlCacheResponse (x : EvCxl) (s : State) : Out :=
  let sec := x.pa / 64
  .next (s.parts.foldl (fun s e =>
    let p := e.1
    match x.req, (s.homeSec p sec).st, (s.homeSec p sec).txn with
    | .rdShared, .uf, some t | .rdOwn, .uf, some t =>
      let s : State := { s with mem := memWrite s.mem (64 * sec) (sectorBytes x.data) }
      let s := s.setHostSec p sec (some (x.req == .rdOwn))
      ((s.modHome p sec fun h => { h with st := .u, txn := none }).serve p sec t.req).nextReq p sec
    | .dirtyEvict, _, _ | .cleanEvict, _, _ => s.setHostSec p sec none
    | _, _, _ => s) s)

end Sys2Proof.Machine
end

