-- ==== Sys2Proof/Machine/Commands.lean ====
section
/-! DEFINITION. The commands of R392 but for switches, resizes and resets: NOP, LAUNCH, RRELEASE, RPRIO, POSTSET, TFLUSH, DROVER, QCREATE, QDESTROY,
SIGNAL, MAPQ and DIRDUMP. -/

namespace Sys2Proof.Machine

/-! ### Arguments (assumption 30) -/

/-- A field of argument dword i: its place among the 752 bits of ARGS. -/
def argF (i lo n : Nat) : Nat × Nat := (64 * i + lo, n)

/-- A whole argument dword. -/
def argD (i : Nat) : Nat × Nat := argF i 0 64

/-- Bytes at a physical address lie in a window of a function's partition. -/
def State.fnOwns (s : State) (f pa n : Nat) : Bool :=
  (s.part? (s.fn f).part).elim false fun p => p.windows.any fun w => inWindow w pa && decide (pa + n ≤ w.base + w.size)

/-- Bytes at a physical address lie in the own window of a function's partition. -/
def State.fnPriv (s : State) (f pa n : Nat) : Bool :=
  (s.part? (s.fn f).part).elim false fun p => p.windows.any fun w => w.priv && inWindow w pa && decide (pa + n ≤ w.base + w.size)

/-- The region that a region command names, or the status with which the command ends (R393). -/
def State.regionFor (s : State) (f rcb : Nat) : Except Nat Region :=
  if !s.fnOwns f rcb 512 then .error 6
  else
    match s.region? rcb with
    | none => .error 3
    | some r =>
      match r.launch with
      | none => .error 3
      | some (g, _) => if g = f then .ok r else .error 6

/-- A region command on a region that its function launched. -/
def regionCommand (x : EvCmd) (fields : List (Nat × Nat)) (s : State) (f : Nat → Region → State → State) : Out :=
  asCommand x false false (argD 0 :: fields) s fun s =>
    let rcb := cmdArg x.cmd 0
    match s.regionFor x.fn rcb with
    | .error st => s.endCmd x st
    | .ok r => f rcb r s

/-! ### NOP, SIGNAL, TFLUSH -/

/-- NOP. -/
def execNopCommand (x : EvCmd) (s : State) : Out := asCommand x false false [] s fun s => s.endCmd x 0

/-- SIGNAL: an addition to a counter of the function (R386). -/
def execSignal (x : EvCmd) (s : State) : Out :=
  asCommand x false false [argF 0 0 16, argD 1] s fun s =>
    let i := cmdArg x.cmd 0
    let s := s.modFn x.fn fun y => { y with counters := aset i (y.counter i + BitVec.ofNat 64 (cmdArg x.cmd 1)) y.counters }
    (s.endCmd x 0).retryWaits x.fn

/-- A thread of the clusters runs in an ASID. -/
def State.inAsid (s : State) (here : List Nat) (asid : BitVec 16) (e : (Nat × Nat) × Thread) : Bool :=
  here.contains (clusterOf e.1.1) && (s.region? e.2.region).any fun r => r.asid = asid

/-- A walk starts again at the root of its thread's region. -/
def State.againWalks (s : State) (t : Thread) : Thread :=
  { t with ops := t.ops.map fun o => { o with walk := o.walk.map fun w => ⟨w.va, (s.region? t.region).elim 0 (·.troot), 0, []⟩ } }

/-- TFLUSH (R78, R79): what the TLBs of the partition's clusters hold of an ASID is dropped, and its walks start again, once the accesses that have
translated through it have performed. -/
def execTflush (x : EvCmd) (s : State) : Out :=
  asCommand x false false [argF 0 0 16] s fun s =>
    let asid := BitVec.ofNat 16 (cmdArg x.cmd 0)
    let here := ((s.part? (s.fn x.fn).part).elim [] homeList)
    let mine := s.inAsid here asid
    if s.threads.any fun e => mine e && e.2.ops.any fun o => o.parked.isNone && o.walk.isNone && o.kind.translated.isSome then s.later1 (.tflush x)
    else
      let s : State := { s with
        tlbs := s.tlbs.map fun e => if here.contains e.1 then (e.1, e.2.filter fun t => t.asid ≠ asid) else e
        threads := s.threads.map fun e => if mine e then (e.1, s.againWalks e.2) else e }
      s.endCmd x 0

/-! ### LAUNCH (R289 to R291, R393) -/

/-- A region control block (R288) as numbers: the 512 bytes. -/
def rcbField (b : Nat) (lo n : Nat) : Nat := b / 2 ^ lo % 2 ^ n

/-- A reserved field of the block is nonzero. -/
def rcbReserved (b : Nat) : Bool :=
  let f := rcbField b
  f 272 48 ≠ 0 || f 398 2 ≠ 0 || f 460 52 ≠ 0 || f 608 32 ≠ 0 || f 1408 512 ≠ 0 || (List.range 4).any fun i => f (1280 + 32 * i + 24) 8 ≠ 0

/-- The clusters of a core map in memory (R290); none when an entry has a bit of 15:14 set. -/
def mapEntries (bs : List Byte) (n : Nat) : Option (List Nat) :=
  (List.range n).mapM fun i =>
    let e := ofBytes ((bs.drop (2 * i)).take 2)
    if 2 ^ 14 ≤ e then none else some (e % 128 + 128 * (e / 128))

/-- The map is valid (R289, R290): distinct clusters of the partition, a child's among its parent's. -/
def mapOk (p : Part) (parent : Option Region) (l : List Nat) : Bool :=
  l.Nodup && (l.all fun k => p.tracts.contains (tractOfCluster k)) && (parent.elim true fun r => l.all fun k => r.cmap.contains k)

/-- The core map that a block names, read and judged; a child that takes its parent's has it judged already. -/
def State.rcbMap (s : State) (f : Nat) (p : Part) (b : Nat) (parent : Option Region) : Option (List Nat) × State :=
  match (if b.testBit 256 then none else parent) with
  | some r => (some r.cmap, s)
  | none =>
    let a := rcbField b 320 64
    let n := rcbField b 384 14
    if n = 0 || 10240 < n || a % 64 ≠ 0 || !s.fnOwns f a (2 * n) then (none, s)
    else
      let (bs, s) := s.homeReadBytes (s.fn f).part a (2 * n)
      match mapEntries bs n with
      | some l => (if mapOk p parent l then some l else none, s)
      | none => (none, s)

/-- The region that a block describes, its groups resolved (R289). -/
def regionOf (b : Nat) (part : Nat) (tag : BitVec 16) (cmap : List Nat) (parent : Option Region) (launch : Nat × Nat × Nat) : Region :=
  let f := rcbField b
  let w := fun (lo : Nat) => BitVec.ofNat 64 (f lo 64)
  let q : Region := {
    parent := f 0 64
    children := []
    part := part
    selfva := w 192
    cmap := cmap
    slots := f 400 8
    prio := f 408 4
    emode := BitVec.ofNat 2 (f 412 2)
    swmode := b.testBit 414
    lmperm := b.testBit 415
    l1sz := BitVec.ofNat 2 (f 416 2)
    rootp := f 418 6
    tceil := f 424 8
    asid := BitVec.ofNat 16 (f 432 16)
    rquota := f 448 12
    troot := f 512 64
    tariff := f 576 32
    fltq := w 640
    fline := w 704
    crec := w 768
    trapa := w 832
    passa := w 896
    passr := w 960
    postt := w 1024
    posts := w 1088
    sheap := w 1152
    shlen := f 1216 64
    nsp := (List.range 4).map fun i => (64 * f (1280 + 32 * i) 12, 64 * f (1280 + 32 * i + 12) 12)
    rstate := .live
    rlive := 0
    acts := 0
    sent := 0
    consumed := 0
    lastWave := none
    faults := 0
    ovfclr := false
    rerun := false
    disc := 0
    pairing := none
    unpaired := []
    charge := 0
    allow := f 576 32
    tmasked := false
    frontier := Key.top
    lastCleared := none
    clearq := []
    tag := tag
    aliases := []
    crecDue := false
    crecLost := false
    gtend := 0
    launch := some launch
    switch := none
    vacated := [] }
  match parent with
  | none => q
  | some r =>
    let own := fun (i : Nat) => b.testBit (256 + i)
    { q with
      aliases := if own 0 then r.aliases.filter fun e => cmap.contains (clusterOf e.1) else r.aliases
      slots := if own 1 then q.slots else r.slots
      prio := if own 2 then q.prio else r.prio
      emode := if own 3 then q.emode else r.emode
      swmode := if own 4 then q.swmode else r.swmode
      lmperm := if own 5 then q.lmperm else r.lmperm
      l1sz := if own 5 then q.l1sz else r.l1sz
      tceil := if own 6 then q.tceil else r.tceil
      tariff := if own 7 then q.tariff else r.tariff
      allow := if own 7 then q.tariff else r.tariff
      troot := if own 8 then q.troot else r.troot
      asid := if own 8 then q.asid else r.asid
      rquota := if own 9 then q.rquota else r.rquota
      fltq := if own 10 then q.fltq else r.fltq
      fline := if own 10 then q.fline else r.fline
      trapa := if own 11 then q.trapa else r.trapa
      passa := if own 12 then q.passa else r.passa
      passr := if own 12 then q.passr else r.passr
      postt := if own 13 then q.postt else r.postt
      posts := if own 13 then q.posts else r.posts
      sheap := if own 14 then q.sheap else r.sheap
      shlen := if own 14 then q.shlen else r.shlen
      nsp := if own 15 then q.nsp else r.nsp }

/-- A region has not ended: it owns its posts and cores. -/
def Region.present (r : Region) : Bool := r.rstate != .ended

/-! #### Posts (R341) -/

/-- The posts that a bitmap names. -/
def postList (bits : BitVec 64) : List Nat := (List.range 64).filter fun p => bits.getLsbD p

/-- The entries of a region's post table; none when it fails translation. -/
def State.postTable (s : State) (region : Nat) (r : Region) : Option (List Byte) × State := s.devRead (s.anyCore r) region r.postt 1024

/-- Entry p of a post table. -/
def postEntry (bs : List Byte) (p : Nat) : Nat := ofBytes ((bs.drop (16 * p)).take 16)

/-- A reserved bit of an entry is set. -/
def postBad (e : Nat) : Bool := 2 ^ 76 ≤ e

/-- The copied fields of an entry, over the state that a core keeps for the post. -/
def Post.load (old : Post) (region prio e : Nat) : Post :=
  let own := e.testBit 68
  { old with
    region := region
    hpc := BitVec.ofNat 64 e
    prio := if own then e / 2 ^ 64 % 16 else prio
    ownPrio := own
    cls := e / 2 ^ 69 % 4
    fmask := e.testBit 71
    rsv := e / 2 ^ 72 % 16 }

/-- The state of a post that a core has not had. -/
def Post.new (region : Nat) : Post := ⟨region, 0, 0, false, 0, false, 0, 0, 0, false, false, false, false, 0, 0⟩

/-- The entries of the posts of a list are copied to every core of a region's map. -/
def State.copyPosts (s : State) (region : Nat) (r : Region) (bs : List Byte) (l : List Nat) : State :=
  (s.mapCores r).dedup.foldl (fun s c => s.modCore c fun y =>
    { y with posts := l.foldl (fun ps p => aset p (((alook p ps).getD (Post.new region)).load region r.prio (postEntry bs p)) ps) y.posts }) s

/-- Another region that has not ended owns a post of a list on a core of the map. -/
def State.postsTaken (s : State) (region : Nat) (r : Region) (l : List Nat) : Bool :=
  (s.mapCores r).any fun c => l.any fun p => match s.postRegion c p with
    | some g => g ≠ region && (s.region? g).elim false (·.present)
    | none => false

/-- The reservations on some core would exceed 192 slots. -/
def State.overReserved (s : State) (r : Region) (bs : List Byte) (l : List Nat) : Bool :=
  let new := (l.map fun p => postEntry bs p / 2 ^ 72 % 16).sum
  (s.mapCores r).any fun c => 192 < (((s.core c).posts.filter fun e => !l.contains e.1).map (·.2.rsv)).sum + new

/-! #### Pairing offsets (R329) -/

/-- Two cores can form a pair: of different clusters, at least 8 hops apart. -/
def farApart (a b : Nat) : Bool :=
  clusterOf a ≠ clusterOf b && decide (8 ≤ (coreX a - coreX b) + (coreX b - coreX a) + (coreY a - coreY b) + (coreY b - coreY a))

/-- The offsets by which every core of a list has a core to pair with. -/
def goodOffsets (l : List Nat) : List Nat :=
  let e := l.length
  (List.range e).filter fun d => d ≠ 0 && (List.range e).all fun i => farApart (l.getD i 0) (l.getD ((i + d) % e) 0)

/-- The second pairs that go with a first offset. -/
def secondPairs (e : Nat) (good : List Nat) (o1 : Nat) : List (Nat × Nat) :=
  (List.range e).flatMap fun o2 =>
    if o2 = 0 || o2 = o1 then [] else
      good.filterMap fun d => let o3 := (o2 + d) % e; if o3 = 0 || o3 = o1 then none else some (o2, o3)

/-- Offsets o1, o2 and o3, of those that the rule allows. -/
def State.pickPairing (s : State) (l : List Nat) : Option (Nat × Nat × Nat) × State :=
  let good := goodOffsets l
  let (o1, s) := s.choose (good.filter fun o => !(secondPairs l.length good o).isEmpty)
  match o1 with
  | none => (none, s)
  | some o1 =>
    let (x, s) := s.choose (secondPairs l.length good o1)
    (x.map fun y => (o1, y.1, y.2), s)

/-! #### The checks -/

/-- Another region that has not ended has a core in its map. -/
def State.served (s : State) (region c : Nat) : Bool :=
  s.regions.any fun e => e.1 ≠ region && e.2.present && e.2.cmap.contains (clusterOf c)

/-- What L1SZ at launch comes to (R150). -/
inductive SplitRes where
  | ok (s : State)
  | waits
  | busy

/-- The split that a region names is applied to every core of its map. -/
def State.splitAll (s : State) (region : Nat) (code : BitVec 2) : List Nat → SplitRes
  | [] => .ok s
  | c :: l =>
    if (s.core c).l1sz = code then s.splitAll region code l
    else if s.served region c then .busy
    else
      match s.resplit c code with
      | (some 0, s) => s.splitAll region code l
      | (some _, _) => .busy
      | (none, _) => .waits

/-- The outcome of a LAUNCH's checks: the state with the region set up, the DETAIL of the first failure with its status, or a wait. -/
inductive LaunchRes where
  | go (s : State)
  | fail (status detail : Nat)
  | waits

/-- R393 gives the status: no-resource where a resource is taken, else bad-argument. -/
def launchFail (detail : Nat) : LaunchRes := .fail (if [3, 5, 7, 11].contains detail then 5 else 3) detail

/-- The region enters its tree: its block is linked as the parent's first child (R291). -/
def State.linkRegion (s : State) (rcb : Nat) (r : Region) : State :=
  let put := fun (s : State) (a v : Nat) => s.homeWriteBytes r.part a (toBytes 8 v) none
  if r.parent = 0 then put (put s (rcb + 8) 0) (rcb + 16) 0
  else
    let (bs, s) := s.homeReadBytes r.part (r.parent + 8) 8
    let s := put (put (put s (rcb + 8) 0) (rcb + 16) (ofBytes bs)) (r.parent + 8) rcb
    s.modRegion r.parent fun q => { q with children := rcb :: q.children.filter (· ≠ rcb) }

/-- The logical core of part k. -/
def partLcn (c : BitVec 1024) (k : Nat) : Nat := cmdArg c 1 % 2 ^ 32 + k * (cmdArg c 1 / 2 ^ 32)

/-- NPART. -/
def nparts (c : BitVec 1024) : Nat := cmdArg c 2 % 256

/-- The control sector of every slice of the region's spill heap starts with zeros (R347). -/
def State.zeroSlices (s : State) (rcb : Nat) (r : Region) : State :=
  (s.mapOrig r).foldl (fun s c => (s.devWrite (r.hostOf c) rcb (s.slice r c).1 (SliceCtl.bytes ⟨0, 0, 0, 0⟩) false).2) s

/-- The pairing offsets stand in the block's device-state part (R288, R329), in its first three words: the manual gives no place
(assumption 44). -/
def State.putOffsets (s : State) (rcb : Nat) (r : Region) : State :=
  match r.pairing with
  | some (o1, o2, o3) => s.homeWriteBytes r.part (rcb + 256) (toBytes 256 (packFields [(0, 32, o1), (32, 32, o2), (64, 32, o3)])) none
  | none => s

/-- The checks from the map on, over a state that knows the region. -/
def State.launchOn (s : State) (x : EvCmd) (rcb : Nat) (r : Region) : LaunchRes :=
  let y := s.fn x.fn
  if r.asid.toNat < y.asidLo || y.asidHi < r.asid.toNat then launchFail 6
  else if (List.range (nparts x.cmd)).any fun k => (s.mapOrig r).length ≤ partLcn x.cmd k then launchFail 15
  else
    let s := { s with regions := aset rcb r s.regions }
    let l := postList r.posts
    match s.postTable rcb r with
    | (none, _) => launchFail 13
    | (some bs, s) =>
      if l.any fun i => postBad (postEntry bs i) then launchFail 14
      else if s.postsTaken rcb r l then launchFail 7
      else if s.overReserved r bs l then launchFail 3
      else if r.shlen / max 1 (s.mapOrig r).length / 64 * 64 < 128 then launchFail 4
      else
        let suspects := (List.range (s.mapOrig r).length).filter fun i => (s.core ((s.mapOrig r).getD i 0)).suspect
        let (pair, s) := if r.emode = 2 then s.pickPairing (((s.mapOrig r).filter fun c => !(s.core c).suspect)) else (none, s)
        if r.emode = 2 && pair.isNone then launchFail 5
        else
          match s.splitAll rcb r.l1sz (s.mapCores r).dedup with
          | .busy => launchFail 11
          | .waits => .waits
          | .ok s =>
            let r := { r with pairing := pair, unpaired := if r.emode = 2 then suspects else [], sent := nparts x.cmd }
            let s := { s with regions := aset rcb r s.regions }
            let s := (((((s.linkRegion rcb r).copyPosts rcb r bs l).zeroSlices rcb r).putOffsets rcb r)).syncRegion rcb
            .go (s.retariff.rethrottle r.cmap)

/-- The checks of a LAUNCH in the order of R393, and its set-up. -/
def State.launchSetup (s : State) (x : EvCmd) (rcb : Nat) : LaunchRes :=
  match s.part? (s.fn x.fn).part with
  | none => .fail 6 0
  | some p =>
    if !s.fnOwns x.fn rcb 512 then .fail 6 0
    else if nparts x.cmd = 0 || 64 < nparts x.cmd then .fail 3 0
    else if rcb % 512 ≠ 0 || !s.fnPriv x.fn rcb 512 then launchFail 12
    else
      let (bs, s) := s.homeReadBytes (s.fn x.fn).part rcb 512
      let b := ofBytes bs
      if rcbField b 1920 2 ≠ 0 || (s.region? rcb).any fun q => q.present || q.crecDue then launchFail 12
      else if rcbReserved b then launchFail 1
      else
        let up := rcbField b 0 64
        let parent := if up = 0 then none else s.region? up
        if up = 0 && rcbField b 256 16 ≠ 2 ^ 16 - 1 then launchFail 8
        else if up ≠ 0 && !(parent.any fun q => q.rstate == .live && q.part = (s.fn x.fn).part) then launchFail 9
        else
          match s.rcbMap x.fn p b parent with
          | (none, _) => launchFail 2
          | (some l, s) => s.launchOn x rcb (regionOf b (s.fn x.fn).part (s.fnTag x.fn) l parent (x.fn, x.q, x.idx))

/-- Part k goes to post ROOTP of its core (R291). -/
def State.launchPart (s : State) (x : EvCmd) (rcb k : Nat) : State :=
  match s.region? rcb with
  | none => s
  | some r =>
    let s := s.modSlot x.fn x.q x.idx fun y => { y with step := k + 1 }
    let m : Msg := ⟨mkHdr r.rootp 3 r.prio none 0 2 0, x.cmd.extractLsb' (256 + 64 * 3) 384, r.tag⟩
    let s := match s.origOf r (partLcn x.cmd k) with
      | some c => s.push [.messageArrival ⟨c, m, none, false, { MsgMark.new with region := rcb }⟩]
      | none => s.consume rcb 1
    if k + 1 < nparts x.cmd then s.push [.launch x] else s

/-- Another function's slice of its partition runs, or the partition switches (R396): no region of the function starts then. -/
def State.sliced (s : State) (f : Nat) : Bool :=
  (s.part? (s.fn f).part).any fun q => decide (2 ≤ q.fns.length) && (q.active ≠ f || q.world.isSome)

/-- LAUNCH: the set-up with the first part, then one part at a time (R394 discards those not delivered), in the function's time slice (R396). It completes
with the region's completion record. -/
def execLaunch (x : EvCmd) (s : State) : Out :=
  let fields := [argD 0, argD 1, argF 2 0 8] ++ (List.range 6).map fun i => argD (3 + i)
  asCommand x false false fields s fun s =>
    let rcb := cmdArg x.cmd 0
    match s.slot? x.fn x.q x.idx with
    | none => s
    | some y =>
      if s.sliced x.fn then s.later1 (.launch x)
      else if y.step = 0 then
        match s.launchSetup x rcb with
        | .fail st d => s.endCmd x st d
        | .waits => s.later1 (.launch x)
        | .go s => (s.lateErrs (s.fn x.fn).part).launchPart x rcb 0
      else if y.step < nparts x.cmd then s.launchPart x rcb y.step
      else s

/-! ### RRELEASE, RPRIO, POSTSET -/

/-- The block that links to another as its sibling, from a first block on. -/
def State.siblingBefore (s : State) (p rcb : Nat) : Nat → Nat → Option Nat × State
  | _, 0 => (none, s)
  | a, fuel + 1 =>
    if a = 0 then (none, s)
    else
      let (bs, s) := s.homeReadBytes p (a + 16) 8
      if ofBytes bs = rcb then (some a, s) else s.siblingBefore p rcb (ofBytes bs) fuel

/-- A block leaves its tree (R292). -/
def State.unlinkRegion (s : State) (rcb : Nat) (r : Region) : State :=
  let s := { s with regions := adel rcb s.regions }
  if r.parent = 0 then s
  else
    let (sib, s) := s.homeReadBytes r.part (rcb + 16) 8
    let (first, s) := s.homeReadBytes r.part (r.parent + 8) 8
    let put := fun (s : State) (a : Nat) => s.homeWriteBytes r.part a sib none
    let s := if ofBytes first = rcb then put s (r.parent + 8)
      else
        match s.siblingBefore r.part rcb (ofBytes first) (s.regions.length + 1) with
        | (some a, s) => put s (a + 16)
        | (none, s) => s
    s.modRegion r.parent fun q => { q with children := q.children.filter (· ≠ rcb) }

/-- RRELEASE: it waits while the region's completion record is outstanding. -/
def execRrelease (x : EvCmd) (s : State) : Out :=
  regionCommand x [] s fun rcb r s =>
    if r.rstate != .ended then s.endCmd x 3
    else if r.crecDue then s.later1 (.rrelease x)
    else (s.unlinkRegion rcb r).endCmd x 0

/-- RPRIO (R346): the region's priority, and that of its posts without one of their own. -/
def execRprio (x : EvCmd) (s : State) : Out :=
  regionCommand x [argF 1 0 4] s fun rcb r s =>
    let prio := cmdArg x.cmd 1
    let s := s.modRegion rcb fun r => { r with prio := prio }
    let s := (s.mapCores r).dedup.foldl (fun s c => s.modCore c fun y =>
      { y with posts := y.posts.map fun e => if e.2.region = rcb && !e.2.ownPrio then (e.1, { e.2 with prio := prio }) else e }) s
    s.endCmd x 0

/-- POSTSET (R341): the entries that the bitmap names, of those that the region owns, are copied again. -/
def execPostset (x : EvCmd) (s : State) : Out :=
  regionCommand x [argD 1] s fun rcb r s =>
    if !r.present then s.endCmd x 0
    else
      let l := postList (r.posts &&& BitVec.ofNat 64 (cmdArg x.cmd 1))
      match s.postTable rcb r with
      | (none, s) => s.endCmd x 3
      | (some bs, s) => if l.any fun i => postBad (postEntry bs i) then s.endCmd x 3 else (s.copyPosts rcb r bs l).endCmd x 0

/-! ### DROVER, QCREATE, QDESTROY -/

/-- The stages of a block share a live region of the partition, and their posts differ (R355). -/
def State.stagesOk (s : State) (p : Nat) (l : List Stage) : Bool :=
  (l.map (·.post)).Nodup && (l.all fun y => l.all fun z => y.region = z.region)
    && l.all fun y => (s.region? y.region).any fun r => r.part = p && r.present

/-- DROVER (R355, R356). -/
def execDrover (x : EvCmd) (s : State) : Out :=
  asCommand x false false [argD 0, argF 1 0 1] s fun s =>
    let p := (s.fn x.fn).part
    let b := cmdArg x.cmd 0
    let on := cmdArg x.cmd 1 = 1
    if !s.fnOwns x.fn b 1088 then s.endCmd x 6
    else if !s.fnPriv x.fn b 1088 then s.endCmd x 3
    else
      let old := s
      let s := s.modPart p fun q => { q with drover := { q.drover with block := b } }
      let (l, s) := s.stages p
      if on && !s.stagesOk p l then old.endCmd x 3
      else
        let (h, s) := s.homeReadBytes p b 1
        let s := s.homeWriteBytes p b (toBytes 1 (ofBytes h / 2 * 2 + bitN on)) none
        let s := s.modPart p fun q => { q with drover := { q.drover with on := on } }
        (if on then s.droverMasks p else s).endCmd x 0

/-- QCREATE: it completes when the QCB is accepted (R385). -/
def execQcreate (x : EvCmd) (s : State) : Out :=
  asCommand x true false [argF 0 0 8, argD 1] s fun s =>
    let q := cmdArg x.cmd 0
    let a := BitVec.ofNat 64 (cmdArg x.cmd 1)
    if q = 0 || a.extractLsb' 0 6 ≠ 0 || (s.queue? x.fn q).any fun y => y.st != .destroyed then s.endCmd x 3
    else if !s.fnReach x.fn a 192 then s.endCmd x 6
    else s.createQueue x.fn q a (some (x.q, x.idx))

/-- QDESTROY (R394): it completes when the queue is destroyed. -/
def execQdestroy (x : EvCmd) (s : State) : Out :=
  asCommand x true false [argF 0 0 8] s fun s =>
    let q := cmdArg x.cmd 0
    if q = 0 then s.endCmd x 3
    else
      match s.queue? x.fn q with
      | none => s.endCmd x 3
      | some y =>
        if y.st == .destroyed then s.endCmd x 3
        else
          let s := s.setQueue x.fn q { y with destroyers := y.destroyers ++ [(x.q, x.idx)] }
          if y.st == .draining then s.checkDrained x.fn q else s.startDrain x.fn q

/-! ### MAPQ, DIRDUMP -/

/-- What MAPQ writes of a cluster (assumption 30): its enabled cores, its engine, its grade and its clock step. -/
def State.mapWord (s : State) (k : Nat) : Nat :=
  let cores := ((List.range 16).filter fun i => s.coreEnabled (coreOfCluster k i)).foldl (fun a i => a + 2 ^ i) 0
  let y := s.cluster k
  packFields [(0, 16, cores), (16, 1, bitN (s.engineEnabled k)), (24, 2, y.grade), (32, 8, (1500 - y.mhz) / 25)]

/-- MAPQ (R354, R287). -/
def execMapq (x : EvCmd) (s : State) : Out :=
  asCommand x false false [argD 0] s fun s =>
    match s.part? (s.fn x.fn).part with
    | none => s.endCmd x 6
    | some p =>
      let l := homeList p
      let a := BitVec.ofNat 64 (cmdArg x.cmd 0)
      if !s.fnReach x.fn a (8 * l.length + 8) then s.endCmd x 6
      else (s.fnWrite x.fn a (vecBytes 8 (l.map s.mapWord ++ [p.orphans]))).endCmd x 0

/-- A home state's code in SST (R90): an open fill is U, an open forward X, open invalidations of an S sector S (assumption 44). -/
def HomeSt.code : HomeSt → Nat
  | .u | .uf => 0
  | .s | .si => 1
  | .x | .xfs | .xfx | .xfsg | .xfxg => 2

/-- A directory entry in the layout of R90. Its chain holds the watchers beyond the fourth, and the speculative readers. -/
def DirEntry.dump (e : DirEntry) (spr : Bool) : List Byte :=
  let chn := spr || decide (4 < e.watchers.length)
  let chain := if chn then e.chain.getD 0 else 0
  let ptrs := if e.coarse then [(16, 64, e.tracts.toNat)]
    else (List.range 4).map fun i => let p := e.ptrs.getD i (0, 0); (22 * i + 16, 22, p.2.toNat * 2 ^ 18 + p.1)
  let ws := (List.range 4).flatMap fun j => match e.watchers[j]? with
    | some w => [(38 * j + 104, 38, w.kind.toNat * 2 ^ 36 + w.smask.toNat * 2 ^ 32 + w.target.toNat)]
    | none => []
  toBytes 36 (packFields (((List.range 4).map fun i => (2 * i, 2, (e.sec i).st.code))
    ++ [(8, 1, bitN e.coarse), (9, 1, bitN e.host), (10, 1, bitN e.tu), (11, 1, bitN spr), (12, 1, bitN chn), (256, 32, chain)] ++ ptrs ++ ws))

/-- DIRDUMP. -/
def execDirdump (x : EvCmd) (s : State) : Out :=
  asCommand x true true [argD 0, argD 1] s fun s =>
    let a := BitVec.ofNat 64 (cmdArg x.cmd 1)
    let line := cmdArg x.cmd 0 / 256
    match s.part? (s.fn x.fn).part with
    | none => s.endCmd x 6
    | some p =>
      if !s.fnOwns x.fn (cmdArg x.cmd 0) 1 || !s.fnReach x.fn a 36 then s.endCmd x 6
      else
        let e := p.entry line
        let spr := p.readers.any fun r => r.name = line
        (s.fnWrite x.fn a (e.dump spr)).endCmd x 0

end Sys2Proof.Machine
end

