-- ==== Sys2Proof/Machine/Requests.lean ====
section
/-! DEFINITION. Acting on other threads: passports (R293, R294), the requests of R308 to R315, THNEW (R309), and what a stopped
thread's context and frame give and take (R312, R364). -/

namespace Sys2Proof

/-- The bit of R293 that a request needs. -/
def ThReq.right : ThReq → Nat
  | .stop => 0
  | .start => 1
  | .read _ | .stat => 2
  | .write _ _ => 3
  | .kill => 4
  | .create _ _ _ => 5

/-- The request changes nothing of its target, so that it acts in every effect mode (R308). -/
def ThReq.looks : ThReq → Bool
  | .read _ | .stat => true
  | _ => false

end Sys2Proof

namespace Sys2Proof.Machine

/-! ### Passports (R293, R294) -/

/-- What a block of a passport says: the rights of its matching entries before a chain entry, and the chain; in the last block a chain
entry reads as empty. -/
def passScan (tid : BitVec 32) (inTree : Nat → Bool) (last : Bool) : List (Word × Word) → BitVec 5 → BitVec 5 × Option Word
  | [], acc => (acc, none)
  | (a, b) :: l, acc =>
    let kind := (a.extractLsb' 0 3).toNat
    let mask := a.extractLsb' 32 32
    if kind = 3 && !last then (acc, some b)
    else
      let hit := if kind = 1 then tid &&& mask = b.extractLsb' 0 32 &&& mask else kind = 2 && inTree b.toNat
      passScan tid inTree last l (if hit then acc ||| a.extractLsb' 3 5 else acc)

/-- The dwords of a block in pairs. -/
def passEntries (bs : List Byte) : List (Word × Word) :=
  (List.range 16).map fun i =>
    (BitVec.ofNat 64 (ofBytes ((bs.drop (16 * i)).take 8)), BitVec.ofNat 64 (ofBytes ((bs.drop (16 * i + 8)).take 8)))

/-- The rights that a passport gives over a target in a region; none when a block faults. -/
def State.rightsFrom (w : Who) (t : Thread) (tid : BitVec 32) (inTree : Nat → Bool) : Nat → Word → BitVec 5 → State → Got (Option (BitVec 5))
  | 0, _, acc, s => .ok (some acc) s
  | n + 1, va, acc, s =>
    match s.translateRun w.core w.region va 256 .load 3 with
    | (.error _, s) => .ok none s
    | (.ok rs, s) =>
      (State.readFor w t (.l1 false) (rs.map fun x => ⟨none, x.pa, x.len, x.sh⟩) s).bind fun bs s =>
        match passScan tid inTree (n = 0) (passEntries bs) acc with
        | (acc, some next) => State.rightsFrom w t tid inTree n next acc s
        | (acc, none) => .ok (some acc) s

/-! ### Issue (R308, R311) -/

/-- A status in bits 63:56 (R299). -/
def thStatus (st : Nat) : Word := BitVec.ofNat 64 (st * 2 ^ 56)

/-- The region of the thread that a TID names in a region's map, in its slot or spilled. -/
def State.targetRegion (s : State) (core : Nat) (tid : BitVec 32) : Option Nat :=
  let slot := (tid.extractLsb' 0 8).toNat
  let gen := tid.extractLsb' 26 6
  match s.findThread core slot gen with
  | some (c, k) => (s.thread? c k).map (·.region)
  | none => (s.spilled? core slot gen.toNat).map (·.region)

/-- Every older operation, the stores of other threads that its loads have bound, and the older instructions that have not executed and will count in a
stream (R311). -/
def Thread.allOlder (t : Thread) (no : Nat) : List Dep :=
  t.ops.map (fun o => .op o.id) ++ t.fwds.map (fun x => .far x.2) ++ (t.queued.filter fun e => decide (e.no < no) && t.entryCounts 0xFF e).map fun e => .instr e.no

/-- The thread's older requests to a target that have not left: one issuer's requests arrive in program order (R308). -/
def Thread.unsentTo (t : Thread) (core : Nat) (tid : BitVec 32) : List Dep :=
  (t.ops.filter fun o => match o.kind with
    | .thread _ _ c i _ sent => c = core && i = tid && !sent
    | _ => false).map fun o => .op o.id

/-- A request leaves for its core once its edges are satisfied. -/
def State.sendRequest (s : State) (t : Thread) (d : GReg) (succ : Option Reg3) (core : Nat) (tid : BitVec 32) (req : ThReq) (after : Bool) : State :=
  let c := s.cur.core
  let deps := if after then t.allOlder s.cur.no else t.unsentTo core tid
  let o : Op := ⟨t.nextOp, s.cur.no, none, if after then 0xFF else 0, 0, deps, s.cur.ipc, s.cur.iword, .thread d succ core tid req deps.isEmpty, none, none, false, none⟩
  let s := s.setCur (t.addOp o)
  if deps.isEmpty then s.push [.threadStateRequest ⟨⟨c, s.cur.slot, o.id⟩, core, tid, req, t.region⟩] else s

/-- A held request whose edges are satisfied leaves. -/
def State.tryRequest (s : State) (c k : Nat) (t : Thread) (o : Op) (d : GReg) (succ : Option Reg3) (core : Nat) (tid : BitVec 32) (req : ThReq) : State :=
  (s.modThread c k fun t => t.modOp o.id fun o => { o with kind := .thread d succ core tid req true }).push
    [.threadStateRequest ⟨⟨c, k, o.id⟩, core, tid, req, t.region⟩]

/-- A thread-state instruction: the rights, the target, the mode, then the request (R308). -/
def issueRequest (g : Guard) (d : GReg) (succ : Option Reg3) (a : GReg) (req : Thread → ThReq) (s : State) : Out :=
  guarded g s fun t =>
    let c := s.cur.core
    let tid := (t.rg a).extractLsb' 0 32
    let lcn := (tid.extractLsb' 8 18).toNat
    let core := (s.region? t.region).bind fun r => s.origOf r lcn
    let target := core.bind fun o => s.targetRegion o tid
    let deny : Nat → State → Out := fun st s => .next (s.modCur fun t => (t.wg d (thStatus st)).wp (succ.getD 0) false)
    let inTree : Nat → Bool := fun anc => target.any fun r => s.inTree r anc
    match State.rightsFrom (s.who c s.cur.slot t) t tid inTree 5 t.passb 0 s with
    | .busy s => wait s
    | .poison b s => if t.buffered then .next (s.unissue.push [.consignmentDrop ⟨c, s.cur.slot, none, b⟩]) else deny 10 (s.report (some (s.partOf c)) ⟨2, b.kind, some b.sec, none, t.tid, c, some t.region⟩)
    | .ok rights s =>
      if !(rights.any fun r => r.getLsbD (req t).right) then deny 10 s
      else
        match core, target with
        | some o, some _ =>
          if t.buffered && !(req t).looks then deny 8 s
          else .next (s.sendRequest t d succ o tid (req t) ((req t) == .start))
        | _, _ => deny 6 s

def execThstop (x : GD) (s : State) : Out := issueRequest x.g x.d none x.a (fun _ => .stop) s
def execThstart (x : GD) (s : State) : Out := issueRequest x.g x.d none x.a (fun _ => .start) s
def execThrd (x : ThrdT) (s : State) : Out := issueRequest x.g x.d (some x.c) x.a (fun t => .read (t.rg x.b)) s
def execThwr (x : ThwrT) (s : State) : Out := issueRequest x.g x.d none x.a (fun t => .write (t.rg x.b) (t.rg x.c)) s
def execThstat (x : GD) (s : State) : Out := issueRequest x.g x.d none x.a (fun _ => .stat) s
def execThkill (x : GD) (s : State) : Out := issueRequest x.g x.d none x.a (fun _ => .kill) s

/-- THNEW (R309). -/
def execThnew (x : ThnewT) (s : State) : Out :=
  guarded x.g s fun t =>
    let b := t.rg x.b
    let deny := fun (st : Nat) => Host.Outcome.next (s.setCur (t.wg x.d (thStatus st)))
    match (if b.extractLsb' 18 46 = 0 then (s.region? t.region).bind fun r => s.origOf r b.toNat else none) with
    | none => deny 7
    | some core =>
      if t.buffered then deny 8
      else .next (s.sendRequest t x.d none core 0 (.create (t.rg x.a) (t.rg x.c) x.start) x.start)

/-! ### The context of a stopped thread (R312) -/

/-- The queue entry that an offset of the context names. -/
def queueAt (off : Nat) : Option (Nat × Nat) :=
  if 0xC00 ≤ off && off < 0xF00 then some ((off - 0xC00) / 128, (off - 0xC00) / 8 % 16)
  else if 0xF00 ≤ off && off < 0xF40 then some (6 + (off - 0xF00) / 32, (off - 0xF00) / 8 % 4)
  else none

/-- A dword of the context of a stopped thread. -/
def ctxDword (t : Thread) (x : StopInfo) (off : Nat) : Word :=
  let plain := BitVec.ofNat 64 (ofBytes ((t.context.drop off).take 8))
  match queueAt off with
  | some (q, i) => if i < (t.q.toList.getD q []).length then plain else (alook (q, i) x.qpad).getD 0
  | none => if off = 0xFA0 then x.streams else plain

/-- A dword of a vector register or manifest replaced. -/
def setDword (v : V512) (i : Nat) (w : Word) : V512 := (v &&& ~~~((BitVec.allOnes 64).setWidth 512 <<< (64 * i))) ||| (w.setWidth 512 <<< (64 * i))

/-- The counts of 0xF98 applied: entries that leave a queue stay above its count, and come back with it. -/
def setCounts (t : Thread) (x : StopInfo) (v : Word) : Thread × StopInfo :=
  (List.range 8).foldl (fun (acc : Thread × StopInfo) q =>
    let l := acc.1.q.toList.getD q []
    let n := (v.extractLsb' (5 * q) 5).toNat
    let cell := fun (i : Nat) => l.getD i ((alook (q, i) acc.2.qpad).getD 0)
    let pad := (List.range l.length).foldl (fun p i => if n ≤ i then aset (q, i) (l.getD i 0) p else p) acc.2.qpad
    ({ acc.1 with q := acc.1.q.setIfInBounds q ((List.range n).map cell) }, { acc.2 with qpad := pad })) (t, x)

/-- THWR of a context dword (R312): none when the offset or the value is not accepted. `area` judges a view save area. -/
def ctxWrite (t : Thread) (x : StopInfo) (off : Nat) (v : Word) (area : Nat → Bool) : Option (Thread × StopInfo) :=
  let ok := fun (t : Thread) => some (t, x)
  let al := fun (n : Nat) (t : Thread) => if v.toNat % n = 0 then some (t, x) else none
  if off < 0x200 then ok (t.wg (BitVec.ofNat 6 (off / 8)) v)
  else if off < 0xA00 then
    let r := BitVec.ofNat 5 ((off - 0x200) / 64)
    ok (t.wv r (setDword (t.rv r) (off / 8 % 8) v))
  else if off < 0xC00 then
    let r := BitVec.ofNat 3 ((off - 0xA00) / 64)
    ok (t.wm r (setDword (t.rm r) (off / 8 % 8) v))
  else if off < 0xF40 then
    match queueAt off with
    | some (q, i) =>
      let l := t.q.toList.getD q []
      if i < l.length then ok { t with q := t.q.setIfInBounds q (l.set i v) } else some (t, { x with qpad := aset (q, i) v x.qpad })
    | none => none
  else if off < 0xF80 then
    let r := BitVec.ofNat 4 ((off - 0xF40) / 4)
    ok ((t.wf r (v.extractLsb' 0 32)).wf (r + 1) (v.extractLsb' 32 32))
  else if off = 0xF80 then some ({ t with leadPc := v }, { x with pcWritten := x.pcWritten || v ≠ t.leadPc, leadWritten := true })
  else if off = 0xF88 then some ({ t with trailPc := v }, { x with pcWritten := x.pcWritten || v ≠ t.trailPc })
  else if off = 0xF90 then (if v.extractLsb' 8 56 = 0 then ok { t with p := v.extractLsb' 0 8 ||| 1 } else none)
  else if off = 0xF98 then
    if v.extractLsb' 40 24 = 0 && (List.range 8).all (fun q => (v.extractLsb' (5 * q) 5).toNat ≤ (if q < 6 then 16 else 4)) then some (setCounts t x v)
    else none
  else if off = 0xFA8 then ok { t with rctl := rctlWrite t.rctl v }
  else if off = 0xFB0 then ok { t with sclamp := sclampWrite v }
  else if off = 0xFC8 then al 512 { t with rgn := v }
  else if off = 0xFD0 then al 64 { t with passb := v }
  else if off = 0xFD8 then al 512 { t with trapb := v }
  else if off = 0xFE0 then al 64 { t with fltq := v }
  else if off = 0xFF0 then (if v = 0 || (v.toNat % 64 = 0 && area v.toNat) then ok { t with vsave := v } else none)
  else none

/-- The offset, and for a write the value, that R312 judges before anything else. -/
def thOffsetOk (t : Thread) (area : Nat → Bool) : ThReq → Bool
  | .read off => off.toNat % 8 = 0 && off.toNat < 0x1200
  | .write off v => off.toNat % 8 = 0 && (if off.toNat < 0x1000 then (ctxWrite t ⟨⟨0, 0, .lead, 0, 0, 0, 0, 0, 0, 0⟩, 6, false, 0, [], false, false, 0, 0, [], []⟩
      off.toNat v area).isSome else off.toNat < 0x1200)
  | _ => true

/-! ### At the target (R308 to R315) -/

/-- The reply completes the issuer. -/
def State.reply (s : State) (src : OpRef) (v : Word) (ok : Bool) : State :=
  s.withOp src fun c k s =>
    (s.modThread c k fun t =>
      match (t.op? src.op).map Op.kind with
      | some (.thread d succ _ _ _ _) => (t.wg d v).wp (succ.getD 0) ok
      | _ => t).finishOp c k src.op

/-- A target: a thread in a slot, or a spilled one by its name. -/
inductive Target where
  | slot (c k : Nat) (t : Thread)
  | away (core slot gen : Nat) (t : Thread)
  deriving DecidableEq, Repr

/-- The thread that a request's TID names (R308). Slot 255, the porter, holds no thread that a request reaches: not found (DESIGN CHOICE,
assumption 47). -/
def State.reqTarget (s : State) (core : Nat) (tid : BitVec 32) : Option Target :=
  let slot := (tid.extractLsb' 0 8).toNat
  let gen := tid.extractLsb' 26 6
  match s.findThread core slot gen with
  | some (c, k) => (s.thread? c k).map fun t => .slot c k t
  | none => (s.spilled? core slot gen.toNat).map fun t => .away core slot gen.toNat t

/-- The state word of THSTAT (R313). -/
def statWord (t : Thread) (spilled : Bool) : Word :=
  let cause := t.stop.elim 0 fun x => x.info.cause.toNat
  let st := if t.stop.isSome then ThState.stopped.code else t.st.code
  BitVec.ofNat 64 (packFields [(16, 8, cause), (9, 1, bitN spilled), (8, 1, bitN (cause ≠ 0)), (0, 8, st)])

/-- The stop mark of a spilled thread, with its frame and its context (R55, R212, R310, R427). -/
def State.stopSpilled (s : State) (core slot gen : Nat) (t : Thread) (detail : Nat) : State :=
  let s := if t.rep.live then s.homeWriteBytes (s.partOf core) t.rep.savePa t.rep.area none else s
  let info : TrapInfo := ⟨0, BitVec.ofNat 16 detail, .lead, 0, 0, 0, 0, 0, 0, 0⟩
  let ds := t.ops.filter (·.stays)
  let bytes := frameBytes t ((s.core core).rsbase + 4096 * slot) info s.gt (BitVec.allOnes 64) ds
  let (ok, s) := s.devWrite core t.region t.trapb bytes false
  s.modSpilled core slot gen fun t =>
    { t with trailPc := t.trailAt, stop := some ⟨info, 6, !ok, BitVec.allOnes 64, ds, false, false, BitVec.ofNat 64 s.gt, t.counters, [], []⟩ }

/-- A dword of a stopped thread (R312); none for bad-operand. -/
def State.thRead (s : State) (c : Nat) (t : Thread) (x : StopInfo) (off : Nat) : Option Word × State :=
  if off < 0x1000 then (some (ctxDword t x off), s)
  else if x.frameLost then (none, s)
  else
    match s.devRead c t.region (frameVa t (off - 0x1000)) 8 with
    | (some bs, s) => (some (BitVec.ofNat 64 (ofBytes bs)), s)
    | (none, s) => (none, s)

/-- A write of a dword of a stopped thread; `set` keeps the thread. -/
def State.thWrite (s : State) (c : Nat) (t : Thread) (x : StopInfo) (off : Nat) (v : Word) (area : Nat → Bool) (ctx : Option Nat)
    (set : Thread → State → State) : Nat × State :=
  if off < 0x1000 then
    match ctxWrite t x off v area with
    | none => (7, s)
    | some (t, x) =>
      let s := set { t with stop := some x } s
      (0, match ctx with
        | some pa => s.memPut (pa + off) (toBytes 8 (ctxDword t x off).toNat)
        | none => s)
  else if x.frameLost then (7, s)
  else
    let (ok, s) := s.devWrite c t.region (frameVa t (off - 0x1000)) (toBytes 8 v.toNat) false
    (if ok then 0 else 7, s)

/-- A start of a spilled thread that was stopped (R310): its parked operations are replayed, and it stays spilled until a wake; a PC that
THWR rewrote starts as a transfer then (R44). -/
def State.unstop (s : State) (core slot gen : Nat) (t : Thread) : State :=
  match t.stop with
  | some x =>
    let (t, s) := s.replayOps core t x
    let t := { t with stop := none }
    let t := if x.pcWritten then { t.oneAt (if x.leadWritten then t.leadPc else t.trailPc) with jump := true } else t
    (s.modSpilled core slot gen fun _ => t).push (retryEvents core slot t)
  | none => s

/-- THKILL of a spilled thread (R314): it ends where it is, as in a slot: its grants go, and what only a slot's thread has is none. -/
def State.killSpilled (s : State) (core slot gen : Nat) (t : Thread) : State :=
  s.inSpilled (s.partOf core) (core, slot, gen) t fun c k s => s.kill c k

/-- A request applied to its target: the word for gD and whether it succeeded. -/
def State.applyRequest (s : State) (x : Target) (req : ThReq) : Word × Bool × State :=
  let p := match x with
    | .slot c _ _ => s.partOf c
    | .away core _ _ _ => s.partOf core
  let area : Nat → Bool := fun a => (s.part? p).elim false fun q => inPriv q a && inPriv q (a + 16447)
  let st := fun (n : Nat) (s : State) => (thStatus n, false, s)
  match x, req with
  | _, .create _ _ _ => st 7 s
  | .slot _ _ t, .stat => (statWord t false, true, s)
  | .away _ _ _ t, .stat => (statWord t (t.st == .spilled), true, s)
  | .slot c k t, .stop => if t.st == .stopped || t.ending then st 1 s else st 0 (s.stopThread c k 1)
  | .away o n g t, .stop => if t.stop.isSome then st 1 s else st 0 (s.stopSpilled o n g t 1)
  | .slot c k t, .start => if (t.stop.any fun y => y.phase = 6) && !s.recDue c k then st 0 (s.resume c k) else st 1 s
  | .away o n g t, .start =>
    if t.st == .stopped then match s.seat o n g with
      | some (at_, s) => st 0 (s.resume at_.1 at_.2)
      | none => st 1 s
    else if t.stop.isSome then st 0 (s.unstop o n g t) else st 1 s
  | .slot c k _, .kill => st 0 (s.kill c k)
  | .away o n g t, .kill => st 0 (s.killSpilled o n g t)
  | .slot c _ t, .read off =>
    if !thOffsetOk t area req then st 7 s
    else
      match t.stop with
      | none => st 9 s
      | some y => match s.thRead c t y off.toNat with
        | (some v, s) => (v, true, s)
        | (none, s) => st 7 s
  | .away o _ _ t, .read off =>
    if !thOffsetOk t area req then st 7 s
    else
      match t.stop with
      | none => st 9 s
      | some y => match s.thRead o t y off.toNat with
        | (some v, s) => (v, true, s)
        | (none, s) => st 7 s
  | .slot c k t, .write off v =>
    if !thOffsetOk t area req then st 7 s
    else
      match t.stop with
      | none => st 9 s
      | some y =>
        let (n, s) := s.thWrite c t y off.toNat v area (some (s.ctxPa c k)) fun t s => s.setThread c k t
        st n s
  | .away o n g t, .write off v =>
    if !thOffsetOk t area req then st 7 s
    else
      match t.stop with
      | none => st 9 s
      | some y =>
        let (r, s) := s.thWrite o t y off.toNat v area none fun t s => s.modSpilled o n g fun _ => t
        st r s

/-- THNEW at its core (R309): the status word with the new TID. -/
def State.create (s : State) (core region : Nat) (pc g1 : Word) (start : Bool) : Word × State :=
  let c := s.carrier region core
  match s.makeRoom c core region (s.threads.length + 1) with
  | none => (thStatus 3, s)
  | some (x, s) =>
    let passr := (s.region? region).elim 0 (·.passr)
    let s := s.place c core x region .resident pc fun t => ({ t with passb := passr }).wg 1 g1
    let s := (s.modRegion region fun r => { r with rlive := r.rlive + 1 }).syncRegion region
    let tid := (s.thread? c x.1).elim 0 (·.tid)
    let s := if start then s.startThread c x.1
      else
        let y : StopInfo := ⟨⟨0, 1, .lead, 0, 0, 0, 0, 0, 0, 0⟩, 6, false, BitVec.allOnes 64, [], true, false, BitVec.ofNat 64 s.gt, 0, [], []⟩
        (s.modThread c x.1 fun t => { t with st := .stopped, stop := some y }).saveContext c x.1
    (BitVec.ofNat 64 tid.toNat, s)

/-- A trap of the target is not complete: THSTOP and THKILL wait for it (R310, R314, R369). -/
def Target.trapping : Target → Bool
  | .slot _ _ t => t.stop.any fun y => y.phase ≠ 6
  | .away _ _ _ _ => false

/-- A request to the same target arrived before and waits (R308). -/
def State.requestWaits (s : State) (x : EvThReq) : Bool :=
  s.later.any fun e => match e with
    | .threadStateRequest y => y.core = x.core && y.tid = x.tid && (match y.req with
      | .create _ _ _ => false
      | _ => true)
    | _ => false

/-- THREAD STATE REQUEST (R308, R309, R315): applied in its order of arrival. -/
def execThreadStateRequest (x : EvThReq) (s : State) : Out :=
  match x.req with
  | .create pc g1 start =>
    let (v, s) := s.create x.core x.region pc g1 start
    .next (s.reply x.src v true)
  | req =>
    match s.reqTarget x.core x.tid with
    | none => .next (s.reply x.src (thStatus 6) false)
    | some y =>
      if ((req == .kill || req == .stop) && y.trapping) || s.requestWaits x then .next (s.later1 (.threadStateRequest x))
      else
        let (v, ok, s) := s.applyRequest y req
        .next (s.reply x.src v ok)

end Sys2Proof.Machine
end

