-- ==== Sys2Proof/Machine/Switch.lean ====
section
/-! DEFINITION. Stops of whole regions (R370 to R377): the run-to-completion stop, the register-space switch, spatial pre-emption and their
restoration; core removal, the resize of a partition, the world switch (R396), function level reset (R397) and the split of an engine (R254). -/

namespace Sys2Proof.Machine

/-! ### Stopping one thread (R370, R427) -/

/-- DETAIL of a stop (R360). -/
def Switch.detail (w : Switch) : Nat := if w.mode = 2 then 4 else if w.mode = 1 && !w.world then 3 else 2

/-- Non-direct activations are dropped and redelivered (R328, R370). -/
def Switch.drops (w : Switch) : Bool := w.mode ≠ 0 || w.world || w.drop

/-- The switch stops the threads of a core. -/
def Switch.covers (w : Switch) (c : Nat) : Bool := w.mode ≠ 2 || w.moves.any fun e => e.1 = c

/-- The waiting ACQRs of a thread are withdrawn, their counts released (R370). -/
def State.withdraw (s : State) (c k : Nat) : List Op × State :=
  match s.thread? c k with
  | none => ([], s)
  | some t =>
    let waiting := t.ops.filterMap fun o => match o.kind with
      | .acqrWait a i _ _ => if o.parked.isNone then some ({ o with kind := .acc a }, i) else none
      | _ => none
    let p := s.partOf c
    let s := waiting.foldl (fun s e => (s.modLading p e.2 fun l => { l with waiters := l.waiters.filter (· ≠ ⟨c, k, e.1.id⟩) }).finishOp c k e.1.id) s
    (waiting.map (·.1), s)

/-- A thread is stopped by a switch: with `vacate` its engine is left (R258). -/
def State.switchOut (s : State) (c k detail : Nat) (vacate : Bool) : State :=
  let (again, s) := s.withdraw c k
  let s := (s.stopThread c k detail).saveViews c k vacate
  s.modThread c k fun t => { t with stop := t.stop.map fun x => { x with again := again } }

/-- The frame of a thread that the switch stopped is written again, with the descriptors that its operations now have (R370). -/
def State.reframe (s : State) (c k : Nat) : State :=
  match s.thread? c k with
  | none => s
  | some t =>
    match t.stop with
    | none => s
    | some x =>
      let ds := t.ops.filter (·.stays)
      let (ok, s) := s.devWrite c t.region t.trapb (frameBytes t (s.ctxPa c k) x.info x.gt.toNat x.recseq ds) false
      s.modThread c k fun t => { t with stop := t.stop.map fun x => { x with ops := ds, frameLost := !ok } }

/-- A packet of an operation. -/
def packetOf (r : OpRef) (e : Event) : Bool :=
  match e with
  | .packetArrival x | .packetRetry x => x.src = r
  | _ => false

/-- The channel offset of a packet. -/
def packetOff : Event → Nat
  | .packetArrival x | .packetRetry x => x.off
  | _ => 0

/-- A SEND is cut: no further packet is sent, and it goes on from its first granule without an answer (R370). -/
def State.cutSend (s : State) (c k : Nat) (o : Op) (x : CopyOp) : State :=
  let ref : OpRef := ⟨c, k, o.id⟩
  let out := (s.agenda ++ s.later).filter (packetOf ref)
  let first := (out.map packetOff).foldl min (x.off + (if x.sent then x.len else x.next))
  let next := first - x.off
  let x' := { x with sent := false, next := next, bytes := next, acked := (chunks 64 x.off next).length }
  let s : State := { s with agenda := s.agenda.filter fun e => !packetOf ref e, later := s.later.filter fun e => !packetOf ref e }
  s.modThread c k fun t => t.modOp o.id fun o => { o with kind := .copy x', parked := some ⟨0, 0, x.ea + BitVec.ofNat 64 next⟩ }

/-- The SENDs of a stopped thread are cut at the deadline (R370). A thread that was stopped before keeps the frame that it has (R427): what is cut
there is issued again at its resumption without a descriptor. -/
def State.cutSends (s : State) (frame : Bool) (c k : Nat) : State :=
  match s.thread? c k with
  | none => s
  | some t =>
    let l := t.ops.filterMap fun o => match o.kind with
      | .copy x => if o.parked.isNone && x.arith.isNone && !o.stays then some (o, x) else none
      | _ => none
    if l.isEmpty then s
    else
      let s := l.foldl (fun s e => s.cutSend c k e.1 e.2) s
      if frame then s.reframe c k else s

/-- An operation for which a switch waits (R370): not one that stays, and not a residency's load or a drain, which go on. -/
def Op.holds (o : Op) : Bool :=
  !o.stays && (match o.kind with
    | .res _ _ | .drain => false
    | _ => true)

/-- A thread stands still with nothing outstanding but what stays. -/
def Thread.rests (t : Thread) : Bool := t.st == .stopped && t.ops.all (·.stays) && t.stop.all fun x => x.phase = 6

/-! ### Stopping a region (R372, R373, R375) -/

/-- The switch masks of a region's posts on the cores that a switch covers; those of a vacated core stay (R375). -/
def State.switchMask (s : State) (region : Nat) (w : Switch) (on : Bool) : State :=
  let away : Nat → Bool := fun c => (s.region? region).any fun r => r.hostOf c ≠ c
  { s with cores := s.cores.map fun e => if w.covers e.1 && (on || !away e.1) then
      (e.1, { e.2 with posts := e.2.posts.map fun p => if p.2.region = region then (p.1, { p.2 with smask := on }) else p }) else e }

def State.modSwitch (s : State) (region : Nat) (f : Switch → Switch) : State := s.modRegion region fun r => { r with switch := r.switch.map f }

/-- A thread of the region is stopped, or its activation dropped; with `acts` activations that may otherwise run to END too. One that is stopped
already keeps its frame, but its waiting ACQRs are withdrawn (R370, R427). -/
def State.stopOne (s : State) (region : Nat) (w : Switch) (acts : Bool) (c k : Nat) : State :=
  match s.thread? c k with
  | none => s
  | some t =>
    let dropped := w.drops && (t.buffered && (match t.cons.map Consign.phase with
      | some .running | some .ended => true
      | some (.clearing _) => !t.ending
      | _ => false))
    if t.life != .resident && !acts then s
    else if dropped then s.dropCons c k false
    else if t.ending then s
    else if t.st == .stopped then
      let (again, s) := s.withdraw c k
      s.modThread c k fun t => { t with stop := t.stop.map fun x => { x with again := x.again ++ again } }
    else (s.switchOut c k w.detail (w.mode = 2)).modSwitch region fun w => { w with stopped := w.stopped ++ [t.tid] }

/-- The threads of the region on the cores that the switch covers are stopped, and those of them that are spilled. -/
def State.stopAll (s : State) (region : Nat) (w : Switch) (acts : Bool) : State :=
  let l := (s.threads.filter fun e => e.2.region = region && w.covers e.1.1).map (·.1)
  let s := l.foldl (fun s n => s.stopOne region w acts n.1 n.2) s
  let away := (s.parts.flatMap fun e => e.2.spilled).filter fun e => e.2.region = region && e.2.stop.isNone && w.mode ≠ 2
  away.foldl (fun s e => (s.stopSpilled e.1.1 e.1.2.1 e.1.2.2 e.2 w.detail).modSwitch region fun w => { w with stopped := w.stopped ++ [e.2.tid] }) s

/-- A switch of a region begins: its posts are masked and its threads stop; in mode 0 activations run on until the deadline. -/
def State.startSwitch (s : State) (region : Nat) (w : Switch) : State :=
  let s := s.modRegion region fun r => { r with switch := some w }
  ((s.switchMask region w true).stopAll region w (w.mode ≠ 0)).timer w.deadline (.switchDeadline ⟨region⟩)

/-- SWITCH DEADLINE (R372, R373): activations that are still bound are stopped, and SENDs are cut. -/
def execSwitchDeadline (x : EvRegion) (s : State) : Out :=
  match (s.region? x.region).bind (·.switch) with
  | none => .next s
  | some w =>
    if w.done || s.gt < w.deadline then .next s
    else
      let s := s.stopAll x.region w true
      let mine := ((s.region? x.region).bind (·.switch)).elim [] (·.stopped)
      let l := s.threads.filter fun e => e.2.region = x.region && w.covers e.1.1 && e.2.st == .stopped
      let s := l.foldl (fun s e => s.cutSends (mine.contains e.2.tid) e.1.1 e.1.2) s
      .next (s.modSwitch x.region fun w => { w with cut := true })

/-- A thread of the region holds the switch off: it still runs or is bound, or an operation for which the switch waits is outstanding. -/
def Thread.holdsSwitch (t : Thread) : Bool := t.bound && (t.st != .stopped || t.ops.any (·.holds))

/-- The switch has stopped what it stops. -/
def State.quieted (s : State) (region : Nat) (w : Switch) : Bool :=
  s.threads.all fun e => !(e.2.region = region && w.covers e.1.1) || !e.2.holdsSwitch

/-! ### The save area (R371) -/

/-- The region's messages that stand at a core and were addressed to a core: of the deque, newest first, and of the inbox. -/
def State.queued (s : State) (region at_ dest : Nat) : List InMsg × List InMsg :=
  let mine : InMsg → Bool := fun i => !i.kept && i.dest = dest && s.postRegion at_ i.msg.post = some region
  ((s.core at_).deque.filter mine, (s.core at_).inbox.filter mine)

/-- They leave the core's queues. -/
def State.unqueue (s : State) (at_ : Nat) (l : List InMsg × List InMsg) : State :=
  s.modCore at_ fun y => { y with deque := y.deque.filter fun i => !l.1.contains i, inbox := y.inbox.filter fun i => !l.2.contains i }

/-- The open channels of a core that the region's threads opened. -/
def State.ownChans (s : State) (c region : Nat) : List (BitVec 4) :=
  ((List.range 16).map (BitVec.ofNat 4)).filter fun n => (s.chan c n).isOpen && (s.chan c n).region = region

/-- The scratchpad ranges that a switch saves (R371): base and length. -/
def State.saveRanges (s : State) (r : Region) (c region : Nat) : List (Nat × Nat) :=
  let size := (s.core c).spsz
  let cut : Nat × Nat → Nat × Nat := fun e => (e.1, min e.2 (size - e.1))
  (r.nsp ++ (s.ownChans c region).map fun n => ((s.chan c n).base, (s.chan c n).len)).map cut

/-- The area of a logical core. -/
def areaOf (sva lcn : Nat) : Nat := sva + 2 ^ 18 * lcn

/-- The poison of a scratchpad's sectors goes with them into the area (R411). -/
def State.movePoison (s : State) (c a o n : Nat) : State :=
  ((s.core c).spBad.filter fun e => decide (64 * e < o + n) && decide (o < 64 * e + 64)).foldl (fun s e => s.setPoison (a / 64 + e) (some 3)) s

/-- The poison of an area's sectors comes back with them. -/
def State.backPoison (s : State) (c a o n : Nat) : State :=
  let l := ((pieces o n).map (·.1)).filter fun e => (s.poisonOf (a / 64 + e)).isSome
  s.modCore c fun y => { y with spBad := y.spBad.filter (fun e => !l.contains e) ++ l }

/-- What a core saves: the messages with their counts when `msgs`, the ranges and the channels, which close. -/
def State.saveArea (s : State) (region : Nat) (r : Region) (w : Switch) (lcn orig : Nat) (msgs : Bool) : State :=
  let a := areaOf w.sva lcn
  let host := r.hostOf orig
  let (d, i) := if msgs then s.queued region host orig else ([], [])
  let put := fun (s : State) (o : Nat) (bs : List Byte) => s.homeWriteBytes r.part (a + o) bs none
  let s := put (put s 0x28000 (d.reverse.flatMap fun m => msgBytes m.msg)) 0x29000 (i.flatMap fun m => msgBytes m.msg)
  let s := if msgs then s.unqueue host (d, i) else s
  let own := host = orig || w.mode = 2
  let chans := if own then s.ownChans orig region else []
  let s := if own then (s.saveRanges r orig region).foldl (fun s e => (put s e.1 (memBytes (s.core orig).sp e.1 e.2)).movePoison orig a e.1 e.2) s else s
  let words := (List.range 16).map fun n => if chans.contains (BitVec.ofNat 4 n) then ((s.chan orig (BitVec.ofNat 4 n)).word false).toNat else 0
  let bases := (List.range 16).map fun n => if chans.contains (BitVec.ofNat 4 n) then (s.chan orig (BitVec.ofNat 4 n)).base else 0
  let s := put s 0x31000 (vecBytes 8 (packFields [(0, 7, d.length), (16, 10, i.length)] :: (words ++ bases)))
  let s := chans.foldl (fun s n => (s.chclose orig n).2) s
  s.modSwitch region fun w => { w with saved := w.saved ++ d.map (fun m => (orig, (true, m))) ++ i.map fun m => (orig, (false, m)) }

/-- The messages of an area are read back, with what travelled beside them. -/
def State.readMsgs (s : State) (p a : Nat) (l : List InMsg) : List InMsg × State :=
  (List.range l.length).foldl (fun (acc : List InMsg × State) j =>
    match l[j]? with
    | none => acc
    | some i =>
      let (bs, s) := acc.2.homeReadBytes p (a + 64 * j) 64
      (acc.1 ++ [{ i with msg := { i.msg with hdr := BitVec.ofNat 128 (ofBytes (bs.take 16)), pay := BitVec.ofNat 384 (ofBytes (bs.drop 16)) } }], s)) ([], s)

/-- A channel from its saved words (R372): it reopens with its WM, GEN and SEQNEXT. -/
def Channel.reopen (w base region : Nat) : Channel :=
  ⟨BitVec.ofNat 16 (w / 2 ^ 48), BitVec.ofNat 8 (w / 2 ^ 38), w.testBit 37, true, w / 2 ^ 18 % 2 ^ 18, w % 2 ^ 18, base, 0, region⟩

/-- What a core restores from an area at `sva`. -/
def State.loadArea (s : State) (region : Nat) (r : Region) (w : Switch) (sva lcn orig : Nat) : State :=
  let a := areaOf sva lcn
  let host := r.hostOf orig
  let mine : Bool → List InMsg := fun b => (w.saved.filter fun e => e.1 = orig && e.2.1 = b).map (·.2.2)
  let (d, s) := s.readMsgs r.part (a + 0x28000) (mine true).reverse
  let (i, s) := s.readMsgs r.part (a + 0x29000) (mine false)
  let d := d.filter fun m => !m.kept
  let i := i.filter fun m => !m.kept
  let s := s.modCore host fun y => { y with deque := d.reverse ++ y.deque, inbox := i ++ y.inbox }
  if host ≠ orig then s
  else
    let (bs, s) := s.homeReadBytes r.part (a + 0x31000) 264
    let word := fun (j : Nat) => ofBytes ((bs.drop (8 * j)).take 8)
    let s := (List.range 16).foldl (fun (s : State) n =>
      if (word (1 + n)).testBit 36 then s.setChan orig (BitVec.ofNat 4 n) (Channel.reopen (word (1 + n)) (word (17 + n) % 2 ^ 18) region) else s) s
    (s.saveRanges r orig region).foldl (fun s e =>
      let (bs, s) := s.homeReadBytes r.part (a + e.1) e.2
      (s.spWrite orig e.1 bs none).backPoison orig a e.1 e.2) s

/-- Every logical core of a region with its listed core. -/
def State.lcns (s : State) (r : Region) : List (Nat × Nat) :=
  let l := s.mapOrig r
  (List.range l.length).map fun i => (i, l.getD i 0)

/-- The dirty bytes of a sector in L are written back; the sector stays with its lading (R94, R377). -/
def State.cleanL (s : State) (c sec : Nat) : State :=
  match s.l1 c sec with
  | some x =>
    if x.st == .l && x.dirty ≠ 0 then
      (s.setL1 c sec { x with dirty := 0 }).homeBytes (s.partOf c) sec x.data x.dirty x.bad
    else s
  | none => s

/-- A core's L1 writes back its dirty sectors, those of ladings too (R94, R372). -/
def State.cleanL1 (s : State) (c : Nat) : State :=
  let l := (s.core c).l1
  let s := ((l.filter fun e => e.2.st == .m).map (·.1)).foldl (fun s sec => s.giveUp c sec) s
  ((l.filter fun e => e.2.st == .l).map (·.1)).foldl (fun s sec => s.cleanL c sec) s

/-! ### The end of a stop -/

/-- A command that the switch belongs to ends. -/
def State.endFor (s : State) (cmd : Option (Nat × (Nat × Nat))) (status : Nat) : State :=
  match cmd with
  | some (f, (q, idx)) => s.finishCmd f q idx status 0 0 0
  | none => s

/-- A stopped thread can leave its slot to the incoming region (R373): nothing is outstanding. A view that it cannot save keeps its tile (R258). -/
def Thread.mayLeave (t : Thread) : Bool := t.rests

/-- It leaves its slot. -/
def State.displace (s : State) (c k : Nat) : State :=
  match s.thread? c k with
  | none => s
  | some t =>
    if !t.mayLeave then s
    else
      let h := t.home c k
      let g := (t.tid.extractLsb' 26 6).toNat
      let s := (s.delThread c k).modCore h.1 fun y => { y with spilledMap := aset h.2 (y.spilledOf h.2 ||| (1#64 <<< g)) y.spilledMap }
      s.modPart (s.partOf c) fun p => { p with spilled := aset (h.1, (h.2, g)) { t with guest := none } p.spilled }

/-- The RSBASE that firmware gives a core for the incoming region (R373), which nothing says but that it lies in the partition (assumption 4). -/
def State.newRsbase (s : State) (c : Nat) : Nat × State :=
  let (w, s) := s.freeWord
  let win := ((s.part? (s.partOf c)).bind fun p => p.windows.find? (·.priv)).elim (0, 1) fun w => (w.base, max 1 (w.size / 2 ^ 20))
  (win.1 / 2 ^ 20 * 2 ^ 20 + 2 ^ 20 * (w.toNat % win.2), s)

/-- A run-to-completion stop or a register-space switch completes. -/
def State.finishStop (s : State) (region : Nat) (r : Region) (w : Switch) : State :=
  let stopped := (s.threads.filter fun e => e.2.region = region && e.2.st == .stopped).map (·.1)
  let s := stopped.foldl (fun s n => s.saveContext n.1 n.2) s
  let s := (s.lcns r).foldl (fun s e => (s.saveArea region r w e.1 e.2 true).cleanL1 (r.hostOf e.2)) s
  let s := if w.mode = 1 then
      let s := stopped.foldl (fun s n => s.displace n.1 n.2) s
      (s.mapCores r).dedup.foldl (fun s c =>
        let old := (s.core c).rsbase
        let (b, s) := s.newRsbase c
        (s.modCore c fun y => { y with rsbase := b }).modSwitch region fun w => { w with rsb := w.rsb ++ [(c, old)] }) s
    else s
  (s.modSwitch region fun w => { w with done := true, cmd := none }).endFor w.cmd 0

/-! ### Spatial pre-emption (R374, R375) -/

/-- A stopped thread moves to another slot; `guest` is the name that it keeps there. The views that it still has in tiles leave them first (R258). -/
def State.moveThread (s : State) (c k d j : Nat) (guest : Option (Nat × Nat)) : State :=
  let s := s.saveViews c k true
  match s.thread? c k with
  | none => s
  | some t =>
    let s := (s.delThread c k).setThread d j { t with guest := guest, line := none }
    s.modPart (s.partOf d) fun p => { p with ladings := p.ladings.map fun e =>
      if e.2.core = c && e.2.slot = k && e.2.tid = t.tid then (e.1, { e.2 with core := d, slot := j }) else e }

/-- A slot of a core for a thread that is moved there. -/
def State.roomAt (s : State) (c : Nat) : Option (Nat × State) :=
  match (List.range 255).find? fun k => (s.thread? c k).isNone with
  | some k => some (k, s)
  | none => (s.sleeper c fun _ => true).bind fun e => (s.spill e.1 e.2).map fun s => (e.2, s)

/-- A stopped thread that a switch may move: nothing of it is outstanding, or the deadline has passed, and what is outstanding goes on being
counted (R118, R373). -/
def Thread.mayMove (t : Thread) (cut : Bool) : Bool := t.rests || (cut && t.st == .stopped && t.stop.all fun x => x.phase = 6)

/-- The region's threads on vacated cores move to the hosts; none while one cannot. One that ends stays until its operations have ended. -/
def State.rehome (s : State) (cut : Bool) (moves : List (Nat × Nat)) : List (Nat × Nat) → Option State
  | [] => some s
  | (c, k) :: l =>
    match s.thread? c k, alook c moves with
    | some t, some h =>
      if t.ending then s.rehome cut moves l
      else if !t.mayMove cut then none
      else (s.roomAt h).bind fun e => (e.2.moveThread c k h e.1 (some (t.home c k))).rehome cut moves l
    | _, _ => s.rehome cut moves l

/-- No sector of a core's L1 is on its way. -/
def State.l1Quiet (s : State) (c : Nat) : Bool := (s.core c).l1.all fun x => x.2.readable && !x.2.leaves

/-- The views that displaced threads of vacated clusters keep in tiles are lost (R258). -/
def State.vacateAway (s : State) (ks : List Nat) : State :=
  s.parts.foldl (fun s p => (p.2.spilled.filter fun e => ks.contains (clusterOf e.1.1) && e.2.views.toList.any (·.tile?.isSome)).foldl
    (fun s e => s.inSpilled p.1 e.1 e.2 fun c k s => s.saveViews c k true) s) s

/-- The entries of an engine that are loading or in use hold the switch off (R250). -/
def State.engineBusy (s : State) (k : Nat) (guest : Bool) : Bool :=
  (s.cluster k).table.any fun e => e.1.1 = guest && (e.2.st == .loading || s.resInUse k e.1)

/-- The entries of a vacated engine are evicted and move to the guest table of its host. -/
def State.moveTable (s : State) (k h : Nat) : State :=
  let l := (s.cluster k).table.filter fun e => !e.1.1
  let s := l.foldl (fun s e => s.vacateRes k e.1) s
  let l := (s.cluster k).table.filter fun e => !e.1.1
  let s := s.modCluster k fun x => { x with table := x.table.filter fun e => e.1.1, host := some h }
  s.modCluster h fun x => { x with table := x.table ++ l.map fun e => ((true, e.1.2), e.2) }

/-- They move back. -/
def State.returnTable (s : State) (k h : Nat) : State :=
  let l := (s.cluster h).table.filter fun e => e.1.1
  let s := l.foldl (fun s e => s.vacateRes h e.1) s
  let l := (s.cluster h).table.filter fun e => e.1.1
  let s := s.modCluster h fun x => { x with table := x.table.filter fun e => !e.1.1 }
  s.modCluster k fun x => { x with table := x.table ++ (l.map fun e => ((false, e.1.2), e.2)).filter (fun e => !(x.table.map (·.1)).contains e.1), host := none }

/-- Messages go from a core to another: the deque's while there is room, the rest to the inbox and beyond that to the slice (R375). -/
def State.moveMsgs (s : State) (region c h : Nat) (dest : Nat) : State :=
  let (d, i) := s.queued region c dest
  let s := s.unqueue c (d, i)
  let slices := (s.core c).spilling.filter fun e => e.1 = region && e.2.dest = dest
  let s := s.modCore c fun y => { y with spilling := y.spilling.filter fun e => !(e.1 = region && e.2.dest = dest) }
  let s := s.modCore h fun y => { y with spilling := y.spilling ++ slices }
  let s := d.reverse.foldl (fun s m =>
    if (s.core h).deque.length < 64 then s.modCore h fun y => { y with deque := m :: y.deque }
    else if (s.core h).inbox.length < 512 then s.enterInbox h m
    else s.push [.porterSpill ⟨dest, m.msg, none, false, m.mark⟩]) s
  i.foldl (fun s m => if (s.core h).inbox.length < 512 then s.enterInbox h m else s.push [.porterSpill ⟨dest, m.msg, none, false, m.mark⟩]) s

/-- The threads of a region that a switch stopped run again under THSTART semantics. -/
def State.restart (s : State) (region : Nat) (tids : List (BitVec 32)) : State :=
  let l := (s.threads.filter fun e => e.2.region = region && tids.contains e.2.tid && e.2.stop.any fun x => x.phase = 6).map (·.1)
  let s := l.foldl (fun s n => s.resume n.1 n.2) s
  let away := (s.parts.flatMap fun e => e.2.spilled).filter fun y =>
    y.2.region = region && tids.contains y.2.tid && y.2.st == .spilled && y.2.stop.isSome
  away.foldl (fun s y => s.unstop y.1.1 y.1.2.1 y.1.2.2 y.2) s

/-- Spatial pre-emption completes, when nothing holds it off (steps 3 to 7 of R375). -/
def State.finishSpatial (s : State) (region : Nat) (r : Region) (w : Switch) : Option State :=
  let mine := s.threads.filter fun e => e.2.region = region && w.covers e.1.1
  if (!w.cut && mine.any fun e => e.2.ending) || (w.engines.any fun e => s.engineBusy e.1 false) || !(w.moves.all fun e => s.l1Quiet e.1) then none
  else
    (s.rehome w.cut w.moves (mine.map (·.1))).map fun s =>
      let s := s.vacateAway (w.engines.map (·.1))
      let s := w.engines.foldl (fun s e => s.moveTable e.1 e.2) s
      let ls := (s.lcns r).filter fun e => w.covers e.2
      let s := ls.foldl (fun s e => (s.saveArea region r w e.1 e.2 false).dropL1 e.2) s
      let s := w.moves.foldl (fun s e => s.moveMsgs region e.1 e.2 e.1) s
      let s := s.modRegion region fun r => { r with aliases := r.aliases ++ w.moves }
      let done := { w with done := true, cmd := none, stopped := [] }
      let s := s.modRegion region fun r => { r with switch := none, vacated := if w.keep then r.vacated else r.vacated ++ [done] }
      (s.restart region w.stopped).endFor w.cmd 0

/-! ### Restoration -/

/-- The guests of the cores that a spatial pre-emption took. -/
def State.guestsOf (s : State) (region : Nat) (w : Switch) : List ((Nat × Nat) × Thread) :=
  s.threads.filter fun e => e.2.region = region && e.2.guest.any fun g => w.moves.any fun m => m.1 = g.1

/-- The guests stop, to be moved back; non-direct activations are dropped (R374, R328). -/
def State.stopGuests (s : State) (region : Nat) (w : Switch) : State :=
  (s.guestsOf region w).foldl (fun s e =>
    match s.thread? e.1.1 e.1.2 with
    | none => s
    | some t =>
      if t.buffered then s.dropCons e.1.1 e.1.2 false
      else if t.ending || t.st == .stopped then s
      else (s.switchOut e.1.1 e.1.2 4 true).modSwitch region fun w => { w with stopped := w.stopped ++ [t.tid] }) s

/-- The displaced threads of a region take their slots again; none while one is taken (R373). -/
def State.seatAll (s : State) : List (Nat × Nat × Nat) → Option State
  | [] => some s
  | e :: l => (s.seat e.1 e.2.1 e.2.2).bind fun x => x.2.seatAll l

/-- The guests take their own slots again; none while one cannot. -/
def State.sendBack (s : State) : List ((Nat × Nat) × Thread) → Option State
  | [] => some s
  | e :: l =>
    match e.2.guest with
    | none => s.sendBack l
    | some g => if !e.2.rests || (s.thread? g.1 g.2).isSome then none else (s.moveThread e.1.1 e.1.2 g.1 g.2 none).sendBack l

/-- A stop of mode 0 or 1 is reversed, once the slots are there. -/
def State.finishRestore (s : State) (region : Nat) (r : Region) (w : Switch) : Option State :=
  let away := (s.parts.flatMap fun e => e.2.spilled).filter fun e => e.2.region = region && e.2.st == .stopped
  (s.seatAll (away.map (·.1))).map fun s =>
    let s := w.rsb.foldl (fun s e => s.modCore e.1 fun y => { y with rsbase := e.2 }) s
    let s := (s.lcns r).foldl (fun s e => s.loadArea region r w w.sva e.1 e.2) s
    let s := if r.rstate == .live then s.switchMask region w false else s
    ((s.modRegion region fun r => { r with switch := none }).restart region w.stopped).endFor w.restore 0

/-- Spatial pre-emption is reversed, once the guests rest and their slots are there. -/
def State.finishReturn (s : State) (region : Nat) (r : Region) (w : Switch) : Option State :=
  if (w.engines.any fun e => s.engineBusy e.2 true) then none
  else
    (s.sendBack (s.guestsOf region w)).map fun s =>
      let s := w.engines.foldl (fun s e => s.returnTable e.1 e.2) s
      let s := w.moves.foldl (fun s e => s.moveMsgs region e.2 e.1 e.1) s
      let s := s.modRegion region fun r => { r with aliases := r.aliases.filter fun e => !w.moves.contains e }
      let r := { r with aliases := r.aliases.filter fun e => !w.moves.contains e }
      let s := ((s.lcns r).filter fun e => w.covers e.2).foldl (fun s e => s.loadArea region r w w.sva e.1 e.2) s
      let s := if r.rstate == .live then s.switchMask region w false else s
      ((s.modRegion region fun r => { r with switch := none }).restart region w.stopped).endFor w.restore 0

/-- A thread whose outstanding operations a register-space switch did not wait for leaves its slot once they have ended (R373). -/
def State.leaveLate (s : State) (region : Nat) (w : Switch) : Option State :=
  if w.mode ≠ 1 then none
  else (s.threads.find? fun e => e.2.region = region && e.2.mayLeave).map fun e => s.displace e.1.1 e.1.2

/-- What is next for a region's switch, when something is (R372 to R375). -/
def State.switchStep (s : State) (region : Nat) (r : Region) (w : Switch) : Option State :=
  if !w.done then
    if w.mode = 2 then (if s.quieted region w || w.cut then s.finishSpatial region r w else none)
    else if s.quieted region w || w.cut then some (s.finishStop region r w)
    else none
  else if w.restore.isNone && !w.restoring then s.leaveLate region w
  else if w.mode ≠ 2 then s.finishRestore region r w
  else if w.restoring then s.finishReturn region r w
  else some ((s.stopGuests region w).modSwitch region fun w => { w with restoring := true })

/-! ### PREEMPT and RESTORE -/

/-- The arguments SVA and D of a switch hold (R371): SVA aligned, with its cores' areas in the partition's own window. -/
def State.areaOk (s : State) (f sva : Nat) (r : Region) : Bool := sva % 2 ^ 18 = 0 && s.fnPriv f sva (2 ^ 18 * (s.mapOrig r).length)

/-- The argument fields of PREEMPT (assumption 30). -/
def preemptFields : List (Nat × Nat) := [argF 1 0 2, argF 1 16 14, argF 1 32 16, argD 2, argD 3]

/-- A switch that has just begun. -/
def Switch.begin (mode sva deadline : Nat) (cmd : Option (Nat × (Nat × Nat))) (moves engines : List (Nat × Nat)) : Switch :=
  ⟨mode, sva, deadline, cmd, moves, engines, [], [], [], false, false, false, false, false, false, none⟩

/-- The checks that both forms of PREEMPT share, then its own effect. -/
def preemptWith (x : EvCmd) (s : State) (f : Nat → Region → Nat → Nat → State → State) : Out :=
  regionCommand x preemptFields s fun rcb r s =>
    let sva := cmdArg x.cmd 2
    let us := cmdBits x.cmd (256 + 64 + 32) 16
    if !s.fnOwns x.fn sva 1 then s.endCmd x 6
    else if !s.areaOk x.fn sva r || us < 10 || 10000 < us || r.switch.isSome || r.rstate == .ended then s.endCmd x 3
    else f rcb r sva (s.gt + 1000 * us) s

/-- PREEMPT, MODE 0 (R372, R373): by the region's SWMODE. -/
def execPreemptSwitch (x : EvCmd) (s : State) : Out :=
  preemptWith x s fun rcb r sva d s => s.startSwitch rcb (.begin (if r.swmode then 1 else 0) sva d (some (x.fn, (x.q, x.idx))) [] [])

/-- A cluster may host another's cores: it is kept, has no guest, and an enabled core for every core of the other (R374). -/
def State.mayHost (s : State) (r : Region) (taken : List Nat) (k h : Nat) : Bool :=
  !taken.contains h && (r.aliases.all fun e => clusterOf e.1 ≠ h && clusterOf e.2 ≠ h)
    && (s.clusterCores k).all fun c => s.coreEnabled (coreOfCluster h (clusterIdx c))
    && !((s.clusters.any fun e => e.2.host = some h))

/-- A host for each cluster, the lowest grade first. -/
def State.pickHosts (s : State) (r : Region) (taken : List Nat) : List Nat → Option (List (Nat × Nat))
  | [] => some []
  | k :: l =>
    match leastBy (fun a b => decide ((s.cluster a).grade < (s.cluster b).grade)) (r.cmap.filter (s.mayHost r taken k)) with
    | none => none
    | some h => (s.pickHosts r (h :: taken) l).map fun x => (k, h) :: x

/-- The cores of vacated clusters with their hosts. -/
def State.coreMoves (s : State) (hosts : List (Nat × Nat)) : List (Nat × Nat) :=
  hosts.flatMap fun e => (s.clusterCores e.1).map fun c => (c, coreOfCluster e.2 (clusterIdx c))

/-- PREEMPT, MODE 1 (R374, R375). -/
def execPreemptSpatial (x : EvCmd) (s : State) : Out :=
  preemptWith x s fun rcb r sva d s =>
    let n := cmdBits x.cmd (256 + 64 + 16) 14
    let a := BitVec.ofNat 64 (cmdArg x.cmd 3)
    if cmdBits x.cmd (256 + 64) 2 ≠ 1 || n = 0 then s.endCmd x 3
    else if !s.fnReach x.fn a (2 * n) then s.endCmd x 6
    else
      let (bs, s) := s.fnRead x.fn a (2 * n)
      match mapEntries bs n with
      | none => s.endCmd x 3
      | some l =>
        if !l.Nodup || !(l.all fun k => r.cmap.contains k && r.aliases.all fun e => clusterOf e.1 ≠ k && clusterOf e.2 ≠ k) then s.endCmd x 3
        else
          match s.pickHosts r l l with
          | none => s.endCmd x 5
          | some hosts => s.startSwitch rcb (.begin 2 sva d (some (x.fn, (x.q, x.idx))) (s.coreMoves hosts) hosts)

/-- The completed spatial pre-emption that a RESTORE reverses: that of its save area, else the latest. -/
def Region.toReturn (r : Region) (sva : Nat) : Option Switch := (r.vacated.find? fun w => w.sva = sva) <|> r.vacated.getLast?

/-- RESTORE: it waits for a stop that still runs, and for the restoration of a stop that a completed spatial pre-emption of its area stands behind. -/
def execRestore (x : EvCmd) (s : State) : Out :=
  regionCommand x [argD 1] s fun rcb r s =>
    let sva := cmdArg x.cmd 1
    let set : Switch → Switch := fun w => { w with sva := sva, restore := some (x.fn, (x.q, x.idx)) }
    if !s.fnOwns x.fn sva 1 then s.endCmd x 6
    else if !s.areaOk x.fn sva r then s.endCmd x 3
    else
      match r.switch with
      | some w =>
        if !w.done || (w.sva ≠ sva && r.vacated.any fun v => v.sva = sva) then s.later1 (.restore x)
        else if w.restore.isSome then s.endCmd x 3
        else s.modSwitch rcb set
      | none =>
        match r.toReturn sva with
        | none => s.endCmd x 3
        | some w => s.modRegion rcb fun r => { r with switch := some (set w), vacated := r.vacated.filter (· ≠ w) }

/-! ### Core removal (R376) -/

/-- A save area that nothing says but that it lies in the partition's own window (assumption 4). -/
def State.freeArea (s : State) (p : Nat) : Nat × State :=
  let (w, s) := s.freeWord
  let win := ((s.part? p).bind fun p => p.windows.find? (·.priv)).elim (0, 1) fun w => (w.base, max 1 (w.size / 2 ^ 18))
  (win.1 / 2 ^ 18 * 2 ^ 18 + 2 ^ 18 * (w.toNat % win.2), s)

/-- CORE REMOVAL (R376): in every region whose map has it, the core becomes the guest of another core of its cluster. -/
def execCoreRemoval (x : EvRemove) (s : State) : Out :=
  let k := clusterOf x.core
  let l := (s.regions.filter fun e => e.2.present && e.2.cmap.contains k && e.2.hostOf x.core = x.core).map (·.1)
  if clusterOf x.host ≠ k || x.host = x.core || !s.coreEnabled x.host || !s.coreEnabled x.core || l.any (fun g => (s.region? g).any fun r => r.hostOf x.host ≠ x.host) then .next s
  else
    let wait := l.any fun g => (s.region? g).any fun r => r.switch.isSome
    .next (l.foldl (fun s g =>
      match (s.region? g).filter fun r => r.switch.isNone with
      | none => s
      | some r =>
        let (a, s) := s.freeArea r.part
        s.startSwitch g { Switch.begin 2 a (s.gt + 1000000) none [(x.core, x.host)] [] with keep := true }) (if wait then s.later1 (.coreRemoval x) else s))

/-! ### Resize (R377) -/

/-- The tracts of a bitmap. -/
def tractList (c : BitVec 1024) : List Nat := (List.range 160).filter fun i => c.getLsbD (256 + 64 + i)

/-- A record of a line whose home moves is told of it (step 8). -/
def State.migrate (s : State) (old new : Part) : State :=
  let moved := old.dir.filter fun e => homeOf old (256 * e.1) ≠ homeOf new (256 * e.1)
  moved.foldl (fun s e => e.2.watchers.foldl (fun s w =>
    if w.kind = 1 then s.push [.wake ⟨e.1, w.smask, w.target⟩]
    else if w.kind = 3 then s.sendMsg (w.target.extractLsb' 6 18).toNat (wakeMsg e.1 w.smask w) none .new
    else s) s) s

/-- The regions of a partition with clusters in leaving tracts. -/
def State.leaving (s : State) (p : Nat) (tracts : List Nat) : List (Nat × Region) :=
  s.regions.filter fun e => e.2.part = p && e.2.present
    && e.2.cmap.any fun k => !tracts.contains (tractOfCluster k) && e.2.aliases.all fun a => clusterOf a.1 ≠ k

/-- The clusters of a region's map that leave. -/
def Region.leavers (r : Region) (tracts : List Nat) : List Nat :=
  r.cmap.filter fun k => !tracts.contains (tractOfCluster k) && r.aliases.all fun a => clusterOf a.1 ≠ k

/-- No transaction of the partition's homes is open, no clearing has a sector prepared, and no L1 awaits a reply (step 2). -/
def State.homesQuiet (s : State) (p : Nat) (q : Part) : Bool :=
  (q.dir.all fun e => e.2.secs.toList.all fun h => h.txn.isNone && h.queue.isEmpty && h.prep.isNone)
    && s.cores.all fun e => s.partOf e.1 ≠ p || s.l1Quiet e.1

/-- The entry of a line at its new home: a shell with its watchers, its mark and its chain; no copy is left (steps 3 and 6). -/
def DirEntry.rehomed (e : DirEntry) : DirEntry := { DirEntry.empty with host := e.host, tu := e.tu, watchers := e.watchers, chain := e.chain }

/-- Step 2: every thread of the partition stops at its boundary, with the frame of R427, and its waiting ACQRs are withdrawn (R370). -/
def State.freeze (s : State) (p : Nat) : State :=
  let l := s.threads.filter fun e => s.partOf e.1.1 = p && !e.2.ending && e.2.st != .stopped
  let s := l.foldl (fun s e =>
    let (again, s) := s.withdraw e.1.1 e.1.2
    (s.stopThread e.1.1 e.1.2 4).modThread e.1.1 e.1.2 fun t => { t with stop := t.stop.map fun x => { x with again := again } }) s
  let away := ((s.part? p).elim [] (·.spilled)).filter fun e => e.2.stop.isNone && !e.2.ending
  let s := away.foldl (fun s e => s.stopSpilled e.1.1 e.1.2.1 e.1.2.2 e.2 4) s
  let tids := l.map (·.2.tid) ++ away.map (·.2.tid)
  s.modPart p fun q => { q with frozen := true, resize := q.resize.map fun z => { z with stopped := tids } }

/-- Step 3: a core's L1 writes its dirty sectors back and drops every copy; the sectors of held ladings stay. -/
def State.freezeL1 (s : State) (c : Nat) : State :=
  (s.core c).l1.foldl (fun s e => if e.2.st == .l then s.cleanL c e.1 else s.evict (s.partOf c) c e.1 true false) s

/-- Steps 3 to 8, in the freeze; the threads that it stopped go on. -/
def State.finishResize (s : State) (p : Nat) (z : Resize) : State :=
  let s := ((s.cores.map (·.1)).filter fun c => s.partOf c = p).foldl (fun s c => s.freezeL1 c) s
  match s.part? p with
  | none => s
  | some q =>
    let new := { q with tracts := z.tracts }
    let shell : Nat → DirEntry → Bool := fun line e => e.shell (q.readers.any fun r => r.name = line) || e.host
    let move := fun (e : Nat × DirEntry) =>
      if homeOf q (256 * e.1) = homeOf new (256 * e.1) then some (e.1, { e.2 with dirty := 0 })
      else if shell e.1 e.2 then some (e.1, e.2.rehomed) else none
    let s := s.modPart p fun q => { q with tracts := z.tracts, resize := none, frozen := false, dir := q.dir.filterMap move }
    let s := ((s.regions.filter fun e => e.2.part = p).map (·.1)).foldl (fun s g => s.restart g z.stopped) s
    (s.migrate q new).endFor (some z.cmd) 0

/-- RESIZE (R377). -/
def execResize (x : EvCmd) (s : State) : Out :=
  asCommand x true true [argF 0 0 6, argD 1, argD 2, argF 3 0 32] s fun s =>
    let p := cmdArg x.cmd 0
    let l := tractList x.cmd
    match s.part? p with
    | none => s.endCmd x 3
    | some q =>
      if l.isEmpty || q.resize.isSome || s.parts.any (fun e => e.1 ≠ p && l.any fun t => e.2.tracts.contains t) then s.endCmd x 3
      else if !(s.modPart p fun q => { q with tracts := l }).partsOk then s.endCmd x 3
      else if q.cvw * 512 * (64 * l.length) < q.blocksUsed then s.endCmd x 5 10
      else
        let regions := s.leaving p l
        if regions.any fun e => e.2.switch.isSome then s.later1 (.resize x)
        else
          let stay := fun (r : Region) => r.cmap.filter fun k => !l.contains (tractOfCluster k)
          let hosts := regions.map fun e => (e.1, s.pickHosts e.2 (stay e.2) (e.2.leavers l))
          if hosts.any fun e => e.2.isNone then s.endCmd x 5
          else
            let s := s.modPart p fun q => { q with resize := some ⟨l, (x.fn, (x.q, x.idx)), []⟩ }
            hosts.foldl (fun s e =>
              let (a, s) := s.freeArea p
              let h := e.2.getD []
              s.startSwitch e.1 { Switch.begin 2 a (s.gt + 1000000) none (s.coreMoves h) h with keep := true }) s

/-- A resize whose stops are done freezes the partition, and goes on once its homes are quiet. -/
def State.resizeStep (s : State) (p : Nat) (q : Part) : Option State :=
  match q.resize with
  | some z =>
    if !(s.leaving p z.tracts).isEmpty then none
    else if !q.frozen then some (s.freeze p)
    else if s.homesQuiet p q then some (s.finishResize p z) else none
  | none => none

/-! ### The world switch (R396) -/

/-- The regions of a function that have not ended. -/
def State.regionsOf (s : State) (f : Nat) : List (Nat × Region) :=
  s.regions.filter fun e => e.2.present && (e.2.launch.elim false fun l => l.1 = f)

/-- The function whose turn is next in a partition. -/
def Part.nextFn (q : Part) : Option Nat :=
  if q.fns.length < 2 then none else q.fns[(q.fns.idxOf q.active + 1) % q.fns.length]?

/-- The activations that a stop in mode 0 has left with their consignments are dropped and redelivered at a world switch (R328): those that it stopped,
and those that wait to clear. -/
def State.dropKept (s : State) (region : Nat) : State :=
  let l := s.threads.filter fun e => e.2.region = region && (e.2.st == .stopped || e.2.ending) && e.2.buffered && e.2.cons.any (·.takes)
  l.foldl (fun s e => s.dropCons e.1.1 e.1.2 false) s

/-- QUANTUM EXPIRY: the outgoing function's regions are stopped; where the area is nothing says (assumption 4). -/
def execQuantumExpiry (x : EvPart) (s : State) : Out :=
  match s.part? x.part with
  | none => .next s
  | some q =>
    match q.nextFn with
    | none => .next (s.modPart x.part fun q => { q with quantumEnd := s.gt + q.quantum })
    | some into =>
      if q.world.isSome || q.resize.isSome then .next s
      else
        let s := s.modPart x.part fun q => { q with world := some ⟨q.active, into, false, false⟩ }
        let mine := (s.regionsOf q.active).filter fun e => e.2.part = x.part
        let s := (mine.filter fun e => e.2.switch.any (·.done)).foldl (fun s e => s.dropKept e.1) s
        let s := (mine.filter fun e => e.2.switch.any fun w => !w.done).foldl (fun s e => s.modSwitch e.1 fun w => { w with drop := true }) s
        let l := mine.filter fun e => e.2.switch.isNone
        .next (l.foldl (fun s e =>
          let (a, s) := s.freeArea x.part
          s.startSwitch e.1 { Switch.begin (if e.2.swmode then 1 else 0) a (s.gt + 1000000) none [] [] with world := true }) s)

/-- The residencies of a tenant on a side that a switch may vacate (R250), least recent first. -/
def State.tenantRes (s : State) (k : Nat) (side : Bool) (tag : BitVec 16) : List ((Bool × Nat) × Residency) :=
  ((s.cluster k).table.filter fun e => e.2.held && e.2.st != .loading && !s.resInUse k e.1 && e.2.side = side && e.2.ttag = tag).mergeSort fun a b => a.2.recency ≤ b.2.recency

/-- Residencies of a side are evicted until a tenant holds no more than its share. -/
def State.trimTo (s : State) (k : Nat) (side : Bool) (share : Nat) : List ((Bool × Nat) × Residency) → State
  | [] => s
  | e :: l => if ((e :: l).map (·.2.slots)).sum ≤ share then s else (s.vacateRes k e.1).trimTo k side share l

/-- Step 2 begins once every stop is done: the L1s write back and invalidate. -/
def State.worldFlush (s : State) (p : Nat) (w : World) : State :=
  let s := ((s.cores.map (·.1)).filter fun c => s.partOf c = p).foldl (fun s c => s.dropL1 c) s
  s.modPart p fun q => { q with world := some { w with flushed := true } }

/-- The rest of step 2 and steps 3 and 4, once the L1s have written back: the homes write back and invalidate, the scratchpads are zeroed, the residencies
beyond GRES are evicted, then the incoming function's restoration follows. -/
def State.worldSwitch (s : State) (p : Nat) (w : World) : State :=
  let cores := (s.cores.map (·.1)).filter fun c => s.partOf c = p
  let s := cores.foldl (fun s c => s.modCore c fun y => { y with sp := [], spBad := [] }) s
  let s := ((s.part? p).elim [] (·.dir)).foldl (fun s e => s.replaceLine p e.1) s
  let tag := s.fnTag w.out
  let s := (((s.part? p).elim [] homeList)).foldl (fun s k =>
    [false, true].foldl (fun s side => s.trimTo k side (s.fn w.out).gres (s.tenantRes k side tag)) s) s
  let s := (s.regionsOf w.into).foldl (fun s e => s.modSwitch e.1 fun w => if w.world then { w with restoring := true } else w) s
  s.modPart p fun q => { q with world := some { w with restoring := true } }

/-- What is next for a world switch, when something is. -/
def State.worldStep (s : State) (p : Nat) (q : Part) : Option State :=
  match q.world with
  | none => none
  | some w =>
    if !w.restoring then
      if !w.flushed then
        if (s.regionsOf w.out).all fun e => e.2.part ≠ p || e.2.switch.any (·.done) then some (s.worldFlush p w) else none
      else if s.homesQuiet p q then some (s.worldSwitch p w) else none
    else if (s.regionsOf w.into).all fun e => !(e.2.switch.any (·.restoring)) then
      some (s.modPart p fun q => { q with world := none, active := w.into, quantumEnd := s.gt + q.quantum })
    else none

/-! ### Function level reset (R397) -/

/-- The regions that a function launched. -/
def State.launchedBy (s : State) (f : Nat) : List Nat := (s.regions.filter fun e => e.2.launch.elim false fun l => l.1 = f).map (·.1)

/-- Steps 1 to 5 for one function. -/
def State.resetFn (s : State) (f : Nat) : State :=
  let l := s.launchedBy f
  let s := s.modFn f fun y => { y with resetting := true }
  let s : State := { s with cores := s.cores.map fun e =>
    (e.1, { e.2 with posts := e.2.posts.map fun p => if l.contains p.2.region then (p.1, { p.2 with smask := true }) else p }) }
  let s := ((s.threads.filter fun e => l.contains e.2.region && !e.2.ending).map (·.1)).foldl (fun s n => s.killSlot n.1 n.2) s
  let away := (s.parts.flatMap fun e => e.2.spilled).filter fun e => l.contains e.2.region
  let s := away.foldl (fun s e => s.killSpilled e.1.1 e.1.2.1 e.1.2.2 e.2) s
  let mine := s.colls.filter fun y => s.reqs.any fun r => r.fn = f && r.part = y.part && r.ep = y.ep && r.idx = y.idx
  s.push (mine.map fun y => .collectiveAbort ⟨y.part, y.group, y.tag, true⟩)

/-- FUNCTION LEVEL RESET: of a VF, or of every VF and then of the PF. -/
def execFunctionLevelReset (x : EvFn) (s : State) : Out :=
  if x.fn = 0 then
    let vfs := ((s.fns.map (·.1)).filter (· ≠ 0)).mergeSort (· ≤ ·)
    .next ((vfs.foldl (fun s f => s.resetFn f) s).modFn 0 fun y => { y with resetDue := true })
  else .next (s.resetFn x.fn)

/-- The queued messages of the posts of regions are discarded as orphans. -/
def State.discardQueued (s : State) (l : List Nat) : State :=
  { s with cores := s.cores.map fun e =>
      let mine : InMsg → Bool := fun i => (alook i.msg.post e.2.posts).any fun p => l.contains p.region
      (e.1, { e.2 with inbox := e.2.inbox.filter fun i => !mine i, deque := e.2.deque.filter fun i => !mine i,
                       spilling := e.2.spilling.filter fun y => !l.contains y.1 }) }

/-- Steps 6 and 7, once every operation of the function's threads has ended; the PF's own reset begins when no VF is in reset. -/
def State.resetStep (s : State) (f : Nat) (y : Fn) : Option State :=
  let l := s.launchedBy f
  if y.resetDue then
    if s.fns.any fun e => e.1 ≠ 0 && e.2.resetting then none else some ((s.resetFn f).modFn f fun y => { y with resetDue := false })
  else if !y.resetting || (s.threads.any fun e => l.contains e.2.region) || (s.parts.any fun q => q.2.spilled.any fun e => l.contains e.2.region) then none
  else
    let s := l.foldl (fun s g => s.revokeRegion g) (s.discardQueued l)
    let s : State := { s with
      cores := s.cores.map fun e => (e.1, { e.2 with posts := e.2.posts.filter fun p => !l.contains p.2.region })
      regions := (s.regions.filter fun e => !l.contains e.1).map fun e => (e.1, { e.2 with children := e.2.children.filter fun g => !l.contains g }) }
    some (s.modFn f fun y => { Fn.reset with part := y.part, qq := y.qq, dq := y.dq, asidLo := y.asidLo, asidHi := y.asidHi, gres := y.gres })

/-! ### The split of an engine (R254) -/

/-- A pass of a cluster's threads is issued and not stopped. -/
def State.enginePasses (s : State) (k : Nat) : Bool :=
  s.threads.any fun e => clusterOf e.1.1 = k && e.2.st != .stopped && e.2.ops.any fun o => match o.kind with
    | .mat _ => true
    | _ => false

/-- ENGINE CONFIGURATION WRITE: once both queues are empty; residencies are revoked and dirty views saved or discarded. -/
def execEngineConfigurationWrite (x : EvEngCfg) (s : State) : Out :=
  let word := if x.word.extractLsb' 0 2 = 0 then 0 else x.word &&& 0xFFFF3#64
  if word = (s.cluster x.cluster).cfg then .next s
  else if s.enginePasses x.cluster then .next (s.later1 (.engineConfigurationWrite x))
  else
    let s := (s.cluster x.cluster).table.foldl (fun s e => if e.2.st == .revoked || e.2.st == .empty then s else s.revokeRes x.cluster e.1) s
    let s := ((s.threads.filter fun e => clusterOf e.1.1 = x.cluster).map (·.1)).foldl (fun s n => s.saveViews n.1 n.2 true) s
    let s := s.vacateAway [x.cluster]
    .next (s.modCluster x.cluster fun k => { k with cfg := word })

end Sys2Proof.Machine
end

