-- ==== Sys2Proof/Machine/Link.lean ====
section
/-! DEFINITION. Caravan Link (R398 to R409): endpoints and descriptors, the retry buffer, requests at the target, completions, collectives. -/

namespace Sys2Proof.Machine

/-! ### Memory -/

/-- A port as the owner of accesses: no thread. -/
def linkWho (p : Nat) : Who := ⟨p, 2 ^ 20, 256, 0, 0, none, 0, false, none⟩

/-- Bytes lie in one window of a partition. -/
def Part.holds (q : Part) (a n : Nat) : Bool := q.windows.any fun w => inWindow w a && decide (a + n ≤ w.base + w.size)

/-- A port holds requests for the memory of a partition that is frozen (R377). -/
def State.linkHeld (s : State) (p : Nat) : Bool := (s.part? p).elim false (·.frozen)

/-- A port reads bytes as an agent of a partition: at the homes, or directly in a shared window (R404). -/
def State.linkRead (p a n : Nat) (s : State) : Got (List Byte) :=
  if s.linkHeld p then .busy s
  else if ((s.part? p).elim false fun q => inPriv q a) then
    (gotAll (fun (y : Nat × Nat × Nat) s => (s.pathSec (linkWho p) y.1).bind fun d s => .ok (sectorPart d y.2.1 y.2.2) s) (pieces a n) s).bind
      fun l s => .ok l.flatten s
  else s.memGet a n

/-- Every sector of a run is free to be written. -/
def State.linkFree (s : State) (p a n : Nat) : Bool :=
  (pieces a n).all fun y => s.homeFree p y.1 && (s.lading? p (64 * y.1)).isNone

/-- A port writes bytes as an agent of a partition. -/
def State.linkPut (p a : Nat) (bs : List Byte) (s : State) : Got Unit :=
  if bs.isEmpty then .ok () s
  else if s.linkHeld p then .busy s
  else if ((s.part? p).elim false fun q => inPriv q a) then
    if s.linkFree p a bs.length then .ok () (s.homeWriteBytes p a bs none)
    else (gotAll (fun (y : Nat × Nat × Nat) s => s.pathSec (linkWho p) y.1) (pieces a bs.length) s).bind fun _ s => .busy s
  else .ok () (s.memPut a bs)

/-! ### Contexts and descriptors (R400, R401) -/

/-- An endpoint context. -/
structure LinkCtx where
  relax : Bool
  rights : Nat
  peerm : Nat
  wbase : Nat
  wlen : Nat
  sqbase : Nat
  log2s : Nat
  cqbase : Nat
  sqprod : Nat
  sqcons : Nat
  cqprod : Nat
  deriving DecidableEq, Repr

/-- The address of a context. -/
def ctxAddr (q : Part) (e : Nat) : Nat := q.privBase + 64 * e

/-- A valid context from its 64 bytes: VALID is set and the reserved bits are zero. -/
def LinkCtx.ofBytes? (bs : List Byte) : Option LinkCtx :=
  let w := ofBytes bs
  let f := fun (lo n : Nat) => w / 2 ^ lo % 2 ^ n
  if w % 2 = 0 || f 5 11 ≠ 0 || f 32 32 ≠ 0 || f 116 12 ≠ 0 || f 168 24 ≠ 0 || f 248 8 ≠ 0 || f 308 12 ≠ 0 then none
  else some ⟨w.testBit 1, f 2 3, f 16 16, f 64 52, f 128 40, f 192 52, f 244 4, f 256 52, f 320 64, f 384 64, f 448 64⟩

def State.linkCtx (s : State) (p e : Nat) : Option LinkCtx × State :=
  match s.part? p with
  | none => (none, s)
  | some q =>
    let (bs, s) := s.homeReadBytes p (ctxAddr q e) 64
    (LinkCtx.ofBytes? bs, s)

/-- A dword of a context is written by the port. -/
def State.putCtx (s : State) (p e off v : Nat) : State :=
  match s.part? p with
  | some q => s.homeWriteBytes p (ctxAddr q e + off) (toBytes 8 v) none
  | none => s

/-- A context has a send ring. -/
def LinkCtx.sends (x : LinkCtx) : Bool := x.sqbase ≠ 0 && decide (4 ≤ x.log2s) && x.sqbase % (64 * 2 ^ x.log2s) = 0

/-- A field of a descriptor. -/
def descF (d : V512) (lo n : Nat) : Nat := (d.extractLsb' lo n).toNat

def State.readDesc (s : State) (p : Nat) (x : LinkCtx) (i : Nat) : V512 × State :=
  let (bs, s) := s.homeReadBytes p (x.sqbase + 64 * (i % 2 ^ x.log2s)) 64
  (BitVec.ofNat 512 (ofBytes bs), s)

def isAtomicOp (op : Nat) : Bool := op = 3 || op = 4 || op = 5

/-- A descriptor breaks a limit or has a reserved bit set: status 1 (R403). -/
def descBad (d : V512) : Bool :=
  let op := descF d 0 8
  let len := descF d 192 32
  descF d 12 4 ≠ 0 || descF d 48 16 ≠ 0 || descF d 180 12 ≠ 0 || descF d 384 128 ≠ 0
    || (if isAtomicOp op then len ≠ 0 || decide (descF d 10 2 < 2) else descF d 10 2 ≠ 0 || len = 0 || decide (2 ^ 24 < len))

/-! ### Issue (R402, R407) -/

/-- A request of an endpoint that has not performed. -/
def State.openReqs (s : State) (p e : Nat) : List LinkReq := s.reqs.filter fun r => r.part = p && r.ep = e

/-- The event of a descriptor; none for an undefined OP. -/
def descEvent (x : EvDesc) (d : V512) : Option Event :=
  match descF d 0 8 with
  | 1 => some (.put x)
  | 2 => some (.get x)
  | 3 => some (.aadd x)
  | 4 => some (.acas x)
  | 5 => some (.aswp x)
  | 6 => some (.allred x)
  | _ => none

/-- The completion of descriptor i (R403); then CQPROD advances. -/
def State.linkComplete (s : State) (p e i : Nat) (d : V512) (status : Nat) (old : Word) : State :=
  match s.linkCtx p e with
  | (none, s) => s
  | (some x, s) =>
    let entry := toBytes 16 (packFields [(0, 32, descF d 224 32), (32, 8, status), (40, 8, i / 2 ^ x.log2s % 256), (64, 64, old.toNat)])
    let at_ := x.cqbase + 16 * (i % 2 ^ x.log2s)
    let s := if !d.getLsbD 9 then s
      else if (s.part? p).any fun q => inPriv q at_ then s.homeWriteBytes p at_ entry none
      else if (s.part? p).any fun q => q.holds at_ 16 then s.memPut at_ entry
      else s.confined (s.homeAgent at_) at_
    s.putCtx p e 56 (x.cqprod + 1)

/-- The descriptor at SQCONS is issued: SQCONS advances, which has the port look for the next one. -/
def State.consumeDesc (s : State) (x : EvDesc) : State := s.putCtx x.part x.ep 48 (x.idx + 1)

/-- SQPROD (R402): the port reads the context and takes the next descriptor, when R407 lets it issue. -/
def execSqprod (x : EvSq) (s : State) : Out :=
  match s.linkCtx x.part x.ep with
  | (none, s) => .next s
  | (some y, s) =>
    if !y.sends || y.sqprod ≤ y.sqcons then .next s
    else
      let (d, s) := s.readDesc x.part y y.sqcons
      if (!y.relax || d.getLsbD 8) && !(s.openReqs x.part x.ep).isEmpty then .next s
      else
        let z : EvDesc := ⟨x.part, x.ep, y.sqcons⟩
        match descEvent z d with
        | some e => .next (s.push [e])
        | none => .next ((s.consumeDesc z).linkComplete x.part x.ep z.idx d 1 0)

/-- A packet joins the retry buffer, and its first copy is sent (R405). One for this module arrives at the partition's own endpoint. -/
def State.sendPkt (s : State) (p e i tmod tep roff : Nat) (op : LinkOp) (laddr : Nat) : State :=
  match (s.part? p).bind (·.portOf e) with
  | none => s
  | some n =>
    let req := (s.port n).nextReq
    let k : LinkPkt := ⟨req, p, e, i, tmod, tep, roff, op, laddr, [s.gt + 25000], s.gt + 20000, 1, none⟩
    let s := s.modPort n fun y => { y with nextReq := (req + 1) % 2 ^ 32, retry := y.retry ++ [k] }
    if tmod = s.modId && !(s.port n).disabled then s.push [.linkRequestArrival ⟨p, s.modId, n, req, tep, roff, op, s.gt + 25000⟩] else s

/-- The function that runs in a partition (R396). -/
def State.runningFn (s : State) (p : Nat) : Nat := (s.part? p).elim 0 fun q => if q.fns.contains q.active then q.active else q.fns.headD 0

/-- The request of a descriptor is issued with its packets. -/
def State.openReq (s : State) (x : EvDesc) (d : V512) (pkts : List (Nat × LinkOp × Nat)) : State :=
  let s := { s with reqs := s.reqs ++ [⟨x.part, s.runningFn x.part, x.ep, x.idx, d, 0, 0, false⟩] }
  pkts.foldl (fun s k => s.sendPkt x.part x.ep x.idx (descF d 16 16) (descF d 32 16) k.1 k.2.1 k.2.2) s

/-- The descriptor that a port issues: checked, then issued, or completed with a status. -/
def issueDesc (x : EvDesc) (op : Nat) (s : State) (f : V512 → Part → State → Except Nat (Got (List (Nat × LinkOp × Nat)))) : Out :=
  match s.part? x.part, s.linkCtx x.part x.ep with
  | some q, (some y, s) =>
    if !y.sends || y.sqcons ≠ x.idx || y.sqprod ≤ x.idx then .next s
    else
      let (d, s) := s.readDesc x.part y x.idx
      if descF d 0 8 ≠ op then .next s
      else if descBad d then .next ((s.consumeDesc x).linkComplete x.part x.ep x.idx d 1 0)
      else
        match f d q s with
        | .error st => .next ((s.consumeDesc x).linkComplete x.part x.ep x.idx d st 0)
        | .ok (.ok l s) => .next ((s.openReq x d l).consumeDesc x)
        | .ok (.busy s) => .next (s.later1 (.sqprod ⟨x.part, x.ep⟩))
        | .ok (.poison b s) =>
          .next (((s.report (some x.part) ⟨2, b.kind, some b.sec, none, 0, 0, none⟩).consumeDesc x).linkComplete x.part x.ep x.idx d 1 0)
  | _, (_, s) => .next s

/-- The packets of n bytes at a remote offset: cut at 512 bytes of it (R398); the offset of each from the first byte, and its length. -/
def packetsOf (roff n : Nat) : List (Nat × Nat) := (chunks 512 roff n).map fun g => (g.1 - roff, g.2)

/-- PUT (R404). -/
def execPut (x : EvDesc) (s : State) : Out :=
  issueDesc x 1 s fun d q s =>
    let a := descF d 128 52
    let n := descF d 192 32
    let o := descF d 64 64
    if !q.holds a n then .error 3
    else .ok ((s.linkRead x.part a n).bind fun bs s =>
      .ok ((packetsOf o n).map fun k => (o + k.1, .put ((bs.drop k.1).take k.2), a + k.1)) s)

/-- GET (R404). -/
def execGet (x : EvDesc) (s : State) : Out :=
  issueDesc x 2 s fun d q s =>
    let a := descF d 128 52
    let n := descF d 192 32
    let o := descF d 64 64
    if !q.holds a n then .error 3 else .ok (.ok ((packetsOf o n).map fun k => (o + k.1, .get k.2, a + k.1)) s)

/-- An atomic request: one packet. -/
def issueAtomic (x : EvDesc) (op : Nat) (s : State) (f : Bool → Word → Word → LinkOp) : Out :=
  issueDesc x op s fun d _ s =>
    .ok (.ok [(descF d 64 64, f (descF d 10 2 = 3) (d.extractLsb' 256 64) (d.extractLsb' 320 64), 0)] s)

def execAadd (x : EvDesc) (s : State) : Out := issueAtomic x 3 s fun w v _ => .aadd w v
def execAcas (x : EvDesc) (s : State) : Out := issueAtomic x 4 s fun w v c => .acas w v c
def execAswp (x : EvDesc) (s : State) : Out := issueAtomic x 5 s fun w v _ => .aswp w v

/-! ### The target (R404 to R406) -/

/-- The right that a request needs. -/
def linkRight : LinkOp → Nat
  | .get _ => 0
  | .put _ => 1
  | _ => 2

/-- The bytes that a request touches. -/
def linkLen : LinkOp → Nat
  | .put bs => bs.length
  | .get n => n
  | .aadd w _ | .acas w _ _ | .aswp w _ => if w then 8 else 4
  | .up _ _ _ _ _ | .down _ _ _ _ => 0

def linkAtomic : LinkOp → Bool
  | .aadd _ _ | .acas _ _ _ | .aswp _ _ => true
  | _ => false

/-- The answer to a request goes back to its port; one to another module leaves the machine by the port that serves the endpoint. -/
def State.linkAnswer (s : State) (x : EvLinkReq) (a : LinkAns) : State :=
  if x.smod = s.modId then s.push [.linkAcknowledgement ⟨x.part, x.sport, x.req, a, x.expiry⟩]
  else
    match (s.part? x.part).bind (·.portOf x.tep) with
    | some n => s.modPort n fun y => { y with out := y.out ++ [.answer x.smod x.sport x.req a] }
    | none => s

/-- What an atomic leaves for the bytes that it found; none for a CAS that fails. -/
def linkUpdate (op : LinkOp) (old : List Byte) : Option (List Byte) :=
  match op with
  | .aadd w v => some (amoBytes .add (if w then 8 else 4) old v)
  | .aswp w v => some (amoBytes .swp (if w then 8 else 4) old v)
  | .acas w new cmp =>
    let n := if w then 8 else 4
    if ofBytes old = cmp.toNat % 2 ^ (8 * n) then some (toBytes n new.toNat) else none
  | _ => none

/-- The checks of a request against its target's context: the status that it ends with, or its address. -/
def State.linkTarget (q : Part) (c : Option LinkCtx) (x : EvLinkReq) : Except Nat Nat :=
  match c with
  | none => .error 6
  | some y =>
    if y.wlen = 0 then .error 6
    else if y.peerm ≠ 0xFFFF && y.peerm ≠ x.smod then .error 2
    else if !y.rights.testBit (linkRight x.op) then .error 2
    else if y.wlen < x.roff + linkLen x.op || !q.holds (y.wbase + x.roff) (linkLen x.op) then .error 3
    else if linkAtomic x.op && (y.wbase + x.roff) % linkLen x.op ≠ 0 then .error 1
    else .ok (y.wbase + x.roff)

/-- A request applied at its address: the answer, or that it waits. -/
def State.linkApply (s : State) (x : EvLinkReq) (n a : Nat) : State :=
  let again := fun (s : State) => s.later1 (.linkRequestArrival x)
  let bad := fun (b : Bad) (s : State) => (s.report (some x.part) ⟨2, b.kind, some b.sec, none, 0, 0, none⟩).linkAnswer x (.status 1)
  match x.op with
  | .put bs => match s.linkPut x.part a bs with
    | .ok _ s => s.linkAnswer x (.ok 0 [])
    | .busy s => again s
    | .poison k s => bad k s
  | .get m => match s.linkRead x.part a m with
    | .ok bs s => s.linkAnswer x (.ok 0 bs)
    | .busy s => again s
    | .poison k s => bad k s
  | op =>
    if 4096 ≤ (s.port n).atoms.length then s.linkAnswer x (.nack 2000)
    else
      match s.linkRead x.part a (linkLen op) with
      | .busy s => again s
      | .poison k s => bad k s
      | .ok old s =>
        let done := fun (s : State) =>
          let w := loadValue true old
          (s.modPort n fun y => { y with atoms := y.atoms ++ [⟨x.smod, x.sport, x.req, w, x.expiry⟩] }).linkAnswer x (.ok w [])
        match linkUpdate op old with
        | none => done s
        | some bs => match s.linkPut x.part a bs with
          | .ok _ s => done s
          | .busy s => again s
          | .poison k s => bad k s

/-- A packet of a retry buffer. -/
def Port.pkt? (x : Port) (req : Nat) : Option LinkPkt := x.retry.find? fun k => k.req = req

def State.modPkt (s : State) (n req : Nat) (f : LinkPkt → LinkPkt) : State :=
  s.modPort n fun x => { x with retry := x.retry.map fun k => if k.req = req then f k else k }

/-! ### Collectives (R408) -/

def State.modColl (s : State) (c : Coll) (f : Coll → Coll) : State := { s with colls := s.colls.map fun x => if x = c then f x else x }

/-- The operation, type and SAT of an ALLRED; none when R162 does not give it. -/
def collOp (d : V512) : Option (ArithOp × ElemType × Bool) :=
  let op := descF d 264 2
  let sat := d.getLsbD 266
  match (if d.extractLsb' 262 2 = 0 then ElemType.ofCode (d.extractLsb' 256 6) else none) with
  | none => none
  | some ty =>
    let fits := [ElemType.f64, .f32, .bf16, .f16, .i64, .i32, .i16, .i8].contains ty
    if !fits || op = 3 || (sat && (!ty.isI || op ≠ 0)) || descF d 267 53 ≠ 0 then none
    else some (if op = 0 then .add else if op = 1 then .min else .max, ty, sat)

/-- Elements combined in order. -/
def combine (op : ArithOp) (ty : ElemType) (sat : Bool) (a b : List Byte) : List Byte :=
  let n := elemBytes ty
  (List.range (a.length / n)).flatMap fun i =>
    toBytes n (arithCode op ty sat (ofBytes ((a.drop (n * i)).take n)) (ofBytes ((b.drop (n * i)).take n)))

/-- The children of a member. -/
def Coll.children (c : Coll) : List Nat := [2 * c.no + 1, 2 * c.no + 2].filter (· < c.mods.length)

/-- The bytes that packets have brought, once all of them are there (R398). -/
def Coll.whole (c : Coll) (l : List (Nat × List Byte)) : Option (List Byte) :=
  let bs := ((l.mergeSort fun a b => a.1 ≤ b.1).map (·.2)).flatten
  if bs.length = c.own.length then some bs else none

/-- What the children have sent is there. -/
def Coll.full (c : Coll) : Bool := c.children.all fun i => (c.whole (if i % 2 = 1 then c.left else c.right)).isSome

/-- The request of a collective. -/
def State.collReq (s : State) (c : Coll) : Option LinkReq := s.reqs.find? fun r => r.part = c.part && r.ep = c.ep && r.idx = c.idx

/-- A request has performed, or ends with a status: its completion, and the endpoint's next descriptors. -/
def State.endReq (s : State) (r : LinkReq) (status : Nat) (old : Word) : State :=
  let s := { s with reqs := s.reqs.erase r }
  (s.linkComplete r.part r.ep r.idx r.desc status old).push [.sqprod ⟨r.part, r.ep⟩]

/-- The packets of a request wait in a retry buffer. -/
def State.pktsOf (s : State) (r : LinkReq) : Bool := s.ports.any fun y => y.2.retry.any fun z => z.part = r.part && z.ep = r.ep && z.idx = r.idx

/-- An ALLRED whose result is written performs once all its packets are retired (R405, R408). -/
def State.collEnd (s : State) (r : LinkReq) : State :=
  if r.done && !s.pktsOf r then s.endReq r 0 0 else s

/-- A member sends elements to another in packets (R398). -/
def State.sendColl (s : State) (c : Coll) (r : LinkReq) (no : Nat) (bs : List Byte) (op : Nat → List Byte → LinkOp) : State :=
  (packetsOf (descF r.desc 64 64) bs.length).foldl (fun s k =>
    s.sendPkt c.part c.ep c.idx (c.mods.getD no 0) c.ep (descF r.desc 64 64 + k.1) (op k.1 ((bs.drop k.1).take k.2)) 0) s

/-- A member's result is written to its window and goes down the tree (R408). -/
def State.collResult (s : State) (c : Coll) (bs : List Byte) : State :=
  match s.collReq c with
  | none => s
  | some r =>
    let (y, s) := s.linkCtx c.part (descF r.desc 32 16)
    let s := c.children.foldl (fun s i => s.sendColl c r i bs (.down c.group c.tag)) s
    let a := y.elim 0 (·.wbase) + descF r.desc 64 64
    let s := if ((s.part? c.part).elim false fun q => inPriv q a) then s.homeWriteBytes c.part a bs none else s.memPut a bs
    let r' := { r with done := true }
    ({ s with colls := s.colls.erase c, reqs := s.reqs.map fun z => if z = r then r' else z } : State).collEnd r'

/-- A member that has everything combines it: own, left child, right child. -/
def State.collStep (s : State) (c : Coll) : State :=
  match (if c.full && !c.sentUp then s.collReq c else none) with
  | none => s
  | some r =>
    match collOp r.desc with
    | none => s
    | some (op, ty, sat) =>
      let one := fun (a : List Byte) (b : Option (List Byte)) => b.elim a (combine op ty sat a)
      let bs := one (one c.own (c.whole c.left)) (c.whole c.right)
      if c.no = 0 then s.collResult c bs
      else (s.modColl c fun c => { c with sentUp := true }).sendColl c r ((c.no - 1) / 2) bs (.up c.group c.tag c.no)

/-- A group record: its members, when their number is in range. -/
def State.groupOf (s : State) (p g : Nat) : Option (List Nat) × State :=
  match s.part? p with
  | none => (none, s)
  | some q =>
    let (bs, s) := s.homeReadBytes p (q.privBase + 2 ^ 22 + 256 * g) 256
    let f := fun (i : Nat) => ofBytes ((bs.drop (2 * i)).take 2)
    (if f 0 < 2 || 126 < f 0 then none else some ((List.range (f 0)).map fun i => f (i + 1)), s)

/-- ALLRED (R408). -/
def execAllred (x : EvDesc) (s : State) : Out :=
  let r := issueDesc x 6 s fun d q s =>
    let a := descF d 128 52
    let n := descF d 192 32
    let (y, s) := s.linkCtx x.part (descF d 32 16)
    match collOp d, (s.groupOf x.part (descF d 16 16)).1, y with
    | some (_, ty, _), some l, some y =>
      if 256 ≤ descF d 16 16 || n % elemBytes ty ≠ 0 || !l.contains s.modId then .error 1
      else if y.wlen = 0 then .error 6
      else if y.wlen < descF d 64 64 + n || !q.holds (y.wbase + descF d 64 64) n || !q.holds a n then .error 3
      else .ok ((s.linkRead x.part a n).bind fun bs s =>
        let c : Coll := ⟨x.part, x.ep, x.idx, descF d 16 16, d.extractLsb' 224 32, l.idxOf s.modId, l, bs, [], [], [], false⟩
        .ok [] { s with colls := s.colls ++ [c] })
    | some _, some _, none => .error 6
    | _, _, _ => .error 1
  match r with
  | .next s => .next ((s.colls.filter fun c => c.part = x.part && c.ep = x.ep && c.idx = x.idx).foldl (fun s c => s.collStep c) s)
  | r => r

/-- The place of a member's result can be written now (R100, R377); only the root writes at a packet that goes up. -/
def State.collFree (s : State) (c : Coll) : Bool :=
  match s.collReq c with
  | none => true
  | some r =>
    let a := (s.linkCtx c.part (descF r.desc 32 16)).1.elim 0 (·.wbase) + descF r.desc 64 64
    !s.linkHeld c.part && (!((s.part? c.part).elim false fun q => inPriv q a) || s.linkFree c.part a c.own.length)

/-- A packet of a collective at a member: kept until the member has posted its ALLRED. -/
def State.collPacket (s : State) (n : Nat) (x : EvLinkReq) : State :=
  let find := fun (g : Nat) (t : BitVec 32) (s : State) => s.colls.find? fun c => c.part = x.part && c.group = g && c.tag = t
  let took := fun (s : State) =>
    (s.modPort n fun y => { y with seen := y.seen.filter (fun e => decide (s.gt < e.expiry + 250)) ++ [⟨x.smod, x.sport, x.req, 0, x.expiry⟩] }).linkAnswer x
      (.ok 0 [])
  match x.op with
  | .up g t i off bs => match find g t s with
    | none => s.linkAnswer x (.nack 2000)
    | some c =>
      if c.no = 0 && !s.collFree c then s.later1 (.linkRequestArrival x) else
      let c' : Coll := if i % 2 = 1 then { c with left := aset off bs c.left } else { c with right := aset off bs c.right }
      took ((s.modColl c fun _ => c').collStep c')
  | .down g t off bs => match find g t s with
    | none => took s
    | some c =>
      let c' : Coll := { c with down := aset off bs c.down }
      match c'.whole c'.down with
      | none => took (s.modColl c fun _ => c')
      | some all => if s.collFree c then took ((s.modColl c fun _ => c').collResult c' all) else s.later1 (.linkRequestArrival x)
  | _ => s

/-- The abort of a collective goes to the group's members on other modules (R409). -/
def State.abortPeers (s : State) (c : Coll) (n : Nat) : State :=
  s.modPort n fun y => { y with out := y.out ++ (c.mods.filter (· ≠ s.modId)).map fun m => .abort m c.group c.tag }

/-- COLLECTIVE ABORT (R409): the member's ALLRED completes with peer-reset. Where the member is the one that is reset, the others of its group are
told, by a port that is in step with its peer (R399). -/
def execCollectiveAbort (x : EvCollAbort) (s : State) : Out :=
  match s.colls.find? fun c => c.part = x.part && c.group = x.group && c.tag = x.tag with
  | none => .next s
  | some c =>
    let n := if x.first then (s.part? c.part).bind (·.portOf c.ep) else none
    if n.any fun n => !(s.port n).synced then .next (s.later1 (.collectiveAbort x)) else
    let s := n.elim s fun n => s.abortPeers c n
    let s' := { s with colls := s.colls.erase c }
    .next (match s.collReq c with
      | some r => s'.endReq r 5 0
      | none => s')

/-! ### Arrival, acknowledgement, retry, retirement -/

/-- A packet is held while a port that it passes is out of step with its peer (R399). -/
def State.linkStays (s : State) (n : Nat) (x : EvLinkReq) : Bool := !(s.port n).synced || (x.smod = s.modId && !(s.port x.sport).synced)

/-- LINK REQUEST ARRIVAL (R399, R404 to R406). -/
def execLinkRequestArrival (x : EvLinkReq) (s : State) : Out :=
  match (s.part? x.part).bind fun q => (q.portOf x.tep).map fun n => (q, n) with
  | none => .next s
  | some (q, n) =>
    let y := s.port n
    if x.expiry < s.gt || y.disabled then .next s
    else if s.linkStays n x || s.linkHeld x.part then .next (s.later1 (.linkRequestArrival x))
    else
        let same : AtomEntry → Bool := fun e => e.smod = x.smod && e.sport = x.sport && e.req = x.req
        let longer : AtomEntry → AtomEntry := fun z => if same z then { z with expiry := max z.expiry x.expiry } else z
        match (y.atoms ++ y.seen).find? same with
        | some e =>
          let s := s.modPort n fun y => { y with atoms := y.atoms.map longer, seen := y.seen.map longer }
          .next (s.linkAnswer x (.ok e.old []))
        | none =>
          if !y.cached.contains (x.part, x.tep) then
            if 64 ≤ y.waiting.length then .next (s.linkAnswer x (.nack 2000))
            else .next ((s.modPort n fun y => { y with waiting := y.waiting ++ [x] }).push [.endpointContextFill ⟨x.part, n, x.tep⟩])
          else
            match x.op with
            | .up _ _ _ _ _ | .down _ _ _ _ => .next (s.collPacket n x)
            | _ =>
              let (c, s) := s.linkCtx x.part x.tep
              match State.linkTarget q c x with
              | .error st => .next (s.linkAnswer x (.status st))
              | .ok a => .next (s.linkApply x n a)

/-- ENDPOINT CONTEXT FILL (R406): the context is cached, one of 256 leaves, and what waited goes on. -/
def execEndpointContextFill (x : EvCtx) (s : State) : Out :=
  let y := s.port x.port
  let (out, s) := if y.cached.contains (x.part, x.ep) || y.cached.length < 256 then (none, s) else s.choose y.cached
  let cached := (y.cached.filter fun e => some e ≠ out && e ≠ (x.part, x.ep)) ++ [(x.part, x.ep)]
  let (go, stay) := y.waiting.partition fun z => z.part = x.part && z.tep = x.ep
  .next ((s.modPort x.port fun y => { y with cached := cached, waiting := stay }).push (go.map .linkRequestArrival))

/-- ATOMIC RESULT CACHE EXPIRY (R405). -/
def execAtomicResultCacheExpiry (x : EvAtom) (s : State) : Out :=
  .next (s.modPort x.port fun y => { y with atoms := y.atoms.filter fun e =>
    !(e.smod = x.smod && e.sport = x.sport && e.req = x.req && decide (e.expiry + 250 ≤ s.gt)) })

/-- A packet can retire (R405): acknowledged, and every other copy past its expiry by 250 ns. -/
def LinkPkt.retirable (k : LinkPkt) (gt : Nat) : Bool := k.ans.isSome && k.expiries.all fun e => e + 250 ≤ gt

/-- The acknowledgement of a copy: the others are those that its retirement awaits. -/
def LinkPkt.acked (k : LinkPkt) (a : LinkAns) (copy : Nat) : LinkPkt := { k with ans := some a, expiries := k.expiries.filter (· ≠ copy) }

/-- LINK ACKNOWLEDGEMENT (R405): an answer, or a NACK, after whose interval the packet is sent again. -/
def execLinkAcknowledgement (x : EvLinkAck) (s : State) : Out :=
  match (s.port x.port).pkt? x.req with
  | none => .next s
  | some k =>
    if k.ans.isSome then .next s
    else if !(s.port x.port).synced then .next (s.later1 (.linkAcknowledgement x))
    else
      match x.ans with
      | .nack ns => .next (s.modPkt x.port x.req fun k => { k with again := s.gt + ns, unanswered := k.unanswered - 1 })
      | a =>
        match k.op, a with
        | .get _, .ok _ bs => match s.linkPut k.part k.laddr bs with
          | .ok _ s => .next ((s.modPkt x.port x.req (·.acked a x.copy)).push [.linkRetire ⟨k.part, x.port, x.req⟩])
          | .busy s | .poison _ s => .next (s.later1 (.linkAcknowledgement x))
        | _, _ => .next ((s.modPkt x.port x.req (·.acked a x.copy)).push [.linkRetire ⟨k.part, x.port, x.req⟩])

/-- The packets of a request leave the retry buffer. -/
def State.dropPkts (s : State) (n : Nat) (r : LinkReq) : State :=
  s.modPort n fun y => { y with retry := y.retry.filter fun k => !(k.part = r.part && k.ep = r.ep && k.idx = r.idx) }

/-- The request of a packet. -/
def State.pktReq (s : State) (k : LinkPkt) : Option LinkReq := s.reqs.find? fun r => r.part = k.part && r.ep = k.ep && r.idx = k.idx

/-- LINK RETRY (R405): after 20 µs without an answer, or a NACK's interval, a new copy is sent; after 8 copies the target is unreachable. -/
def execLinkRetry (x : EvLinkPkt) (s : State) : Out :=
  match (s.port x.port).pkt? x.req with
  | none => .next s
  | some k =>
    if k.ans.isSome || s.gt < k.again then .next s
    else if 8 ≤ k.unanswered then
      match s.pktReq k with
      | some r =>
        let s := (s.dropPkts x.port r)
        let s := { s with colls := s.colls.filter fun c => !(c.part = r.part && c.ep = r.ep && c.idx = r.idx) }
        .next (s.endReq r 4 0)
      | none => .next (s.modPort x.port fun y => { y with retry := y.retry.erase k })
    else
      let s := s.modPkt x.port x.req fun k => { k with expiries := k.expiries ++ [s.gt + 25000], again := s.gt + 20000, unanswered := k.unanswered + 1 }
      .next (if k.tmod = s.modId && !(s.port x.port).disabled then
        s.push [.linkRequestArrival ⟨k.part, s.modId, x.port, k.req, k.tep, k.roff, k.op, s.gt + 25000⟩] else s)

/-- The status and old value that an answer brings. -/
def ansResult : LinkAns → Nat × Word
  | .ok old _ => (0, old)
  | .status n => (n, 0)
  | .nack _ => (0, 0)

/-- LINK RETIRE (R405): the packet leaves; with its last packet the request performs (R403). -/
def execLinkRetire (x : EvLinkPkt) (s : State) : Out :=
  match (s.port x.port).pkt? x.req with
  | none => .next s
  | some k =>
    if !k.retirable s.gt then .next s
    else
      let s := s.modPort x.port fun y => { y with retry := y.retry.erase k }
      match s.pktReq k, k.ans with
      | some r, some a =>
        if descF r.desc 0 8 = 6 then .next (s.collEnd r)
        else
          let st := if r.status = 0 then (ansResult a).1 else r.status
          let r' := { r with status := st, old := if linkAtomic k.op then (ansResult a).2 else r.old }
          let s := { s with reqs := s.reqs.map fun z => if z = r then r' else z }
          let more := (s.port x.port).retry.any fun z => z.part = r.part && z.ep = r.ep && z.idx = r.idx
          .next (if more then s else s.endReq r' st r'.old)
      | _, _ => .next s

/-- LINK BEACON (R399). -/
def execLinkBeacon (x : EvLinkBeacon) (s : State) : Out := .next (s.modPort x.port fun y => { y with synced := decide (x.diff.natAbs ≤ 250) })

end Sys2Proof.Machine
end

