-- ==== Sys2Proof/Machine/Customs.lean ====
section
/-! DEFINITION. Scrubs and the margin plan (R413, R418), Customs (R419, R420), boot and attestation (R421). -/

namespace Sys2Proof.Machine

/-! ### Scrubs (R411, R413) -/

/-- The partition whose own window holds a sector. -/
def State.ownerOf (s : State) (pa : Nat) : Option (Nat × Part) := s.parts.find? fun e => inPriv e.2 pa

/-- The core at which a DRAM event of a partition is reported: that of the sector's home. -/
def scrubCore (q : Option (Nat × Part)) (pa : Nat) : Nat := q.elim 0 fun e => coreOfCluster (homeOf e.2 pa) 0

/-- A thread whose register space holds a sector (R53). -/
def State.registersAt (s : State) (pa : Nat) : Option (Nat × Nat) :=
  (s.threads.find? fun e => !e.2.ending && s.ctxPa e.1.1 e.1.2 ≤ pa && pa < s.ctxPa e.1.1 e.1.2 + 4096).map (·.1)

/-- The fault record of a thread that an error in its registers has ended; DETAIL is the kind of their store (R411, R412). -/
def State.lostThread (s : State) (c : Nat) (t : Thread) (kind : Nat) : State :=
  let i : TrapInfo := ⟨0x34, BitVec.ofNat 16 kind, .lead, 7, 0, 0, 0, 0, 0, 0⟩
  (s.appendRec c t.region (recFields s c t.tid i false) [] none none).2

/-- A poisoned sector of a slot's register space ends its thread, with a record (R411); the error is reported (R416). -/
def State.poisonSlot (s : State) (c k : Nat) : State :=
  match s.thread? c k with
  | none => s
  | some t =>
    if t.ending then s
    else
      let sec : ErrSec := .mem (s.ctxPa c k / 64)
      ((s.report (some (s.partOf c)) ⟨2, 3, some sec, none, t.tid, c, some t.region⟩).kill c k).lostThread c t 3

/-- The same of the slot whose register space holds an address. -/
def State.poisonRegisters (s : State) (pa : Nat) : State :=
  match s.registersAt pa with
  | none => s
  | some (c, k) => s.poisonSlot c k

/-- A copy in an L1 that memory does not have: M, or dirty bytes under a lading (R94). -/
def L1Sec.ahead (x : L1Sec) : Bool := x.st == .m || x.st == .mia || (x.st == .l && x.dirty ≠ 0)

/-- A sector of memory has a newer copy in an L1. -/
def State.l1Ahead (s : State) (sec : Nat) : Bool := s.cores.any fun e => (alook sec e.2.l1).any (·.ahead)

/-- The L2 holds a sector that its memory-side slice does not have yet. -/
def State.l2Ahead (s : State) (sec : Nat) : Bool :=
  (s.partOfPa (64 * sec)).any fun p => let e := s.entry p (sec / 4); e.inL2 && e.dirty.getLsbD (sec % 4)

/-- A sector of memory is poisoned, with the kind of its store; it may be one of a thread's register space (R411). -/
def State.poisonMem (s : State) (sec kind : Nat) : State := (s.setPoison sec (some kind)).poisonRegisters (64 * sec)

/-- The scrub finds a sector of DRAM that it cannot correct (R413): the sector is poisoned where no newer copy is dirty above it, and a latent record is
written. -/
def State.scrubPoison (s : State) (sec : Nat) : State :=
  let q := s.ownerOf (64 * sec)
  let s := s.report (q.map (·.1)) ⟨3, 7, some (.mem sec), none, 0, scrubCore q (64 * sec), none⟩
  if s.l1Ahead sec || s.l2Ahead sec || (s.poisonOf sec).isSome then s else s.poisonMem sec 7

/-- SCRUB (R413): a corrected sector counts, an uncorrectable one is poisoned, with a latent record; a tile that cannot be corrected is
evicted (R412). -/
def execScrub (x : EvScrub) (s : State) : Out :=
  match x.place, x.found with
  | _, .clean => .next s
  | .dram pa, .corrected => .next ((s.ownerOf pa).elim s fun e => s.corr e.1 7)
  | .dram pa, .uncorrectable => .next (s.scrubPoison (pa / 64))
  | .tile k _ _, .corrected => .next (s.corr (s.partOf (coreOfCluster k 0)) 5)
  | .tile k idx t, .uncorrectable => .next (s.push [.tileError ⟨k, idx, t⟩])

/-! ### Errors elsewhere (R361, R411, R412) -/

/-- An error in the caravanserai that costs nothing but its repair is reported as recovered (R415). -/
def State.recovered (s : State) (p : Nat) : State :=
  s.report (some p) ⟨4, 4, none, none, 0, coreOfCluster (((s.part? p).elim [] homeList).headD 0) 0, none⟩

/-- The records of a line that can still be read are woken, and the others are gone (R412); the first four stand in the directory entry
itself. -/
def State.brokenChain (s : State) (p line readable : Nat) : State :=
  let s := s.modEntry p line fun e => { e with watchers := e.watchers.take (max 4 readable) }
  s.sendWakes p line 15

/-- The sector of a place in a store, and the partition whose unit or window it is (R416). -/
def storeSec : ErrStore → ErrSec
  | .l1 _ pa | .l2 pa | .slice pa | .dram pa => .mem (pa / 64)
  | .sp c off => .sp c (off / 64)

def State.errPart (s : State) : ErrStore → Option Nat
  | .l1 c _ | .sp c _ => some (s.partOf c)
  | .l2 pa | .slice pa | .dram pa => (s.ownerOf pa).map (·.1)

/-- The kind of a place (R410): that of a clean copy in a cache differs from that of a dirty one. -/
def State.errKind (s : State) : ErrStore → Nat
  | .l1 c pa => if (s.l1 c (pa / 64)).any (·.ahead) then 3 else 1
  | .sp _ _ => 3
  | .l2 pa => if s.l2Ahead (pa / 64) then 4 else 2
  | .slice _ => 6
  | .dram _ => 7

/-- A store's code corrects an error, or a clean copy is fetched afresh: nothing but its counter shows it (R410, R414). -/
def State.corrected (s : State) (x : ErrStore) : State := (s.errPart x).elim s fun p => s.corr p (s.errKind x)

/-- An error that its store's code cannot correct (R410, R411): a clean copy of a cache is refetched; dirty data and the stores below are poisoned, where
no newer copy is dirty above, which would hide it (DEDUCED, assumption 46); `none` when nothing is poisoned. -/
def State.poisonAt (s : State) (x : ErrStore) : Option Bad × State :=
  let k := s.errKind x
  let b : Bad := ⟨k, storeSec x⟩
  match x with
  | .l1 c pa =>
    match s.l1 c (pa / 64) with
    | some y => if k = 3 then (some b, (if y.st == .l then s else s.setPoison (pa / 64) (some 3)).setL1 c (pa / 64) { y with bad := some 3 })
      else (none, s.corrected x)
    | none => (none, s)
  | .sp c off => (some b, s.modCore c fun y => { y with spBad := (off / 64) :: y.spBad.filter (· ≠ off / 64) })
  | .l2 pa => if k = 2 then (none, s.corrected x) else if s.l1Ahead (pa / 64) then (none, s) else (some b, s.poisonMem (pa / 64) k)
  | .slice pa | .dram pa => if s.l1Ahead (pa / 64) || s.l2Ahead (pa / 64) then (none, s) else (some b, s.poisonMem (pa / 64) k)

/-- UNCORRECTABLE DATA (R361, R410 to R412, R416): an operation's read binds the error of the sector that it reads; a sector is poisoned, or corrected; an
entry of a consignment is hit, whose clearing drops it (R326); an error in register space or in a spilled context ends the thread; one in a watcher
chain wakes; one in the Lading Table revokes (R104); one of a router, a rim port or the firmware complex is logged. -/
def execUncorrectableData (x : EvBad) (s : State) : Out :=
  match x with
  | .read r pl =>
    .next (match s.poisonAt pl with
      | (some b, s) => s.withOp r fun c k s => s.poisonedOp c k r.op b
      | (none, s) => s)
  | .sector pl => .next (s.poisonAt pl).2
  | .corrected pl => .next (s.corrected pl)
  | .entry c k i => .next (s.modCons c k fun y =>
      match y.sorted[i]? with
      | some e => { y with sects := y.sects.map fun z => if z.place = e.place then { z with bad := true } else z }
      | none => y)
  | .fabric c kind => .next (s.physReport none ⟨3, kind, none, none, 0, c, none⟩)
  | .registers c k => .next (s.poisonSlot c k)
  | .context c k g =>
    match s.spilled? c k g with
    | none => .next s
    | some t => .next (((s.killSpilled c k g t).report (some (s.partOf c)) ⟨2, 4, none, none, t.tid, c, some t.region⟩).lostThread c t 4)
  | .chain p line n => .next ((s.brokenChain p line n).recovered p)
  | .lading p i =>
    match ((s.part? p).bind fun q => alook i q.ladings).filter fun l => l.st == .held with
    | none => .next s
    | some _ => .next (((s.modLading p i fun l => { l with st := .revoked }).recovered p).push [.revoke ⟨p, i⟩])

/-! ### The margin plan (R418) -/

/-- The grade of a plan. -/
def gradeOf (mv mhz : Nat) : Nat :=
  if mv ≤ 20 && mhz = 1500 then 0 else if mv ≤ 60 && 1450 ≤ mhz then 1 else if mv ≤ 120 && 1350 ≤ mhz then 2 else 3

/-- A plan of the steps that R418 gives. -/
def planOk (mv mhz : Nat) : Bool := mv ≤ 150 && mv % 5 = 0 && 1200 ≤ mhz && mhz ≤ 1500 && mhz % 25 = 0

/-- MARGIN REPLAN. -/
def execMarginReplan (x : EvPlan) (s : State) : Out :=
  if !planOk x.mv x.mhz then .next s
  else
    let marked := ((List.range 16).any fun i => (s.core (coreOfCluster x.cluster i)).suspect) || decide (16 < (s.cluster x.cluster).events)
    .next (s.modCluster x.cluster fun k => { k with mv := x.mv, mhz := x.mhz, grade := if marked then 3 else gradeOf x.mv x.mhz, events := 0 })

/-! ### Customs (R419, R420) -/

/-- The alarm record of a level (R415, R417). -/
def alarmEvent : ErrEvent := ⟨6, 0, none, none, 0, 0, none⟩

/-- A class 6 record, and the level that the DVSEC shows. -/
def State.raise (s : State) (level : Nat) : State :=
  let seq := s.ras.plprod
  let s := s.physReport none alarmEvent
  { s with ras := { s.ras with alarm := max s.ras.alarm level, alseq := seq } }

/-- Level 3: keys erased, everything halted; what has not reached DRAM or left the module is lost. -/
def State.lockDown (s : State) : State :=
  let rec0 := BitVec.ofNat 512 (packFields (alarmEvent.fields s.gt s.ras.plprod 1 ++ [(17, 1, 1), (192, 16, 0xFFFF)]))
  { s with
    ras := { s.ras with alarm := 3, alseq := s.ras.plprod, alarmRec := rec0, halted := true, erased := true, noFetch := true }
    agenda := []
    later := []
    timers := [] }

/-- CUSTOMS ALARM. -/
def execCustomsAlarm (x : EvAlarm) (s : State) : Out :=
  if s.ras.halted then .next s
  else if 3 ≤ x.level then .next s.lockDown
  else
    let s := match x.port with
      | some n => s.modPort n fun y => { y with disabled := true }
      | none => s
    let s := s.raise x.level
    if x.level = 2 then
      let s : State := { s with ras := { s.ras with noFetch := true }, clusters := s.clusters.map fun e => (e.1, { e.2 with throttle := 2 }) }
      .next s.retariff
    else .next s

/-- LEVEL 2 CLEAR: every sensor has read normal for 1 ms. -/
def execLevel2Clear (_ : EvNone) (s : State) : Out :=
  if s.ras.alarm ≠ 2 || s.ras.halted then .next s
  else
    let s : State := { s with ras := { s.ras with alarm := 0, noFetch := false } }
    let s : State := { s with clusters := s.clusters.map fun e => (e.1, { e.2 with throttle := s.throttleFor e.1 e.2.quarter }) }
    .next (s.retariff.push (s.fns.flatMap fun f => f.2.queues.map fun q => .commandFetch ⟨f.1, q.1⟩))

/-- FLIT CRC FAILURE (R398, R419): the hop replays the flit; 16 failures in 1 µs disable the port. -/
def execFlitCrcFailure (x : EvPort) (s : State) : Out :=
  let l := ((s.port x.port).crc.filter fun t => s.gt < t + 1000) ++ [s.gt]
  let s := s.modPort x.port fun y => { y with crc := l }
  .next (if 16 ≤ l.length then s.push [.customsAlarm ⟨1, some x.port⟩] else s)

/-! ### SHA-256 (R421): the standard that the spec names, FIPS 180-4 -/

/-- Whether no smaller number above one divides a number. -/
def isPrime (n : Nat) : Bool := decide (2 ≤ n) && (List.range (n - 2)).all fun d => n % (d + 2) ≠ 0

/-- The primes below 312, of which there are 64. -/
def primes : List Nat := (List.range 312).filter isPrime

/-- The integer part of the k-th root of a number: one bit a time, from the highest of `bits`. -/
def rootFloor (k n : Nat) : Nat → Nat → Nat
  | 0, r => r
  | bits + 1, r => rootFloor k n bits (if (r + 2 ^ bits) ^ k ≤ n then r + 2 ^ bits else r)

/-- The first 32 bits of the fraction of the k-th root of a prime: the standard's constants. -/
def rootWord (k p : Nat) : BitVec 32 := BitVec.ofNat 32 (rootFloor k (p * 2 ^ (32 * k)) 40 0)

/-- Three rotations, or two and a shift, summed without carry. -/
def mix (x : BitVec 32) (turns : List Nat) (shift : Option Nat) : BitVec 32 :=
  (turns.map x.rotateRight ++ shift.toList.map (x >>> ·)).foldl (· ^^^ ·) 0

/-- The schedule's next word, from the last 16, the latest first. -/
def shaNext (l : List (BitVec 32)) : BitVec 32 :=
  match l[1]?, l[6]?, l[14]?, l[15]? with
  | some w2, some w7, some w15, some w16 => mix w2 [17, 19] (some 10) + w7 + mix w15 [7, 18] (some 3) + w16
  | _, _, _, _ => 0

/-- `n` further words of a schedule that is kept latest first. -/
def shaExtend : Nat → List (BitVec 32) → List (BitVec 32)
  | 0, l => l
  | n + 1, l => shaExtend n (shaNext l :: l)

/-- The eight working words of a block. -/
structure ShaVars where
  lo : Vector (BitVec 32) 4
  hi : Vector (BitVec 32) 4
  deriving DecidableEq, Repr

/-- One round with a sum of schedule word and constant. -/
def ShaVars.round (v : ShaVars) (kw : BitVec 32) : ShaVars :=
  let e := v.hi[0]
  let pick := v.hi[2] ^^^ (e &&& (v.hi[1] ^^^ v.hi[2]))
  let most := (v.lo[0] &&& (v.lo[1] ||| v.lo[2])) ||| (v.lo[1] &&& v.lo[2])
  let t := v.hi[3] + mix e [6, 11, 25] none + pick + kw
  ⟨#v[t + mix v.lo[0] [2, 13, 22] none + most, v.lo[0], v.lo[1], v.lo[2]], #v[v.lo[3] + t, e, v.hi[1], v.hi[2]]⟩

/-- The sum, word by word, that chains two blocks. -/
def ShaVars.add (a b : ShaVars) : ShaVars := ⟨a.lo.zipWith (· + ·) b.lo, a.hi.zipWith (· + ·) b.hi⟩

/-- The initial hash value: the square roots of the first eight primes. -/
def ShaVars.initial : ShaVars :=
  let r := fun i => rootWord 2 (primes.getD i 0)
  ⟨Vector.ofFn fun i => r i, Vector.ofFn fun i => r (i + 4)⟩

/-- A number from bytes, the first the most significant. -/
def bigEndian (l : List Byte) : Nat := l.foldl (fun a b => a * 256 + b.toNat) 0

/-- One block of 64 bytes; a round's constant comes from the cube root of a prime. -/
def shaBlock (h : ShaVars) (b : List Byte) : ShaVars :=
  let first := (List.range 16).map fun i => BitVec.ofNat 32 (bigEndian ((b.drop (4 * i)).take 4))
  let words := (shaExtend 48 first.reverse).reverse
  h.add (((primes.map (rootWord 3)).zipWith (· + ·) words).foldl ShaVars.round h)

/-- SHA-256 of a byte string. -/
def sha256 (l : List Byte) : BitVec 256 :=
  let n := l.length
  let padded := l ++ [0x80#8] ++ List.replicate ((119 - n % 64) % 64) 0 ++ (toBytes 8 (8 * n)).reverse
  let h := (List.range (padded.length / 64)).foldl (fun h i => shaBlock h ((padded.drop (64 * i)).take 64)) ShaVars.initial
  BitVec.ofNat 256 ((h.lo.toList ++ h.hi.toList).foldl (fun a x => a * 2 ^ 32 + x.toNat) 0)

/-- The 32 bytes of a digest. -/
def digestBytes (d : BitVec 256) : List Byte := (toBytes 32 d.toNat).reverse

/-! ### Boot and attestation (R421) -/

/-- A verified image's digest extends a measurement register; which one nothing says (assumption 4). -/
def Boot.extend (b : Boot) (image : List Byte) (i : Nat) : Boot :=
  { b with regs := b.regs.set (i % 8) (sha256 (digestBytes (b.regs.getD (i % 8) 0) ++ digestBytes (sha256 image))) }

/-- The chain: each image is verified before the next runs; the first that fails ends it in ROM recovery. -/
def bootChain (fresh : Nat) : List (List Byte × Nat) → Nat → Boot → Boot
  | [], _, b => b
  | (image, version) :: l, i, b =>
    if Config.imageVerifies image && decide (b.fused ≤ version) then
      bootChain fresh l (i + 1) (b.extend image (Config.freeWord (fresh + i)).toNat)
    else { b with recovery := true }

/-- COLD RESET: everything is as after reset but what is fused into the module, and the host's memory. -/
def execColdReset (x : EvBoot) (s : State) : Out :=
  let b := { Boot.reset with fused := s.boot.fused, recovery := x.images.isEmpty }
  .next { State.reset with
    mem := s.mem.filter fun e => decide (2 ^ 51 ≤ e.1)
    fusedCores := s.fusedCores
    fusedEngines := s.fusedEngines
    boot := bootChain s.fresh x.images 0 b
    fresh := s.fresh + x.images.length }

/-- GET MEASUREMENTS: the answer, signed with the identity key, which a locked or unbooted module does not have. -/
def execGetMeasurements (x : EvSpdm) (s : State) : Out :=
  if s.ras.erased || s.boot.recovery then .next s
  else
    let a : SpdmAnswer := ⟨s.boot.regs, s.modId, x.nonce, Config.planDigest s.fresh, Config.signature s.fresh⟩
    .next { s with boot := { s.boot with answers := s.boot.answers ++ [a] }, fresh := s.fresh + 1 }

end Sys2Proof.Machine
end

