-- ==== Sys2Proof/Machine/Control.lean ====
section
/-! DEFINITION. Transfers (R204), predicates (R205), the queue registers (R206) and the repetition buffer (R208 to R213). -/

namespace Sys2Proof.Machine

/-! ### Transfers -/

/-- The target of a displacement (R34). -/
def State.target (s : State) (disp : BitVec 48) : Word := s.cur.ipc + disp.signExtend 64

def execBr (x : BrB) (s : State) : Out :=
  guarded x.g s fun t =>
    if x.c.elim true fun c => icond c (t.rg x.a) (t.rg x.b) then transferTo s (s.target x.disp) id else .next s

def execJmp (x : JmpB) (s : State) : Out := guarded x.g s fun _ => transferTo s (s.target x.disp) id

def execJmpi (x : GSrc) (s : State) : Out := guarded x.g s fun t => transferTo s (t.rg x.a) id

/-- The link register is written before a trap of the transfer (R22), and with the transfer; the target is read before it (R204). -/
def linkTo (s : State) (pc : Word) (d : GReg) : Out := transferLink s pc (fun t => t.wg d (nextPc s.cur.ipc)) id

def execCall (x : CallB) (s : State) : Out := guarded x.g s fun _ => linkTo s (s.target x.disp) x.d

def execCalli (x : GD) (s : State) : Out := guarded x.g s fun t => linkTo s (t.rg x.a) x.d

def execRet (x : GSrc) (s : State) : Out := guarded x.g s fun t => transferTo s (t.rg x.a) id

/-- LOOP: the counter is written with the transfer, and stays when the target check fails (R204). -/
def execLoop (x : LoopB) (s : State) : Out :=
  guarded x.g s fun t =>
    let n := t.rg x.a - 1
    if x.a = 0 || n ≠ 0 then transferTo s (s.target x.disp) fun t => t.wg x.a n else .next (s.setCur (t.wg x.a n))

/-! ### NOP and predicates -/

def execNop (x : GOnly) (s : State) : Out := guarded x.g s fun _ => .next s

def pred2 (f : Bool → Bool → Bool) (x : PredA) (s : State) : Out :=
  setP x.g x.d s fun t => f (t.rp x.a != x.na) (t.rp x.b != x.nb)

def execPand (x : PredA) (s : State) : Out := pred2 and x s
def execPor (x : PredA) (s : State) : Out := pred2 or x s
def execPxor (x : PredA) (s : State) : Out := pred2 xor x s
def execPnot (x : PnotA) (s : State) : Out := setP x.g x.d s fun t => !t.rp x.a

def execPset (x : PsetA) (s : State) : Out :=
  setP x.g x.d s fun t => match x.src with
    | .imm v => v
    | .reg a => t.rg a != 0

/-! ### Queues -/

/-- The depth of a queue (R40). -/
def queueDepth (q : Reg3) : Nat := if q.toNat < 6 then 16 else 4

/-- An instruction waits on a queue register. -/
def Thread.queueBlocked (t : Thread) (i : Instr) : Bool :=
  match i with
  | .qput x => t.guard x.g && decide (queueDepth x.q ≤ (t.rq x.q).length)
  | .qget x | .qpeek x => t.guard x.g && (t.rq x.q).isEmpty
  | _ => false

def execQput (x : QputA) (s : State) : Out :=
  guarded x.g s fun t =>
    if queueDepth x.q ≤ (t.rq x.q).length then wait s else .next (s.setCur (t.wq x.q (t.rq x.q ++ [t.rg x.a])))

def execQget (x : QgetA) (s : State) : Out :=
  guarded x.g s fun t =>
    match t.rq x.q with
    | [] => wait s
    | v :: l => .next (s.setCur ((t.wq x.q l).wg x.d v))

def execQpeek (x : QgetA) (s : State) : Out :=
  guarded x.g s fun t =>
    match t.rq x.q with
    | [] => wait s
    | v :: _ => .next (s.setCur (t.wg x.d v))

def execQcnt (x : QgetA) (s : State) : Out := setG x.g x.d s fun t => BitVec.ofNat 64 (t.rq x.q).length

/-! ### The repetition buffer -/

/-- The repetition trap (R215). -/
def repTrap (s : State) (sub : Nat) : Out := trapAt s 0x25 sub 0

def execRepb (x : RepbA) (s : State) : Out :=
  guarded x.g s fun t =>
    if t.rep.act then wait s
    else
      let va := t.rg x.a
      match s.translateR s.cur.core t.region va .store with
      | (.fault f, s) => trapAcc s f.cause TrKind.store.acck f.level f.span va
      | (.ok pa _ _, s) =>
        if va.toNat % 512 ≠ 0 then repTrap s 5
        else .next (s.modCur fun t =>
          { t with rep := { t.rep with savePa := pa, stride := x.stride, renv := x.renv, reng := x.reng, buf := [], valid := false, capt := true, run := none } })

/-- REPE closes the capture (R210). -/
def execRepe (_ : EvNone) (s : State) : Out :=
  withT s fun t =>
    if t.rep.capt then .next (s.setCur { t with rep := { t.rep with capt := false, valid := true } }) else repTrap s 2

/-- REPRUN hands the passes to the sequencer: they stand in the trail's stream at its place (R211). -/
def execReprun (x : GSrc) (s : State) : Out :=
  guarded x.g s fun t =>
    let n := (t.rg x.a).toNat
    let run := some (s.cur.ipc, s.cur.iword)
    if !t.rep.valid then repTrap s 3
    else if 1048575 < n then repTrap s 4
    else if t.rep.act then wait s
    else if n = 0 || t.rep.buf.isEmpty then .next (s.setCur { t with rep := { t.rep with pass := n, npass := n, idx := 0, run := run } })
    else .next (s.setCur { t with
      rep := { t.rep with act := true, pass := 0, npass := n, idx := 0, run := run }
      trailQ := t.trailQ ++ [⟨s.cur.ipc, s.cur.iword, s.cur.instr, true, s.cur.no, false⟩] })

def execRepstat (x : GDest) (s : State) : Out := setG x.g x.d s fun t => BitVec.ofNat 64 t.rep.word

end Sys2Proof.Machine
end

