-- ==== Sys2Proof/Machine/Fetch.lean ====
section
/-! DEFINITION. A fetched line at the core (R19), the pipe deadlock (R45), the repetition sequencer's next instruction (R211), and the records
that wait for room (R85). -/

namespace Sys2Proof.Machine

/-! ### FETCH LINE ARRIVAL (R19) -/

/-- The trap that a fetch raises for the slot that the thread was to execute. -/
def State.fetchTrap (s : State) (c k : Nat) (cause : BitVec 8) (detail level span : Nat) : State :=
  let pc := (s.thread? c k).elim 0 (·.leadPc)
  s.takeTrap c k ⟨cause, BitVec.ofNat 16 detail, .lead, if isTrans cause then 3 else 7, BitVec.ofNat 3 level, pc, pc,
    s.entryWord c k ((s.thread? c k).elim 0 (·.region)) pc cause, 0, 0⟩ span []

/-- A line that enters the fetch path with errors is fetched once more; a second copy with errors traps. -/
def execFetchLineArrival (x : EvFetch) (s : State) : Out :=
  match s.thread? x.core x.slot with
  | none => .next s
  | some t =>
    if t.st != .running || pcLine t.leadPc ≠ x.va then .next s
    else
      match s.fetchLine x.core x.slot t.region x.va with
      | (.trap cause d lv span, s) => .next (s.fetchTrap x.core x.slot cause d lv span)
      | (.busy, s) => .next { s with later := s.later ++ [.fetchLineArrival x] }
      | (.ok l, s) =>
        let take := fun (l : V512) (s : State) =>
          if lineBad l then s.fetchTrap x.core x.slot 0x01 7 0 12 else s.modThread x.core x.slot fun t => { t with line := some (x.va, l) }
        if parityOk (l ^^^ x.flip1) then .next (take l s)
        else
          let again := match s.translateR x.core t.region x.va .fetch with
            | (.ok pa false _, s) => s.discardCopy (s.partOf x.core) x.core (pa / 64)
            | (_, s) => s
          match again.fetchLine x.core x.slot t.region x.va with
          | (.ok l, s) =>
            if parityOk (l ^^^ x.flip2) then
              .next (take l ((s.modCore x.core fun y => { y with corrected := y.corrected + 1 }).corr (s.partOf x.core) 1))
            else .next (s.fetchTrap x.core x.slot 0x03 0 0 12)
          | (.busy, s) => .next { s with later := s.later ++ [.fetchLineArrival x] }
          | (_, s) => .next (s.fetchTrap x.core x.slot 0x03 0 0 12)

/-! ### PIPE DEADLOCK (R45) -/

/-- The instruction at which the lead pipe stands, with its word, its place and whether it is the second slot of a pair. -/
def Thread.leadAt (t : Thread) : Option (Slot × Instr × Nat × Bool) :=
  match t.ahead with
  | e :: _ => some (e.iword, e.instr, e.no, e.pair)
  | [] =>
    match t.line with
    | some (a, l) =>
      let n := pcSlot t.leadPc
      if a = pcLine t.leadPc then ((decode (lineSlot l n)).toOption).map fun i => (lineSlot l n, i, t.issued, secondOfPair l n) else none
    | none => none

/-- The instruction at which the trail pipe stands. -/
def Thread.trailStands (t : Thread) : Option (Slot × Instr × Nat × Bool) :=
  match t.trailQ with
  | [] => none
  | e :: _ => if e.rep then (t.rep.pending.head?).map fun i => ((t.rep.buf[t.rep.idx]?).getD 0, i, e.no, false) else some (e.iword, e.instr, e.no, e.pair)

/-- An instruction waits for an outstanding operation. -/
def Thread.memWaits (t : Thread) (i : Instr) (no : Nat) : Bool := t.ops.any fun o => o.no ≤ no && i.use.waitsFor o.kind.use

/-- An instruction waits for the repetition's passes (R208, R211). -/
def Thread.repWaits (t : Thread) (i : Instr) : Bool :=
  match i with
  | .repb x => t.guard x.g && t.rep.act
  | .reprun x => t.guard x.g && t.rep.act && t.rep.valid && (t.rg x.a).toNat ≤ 1048575
  | _ => false

/-- A pipe stands at an instruction on a queue register, or for the other pipe. -/
def Thread.pipeBlocked (t : Thread) (pipe : Pipe) (x : Slot × Instr × Nat × Bool) : Bool :=
  !t.memWaits x.2.1 x.2.2.1 && (t.queueBlocked x.2.1 || t.repWaits x.2.1 || t.hazard pipe x.1 x.2.1 x.2.2.1 || t.coupled pipe x.2.2.1 x.2.2.2)

/-- Both pipes are blocked, each on a queue register or on R41's wait for the other pipe. -/
def Thread.deadlocked (t : Thread) : Bool :=
  t.st == .running && t.leadAt.any (t.pipeBlocked .lead) && t.trailStands.any (t.pipeBlocked .trail)

/-- PIPE DEADLOCK: the trap names the trail pipe's PC. -/
def execPipeDeadlock (x : EvThread) (s : State) : Out :=
  match s.thread? x.core x.slot with
  | none => .next s
  | some t =>
    if !t.deadlocked then .next s
    else
      let w := (t.trailQ.head?).elim 0 (·.iword)
      .next (s.takeTrap x.core x.slot ⟨0x24, 0, .trail, 7, 0, 0, t.trailAt, w, 0, 0⟩ 12 [])

/-! ### REISSUE (R211) -/

/-- The sequencer's next captured instruction is what issues next. -/
def execReissue (x : EvThread) (s : State) : Out :=
  match s.thread? x.core x.slot with
  | none => .next s
  | some t =>
    if (t.trailQ.head?.any (·.rep)) && t.rep.act then .next { s with sched := ⟨x.core, x.slot, .trail⟩ :: s.sched } else .next s

/-! ### QUEUED FAULT RECORD WRITE (R85) -/

/-- The threads whose trap waited for a record go on to its end (R369). -/
def State.endTraps (s : State) (l : List (Nat × Nat)) (seq : Word) : State := l.foldl (fun s n => s.endTrap n.1 n.2 seq) s

/-- The oldest record of a region that waits is placed, and the next one follows. -/
def execQueuedFaultRecordWrite (x : EvRegion) (s : State) : Out :=
  match s.region? x.region with
  | none => .next s
  | some r =>
    match ((s.part? r.part).elim [] (·.pending)).find? fun y => y.region = x.region with
    | none => .next s
    | some y =>
      let out := fun (s : State) => s.modPart r.part fun q => { q with pending := q.pending.erase y }
      let more := fun (s : State) =>
        if ((s.part? r.part).elim [] (·.pending)).any fun z => z.region = x.region then s.push [.queuedFaultRecordWrite x] else s
      match s.placeRec y (s.anyCore r) with
      | (.waits, s) => .next (s.later1 (.queuedFaultRecordWrite x))
      | (.lost, s) =>
        let s := (out s).modPart r.part fun q => { q with merge := q.merge.map fun k => if y.key.any (sameKey k) then { k with lost := true } else k }
        .next (more (s.endTraps y.waits (BitVec.allOnes 64)))
      | (.seq i, s) =>
        let s := (out s).modPart r.part fun q => { q with merge := q.merge.map fun k => if y.key.any (sameKey k) then { k with idx := some i } else k }
        .next (more (s.endTraps y.waits (BitVec.ofNat 64 i)))

end Sys2Proof.Machine
end

