-- ==== Sys2Proof/Machine/Complete.lean ====
section
/-! DEFINITION. A stream operation goes on, and completes when its completion point is reached (R113, R116, R119): the operations that
waited for an edge, for room, or for a walk, each by its kind. -/

namespace Sys2Proof.Machine

/-- An operation can go on: its edges are satisfied, it is not parked and no walk of its own is under way; a stopped thread's tensor
instructions and passes stand (R370). -/
def Op.goes (o : Op) (stopped : Bool) : Bool := o.deps.isEmpty && o.parked.isNone && o.walk.isNone && !o.ended && !(stopped && o.stays)

/-- A held remote store leaves for its core (R153). -/
def State.tryRemote (s : State) (c k : Nat) (t : Thread) (o : Op) (dst lcn off : Nat) (act : RemoteAct) : State :=
  (s.modThread c k fun t => t.modOp o.id fun o => { o with kind := .remote dst lcn off act true }).push
    [.remoteStoreArrival ⟨⟨c, k, o.id⟩, t.region, dst, lcn, off, act, none⟩]

/-- An operation takes its next part. -/
def State.tryOp (s : State) (c k : Nat) (t : Thread) (o : Op) : State :=
  match o.kind with
  | .acc a => s.tryAcc c k t o a
  | .acqrWait _ _ _ _ => s
  | .remote dst lcn off act sent => bif sent then s else s.tryRemote c k t o dst lcn off act
  | .copy x => s.tryCopy c k t o x
  | .chan d n act => s.tryChan c k t o d n act
  | .msg core m sent => bif sent then s else s.tryMsg c k o core m
  | .tensor x => s.tryTensor c k t o x
  | .mat x => s.tryMat c k t o x
  | .drain => s
  | .res d act => s.tryRes c k t o d act
  | .thread d succ core tid req sent => bif sent then s else s.tryRequest c k t o d succ core tid req

/-- An operation of a thread in a slot goes on. -/
def State.goOn (s : State) (c k id : Nat) : State :=
  match (s.thread? c k).bind fun t => (t.op? id).map fun o => (t, o) with
  | none => s
  | some (t, o) => if o.goes (t.st == .stopped || t.stop.isSome) then s.tryOp c k t o else s

/-- STREAM OPERATION COMPLETE (R116, R119). -/
def execStreamOperationComplete (x : OpRef) (s : State) : Out := .next (s.withOp x fun c k s => s.goOn c k x.op)

end Sys2Proof.Machine
end

