-- ==== Sys2Proof/Machine/Dispatch.lean ====
section
/-! DEFINITION. The meaning of each row of the table of operations and events. -/

namespace Sys2Proof.Machine

open Sys2Proof

def exec (i : Instr) (s : State) : Host.Outcome State Fault Refusal :=
  match i with
  | .add x => Sys2Proof.Machine.execAdd x s
  | .addImm x => Sys2Proof.Machine.execAddImm x s
  | .sub x => Sys2Proof.Machine.execSub x s
  | .subImm x => Sys2Proof.Machine.execSubImm x s
  | .mul x => Sys2Proof.Machine.execMul x s
  | .mulImm x => Sys2Proof.Machine.execMulImm x s
  | .mulh x => Sys2Proof.Machine.execMulh x s
  | .mulhImm x => Sys2Proof.Machine.execMulhImm x s
  | .mulhu x => Sys2Proof.Machine.execMulhu x s
  | .mulhuImm x => Sys2Proof.Machine.execMulhuImm x s
  | .div x => Sys2Proof.Machine.execDiv x s
  | .divImm x => Sys2Proof.Machine.execDivImm x s
  | .divu x => Sys2Proof.Machine.execDivu x s
  | .divuImm x => Sys2Proof.Machine.execDivuImm x s
  | .rem x => Sys2Proof.Machine.execRem x s
  | .remImm x => Sys2Proof.Machine.execRemImm x s
  | .remu x => Sys2Proof.Machine.execRemu x s
  | .remuImm x => Sys2Proof.Machine.execRemuImm x s
  | .min x => Sys2Proof.Machine.execMin x s
  | .minImm x => Sys2Proof.Machine.execMinImm x s
  | .max x => Sys2Proof.Machine.execMax x s
  | .maxImm x => Sys2Proof.Machine.execMaxImm x s
  | .minu x => Sys2Proof.Machine.execMinu x s
  | .minuImm x => Sys2Proof.Machine.execMinuImm x s
  | .maxu x => Sys2Proof.Machine.execMaxu x s
  | .maxuImm x => Sys2Proof.Machine.execMaxuImm x s
  | .and x => Sys2Proof.Machine.execAnd x s
  | .andImm x => Sys2Proof.Machine.execAndImm x s
  | .or x => Sys2Proof.Machine.execOr x s
  | .orImm x => Sys2Proof.Machine.execOrImm x s
  | .xor x => Sys2Proof.Machine.execXor x s
  | .xorImm x => Sys2Proof.Machine.execXorImm x s
  | .andn x => Sys2Proof.Machine.execAndn x s
  | .andnImm x => Sys2Proof.Machine.execAndnImm x s
  | .orn x => Sys2Proof.Machine.execOrn x s
  | .ornImm x => Sys2Proof.Machine.execOrnImm x s
  | .shl x => Sys2Proof.Machine.execShl x s
  | .shlImm x => Sys2Proof.Machine.execShlImm x s
  | .shr x => Sys2Proof.Machine.execShr x s
  | .shrImm x => Sys2Proof.Machine.execShrImm x s
  | .sra x => Sys2Proof.Machine.execSra x s
  | .sraImm x => Sys2Proof.Machine.execSraImm x s
  | .rol x => Sys2Proof.Machine.execRol x s
  | .rolImm x => Sys2Proof.Machine.execRolImm x s
  | .clz x => Sys2Proof.Machine.execClz x s
  | .ctz x => Sys2Proof.Machine.execCtz x s
  | .popc x => Sys2Proof.Machine.execPopc x s
  | .brev x => Sys2Proof.Machine.execBrev x s
  | .sext x => Sys2Proof.Machine.execSext x s
  | .zext x => Sys2Proof.Machine.execZext x s
  | .bfx x => Sys2Proof.Machine.execBfx x s
  | .bfi x => Sys2Proof.Machine.execBfi x s
  | .cmp x => Sys2Proof.Machine.execCmp x s
  | .cmpImm x => Sys2Proof.Machine.execCmpImm x s
  | .sel x => Sys2Proof.Machine.execSel x s
  | .mov x => Sys2Proof.Machine.execMov x s
  | .li x => Sys2Proof.Machine.execLi x s
  | .lea x => Sys2Proof.Machine.execLea x s
  | .leaImm x => Sys2Proof.Machine.execLeaImm x s
  | .fadd x => Sys2Proof.Machine.execFadd x s
  | .fsub x => Sys2Proof.Machine.execFsub x s
  | .fmul x => Sys2Proof.Machine.execFmul x s
  | .fmin x => Sys2Proof.Machine.execFmin x s
  | .fmax x => Sys2Proof.Machine.execFmax x s
  | .fabs x => Sys2Proof.Machine.execFabs x s
  | .fneg x => Sys2Proof.Machine.execFneg x s
  | .ffma x => Sys2Proof.Machine.execFfma x s
  | .fcmp x => Sys2Proof.Machine.execFcmp x s
  | .fclass x => Sys2Proof.Machine.execFclass x s
  | .fcvt x => Sys2Proof.Machine.execFcvt x s
  | .frnd x => Sys2Proof.Machine.execFrnd x s
  | .br x => Sys2Proof.Machine.execBr x s
  | .jmp x => Sys2Proof.Machine.execJmp x s
  | .jmpi x => Sys2Proof.Machine.execJmpi x s
  | .call x => Sys2Proof.Machine.execCall x s
  | .calli x => Sys2Proof.Machine.execCalli x s
  | .ret x => Sys2Proof.Machine.execRet x s
  | .loop x => Sys2Proof.Machine.execLoop x s
  | .nop x => Sys2Proof.Machine.execNop x s
  | .pand x => Sys2Proof.Machine.execPand x s
  | .por x => Sys2Proof.Machine.execPor x s
  | .pxor x => Sys2Proof.Machine.execPxor x s
  | .pnot x => Sys2Proof.Machine.execPnot x s
  | .pset x => Sys2Proof.Machine.execPset x s
  | .qput x => Sys2Proof.Machine.execQput x s
  | .qget x => Sys2Proof.Machine.execQget x s
  | .qpeek x => Sys2Proof.Machine.execQpeek x s
  | .qcnt x => Sys2Proof.Machine.execQcnt x s
  | .repb x => Sys2Proof.Machine.execRepb x s
  | .repe x => Sys2Proof.Machine.execRepe x s
  | .reprun x => Sys2Proof.Machine.execReprun x s
  | .repstat x => Sys2Proof.Machine.execRepstat x s
  | .ld x => Sys2Proof.Machine.execLd x s
  | .st x => Sys2Proof.Machine.execSt x s
  | .ldv x => Sys2Proof.Machine.execLdv x s
  | .stv x => Sys2Proof.Machine.execStv x s
  | .pfetch x => Sys2Proof.Machine.execPfetch x s
  | .cflush x => Sys2Proof.Machine.execCflush x s
  | .cinv x => Sys2Proof.Machine.execCinv x s
  | .scnt x => Sys2Proof.Machine.execScnt x s
  | .amoadd x => Sys2Proof.Machine.execAmoadd x s
  | .amoand x => Sys2Proof.Machine.execAmoand x s
  | .amoor x => Sys2Proof.Machine.execAmoor x s
  | .amoxor x => Sys2Proof.Machine.execAmoxor x s
  | .amomin x => Sys2Proof.Machine.execAmomin x s
  | .amomax x => Sys2Proof.Machine.execAmomax x s
  | .amominu x => Sys2Proof.Machine.execAmominu x s
  | .amomaxu x => Sys2Proof.Machine.execAmomaxu x s
  | .amoswp x => Sys2Proof.Machine.execAmoswp x s
  | .amocas x => Sys2Proof.Machine.execAmocas x s
  | .amofadd x => Sys2Proof.Machine.execAmofadd x s
  | .amofmin x => Sys2Proof.Machine.execAmofmin x s
  | .amofmax x => Sys2Proof.Machine.execAmofmax x s
  | .watch x => Sys2Proof.Machine.execWatch x s
  | .unwatch x => Sys2Proof.Machine.execUnwatch x s
  | .watchq x => Sys2Proof.Machine.execWatchq x s
  | .acqr x => Sys2Proof.Machine.execAcqr x s
  | .relr x => Sys2Proof.Machine.execRelr x s
  | .ladq x => Sys2Proof.Machine.execLadq x s
  | .send x => Sys2Proof.Machine.execSend x s
  | .sendadd x => Sys2Proof.Machine.execSendadd x s
  | .sendmin x => Sys2Proof.Machine.execSendmin x s
  | .sendmax x => Sys2Proof.Machine.execSendmax x s
  | .chopen x => Sys2Proof.Machine.execChopen x s
  | .chclose x => Sys2Proof.Machine.execChclose x s
  | .chwm x => Sys2Proof.Machine.execChwm x s
  | .stn x => Sys2Proof.Machine.execStn x s
  | .lmcfg x => Sys2Proof.Machine.execLmcfg x s
  | .sendm x => Sys2Proof.Machine.execSendm x s
  | .vadd x => Sys2Proof.Machine.execVadd x s
  | .vsub x => Sys2Proof.Machine.execVsub x s
  | .vmul x => Sys2Proof.Machine.execVmul x s
  | .vfma x => Sys2Proof.Machine.execVfma x s
  | .vfms x => Sys2Proof.Machine.execVfms x s
  | .vneg x => Sys2Proof.Machine.execVneg x s
  | .vabs x => Sys2Proof.Machine.execVabs x s
  | .vmin x => Sys2Proof.Machine.execVmin x s
  | .vmax x => Sys2Proof.Machine.execVmax x s
  | .vand x => Sys2Proof.Machine.execVand x s
  | .vor x => Sys2Proof.Machine.execVor x s
  | .vxor x => Sys2Proof.Machine.execVxor x s
  | .vshl x => Sys2Proof.Machine.execVshl x s
  | .vshr x => Sys2Proof.Machine.execVshr x s
  | .vsra x => Sys2Proof.Machine.execVsra x s
  | .vcmp x => Sys2Proof.Machine.execVcmp x s
  | .vsel x => Sys2Proof.Machine.execVsel x s
  | .vcvt x => Sys2Proof.Machine.execVcvt x s
  | .vrcp x => Sys2Proof.Machine.execVrcp x s
  | .vrsq x => Sys2Proof.Machine.execVrsq x s
  | .vsqrt x => Sys2Proof.Machine.execVsqrt x s
  | .vexp2 x => Sys2Proof.Machine.execVexp2 x s
  | .vlog2 x => Sys2Proof.Machine.execVlog2 x s
  | .vsinp x => Sys2Proof.Machine.execVsinp x s
  | .vtanh x => Sys2Proof.Machine.execVtanh x s
  | .vperm x => Sys2Proof.Machine.execVperm x s
  | .vbcast x => Sys2Proof.Machine.execVbcast x s
  | .vins x => Sys2Proof.Machine.execVins x s
  | .vext x => Sys2Proof.Machine.execVext x s
  | .vred x => Sys2Proof.Machine.execVred x s
  | .vscan x => Sys2Proof.Machine.execVscan x s
  | .vdot x => Sys2Proof.Machine.execVdot x s
  | .vmov x => Sys2Proof.Machine.execVmov x s
  | .vsplat x => Sys2Proof.Machine.execVsplat x s
  | .mld x => Sys2Proof.Machine.execMld x s
  | .mst x => Sys2Proof.Machine.execMst x s
  | .mset x => Sys2Proof.Machine.execMset x s
  | .mew x => Sys2Proof.Machine.execMew x s
  | .mfma x => Sys2Proof.Machine.execMfma x s
  | .mred x => Sys2Proof.Machine.execMred x s
  | .mcvt x => Sys2Proof.Machine.execMcvt x s
  | .mgath x => Sys2Proof.Machine.execMgath x s
  | .mscat x => Sys2Proof.Machine.execMscat x s
  | .mcopy x => Sys2Proof.Machine.execMcopy x s
  | .fmtset x => Sys2Proof.Machine.execFmtset x s
  | .fmtget x => Sys2Proof.Machine.execFmtget x s
  | .lutld x => Sys2Proof.Machine.execLutld x s
  | .xres x => Sys2Proof.Machine.execXres x s
  | .xload x => Sys2Proof.Machine.execXload x s
  | .xpin x => Sys2Proof.Machine.execXpin x s
  | .xunpin x => Sys2Proof.Machine.execXunpin x s
  | .xrevk x => Sys2Proof.Machine.execXrevk x s
  | .xqry x => Sys2Proof.Machine.execXqry x s
  | .xmm x => Sys2Proof.Machine.execXmm x s
  | .xacc x => Sys2Proof.Machine.execXacc x s
  | .xzero x => Sys2Proof.Machine.execXzero x s
  | .xstat x => Sys2Proof.Machine.execXstat x s
  | .acfg x => Sys2Proof.Machine.execAcfg x s
  | .aget x => Sys2Proof.Machine.execAget x s
  | .afree x => Sys2Proof.Machine.execAfree x s
  | .arowi x => Sys2Proof.Machine.execArowi x s
  | .arowo x => Sys2Proof.Machine.execArowo x s
  | .acoli x => Sys2Proof.Machine.execAcoli x s
  | .acolo x => Sys2Proof.Machine.execAcolo x s
  | .azero x => Sys2Proof.Machine.execAzero x s
  | .spawn x => Sys2Proof.Machine.execSpawn x s
  | .spawnt x => Sys2Proof.Machine.execSpawnt x s
  | .end_ x => Sys2Proof.Machine.execEnd x s
  | .sleep x => Sys2Proof.Machine.execSleep x s
  | .yield x => Sys2Proof.Machine.execYield x s
  | .thnew x => Sys2Proof.Machine.execThnew x s
  | .thstop x => Sys2Proof.Machine.execThstop x s
  | .thstart x => Sys2Proof.Machine.execThstart x s
  | .thrd x => Sys2Proof.Machine.execThrd x s
  | .thwr x => Sys2Proof.Machine.execThwr x s
  | .thstat x => Sys2Proof.Machine.execThstat x s
  | .thkill x => Sys2Proof.Machine.execThkill x s
  | .trap x => Sys2Proof.Machine.execTrap x s
  | .mfs x => Sys2Proof.Machine.execMfs x s
  | .mts x => Sys2Proof.Machine.execMts x s
  | .gtime x => Sys2Proof.Machine.execGtime x s
  | .rgnq x => Sys2Proof.Machine.execRgnq x s
  | .fetchLineArrival x => Sys2Proof.Machine.execFetchLineArrival x s
  | .pipeDeadlock x => Sys2Proof.Machine.execPipeDeadlock x s
  | .reissue x => Sys2Proof.Machine.execReissue x s
  | .tableWalk x => Sys2Proof.Machine.execTableWalk x s
  | .queuedFaultRecordWrite x => Sys2Proof.Machine.execQueuedFaultRecordWrite x s
  | .gets x => Sys2Proof.Machine.execGets x s
  | .getx x => Sys2Proof.Machine.execGetx x s
  | .wrt x => Sys2Proof.Machine.execWrt x s
  | .putx x => Sys2Proof.Machine.execPutx x s
  | .pute x => Sys2Proof.Machine.execPute x s
  | .fwds x => Sys2Proof.Machine.execFwds x s
  | .fwdx x => Sys2Proof.Machine.execFwdx x s
  | .inv x => Sys2Proof.Machine.execInv x s
  | .data x => Sys2Proof.Machine.execData x s
  | .ownerData x => Sys2Proof.Machine.execOwnerData x s
  | .clean x => Sys2Proof.Machine.execClean x s
  | .gone x => Sys2Proof.Machine.execGone x s
  | .ack x => Sys2Proof.Machine.execAck x s
  | .wback x => Sys2Proof.Machine.execWback x s
  | .fillArrives x => Sys2Proof.Machine.execFillArrives x s
  | .l2Replacement x => Sys2Proof.Machine.execL2Replacement x s
  | .l1Eviction x => Sys2Proof.Machine.execL1Eviction x s
  | .wake x => Sys2Proof.Machine.execWake x s
  | .drop x => Sys2Proof.Machine.execDrop x s
  | .snpData x => Sys2Proof.Machine.execSnpData x s
  | .snpInv x => Sys2Proof.Machine.execSnpInv x s
  | .snpCur x => Sys2Proof.Machine.execSnpCur x s
  | .rdSharedReread x => Sys2Proof.Machine.execRdSharedReread x s
  | .biSnpInvResponse x => Sys2Proof.Machine.execBiSnpInvResponse x s
  | .memWr x => Sys2Proof.Machine.execMemWr x s
  | .hostMemRd x => Sys2Proof.Machine.execHostMemRd x s
  | .ladingGrant x => Sys2Proof.Machine.execLadingGrant x s
  | .beacon x => Sys2Proof.Machine.execBeacon x s
  | .ladingRevocation x => Sys2Proof.Machine.execLadingRevocation x s
  | .revoke x => Sys2Proof.Machine.execRevoke x s
  | .packetArrival x => Sys2Proof.Machine.execPacketArrival x s
  | .packetRetry x => Sys2Proof.Machine.execPacketRetry x s
  | .updateArrival x => Sys2Proof.Machine.execUpdateArrival x s
  | .sendComplete x => Sys2Proof.Machine.execSendComplete x s
  | .remoteStoreArrival x => Sys2Proof.Machine.execRemoteStoreArrival x s
  | .streamOperationComplete x => Sys2Proof.Machine.execStreamOperationComplete x s
  | .messageArrival x => Sys2Proof.Machine.execMessageArrival x s
  | .binding x => Sys2Proof.Machine.execBinding x s
  | .ageStep x => Sys2Proof.Machine.execAgeStep x s
  | .stealRequest x => Sys2Proof.Machine.execStealRequest x s
  | .reload x => Sys2Proof.Machine.execReload x s
  | .yieldExpiry x => Sys2Proof.Machine.execYieldExpiry x s
  | .porterSpill x => Sys2Proof.Machine.execPorterSpill x s
  | .porterReplay x => Sys2Proof.Machine.execPorterReplay x s
  | .sliceFullRetry x => Sys2Proof.Machine.execSliceFullRetry x s
  | .wave x => Sys2Proof.Machine.execWave x s
  | .energyMeter x => Sys2Proof.Machine.execEnergyMeter x s
  | .tariffWindow x => Sys2Proof.Machine.execTariffWindow x s
  | .temperatureRead x => Sys2Proof.Machine.execTemperatureRead x s
  | .droverPeriod x => Sys2Proof.Machine.execDroverPeriod x s
  | .droverCoreJoin x => Sys2Proof.Machine.execDroverCoreJoin x s
  | .trapEntry x => Sys2Proof.Machine.execTrapEntry x s
  | .uncorrectableData x => Sys2Proof.Machine.execUncorrectableData x s
  | .switchDeadline x => Sys2Proof.Machine.execSwitchDeadline x s
  | .clearing x => Sys2Proof.Machine.execClearing x s
  | .prep x => Sys2Proof.Machine.execPrep x s
  | .commit x => Sys2Proof.Machine.execCommit x s
  | .consignmentDrop x => Sys2Proof.Machine.execConsignmentDrop x s
  | .consignmentOverflow x => Sys2Proof.Machine.execConsignmentOverflow x s
  | .hashArrival x => Sys2Proof.Machine.execHashArrival x s
  | .writeIntent x => Sys2Proof.Machine.execWriteIntent x s
  | .staleMark x => Sys2Proof.Machine.execStaleMark x s
  | .residencyLoadComplete x => Sys2Proof.Machine.execResidencyLoadComplete x s
  | .residencyLoadFault x => Sys2Proof.Machine.execResidencyLoadFault x s
  | .drainComplete x => Sys2Proof.Machine.execDrainComplete x s
  | .tileError x => Sys2Proof.Machine.execTileError x s
  | .nopCommand x => Sys2Proof.Machine.execNopCommand x s
  | .launch x => Sys2Proof.Machine.execLaunch x s
  | .rrelease x => Sys2Proof.Machine.execRrelease x s
  | .preemptSwitch x => Sys2Proof.Machine.execPreemptSwitch x s
  | .preemptSpatial x => Sys2Proof.Machine.execPreemptSpatial x s
  | .restore x => Sys2Proof.Machine.execRestore x s
  | .rprio x => Sys2Proof.Machine.execRprio x s
  | .postset x => Sys2Proof.Machine.execPostset x s
  | .tflush x => Sys2Proof.Machine.execTflush x s
  | .drover x => Sys2Proof.Machine.execDrover x s
  | .qcreate x => Sys2Proof.Machine.execQcreate x s
  | .qdestroy x => Sys2Proof.Machine.execQdestroy x s
  | .signal x => Sys2Proof.Machine.execSignal x s
  | .mapq x => Sys2Proof.Machine.execMapq x s
  | .dirdump x => Sys2Proof.Machine.execDirdump x s
  | .resize x => Sys2Proof.Machine.execResize x s
  | .notify x => Sys2Proof.Machine.execNotify x s
  | .admqcbCreate x => Sys2Proof.Machine.execAdmqcbCreate x s
  | .admqcbDestroy x => Sys2Proof.Machine.execAdmqcbDestroy x s
  | .registerWrite x => Sys2Proof.Machine.execRegisterWrite x s
  | .qcbPoll x => Sys2Proof.Machine.execQcbPoll x s
  | .commandFetch x => Sys2Proof.Machine.execCommandFetch x s
  | .commandDispatch x => Sys2Proof.Machine.execCommandDispatch x s
  | .completionWrite x => Sys2Proof.Machine.execCompletionWrite x s
  | .pluginOverrun x => Sys2Proof.Machine.execPluginOverrun x s
  | .frontEndRestart x => Sys2Proof.Machine.execFrontEndRestart x s
  | .quantumExpiry x => Sys2Proof.Machine.execQuantumExpiry x s
  | .functionLevelReset x => Sys2Proof.Machine.execFunctionLevelReset x s
  | .sqprod x => Sys2Proof.Machine.execSqprod x s
  | .put x => Sys2Proof.Machine.execPut x s
  | .get x => Sys2Proof.Machine.execGet x s
  | .aadd x => Sys2Proof.Machine.execAadd x s
  | .acas x => Sys2Proof.Machine.execAcas x s
  | .aswp x => Sys2Proof.Machine.execAswp x s
  | .allred x => Sys2Proof.Machine.execAllred x s
  | .linkRequestArrival x => Sys2Proof.Machine.execLinkRequestArrival x s
  | .linkAcknowledgement x => Sys2Proof.Machine.execLinkAcknowledgement x s
  | .linkRetry x => Sys2Proof.Machine.execLinkRetry x s
  | .linkRetire x => Sys2Proof.Machine.execLinkRetire x s
  | .linkBeacon x => Sys2Proof.Machine.execLinkBeacon x s
  | .collectiveAbort x => Sys2Proof.Machine.execCollectiveAbort x s
  | .scrub x => Sys2Proof.Machine.execScrub x s
  | .marginReplan x => Sys2Proof.Machine.execMarginReplan x s
  | .customsAlarm x => Sys2Proof.Machine.execCustomsAlarm x s
  | .level2Clear x => Sys2Proof.Machine.execLevel2Clear x s
  | .coldReset x => Sys2Proof.Machine.execColdReset x s
  | .getMeasurements x => Sys2Proof.Machine.execGetMeasurements x s
  | .sleepDeadline x => Sys2Proof.Machine.execSleepDeadline x s
  | .threadStateRequest x => Sys2Proof.Machine.execThreadStateRequest x s
  | .cxlCacheResponse x => Sys2Proof.Machine.execCxlCacheResponse x s
  | .flitCrcFailure x => Sys2Proof.Machine.execFlitCrcFailure x s
  | .endpointContextFill x => Sys2Proof.Machine.execEndpointContextFill x s
  | .atomicResultCacheExpiry x => Sys2Proof.Machine.execAtomicResultCacheExpiry x s
  | .coreRemoval x => Sys2Proof.Machine.execCoreRemoval x s
  | .engineConfigurationWrite x => Sys2Proof.Machine.execEngineConfigurationWrite x s

end Sys2Proof.Machine
end

