-- ==== Sys2Proof/Machine/Due.lean ====
section
/-! DEFINITION. What is due before an instruction issues: the events that time, the queues and the requests under way bring about. -/

namespace Sys2Proof.Machine

open Sys2Proof

/-- Sleepers whose condition holds run again (R305), the throttles follow the regions (R353), and a deadlock counts from the time at which both pipes stood (R45). -/
def State.rouse (s : State) : State :=
  let s := s.wakeSleepers.heat
  { s with threads := s.threads.map fun e => if e.2.blocked ≠ 0 && !e.2.deadlocked then (e.1, { e.2 with blocked := 0 }) else e }

/-- The clusters with cores that a live region maps, and those whose meters have weighed something. -/
def State.busyClusters (s : State) : List Nat :=
  (((s.regions.filter fun e => e.2.alive).flatMap fun e => (s.mapCores e.2).map clusterOf)
    ++ (s.clusters.filter fun e => !e.2.weights.isEmpty).map (·.1)).dedup

/-- The clusters whose temperature is told: those with cores that a live region maps, and each whose temperature is not what was read last. -/
def State.readClusters (s : State) : List Nat :=
  let l := s.busyClusters
  l ++ (List.range 10240).filter fun k => !l.contains k && (s.cluster k).quarter ≠ Config.temperature k s.fresh

/-- The events of each microsecond (R103, R291, R351, R399). -/
def State.eachUs (s : State) : List Event :=
  (s.regions.filter fun e => e.2.rstate == .live || e.2.crecDue).map (fun e => .wave ⟨e.1⟩)
    ++ s.busyClusters.map (fun k => .energyMeter ⟨k, Config.energy k s.fresh⟩)
    ++ s.cores.map (fun e => .beacon ⟨e.1, (Config.beacon e.1 s.fresh).1, (Config.beacon e.1 s.fresh).2⟩)
    ++ (s.ports.map (·.1) ++ s.parts.flatMap (·.2.ports)).dedup.map fun n => .linkBeacon ⟨n, (Config.beacon (2 ^ 32 + n) s.fresh).2⟩

/-- The events of each ten microseconds (R352, R357). -/
def State.eachTenUs (s : State) : List Event :=
  s.readClusters.map (fun k => .temperatureRead ⟨k, Config.temperature k s.fresh⟩)
    ++ (s.parts.filter fun (e : Nat × Part) => e.2.drover.on).map fun (e : Nat × Part) => .droverPeriod ⟨e.1⟩

/-- What a scrub finds, by its number. -/
def scrubOut (n : Nat) : ScrubOut := if n % 2 = 0 then .corrected else .uncorrectable

/-- The events of each day (R413, R418): the scrub reads every sector and every tile, and an event tells of each that is not as it was. -/
def State.eachDay (s : State) : List Event :=
  ((Config.scrubbed s.fresh).map fun e => Event.scrub ⟨.dram (64 * e.1), scrubOut e.2⟩)
    ++ (s.clusters.flatMap fun k => (Config.scrubbedTile k.1 s.fresh).map fun e => Event.scrub ⟨.tile k.1 e.1 e.2.1, scrubOut e.2.2⟩)
    ++ (List.range 10240).map fun k => .marginReplan ⟨k, (Config.plan k s.fresh).1, (Config.plan k s.fresh).2⟩

/-- The events that recur are due at their times: those of the earliest boundary that has passed, so that none is missed. -/
def State.recurring (s : State) : Option State :=
  let r := s.recur
  let b := min (min r.us r.tenUs) (min r.window r.day)
  if s.gt < b then none
  else
    let n := Recur.after b
    let l := (if r.us = b then s.eachUs else []) ++ (if r.tenUs = b then s.eachTenUs else [])
      ++ (if r.window = b then [.tariffWindow ⟨()⟩] else []) ++ (if r.day = b then s.eachDay else [])
    some ({ s with recur := ⟨if r.us = b then n.us else r.us, if r.tenUs = b then n.tenUs else r.tenUs,
      if r.window = b then n.window else r.window, if r.day = b then n.day else r.day⟩ }.push l)

/-- The events whose own time has come. -/
def State.timed (s : State) : Option State :=
  match s.timers.filter fun (x : Nat × Event) => x.1 ≤ s.gt with
  | [] => none
  | l => some (({ s with timers := s.timers.filter fun (x : Nat × Event) => s.gt < x.1 } : State).push (l.map fun (x : Nat × Event) => x.2))

/-- What the threads' own times bring: the end of a sleep, of a YIELD, the deadlock of both pipes (R45, R305, R307). -/
def State.threadDue (s : State) : Option Event :=
  s.threads.findSome? fun e =>
    let x : EvThread := ⟨e.1.1, e.1.2⟩
    if s.expired e.1.1 e.2 then some (.sleepDeadline x)
    else if e.2.yielded && e.2.yieldAt ≤ s.gt then some (.yieldExpiry x)
    else if e.2.blocked ≠ 0 && e.2.blocked + s.cyclesNs e.1.1 65536 ≤ s.gt + 1 then some (.pipeDeadlock x)
    else none

/-- What the spilled threads wait for: a deadline, and a slot once they are woken (R295). -/
def State.spilledDue (s : State) : Option Event :=
  s.parts.findSome? fun q => q.2.spilled.findSome? fun e =>
    let (c, k, g) := e.1
    if !e.2.woken && s.stirs c e.2 8 then some (.sleepDeadline ⟨c, k⟩)
    else if (s.reload c k g).isSome then some (.reload ⟨c, k, g⟩)
    else none

/-- The cores' threads stand still while their partition is frozen (R377, R396). -/
def State.frozen (s : State) (c : Nat) : Bool := (s.part? (s.partOf c)).elim false (·.frozen)

/-- The regions that a core has posts of. -/
def Core.postRegions (y : Core) : List Nat := (y.posts.map (·.2.region)).dedup

/-- What a core's messages bring: replay, ages that are due, the binder and steal requests (R286, R343, R344, R349). -/
def State.coreDue (s : State) : Option Event :=
  s.cores.findSome? fun e =>
    let (c, y) := e
    if s.frozen c then none
    else if (y.nextSlice).isSome && (y.inbox.length ≤ 256 || (y.replaying && y.inbox.length < 448)) then some (.porterReplay ⟨c⟩)
    else
      match y.posts.find? fun (p : Nat × Post) => ageStep ≤ p.2.stood with
      | some p => some (.ageStep ⟨c, p.1⟩)
      | none =>
        if (s.winner c).isSome then some (.binding ⟨c⟩)
        else (y.postRegions.find? fun g => decide ((y.stealOf g).2 ≤ s.gt) && s.idleFor c g).map fun g => .stealRequest ⟨c, g⟩

/-- What a partition's own times bring: a lease that others wait for, a core that has drained, a quantum (R104, R359, R396). -/
def State.partDue (s : State) : Option Event :=
  s.parts.findSome? fun e =>
    let (p, q) := e
    match q.ladings.find? fun l => !q.frozen && l.2.st == .held && (l.2.waitAcc || !l.2.waiters.isEmpty) && decide (l.2.expiry + 250 < s.gt) with
    | some l => some (.ladingRevocation ⟨p, l.1⟩)
    | none =>
      match q.drover.moving.find? fun m => joins s p m with
      | some m => some (.droverCoreJoin ⟨p, m.1⟩)
      | none => if 2 ≤ q.fns.length && q.world.isNone && q.resize.isNone && q.quantumEnd ≤ s.gt then some (.quantumExpiry ⟨p⟩) else none
where
  /-- A moving core has no work of its donor's post left. -/
  joins (s : State) (p : Nat) (m : Nat × (Nat × Nat)) : Bool :=
    let (l, _) := s.stages p
    match l.find? fun y => y.no = m.2.1, l.find? fun y => y.no = m.2.2 with
    | some d, some _ => s.drained m.1 d.post d.region
    | _, _ => false

/-- What the front end and the link ports do at times of their own (R384, R405). -/
def State.deviceDue (s : State) : Option Event :=
  (s.fns.findSome? fun f => f.2.queues.findSome? fun q =>
    if q.2.st != .destroyed && q.2.pollAt ≤ s.gt && !s.ras.noFetch then some (.qcbPoll ⟨f.1, q.1⟩) else none)
  <|> s.ports.findSome? fun p =>
    (p.2.retry.findSome? fun k =>
      if k.ans.isNone && k.again ≤ s.gt then some (.linkRetry ⟨k.part, p.1, k.req⟩)
      else if k.retirable s.gt then some (.linkRetire ⟨k.part, p.1, k.req⟩)
      else none)
    <|> (p.2.atoms.find? fun a => a.expiry + 250 ≤ s.gt).map fun a => .atomicResultCacheExpiry ⟨p.1, a.smod, a.sport, a.req⟩

/-- A stop, a resize, a world switch or a reset under way goes on (R372 to R377, R396, R397). -/
def State.underWay (s : State) : Option State :=
  s.endedRes
  <|> (s.regions.findSome? fun e => e.2.switch.bind fun w => s.switchStep e.1 e.2 w)
  <|> (s.parts.findSome? fun e => s.resizeStep e.1 e.2)
  <|> (s.parts.findSome? fun e => s.worldStep e.1 e.2)
  <|> s.fns.findSome? fun e => s.resetStep e.1 e.2

/-- What is due is an event that does not wait already. -/
def State.isNew (s : State) (e : Event) : Bool := !s.later.contains e

/-- What happens before the next instruction, when something is due. -/
def State.due (s : State) : Option State :=
  s.timed <|> s.recurring
    <|> (s.threadDue.filter s.isNew <|> s.spilledDue.filter s.isNew <|> s.coreDue.filter s.isNew <|> s.partDue.filter s.isNew
      <|> s.deviceDue.filter s.isNew).map (fun e => s.push [e])
    <|> s.underWay

end Sys2Proof.Machine
end

