-- ==== Sys2Proof/Machine/Events.lean ====
section
/-! DEFINITION. The meaning of a pending event: that of the row of the table it stands for. An event whose row has no meaning yet
changes nothing. -/

namespace Sys2Proof.Machine

open Sys2Proof

/-- An event of the agenda happens. -/
def runEvent (e : Event) (s : State) : Out :=
  match e with
  | .fetchLineArrival x => execFetchLineArrival x s
  | .pipeDeadlock x => execPipeDeadlock x s
  | .reissue x => execReissue x s
  | .tableWalk x => execTableWalk x s
  | .queuedFaultRecordWrite x => execQueuedFaultRecordWrite x s
  | .gets x => execGets x s
  | .getx x => execGetx x s
  | .wrt x => execWrt x s
  | .putx x => execPutx x s
  | .pute x => execPute x s
  | .fwds x => execFwds x s
  | .fwdx x => execFwdx x s
  | .inv x => execInv x s
  | .data x => execData x s
  | .ownerData x => execOwnerData x s
  | .clean x => execClean x s
  | .gone x => execGone x s
  | .ack x => execAck x s
  | .wback x => execWback x s
  | .fillArrives x => execFillArrives x s
  | .l2Replacement x => execL2Replacement x s
  | .l1Eviction x => execL1Eviction x s
  | .wake x => execWake x s
  | .drop x => execDrop x s
  | .snpData x => execSnpData x s
  | .snpInv x => execSnpInv x s
  | .snpCur x => execSnpCur x s
  | .rdSharedReread x => execRdSharedReread x s
  | .biSnpInvResponse x => execBiSnpInvResponse x s
  | .memWr x => execMemWr x s
  | .hostMemRd x => execHostMemRd x s
  | .ladingGrant x => execLadingGrant x s
  | .beacon x => execBeacon x s
  | .ladingRevocation x => execLadingRevocation x s
  | .revoke x => execRevoke x s
  | .packetArrival x => execPacketArrival x s
  | .packetRetry x => execPacketRetry x s
  | .updateArrival x => execUpdateArrival x s
  | .sendComplete x => execSendComplete x s
  | .remoteStoreArrival x => execRemoteStoreArrival x s
  | .streamOperationComplete x => execStreamOperationComplete x s
  | .messageArrival x => execMessageArrival x s
  | .binding x => execBinding x s
  | .ageStep x => execAgeStep x s
  | .stealRequest x => execStealRequest x s
  | .reload x => execReload x s
  | .yieldExpiry x => execYieldExpiry x s
  | .porterSpill x => execPorterSpill x s
  | .porterReplay x => execPorterReplay x s
  | .sliceFullRetry x => execSliceFullRetry x s
  | .wave x => execWave x s
  | .energyMeter x => execEnergyMeter x s
  | .tariffWindow x => execTariffWindow x s
  | .temperatureRead x => execTemperatureRead x s
  | .droverPeriod x => execDroverPeriod x s
  | .droverCoreJoin x => execDroverCoreJoin x s
  | .trapEntry x => execTrapEntry x s
  | .uncorrectableData x => execUncorrectableData x s
  | .switchDeadline x => execSwitchDeadline x s
  | .clearing x => execClearing x s
  | .prep x => execPrep x s
  | .commit x => execCommit x s
  | .consignmentDrop x => execConsignmentDrop x s
  | .consignmentOverflow x => execConsignmentOverflow x s
  | .hashArrival x => execHashArrival x s
  | .writeIntent x => execWriteIntent x s
  | .staleMark x => execStaleMark x s
  | .residencyLoadComplete x => execResidencyLoadComplete x s
  | .residencyLoadFault x => execResidencyLoadFault x s
  | .drainComplete x => execDrainComplete x s
  | .tileError x => execTileError x s
  | .nopCommand x => execNopCommand x s
  | .launch x => execLaunch x s
  | .rrelease x => execRrelease x s
  | .preemptSwitch x => execPreemptSwitch x s
  | .preemptSpatial x => execPreemptSpatial x s
  | .restore x => execRestore x s
  | .rprio x => execRprio x s
  | .postset x => execPostset x s
  | .tflush x => execTflush x s
  | .drover x => execDrover x s
  | .qcreate x => execQcreate x s
  | .qdestroy x => execQdestroy x s
  | .signal x => execSignal x s
  | .mapq x => execMapq x s
  | .dirdump x => execDirdump x s
  | .resize x => execResize x s
  | .notify x => execNotify x s
  | .admqcbCreate x => execAdmqcbCreate x s
  | .admqcbDestroy x => execAdmqcbDestroy x s
  | .registerWrite x => execRegisterWrite x s
  | .qcbPoll x => execQcbPoll x s
  | .commandFetch x => execCommandFetch x s
  | .commandDispatch x => execCommandDispatch x s
  | .completionWrite x => execCompletionWrite x s
  | .pluginOverrun x => execPluginOverrun x s
  | .frontEndRestart x => execFrontEndRestart x s
  | .quantumExpiry x => execQuantumExpiry x s
  | .functionLevelReset x => execFunctionLevelReset x s
  | .sqprod x => execSqprod x s
  | .put x => execPut x s
  | .get x => execGet x s
  | .aadd x => execAadd x s
  | .acas x => execAcas x s
  | .aswp x => execAswp x s
  | .allred x => execAllred x s
  | .linkRequestArrival x => execLinkRequestArrival x s
  | .linkAcknowledgement x => execLinkAcknowledgement x s
  | .linkRetry x => execLinkRetry x s
  | .linkRetire x => execLinkRetire x s
  | .linkBeacon x => execLinkBeacon x s
  | .collectiveAbort x => execCollectiveAbort x s
  | .scrub x => execScrub x s
  | .marginReplan x => execMarginReplan x s
  | .customsAlarm x => execCustomsAlarm x s
  | .level2Clear x => execLevel2Clear x s
  | .coldReset x => execColdReset x s
  | .getMeasurements x => execGetMeasurements x s
  | .sleepDeadline x => execSleepDeadline x s
  | .threadStateRequest x => execThreadStateRequest x s
  | .cxlCacheResponse x => execCxlCacheResponse x s
  | .flitCrcFailure x => execFlitCrcFailure x s
  | .endpointContextFill x => execEndpointContextFill x s
  | .atomicResultCacheExpiry x => execAtomicResultCacheExpiry x s
  | .coreRemoval x => execCoreRemoval x s
  | .engineConfigurationWrite x => execEngineConfigurationWrite x s

end Sys2Proof.Machine
end

