-- ==== Sys2Proof/Machine/Issue.lean ====
section
/-! DEFINITION. The issue of instructions: line entry (R22), pairs (R23), steering (R42), the capture of R209, the waits of R41, the
lead's limit of R44, and the sequencer of the repetition buffer (R211). -/

namespace Sys2Proof.Machine

/-- An outcome, with the state after it changed. -/
def Out.after (o : Out) (f : State → State) : Out :=
  match o with
  | .next s => .next (f s)
  | r => r

/-- `cur` set to an instruction of a pipe. -/
def State.at (s : State) (c k : Nat) (p : Pipe) (pc : Word) (w : Slot) (rep : Option (Nat × Nat)) (i : Instr) (no blocked : Nat) : State :=
  { s with cur := ⟨c, k, p, pc, w, rep, i, no, blocked⟩ }

/-- An instruction that no decoding has yet told. -/
def unknownInstr : Instr := .nop ⟨⟨0, false⟩⟩

/-- The line that holds the lead PC: the one in hand, or one that is entered sequentially, with checks 2 to 4 of R22. -/
def State.leadLine (s : State) (c k : Nat) (t : Thread) : FetchRes × State :=
  match t.line with
  | some (a, l) => if a = pcLine t.leadPc then (.ok l, s) else enter s
  | none => enter s
where
  enter (s : State) : FetchRes × State :=
    match s.fetchLine c k t.region t.leadPc with
    | (.ok l, s) => (if lineBad l then .trap 0x01 7 0 12 else .ok l, s)
    | r => r

/-- The pipe that R42 steers an instruction to. -/
def pipeOf (i : Instr) : Pipe := if i.steer = .trail then .trail else .lead

/-- The pipe of a word that does not decode: that of its opcode (R42). -/
def pipeOfWord (w : Slot) : Pipe :=
  let o := slotOpc w
  if (0x20 ≤ o && o ≤ 0x25) || (0x70 ≤ o && o ≤ 0x91) || (0xA3 ≤ o && o ≤ 0xA9) || (0xB6 ≤ o && o ≤ 0xB8) || (0xBD ≤ o && o ≤ 0xBF) then .trail
  else .lead

/-- An instruction may be captured: it is not placed only in the lead pipe (R43). -/
def captures (i : Instr) : Bool := i.steer != .lead

/-- The lead's instruction at the lead PC has issued: the PC moves on (R21). -/
def Thread.advance (t : Thread) (l : V512) : Thread :=
  { t with leadPc := nextPc t.leadPc, line := some (pcLine t.leadPc, l), issued := t.issued + 1, lastPipe := .lead, blocked := 0 }

/-- The instruction of an open capture (R209): it is captured, or closes the capture, or traps. -/
def State.capture (s : State) (c k : Nat) (t : Thread) (l : V512) (w : Slot) (i : Instr) : Out :=
  let s' := (s.setThread c k (t.advance l)).at c k .lead t.leadPc w none i t.issued t.blocked
  match i with
  | .repe _ => exec i s'
  | i =>
    if !captures i then trapAt s' 0x01 6 0
    else if 32 ≤ t.rep.buf.length then trapAt s' 0x25 1 0
    else .next (s'.modThread c k fun t => { t with rep := { t.rep with buf := t.rep.buf ++ [w] } })

/-- A pipe of the thread waits. -/
def Thread.waits (t : Thread) (gt : Nat) : Thread := { t with waited := true, blocked := if t.blocked = 0 then gt + 1 else t.blocked }

/-- A slot of a line begins a pair that fails a condition of R23. Where the second slot does not decode, its dependence on the first is
not judged (DEDUCED, assumption 43). -/
def pairFails (t : Thread) (l : V512) (n : Nat) (i : Instr) : Bool :=
  let w := lineSlot l n
  let v := lineSlot l (n + 1)
  (linePair l).getLsbD n && (match decode v with
    | .ok j => !pairOk t w v i j
    | .error _ => (isAccessFmt w && isAccessFmt v) || isTransfer w)

/-- The places of the trail's instructions that have not completed: those that wait, and the tensor and matrix instructions under way. What the
repetition buffer reissues does not count (R44, R211). -/
def Thread.trailNos (t : Thread) : List Nat :=
  ((t.trailQ.filter fun e => !e.rep).map (·.no)) ++ (t.ops.filter fun o => o.rep.isNone && (match o.kind with
    | .tensor _ | .mat _ => true
    | _ => false)).map (·.no)

/-- A place lies more than 64 instructions beyond the oldest of the trail that has not completed (R44). -/
def Thread.farAhead (t : Thread) (no : Nat) : Bool := t.trailNos.any fun n => decide (n + 64 < no)

/-- A pipe stands at an instruction: under R41, at a queue (R45), or for the first slot of its pair. -/
def Thread.stands (t : Thread) (pipe : Pipe) (w : Slot) (i : Instr) (no : Nat) (pair : Bool) : Bool :=
  t.hazard pipe w i no || t.queueBlocked i || t.coupled pipe no pair

/-- The trail may pass an instruction of the lead that stands: one that transfers nothing, ends or suspends nothing, and opens, closes
or runs no repetition (R206). -/
def passable (w : Slot) : Bool := !([0x30, 0x31, 0x32, 0x33, 0x34, 0x35, 0x36, 0x3D, 0x3E, 0x3F, 0xC2, 0xC3, 0xC4, 0xCB].contains (slotOpc w))

/-- The lead stands: its turn ends. -/
def State.leadWaits (s : State) (c k : Nat) : Out := .next (s.modThread c k fun t => { t.waits s.gt with lastPipe := .lead })

/-- The line that the slot holds (R20). -/
def Thread.holds (t : Thread) (pc : Word) (l : V512) : Thread := { t with line := some (pcLine pc, l) }

/-- The lead stands at an instruction of a line, which its slot holds (R20). -/
def State.leadHolds (s : State) (c k : Nat) (l : V512) : Out := (s.modThread c k fun t => t.holds t.leadPc l).leadWaits c k

/-- The walk passes an instruction, which its pipe will execute. -/
def Thread.enqueue (t : Thread) (e : TrailEntry) (pc : Word) : Thread :=
  let t := { t with issued := t.issued + 1, lastPipe := .lead, scanPc := pc }
  match pipeOf e.instr with
  | .lead => { t with ahead := t.ahead ++ [e] }
  | .trail => { t with trailQ := t.trailQ ++ [e] }

/-- While the lead stands, the walk goes on by one instruction for the trail (R44, R206): up to one that the trail may not pass, a line that
cannot be entered, or a trap that its pipe will take when it comes there. -/
def State.passOn (s : State) (c k : Nat) (t : Thread) : Out :=
  if 64 ≤ t.ahead.length || t.farAhead t.issued then s.leadWaits c k
  else
    let line : FetchRes × State := match t.line with
      | some (a, l) => if a = pcLine t.scanPc then (.ok l, s) else s.fetchLine c k t.region t.scanPc
      | none => s.fetchLine c k t.region t.scanPc
    match line with
    | (.trap .., s) | (.busy, s) => s.leadWaits c k
    | (.ok l, s) =>
      let n := pcSlot t.scanPc
      let w := lineSlot l n
      match decode w with
      | .error _ => s.leadWaits c k
      | .ok i =>
        if lineBad l || pairFails t l n i || (pipeOf i == .lead && !passable w) then s.leadWaits c k
        else
          let e : TrailEntry := ⟨t.scanPc, w, i, false, t.issued, secondOfPair l n⟩
          .next (s.setThread c k (({ (t.waits s.gt).enqueue e (nextPc t.scanPc) with waited := false } : Thread).holds t.scanPc l))

/-- The operations that a place's instruction started, among some, and the stores that its reads have bound. -/
def Thread.startedAt (t : Thread) (no : Nat) (l : List Dep) : List Dep :=
  l.filter fun d => match d with
    | .op i => (t.op? i).any fun o => o.no = no
    | .far _ => true
    | .instr _ | .bytes _ => false

/-- What an operation waits for, after an instruction of the stream has executed: one that named its place names the operations that it
started, where they count in a stream of the mask, or touch a common byte. -/
def Thread.settleDep (t : Thread) (s : State) (c : Nat) (o : Op) (d : Dep) : List Dep :=
  match d with
  | .op i => [.op i]
  | .far r => [.far r]
  | .instr n => t.startedAt n (t.opEdges o.pmask n) ++ (if t.queued.any fun e => e.no = n && t.entryCounts o.pmask e then [.instr n] else [])
  | .bytes n =>
    match o.kind with
    | .acc a => t.startedAt n (t.behindOps s c n a) ++ (if (t.queuedMeets s c o.no a.am a.addr a.n).contains n then [.bytes n] else [])
    | _ => []

/-- The operations that wait for instructions of the stream, after one has executed; what nothing holds back any more is tried. -/
def State.settle (s : State) (c k : Nat) : State :=
  match s.thread? c k with
  | none => s
  | some t =>
    if t.ops.all fun o => o.deps.all Dep.isOp then s
    else
      let t' := { t with ops := t.ops.map fun o => { o with deps := (o.deps.flatMap (t.settleDep s c o)).dedup } }
      (s.setThread c k t').push ((retryEvents c k t').filter fun e => !s.agenda.contains e)

/-- An instruction executes that others may have waited for. -/
def execSettled (i : Instr) (c k : Nat) (s : State) : Out :=
  match exec i s with
  | .next s => .next (s.settle c k)
  | o => o

/-- The lead at the first instruction that it stands at while the trail has passed it. -/
def State.leadAhead (s : State) (c k : Nat) (t : Thread) (e : TrailEntry) (rest : List TrailEntry) : Out :=
  if t.farAhead e.no || t.stands .lead e.iword e.instr e.no e.pair then s.passOn c k t
  else
    let t' := { t with ahead := rest, leadPc := rest.head?.elim t.scanPc (·.pc), lastPipe := .lead, blocked := 0 }
    execSettled e.instr c k ((s.setThread c k t').at c k .lead e.pc e.iword none e.instr e.no t.blocked)

/-- The lead pipe walks the stream by one instruction. With `defer` a trail instruction only joins the trail's queue; else it executes
when nothing is queued before it. An instruction at which the lead stands lets the trail pass, where it may. -/
def State.leadStep (s : State) (c k : Nat) (t : Thread) (defer : Bool) : Out :=
  if t.jump then .next (((s.setThread c k t).startThread c k).modThread c k fun t => { t with waited := t.jump })
  else
  match t.ahead with
  | e :: rest => s.leadAhead c k t e rest
  | [] =>
    match s.leadLine c k t with
    | (.busy, s) => s.leadWaits c k
    | (.trap cause detail level span, s) =>
      let s := s.at c k .lead t.leadPc 0 none unknownInstr t.issued t.blocked
      .next (s.takeTrap c k ⟨cause, BitVec.ofNat 16 detail, .lead, if isTrans cause then 3 else 7, BitVec.ofNat 3 level, t.leadPc, t.leadPc,
          s.entryWord c k t.region t.leadPc cause, 0, 0⟩
        span [])
    | (.ok l, s) =>
      let n := pcSlot t.leadPc
      let w := lineSlot l n
      match decode w with
      | .error e =>
        if pipeOfWord w == .trail && !t.trailQ.isEmpty && !t.rep.capt then s.leadHolds c k l
        else
          let p := if t.rep.capt then Pipe.lead else pipeOfWord w
          let s := s.at c k p t.leadPc w none unknownInstr t.issued t.blocked
          .next (s.takeTrap c k ⟨0x01, BitVec.ofNat 16 e.subcode, p, 7, 0, 0, t.leadPc, w, 0, 0⟩ 12 [])
      | .ok i =>
        let pair := secondOfPair l n
        if t.rep.capt then s.capture c k t l w i
        else if pairFails t l n i then
          if pipeOf i == .trail && !t.trailQ.isEmpty then s.leadHolds c k l
          else
            let s := s.at c k .lead t.leadPc w none i t.issued t.blocked
            .next (s.takeTrap c k ⟨0x01, 8, pipeOf i, 7, 0, 0, t.leadPc, w, 0, 0⟩ 12 [])
        else if t.farAhead t.issued then s.leadHolds c k l
        else
          let t' := t.advance l
          let s' := (s.setThread c k t').at c k (pipeOf i) t.leadPc w none i t.issued t.blocked
          let e : TrailEntry := ⟨t.leadPc, w, i, false, t.issued, pair⟩
          match pipeOf i with
          | .lead =>
            if !t.stands .lead w i t.issued pair then exec i s'
            else if passable w then .next (s.setThread c k (({ (t.waits s.gt).enqueue e (nextPc t.leadPc) with waited := false } : Thread).holds t.leadPc l))
            else s.leadHolds c k l
          | .trail =>
            if t.trailQ.isEmpty && !defer && !t.stands .trail w i t.issued pair then exec i s'
            else .next (s'.modThread c k fun t => { t with trailQ := t.trailQ ++ [e] })

/-- The next captured instruction of the passes at the front of the trail, renamed, and the state of the buffer after it (R211). -/
def Thread.nextRep (t : Thread) : Option (Slot × Instr × Thread) :=
  let r := t.rep
  match r.buf[r.idx]? with
  | none => none
  | some w =>
    match decode w with
    | .error _ => none
    | .ok i =>
      let last := r.idx + 1 = r.buf.length
      let done := last && r.pass + 1 = r.npass
      some (w, i.rename (passRen r r.pass),
        { t with
          rep := { r with pass := if last then r.pass + 1 else r.pass, idx := if last then 0 else r.idx + 1, act := !done }
          trailQ := if done then t.trailQ.drop 1 else t.trailQ })

/-- The trail pipe executes its oldest instruction. -/
def State.trailStep (s : State) (c k : Nat) (t : Thread) : Out :=
  let t := { t with lastPipe := .trail }
  match t.trailQ with
  | [] => .next (s.setThread c k t)
  | e :: rest =>
    if e.rep then
      match (if t.rep.act then t.nextRep else none) with
      | none => .next (s.setThread c k { t with trailQ := rest })
      | some (w, i, t') =>
        if t.stands .trail w i e.no false then .next (s.setThread c k (t.waits s.gt))
        else execSettled i c k ((s.setThread c k { t' with blocked := 0 }).at c k .trail e.pc w (some (t.rep.pass, t.rep.idx)) i e.no t.blocked)
    else if t.stands .trail e.iword e.instr e.no e.pair then .next (s.setThread c k (t.waits s.gt))
    else
      execSettled e.instr c k
        ((s.setThread c k { t with trailQ := rest, blocked := 0 }).at c k .trail e.pc e.iword none e.instr e.no t.blocked)

/-- A thread that can issue: none of its accesses has parked (R81); one that sleeps still executes what stands before its SLEEP in the trail (R306). -/
def Thread.issues (t : Thread) : Bool := !t.ending && t.parks.isEmpty && (t.st == .running || (t.st == .sleeping && !t.trailQ.isEmpty))

/-- The threads in their order after the one that executed last. -/
def State.rotation (s : State) : List ((Nat × Nat) × Thread) :=
  let i := s.threads.findIdx fun e => e.1 = (s.cur.core, s.cur.slot)
  s.threads.drop (i + 1) ++ s.threads.take (i + 1)

/-- A thread of a core has not issued for 256 cycles (R345). -/
def State.overdue (s : State) (c : Nat) (t : Thread) : Bool := t.issuedAt + s.cyclesNs c 256 ≤ s.gt

/-- A thread of a core issues before another: it has not issued for 256 cycles, or its issue priority is higher (R345). -/
def State.beats (s : State) (c : Nat) (x y : Thread) : Bool := !s.overdue c y && (s.overdue c x || decide (y.prio < x.prio))

/-- The thread that issues next: of the cores' ready threads one that no other of its core beats (R345), in rotation; one that has
yielded (R307), or whose instruction waits, only when no other is there. -/
def State.pick (s : State) : Option ((Nat × Nat) × Thread) :=
  let l := s.rotation.filter fun e => e.2.issues && !s.frozen e.1.1
  let ready := l.filter fun e => !e.2.waited && !e.2.yielded
  match ready.find? fun e => !(ready.any fun f => f.1.1 = e.1.1 && s.beats e.1.1 f.2 e.2) with
  | some e => some e
  | none =>
    match l.find? fun e => !e.2.waited with
    | some e => some e
    | none => l.head?

/-- The pipe of a thread that issues next: the two take turns while the trail has work. -/
def Thread.nextPipe (t : Thread) : Pipe :=
  if t.st == .sleeping || (!t.trailQ.isEmpty && t.lastPipe == .lead) then .trail else .lead

/-- A thread issues, and the rotation goes on from it: the others try again what waited, and those of its core may issue again after a YIELD
(R307). -/
def State.others (s : State) (c k : Nat) : State :=
  { s with cur := { s.cur with core := c, slot := k }, threads := s.threads.map fun e =>
      if e.1 = (c, k) then e
      else if e.1.1 = c then (e.1, { e.2 with yielded := false, waited := false })
      else (e.1, { e.2 with waited := false }) }

/-- The thread as it issues: TCYC counts the cycles for which it holds issue (R46). -/
def Thread.turn (t : Thread) (s : State) : Thread :=
  { t with yielded := false, waited := false, issuedAt := s.gt, tcyc := t.tcyc + BitVec.ofNat 64 (Config.elapsedCycles s.fresh) }

/-- The meter weighs the cycles for which a thread has held issue (R351). A turn in which it could only wait was none: its time without issue
goes on (R345), and TCYC does not count it. -/
def State.endTurn (s : State) (c k : Nat) (old : Thread) (cycles : Nat) : State :=
  if (s.thread? c k).any (·.waited) then s.modThread c k fun t => { t with issuedAt := old.issuedAt, tcyc := old.tcyc }
  else s.weigh (clusterOf c) old.region cycles

/-- The accesses of a slot's next instruction that waited at ladings which have been given up since are tried with it (R101). -/
def State.tried (s : State) (c k : Nat) : State :=
  match s.part? (s.partOf c) with
  | some q =>
    if q.ladings.any fun e => e.2.clear && e.2.tries.contains (c, k) then
      s.modPart (s.partOf c) fun q => { q with ladings := q.ladings.map fun e =>
        if e.2.clear then (e.1, { e.2 with tries := e.2.tries.filter (· ≠ (c, k)) }) else e }
    else s
  | none => s

/-- One instruction of a pipe of a thread. -/
def State.issue (s : State) (c k : Nat) (p : Pipe) (defer : Bool) : Out :=
  match s.thread? c k with
  | none => .next s
  | some t =>
    if !t.issues then .next s
    else
      let s := (s.tried c k).others c k
      let n := Config.elapsedCycles s.fresh
      Out.after (match (if t.st == .sleeping then .trail else p) with
        | .lead => s.leadStep c k (t.turn s) defer
        | .trail => s.trailStep c k (t.turn s)) fun s => s.endTurn c k t n

/-- The ladings at which a unit has met sectors take note of the access, in the state that the step leaves (R100, R105). -/
def State.noteWaits (s : State) (l : List (Nat × Nat)) (next : Option (Nat × Nat)) : State :=
  l.foldl (fun s x => match s.lading? x.1 (64 * x.2) with
    | some e => s.ladWait x.1 e.1 next
    | none => s) s

/-- What a step leaves: its state, or, where a unit of the device had to wait at a home (R93, R100), the state before it, in which what happened
waits as `back` says. -/
def Out.orBack (o : Out) (back : List (Nat × Nat) → State) : Out :=
  match o with
  | .next s => .next (if s.unitWaits.isEmpty then s else back s.unitWaits)
  | r => r

/-- A thread's instruction has to wait for a unit: the thread is passed over. -/
def State.passed (s : State) (c k : Nat) (l : List (Nat × Nat)) : State :=
  (((s.tried c k).others c k).modThread c k fun t => t.waits s.gt).noteWaits l (some (c, k))

/-- The instruction that the schedule names, else one of the next thread; without any, nothing. -/
def State.issueNext (s : State) : Out :=
  match s.sched with
  | x :: xs => let s : State := { s with sched := xs }; (s.issue x.core x.slot x.pipe true).orBack (s.passed x.core x.slot)
  | [] =>
    match s.pick with
    | some (n, t) => (s.issue n.1 n.2 t.nextPipe false).orBack (s.passed n.1 n.2)
    | none => .next s

end Sys2Proof.Machine
end

