-- ==== Sys2Proof/Machine/Clock.lean ====
section
/-! DEFINITION. The order of what happens (assumption 6), and the passage of time with the issue of an instruction (assumption 4). -/

namespace Sys2Proof.Machine

/-- Time passes: global time moves on by a free amount, the posts stand for as long (R343), and the counter of free values advances. -/
def State.tick (s : State) : State :=
  let n := Config.elapsedNs s.fresh
  { s.agePosts n with gt := s.gt + n, fresh := s.fresh + 1 }

/-- An event has happened: the counter of free values advances. -/
def State.tock (s : State) : State := { s with fresh := s.fresh + 1 }

/-- What waits in `later` is tried after the next instruction. -/
def State.takeLater (s : State) : State := { s with agenda := s.later, later := [] }

/-- The events that a halted machine answers (R420, R421). -/
def Event.wakesHalted : Event → Bool
  | .coldReset _ | .getMeasurements _ => true
  | _ => false

/-- An event of the agenda happens, or waits for the next instruction where a unit of the device had to wait in it. -/
def State.answer1 (s : State) (e : Event) : Out := (runEvent e s).orBack fun l => (s.noteWaits l none).later1 e

/-- A step: the first event of the agenda; without one what is due; else an instruction, with which time passes. What is due waits where a unit
has to. -/
def State.stepOnce (s : State) : Out :=
  match s.agenda with
  | e :: es =>
    let s : State := { s with agenda := es }
    if s.ras.halted && !Event.wakesHalted e then .next s.tock else Out.after (s.answer1 e) State.tock
  | [] =>
    if s.ras.halted then .next { s with gt := s.gt + Config.elapsedNs s.fresh, fresh := s.fresh + 1 }
    else
      let s := s.rouse
      match s.due with
      | some s' =>
        if s'.unitWaits.isEmpty then .next s'.tock else Out.after (s.noteWaits s'.unitWaits none).takeLater.issueNext State.tick
      | none => Out.after s.takeLater.issueNext State.tick

end Sys2Proof.Machine
end

