-- ==== Sys2Proof/Machine/Load.lean ====
section
/-! DEFINITION. A program from outside the machine (assumption 2): one partition, one region that maps one page of 16 GiB onto itself,
and one thread that stands at a line of code. -/

namespace Sys2Proof.Machine

/-- A region with every field at zero, in partition 0. -/
def Region.blank : Region where
  parent := 0
  children := []
  part := 0
  selfva := 0
  cmap := [0]
  slots := 256
  prio := 0
  emode := 0
  swmode := false
  lmperm := false
  l1sz := 0
  rootp := 0
  tceil := 0
  asid := 0
  rquota := 0
  troot := 0x10000
  tariff := 0
  fltq := 0
  fline := 0
  crec := 0
  trapa := 0
  passa := 0
  passr := 0
  postt := 0
  posts := 0
  sheap := 0
  shlen := 0
  nsp := []
  rstate := .live
  rlive := 1
  acts := 0
  sent := 0
  consumed := 0
  lastWave := none
  faults := 0
  ovfclr := false
  rerun := false
  disc := 0
  pairing := none
  unpaired := []
  charge := 0
  allow := 0
  tmasked := false
  frontier := ⟨0, 0⟩
  lastCleared := none
  clearq := []
  tag := 0
  aliases := []
  crecDue := false
  crecLost := false
  gtend := 0
  launch := none
  switch := none
  vacated := []

/-- A partition with one tract and one window over half of its field (R66). -/
def Part.blank : Part where
  tracts := [0]
  windows := [⟨0, 2 ^ 34, true, true, [(0, 0, 2 ^ 34)], [(0, 0)]⟩]
  cvw := 2
  fns := []
  sysFns := []
  dir := []
  hostSecs := []
  ladings := []
  ladRest := []
  readers := []
  tags := []
  spilled := []
  merge := []
  pending := []
  drover := ⟨false, 0, []⟩
  orphans := 0
  frozen := false
  ports := []
  hports := []
  errs := []
  errWait := []
  active := 0
  txns := 0
  quantum := 2000000
  quantumEnd := 0
  world := none
  resize := none

/-- NOP as it is encoded (R39). -/
def nopWord : Slot := 0x370000000000000000000000#96

/-- PAR of R18 for a line without it. -/
def parOf (l : V512) : Nat :=
  (List.range 8).foldl (fun acc j =>
    let grp := if j = 7 then (l.extractLsb' 448 48).toNat + (l.extractLsb' 504 8).toNat * 2 ^ 48 else (l.extractLsb' (64 * j) 64).toNat
    acc + (if oddOnes grp 64 then 2 ^ j else 0)) 0

/-- A line with a word in slot 0 and NOPs after it, slot 0 a branch target. -/
def lineOf (w : Slot) : V512 :=
  let body := w.setWidth 512 ||| (List.range 4).foldl (fun acc k => acc ||| (nopWord.setWidth 512 <<< (96 * (k + 1)))) 0 ||| (1#512 <<< 480)
  body ||| (BitVec.ofNat 512 (parOf body) <<< 496)

/-- The address of the code. -/
def loadPc : Nat := 0x200000

/-- The state with a word as the next instruction of a thread in slot 0 of core 0. -/
def State.load (s : State) (w : Slot) : State :=
  let m := memWrite s.mem 0x10000 (toBytes 8 0x14001)
  let m := memWrite m 0x14000 (toBytes 8 0x6FF)
  let m := memWrite m loadPc (sectorBytes (lineOf w))
  let t := Thread.fresh 0 0x400000 .resident (BitVec.ofNat 64 loadPc)
  { s with
    mem := m
    parts := [(0, Part.blank)]
    regions := [(0x400000, Region.blank)]
    cores := [(0, { Core.reset with rsbase := 0x100000 })]
    threads := [((0, 0), { t with rgn := 0x400000, trapb := 0x300000, fltq := 0x301000 })]
    agenda := []
    later := []
    timers := []
    recur := .after s.gt
    sched := [] }

end Sys2Proof.Machine
end

