-- ==== Sys2Proof/Machine/Step.lean ====
section
/-! DEFINITION. The step, and the placing of an instruction where the step fetches it. -/

namespace Sys2Proof.Machine

/-- One step of the machine. -/
def step (s : State) : Host.Outcome State Fault Refusal := s.stepOnce

/-- `s` with an instruction of which the low bits are `w` as the first that runs: a program comes from outside (assumption 2). -/
def State.withFetchWord (s : State) (_nbits w : Nat) : State := s.load (BitVec.ofNat 96 w)

end Sys2Proof.Machine
end

