-- ==== Sys2Proof/Safety.lean ====
section
/-! DEFINITION. What a safe run is: the step answers a next state whose memory keeps its canonical form. -/

namespace Sys2Proof

open Machine

/-- The step from a state answers a next state. -/
def stepsOn (s : State) : Prop := ∃ t, step s = .next t

/-- A state of a safe run: memory and every scratchpad in canonical form. -/
def memOk (s : State) : Prop := s.mem.wf = true ∧ ∀ e ∈ s.cores, e.2.sp.wf = true

end Sys2Proof
end

