-- ==== Sys2Proof/Certificates/Slice0/Obligations.lean ====
section
/-! DEFINITION. The statements: for every family what its instructions and events do, their frames, the decoder against the encoder, and what every
step keeps. Several parts of one subject make one statement; the parts are named in the namespace Claims. -/

namespace Sys2Proof.Claims

open Machine

/-- `t` is the thread whose instruction executes, and the instruction's guard is true for it (R25). -/
def Runs (s : State) (t : Thread) (g : Guard) : Prop := s.curT? = some t ∧ t.guard g = true

/-- The bits of a width. -/
def bits : Width → Nat
  | .w64 => 64
  | .w32 => 32
  | .w16 => 16
  | .w8 => 8

/-- The low n bits of a register as an unsigned number. -/
def uns (n : Nat) (v : Word) : Int := v.toNat % 2 ^ n

/-- The low n bits of a register as a two's-complement number. -/
def sig (n : Nat) (v : Word) : Int := Int.bmod v.toNat (2 ^ n)

/-- An integer cut to n bits and sign-extended to 64. -/
def cut (n : Nat) (r : Int) : Word := BitVec.ofInt 64 (Int.bmod r (2 ^ n))

/-- The two-source integer operations of R195 and R196 over n bits, as integer arithmetic on the signed (a, b) and unsigned (ua, ub) values. -/
inductive Alu where
  | add | sub | mul | mulh | mulhu | div | divu | rem | remu | min | max | minu | maxu

def Alu.value (n : Nat) (a b ua ub : Int) : Alu → Int
  | .add => a + b
  | .sub => a - b
  | .mul => a * b
  | .mulh => a * b / 2 ^ n
  | .mulhu => ua * ub / 2 ^ n
  | .div => if b = 0 then -1 else a.tdiv b
  | .divu => if ub = 0 then -1 else ua / ub
  | .rem => if b = 0 then a else a.tmod b
  | .remu => if ub = 0 then ua else ua % ub
  | .min => if a ≤ b then a else b
  | .max => if a ≤ b then b else a
  | .minu => if ua ≤ ub then ua else ub
  | .maxu => if ua ≤ ub then ub else ua

/-- The register forms of the two-source operations. -/
def aluReg : Instr → Option (AluA × Alu)
  | .add x => some (x, .add)
  | .sub x => some (x, .sub)
  | .mul x => some (x, .mul)
  | .mulh x => some (x, .mulh)
  | .mulhu x => some (x, .mulhu)
  | .div x => some (x, .div)
  | .divu x => some (x, .divu)
  | .rem x => some (x, .rem)
  | .remu x => some (x, .remu)
  | .min x => some (x, .min)
  | .max x => some (x, .max)
  | .minu x => some (x, .minu)
  | .maxu x => some (x, .maxu)
  | _ => none

/-- The immediate forms. -/
def aluImm : Instr → Option (AluI × Alu)
  | .addImm x => some (x, .add)
  | .subImm x => some (x, .sub)
  | .mulImm x => some (x, .mul)
  | .mulhImm x => some (x, .mulh)
  | .mulhuImm x => some (x, .mulhu)
  | .divImm x => some (x, .div)
  | .divuImm x => some (x, .divu)
  | .remImm x => some (x, .rem)
  | .remuImm x => some (x, .remu)
  | .minImm x => some (x, .min)
  | .maxImm x => some (x, .max)
  | .minuImm x => some (x, .minu)
  | .maxuImm x => some (x, .maxu)
  | _ => none

/-- The bitwise operations and shifts of R195 over n bits: by the words, and by a count taken modulo n. -/
inductive Bitop where
  | and | or | xor | andn | orn | shl | shr | sra | rol

def Bitop.value (n : Nat) (a b : Word) : Bitop → Int
  | .and => (a &&& b).toNat
  | .or => (a ||| b).toNat
  | .xor => (a ^^^ b).toNat
  | .andn => (a &&& ~~~b).toNat
  | .orn => (a ||| ~~~b).toNat
  | .shl => uns n a * 2 ^ (b.toNat % n)
  | .shr => uns n a / 2 ^ (b.toNat % n)
  | .sra => sig n a / 2 ^ (b.toNat % n)
  | .rol => uns n a * 2 ^ (b.toNat % n) + uns n a / 2 ^ (n - b.toNat % n)

/-- The register forms. -/
def bitReg : Instr → Option (AluA × Bitop)
  | .and x => some (x, .and)
  | .or x => some (x, .or)
  | .xor x => some (x, .xor)
  | .andn x => some (x, .andn)
  | .orn x => some (x, .orn)
  | .shl x => some (x, .shl)
  | .shr x => some (x, .shr)
  | .sra x => some (x, .sra)
  | .rol x => some (x, .rol)
  | _ => none

/-- The immediate forms: guard, destination, source, operand. -/
def bitImm : Instr → Option (Guard × GReg × GReg × Word × Bitop)
  | .andImm x => some (x.g, x.d, x.a, x.imm.signExtend 64, .and)
  | .orImm x => some (x.g, x.d, x.a, x.imm.signExtend 64, .or)
  | .xorImm x => some (x.g, x.d, x.a, x.imm.signExtend 64, .xor)
  | .andnImm x => some (x.g, x.d, x.a, x.imm.signExtend 64, .andn)
  | .ornImm x => some (x.g, x.d, x.a, x.imm.signExtend 64, .orn)
  | .shlImm x => some (x.g, x.d, x.a, x.count.setWidth 64, .shl)
  | .shrImm x => some (x.g, x.d, x.a, x.count.setWidth 64, .shr)
  | .sraImm x => some (x.g, x.d, x.a, x.count.setWidth 64, .sra)
  | .rolImm x => some (x.g, x.d, x.a, x.count.setWidth 64, .rol)
  | _ => none

end Sys2Proof.Claims

open Sys2Proof Sys2Proof.Machine Sys2Proof.Claims

def Sys2Proof.Claims.IntegerArithmeticRegister : Prop :=
  ∀ (i : Instr) (x : AluA) (f : Alu) (s : State) (t : Thread), aluReg i = some (x, f) → Runs s t x.g →
    exec i s = .next (s.setCur (t.wg x.d (cut (bits x.w)
      (f.value (bits x.w) (sig (bits x.w) (t.rg x.a)) (sig (bits x.w) (t.rg x.b)) (uns (bits x.w) (t.rg x.a)) (uns (bits x.w) (t.rg x.b))))))

def Sys2Proof.Claims.IntegerArithmeticImmediate : Prop :=
  ∀ (i : Instr) (x : AluI) (f : Alu) (s : State) (t : Thread), aluImm i = some (x, f) → Runs s t x.g →
    exec i s = .next (s.setCur (t.wg x.d (cut 64
      (f.value 64 (sig 64 (t.rg x.a)) x.imm.toInt (uns 64 (t.rg x.a)) (x.imm.toInt % 2 ^ 64)))))

/-- The two-source integer operations write the integer result cut to the width and sign-extended. -/
def Obligations.IntegerArithmetic : Prop := IntegerArithmeticRegister ∧ IntegerArithmeticImmediate

def Sys2Proof.Claims.BitwiseAndShiftRegister : Prop :=
  ∀ (i : Instr) (x : AluA) (f : Bitop) (s : State) (t : Thread), bitReg i = some (x, f) → Runs s t x.g →
    exec i s = .next (s.setCur (t.wg x.d (cut (bits x.w) (f.value (bits x.w) (t.rg x.a) (t.rg x.b)))))

def Sys2Proof.Claims.BitwiseAndShiftImmediate : Prop :=
  ∀ (i : Instr) (g : Guard) (d a : GReg) (b : Word) (f : Bitop) (s : State) (t : Thread), bitImm i = some (g, d, a, b, f) → Runs s t g →
    exec i s = .next (s.setCur (t.wg d (cut 64 (f.value 64 (t.rg a) b))))

/-- The bitwise operations and shifts write their result, counts being taken modulo the width. -/
def Obligations.BitwiseAndShift : Prop := BitwiseAndShiftRegister ∧ BitwiseAndShiftImmediate

/-- CLZ, CTZ, POPC and BREV (R197). -/
def Sys2Proof.Claims.CountAndReverse : Prop :=
  ∀ (x : UnA) (s : State) (t : Thread), Runs s t x.g →
    (∃ c, c ≤ bits x.w ∧ (∀ j < c, (t.rg x.a).getLsbD (bits x.w - 1 - j) = false) ∧
      (c < bits x.w → (t.rg x.a).getLsbD (bits x.w - 1 - c) = true) ∧ exec (.clz x) s = .next (s.setCur (t.wg x.d (cut (bits x.w) c)))) ∧
    (∃ c, c ≤ bits x.w ∧ (∀ j < c, (t.rg x.a).getLsbD j = false) ∧
      (c < bits x.w → (t.rg x.a).getLsbD c = true) ∧ exec (.ctz x) s = .next (s.setCur (t.wg x.d (cut (bits x.w) c)))) ∧
    exec (.popc x) s = .next (s.setCur (t.wg x.d (cut (bits x.w) ((List.range (bits x.w)).countP fun j => (t.rg x.a).getLsbD j)))) ∧
    (∃ v, (∀ j < bits x.w, v.getLsbD j = (t.rg x.a).getLsbD (bits x.w - 1 - j)) ∧
      (∀ j, bits x.w ≤ j → j < 64 → v.getLsbD j = (t.rg x.a).getLsbD 0) ∧ exec (.brev x) s = .next (s.setCur (t.wg x.d v)))

/-- SEXT, ZEXT, BFX and BFI (R197, R198). -/
def Sys2Proof.Claims.FieldExtractAndInsert : Prop :=
  (∀ (x : ExtA) (s : State) (t : Thread), Runs s t x.g → 1 ≤ x.n.toNat → x.n.toNat ≤ 64 →
    exec (.sext x) s = .next (s.setCur (t.wg x.d (cut x.n.toNat (t.rg x.a).toNat))) ∧
    exec (.zext x) s = .next (s.setCur (t.wg x.d (BitVec.ofInt 64 (uns x.n.toNat (t.rg x.a)))))) ∧
  (∀ (x : BfxA) (s : State) (t : Thread), Runs s t x.g → x.pos.toNat + x.len1.toNat < 64 →
    exec (.bfx x) s = .next (s.setCur (t.wg x.d
      (let f := (t.rg x.a).toNat / 2 ^ x.pos.toNat
       if x.sx then cut (x.len1.toNat + 1) f else BitVec.ofNat 64 (f % 2 ^ (x.len1.toNat + 1)))))) ∧
  (∀ (x : BfiA) (s : State) (t : Thread), Runs s t x.g → x.pos.toNat + x.len1.toNat < 64 →
    ∃ v, exec (.bfi x) s = .next (s.setCur (t.wg x.d v)) ∧ ∀ j < 64, v.getLsbD j =
      if x.pos.toNat ≤ j ∧ j ≤ x.pos.toNat + x.len1.toNat then (t.rg x.a).getLsbD (j - x.pos.toNat) else (t.rg x.d).getLsbD j)

/-- SEL, MOV, LI and LEA (R199). -/
def Sys2Proof.Claims.MoveSelectAddress : Prop :=
  (∀ (x : SelA) (s : State) (t : Thread), Runs s t x.g →
    exec (.sel x) s = .next (s.setCur (t.wg x.d (if t.rp x.c then t.rg x.a else t.rg x.b)))) ∧
  (∀ (x : GD) (s : State) (t : Thread), Runs s t x.g → exec (.mov x) s = .next (s.setCur (t.wg x.d (t.rg x.a)))) ∧
  (∀ (x : LiI) (s : State) (t : Thread), Runs s t x.g → exec (.li x) s = .next (s.setCur (t.wg x.d (BitVec.ofInt 64 x.imm.toInt)))) ∧
  (∀ (x : LeaA) (s : State) (t : Thread), Runs s t x.g →
    exec (.lea x) s = .next (s.setCur (t.wg x.d (BitVec.ofNat 64 ((t.rg x.a).toNat + (t.rg x.b).toNat * 2 ^ x.k.toNat))))) ∧
  (∀ (x : AluI) (s : State) (t : Thread), Runs s t x.g →
    exec (.leaImm x) s = .next (s.setCur (t.wg x.d (BitVec.ofInt 64 ((t.rg x.a).toInt + x.imm.toInt)))))

/-- A condition of R37 on two numbers, by their signed and unsigned values. -/
def Sys2Proof.Claims.holds (a b ua ub : Int) : ICond → Bool
  | .eq => ua = ub
  | .ne => ua ≠ ub
  | .lt => a < b
  | .ge => b ≤ a
  | .ltu => ua < ub
  | .geu => ub ≤ ua

/-- CMP in both forms and the predicate instructions (R199, R205). -/
def Sys2Proof.Claims.CompareAndPredicates : Prop :=
  (∀ (x : CmpA) (s : State) (t : Thread), Runs s t x.g →
    exec (.cmp x) s = .next (s.setCur (t.wp x.d (holds (sig (bits x.w) (t.rg x.a)) (sig (bits x.w) (t.rg x.b))
      (uns (bits x.w) (t.rg x.a)) (uns (bits x.w) (t.rg x.b)) x.c)))) ∧
  (∀ (x : CmpI) (s : State) (t : Thread), Runs s t x.g →
    exec (.cmpImm x) s = .next (s.setCur (t.wp x.d (holds (sig 64 (t.rg x.a)) x.imm.toInt (uns 64 (t.rg x.a)) (x.imm.toInt % 2 ^ 64) x.c)))) ∧
  (∀ (x : PredA) (s : State) (t : Thread), Runs s t x.g →
    let a := if x.na then !t.rp x.a else t.rp x.a
    let b := if x.nb then !t.rp x.b else t.rp x.b
    exec (.pand x) s = .next (s.setCur (t.wp x.d (a && b))) ∧ exec (.por x) s = .next (s.setCur (t.wp x.d (a || b))) ∧
      exec (.pxor x) s = .next (s.setCur (t.wp x.d (a ^^ b)))) ∧
  (∀ (x : PnotA) (s : State) (t : Thread), Runs s t x.g → exec (.pnot x) s = .next (s.setCur (t.wp x.d !(t.rp x.a)))) ∧
  (∀ (x : PsetA) (s : State) (t : Thread), Runs s t x.g →
    exec (.pset x) s = .next (s.setCur (t.wp x.d (match x.src with
      | .imm v => v
      | .reg a => decide (t.rg a ≠ 0)))))

/-- Counts, bit fields, moves, addresses, comparisons and predicates write their one destination. -/
def Obligations.CountsFieldsComparesAndMoves : Prop := CountAndReverse ∧ FieldExtractAndInsert ∧ MoveSelectAddress ∧ CompareAndPredicates

/-! ### Scalar floating point (R200 to R203) -/

/-- The low bits of a register as a code of a scalar floating type. -/
def Sys2Proof.Claims.code (ty : ElemType) (v : Word) : Nat := v.toNat % 2 ^ (ffmt ty).width

/-- The thread after a floating result: gD holds the code zero-extended, and the flags are ORed into RCTL (R181, R200). -/
def Sys2Proof.Claims.floated (t : Thread) (d : GReg) (r : Nat × Fl) : Thread :=
  { t.wg d (BitVec.ofNat 64 r.1) with rctl := t.rctl ||| (r.2.setWidth 64 <<< 16) }

def Sys2Proof.Claims.ScalarFloatResults : Prop :=
  (∀ (x : FpR) (s : State) (t : Thread), Runs s t x.g →
    exec (.fadd x) s = .next (s.setCur (floated t x.d ((ffmt x.ty).fadd (t.round x.rm) (code x.ty (t.rg x.a)) (code x.ty (t.rg x.b))))) ∧
    exec (.fsub x) s = .next (s.setCur (floated t x.d ((ffmt x.ty).fsub (t.round x.rm) (code x.ty (t.rg x.a)) (code x.ty (t.rg x.b))))) ∧
    exec (.fmul x) s = .next (s.setCur (floated t x.d ((ffmt x.ty).fmul (t.round x.rm) (code x.ty (t.rg x.a)) (code x.ty (t.rg x.b)))))) ∧
  (∀ (x : FpB) (s : State) (t : Thread), Runs s t x.g →
    exec (.fmin x) s = .next (s.setCur (t.wg x.d (BitVec.ofNat 64 ((ffmt x.ty).fminmax false (code x.ty (t.rg x.a)) (code x.ty (t.rg x.b)))))) ∧
    exec (.fmax x) s = .next (s.setCur (t.wg x.d (BitVec.ofNat 64 ((ffmt x.ty).fminmax true (code x.ty (t.rg x.a)) (code x.ty (t.rg x.b))))))) ∧
  (∀ (x : FpU) (s : State) (t : Thread), Runs s t x.g →
    exec (.fabs x) s = .next (s.setCur (t.wg x.d (BitVec.ofNat 64 ((ffmt x.ty).fabs (code x.ty (t.rg x.a)))))) ∧
    exec (.fneg x) s = .next (s.setCur (t.wg x.d (BitVec.ofNat 64 ((ffmt x.ty).fneg (code x.ty (t.rg x.a))))))) ∧
  (∀ (x : FpF) (s : State) (t : Thread), Runs s t x.g →
    exec (.ffma x) s = .next (s.setCur (floated t x.d
      ((ffmt x.ty).ffma (t.round x.rm) false (code x.ty (t.rg x.a)) (code x.ty (t.rg x.b)) (code x.ty (t.rg x.c)))))) ∧
  (∀ (x : FpN) (s : State) (t : Thread), Runs s t x.g →
    exec (.frnd x) s = .next (s.setCur (floated t x.d ((ffmt x.ty).frnd (t.round x.rm) (code x.ty (t.rg x.a)))))) ∧
  (∀ (x : FpC) (s : State) (t : Thread), Runs s t x.g →
    exec (.fcmp x) s = .next (s.setCur (t.wp x.d ((ffmt x.ty).fcmp x.c (code x.ty (t.rg x.a)) (code x.ty (t.rg x.b))))))

/-- FCLASS sets one of gD's bits 8 to 0; FCVT converts between the formats of its types, and takes the bad-format trap, cause 0x1E,
when a descriptor that it uses is invalid (R175, R202, R203). -/
def Sys2Proof.Claims.ScalarClassAndConvert : Prop :=
  (∀ (x : FpU) (s : State) (t : Thread) (f : FFmt), Runs s t x.g → numFmt t.rf x.ty = some (.flt f) →
    ∃ n ≤ 8, exec (.fclass x) s = .next (s.setCur (t.wg x.d (1#64 <<< n)))) ∧
  (∀ (x : FpV) (s : State) (t : Thread) (nd ns : NumFmt), Runs s t x.g → numFmt t.rf x.dst = some nd → numFmt t.rf x.src = some ns →
    ∃ r, r = convert x.dst x.src nd ns (t.round x.rm) x.sat (ns.operand (s.core s.cur.core).lut (t.rg x.a).toNat) ∧
      exec (.fcvt x) s = .next (s.setCur
        { t.wg x.d (nd.toReg r.1) with rctl := t.rctl ||| (r.2.setWidth 64 <<< 16) })) ∧
  (∀ (x : FpV) (s : State) (t : Thread), Runs s t x.g → (numFmt t.rf x.dst = none ∨ numFmt t.rf x.src = none) →
    exec (.fcvt x) s = trapAt s 0x1E 0 0) ∧
  (∀ (x : FpU) (s : State) (t : Thread), Runs s t x.g → numFmt t.rf x.ty = none → exec (.fclass x) s = trapAt s 0x1E 0 0)

/-- The scalar floating instructions deliver their result and OR their flags into RCTL. -/
def Obligations.ScalarFloatingPoint : Prop := ScalarFloatResults ∧ ScalarClassAndConvert

/-! ### Transfers (R204) -/

/-- The lead pipe stands at a target, with its line in hand. -/
def Sys2Proof.Claims.landed (s : State) (pc : Word) (l : V512) (f : Thread → Thread) : State :=
  s.modCur fun t => f { t with leadPc := pc, line := some (pcLine pc, l) }

/-- A transfer that is taken and whose target passes the checks of R22 leaves the lead PC at the target. -/
def Sys2Proof.Claims.TransfersTaken : Prop :=
  ∀ (s s' : State) (t : Thread) (l : V512),
    (∀ x : BrB, Runs s t x.g → (∀ c, x.c = some c → holds (sig 64 (t.rg x.a)) (sig 64 (t.rg x.b)) (uns 64 (t.rg x.a)) (uns 64 (t.rg x.b)) c = true) →
      s.checkTarget s.cur.core s.cur.slot t.region (s.cur.ipc + x.disp.signExtend 64) = (.ok l, s') →
      exec (.br x) s = .next (landed s' (s.cur.ipc + x.disp.signExtend 64) l id)) ∧
    (∀ x : JmpB, Runs s t x.g → s.checkTarget s.cur.core s.cur.slot t.region (s.cur.ipc + x.disp.signExtend 64) = (.ok l, s') →
      exec (.jmp x) s = .next (landed s' (s.cur.ipc + x.disp.signExtend 64) l id)) ∧
    (∀ x : GSrc, Runs s t x.g → s.checkTarget s.cur.core s.cur.slot t.region (t.rg x.a) = (.ok l, s') →
      exec (.jmpi x) s = .next (landed s' (t.rg x.a) l id) ∧ exec (.ret x) s = .next (landed s' (t.rg x.a) l id)) ∧
    (∀ x : CallB, Runs s t x.g → s.checkTarget s.cur.core s.cur.slot t.region (s.cur.ipc + x.disp.signExtend 64) = (.ok l, s') →
      exec (.call x) s = .next (landed s' (s.cur.ipc + x.disp.signExtend 64) l fun t' => t'.wg x.d (nextPc s.cur.ipc))) ∧
    (∀ x : GD, Runs s t x.g → s.checkTarget s.cur.core s.cur.slot t.region (t.rg x.a) = (.ok l, s') →
      exec (.calli x) s = .next (landed s' (t.rg x.a) l fun t' => t'.wg x.d (nextPc s.cur.ipc))) ∧
    (∀ x : LoopB, Runs s t x.g → (x.a = 0 ∨ t.rg x.a ≠ 1) →
      s.checkTarget s.cur.core s.cur.slot t.region (s.cur.ipc + x.disp.signExtend 64) = (.ok l, s') →
      exec (.loop x) s = .next (landed s' (s.cur.ipc + x.disp.signExtend 64) l fun t' => t'.wg x.a (t.rg x.a - 1)))

/-- BR whose condition fails, and LOOP that counts down to zero, are not taken; NOP does nothing; a guard that is false leaves everything
as it is for all of these. -/
def Sys2Proof.Claims.TransfersNotTaken : Prop :=
  (∀ (s : State) (t : Thread) (x : BrB) (c : ICond), Runs s t x.g → x.c = some c →
    holds (sig 64 (t.rg x.a)) (sig 64 (t.rg x.b)) (uns 64 (t.rg x.a)) (uns 64 (t.rg x.b)) c = false → exec (.br x) s = .next s) ∧
  (∀ (s : State) (t : Thread) (x : LoopB), Runs s t x.g → x.a ≠ 0 → t.rg x.a = 1 → exec (.loop x) s = .next (s.setCur (t.wg x.a 0))) ∧
  (∀ (s : State) (t : Thread) (x : GOnly), Runs s t x.g → exec (.nop x) s = .next s) ∧
  (∀ (s : State) (t : Thread) (g : Guard), s.curT? = some t → t.guard g = false →
    (∀ x : BrB, x.g = g → exec (.br x) s = .next s) ∧ (∀ x : JmpB, x.g = g → exec (.jmp x) s = .next s) ∧
    (∀ x : GSrc, x.g = g → exec (.jmpi x) s = .next s ∧ exec (.ret x) s = .next s) ∧ (∀ x : CallB, x.g = g → exec (.call x) s = .next s) ∧
    (∀ x : GD, x.g = g → exec (.calli x) s = .next s) ∧ (∀ x : LoopB, x.g = g → exec (.loop x) s = .next s) ∧
    (∀ x : GOnly, x.g = g → exec (.nop x) s = .next s))

/-- Transfers that are taken stand at their checked target, the others fall through. -/
def Obligations.Transfers : Prop := TransfersTaken ∧ TransfersNotTaken

/-! ### Queues and repetition (R206, R208 to R213) -/

/-- QPUT appends where there is room, QGET removes the head, QPEEK reads it and QCNT counts; QPUT to a full queue and QGET and QPEEK of an
empty one do not execute: their pipe waits (R206). -/
def Sys2Proof.Claims.QueueRegisters : Prop :=
  (∀ (s : State) (t : Thread) (x : QputA), Runs s t x.g →
    ((t.rq x.q).length < (if x.q.toNat < 6 then 16 else 4) → exec (.qput x) s = .next (s.setCur (t.wq x.q (t.rq x.q ++ [t.rg x.a])))) ∧
    ((if x.q.toNat < 6 then 16 else 4) ≤ (t.rq x.q).length → exec (.qput x) s = .next s.unissue)) ∧
  (∀ (s : State) (t : Thread) (x : QgetA), Runs s t x.g →
    (∀ v l, t.rq x.q = v :: l → exec (.qget x) s = .next (s.setCur ((t.wq x.q l).wg x.d v)) ∧ exec (.qpeek x) s = .next (s.setCur (t.wg x.d v))) ∧
    (t.rq x.q = [] → exec (.qget x) s = .next s.unissue ∧ exec (.qpeek x) s = .next s.unissue) ∧
    exec (.qcnt x) s = .next (s.setCur (t.wg x.d (BitVec.ofNat 64 (t.rq x.q).length))))

def Sys2Proof.Claims.RepetitionBuffer : Prop :=
  (∀ (s s' : State) (t : Thread) (x : RepbA) (pa : Nat) (sh : Bool) (e : Nat), Runs s t x.g → t.rep.act = false → (t.rg x.a).toNat % 512 = 0 →
    s.translateR s.cur.core t.region (t.rg x.a) .store = (.ok pa sh e, s') → s'.curT? = some t →
    ∃ r, exec (.repb x) s = .next (s'.modCur fun t => { t with rep := r }) ∧ r.capt = true ∧ r.valid = false ∧ r.buf = [] ∧ r.savePa = pa ∧
      r.stride = x.stride ∧ r.renv = x.renv ∧ r.reng = x.reng) ∧
  (∀ (s : State) (t : Thread) (x : EvNone), s.curT? = some t → t.rep.capt = true →
    exec (.repe x) s = .next (s.setCur { t with rep := { t.rep with capt := false, valid := true } })) ∧
  (∀ (s : State) (t : Thread) (x : GSrc), Runs s t x.g → t.rep.valid = true → t.rep.act = false → (t.rg x.a).toNat ≤ 1048575 →
    ((t.rg x.a ≠ 0 ∧ t.rep.buf ≠ []) → ∃ t', exec (.reprun x) s = .next (s.setCur t') ∧ t'.rep.act = true ∧ t'.rep.pass = 0 ∧ t'.rep.idx = 0 ∧
      t'.rep.npass = (t.rg x.a).toNat ∧ t'.rep.buf = t.rep.buf ∧ t'.g = t.g ∧ t'.v = t.v ∧ t'.p = t.p) ∧
    (t.rg x.a = 0 → ∃ t', exec (.reprun x) s = .next (s.setCur t') ∧ t'.rep.act = false ∧ t'.trailQ = t.trailQ ∧ t'.g = t.g)) ∧
  (∀ (s : State) (t : Thread) (x : GDest), Runs s t x.g →
    ∃ v, exec (.repstat x) s = .next (s.setCur (t.wg x.d v)) ∧ v.extractLsb' 18 6 = BitVec.ofNat 6 t.rep.buf.length ∧
      v.getLsbD 5 = t.rep.act ∧ v.getLsbD 4 = t.rep.valid ∧ v.getLsbD 3 = t.rep.capt)

/-- Queue registers and the repetition buffer. -/
def Obligations.QueuesAndRepetition : Prop := QueueRegisters ∧ RepetitionBuffer

/-! ### Vectors (R216 to R227) -/

/-- The lane width and the result of each lane, with its flags, of the instructions that act on their lanes one by one (R218 to R221, R227). -/
def Sys2Proof.Claims.lanewise (s : State) (t : Thread) : Instr → Option (Guard × Nat × VReg × (Nat → Nat × Fl))
  | .vadd x => some (x.g, laneW x.ty, x.d, fun i => LaneOp.add.one x.ty (t.round x.rm) x.sat x.uns (lane (laneW x.ty) (t.rv x.a) i) (lane (laneW x.ty) (t.rv x.b) i) 0)
  | .vsub x => some (x.g, laneW x.ty, x.d, fun i => LaneOp.sub.one x.ty (t.round x.rm) x.sat x.uns (lane (laneW x.ty) (t.rv x.a) i) (lane (laneW x.ty) (t.rv x.b) i) 0)
  | .vmul x => some (x.g, laneW x.ty, x.d, fun i => LaneOp.mul.one x.ty (t.round x.rm) false false (lane (laneW x.ty) (t.rv x.a) i) (lane (laneW x.ty) (t.rv x.b) i) 0)
  | .vfma x => some (x.g, laneW x.ty, x.d, fun i => LaneOp.fma.one x.ty (t.round x.rm) false false (lane (laneW x.ty) (t.rv x.a) i)
      (lane (laneW x.ty) (t.rv x.b) i) (lane (laneW x.ty) (t.rv x.c) i))
  | .vfms x => some (x.g, laneW x.ty, x.d, fun i => LaneOp.fms.one x.ty (t.round x.rm) false false (lane (laneW x.ty) (t.rv x.a) i)
      (lane (laneW x.ty) (t.rv x.b) i) (lane (laneW x.ty) (t.rv x.c) i))
  | .vneg x => some (x.g, laneW x.ty, x.d, fun i => LaneOp.neg.one x.ty .rne x.sat false (lane (laneW x.ty) (t.rv x.a) i) 0 0)
  | .vabs x => some (x.g, laneW x.ty, x.d, fun i => LaneOp.abs.one x.ty .rne x.sat false (lane (laneW x.ty) (t.rv x.a) i) 0 0)
  | .vmin x => some (x.g, laneW x.ty, x.d, fun i => LaneOp.min.one x.ty .rne false x.uns (lane (laneW x.ty) (t.rv x.a) i) (lane (laneW x.ty) (t.rv x.b) i) 0)
  | .vmax x => some (x.g, laneW x.ty, x.d, fun i => LaneOp.max.one x.ty .rne false x.uns (lane (laneW x.ty) (t.rv x.a) i) (lane (laneW x.ty) (t.rv x.b) i) 0)
  | .vshl x => some (x.g, laneW x.ty, x.d, fun i => (lane (laneW x.ty) (t.rv x.a) i * 2 ^ VCount.at x.cnt t (laneW x.ty) i, 0))
  | .vshr x => some (x.g, laneW x.ty, x.d, fun i => (lane (laneW x.ty) (t.rv x.a) i / 2 ^ VCount.at x.cnt t (laneW x.ty) i, 0))
  | .vsra x => some (x.g, laneW x.ty, x.d, fun i =>
      (wrapN (laneW x.ty) (sextN (laneW x.ty) (lane (laneW x.ty) (t.rv x.a) i) / 2 ^ VCount.at x.cnt t (laneW x.ty) i), 0))
  | .vcmp x => some (x.g, laneW x.ty, x.d, fun i =>
      (if vcond x.c x.ty (lane (laneW x.ty) (t.rv x.a) i) (lane (laneW x.ty) (t.rv x.b) i) then 2 ^ laneW x.ty - 1 else 0, 0))
  | .vrcp x => some (x.g, laneW x.ty, x.d, fun i => (ffmt x.ty).special .rcp (t.round .rne) (lane (laneW x.ty) (t.rv x.a) i))
  | .vrsq x => some (x.g, laneW x.ty, x.d, fun i => (ffmt x.ty).special .rsq (t.round .rne) (lane (laneW x.ty) (t.rv x.a) i))
  | .vsqrt x => some (x.g, laneW x.ty, x.d, fun i => (ffmt x.ty).special .sqrt (t.round x.rm) (lane (laneW x.ty) (t.rv x.a) i))
  | .vexp2 x => some (x.g, laneW x.ty, x.d, fun i => (ffmt x.ty).special .exp2 (t.round .rne) (lane (laneW x.ty) (t.rv x.a) i))
  | .vlog2 x => some (x.g, laneW x.ty, x.d, fun i => (ffmt x.ty).special .log2 (t.round .rne) (lane (laneW x.ty) (t.rv x.a) i))
  | .vsinp x => some (x.g, laneW x.ty, x.d, fun i => (ffmt x.ty).special .sinp (t.round .rne) (lane (laneW x.ty) (t.rv x.a) i))
  | .vtanh x => some (x.g, laneW x.ty, x.d, fun i => (ffmt x.ty).special .tanh (t.round .rne) (lane (laneW x.ty) (t.rv x.a) i))
  | .vdot x => some (x.g, 32, x.d, fun i => dotLane x.acc x.src (t.round x.rm) x.sat (s.core s.cur.core).lut (lane 32 (t.rv x.d) i)
      ((List.range (32 / dotW x.src)).map fun j =>
        (lane (dotW x.src) (t.rv x.a) (32 / dotW x.src * i + j), lane (dotW x.src) (t.rv x.b) (32 / dotW x.src * i + j))))
  | _ => none

/-- Every lane of vD takes its own result, cut to the lane, and RCTL the flags of all lanes. -/
def Obligations.VectorLanewise : Prop :=
  ∀ (i : Instr) (s : State) (t : Thread) (g : Guard) (w : Nat) (d : VReg) (f : Nat → Nat × Fl), lanewise s t i = some (g, w, d, f) → Runs s t g →
    ∃ (v : V512) (fl : Fl), exec i s = .next (s.setCur { t.wv d v with rctl := t.rctl ||| (fl.setWidth 64 <<< 16) }) ∧
      (∀ k < 512 / w, lane w v k = (f k).1 % 2 ^ w) ∧ (∀ b < 5, fl.getLsbD b = true ↔ ∃ k < 512 / w, (f k).2.getLsbD b = true)

/-- VAND, VOR, VXOR, VSEL and VMOV act bit by bit and set no flag (R219, R224). -/
def Sys2Proof.Claims.VectorBitwise : Prop :=
  (∀ (x : VLogV) (s : State) (t : Thread), Runs s t x.g →
    exec (.vand x) s = .next (s.setCur (t.wv x.d (t.rv x.a &&& t.rv x.b))) ∧
    exec (.vor x) s = .next (s.setCur (t.wv x.d (t.rv x.a ||| t.rv x.b))) ∧
    exec (.vxor x) s = .next (s.setCur (t.wv x.d (t.rv x.a ^^^ t.rv x.b)))) ∧
  (∀ (x : VSelV) (s : State) (t : Thread), Runs s t x.g →
    ∃ v, exec (.vsel x) s = .next (s.setCur (t.wv x.d v)) ∧
      ∀ j < 512, v.getLsbD j = if (t.rv x.c).getLsbD j then (t.rv x.a).getLsbD j else (t.rv x.b).getLsbD j) ∧
  (∀ (x : VMovV) (s : State) (t : Thread), Runs s t x.g → exec (.vmov x) s = .next (s.setCur (t.wv x.d (t.rv x.a))))

/-- VPERM, VBCAST, VINS, VEXT and VSPLAT move lanes of the type's lane width (R224). -/
def Sys2Proof.Claims.VectorMoves : Prop :=
  (∀ (x : VPermV) (s : State) (t : Thread) (n : NumFmt), Runs s t x.g → numFmt t.rf x.ty = some n → n.lane ≠ 4 →
    ∃ v, exec (.vperm x) s = .next (s.setCur (t.wv x.d v)) ∧ ∀ k < 512 / n.lane, lane n.lane v k =
      (match x.c with
        | none => lane n.lane (t.rv x.a) (lane n.lane (t.rv x.b) k % (512 / n.lane))
        | some c =>
          let j := lane n.lane (t.rv x.b) k % (2 * (512 / n.lane))
          if j < 512 / n.lane then lane n.lane (t.rv x.a) j else lane n.lane (t.rv c) (j - 512 / n.lane))) ∧
  (∀ (x : VBcastV) (s : State) (t : Thread) (n : NumFmt), Runs s t x.g → numFmt t.rf x.ty = some n → x.k.toNat < 512 / n.lane →
    ∃ v, exec (.vbcast x) s = .next (s.setCur (t.wv x.d v)) ∧ ∀ k < 512 / n.lane, lane n.lane v k = lane n.lane (t.rv x.a) x.k.toNat) ∧
  (∀ (x : VInsV) (s : State) (t : Thread) (n : NumFmt), Runs s t x.g → numFmt t.rf x.ty = some n → x.k.toNat < 512 / n.lane →
    ∃ v, exec (.vins x) s = .next (s.setCur (t.wv x.d v)) ∧ ∀ k < 512 / n.lane, lane n.lane v k =
      if k = x.k.toNat then (t.rg x.a).toNat % 2 ^ n.lane else lane n.lane (t.rv x.d) k) ∧
  (∀ (x : VExtV) (s : State) (t : Thread) (n : NumFmt), Runs s t x.g → numFmt t.rf x.ty = some n → x.k.toNat < 512 / n.lane →
    exec (.vext x) s = .next (s.setCur (t.wg x.d (if x.ty.isI || x.ty = .i4 then cut n.lane (lane n.lane (t.rv x.a) x.k.toNat)
      else BitVec.ofNat 64 (lane n.lane (t.rv x.a) x.k.toNat))))) ∧
  (∀ (x : VSplatV) (s : State) (t : Thread) (n : NumFmt), Runs s t x.g → numFmt t.rf x.ty = some n →
    ∃ v, exec (.vsplat x) s = .next (s.setCur (t.wv x.d v)) ∧ ∀ k < 512 / n.lane, lane n.lane v k = (t.rg x.a).toNat % 2 ^ n.lane)

/-- Bitwise vector instructions and lane movements. -/
def Obligations.VectorBitwiseAndMoves : Prop := VectorBitwise ∧ VectorMoves

/-- VRED leaves the value of R225's halving tree in lane 0 and zeros elsewhere; VSCAN leaves in each lane the running reduction of the lanes
up to it; VCVT converts lanes between widths, on narrowing into its part of vD; a lane movement or a conversion by an invalid descriptor takes the bad-format trap (R175, R220,
R224 to R226). -/
def Obligations.VectorReductions : Prop :=
  (∀ (x : VRedV) (s : State) (t : Thread), Runs s t x.g →
    ∃ v, exec (.vred x) s = .next (s.setCur { t.wv x.d v with rctl := t.rctl |||
        ((redTree (redStep x.op x.ty (t.round x.rm) x.uns) 7 (lanes (laneW x.ty) (t.rv x.a)) 0).2.setWidth 64 <<< 16) }) ∧
      lane (laneW x.ty) v 0 = (redTree (redStep x.op x.ty (t.round x.rm) x.uns) 7 (lanes (laneW x.ty) (t.rv x.a)) 0).1 % 2 ^ laneW x.ty ∧
      ∀ k < 512 / laneW x.ty, k ≠ 0 → lane (laneW x.ty) v k = 0) ∧
  (∀ (x : VRedV) (s : State) (t : Thread), Runs s t x.g →
    ∃ (v : V512) (r : Nat → Nat × Fl) (fl : Fl), exec (.vscan x) s = .next (s.setCur { t.wv x.d v with rctl := t.rctl ||| (fl.setWidth 64 <<< 16) }) ∧
      r 0 = (lane (laneW x.ty) (t.rv x.a) 0, 0) ∧
      (∀ k, k + 1 < 512 / laneW x.ty → r (k + 1) = redStep x.op x.ty (t.round x.rm) x.uns (r k).1 (lane (laneW x.ty) (t.rv x.a) (k + 1))) ∧
      (∀ k < 512 / laneW x.ty, lane (laneW x.ty) v k = (r k).1 % 2 ^ laneW x.ty) ∧
      (∀ b < 5, fl.getLsbD b = true ↔ ∃ k < 512 / laneW x.ty, (r k).2.getLsbD b = true)) ∧
  (∀ (x : VCvtV) (s : State) (t : Thread) (fd fs : NumFmt), Runs s t x.g → numFmt t.rf x.dst = some fd → numFmt t.rf x.src = some fs →
    (fs.lane ≤ fd.lane → x.k.toNat < fd.lane / fs.lane →
      ∃ v fl, exec (.vcvt x) s = .next (s.setCur { t.wv x.d v with rctl := fl }) ∧ ∀ i < 512 / fd.lane, lane fd.lane v i =
        (convert x.dst x.src fd fs (t.round x.rm) x.sat (fs.operand (s.core s.cur.core).lut (lane fs.lane (t.rv x.a) (x.k.toNat * (512 / fd.lane) + i)))).1
          % 2 ^ fd.lane) ∧
    (fd.lane < fs.lane → x.k.toNat < fs.lane / fd.lane →
      ∃ v fl, exec (.vcvt x) s = .next (s.setCur { t.wv x.d v with rctl := fl }) ∧ ∀ i < 512 / fd.lane, lane fd.lane v i =
        if x.k.toNat * (512 / fs.lane) ≤ i ∧ i < (x.k.toNat + 1) * (512 / fs.lane) then
          (convert x.dst x.src fd fs (t.round x.rm) x.sat (fs.operand (s.core s.cur.core).lut (lane fs.lane (t.rv x.a) (i - x.k.toNat * (512 / fs.lane))))).1
            % 2 ^ fd.lane
        else lane fd.lane (t.rv x.d) i)) ∧
  (∀ (s : State) (t : Thread),
    (∀ x : VCvtV, Runs s t x.g → (numFmt t.rf x.dst = none ∨ numFmt t.rf x.src = none) → exec (.vcvt x) s = trapAt s 0x1E 0 0) ∧
    (∀ x : VPermV, Runs s t x.g → numFmt t.rf x.ty = none → exec (.vperm x) s = trapAt s 0x1E 0 0) ∧
    (∀ x : VBcastV, Runs s t x.g → numFmt t.rf x.ty = none → exec (.vbcast x) s = trapAt s 0x1E 0 0) ∧
    (∀ x : VInsV, Runs s t x.g → numFmt t.rf x.ty = none → exec (.vins x) s = trapAt s 0x1E 0 0) ∧
    (∀ x : VExtV, Runs s t x.g → numFmt t.rf x.ty = none → exec (.vext x) s = trapAt s 0x1E 0 0) ∧
    (∀ x : VSplatV, Runs s t x.g → numFmt t.rf x.ty = none → exec (.vsplat x) s = trapAt s 0x1E 0 0))

/-! ### Memory access (R127 to R149, R170) -/

/-- A thread in direct mode with nothing outstanding, nothing that waits in either pipe, no revoked grant, and no store of another thread that
its loads have bound before it performed. -/
def Sys2Proof.Claims.Quiet (t : Thread) : Prop := t.cons = none ∧ t.ops = [] ∧ t.trailQ = [] ∧ t.ahead = [] ∧ t.stale = [] ∧ t.fwds = []

/-- The operation that the executing instruction of a thread would be. -/
def Sys2Proof.Claims.me (s : State) (t : Thread) : OpRef := ⟨s.cur.core, s.cur.slot, t.nextOp⟩

/-- No core awaits an acknowledgement of an operation. -/
def Sys2Proof.Claims.Unacked (s : State) (r : OpRef) : Prop := ∀ e ∈ s.cores, ∀ x ∈ e.2.acks, x.2 ≠ r

/-- n bytes at offset o of the own core's scratchpad exist and nothing makes an access to them wait: no watermark, no LMCFG, no clearing, no store
of another thread of the core that has still to perform, no uncorrectable error (R107, R152, R157, R171, R411). -/
def Sys2Proof.Claims.LocalOk (s : State) (o n : Nat) : Prop :=
  o < 2 ^ 24 ∧ o + n ≤ (s.core s.cur.core).spsz ∧ s.chanWaits s.cur.core o n = false ∧ s.shrinkWaits s.cur.core o n = false ∧
    s.spHeld s.cur.core o n = false ∧ s.spPoison s.cur.core o n = none ∧
    s.pathStores ⟨s.partOf s.cur.core, s.cur.core, s.cur.slot, 0, 0, none, 0, false, none⟩ false [⟨some s.cur.core, o, n, false⟩] = []

/-- The thread after SCLAMP has counted an instruction whose scope R122 narrows. -/
def Sys2Proof.Claims.counted (s : State) (t : Thread) (str : Str) : Thread := t.countClamp (s.clamps s.cur.core str.scope 0)

/-- Bytes of the own core's scratchpad. -/
def Sys2Proof.Claims.localBytes (s : State) (o n : Nat) : List Byte := memBytes (s.core s.cur.core).sp o n

/-- ea of R127. -/
def Sys2Proof.Claims.ea (t : Thread) (a : GReg) (off : BitVec 32) : Word := BitVec.ofInt 64 ((t.rg a).toInt + off.toInt)

/-- The value that n bytes load into a g register, sign-extended or not. -/
def Sys2Proof.Claims.loaded (sx : Bool) (bs : List Byte) : Word :=
  if sx then cut (8 * bs.length) (ofBytes bs) else BitVec.ofNat 64 (ofBytes bs)

/-- LD, LDV, MLD and LUTLD from the own scratchpad (AM 1) bind the bytes there (R132, R133, R232, R234). -/
def Sys2Proof.Claims.LocalLoads : Prop :=
  ∀ (s : State) (t : Thread), Quiet t → Unacked s (me s t) →
    (∀ x : LdM, Runs s t x.g → x.am = .own → LocalOk s (ea t x.a x.off).toNat (2 ^ x.sz.toNat) →
      exec (.ld x) s = .next (s.setCur ((counted s t x.str).wg x.d (loaded x.sx (localBytes s (ea t x.a x.off).toNat (2 ^ x.sz.toNat)))))) ∧
    (∀ x : LdvM, Runs s t x.g → x.am = .own → LocalOk s (ea t x.a x.off).toNat x.sz.bytes →
      exec (.ldv x) s = .next (s.setCur ((counted s t x.str).wv x.d
        (BitVec.ofNat 512 (ofBytes (localBytes s (ea t x.a x.off).toNat x.sz.bytes)))))) ∧
    (∀ x : MldN, Runs s t x.g → x.loc = true → (t.rg x.a).toNat % 64 = 0 → LocalOk s (t.rg x.a).toNat 64 →
      exec (.mld x) s = .next (s.setCur ((counted s t x.str).wm x.m (BitVec.ofNat 512 (ofBytes (localBytes s (t.rg x.a).toNat 64)))))) ∧
    (∀ x : LutN, Runs s t x.g → x.loc = true → (t.rg x.a).toNat % 16 = 0 → LocalOk s (t.rg x.a).toNat 16 →
      exec (.lutld x) s = .next ((s.setCur (counted s t x.str)).modCore s.cur.core
        fun y => { y with lut := localBytes s (t.rg x.a).toNat 16 }))

/-- ST, STV, MST and STN to the own scratchpad store the low bytes of their source, STN the low bits of it at its element (R132, R133, R170,
R232). -/
def Sys2Proof.Claims.LocalStores : Prop :=
  ∀ (s : State) (t : Thread), Quiet t → Unacked s (me s t) →
    (∀ x : StM, Runs s t x.g → x.am = .own → LocalOk s (ea t x.a x.off).toNat (2 ^ x.sz.toNat) →
      exec (.st x) s = .next ((s.setCur (counted s t x.str)).spWrite s.cur.core (ea t x.a x.off).toNat
        (toBytes (2 ^ x.sz.toNat) (t.rg x.b).toNat) none)) ∧
    (∀ x : StvM, Runs s t x.g → x.am = .own → LocalOk s (ea t x.a x.off).toNat x.sz.bytes →
      exec (.stv x) s = .next ((s.setCur (counted s t x.str)).spWrite s.cur.core (ea t x.a x.off).toNat
        (toBytes x.sz.bytes (t.rv x.b).toNat) none)) ∧
    (∀ x : MldN, Runs s t x.g → x.loc = true → (t.rg x.a).toNat % 64 = 0 → LocalOk s (t.rg x.a).toNat 64 →
      exec (.mst x) s = .next ((s.setCur (counted s t x.str)).spWrite s.cur.core (t.rg x.a).toNat (toBytes 64 (t.rm x.m).toNat) none)) ∧
    (∀ (x : StnM) (n o p : Nat), Runs s t x.g → x.am = .own → n = (match x.sz with | .b8 => 8 | .b4 => 4 | .b2 => 2) →
      o = (ea t x.a x.off).toNat / (8 / n) → p = (ea t x.a x.off).toNat % (8 / n) * n → LocalOk s o 1 →
      ∃ b : Byte, exec (.stn x) s = .next ((s.setCur (counted s t x.str)).spWrite s.cur.core o [b] none) ∧
        ∀ j < 8, b.getLsbD j = if p ≤ j ∧ j < p + n then (t.rg x.b).getLsbD (j - p) else (memByte (s.core s.cur.core).sp o).getLsbD j)

/-- Loads from the own scratchpad bind its bytes, stores to it write them. -/
def Obligations.LocalLoadsAndStores : Prop := LocalLoads ∧ LocalStores

/-- The function of an integer atomic (R137) on n bits. -/
def Sys2Proof.Claims.amoVal (n : Nat) (a b : Word) : AmoFn → Word
  | .add => a + b
  | .and => a &&& b
  | .or => a ||| b
  | .xor => a ^^^ b
  | .min => if sig n b < sig n a then b else a
  | .max => if sig n a < sig n b then b else a
  | .minu => if uns n b < uns n a then b else a
  | .maxu => if uns n a < uns n b then b else a
  | .swp => b

/-- The integer atomics with their functions. -/
def Sys2Proof.Claims.amoOf : Instr → Option (AmoM × AmoFn)
  | .amoadd x => some (x, .add)
  | .amoand x => some (x, .and)
  | .amoor x => some (x, .or)
  | .amoxor x => some (x, .xor)
  | .amomin x => some (x, .min)
  | .amomax x => some (x, .max)
  | .amominu x => some (x, .minu)
  | .amomaxu x => some (x, .maxu)
  | .amoswp x => some (x, .swp)
  | _ => none

/-- The floating atomics with what they store for the old code and the operand's code (R140). -/
def Sys2Proof.Claims.amofOf : Instr → Option (AmoF × (FFmt → Nat → Nat → Nat))
  | .amofadd x => some (x, fun f a b => (f.fadd .rne a b).1)
  | .amofmin x => some (x, fun f a b => f.fminmax false a b)
  | .amofmax x => some (x, fun f a b => f.fminmax true a b)
  | _ => none

/-- An atomic on the own scratchpad stores the new value of its word and returns the old one, integers sign-extended, codes zero-extended
(R137, R138, R140). -/
def Obligations.LocalAtomics : Prop :=
  ∀ (s : State) (t : Thread), Quiet t → Unacked s (me s t) →
    (∀ (i : Instr) (x : AmoM) (f : AmoFn) (n : Nat) (old : Word), amoOf i = some (x, f) → Runs s t x.g → x.am = .own → n = (if x.dword then 8 else 4) →
      (ea t x.a x.off).toNat % n = 0 → LocalOk s (ea t x.a x.off).toNat n →
      old = BitVec.ofNat 64 (ofBytes (localBytes s (ea t x.a x.off).toNat n)) →
      exec i s = .next (((s.setCur (counted s t x.str)).spWrite s.cur.core (ea t x.a x.off).toNat
        (toBytes n (amoVal (8 * n) old (t.rg x.b) f).toNat) none).modCur fun t => t.wg x.d (cut (8 * n) old.toNat))) ∧
    (∀ (x : CasM) (n : Nat) (old : Word), Runs s t x.g → x.am = .own → n = (if x.dword then 8 else 4) →
      (ea t x.a x.off).toNat % n = 0 → LocalOk s (ea t x.a x.off).toNat n →
      old = BitVec.ofNat 64 (ofBytes (localBytes s (ea t x.a x.off).toNat n)) →
      (uns (8 * n) old = uns (8 * n) (t.rg x.c) → exec (.amocas x) s = .next (((s.setCur (counted s t x.str)).spWrite s.cur.core
        (ea t x.a x.off).toNat (toBytes n (t.rg x.b).toNat) none).modCur fun t => t.wg x.d (cut (8 * n) old.toNat))) ∧
      (uns (8 * n) old ≠ uns (8 * n) (t.rg x.c) → exec (.amocas x) s =
        .next (s.setCur ((counted s t x.str).wg x.d (cut (8 * n) old.toNat))))) ∧
    (∀ (i : Instr) (x : AmoF) (f : FFmt → Nat → Nat → Nat) (n old : Nat), amofOf i = some (x, f) → Runs s t x.g → x.am = .own → n = x.ty.bytes →
      (ea t x.a x.off).toNat % n = 0 → LocalOk s (ea t x.a x.off).toNat n → old = ofBytes (localBytes s (ea t x.a x.off).toNat n) →
      exec i s = .next (((s.setCur (counted s t x.str)).spWrite s.cur.core (ea t x.a x.off).toNat
        (toBytes n (f x.ty.fmt old ((t.rg x.b).toNat % 2 ^ (8 * n)))) none).modCur fun t => t.wg x.d (BitVec.ofNat 64 old)))

/-- A write to a scratchpad changes its own bytes and no other: not those of another core, and none of physical memory. -/
def Sys2Proof.Claims.ScratchpadWrite : Prop :=
  ∀ (s : State) (c o : Nat) (bs : List Byte) (w : Option (Nat × Key)),
    (∀ a, memByte ((s.spWrite c o bs w).core c).sp a = if o ≤ a ∧ a < o + bs.length then bs.getD (a - o) 0 else memByte (s.core c).sp a) ∧
    (∀ d, d ≠ c → ((s.spWrite c o bs w).core d).sp = (s.core d).sp) ∧ (s.spWrite c o bs w).mem = s.mem

/-- The thread as the owner of its access. -/
def Sys2Proof.Claims.owner (s : State) (t : Thread) (str : Str) (nt : Bool) : Who :=
  { s.who s.cur.core s.cur.slot t with no := s.cur.no, nt := nt, str := some (str.stream, t.nextOp) }

/-- An AM 0 access that translates performs at once in a quiet thread: through the L1 (R94) where its paths answer; no store of another thread of
the core that has still to perform forwards to it (R107). -/
def Sys2Proof.Claims.AddressedAccesses : Prop :=
  ∀ (s s1 s2 s3 : State) (t : Thread) (l : List Seg) (room : Nat) (str : Str), Quiet t → s1.curT? = some t → s1.cur = s.cur →
    s2 = s1.setCur (counted s1 t str) → Unacked s3 (me s t) →
    (∀ (x : LdM) (bs : List Byte), Runs s t x.g → x.am = .virt → x.str = str →
      s.accTranslate s.cur.core t (ea t x.a x.off) (2 ^ x.sz.toNat) .load = (.ok l room, s1) → s2.pathStores (owner s2 t str x.nt) false l = [] →
      State.readSegs (owner s2 t str x.nt) (.l1 x.ex) l s2 = .ok bs s3 →
      exec (.ld x) s = .next (s3.modThread s.cur.core s.cur.slot fun t => t.wg x.d (loaded x.sx bs))) ∧
    (∀ (x : LdvM) (bs : List Byte), Runs s t x.g → x.am = .virt → x.str = str →
      s.accTranslate s.cur.core t (ea t x.a x.off) x.sz.bytes .load = (.ok l room, s1) → s2.pathStores (owner s2 t str x.nt) false l = [] →
      State.readSegs (owner s2 t str x.nt) (.l1 x.ex) l s2 = .ok bs s3 →
      exec (.ldv x) s = .next (s3.modThread s.cur.core s.cur.slot fun t => t.wv x.d (BitVec.ofNat 512 (ofBytes bs)))) ∧
    (∀ x : StM, Runs s t x.g → x.am = .virt → x.str = str →
      s.accTranslate s.cur.core t (ea t x.a x.off) (2 ^ x.sz.toNat) .store = (.ok l room, s1) →
      State.storeSegs { owner s2 t str x.nt with op := some t.nextOp } l (toBytes (2 ^ x.sz.toNat) (t.rg x.b).toNat) s2 = .ok () s3 →
      exec (.st x) s = .next s3) ∧
    (∀ x : StvM, Runs s t x.g → x.am = .virt → x.str = str →
      s.accTranslate s.cur.core t (ea t x.a x.off) x.sz.bytes .store = (.ok l room, s1) →
      State.storeSegs { owner s2 t str x.nt with op := some t.nextOp } l (toBytes x.sz.bytes (t.rv x.b).toNat) s2 = .ok () s3 →
      exec (.stv x) s = .next s3)

/-- CFLUSH, CINV, WATCH, UNWATCH, WATCHQ, RELR, LADQ and an ACQR that is answered at once act on the line that they name and deliver their
status (R135, R142 to R148); CFLUSH and CINV end at once while no WBACK of the line is to come. -/
def Sys2Proof.Claims.LinePaths : Prop :=
  ∀ (s s1 s2 : State) (t : Thread) (pa room : Nat) (sh : Bool) (str : Str) (w : Who) (a : GReg) (off : BitVec 32) (k : TrKind), Quiet t →
    s1.curT? = some t → s1.cur = s.cur → s2 = s1.setCur (counted s1 t str) → w = owner s2 t str false →
    s.accTranslate s.cur.core t (ea t a off) 1 k = (.ok [⟨none, pa, 1, sh⟩] room, s1) →
    (∀ g s3, Runs s t g → k = .flush → s3 = s2.flushLine w pa → s3.lineLeaves s.cur.core pa = false → Unacked s3 (me s t) →
      s2.effScope s.cur.core str.scope 0 ≠ 3 → exec (.cflush ⟨g, str, off, a⟩) s = .next s3) ∧
    (∀ g s3, Runs s t g → k = .cinv → s3 = s2.invalLine w pa → s3.lineLeaves s.cur.core pa = false → Unacked s3 (me s t) →
      exec (.cinv ⟨g, str, off, a⟩) s = .next s3) ∧
    (∀ g d b n s3, Runs s t g → k = .look → (lineSecs pa).all (s2.homeFree w.p) = true → s2.watchLine w pa (t.rg b) = (n, s3) →
      Unacked s3 (me s t) → exec (.watch ⟨g, str, off, d, a, b⟩) s = .next (s3.modThread s.cur.core s.cur.slot fun t => t.wg d (BitVec.ofNat 64 n))) ∧
    (∀ g d b n s3, Runs s t g → k = .unwatch → s2.unwatchLine w pa (t.rg b) = (n, s3) → Unacked s3 (me s t) →
      exec (.unwatch ⟨g, str, off, d, a, b⟩) s = .next (s3.modThread s.cur.core s.cur.slot fun t => t.wg d (BitVec.ofNat 64 n))) ∧
    (∀ g d b n s3, Runs s t g → k = .look → (lineSecs pa).all (s2.homeFree w.p) = true → s2.watchqLine w pa (t.rg b) = (n, s3) →
      Unacked s3 (me s t) → exec (.watchq ⟨g, str, off, d, a, b⟩) s = .next (s3.modThread s.cur.core s.cur.slot fun t => t.wg d (BitVec.ofNat 64 n))) ∧
    (∀ g d b v s3, Runs s t g → k = .lading → s2.acquire w (ea t a off) pa room (t.rg b) ⟨s.cur.core, s.cur.slot, t.nextOp⟩ = (.now v, s3) →
      Unacked s3 (me s t) → exec (.acqr ⟨g, str, off, d, a, b⟩) s = .next (s3.modThread s.cur.core s.cur.slot fun t => t.wg d v)) ∧
    (∀ g d n s3, Runs s t g → k = .lading → s2.relr w pa = (n, s3) → Unacked s3 (me s t) →
      exec (.relr ⟨g, str, off, d, a⟩) s = .next (s3.modThread s.cur.core s.cur.slot fun t => t.wg d (BitVec.ofNat 64 n))) ∧
    (∀ g d, Runs s t g → k = .look → Unacked s2 (me s t) →
      exec (.ladq ⟨g, str, off, d, a⟩) s = .next (s2.modThread s.cur.core s.cur.slot fun t => t.wv d (s2.ladq w pa)))

/-- A watch arms a line in the lowest free position when fewer than eight are armed and its record finds room, as in a line of the L2; a ninth answers 2, a CTL with
reserved bits 7 (R141, R142). -/
def Sys2Proof.Claims.WatchStatuses : Prop :=
  ∀ (s : State) (w : Who) (t : Thread) (pa : Nat) (ctl : Word), s.thread? w.core w.slot = some t →
    (ctl.toNat / 16 ≠ 0 → s.watchLine w pa ctl = (7, s)) ∧
    (ctl.toNat / 16 = 0 → t.watch.all (fun e => e.line ≠ pa / 256) = true → 8 ≤ t.watch.length → s.watchLine w pa ctl = (2, s)) ∧
    (ctl.toNat / 16 = 0 → t.watch = [] → (s.entry w.p (pa / 256)).watchers = [] → (s.entry w.p (pa / 256)).inL2 = true → ∀ s' st, s.watchLine w pa ctl = (st, s') →
      st = 0 ∧ ∃ t', s'.thread? w.core w.slot = some t' ∧ t'.watch = [⟨0, pa / 256, if ctl.toNat % 16 = 0 then 1#4 <<< (pa / 64 % 4) else ctl.setWidth 4, 0⟩])

/-- CFLUSH, CINV, the watch instructions, ACQR, RELR and LADQ act on the line that they name. -/
def Obligations.LinePathsAndWatches : Prop := LinePaths ∧ WatchStatuses

/-- SCNT reads the stream counters once the older trail instructions have counted, and waits before (R136); PFETCH changes no register and
never traps (R83, R134). -/
def Sys2Proof.Claims.CountersAndPrefetch : Prop :=
  (∀ (s : State) (t : Thread) (x : ScntT), Runs s t x.g → (t.trailQ.filter fun e => e.no < s.cur.no) = [] →
    exec (.scnt x) s = .next (s.setCur (t.wg x.d (if x.all then t.counters else
      BitVec.ofNat 64 (t.ops.countP fun o => o.stream = some x.s))))) ∧
  (∀ (s : State) (t : Thread) (x : PfM), Runs s t x.g → t.cons = none →
    ∃ s', exec (.pfetch x) s = .next s' ∧ s'.curT? = some t)

/-- Accesses by virtual address perform through the L1; SCNT and PFETCH. -/
def Obligations.AddressedAccessesAndCounters : Prop := AddressedAccesses ∧ CountersAndPrefetch

/-- What the L1 holds in M is what a load of the sector returns, and a store to it leaves its bytes there (R94, R107). -/
def Sys2Proof.Claims.StoreThenLoad : Prop :=
  ∀ (s s' : State) (w : Who) (sec : Nat) (x : L1Sec) (d : V512) (mask : BitVec 64) (ex : Bool), s.l1 w.core sec = some x → x.st = .m → x.bad = none →
    s' = s.l1Put w sec d mask → (∀ r ∈ (s.part? w.p).elim [] (·.readers), r.name ≠ sec / 4) → (s.entry w.p (sec / 4)).tu = false →
    (s.part? w.p).elim [] (·.ladings) = [] →
    (∃ v, s'.l1Read w sec ex = .ok v s' ∧ ∀ j < 512, v.getLsbD j = if mask.getLsbD (j / 8) then d.getLsbD j else x.data.getLsbD j) ∧
    (∀ sec', sec' ≠ sec → s'.l1 w.core sec' = s.l1 w.core sec') ∧ s'.mem = s.mem

/-- What is written to a scratchpad or an L1 sector reads back, and no other byte changes. -/
def Obligations.StoredBytesReadBack : Prop := ScratchpadWrite ∧ StoreThenLoad

/-! ### Copies, channels and LMCFG (R154 to R171) -/

/-- The operands of a copy instruction (R163, R164): a destination core, granule or element alignment, and a length within the largest
scratchpad; the source in the own scratchpad. -/
def Sys2Proof.Claims.CopyOk (s : State) (t : Thread) (am : SrcMode) (ga gb gc : Word) (d size doff : Nat) (seq : Bool) : Prop :=
  am = .own ∧ s.named t gc = some d ∧ LocalOk s ga.toNat gb.toNat ∧ gb.toNat ≤ 196608 ∧ gb.toNat % size = 0 ∧ ga.toNat % size = 0 ∧
    doff = (gc.extractLsb' 20 18).toNat ∧ doff % size = 0 ∧ gc.extractLsb' 38 10 = 0 ∧ gc.extractLsb' 18 2 = 0 ∧
    (seq = true ∨ gc.extractLsb' 48 16 = 0)

/-- SEND cuts its source into packets that each lie in one granule of the channel (R155), SENDADD, SENDMIN and SENDMAX into updates of one
element, or one of all elements when sequenced (R160, R161). The operation counts in its stream until its answers are in. -/
def Obligations.CopiesLeave : Prop :=
  ∀ (s : State) (t : Thread) (d doff : Nat), Quiet t →
    (∀ x : SendC, Runs s t x.g → CopyOk s t x.am (t.rg x.a) (t.rg x.b) (t.rg x.c) d 1 doff false → doff % 64 = 0 →
      ∃ (s' : State) (es : List EvPacket) (t' : Thread) (o : Op), exec (.send x) s = .next s' ∧
        s'.agenda = s.agenda ++ es.map .packetArrival ++ [.sendComplete ⟨s.cur.core, s.cur.slot, t.nextOp⟩] ∧
        s'.curT? = some t' ∧ t'.ops = [o] ∧ o.stream = some x.str.stream ∧ t'.g = t.g ∧ s'.mem = s.mem ∧ s'.cores = s.cores ∧
        es.flatMap (·.bytes) = localBytes s (t.rg x.a).toNat (t.rg x.b).toNat ∧
        ∀ e ∈ es, e.dst = d ∧ e.chan = x.chan ∧ doff ≤ e.off ∧ 0 < e.bytes.length ∧ e.off % 64 + e.bytes.length ≤ 64 ∧
          e.bytes = ((localBytes s (t.rg x.a).toNat (t.rg x.b).toNat).drop (e.off - doff)).take e.bytes.length) ∧
    (∀ (i : Instr) (x : SendA) (op : ArithOp), (i = .sendadd x ∧ op = .add ∨ i = .sendmin x ∧ op = .min ∨ i = .sendmax x ∧ op = .max) →
      Runs s t x.g → CopyOk s t x.am (t.rg x.a) (t.rg x.b) (t.rg x.c) d (elemBytes x.ty) doff x.seq →
      ∃ (s' : State) (es : List EvUpdate) (t' : Thread) (o : Op), exec i s = .next s' ∧
        s'.agenda = s.agenda ++ es.map .updateArrival ++ [.sendComplete ⟨s.cur.core, s.cur.slot, t.nextOp⟩] ∧
        s'.curT? = some t' ∧ t'.ops = [o] ∧ o.stream = some x.str.stream ∧ t'.g = t.g ∧ s'.mem = s.mem ∧ s'.cores = s.cores ∧
        (∀ e ∈ es, e.dst = d ∧ e.chan = x.chan ∧ e.op = op ∧ e.ty = x.ty ∧ e.m = x.m) ∧
        es.flatMap (·.elems) = (List.range ((t.rg x.b).toNat / elemBytes x.ty)).map (fun k => BitVec.ofNat 64
          (memNat (s.core s.cur.core).sp ((t.rg x.a).toNat + elemBytes x.ty * k) (elemBytes x.ty))) ∧
        (x.seq = false → ∀ k < es.length, (es.map (·.off))[k]? = some (doff + elemBytes x.ty * k) ∧ (es.map (·.elems.length))[k]? = some 1) ∧
        (x.seq = true → es.length ≤ 1 ∧ ∀ e ∈ es, e.seq = some ((t.rg x.c).extractLsb' 48 16) ∧ e.off = doff))

/-- The values that the channel instructions write and what becomes of the channel (R166 to R169). -/
def Sys2Proof.Claims.ChannelControl : Prop :=
  ∀ (s : State) (t : Thread), Quiet t →
    (∀ (x : ChopenC) (base len : Nat), Runs s t x.g → base = (t.rg x.a).toNat → len = (t.rg x.b).toNat →
      ((base % 64 ≠ 0 ∨ len % 64 ≠ 0 ∨ len = 0 ∨ (s.core s.cur.core).spsz < base + len) →
        exec (.chopen x) s = .next (s.setCur ((counted s t x.str).wg x.d 7))) ∧
      (base % 64 = 0 → len % 64 = 0 → len ≠ 0 → base + len ≤ (s.core s.cur.core).spsz → (s.chan s.cur.core x.chan).isOpen = true →
        exec (.chopen x) s = .next (s.setCur ((counted s t x.str).wg x.d 9))) ∧
      (base % 64 = 0 → len % 64 = 0 → len ≠ 0 → base + len ≤ (s.core s.cur.core).spsz → (s.chan s.cur.core x.chan).isOpen = false →
        (∀ y ∈ (s.core s.cur.core).chans.toList, y.isOpen = true → y.base + y.len ≤ base ∨ base + len ≤ y.base) →
        exec (.chopen x) s = .next (((s.setCur (counted s t x.str)).setChan s.cur.core x.chan
          { seqnext := 0, gen := (s.chan s.cur.core x.chan).gen + 1, arith := x.arith, isOpen := true, len := len, wm := if x.arith then len else 0,
            base := base, arrived := 0, region := t.region }).modCur fun t => t.wg x.d 0))) ∧
    (∀ x : ChcloseC, Runs s t x.g →
      ((s.chan s.cur.core x.chan).isOpen = false → exec (.chclose x) s = .next (s.setCur ((counted s t x.str).wg x.d 6))) ∧
      ((s.chan s.cur.core x.chan).isOpen = true →
        ∃ s', exec (.chclose x) s = .next s' ∧ (s'.chan s.cur.core x.chan) = { s.chan s.cur.core x.chan with isOpen := false } ∧
          (s'.core s.cur.core).hold = (s.core s.cur.core).hold.filter fun u => u.chan ≠ x.chan)) ∧
    (∀ x : ChwmC, Runs s t x.g → x.setwm = false → x.setseq = false →
      exec (.chwm x) s = .next (s.setCur ((counted s t x.str).wg x.d (Channel.word (s.chan s.cur.core x.chan) false)))) ∧
    (∀ x : ChwmC, Runs s t x.g → x.setwm = true → ((t.rg x.a).toNat % 64 ≠ 0 ∨ (s.chan s.cur.core x.chan).len < (t.rg x.a).toNat ∨
        (s.chan s.cur.core x.chan).isOpen = false ∨ (s.chan s.cur.core x.chan).arith = true) →
      exec (.chwm x) s = .next (s.setCur ((counted s t x.str).wg x.d (Channel.word (s.chan s.cur.core x.chan) true))))

/-- A packet that its open channel has room for is written at the channel's base, and its granule counts as arrived; one for a closed or
arithmetic channel, or beyond its length, is refused (R155, R156, R159). -/
def Sys2Proof.Claims.PacketAtItsChannel : Prop :=
  ∀ (s : State) (x : EvPacket), s.guestLcn x.region x.lcn = false →
    (((s.chan x.dst x.chan).isOpen = false ∨ (s.chan x.dst x.chan).arith = true ∨ (s.chan x.dst x.chan).len < x.off + x.bytes.length) →
      ∃ s', exec (.packetArrival x) s = .next s' ∧ s'.cores = s.cores ∧ s'.mem = s.mem ∧ s'.agenda = s.agenda ++ [.sendComplete x.src]) ∧
    ((s.chan x.dst x.chan).isOpen = true → (s.chan x.dst x.chan).arith = false → x.off + x.bytes.length ≤ (s.chan x.dst x.chan).len →
      s.spHeld x.dst ((s.chan x.dst x.chan).base + x.off) x.bytes.length = false → x.off / 64 * 64 < (s.chan x.dst x.chan).wm + 8192 →
      ∃ s', exec (.packetArrival x) s = .next s' ∧
        memBytes (s'.core x.dst).sp ((s.chan x.dst x.chan).base + x.off) x.bytes.length = x.bytes ∧
        (s.chan x.dst x.chan).wm ≤ (s'.chan x.dst x.chan).wm) ∧
    exec (.packetRetry x) s = .next (s.push [.packetArrival x])

/-- LMCFG: refused without the region's permission, in a buffered thread, or with a channel in what would leave; otherwise the split
changes and a scratchpad that shrinks loses its last bytes (R171, R150). -/
def Sys2Proof.Claims.LocalMemorySplit : Prop :=
  ∀ (s : State) (t : Thread) (x : LmcfgT) (r : Region), Runs s t x.g → s.region? t.region = some r →
    (t.buffered = true → exec (.lmcfg x) s = .next (s.setCur (t.wg x.d 8))) ∧
    (t.buffered = false → r.lmperm = false → exec (.lmcfg x) s = .next (s.setCur (t.wg x.d 10))) ∧
    (t.buffered = false → r.lmperm = true → x.code = (s.core s.cur.core).l1sz → exec (.lmcfg x) s =
      .next ((s.modCore s.cur.core fun y => { y with shrink := none }).setCur (t.wg x.d 0))) ∧
    (t.buffered = false → r.lmperm = true → (s.core s.cur.core).l1sz.toNat < x.code.toNat →
      (∀ y ∈ (s.core s.cur.core).chans.toList, y.isOpen = false) → (∀ e ∈ s.threads, e.2.ops = []) →
      (∀ e ∈ s.agenda ++ s.later, ∀ y, e ≠ .remoteStoreArrival y) →
      ∃ s', exec (.lmcfg x) s = .next s' ∧ s'.curT? = some (t.wg x.d 0) ∧ (s'.core s.cur.core).l1sz = x.code ∧
        ∀ a, memByte (s'.core s.cur.core).sp a =
          if a < (160 - 32 * x.code.toNat) * 1024 then memByte (s.core s.cur.core).sp a else 0)

/-- CHOPEN, CHCLOSE, CHWM and LMCFG: their statuses and what becomes of the channel and the split. -/
def Obligations.ChannelsAndLocalMemorySplit : Prop := ChannelControl ∧ LocalMemorySplit

/-! ### Messages (R300 to R302) -/

/-- A message instruction in a quiet direct thread sends its six registers to the inbox of its core, with the header of R284. -/
def Obligations.MessagesLeave : Prop :=
  ∀ (s : State) (t : Thread) (r : Region), Quiet t → s.region? t.region = some r →
    (∀ (i : Instr) (str : Str) (g : Guard) (a : GReg) (core post kind : Nat) (ts : Option Nat),
      ((∃ b, i = .sendm ⟨g, str, a, b⟩ ∧ kind = 0 ∧ ts = none ∧ post = ((t.rg b).extractLsb' 18 6).toNat ∧ (t.rg b).extractLsb' 24 40 = 0 ∧
          s.origOf r ((t.rg b).extractLsb' 0 18).toNat = some core) ∨
       (∃ b, i = .spawn ⟨g, str, a, b⟩ ∧ kind = 1 ∧ ts = none ∧ post = (t.rg b).toNat ∧ post < 64 ∧ core = (t.home s.cur.core s.cur.slot).1) ∨
       (∃ b c, i = .spawnt ⟨g, str, a, b, c⟩ ∧ kind = 2 ∧ ts = some (t.rg c).toNat ∧ (t.rg c).toNat < 2 ^ 48 ∧ post = (t.rg b).toNat ∧ post < 64 ∧
          core = (t.home s.cur.core s.cur.slot).1)) →
      Runs s t g → ∃ (s' : State) (m : EvMsg) (t' : Thread) (o : Op), exec i s = .next s' ∧ s'.agenda = s.agenda ++ [.messageArrival m] ∧
        m.core = core ∧ m.src = some ⟨s.cur.core, s.cur.slot, t.nextOp⟩ ∧ m.msg.post = post ∧ m.msg.kind = kind ∧ m.msg.srcTid = t.tid ∧
        m.msg.tsv = ts.isSome ∧ m.msg.ts = ts.getD 0 ∧ (∀ k < 6, m.msg.pay.extractLsb' (64 * k) 64 = t.rg (a + BitVec.ofNat 6 k)) ∧
        s'.curT? = some t' ∧ t'.ops = [o] ∧ o.stream = some str.stream ∧ t'.g = t.g ∧ s'.mem = s.mem)

/-! ### Tensor instructions and manifest registers (R228 to R241) -/

/-- A tensor instruction with the manifests that it writes, reads and indexes with, its rounding, and what relates the manifests. -/
def Sys2Proof.Claims.tensor : Instr → Option (Guard × Str × Rm × Reg3 × List (Reg3 × Bool) × Bool)
  | .mew x => some (x.g, x.str, x.rm, x.d, (x.a, false) :: (if x.op.isBinary then [(x.b, false)] else []), false)
  | .mfma x => some (x.g, x.str, x.rm, x.d, [(x.a, false), (x.b, false), (x.c, false)], false)
  | .mred x => some (x.g, x.str, x.rm, x.d, [(x.a, false)], false)
  | .mcvt x => some (x.g, x.str, x.rm, x.d, [(x.a, false)], true)
  | .mgath x => some (x.g, x.str, x.rm, x.d, [(x.a, false), (x.b, true)], false)
  | .mscat x => some (x.g, x.str, x.rm, x.d, [(x.a, false), (x.b, true)], false)
  | .mcopy x => some (x.g, x.str, .rne, x.d, [(x.a, false)], false)
  | _ => none

/-- The manifests of a tensor instruction agree (R236 to R240). -/
def Sys2Proof.Claims.agree (t : Thread) : Instr → Bool
  | .mew x => extEq (t.rm x.a) (t.rm x.d) && (!x.op.isBinary || extEq (t.rm x.b) (t.rm x.d))
  | .mfma x => extEq (t.rm x.a) (t.rm x.d) && extEq (t.rm x.b) (t.rm x.d) && extEq (t.rm x.c) (t.rm x.d)
  | .mred x => redShape (t.rm x.d) (t.rm x.a) x.dims
  | .mcvt x => extEq (t.rm x.a) (t.rm x.d)
  | .mgath x => extEq (t.rm x.b) (t.rm x.d) && extTail (t.rm x.a) (t.rm x.d)
  | .mscat x => extEq (t.rm x.b) (t.rm x.a) && extTail (t.rm x.a) (t.rm x.d)
  | .mcopy x => (Manif.ofBits (t.rm x.a)).ty == (Manif.ofBits (t.rm x.d)).ty && extEq (t.rm x.a) (t.rm x.d)
  | _ => false

/-- A tensor instruction whose checks pass processes its elements in their order; when the last is done the flags of all go to RCTL and
its operation completes (R231, R235, R241). -/
def Sys2Proof.Claims.TensorInstructionsComplete : Prop :=
  ∀ (i : Instr) (s s1 s2 : State) (t : Thread) (g : Guard) (str : Str) (rm : Rm) (d : Reg3) (srcs : List (Reg3 × Bool)) (scaled : Bool)
    (x x' : TensorOp) (o : Op), tensor i = some (g, str, rm, d, srcs, scaled) → Runs s t g → Quiet t → t.st ≠ .stopped → s.cur.instr = i →
    (s.core s.cur.core).shrink = none →
    agree t i = true → firstBad s s.cur.core t.rf (⟨t.rm d, true, false, scaled⟩ :: srcs.map fun y => ⟨t.rm y.1, false, y.2, false⟩) = none →
    x = ⟨i, t.rm d, ((srcs.map fun y => t.rm y.1)[0]?).getD 0, ((srcs.map fun y => t.rm y.1)[1]?).getD 0, ((srcs.map fun y => t.rm y.1)[2]?).getD 0,
      t.fmt, some (s.core s.cur.core).lut, t.fixRm rm, 0, 0, 0⟩ →
    o = s.newOp t (some str.stream) str.pmask (s.effScope s.cur.core str.scope
      ((t.rm d :: srcs.map fun y => t.rm y.1).foldl (fun a m => wider a (spaceFloor m)) 0)) [] (.tensor { x with lut := none }) →
    s1 = s.setCur ((counted s t str).addOp o) →
    tensorLoop ⟨s.cur.core, s.cur.slot, (counted s t str).addOp o, o.scope, x, ⟨false, s.cur.no, some (str.stream, t.nextOp)⟩⟩ x.total x s1 =
      (.done, x', s2) →
    exec i s = .next ((s2.modThread s.cur.core s.cur.slot fun t => { t with rctl := t.rctl ||| (x'.fl.setWidth 64 <<< 16) }).finishOp
      s.cur.core s.cur.slot t.nextOp)

/-- A manifest that R231 refuses is the manifest trap, cause 0x1F, with the condition's subcode, and nothing else of the instruction. -/
def Sys2Proof.Claims.TensorManifestTrap : Prop :=
  ∀ (i : Instr) (s : State) (t : Thread) (g : Guard) (str : Str) (rm : Rm) (d : Reg3) (srcs : List (Reg3 × Bool)) (scaled : Bool) (n : Nat),
    tensor i = some (g, str, rm, d, srcs, scaled) → Runs s t g →
    firstBad s s.cur.core t.rf (⟨t.rm d, true, false, scaled⟩ :: srcs.map fun y => ⟨t.rm y.1, false, y.2, false⟩) = some n → n ≠ 8 →
    exec i s = trapAt s 0x1F n 0

/-- MSET writes one field group of a manifest register and keeps the others; FMTSET and FMTGET move a descriptor (R233, R234). -/
def Sys2Proof.Claims.ManifestRegisters : Prop :=
  (∀ (s : State) (t : Thread) (x : MsetN), Runs s t x.g →
    ∃ v, exec (.mset x) s = .next (s.setCur (t.wm x.d v)) ∧
      ∀ j < 512, v.getLsbD j = (match x.f with
        | .base => if j < 64 then (t.rg x.a).getLsbD j else (t.rm x.d).getLsbD j
        | .sbase => if 64 ≤ j ∧ j < 128 then (t.rg x.a).getLsbD (j - 64) else (t.rm x.d).getLsbD j
        | .dim k => if 128 + 64 * k.toNat ≤ j ∧ j < 152 + 64 * k.toNat then (t.rg x.a).getLsbD (j - (128 + 64 * k.toNat))
            else if 152 + 64 * k.toNat ≤ j ∧ j < 192 + 64 * k.toNat then (t.rg x.b).getLsbD (j - (152 + 64 * k.toNat)) else (t.rm x.d).getLsbD j
        | .ctl => if 384 ≤ j then decide (j < 404) && (t.rg x.a).getLsbD (j - 384) else (t.rm x.d).getLsbD j)) ∧
  (∀ (s : State) (t : Thread) (x : FmtsetA), Runs s t x.g → exec (.fmtset x) s = .next (s.setCur (t.wf x.d ((t.rg x.a).extractLsb' 0 32)))) ∧
  (∀ (s : State) (t : Thread) (x : FmtgetA), Runs s t x.g → exec (.fmtget x) s = .next (s.setCur (t.wg x.d (BitVec.ofNat 64 (t.rf x.a).toNat))))

/-- Tensor instructions process their elements, or take the manifest trap; MSET, FMTSET and FMTGET. -/
def Obligations.TensorInstructions : Prop := TensorInstructionsComplete ∧ TensorManifestTrap ∧ ManifestRegisters

/-! ### The matrix engine (R242 to R280) -/

/-- The executing thread's core has an engine (R262). -/
def Sys2Proof.Claims.HasEngine (s : State) : Prop := s.engineEnabled (clusterOf s.cur.core) = true

/-- The cluster and the side that the executing core uses. -/
def Sys2Proof.Claims.here (s : State) : Nat × Bool := (clusterOf s.cur.core, s.sideOf s.cur.core)

/-- ACFG, AGET, AFREE and AZERO: a legal shape makes a view of zeros, an illegal one answers 7; AGET reads it; AFREE and AZERO clear it, and
AZERO of an unconfigured view traps with cause 0x29 (R277 to R279). -/
def Sys2Proof.Claims.AccumulatorViews : Prop :=
  ∀ (s : State) (t : Thread), HasEngine s →
    (∀ (x : AcfgX) (sh : BitVec 16) (rows cols kind : Nat), Runs s t x.g → sh = (t.rg x.a).setWidth 16 &&& 0x3FFF → rows = (t.rg x.a).toNat % 64 →
      cols = (t.rg x.a).toNat / 64 % 64 → kind = (t.rg x.a).toNat / 4096 % 4 →
      ((rows = 0 ∨ 32 < rows ∨ cols = 0 ∨ 32 < cols ∨ kind = 3 ∨ kind = 2 ∧ 16 < rows) →
        exec (.acfg x) s = .next (s.setCur (t.wg x.d (BitVec.ofNat 64 (7 * 2 ^ 56))))) ∧
      (1 ≤ rows → rows ≤ 32 → 1 ≤ cols → cols ≤ 32 → kind ≤ 2 → (kind = 2 → rows ≤ 16) →
        exec (.acfg x) s = .next (s.setCur (((t.setView x.c ⟨.zero, false, []⟩).setShape x.c sh).wg x.d 0)))) ∧
    (∀ x : AgetX, Runs s t x.g → t.shape x.a = 0 → exec (.aget x) s = .next (s.setCur (t.wg x.d 0))) ∧
    (∀ x : AgetX, Runs s t x.g → shapeRows (t.shape x.a) ≠ 0 →
      ∃ v, exec (.aget x) s = .next (s.setCur (t.wg x.d v)) ∧ v.extractLsb' 0 16 = t.shape x.a ∧ v.getLsbD 18 = (t.view x.a).ovf) ∧
    (∀ x : AviewX, Runs s t x.g → exec (.afree x) s = .next (s.setCur ((t.setView x.d ⟨.zero, false, []⟩).setShape x.d 0))) ∧
    (∀ x : AviewX, Runs s t x.g → shapeRows (t.shape x.d) ≠ 0 →
      exec (.azero x) s = .next (s.setCur ((t.setView x.d ⟨.zero, false, []⟩).setShape x.d (t.shape x.d &&& 0xBFFF)))) ∧
    (∀ x : AviewX, Runs s t x.g → shapeRows (t.shape x.d) = 0 → exec (.azero x) s = trapAt s 0x29 0 0)

/-- AROWI, ACOLI, AROWO and ACOLO move a row or a column between a view that holds a tile and a list of vector registers (R280). -/
def Sys2Proof.Claims.ViewMoves : Prop :=
  ∀ (s : State) (t : Thread) (b rows cols n : Nat) (bk : Bool) (a : AReg), HasEngine s → (t.view a).place = .tile n bk →
    rows = shapeRows (t.shape a) → cols = shapeCols (t.shape a) → b = kindBytes (shapeKind (t.shape a)) → (t.view a).elems.length = rows * cols →
    rows ≠ 0 →
    (∀ (g : Guard) (f : VReg) (i : GReg), Runs s t g → (t.rg i).toNat < rows →
      ∃ t', exec (.arowi ⟨g, a, f, i⟩) s = .next (s.setCur t') ∧ t'.g = t.g ∧ t'.v = t.v ∧ ∀ r < rows, ∀ c < cols, t'.elem a r c =
        if r = (t.rg i).toNat then BitVec.ofNat 64 (lane (8 * b) (t.rv (f + BitVec.ofNat 5 (c / (64 / b)))) (c % (64 / b))) else t.elem a r c) ∧
    (∀ (g : Guard) (f : VReg) (i : GReg), Runs s t g → (t.rg i).toNat < cols →
      ∃ t', exec (.acoli ⟨g, a, f, i⟩) s = .next (s.setCur t') ∧ t'.g = t.g ∧ t'.v = t.v ∧ ∀ r < rows, ∀ c < cols, t'.elem a r c =
        if c = (t.rg i).toNat then BitVec.ofNat 64 (lane (8 * b) (t.rv (f + BitVec.ofNat 5 (r / (64 / b)))) (r % (64 / b))) else t.elem a r c) ∧
    (∀ (g : Guard) (f : VReg) (i : GReg), Runs s t g → (t.rg i).toNat < rows →
      ∃ t', exec (.arowo ⟨g, f, a, i⟩) s = .next (s.setCur t') ∧ t'.g = t.g ∧ t'.views = t.views ∧ ∀ c < cols,
        lane (8 * b) (t'.rv (f + BitVec.ofNat 5 (c / (64 / b)))) (c % (64 / b)) = (t.elem a (t.rg i).toNat c).toNat % 2 ^ (8 * b)) ∧
    (∀ (g : Guard) (f : VReg) (i : GReg), Runs s t g → (t.rg i).toNat < cols →
      ∃ t', exec (.acolo ⟨g, f, a, i⟩) s = .next (s.setCur t') ∧ t'.g = t.g ∧ t'.views = t.views ∧ ∀ r < rows,
        lane (8 * b) (t'.rv (f + BitVec.ofNat 5 (r / (64 / b)))) (r % (64 / b)) = (t.elem a r (t.rg i).toNat).toNat % 2 ^ (8 * b))

/-- Accumulator views: ACFG, AGET, AFREE, AZERO, AROWI, AROWO, ACOLI and ACOLO. -/
def Obligations.AccumulatorViewsAndMoves : Prop := AccumulatorViews ∧ ViewMoves

/-- XZERO clears the counters of its mask; XSTAT reads a counter, the split, the progress word, the free slots and the free tiles; XQRY
reads the entry of a handle of its own tenant and side (R267, R275, R276). -/
def Sys2Proof.Claims.EngineStatus : Prop :=
  ∀ (s : State) (t : Thread), HasEngine s →
    (∀ x : GSrc, Runs s t x.g → ∃ s', exec (.xzero x) s = .next s' ∧ s'.threads = s.threads ∧ s'.mem = s.mem ∧ ∀ i : Fin 8,
      (s'.side (here s).1 (here s).2).counters[i] = if (t.rg x.a).getLsbD i.val then 0 else (s.side (here s).1 (here s).2).counters[i]) ∧
    (∀ x : XstatX, Runs s t x.g →
      (∀ i : Fin 8, x.n.toNat = i.val → exec (.xstat x) s =
        .next (s.setCur (t.wg x.d (BitVec.ofNat 64 (s.side (here s).1 (here s).2).counters[i].toNat)))) ∧
      (x.n = 8 → exec (.xstat x) s = .next (s.setCur (t.wg x.d (s.cluster (here s).1).cfg))) ∧
      (x.n = 9 → exec (.xstat x) s = .next (s.setCur (t.wg x.d (BitVec.ofNat 64 (s.side (here s).1 (here s).2).progress.toNat)))) ∧
      (x.n = 10 → exec (.xstat x) s = .next (s.setCur (t.wg x.d (BitVec.ofNat 64 (s.freeSlots (here s).1 (here s).2))))) ∧
      (x.n = 11 → exec (.xstat x) s = .next (s.setCur (t.wg x.d (BitVec.ofNat 64 (s.freeTiles (here s).1 (here s).2).length))))) ∧
    (∀ (x : XqryX) (r : Residency), Runs s t x.g → s.resid? (here s).1 (false, ((t.rg x.a).extractLsb' 1 11).toNat) = some r →
      r.eng = ((t.rg x.a).extractLsb' 12 14).toNat → r.ttag = s.tagOf t.region → (t.rg x.a).getLsbD 0 = (here s).2 →
      ∃ v, exec (.xqry x) s = .next (s.setCur (t.wv x.d v)) ∧ v.extractLsb' 0 3 = BitVec.ofNat 3 r.st.code ∧ v.getLsbD 3 = r.side ∧
        v.getLsbD 14 = r.pin ∧ v.extractLsb' 16 12 = BitVec.ofNat 12 r.tiles ∧ v.extractLsb' 32 6 = r.gen ∧ v.extractLsb' 48 12 = BitVec.ofNat 12 r.slots)

/-- The handle in gA names an entry that the thread's region may act on (R263). -/
def Sys2Proof.Claims.Handle (s : State) (t : Thread) (x : XhX) (key : Bool × Nat) (r : Residency) : Prop :=
  HasEngine s ∧ Runs s t x.g ∧ Quiet t ∧ s.lookup s.cur.core t (t.rg x.a) = .ok (key, r) ∧ (s.ancestors r.owner).contains t.region = true

/-- XPIN and XUNPIN set and clear the pin within the quota, XREVK revokes an entry that no pass uses, XLOAD begins a load (R250, R265, R266). -/
def Sys2Proof.Claims.ResidencyControl : Prop :=
  ∀ (s : State) (t : Thread) (x : XhX) (key : Bool × Nat) (r : Residency), Handle s t x key r →
    (r.pin = true → exec (.xpin x) s = .next (s.setCur ((counted s t x.str).wg x.d (BitVec.ofNat 64 (2 ^ 56))))) ∧
    (r.pin = false → s.pinCharge (here s).1 r.side r.owner + r.slots ≤ s.quotaOf r.owner → r.st = .resident →
      exec (.xpin x) s = .next (((s.setCur (counted s t x.str)).setResid (here s).1 key { r with pin := true, st := .pinned }).modCur
        fun t => t.wg x.d 0)) ∧
    (r.pin = false → s.quotaOf r.owner < s.pinCharge (here s).1 r.side r.owner + r.slots →
      exec (.xpin x) s = .next (s.setCur ((counted s t x.str).wg x.d (BitVec.ofNat 64 (11 * 2 ^ 56))))) ∧
    (r.pin = true → r.st = .pinned →
      exec (.xunpin x) s = .next (((s.setCur (counted s t x.str)).setResid (here s).1 key { r with pin := false, st := .resident }).modCur
        fun t => t.wg x.d 0)) ∧
    (r.pin = false → exec (.xunpin x) s = .next (s.setCur ((counted s t x.str).wg x.d (BitVec.ofNat 64 (2 ^ 56))))) ∧
    (s.resInUse (here s).1 key = false → s.resid? (here s).1 key = some r → r.loader = none →
      ∃ s' r' t', exec (.xrevk x) s = .next s' ∧ s'.resid? (here s).1 key = some r' ∧ r'.st = .revoked ∧ r'.held = false ∧
        s'.curT? = some t' ∧ t'.rg x.d = 0) ∧
    (r.st = .loading → exec (.xload x) s = .next (s.setCur ((counted s t x.str).wg x.d (BitVec.ofNat 64 (9 * 2 ^ 56))))) ∧
    (r.st ≠ .loading → r.held = true → s.resid? (here s).1 key = some r →
      ∃ s' r' t' o, exec (.xload x) s = .next s' ∧ s'.resid? (here s).1 key = some r' ∧ r'.st = .loading ∧
        s'.curT? = some t' ∧ t'.rg x.d = 0 ∧ t'.ops = [o] ∧ o.stream = some x.str.stream)

/-- XZERO, XSTAT, XQRY, XPIN, XUNPIN, XREVK and XLOAD. -/
def Obligations.EngineStatusAndResidencies : Prop := EngineStatus ∧ ResidencyControl

/-- XRES whose decision finds an entry delivers its handle and counts the load (R264); operands that R264 excludes answer 7. -/
def Sys2Proof.Claims.ResidencyCreation : Prop :=
  ∀ (s : State) (t : Thread) (x : XresX), HasEngine s → Runs s t x.g → Quiet t →
    (((t.rg x.b).toNat = 0 ∨ 2048 < (t.rg x.b).toNat ∨ (t.rg x.a).toNat % 64 ≠ 0) →
      exec (.xres x) s = .next (s.setCur ((counted s t x.str).wg x.d (BitVec.ofNat 64 (7 * 2 ^ 56))))) ∧
    (∀ (pa room cont : Nat) (sh : Bool) (fdesc : BitVec 32) (s1 s2 s3 : State) (o : Op) (key : Bool × Nat) (r : Residency) (t3 : Thread),
      1 ≤ (t.rg x.b).toNat → (t.rg x.b).toNat ≤ 2048 → (t.rg x.a).toNat % 64 = 0 → x.skind ≠ 3 → (x.skind = 0 ∨ ElemType.scales x.ty = true) →
      fdesc = (match x.ty with | .fmt y => t.rf y | _ => 0) → s.translateR s.cur.core t.region (t.rg x.a) .pathR = (.ok pa sh room, s1) →
      s1.curT? = some t → s1.cur = s.cur → s1.xresFit s.cur.core t.region x.ty x.skind (t.rg x.a) (t.rg x.b).toNat fdesc = .ok cont →
      o = s.newOp t (some x.str.stream) x.str.pmask (s.effScope s.cur.core x.str.scope 0) [] (.res x.d (.xres x.ty x.skind x.pin (t.rg x.a) (t.rg x.b) fdesc)) →
      s2 = (s1.setCur (counted s1 t x.str)).enterOp o →
      s2.xres s.cur.core ((counted s1 t x.str).addOp o) x.ty x.skind x.pin (t.rg x.a) (t.rg x.b).toNat fdesc (me s t) = .taken key r s3 →
      s3.curT? = some t3 → s3.cur = s.cur →
      ∃ s' t', exec (.xres x) s = .next s' ∧ s'.curT? = some t' ∧ t'.rg x.d = (if x.d = 0 then 0 else BitVec.ofNat 64 (r.handle key.2)))

/-- XMM and XACC whose checks pass and whose edges are satisfied run their pass, XMM from zeros; a form with a drain manifest enters its drain as
a second operation (R268 to R274). -/
def Obligations.PassesRun : Prop :=
  ∀ (acc : Bool) (s s1 s2 : State) (t t1 : Thread) (x : XmmX) (m m1 n : MatOp) (y : Pass) (o : Op), HasEngine s → Runs s t x.g → Quiet t →
    (s.core s.cur.core).shrink = none →
    m = ⟨acc, x.d, t.rm x.a, x.drain.map fun d => (t.rm d.1, d.2), none, t.rg x.b, t.fmt, none, none, 0, 0, 0, x.str.stream, none⟩ →
    s.passCheck s.cur.core t m = .ok y → s.passState s.cur.core s.cur.slot y = .go s1 → s1.cur = s.cur → s1.curT? = some t1 → t1.nextOp = t.nextOp → t1.ops = [] →
    m1 = { m with dop := x.drain.map fun _ => t.nextOp + 1 } →
    n = { m1 with wts := some (y.key, y.res), lut := some (s1.core s.cur.core).lut } →
    o = s.newOp t (some x.str.stream) x.str.pmask (s.effScope s.cur.core x.str.scope
      ((m.a :: m.drain.toList.map (·.1)).foldl (fun a b => wider a (spaceFloor b)) 0)) [] (.mat m1) →
    s2 = s1.setCur ((t1.countClamp (s1.clamps s.cur.core x.str.scope
      ((m.a :: m.drain.toList.map (·.1)).foldl (fun a b => wider a (spaceFloor b)) 0))).addOp o) →
    exec (if acc then .xacc x else .xmm x) s = .next (((match n.dop with
      | some d => s2.enterOp { o with id := d, kind := .drain }
      | none => s2).modCur fun t' => (if acc then t' else t'.zeroSpan y.views).modOp t.nextOp fun o => { o with kind := .mat n }).runPass
        s.cur.core s.cur.slot { o with kind := .mat n } n y y.res)

/-- The integer pass adds every product to the accumulator and keeps 32 bits (R191). -/
def Sys2Proof.Claims.IntegerPassElement : Prop :=
  ∀ (marked : Bool) (g acc : Nat) (ab : List (Val × Val)), acc < 2 ^ 32 →
    ((passElem .int marked g acc ab).1 : Int) = (acc + (ab.map fun x => Val.toInt x.1 * Val.toInt x.2).foldl (· + ·) 0) % 2 ^ 32

/-- The windowed sum of a group with one product is that product, rounded to FP32 nearest even (R189). -/
def Sys2Proof.Claims.WindowOfOneProduct : Prop :=
  ∀ (g m : Nat) (sgn : Bool) (e : Int), 8 ≤ g → g ≤ 32 → 0 < m → m < 2 ^ 22 →
    windowSum g [.fin sgn m e] = (fp32.deliver .rne false false (.fin sgn m e)).1

/-- One element of an integer pass, and of a windowed pass with one product in a group. -/
def Obligations.PassElements : Prop := IntegerPassElement ∧ WindowOfOneProduct

/-! ### Threads and the system (R281 to R319) -/

/-- SLEEP on a deadline: with the deadline passed it delivers bit 3; before, the thread sleeps and stands at the SLEEP (R304, R305). -/
def Sys2Proof.Claims.SleepOnDeadline : Prop :=
  ∀ (s : State) (t : Thread) (x : SleepT), Runs s t x.g → x.sel = 1024 →
    ((t.rg x.a).toNat ≤ s.coreTime s.cur.core → exec (.sleep x) s = .next (s.setCur (t.wg x.d 8))) ∧
    (s.coreTime s.cur.core < (t.rg x.a).toNat →
      ∃ s' t', exec (.sleep x) s = .next s' ∧ s'.curT? = some t' ∧ t'.st = .sleeping ∧ t'.g = t.g ∧ s'.mem = s.mem ∧
        (s.cur.pipe = .lead → t'.leadPc = s.cur.ipc))

/-- A wake that reaches the table of a sleeping thread ends its SLEEP, which then delivers and clears the pending masks (R296, R305). -/
def Sys2Proof.Claims.SleepOnWatches : Prop :=
  ∀ (s : State) (t : Thread) (x : SleepT) (e : WatchEntry), Runs s t x.g → x.sel = 256 → t.watch = [e] → e.pos < 8 → e.pending ≠ 0 →
    ∃ v, exec (.sleep x) s = .next (s.setCur ({ t with watch := [{ e with pending := 0 }] }.wg x.d v)) ∧ v.extractLsb' 0 4 = 1 ∧
      v.extractLsb' (16 + 4 * e.pos) 4 = e.pending

/-- END of a quiet resident thread frees its slot at once (R303, R118). -/
def Sys2Proof.Claims.EndFreesTheSlot : Prop :=
  ∀ (s : State) (t : Thread) (x : GOnly), Runs s t x.g → Quiet t → (s.part? (s.partOf s.cur.core)).elim [] (·.ladings) = [] →
    ∃ s', exec (.end_ x) s = .next s' ∧ s'.thread? s.cur.core s.cur.slot = none

/-- YIELD gives up issue for 64 cycles at most and changes no register (R307). -/
def Sys2Proof.Claims.YieldGivesUpIssue : Prop :=
  ∀ (s : State) (t : Thread) (x : GOnly), Runs s t x.g →
    exec (.yield x) s = .next (s.setCur { t with yielded := true, yieldAt := s.gt + 64 * 1000 / max 1 (s.cluster (clusterOf s.cur.core)).mhz }) ∧
    exec (.yieldExpiry ⟨s.cur.core, s.cur.slot⟩) s = .next (s.setCur { t with yielded := false })

/-- SLEEP waits or delivers, END frees the slot, YIELD gives up issue. -/
def Obligations.SleepEndAndYield : Prop := SleepOnDeadline ∧ SleepOnWatches ∧ EndFreesTheSlot ∧ YieldGivesUpIssue

/-- The system registers as MFS reads them, the two that MTS writes, and GTIME (R46, R48, R49, R52, R317, R318). -/
def Sys2Proof.Claims.SystemRegisters : Prop :=
  ∀ (s : State) (t : Thread),
    (∀ (x : MfsT) (v : Word), Runs s t x.g → t.cons = none →
      (x.r = .tid ∧ v = BitVec.ofNat 64 t.tid.toNat ∨ x.r = .rgn ∧ v = t.rgn ∨ x.r = .passb ∧ v = t.passb ∨ x.r = .trapb ∧ v = t.trapb ∨
        x.r = .fltq ∧ v = t.fltq ∨ x.r = .rctl ∧ v = t.rctl ∨ x.r = .ashape ∧ v = t.ashape ∨ x.r = .sclamp ∧ v = t.sclamp ∨ x.r = .tcyc ∧ v = t.tcyc ∨
        x.r = .lmsplit ∧ v = BitVec.ofNat 64 (s.core s.cur.core).l1sz.toNat ∨ x.r = .gt ∧ v = BitVec.ofNat 64 (s.coreTime s.cur.core) ∨
        x.r = .rsbase ∧ t.guest = none ∧ v = BitVec.ofNat 64 (s.core s.cur.core).rsbase ∨
        x.r = .lcore ∧ v = BitVec.ofNat 64 (t.tid.toNat / 2 ^ 8 % 2 ^ 18 + s.cur.core % 512 * 2 ^ 18 + s.cur.core / 512 % 512 * 2 ^ 27)) →
      exec (.mfs x) s = .next (s.setCur (t.wg x.d v))) ∧
    (∀ x : MtsT, Runs s t x.g → x.r = .sclamp → exec (.mts x) s = .next (s.setCur { t with sclamp := BitVec.ofNat 64 ((t.rg x.a).toNat % 2 ^ 32) })) ∧
    (∀ x : MtsT, Runs s t x.g → x.r = .rctl → ∃ v, exec (.mts x) s = .next (s.setCur { t with rctl := v }) ∧
      (∀ j < 5, v.getLsbD (16 + j) = (t.rctl.getLsbD (16 + j) && !(t.rg x.a).getLsbD (16 + j))) ∧
      v.toNat % 16 = (if 1 ≤ (t.rg x.a).toNat % 16 ∧ (t.rg x.a).toNat % 16 ≤ 5 then (t.rg x.a).toNat % 16 else t.rctl.toNat % 16)) ∧
    (∀ x : GDest, Runs s t x.g → s.coreTime s.cur.core < 2 ^ 63 → t.lastGt < 2 ^ 63 →
      ∃ n v, exec (.gtime x) s = .next (s.setCur ({ t with lastGt := n }.wg x.d v)) ∧ t.lastGt ≤ n ∧ s.coreTime s.cur.core ≤ n ∧ v.toNat % 2 ^ 63 = n ∧
        v.getLsbD 63 = (s.core s.cur.core).suspectTime)

/-- RGNQ reads the region's map, its attributes, the place and the number of a core, its frontier and its state (R319). -/
def Sys2Proof.Claims.RegionQuery : Prop :=
  ∀ (s : State) (t : Thread) (x : RgnqT) (r : Region), Runs s t x.g → s.region? t.region = some r →
    ∃ v, exec (.rgnq x) s = .next (s.setCur (t.wg x.d v)) ∧
      (x.sel = .cores → v.extractLsb' 0 18 = BitVec.ofNat 18 (s.mapOrig r).length ∧ v.extractLsb' 32 14 = BitVec.ofNat 14 r.cmap.length) ∧
      (x.sel = .attrs → v.extractLsb' 0 4 = BitVec.ofNat 4 r.prio ∧ v.extractLsb' 4 2 = r.emode ∧ v.getLsbD 6 = r.swmode ∧ v.getLsbD 7 = r.lmperm ∧
        v.extractLsb' 8 8 = BitVec.ofNat 8 r.slots ∧ v.extractLsb' 24 12 = BitVec.ofNat 12 r.rquota) ∧
      (∀ a, x.sel = .lcoreOf a → s.physOf r (t.rg a).toNat = none → v = BitVec.allOnes 64) ∧
      (∀ a d, x.sel = .lcoreOf a → s.physOf r (t.rg a).toNat = some d → v.extractLsb' 18 9 = BitVec.ofNat 9 (d % 512) ∧
        v.extractLsb' 27 9 = BitVec.ofNat 9 (d / 512)) ∧
      (x.sel = .frontier → v.getLsbD 63 = (r.emode != 3) ∧ (r.emode = 3 → v.extractLsb' 0 48 = BitVec.ofNat 48 r.frontier.ts)) ∧
      (x.sel = .state → v.extractLsb' 0 2 = BitVec.ofNat 2 r.rstate.code ∧ v.extractLsb' 32 32 = BitVec.ofNat 32 r.rlive)

/-- MFS, MTS, GTIME and RGNQ read and write the system registers and the region state. -/
def Obligations.SystemRegistersAndRegionQuery : Prop := SystemRegisters ∧ RegionQuery

/-- A thread-state instruction with its request and the bit of the rights that it needs (R293, R308). -/
def Sys2Proof.Claims.request (t : Thread) : Instr → Option (Guard × GReg × GReg × ThReq × Nat)
  | .thstop x => some (x.g, x.d, x.a, .stop, 0)
  | .thstart x => some (x.g, x.d, x.a, .start, 1)
  | .thrd x => some (x.g, x.d, x.a, .read (t.rg x.b), 2)
  | .thstat x => some (x.g, x.d, x.a, .stat, 2)
  | .thwr x => some (x.g, x.d, x.a, .write (t.rg x.b) (t.rg x.c), 3)
  | .thkill x => some (x.g, x.d, x.a, .kill, 4)
  | _ => none

/-- With the right in its passport and a target in the region's map, the request of a quiet direct thread leaves for the target's core;
without the right the status is 10, without a target 6; THNEW asks the named core for a thread, and for a core outside the map answers 7
(R294, R308, R309). -/
def Sys2Proof.Claims.ThreadRequests : Prop :=
  (∀ (i : Instr) (s s1 : State) (t : Thread) (g : Guard) (d a : GReg) (req : ThReq) (right core : Nat) (tr : Nat) (rights : BitVec 5) (r : Region),
    request t i = some (g, d, a, req, right) → Runs s t g → Quiet t → s.region? t.region = some r →
    s.origOf r ((t.rg a).extractLsb' 8 18).toNat = some core → s.targetRegion core ((t.rg a).extractLsb' 0 32) = some tr →
    State.rightsFrom (s.who s.cur.core s.cur.slot t) t ((t.rg a).extractLsb' 0 32) (fun anc => s.inTree tr anc) 5 t.passb 0 s = .ok (some rights) s1 →
    s1.curT? = some t → s1.cur = s.cur →
    (rights.getLsbD right = true → ∃ s' o, exec i s = .next s' ∧ s'.curT? = some (t.addOp o) ∧
      s'.agenda = s1.agenda ++ [.threadStateRequest ⟨⟨s.cur.core, s.cur.slot, t.nextOp⟩, core, (t.rg a).extractLsb' 0 32, req, t.region⟩]) ∧
    (rights.getLsbD right = false → ∃ s' t', exec i s = .next s' ∧ s'.agenda = s1.agenda ∧ s'.curT? = some t' ∧ t'.ops = [] ∧
      t'.rg d = (if d = 0 then 0 else BitVec.ofNat 64 (10 * 2 ^ 56)))) ∧
  (∀ (s : State) (t : Thread) (x : ThnewT) (r : Region), Runs s t x.g → Quiet t → s.region? t.region = some r →
    (∀ core, (t.rg x.b).toNat < 2 ^ 18 → s.origOf r (t.rg x.b).toNat = some core →
      ∃ s' o, exec (.thnew x) s = .next s' ∧ s'.curT? = some (t.addOp o) ∧ s'.agenda = s.agenda ++
        [.threadStateRequest ⟨⟨s.cur.core, s.cur.slot, t.nextOp⟩, core, 0, .create (t.rg x.a) (t.rg x.c) x.start, t.region⟩]) ∧
    (s.origOf r (t.rg x.b).toNat = none → exec (.thnew x) s = .next (s.setCur (t.wg x.d (BitVec.ofNat 64 (7 * 2 ^ 56))))))

/-- TRAP retires and its thread takes the software trap, cause 0x20, with CODE as DETAIL and its own PC (R316). -/
def Sys2Proof.Claims.SoftwareTrap : Prop :=
  ∀ (s : State) (t : Thread) (x : TrapT), Runs s t x.g →
    ∃ i : TrapInfo, exec (.trap x) s = .next (s.takeTrap s.cur.core s.cur.slot i 12 []) ∧ i.cause = 0x20 ∧ i.detail = x.code ∧ i.pc = s.cur.ipc

/-- Taking a trap (R369) in a thread of no consignment: it is stopped with the report, its registers as they were. -/
def Sys2Proof.Claims.TakingATrap : Prop :=
  ∀ (s : State) (c k : Nat) (t : Thread) (i : TrapInfo) (span : Nat) (cont : List Nat), s.thread? c k = some t → t.cons = none →
    ∃ t' x, (s.takeTrap c k i span cont).thread? c k = some t' ∧ t'.st = .stopped ∧ t'.stop = some x ∧ x.info = i ∧ t'.sleep = none ∧
      t'.g = t.g ∧ t'.v = t.v ∧ t'.p = t.p ∧ t'.m = t.m ∧ t'.q = t.q ∧ t'.fmt = t.fmt ∧ t'.rctl = t.rctl ∧ t'.leadPc = t.leadPc ∧ t'.tid = t.tid

/-- A precise trap of the executing instruction writes nothing: its thread stops with the pipe at the instruction (R360). -/
def Sys2Proof.Claims.PreciseTrap : Prop :=
  ∀ (s : State) (t : Thread) (cause : BitVec 8) (detail : Nat) (faddr : Word), s.curT? = some t → t.cons = none → s.cur.pipe = .lead →
    ∃ s' t' x, trapAt s cause detail faddr = .next s' ∧ s'.curT? = some t' ∧ t'.st = .stopped ∧ t'.stop = some x ∧ x.info.cause = cause ∧
      x.info.detail = BitVec.ofNat 16 detail ∧ x.info.pc = s.cur.ipc ∧ x.info.faddr = faddr ∧ t'.leadPc = s.cur.ipc ∧ t'.g = t.g ∧ t'.v = t.v ∧
      t'.p = t.p ∧ t'.rctl = t.rctl

/-- Taking a trap stops the thread with its report and leaves its registers. -/
def Obligations.TrapsTaken : Prop := SoftwareTrap ∧ TakingATrap ∧ PreciseTrap

/-! ### Coherence (R89 to R105) -/

/-- A sector of device memory whose line is in L2, with no open transaction, no waiting request, no clearing, no lading over it, no port's copy
(R402) and no GETX of another sector that empties its line (R91). -/
def Sys2Proof.Claims.AtRest (s : State) (p sec : Nat) : Prop :=
  (s.homeSec p sec).txn = none ∧ (s.homeSec p sec).prep = none ∧ (s.homeSec p sec).queue = [] ∧ s.lading? p (64 * sec) = none ∧
    inHost (64 * sec) = false ∧ (s.entry p (sec / 4)).inL2 = true ∧ s.portHolds p sec = none ∧ (s.entry p (sec / 4)).emptying (sec % 4) = false

/-- The home answers GETS, GETX and a WRT of a core's paths by the row of the sector's state (R95); a fifth core's GETS of a line that no core owns
makes it coarse and takes S (R91); a request from outside the partition is answered by none of them (R92). -/
def Obligations.HomeServesRequests : Prop :=
  ∀ (s : State) (c pa p sec : Nat) (e : DirEntry), p = s.partOf c → sec = pa / 64 →
    (s.reaches c pa = false → exec (.gets ⟨c, pa, none⟩) s = .next (s.deny c pa) ∧ exec (.getx ⟨c, pa, none⟩) s = .next (s.deny c pa)) ∧
    (s.reaches c pa = true → AtRest s p sec → e = s.entry p (sec / 4) →
      ((s.homeSec p sec).st = .u → e.fifth c (sec % 4) = false → ∃ s' d, exec (.gets ⟨c, pa, none⟩) s = .next s' ∧
        s'.agenda = s.agenda ++ [.data ⟨c, 64 * sec, d, if e.watched (sec % 4) || e.coarse then .s else .e⟩] ∧
        (s'.homeSec p sec).st = (if e.watched (sec % 4) || e.coarse then .s else .x)) ∧
      ((s.homeSec p sec).st = .u → e.fifth c (sec % 4) = true → (e.secs.toList.all fun h => h.st != .x && h.txn.isNone && h.prep.isNone) = true →
        ∃ s' d, exec (.gets ⟨c, pa, none⟩) s = .next s' ∧ s'.agenda = s.agenda ++ [.data ⟨c, 64 * sec, d, .s⟩] ∧
          (s'.homeSec p sec).st = .s ∧ (s'.entry p (sec / 4)).coarse = true) ∧
      ((s.homeSec p sec).st = .s → e.fifth c (sec % 4) = false → ∃ s' d, exec (.gets ⟨c, pa, none⟩) s = .next s' ∧
        s'.agenda = s.agenda ++ [.data ⟨c, 64 * sec, d, .s⟩] ∧ (s'.homeSec p sec).st = .s) ∧
      (∀ o, (s.homeSec p sec).st = .x → (e.named (sec % 4)).head? = some o → o ≠ c → e.fifth c (sec % 4) = false →
        exec (.gets ⟨c, pa, none⟩) s = .next ((s.openTxn p sec .xfs (.gets ⟨c, pa, none⟩) [o] [] false).push [.fwds ⟨o, 64 * sec, s.nextTxn p⟩])) ∧
      ((s.homeSec p sec).st = .u → e.watched (sec % 4) = false → e.coarse = false → e.fifth c (sec % 4) = false →
        ∃ s' d, exec (.getx ⟨c, pa, none⟩) s = .next s' ∧ s'.agenda.getLast? = some (.data ⟨c, 64 * sec, d, .m⟩) ∧ (s'.homeSec p sec).st = .x) ∧
      (∀ o, (s.homeSec p sec).st = .x → (e.named (sec % 4)).head? = some o → o ≠ c → e.watched (sec % 4) = false → e.fifth c (sec % 4) = false →
        exec (.getx ⟨c, pa, none⟩) s = .next ((s.openTxn p sec .xfx (.getx ⟨c, pa, none⟩) [o] [] false).push [.fwdx ⟨o, 64 * sec, s.nextTxn p⟩])) ∧
      (∀ l, (s.homeSec p sec).st = .s → e.coarse = false → e.fifth c (sec % 4) = false → (e.named (sec % 4)).filter (· ≠ c) = l → l ≠ [] →
        exec (.getx ⟨c, pa, none⟩) s = .next ((s.openTxn p sec .si (.getx ⟨c, pa, none⟩) l [] e.host).push (l.map fun o => .inv ⟨.core o, 64 * sec, false⟩))) ∧
      (∀ d m, (s.homeSec p sec).st = .u → e.named (sec % 4) = [] → e.host = false → e.coarse = false → e.tu = false → s.holders p sec = [] →
        ∃ s', exec (.wrt ⟨.path c, pa, d, m, none, none⟩) s = .next s' ∧ s'.mem = memMerge s.mem (64 * sec) d m ∧
          s'.agenda.getLast? = some (.ack ⟨.wrt c, 64 * sec⟩) ∧ (s'.homeSec p sec).st = .u))

/-- An owner's data and CLEAN answer the request that waits, a GONE that names its transaction too unless it is dirty and waits for its PUTX,
evictions of the owner free the sector, the last ACK ends an invalidation, that of a WRT goes to its L1, a fill serves the request that waits,
and a replaced line leaves L2 (R91, R93, R95, R96). -/
def Obligations.HomeTakesAnswers : Prop :=
  (∀ (s : State) (c o pa p sec no : Nat) (d : V512), p = s.partOf o → sec = pa / 64 → s.reaches o pa = true → (s.homeSec p sec).queue = [] →
    (s.entry p (sec / 4)).coarse = false → (s.entry p (sec / 4)).ptrs.length ≤ 3 →
    (s.homeSec p sec).st = .xfs → (s.homeSec p sec).txn = some ⟨.gets ⟨c, pa, none⟩, no, [o], [], false⟩ →
    (∃ s', exec (.ownerData ⟨o, pa, d⟩) s = .next s' ∧ s'.mem = memWrite s.mem (64 * sec) (sectorBytes d) ∧
      s'.agenda = s.agenda ++ [.data ⟨c, 64 * sec, memSector s'.mem (64 * sec), .s⟩] ∧ (s'.homeSec p sec).st = .s ∧ (s'.homeSec p sec).txn = none) ∧
    (∃ s', exec (.clean ⟨o, pa⟩) s = .next s' ∧ s'.mem = s.mem ∧
      s'.agenda = s.agenda ++ [.data ⟨c, 64 * sec, memSector s.mem (64 * sec), .s⟩] ∧ (s'.homeSec p sec).st = .s ∧ (s'.homeSec p sec).txn = none) ∧
    (∃ s', exec (.gone ⟨o, pa, false, no⟩) s = .next s' ∧ s'.mem = s.mem ∧
      s'.agenda = s.agenda ++ [.data ⟨c, 64 * sec, memSector s.mem (64 * sec), .s⟩] ∧ (s'.homeSec p sec).st = .s ∧ (s'.homeSec p sec).txn = none) ∧
    exec (.gone ⟨o, pa, true, no⟩) s = .next (s.modHome p sec fun h => { h with st := .xfsg }) ∧
    (∀ dirty n, n ≠ no → exec (.gone ⟨o, pa, dirty, n⟩) s = .next s)) ∧
  (∀ (s : State) (c pa p sec : Nat) (d : V512), p = s.partOf c → s.reaches c pa = true → sec = pa / 64 → (s.homeSec p sec).txn = none →
    inHost pa = false → (s.homeSec p sec).st = .x → (s.entry p (sec / 4)).named (sec % 4) = [c] →
    (∃ s', exec (.putx ⟨c, pa, d⟩) s = .next s' ∧ s'.mem = memWrite s.mem (64 * sec) (sectorBytes d) ∧
      s'.agenda = s.agenda ++ [.wback ⟨c, pa⟩] ∧ (s'.homeSec p sec).st = .u ∧ (s'.entry p (sec / 4)).named (sec % 4) = []) ∧
    (∃ s', exec (.pute ⟨c, pa⟩) s = .next s' ∧ s'.mem = s.mem ∧
      s'.agenda = s.agenda ++ [.wback ⟨c, pa⟩] ∧ (s'.homeSec p sec).st = .u ∧ (s'.entry p (sec / 4)).named (sec % 4) = [])) ∧
  (∀ (s : State) (c o pa p sec no : Nat) (host : Bool), sec = pa / 64 → (s.homeSec p sec).queue = [] → (s.homeSec p sec).st = .si →
    s.partOfPa pa = some p → (s.entry p (sec / 4)).ptrs.length ≤ 3 →
    (o < portAgent 0 → p = s.partOf o → s.reaches o pa = true → (s.homeSec p sec).txn = some ⟨.getx ⟨c, pa, none⟩, no, [o], [], false⟩ →
      ∃ s' d, exec (.ack ⟨.inv o, pa⟩) s = .next s' ∧ (s'.homeSec p sec).txn = none ∧ s'.agenda = s.agenda ++
        [.data ⟨c, 64 * sec, d, if (s.entry p (sec / 4)).watched (sec % 4) then .sw else .m⟩]) ∧
    (∀ j, (s.homeSec p sec).txn = some ⟨.getx ⟨c, pa, none⟩, no, [], [j], false⟩ →
      ∃ s' d, exec (.ack ⟨.tracts p j, pa⟩) s = .next s' ∧ (s'.homeSec p sec).txn = none ∧ s'.agenda = s.agenda ++
        [.data ⟨c, 64 * sec, d, if (s.entry p (sec / 4)).watched (sec % 4) then .sw else .m⟩]) ∧
    (∀ j k, j ≠ k → (s.homeSec p sec).txn = some ⟨.getx ⟨c, pa, none⟩, no, [], [j, k], host⟩ →
      ∃ s', exec (.ack ⟨.tracts p j, pa⟩) s = .next s' ∧ (s'.homeSec p sec).txn = some ⟨.getx ⟨c, pa, none⟩, no, [], [k], host⟩)) ∧
  (∀ (s : State) (c pa : Nat) (e : OpRef), s.reaches c pa = true →
    ((∀ x ∈ (s.core c).acks, x.1 ≠ pa / 64) → exec (.ack ⟨.wrt c, pa⟩) s = .next s) ∧
    ((s.core c).acks = [(pa / 64, e)] → s.threads = [] → s.parts.all (fun x => x.2.spilled.isEmpty) = true →
      exec (.ack ⟨.wrt c, pa⟩) s = .next (s.modCore c fun y => { y with acks := [] }))) ∧
  (∀ (s : State) (p line i c : Nat) (q : Part), s.part? p = some q → i < 4 → (∀ j < 4, j ≠ i → (s.homeSec p (4 * line + j)).st ≠ .uf) →
    (q.setLines line).length < 16 - q.cvw → (s.homeSec p (4 * line + i)).st = .uf →
    (∃ no wait tracts host, (s.homeSec p (4 * line + i)).txn = some ⟨.gets ⟨c, 64 * (4 * line + i), none⟩, no, wait, tracts, host⟩) →
    (s.homeSec p (4 * line + i)).prep = none → (s.homeSec p (4 * line + i)).queue = [] → s.lading? p (64 * (4 * line + i)) = none →
    inHost (64 * (4 * line + i)) = false → (s.entry p line).coarse = false → (s.entry p line).ptrs.length ≤ 3 →
    ∃ s' d g, exec (.fillArrives ⟨p, line⟩) s = .next s' ∧ (s'.entry p line).inL2 = true ∧ s'.agenda = s.agenda ++ [.data ⟨c, 64 * (4 * line + i), d, g⟩]) ∧
  (∀ (s : State) (p line : Nat) (q : Part), s.part? p = some q → (∀ j < 4, s.homeFree p (4 * line + j) = true) →
    (s.entry p line).inL2 = true →
    ((s.entry p line).watchers = [] ∧ (s.entry p line).tu = false ∧ (∀ r ∈ q.readers, r.name ≠ line) ∨ q.hasBlocks 1 = true) →
    ∃ s', exec (.l2Replacement ⟨p, line⟩) s = .next s' ∧ (s'.entry p line).inL2 = false ∧ (s'.entry p line).dirty = 0 ∧
      (s'.entry p line).watchers = (s.entry p line).watchers ∧
      s'.agenda = s.agenda ++ (q.hostSecs.filter fun y => y.1 / 4 = line && !(s.entry p line).watched (y.1 % 4)).map fun y =>
        .cxlCacheResponse ⟨64 * y.1, if y.2 then .dirtyEvict else .cleanEvict, memSector s'.mem (64 * y.1)⟩)

/-- An L1 answers forwards and INV, takes DATA with its grant, drops what WBACK acknowledges and evicts, each by the row of the sector's
state (R94); DATA and WBACK from outside its partition are dropped and logged (R92). An eviction takes the sector where none of its line is placed first for replacement (R132; that one of them goes before it is the
model's choice, assumption 44). -/
def Obligations.L1TakesMessages : Prop :=
  ∀ (s : State) (c pa sec no : Nat), sec = pa / 64 →
    (s.reaches c pa = false → exec (.wback ⟨c, pa⟩) s = .next (s.confined (s.homeAgent pa) pa) ∧
      ∀ d g, exec (.data ⟨c, pa, d, g⟩) s = .next (s.confined (s.homeAgent pa) pa)) ∧
    (s.reaches c pa = true → s.l1 c sec = none → exec (.fwds ⟨c, pa, no⟩) s = .next (s.push [.gone ⟨c, pa, false, no⟩]) ∧
      exec (.fwdx ⟨c, pa, no⟩) s = .next (s.push [.gone ⟨c, pa, false, no⟩]) ∧
      exec (.inv ⟨.core c, pa, false⟩) s = .next (s.push [.ack ⟨.inv c, pa⟩]) ∧ exec (.wback ⟨c, pa⟩) s = .next s ∧
      ∀ d g, exec (.data ⟨c, pa, d, g⟩) s = .next s) ∧
    (∀ (x : L1Sec) (s1 : State), s.reaches c pa = true → s.l1 c sec = some x → s1 = s.setPoison sec x.bad →
      (x.st = .m → exec (.fwds ⟨c, pa, no⟩) s = .next ((s1.setL1 c sec { x with st := .s, held := none }).push [.ownerData ⟨c, pa, x.data⟩]) ∧
        exec (.fwdx ⟨c, pa, no⟩) s = .next ((s1.delL1 c sec).push [.ownerData ⟨c, pa, x.data⟩])) ∧
      (x.st = .e → exec (.fwds ⟨c, pa, no⟩) s = .next ((s1.setL1 c sec { x with st := .s, held := none }).push [.clean ⟨c, pa⟩]) ∧
        exec (.fwdx ⟨c, pa, no⟩) s = .next ((s1.delL1 c sec).push [.clean ⟨c, pa⟩])) ∧
      ((∀ y ∈ lineSecs pa, (s.l1 c y).any (·.nt) = false) ∨ x.nt = true →
        (x.st = .m → exec (.l1Eviction ⟨c, pa⟩) s = .next ((s.setL1 c sec { x with st := .mia }).push [.putx ⟨c, 64 * sec, x.data⟩])) ∧
        (x.st = .e → exec (.l1Eviction ⟨c, pa⟩) s = .next ((s.setL1 c sec { x with st := .eia }).push [.pute ⟨c, 64 * sec⟩])) ∧
        (x.st = .s ∨ x.st = .sw → exec (.l1Eviction ⟨c, pa⟩) s = .next (s.delL1 c sec))) ∧
      (x.st = .mia → exec (.fwds ⟨c, pa, no⟩) s = .next (s.push [.gone ⟨c, pa, true, no⟩]) ∧
        exec (.fwdx ⟨c, pa, no⟩) s = .next (s.push [.gone ⟨c, pa, true, no⟩])) ∧
      (x.st = .eia → exec (.fwds ⟨c, pa, no⟩) s = .next (s.push [.gone ⟨c, pa, false, no⟩]) ∧
        exec (.fwdx ⟨c, pa, no⟩) s = .next (s.push [.gone ⟨c, pa, false, no⟩])) ∧
      (x.st = .mia ∨ x.st = .eia → exec (.wback ⟨c, pa⟩) s = .next (s.delL1 c sec)) ∧
      (x.st = .isd ∨ x.st = .imd ∨ x.st = .sma →
        exec (.fwds ⟨c, pa, no⟩) s = .next (s.setL1 c sec { x with held := some (false, no) }) ∧
        exec (.fwdx ⟨c, pa, no⟩) s = .next (s.setL1 c sec { x with held := some (true, no) })) ∧
      (x.st = .s ∨ x.st = .sw → exec (.inv ⟨.core c, pa, false⟩) s = .next ((s.delL1 c sec).push [.ack ⟨.inv c, pa⟩])) ∧
      (x.st = .sma → exec (.inv ⟨.core c, pa, false⟩) s = .next ((s.setL1 c sec { x with st := .imd }).push [.ack ⟨.inv c, pa⟩])) ∧
      (∀ d, x.held = none →
        (x.st = .isd → exec (.data ⟨c, pa, d, .s⟩) s = .next (s.setL1 c sec { L1Sec.of .s d with nt := x.nt, rd := x.rd, bad := s.poisonOf sec }) ∧
          exec (.data ⟨c, pa, d, .e⟩) s = .next (s.setL1 c sec { L1Sec.of .e d with nt := x.nt, rd := x.rd, bad := s.poisonOf sec })) ∧
        (∀ b, b = (if x.st = .sma then x.bad else s.poisonOf sec) → x.st = .imd ∨ x.st = .sma →
          exec (.data ⟨c, pa, d, .m⟩) s = .next (s.setL1 c sec { L1Sec.of .m d with nt := x.nt, rd := x.rd, bad := b }) ∧
          exec (.data ⟨c, pa, d, .sw⟩) s = .next (s.setL1 c sec { L1Sec.of .sw d with nt := x.nt, rd := x.rd, bad := b })) ∧
        (∀ i, x.st = .ild → exec (.data ⟨c, pa, d, .l i⟩) s =
          .next (s.setL1 c sec { L1Sec.of .l d with entry := i, nt := x.nt, rd := x.rd, bad := s.poisonOf sec }))))

/-- The host's snoops recall what the L1s hold, its writes and reads of device memory act at the home, and its answers end what waits for
them (R99, R379). -/
def Obligations.HostCoherence : Prop :=
  (∀ (s : State) (pa sec : Nat) (d : V512), sec = pa / 64 →
    (s.hostHeld sec = true → exec (.snpData ⟨pa⟩) s = .next { s with later := s.later ++ [.snpData ⟨pa⟩] } ∧
      exec (.snpCur ⟨pa⟩) s = .next { s with later := s.later ++ [.snpCur ⟨pa⟩] } ∧
      exec (.snpInv ⟨pa, d⟩) s = .next { s with later := s.later ++ [.snpInv ⟨pa, d⟩] }) ∧
    (s.hostHeld sec = false → ∃ s', exec (.snpData ⟨pa⟩) s = .next s' ∧ ∀ e ∈ s.parts, e.2.sys = true → (alook sec e.2.hostSecs).isSome →
      (s'.part? e.1).bind (fun q => alook sec q.hostSecs) = some false) ∧
    (s.hostHeld sec = false → ∃ s', exec (.snpCur ⟨pa⟩) s = .next s' ∧ ∀ e ∈ s.parts, e.2.sys = true → (alook sec e.2.hostSecs).isSome →
      ∀ c x, s.partOf c = e.1 → s'.l1 c sec = some x → x.st ≠ .m) ∧
    (s.hostHeld sec = false → ∃ s' m, exec (.snpInv ⟨pa, d⟩) s = .next s' ∧ s'.mem = memWrite m (64 * sec) (sectorBytes d) ∧
      ∀ e ∈ s.parts, e.2.sys = true → (alook sec e.2.hostSecs).isSome → (s'.part? e.1).bind (fun q => alook sec q.hostSecs) = none) ∧
    (∃ s', exec (.rdSharedReread ⟨pa, d⟩) s = .next s' ∧ s'.mem = memWrite s.mem (64 * sec) (sectorBytes d) ∧
      ∀ e ∈ s.parts, e.2.sys = true → (e.2.entry (sec / 4)).watched (sec % 4) = true →
        (s'.part? e.1).bind (fun q => alook sec q.hostSecs) = some false) ∧
    (∀ r, r = .dirtyEvict ∨ r = .cleanEvict → ∃ s', exec (.cxlCacheResponse ⟨pa, r, d⟩) s = .next s' ∧ s'.mem = s.mem ∧
      ∀ e ∈ s.parts, (s'.part? e.1).bind (fun q => alook sec q.hostSecs) = none) ∧
    (∀ p q c no, s.parts = [(p, q)] → (s.homeSec p sec).st = .uf → (s.homeSec p sec).txn = some ⟨.gets ⟨c, pa, none⟩, no, [], [], false⟩ →
      (s.homeSec p sec).prep = none → (s.homeSec p sec).queue = [] → s.lading? p (64 * sec) = none → (s.entry p (sec / 4)).inL2 = true →
      (s.entry p (sec / 4)).coarse = false → (s.entry p (sec / 4)).ptrs.length ≤ 3 →
      ∃ s' v g, exec (.cxlCacheResponse ⟨pa, .rdShared, d⟩) s = .next s' ∧ s'.agenda = s.agenda ++ [.data ⟨c, 64 * sec, v, g⟩] ∧
        (s'.part? p).bind (fun q => alook sec q.hostSecs) = some false)) ∧
  (∀ (s : State) (p pa sec : Nat) (q : Part) (d : V512) (m : BitVec 64), s.partOfPa pa = some p → s.part? p = some q → sec = pa / 64 →
    (q.decodes pa = false → exec (.memWr ⟨pa, d, m⟩) s = .next s ∧ exec (.hostMemRd ⟨p, pa⟩) s = .next s) ∧
    (q.decodes pa = true → q.frozen = false → s.homeFree p sec = true → s.lading? p pa = none →
      ((s.entry p (sec / 4)).tu = false → exec (.memWr ⟨pa, d, m⟩) s = .next (s.homeWrite p sec none d m none)) ∧
      ((s.entry p (sec / 4)).inL2 = true → ∃ s', exec (.hostMemRd ⟨p, pa⟩) s = .next s' ∧ (s'.entry p (pa / 256)).host = true ∧ s'.agenda = s.agenda)) ∧
    (q.decodes pa = true → s.lading? p pa = none → (q.frozen = true ∨ s.homeFree p sec = false) → exec (.memWr ⟨pa, d, m⟩) s = .next { s with later := s.later ++ [.memWr ⟨pa, d, m⟩] }) ∧
    (∀ c no, (s.homeSec p sec).queue = [] → (s.entry p (sec / 4)).ptrs.length ≤ 3 → (s.homeSec p sec).txn = some ⟨.getx ⟨c, pa, none⟩, no, [], [], true⟩ →
      ∃ s' v, exec (.biSnpInvResponse ⟨pa, some d⟩) s = .next s' ∧ s'.mem = memWrite s.mem (64 * sec) (sectorBytes d) ∧
        .data ⟨c, 64 * sec, v, if (s.entry p (sec / 4)).watched (sec % 4) then .sw else .m⟩ ∈ s'.agenda ∧ (s'.homeSec p sec).txn = none))

/-! ### Wakes, ladings and requests at their targets -/

/-- A wake reaches the armed watch of its thread, or is answered with DROP, which deletes the record; a spilled thread that was woken reloads;
a sleeping thread whose deadline has passed runs; a trap that an agent reports stops its thread (R98, R141, R295, R296, R305, R369). -/
def Obligations.WakesReachTheirThreads : Prop :=
  ∀ (s : State),
    (∀ x : EvWake, s.reaches (x.target.extractLsb' 8 18).toNat (256 * x.line) = false →
      exec (.wake x) s = .next (s.confined (s.homeAgent (256 * x.line)) (256 * x.line))) ∧
    (∀ (x : EvWake) (c k : Nat) (t : Thread), s.reaches (x.target.extractLsb' 8 18).toNat (256 * x.line) = true →
      s.findThread (x.target.extractLsb' 8 18).toNat (x.target.extractLsb' 0 8).toNat (x.target.extractLsb' 26 6) = some (c, k) →
      s.thread? c k = some t →
      ((∃ e ∈ t.watch, e.line = x.line) → exec (.wake x) s = .next (s.setThread c k { t with watch := t.watch.map fun e =>
           if e.line = x.line then { e with pending := e.pending ||| x.mask } else e })) ∧
      ((∀ e ∈ t.watch, e.line ≠ x.line) → exec (.wake x) s = .next (s.push [.drop x]))) ∧
    (∀ (x : EvWake) (t : Thread), s.reaches (x.target.extractLsb' 8 18).toNat (256 * x.line) = true →
      s.findThread (x.target.extractLsb' 8 18).toNat (x.target.extractLsb' 0 8).toNat (x.target.extractLsb' 26 6) = none →
      s.spilled? (x.target.extractLsb' 8 18).toNat (x.target.extractLsb' 0 8).toNat (x.target.extractLsb' 26 6).toNat = some t →
      ((∃ e ∈ t.watch, e.line = x.line) → exec (.wake x) s = .next (s.modSpilled (x.target.extractLsb' 8 18).toNat (x.target.extractLsb' 0 8).toNat
         (x.target.extractLsb' 26 6).toNat fun _ => { t with woken := true, watch := t.watch.map fun e =>
           if e.line = x.line then { e with pending := e.pending ||| x.mask } else e })) ∧
      ((∀ e ∈ t.watch, e.line ≠ x.line) → exec (.wake x) s = .next (s.push [.drop x]))) ∧
    (∀ (x : EvWake) (q : Part), s.part? (s.partOf (x.target.extractLsb' 8 18).toNat) = some q →
      ∃ s', exec (.drop x) s = .next s' ∧ s'.agenda = s.agenda ∧ (s'.entry (s.partOf (x.target.extractLsb' 8 18).toNat) x.line).watchers =
        (q.entry x.line).watchers.filter fun y => !(y.kind = 1 && y.target = x.target)) ∧
    (∀ (c k g : Nat) (t : Thread), s.spilled? c k g = some t → t.woken = true → t.stop = none → t.jump = false → t.repSaved.live = false → s.carrier t.region c = c →
      s.thread? c k = none → ∃ s' t', exec (.reload ⟨c, k, g⟩) s = .next s' ∧ s'.thread? c k = some t' ∧ t'.st = .running ∧ t'.sleep = none ∧
        t'.watch = t.watch ∧ t'.g = t.g ∧ t'.tid = t.tid ∧ t'.leadPc = t.leadPc ∧ s'.spilled? c k g = none) ∧
    (∀ (c k : Nat) (t : Thread) (y : SleepCond), s.thread? c k = some t → t.st = .sleeping → t.sleep = some y → y.sel.getLsbD 10 = true →
      y.deadline.toNat ≤ s.coreTime c →
      ∃ s', exec (.sleepDeadline ⟨c, k⟩) s = .next s' ∧ s'.thread? c k = some { t with st := .running, sleep := none }) ∧
    (∀ (x : EvTrap) (t : Thread), s.thread? x.core x.slot = some t → t.st ≠ .stopped → t.cons = none →
      ∃ s' t' y, exec (.trapEntry x) s = .next s' ∧ s'.thread? x.core x.slot = some t' ∧ t'.st = .stopped ∧ t'.stop = some y ∧ y.info = x.info ∧
        t'.g = t.g)

/-- The Lading Table: what a grant does for an entry that was released, the revocation of a lease that has run out, and the discard at the
holder, after which what waits goes on before the next grant: while an access that waited has not performed, the grant waits (R101 to R105); a core whose time differs by more than 250 ns is time-suspect
(R103). That an ACQR which waits at a core that has become time-suspect is answered 5 is the model's choice (assumption 44). -/
def Obligations.LadingTable : Prop :=
  (∀ (s : State) (p i : Nat) (q : Part) (l : Lading), s.part? p = some q → alook i q.ladings = some l →
    (l.st ≠ .held → s.ladPending p l = true → exec (.ladingGrant ⟨p, i⟩) s = .next (s.later1 (.ladingGrant ⟨p, i⟩))) ∧
    (l.st ≠ .held → s.ladPending p l = false → l.waiters = [] → ∃ s', exec (.ladingGrant ⟨p, i⟩) s = .next s' ∧
      (s'.part? p).bind (fun q => alook i q.ladings) = none ∧ (s'.part? p).bind (fun q => alook i q.ladRest) = some ⟨l.gen, l.disc⟩) ∧
    (∀ (r : OpRef) (rest : List OpRef) (t : Thread) (o : Op) (a : MemAcc) (n g lease : Nat), l.st ≠ .held → s.ladPending p l = false → l.waiters = r :: rest →
      s.thread? r.core r.slot = some t → t.op? r.op = some o → o.kind = .acqrWait a n g lease →
      ((s.core r.core).suspectTime = true → ∀ d x, a.act = .acqr d x → exec (.ladingGrant ⟨p, i⟩) s = .next (((((s.modLading p i fun x =>
        { x with waiters := rest }).push [.ladingGrant ⟨p, i⟩]).modThread r.core r.slot fun t => t.wg d 5)).finishOp r.core r.slot r.op)) ∧
      ((s.core r.core).suspectTime = false → ∃ s' l', exec (.ladingGrant ⟨p, i⟩) s = .next s' ∧ (s'.part? p).bind (fun q => alook i q.ladings) = some l' ∧ l'.st = .held ∧
        l'.gen = l.gen + 1 ∧ l'.tid = t.tid ∧ l'.core = r.core ∧ l'.base = l.base ∧ l'.log2 = l.log2 ∧ l'.expiry = s.gt + lease ∧ l'.waiters = rest)) ∧
    (l.st = .held → (l.waitAcc = true ∨ l.waiters ≠ []) → l.expiry + 250 < s.gt → q.frozen = false →
      exec (.ladingRevocation ⟨p, i⟩) s = .next ((s.modLading p i fun l => { l with st := .revoked }).push [.revoke ⟨p, i⟩])) ∧
    ((l.st ≠ .held ∨ s.gt ≤ l.expiry + 250) → exec (.ladingRevocation ⟨p, i⟩) s = .next s) ∧
    (∃ s' l', exec (.revoke ⟨p, i⟩) s = .next s' ∧ (s'.part? p).bind (fun q => alook i q.ladings) = some l' ∧ l'.st = .revoked ∧
      l'.disc = ((s.core l.core).l1.filter fun e =>
        ((e.2.st == .l && e.2.entry == i) || (e.2.st == .ild && l.covers (64 * e.1))) && e.2.dirty != 0).length ∧
      (∀ e ∈ (s'.core l.core).l1, (e.2.st = .l → e.2.entry ≠ i) ∧ (e.2.st = .ild → l.covers (64 * e.1) = false)) ∧ s'.mem = s.mem ∧ l'.clear = true ∧
      s'.agenda = s.agenda ++ s.later ++ [.ladingGrant ⟨p, i⟩] ∧ s'.later = [])) ∧
  (∀ (s : State) (x : EvBeacon),
    (x.answered = true → 250 < x.diff.natAbs → ∃ s', exec (.beacon x) s = .next s' ∧ (s'.core x.core).suspectTime = true ∧
      (s'.core x.core).gtOff = x.diff ∧ (s'.core x.core).missed = 0) ∧
    (x.answered = true → x.diff.natAbs ≤ 250 → (s.core x.core).suspectTime = false →
      exec (.beacon x) s = .next (s.modCore x.core fun y => { y with missed := 0, gtOff := x.diff })) ∧
    (x.answered = false → 1 ≤ (s.core x.core).missed → ∃ s', exec (.beacon x) s = .next s' ∧ (s'.core x.core).suspectTime = true) ∧
    (x.answered = false → (s.core x.core).missed = 0 → ∃ s', exec (.beacon x) s = .next s' ∧ (s'.core x.core).missed = 1 ∧
      (s'.core x.core).suspectTime = (s.core x.core).suspectTime))

/-- A request at its target's core: without a target it answers 6; THSTAT answers the state; THSTOP stops a thread that runs, THSTART a thread
that is not stopped answers 1, THKILL frees the slot of a quiet thread (R308 to R315). -/
def Sys2Proof.Claims.RequestsAtTheTarget : Prop :=
  ∀ (s : State) (x : EvThReq),
    (x.req = .stat → s.reqTarget x.core x.tid = none → exec (.threadStateRequest x) s = .next (s.reply x.src (BitVec.ofNat 64 (6 * 2 ^ 56)) false)) ∧
    (∀ (c k : Nat) (t : Thread), s.reqTarget x.core x.tid = some (.slot c k t) → s.requestWaits x = false →
      (x.req = .stat → ∃ v, exec (.threadStateRequest x) s = .next (s.reply x.src v true) ∧ v.getLsbD 9 = false ∧
        v.extractLsb' 0 8 = BitVec.ofNat 8 (if t.stop.isSome then ThState.stopped.code else t.st.code)) ∧
      (x.req = .start → t.stop = none → exec (.threadStateRequest x) s = .next (s.reply x.src (BitVec.ofNat 64 (2 ^ 56)) false)) ∧
      (x.req = .stop → t.stop = none → t.st ≠ .stopped → t.ending = false → t.cons = none → s.thread? c k = some t →
        ∃ s' t' y, exec (.threadStateRequest x) s = .next s' ∧ s'.thread? c k = some t' ∧ t'.st = .stopped ∧ t'.stop = some y ∧ y.info.cause = 0 ∧
          t'.leadPc = t.leadPc) ∧
      (x.req = .kill → t.stop = none → t.ops = [] → t.cons = none → s.thread? c k = some t →
        ∃ s', exec (.threadStateRequest x) s = .next s' ∧ s'.thread? c k = none))

/-- THSTOP, THSTART, THRD, THWR, THSTAT, THKILL and THNEW: rights at the source, effect at the target. -/
def Obligations.ThreadStateRequests : Prop := ThreadRequests ∧ RequestsAtTheTarget

/-! ### Fetch, pipes and operations -/

/-- A line without errors is taken by the thread that waits for it; one that is wrong is discarded from the L1 and fetched again, and counts as
corrected, or is the cause 0x03 (R18, R19); a pipe deadlock is the cause
0x24 (R45); the sequencer's next instruction is what issues (R211); a fault record that finds room leaves its place among those that wait
(R85). -/
def Sys2Proof.Claims.FetchAndPipes : Prop :=
  (∀ (s s1 : State) (x : EvFetch) (t : Thread) (l : V512), s.thread? x.core x.slot = some t → t.st = .running → pcLine t.leadPc = x.va →
    s.fetchLine x.core x.slot t.region x.va = (.ok l, s1) →
    (x.flip1 = 0 → lineBad l = false → exec (.fetchLineArrival x) s = .next (s1.modThread x.core x.slot fun t => { t with line := some (x.va, l) })) ∧
    (∀ (pa room : Nat) (l2 : V512) (s2 s3 : State), parityOk (l ^^^ x.flip1) = false → s1.translateR x.core t.region x.va .fetch = (.ok pa false room, s2) →
      (s2.discardCopy (s2.partOf x.core) x.core (pa / 64)).fetchLine x.core x.slot t.region x.va = (.ok l2, s3) →
      (parityOk (l2 ^^^ x.flip2) = true → lineBad l2 = false → exec (.fetchLineArrival x) s = .next (((s3.modCore x.core fun y =>
        { y with corrected := y.corrected + 1 }).corr (s3.partOf x.core) 1).modThread x.core x.slot fun t => { t with line := some (x.va, l2) })) ∧
      (parityOk (l2 ^^^ x.flip2) = false →
        ∃ i : TrapInfo, exec (.fetchLineArrival x) s = .next (s3.takeTrap x.core x.slot i 12 []) ∧ i.cause = 0x03))) ∧
  (∀ (s : State) (c k : Nat) (t : Thread), s.thread? c k = some t →
    (t.deadlocked = true → ∃ i : TrapInfo, exec (.pipeDeadlock ⟨c, k⟩) s = .next (s.takeTrap c k i 12 []) ∧ i.cause = 0x24 ∧ i.pipe = .trail ∧
      i.pc = t.trailAt) ∧
    (t.deadlocked = false → exec (.pipeDeadlock ⟨c, k⟩) s = .next s) ∧
    (∀ e l, t.trailQ = e :: l → e.rep = true → t.rep.act = true →
      exec (.reissue ⟨c, k⟩) s = .next { s with sched := ⟨c, k, .trail⟩ :: s.sched })) ∧
  (∀ (s s1 : State) (g i : Nat) (r : Region) (q q1 : Part) (y : PendingRec), s.region? g = some r → s.part? r.part = some q →
    q.pending.find? (fun y => y.region = g) = some y → s.placeRec y (s.anyCore r) = (.seq i, s1) → s1.part? r.part = some q1 → y.waits = [] →
    ∃ s', exec (.queuedFaultRecordWrite ⟨g⟩) s = .next s' ∧ (s'.part? r.part).map (·.pending) = some (q1.pending.erase y) ∧ s'.mem = s1.mem)

/-- An operation that may go on takes its next part, a message that was held leaves; a table walk reads one entry, and goes on to the next
level or faults; a read of data with an uncorrectable error parks its operation with the cause 0x34, and drops the consignment of a buffered thread; a corrected
error changes nothing but its counter (R74, R82,
R113, R361). -/
def Sys2Proof.Claims.OperationsGoOn : Prop :=
  ∀ (s : State) (r : OpRef) (t : Thread) (o : Op), s.thread? r.core r.slot = some t → t.op? r.op = some o →
    (o.goes (t.st == .stopped || t.stop.isSome) = true → exec (.streamOperationComplete r) s = .next (s.tryOp r.core r.slot t o)) ∧
    (o.goes (t.st == .stopped || t.stop.isSome) = false → exec (.streamOperationComplete r) s = .next s) ∧
    (∀ core m, o.goes (t.st == .stopped || t.stop.isSome) = true → o.kind = .msg core m false → ∃ s' mk, exec (.streamOperationComplete r) s = .next s' ∧
      s'.agenda = s.agenda ++ [.messageArrival ⟨core, m, some ⟨r.core, r.slot, o.id⟩, false, mk⟩]) ∧
    (∀ (w : Walk) (a : MemAcc), o.walk = some w → o.kind = .acc a →
      (canonical w.va = false → ∃ k, exec (.tableWalk r) s = .next (s.park r.core r.slot o ⟨0x10, 0, w.va⟩ 0 45 k .lead)) ∧
      (∀ (q : Part) (s1 : State) (n : Nat), canonical w.va = true → s.part? (s.partOf r.core) = some q →
        s1 = (if inPriv q w.table then (s.homeRead (s.partOf r.core) (pteAddr w.va w.table w.lvl / 64)).markTu (s.partOf r.core)
          (pteAddr w.va w.table w.lvl / 64) else s) →
        (inPriv q w.table = true → s.homeFree (s.partOf r.core) (pteAddr w.va w.table w.lvl / 64) = true ∧
          s.lading? (s.partOf r.core) (pteAddr w.va w.table w.lvl) = none) →
        walkStep q s1.mem w.va (s1.space t).1 a.act.tr w.table w.lvl w.srcs = .inl n → w.lvl < 3 →
        exec (.tableWalk r) s = .next ((s1.modThread r.core r.slot fun t => t.modOp r.op fun o => { o with walk := some ⟨
          w.va, n, w.lvl + 1, w.srcs ++ [pteAddr w.va w.table w.lvl / 64]⟩ }).push [.tableWalk r]))) ∧
    (∀ x b s1, s.poisonAt x = (some b, s1) → s1.thread? r.core r.slot = some t → (∀ y, o.kind ≠ .copy y) →
      (t.buffered = true → exec (.uncorrectableData (.read r x)) s = .next (s1.push [.consignmentDrop ⟨r.core, r.slot, some o.kind.addr, b⟩])) ∧
      (t.buffered = false → ∃ k pipe, exec (.uncorrectableData (.read r x)) s =
        .next (s1.park r.core r.slot o ⟨0x34, 0, o.kind.addr⟩ b.kind 12 k pipe 0 [] (some b)))) ∧
    (∀ x s1, s.poisonAt x = (none, s1) → exec (.uncorrectableData (.read r x)) s = .next s1) ∧
    (∀ p i l, (s.part? p).bind (fun q => alook i q.ladings) = some l → l.st = .held →
      ∃ s', exec (.uncorrectableData (.lading p i)) s = .next s' ∧ .revoke ⟨p, i⟩ ∈ s'.agenda)

/-- Fetched lines, pipe deadlocks, reissue, waiting records, and operations that go on. -/
def Obligations.FetchPipesAndOperations : Prop := FetchAndPipes ∧ OperationsGoOn

/-- An integer update in range is applied to its element modulo its width, one for a closed or a plain channel is refused, an early one of a
sequence is held; a copy whose packets are answered completes; a remote store in range writes its bytes, and one out of range writes none
(R153, R158 to R162). -/
def Sys2Proof.Claims.UpdatesAndRemoteStores : Prop :=
  (∀ (s : State) (x : EvUpdate) (v : Word) (n base : Nat), x.elems = [v] → n = elemBytes x.ty → base = (s.chan x.dst x.chan).base →
    (((s.chan x.dst x.chan).isOpen = false ∨ (s.chan x.dst x.chan).arith = false ∨ (s.chan x.dst x.chan).len < x.off + n) →
      ∃ s', exec (.updateArrival x) s = .next s' ∧ s'.cores = s.cores ∧ s'.mem = s.mem ∧ s'.agenda = s.agenda ++ [.sendComplete x.src]) ∧
    ((s.chan x.dst x.chan).isOpen = true → (s.chan x.dst x.chan).arith = true → x.off + n ≤ (s.chan x.dst x.chan).len →
      s.guestLcn x.region x.lcn = false → s.spHeld x.dst (base + x.off) n = false →
      (x.seq = none → x.op = .add → x.m = false → x.ty.isI = true → ∃ s', exec (.updateArrival x) s = .next s' ∧
        memNat (s'.core x.dst).sp (base + x.off) n = (memNat (s.core x.dst).sp (base + x.off) n + v.toNat) % 2 ^ (8 * n) ∧
        ∀ a, (a < base + x.off ∨ base + x.off + n ≤ a) → memByte (s'.core x.dst).sp a = memByte (s.core x.dst).sp a) ∧
      (∀ q, x.seq = some q → 1 ≤ (q - (s.chan x.dst x.chan).seqnext).toNat → (q - (s.chan x.dst x.chan).seqnext).toNat ≤ 32767 →
        (s.core x.dst).hold.length < 16 →
        exec (.updateArrival x) s = .next (s.modCore x.dst fun y => { y with hold := y.hold ++ [x] })))) ∧
  (∀ (s : State) (r : OpRef) (t : Thread) (o : Op) (y : CopyOp), s.thread? r.core r.slot = some t → t.op? r.op = some o → o.kind = .copy y →
    (y.complete s (s.region? t.region) = true → y.refused = 0 → exec (.sendComplete r) s = .next (s.finishOp r.core r.slot r.op)) ∧
    (y.complete s (s.region? t.region) = false → exec (.sendComplete r) s = .next s)) ∧
  (∀ (s : State) (x : EvRemote) (bs : List Byte), x.act = .store bs →
    (x.off + bs.length ≤ (s.core x.dst).spsz → s.chanWaits x.dst x.off bs.length = false → s.spHeld x.dst x.off bs.length = false →
      exec (.remoteStoreArrival x) s = .next ((s.spWrite x.dst x.off bs (x.key.map fun key => (x.region, key))).finishOp x.src.core x.src.slot x.src.op)) ∧
    ((s.core x.dst).spsz < x.off + bs.length →
      ∃ s', exec (.remoteStoreArrival x) s = .next s' ∧ ∀ d, (s'.core d).sp = (s.core d).sp))

/-- Packets, updates and remote stores at their target core. -/
def Obligations.CopiesArrive : Prop := PacketAtItsChannel ∧ UpdatesAndRemoteStores

/-! ### Messages at their core (R285 to R287, R341 to R350) -/

/-- A message enters the inbox of its core while there is room, else goes to the slice; an orphan is counted; a retry sends it again; the porter
puts the message in the slice and brings it back to the inbox. -/
def Sys2Proof.Claims.MessagesArrive : Prop :=
  ∀ (s : State) (x : EvMsg) (c : Nat), c = s.route x.core x.msg.post →
    exec (.sliceFullRetry x) s = .next (s.push [.messageArrival x]) ∧
    (s.orphan c x.msg = true → ∀ q, s.part? (s.partOf c) = some q →
      ∃ s', exec (.messageArrival x) s = .next s' ∧ (s'.part? (s.partOf c)).map (·.orphans) = some (q.orphans + 1) ∧
        (s'.core c).inbox = (s.core c).inbox) ∧
    (∀ p, s.orphan c x.msg = false → alook x.msg.post (s.core c).posts = some p → p.dmask = false → x.msg.kind = 0 →
      ((s.core c).inbox.length < 512 → (s.core c).spilling = [] → s.spillQueued p.region x.core = false →
        ∃ s', exec (.messageArrival x) s = .next s' ∧ (s'.core c).inbox = (s.core c).inbox ++ [⟨x.msg, x.core, false, x.mark⟩]) ∧
      ((512 ≤ (s.core c).inbox.length ∨ s.spillQueued p.region x.core = true) → exec (.messageArrival x) s = .next (s.push [.porterSpill x]))) ∧
    (∀ g r va n y s1 s2, s.postRegion c x.msg.post = some g → s.region? g = some r → s.slice r x.core = (va, n) → s.sliceCtl c g va = (some y, s1) →
      y.count < n → s1.devWrite c g (va + BitVec.ofNat 64 (64 + 64 * y.head)) (msgBytes x.msg) false = (true, s2) →
      ∃ s', exec (.porterSpill x) s = .next s' ∧ (s'.core c).spilling.getLast? = some (g, ⟨x.msg, x.core, false, x.mark⟩)) ∧
    ((448 ≤ (s.core c).inbox.length ∨ (s.core c).spilling = []) →
      exec (.porterReplay ⟨c⟩) s = .next (s.modCore c Core.settled)) ∧
    (∀ g i r s1 s2, (s.core c).inbox.length < 448 → (s.core c).nextSlice = some (g, i) → s.region? g = some r →
      s1 = s.modCore c (fun y => { y with spilling := y.spilling.erase (g, i), served := g, replaying := true, fulls := y.fulls.filter (· ≠ (g, i.dest)) }) →
      s1.sliceCtl c g (s1.slice r i.dest).1 = (none, s2) → i.kept = false → s2.orphan c i.msg = false →
      ∃ s', exec (.porterReplay ⟨c⟩) s = .next s' ∧ (s'.core c).inbox = (s2.core c).inbox ++ [i])

/-- The binder's post takes its message into a slot: r1 to r6 hold the payload and the activation runs at the post (R56, R343); a post ages by one for each 4,096 cycles that it
stood as R343 counts them, up to 15; an idle core takes the oldest message of its region's work from its victim's deque, the victims of each region
in turn (R286). That of an ordered region it takes the message of the lowest key that waits, where the deque has none, is the model's choice
(assumption 21). -/
def Sys2Proof.Claims.BindingAndStealing : Prop :=
  (∀ (s : State) (c : Nat), s.winner c = none → exec (.binding ⟨c⟩) s = .next s) ∧
  (∀ (s s1 : State) (c post : Nat) (p : Post) (m : InMsg × Bool) (x : Nat × Nat × BitVec 6) (r : Region), s.winner c = some (post, p, m, x, s1) →
    s1.region? p.region = some r → r.emode = 0 →
    ∃ s' t, exec (.binding ⟨c⟩) s = .next s' ∧ s'.thread? c x.1 = some t ∧ t.life = .activation post m.1.msg ∧ t.leadPc = p.hpc ∧ t.region = p.region ∧
      t.tid.extractLsb' 26 6 = x.2.2 ∧ t.cons = none ∧ ∀ j < 6, t.rg (BitVec.ofNat 6 (1 + j)) = m.1.msg.pay.extractLsb' (64 * j) 64) ∧
  (∀ (s : State) (c post : Nat) (p : Post), alook post (s.core c).posts = some p →
    ∃ s', exec (.ageStep ⟨c, post⟩) s = .next s' ∧
      alook post (s'.core c).posts = some { p with age := min 15 (p.age + p.stood / ageStep), stood := p.stood % ageStep }) ∧
  (∀ (s s1 : State) (c g v n : Nat) (r : Region) (i : InMsg), s.region? g = some r → n = ((s.core c).stealOf g).1 →
    s1 = s.modCore c (fun y => { y with steals := aset g (n + 1, s.gt + s.cyclesNs c 512) y.steals }) →
    (s1.idleFor c g = false → exec (.stealRequest ⟨c, g⟩) s = .next s1) ∧
    (s1.idleFor c g = true → (s1.victims r c)[n % max 1 (s1.victims r c).length]? = some v →
      (s1.core v).deque.reverse.find? (fun i => s1.postRegion v i.msg.post = some g) = some i →
      ∃ s', exec (.stealRequest ⟨c, g⟩) s = .next s' ∧ s'.agenda = s.agenda ++ [.messageArrival ⟨c, i.msg, none, true, i.mark⟩] ∧
        (s'.core v).deque = ((s1.core v).deque.reverse.erase i).reverse) ∧
    (∀ i, s1.idleFor c g = true → (s1.victims r c)[n % max 1 (s1.victims r c).length]? = some v → r.emode = 3 →
      (s1.core v).deque.reverse.find? (fun i => s1.postRegion v i.msg.post = some g) = none → s1.leastKey r (s1.orderedQueue v g) = some (i, false) →
      ∃ s', exec (.stealRequest ⟨c, g⟩) s = .next s' ∧ s'.agenda = s.agenda ++ [.messageArrival ⟨c, i.msg, none, true, i.mark⟩] ∧
        (s'.core v).inbox = (s1.core v).inbox.erase i))

/-- Messages at their core: inbox, slice, porter, binding, ageing and stealing. -/
def Obligations.MessagesAndBinding : Prop := MessagesArrive ∧ BindingAndStealing

/-! ### Consignments (R320 to R340) -/

/-- The thread in a slot holds a consignment. -/
def Sys2Proof.Claims.Holds (s : State) (c k : Nat) (t : Thread) (y : Consign) : Prop := s.thread? c k = some t ∧ t.cons = some y

/-- A consignment begins to clear in its turn, prepares its entries and commits them; one without entries commits at once; an entry with an
uncorrectable error drops it; a unit of one entry
writes its masked bytes and frees its thread (R324, R325, R338). -/
def Sys2Proof.Claims.ConsignmentsClear : Prop :=
  ∀ (s : State) (c k : Nat) (t : Thread) (y : Consign), Holds s c k t y →
    (y.mode = 1 → y.phase = .ended → t.ops = [] → ∃ s', exec (.clearing ⟨c, k⟩) s = .next s' ∧
      s'.thread? c k = some { t with cons := some { y with phase := .clearing 0 } } ∧
      s'.agenda = s.agenda ++ [if y.sects.isEmpty then .commit ⟨c, k⟩ else .prep ⟨c, k, 0⟩]) ∧
    (∀ r, y.mode = 3 → s.region? t.region = some r → r.clearq.head? ≠ some (c, k) → exec (.clearing ⟨c, k⟩) s = .next s) ∧
    (∀ r, y.mode = 3 → y.phase = .ended → t.ops = [] → s.region? t.region = some r → r.clearq.head? = some (c, k) →
      ∃ s', exec (.clearing ⟨c, k⟩) s = .next s' ∧ s'.thread? c k = some { t with cons := some { y with phase := .clearing 0 } } ∧ s'.mem = s.mem) ∧
    (∀ (i : Nat) (e : SectEntry) (s1 : State), y.phase = .clearing i → y.sorted[i]? = some e → e.bad = false → s.prepEntry c k t y e = .ok s1 →
      exec (.prep ⟨c, k, i⟩) s = .next ((s1.modCons c k fun z => { z with phase := .clearing (i + 1) }).push
        [if i + 1 < y.sects.length then .prep ⟨c, k, i + 1⟩ else .commit ⟨c, k⟩])) ∧
    (∀ (i : Nat) (e : SectEntry), y.phase = .clearing i → y.sorted[i]? = some e → e.bad = true →
      exec (.prep ⟨c, k, i⟩) s = .next (s.push [.consignmentDrop ⟨c, k, none, ⟨3, placeSec e.place⟩⟩])) ∧
    (∀ (e : SectEntry) (sec i : Nat), y.mode = 1 → y.phase = .clearing i → y.overflow = false → y.msgs = [] → y.sects = [e] → e.place = .mem sec → e.after = [] →
      t.ending = true → t.ops = [] →
      ∃ s', exec (.commit ⟨c, k⟩) s = .next s' ∧ s'.thread? c k = none ∧
        s'.mem = memMerge s.mem (64 * sec) (mergeBits (memSector s.mem (64 * sec)) e.data e.bits) e.mask)

/-- A drop discards the activation; an overflow of a mode 1 consignment clears it; the partner's hash lets a pair clear when it is the same, and
sends the message to the second pair when it differs; a write intent aborts the readers of later keys (R326, R332, R335, R340). -/
def Sys2Proof.Claims.ConsignmentsDrop : Prop :=
  (∀ (s : State) (c k : Nat) (t : Thread) (y : Consign), Holds s c k t y →
    (∀ va b, y.demote = false → ∃ s', exec (.consignmentDrop ⟨c, k, va, b⟩) s = .next s' ∧ s'.thread? c k = none) ∧
    (∀ r, s.region? t.region = some r → y.overflow = true → y.takes = true → y.mode = 1 →
      ∃ s', exec (.consignmentOverflow ⟨c, k⟩) s = .next s' ∧ s'.thread? c k = some { t with cons := some { y with phase := .clearing 0 } } ∧
        s'.agenda = s.agenda ++ [if y.sects.isEmpty then .commit ⟨c, k⟩ else .prep ⟨c, k, 0⟩]) ∧
    (∀ r, s.region? t.region = some r → (y.overflow = false ∨ y.mode = 3) → exec (.consignmentOverflow ⟨c, k⟩) s = .next s) ∧
    (∀ r h, s.region? t.region = some r → y.hash = some h →
      (exec (.hashArrival ⟨c, k, h⟩) s = .next ((s.modCons c k fun y => { y with matched := true }).push [.clearing ⟨c, k⟩])) ∧
      (∀ g o, g ≠ h → r.pairing = some o → y.trig.mark.second = false → ∃ s' m, exec (.hashArrival ⟨c, k, g⟩) s = .next s' ∧
        s'.agenda.getLast? = some (.messageArrival m) ∧ m.mark.second = true ∧ m.mark.pair = none))) ∧
  (∀ (s : State) (g d sec c k : Nat) (key : Key) (rd : Reader) (t : Thread) (y : Consign), Holds s c k t y → y.abortable = true → (s.core d).readers = [rd] → rd.name = sec / 4 →
    rd.smask.getLsbD (sec % 4) = true → rd.region = g → keyLt key rd.key = true → s.findOrdered g rd.key.tid = some (c, k) →
    ∃ s', exec (.writeIntent ⟨g, .loc d sec, key⟩) s = .next s' ∧ s'.thread? c k = none)

/-- Consignments clear in their turn, or are dropped, overflow, pair and abort. -/
def Obligations.Consignments : Prop := ConsignmentsClear ∧ ConsignmentsDrop

/-! ### Waves, meters and the drover (R291, R333, R351 to R359) -/

/-- A region that two waves find quiet with the same counts terminates; a first such wave remembers the counts (R291). -/
def Sys2Proof.Claims.WavesTerminate : Prop :=
  ∀ (s : State) (g : Nat) (r : Region), s.region? g = some r → r.rstate = .live → r.emode ≠ 3 →
    (s.quiet g r = true → r.lastWave = some (r.sent, r.consumed) →
      ∃ s' r', exec (.wave ⟨g⟩) s = .next s' ∧ s'.region? g = some r' ∧ (r'.rstate = .terminated ∨ r'.rstate = .ended)) ∧
    (s.quiet g r = true → r.lastWave ≠ some (r.sent, r.consumed) →
      exec (.wave ⟨g⟩) s = .next (s.modRegion g fun r => { r with lastWave := some (r.sent, r.consumed) })) ∧
    (s.quiet g r = false → exec (.wave ⟨g⟩) s = .next (s.modRegion g fun r => { r with lastWave := none }))

/-- A cluster's energy is charged to the region that worked there; a window's end sets the allowance anew; a temperature at or above the ceiling leaves
class 0 alone, one 12 °C below allows every class (R351, R352). -/
def Sys2Proof.Claims.Meters : Prop :=
  (∀ (s : State) (k e g n : Nat) (r : Region), (s.cluster k).weights = [(g, n)] → 0 < n → s.region? g = some r → r.parent = 0 →
    ∃ s' r', exec (.energyMeter ⟨k, e⟩) s = .next s' ∧ s'.region? g = some r' ∧ r'.charge = r.charge + e ∧
      r'.tmasked = (r.tmasked || (r.tariff ≠ 0 && r.allow ≤ r.charge + e)) ∧ (s'.cluster k).weights = []) ∧
  (∀ (s : State) (u : Unit) (g : Nat) (r : Region), s.region? g = some r → ∃ s' r', exec (.tariffWindow ⟨u⟩) s = .next s' ∧ s'.region? g = some r' ∧
    r'.charge = 0 ∧ r'.allow = r.tariff - min (r.charge - r.allow) r.tariff) ∧
  (∀ (s : State) (k q : Nat), ∃ s', exec (.temperatureRead ⟨k, q⟩) s = .next s' ∧ (s'.cluster k).quarter = q ∧
    ∀ g r, g ∈ s.regionsOn k → s.region? g = some r →
      (4 * r.tceil ≤ q → alook g (s'.cluster k).maxcls = some 0) ∧ (q + 48 ≤ 4 * r.tceil → alook g (s'.cluster k).maxcls = some 3))

/-- A drover period counts in its block and, with no valid stage, changes nothing else of it; a core that has drained leaves the list of those that
move (R357, R359). -/
def Sys2Proof.Claims.DroverRuns : Prop :=
  (∀ (s : State) (p : Nat) (q : Part), s.part? p = some q →
    (q.drover.on = false → exec (.droverPeriod ⟨p⟩) s = .next s) ∧
    (q.drover.on = true → q.drover.block % 64 = 0 → (∀ sec, s.holders p sec = []) → (∀ line, (s.entry p line).coarse = false ∧ (s.entry p line).host = false) →
      (∀ i < 16, memNat s.mem (q.drover.block + 64 + 64 * i) 1 % 2 = 0) →
      ∃ s', exec (.droverPeriod ⟨p⟩) s = .next s' ∧
        memNat s'.mem (q.drover.block + 4) 4 = (memNat s.mem (q.drover.block + 4) 4 + 1) % 2 ^ 32)) ∧
  (∀ (s s1 : State) (p c di ri : Nat) (q : Part) (l : List Stage) (d r : Stage), s.part? p = some q → alook c q.drover.moving = some (di, ri) →
    s.stages p = (l, s1) → l.find? (fun y => y.no = di) = some d → l.find? (fun y => y.no = ri) = some r →
    (s1.drained c d.post d.region = false → exec (.droverCoreJoin ⟨p, c⟩) s = .next s1) ∧
    (s1.drained c d.post d.region = true → ∃ s', exec (.droverCoreJoin ⟨p, c⟩) s = .next s' ∧
      (s'.part? p).bind (fun q => alook c q.drover.moving) = none))

/-- Termination waves, energy and temperature, and the drover. -/
def Obligations.RegionsMetersAndDrover : Prop := WavesTerminate ∧ Meters ∧ DroverRuns

/-! ### Residencies and the engine's events (R250, R251, R254, R264, R273, R412) -/

/-- The rows of a residency's table: loaded, faulted, marked and in error; a drain completes; a split is written to an idle engine (R250, R251, R254, R264,
R273, R412). -/
def Sys2Proof.Claims.ResidencyEvents : Prop :=
  (∀ (s : State) (k i : Nat) (r : Residency), s.resid? k (decide (2048 ≤ i), i % 2048) = some r →
    (r.st = .loading → ∃ s' r', exec (.residencyLoadComplete ⟨k, i⟩) s = .next s' ∧ s'.resid? k (decide (2048 ≤ i), i % 2048) = some r' ∧
      r'.st = (if r.mark then .stale else if r.pin then .pinned else .resident) ∧ r'.mark = false ∧ r'.data = r.data ∧ r'.loader = none) ∧
    (r.st = .loading → ∀ cause lv b, ∃ s' r', exec (.residencyLoadFault ⟨k, i, cause, lv, b⟩) s = .next s' ∧
      s'.resid? k (decide (2048 ≤ i), i % 2048) = some r' ∧ (r'.st = .evicted ∨ r'.st = .stale) ∧ r'.held = false) ∧
    (r.st ≠ .loading → exec (.residencyLoadComplete ⟨k, i⟩) s = .next s ∧ ∀ cause lv b, exec (.residencyLoadFault ⟨k, i, cause, lv, b⟩) s = .next s) ∧
    ((r.st = .resident ∨ r.st = .pinned ∨ r.st = .evicted) → ∃ s' r', exec (.staleMark ⟨k, i⟩) s = .next s' ∧
      s'.resid? k (decide (2048 ≤ i), i % 2048) = some r' ∧ r'.st = .stale ∧ r'.held = r.held) ∧
    (r.st = .loading → ∃ s' r', exec (.staleMark ⟨k, i⟩) s = .next s' ∧
      s'.resid? k (decide (2048 ≤ i), i % 2048) = some r' ∧ r'.st = .loading ∧ r'.mark = true) ∧
    (r.held = true → r.st ≠ .loading → ∀ tile, ∃ s' r', exec (.tileError ⟨k, i, tile⟩) s = .next s' ∧
      s'.resid? k (decide (2048 ≤ i), i % 2048) = some r' ∧ (r'.st = .evicted ∨ r'.st = .stale) ∧ r'.held = false)) ∧
  (∀ (s : State) (r : OpRef) (t : Thread) (o : Op), s.thread? r.core r.slot = some t → t.op? r.op = some o → o.kind = .drain →
    exec (.drainComplete r) s = .next (s.finishOp r.core r.slot r.op)) ∧
  (∀ (s : State) (k : Nat) (w : Word), s.enginePasses k = false → ∃ s', exec (.engineConfigurationWrite ⟨k, w⟩) s = .next s' ∧
    (s'.cluster k).cfg = if w.toNat % 4 = 0 then 0 else w &&& 0xFFFF3)

/-- XRES creates a residency; loads, faults, marks, errors and drains move it through its states. -/
def Obligations.ResidenciesComeAndGo : Prop := ResidencyCreation ∧ ResidencyEvents

/-! ### The front end (R380 to R397) -/

/-- A write of a function register is a notify, a write of ADMQCB, or one of an MSI-X entry; ADMQCB creates the administration queue and, with zero, drains
it; a notify of the free ring has its commands fetched (R380, R385, R387, R390). -/
def Sys2Proof.Claims.FunctionRegisters : Prop :=
  ∀ (s : State) (f : Nat) (v : Word),
    (∀ q < 256, ∀ wide, exec (.registerWrite ⟨f, 8 * q, v, wide⟩) s = .next (s.push [.notify ⟨f, q, v.setWidth 32⟩])) ∧
    exec (.registerWrite ⟨f, 0x800, v, true⟩) s = .next (s.push [if v = 0 then .admqcbDestroy ⟨f⟩ else .admqcbCreate ⟨f, 0x800, v, true⟩]) ∧
    (∀ n < 64, ((s.fn f).msixAt n).ctl.getLsbD 0 = true → ∃ s', exec (.registerWrite ⟨f, 0x1000 + 16 * n, v, true⟩) s = .next s' ∧
      (s'.fn f).msixAt n = { (s.fn f).msixAt n with addr := v } ∧ s'.msis = s.msis) ∧
    (∀ n < 64, ∃ s', exec (.registerWrite ⟨f, 0x1000 + 16 * n + 12, v, false⟩) s = .next s' ∧
      (s'.fn f).msixAt n = { (s.fn f).msixAt n with ctl := v.extractLsb' 0 32 }) ∧
    (s.queue? f 0 = none → (s.fn f).resetting = false → v ≠ 0 → ∃ s', exec (.admqcbCreate ⟨f, 0x800, v, true⟩) s = .next s' ∧
      (s'.fn f).admqcb = v &&& ~~~63#64 ∧ (s'.queue? f 0).isSome) ∧
    (∀ y, s.queue? f 0 = some y → y.st = .active → y.slots = [] → ∃ s' y', exec (.admqcbDestroy ⟨f⟩) s = .next s' ∧ (s'.fn f).admqcb = 0 ∧
      s'.queue? f 0 = some y' ∧ y'.st = .destroyed) ∧
    (∀ q n, (s.fn f).resetting = true → exec (.notify ⟨f, q, n⟩) s = .next s) ∧
    (∀ q n y c, (s.fn f).resetting = false → (s.pollQcb f q).queue? f q = some y → y.copy = some c → y.st = .active →
      (n.toNat + 2 ^ 32 - y.cidx % 2 ^ 32) % 2 ^ 32 ≤ 2 ^ c.log2d →
      (y.pidx + 2 ^ 32 - y.cidx % 2 ^ 32) % 2 ^ 32 < (n.toNat + 2 ^ 32 - y.cidx % 2 ^ 32) % 2 ^ 32 →
      exec (.notify ⟨f, q, n⟩) s = .next (((s.pollQcb f q).setQueue f q { y with pidx := n.toNat }).push
        (if y.tries = 0 then [.commandFetch ⟨f, q⟩] else [])))

/-- The front end polls a QCB within 100 µs, fetches a sealed entry into a slot and tries one that is not again after 1 µs, dispatches a command that is its
queue's oldest and whose WAIT holds, and writes its completion while the ring has room (R382, R384, R386, R388, R389, R395, R397). -/
def Sys2Proof.Claims.QueuesRun : Prop :=
  (∀ (s : State) (f q : Nat) (y : Queue), s.queue? f q = some y →
    (y.st ≠ .destroyed → y.st ≠ .draining → ∃ s' y', exec (.qcbPoll ⟨f, q⟩) s = .next s' ∧ s'.queue? f q = some y' ∧ y'.pollAt = s.gt + 100000) ∧
    (∀ c bs s1, y.copy = some c → y.st = .active → y.fetchAt ≤ s.gt → y.cidx % 2 ^ 32 ≠ y.pidx → (s.fn f).resetting = false → s.ras.noFetch = false →
      s.boot.recovery = false → s.fnRead f (c.rbase + BitVec.ofNat 64 (128 * (y.cidx % 2 ^ c.log2d))) 128 = (bs, s1) →
      (cmdSealed bs y.cidx c.log2d = true → ∃ s' y', exec (.commandFetch ⟨f, q⟩) s = .next s' ∧ s'.queue? f q = some y' ∧ y'.cidx = y.cidx + 1 ∧
        ∃ z ∈ y'.slots, z.idx = y.cidx ∧ z.cmd = BitVec.ofNat 1024 (ofBytes bs)) ∧
      (cmdSealed bs y.cidx c.log2d = false → y.tries < 8 → exec (.commandFetch ⟨f, q⟩) s =
        .next ((s1.setQueue f q { y with tries := y.tries + 1, fetchAt := s1.gt + 1000 }).timer (s1.gt + 1000) (.commandFetch ⟨f, q⟩)))) ∧
    (∀ s1, (s.fn f).resetting = true ∨ s.pickCmd f = (none, s1) ∧ s1 = s → exec (.commandDispatch ⟨f, q⟩) s = .next s) ∧
    (∀ q' z s1, (s.fn f).resetting = false → s.pickCmd f = (some (q', z), s1) →
      (∃ y', (q', y') ∈ (s.fn f).queues ∧ y'.slots.find? (fun z => z.st == .fetched) = some z ∧
        (cmdWait z.cmd = true → cmdBits z.cmd 128 64 ≤ ((s.fn f).counter (cmdBits z.cmd 16 16)).toNat)) ∧
      (∀ e, cmdEvent ⟨f, q', z.idx, z.cmd⟩ = some e → exec (.commandDispatch ⟨f, q⟩) s =
        .next (((s1.modSlot f q' z.idx fun z => { z with st := .running }).push [e]).push [.commandDispatch ⟨f, q⟩])) ∧
      (14 < z.cmd.toNat % 256 → exec (.commandDispatch ⟨f, q⟩) s =
        .next ((((s1.modSlot f q' z.idx fun z => { z with st := .running }).finishCmd f q' z.idx 1 0 0 0)).push [.commandDispatch ⟨f, q⟩]))) ∧
    (∀ z c bs s1 st d n m, z ∈ y.slots → y.slots = [z] → z.st = .done st d n m → (s.fn f).resetting = false →
      (cmdCpl z.cmd = false → st ≠ 2 → st ≠ 9 → exec (.completionWrite ⟨f, q, z.idx⟩) s = .next (s.freeSlot f q z st)) ∧
      (cmdCpl z.cmd = true → y.copy = some c → s.fnRead f (y.addr + 24) 8 = (bs, s1) → (y.done + 2 ^ 64 - ofBytes bs) % 2 ^ 64 < 2 ^ c.log2c →
        ∃ s' y', exec (.completionWrite ⟨f, q, z.idx⟩) s = .next s' ∧ s'.queue? f q = some y' ∧ y'.done = y.done + 1 ∧ y'.slots = []))) ∧
  (∀ (s : State) (f : Nat), ∃ s', exec (.pluginOverrun ⟨f⟩) s = .next s' ∧ (s'.fn f).plugin = false ∧ s'.mem = s.mem) ∧
  (∀ (s : State) (u : Unit), exec (.frontEndRestart ⟨u⟩) s = .next (s.push (s.fns.flatMap fun f => f.2.queues.flatMap fun q =>
    [.commandFetch ⟨f.1, q.1⟩, .commandDispatch ⟨f.1, q.1⟩]))) ∧
  (∀ (s : State) (f : Nat), ∃ s', exec (.functionLevelReset ⟨f⟩) s = .next s' ∧ (f ≠ 0 → (s'.fn f).resetting = true) ∧
    (f = 0 → (s'.fn 0).resetDue = true ∧ ∀ e ∈ s.fns, e.1 ≠ 0 → (s'.fn e.1).resetting = true))

/-- Function registers and command queues: creation, polling, fetch, dispatch and completion. -/
def Obligations.FunctionQueues : Prop := FunctionRegisters ∧ QueuesRun

/-- A command that runs in its slot, of a function that does not reset, with no bit set beside the fields of its arguments. -/
def Sys2Proof.Claims.CmdRuns (s : State) (x : EvCmd) (fields : List (Nat × Nat)) : Prop :=
  (∃ y, s.slot? x.fn x.q x.idx = some y ∧ y.st = .running ∧ y.step = 0) ∧ (s.fn x.fn).resetting = false ∧ cmdReserved x.cmd fields = false

/-- The command's completion with status 0. -/
def Sys2Proof.Claims.done (s : State) (x : EvCmd) : State := s.finishCmd x.fn x.q x.idx 0 0 0 0

/-- NOP, SIGNAL, TFLUSH, MAPQ, DIRDUMP, QCREATE, QDESTROY and DROVER have their effect and complete (R79, R90, R354, R355, R385, R386, R392, R394). -/
def Sys2Proof.Claims.CommandsOfTheFunction : Prop :=
  ∀ (s : State) (x : EvCmd),
    (CmdRuns s x [] → exec (.nopCommand x) s = .next (done s x)) ∧
    (CmdRuns s x [argF 0 0 16, argD 1] → ∃ s', exec (.signal x) s = .next s' ∧ (s'.fn x.fn).counter (cmdArg x.cmd 0) =
      (s.fn x.fn).counter (cmdArg x.cmd 0) + BitVec.ofNat 64 (cmdArg x.cmd 1)) ∧
    (∀ p held, CmdRuns s x [argF 0 0 16] → s.part? (s.fn x.fn).part = some p →
      held = (s.threads.any fun e => s.inAsid (homeList p) (BitVec.ofNat 16 (cmdArg x.cmd 0)) e &&
        e.2.ops.any fun o => o.parked.isNone && o.walk.isNone && o.kind.translated.isSome) →
      (held = true → exec (.tflush x) s = .next (s.later1 (.tflush x))) ∧
      (held = false → ∃ s', exec (.tflush x) s = .next s' ∧ s'.mem = s.mem ∧
        ∀ k l, k ∈ homeList p → alook k s'.tlbs = some l → ∀ t ∈ l, t.asid ≠ BitVec.ofNat 16 (cmdArg x.cmd 0))) ∧
    (∀ p, CmdRuns s x [argD 0] → s.part? (s.fn x.fn).part = some p → s.fnReach x.fn (BitVec.ofNat 64 (cmdArg x.cmd 0)) (8 * (homeList p).length + 8) = true →
      exec (.mapq x) s = .next (done (s.fnWrite x.fn (BitVec.ofNat 64 (cmdArg x.cmd 0)) (vecBytes 8 ((homeList p).map s.mapWord ++ [p.orphans]))) x)) ∧
    (∀ p, CmdRuns s x [argD 0, argD 1] → x.q = 0 → x.fn = 0 → s.part? (s.fn x.fn).part = some p → s.fnOwns x.fn (cmdArg x.cmd 0) 1 = true →
      s.fnReach x.fn (BitVec.ofNat 64 (cmdArg x.cmd 1)) 36 = true → exec (.dirdump x) s = .next (done (s.fnWrite x.fn (BitVec.ofNat 64 (cmdArg x.cmd 1))
        ((p.entry (cmdArg x.cmd 0 / 256)).dump (p.readers.any fun r => r.name = cmdArg x.cmd 0 / 256))) x)) ∧
    (CmdRuns s x [argF 0 0 8, argD 1] → x.q = 0 → cmdArg x.cmd 0 ≠ 0 → cmdArg x.cmd 1 % 64 = 0 → s.queue? x.fn (cmdArg x.cmd 0) = none →
      s.fnReach x.fn (BitVec.ofNat 64 (cmdArg x.cmd 1)) 192 = true →
      ∃ s' y, exec (.qcreate x) s = .next s' ∧ s'.queue? x.fn (cmdArg x.cmd 0) = some y ∧ y.addr = BitVec.ofNat 64 (cmdArg x.cmd 1)) ∧
    (∀ y, CmdRuns s x [argF 0 0 8] → x.q = 0 → cmdArg x.cmd 0 ≠ 0 → s.queue? x.fn (cmdArg x.cmd 0) = some y → y.st = .active → y.slots = [] →
      ∃ s' y', exec (.qdestroy x) s = .next s' ∧ s'.queue? x.fn (cmdArg x.cmd 0) = some y' ∧ y'.st = .destroyed) ∧
    (∀ p, CmdRuns s x [argD 0, argF 1 0 1] → s.fnOwns x.fn (cmdArg x.cmd 0) 1088 = true → s.fnPriv x.fn (cmdArg x.cmd 0) 1088 = true →
      cmdArg x.cmd 1 = 0 → s.part? (s.fn x.fn).part = some p → ∃ s' p', exec (.drover x) s = .next s' ∧ s'.part? (s.fn x.fn).part = some p' ∧
      p'.drover.on = false ∧ p'.drover.block = cmdArg x.cmd 0)

/-- The region commands: a LAUNCH whose checks pass delivers its first part, one without parts ends with status 3; RRELEASE removes a region that has ended, RPRIO sets its
priority, POSTSET copies the entries of its posts (R291, R292, R341, R346, R393). -/
def Sys2Proof.Claims.RegionCommands : Prop :=
  ∀ (s : State) (x : EvCmd),
    (∀ s1, CmdRuns s x ([argD 0, argD 1, argF 2 0 8] ++ (List.range 6).map fun i => argD (3 + i)) → s.sliced x.fn = false →
      s.launchSetup x (cmdArg x.cmd 0) = .go s1 →
      exec (.launch x) s = .next ((s1.lateErrs (s1.fn x.fn).part).launchPart x (cmdArg x.cmd 0) 0)) ∧
    (∀ p, CmdRuns s x ([argD 0, argD 1, argF 2 0 8] ++ (List.range 6).map fun i => argD (3 + i)) → s.sliced x.fn = false → s.part? (s.fn x.fn).part = some p →
      s.fnOwns x.fn (cmdArg x.cmd 0) 512 = true → cmdArg x.cmd 2 % 256 = 0 → exec (.launch x) s = .next (s.finishCmd x.fn x.q x.idx 3 0 0 0)) ∧
    (∀ r, s.regionFor x.fn (cmdArg x.cmd 0) = .ok r →
      (CmdRuns s x [argD 0] → r.rstate = .ended → r.crecDue = false →
        ∃ s', exec (.rrelease x) s = .next s' ∧ s'.region? (cmdArg x.cmd 0) = none) ∧
      (CmdRuns s x [argD 0] → r.rstate ≠ .ended → exec (.rrelease x) s = .next (s.finishCmd x.fn x.q x.idx 3 0 0 0)) ∧
      (CmdRuns s x [argD 0, argF 1 0 4] → ∃ s' r', exec (.rprio x) s = .next s' ∧ s'.region? (cmdArg x.cmd 0) = some r' ∧ r'.prio = cmdArg x.cmd 1) ∧
      (∀ bs s1, CmdRuns s x [argD 0, argD 1] → r.present = true → s.postTable (cmdArg x.cmd 0) r = (some bs, s1) →
        (∀ i < 64, postBad (postEntry bs i) = false) → exec (.postset x) s =
          .next (done (s1.copyPosts (cmdArg x.cmd 0) r bs (postList (r.posts &&& BitVec.ofNat 64 (cmdArg x.cmd 1)))) x)))

/-- The commands have their effect and complete. -/
def Obligations.Commands : Prop := CommandsOfTheFunction ∧ RegionCommands

/-! ### Switches (R370 to R377, R396) -/

/-- PREEMPT begins the switch that the region's SWMODE or its own MODE names, RESTORE asks for the return, RESIZE notes the new tracts; a deadline cuts what is left, a
quantum's end and a core's removal begin switches of their own (R371 to R377, R396). -/
def Obligations.SwitchesBegin : Prop :=
  (∀ (s : State) (x : EvCmd) (r : Region) (us : Nat), s.regionFor x.fn (cmdArg x.cmd 0) = .ok r → us = cmdArg x.cmd 1 / 2 ^ 32 % 2 ^ 16 →
    (CmdRuns s x (argD 0 :: preemptFields) → s.fnOwns x.fn (cmdArg x.cmd 2) 1 = true → s.areaOk x.fn (cmdArg x.cmd 2) r = true → 10 ≤ us → us ≤ 10000 →
      r.switch = none → r.rstate ≠ .ended →
      (∃ s' r' w, exec (.preemptSwitch x) s = .next s' ∧ s'.region? (cmdArg x.cmd 0) = some r' ∧ r'.switch = some w ∧
        w.mode = (if r.swmode then 1 else 0) ∧ w.sva = cmdArg x.cmd 2 ∧ w.deadline = s.gt + 1000 * us ∧ w.done = false) ∧
      (∀ n a bs s1 l hosts, cmdArg x.cmd 1 % 4 = 1 → n = cmdArg x.cmd 1 / 2 ^ 16 % 2 ^ 14 → 0 < n → a = BitVec.ofNat 64 (cmdArg x.cmd 3) →
        s.fnReach x.fn a (2 * n) = true → s.fnRead x.fn a (2 * n) = (bs, s1) → mapEntries bs n = some l → l.Nodup →
        (l.all fun k => r.cmap.contains k && r.aliases.all fun e => clusterOf e.1 ≠ k && clusterOf e.2 ≠ k) = true → s1.pickHosts r l l = some hosts →
        ∃ s' r' w, exec (.preemptSpatial x) s = .next s' ∧ s'.region? (cmdArg x.cmd 0) = some r' ∧ r'.switch = some w ∧ w.mode = 2 ∧
          w.engines = hosts ∧ w.deadline = s.gt + 1000 * us)) ∧
    (∀ w, CmdRuns s x [argD 0, argD 1] → r.switch = some w → w.done = true → (w.sva = cmdArg x.cmd 1 ∨ ∀ v ∈ r.vacated, v.sva ≠ cmdArg x.cmd 1) →
      w.restore = none → s.fnOwns x.fn (cmdArg x.cmd 1) 1 = true →
      s.areaOk x.fn (cmdArg x.cmd 1) r = true → exec (.restore x) s = .next (s.modSwitch (cmdArg x.cmd 0) fun w =>
        { w with sva := cmdArg x.cmd 1, restore := some (x.fn, (x.q, x.idx)) })) ∧
    (∀ w, CmdRuns s x [argD 0, argD 1] → r.switch = none → r.vacated.getLast? = some w → (∀ v ∈ r.vacated, v.sva ≠ cmdArg x.cmd 1) →
      s.fnOwns x.fn (cmdArg x.cmd 1) 1 = true → s.areaOk x.fn (cmdArg x.cmd 1) r = true → exec (.restore x) s =
      .next (s.modRegion (cmdArg x.cmd 0) fun r =>
        { r with switch := some { w with sva := cmdArg x.cmd 1, restore := some (x.fn, (x.q, x.idx)) }, vacated := r.vacated.filter (· ≠ w) })) ∧
    (CmdRuns s x [argD 0, argD 1] → r.switch = none → r.vacated = [] → s.fnOwns x.fn (cmdArg x.cmd 1) 1 = true →
      exec (.restore x) s = .next (s.finishCmd x.fn x.q x.idx 3 0 0 0))) ∧
  (∀ (s : State) (x : EvCmd) (q : Part) (l : List Nat), CmdRuns s x [argF 0 0 6, argD 1, argD 2, argF 3 0 32] → x.q = 0 → x.fn = 0 →
    s.part? (cmdArg x.cmd 0) = some q → l = tractList x.cmd → l ≠ [] → q.resize = none →
    (s.modPart (cmdArg x.cmd 0) fun q => { q with tracts := l }).partsOk = true →
    (∀ e ∈ s.parts, e.1 = cmdArg x.cmd 0 ∨ ∀ t ∈ l, e.2.tracts.contains t = false) → q.blocksUsed ≤ q.cvw * 512 * (64 * l.length) → s.leaving (cmdArg x.cmd 0) l = [] →
    exec (.resize x) s = .next (s.modPart (cmdArg x.cmd 0) fun q => { q with resize := some ⟨l, (x.fn, (x.q, x.idx)), []⟩ })) ∧
  (∀ (s : State) (g : Nat) (r : Region) (w : Switch), s.region? g = some r → r.switch = some w →
    ((w.done = true ∨ s.gt < w.deadline) → exec (.switchDeadline ⟨g⟩) s = .next s) ∧
    (w.done = false → w.deadline ≤ s.gt → ∃ s' r' w', exec (.switchDeadline ⟨g⟩) s = .next s' ∧ s'.region? g = some r' ∧ r'.switch = some w' ∧ w'.cut = true)) ∧
  (∀ (s : State) (p : Nat) (q : Part), s.part? p = some q →
    (q.nextFn = none → exec (.quantumExpiry ⟨p⟩) s = .next (s.modPart p fun q => { q with quantumEnd := s.gt + q.quantum })) ∧
    (∀ f, q.nextFn = some f → q.world = none → q.resize = none → ∃ s' q', exec (.quantumExpiry ⟨p⟩) s = .next s' ∧ s'.part? p = some q' ∧
      q'.world = some ⟨q.active, f, false, false⟩)) ∧
  (∀ (s : State) (c h g : Nat) (r : Region), s.regions = [(g, r)] → r.switch = none → r.present = true → r.cmap.contains (clusterOf c) = true → r.aliases = [] →
    clusterOf h = clusterOf c → h ≠ c → s.coreEnabled h = true → s.coreEnabled c = true →
    ∃ s' r' w, exec (.coreRemoval ⟨c, h⟩) s = .next s' ∧ s'.region? g = some r' ∧ r'.switch = some w ∧ w.mode = 2 ∧ w.moves = [(c, h)] ∧ w.keep = true)

/-! ### Caravan Link (R398 to R409) -/

/-- The descriptor at SQCONS of an endpoint, in the state after it was read. -/
def Sys2Proof.Claims.AtHead (s : State) (x : EvDesc) (q : Part) (y : LinkCtx) (d : V512) (s' : State) : Prop :=
  s.part? x.part = some q ∧ ∃ s1, s.linkCtx x.part x.ep = (some y, s1) ∧ y.sends = true ∧ y.sqcons = x.idx ∧ x.idx < y.sqprod ∧ s1.readDesc x.part y x.idx = (d, s')

/-- SQPROD has the next descriptor issued; a PUT, a GET and the atomics leave as packets that no 512-byte boundary of the target cuts, ALLRED posts its member's part; a descriptor that
breaks a limit completes with status 1 (R398, R401 to R404, R408). -/
def Sys2Proof.Claims.DescriptorsIssue : Prop :=
  ∀ (s s1 : State) (x : EvDesc) (q : Part) (y : LinkCtx) (d : V512), AtHead s x q y d s1 →
    (∀ e, (s1.openReqs x.part x.ep) = [] → descEvent x d = some e → exec (.sqprod ⟨x.part, x.ep⟩) s = .next (s1.push [e])) ∧
    (∀ (i : Instr), i = .put x ∧ descF d 0 8 = 1 ∨ i = .get x ∧ descF d 0 8 = 2 ∨ i = .aadd x ∧ descF d 0 8 = 3 ∨ i = .acas x ∧ descF d 0 8 = 4 ∨
      i = .aswp x ∧ descF d 0 8 = 5 → descBad d = true → exec i s = .next ((s1.consumeDesc x).linkComplete x.part x.ep x.idx d 1 0)) ∧
    (descBad d = false → descF d 0 8 = 2 → q.holds (descF d 128 52) (descF d 192 32) = true →
      exec (.get x) s = .next ((s1.openReq x d ((packetsOf (descF d 64 64) (descF d 192 32)).map fun k =>
        (descF d 64 64 + k.1, .get k.2, descF d 128 52 + k.1))).consumeDesc x)) ∧
    (∀ bs s2, descBad d = false → descF d 0 8 = 1 → q.holds (descF d 128 52) (descF d 192 32) = true →
      State.linkRead x.part (descF d 128 52) (descF d 192 32) s1 = .ok bs s2 →
      exec (.put x) s = .next ((s2.openReq x d ((packetsOf (descF d 64 64) (descF d 192 32)).map fun k =>
        (descF d 64 64 + k.1, .put ((bs.drop k.1).take k.2), descF d 128 52 + k.1))).consumeDesc x)) ∧
    (descBad d = false → descF d 0 8 = 3 → exec (.aadd x) s = .next ((s1.openReq x d [(descF d 64 64, .aadd (descF d 10 2 = 3) (d.extractLsb' 256 64), 0)]).consumeDesc x)) ∧
    (descBad d = false → descF d 0 8 = 4 → exec (.acas x) s = .next ((s1.openReq x d
      [(descF d 64 64, .acas (descF d 10 2 = 3) (d.extractLsb' 256 64) (d.extractLsb' 320 64), 0)]).consumeDesc x)) ∧
    (descBad d = false → descF d 0 8 = 5 → exec (.aswp x) s = .next ((s1.openReq x d [(descF d 64 64, .aswp (descF d 10 2 = 3) (d.extractLsb' 256 64), 0)]).consumeDesc x)) ∧
    (∀ y' s2 s3 op ty sat l bs, descBad d = false → descF d 0 8 = 6 → s1.linkCtx x.part (descF d 32 16) = (some y', s2) → collOp d = some (op, ty, sat) →
      (s2.groupOf x.part (descF d 16 16)).1 = some l → descF d 16 16 < 256 → descF d 192 32 % elemBytes ty = 0 → l.contains s2.modId = true →
      y'.wlen ≠ 0 → descF d 64 64 + descF d 192 32 ≤ y'.wlen → q.holds (y'.wbase + descF d 64 64) (descF d 192 32) = true →
      q.holds (descF d 128 52) (descF d 192 32) = true → State.linkRead x.part (descF d 128 52) (descF d 192 32) s2 = .ok bs s3 → s3.colls = [] → 2 ≤ l.length →
      ∃ s' c, exec (.allred x) s = .next s' ∧ s'.colls = [c] ∧ c.part = x.part ∧ c.ep = x.ep ∧ c.idx = x.idx ∧ c.own = bs ∧
        c.tag = d.extractLsb' 224 32 ∧ c.mods = l)

/-- A request at its target is applied when its context allows it, and answered with a status when not; one whose context is not cached waits for it (R404, R406); answers, retries,
retirements and beacons act on their port's packets (R399, R405); an abort ends a collective (R409); flit errors are counted (R398, R419). -/
def Sys2Proof.Claims.LinkPackets : Prop :=
  (∀ (s : State) (x : EvLinkReq) (q : Part) (n : Nat), s.part? x.part = some q → q.portOf x.tep = some n → s.gt ≤ x.expiry → (s.port n).disabled = false → linkRight x.op ≠ 2 →
    (s.port n).atoms = [] → (s.port n).seen = [] →
    ((s.linkStays n x = true ∨ s.linkHeld x.part = true) → exec (.linkRequestArrival x) s = .next (s.later1 (.linkRequestArrival x))) ∧
    (s.linkStays n x = false → s.linkHeld x.part = false →
    ((s.port n).cached.contains (x.part, x.tep) = false → (s.port n).waiting.length < 64 → exec (.linkRequestArrival x) s =
      .next ((s.modPort n fun y => { y with waiting := y.waiting ++ [x] }).push [.endpointContextFill ⟨x.part, n, x.tep⟩])) ∧
    (∀ c s1, (s.port n).cached.contains (x.part, x.tep) = true → s.linkCtx x.part x.tep = (c, s1) →
      (∀ st, State.linkTarget q c x = .error st → exec (.linkRequestArrival x) s = .next (s1.linkAnswer x (.status st))) ∧
      (∀ a bs s2, State.linkTarget q c x = .ok a → x.op = .put bs → State.linkPut x.part a bs s1 = .ok () s2 →
        exec (.linkRequestArrival x) s = .next (s2.linkAnswer x (.ok 0 []))) ∧
      (∀ a m bs s2, State.linkTarget q c x = .ok a → x.op = .get m → State.linkRead x.part a m s1 = .ok bs s2 →
        exec (.linkRequestArrival x) s = .next (s2.linkAnswer x (.ok 0 bs)))))) ∧
  (∀ (s : State) (p n ep : Nat), ∃ s', exec (.endpointContextFill ⟨p, n, ep⟩) s = .next s' ∧ (p, ep) ∈ (s'.port n).cached ∧
    ∀ z ∈ (s'.port n).waiting, z.part ≠ p ∨ z.tep ≠ ep) ∧
  (∀ (s : State) (n req : Nat) (k : LinkPkt), (s.port n).pkt? req = some k →
    (∀ p a cp, k.ans = none → (s.port n).synced = false → exec (.linkAcknowledgement ⟨p, n, req, a, cp⟩) s =
      .next (s.later1 (.linkAcknowledgement ⟨p, n, req, a, cp⟩))) ∧
    (∀ p ns cp, k.ans = none → (s.port n).synced = true → exec (.linkAcknowledgement ⟨p, n, req, .nack ns, cp⟩) s =
      .next (s.modPkt n req fun k => { k with again := s.gt + ns, unanswered := k.unanswered - 1 })) ∧
    (∀ p st cp, k.ans = none → (s.port n).synced = true → exec (.linkAcknowledgement ⟨p, n, req, .status st, cp⟩) s =
      .next ((s.modPkt n req fun k => { k with ans := some (.status st), expiries := k.expiries.filter (· ≠ cp) }).push [.linkRetire ⟨k.part, n, req⟩])) ∧
    (∀ p, (k.ans.isSome ∨ s.gt < k.again) → exec (.linkRetry ⟨p, n, req⟩) s = .next s) ∧
    (∀ p, k.ans = none → k.again ≤ s.gt → k.unanswered < 8 → k.tmod ≠ s.modId → exec (.linkRetry ⟨p, n, req⟩) s =
      .next (s.modPkt n req fun k => { k with expiries := k.expiries ++ [s.gt + 25000], again := s.gt + 20000, unanswered := k.unanswered + 1 })) ∧
    (∀ p, k.retirable s.gt = false → exec (.linkRetire ⟨p, n, req⟩) s = .next s) ∧
    (∀ p, k.retirable s.gt = true → ∃ s', exec (.linkRetire ⟨p, n, req⟩) s = .next s' ∧ (s'.port n).retry = (s.port n).retry.erase k)) ∧
  (∀ (s : State) (n : Nat) (diff : Int), exec (.linkBeacon ⟨n, diff⟩) s = .next (s.modPort n fun y => { y with synced := decide (diff.natAbs ≤ 250) })) ∧
  (∀ (s : State) (x : EvCollAbort) (c : Coll), s.colls.find? (fun c => c.part = x.part && c.group = x.group && c.tag = x.tag) = some c →
    (x.first = false ∨ ∀ n, (s.part? c.part).bind (·.portOf c.ep) = some n → (s.port n).synced = true) →
    ∃ s', exec (.collectiveAbort x) s = .next s' ∧ s'.colls = s.colls.erase c) ∧
  (∀ (s : State) (x : EvAtom), ∃ s', exec (.atomicResultCacheExpiry x) s = .next s' ∧ ∀ e ∈ (s'.port x.port).atoms,
    e ∈ (s.port x.port).atoms ∧ (e.smod = x.smod → e.sport = x.sport → e.req = x.req → s.gt < e.expiry + 250)) ∧
  (∀ (s : State) (n : Nat), ((s.port n).crc.filter fun t => s.gt < t + 1000).length < 15 →
    exec (.flitCrcFailure ⟨n⟩) s = .next (s.modPort n fun y => { y with crc := ((s.port n).crc.filter fun t => s.gt < t + 1000) ++ [s.gt] })) ∧
  (∀ (s : State) (n : Nat), 15 ≤ ((s.port n).crc.filter fun t => s.gt < t + 1000).length →
    ∃ s', exec (.flitCrcFailure ⟨n⟩) s = .next s' ∧ s'.agenda = s.agenda ++ [.customsAlarm ⟨1, some n⟩])

/-- Descriptors leave as packets, and link packets are applied, answered, retried and retired. -/
def Obligations.CaravanLink : Prop := DescriptorsIssue ∧ LinkPackets

/-! ### The module (R411 to R421) -/

/-- A scrub poisons the sector that it cannot correct; a plan sets a cluster's margin, clock and grade (R413, R418). Level 3 halts the module and erases its keys, level 1 disables the
port, and level 2 clears (R419, R420); a cold reset keeps what is fused and the host's memory; measurements are answered unless the keys are gone (R421). -/
def Obligations.ModuleEvents : Prop :=
  (∀ (s : State) (pa : Nat), exec (.scrub ⟨.dram pa, .clean⟩) s = .next s ∧
    (∀ k i t, exec (.scrub ⟨.tile k i t, .uncorrectable⟩) s = .next (s.push [.tileError ⟨k, i, t⟩])) ∧
    (s.ownerOf pa = none → exec (.scrub ⟨.dram pa, .corrected⟩) s = .next s) ∧
    (s.ownerOf (64 * (pa / 64)) = none → s.ras.pllog2n = 0 → s.registersAt (64 * (pa / 64)) = none → s.l1Ahead (pa / 64) = false →
      s.l2Ahead (pa / 64) = false → s.poisonOf (pa / 64) = none →
      ∃ s', exec (.scrub ⟨.dram pa, .uncorrectable⟩) s = .next s' ∧ s'.poisonOf (pa / 64) = some 7 ∧ s'.mem = s.mem)) ∧
  (∀ (s : State) (k mv mhz : Nat), (planOk mv mhz = false → exec (.marginReplan ⟨k, mv, mhz⟩) s = .next s) ∧
    (mv ≤ 150 → mv % 5 = 0 → 1200 ≤ mhz → mhz ≤ 1500 → mhz % 25 = 0 → ∃ s', exec (.marginReplan ⟨k, mv, mhz⟩) s = .next s' ∧
      (s'.cluster k).mv = mv ∧ (s'.cluster k).mhz = mhz ∧ (s'.cluster k).events = 0)) ∧
  (∀ (s : State), (s.ras.halted = true → ∀ x, exec (.customsAlarm x) s = .next s) ∧
    (s.ras.halted = false → ∀ p, ∃ s', exec (.customsAlarm ⟨3, p⟩) s = .next s' ∧ s'.ras.halted = true ∧ s'.ras.erased = true ∧ s'.ras.alarm = 3 ∧
      s'.agenda = [] ∧ s'.mem = s.mem) ∧
    (s.ras.halted = false → ∀ n, ∃ s', exec (.customsAlarm ⟨1, some n⟩) s = .next s' ∧ (s'.port n).disabled = true ∧ 1 ≤ s'.ras.alarm) ∧
    (∀ u, s.ras.alarm = 2 → s.ras.halted = false → ∃ s', exec (.level2Clear ⟨u⟩) s = .next s' ∧ s'.ras.alarm = 0 ∧ s'.ras.noFetch = false) ∧
    (∀ u, s.ras.alarm ≠ 2 → exec (.level2Clear ⟨u⟩) s = .next s)) ∧
  (∀ (s : State) (x : EvBoot), ∃ s', exec (.coldReset x) s = .next s' ∧ s'.threads = [] ∧ s'.regions = [] ∧ s'.parts = [] ∧ s'.fusedCores = s.fusedCores ∧
    s'.fusedEngines = s.fusedEngines ∧ ∀ a, memByte s'.mem a = if 2 ^ 51 ≤ a then memByte s.mem a else 0) ∧
  (∀ (s : State) (x : EvSpdm), (s.ras.erased = true → exec (.getMeasurements x) s = .next s) ∧
    (s.ras.erased = false → s.boot.recovery = false → ∃ s' a, exec (.getMeasurements x) s = .next s' ∧ s'.boot.answers = s.boot.answers ++ [a] ∧
      a.nonce = x.nonce ∧ a.regs = s.boot.regs))

/-! ### Guards, hard-wired registers and frames (R25, R26) -/

/-- The guard that an instruction's word carries; REPE has none that could be false, and an event has none. -/
def Sys2Proof.Claims.guardOf (i : Instr) : Option Guard :=
  (encode i).bind fun w => if w.extractLsb' 88 8 = 0x3E then none else some (headOf w).g

/-- R25: an instruction executes when pGP XOR GN is 1. With a false guard it leaves the whole state, whatever its operands hold; the PC has
moved on before. The guard with both fields zero is true, (!p0) never is. -/
def Obligations.FalseGuard : Prop :=
  (∀ (t : Thread) (g : Guard), t.guard g = (t.rp g.p ^^ g.neg)) ∧
  (∀ (i : Instr) (g : Guard) (s : State) (t : Thread), guardOf i = some g → s.curT? = some t → t.guard g = false → exec i s = .next s) ∧
  (∀ t : Thread, t.guard ⟨0, false⟩ = true ∧ t.guard ⟨0, true⟩ = false) ∧
  (∀ (t : Thread) (l : V512), (t.advance l).leadPc = nextPc t.leadPc)

/-- R196: division never traps and sets no flag, by zero and at the most negative number too. -/
def Obligations.DivisionCorners : Prop :=
  (∀ (x : AluA) (s : State) (t : Thread), Runs s t x.g →
    (∀ i, (i = .div x ∨ i = .divu x ∨ i = .rem x ∨ i = .remu x) → ∃ v, exec i s = .next (s.setCur (t.wg x.d v))) ∧
    (uns (bits x.w) (t.rg x.b) = 0 →
      exec (.div x) s = .next (s.setCur (t.wg x.d (BitVec.allOnes 64))) ∧
      exec (.divu x) s = .next (s.setCur (t.wg x.d (cut (bits x.w) (2 ^ bits x.w - 1)))) ∧
      exec (.rem x) s = .next (s.setCur (t.wg x.d (cut (bits x.w) (t.rg x.a).toNat))) ∧
      exec (.remu x) s = .next (s.setCur (t.wg x.d (cut (bits x.w) (t.rg x.a).toNat)))) ∧
    (sig (bits x.w) (t.rg x.a) = -(2 ^ (bits x.w - 1)) → sig (bits x.w) (t.rg x.b) = -1 →
      exec (.div x) s = .next (s.setCur (t.wg x.d (cut (bits x.w) (-(2 ^ (bits x.w - 1)))))) ∧
      exec (.rem x) s = .next (s.setCur (t.wg x.d 0)) ∧
      exec (.divu x) s = .next (s.setCur (t.wg x.d (cut (bits x.w) (uns (bits x.w) (t.rg x.a) / uns (bits x.w) (t.rg x.b))))) ∧
      exec (.remu x) s = .next (s.setCur (t.wg x.d (cut (bits x.w) (uns (bits x.w) (t.rg x.a) % uns (bits x.w) (t.rg x.b))))))) ∧
  (∀ (x : AluI) (s : State) (t : Thread), Runs s t x.g →
    (∀ i, (i = .divImm x ∨ i = .divuImm x ∨ i = .remImm x ∨ i = .remuImm x) → ∃ v, exec i s = .next (s.setCur (t.wg x.d v))) ∧
    (x.imm = 0 →
      exec (.divImm x) s = .next (s.setCur (t.wg x.d (BitVec.allOnes 64))) ∧ exec (.divuImm x) s = .next (s.setCur (t.wg x.d (BitVec.allOnes 64))) ∧
      exec (.remImm x) s = .next (s.setCur (t.wg x.d (t.rg x.a))) ∧ exec (.remuImm x) s = .next (s.setCur (t.wg x.d (t.rg x.a)))) ∧
    ((t.rg x.a).toInt = -(2 ^ 63) → x.imm.toInt = -1 →
      exec (.divImm x) s = .next (s.setCur (t.wg x.d (t.rg x.a))) ∧ exec (.remImm x) s = .next (s.setCur (t.wg x.d 0)) ∧
      exec (.divuImm x) s = .next (s.setCur (t.wg x.d 0)) ∧ exec (.remuImm x) s = .next (s.setCur (t.wg x.d (t.rg x.a)))))

/-- R26: g0 reads zero and p0 reads one, a write to either is discarded, and every other register of g, p, v, q, m and fmt reads what was
written last; the value of one register is no other's. -/
def Obligations.HardWiredRegisters : Prop :=
  ∀ t : Thread,
    t.rg 0 = 0 ∧ t.rp 0 = true ∧ (∀ v, t.wg 0 v = t) ∧ (∀ b, t.wp 0 b = t) ∧
    (∀ (r r' : GReg) (v : Word), (t.wg r v).rg r' = if r' = 0 then 0 else if r' = r then v else t.rg r') ∧
    (∀ (r r' : Reg3) (b : Bool), (t.wp r b).rp r' = if r' = 0 then true else if r' = r then b else t.rp r') ∧
    (∀ (r r' : VReg) (v : V512), (t.wv r v).rv r' = if r' = r then v else t.rv r') ∧
    (∀ (r r' : Reg3) (l : List Word), (t.wq r l).rq r' = if r' = r then l else t.rq r') ∧
    (∀ (r r' : Reg3) (v : V512), (t.wm r v).rm r' = if r' = r then v else t.rm r') ∧
    (∀ (r r' : FReg) (v : BitVec 32), (t.wf r v).rf r' = if r' = r then v else t.rf r') ∧
    (∀ (r : GReg) (v : Word), ∃ g, t.wg r v = { t with g := g }) ∧ (∀ (r : Reg3) (b : Bool), ∃ p, t.wp r b = { t with p := p }) ∧
    (∀ (r : VReg) (v : V512), ∃ w, t.wv r v = { t with v := w })

/-- The one register that an instruction may write. -/
inductive Sys2Proof.Claims.Dest where
  | g (r : GReg)
  | p (r : Reg3)
  | v (r : VReg)
  | none
  deriving DecidableEq

/-- The instructions that act on registers alone: what each writes, and whether it may set flags of RCTL. -/
def Sys2Proof.Claims.destOf : Instr → Option (Dest × Bool)
  | .clz x | .ctz x | .popc x | .brev x => some (.g x.d, false)
  | .sext x | .zext x => some (.g x.d, false)
  | .bfx x => some (.g x.d, false)
  | .bfi x => some (.g x.d, false)
  | .cmp x => some (.p x.d, false)
  | .cmpImm x => some (.p x.d, false)
  | .sel x => some (.g x.d, false)
  | .mov x => some (.g x.d, false)
  | .li x => some (.g x.d, false)
  | .lea x => some (.g x.d, false)
  | .leaImm x => some (.g x.d, false)
  | .fadd x | .fsub x | .fmul x => some (.g x.d, true)
  | .fmin x | .fmax x => some (.g x.d, false)
  | .fabs x | .fneg x => some (.g x.d, false)
  | .ffma x => some (.g x.d, true)
  | .fcmp x => some (.p x.d, false)
  | .frnd x => some (.g x.d, true)
  | .nop _ => some (.none, false)
  | .pand x | .por x | .pxor x => some (.p x.d, false)
  | .pnot x => some (.p x.d, false)
  | .pset x => some (.p x.d, false)
  | .qcnt x => some (.g x.d, false)
  | .repstat x => some (.g x.d, false)
  | .vadd x | .vsub x => some (.v x.d, true)
  | .vmul x => some (.v x.d, true)
  | .vfma x | .vfms x => some (.v x.d, true)
  | .vneg x | .vabs x => some (.v x.d, true)
  | .vmin x | .vmax x => some (.v x.d, true)
  | .vand x | .vor x | .vxor x => some (.v x.d, false)
  | .vshl x | .vshr x | .vsra x => some (.v x.d, false)
  | .vcmp x => some (.v x.d, false)
  | .vsel x => some (.v x.d, false)
  | .vrcp x | .vrsq x | .vexp2 x | .vlog2 x | .vsinp x | .vtanh x => some (.v x.d, true)
  | .vsqrt x => some (.v x.d, true)
  | .vred x | .vscan x => some (.v x.d, true)
  | .vdot x => some (.v x.d, true)
  | .vmov x => some (.v x.d, false)
  | i => match aluReg i, bitReg i, aluImm i, bitImm i with
    | some (x, _), _, _, _ => some (.g x.d, false)
    | _, some (x, _), _, _ => some (.g x.d, false)
    | _, _, some (x, _), _ => some (.g x.d, false)
    | _, _, _, some (_, d, _) => some (.g d, false)
    | _, _, _, _ => none

/-- The frame of these instructions: every register but the destination, every special register, every other thread and every byte of memory
and of every scratchpad is as before; RCTL keeps its bits but for the sticky flags of a floating instruction, which are never cleared. -/
def Obligations.RegisterFrame : Prop :=
  ∀ (i : Instr) (s s' : State) (t : Thread) (d : Dest) (fl : Bool), destOf i = some (d, fl) → s.curT? = some t → exec i s = .next s' →
    ∃ t', s'.curT? = some t' ∧ t' = { t with g := t'.g, p := t'.p, v := t'.v, rctl := t'.rctl } ∧ s' = { s with threads := s'.threads } ∧
      (∀ r, d ≠ .g r → t'.rg r = t.rg r) ∧ (∀ r, d ≠ .p r → t'.rp r = t.rp r) ∧ (∀ r, d ≠ .v r → t'.rv r = t.rv r) ∧
      (∀ j, (fl = false ∨ j < 16 ∨ 21 ≤ j) → t'.rctl.getLsbD j = t.rctl.getLsbD j) ∧
      (∀ j, t.rctl.getLsbD j = true → t'.rctl.getLsbD j = true) ∧
      (∀ c k, (c, k) ≠ (s.cur.core, s.cur.slot) → s'.thread? c k = s.thread? c k) ∧
      (∀ a, memByte s'.mem a = memByte s.mem a) ∧ (∀ c a, memByte (s'.core c).sp a = memByte (s.core c).sp a)

/-- The forms of the stores and the atomics that act on the own scratchpad, with the first byte and the number of bytes that each stores to,
its stream, and the g register that it writes. -/
def Sys2Proof.Claims.localStore (t : Thread) : Instr → Option (Guard × Nat × Nat × Str × Option GReg)
  | .st x => if x.am = .own then some (x.g, (ea t x.a x.off).toNat, 2 ^ x.sz.toNat, x.str, none) else none
  | .stv x => if x.am = .own then some (x.g, (ea t x.a x.off).toNat, x.sz.bytes, x.str, none) else none
  | .mst x => if x.loc = true ∧ (t.rg x.a).toNat % 64 = 0 then some (x.g, (t.rg x.a).toNat, 64, x.str, none) else none
  | .stn x => if x.am = .own then some (x.g, (ea t x.a x.off).toNat / (8 / (match x.sz with | .b8 => 8 | .b4 => 4 | .b2 => 2)), 1, x.str, none) else none
  | i => match amoOf i with
    | some (x, _) =>
      if x.am = .own ∧ (ea t x.a x.off).toNat % (if x.dword then 8 else 4) = 0 then
        some (x.g, (ea t x.a x.off).toNat, if x.dword then 8 else 4, x.str, some x.d)
      else none
    | none => none

/-- The frame of a store to the own scratchpad (R132, R133, R137, R170, R232): every byte outside the stored ones, every other scratchpad and
all of memory read as before; of the thread's registers only an atomic's destination and SCLAMP may change. -/
def Obligations.StoreFrame : Prop :=
  ∀ (i : Instr) (s s' : State) (t : Thread) (g : Guard) (o n : Nat) (str : Str) (d : Option GReg), localStore t i = some (g, o, n, str, d) →
    Runs s t g → Quiet t → LocalOk s o n → exec i s = .next s' →
    (∀ a, a < o ∨ o + n ≤ a → memByte (s'.core s.cur.core).sp a = memByte (s.core s.cur.core).sp a) ∧
    (∀ c a, c ≠ s.cur.core → memByte (s'.core c).sp a = memByte (s.core c).sp a) ∧
    (∀ a, memByte s'.mem a = memByte s.mem a) ∧
    ∃ t', s'.curT? = some t' ∧ (∀ r, d ≠ some r → t'.rg r = t.rg r) ∧ t'.p = t.p ∧ t'.v = t.v ∧ t'.m = t.m ∧ t'.q = t.q ∧ t'.fmt = t.fmt ∧
      t'.rctl = t.rctl ∧ t'.tid = t.tid ∧ t'.trapb = t.trapb ∧ t'.fltq = t.fltq ∧ t'.leadPc = t.leadPc ∧ t'.st = t.st

/-! ### Words (R24 to R39) -/

/-- Words written out field by field from the formats of R24 and R28 to R34: ADD g1, g2, g3; ADD g5, g6, -1; MUL.i32 g1, g2, g3; LD of a
dword at g7 + 64 in stream 1; BR LT g8, g9 back one line under (!p2); VADD.F32 v1, v2, v3; MLD m1 from g4; XMM a1, m2, g3; SEND through
channel 4 from the own scratchpad; TRAP 0x1234; NOP. A word whose OPC is unassigned, whose FMT is not one of the OPC's, or whose FN is not one
of its sub-operations is refused with its subcode (R27). -/
def Obligations.DecodeWords : Prop :=
  decode 0x00000420C000000000000000#96 = .ok (.add ⟨⟨0, false⟩, .w64, 1, 2, 3⟩) ∧
  decode 0x0010146000FFFFFFFFFFFF00#96 = .ok (.addImm ⟨⟨0, false⟩, 5, 6, -1⟩) ∧
  decode 0x00000420C000000000000102#96 = .ok (.mul ⟨⟨0, false⟩, .w32, 1, 2, 3⟩) ∧
  decode 0x402010700020003000000040#96 = .ok (.ld ⟨⟨0, false⟩, ⟨1, 0, 0⟩, .virt, 3, false, false, false, 64, 4, 7, 0⟩) ∧
  decode 0x3035008240FFFFFFFFFFC003#96 = .ok (.br ⟨⟨2, true⟩, some .lt, 8, 9, -64⟩) ∧
  decode 0x70400420C000000000100000#96 = .ok (.vadd ⟨⟨0, false⟩, .f32, .rctl, false, false, 1, 2, 3⟩) ∧
  decode 0xA05004400000000000000000#96 = .ok (.mld ⟨⟨0, false⟩, ⟨0, 0, 0⟩, false, 1, 4⟩) ∧
  decode 0xB6600420C000000000000000#96 = .ok (.xmm ⟨⟨0, false⟩, ⟨0, 0, 0⟩, none, 1, 2, 3⟩) ∧
  decode 0x607000108300010000040000#96 = .ok (.send ⟨⟨0, false⟩, ⟨0, 0, 0⟩, .own, 4, 1, 2, 3⟩) ∧
  decode 0xCB8000000000000000123400#96 = .ok (.trap ⟨⟨0, false⟩, 0x1234⟩) ∧
  decode 0x370000000000000000000000#96 = .ok (.nop ⟨⟨0, false⟩⟩) ∧
  decode 0xD00000000000000000000000#96 = .error .opcUnassigned ∧ decode 0x002000000000000000000000#96 = .error .fmtIllegal ∧
  decode 0x00000000000000000000000D#96 = .error .fnUndefined

/-- Decoding and encoding agree on every well-formed instruction, at every value of its operands; what decodes is well-formed; an event is no
word's instruction. -/
def Obligations.DecodeOfEncode : Prop :=
  (∀ (i : Instr) (w : Slot), i.wf = true → encode i = some w → decode w = .ok i) ∧
  (∀ (w : Slot) (i : Instr), decode w = .ok i → i.wf = true ∧ (encode i).isSome = true)

/-! ### Reset, the step and its invariants -/

/-- What the spec gives for reset: every L1SZ is 0, so that a scratchpad spans the offsets 0 to 0x2_7FFF (R150); all channels are closed (R154);
no slot holds a thread; the first thread of a slot takes GEN 0, as the last GEN counts as 63 (R281). That no partition, region or
thread is there and that memory reads zero is the model's (assumptions 1 and 2). -/
def Obligations.ResetState : Prop :=
  (∀ c, (State.reset.core c).l1sz = 0 ∧ (State.reset.core c).spsz = 0x28000 ∧ (∀ i : Fin 16, (State.reset.core c).chans[i] = .closed)) ∧
  (∀ c k, State.reset.thread? c k = none) ∧ (∀ c n, (State.reset.core c).nextGen n = some 0) ∧ (∀ a, memByte State.reset.mem a = 0) ∧
  State.reset.gt = 0 ∧ State.reset.ras.halted = false

/-- The canonical form of memory and of every scratchpad: addresses strictly rising, no listed zero. -/
def Sys2Proof.Claims.Canonical (s : State) : Prop := s.mem.wf = true ∧ ∀ c, (s.core c).sp.wf = true

def Obligations.CanonicalAtReset : Prop := Canonical State.reset

/-- Every step keeps the canonical form, so that equal memories are equal data. -/
def Obligations.CanonicalKept : Prop := ∀ s s', Canonical s → step s = .next s' → Canonical s'

/-- A machine that a level 3 alarm has stopped stays as it is until a cold reset: a step answers events other than those two that R420 and R421
leave it by dropping them, and nothing executes. -/
def Sys2Proof.Claims.HaltedMachine : Prop :=
  ∀ s : State, s.ras.halted = true → (∀ e ∈ s.agenda, Event.wakesHalted e = false) →
    ∃ s', step s = .next s' ∧ s' = { s with agenda := s.agenda.tail, gt := s'.gt, fresh := s.fresh + 1 } ∧ s.gt ≤ s'.gt

/-- Nothing is pending or due, and the thread in a slot is the one that issues next, from a pipe. -/
def Sys2Proof.Claims.Issues (s s0 : State) (c k : Nat) (t : Thread) (p : Pipe) : Prop :=
  s.agenda = [] ∧ s.ras.halted = false ∧ s.rouse.due = none ∧ s0 = s.rouse.takeLater ∧ s0.sched = [] ∧ s0.pick = some ((c, k), t) ∧
    s0.thread? c k = some t ∧ t.st = .running ∧ t.ending = false ∧ t.parks = [] ∧ t.nextPipe = p

/-- What a turn of a thread that begins in s0 leaves of its outcome: the turn counts where the thread did not only wait; where a unit of the device
had to wait at a home the thread is passed over; then time passes. -/
def Sys2Proof.Claims.turned (s0 : State) (c k : Nat) (t : Thread) (o : Out) : Out :=
  Out.after ((Out.after o fun s => s.endTurn c k t (Config.elapsedCycles s0.fresh)).orBack (s0.passed c k)) State.tick

/-- The word in a slot of a line satisfies the conditions of R23, where the line marks it as the first of a pair. -/
def Sys2Proof.Claims.PairFits (t : Thread) (l : V512) (n : Nat) (i : Instr) : Prop :=
  (linePair l).getLsbD n = true → (∀ j, decode (lineSlot l (n + 1)) = .ok j → pairOk t (lineSlot l n) (lineSlot l (n + 1)) i j = true) ∧
    ∀ e, decode (lineSlot l (n + 1)) = .error e → isTransfer (lineSlot l n) = false ∧ (isAccessFmt (lineSlot l n) && isAccessFmt (lineSlot l (n + 1))) = false

/-- A step runs the decoded instruction. With nothing pending or due, the chosen thread t on its lead pipe, its line read and checked, no
capture open, its pair in order, at most 64 places beyond the oldest of the trail, and nothing at which the pipe stands, the step is exec of the
instruction that the word at the lead PC decodes to, in the state in which the PC has moved on; then the turn is counted and time passes. A trail instruction before
which the trail holds nothing runs in the same way; one before which something waits joins the trail, and runs from there when the trail's turn
comes, as a lead instruction that was passed runs when the lead no longer stands at it. -/
def Obligations.StepRunsTheDecodedInstruction : Prop :=
  (∀ (s s0 s1 s2 : State) (c k n : Nat) (t t1 : Thread) (l : V512) (i : Instr), Issues s s0 c k t .lead →
    s1 = (s0.tried c k).others c k → t1 = t.turn s1 → t.jump = false → t.ahead = [] → n = pcSlot t.leadPc →
    s1.leadLine c k t1 = (.ok l, s2) → decode (lineSlot l n) = .ok i → t.rep.capt = false → PairFits t1 l n i → t1.farAhead t.issued = false →
    (pipeOf i = .lead → t1.stands .lead (lineSlot l n) i t.issued (secondOfPair l n) = false →
      step s = turned s0 c k t (exec i ((s2.setThread c k (t1.advance l)).at c k .lead t.leadPc (lineSlot l n) none i t.issued t.blocked))) ∧
    (pipeOf i = .trail → t.trailQ = [] → t1.stands .trail (lineSlot l n) i t.issued (secondOfPair l n) = false →
      step s = turned s0 c k t (exec i ((s2.setThread c k (t1.advance l)).at c k .trail t.leadPc (lineSlot l n) none i t.issued t.blocked))) ∧
    (pipeOf i = .trail → t.trailQ ≠ [] → s2.unitWaits = [] → ∃ s', step s = .next s' ∧ s'.mem = s2.mem ∧
      (s'.thread? c k).map (·.trailQ) = some (t.trailQ ++ [⟨t.leadPc, lineSlot l n, i, false, t.issued, secondOfPair l n⟩])) ∧
    (pipeOf i = .lead → t1.stands .lead (lineSlot l n) i t.issued (secondOfPair l n) = true → s2.unitWaits = [] → ∃ s' t', step s = .next s' ∧ s'.mem = s2.mem ∧
      s'.thread? c k = some t' ∧ t'.leadPc = t.leadPc ∧ t'.g = t.g ∧
      t'.ahead = if passable (lineSlot l n) then [⟨t.leadPc, lineSlot l n, i, false, t.issued, secondOfPair l n⟩] else [])) ∧
  (∀ (s s0 s1 : State) (c k : Nat) (t t1 : Thread) (e : TrailEntry) (rest : List TrailEntry), Issues s s0 c k t .trail →
    s1 = (s0.tried c k).others c k → t1 = { t.turn s1 with lastPipe := .trail } → t.trailQ = e :: rest → e.rep = false →
    t1.stands .trail e.iword e.instr e.no e.pair = false →
    step s = turned s0 c k t (execSettled e.instr c k ((s1.setThread c k { t1 with trailQ := rest, blocked := 0 }).at c k .trail e.pc e.iword none e.instr
      e.no t.blocked))) ∧
  (∀ (s s0 s1 : State) (c k : Nat) (t t1 : Thread) (e : TrailEntry) (rest : List TrailEntry), Issues s s0 c k t .lead →
    s1 = (s0.tried c k).others c k → t1 = t.turn s1 → t.jump = false → t.ahead = e :: rest → t1.farAhead e.no = false →
    t1.stands .lead e.iword e.instr e.no e.pair = false →
    step s = turned s0 c k t (execSettled e.instr c k ((s1.setThread c k
      { t1 with ahead := rest, leadPc := rest.head?.elim t.scanPc (·.pc), lastPipe := .lead, blocked := 0 }).at
        c k .lead e.pc e.iword none e.instr e.no t.blocked)))

/-- A step answers the first event of the agenda before anything else, and events take no time; where a unit of the device had to wait for it at a
home, it waits, and the state is as before. -/
def Sys2Proof.Claims.StepAnswersEvents : Prop :=
  ∀ (s : State) (e : Event) (es : List Event), s.agenda = e :: es → s.ras.halted = false →
    step s = Out.after ((runEvent e { s with agenda := es }).orBack fun l => (State.noteWaits { s with agenda := es } l none).later1 e) State.tock

/-- A step answers the first event of the agenda; a halted machine executes nothing. -/
def Obligations.EventsAndHalt : Prop := HaltedMachine ∧ StepAnswersEvents

/-- Sequential flow and the lines of a word (R17, R21): slots lie twelve bytes apart, slot 4 is followed by slot 0 of the next line, 64 bytes
on; the slot k of a line is its bits 96k + 95 to 96k; the branch targets are named by their slots. -/
def Obligations.SequentialFlow : Prop :=
  (∀ (line : Word) (k : Nat), line.toNat % 64 = 0 → k < 4 → nextPc (line + BitVec.ofNat 64 (12 * k)) = line + BitVec.ofNat 64 (12 * (k + 1))) ∧
  (∀ line : Word, line.toNat % 64 = 0 → nextPc (line + 48) = line + 64) ∧
  (∀ (line : Word) (k : Nat), line.toNat % 64 = 0 → k < 5 → pcLine (line + BitVec.ofNat 64 (12 * k)) = line ∧ pcSlot (line + BitVec.ofNat 64 (12 * k)) = k) ∧
  (∀ (l : V512) (k j : Nat), k < 5 → j < 96 → (lineSlot l k).getLsbD j = l.getLsbD (96 * k + j))

/-- R387: a notify with value v, on a function that does not reset, is accepted when it lies at most D ahead of the consumer index and beyond
the producer index, which it then becomes; any other notify, and every one to a queue that is not active, is ignored. The queue is judged
after its control block has been read again (R384). -/
def Obligations.NotifyRule : Prop :=
  ∀ (s s1 : State) (f q : Nat) (v : BitVec 32) (y : Queue), (s.fn f).resetting = false → s1 = s.pollQcb f q → s1.queue? f q = some y →
    (∀ c, y.copy = some c → y.st = .active →
      ((v.toNat + 2 ^ 32 - y.cidx % 2 ^ 32) % 2 ^ 32 ≤ 2 ^ c.log2d →
        (y.pidx + 2 ^ 32 - y.cidx % 2 ^ 32) % 2 ^ 32 < (v.toNat + 2 ^ 32 - y.cidx % 2 ^ 32) % 2 ^ 32 →
        ∃ s', exec (.notify ⟨f, q, v⟩) s = .next s' ∧ s'.queue? f q = some { y with pidx := v.toNat } ∧ s'.mem = s1.mem) ∧
      ((2 ^ c.log2d < (v.toNat + 2 ^ 32 - y.cidx % 2 ^ 32) % 2 ^ 32 ∨
        (v.toNat + 2 ^ 32 - y.cidx % 2 ^ 32) % 2 ^ 32 ≤ (y.pidx + 2 ^ 32 - y.cidx % 2 ^ 32) % 2 ^ 32) →
        exec (.notify ⟨f, q, v⟩) s = .next s1)) ∧
    (y.st ≠ .active → exec (.notify ⟨f, q, v⟩) s = .next s1)

/-- A finite value of zero. -/
def Sys2Proof.Claims.isZero : Val → Bool
  | .fin _ 0 _ => true
  | _ => false

/-- acc := fma(a, b, acc) to nearest even; where nothing but zeros are added the sum is +0, whatever their signs (R190, R192). -/
def Sys2Proof.Claims.fmaStep (f : FFmt) (c : Nat) (x : Nat × Nat) : Nat :=
  if isZero ((f.value x.1).mul (f.value x.2)) && isZero (f.value c) then 0 else (f.ffma .rne false x.1 x.2 c).1

/-- In FP64 and FP32 mode each step of an element that no mark reaches is acc := fma(a, b, acc), in ascending order, rounded to nearest even,
whatever the thread's rounding mode; an exact zero sum is +0 (R190, R192). -/
def Obligations.FusedPassElement : Prop :=
  ∀ (g acc : Nat) (ab : List (Nat × Nat)),
    (passElem .f64 false g acc (ab.map fun x => (fp64.value x.1, fp64.value x.2))).1 = ab.foldl (fmaStep fp64) acc ∧
    (passElem .f32 false g acc (ab.map fun x => (fp32.value x.1, fp32.value x.2))).1 = ab.foldl (fmaStep fp32) acc
end

