-- ==== Sys2Proof/Laws/Memory.lean ====
section
/-! SUPPORT. Byte memory: a read after a write, the canonical form and what keeps it, equal memories; little-endian bytes; the association
lists of the machine. -/

set_option Elab.async false

namespace Sys2Proof.Machine

/-! ### Reading after writing -/

@[simp] theorem memByte_nil (a : Nat) : memByte [] a = 0 := rfl

/-- A filter by addresses hides what it drops. -/
theorem memByte_filter (p : Nat → Bool) (m : Memory) (a : Nat) : memByte (m.filter fun c => p c.1) a = if p a then memByte m a else 0 := by
  induction m with
  | nil => simp
  | cons c m ih =>
    by_cases h : p c.1 <;> by_cases h2 : c.1 = a
    · subst h2; simp [h, memByte]
    · simp [h, memByte, h2, ih]
    · subst h2; simp [h, ih]
    · simp [h, memByte, h2, ih]

/-- An address that a list has no cell for is read in the list after it. -/
theorem memByte_append_of_notMem (l r : Memory) (a : Nat) (h : ∀ c ∈ l, c.1 ≠ a) : memByte (l ++ r) a = memByte r a := by
  induction l with
  | nil => rfl
  | cons c l ih =>
    have hc := h c (List.mem_cons_self ..)
    simp only [List.cons_append, memByte, hc, if_false]
    exact ih fun x hx => h x (List.mem_cons_of_mem _ hx)

/-- An address that a second list reads as zero is read in the first. -/
theorem memByte_append_of_zero (l r : Memory) (a : Nat) (h : memByte r a = 0) : memByte (l ++ r) a = memByte l a := by
  induction l with
  | nil => exact h
  | cons c l ih => simp only [List.cons_append, memByte, ih]

theorem runCells_addr {a : Nat} {bs : List Byte} {c : Host.Cell} (h : c ∈ runCells a bs) : a ≤ c.1 ∧ c.1 < a + bs.length ∧ c.2 ≠ 0 := by
  induction bs generalizing a with
  | nil => simp [runCells] at h
  | cons b bs ih =>
    simp only [runCells] at h
    split at h
    · obtain ⟨h1, h2, h3⟩ := ih h
      simp only [List.length_cons]; exact ⟨by omega, by omega, h3⟩
    · rename_i hb
      rcases List.mem_cons.mp h with rfl | h
      · simp only [List.length_cons]; exact ⟨le_refl _, by omega, hb⟩
      · obtain ⟨h1, h2, h3⟩ := ih h
        simp only [List.length_cons]; exact ⟨by omega, by omega, h3⟩

theorem memByte_runCells (a : Nat) (bs : List Byte) (x : Nat) :
    memByte (runCells a bs) x = if a ≤ x ∧ x < a + bs.length then bs.getD (x - a) 0 else 0 := by
  induction bs generalizing a with
  | nil => simp [runCells]
  | cons b bs ih =>
    have key : x ≠ a → memByte (runCells (a + 1) bs) x = if a ≤ x ∧ x < a + (bs.length + 1) then (b :: bs).getD (x - a) 0 else 0 := by
      intro h
      rw [ih]
      by_cases h1 : a ≤ x ∧ x < a + (bs.length + 1)
      · rw [if_pos h1, if_pos (by omega), show x - a = x - (a + 1) + 1 by omega, List.getD_cons_succ]
      · rw [if_neg h1, if_neg (by omega)]
    by_cases hx : x = a
    · subst hx
      simp only [runCells, List.length_cons, le_refl, true_and, Nat.sub_self, List.getD_cons_zero]
      by_cases hb : b = 0
      · rw [if_pos hb, ih, if_neg (by omega), hb, ite_self]
      · have h0 : ¬ b = 0#8 := hb
        simp [h0, memByte]
    · simp only [runCells, List.length_cons]
      split
      · exact key hx
      · rw [memByte, if_neg (fun h => hx h.symm)]; exact key hx

/-- A read after a write: the bytes written in their run, and every other byte as before. -/
theorem memByte_memWrite (m : Memory) (a : Nat) (bs : List Byte) (x : Nat) :
    memByte (memWrite m a bs) x = if a ≤ x ∧ x < a + bs.length then bs.getD (x - a) 0 else memByte m x := by
  have h1 := memByte_filter (fun y => decide (y < a)) m x
  have h3 := memByte_filter (fun y => decide (a + bs.length ≤ y)) m x
  simp only [decide_eq_true_eq] at h1 h3
  unfold memWrite
  rw [List.append_assoc]
  by_cases hx : x < a
  · rw [memByte_append_of_zero, h1, if_pos hx, if_neg (by omega)]
    rw [memByte_append_of_zero, memByte_runCells, if_neg (by omega)]
    rw [h3, if_neg (by omega)]
  · rw [memByte_append_of_notMem]
    · by_cases hr : x < a + bs.length
      · rw [memByte_append_of_zero, memByte_runCells]
        · simp [show a ≤ x by omega, hr]
        · rw [h3, if_neg (by omega)]
      · rw [memByte_append_of_notMem, h3, if_pos (by omega), if_neg (by omega)]
        intro c hc
        have := runCells_addr hc
        omega
    · intro c hc
      simp only [List.mem_filter, decide_eq_true_eq] at hc
      omega

theorem memByte_memWrite_in (m : Memory) (a : Nat) (bs : List Byte) (x : Nat) (h : a ≤ x) (h' : x < a + bs.length) :
    memByte (memWrite m a bs) x = bs.getD (x - a) 0 := by rw [memByte_memWrite, if_pos ⟨h, h'⟩]

theorem memByte_memWrite_out (m : Memory) (a : Nat) (bs : List Byte) (x : Nat) (h : x < a ∨ a + bs.length ≤ x) :
    memByte (memWrite m a bs) x = memByte m x := by rw [memByte_memWrite, if_neg (by omega)]

@[simp] theorem memBytes_length (m : Memory) (a n : Nat) : (memBytes m a n).length = n := by
  induction n generalizing a with
  | zero => rfl
  | succ n ih => simp [memBytes, ih]

theorem memBytes_getD (m : Memory) (a n i : Nat) (h : i < n) : (memBytes m a n).getD i 0 = memByte m (a + i) := by
  induction n generalizing a i with
  | zero => omega
  | succ n ih =>
    cases i with
    | zero => simp [memBytes]
    | succ i => rw [memBytes, List.getD_cons_succ, ih _ _ (by omega), Nat.add_right_comm, Nat.add_assoc]

/-- Reads of equal bytes are equal. -/
theorem memBytes_congr (m m' : Memory) (a n : Nat) (h : ∀ x, a ≤ x → x < a + n → memByte m x = memByte m' x) : memBytes m a n = memBytes m' a n := by
  induction n generalizing a with
  | zero => rfl
  | succ n ih =>
    simp only [memBytes]
    rw [h a (le_refl _) (by omega), ih (a + 1) fun x h1 h2 => h x (by omega) (by omega)]

/-- The run that was written reads back. -/
theorem memBytes_memWrite_self (m : Memory) (a : Nat) (bs : List Byte) : memBytes (memWrite m a bs) a bs.length = bs := by
  apply List.ext_getElem (by simp)
  intro i h1 h2
  have h := memBytes_getD (memWrite m a bs) a bs.length i (by simpa using h1)
  rw [memByte_memWrite_in _ _ _ _ (by omega) (by omega), Nat.add_sub_cancel_left, List.getD_eq_getElem _ _ h1, List.getD_eq_getElem _ _ h2] at h
  exact h

/-! ### The canonical form -/

theorem Memory.wf_iff (m : Memory) : m.wf = true ↔ m.Pairwise (fun a b => a.1 < b.1) ∧ ∀ c ∈ m, c.2 ≠ 0 := by
  simp [Memory.wf]

theorem Memory.wf_nil : Memory.wf [] = true := rfl

/-- Dropping cells keeps the form. -/
theorem Memory.wf_filter (m : Memory) (p : Host.Cell → Bool) (h : m.wf = true) : Memory.wf (m.filter p) = true := by
  rw [Memory.wf_iff] at *
  exact ⟨h.1.filter p, fun c hc => h.2 c (List.mem_filter.mp hc).1⟩

theorem runCells_pairwise (a : Nat) (bs : List Byte) : (runCells a bs).Pairwise (fun x y => x.1 < y.1) := by
  induction bs generalizing a with
  | nil => exact List.Pairwise.nil
  | cons b bs ih =>
    simp only [runCells]
    split
    · exact ih _
    · refine List.Pairwise.cons (fun c hc => ?_) (ih _)
      have := runCells_addr hc
      show a < c.1
      omega

theorem runCells_wf (a : Nat) (bs : List Byte) : Memory.wf (runCells a bs) = true :=
  (Memory.wf_iff _).mpr ⟨runCells_pairwise a bs, fun _ h => (runCells_addr h).2.2⟩

/-- A write keeps the form. -/
theorem memWrite_wf (m : Memory) (a : Nat) (bs : List Byte) (h : m.wf = true) : Memory.wf (memWrite m a bs) = true := by
  rw [Memory.wf_iff] at *
  constructor
  · unfold memWrite
    refine List.pairwise_append.mpr ⟨List.pairwise_append.mpr ⟨h.1.filter _, runCells_pairwise _ _, ?_⟩, h.1.filter _, ?_⟩
    · intro x hx y hy
      have := runCells_addr hy
      simp only [List.mem_filter, decide_eq_true_eq] at hx
      omega
    · intro x hx y hy
      simp only [List.mem_filter, decide_eq_true_eq] at hy
      rcases List.mem_append.mp hx with hx | hx
      · simp only [List.mem_filter, decide_eq_true_eq] at hx
        omega
      · have := runCells_addr hx
        omega
  · intro c hc
    unfold memWrite at hc
    rcases List.mem_append.mp hc with hc | hc
    · rcases List.mem_append.mp hc with hc | hc
      · exact h.2 c (List.mem_filter.mp hc).1
      · exact (runCells_addr hc).2.2
    · exact h.2 c (List.mem_filter.mp hc).1

/-- A merge of a sector keeps the form. -/
theorem memMerge_wf (m : Memory) (a : Nat) (d : V512) (mask : BitVec 64) (h : m.wf = true) : Memory.wf (memMerge m a d mask) = true :=
  memWrite_wf _ _ _ h

theorem memByte_of_lt (m : Memory) (a : Nat) (h : ∀ c ∈ m, a < c.1) : memByte m a = 0 := by
  induction m with
  | nil => rfl
  | cons c m ih =>
    have := h c (List.mem_cons_self ..)
    rw [memByte, if_neg (by omega)]
    exact ih fun x hx => h x (List.mem_cons_of_mem _ hx)

/-- Canonical memories that read the same everywhere are the same data. -/
theorem Memory.ext_of_wf (m m' : Memory) (h : m.wf = true) (h' : m'.wf = true) (he : ∀ a, memByte m a = memByte m' a) : m = m' := by
  rw [Memory.wf_iff] at h h'
  obtain ⟨h1, h2⟩ := h
  obtain ⟨h1', h2'⟩ := h'
  induction m generalizing m' with
  | nil =>
    cases m' with
    | nil => rfl
    | cons c m' =>
      have := he c.1
      simp only [memByte, if_true] at this
      exact absurd this.symm (h2' c (List.mem_cons_self ..))
  | cons c m ih =>
    cases m' with
    | nil =>
      have := he c.1
      simp only [memByte, if_true] at this
      exact absurd this (h2 c (List.mem_cons_self ..))
    | cons c' m' =>
      have lt1 := (List.pairwise_cons.mp h1).1
      have lt2 := (List.pairwise_cons.mp h1').1
      have hcc : c.1 = c'.1 := by
        rcases Nat.lt_trichotomy c.1 c'.1 with hl | hl | hl
        · have e := he c.1
          rw [memByte, if_pos rfl, memByte_of_lt (c' :: m') c.1] at e
          · exact absurd e (h2 c (List.mem_cons_self ..))
          · intro x hx
            rcases List.mem_cons.mp hx with rfl | hx
            · exact hl
            · exact lt_trans hl (lt2 x hx)
        · exact hl
        · have e := he c'.1
          rw [memByte_of_lt (c :: m) c'.1, memByte, if_pos rfl] at e
          · exact absurd e.symm (h2' c' (List.mem_cons_self ..))
          · intro x hx
            rcases List.mem_cons.mp hx with rfl | hx
            · exact hl
            · exact lt_trans hl (lt1 x hx)
      have hv : c.2 = c'.2 := by
        have e := he c.1
        rwa [memByte, if_pos rfl, memByte, if_pos hcc.symm] at e
      have hc : c = c' := Prod.ext hcc hv
      subst hc
      congr 1
      refine ih m' (fun a => ?_) (List.pairwise_cons.mp h1).2 (fun x hx => h2 x (List.mem_cons_of_mem _ hx)) (List.pairwise_cons.mp h1').2
        fun x hx => h2' x (List.mem_cons_of_mem _ hx)
      by_cases ha : c.1 = a
      · subst ha
        rw [memByte_of_lt m _ lt1, memByte_of_lt m' _ lt2]
      · have e := he a
        rwa [memByte, if_neg ha, memByte, if_neg ha] at e

/-! ### Little-endian bytes (R2) -/

@[simp] theorem toBytes_length (n x : Nat) : (toBytes n x).length = n := by
  induction n generalizing x with
  | zero => rfl
  | succ n ih => simp [toBytes, ih]

/-- The bytes of a number stand for its low bytes. -/
theorem ofBytes_toBytes (n x : Nat) : ofBytes (toBytes n x) = x % 256 ^ n := by
  induction n generalizing x with
  | zero => simp [toBytes, ofBytes, Nat.mod_one]
  | succ n ih =>
    rw [toBytes, ofBytes, ih, BitVec.toNat_ofNat, show 256 ^ (n + 1) = 256 * 256 ^ n by ring, Nat.mod_mul]

theorem ofBytes_lt (l : List Byte) : ofBytes l < 256 ^ l.length := by
  induction l with
  | nil => simp [ofBytes]
  | cons b l ih =>
    have := b.isLt
    rw [ofBytes, List.length_cons, Nat.pow_succ]
    omega

/-- The number of a run of bytes has those bytes. -/
theorem toBytes_ofBytes (l : List Byte) : toBytes l.length (ofBytes l) = l := by
  induction l with
  | nil => rfl
  | cons b l ih =>
    have hb := b.isLt
    rw [List.length_cons, toBytes, ofBytes]
    congr 1
    · apply BitVec.eq_of_toNat_eq
      rw [BitVec.toNat_ofNat]
      omega
    · rw [show (b.toNat + 256 * ofBytes l) / 256 = ofBytes l by omega, ih]

/-- A number written to memory reads back its low bytes. -/
theorem memNat_memWrite (m : Memory) (a n x : Nat) : memNat (memWrite m a (toBytes n x)) a n = x % 256 ^ n := by
  have h := memBytes_memWrite_self m a (toBytes n x)
  rw [toBytes_length] at h
  rw [memNat, h, ofBytes_toBytes]

/-! ### Association lists -/

theorem alook_aset [DecidableEq κ] (k k' : κ) (v : α) (l : List (κ × α)) : alook k' (aset k v l) = if k = k' then some v else alook k' l := by
  induction l with
  | nil => simp [aset, alook]
  | cons e l ih =>
    obtain ⟨x, y⟩ := e
    by_cases h : x = k
    · subst h
      by_cases h2 : x = k'
      · simp [aset, alook, h2]
      · simp [aset, alook, h2]
    · by_cases h2 : k = k'
      · subst h2
        simp only [aset, if_neg h, alook, ih, if_true]
      · simp only [aset, if_neg h, alook, ih, if_neg h2]

@[simp] theorem alook_aset_self [DecidableEq κ] (k : κ) (v : α) (l : List (κ × α)) : alook k (aset k v l) = some v := by simp [alook_aset]

theorem alook_aset_ne [DecidableEq κ] (k k' : κ) (v : α) (l : List (κ × α)) (h : k ≠ k') : alook k' (aset k v l) = alook k' l := by simp [alook_aset, h]

theorem alook_adel [DecidableEq κ] (k k' : κ) (l : List (κ × α)) : alook k' (adel k l) = if k = k' then none else alook k' l := by
  induction l with
  | nil => simp [adel, alook]
  | cons e l ih =>
    obtain ⟨x, y⟩ := e
    by_cases h : x = k
    · subst h
      have e : adel x ((x, y) :: l) = adel x l := by simp [adel]
      rw [e, ih]
      by_cases h2 : x = k'
      · simp [h2]
      · simp [alook, h2]
    · have e : adel k ((x, y) :: l) = (x, y) :: adel k l := by simp [adel, h]
      rw [e]
      by_cases h2 : x = k'
      · subst h2
        simp [alook, Ne.symm h]
      · simp [alook, h2, ih]

end Sys2Proof.Machine
end

