-- ==== Sys2Proof/Laws/State.lean ====
section
/-! SUPPORT. The state's updates: for each of them and each field what the field holds afterwards, and what the readers find; the same
for the registers of a thread. -/

set_option Elab.async false

namespace Sys2Proof.Machine

/-! ### State.setThread -/

@[simp] theorem State.setThread_mem (s : State) (c k : Nat) (t : Thread) : (s.setThread c k t).mem = s.mem := rfl
@[simp] theorem State.setThread_threads (s : State) (c k : Nat) (t : Thread) : (s.setThread c k t).threads = aset (c, k) t s.threads := rfl
@[simp] theorem State.setThread_cores (s : State) (c k : Nat) (t : Thread) : (s.setThread c k t).cores = s.cores := rfl
@[simp] theorem State.setThread_tlbs (s : State) (c k : Nat) (t : Thread) : (s.setThread c k t).tlbs = s.tlbs := rfl
@[simp] theorem State.setThread_clusters (s : State) (c k : Nat) (t : Thread) : (s.setThread c k t).clusters = s.clusters := rfl
@[simp] theorem State.setThread_parts (s : State) (c k : Nat) (t : Thread) : (s.setThread c k t).parts = s.parts := rfl
@[simp] theorem State.setThread_regions (s : State) (c k : Nat) (t : Thread) : (s.setThread c k t).regions = s.regions := rfl
@[simp] theorem State.setThread_fns (s : State) (c k : Nat) (t : Thread) : (s.setThread c k t).fns = s.fns := rfl
@[simp] theorem State.setThread_msis (s : State) (c k : Nat) (t : Thread) : (s.setThread c k t).msis = s.msis := rfl
@[simp] theorem State.setThread_ports (s : State) (c k : Nat) (t : Thread) : (s.setThread c k t).ports = s.ports := rfl
@[simp] theorem State.setThread_reqs (s : State) (c k : Nat) (t : Thread) : (s.setThread c k t).reqs = s.reqs := rfl
@[simp] theorem State.setThread_colls (s : State) (c k : Nat) (t : Thread) : (s.setThread c k t).colls = s.colls := rfl
@[simp] theorem State.setThread_modId (s : State) (c k : Nat) (t : Thread) : (s.setThread c k t).modId = s.modId := rfl
@[simp] theorem State.setThread_ras (s : State) (c k : Nat) (t : Thread) : (s.setThread c k t).ras = s.ras := rfl
@[simp] theorem State.setThread_boot (s : State) (c k : Nat) (t : Thread) : (s.setThread c k t).boot = s.boot := rfl
@[simp] theorem State.setThread_recur (s : State) (c k : Nat) (t : Thread) : (s.setThread c k t).recur = s.recur := rfl
@[simp] theorem State.setThread_poison (s : State) (c k : Nat) (t : Thread) : (s.setThread c k t).poison = s.poison := rfl
@[simp] theorem State.setThread_gt (s : State) (c k : Nat) (t : Thread) : (s.setThread c k t).gt = s.gt := rfl
@[simp] theorem State.setThread_fusedCores (s : State) (c k : Nat) (t : Thread) : (s.setThread c k t).fusedCores = s.fusedCores := rfl
@[simp] theorem State.setThread_fusedEngines (s : State) (c k : Nat) (t : Thread) : (s.setThread c k t).fusedEngines = s.fusedEngines := rfl
@[simp] theorem State.setThread_agenda (s : State) (c k : Nat) (t : Thread) : (s.setThread c k t).agenda = s.agenda := rfl
@[simp] theorem State.setThread_later (s : State) (c k : Nat) (t : Thread) : (s.setThread c k t).later = s.later := rfl
@[simp] theorem State.setThread_timers (s : State) (c k : Nat) (t : Thread) : (s.setThread c k t).timers = s.timers := rfl
@[simp] theorem State.setThread_sched (s : State) (c k : Nat) (t : Thread) : (s.setThread c k t).sched = s.sched := rfl
@[simp] theorem State.setThread_unitWaits (s : State) (c k : Nat) (t : Thread) : (s.setThread c k t).unitWaits = s.unitWaits := rfl
@[simp] theorem State.setThread_slow (s : State) (c k : Nat) (t : Thread) : (s.setThread c k t).slow = s.slow := rfl
@[simp] theorem State.setThread_cur (s : State) (c k : Nat) (t : Thread) : (s.setThread c k t).cur = s.cur := rfl
@[simp] theorem State.setThread_fresh (s : State) (c k : Nat) (t : Thread) : (s.setThread c k t).fresh = s.fresh := rfl

/-! ### State.delThread -/

@[simp] theorem State.delThread_mem (s : State) (c k : Nat) : (s.delThread c k).mem = s.mem := rfl
@[simp] theorem State.delThread_threads (s : State) (c k : Nat) : (s.delThread c k).threads = adel (c, k) s.threads := rfl
@[simp] theorem State.delThread_cores (s : State) (c k : Nat) : (s.delThread c k).cores = s.cores := rfl
@[simp] theorem State.delThread_tlbs (s : State) (c k : Nat) : (s.delThread c k).tlbs = s.tlbs := rfl
@[simp] theorem State.delThread_clusters (s : State) (c k : Nat) : (s.delThread c k).clusters = s.clusters := rfl
@[simp] theorem State.delThread_parts (s : State) (c k : Nat) : (s.delThread c k).parts = s.parts := rfl
@[simp] theorem State.delThread_regions (s : State) (c k : Nat) : (s.delThread c k).regions = s.regions := rfl
@[simp] theorem State.delThread_fns (s : State) (c k : Nat) : (s.delThread c k).fns = s.fns := rfl
@[simp] theorem State.delThread_msis (s : State) (c k : Nat) : (s.delThread c k).msis = s.msis := rfl
@[simp] theorem State.delThread_ports (s : State) (c k : Nat) : (s.delThread c k).ports = s.ports := rfl
@[simp] theorem State.delThread_reqs (s : State) (c k : Nat) : (s.delThread c k).reqs = s.reqs := rfl
@[simp] theorem State.delThread_colls (s : State) (c k : Nat) : (s.delThread c k).colls = s.colls := rfl
@[simp] theorem State.delThread_modId (s : State) (c k : Nat) : (s.delThread c k).modId = s.modId := rfl
@[simp] theorem State.delThread_ras (s : State) (c k : Nat) : (s.delThread c k).ras = s.ras := rfl
@[simp] theorem State.delThread_boot (s : State) (c k : Nat) : (s.delThread c k).boot = s.boot := rfl
@[simp] theorem State.delThread_recur (s : State) (c k : Nat) : (s.delThread c k).recur = s.recur := rfl
@[simp] theorem State.delThread_poison (s : State) (c k : Nat) : (s.delThread c k).poison = s.poison := rfl
@[simp] theorem State.delThread_gt (s : State) (c k : Nat) : (s.delThread c k).gt = s.gt := rfl
@[simp] theorem State.delThread_fusedCores (s : State) (c k : Nat) : (s.delThread c k).fusedCores = s.fusedCores := rfl
@[simp] theorem State.delThread_fusedEngines (s : State) (c k : Nat) : (s.delThread c k).fusedEngines = s.fusedEngines := rfl
@[simp] theorem State.delThread_agenda (s : State) (c k : Nat) : (s.delThread c k).agenda = s.agenda := rfl
@[simp] theorem State.delThread_later (s : State) (c k : Nat) : (s.delThread c k).later = s.later := rfl
@[simp] theorem State.delThread_timers (s : State) (c k : Nat) : (s.delThread c k).timers = s.timers := rfl
@[simp] theorem State.delThread_sched (s : State) (c k : Nat) : (s.delThread c k).sched = s.sched := rfl
@[simp] theorem State.delThread_unitWaits (s : State) (c k : Nat) : (s.delThread c k).unitWaits = s.unitWaits := rfl
@[simp] theorem State.delThread_slow (s : State) (c k : Nat) : (s.delThread c k).slow = s.slow := rfl
@[simp] theorem State.delThread_cur (s : State) (c k : Nat) : (s.delThread c k).cur = s.cur := rfl
@[simp] theorem State.delThread_fresh (s : State) (c k : Nat) : (s.delThread c k).fresh = s.fresh := rfl

/-! ### State.modThread -/

@[simp] theorem State.modThread_mem (s : State) (c k : Nat) (f : Thread → Thread) : (s.modThread c k f).mem = s.mem := by unfold State.modThread; split <;> rfl
@[simp] theorem State.modThread_cores (s : State) (c k : Nat) (f : Thread → Thread) : (s.modThread c k f).cores = s.cores := by unfold State.modThread; split <;> rfl
@[simp] theorem State.modThread_tlbs (s : State) (c k : Nat) (f : Thread → Thread) : (s.modThread c k f).tlbs = s.tlbs := by unfold State.modThread; split <;> rfl
@[simp] theorem State.modThread_clusters (s : State) (c k : Nat) (f : Thread → Thread) : (s.modThread c k f).clusters = s.clusters := by unfold State.modThread; split <;> rfl
@[simp] theorem State.modThread_parts (s : State) (c k : Nat) (f : Thread → Thread) : (s.modThread c k f).parts = s.parts := by unfold State.modThread; split <;> rfl
@[simp] theorem State.modThread_regions (s : State) (c k : Nat) (f : Thread → Thread) : (s.modThread c k f).regions = s.regions := by unfold State.modThread; split <;> rfl
@[simp] theorem State.modThread_fns (s : State) (c k : Nat) (f : Thread → Thread) : (s.modThread c k f).fns = s.fns := by unfold State.modThread; split <;> rfl
@[simp] theorem State.modThread_msis (s : State) (c k : Nat) (f : Thread → Thread) : (s.modThread c k f).msis = s.msis := by unfold State.modThread; split <;> rfl
@[simp] theorem State.modThread_ports (s : State) (c k : Nat) (f : Thread → Thread) : (s.modThread c k f).ports = s.ports := by unfold State.modThread; split <;> rfl
@[simp] theorem State.modThread_reqs (s : State) (c k : Nat) (f : Thread → Thread) : (s.modThread c k f).reqs = s.reqs := by unfold State.modThread; split <;> rfl
@[simp] theorem State.modThread_colls (s : State) (c k : Nat) (f : Thread → Thread) : (s.modThread c k f).colls = s.colls := by unfold State.modThread; split <;> rfl
@[simp] theorem State.modThread_modId (s : State) (c k : Nat) (f : Thread → Thread) : (s.modThread c k f).modId = s.modId := by unfold State.modThread; split <;> rfl
@[simp] theorem State.modThread_ras (s : State) (c k : Nat) (f : Thread → Thread) : (s.modThread c k f).ras = s.ras := by unfold State.modThread; split <;> rfl
@[simp] theorem State.modThread_boot (s : State) (c k : Nat) (f : Thread → Thread) : (s.modThread c k f).boot = s.boot := by unfold State.modThread; split <;> rfl
@[simp] theorem State.modThread_recur (s : State) (c k : Nat) (f : Thread → Thread) : (s.modThread c k f).recur = s.recur := by unfold State.modThread; split <;> rfl
@[simp] theorem State.modThread_poison (s : State) (c k : Nat) (f : Thread → Thread) : (s.modThread c k f).poison = s.poison := by unfold State.modThread; split <;> rfl
@[simp] theorem State.modThread_gt (s : State) (c k : Nat) (f : Thread → Thread) : (s.modThread c k f).gt = s.gt := by unfold State.modThread; split <;> rfl
@[simp] theorem State.modThread_fusedCores (s : State) (c k : Nat) (f : Thread → Thread) : (s.modThread c k f).fusedCores = s.fusedCores := by unfold State.modThread; split <;> rfl
@[simp] theorem State.modThread_fusedEngines (s : State) (c k : Nat) (f : Thread → Thread) : (s.modThread c k f).fusedEngines = s.fusedEngines := by unfold State.modThread; split <;> rfl
@[simp] theorem State.modThread_agenda (s : State) (c k : Nat) (f : Thread → Thread) : (s.modThread c k f).agenda = s.agenda := by unfold State.modThread; split <;> rfl
@[simp] theorem State.modThread_later (s : State) (c k : Nat) (f : Thread → Thread) : (s.modThread c k f).later = s.later := by unfold State.modThread; split <;> rfl
@[simp] theorem State.modThread_timers (s : State) (c k : Nat) (f : Thread → Thread) : (s.modThread c k f).timers = s.timers := by unfold State.modThread; split <;> rfl
@[simp] theorem State.modThread_sched (s : State) (c k : Nat) (f : Thread → Thread) : (s.modThread c k f).sched = s.sched := by unfold State.modThread; split <;> rfl
@[simp] theorem State.modThread_unitWaits (s : State) (c k : Nat) (f : Thread → Thread) : (s.modThread c k f).unitWaits = s.unitWaits := by unfold State.modThread; split <;> rfl
@[simp] theorem State.modThread_slow (s : State) (c k : Nat) (f : Thread → Thread) : (s.modThread c k f).slow = s.slow := by unfold State.modThread; split <;> rfl
@[simp] theorem State.modThread_cur (s : State) (c k : Nat) (f : Thread → Thread) : (s.modThread c k f).cur = s.cur := by unfold State.modThread; split <;> rfl
@[simp] theorem State.modThread_fresh (s : State) (c k : Nat) (f : Thread → Thread) : (s.modThread c k f).fresh = s.fresh := by unfold State.modThread; split <;> rfl

/-! ### State.setCur -/

@[simp] theorem State.setCur_mem (s : State) (t : Thread) : (s.setCur t).mem = s.mem := rfl
@[simp] theorem State.setCur_threads (s : State) (t : Thread) : (s.setCur t).threads = aset (s.cur.core, s.cur.slot) t s.threads := rfl
@[simp] theorem State.setCur_cores (s : State) (t : Thread) : (s.setCur t).cores = s.cores := rfl
@[simp] theorem State.setCur_tlbs (s : State) (t : Thread) : (s.setCur t).tlbs = s.tlbs := rfl
@[simp] theorem State.setCur_clusters (s : State) (t : Thread) : (s.setCur t).clusters = s.clusters := rfl
@[simp] theorem State.setCur_parts (s : State) (t : Thread) : (s.setCur t).parts = s.parts := rfl
@[simp] theorem State.setCur_regions (s : State) (t : Thread) : (s.setCur t).regions = s.regions := rfl
@[simp] theorem State.setCur_fns (s : State) (t : Thread) : (s.setCur t).fns = s.fns := rfl
@[simp] theorem State.setCur_msis (s : State) (t : Thread) : (s.setCur t).msis = s.msis := rfl
@[simp] theorem State.setCur_ports (s : State) (t : Thread) : (s.setCur t).ports = s.ports := rfl
@[simp] theorem State.setCur_reqs (s : State) (t : Thread) : (s.setCur t).reqs = s.reqs := rfl
@[simp] theorem State.setCur_colls (s : State) (t : Thread) : (s.setCur t).colls = s.colls := rfl
@[simp] theorem State.setCur_modId (s : State) (t : Thread) : (s.setCur t).modId = s.modId := rfl
@[simp] theorem State.setCur_ras (s : State) (t : Thread) : (s.setCur t).ras = s.ras := rfl
@[simp] theorem State.setCur_boot (s : State) (t : Thread) : (s.setCur t).boot = s.boot := rfl
@[simp] theorem State.setCur_recur (s : State) (t : Thread) : (s.setCur t).recur = s.recur := rfl
@[simp] theorem State.setCur_poison (s : State) (t : Thread) : (s.setCur t).poison = s.poison := rfl
@[simp] theorem State.setCur_gt (s : State) (t : Thread) : (s.setCur t).gt = s.gt := rfl
@[simp] theorem State.setCur_fusedCores (s : State) (t : Thread) : (s.setCur t).fusedCores = s.fusedCores := rfl
@[simp] theorem State.setCur_fusedEngines (s : State) (t : Thread) : (s.setCur t).fusedEngines = s.fusedEngines := rfl
@[simp] theorem State.setCur_agenda (s : State) (t : Thread) : (s.setCur t).agenda = s.agenda := rfl
@[simp] theorem State.setCur_later (s : State) (t : Thread) : (s.setCur t).later = s.later := rfl
@[simp] theorem State.setCur_timers (s : State) (t : Thread) : (s.setCur t).timers = s.timers := rfl
@[simp] theorem State.setCur_sched (s : State) (t : Thread) : (s.setCur t).sched = s.sched := rfl
@[simp] theorem State.setCur_unitWaits (s : State) (t : Thread) : (s.setCur t).unitWaits = s.unitWaits := rfl
@[simp] theorem State.setCur_slow (s : State) (t : Thread) : (s.setCur t).slow = s.slow := rfl
@[simp] theorem State.setCur_cur (s : State) (t : Thread) : (s.setCur t).cur = s.cur := rfl
@[simp] theorem State.setCur_fresh (s : State) (t : Thread) : (s.setCur t).fresh = s.fresh := rfl

/-! ### State.modCur -/

@[simp] theorem State.modCur_mem (s : State) (f : Thread → Thread) : (s.modCur f).mem = s.mem := State.modThread_mem ..
@[simp] theorem State.modCur_cores (s : State) (f : Thread → Thread) : (s.modCur f).cores = s.cores := State.modThread_cores ..
@[simp] theorem State.modCur_tlbs (s : State) (f : Thread → Thread) : (s.modCur f).tlbs = s.tlbs := State.modThread_tlbs ..
@[simp] theorem State.modCur_clusters (s : State) (f : Thread → Thread) : (s.modCur f).clusters = s.clusters := State.modThread_clusters ..
@[simp] theorem State.modCur_parts (s : State) (f : Thread → Thread) : (s.modCur f).parts = s.parts := State.modThread_parts ..
@[simp] theorem State.modCur_regions (s : State) (f : Thread → Thread) : (s.modCur f).regions = s.regions := State.modThread_regions ..
@[simp] theorem State.modCur_fns (s : State) (f : Thread → Thread) : (s.modCur f).fns = s.fns := State.modThread_fns ..
@[simp] theorem State.modCur_msis (s : State) (f : Thread → Thread) : (s.modCur f).msis = s.msis := State.modThread_msis ..
@[simp] theorem State.modCur_ports (s : State) (f : Thread → Thread) : (s.modCur f).ports = s.ports := State.modThread_ports ..
@[simp] theorem State.modCur_reqs (s : State) (f : Thread → Thread) : (s.modCur f).reqs = s.reqs := State.modThread_reqs ..
@[simp] theorem State.modCur_colls (s : State) (f : Thread → Thread) : (s.modCur f).colls = s.colls := State.modThread_colls ..
@[simp] theorem State.modCur_modId (s : State) (f : Thread → Thread) : (s.modCur f).modId = s.modId := State.modThread_modId ..
@[simp] theorem State.modCur_ras (s : State) (f : Thread → Thread) : (s.modCur f).ras = s.ras := State.modThread_ras ..
@[simp] theorem State.modCur_boot (s : State) (f : Thread → Thread) : (s.modCur f).boot = s.boot := State.modThread_boot ..
@[simp] theorem State.modCur_recur (s : State) (f : Thread → Thread) : (s.modCur f).recur = s.recur := State.modThread_recur ..
@[simp] theorem State.modCur_poison (s : State) (f : Thread → Thread) : (s.modCur f).poison = s.poison := State.modThread_poison ..
@[simp] theorem State.modCur_gt (s : State) (f : Thread → Thread) : (s.modCur f).gt = s.gt := State.modThread_gt ..
@[simp] theorem State.modCur_fusedCores (s : State) (f : Thread → Thread) : (s.modCur f).fusedCores = s.fusedCores := State.modThread_fusedCores ..
@[simp] theorem State.modCur_fusedEngines (s : State) (f : Thread → Thread) : (s.modCur f).fusedEngines = s.fusedEngines := State.modThread_fusedEngines ..
@[simp] theorem State.modCur_agenda (s : State) (f : Thread → Thread) : (s.modCur f).agenda = s.agenda := State.modThread_agenda ..
@[simp] theorem State.modCur_later (s : State) (f : Thread → Thread) : (s.modCur f).later = s.later := State.modThread_later ..
@[simp] theorem State.modCur_timers (s : State) (f : Thread → Thread) : (s.modCur f).timers = s.timers := State.modThread_timers ..
@[simp] theorem State.modCur_sched (s : State) (f : Thread → Thread) : (s.modCur f).sched = s.sched := State.modThread_sched ..
@[simp] theorem State.modCur_unitWaits (s : State) (f : Thread → Thread) : (s.modCur f).unitWaits = s.unitWaits := State.modThread_unitWaits ..
@[simp] theorem State.modCur_slow (s : State) (f : Thread → Thread) : (s.modCur f).slow = s.slow := State.modThread_slow ..
@[simp] theorem State.modCur_cur (s : State) (f : Thread → Thread) : (s.modCur f).cur = s.cur := State.modThread_cur ..
@[simp] theorem State.modCur_fresh (s : State) (f : Thread → Thread) : (s.modCur f).fresh = s.fresh := State.modThread_fresh ..

/-! ### State.setCore -/

@[simp] theorem State.setCore_mem (s : State) (c : Nat) (x : Core) : (s.setCore c x).mem = s.mem := rfl
@[simp] theorem State.setCore_threads (s : State) (c : Nat) (x : Core) : (s.setCore c x).threads = s.threads := rfl
@[simp] theorem State.setCore_cores (s : State) (c : Nat) (x : Core) : (s.setCore c x).cores = aset c x s.cores := rfl
@[simp] theorem State.setCore_tlbs (s : State) (c : Nat) (x : Core) : (s.setCore c x).tlbs = s.tlbs := rfl
@[simp] theorem State.setCore_clusters (s : State) (c : Nat) (x : Core) : (s.setCore c x).clusters = s.clusters := rfl
@[simp] theorem State.setCore_parts (s : State) (c : Nat) (x : Core) : (s.setCore c x).parts = s.parts := rfl
@[simp] theorem State.setCore_regions (s : State) (c : Nat) (x : Core) : (s.setCore c x).regions = s.regions := rfl
@[simp] theorem State.setCore_fns (s : State) (c : Nat) (x : Core) : (s.setCore c x).fns = s.fns := rfl
@[simp] theorem State.setCore_msis (s : State) (c : Nat) (x : Core) : (s.setCore c x).msis = s.msis := rfl
@[simp] theorem State.setCore_ports (s : State) (c : Nat) (x : Core) : (s.setCore c x).ports = s.ports := rfl
@[simp] theorem State.setCore_reqs (s : State) (c : Nat) (x : Core) : (s.setCore c x).reqs = s.reqs := rfl
@[simp] theorem State.setCore_colls (s : State) (c : Nat) (x : Core) : (s.setCore c x).colls = s.colls := rfl
@[simp] theorem State.setCore_modId (s : State) (c : Nat) (x : Core) : (s.setCore c x).modId = s.modId := rfl
@[simp] theorem State.setCore_ras (s : State) (c : Nat) (x : Core) : (s.setCore c x).ras = s.ras := rfl
@[simp] theorem State.setCore_boot (s : State) (c : Nat) (x : Core) : (s.setCore c x).boot = s.boot := rfl
@[simp] theorem State.setCore_recur (s : State) (c : Nat) (x : Core) : (s.setCore c x).recur = s.recur := rfl
@[simp] theorem State.setCore_poison (s : State) (c : Nat) (x : Core) : (s.setCore c x).poison = s.poison := rfl
@[simp] theorem State.setCore_gt (s : State) (c : Nat) (x : Core) : (s.setCore c x).gt = s.gt := rfl
@[simp] theorem State.setCore_fusedCores (s : State) (c : Nat) (x : Core) : (s.setCore c x).fusedCores = s.fusedCores := rfl
@[simp] theorem State.setCore_fusedEngines (s : State) (c : Nat) (x : Core) : (s.setCore c x).fusedEngines = s.fusedEngines := rfl
@[simp] theorem State.setCore_agenda (s : State) (c : Nat) (x : Core) : (s.setCore c x).agenda = s.agenda := rfl
@[simp] theorem State.setCore_later (s : State) (c : Nat) (x : Core) : (s.setCore c x).later = s.later := rfl
@[simp] theorem State.setCore_timers (s : State) (c : Nat) (x : Core) : (s.setCore c x).timers = s.timers := rfl
@[simp] theorem State.setCore_sched (s : State) (c : Nat) (x : Core) : (s.setCore c x).sched = s.sched := rfl
@[simp] theorem State.setCore_unitWaits (s : State) (c : Nat) (x : Core) : (s.setCore c x).unitWaits = s.unitWaits := rfl
@[simp] theorem State.setCore_slow (s : State) (c : Nat) (x : Core) : (s.setCore c x).slow = s.slow := rfl
@[simp] theorem State.setCore_cur (s : State) (c : Nat) (x : Core) : (s.setCore c x).cur = s.cur := rfl
@[simp] theorem State.setCore_fresh (s : State) (c : Nat) (x : Core) : (s.setCore c x).fresh = s.fresh := rfl

/-! ### State.modCore -/

@[simp] theorem State.modCore_mem (s : State) (c : Nat) (f : Core → Core) : (s.modCore c f).mem = s.mem := rfl
@[simp] theorem State.modCore_threads (s : State) (c : Nat) (f : Core → Core) : (s.modCore c f).threads = s.threads := rfl
@[simp] theorem State.modCore_cores (s : State) (c : Nat) (f : Core → Core) : (s.modCore c f).cores = aset c (f (s.core c)) s.cores := rfl
@[simp] theorem State.modCore_tlbs (s : State) (c : Nat) (f : Core → Core) : (s.modCore c f).tlbs = s.tlbs := rfl
@[simp] theorem State.modCore_clusters (s : State) (c : Nat) (f : Core → Core) : (s.modCore c f).clusters = s.clusters := rfl
@[simp] theorem State.modCore_parts (s : State) (c : Nat) (f : Core → Core) : (s.modCore c f).parts = s.parts := rfl
@[simp] theorem State.modCore_regions (s : State) (c : Nat) (f : Core → Core) : (s.modCore c f).regions = s.regions := rfl
@[simp] theorem State.modCore_fns (s : State) (c : Nat) (f : Core → Core) : (s.modCore c f).fns = s.fns := rfl
@[simp] theorem State.modCore_msis (s : State) (c : Nat) (f : Core → Core) : (s.modCore c f).msis = s.msis := rfl
@[simp] theorem State.modCore_ports (s : State) (c : Nat) (f : Core → Core) : (s.modCore c f).ports = s.ports := rfl
@[simp] theorem State.modCore_reqs (s : State) (c : Nat) (f : Core → Core) : (s.modCore c f).reqs = s.reqs := rfl
@[simp] theorem State.modCore_colls (s : State) (c : Nat) (f : Core → Core) : (s.modCore c f).colls = s.colls := rfl
@[simp] theorem State.modCore_modId (s : State) (c : Nat) (f : Core → Core) : (s.modCore c f).modId = s.modId := rfl
@[simp] theorem State.modCore_ras (s : State) (c : Nat) (f : Core → Core) : (s.modCore c f).ras = s.ras := rfl
@[simp] theorem State.modCore_boot (s : State) (c : Nat) (f : Core → Core) : (s.modCore c f).boot = s.boot := rfl
@[simp] theorem State.modCore_recur (s : State) (c : Nat) (f : Core → Core) : (s.modCore c f).recur = s.recur := rfl
@[simp] theorem State.modCore_poison (s : State) (c : Nat) (f : Core → Core) : (s.modCore c f).poison = s.poison := rfl
@[simp] theorem State.modCore_gt (s : State) (c : Nat) (f : Core → Core) : (s.modCore c f).gt = s.gt := rfl
@[simp] theorem State.modCore_fusedCores (s : State) (c : Nat) (f : Core → Core) : (s.modCore c f).fusedCores = s.fusedCores := rfl
@[simp] theorem State.modCore_fusedEngines (s : State) (c : Nat) (f : Core → Core) : (s.modCore c f).fusedEngines = s.fusedEngines := rfl
@[simp] theorem State.modCore_agenda (s : State) (c : Nat) (f : Core → Core) : (s.modCore c f).agenda = s.agenda := rfl
@[simp] theorem State.modCore_later (s : State) (c : Nat) (f : Core → Core) : (s.modCore c f).later = s.later := rfl
@[simp] theorem State.modCore_timers (s : State) (c : Nat) (f : Core → Core) : (s.modCore c f).timers = s.timers := rfl
@[simp] theorem State.modCore_sched (s : State) (c : Nat) (f : Core → Core) : (s.modCore c f).sched = s.sched := rfl
@[simp] theorem State.modCore_unitWaits (s : State) (c : Nat) (f : Core → Core) : (s.modCore c f).unitWaits = s.unitWaits := rfl
@[simp] theorem State.modCore_slow (s : State) (c : Nat) (f : Core → Core) : (s.modCore c f).slow = s.slow := rfl
@[simp] theorem State.modCore_cur (s : State) (c : Nat) (f : Core → Core) : (s.modCore c f).cur = s.cur := rfl
@[simp] theorem State.modCore_fresh (s : State) (c : Nat) (f : Core → Core) : (s.modCore c f).fresh = s.fresh := rfl

/-! ### State.modCluster -/

@[simp] theorem State.modCluster_mem (s : State) (k : Nat) (f : Cluster → Cluster) : (s.modCluster k f).mem = s.mem := rfl
@[simp] theorem State.modCluster_threads (s : State) (k : Nat) (f : Cluster → Cluster) : (s.modCluster k f).threads = s.threads := rfl
@[simp] theorem State.modCluster_cores (s : State) (k : Nat) (f : Cluster → Cluster) : (s.modCluster k f).cores = s.cores := rfl
@[simp] theorem State.modCluster_tlbs (s : State) (k : Nat) (f : Cluster → Cluster) : (s.modCluster k f).tlbs = s.tlbs := rfl
@[simp] theorem State.modCluster_clusters (s : State) (k : Nat) (f : Cluster → Cluster) : (s.modCluster k f).clusters = aset k (f (s.cluster k)) s.clusters := rfl
@[simp] theorem State.modCluster_parts (s : State) (k : Nat) (f : Cluster → Cluster) : (s.modCluster k f).parts = s.parts := rfl
@[simp] theorem State.modCluster_regions (s : State) (k : Nat) (f : Cluster → Cluster) : (s.modCluster k f).regions = s.regions := rfl
@[simp] theorem State.modCluster_fns (s : State) (k : Nat) (f : Cluster → Cluster) : (s.modCluster k f).fns = s.fns := rfl
@[simp] theorem State.modCluster_msis (s : State) (k : Nat) (f : Cluster → Cluster) : (s.modCluster k f).msis = s.msis := rfl
@[simp] theorem State.modCluster_ports (s : State) (k : Nat) (f : Cluster → Cluster) : (s.modCluster k f).ports = s.ports := rfl
@[simp] theorem State.modCluster_reqs (s : State) (k : Nat) (f : Cluster → Cluster) : (s.modCluster k f).reqs = s.reqs := rfl
@[simp] theorem State.modCluster_colls (s : State) (k : Nat) (f : Cluster → Cluster) : (s.modCluster k f).colls = s.colls := rfl
@[simp] theorem State.modCluster_modId (s : State) (k : Nat) (f : Cluster → Cluster) : (s.modCluster k f).modId = s.modId := rfl
@[simp] theorem State.modCluster_ras (s : State) (k : Nat) (f : Cluster → Cluster) : (s.modCluster k f).ras = s.ras := rfl
@[simp] theorem State.modCluster_boot (s : State) (k : Nat) (f : Cluster → Cluster) : (s.modCluster k f).boot = s.boot := rfl
@[simp] theorem State.modCluster_recur (s : State) (k : Nat) (f : Cluster → Cluster) : (s.modCluster k f).recur = s.recur := rfl
@[simp] theorem State.modCluster_poison (s : State) (k : Nat) (f : Cluster → Cluster) : (s.modCluster k f).poison = s.poison := rfl
@[simp] theorem State.modCluster_gt (s : State) (k : Nat) (f : Cluster → Cluster) : (s.modCluster k f).gt = s.gt := rfl
@[simp] theorem State.modCluster_fusedCores (s : State) (k : Nat) (f : Cluster → Cluster) : (s.modCluster k f).fusedCores = s.fusedCores := rfl
@[simp] theorem State.modCluster_fusedEngines (s : State) (k : Nat) (f : Cluster → Cluster) : (s.modCluster k f).fusedEngines = s.fusedEngines := rfl
@[simp] theorem State.modCluster_agenda (s : State) (k : Nat) (f : Cluster → Cluster) : (s.modCluster k f).agenda = s.agenda := rfl
@[simp] theorem State.modCluster_later (s : State) (k : Nat) (f : Cluster → Cluster) : (s.modCluster k f).later = s.later := rfl
@[simp] theorem State.modCluster_timers (s : State) (k : Nat) (f : Cluster → Cluster) : (s.modCluster k f).timers = s.timers := rfl
@[simp] theorem State.modCluster_sched (s : State) (k : Nat) (f : Cluster → Cluster) : (s.modCluster k f).sched = s.sched := rfl
@[simp] theorem State.modCluster_unitWaits (s : State) (k : Nat) (f : Cluster → Cluster) : (s.modCluster k f).unitWaits = s.unitWaits := rfl
@[simp] theorem State.modCluster_slow (s : State) (k : Nat) (f : Cluster → Cluster) : (s.modCluster k f).slow = s.slow := rfl
@[simp] theorem State.modCluster_cur (s : State) (k : Nat) (f : Cluster → Cluster) : (s.modCluster k f).cur = s.cur := rfl
@[simp] theorem State.modCluster_fresh (s : State) (k : Nat) (f : Cluster → Cluster) : (s.modCluster k f).fresh = s.fresh := rfl

/-! ### State.modPart -/

@[simp] theorem State.modPart_mem (s : State) (p : Nat) (f : Part → Part) : (s.modPart p f).mem = s.mem := by unfold State.modPart; split <;> rfl
@[simp] theorem State.modPart_threads (s : State) (p : Nat) (f : Part → Part) : (s.modPart p f).threads = s.threads := by unfold State.modPart; split <;> rfl
@[simp] theorem State.modPart_cores (s : State) (p : Nat) (f : Part → Part) : (s.modPart p f).cores = s.cores := by unfold State.modPart; split <;> rfl
@[simp] theorem State.modPart_tlbs (s : State) (p : Nat) (f : Part → Part) : (s.modPart p f).tlbs = s.tlbs := by unfold State.modPart; split <;> rfl
@[simp] theorem State.modPart_clusters (s : State) (p : Nat) (f : Part → Part) : (s.modPart p f).clusters = s.clusters := by unfold State.modPart; split <;> rfl
@[simp] theorem State.modPart_regions (s : State) (p : Nat) (f : Part → Part) : (s.modPart p f).regions = s.regions := by unfold State.modPart; split <;> rfl
@[simp] theorem State.modPart_fns (s : State) (p : Nat) (f : Part → Part) : (s.modPart p f).fns = s.fns := by unfold State.modPart; split <;> rfl
@[simp] theorem State.modPart_msis (s : State) (p : Nat) (f : Part → Part) : (s.modPart p f).msis = s.msis := by unfold State.modPart; split <;> rfl
@[simp] theorem State.modPart_ports (s : State) (p : Nat) (f : Part → Part) : (s.modPart p f).ports = s.ports := by unfold State.modPart; split <;> rfl
@[simp] theorem State.modPart_reqs (s : State) (p : Nat) (f : Part → Part) : (s.modPart p f).reqs = s.reqs := by unfold State.modPart; split <;> rfl
@[simp] theorem State.modPart_colls (s : State) (p : Nat) (f : Part → Part) : (s.modPart p f).colls = s.colls := by unfold State.modPart; split <;> rfl
@[simp] theorem State.modPart_modId (s : State) (p : Nat) (f : Part → Part) : (s.modPart p f).modId = s.modId := by unfold State.modPart; split <;> rfl
@[simp] theorem State.modPart_ras (s : State) (p : Nat) (f : Part → Part) : (s.modPart p f).ras = s.ras := by unfold State.modPart; split <;> rfl
@[simp] theorem State.modPart_boot (s : State) (p : Nat) (f : Part → Part) : (s.modPart p f).boot = s.boot := by unfold State.modPart; split <;> rfl
@[simp] theorem State.modPart_recur (s : State) (p : Nat) (f : Part → Part) : (s.modPart p f).recur = s.recur := by unfold State.modPart; split <;> rfl
@[simp] theorem State.modPart_poison (s : State) (p : Nat) (f : Part → Part) : (s.modPart p f).poison = s.poison := by unfold State.modPart; split <;> rfl
@[simp] theorem State.modPart_gt (s : State) (p : Nat) (f : Part → Part) : (s.modPart p f).gt = s.gt := by unfold State.modPart; split <;> rfl
@[simp] theorem State.modPart_fusedCores (s : State) (p : Nat) (f : Part → Part) : (s.modPart p f).fusedCores = s.fusedCores := by unfold State.modPart; split <;> rfl
@[simp] theorem State.modPart_fusedEngines (s : State) (p : Nat) (f : Part → Part) : (s.modPart p f).fusedEngines = s.fusedEngines := by unfold State.modPart; split <;> rfl
@[simp] theorem State.modPart_agenda (s : State) (p : Nat) (f : Part → Part) : (s.modPart p f).agenda = s.agenda := by unfold State.modPart; split <;> rfl
@[simp] theorem State.modPart_later (s : State) (p : Nat) (f : Part → Part) : (s.modPart p f).later = s.later := by unfold State.modPart; split <;> rfl
@[simp] theorem State.modPart_timers (s : State) (p : Nat) (f : Part → Part) : (s.modPart p f).timers = s.timers := by unfold State.modPart; split <;> rfl
@[simp] theorem State.modPart_sched (s : State) (p : Nat) (f : Part → Part) : (s.modPart p f).sched = s.sched := by unfold State.modPart; split <;> rfl
@[simp] theorem State.modPart_unitWaits (s : State) (p : Nat) (f : Part → Part) : (s.modPart p f).unitWaits = s.unitWaits := by unfold State.modPart; split <;> rfl
@[simp] theorem State.modPart_slow (s : State) (p : Nat) (f : Part → Part) : (s.modPart p f).slow = s.slow := by unfold State.modPart; split <;> rfl
@[simp] theorem State.modPart_cur (s : State) (p : Nat) (f : Part → Part) : (s.modPart p f).cur = s.cur := by unfold State.modPart; split <;> rfl
@[simp] theorem State.modPart_fresh (s : State) (p : Nat) (f : Part → Part) : (s.modPart p f).fresh = s.fresh := by unfold State.modPart; split <;> rfl

/-! ### State.modRegion -/

@[simp] theorem State.modRegion_mem (s : State) (r : Nat) (f : Region → Region) : (s.modRegion r f).mem = s.mem := by unfold State.modRegion; split <;> rfl
@[simp] theorem State.modRegion_threads (s : State) (r : Nat) (f : Region → Region) : (s.modRegion r f).threads = s.threads := by unfold State.modRegion; split <;> rfl
@[simp] theorem State.modRegion_cores (s : State) (r : Nat) (f : Region → Region) : (s.modRegion r f).cores = s.cores := by unfold State.modRegion; split <;> rfl
@[simp] theorem State.modRegion_tlbs (s : State) (r : Nat) (f : Region → Region) : (s.modRegion r f).tlbs = s.tlbs := by unfold State.modRegion; split <;> rfl
@[simp] theorem State.modRegion_clusters (s : State) (r : Nat) (f : Region → Region) : (s.modRegion r f).clusters = s.clusters := by unfold State.modRegion; split <;> rfl
@[simp] theorem State.modRegion_parts (s : State) (r : Nat) (f : Region → Region) : (s.modRegion r f).parts = s.parts := by unfold State.modRegion; split <;> rfl
@[simp] theorem State.modRegion_fns (s : State) (r : Nat) (f : Region → Region) : (s.modRegion r f).fns = s.fns := by unfold State.modRegion; split <;> rfl
@[simp] theorem State.modRegion_msis (s : State) (r : Nat) (f : Region → Region) : (s.modRegion r f).msis = s.msis := by unfold State.modRegion; split <;> rfl
@[simp] theorem State.modRegion_ports (s : State) (r : Nat) (f : Region → Region) : (s.modRegion r f).ports = s.ports := by unfold State.modRegion; split <;> rfl
@[simp] theorem State.modRegion_reqs (s : State) (r : Nat) (f : Region → Region) : (s.modRegion r f).reqs = s.reqs := by unfold State.modRegion; split <;> rfl
@[simp] theorem State.modRegion_colls (s : State) (r : Nat) (f : Region → Region) : (s.modRegion r f).colls = s.colls := by unfold State.modRegion; split <;> rfl
@[simp] theorem State.modRegion_modId (s : State) (r : Nat) (f : Region → Region) : (s.modRegion r f).modId = s.modId := by unfold State.modRegion; split <;> rfl
@[simp] theorem State.modRegion_ras (s : State) (r : Nat) (f : Region → Region) : (s.modRegion r f).ras = s.ras := by unfold State.modRegion; split <;> rfl
@[simp] theorem State.modRegion_boot (s : State) (r : Nat) (f : Region → Region) : (s.modRegion r f).boot = s.boot := by unfold State.modRegion; split <;> rfl
@[simp] theorem State.modRegion_recur (s : State) (r : Nat) (f : Region → Region) : (s.modRegion r f).recur = s.recur := by unfold State.modRegion; split <;> rfl
@[simp] theorem State.modRegion_poison (s : State) (r : Nat) (f : Region → Region) : (s.modRegion r f).poison = s.poison := by unfold State.modRegion; split <;> rfl
@[simp] theorem State.modRegion_gt (s : State) (r : Nat) (f : Region → Region) : (s.modRegion r f).gt = s.gt := by unfold State.modRegion; split <;> rfl
@[simp] theorem State.modRegion_fusedCores (s : State) (r : Nat) (f : Region → Region) : (s.modRegion r f).fusedCores = s.fusedCores := by unfold State.modRegion; split <;> rfl
@[simp] theorem State.modRegion_fusedEngines (s : State) (r : Nat) (f : Region → Region) : (s.modRegion r f).fusedEngines = s.fusedEngines := by unfold State.modRegion; split <;> rfl
@[simp] theorem State.modRegion_agenda (s : State) (r : Nat) (f : Region → Region) : (s.modRegion r f).agenda = s.agenda := by unfold State.modRegion; split <;> rfl
@[simp] theorem State.modRegion_later (s : State) (r : Nat) (f : Region → Region) : (s.modRegion r f).later = s.later := by unfold State.modRegion; split <;> rfl
@[simp] theorem State.modRegion_timers (s : State) (r : Nat) (f : Region → Region) : (s.modRegion r f).timers = s.timers := by unfold State.modRegion; split <;> rfl
@[simp] theorem State.modRegion_sched (s : State) (r : Nat) (f : Region → Region) : (s.modRegion r f).sched = s.sched := by unfold State.modRegion; split <;> rfl
@[simp] theorem State.modRegion_unitWaits (s : State) (r : Nat) (f : Region → Region) : (s.modRegion r f).unitWaits = s.unitWaits := by unfold State.modRegion; split <;> rfl
@[simp] theorem State.modRegion_slow (s : State) (r : Nat) (f : Region → Region) : (s.modRegion r f).slow = s.slow := by unfold State.modRegion; split <;> rfl
@[simp] theorem State.modRegion_cur (s : State) (r : Nat) (f : Region → Region) : (s.modRegion r f).cur = s.cur := by unfold State.modRegion; split <;> rfl
@[simp] theorem State.modRegion_fresh (s : State) (r : Nat) (f : Region → Region) : (s.modRegion r f).fresh = s.fresh := by unfold State.modRegion; split <;> rfl

/-! ### State.modFn -/

@[simp] theorem State.modFn_mem (s : State) (f : Nat) (g : Fn → Fn) : (s.modFn f g).mem = s.mem := rfl
@[simp] theorem State.modFn_threads (s : State) (f : Nat) (g : Fn → Fn) : (s.modFn f g).threads = s.threads := rfl
@[simp] theorem State.modFn_cores (s : State) (f : Nat) (g : Fn → Fn) : (s.modFn f g).cores = s.cores := rfl
@[simp] theorem State.modFn_tlbs (s : State) (f : Nat) (g : Fn → Fn) : (s.modFn f g).tlbs = s.tlbs := rfl
@[simp] theorem State.modFn_clusters (s : State) (f : Nat) (g : Fn → Fn) : (s.modFn f g).clusters = s.clusters := rfl
@[simp] theorem State.modFn_parts (s : State) (f : Nat) (g : Fn → Fn) : (s.modFn f g).parts = s.parts := rfl
@[simp] theorem State.modFn_regions (s : State) (f : Nat) (g : Fn → Fn) : (s.modFn f g).regions = s.regions := rfl
@[simp] theorem State.modFn_fns (s : State) (f : Nat) (g : Fn → Fn) : (s.modFn f g).fns = aset f (g (s.fn f)) s.fns := rfl
@[simp] theorem State.modFn_msis (s : State) (f : Nat) (g : Fn → Fn) : (s.modFn f g).msis = s.msis := rfl
@[simp] theorem State.modFn_ports (s : State) (f : Nat) (g : Fn → Fn) : (s.modFn f g).ports = s.ports := rfl
@[simp] theorem State.modFn_reqs (s : State) (f : Nat) (g : Fn → Fn) : (s.modFn f g).reqs = s.reqs := rfl
@[simp] theorem State.modFn_colls (s : State) (f : Nat) (g : Fn → Fn) : (s.modFn f g).colls = s.colls := rfl
@[simp] theorem State.modFn_modId (s : State) (f : Nat) (g : Fn → Fn) : (s.modFn f g).modId = s.modId := rfl
@[simp] theorem State.modFn_ras (s : State) (f : Nat) (g : Fn → Fn) : (s.modFn f g).ras = s.ras := rfl
@[simp] theorem State.modFn_boot (s : State) (f : Nat) (g : Fn → Fn) : (s.modFn f g).boot = s.boot := rfl
@[simp] theorem State.modFn_recur (s : State) (f : Nat) (g : Fn → Fn) : (s.modFn f g).recur = s.recur := rfl
@[simp] theorem State.modFn_poison (s : State) (f : Nat) (g : Fn → Fn) : (s.modFn f g).poison = s.poison := rfl
@[simp] theorem State.modFn_gt (s : State) (f : Nat) (g : Fn → Fn) : (s.modFn f g).gt = s.gt := rfl
@[simp] theorem State.modFn_fusedCores (s : State) (f : Nat) (g : Fn → Fn) : (s.modFn f g).fusedCores = s.fusedCores := rfl
@[simp] theorem State.modFn_fusedEngines (s : State) (f : Nat) (g : Fn → Fn) : (s.modFn f g).fusedEngines = s.fusedEngines := rfl
@[simp] theorem State.modFn_agenda (s : State) (f : Nat) (g : Fn → Fn) : (s.modFn f g).agenda = s.agenda := rfl
@[simp] theorem State.modFn_later (s : State) (f : Nat) (g : Fn → Fn) : (s.modFn f g).later = s.later := rfl
@[simp] theorem State.modFn_timers (s : State) (f : Nat) (g : Fn → Fn) : (s.modFn f g).timers = s.timers := rfl
@[simp] theorem State.modFn_sched (s : State) (f : Nat) (g : Fn → Fn) : (s.modFn f g).sched = s.sched := rfl
@[simp] theorem State.modFn_unitWaits (s : State) (f : Nat) (g : Fn → Fn) : (s.modFn f g).unitWaits = s.unitWaits := rfl
@[simp] theorem State.modFn_slow (s : State) (f : Nat) (g : Fn → Fn) : (s.modFn f g).slow = s.slow := rfl
@[simp] theorem State.modFn_cur (s : State) (f : Nat) (g : Fn → Fn) : (s.modFn f g).cur = s.cur := rfl
@[simp] theorem State.modFn_fresh (s : State) (f : Nat) (g : Fn → Fn) : (s.modFn f g).fresh = s.fresh := rfl

/-! ### State.modPort -/

@[simp] theorem State.modPort_mem (s : State) (n : Nat) (f : Port → Port) : (s.modPort n f).mem = s.mem := rfl
@[simp] theorem State.modPort_threads (s : State) (n : Nat) (f : Port → Port) : (s.modPort n f).threads = s.threads := rfl
@[simp] theorem State.modPort_cores (s : State) (n : Nat) (f : Port → Port) : (s.modPort n f).cores = s.cores := rfl
@[simp] theorem State.modPort_tlbs (s : State) (n : Nat) (f : Port → Port) : (s.modPort n f).tlbs = s.tlbs := rfl
@[simp] theorem State.modPort_clusters (s : State) (n : Nat) (f : Port → Port) : (s.modPort n f).clusters = s.clusters := rfl
@[simp] theorem State.modPort_parts (s : State) (n : Nat) (f : Port → Port) : (s.modPort n f).parts = s.parts := rfl
@[simp] theorem State.modPort_regions (s : State) (n : Nat) (f : Port → Port) : (s.modPort n f).regions = s.regions := rfl
@[simp] theorem State.modPort_fns (s : State) (n : Nat) (f : Port → Port) : (s.modPort n f).fns = s.fns := rfl
@[simp] theorem State.modPort_msis (s : State) (n : Nat) (f : Port → Port) : (s.modPort n f).msis = s.msis := rfl
@[simp] theorem State.modPort_ports (s : State) (n : Nat) (f : Port → Port) : (s.modPort n f).ports = aset n (f (s.port n)) s.ports := rfl
@[simp] theorem State.modPort_reqs (s : State) (n : Nat) (f : Port → Port) : (s.modPort n f).reqs = s.reqs := rfl
@[simp] theorem State.modPort_colls (s : State) (n : Nat) (f : Port → Port) : (s.modPort n f).colls = s.colls := rfl
@[simp] theorem State.modPort_modId (s : State) (n : Nat) (f : Port → Port) : (s.modPort n f).modId = s.modId := rfl
@[simp] theorem State.modPort_ras (s : State) (n : Nat) (f : Port → Port) : (s.modPort n f).ras = s.ras := rfl
@[simp] theorem State.modPort_boot (s : State) (n : Nat) (f : Port → Port) : (s.modPort n f).boot = s.boot := rfl
@[simp] theorem State.modPort_recur (s : State) (n : Nat) (f : Port → Port) : (s.modPort n f).recur = s.recur := rfl
@[simp] theorem State.modPort_poison (s : State) (n : Nat) (f : Port → Port) : (s.modPort n f).poison = s.poison := rfl
@[simp] theorem State.modPort_gt (s : State) (n : Nat) (f : Port → Port) : (s.modPort n f).gt = s.gt := rfl
@[simp] theorem State.modPort_fusedCores (s : State) (n : Nat) (f : Port → Port) : (s.modPort n f).fusedCores = s.fusedCores := rfl
@[simp] theorem State.modPort_fusedEngines (s : State) (n : Nat) (f : Port → Port) : (s.modPort n f).fusedEngines = s.fusedEngines := rfl
@[simp] theorem State.modPort_agenda (s : State) (n : Nat) (f : Port → Port) : (s.modPort n f).agenda = s.agenda := rfl
@[simp] theorem State.modPort_later (s : State) (n : Nat) (f : Port → Port) : (s.modPort n f).later = s.later := rfl
@[simp] theorem State.modPort_timers (s : State) (n : Nat) (f : Port → Port) : (s.modPort n f).timers = s.timers := rfl
@[simp] theorem State.modPort_sched (s : State) (n : Nat) (f : Port → Port) : (s.modPort n f).sched = s.sched := rfl
@[simp] theorem State.modPort_unitWaits (s : State) (n : Nat) (f : Port → Port) : (s.modPort n f).unitWaits = s.unitWaits := rfl
@[simp] theorem State.modPort_slow (s : State) (n : Nat) (f : Port → Port) : (s.modPort n f).slow = s.slow := rfl
@[simp] theorem State.modPort_cur (s : State) (n : Nat) (f : Port → Port) : (s.modPort n f).cur = s.cur := rfl
@[simp] theorem State.modPort_fresh (s : State) (n : Nat) (f : Port → Port) : (s.modPort n f).fresh = s.fresh := rfl

/-! ### State.push -/

@[simp] theorem State.push_mem (s : State) (es : List Event) : (s.push es).mem = s.mem := rfl
@[simp] theorem State.push_threads (s : State) (es : List Event) : (s.push es).threads = s.threads := rfl
@[simp] theorem State.push_cores (s : State) (es : List Event) : (s.push es).cores = s.cores := rfl
@[simp] theorem State.push_tlbs (s : State) (es : List Event) : (s.push es).tlbs = s.tlbs := rfl
@[simp] theorem State.push_clusters (s : State) (es : List Event) : (s.push es).clusters = s.clusters := rfl
@[simp] theorem State.push_parts (s : State) (es : List Event) : (s.push es).parts = s.parts := rfl
@[simp] theorem State.push_regions (s : State) (es : List Event) : (s.push es).regions = s.regions := rfl
@[simp] theorem State.push_fns (s : State) (es : List Event) : (s.push es).fns = s.fns := rfl
@[simp] theorem State.push_msis (s : State) (es : List Event) : (s.push es).msis = s.msis := rfl
@[simp] theorem State.push_ports (s : State) (es : List Event) : (s.push es).ports = s.ports := rfl
@[simp] theorem State.push_reqs (s : State) (es : List Event) : (s.push es).reqs = s.reqs := rfl
@[simp] theorem State.push_colls (s : State) (es : List Event) : (s.push es).colls = s.colls := rfl
@[simp] theorem State.push_modId (s : State) (es : List Event) : (s.push es).modId = s.modId := rfl
@[simp] theorem State.push_ras (s : State) (es : List Event) : (s.push es).ras = s.ras := rfl
@[simp] theorem State.push_boot (s : State) (es : List Event) : (s.push es).boot = s.boot := rfl
@[simp] theorem State.push_recur (s : State) (es : List Event) : (s.push es).recur = s.recur := rfl
@[simp] theorem State.push_poison (s : State) (es : List Event) : (s.push es).poison = s.poison := rfl
@[simp] theorem State.push_gt (s : State) (es : List Event) : (s.push es).gt = s.gt := rfl
@[simp] theorem State.push_fusedCores (s : State) (es : List Event) : (s.push es).fusedCores = s.fusedCores := rfl
@[simp] theorem State.push_fusedEngines (s : State) (es : List Event) : (s.push es).fusedEngines = s.fusedEngines := rfl
@[simp] theorem State.push_agenda (s : State) (es : List Event) : (s.push es).agenda = s.agenda ++ es := rfl
@[simp] theorem State.push_later (s : State) (es : List Event) : (s.push es).later = s.later := rfl
@[simp] theorem State.push_timers (s : State) (es : List Event) : (s.push es).timers = s.timers := rfl
@[simp] theorem State.push_sched (s : State) (es : List Event) : (s.push es).sched = s.sched := rfl
@[simp] theorem State.push_unitWaits (s : State) (es : List Event) : (s.push es).unitWaits = s.unitWaits := rfl
@[simp] theorem State.push_slow (s : State) (es : List Event) : (s.push es).slow = s.slow := rfl
@[simp] theorem State.push_cur (s : State) (es : List Event) : (s.push es).cur = s.cur := rfl
@[simp] theorem State.push_fresh (s : State) (es : List Event) : (s.push es).fresh = s.fresh := rfl

/-! ### State.later1 -/

@[simp] theorem State.later1_mem (s : State) (e : Event) : (s.later1 e).mem = s.mem := by unfold State.later1; split <;> rfl
@[simp] theorem State.later1_threads (s : State) (e : Event) : (s.later1 e).threads = s.threads := by unfold State.later1; split <;> rfl
@[simp] theorem State.later1_cores (s : State) (e : Event) : (s.later1 e).cores = s.cores := by unfold State.later1; split <;> rfl
@[simp] theorem State.later1_tlbs (s : State) (e : Event) : (s.later1 e).tlbs = s.tlbs := by unfold State.later1; split <;> rfl
@[simp] theorem State.later1_clusters (s : State) (e : Event) : (s.later1 e).clusters = s.clusters := by unfold State.later1; split <;> rfl
@[simp] theorem State.later1_parts (s : State) (e : Event) : (s.later1 e).parts = s.parts := by unfold State.later1; split <;> rfl
@[simp] theorem State.later1_regions (s : State) (e : Event) : (s.later1 e).regions = s.regions := by unfold State.later1; split <;> rfl
@[simp] theorem State.later1_fns (s : State) (e : Event) : (s.later1 e).fns = s.fns := by unfold State.later1; split <;> rfl
@[simp] theorem State.later1_msis (s : State) (e : Event) : (s.later1 e).msis = s.msis := by unfold State.later1; split <;> rfl
@[simp] theorem State.later1_ports (s : State) (e : Event) : (s.later1 e).ports = s.ports := by unfold State.later1; split <;> rfl
@[simp] theorem State.later1_reqs (s : State) (e : Event) : (s.later1 e).reqs = s.reqs := by unfold State.later1; split <;> rfl
@[simp] theorem State.later1_colls (s : State) (e : Event) : (s.later1 e).colls = s.colls := by unfold State.later1; split <;> rfl
@[simp] theorem State.later1_modId (s : State) (e : Event) : (s.later1 e).modId = s.modId := by unfold State.later1; split <;> rfl
@[simp] theorem State.later1_ras (s : State) (e : Event) : (s.later1 e).ras = s.ras := by unfold State.later1; split <;> rfl
@[simp] theorem State.later1_boot (s : State) (e : Event) : (s.later1 e).boot = s.boot := by unfold State.later1; split <;> rfl
@[simp] theorem State.later1_recur (s : State) (e : Event) : (s.later1 e).recur = s.recur := by unfold State.later1; split <;> rfl
@[simp] theorem State.later1_poison (s : State) (e : Event) : (s.later1 e).poison = s.poison := by unfold State.later1; split <;> rfl
@[simp] theorem State.later1_gt (s : State) (e : Event) : (s.later1 e).gt = s.gt := by unfold State.later1; split <;> rfl
@[simp] theorem State.later1_fusedCores (s : State) (e : Event) : (s.later1 e).fusedCores = s.fusedCores := by unfold State.later1; split <;> rfl
@[simp] theorem State.later1_fusedEngines (s : State) (e : Event) : (s.later1 e).fusedEngines = s.fusedEngines := by unfold State.later1; split <;> rfl
@[simp] theorem State.later1_agenda (s : State) (e : Event) : (s.later1 e).agenda = s.agenda := by unfold State.later1; split <;> rfl
@[simp] theorem State.later1_timers (s : State) (e : Event) : (s.later1 e).timers = s.timers := by unfold State.later1; split <;> rfl
@[simp] theorem State.later1_sched (s : State) (e : Event) : (s.later1 e).sched = s.sched := by unfold State.later1; split <;> rfl
@[simp] theorem State.later1_unitWaits (s : State) (e : Event) : (s.later1 e).unitWaits = s.unitWaits := by unfold State.later1; split <;> rfl
@[simp] theorem State.later1_slow (s : State) (e : Event) : (s.later1 e).slow = s.slow := by unfold State.later1; split <;> rfl
@[simp] theorem State.later1_cur (s : State) (e : Event) : (s.later1 e).cur = s.cur := by unfold State.later1; split <;> rfl
@[simp] theorem State.later1_fresh (s : State) (e : Event) : (s.later1 e).fresh = s.fresh := by unfold State.later1; split <;> rfl

/-! ### State.timer -/

@[simp] theorem State.timer_mem (s : State) (g : Nat) (e : Event) : (s.timer g e).mem = s.mem := rfl
@[simp] theorem State.timer_threads (s : State) (g : Nat) (e : Event) : (s.timer g e).threads = s.threads := rfl
@[simp] theorem State.timer_cores (s : State) (g : Nat) (e : Event) : (s.timer g e).cores = s.cores := rfl
@[simp] theorem State.timer_tlbs (s : State) (g : Nat) (e : Event) : (s.timer g e).tlbs = s.tlbs := rfl
@[simp] theorem State.timer_clusters (s : State) (g : Nat) (e : Event) : (s.timer g e).clusters = s.clusters := rfl
@[simp] theorem State.timer_parts (s : State) (g : Nat) (e : Event) : (s.timer g e).parts = s.parts := rfl
@[simp] theorem State.timer_regions (s : State) (g : Nat) (e : Event) : (s.timer g e).regions = s.regions := rfl
@[simp] theorem State.timer_fns (s : State) (g : Nat) (e : Event) : (s.timer g e).fns = s.fns := rfl
@[simp] theorem State.timer_msis (s : State) (g : Nat) (e : Event) : (s.timer g e).msis = s.msis := rfl
@[simp] theorem State.timer_ports (s : State) (g : Nat) (e : Event) : (s.timer g e).ports = s.ports := rfl
@[simp] theorem State.timer_reqs (s : State) (g : Nat) (e : Event) : (s.timer g e).reqs = s.reqs := rfl
@[simp] theorem State.timer_colls (s : State) (g : Nat) (e : Event) : (s.timer g e).colls = s.colls := rfl
@[simp] theorem State.timer_modId (s : State) (g : Nat) (e : Event) : (s.timer g e).modId = s.modId := rfl
@[simp] theorem State.timer_ras (s : State) (g : Nat) (e : Event) : (s.timer g e).ras = s.ras := rfl
@[simp] theorem State.timer_boot (s : State) (g : Nat) (e : Event) : (s.timer g e).boot = s.boot := rfl
@[simp] theorem State.timer_recur (s : State) (g : Nat) (e : Event) : (s.timer g e).recur = s.recur := rfl
@[simp] theorem State.timer_poison (s : State) (g : Nat) (e : Event) : (s.timer g e).poison = s.poison := rfl
@[simp] theorem State.timer_gt (s : State) (g : Nat) (e : Event) : (s.timer g e).gt = s.gt := rfl
@[simp] theorem State.timer_fusedCores (s : State) (g : Nat) (e : Event) : (s.timer g e).fusedCores = s.fusedCores := rfl
@[simp] theorem State.timer_fusedEngines (s : State) (g : Nat) (e : Event) : (s.timer g e).fusedEngines = s.fusedEngines := rfl
@[simp] theorem State.timer_agenda (s : State) (g : Nat) (e : Event) : (s.timer g e).agenda = s.agenda := rfl
@[simp] theorem State.timer_later (s : State) (g : Nat) (e : Event) : (s.timer g e).later = s.later := rfl
@[simp] theorem State.timer_timers (s : State) (g : Nat) (e : Event) : (s.timer g e).timers = s.timers ++ [(g, e)] := rfl
@[simp] theorem State.timer_sched (s : State) (g : Nat) (e : Event) : (s.timer g e).sched = s.sched := rfl
@[simp] theorem State.timer_unitWaits (s : State) (g : Nat) (e : Event) : (s.timer g e).unitWaits = s.unitWaits := rfl
@[simp] theorem State.timer_slow (s : State) (g : Nat) (e : Event) : (s.timer g e).slow = s.slow := rfl
@[simp] theorem State.timer_cur (s : State) (g : Nat) (e : Event) : (s.timer g e).cur = s.cur := rfl
@[simp] theorem State.timer_fresh (s : State) (g : Nat) (e : Event) : (s.timer g e).fresh = s.fresh := rfl

/-! ### Thread.wg -/

@[simp] theorem Thread.wg_p (t : Thread) (r : GReg) (v : Word) : (t.wg r v).p = t.p := by unfold Thread.wg; split <;> rfl
@[simp] theorem Thread.wg_v (t : Thread) (r : GReg) (v : Word) : (t.wg r v).v = t.v := by unfold Thread.wg; split <;> rfl
@[simp] theorem Thread.wg_q (t : Thread) (r : GReg) (v : Word) : (t.wg r v).q = t.q := by unfold Thread.wg; split <;> rfl
@[simp] theorem Thread.wg_m (t : Thread) (r : GReg) (v : Word) : (t.wg r v).m = t.m := by unfold Thread.wg; split <;> rfl
@[simp] theorem Thread.wg_fmt (t : Thread) (r : GReg) (v : Word) : (t.wg r v).fmt = t.fmt := by unfold Thread.wg; split <;> rfl
@[simp] theorem Thread.wg_ashape (t : Thread) (r : GReg) (v : Word) : (t.wg r v).ashape = t.ashape := by unfold Thread.wg; split <;> rfl
@[simp] theorem Thread.wg_views (t : Thread) (r : GReg) (v : Word) : (t.wg r v).views = t.views := by unfold Thread.wg; split <;> rfl
@[simp] theorem Thread.wg_leadPc (t : Thread) (r : GReg) (v : Word) : (t.wg r v).leadPc = t.leadPc := by unfold Thread.wg; split <;> rfl
@[simp] theorem Thread.wg_trailPc (t : Thread) (r : GReg) (v : Word) : (t.wg r v).trailPc = t.trailPc := by unfold Thread.wg; split <;> rfl
@[simp] theorem Thread.wg_trailQ (t : Thread) (r : GReg) (v : Word) : (t.wg r v).trailQ = t.trailQ := by unfold Thread.wg; split <;> rfl
@[simp] theorem Thread.wg_ahead (t : Thread) (r : GReg) (v : Word) : (t.wg r v).ahead = t.ahead := by unfold Thread.wg; split <;> rfl
@[simp] theorem Thread.wg_scanPc (t : Thread) (r : GReg) (v : Word) : (t.wg r v).scanPc = t.scanPc := by unfold Thread.wg; split <;> rfl
@[simp] theorem Thread.wg_line (t : Thread) (r : GReg) (v : Word) : (t.wg r v).line = t.line := by unfold Thread.wg; split <;> rfl
@[simp] theorem Thread.wg_tid (t : Thread) (r : GReg) (v : Word) : (t.wg r v).tid = t.tid := by unfold Thread.wg; split <;> rfl
@[simp] theorem Thread.wg_rgn (t : Thread) (r : GReg) (v : Word) : (t.wg r v).rgn = t.rgn := by unfold Thread.wg; split <;> rfl
@[simp] theorem Thread.wg_passb (t : Thread) (r : GReg) (v : Word) : (t.wg r v).passb = t.passb := by unfold Thread.wg; split <;> rfl
@[simp] theorem Thread.wg_trapb (t : Thread) (r : GReg) (v : Word) : (t.wg r v).trapb = t.trapb := by unfold Thread.wg; split <;> rfl
@[simp] theorem Thread.wg_fltq (t : Thread) (r : GReg) (v : Word) : (t.wg r v).fltq = t.fltq := by unfold Thread.wg; split <;> rfl
@[simp] theorem Thread.wg_rctl (t : Thread) (r : GReg) (v : Word) : (t.wg r v).rctl = t.rctl := by unfold Thread.wg; split <;> rfl
@[simp] theorem Thread.wg_sclamp (t : Thread) (r : GReg) (v : Word) : (t.wg r v).sclamp = t.sclamp := by unfold Thread.wg; split <;> rfl
@[simp] theorem Thread.wg_tcyc (t : Thread) (r : GReg) (v : Word) : (t.wg r v).tcyc = t.tcyc := by unfold Thread.wg; split <;> rfl
@[simp] theorem Thread.wg_ops (t : Thread) (r : GReg) (v : Word) : (t.wg r v).ops = t.ops := by unfold Thread.wg; split <;> rfl
@[simp] theorem Thread.wg_nextOp (t : Thread) (r : GReg) (v : Word) : (t.wg r v).nextOp = t.nextOp := by unfold Thread.wg; split <;> rfl
@[simp] theorem Thread.wg_rep (t : Thread) (r : GReg) (v : Word) : (t.wg r v).rep = t.rep := by unfold Thread.wg; split <;> rfl
@[simp] theorem Thread.wg_vsave (t : Thread) (r : GReg) (v : Word) : (t.wg r v).vsave = t.vsave := by unfold Thread.wg; split <;> rfl
@[simp] theorem Thread.wg_st (t : Thread) (r : GReg) (v : Word) : (t.wg r v).st = t.st := by unfold Thread.wg; split <;> rfl
@[simp] theorem Thread.wg_watch (t : Thread) (r : GReg) (v : Word) : (t.wg r v).watch = t.watch := by unfold Thread.wg; split <;> rfl
@[simp] theorem Thread.wg_sleep (t : Thread) (r : GReg) (v : Word) : (t.wg r v).sleep = t.sleep := by unfold Thread.wg; split <;> rfl
@[simp] theorem Thread.wg_life (t : Thread) (r : GReg) (v : Word) : (t.wg r v).life = t.life := by unfold Thread.wg; split <;> rfl
@[simp] theorem Thread.wg_region (t : Thread) (r : GReg) (v : Word) : (t.wg r v).region = t.region := by unfold Thread.wg; split <;> rfl
@[simp] theorem Thread.wg_cons (t : Thread) (r : GReg) (v : Word) : (t.wg r v).cons = t.cons := by unfold Thread.wg; split <;> rfl
@[simp] theorem Thread.wg_stop (t : Thread) (r : GReg) (v : Word) : (t.wg r v).stop = t.stop := by unfold Thread.wg; split <;> rfl
@[simp] theorem Thread.wg_yielded (t : Thread) (r : GReg) (v : Word) : (t.wg r v).yielded = t.yielded := by unfold Thread.wg; split <;> rfl
@[simp] theorem Thread.wg_ending (t : Thread) (r : GReg) (v : Word) : (t.wg r v).ending = t.ending := by unfold Thread.wg; split <;> rfl
@[simp] theorem Thread.wg_issued (t : Thread) (r : GReg) (v : Word) : (t.wg r v).issued = t.issued := by unfold Thread.wg; split <;> rfl
@[simp] theorem Thread.wg_lastPipe (t : Thread) (r : GReg) (v : Word) : (t.wg r v).lastPipe = t.lastPipe := by unfold Thread.wg; split <;> rfl
@[simp] theorem Thread.wg_blocked (t : Thread) (r : GReg) (v : Word) : (t.wg r v).blocked = t.blocked := by unfold Thread.wg; split <;> rfl
@[simp] theorem Thread.wg_stale (t : Thread) (r : GReg) (v : Word) : (t.wg r v).stale = t.stale := by unfold Thread.wg; split <;> rfl
@[simp] theorem Thread.wg_prio (t : Thread) (r : GReg) (v : Word) : (t.wg r v).prio = t.prio := by unfold Thread.wg; split <;> rfl
@[simp] theorem Thread.wg_issuedAt (t : Thread) (r : GReg) (v : Word) : (t.wg r v).issuedAt = t.issuedAt := by unfold Thread.wg; split <;> rfl
@[simp] theorem Thread.wg_waited (t : Thread) (r : GReg) (v : Word) : (t.wg r v).waited = t.waited := by unfold Thread.wg; split <;> rfl
@[simp] theorem Thread.wg_yieldAt (t : Thread) (r : GReg) (v : Word) : (t.wg r v).yieldAt = t.yieldAt := by unfold Thread.wg; split <;> rfl
@[simp] theorem Thread.wg_guest (t : Thread) (r : GReg) (v : Word) : (t.wg r v).guest = t.guest := by unfold Thread.wg; split <;> rfl
@[simp] theorem Thread.wg_woken (t : Thread) (r : GReg) (v : Word) : (t.wg r v).woken = t.woken := by unfold Thread.wg; split <;> rfl
@[simp] theorem Thread.wg_jump (t : Thread) (r : GReg) (v : Word) : (t.wg r v).jump = t.jump := by unfold Thread.wg; split <;> rfl
@[simp] theorem Thread.wg_lastGt (t : Thread) (r : GReg) (v : Word) : (t.wg r v).lastGt = t.lastGt := by unfold Thread.wg; split <;> rfl
@[simp] theorem Thread.wg_parks (t : Thread) (r : GReg) (v : Word) : (t.wg r v).parks = t.parks := by unfold Thread.wg; split <;> rfl
@[simp] theorem Thread.wg_fwds (t : Thread) (r : GReg) (v : Word) : (t.wg r v).fwds = t.fwds := by unfold Thread.wg; split <;> rfl

/-! ### Thread.wp -/

@[simp] theorem Thread.wp_g (t : Thread) (r : Reg3) (b : Bool) : (t.wp r b).g = t.g := by unfold Thread.wp; split <;> rfl
@[simp] theorem Thread.wp_v (t : Thread) (r : Reg3) (b : Bool) : (t.wp r b).v = t.v := by unfold Thread.wp; split <;> rfl
@[simp] theorem Thread.wp_q (t : Thread) (r : Reg3) (b : Bool) : (t.wp r b).q = t.q := by unfold Thread.wp; split <;> rfl
@[simp] theorem Thread.wp_m (t : Thread) (r : Reg3) (b : Bool) : (t.wp r b).m = t.m := by unfold Thread.wp; split <;> rfl
@[simp] theorem Thread.wp_fmt (t : Thread) (r : Reg3) (b : Bool) : (t.wp r b).fmt = t.fmt := by unfold Thread.wp; split <;> rfl
@[simp] theorem Thread.wp_ashape (t : Thread) (r : Reg3) (b : Bool) : (t.wp r b).ashape = t.ashape := by unfold Thread.wp; split <;> rfl
@[simp] theorem Thread.wp_views (t : Thread) (r : Reg3) (b : Bool) : (t.wp r b).views = t.views := by unfold Thread.wp; split <;> rfl
@[simp] theorem Thread.wp_leadPc (t : Thread) (r : Reg3) (b : Bool) : (t.wp r b).leadPc = t.leadPc := by unfold Thread.wp; split <;> rfl
@[simp] theorem Thread.wp_trailPc (t : Thread) (r : Reg3) (b : Bool) : (t.wp r b).trailPc = t.trailPc := by unfold Thread.wp; split <;> rfl
@[simp] theorem Thread.wp_trailQ (t : Thread) (r : Reg3) (b : Bool) : (t.wp r b).trailQ = t.trailQ := by unfold Thread.wp; split <;> rfl
@[simp] theorem Thread.wp_ahead (t : Thread) (r : Reg3) (b : Bool) : (t.wp r b).ahead = t.ahead := by unfold Thread.wp; split <;> rfl
@[simp] theorem Thread.wp_scanPc (t : Thread) (r : Reg3) (b : Bool) : (t.wp r b).scanPc = t.scanPc := by unfold Thread.wp; split <;> rfl
@[simp] theorem Thread.wp_line (t : Thread) (r : Reg3) (b : Bool) : (t.wp r b).line = t.line := by unfold Thread.wp; split <;> rfl
@[simp] theorem Thread.wp_tid (t : Thread) (r : Reg3) (b : Bool) : (t.wp r b).tid = t.tid := by unfold Thread.wp; split <;> rfl
@[simp] theorem Thread.wp_rgn (t : Thread) (r : Reg3) (b : Bool) : (t.wp r b).rgn = t.rgn := by unfold Thread.wp; split <;> rfl
@[simp] theorem Thread.wp_passb (t : Thread) (r : Reg3) (b : Bool) : (t.wp r b).passb = t.passb := by unfold Thread.wp; split <;> rfl
@[simp] theorem Thread.wp_trapb (t : Thread) (r : Reg3) (b : Bool) : (t.wp r b).trapb = t.trapb := by unfold Thread.wp; split <;> rfl
@[simp] theorem Thread.wp_fltq (t : Thread) (r : Reg3) (b : Bool) : (t.wp r b).fltq = t.fltq := by unfold Thread.wp; split <;> rfl
@[simp] theorem Thread.wp_rctl (t : Thread) (r : Reg3) (b : Bool) : (t.wp r b).rctl = t.rctl := by unfold Thread.wp; split <;> rfl
@[simp] theorem Thread.wp_sclamp (t : Thread) (r : Reg3) (b : Bool) : (t.wp r b).sclamp = t.sclamp := by unfold Thread.wp; split <;> rfl
@[simp] theorem Thread.wp_tcyc (t : Thread) (r : Reg3) (b : Bool) : (t.wp r b).tcyc = t.tcyc := by unfold Thread.wp; split <;> rfl
@[simp] theorem Thread.wp_ops (t : Thread) (r : Reg3) (b : Bool) : (t.wp r b).ops = t.ops := by unfold Thread.wp; split <;> rfl
@[simp] theorem Thread.wp_nextOp (t : Thread) (r : Reg3) (b : Bool) : (t.wp r b).nextOp = t.nextOp := by unfold Thread.wp; split <;> rfl
@[simp] theorem Thread.wp_rep (t : Thread) (r : Reg3) (b : Bool) : (t.wp r b).rep = t.rep := by unfold Thread.wp; split <;> rfl
@[simp] theorem Thread.wp_vsave (t : Thread) (r : Reg3) (b : Bool) : (t.wp r b).vsave = t.vsave := by unfold Thread.wp; split <;> rfl
@[simp] theorem Thread.wp_st (t : Thread) (r : Reg3) (b : Bool) : (t.wp r b).st = t.st := by unfold Thread.wp; split <;> rfl
@[simp] theorem Thread.wp_watch (t : Thread) (r : Reg3) (b : Bool) : (t.wp r b).watch = t.watch := by unfold Thread.wp; split <;> rfl
@[simp] theorem Thread.wp_sleep (t : Thread) (r : Reg3) (b : Bool) : (t.wp r b).sleep = t.sleep := by unfold Thread.wp; split <;> rfl
@[simp] theorem Thread.wp_life (t : Thread) (r : Reg3) (b : Bool) : (t.wp r b).life = t.life := by unfold Thread.wp; split <;> rfl
@[simp] theorem Thread.wp_region (t : Thread) (r : Reg3) (b : Bool) : (t.wp r b).region = t.region := by unfold Thread.wp; split <;> rfl
@[simp] theorem Thread.wp_cons (t : Thread) (r : Reg3) (b : Bool) : (t.wp r b).cons = t.cons := by unfold Thread.wp; split <;> rfl
@[simp] theorem Thread.wp_stop (t : Thread) (r : Reg3) (b : Bool) : (t.wp r b).stop = t.stop := by unfold Thread.wp; split <;> rfl
@[simp] theorem Thread.wp_yielded (t : Thread) (r : Reg3) (b : Bool) : (t.wp r b).yielded = t.yielded := by unfold Thread.wp; split <;> rfl
@[simp] theorem Thread.wp_ending (t : Thread) (r : Reg3) (b : Bool) : (t.wp r b).ending = t.ending := by unfold Thread.wp; split <;> rfl
@[simp] theorem Thread.wp_issued (t : Thread) (r : Reg3) (b : Bool) : (t.wp r b).issued = t.issued := by unfold Thread.wp; split <;> rfl
@[simp] theorem Thread.wp_lastPipe (t : Thread) (r : Reg3) (b : Bool) : (t.wp r b).lastPipe = t.lastPipe := by unfold Thread.wp; split <;> rfl
@[simp] theorem Thread.wp_blocked (t : Thread) (r : Reg3) (b : Bool) : (t.wp r b).blocked = t.blocked := by unfold Thread.wp; split <;> rfl
@[simp] theorem Thread.wp_stale (t : Thread) (r : Reg3) (b : Bool) : (t.wp r b).stale = t.stale := by unfold Thread.wp; split <;> rfl
@[simp] theorem Thread.wp_prio (t : Thread) (r : Reg3) (b : Bool) : (t.wp r b).prio = t.prio := by unfold Thread.wp; split <;> rfl
@[simp] theorem Thread.wp_issuedAt (t : Thread) (r : Reg3) (b : Bool) : (t.wp r b).issuedAt = t.issuedAt := by unfold Thread.wp; split <;> rfl
@[simp] theorem Thread.wp_waited (t : Thread) (r : Reg3) (b : Bool) : (t.wp r b).waited = t.waited := by unfold Thread.wp; split <;> rfl
@[simp] theorem Thread.wp_yieldAt (t : Thread) (r : Reg3) (b : Bool) : (t.wp r b).yieldAt = t.yieldAt := by unfold Thread.wp; split <;> rfl
@[simp] theorem Thread.wp_guest (t : Thread) (r : Reg3) (b : Bool) : (t.wp r b).guest = t.guest := by unfold Thread.wp; split <;> rfl
@[simp] theorem Thread.wp_woken (t : Thread) (r : Reg3) (b : Bool) : (t.wp r b).woken = t.woken := by unfold Thread.wp; split <;> rfl
@[simp] theorem Thread.wp_jump (t : Thread) (r : Reg3) (b : Bool) : (t.wp r b).jump = t.jump := by unfold Thread.wp; split <;> rfl
@[simp] theorem Thread.wp_lastGt (t : Thread) (r : Reg3) (b : Bool) : (t.wp r b).lastGt = t.lastGt := by unfold Thread.wp; split <;> rfl
@[simp] theorem Thread.wp_parks (t : Thread) (r : Reg3) (b : Bool) : (t.wp r b).parks = t.parks := by unfold Thread.wp; split <;> rfl
@[simp] theorem Thread.wp_fwds (t : Thread) (r : Reg3) (b : Bool) : (t.wp r b).fwds = t.fwds := by unfold Thread.wp; split <;> rfl

/-! ### Thread.wv -/

@[simp] theorem Thread.wv_g (t : Thread) (r : VReg) (v : BitVec 512) : (t.wv r v).g = t.g := rfl
@[simp] theorem Thread.wv_p (t : Thread) (r : VReg) (v : BitVec 512) : (t.wv r v).p = t.p := rfl
@[simp] theorem Thread.wv_q (t : Thread) (r : VReg) (v : BitVec 512) : (t.wv r v).q = t.q := rfl
@[simp] theorem Thread.wv_m (t : Thread) (r : VReg) (v : BitVec 512) : (t.wv r v).m = t.m := rfl
@[simp] theorem Thread.wv_fmt (t : Thread) (r : VReg) (v : BitVec 512) : (t.wv r v).fmt = t.fmt := rfl
@[simp] theorem Thread.wv_ashape (t : Thread) (r : VReg) (v : BitVec 512) : (t.wv r v).ashape = t.ashape := rfl
@[simp] theorem Thread.wv_views (t : Thread) (r : VReg) (v : BitVec 512) : (t.wv r v).views = t.views := rfl
@[simp] theorem Thread.wv_leadPc (t : Thread) (r : VReg) (v : BitVec 512) : (t.wv r v).leadPc = t.leadPc := rfl
@[simp] theorem Thread.wv_trailPc (t : Thread) (r : VReg) (v : BitVec 512) : (t.wv r v).trailPc = t.trailPc := rfl
@[simp] theorem Thread.wv_trailQ (t : Thread) (r : VReg) (v : BitVec 512) : (t.wv r v).trailQ = t.trailQ := rfl
@[simp] theorem Thread.wv_ahead (t : Thread) (r : VReg) (v : BitVec 512) : (t.wv r v).ahead = t.ahead := rfl
@[simp] theorem Thread.wv_scanPc (t : Thread) (r : VReg) (v : BitVec 512) : (t.wv r v).scanPc = t.scanPc := rfl
@[simp] theorem Thread.wv_line (t : Thread) (r : VReg) (v : BitVec 512) : (t.wv r v).line = t.line := rfl
@[simp] theorem Thread.wv_tid (t : Thread) (r : VReg) (v : BitVec 512) : (t.wv r v).tid = t.tid := rfl
@[simp] theorem Thread.wv_rgn (t : Thread) (r : VReg) (v : BitVec 512) : (t.wv r v).rgn = t.rgn := rfl
@[simp] theorem Thread.wv_passb (t : Thread) (r : VReg) (v : BitVec 512) : (t.wv r v).passb = t.passb := rfl
@[simp] theorem Thread.wv_trapb (t : Thread) (r : VReg) (v : BitVec 512) : (t.wv r v).trapb = t.trapb := rfl
@[simp] theorem Thread.wv_fltq (t : Thread) (r : VReg) (v : BitVec 512) : (t.wv r v).fltq = t.fltq := rfl
@[simp] theorem Thread.wv_rctl (t : Thread) (r : VReg) (v : BitVec 512) : (t.wv r v).rctl = t.rctl := rfl
@[simp] theorem Thread.wv_sclamp (t : Thread) (r : VReg) (v : BitVec 512) : (t.wv r v).sclamp = t.sclamp := rfl
@[simp] theorem Thread.wv_tcyc (t : Thread) (r : VReg) (v : BitVec 512) : (t.wv r v).tcyc = t.tcyc := rfl
@[simp] theorem Thread.wv_ops (t : Thread) (r : VReg) (v : BitVec 512) : (t.wv r v).ops = t.ops := rfl
@[simp] theorem Thread.wv_nextOp (t : Thread) (r : VReg) (v : BitVec 512) : (t.wv r v).nextOp = t.nextOp := rfl
@[simp] theorem Thread.wv_rep (t : Thread) (r : VReg) (v : BitVec 512) : (t.wv r v).rep = t.rep := rfl
@[simp] theorem Thread.wv_vsave (t : Thread) (r : VReg) (v : BitVec 512) : (t.wv r v).vsave = t.vsave := rfl
@[simp] theorem Thread.wv_st (t : Thread) (r : VReg) (v : BitVec 512) : (t.wv r v).st = t.st := rfl
@[simp] theorem Thread.wv_watch (t : Thread) (r : VReg) (v : BitVec 512) : (t.wv r v).watch = t.watch := rfl
@[simp] theorem Thread.wv_sleep (t : Thread) (r : VReg) (v : BitVec 512) : (t.wv r v).sleep = t.sleep := rfl
@[simp] theorem Thread.wv_life (t : Thread) (r : VReg) (v : BitVec 512) : (t.wv r v).life = t.life := rfl
@[simp] theorem Thread.wv_region (t : Thread) (r : VReg) (v : BitVec 512) : (t.wv r v).region = t.region := rfl
@[simp] theorem Thread.wv_cons (t : Thread) (r : VReg) (v : BitVec 512) : (t.wv r v).cons = t.cons := rfl
@[simp] theorem Thread.wv_stop (t : Thread) (r : VReg) (v : BitVec 512) : (t.wv r v).stop = t.stop := rfl
@[simp] theorem Thread.wv_yielded (t : Thread) (r : VReg) (v : BitVec 512) : (t.wv r v).yielded = t.yielded := rfl
@[simp] theorem Thread.wv_ending (t : Thread) (r : VReg) (v : BitVec 512) : (t.wv r v).ending = t.ending := rfl
@[simp] theorem Thread.wv_issued (t : Thread) (r : VReg) (v : BitVec 512) : (t.wv r v).issued = t.issued := rfl
@[simp] theorem Thread.wv_lastPipe (t : Thread) (r : VReg) (v : BitVec 512) : (t.wv r v).lastPipe = t.lastPipe := rfl
@[simp] theorem Thread.wv_blocked (t : Thread) (r : VReg) (v : BitVec 512) : (t.wv r v).blocked = t.blocked := rfl
@[simp] theorem Thread.wv_stale (t : Thread) (r : VReg) (v : BitVec 512) : (t.wv r v).stale = t.stale := rfl
@[simp] theorem Thread.wv_prio (t : Thread) (r : VReg) (v : BitVec 512) : (t.wv r v).prio = t.prio := rfl
@[simp] theorem Thread.wv_issuedAt (t : Thread) (r : VReg) (v : BitVec 512) : (t.wv r v).issuedAt = t.issuedAt := rfl
@[simp] theorem Thread.wv_waited (t : Thread) (r : VReg) (v : BitVec 512) : (t.wv r v).waited = t.waited := rfl
@[simp] theorem Thread.wv_yieldAt (t : Thread) (r : VReg) (v : BitVec 512) : (t.wv r v).yieldAt = t.yieldAt := rfl
@[simp] theorem Thread.wv_guest (t : Thread) (r : VReg) (v : BitVec 512) : (t.wv r v).guest = t.guest := rfl
@[simp] theorem Thread.wv_woken (t : Thread) (r : VReg) (v : BitVec 512) : (t.wv r v).woken = t.woken := rfl
@[simp] theorem Thread.wv_jump (t : Thread) (r : VReg) (v : BitVec 512) : (t.wv r v).jump = t.jump := rfl
@[simp] theorem Thread.wv_lastGt (t : Thread) (r : VReg) (v : BitVec 512) : (t.wv r v).lastGt = t.lastGt := rfl
@[simp] theorem Thread.wv_parks (t : Thread) (r : VReg) (v : BitVec 512) : (t.wv r v).parks = t.parks := rfl
@[simp] theorem Thread.wv_fwds (t : Thread) (r : VReg) (v : BitVec 512) : (t.wv r v).fwds = t.fwds := rfl

/-! ### Thread.wm -/

@[simp] theorem Thread.wm_g (t : Thread) (r : Reg3) (v : BitVec 512) : (t.wm r v).g = t.g := rfl
@[simp] theorem Thread.wm_p (t : Thread) (r : Reg3) (v : BitVec 512) : (t.wm r v).p = t.p := rfl
@[simp] theorem Thread.wm_v (t : Thread) (r : Reg3) (v : BitVec 512) : (t.wm r v).v = t.v := rfl
@[simp] theorem Thread.wm_q (t : Thread) (r : Reg3) (v : BitVec 512) : (t.wm r v).q = t.q := rfl
@[simp] theorem Thread.wm_fmt (t : Thread) (r : Reg3) (v : BitVec 512) : (t.wm r v).fmt = t.fmt := rfl
@[simp] theorem Thread.wm_ashape (t : Thread) (r : Reg3) (v : BitVec 512) : (t.wm r v).ashape = t.ashape := rfl
@[simp] theorem Thread.wm_views (t : Thread) (r : Reg3) (v : BitVec 512) : (t.wm r v).views = t.views := rfl
@[simp] theorem Thread.wm_leadPc (t : Thread) (r : Reg3) (v : BitVec 512) : (t.wm r v).leadPc = t.leadPc := rfl
@[simp] theorem Thread.wm_trailPc (t : Thread) (r : Reg3) (v : BitVec 512) : (t.wm r v).trailPc = t.trailPc := rfl
@[simp] theorem Thread.wm_trailQ (t : Thread) (r : Reg3) (v : BitVec 512) : (t.wm r v).trailQ = t.trailQ := rfl
@[simp] theorem Thread.wm_ahead (t : Thread) (r : Reg3) (v : BitVec 512) : (t.wm r v).ahead = t.ahead := rfl
@[simp] theorem Thread.wm_scanPc (t : Thread) (r : Reg3) (v : BitVec 512) : (t.wm r v).scanPc = t.scanPc := rfl
@[simp] theorem Thread.wm_line (t : Thread) (r : Reg3) (v : BitVec 512) : (t.wm r v).line = t.line := rfl
@[simp] theorem Thread.wm_tid (t : Thread) (r : Reg3) (v : BitVec 512) : (t.wm r v).tid = t.tid := rfl
@[simp] theorem Thread.wm_rgn (t : Thread) (r : Reg3) (v : BitVec 512) : (t.wm r v).rgn = t.rgn := rfl
@[simp] theorem Thread.wm_passb (t : Thread) (r : Reg3) (v : BitVec 512) : (t.wm r v).passb = t.passb := rfl
@[simp] theorem Thread.wm_trapb (t : Thread) (r : Reg3) (v : BitVec 512) : (t.wm r v).trapb = t.trapb := rfl
@[simp] theorem Thread.wm_fltq (t : Thread) (r : Reg3) (v : BitVec 512) : (t.wm r v).fltq = t.fltq := rfl
@[simp] theorem Thread.wm_rctl (t : Thread) (r : Reg3) (v : BitVec 512) : (t.wm r v).rctl = t.rctl := rfl
@[simp] theorem Thread.wm_sclamp (t : Thread) (r : Reg3) (v : BitVec 512) : (t.wm r v).sclamp = t.sclamp := rfl
@[simp] theorem Thread.wm_tcyc (t : Thread) (r : Reg3) (v : BitVec 512) : (t.wm r v).tcyc = t.tcyc := rfl
@[simp] theorem Thread.wm_ops (t : Thread) (r : Reg3) (v : BitVec 512) : (t.wm r v).ops = t.ops := rfl
@[simp] theorem Thread.wm_nextOp (t : Thread) (r : Reg3) (v : BitVec 512) : (t.wm r v).nextOp = t.nextOp := rfl
@[simp] theorem Thread.wm_rep (t : Thread) (r : Reg3) (v : BitVec 512) : (t.wm r v).rep = t.rep := rfl
@[simp] theorem Thread.wm_vsave (t : Thread) (r : Reg3) (v : BitVec 512) : (t.wm r v).vsave = t.vsave := rfl
@[simp] theorem Thread.wm_st (t : Thread) (r : Reg3) (v : BitVec 512) : (t.wm r v).st = t.st := rfl
@[simp] theorem Thread.wm_watch (t : Thread) (r : Reg3) (v : BitVec 512) : (t.wm r v).watch = t.watch := rfl
@[simp] theorem Thread.wm_sleep (t : Thread) (r : Reg3) (v : BitVec 512) : (t.wm r v).sleep = t.sleep := rfl
@[simp] theorem Thread.wm_life (t : Thread) (r : Reg3) (v : BitVec 512) : (t.wm r v).life = t.life := rfl
@[simp] theorem Thread.wm_region (t : Thread) (r : Reg3) (v : BitVec 512) : (t.wm r v).region = t.region := rfl
@[simp] theorem Thread.wm_cons (t : Thread) (r : Reg3) (v : BitVec 512) : (t.wm r v).cons = t.cons := rfl
@[simp] theorem Thread.wm_stop (t : Thread) (r : Reg3) (v : BitVec 512) : (t.wm r v).stop = t.stop := rfl
@[simp] theorem Thread.wm_yielded (t : Thread) (r : Reg3) (v : BitVec 512) : (t.wm r v).yielded = t.yielded := rfl
@[simp] theorem Thread.wm_ending (t : Thread) (r : Reg3) (v : BitVec 512) : (t.wm r v).ending = t.ending := rfl
@[simp] theorem Thread.wm_issued (t : Thread) (r : Reg3) (v : BitVec 512) : (t.wm r v).issued = t.issued := rfl
@[simp] theorem Thread.wm_lastPipe (t : Thread) (r : Reg3) (v : BitVec 512) : (t.wm r v).lastPipe = t.lastPipe := rfl
@[simp] theorem Thread.wm_blocked (t : Thread) (r : Reg3) (v : BitVec 512) : (t.wm r v).blocked = t.blocked := rfl
@[simp] theorem Thread.wm_stale (t : Thread) (r : Reg3) (v : BitVec 512) : (t.wm r v).stale = t.stale := rfl
@[simp] theorem Thread.wm_prio (t : Thread) (r : Reg3) (v : BitVec 512) : (t.wm r v).prio = t.prio := rfl
@[simp] theorem Thread.wm_issuedAt (t : Thread) (r : Reg3) (v : BitVec 512) : (t.wm r v).issuedAt = t.issuedAt := rfl
@[simp] theorem Thread.wm_waited (t : Thread) (r : Reg3) (v : BitVec 512) : (t.wm r v).waited = t.waited := rfl
@[simp] theorem Thread.wm_yieldAt (t : Thread) (r : Reg3) (v : BitVec 512) : (t.wm r v).yieldAt = t.yieldAt := rfl
@[simp] theorem Thread.wm_guest (t : Thread) (r : Reg3) (v : BitVec 512) : (t.wm r v).guest = t.guest := rfl
@[simp] theorem Thread.wm_woken (t : Thread) (r : Reg3) (v : BitVec 512) : (t.wm r v).woken = t.woken := rfl
@[simp] theorem Thread.wm_jump (t : Thread) (r : Reg3) (v : BitVec 512) : (t.wm r v).jump = t.jump := rfl
@[simp] theorem Thread.wm_lastGt (t : Thread) (r : Reg3) (v : BitVec 512) : (t.wm r v).lastGt = t.lastGt := rfl
@[simp] theorem Thread.wm_parks (t : Thread) (r : Reg3) (v : BitVec 512) : (t.wm r v).parks = t.parks := rfl
@[simp] theorem Thread.wm_fwds (t : Thread) (r : Reg3) (v : BitVec 512) : (t.wm r v).fwds = t.fwds := rfl

/-! ### Thread.wq -/

@[simp] theorem Thread.wq_g (t : Thread) (r : Reg3) (l : List Word) : (t.wq r l).g = t.g := rfl
@[simp] theorem Thread.wq_p (t : Thread) (r : Reg3) (l : List Word) : (t.wq r l).p = t.p := rfl
@[simp] theorem Thread.wq_v (t : Thread) (r : Reg3) (l : List Word) : (t.wq r l).v = t.v := rfl
@[simp] theorem Thread.wq_m (t : Thread) (r : Reg3) (l : List Word) : (t.wq r l).m = t.m := rfl
@[simp] theorem Thread.wq_fmt (t : Thread) (r : Reg3) (l : List Word) : (t.wq r l).fmt = t.fmt := rfl
@[simp] theorem Thread.wq_ashape (t : Thread) (r : Reg3) (l : List Word) : (t.wq r l).ashape = t.ashape := rfl
@[simp] theorem Thread.wq_views (t : Thread) (r : Reg3) (l : List Word) : (t.wq r l).views = t.views := rfl
@[simp] theorem Thread.wq_leadPc (t : Thread) (r : Reg3) (l : List Word) : (t.wq r l).leadPc = t.leadPc := rfl
@[simp] theorem Thread.wq_trailPc (t : Thread) (r : Reg3) (l : List Word) : (t.wq r l).trailPc = t.trailPc := rfl
@[simp] theorem Thread.wq_trailQ (t : Thread) (r : Reg3) (l : List Word) : (t.wq r l).trailQ = t.trailQ := rfl
@[simp] theorem Thread.wq_ahead (t : Thread) (r : Reg3) (l : List Word) : (t.wq r l).ahead = t.ahead := rfl
@[simp] theorem Thread.wq_scanPc (t : Thread) (r : Reg3) (l : List Word) : (t.wq r l).scanPc = t.scanPc := rfl
@[simp] theorem Thread.wq_line (t : Thread) (r : Reg3) (l : List Word) : (t.wq r l).line = t.line := rfl
@[simp] theorem Thread.wq_tid (t : Thread) (r : Reg3) (l : List Word) : (t.wq r l).tid = t.tid := rfl
@[simp] theorem Thread.wq_rgn (t : Thread) (r : Reg3) (l : List Word) : (t.wq r l).rgn = t.rgn := rfl
@[simp] theorem Thread.wq_passb (t : Thread) (r : Reg3) (l : List Word) : (t.wq r l).passb = t.passb := rfl
@[simp] theorem Thread.wq_trapb (t : Thread) (r : Reg3) (l : List Word) : (t.wq r l).trapb = t.trapb := rfl
@[simp] theorem Thread.wq_fltq (t : Thread) (r : Reg3) (l : List Word) : (t.wq r l).fltq = t.fltq := rfl
@[simp] theorem Thread.wq_rctl (t : Thread) (r : Reg3) (l : List Word) : (t.wq r l).rctl = t.rctl := rfl
@[simp] theorem Thread.wq_sclamp (t : Thread) (r : Reg3) (l : List Word) : (t.wq r l).sclamp = t.sclamp := rfl
@[simp] theorem Thread.wq_tcyc (t : Thread) (r : Reg3) (l : List Word) : (t.wq r l).tcyc = t.tcyc := rfl
@[simp] theorem Thread.wq_ops (t : Thread) (r : Reg3) (l : List Word) : (t.wq r l).ops = t.ops := rfl
@[simp] theorem Thread.wq_nextOp (t : Thread) (r : Reg3) (l : List Word) : (t.wq r l).nextOp = t.nextOp := rfl
@[simp] theorem Thread.wq_rep (t : Thread) (r : Reg3) (l : List Word) : (t.wq r l).rep = t.rep := rfl
@[simp] theorem Thread.wq_vsave (t : Thread) (r : Reg3) (l : List Word) : (t.wq r l).vsave = t.vsave := rfl
@[simp] theorem Thread.wq_st (t : Thread) (r : Reg3) (l : List Word) : (t.wq r l).st = t.st := rfl
@[simp] theorem Thread.wq_watch (t : Thread) (r : Reg3) (l : List Word) : (t.wq r l).watch = t.watch := rfl
@[simp] theorem Thread.wq_sleep (t : Thread) (r : Reg3) (l : List Word) : (t.wq r l).sleep = t.sleep := rfl
@[simp] theorem Thread.wq_life (t : Thread) (r : Reg3) (l : List Word) : (t.wq r l).life = t.life := rfl
@[simp] theorem Thread.wq_region (t : Thread) (r : Reg3) (l : List Word) : (t.wq r l).region = t.region := rfl
@[simp] theorem Thread.wq_cons (t : Thread) (r : Reg3) (l : List Word) : (t.wq r l).cons = t.cons := rfl
@[simp] theorem Thread.wq_stop (t : Thread) (r : Reg3) (l : List Word) : (t.wq r l).stop = t.stop := rfl
@[simp] theorem Thread.wq_yielded (t : Thread) (r : Reg3) (l : List Word) : (t.wq r l).yielded = t.yielded := rfl
@[simp] theorem Thread.wq_ending (t : Thread) (r : Reg3) (l : List Word) : (t.wq r l).ending = t.ending := rfl
@[simp] theorem Thread.wq_issued (t : Thread) (r : Reg3) (l : List Word) : (t.wq r l).issued = t.issued := rfl
@[simp] theorem Thread.wq_lastPipe (t : Thread) (r : Reg3) (l : List Word) : (t.wq r l).lastPipe = t.lastPipe := rfl
@[simp] theorem Thread.wq_blocked (t : Thread) (r : Reg3) (l : List Word) : (t.wq r l).blocked = t.blocked := rfl
@[simp] theorem Thread.wq_stale (t : Thread) (r : Reg3) (l : List Word) : (t.wq r l).stale = t.stale := rfl
@[simp] theorem Thread.wq_prio (t : Thread) (r : Reg3) (l : List Word) : (t.wq r l).prio = t.prio := rfl
@[simp] theorem Thread.wq_issuedAt (t : Thread) (r : Reg3) (l : List Word) : (t.wq r l).issuedAt = t.issuedAt := rfl
@[simp] theorem Thread.wq_waited (t : Thread) (r : Reg3) (l : List Word) : (t.wq r l).waited = t.waited := rfl
@[simp] theorem Thread.wq_yieldAt (t : Thread) (r : Reg3) (l : List Word) : (t.wq r l).yieldAt = t.yieldAt := rfl
@[simp] theorem Thread.wq_guest (t : Thread) (r : Reg3) (l : List Word) : (t.wq r l).guest = t.guest := rfl
@[simp] theorem Thread.wq_woken (t : Thread) (r : Reg3) (l : List Word) : (t.wq r l).woken = t.woken := rfl
@[simp] theorem Thread.wq_jump (t : Thread) (r : Reg3) (l : List Word) : (t.wq r l).jump = t.jump := rfl
@[simp] theorem Thread.wq_lastGt (t : Thread) (r : Reg3) (l : List Word) : (t.wq r l).lastGt = t.lastGt := rfl
@[simp] theorem Thread.wq_parks (t : Thread) (r : Reg3) (l : List Word) : (t.wq r l).parks = t.parks := rfl
@[simp] theorem Thread.wq_fwds (t : Thread) (r : Reg3) (l : List Word) : (t.wq r l).fwds = t.fwds := rfl

/-! ### The readers -/

theorem State.thread?_setThread (s : State) (c k c' k' : Nat) (t : Thread) :
    (s.setThread c k t).thread? c' k' = if (c, k) = (c', k') then some t else s.thread? c' k' := alook_aset ..

@[simp] theorem State.thread?_setThread_self (s : State) (c k : Nat) (t : Thread) : (s.setThread c k t).thread? c k = some t := alook_aset_self ..

theorem State.thread?_delThread (s : State) (c k c' k' : Nat) :
    (s.delThread c k).thread? c' k' = if (c, k) = (c', k') then none else s.thread? c' k' := alook_adel ..

@[simp] theorem State.curT?_setCur (s : State) (t : Thread) : (s.setCur t).curT? = some t := alook_aset_self ..

/-- What a change of a thread leaves at its place; nothing where no thread is. -/
theorem State.thread?_modThread_self (s : State) (c k : Nat) (f : Thread → Thread) : (s.modThread c k f).thread? c k = (s.thread? c k).map f := by
  unfold State.modThread
  split
  · rename_i t h
    simp [h]
  · rename_i h
    simp [h]

theorem State.thread?_modThread_ne (s : State) (c k c' k' : Nat) (f : Thread → Thread) (h : (c, k) ≠ (c', k')) :
    (s.modThread c k f).thread? c' k' = s.thread? c' k' := by
  unfold State.modThread
  split
  · rw [State.thread?_setThread, if_neg h]
  · rfl

theorem State.curT?_modCur (s : State) (f : Thread → Thread) : (s.modCur f).curT? = s.curT?.map f := by
  unfold State.curT?
  rw [State.modCur_cur]
  exact State.thread?_modThread_self ..

theorem State.core_setCore (s : State) (c c' : Nat) (x : Core) : (s.setCore c x).core c' = if c = c' then x else s.core c' := by
  simp only [State.core, State.setCore, alook_aset]
  split <;> rfl

@[simp] theorem State.core_setCore_self (s : State) (c : Nat) (x : Core) : (s.setCore c x).core c = x := by simp [State.core_setCore]

theorem State.core_modCore (s : State) (c c' : Nat) (f : Core → Core) : (s.modCore c f).core c' = if c = c' then f (s.core c) else s.core c' :=
  State.core_setCore ..

theorem State.cluster_modCluster (s : State) (k k' : Nat) (f : Cluster → Cluster) :
    (s.modCluster k f).cluster k' = if k = k' then f (s.cluster k) else s.cluster k' := by
  simp only [State.cluster, State.modCluster, alook_aset]
  split <;> rfl

theorem State.region?_modRegion (s : State) (r r' : Nat) (f : Region → Region) :
    (s.modRegion r f).region? r' = if r = r' then (s.region? r).map f else s.region? r' := by
  unfold State.modRegion
  split
  · rename_i x h
    simp only [State.region?, alook_aset] at h ⊢
    split
    · rw [h]; rfl
    · rfl
  · rename_i h
    split
    · rename_i e
      rw [← e, h]; rfl
    · rfl

theorem State.part?_modPart (s : State) (p p' : Nat) (f : Part → Part) :
    (s.modPart p f).part? p' = if p = p' then (s.part? p).map f else s.part? p' := by
  unfold State.modPart
  split
  · rename_i x h
    simp only [State.part?, alook_aset] at h ⊢
    split
    · rw [h]; rfl
    · rfl
  · rename_i h
    split
    · rename_i e
      rw [← e, h]; rfl
    · rfl

theorem State.fn_modFn (s : State) (f f' : Nat) (g : Fn → Fn) : (s.modFn f g).fn f' = if f = f' then g (s.fn f) else s.fn f' := by
  simp only [State.fn, State.modFn, alook_aset]
  split <;> rfl

theorem State.port_modPort (s : State) (n n' : Nat) (f : Port → Port) : (s.modPort n f).port n' = if n = n' then f (s.port n) else s.port n' := by
  simp only [State.port, State.modPort, alook_aset]
  split <;> rfl

/-! ### The readers under updates of other fields -/

@[simp] theorem State.curT?_push (s : State) (es : List Event) : (s.push es).curT? = s.curT? := rfl
@[simp] theorem State.curT?_modCore (s : State) (c : Nat) (f : Core → Core) : (s.modCore c f).curT? = s.curT? := rfl
@[simp] theorem State.thread?_push (s : State) (es : List Event) (c k : Nat) : (s.push es).thread? c k = s.thread? c k := rfl
@[simp] theorem State.core_push (s : State) (es : List Event) (c : Nat) : (s.push es).core c = s.core c := rfl
@[simp] theorem State.core_setThread (s : State) (c k : Nat) (t : Thread) (c' : Nat) : (s.setThread c k t).core c' = s.core c' := rfl
@[simp] theorem State.core_setCur (s : State) (t : Thread) (c : Nat) : (s.setCur t).core c = s.core c := rfl
@[simp] theorem State.core_modThread (s : State) (c k : Nat) (f : Thread → Thread) (c' : Nat) : (s.modThread c k f).core c' = s.core c' := by
  simp only [State.core, State.modThread_cores]
@[simp] theorem State.region?_setThread (s : State) (c k : Nat) (t : Thread) (r : Nat) : (s.setThread c k t).region? r = s.region? r := rfl
@[simp] theorem State.region?_push (s : State) (es : List Event) (r : Nat) : (s.push es).region? r = s.region? r := rfl
@[simp] theorem State.part?_setThread (s : State) (c k : Nat) (t : Thread) (p : Nat) : (s.setThread c k t).part? p = s.part? p := rfl
@[simp] theorem State.part?_push (s : State) (es : List Event) (p : Nat) : (s.push es).part? p = s.part? p := rfl

/-! ### The canonical form under updates (CanonicalKept is about these) -/

/-- Every scratchpad is canonical when a core is replaced by one whose scratchpad is. -/
theorem State.sp_wf_setCore (s : State) (c : Nat) (x : Core) (h : ∀ c, (s.core c).sp.wf = true) (hx : x.sp.wf = true) :
    ∀ c', ((s.setCore c x).core c').sp.wf = true := by
  intro c'
  rw [State.core_setCore]
  split
  · exact hx
  · exact h c'

theorem State.sp_wf_modCore (s : State) (c : Nat) (f : Core → Core) (h : ∀ c, (s.core c).sp.wf = true) (hf : (f (s.core c)).sp.wf = true) :
    ∀ c', ((s.modCore c f).core c').sp.wf = true := State.sp_wf_setCore s c _ h hf

theorem State.reset_mem_wf : State.reset.mem.wf = true := rfl

theorem State.reset_sp_wf (c : Nat) : (State.reset.core c).sp.wf = true := rfl

/-! ### Registers (R26) -/

@[simp] theorem Thread.rg_zero (t : Thread) : t.rg 0 = 0 := by simp [Thread.rg]

@[simp] theorem Thread.wg_zero (t : Thread) (v : Word) : t.wg 0 v = t := by simp [Thread.wg]

@[simp] theorem Thread.rp_zero (t : Thread) : t.rp 0 = true := by simp [Thread.rp]

@[simp] theorem Thread.wp_zero (t : Thread) (b : Bool) : t.wp 0 b = t := by simp [Thread.wp]

end Sys2Proof.Machine
end

