-- ==== Sys2Proof/Laws/Ops.lean ====
section
/-! SUPPORT. What each shared operation of the meanings can do, said once: execution under a guard and the results written under it, waiting,
traps and transfers, the outstanding operations of a thread, the branch of the memory's writers. -/

set_option Elab.async false

namespace Sys2Proof.Machine

/-! ### Execution under a guard (R25) -/

theorem withT_some {s : State} {t : Thread} (h : s.curT? = some t) (f : Thread → Out) : withT s f = f t := by simp [withT, h]

theorem withT_none {s : State} (h : s.curT? = none) (f : Thread → Out) : withT s f = .fault .noThread := by simp [withT, h]

theorem guarded_true {s : State} {t : Thread} {g : Guard} (h : s.curT? = some t) (hg : t.guard g = true) (f : Thread → Out) : guarded g s f = f t := by
  simp [guarded, withT, h, hg]

theorem guarded_false {s : State} {t : Thread} {g : Guard} (h : s.curT? = some t) (hg : t.guard g = false) (f : Thread → Out) : guarded g s f = .next s := by
  simp [guarded, withT, h, hg]

/-- Everything that execution under a guard can answer a next state by: the thread is there, and its guard is false or the meaning answers. -/
theorem guarded_next {s s' : State} {g : Guard} {f : Thread → Out} (h : guarded g s f = .next s') :
    ∃ t, s.curT? = some t ∧ ((t.guard g = false ∧ s' = s) ∨ (t.guard g = true ∧ f t = .next s')) := by
  cases ht : s.curT? with
  | none => simp [guarded, withT, ht] at h
  | some t =>
    refine ⟨t, rfl, ?_⟩
    cases hg : t.guard g with
    | false => rw [guarded_false ht hg] at h; exact .inl ⟨rfl, by simpa using h.symm⟩
    | true => rw [guarded_true ht hg] at h; exact .inr ⟨rfl, h⟩

/-- Every guarded meaning answers a next state where its own part does. -/
theorem guarded_isNext {s : State} {t : Thread} {g : Guard} {f : Thread → Out} (h : s.curT? = some t) (hf : ∃ s', f t = .next s') :
    ∃ s', guarded g s f = .next s' := by
  cases hg : t.guard g with
  | false => exact ⟨s, guarded_false h hg f⟩
  | true => rw [guarded_true h hg]; exact hf

/-! ### Results under a guard -/

theorem setG_eq {s : State} {t : Thread} {g : Guard} (d : GReg) (r : Thread → Word) (h : s.curT? = some t) (hg : t.guard g = true) :
    setG g d s r = .next (s.setCur (t.wg d (r t))) := guarded_true h hg _

theorem setP_eq {s : State} {t : Thread} {g : Guard} (d : Reg3) (r : Thread → Bool) (h : s.curT? = some t) (hg : t.guard g = true) :
    setP g d s r = .next (s.setCur (t.wp d (r t))) := guarded_true h hg _

theorem setF_eq {s : State} {t : Thread} {g : Guard} (d : GReg) (r : Thread → Nat × Fl) (h : s.curT? = some t) (hg : t.guard g = true) :
    setF g d s r = .next (s.setCur ((t.wg d (BitVec.ofNat 64 (r t).1)).orFlags (r t).2)) := guarded_true h hg _

theorem setV_eq {s : State} {t : Thread} {g : Guard} (d : VReg) (r : Thread → V512 × Fl) (h : s.curT? = some t) (hg : t.guard g = true) :
    setV g d s r = .next (s.setCur ((t.wv d (r t).1).orFlags (r t).2)) := guarded_true h hg _

/-- Everything that a result in gD can do. -/
theorem setG_next {s s' : State} {g : Guard} {d : GReg} {r : Thread → Word} (h : setG g d s r = .next s') :
    ∃ t, s.curT? = some t ∧ ((t.guard g = false ∧ s' = s) ∨ (t.guard g = true ∧ s' = s.setCur (t.wg d (r t)))) := by
  obtain ⟨t, ht, h | ⟨hg, h⟩⟩ := guarded_next h
  · exact ⟨t, ht, .inl h⟩
  · exact ⟨t, ht, .inr ⟨hg, by simpa using h.symm⟩⟩

/-- Everything that a result in pD can do. -/
theorem setP_next {s s' : State} {g : Guard} {d : Reg3} {r : Thread → Bool} (h : setP g d s r = .next s') :
    ∃ t, s.curT? = some t ∧ ((t.guard g = false ∧ s' = s) ∨ (t.guard g = true ∧ s' = s.setCur (t.wp d (r t)))) := by
  obtain ⟨t, ht, h | ⟨hg, h⟩⟩ := guarded_next h
  · exact ⟨t, ht, .inl h⟩
  · exact ⟨t, ht, .inr ⟨hg, by simpa using h.symm⟩⟩

/-- Everything that a floating result can do: gD and the sticky flags. -/
theorem setF_next {s s' : State} {g : Guard} {d : GReg} {r : Thread → Nat × Fl} (h : setF g d s r = .next s') :
    ∃ t, s.curT? = some t ∧ ((t.guard g = false ∧ s' = s) ∨
      (t.guard g = true ∧ s' = s.setCur ((t.wg d (BitVec.ofNat 64 (r t).1)).orFlags (r t).2))) := by
  obtain ⟨t, ht, h | ⟨hg, h⟩⟩ := guarded_next h
  · exact ⟨t, ht, .inl h⟩
  · exact ⟨t, ht, .inr ⟨hg, by simpa using h.symm⟩⟩

/-- Everything that a result in vD can do. -/
theorem setV_next {s s' : State} {g : Guard} {d : VReg} {r : Thread → V512 × Fl} (h : setV g d s r = .next s') :
    ∃ t, s.curT? = some t ∧ ((t.guard g = false ∧ s' = s) ∨ (t.guard g = true ∧ s' = s.setCur ((t.wv d (r t).1).orFlags (r t).2))) := by
  obtain ⟨t, ht, h | ⟨hg, h⟩⟩ := guarded_next h
  · exact ⟨t, ht, .inl h⟩
  · exact ⟨t, ht, .inr ⟨hg, by simpa using h.symm⟩⟩

/-! ### Flags (R181) -/

@[simp] theorem Thread.orFlags_rg (t : Thread) (f : Fl) (r : GReg) : (t.orFlags f).rg r = t.rg r := rfl
@[simp] theorem Thread.orFlags_rp (t : Thread) (f : Fl) (r : Reg3) : (t.orFlags f).rp r = t.rp r := rfl
@[simp] theorem Thread.orFlags_rv (t : Thread) (f : Fl) (r : VReg) : (t.orFlags f).rv r = t.rv r := rfl
@[simp] theorem Thread.orFlags_zero (t : Thread) : t.orFlags 0 = t := by simp [Thread.orFlags]

/-- Flags are only ever set. -/
theorem Thread.orFlags_mono (t : Thread) (f : Fl) (j : Nat) (h : t.rctl.getLsbD j = true) : (t.orFlags f).rctl.getLsbD j = true := by
  simp [Thread.orFlags, h]

/-- A flag changes no other bit of RCTL. -/
theorem Thread.orFlags_other (t : Thread) (f : Fl) (j : Nat) (h : j < 16 ∨ 21 ≤ j) : (t.orFlags f).rctl.getLsbD j = t.rctl.getLsbD j := by
  unfold Thread.orFlags
  simp only [BitVec.getLsbD_or, BitVec.getLsbD_shiftLeft, BitVec.getLsbD_setWidth]
  rcases h with h | h
  · simp [h]
  · have : f.getLsbD (j - 16) = false := BitVec.getLsbD_of_ge _ _ (by omega)
    simp [this]

/-! ### Waiting -/

@[simp] theorem State.unissue_mem (s : State) : s.unissue.mem = s.mem := State.modCur_mem ..
@[simp] theorem State.unissue_cores (s : State) : s.unissue.cores = s.cores := State.modCur_cores ..
@[simp] theorem State.unissue_tlbs (s : State) : s.unissue.tlbs = s.tlbs := State.modCur_tlbs ..
@[simp] theorem State.unissue_clusters (s : State) : s.unissue.clusters = s.clusters := State.modCur_clusters ..
@[simp] theorem State.unissue_parts (s : State) : s.unissue.parts = s.parts := State.modCur_parts ..
@[simp] theorem State.unissue_regions (s : State) : s.unissue.regions = s.regions := State.modCur_regions ..
@[simp] theorem State.unissue_fns (s : State) : s.unissue.fns = s.fns := State.modCur_fns ..
@[simp] theorem State.unissue_msis (s : State) : s.unissue.msis = s.msis := State.modCur_msis ..
@[simp] theorem State.unissue_ports (s : State) : s.unissue.ports = s.ports := State.modCur_ports ..
@[simp] theorem State.unissue_reqs (s : State) : s.unissue.reqs = s.reqs := State.modCur_reqs ..
@[simp] theorem State.unissue_colls (s : State) : s.unissue.colls = s.colls := State.modCur_colls ..
@[simp] theorem State.unissue_modId (s : State) : s.unissue.modId = s.modId := State.modCur_modId ..
@[simp] theorem State.unissue_ras (s : State) : s.unissue.ras = s.ras := State.modCur_ras ..
@[simp] theorem State.unissue_boot (s : State) : s.unissue.boot = s.boot := State.modCur_boot ..
@[simp] theorem State.unissue_recur (s : State) : s.unissue.recur = s.recur := State.modCur_recur ..
@[simp] theorem State.unissue_poison (s : State) : s.unissue.poison = s.poison := State.modCur_poison ..
@[simp] theorem State.unissue_gt (s : State) : s.unissue.gt = s.gt := State.modCur_gt ..
@[simp] theorem State.unissue_fusedCores (s : State) : s.unissue.fusedCores = s.fusedCores := State.modCur_fusedCores ..
@[simp] theorem State.unissue_fusedEngines (s : State) : s.unissue.fusedEngines = s.fusedEngines := State.modCur_fusedEngines ..
@[simp] theorem State.unissue_agenda (s : State) : s.unissue.agenda = s.agenda := State.modCur_agenda ..
@[simp] theorem State.unissue_later (s : State) : s.unissue.later = s.later := State.modCur_later ..
@[simp] theorem State.unissue_timers (s : State) : s.unissue.timers = s.timers := State.modCur_timers ..
@[simp] theorem State.unissue_sched (s : State) : s.unissue.sched = s.sched := State.modCur_sched ..
@[simp] theorem State.unissue_slow (s : State) : s.unissue.slow = s.slow := State.modCur_slow ..
@[simp] theorem State.unissue_cur (s : State) : s.unissue.cur = s.cur := State.modCur_cur ..
@[simp] theorem State.unissue_fresh (s : State) : s.unissue.fresh = s.fresh := State.modCur_fresh ..

/-- An instruction that waits touches the thread alone, and its pipe stands at it again. -/
theorem wait_next {s s' : State} (h : wait s = .next s') : s' = s.unissue := by
  unfold wait at h
  exact (by simpa using h.symm)

/-- The lead that waits stands at its instruction. -/
theorem State.unissue_lead (s : State) (t : Thread) (h : s.curT? = some t) (hp : s.cur.pipe = .lead) :
    ∃ t', s.unissue.curT? = some t' ∧ t'.leadPc = s.cur.ipc ∧ t'.waited = true ∧ t'.g = t.g ∧ t'.trailQ = t.trailQ ∧ t'.ops = t.ops := by
  unfold State.unissue
  rw [State.curT?_modCur, h]
  simp only [hp, Option.map_some, Thread.backLead]
  split <;> exact ⟨_, rfl, rfl, rfl, rfl, rfl, rfl⟩

/-! ### Traps and transfers (R22, R360, R369) -/

/-- A precise trap is taken in the state in which the instruction has not executed. -/
theorem trapAt_eq (s : State) (cause : BitVec 8) (detail : Nat) (faddr : Word) :
    trapAt s cause detail faddr = .next (s.unissue.takeTrap s.cur.core s.cur.slot
      ⟨cause, BitVec.ofNat 16 detail, s.cur.pipe, 7, 0, faddr, s.cur.ipc, s.unissue.trapWord, 0, 0⟩ 12 []) := by
  simp [trapAt]

/-- No trap is taken where no thread is. -/
theorem State.takeTrap_none (s : State) (c k : Nat) (i : TrapInfo) (span : Nat) (cont : List Nat) (h : s.thread? c k = none) :
    s.takeTrap c k i span cont = s := by simp [State.takeTrap, h]

/-- A thread that is stopped already keeps its frame. -/
theorem State.stopThread_stopped (s : State) (c k detail : Nat) (t : Thread) (h : s.thread? c k = some t) (ht : t.st = .stopped) :
    s.stopThread c k detail = s := by simp [State.stopThread, h, ht]

/-- Everything that a transfer can do: the checked line is there and the lead PC stands at the target, the pipe waits for the line, or a trap is
taken with the target as its address, the link alone written. -/
theorem transferLink_next {s s' : State} {pc : Word} {link done : Thread → Thread} (h : transferLink s pc link done = .next s') :
    ∃ t, s.curT? = some t ∧
      ((∃ l s1, s.checkTarget s.cur.core s.cur.slot t.region pc = (.ok l, s1) ∧
          s' = s1.modCur fun t => done { link t with leadPc := pc, line := some (pcLine pc, l) }) ∨
        (∃ s1, s.checkTarget s.cur.core s.cur.slot t.region pc = (.busy, s1) ∧ s' = s1.unissue) ∨
        (∃ cause detail level span s1 s2, s.checkTarget s.cur.core s.cur.slot t.region pc = (.trap cause detail level span, s1) ∧
          s2 = (s1.modCur link).unissue ∧
          ∃ i : TrapInfo, i.cause = cause ∧ i.faddr = pc ∧ s' = s2.takeTrap s2.cur.core s2.cur.slot i span [])) := by
  cases ht : s.curT? with
  | none => simp [transferLink, withT, ht] at h
  | some t =>
    refine ⟨t, rfl, ?_⟩
    simp only [transferLink, withT, ht] at h
    split at h
    · rename_i l s1 h1
      exact .inl ⟨l, s1, h1, by simpa using h.symm⟩
    · rename_i s1 h1
      exact .inr (.inl ⟨s1, h1, wait_next h⟩)
    · rename_i cause detail level span s1 h1
      exact .inr <| .inr ⟨cause, detail, level, span, s1, _, h1, rfl, _, rfl, rfl, by simpa using h.symm⟩

/-- An invalid PC is never fetched from. -/
theorem State.checkTarget_invalid (s : State) (c k region : Nat) (pc : Word) (h : pcValid pc = false) :
    s.checkTarget c k region pc = (.trap 0x02 0 0 12, s) := by simp [State.checkTarget, h]

/-! ### Outstanding operations (R113, R116) -/

@[simp] theorem Thread.addOp_ops (t : Thread) (o : Op) : (t.addOp o).ops = t.ops ++ [o] := rfl
@[simp] theorem Thread.addOp_nextOp (t : Thread) (o : Op) : (t.addOp o).nextOp = t.nextOp + 1 := rfl
@[simp] theorem Thread.addOp_rg (t : Thread) (o : Op) (r : GReg) : (t.addOp o).rg r = t.rg r := rfl
@[simp] theorem Thread.modOp_rg (t : Thread) (id : Nat) (f : Op → Op) (r : GReg) : (t.modOp id f).rg r = t.rg r := rfl
@[simp] theorem Thread.endOp_rg (t : Thread) (id : Nat) (r : GReg) : (t.endOp id).rg r = t.rg r := rfl

/-- An operation that has completed is no longer there, and nothing waits for it. -/
theorem Thread.endOp_gone (t : Thread) (id : Nat) : ∀ o ∈ (t.endOp id).ops, o.id ≠ id ∧ Dep.op id ∉ o.deps := by
  intro o ho
  simp only [Thread.endOp, List.mem_map, List.mem_filter] at ho
  obtain ⟨o', ⟨_, h2⟩, rfl⟩ := ho
  exact ⟨by simpa using h2, by simp⟩

/-! ### Agenda -/

theorem State.push_nil (s : State) : s.push [] = s := by simp [State.push]

theorem State.push_push (s : State) (a b : List Event) : (s.push a).push b = s.push (a ++ b) := by simp [State.push]

/-! ### What writes memory keeps its form -/

/-- A scratchpad that is written stays canonical. -/
theorem Core.sp_write_wf (x : Core) (o : Nat) (bs : List Byte) (h : x.sp.wf = true) : ({ x with sp := memWrite x.sp o bs } : Core).sp.wf = true :=
  memWrite_wf _ _ _ h

/-- The placing of an instruction keeps memory canonical. -/
theorem State.load_mem_wf (s : State) (w : Slot) (h : s.mem.wf = true) : (s.load w).mem.wf = true :=
  memWrite_wf _ _ _ (memWrite_wf _ _ _ (memWrite_wf _ _ _ h))

/-- What a cold reset keeps of memory is canonical (R421). -/
theorem coldReset_mem_wf (s : State) (h : s.mem.wf = true) : Memory.wf (s.mem.filter fun e => decide (2 ^ 51 ≤ e.1)) = true :=
  Memory.wf_filter _ _ h

end Sys2Proof.Machine
end

