-- ==== Sys2Proof/Tests/Slice0.lean ====
section
/-! SUPPORT. Tests: ill-formed terms, words decoded, single instructions with results by hand from the rules, and for each statement with
hypotheses a state and operands that meet them. -/

set_option Elab.async false

namespace Sys2Proof.Tests

open Sys2Proof Sys2Proof.Machine Sys2Proof.Claims

/-! ### Small states -/

/-- The guard that is always true. -/
def g0 : Guard := ⟨0, false⟩

/-- Stream 0, no edges, core scope. -/
def s0 : Str := ⟨0, 0, 0⟩

/-- A thread of the region 0x400000 in slot 0 of core 0, at a PC. -/
def thr : Thread := { Thread.fresh 0 0x400000 .resident 0x200000 with rgn := 0x400000, trapb := 0x300000 }

/-- A machine whose one thread executes in its lead pipe. -/
def st (t : Thread) : State :=
  { State.reset with
    parts := [(0, Part.blank)]
    regions := [(0x400000, Region.blank)]
    cores := [(0, { Core.reset with rsbase := 0x100000 })]
    threads := [((0, 0), t)]
    cur := ⟨0, 0, .lead, 0x200000, 0, none, .nop ⟨g0⟩, 0, 0⟩ }

/-- What the executing thread holds after an instruction. -/
def after (i : Instr) (s : State) (f : Thread → α) : Option α :=
  match exec i s with
  | .next s' => s'.curT?.map f
  | _ => none

/-- Two g registers set. -/
def two (a b : Word) : State := st ((thr.wg 2 a).wg 3 b)

/-! ### Well-formedness: one ill-formed term for each check -/

theorem test_wf_scalar : ([.sext ⟨g0, 1, 2, 0⟩, .zext ⟨g0, 1, 2, 65⟩, .bfx ⟨g0, 1, 2, 60, 4, false⟩, .bfi ⟨g0, 1, 2, 63, 1⟩,
    .fadd ⟨g0, .i32, .rctl, 1, 2, 3⟩, .fsub ⟨g0, .e4m3, .rctl, 1, 2, 3⟩, .fmul ⟨g0, .fmt 0, .rctl, 1, 2, 3⟩, .fmin ⟨g0, .i8, 1, 2, 3⟩,
    .fmax ⟨g0, .i4, 1, 2, 3⟩, .fabs ⟨g0, .e2m1, 1, 2⟩, .fneg ⟨g0, .lut4, 1, 2⟩, .ffma ⟨g0, .i64, .rctl, 1, 2, 3, 4⟩,
    .fcmp ⟨g0, .oeq, .i32, 1, 2, 3⟩, .fclass ⟨g0, .i32, 1, 2⟩, .fcvt ⟨g0, false, .rctl, .lut4, .f32, 1, 2⟩,
    .frnd ⟨g0, .e5m2, .rctl, 1, 2⟩, .br ⟨g0, none, 1, 0, 64⟩] : List Instr).all (fun i => !i.wf) = true := by decide

theorem test_wf_memory : ([.ld ⟨g0, s0, .own, 3, false, false, false, 0, 1, 2, 3⟩, .ld ⟨g0, s0, .virt, 3, true, false, false, 0, 1, 2, 0⟩,
    .st ⟨g0, s0, .virt, 3, false, 0, 1, 2, 3⟩, .ldv ⟨g0, s0, .own, .b512, false, false, 0, 1, 2, 3⟩, .stv ⟨g0, s0, .cluster, .b512, false, 0, 1, 2, 3⟩,
    .scnt ⟨g0, 1, true, 1⟩, .amoadd ⟨g0, s0, .own, true, 0, 1, 2, 3, 4⟩, .amocas ⟨g0, s0, .named, true, 0, 1, 2, 3, 4⟩,
    .amofadd ⟨g0, s0, .virt, .f32, 0, 1, 2, 3, 4⟩, .stn ⟨g0, s0, .virt, .b4, 0, 1, 2, 0⟩, .stn ⟨g0, s0, .own, .b4, 0, 1, 2, 3⟩,
    .sendadd ⟨g0, s0, .own, .f32, false, true, 0, 1, 2, 3⟩, .sendmin ⟨g0, s0, .own, .e4m3, false, false, 0, 1, 2, 3⟩,
    .sendm ⟨g0, s0, 59, 1⟩, .spawn ⟨g0, s0, 63, 1⟩, .spawnt ⟨g0, s0, 60, 1, 2⟩] : List Instr).all (fun i => !i.wf) = true := by decide

theorem test_wf_vector : ([.vadd ⟨g0, .f32, .rctl, true, false, 1, 2, 3⟩, .vsub ⟨g0, .i32, .rctl, false, true, 1, 2, 3⟩,
    .vmul ⟨g0, .i8, .rne, 1, 2, 3⟩, .vfma ⟨g0, .lut4, .rctl, 1, 2, 3, 4⟩, .vneg ⟨g0, .f16, true, 1, 2⟩, .vmin ⟨g0, .f32, true, 1, 2, 3⟩,
    .vshl ⟨g0, .i8, 1, 2, .imm 8⟩, .vshr ⟨g0, .f32, 1, 2, .imm 1⟩, .vcmp ⟨g0, .flt .oeq, .i32, 1, 2, 3⟩,
    .vcvt ⟨g0, false, .rctl, .lut4, .f32, 1, 2, 0⟩, .vcvt ⟨g0, false, .rctl, .f32, .f16, 1, 2, 2⟩, .vrcp ⟨g0, .f64, 1, 2⟩,
    .vsqrt ⟨g0, .i32, .rctl, 1, 2⟩, .vperm ⟨g0, .e2m1, 1, 2, 3, none⟩, .vbcast ⟨g0, .i64, 1, 2, 8⟩, .vins ⟨g0, .i32, 1, 2, 16⟩,
    .vext ⟨g0, .f16, 1, 2, 32⟩, .vred ⟨g0, .and, false, .f32, .rctl, 1, 2⟩, .vscan ⟨g0, .or, false, .i32, .rctl, 1, 2⟩,
    .vdot ⟨g0, false, .rctl, .f32, .i8, 1, 2, 3⟩] : List Instr).all (fun i => !i.wf) = true := by decide

theorem test_wf_system : ([.mew ⟨g0, s0, .rcp, false, false, .f32, .rctl, 1, 2, 3⟩, .mfma ⟨g0, s0, false, .i8, .rctl, 1, 2, 3, 4⟩,
    .mred ⟨g0, s0, .add, false, .f32, .rctl, 0, 1, 2⟩, .mgath ⟨g0, s0, false, .i16, .rctl, 1, 2, 3⟩,
    .mscat ⟨g0, s0, false, false, .i32, .rne, 1, 2, 3⟩, .xres ⟨g0, s0, .i32, 0, false, 1, 2, 3⟩, .xstat ⟨g0, 13, 1⟩,
    .sleep ⟨g0, 1, 0, 0, 0⟩, .sleep ⟨g0, 1, 2, 0, 256⟩] : List Instr).all (fun i => !i.wf) = true := by decide

/-! ### Words written out from R24 to R38, one or more a family -/

theorem test_decode_scalar :
    decode 0x01000420C000000000000100#96 = .ok (.and ⟨g0, .w32, 1, 2, 3⟩) ∧
    decode 0x011004200000000000003F05#96 = .ok (.shlImm ⟨g0, 1, 2, 63⟩) ∧
    decode 0x020004200000000000000300#96 = .ok (.clz ⟨g0, .w8, 1, 2⟩) ∧
    decode 0x020004200000000700000004#96 = .ok (.sext ⟨g0, 1, 2, 7⟩) ∧
    decode 0x04001420C000000000000003#96 = .ok (.cmp ⟨g0, .lt, .w64, 5, 2, 3⟩) ∧
    decode 0x05000420C400000000000000#96 = .ok (.sel ⟨g0, 1, 2, 3, 4⟩) ∧
    decode 0x071004000080000000000000#96 = .ok (.li ⟨g0, 1, 0x800000000000⟩) ∧
    decode 0x20000420C000000000150000#96 = .ok (.fadd ⟨g0, .f32, .rna, 1, 2, 3⟩) ∧
    decode 0x21000420C400000000300000#96 = .ok (.ffma ⟨g0, .bf16, .rctl, 1, 2, 3, 4⟩) ∧
    decode 0x22000420C000000000000013#96 = .ok (.fcmp ⟨g0, .olt, .f64, 1, 2, 3⟩) ∧
    decode 0x240004200000000005100400#96 = .ok (.fcvt ⟨g0, true, .rctl, .i32, .f32, 1, 2⟩) := by decide

theorem test_decode_control_and_memory :
    decode 0x333004000000000000008000#96 = .ok (.call ⟨g0, 1, 128⟩) ∧
    decode 0x3630009000FFFFFFFFFFF400#96 = .ok (.loop ⟨g0, 9, -12⟩) ∧
    decode 0x320000700000000000000000#96 = .ok (.jmpi ⟨g0, 7⟩) ∧
    decode 0x38000420C000000000000100#96 = .ok (.pand ⟨g0, 1, 2, 3, true, false⟩) ∧
    decode 0x39001C200000000000000000#96 = .ok (.qput ⟨g0, 7, 2⟩) ∧
    decode 0x3F0000200000000000000000#96 = .ok (.reprun ⟨g0, 2⟩) ∧
    decode 0x4320004140F02864FFFFFFC0#96 = .ok (.stv ⟨g0, ⟨7, 0x81, 2⟩, .virt, .b512, true, -64, 4, 5, 0⟩) ∧
    decode 0x48200420C000003000000000#96 = .ok (.amoadd ⟨g0, s0, .virt, true, 0, 1, 2, 3, 0⟩) ∧
    decode 0x58200420C000003000000100#96 = .ok (.watch ⟨g0, s0, 256, 1, 2, 3⟩) ∧
    decode 0x478004000000000000000800#96 = .ok (.scnt ⟨g0, 1, true, 0⟩) := by decide

theorem test_decode_vector_matrix_system :
    decode 0x73407DE75C00000000000000#96 = .ok (.vfma ⟨g0, .f64, .rctl, 31, 30, 29, 28⟩) ∧
    decode 0x7C4004200000000701300100#96 = .ok (.vshl ⟨g0, .i8, 1, 2, .imm 7⟩) ∧
    decode 0x8D4004200000000001100002#96 = .ok (.vred ⟨g0, .max, false, .i32, .rctl, 1, 2⟩) ∧
    decode 0xA3500420C000001000000002#96 = .ok (.mew ⟨g0, s0, .mul, false, false, .f32, .rctl, 1, 2, 3⟩) ∧
    decode 0xA55004200000001090000000#96 = .ok (.mred ⟨g0, s0, .add, false, .f32, .rctl, 9, 1, 2⟩) ∧
    decode 0xAA003C200000000000000000#96 = .ok (.fmtset ⟨g0, 15, 2⟩) ∧
    decode 0xB0600420C000004000000400#96 = .ok (.xres ⟨g0, s0, .e4m3, 0, true, 1, 2, 3⟩) ∧
    decode 0xBA6004200300000000000000#96 = .ok (.acfg ⟨g0, 1, 2, 3⟩) ∧
    decode 0xC17000108300000000000000#96 = .ok (.spawnt ⟨g0, s0, 1, 2, 3⟩) ∧
    decode 0xC5800420C400000000000100#96 = .ok (.thnew ⟨g0, true, 1, 2, 3, 4⟩) := by decide


/-! ### A word of every constructor, written out field by field from R24 and R28 to R38 and the entries of the instructions -/

/-- Stream 1, edges on streams 0 and 7, system scope. -/
def str1 : Str := ⟨1, 0x81, 3⟩

/-- Each word decodes to its instruction, and is what the encoder gives of it. -/
def wordsOf (l : List (Slot × Instr)) : Bool := l.all fun x => decide (decode x.1 = .ok x.2) && decide (encode x.2 = some x.1)

theorem test_words_integer : wordsOf [
    (0x00000420C000000000000000#96, .add ⟨g0, .w64, 1, 2, 3⟩),
    (0x0010042000FFFFFFFFFFFB00#96, .addImm ⟨g0, 1, 2, -5⟩),
    (0x00000420C000000000000101#96, .sub ⟨g0, .w32, 1, 2, 3⟩),
    (0x0010042000FFFFFFFFFFFB01#96, .subImm ⟨g0, 1, 2, -5⟩),
    (0x00000420C000000000000202#96, .mul ⟨g0, .w16, 1, 2, 3⟩),
    (0x0010042000FFFFFFFFFFFB02#96, .mulImm ⟨g0, 1, 2, -5⟩),
    (0x00000420C000000000000303#96, .mulh ⟨g0, .w8, 1, 2, 3⟩),
    (0x0010042000FFFFFFFFFFFB03#96, .mulhImm ⟨g0, 1, 2, -5⟩),
    (0x00000420C000000000000004#96, .mulhu ⟨g0, .w64, 1, 2, 3⟩),
    (0x0010042000FFFFFFFFFFFB04#96, .mulhuImm ⟨g0, 1, 2, -5⟩),
    (0x00000420C000000000000105#96, .div ⟨g0, .w32, 1, 2, 3⟩),
    (0x0010042000FFFFFFFFFFFB05#96, .divImm ⟨g0, 1, 2, -5⟩),
    (0x00000420C000000000000206#96, .divu ⟨g0, .w16, 1, 2, 3⟩),
    (0x0010042000FFFFFFFFFFFB06#96, .divuImm ⟨g0, 1, 2, -5⟩),
    (0x00000420C000000000000307#96, .rem ⟨g0, .w8, 1, 2, 3⟩),
    (0x0010042000FFFFFFFFFFFB07#96, .remImm ⟨g0, 1, 2, -5⟩),
    (0x00000420C000000000000008#96, .remu ⟨g0, .w64, 1, 2, 3⟩),
    (0x0010042000FFFFFFFFFFFB08#96, .remuImm ⟨g0, 1, 2, -5⟩),
    (0x00000420C000000000000109#96, .min ⟨g0, .w32, 1, 2, 3⟩),
    (0x0010042000FFFFFFFFFFFB09#96, .minImm ⟨g0, 1, 2, -5⟩),
    (0x00000420C00000000000020A#96, .max ⟨g0, .w16, 1, 2, 3⟩),
    (0x0010042000FFFFFFFFFFFB0A#96, .maxImm ⟨g0, 1, 2, -5⟩),
    (0x00000420C00000000000030B#96, .minu ⟨g0, .w8, 1, 2, 3⟩),
    (0x0010042000FFFFFFFFFFFB0B#96, .minuImm ⟨g0, 1, 2, -5⟩),
    (0x00000420C00000000000000C#96, .maxu ⟨g0, .w64, 1, 2, 3⟩),
    (0x0010042000FFFFFFFFFFFB0C#96, .maxuImm ⟨g0, 1, 2, -5⟩),
    (0x01000420C000000000000000#96, .and ⟨g0, .w64, 1, 2, 3⟩),
    (0x0110042000FFFFFFFFFFFB00#96, .andImm ⟨g0, 1, 2, -5⟩),
    (0x01000420C000000000000101#96, .or ⟨g0, .w32, 1, 2, 3⟩),
    (0x0110042000FFFFFFFFFFFB01#96, .orImm ⟨g0, 1, 2, -5⟩),
    (0x01000420C000000000000202#96, .xor ⟨g0, .w16, 1, 2, 3⟩),
    (0x0110042000FFFFFFFFFFFB02#96, .xorImm ⟨g0, 1, 2, -5⟩),
    (0x01000420C000000000000303#96, .andn ⟨g0, .w8, 1, 2, 3⟩),
    (0x0110042000FFFFFFFFFFFB03#96, .andnImm ⟨g0, 1, 2, -5⟩),
    (0x01000420C000000000000004#96, .orn ⟨g0, .w64, 1, 2, 3⟩),
    (0x0110042000FFFFFFFFFFFB04#96, .ornImm ⟨g0, 1, 2, -5⟩),
    (0x01000420C000000000000105#96, .shl ⟨g0, .w32, 1, 2, 3⟩),
    (0x011004200000000000003F05#96, .shlImm ⟨g0, 1, 2, 63⟩),
    (0x01000420C000000000000206#96, .shr ⟨g0, .w16, 1, 2, 3⟩),
    (0x011004200000000000003F06#96, .shrImm ⟨g0, 1, 2, 63⟩),
    (0x01000420C000000000000307#96, .sra ⟨g0, .w8, 1, 2, 3⟩),
    (0x011004200000000000003F07#96, .sraImm ⟨g0, 1, 2, 63⟩),
    (0x01000420C000000000000008#96, .rol ⟨g0, .w64, 1, 2, 3⟩),
    (0x011004200000000000003F08#96, .rolImm ⟨g0, 1, 2, 63⟩)] = true := by decide +kernel

theorem test_words_scalar : wordsOf [
    (0x020004200000000000000000#96, .clz ⟨g0, .w64, 1, 2⟩),
    (0x020004200000000000000101#96, .ctz ⟨g0, .w32, 1, 2⟩),
    (0x020004200000000000000202#96, .popc ⟨g0, .w16, 1, 2⟩),
    (0x020004200000000000000303#96, .brev ⟨g0, .w8, 1, 2⟩),
    (0x020004200000002100000004#96, .sext ⟨g0, 1, 2, 33⟩),
    (0x020004200000002100000005#96, .zext ⟨g0, 1, 2, 33⟩),
    (0x030004200000004500001C00#96, .bfx ⟨g0, 1, 2, 5, 7, true⟩),
    (0x030004200000000500001C01#96, .bfi ⟨g0, 1, 2, 5, 7⟩),
    (0x04000420C000000000000106#96, .cmp ⟨g0, .geu, .w32, 1, 2, 3⟩),
    (0x0410042000FFFFFFFFFFFB01#96, .cmpImm ⟨g0, .eq, 1, 2, -5⟩),
    (0x05000420C400000000000000#96, .sel ⟨g0, 1, 2, 3, 4⟩),
    (0x060004200000000000000000#96, .mov ⟨g0, 1, 2⟩),
    (0x0710040000FFFFFFFFFFFB00#96, .li ⟨g0, 1, -5⟩),
    (0x08000420C000000700000000#96, .lea ⟨g0, 1, 2, 3, 7⟩),
    (0x0810042000FFFFFFFFFFFB00#96, .leaImm ⟨g0, 1, 2, -5⟩),
    (0x20000420C000000000110000#96, .fadd ⟨g0, .f32, .rne, 1, 2, 3⟩),
    (0x20000420C000000000220001#96, .fsub ⟨g0, .f16, .rz, 1, 2, 3⟩),
    (0x20000420C000000000330002#96, .fmul ⟨g0, .bf16, .rdn, 1, 2, 3⟩),
    (0x20000420C000000000100003#96, .fmin ⟨g0, .f32, 1, 2, 3⟩),
    (0x20000420C000000000100004#96, .fmax ⟨g0, .f32, 1, 2, 3⟩),
    (0x200004200000000000100005#96, .fabs ⟨g0, .f32, 1, 2⟩),
    (0x200004200000000000100006#96, .fneg ⟨g0, .f32, 1, 2⟩),
    (0x21000420C400000000340000#96, .ffma ⟨g0, .bf16, .rup, 1, 2, 3, 4⟩),
    (0x22000420C000000000000016#96, .fcmp ⟨g0, .ord, .f64, 1, 2, 3⟩),
    (0x230004200000000000200000#96, .fclass ⟨g0, .f16, 1, 2⟩),
    (0x240004200000000005150400#96, .fcvt ⟨g0, true, .rna, .i32, .f32, 1, 2⟩),
    (0x250004200000000000120000#96, .frnd ⟨g0, .f32, .rz, 1, 2⟩)] = true := by decide +kernel

theorem test_words_control : wordsOf [
    (0x30300020C0FFFFFFFFFFF405#96, .br ⟨g0, some .ltu, 2, 3, -12⟩),
    (0x313000000000000000004000#96, .jmp ⟨g0, 64⟩),
    (0x320000200000000000000000#96, .jmpi ⟨g0, 2⟩),
    (0x333004000000000000004000#96, .call ⟨g0, 1, 64⟩),
    (0x340004200000000000000000#96, .calli ⟨g0, 1, 2⟩),
    (0x350000200000000000000000#96, .ret ⟨g0, 2⟩),
    (0x3630002000FFFFFFFFFFF400#96, .loop ⟨g0, 2, -12⟩),
    (0x370000000000000000000000#96, .nop ⟨g0⟩),
    (0x38000420C000000000000000#96, .pand ⟨g0, 1, 2, 3, false, false⟩),
    (0x38000420C000000000000101#96, .por ⟨g0, 1, 2, 3, true, false⟩),
    (0x38000420C000000000000202#96, .pxor ⟨g0, 1, 2, 3, false, true⟩),
    (0x380004200000000000000003#96, .pnot ⟨g0, 1, 2⟩),
    (0x380004000000000100000004#96, .pset ⟨g0, 1, .imm true⟩),
    (0x39001C200000000000000000#96, .qput ⟨g0, 7, 2⟩),
    (0x3A0004600000000000000000#96, .qget ⟨g0, 1, 6⟩),
    (0x3B0004600000000000000000#96, .qpeek ⟨g0, 1, 6⟩),
    (0x3C0004600000000000000000#96, .qcnt ⟨g0, 1, 6⟩),
    (0x3D0000200000001F00000100#96, .repb ⟨g0, 2, 31, true, false⟩),
    (0x3E0000000000000000000000#96, .repe ⟨()⟩),
    (0x3F0000200000000000000000#96, .reprun ⟨g0, 2⟩),
    (0x3F0004000000000000000001#96, .repstat ⟨g0, 1⟩)] = true := by decide +kernel

theorem test_words_memory : wordsOf [
    (0x4020042004302F2EFFFFFFF8#96, .ld ⟨g0, str1, .named, 2, true, true, true, -8, 1, 2, 4⟩),
    (0x41200020C0302D34FFFFFFF8#96, .st ⟨g0, str1, .own, 3, true, -8, 2, 3, 0⟩),
    (0x4220042000302E42FFFFFFF8#96, .ldv ⟨g0, str1, .cluster, .b128, false, true, -8, 1, 2, 0⟩),
    (0x43200020C0302C50FFFFFFF8#96, .stv ⟨g0, str1, .virt, .b256, false, -8, 2, 3, 0⟩),
    (0x4420002000302C32FFFFFFF8#96, .pfetch ⟨g0, str1, false, true, -8, 2⟩),
    (0x4520002000302C30FFFFFFF8#96, .cflush ⟨g0, str1, -8, 2⟩),
    (0x4620002000302C30FFFFFFF8#96, .cinv ⟨g0, str1, -8, 2⟩),
    (0x478004000000000000000500#96, .scnt ⟨g0, 1, false, 5⟩),
    (0x48200420C0302C20FFFFFFF8#96, .amoadd ⟨g0, str1, .virt, false, -8, 1, 2, 3, 0⟩),
    (0x49200420C0302D30FFFFFFF8#96, .amoand ⟨g0, str1, .own, true, -8, 1, 2, 3, 0⟩),
    (0x4A200420C0302E20FFFFFFF8#96, .amoor ⟨g0, str1, .cluster, false, -8, 1, 2, 3, 0⟩),
    (0x4B200420C0302C30FFFFFFF8#96, .amoxor ⟨g0, str1, .virt, true, -8, 1, 2, 3, 0⟩),
    (0x4C200420C0302D20FFFFFFF8#96, .amomin ⟨g0, str1, .own, false, -8, 1, 2, 3, 0⟩),
    (0x4D200420C0302E30FFFFFFF8#96, .amomax ⟨g0, str1, .cluster, true, -8, 1, 2, 3, 0⟩),
    (0x4E200420C0302C20FFFFFFF8#96, .amominu ⟨g0, str1, .virt, false, -8, 1, 2, 3, 0⟩),
    (0x4F200420C0302D30FFFFFFF8#96, .amomaxu ⟨g0, str1, .own, true, -8, 1, 2, 3, 0⟩),
    (0x50200420C0302E20FFFFFFF8#96, .amoswp ⟨g0, str1, .cluster, false, -8, 1, 2, 3, 0⟩),
    (0x51200420C4302D30FFFFFFF8#96, .amocas ⟨g0, str1, .own, true, -8, 1, 2, 3, 4⟩),
    (0x52200420C0302C10FFFFFFF8#96, .amofadd ⟨g0, str1, .virt, .bf16, -8, 1, 2, 3, 0⟩),
    (0x53200420C0302C20FFFFFFF8#96, .amofmin ⟨g0, str1, .virt, .f32, -8, 1, 2, 3, 0⟩),
    (0x54200420C0302C30FFFFFFF8#96, .amofmax ⟨g0, str1, .virt, .f64, -8, 1, 2, 3, 0⟩),
    (0x58200420C0302C30FFFFFFF8#96, .watch ⟨g0, str1, -8, 1, 2, 3⟩),
    (0x59200420C0302C30FFFFFFF8#96, .unwatch ⟨g0, str1, -8, 1, 2, 3⟩),
    (0x5A20042000302C30FFFFFFF8#96, .watchq ⟨g0, str1, -8, 1, 2, 0⟩),
    (0x5C20042000302C30FFFFFFF8#96, .acqr ⟨g0, str1, -8, 1, 2, 0⟩),
    (0x5D20042000302C30FFFFFFF8#96, .relr ⟨g0, str1, -8, 1, 2⟩),
    (0x5E20042000302C30FFFFFFF8#96, .ladq ⟨g0, str1, -8, 1, 2⟩)] = true := by decide +kernel

theorem test_words_copies : wordsOf [
    (0x60700020C4302E0000090000#96, .send ⟨g0, str1, .cluster, 9, 2, 3, 4⟩),
    (0x61700020C4302C4400090000#96, .sendadd ⟨g0, str1, .virt, .i32, false, false, 9, 2, 3, 4⟩),
    (0x62700020C4302D0600090000#96, .sendmin ⟨g0, str1, .own, .f32, true, false, 9, 2, 3, 4⟩),
    (0x63700020C4302E0000090000#96, .sendmax ⟨g0, str1, .cluster, .f64, false, false, 9, 2, 3, 4⟩),
    (0x64700420C0302C0000090000#96, .chopen ⟨g0, str1, false, 9, 1, 2, 3⟩),
    (0x6570040000302C0000090000#96, .chclose ⟨g0, str1, 9, 1⟩),
    (0x66700420C0302C0000090300#96, .chwm ⟨g0, str1, true, true, 9, 1, 2, 3⟩),
    (0x67200020C0302D70FFFFFFF8#96, .stn ⟨g0, str1, .own, .b4, -8, 2, 3, 0⟩),
    (0x688004000000000000000300#96, .lmcfg ⟨g0, 1, 3⟩),
    (0x69700020C0302C0000000000#96, .sendm ⟨g0, str1, 2, 3⟩)] = true := by decide +kernel

theorem test_words_vector : wordsOf [
    (0x70400420C000000000110000#96, .vadd ⟨g0, .f32, .rne, false, false, 1, 2, 3⟩),
    (0x71400420C000000001100100#96, .vsub ⟨g0, .i32, .rctl, true, false, 1, 2, 3⟩),
    (0x72400420C000000000230000#96, .vmul ⟨g0, .f16, .rdn, 1, 2, 3⟩),
    (0x73400420C400000000110000#96, .vfma ⟨g0, .f32, .rne, 1, 2, 3, 4⟩),
    (0x74400420C400000000120000#96, .vfms ⟨g0, .f32, .rz, 1, 2, 3, 4⟩),
    (0x754004200000000001200000#96, .vneg ⟨g0, .i16, false, 1, 2⟩),
    (0x764004200000000001200100#96, .vabs ⟨g0, .i16, true, 1, 2⟩),
    (0x77400420C000000001300000#96, .vmin ⟨g0, .i8, false, 1, 2, 3⟩),
    (0x78400420C000000001300000#96, .vmax ⟨g0, .i8, false, 1, 2, 3⟩),
    (0x79400420C000000000000000#96, .vand ⟨g0, 1, 2, 3⟩),
    (0x7A400420C000000000000000#96, .vor ⟨g0, 1, 2, 3⟩),
    (0x7B400420C000000000000000#96, .vxor ⟨g0, 1, 2, 3⟩),
    (0x7C400420C000000001000000#96, .vshl ⟨g0, .i64, 1, 2, .reg 3⟩),
    (0x7D400420C000000001100000#96, .vshr ⟨g0, .i32, 1, 2, .reg 3⟩),
    (0x7E400420C000000001200000#96, .vsra ⟨g0, .i16, 1, 2, .reg 3⟩),
    (0x7F400420C000000000100013#96, .vcmp ⟨g0, .flt .olt, .f32, 1, 2, 3⟩),
    (0x80400420C400000000000000#96, .vsel ⟨g0, 1, 2, 3, 4⟩),
    (0x814004200000000304410400#96, .vcvt ⟨g0, true, .rne, .e4m3, .f32, 1, 2, 3⟩),
    (0x824004200000000000100000#96, .vrcp ⟨g0, .f32, 1, 2⟩),
    (0x834004200000000000100000#96, .vrsq ⟨g0, .f32, 1, 2⟩),
    (0x844004200000000000110000#96, .vsqrt ⟨g0, .f32, .rne, 1, 2⟩),
    (0x854004200000000000100000#96, .vexp2 ⟨g0, .f32, 1, 2⟩),
    (0x864004200000000000100000#96, .vlog2 ⟨g0, .f32, 1, 2⟩),
    (0x874004200000000000100000#96, .vsinp ⟨g0, .f32, 1, 2⟩),
    (0x884004200000000000100000#96, .vtanh ⟨g0, .f32, 1, 2⟩),
    (0x89400420C000000001300000#96, .vperm ⟨g0, .i8, 1, 2, 3, none⟩),
    (0x8A4004200000000F00100000#96, .vbcast ⟨g0, .f32, 1, 2, 15⟩),
    (0x8B4004200000000F00100000#96, .vins ⟨g0, .f32, 1, 2, 15⟩),
    (0x8C4004200000000F00100000#96, .vext ⟨g0, .f32, 1, 2, 15⟩),
    (0x8D4004200000000001100005#96, .vred ⟨g0, .xor, false, .i32, .rctl, 1, 2⟩),
    (0x8E4004200000000000110000#96, .vscan ⟨g0, .add, false, .f32, .rne, 1, 2⟩),
    (0x8F400420C00000004D100000#96, .vdot ⟨g0, false, .rctl, .i32, .i8, 1, 2, 3⟩),
    (0x904004200000000000000000#96, .vmov ⟨g0, 1, 2⟩),
    (0x914004200000000000300000#96, .vsplat ⟨g0, .bf16, 1, 2⟩)] = true := by decide +kernel

theorem test_words_manifest : wordsOf [
    (0xA050042000302C0000000000#96, .mld ⟨g0, str1, false, 1, 2⟩),
    (0xA150002040302C0000000000#96, .mst ⟨g0, str1, false, 1, 2⟩),
    (0xA2500420C000000000000003#96, .mset ⟨g0, .dim 1, 1, 2, 3⟩),
    (0xA3500420C0302C1100000001#96, .mew ⟨g0, str1, .sub, false, false, .f32, .rne, 1, 2, 3⟩),
    (0xA4500420C4302C0200000000#96, .mfma ⟨g0, str1, false, .f64, .rz, 1, 2, 3, 4⟩),
    (0xA550042000302C1090000002#96, .mred ⟨g0, str1, .max, false, .f32, .rctl, 9, 1, 2⟩),
    (0xA650042000302C0100000400#96, .mcvt ⟨g0, str1, true, .rne, 1, 2⟩),
    (0xA7500420C0302C1000000000#96, .mgath ⟨g0, str1, false, .f32, .rctl, 1, 2, 3⟩),
    (0xA8500420C0302C1000000001#96, .mscat ⟨g0, str1, true, false, .f32, .rctl, 1, 2, 3⟩),
    (0xA950042000302C0000000000#96, .mcopy ⟨g0, str1, 1, 2⟩),
    (0xAA003C200000000000000000#96, .fmtset ⟨g0, 15, 2⟩),
    (0xAB0004F00000000000000000#96, .fmtget ⟨g0, 1, 15⟩),
    (0xAC50002000302C0000000000#96, .lutld ⟨g0, str1, false, 2⟩)] = true := by decide +kernel

theorem test_words_engine : wordsOf [
    (0xB0600420C0302C5000000100#96, .xres ⟨g0, str1, .e5m2, 1, false, 1, 2, 3⟩),
    (0xB160042000302C0000000000#96, .xload ⟨g0, str1, 1, 2⟩),
    (0xB260042000302C0000000000#96, .xpin ⟨g0, str1, 1, 2⟩),
    (0xB360042000302C0000000000#96, .xunpin ⟨g0, str1, 1, 2⟩),
    (0xB460042000302C0000000000#96, .xrevk ⟨g0, str1, 1, 2⟩),
    (0xB56004200000000000000000#96, .xqry ⟨g0, 1, 2⟩),
    (0xB6600C2040302C0000000000#96, .xmm ⟨g0, str1, none, 3, 2, 1⟩),
    (0xB7600C2040302C0000000000#96, .xacc ⟨g0, str1, none, 3, 2, 1⟩),
    (0xB86000200000000000000000#96, .xzero ⟨g0, 2⟩),
    (0xB9600400000000000000000C#96, .xstat ⟨g0, 12, 1⟩),
    (0xBA6004200300000000000000#96, .acfg ⟨g0, 1, 2, 3⟩),
    (0xBB6004300000000000000000#96, .aget ⟨g0, 1, 3⟩),
    (0xBC600C000000000000000000#96, .afree ⟨g0, 3⟩),
    (0xBD600C204000000000000000#96, .arowi ⟨g0, 3, 2, 1⟩),
    (0xBD6008304000000000000001#96, .arowo ⟨g0, 2, 3, 1⟩),
    (0xBE600C204000000000000000#96, .acoli ⟨g0, 3, 2, 1⟩),
    (0xBE6008304000000000000001#96, .acolo ⟨g0, 2, 3, 1⟩),
    (0xBF600C000000000000000000#96, .azero ⟨g0, 3⟩)] = true := by decide +kernel

theorem test_words_system : wordsOf [
    (0xC0700020C0302C0000000000#96, .spawn ⟨g0, str1, 2, 3⟩),
    (0xC1700020C4302C0000000000#96, .spawnt ⟨g0, str1, 2, 3, 4⟩),
    (0xC28000000000000000000000#96, .end_ ⟨g0⟩),
    (0xC3800420C000000000060300#96, .sleep ⟨g0, 1, 2, 3, 0x603⟩),
    (0xC48000000000000000000000#96, .yield ⟨g0⟩),
    (0xC5800420C400000000000100#96, .thnew ⟨g0, true, 1, 2, 3, 4⟩),
    (0xC68004200000000000000000#96, .thstop ⟨g0, 1, 2⟩),
    (0xC68004200000000000000001#96, .thstart ⟨g0, 1, 2⟩),
    (0xC7800420C400000000000000#96, .thrd ⟨g0, 1, 4, 2, 3⟩),
    (0xC8800420C400000000000000#96, .thwr ⟨g0, 1, 2, 3, 4⟩),
    (0xC98004200000000000000000#96, .thstat ⟨g0, 1, 2⟩),
    (0xCA8004200000000000000000#96, .thkill ⟨g0, 1, 2⟩),
    (0xCB8000000000000000FFFF00#96, .trap ⟨g0, 0xFFFF⟩),
    (0xCC8004000000000000002000#96, .mfs ⟨g0, 1, .gt⟩),
    (0xCD8000200000000000001000#96, .mts ⟨g0, .rctl, 2⟩),
    (0xCE8004000000000000000000#96, .gtime ⟨g0, 1⟩),
    (0xCF8004000000000000000500#96, .rgnq ⟨g0, .frontier, 1⟩)] = true := by decide +kernel

/-! ### Scalar instructions, with results by hand from R194 to R206 -/

theorem test_integer_arithmetic :
    after (.add ⟨g0, .w8, 1, 2, 3⟩) (two 0x7F 1) (·.rg 1) = some 0xFFFFFFFFFFFFFF80 ∧
    after (.sub ⟨g0, .w64, 2, 2, 3⟩) (two 0 1) (·.rg 2) = some 0xFFFFFFFFFFFFFFFF ∧
    after (.mul ⟨g0, .w32, 1, 2, 3⟩) (two 0x10000 0x8000) (·.rg 1) = some 0xFFFFFFFF80000000 ∧
    after (.mulh ⟨g0, .w64, 1, 2, 3⟩) (two 0xFFFFFFFFFFFFFFFF 2) (·.rg 1) = some 0xFFFFFFFFFFFFFFFF ∧
    after (.mulhu ⟨g0, .w64, 1, 2, 3⟩) (two 0xFFFFFFFFFFFFFFFF 2) (·.rg 1) = some 1 ∧
    after (.div ⟨g0, .w8, 1, 2, 3⟩) (two 0x80 0xFF) (·.rg 1) = some 0xFFFFFFFFFFFFFF80 ∧
    after (.divu ⟨g0, .w64, 1, 2, 3⟩) (two 7 0) (·.rg 1) = some 0xFFFFFFFFFFFFFFFF ∧
    after (.rem ⟨g0, .w16, 1, 2, 3⟩) (two 0xFFF9 4) (·.rg 1) = some 0xFFFFFFFFFFFFFFFD ∧
    after (.remu ⟨g0, .w8, 1, 2, 3⟩) (two 0x1FE 0x100) (·.rg 1) = some 0xFFFFFFFFFFFFFFFE ∧
    after (.min ⟨g0, .w8, 1, 2, 3⟩) (two 0x80 1) (·.rg 1) = some 0xFFFFFFFFFFFFFF80 ∧
    after (.maxu ⟨g0, .w8, 1, 2, 3⟩) (two 0x80 1) (·.rg 1) = some 0xFFFFFFFFFFFFFF80 ∧
    after (.addImm ⟨g0, 1, 2, -1⟩) (two 0 0) (·.rg 1) = some 0xFFFFFFFFFFFFFFFF ∧
    after (.divuImm ⟨g0, 1, 2, -1⟩) (two 0xFFFFFFFFFFFFFFFF 0) (·.rg 1) = some 1 := by decide

theorem test_bits :
    after (.andn ⟨g0, .w64, 1, 2, 3⟩) (two 0xF0F 0xF) (·.rg 1) = some 0xF00 ∧
    after (.orn ⟨g0, .w8, 1, 2, 3⟩) (two 0 0x7F) (·.rg 1) = some 0xFFFFFFFFFFFFFF80 ∧
    after (.shl ⟨g0, .w8, 1, 2, 3⟩) (two 1 15) (·.rg 1) = some 0xFFFFFFFFFFFFFF80 ∧
    after (.shr ⟨g0, .w16, 1, 2, 3⟩) (two 0x8000 15) (·.rg 1) = some 1 ∧
    after (.sra ⟨g0, .w8, 1, 2, 3⟩) (two 0x80 7) (·.rg 1) = some 0xFFFFFFFFFFFFFFFF ∧
    after (.rol ⟨g0, .w8, 1, 2, 3⟩) (two 0x81 1) (·.rg 1) = some 3 ∧
    after (.sraImm ⟨g0, 1, 2, 63⟩) (two 0x8000000000000000 0) (·.rg 1) = some 0xFFFFFFFFFFFFFFFF ∧
    after (.clz ⟨g0, .w8, 1, 2⟩) (two 0x100 0) (·.rg 1) = some 8 ∧
    after (.ctz ⟨g0, .w64, 1, 2⟩) (two 0x8000000000000000 0) (·.rg 1) = some 63 ∧
    after (.popc ⟨g0, .w16, 1, 2⟩) (two 0x1FFFF 0) (·.rg 1) = some 16 ∧
    after (.brev ⟨g0, .w8, 1, 2⟩) (two 1 0) (·.rg 1) = some 0xFFFFFFFFFFFFFF80 ∧
    after (.sext ⟨g0, 1, 2, 4⟩) (two 0x18 0) (·.rg 1) = some 0xFFFFFFFFFFFFFFF8 ∧
    after (.zext ⟨g0, 1, 2, 4⟩) (two 0x18 0) (·.rg 1) = some 8 ∧
    after (.bfx ⟨g0, 1, 2, 4, 3, true⟩) (two 0xF80 0) (·.rg 1) = some 0xFFFFFFFFFFFFFFF8 ∧
    after (.bfi ⟨g0, 3, 2, 4, 3⟩) (two 0xFFA 0x123) (·.rg 3) = some 0x1A3 ∧
    after (.lea ⟨g0, 1, 2, 3, 3⟩) (two 0x1000 2) (·.rg 1) = some 0x1010 ∧
    after (.li ⟨g0, 1, -2⟩) (two 0 0) (·.rg 1) = some 0xFFFFFFFFFFFFFFFE ∧
    after (.li ⟨g0, 0, 5⟩) (two 0 0) (·.rg 0) = some 0 := by decide

theorem test_predicates :
    after (.cmp ⟨g0, .lt, .w8, 1, 2, 3⟩) (two 0x80 1) (·.rp 1) = some true ∧
    after (.cmp ⟨g0, .ltu, .w8, 1, 2, 3⟩) (two 0x80 1) (·.rp 1) = some false ∧
    after (.cmpImm ⟨g0, .eq, 0, 2, 1⟩) (two 2 0) (·.rp 0) = some true ∧
    after (.pand ⟨g0, 1, 0, 2, false, true⟩) (two 0 0) (·.rp 1) = some true ∧
    after (.pnot ⟨g0, 3, 0⟩) (st (thr.wp 3 true)) (·.rp 3) = some false ∧
    after (.pset ⟨g0, 1, .reg 2⟩) (two 0 0) (·.rp 1) = some false ∧
    after (.sel ⟨g0, 1, 2, 3, 1⟩) (two 5 6) (·.rg 1) = some 6 ∧
    after (.mov ⟨⟨0, true⟩, 2, 3⟩) (two 5 6) (·.rg 2) = some 5 := by decide

/-- FP32: 1 + 2 = 3, the largest value doubled overflows with OF and NX, 0 by infinity is invalid. -/
theorem test_scalar_float :
    after (.fadd ⟨g0, .f32, .rne, 1, 2, 3⟩) (two 0x3F800000 0x40000000) (·.rg 1) = some 0x40400000 ∧
    after (.fadd ⟨g0, .f32, .rne, 1, 2, 3⟩) (two 0x7F7FFFFF 0x7F7FFFFF) (·.rg 1) = some 0x7F800000 ∧
    after (.fmul ⟨g0, .f32, .rctl, 1, 2, 3⟩) (two 0 0x7F800000) (fun t => decide (t.rctl &&& ~~~15#64 ≠ 0)) = some true ∧
    after (.fneg ⟨g0, .f64, 1, 2⟩) (two 0 0) (·.rg 1) = some 0x8000000000000000 ∧
    after (.fcmp ⟨g0, .oeq, .f32, 1, 2, 3⟩) (two 0x80000000 0) (·.rp 1) = some true ∧
    after (.fcvt ⟨g0, false, .rne, .i32, .f32, 1, 2⟩) (two 0xBFC00000 0) (·.rg 1) = some 0xFFFFFFFFFFFFFFFE ∧
    after (.fmin ⟨g0, .f32, 1, 2, 3⟩) (two 0x3F800000 0xBF800000) (·.rg 1) = some 0xBF800000 := by decide

/-- Queue 0 holds sixteen entries: the sixteenth is taken, a seventeenth waits. -/
theorem test_queues :
    after (.qput ⟨g0, 0, 2⟩) (st ((thr.wg 2 9).wq 0 (List.replicate 15 1))) (fun t => (t.rq 0).length) = some 16 ∧
    after (.qput ⟨g0, 0, 2⟩) (st ((thr.wg 2 9).wq 0 (List.replicate 16 1))) (fun t => (t.waited, (t.rq 0).length)) = some (true, 16) ∧
    after (.qget ⟨g0, 1, 6⟩) (st (thr.wq 6 [4, 5])) (fun t => (t.rg 1, t.rq 6)) = some (4, [5]) ∧
    after (.qpeek ⟨g0, 1, 6⟩) (st (thr.wq 6 [4, 5])) (fun t => (t.rg 1, t.rq 6)) = some (4, [4, 5]) ∧
    after (.qcnt ⟨g0, 1, 6⟩) (st (thr.wq 6 [4, 5])) (·.rg 1) = some 2 := by decide

/-! ### States and operands that meet the hypotheses: the register instructions -/

theorem witness_IntegerArithmetic :
    (∀ f ∈ [Alu.add, .sub, .mul, .mulh, .mulhu, .div, .divu, .rem, .remu, .min, .max, .minu, .maxu],
      ∃ i x, aluReg i = some (x, f) ∧ Runs (two 1 2) ((thr.wg 2 1).wg 3 2) x.g) ∧
    (∃ i x f, aluImm i = some (x, f) ∧ x.imm = -0x800000000000 ∧ Runs (st thr) thr x.g) := by
  refine ⟨?_, .addImm ⟨g0, 1, 2, -0x800000000000⟩, _, _, rfl, rfl, rfl, rfl⟩
  intro f hf
  simp only [List.mem_cons, List.not_mem_nil, or_false] at hf
  rcases hf with rfl | rfl | rfl | rfl | rfl | rfl | rfl | rfl | rfl | rfl | rfl | rfl | rfl
  exacts [⟨.add ⟨g0, .w8, 1, 2, 3⟩, _, rfl, rfl, rfl⟩, ⟨.sub ⟨g0, .w8, 1, 2, 3⟩, _, rfl, rfl, rfl⟩, ⟨.mul ⟨g0, .w8, 1, 2, 3⟩, _, rfl, rfl, rfl⟩,
    ⟨.mulh ⟨g0, .w8, 1, 2, 3⟩, _, rfl, rfl, rfl⟩, ⟨.mulhu ⟨g0, .w8, 1, 2, 3⟩, _, rfl, rfl, rfl⟩, ⟨.div ⟨g0, .w8, 1, 2, 3⟩, _, rfl, rfl, rfl⟩,
    ⟨.divu ⟨g0, .w8, 1, 2, 3⟩, _, rfl, rfl, rfl⟩, ⟨.rem ⟨g0, .w8, 1, 2, 3⟩, _, rfl, rfl, rfl⟩, ⟨.remu ⟨g0, .w8, 1, 2, 3⟩, _, rfl, rfl, rfl⟩,
    ⟨.min ⟨g0, .w8, 1, 2, 3⟩, _, rfl, rfl, rfl⟩, ⟨.max ⟨g0, .w8, 1, 2, 3⟩, _, rfl, rfl, rfl⟩, ⟨.minu ⟨g0, .w8, 1, 2, 3⟩, _, rfl, rfl, rfl⟩,
    ⟨.maxu ⟨g0, .w8, 1, 2, 3⟩, _, rfl, rfl, rfl⟩]

theorem witness_BitwiseAndShift :
    (∃ i x, bitReg i = some (x, .rol) ∧ Runs (two 1 64) ((thr.wg 2 1).wg 3 64) x.g) ∧
    (∃ i g d a b, bitImm i = some (g, d, a, b, .shl) ∧ b = 63 ∧ Runs (st thr) thr g) :=
  ⟨⟨.rol ⟨g0, .w64, 1, 2, 3⟩, _, rfl, rfl, rfl⟩, .shlImm ⟨g0, 1, 2, 63⟩, _, _, _, _, rfl, rfl, rfl, rfl⟩

/-- SEXT of 1 and of 64 bits, a field at the top of the register. -/
theorem witness_CountsFieldsComparesAndMoves :
    Runs (st thr) thr g0 ∧ (∃ x : ExtA, x.n.toNat = 1) ∧ (∃ x : ExtA, x.n.toNat = 64) ∧
    (∃ x : BfxA, x.pos.toNat + x.len1.toNat = 63 ∧ x.len1 = 0) ∧ (∃ x : BfiA, x.pos = 0 ∧ x.pos.toNat + x.len1.toNat = 63) :=
  ⟨⟨rfl, rfl⟩, ⟨⟨g0, 1, 2, 1⟩, rfl⟩, ⟨⟨g0, 1, 2, 64⟩, rfl⟩, ⟨⟨g0, 1, 2, 63, 0, true⟩, rfl, rfl⟩, ⟨g0, 1, 2, 0, 63⟩, rfl, rfl⟩

/-- A descriptor of zero is invalid, so a conversion by it traps. -/
theorem witness_ScalarFloatingPoint :
    Runs (st thr) thr g0 ∧ (∃ f, numFmt thr.rf .f32 = some (.flt f)) ∧ (∃ nd ns, numFmt thr.rf .i32 = some nd ∧ numFmt thr.rf .e2m1 = some ns) ∧
    numFmt thr.rf (.fmt 3) = none := ⟨⟨rfl, rfl⟩, ⟨_, rfl⟩, ⟨_, _, rfl, rfl⟩, by decide⟩

/-! ### Transfers and the repetition buffer -/

/-- The thread stands at a line of NOPs, whose slot 0 is a target, mapped by the partition's one page. -/
def code (i : Instr) : State := (State.reset.load nopWord).at 0 0 .lead 0x200000 nopWord none i 0 0

/-- The thread of that state. -/
def codeT : Thread := { Thread.fresh 0 0x400000 .resident 0x200000 with rgn := 0x400000, trapb := 0x300000, fltq := 0x301000 }

theorem ok_of_check {r : FetchRes × State} (h : (match r.1 with | .ok _ => true | _ => false) = true) : ∃ l s', r = (.ok l, s') := by
  obtain ⟨a, s'⟩ := r
  cases a with
  | ok l => exact ⟨l, s', rfl⟩
  | trap c d e f => simp at h
  | busy => simp at h

theorem test_transfers :
    after (.jmp ⟨g0, 0⟩) (code (.jmp ⟨g0, 0⟩)) (·.leadPc) = some 0x200000 ∧
    after (.jmp ⟨g0, 12⟩) (code (.jmp ⟨g0, 12⟩)) (fun t => (t.st, t.stop.map (·.info.cause))) = some (.stopped, some 0x04) ∧
    after (.call ⟨g0, 5, 0⟩) (code (.call ⟨g0, 5, 0⟩)) (·.rg 5) = some 0x20000C ∧
    after (.br ⟨g0, some .ne, 0, 0, 0⟩) (st thr) (·.leadPc) = some 0x200000 ∧
    after (.loop ⟨g0, 2, 0⟩) (two 1 0) (·.rg 2) = some 0 := by decide +kernel

theorem witness_Transfers :
    Runs (code (.jmp ⟨g0, 0⟩)) codeT g0 ∧
    (∃ l s', (code (.jmp ⟨g0, 0⟩)).checkTarget 0 0 0x400000 0x200000 = (.ok l, s')) ∧
    (∃ l s', ((code (.jmp ⟨g0, 0⟩)).setCur (codeT.wg 5 0x20000C)).checkTarget 0 0 0x400000 0x200000 = (.ok l, s')) ∧
    holds 0 0 0 0 .eq = true ∧ holds 0 1 0 1 .eq = false ∧ codeT.rg 2 ≠ 1 ∧ codeT.guard ⟨0, true⟩ = false :=
  ⟨⟨rfl, rfl⟩, ok_of_check (by decide +kernel), ok_of_check (by decide +kernel), by decide, by decide, by decide, by decide⟩

/-- Queues at their limits, and a buffer that captures, is valid, and is captured from a translated address. -/
theorem witness_QueuesAndRepetition :
    ((thr.wq 0 (List.replicate 15 1)).rq 0).length = 15 ∧ ((thr.wq 7 (List.replicate 4 1)).rq 7).length = 4 ∧
    (∃ v l, (thr.wq 6 [4]).rq 6 = v :: l) ∧ thr.rq 6 = [] ∧
    (∃ t : Thread, (st t).curT? = some t ∧ t.rep.capt = true) ∧
    (∃ t : Thread, Runs (st t) t g0 ∧ t.rep.valid = true ∧ t.rep.act = false ∧ t.rg 2 = 1048575 ∧ t.rep.buf ≠ []) ∧
    (∃ t : Thread, Runs (st t) t g0 ∧ t.rep.valid = true ∧ t.rep.act = false ∧ t.rg 2 = 0) :=
  ⟨by decide, by decide, ⟨4, [], by decide⟩, by decide, ⟨{ thr with rep := { RepState.empty with capt := true } }, rfl, rfl⟩,
    ⟨{ thr.wg 2 1048575 with rep := { RepState.empty with valid := true, buf := [0] } }, ⟨rfl, rfl⟩, rfl, rfl, by decide, by decide⟩,
    ⟨{ thr with rep := { RepState.empty with valid := true } }, ⟨rfl, rfl⟩, rfl, rfl, by decide⟩⟩

theorem walked_of_check {r : TrRes × State} {pa : Nat} {sh : Bool} (h : (match r.1 with | .ok a b _ => decide (a = pa) && decide (b = sh) | _ => false) = true) :
    ∃ n s', r = (.ok pa sh n, s') := by
  obtain ⟨a, s'⟩ := r
  cases a <;> simp_all

/-- REPB with its save area at 0x202000 captures. -/
theorem witness_RepetitionCapture :
    ∃ n s', (code (.nop ⟨g0⟩)).translateR 0 0x400000 0x202000 .store = (.ok 0x202000 false n, s') ∧ (0x202000#64).toNat % 512 = 0 := by
  obtain ⟨n, s', h⟩ := walked_of_check (r := (code (.nop ⟨g0⟩)).translateR 0 0x400000 0x202000 .store) (pa := 0x202000) (sh := false) (by decide +kernel)
  exact ⟨n, s', h, by decide⟩

/-! ### Vector instructions -/

/-- A v register of the lanes given, from lane 0 on. -/
def vec (w : Nat) (l : List Nat) : V512 := ofLanes w l

theorem test_vector :
    after (.vadd ⟨g0, .i8, .rctl, true, false, 1, 2, 3⟩) (st ((thr.wv 2 (vec 8 [0x7F, 0x80])).wv 3 (vec 8 [1, 0xFF]))) (·.rv 1)
      = some (vec 8 [0x7F, 0x80]) ∧
    after (.vadd ⟨g0, .f32, .rne, false, false, 1, 2, 2⟩) (st (thr.wv 2 (vec 32 [0x3F800000]))) (·.rv 1) = some (vec 32 [0x40000000]) ∧
    after (.vmul ⟨g0, .i16, .rctl, 2, 2, 3⟩) (st ((thr.wv 2 (vec 16 [0x100, 3])).wv 3 (vec 16 [0x100, 5]))) (·.rv 2) = some (vec 16 [0, 15]) ∧
    after (.vshl ⟨g0, .i8, 1, 2, .imm 7⟩) (st (thr.wv 2 (vec 8 [3]))) (·.rv 1) = some (vec 8 [0x80]) ∧
    after (.vsra ⟨g0, .i32, 1, 2, .imm 31⟩) (st (thr.wv 2 (vec 32 [0x80000000]))) (·.rv 1) = some (vec 32 [0xFFFFFFFF]) ∧
    after (.vcmp ⟨g0, .int .eq, .i64, 1, 2, 2⟩) (st thr) (·.rv 1) = some (BitVec.allOnes 512) ∧
    after (.vsel ⟨g0, 1, 2, 3, 4⟩) (st (((thr.wv 2 0xFF).wv 3 0xF00).wv 4 0xF)) (·.rv 1) = some 0xF0F ∧
    after (.vred ⟨g0, .add, false, .i32, .rctl, 1, 2⟩) (st (thr.wv 2 (vec 32 [1, 2, 3, 4]))) (·.rv 1) = some 10 ∧
    after (.vscan ⟨g0, .add, false, .i32, .rctl, 1, 2⟩) (st (thr.wv 2 (vec 32 [1, 2, 3]))) (fun t => lane 32 (t.rv 1) 15) = some 6 ∧
    after (.vbcast ⟨g0, .i64, 1, 2, 7⟩) (st (thr.wv 2 (5#512 <<< 448))) (·.rv 1) = some (vec 64 [5, 5, 5, 5, 5, 5, 5, 5]) ∧
    after (.vext ⟨g0, .i8, 1, 2, 63⟩) (st (thr.wv 2 (0x80#512 <<< 504))) (·.rg 1) = some 0xFFFFFFFFFFFFFF80 ∧
    after (.vdot ⟨g0, false, .rctl, .i32, .i8, 1, 2, 2⟩) (st (thr.wv 2 (vec 8 [1, 2, 3, 0xFF]))) (·.rv 1) = some 15 := by decide +kernel

theorem witness_VectorLanewise :
    (∃ g w d f, lanewise (st thr) thr (.vadd ⟨g0, .f64, .rup, false, false, 31, 0, 31⟩) = some (g, w, d, f) ∧ Runs (st thr) thr g) ∧
    (∃ g w d f, lanewise (st thr) thr (.vdot ⟨g0, true, .rctl, .i32, .lut4, 1, 2, 3⟩) = some (g, w, d, f) ∧ Runs (st thr) thr g) :=
  ⟨⟨_, _, _, _, rfl, rfl, rfl⟩, _, _, _, _, rfl, rfl, rfl⟩

/-- The last lane of each movement, a type with lanes of four bits, and descriptors that are invalid. -/
theorem witness_VectorMovesAndReductions :
    Runs (st thr) thr g0 ∧ (∃ n, numFmt thr.rf .i8 = some n ∧ n.lane ≠ 4 ∧ 63 < 512 / n.lane) ∧ (∃ n, numFmt thr.rf .e2m1 = some n ∧ 127 < 512 / n.lane) ∧
    (∃ fd fs, numFmt thr.rf .f32 = some fd ∧ numFmt thr.rf .e4m3 = some fs ∧ fs.lane ≤ fd.lane ∧ 3 < fd.lane / fs.lane) ∧
    (∃ fd fs, numFmt thr.rf .e4m3 = some fd ∧ numFmt thr.rf .f32 = some fs ∧ fd.lane < fs.lane ∧ 3 < fs.lane / fd.lane) ∧
    numFmt thr.rf (.fmt 15) = none :=
  ⟨⟨rfl, rfl⟩, ⟨_, rfl, by decide, by decide⟩, ⟨_, rfl, by decide⟩, ⟨_, _, rfl, rfl, by decide, by decide⟩, ⟨_, _, rfl, rfl, by decide, by decide⟩,
    by decide⟩

/-! ### The conclusions of the statements on small states -/

/-- An outcome is the next state given. -/
def gives (o : Host.Outcome State Fault Refusal) (s : State) : Bool :=
  match o with
  | .next t => decide (t = s)
  | _ => false

/-- An outcome is a next state with a property. -/
def onNext (o : Host.Outcome State Fault Refusal) (f : State → Bool) : Bool :=
  match o with
  | .next t => f t
  | _ => false

/-- The last bytes of the scratchpad: 0x27FC0 in g2, the last element of 2 bits in g3. -/
def lm : State := st ((thr.wg 2 0x27FC0).wg 3 0x9FFFF)

/-- The thread of that state. -/
def lmT : Thread := (thr.wg 2 0x27FC0).wg 3 0x9FFFF

theorem lm_ok : (Quiet lmT ∧ Unacked lm (me lm lmT)) ∧ Runs lm lmT g0 ∧ LocalOk lm 0x27FF8 8 ∧ LocalOk lm 0x27FC0 64 ∧ LocalOk lm 0x27FF0 16 ∧ LocalOk lm 0x27FFF 1 := by
  refine ⟨⟨⟨rfl, rfl, rfl, rfl, rfl, rfl⟩, ?_⟩, ⟨rfl, rfl⟩, ?_, ?_, ?_, ?_⟩ <;> first | (unfold Unacked; decide +kernel) | (unfold LocalOk; decide +kernel)

theorem witness_LocalLoadsAndStores :
    (Quiet lmT ∧ Unacked lm (me lm lmT)) ∧ Runs lm lmT g0 ∧ (ea lmT 2 0x38).toNat = 0x27FF8 ∧ LocalOk lm 0x27FF8 (2 ^ (3#2).toNat) ∧ (ea lmT 2 0).toNat = 0x27FC0 ∧
    LocalOk lm 0x27FC0 VSize.b512.bytes ∧ (lmT.rg 2).toNat % 64 = 0 ∧ LocalOk lm 0x27FC0 64 ∧ LocalOk lm 0x27FF0 16 ∧
    (ea lmT 3 0).toNat / (8 / 2) = 0x27FFF ∧ LocalOk lm 0x27FFF 1 ∧
    gives (exec (.ld ⟨g0, s0, .own, 3, false, false, false, 0x38, 1, 2, 0⟩) lm) (lm.setCur (lmT.wg 1 0)) = true ∧
    gives (exec (.stv ⟨g0, s0, .own, .b512, false, 0, 2, 0, 0⟩) lm) lm = true ∧
    onNext (exec (.stn ⟨g0, s0, .own, .b2, 0, 3, 2, 0⟩) (lm.setCur (lmT.wg 4 3))) (fun s => (s.core 0).sp == []) = true ∧
    onNext (exec (.stn ⟨g0, s0, .own, .b2, 0, 3, 4, 0⟩) (lm.setCur (lmT.wg 4 3))) (fun s => (s.core 0).sp == [(0x27FFF, 0xC0)]) = true := by
  obtain ⟨h1, h2, h3, h4, h5, h6⟩ := lm_ok
  exact ⟨h1, h2, by decide, h3, by decide, h4, by decide, h4, h5, by decide, h6, by decide +kernel, by decide +kernel, by decide +kernel, by decide +kernel⟩

/-- 5 in the last word of the scratchpad. -/
def five : State := (st ((thr.wg 2 5).wg 3 7)).spWrite 0 0x27FF8 [5] none

theorem witness_LocalAtomics :
    (Quiet ((thr.wg 2 5).wg 3 7) ∧ Unacked five (me five ((thr.wg 2 5).wg 3 7))) ∧ Runs five ((thr.wg 2 5).wg 3 7) g0 ∧ LocalOk five 0x27FF8 8 ∧
    (ea ((thr.wg 2 5).wg 3 7) 0 0x27FF8).toNat = 0x27FF8 ∧ 0x27FF8 % 8 = 0 ∧
    amoOf (.amoadd ⟨g0, s0, .own, true, 0x27FF8, 1, 0, 3, 0⟩) = some (⟨g0, s0, .own, true, 0x27FF8, 1, 0, 3, 0⟩, .add) ∧
    (amofOf (.amofadd ⟨g0, s0, .own, .f64, 0x27FF8, 1, 0, 3, 0⟩)).isSome = true ∧
    ofBytes (localBytes five 0x27FF8 8) = 5 ∧ uns 64 5 = uns 64 (five.curT?.elim 0 (·.rg 2)) ∧ uns 64 5 ≠ uns 64 (five.curT?.elim 0 (·.rg 3)) ∧
    onNext (exec (.amoadd ⟨g0, s0, .own, true, 0x27FF8, 1, 0, 3, 0⟩) five)
      (fun s => decide (s.curT?.map (·.rg 1) = some 5 ∧ (s.core 0).sp = [(0x27FF8, 12)])) = true ∧
    onNext (exec (.amocas ⟨g0, s0, .own, true, 0x27FF8, 1, 0, 3, 2⟩) five)
      (fun s => decide (s.curT?.map (·.rg 1) = some 5 ∧ (s.core 0).sp = [(0x27FF8, 7)])) = true ∧
    onNext (exec (.amocas ⟨g0, s0, .own, true, 0x27FF8, 1, 0, 3, 3⟩) five)
      (fun s => decide (s.curT?.map (·.rg 1) = some 5 ∧ (s.core 0).sp = [(0x27FF8, 5)])) = true := by
  refine ⟨⟨⟨rfl, rfl, rfl, rfl, rfl, rfl⟩, by unfold Unacked; decide +kernel⟩, ⟨rfl, rfl⟩, ?_, by decide, by decide, rfl, rfl, by decide +kernel, by decide +kernel, by decide +kernel, by decide +kernel, by decide +kernel, by decide +kernel⟩
  unfold LocalOk; decide +kernel

/-- The L1 of core 0 holds the last sector of device memory in M, dirty, and nobody watches, reads or locks it. -/
theorem witness_StoredBytesReadBack :
    ∃ (s : State) (w : Who) (sec : Nat) (x : L1Sec), s.l1 w.core sec = some x ∧ x.st = .m ∧ (∀ r ∈ (s.part? w.p).elim [] (·.readers), r.name ≠ sec / 4) ∧
      (s.entry w.p (sec / 4)).tu = false ∧ (s.part? w.p).elim [] (·.ladings) = [] ∧
      (match (s.l1Put w sec 0xFF 1).l1Read w sec false with | .ok v _ => decide (v = 0x2FF) | _ => false) = true :=
  ⟨(st thr).setL1 0 0x3FFFF (L1Sec.of .m 0x200), ⟨0, 0, 0, 0x400000, thr.tid, none, 0, false, none⟩, 0x3FFFF, L1Sec.of .m 0x200, by decide +kernel, rfl,
    by decide +kernel, by decide +kernel, by decide +kernel, by decide +kernel⟩

theorem acc_of_check {r : AccTr × State} {l : List Seg} {n : Nat} (h : (match r.1 with | .ok a b => decide (a = l) && decide (b = n) | _ => false) = true) :
    r = (.ok l n, r.2) := by
  obtain ⟨a, s'⟩ := r
  cases a <;> simp_all

theorem got_of_check {α : Type} {r : Got α} (h : (match r with | .ok _ _ => true | _ => false) = true) : ∃ a s, r = .ok a s := by
  cases r with
  | ok a s => exact ⟨a, s, rfl⟩
  | busy s => simp at h
  | poison k s => simp at h

theorem got_unacked {α : Type} {r : Got α} {o : OpRef}
    (h : (match r with | .ok _ s => s.cores.all fun e => e.2.acks.all fun x => x.2 ≠ o | _ => false) = true) : ∃ a s, r = .ok a s ∧ Unacked s o := by
  cases r with
  | ok a s =>
    refine ⟨a, s, rfl, fun e he x hx => ?_⟩
    simp only [List.all_eq_true, decide_eq_true_eq] at h
    exact h e he x hx
  | busy s => simp at h
  | poison k s => simp at h

theorem now_of_check {r : AcqRes × State} (h : (match r.1 with | .now _ => true | _ => false) = true) : ∃ v s, r = (.now v, s) := by
  obtain ⟨a, s'⟩ := r
  cases a with
  | now v => exact ⟨v, s', rfl⟩
  | waits i k l => simp at h
  | busy => simp at h

/-- The translation of 0x203000 in the state of the transfers. -/
def trAt (n : Nat) (k : TrKind) : AccTr × State := (code (.nop ⟨g0⟩)).accTranslate 0 codeT (ea codeT 0 0x203000) n k

/-- The state after it. -/
def trS (n : Nat) (k : TrKind) : State := (trAt n k).2.setCur (counted (trAt n k).2 codeT s0)

theorem trAt_holds : ∀ n ∈ [1, 8, 64], ∀ k ∈ [TrKind.load, .store, .look, .flush, .lading, .cinv, .unwatch],
    (match (trAt n k).1 with | .ok a b => decide (a = [⟨none, 0x203000, n, false⟩]) && decide (b = 0x3FFDFD000) | _ => false) = true ∧
    (trAt n k).2.curT? = some codeT ∧ (trAt n k).2.cur = (code (.nop ⟨g0⟩)).cur := by decide +kernel

theorem witness_AddressedAccessesAndCounters :
    Quiet codeT ∧ Runs (code (.nop ⟨g0⟩)) codeT g0 ∧ codeT.trailQ = [] ∧
    trAt 8 .load = (.ok [⟨none, 0x203000, 8, false⟩] 0x3FFDFD000, (trAt 8 .load).2) ∧ (trAt 8 .load).2.curT? = some codeT ∧
    (trS 8 .load).pathStores (owner (trS 8 .load) codeT s0 false) false [⟨none, 0x203000, 8, false⟩] = [] ∧
    (∃ bs s3, State.readSegs (owner (trS 8 .load) codeT s0 false) (.l1 false) [⟨none, 0x203000, 8, false⟩] (trS 8 .load) = .ok bs s3 ∧
      Unacked s3 (me (code (.nop ⟨g0⟩)) codeT)) ∧
    trAt 64 .store = (.ok [⟨none, 0x203000, 64, false⟩] 0x3FFDFD000, (trAt 64 .store).2) ∧ (trAt 64 .store).2.curT? = some codeT ∧
    (∃ u s3, State.storeSegs { owner (trS 64 .store) codeT s0 false with op := some codeT.nextOp } [⟨none, 0x203000, 64, false⟩] (toBytes 64 5)
      (trS 64 .store) = .ok u s3 ∧ Unacked s3 (me (code (.nop ⟨g0⟩)) codeT)) ∧
    onNext (exec (.stv ⟨g0, s0, .virt, .b512, false, 0x203000, 0, 2, 0⟩) (code (.nop ⟨g0⟩)))
      (fun s => decide ((s.l1 0 0x80C0).map (·.st) = some .m)) = true ∧
    after (.scnt ⟨g0, 1, true, 0⟩) (code (.nop ⟨g0⟩)) (·.rg 1) = some 0 :=
  ⟨⟨rfl, rfl, rfl, rfl, rfl, rfl⟩, ⟨rfl, rfl⟩, rfl, acc_of_check (trAt_holds 8 (by decide) .load (by decide)).1, (trAt_holds 8 (by decide) .load (by decide)).2.1,
    by decide +kernel, got_unacked (by decide +kernel), acc_of_check (trAt_holds 64 (by decide) .store (by decide)).1, (trAt_holds 64 (by decide) .store (by decide)).2.1,
    got_unacked (by decide +kernel), by decide +kernel, by decide +kernel⟩

/-- A watch position taken eight times. -/
def eight : State := (code (.nop ⟨g0⟩)).setThread 0 0 { codeT with watch := (List.range 8).map fun k => ⟨k, k, 1, 0⟩ }

/-- The owner of the accesses of that thread, and its next operation. -/
def trW (k : TrKind) : Who := owner (trS 1 k) codeT s0 false

def trMe : OpRef := me (code (.nop ⟨g0⟩)) codeT

/-- The hypotheses of the line paths but for the translation. -/
theorem line_paths_met :
    (((trS 1 .flush).flushLine (trW .flush) 0x203000).lineLeaves 0 0x203000 = false ∧ Unacked ((trS 1 .flush).flushLine (trW .flush) 0x203000) trMe ∧
      (trS 1 .flush).effScope 0 0 0 ≠ 3) ∧
    (((trS 1 .cinv).invalLine (trW .cinv) 0x203000).lineLeaves 0 0x203000 = false ∧ Unacked ((trS 1 .cinv).invalLine (trW .cinv) 0x203000) trMe) ∧
    Unacked ((trS 1 .look).watchLine (trW .look) 0x203000 1).2 trMe ∧ Unacked ((trS 1 .unwatch).unwatchLine (trW .unwatch) 0x203000 1).2 trMe ∧
    Unacked ((trS 1 .look).watchqLine (trW .look) 0x203000 1).2 trMe ∧ Unacked ((trS 1 .lading).relr (trW .lading) 0x203000).2 trMe ∧
    Unacked (trS 1 .look) trMe := by unfold Unacked; decide +kernel

theorem witness_LinePathsAndWatches :
    Quiet codeT ∧ Runs (code (.nop ⟨g0⟩)) codeT g0 ∧
    (∀ k ∈ [TrKind.look, .flush, .lading, .cinv, .unwatch], trAt 1 k = (.ok [⟨none, 0x203000, 1, false⟩] 0x3FFDFD000, (trAt 1 k).2)) ∧
    (trAt 1 .look).2.curT? = some codeT ∧ (lineSecs 0x203000).all ((trS 1 .look).homeFree 0) = true ∧
    (∃ v s3, (trS 1 .lading).acquire (owner (trS 1 .lading) codeT s0 false) 0x203000 0x203000 0x3FFDFD000 0 ⟨0, 0, codeT.nextOp⟩ = (.now v, s3)) ∧
    (∃ s : State, s.thread? 0 0 = some codeT ∧ codeT.watch = [] ∧ (s.entry 0 (0x203000 / 256)).watchers = [] ∧ (s.entry 0 (0x203000 / 256)).inL2 = true ∧ (0 : Word).toNat / 16 = 0) ∧
    (16 : Word).toNat / 16 ≠ 0 ∧ (∃ t, eight.thread? 0 0 = some t ∧ t.watch.all (fun e => e.line ≠ 0x203000 / 256) = true ∧ t.watch.length = 8) ∧
    after (.watch ⟨g0, s0, 0x203000, 1, 0, 0⟩) (code (.nop ⟨g0⟩)) (fun t => (t.rg 1, t.watch.map (·.mask))) = some (0, [1]) ∧
    onNext (exec (.watch ⟨g0, s0, 0x203000, 1, 0, 0⟩) eight) (fun s => decide (s.curT?.map (·.rg 1) = some 2)) = true := by
  refine ⟨⟨rfl, rfl, rfl, rfl, rfl, rfl⟩, ⟨rfl, rfl⟩, fun k hk => acc_of_check (trAt_holds 1 (by decide) k ?_).1, (trAt_holds 1 (by decide) .look (by decide)).2.1,
    by decide +kernel, ?_, ⟨(code (.nop ⟨g0⟩)).modEntry 0 (0x203000 / 256) fun e => { e with inL2 := true }, by decide +kernel, rfl, by decide +kernel, by decide +kernel, by decide⟩, by decide, ⟨_, rfl, by decide, by decide⟩, by decide +kernel, by decide +kernel⟩
  · revert k; decide
  · exact now_of_check (by decide +kernel)

/-! ### Copies, channels, messages -/

/-- The copy operands: 0x27FC0 and 64 bytes, and the destination word of core 0 at offset 64. -/
def cpT : Thread := ((thr.wg 2 0x27FC0).wg 3 64).wg 4 (BitVec.ofNat 64 (64 * 2 ^ 20))

/-- The state with them, and the bytes 1, 2, 3 at the source. -/
def cp : State := (st cpT).spWrite 0 0x27FC0 [1, 2, 3] none

/-- The copy fills the last granule of the source; the updates of one element are the sequenced and the separate ones. -/
theorem witness_CopiesLeave :
    Quiet cpT ∧ Runs cp cpT g0 ∧ CopyOk cp cpT .own (cpT.rg 2) (cpT.rg 3) (cpT.rg 4) 0 1 64 false ∧ 64 % 64 = 0 ∧
    CopyOk cp cpT .own (cpT.rg 2) (cpT.rg 3) (cpT.rg 4) 0 (elemBytes .f64) 64 true ∧ CopyOk cp cpT .own (cpT.rg 2) (cpT.rg 3) (cpT.rg 4) 0 (elemBytes .i8) 64 false ∧
    onNext (exec (.send ⟨g0, s0, .own, 4, 2, 3, 4⟩) cp) (fun s => s.agenda.length == 2) = true ∧
    onNext (exec (.sendadd ⟨g0, s0, .own, .i32, false, false, 4, 2, 3, 4⟩) cp) (fun s => s.agenda.length == 17) = true := by
  refine ⟨⟨rfl, rfl, rfl, rfl, rfl, rfl⟩, ⟨rfl, rfl⟩, ?_, rfl, ?_, ?_, by decide +kernel, by decide +kernel⟩ <;> unfold CopyOk LocalOk <;> decide +kernel

/-- A region that may change the split, its thread with small numbers in g2, g3, g4. -/
def chT : Thread := ((thr.wg 2 64).wg 3 128).wg 4 1

/-- The state, channel 5 open from 0xC0 on. -/
def ch : State :=
  ({ st chT with regions := [(0x400000, { Region.blank with lmperm := true })] }).setChan 0 5
    ⟨0, 1, false, true, 64, 0, 0xC0, 0, 0x400000⟩

/-- A message of post 0. -/
def msg0 : InMsg := ⟨⟨0, 7, 0⟩, 0, false, ⟨0, false, false, none, 0x400000⟩⟩

/-- A consignment of mode 1 that has nothing yet. -/
def cons1 : Consign := ⟨1, [], [], false, false, 0, false, false, 0, 0, ⟨0, 0⟩, none, msg0, .running, none, false, false⟩

/-- A packet of 64 bytes at offset 0, and one at offset 1. -/
def pkt (off : Nat) : EvPacket := ⟨⟨0, 0, 0⟩, 0x400000, 0, 0, 5, off, List.replicate 64 7, true⟩

theorem witness_ChannelsAndLocalMemorySplit :
    Quiet chT ∧ Runs ch chT g0 ∧ (chT.rg 4).toNat % 64 ≠ 0 ∧ (chT.rg 2).toNat % 64 = 0 ∧ (chT.rg 3).toNat = 128 ∧ 128 ≤ (ch.core 0).spsz ∧
    (ch.chan 0 5).isOpen = true ∧ (ch.chan 0 4).isOpen = false ∧
    (∀ y ∈ (ch.core 0).chans.toList, y.isOpen = true → y.base + y.len ≤ 64 ∨ 64 + 128 ≤ y.base) ∧
    ((chT.rg 3).toNat % 64 ≠ 0 ∨ (ch.chan 0 5).len < (chT.rg 3).toNat) ∧
    (∃ r, ch.region? chT.region = some r ∧ r.lmperm = true) ∧ (∃ r, (st thr).region? thr.region = some r ∧ r.lmperm = false) ∧ chT.buffered = false ∧
    (∃ t : Thread, t.buffered = true ∧ Runs (st t) t g0) ∧ (3 : BitVec 2) ≠ (ch.core 0).l1sz ∧ (∀ y ∈ (lm.core 0).chans.toList, y.isOpen = false) ∧
    (∀ e ∈ lm.threads, e.2.ops = []) ∧
    after (.chopen ⟨g0, s0, false, 4, 1, 2, 3⟩) ch (·.rg 1) = some 0 ∧ after (.chopen ⟨g0, s0, false, 5, 1, 2, 3⟩) ch (·.rg 1) = some 9 ∧
    after (.chopen ⟨g0, s0, false, 4, 1, 4, 3⟩) ch (·.rg 1) = some 7 ∧
    after (.chclose ⟨g0, s0, 4, 1⟩) ch (·.rg 1) = some 6 ∧ after (.chclose ⟨g0, s0, 5, 1⟩) ch (·.rg 1) = some 0 ∧
    after (.lmcfg ⟨g0, 1, 3⟩) (ch.setChan 0 5 .closed) (·.rg 1) = some 0 ∧ after (.lmcfg ⟨g0, 1, 0⟩) (st thr) (·.rg 1) = some 10 := by
  refine ⟨⟨rfl, rfl, rfl, rfl, rfl, rfl⟩, ⟨rfl, rfl⟩, ?_, ?_, ?_, ?_, ?_, ?_, ?_, ?_, ⟨_, rfl, rfl⟩, ⟨_, rfl, rfl⟩, rfl,
    ⟨{ thr with cons := some cons1 }, rfl, rfl, rfl⟩, ?_⟩ <;> decide +kernel

/-- Channel 6 does arithmetic on the 64 bytes at 0x100. -/
def ar : State := ch.setChan 0 6 ⟨0xFFFF, 1, true, true, 64, 64, 0x100, 0, 0x400000⟩

/-- An update of one element. -/
def upd (chan : BitVec 4) (off : Nat) (seq : Option (BitVec 16)) : EvUpdate := ⟨⟨0, 0, 0⟩, 0x400000, 0, 0, chan, off, .add, .i16, false, [0xFFFF], seq⟩

/-- A copy that has sent its one packet, acknowledged or not. -/
def copyOp (acked : Nat) : CopyOp := ⟨0, .own, 64, 0, 0, 5, 0, none, none, 64, 0, true, 1, acked, 0, 64⟩

/-- An operation of a kind. -/
def opOf (k : OpKind) : Op := ⟨0, 0, some 0, 0, 0, [], 0x200000, 0, k, none, none, false, none⟩

/-- The thread with that operation. -/
def withOp (s : State) (k : OpKind) : State := s.modThread 0 0 fun t => t.addOp (opOf k)

/-- A store of eight bytes to another core's scratchpad. -/
def remote (off : Nat) : EvRemote := ⟨⟨0, 0, 0⟩, 0x400000, 1, 1, off, .store (List.replicate 8 9), none⟩

/-- The update beyond the sequence number 0xFFFF is held; the place of a watermark that covers the packet; the last eight bytes, and one more. -/
theorem witness_CopiesArrive :
    ch.guestLcn 0x400000 0 = false ∧ (ch.chan 0 4).isOpen = false ∧ (ch.chan 0 5).arith = false ∧ (pkt 0).off + (pkt 0).bytes.length ≤ (ch.chan 0 5).len ∧
    (ch.chan 0 5).len < (pkt 1).off + (pkt 1).bytes.length ∧ ch.spHeld 0 0xC0 64 = false ∧ (pkt 0).off / 64 * 64 < (ch.chan 0 5).wm + 8192 ∧
    (ar.chan 0 6).isOpen = true ∧ (ar.chan 0 6).arith = true ∧ (upd 6 62 none).off + elemBytes .i16 ≤ (ar.chan 0 6).len ∧
    (ar.chan 0 6).len < (upd 6 63 none).off + elemBytes .i16 ∧ (ar.chan 0 5).arith = false ∧ ar.spHeld 0 (0x100 + 62) 2 = false ∧
    1 ≤ ((0 : BitVec 16) - (ar.chan 0 6).seqnext).toNat ∧ ((0 : BitVec 16) - (ar.chan 0 6).seqnext).toNat ≤ 32767 ∧ (ar.core 0).hold.length < 16 ∧
    (∃ s : State, ∃ t : Thread, ∃ o : Op, s.thread? 0 0 = some t ∧ t.op? 0 = some o ∧ o.kind = .copy (copyOp 1) ∧
      (copyOp 1).complete s (s.region? t.region) = true ∧ (copyOp 1).refused = 0 ∧ (copyOp 0).complete s (s.region? t.region) = false) ∧
    (remote 0x27FF8).off + 8 ≤ (ar.core 1).spsz ∧ ar.chanWaits 1 0x27FF8 8 = false ∧ ar.spHeld 1 0x27FF8 8 = false ∧ (ar.core 1).spsz < (remote 0x27FF9).off + 8 ∧
    onNext (exec (.packetArrival (pkt 0)) ch) (fun s => decide (memBytes (s.core 0).sp 0xC0 64 = List.replicate 64 7 ∧ (s.chan 0 5).wm = 64)) = true ∧
    onNext (exec (.packetArrival (pkt 1)) ch) (fun s => decide (s.cores = ch.cores)) = true ∧
    onNext (exec (.updateArrival (upd 6 62 none)) ar) (fun s => decide ((s.core 0).sp = [(0x13E, 0xFF), (0x13F, 0xFF)])) = true ∧
    onNext (exec (.updateArrival (upd 6 62 (some 0))) ar) (fun s => decide ((s.core 0).sp = [] ∧ (s.core 0).hold.length = 1)) = true ∧
    onNext (exec (.sendComplete ⟨0, 0, 0⟩) (withOp (ar.setChan 0 5 ⟨0, 1, false, true, 64, 64, 0xC0, 0, 0x400000⟩) (.copy (copyOp 1))))
      (fun s => decide (s.curT?.map (·.ops) = some [])) = true ∧
    onNext (exec (.remoteStoreArrival (remote 0x27FF8)) (withOp ar (.remote 1 1 0x27FF8 (.store (List.replicate 8 9)) true)))
      (fun s => decide ((s.core 1).sp.length = 8 ∧ s.curT?.map (·.ops) = some [])) = true := by
  refine ⟨?_, ?_, ?_, ?_, ?_, ?_, ?_, ?_, ?_, ?_, ?_, ?_, ?_, ?_, ?_, ?_,
    ⟨withOp (ar.setChan 0 5 ⟨0, 1, false, true, 64, 64, 0xC0, 0, 0x400000⟩) (.copy (copyOp 1)), _, _, rfl, rfl, rfl, ?_, rfl, ?_⟩, ?_⟩ <;> decide +kernel

/-- A message of post 63 to core 0. -/
def msgT : Thread := (thr.wg 5 (BitVec.ofNat 64 (63 * 2 ^ 18))).wg 6 63

theorem witness_MessagesLeave :
    Quiet msgT ∧ Runs (st msgT) msgT g0 ∧ (∃ r, (st msgT).region? msgT.region = some r ∧ (st msgT).origOf r 0 = some 0) ∧
    ((msgT.rg 5).extractLsb' 18 6).toNat = 63 ∧ (msgT.rg 5).extractLsb' 24 40 = 0 ∧ ((msgT.rg 5).extractLsb' 0 18).toNat = 0 ∧ (msgT.rg 6).toNat < 64 ∧
    (msgT.rg 2).toNat < 2 ^ 48 ∧
    onNext (exec (.sendm ⟨g0, s0, 58, 5⟩) (st msgT)) (fun s => s.agenda.length == 1) = true ∧
    onNext (exec (.spawnt ⟨g0, s0, 58, 6, 2⟩) (st msgT)) (fun s => s.agenda.length == 1) = true :=
  ⟨⟨rfl, rfl, rfl, rfl, rfl, rfl⟩, ⟨rfl, rfl⟩, ⟨_, rfl, by decide +kernel⟩, by decide, by decide, by decide, by decide, by decide, by decide +kernel, by decide +kernel⟩

/-! ### Tensor instructions and the engine -/

/-- A manifest of the own scratchpad with one dimension of an extent (R228). -/
def manif (ty : ElemType) (base n : Nat) : V512 :=
  BitVec.ofNat 512 (base + (n + 2 ^ 24) * 2 ^ 128 + ((ElemType.code ty).toNat + 2 ^ 6 + 2 ^ 8) * 2 ^ 384)

/-- m0 to m2 name two elements each, m3 one, at 0, 64, 128 and 192. -/
def tenT (ty tb : ElemType) : Thread := (((thr.wm 0 (manif ty 0 2)).wm 1 (manif ty 64 2)).wm 2 (manif tb 128 2)).wm 3 (manif ty 192 1)

/-- An instruction that executes in that thread. -/
def ten (ty tb : ElemType) (i : Instr) : State :=
  let s := st (tenT ty tb)
  { s with cur := { s.cur with instr := i } }

/-- The hypotheses of the completion of a tensor instruction, and what follows, evaluated. -/
def tensorCheck (i : Instr) (s : State) (t : Thread) : Bool :=
  match tensor i with
  | none => false
  | some (g, str, rm, d, srcs, scaled) =>
    let x : TensorOp := ⟨i, t.rm d, ((srcs.map fun y => t.rm y.1)[0]?).getD 0, ((srcs.map fun y => t.rm y.1)[1]?).getD 0, ((srcs.map fun y => t.rm y.1)[2]?).getD 0,
      t.fmt, some (s.core s.cur.core).lut, t.fixRm rm, 0, 0, 0⟩
    let o := s.newOp t (some str.stream) str.pmask (s.effScope s.cur.core str.scope
      ((t.rm d :: srcs.map fun y => t.rm y.1).foldl (fun a m => wider a (spaceFloor m)) 0)) [] (.tensor { x with lut := none })
    let r := tensorLoop ⟨s.cur.core, s.cur.slot, (counted s t str).addOp o, o.scope, x, ⟨false, s.cur.no, some (str.stream, t.nextOp)⟩⟩ x.total x (s.setCur ((counted s t str).addOp o))
    decide (g = g0) && decide ((s.core s.cur.core).shrink = none) && agree t i && (firstBad s s.cur.core t.rf (⟨t.rm d, true, false, scaled⟩ :: srcs.map fun y => ⟨t.rm y.1, false, y.2, false⟩)).isNone
      && (match r.1 with | .done => true | _ => false)
      && gives (exec i s) ((r.2.2.modThread s.cur.core s.cur.slot fun t => { t with rctl := t.rctl ||| (r.2.1.fl.setWidth 64 <<< 16) }).finishOp
        s.cur.core s.cur.slot t.nextOp)

theorem witness_TensorInstructions :
    Quiet (tenT .i32 .i32) ∧ (tenT .i32 .i32).st ≠ .stopped ∧ (∀ i, Runs (ten .i32 .i32 i) (tenT .i32 .i32) g0 ∧ (ten .i32 .i32 i).cur.instr = i) ∧
    (∀ i ∈ [Instr.mew ⟨g0, s0, .add, false, false, .i32, .rctl, 0, 1, 2⟩, .mred ⟨g0, s0, .add, false, .i32, .rctl, 1, 3, 1⟩, .mcvt ⟨g0, s0, false, .rctl, 0, 1⟩,
        .mcopy ⟨g0, s0, 0, 1⟩, .mgath ⟨g0, s0, false, .i32, .rctl, 0, 1, 2⟩, .mscat ⟨g0, s0, true, false, .i32, .rctl, 0, 1, 2⟩],
      tensorCheck i (ten .i32 .i32 i) (tenT .i32 .i32) = true) ∧
    (∀ i ∈ [Instr.mfma ⟨g0, s0, false, .f32, .rctl, 0, 1, 2, 2⟩], tensorCheck i (ten .f32 .f32 i) (tenT .f32 .f32) = true) ∧
    (∃ n, firstBad (st thr) 0 thr.rf [⟨thr.rm 0, true, false, false⟩, ⟨thr.rm 1, false, false, false⟩] = some n ∧ n ≠ 8) ∧
    Runs (st thr) thr g0 ∧ onNext (exec (.mcopy ⟨g0, s0, 0, 1⟩) (st thr)) (fun s => decide (s.curT?.bind (·.stop) |>.map (·.info.cause) |> (· = some 0x1F))) = true := by
  refine ⟨⟨rfl, rfl, rfl, rfl, rfl, rfl⟩, by decide, fun i => ⟨⟨rfl, rfl⟩, rfl⟩, ?_, ?_, ?_, ⟨rfl, rfl⟩, ?_⟩
  · decide +kernel
  · decide +kernel
  · exact ⟨1, by decide +kernel, by decide⟩
  · decide +kernel
/-- An entry that was evicted, with its source at 0x203000. -/
def gone : Residency := ⟨.evicted, false, .i8, 0, false, false, false, false, 1, 0, 0, 1, 0x203000, 0x400000, 0, 0, 0, [], [], 0, none, false⟩

/-- A table in which entry 0 alone is free. -/
def fullTable (n k : Nat) : List ((Bool × Nat) × Residency) := (List.range' k n).map fun i => ((false, i), gone)

theorem alook_fullTable (n k i : Nat) : alook (false, i) (fullTable n k) = if k ≤ i ∧ i < k + n then some gone else none := by
  induction n generalizing k with
  | zero => simp [fullTable, alook]
  | succ n ih =>
    have h := ih (k + 1)
    simp only [fullTable, List.range'_succ, List.map_cons, alook] at h ⊢
    by_cases e : k = i
    · simp [e]
    · simp [e, h]; congr 1; apply propext; omega

/-- The cluster's table is full but for entry 0, and the region may hold one slot. -/
def xresS : State := ((code (.nop ⟨g0⟩)).modRegion 0x400000 fun r => { r with rquota := 1 }).modCluster 0 fun x => { x with table := fullTable 2047 1 }

/-- The free entries of that table. -/
theorem free_fullTable (s : State) (h : (s.cluster 0).table = fullTable 2047 1) :
    ((List.range 2048).filter fun i => (s.resid? 0 (false, i)).all fun r => r.st == .revoked || r.st == .empty) = [0] := by
  have e : ∀ i ∈ List.range 2048, ((s.resid? 0 (false, i)).all fun r => r.st == .revoked || r.st == .empty) = decide (i = 0) := by
    intro i hi
    simp only [List.mem_range] at hi
    rw [State.resid?, h, alook_fullTable]
    by_cases z : i = 0
    · simp [z]
    · rw [if_pos (by omega)]; simp [z, gone]
  rw [List.filter_congr e]
  decide +kernel

theorem choose_one (s : State) (a : Nat) : s.choose [a] = (some a, s.freeWord.2) := by simp [State.choose, Nat.mod_one]

theorem place_of_check {r : TrRes × State} {pa n : Nat} {sh : Bool}
    (h : (match r.1 with | .ok a b c => decide (a = pa) && decide (b = sh) && decide (c = n) | _ => false) = true) : r = (.ok pa sh n, r.2) := by
  obtain ⟨a, s'⟩ := r
  cases a <;> simp_all

/-- The operation and the state in which XRES decides. -/
def xresOp : Op := xresS.newOp codeT (some 0) 0 (xresS.effScope 0 0 0) [] (.res 1 (.xres .i8 0 false 0x203000 1 0))

def xresAt : State := (xresS.translateR 0 0x400000 0x203000 .pathR).2.enterOp xresOp

theorem xres_of {s s1 s2 : State} {c pa room n i : Nat} {sh : Bool} {t : Thread} {ty : ElemType} {sk : BitVec 2} {pin : Bool} {ea : Word} {fd : BitVec 32}
    {ref : OpRef} {cont : Nat} (h1 : s.translateR c t.region ea .pathR = (.ok pa sh room, s1)) (h2 : s1.xresFit c t.region ty sk ea n fd = .ok cont)
    (h4 : (!(s1.quotaRegions (clusterOf c) (s.sideOf c)).contains t.region && decide (16 ≤ (s1.quotaRegions (clusterOf c) (s.sideOf c)).length)) = false)
    (h5 : pin = false) (hv : t.visits c = false)
    (h6 : s1.choose ((List.range 2048).filter fun i => (s1.resid? (clusterOf c) (false, i)).all fun r => r.st == .revoked || r.st == .empty) = (some i, s2))
    (h7 : (s2.alloc (clusterOf c) (s.sideOf c) t.region (slotsOf cont sk n)).1 = true) (p : Bool × Nat → Residency → State → Bool)
    (h8 : (let s3 := (s2.alloc (clusterOf c) (s.sideOf c) t.region (slotsOf cont sk n)).2
           let r : Residency := ⟨.loading, s.sideOf c, ty, sk, false, true, pin, false, n, ((s3.resid? (clusterOf c) (false, i)).elim 0 (·.gen)) + 1,
             (s3.engNo t.region (t.engine c)).getD 0, slotsOf cont sk n, pa, t.region, s3.tagOf t.region, fd, 0, [], (s3.core c).lut, 0, none, sh⟩
           let x := s3.armAll (s3.partOf c) (s3.recordEng (clusterOf c) (false, i)) i r (s3.watched c r)
           x.1 && p (false, i) r (x.2.startLoad (clusterOf c) (false, i) r ref)) = true) :
    ∃ r s3, s.xres c t ty sk pin ea n fd ref = .taken (false, i) r s3 ∧ p (false, i) r s3 = true := by
  unfold State.xres
  simp only [h1, h2]
  rw [if_neg (by rw [h4]; decide), if_neg (by simp [h5])]
  simp only [hv, h6]
  generalize hx : s2.alloc (clusterOf c) (s.sideOf c) t.region (slotsOf cont sk n) = x at h7 h8 ⊢
  obtain ⟨a, s3⟩ := x
  simp only at h7 h8
  subst h7
  simp only [Bool.and_eq_true] at h8 ⊢
  obtain ⟨ha, hp⟩ := h8
  split
  · next e => rw [e] at ha; simp at ha
  · next e => rw [e] at hp; exact ⟨_, _, rfl, hp⟩

theorem xres_taken : ∃ r s3, xresAt.xres 0 (codeT.addOp xresOp) .i8 0 false 0x203000 1 0 ⟨0, 0, 0⟩ = .taken (false, 0) r s3 ∧
    (s3.curT?.isSome && decide (s3.cur = xresS.cur)) = true := by
  have h : xresAt.translateR 0 (codeT.addOp xresOp).region 0x203000 .pathR =
      (.ok 0x203000 false 0x3FFDFD000, (xresAt.translateR 0 (codeT.addOp xresOp).region 0x203000 .pathR).2) := place_of_check (by decide +kernel)
  have e : ((xresAt.translateR 0 (codeT.addOp xresOp).region 0x203000 .pathR).2.cluster 0).table = fullTable 2047 1 := by decide +kernel
  exact xres_of (cont := 8) h (by decide +kernel) (by decide +kernel) rfl (by decide +kernel) (by rw [show clusterOf 0 = 0 from rfl, free_fullTable _ e, choose_one]) (by decide +kernel)
    (fun _ _ s => s.curT?.isSome && decide (s.cur = xresS.cur)) (by decide +kernel)

/-- A thread whose view 0 is a tile of 32 rows and columns of 32 bits, view 1 free; g2 holds 31, g3 the shape of 32 by 32, g4 33 rows. -/
def viewT : Thread :=
  ((((thr.setView 0 ⟨.tile 0 true, true, List.replicate 1024 5⟩).setShape 0 (32 + 32 * 64)).wg 2 31).wg 3 (32 + 32 * 64)).wg 4 (33 + 32 * 64)

theorem witness_AccumulatorViewsAndMoves :
    HasEngine (st viewT) ∧ Runs (st viewT) viewT g0 ∧ (viewT.view 0).place = .tile 0 true ∧ shapeRows (viewT.shape 0) = 32 ∧ shapeCols (viewT.shape 0) = 32 ∧
    (viewT.view 0).elems.length = 32 * 32 ∧ (viewT.rg 2).toNat < 32 ∧ viewT.shape 1 = 0 ∧ shapeRows (viewT.shape 1) = 0 ∧
    32 < (viewT.rg 4).toNat % 64 ∧ (viewT.rg 3).toNat % 64 = 32 ∧ (viewT.rg 3).toNat / 64 % 64 = 32 ∧ (viewT.rg 3).toNat / 4096 % 4 = 0 ∧
    after (.acfg ⟨g0, 1, 4, 1⟩) (st viewT) (fun t => (t.rg 1, t.shape 1)) = some (0x700000000000000, 0) ∧
    after (.acfg ⟨g0, 1, 3, 1⟩) (st viewT) (fun t => (t.rg 1, t.shape 1)) = some (0, 32 + 32 * 64) ∧
    after (.aget ⟨g0, 1, 0⟩) (st viewT) (fun t => ((t.rg 1).extractLsb' 0 16, (t.rg 1).getLsbD 18)) = some (32 + 32 * 64, true) ∧
    after (.arowi ⟨g0, 0, 30, 2⟩) (st viewT) (fun t => (t.elem 0 30 0, t.elem 0 31 0)) = some (5, 0) ∧
    after (.acoli ⟨g0, 0, 30, 2⟩) (st viewT) (fun t => (t.elem 0 0 30, t.elem 0 0 31)) = some (5, 0) ∧
    after (.arowo ⟨g0, 30, 0, 2⟩) (st viewT) (fun t => (t.rv 30, t.rv 31)) = some (vec 32 (List.replicate 16 5), vec 32 (List.replicate 16 5)) ∧
    after (.acolo ⟨g0, 30, 0, 2⟩) (st viewT) (fun t => (t.rv 30, t.rv 29)) = some (vec 32 (List.replicate 16 5), 0) ∧
    after (.azero ⟨g0, 1⟩) (st viewT) (fun t => t.stop.map (·.info.cause)) = some (some 0x29) ∧
    after (.afree ⟨g0, 0⟩) (st viewT) (·.ashape) = some 0 := by
  exact ⟨by unfold HasEngine; decide +kernel, ⟨rfl, rfl⟩, by decide +kernel⟩

/-- Entry 0 of the table, with one tile of i8. -/
def res0 (x : ResSt) (pin : Bool) : Residency :=
  ⟨x, false, .i8, 0, false, true, pin, false, 1, 0, 0, 1, 0x203000, 0x400000, 0, 0, 0, List.replicate 2048 1, List.replicate 16 0, 0, none, false⟩

/-- A state with that entry, and a region that may hold one slot or none. -/
def resS (x : ResSt) (pin : Bool) (quota : Nat) : State :=
  ((code (.nop ⟨g0⟩)).modRegion 0x400000 fun r => { r with rquota := quota }).setResid 0 (false, 0) (res0 x pin)

theorem look_of_check {r : Except (BitVec 8) ((Bool × Nat) × Residency)} {k : Bool × Nat} {z : Residency}
    (h : (match r with | .ok x => decide (x.1 = k) && decide (x.2 = z) | _ => false) = true) : r = .ok (k, z) := by
  cases r with
  | error e => simp at h
  | ok x => obtain ⟨a, b⟩ := x; simp at h; rw [h.1, h.2]

theorem handle_resS : ∀ x ∈ [ResSt.resident, .pinned, .loading], ∀ pin ∈ [true, false], ∀ quota ∈ [0, 1],
    Handle (resS x pin quota) codeT ⟨g0, s0, 1, 0⟩ (false, 0) (res0 x pin) := by
  have h : ∀ x ∈ [ResSt.resident, .pinned, .loading], ∀ pin ∈ [true, false], ∀ quota ∈ [0, 1],
      ((resS x pin quota).engineEnabled 0 && (match (resS x pin quota).lookup 0 codeT (codeT.rg 0) with
          | .ok z => decide (z.1 = (false, 0)) && decide (z.2 = res0 x pin)
          | _ => false) && ((resS x pin quota).ancestors (res0 x pin).owner).contains codeT.region) = true := by decide +kernel
  intro x hx pin hp quota hq
  have := h x hx pin hp quota hq
  simp only [Bool.and_eq_true] at this
  exact ⟨this.1.1, ⟨rfl, rfl⟩, ⟨rfl, rfl, rfl, rfl, rfl, rfl⟩, look_of_check this.1.2, this.2⟩

/-- The counters, and the entry's pins at the quota of one slot and beyond one of none. -/
theorem witness_EngineStatusAndResidencies :
    HasEngine (resS .resident false 1) ∧ Runs (resS .resident false 1) codeT g0 ∧
    (∃ r, (resS .resident false 1).resid? 0 (false, ((codeT.rg 0).extractLsb' 1 11).toNat) = some r ∧ r.eng = ((codeT.rg 0).extractLsb' 12 14).toNat ∧
      r.ttag = (resS .resident false 1).tagOf codeT.region ∧ (codeT.rg 0).getLsbD 0 = (resS .resident false 1).sideOf 0) ∧
    (∀ x ∈ [ResSt.resident, .pinned, .loading], ∀ pin ∈ [true, false], ∀ quota ∈ [0, 1], Handle (resS x pin quota) codeT ⟨g0, s0, 1, 0⟩ (false, 0) (res0 x pin)) ∧
    (resS .resident false 1).pinCharge 0 false 0x400000 + 1 ≤ (resS .resident false 1).quotaOf 0x400000 ∧
    (resS .resident false 0).quotaOf 0x400000 < (resS .resident false 0).pinCharge 0 false 0x400000 + 1 ∧
    (resS .resident false 1).resInUse 0 (false, 0) = false ∧ (resS .resident false 1).resid? 0 (false, 0) = some (res0 .resident false) ∧
    (res0 .resident false).loader = none ∧
    after (.xpin ⟨g0, s0, 1, 0⟩) (resS .resident false 1) (·.rg 1) = some 0 ∧
    after (.xpin ⟨g0, s0, 1, 0⟩) (resS .resident false 0) (·.rg 1) = some 0xB00000000000000 ∧
    after (.xunpin ⟨g0, s0, 1, 0⟩) (resS .pinned true 0) (·.rg 1) = some 0 ∧
    after (.xrevk ⟨g0, s0, 1, 0⟩) (resS .resident false 0) (·.rg 1) = some 0 ∧
    after (.xload ⟨g0, s0, 1, 0⟩) (resS .loading false 0) (·.rg 1) = some 0x900000000000000 ∧
    after (.xload ⟨g0, s0, 1, 0⟩) (resS .resident false 0) (fun t => (t.rg 1, t.ops.length)) = some (0, 1) ∧
    after (.xqry ⟨g0, 1, 0⟩) (resS .resident false 0) (fun t => (t.rv 1).extractLsb' 0 3) = some 2 ∧
    after (.xstat ⟨g0, 10, 1⟩) (resS .resident false 0) (·.rg 1) = some 2047 := by
  refine ⟨by unfold HasEngine; decide +kernel, ⟨rfl, rfl⟩, ⟨res0 .resident false, by decide +kernel, by decide +kernel, by decide +kernel, by decide +kernel⟩,
    handle_resS, ?_⟩
  decide +kernel

/-- The rows of the residency table's events. -/
theorem witness_ResidenciesComeAndGo :
    (HasEngine xresS ∧ Runs xresS codeT g0 ∧ Quiet codeT ∧ ((0 : Word).toNat = 0 ∨ 2048 < (0 : Word).toNat) ∧ 2048 < (2049 : Word).toNat ∧
      (∃ n, (xresS.translateR 0 0x400000 0x203000 .pathR).2.xresFit 0 0x400000 .i8 0 0x203000 1 0 = .ok n) ∧ (∃ s2, xresS.translateR 0 0x400000 0x203000 .pathR = (.ok 0x203000 false 0x3FFDFD000, s2) ∧
        s2.curT? = some codeT ∧ s2.cur = xresS.cur) ∧
      (∃ r s3, xresAt.xres 0 (codeT.addOp xresOp) .i8 0 false 0x203000 1 0 ⟨0, 0, 0⟩ = .taken (false, 0) r s3 ∧
        (s3.curT?.isSome && decide (s3.cur = xresS.cur)) = true)) ∧
    (∀ x ∈ [ResSt.loading, .resident, .pinned, .evicted], (resS x false 1).resid? 0 (decide (2048 ≤ 0), 0 % 2048) = some (res0 x false)) ∧
    (∃ t o, (withOp (resS .resident false 1) .drain).thread? 0 0 = some t ∧ t.op? 0 = some o ∧ o.kind = .drain) ∧
    (resS .resident false 1).enginePasses 0 = false ∧
    onNext (exec (.residencyLoadComplete ⟨0, 0⟩) (resS .loading false 1)) (fun s => decide ((s.resid? 0 (false, 0)).map (·.st) = some .resident)) = true ∧
    onNext (exec (.staleMark ⟨0, 0⟩) (resS .loading false 1)) (fun s => decide ((s.resid? 0 (false, 0)).map (fun r => (r.st, r.mark)) = some (.loading, true))) = true ∧
    onNext (exec (.tileError ⟨0, 0, 0⟩) (resS .resident false 1)) (fun s => decide ((s.resid? 0 (false, 0)).map (fun r => (r.st, r.held)) = some (.evicted, false))) = true ∧
    onNext (exec (.residencyLoadFault ⟨0, 0, 0x10, 0, none⟩) (resS .loading false 1)) (fun s => decide ((s.resid? 0 (false, 0)).map (·.held) = some false)) = true ∧
    onNext (exec (.engineConfigurationWrite ⟨0, 0x4FFFF⟩) (resS .resident false 1)) (fun s => decide ((s.cluster 0).cfg = 0x4FFF3)) = true := by
  refine ⟨⟨by unfold HasEngine; decide +kernel, ⟨rfl, rfl⟩, ⟨rfl, rfl, rfl, rfl, rfl, rfl⟩, by decide, by decide, ⟨8, by decide +kernel⟩,
    ⟨_, place_of_check (by decide +kernel), by decide +kernel, by decide +kernel⟩, xres_taken⟩, ?_, ⟨_, opOf .drain, rfl, rfl, rfl⟩, ?_⟩ <;> decide +kernel

/-- A manifest of the own scratchpad with two dimensions of rows of n. -/
def manif2 (ty : ElemType) (base n m : Nat) : V512 :=
  BitVec.ofNat 512 (base + (n + 2 ^ 24) * 2 ^ 128 + (m + n * 2 ^ 24) * 2 ^ 192 + ((ElemType.code ty).toNat + 2 ^ 6 + 2 * 2 ^ 8) * 2 ^ 384)

/-- A view of one row and two columns of the integer mode in a tile, and the manifests of a pass by one tile: A in m0, C in m1. -/
def passT : Thread :=
  let t := (codeT.setView 0 ⟨.tile 0 true, false, [5, 6]⟩).setShape 0 (1 + 2 * 64 + 4096)
  (t.wm 0 (manif2 .i8 0 64 1)).wm 1 (manif2 .i32 0x1000 2 1)

/-- The bytes of A are 1 and 2. -/
def passS : State := ((resS .resident false 1).setCur passT).spWrite 0 0 [1, 2] none

/-- The hypotheses of a pass and what follows, evaluated; the engine's cycle counters, which are free, are left out. -/
def passCheckB (acc : Bool) (x : XmmX) (s : State) (t : Thread) : Bool :=
  let m : MatOp := ⟨acc, x.d, t.rm x.a, x.drain.map fun d => (t.rm d.1, d.2), none, t.rg x.b, t.fmt, none, none, 0, 0, 0, x.str.stream, none⟩
  match s.passCheck s.cur.core t m with
  | .error _ => false
  | .ok y => match s.passState s.cur.core s.cur.slot y with
    | .go s1 => match s1.curT? with
      | none => false
      | some t1 =>
        let floor := (m.a :: m.drain.toList.map (·.1)).foldl (fun a b => wider a (spaceFloor b)) 0
        let m1 : MatOp := { m with dop := x.drain.map fun _ => t.nextOp + 1 }
        let n : MatOp := { m1 with wts := some (y.key, y.res), lut := some (s1.core s.cur.core).lut }
        let o := s.newOp t (some x.str.stream) x.str.pmask (s.effScope s.cur.core x.str.scope floor) [] (.mat m1)
        let s2 := s1.setCur ((t1.countClamp (s1.clamps s.cur.core x.str.scope floor)).addOp o)
        let s3 : State := ((match n.dop with
          | some d => s2.enterOp { o with id := d, kind := .drain }
          | none => s2).modCur fun t' => (if acc then t' else t'.zeroSpan y.views).modOp t.nextOp fun o => { o with kind := .mat n }).runPass
            s.cur.core s.cur.slot { o with kind := .mat n } n y y.res
        decide (s1.cur = s.cur ∧ t1.nextOp = t.nextOp ∧ t1.ops = [] ∧ (s.core s.cur.core).shrink = none) && onNext (exec (if acc then .xacc x else .xmm x) s) fun z =>
          decide (({ z with clusters := [] } : State) = { s3 with clusters := [] })
    | _ => false

/-- The pass adds 1 · 1 + 2 · 1 to the elements that XACC finds; XMM begins at zero and drains. -/
theorem witness_PassesRun :
    HasEngine passS ∧ Runs passS passT g0 ∧ Quiet passT ∧ passCheckB true ⟨g0, s0, none, 0, 0, 0⟩ passS passT = true ∧
    passCheckB false ⟨g0, s0, some (1, true), 0, 0, 0⟩ passS passT = true ∧
    after (.xacc ⟨g0, s0, none, 0, 0, 0⟩) passS (fun t => (t.view 0).elems) = some [8, 9] ∧
    onNext (exec (.xmm ⟨g0, s0, some (1, true), 0, 0, 0⟩) passS)
      (fun s => decide (memBytes (s.core 0).sp 0x1000 8 = [3, 0, 0, 0, 3, 0, 0, 0])) = true :=
  ⟨by unfold HasEngine; decide +kernel, ⟨rfl, rfl⟩, ⟨rfl, rfl, rfl, rfl, rfl, rfl⟩, by decide +kernel, by decide +kernel, by decide +kernel, by decide +kernel⟩

/-- The greatest accumulator, the smallest and the greatest group and product. -/
theorem witness_PassElements :
    0xFFFFFFFF < 2 ^ 32 ∧ (8 ≤ 8 ∧ 8 ≤ 32) ∧ (8 ≤ 32 ∧ 32 ≤ 32) ∧ (0 < 1 ∧ 1 < 2 ^ 22) ∧ (0 < 2 ^ 22 - 1 ∧ 2 ^ 22 - 1 < 2 ^ 22) ∧
    (passElem .int false 8 0xFFFFFFFF [(.fin false 1 0, .fin false 2 0)]).1 = 1 ∧ windowSum 8 [.fin true (2 ^ 22 - 1) 0] = 0xCA7FFFFC := by decide +kernel

/-! ### Threads and the system -/

theorem witness_SleepEndAndYield :
    Runs (st thr) thr g0 ∧ Quiet thr ∧ (thr.rg 0).toNat ≤ (st thr).coreTime 0 ∧ (st (thr.wg 2 1)).coreTime 0 < ((thr.wg 2 1).rg 2).toNat ∧
    (∃ e : WatchEntry, e.pos < 8 ∧ e.pos = 7 ∧ e.pending ≠ 0 ∧ Runs (st { thr with watch := [e] }) { thr with watch := [e] } g0) ∧
    ((st thr).part? ((st thr).partOf 0)).elim [] (·.ladings) = [] ∧
    after (.sleep ⟨g0, 1, 0, 0, 1024⟩) (st thr) (·.rg 1) = some 8 ∧
    after (.sleep ⟨g0, 1, 2, 0, 1024⟩) (st (thr.wg 2 1)) (fun t => (t.st, t.leadPc)) = some (.sleeping, 0x200000) ∧
    after (.sleep ⟨g0, 1, 0, 0, 256⟩) (st { thr with watch := [⟨7, 5, 15, 8⟩] }) (fun t => (t.rg 1, t.watch)) = some (0x800000000001 + 0, [⟨7, 5, 15, 0⟩]) ∧
    onNext (exec (.end_ ⟨g0⟩) (st thr)) (fun s => decide (s.thread? 0 0 = none)) = true ∧
    after (.yield ⟨g0⟩) (st thr) (·.yielded) = some true :=
  ⟨⟨rfl, rfl⟩, ⟨rfl, rfl, rfl, rfl, rfl, rfl⟩, by decide +kernel, by decide +kernel, ⟨⟨7, 5, 15, 8⟩, by decide, rfl, by decide, rfl, rfl⟩, by decide +kernel,
    by decide +kernel, by decide +kernel, by decide +kernel, by decide +kernel, by decide +kernel⟩

/-- The last time of the counter, and one of the core that a cluster's map names, with one beyond it. -/
theorem witness_SystemRegistersAndRegionQuery :
    Runs (st thr) thr g0 ∧ thr.cons = none ∧ thr.guest = none ∧ (st thr).coreTime 0 < 2 ^ 63 ∧ thr.lastGt < 2 ^ 63 ∧
    (∃ t : Thread, Runs (st t) t g0 ∧ t.lastGt = 2 ^ 63 - 1) ∧
    (∃ r, (st thr).region? thr.region = some r ∧ (st thr).physOf r 0 = some 0 ∧ (st thr).physOf r (2 ^ 18 - 1) = none) ∧
    after (.mfs ⟨g0, 1, .trapb⟩) (st thr) (·.rg 1) = some 0x300000 ∧ after (.mfs ⟨g0, 1, .rgn⟩) (st thr) (·.rg 1) = some 0x400000 ∧
    after (.mts ⟨g0, .sclamp, 2⟩) (st (thr.wg 2 0xFFFFFFFFFFFFFFFF)) (·.sclamp) = some 0xFFFFFFFF ∧
    after (.mts ⟨g0, .rctl, 2⟩) (st { thr.wg 2 0x1F0003 with rctl := 0x1F0001 }) (·.rctl) = some 3 ∧
    after (.gtime ⟨g0, 1⟩) (st thr) (fun t => (t.rg 1).getLsbD 63) = some false ∧
    after (.rgnq ⟨g0, .lcoreOf 2, 1⟩) (st (thr.wg 2 0x3FFFF)) (·.rg 1) = some 0xFFFFFFFFFFFFFFFF :=
  ⟨⟨rfl, rfl⟩, rfl, rfl, by decide +kernel, by decide +kernel, ⟨{ thr with lastGt := 2 ^ 63 - 1 }, ⟨rfl, rfl⟩, rfl⟩, ⟨_, rfl, by decide +kernel, by decide +kernel⟩,
    by decide +kernel, by decide +kernel, by decide +kernel, by decide +kernel, by decide +kernel, by decide +kernel⟩

/-- A thread with a passport at 0x204000, which gives the right to stop the thread of slot 1; g2 holds that thread's TID. -/
def reqT : Thread := { codeT.wg 2 1 with passb := 0x204000 }

/-- The two threads. -/
def reqS : State :=
  let s := (code (.nop ⟨g0⟩)).setCur reqT
  { s.setThread 0 1 { codeT with tid := 1 } with mem := memWrite s.mem 0x204000 (toBytes 16 (9 + 0xFFFFFFFF * 2 ^ 32 + 2 ^ 64)) }

/-- What its passport gives. -/
def reqR : Got (Option (BitVec 5)) := State.rightsFrom (reqS.who 0 0 reqT) reqT 1 (fun anc => reqS.inTree 0x400000 anc) 5 0x204000 0 reqS

theorem rights_of_check {r : Got (Option (BitVec 5))} {v : BitVec 5} {t : Thread} {x : Cur}
    (h : (match r with | .ok a s => decide (a = some v) && decide (s.curT? = some t) && decide (s.cur = x) | _ => false) = true) :
    ∃ s, r = .ok (some v) s ∧ s.curT? = some t ∧ s.cur = x := by
  cases r <;> simp_all

/-- A request of a kind for the thread in slot 1. -/
def reqOf (r : ThReq) : EvThReq := ⟨⟨0, 0, 0⟩, 0, 1, r, 0x400000⟩

theorem target_of_check {r : Option Target} {c k : Nat} {t : Thread}
    (h : (match r with | some (.slot a b u) => decide (a = c) && decide (b = k) && decide (u = t) | _ => false) = true) : r = some (.slot c k t) := by
  rcases r with _ | (_ | _) <;> simp_all

/-- Right 0 is given, right 4 is not; the last core number of a word of 18 bits names none. -/
theorem witness_ThreadStateRequests :
    request reqT (.thstop ⟨g0, 1, 2⟩) = some (g0, 1, 2, .stop, 0) ∧ request reqT (.thkill ⟨g0, 1, 2⟩) = some (g0, 1, 2, .kill, 4) ∧ Runs reqS reqT g0 ∧ Quiet reqT ∧
    (∃ r, reqS.region? reqT.region = some r ∧ reqS.origOf r ((reqT.rg 2).extractLsb' 8 18).toNat = some 0 ∧ reqS.origOf r 0 = some 0 ∧
      reqS.origOf r (2 ^ 18 - 1) = none) ∧
    reqS.targetRegion 0 1 = some 0x400000 ∧ (∃ s1, reqR = .ok (some 1) s1 ∧ s1.curT? = some reqT ∧ s1.cur = reqS.cur) ∧
    (1 : BitVec 5).getLsbD 0 = true ∧ (1 : BitVec 5).getLsbD 4 = false ∧ (reqT.rg 3).toNat < 2 ^ 18 ∧
    reqS.reqTarget 0 2 = none ∧ reqS.reqTarget 0 1 = some (.slot 0 1 { codeT with tid := 1 }) ∧ reqS.thread? 0 1 = some { codeT with tid := 1 } ∧
    codeT.stop = none ∧ codeT.st ≠ .stopped ∧ codeT.ending = false ∧
    (∀ r ∈ [ThReq.stat, .start, .stop, .kill], reqS.requestWaits (reqOf r) = false) ∧ codeT.ops = [] ∧ codeT.cons = none ∧
    onNext (exec (.thstop ⟨g0, 1, 2⟩) reqS) (fun s => decide (s.agenda.length = 1)) = true ∧
    after (.thkill ⟨g0, 1, 2⟩) reqS (·.rg 1) = some 0xA00000000000000 ∧
    onNext (exec (.thnew ⟨g0, true, 1, 0, 3, 0⟩) reqS) (fun s => decide (s.agenda.length = 1)) = true ∧
    after (.thnew ⟨g0, true, 1, 0, 3, 0⟩) (reqS.setCur (reqT.wg 3 0x3FFFF)) (·.rg 1) = some 0x700000000000000 ∧
    onNext (exec (.threadStateRequest (reqOf .stop)) reqS) (fun s => decide ((s.thread? 0 1).map (·.st) = some .stopped)) = true ∧
    onNext (exec (.threadStateRequest (reqOf .kill)) reqS) (fun s => decide (s.thread? 0 1 = none)) = true :=
  ⟨rfl, rfl, ⟨rfl, rfl⟩, ⟨rfl, rfl, rfl, rfl, rfl, rfl⟩, ⟨_, rfl, by decide +kernel, by decide +kernel, by decide +kernel⟩, by decide +kernel, rights_of_check (by decide +kernel),
    by decide, by decide, by decide, by decide +kernel, target_of_check (by decide +kernel), by decide +kernel, rfl, by decide, rfl, by decide +kernel, rfl, rfl, by decide +kernel, by decide +kernel,
    by decide +kernel, by decide +kernel, by decide +kernel, by decide +kernel⟩

/-- A thread of no consignment in the lead pipe. -/
theorem witness_TrapsTaken :
    Runs (st thr) thr g0 ∧ (st thr).thread? 0 0 = some thr ∧ thr.cons = none ∧ (st thr).cur.pipe = .lead ∧
    after (.trap ⟨g0, 0xFFFF⟩) (st thr) (fun t => (t.st, t.stop.map fun x => (x.info.cause, x.info.detail, x.info.pc))) = some (.stopped, some (0x20, 0xFFFF, 0x200000)) :=
  ⟨⟨rfl, rfl⟩, rfl, rfl, rfl, by decide +kernel⟩

/-! ### Coherence -/

/-- The home of the sector at 0x203000 in a state, with a transaction and the cores that hold it. -/
def hs (h : HomeSt) (txn : Option Txn) (ptrs : List (Nat × BitVec 4)) : State :=
  (code (.nop ⟨g0⟩)).modEntry 0 0x2030 fun e => { e with ptrs := ptrs, inL2 := true }.setSec 0 ⟨h, txn, none, []⟩

/-- Four cores that hold other sectors of the line. -/
def four : List (Nat × BitVec 4) := [(1, 2), (2, 2), (3, 2), (4, 2)]

theorem hs_rest : ∀ h ∈ [HomeSt.u, .s, .x], ∀ l ∈ [[], [(1, 1#4)]], AtRest (hs h none l) 0 0x80C0 ∧ ((hs h none l).homeSec 0 0x80C0).st = h := by
  unfold AtRest; decide +kernel

/-- A sector without copies, with one, and with its owner; an address of the partition, and one of no window. -/
theorem witness_HomeServesRequests :
    (∀ h ∈ [HomeSt.u, .s, .x], ∀ l ∈ [[], [(1, 1#4)]], AtRest (hs h none l) 0 0x80C0 ∧ ((hs h none l).homeSec 0 0x80C0).st = h) ∧
    (hs .u none []).partOf 0 = 0 ∧ 0x80C0 = 0x203000 / 64 ∧ (hs .u none []).reaches 0 0x203000 = true ∧ (hs .u none []).reaches 0 (2 ^ 50) = false ∧
    (∀ h ∈ [HomeSt.u, .s, .x], ∀ l ∈ [[], [(1, 1#4)]], ((hs h none l).entry 0 0x2030).fifth 0 0 = false) ∧
    (AtRest (hs .u none four) 0 0x80C0 ∧ ((hs .u none four).entry 0 0x2030).fifth 0 0 = true ∧
      (((hs .u none four).entry 0 0x2030).secs.toList.all fun h => h.st != .x && h.txn.isNone && h.prep.isNone) = true ∧
      onNext (exec (.gets ⟨0, 0x203000, none⟩) (hs .u none four)) (fun s => decide ((s.entry 0 0x2030).coarse = true ∧ (s.homeSec 0 0x80C0).st = .s)) = true) ∧
    (hs .x none [(1, 1)]).reaches 0 0x203000 = true ∧ (hs .s none [(1, 1)]).reaches 0 0x203000 = true ∧
    (((hs .x none [(1, 1)]).entry 0 0x2030).named 0).head? = some 1 ∧ ((hs .x none [(1, 1)]).entry 0 0x2030).watched 0 = false ∧
    ((hs .u none []).entry 0 0x2030).named 0 = [] ∧ ((hs .u none []).entry 0 0x2030).coarse = false ∧ (hs .u none []).holders 0 0x80C0 = [] ∧
    ((hs .u none []).entry 0 0x2030).host = false ∧ (((hs .s none [(1, 1)]).entry 0 0x2030).named 0).filter (· ≠ 0) = [1] ∧
    onNext (exec (.gets ⟨0, 2 ^ 50, none⟩) (hs .u none [])) (fun s => decide (s.agenda = [])) = true ∧
    onNext (exec (.gets ⟨0, 0x203000, none⟩) (hs .u none [])) (fun s => decide (s.agenda = [.data ⟨0, 0x203000, 0, .e⟩] ∧ (s.homeSec 0 0x80C0).st = .x)) = true ∧
    onNext (exec (.gets ⟨0, 0x203000, none⟩) (hs .s none [(1, 1)])) (fun s => decide (s.agenda = [.data ⟨0, 0x203000, 0, .s⟩] ∧ (s.homeSec 0 0x80C0).st = .s)) = true ∧
    onNext (exec (.gets ⟨0, 0x203000, none⟩) (hs .x none [(1, 1)])) (fun s => decide (s.agenda = [.fwds ⟨1, 0x203000, 0⟩] ∧ (s.homeSec 0 0x80C0).st = .xfs)) = true ∧
    onNext (exec (.getx ⟨0, 0x203000, none⟩) (hs .u none [])) (fun s => decide (s.agenda = [.data ⟨0, 0x203000, 0, .m⟩] ∧ (s.homeSec 0 0x80C0).st = .x)) = true ∧
    onNext (exec (.getx ⟨0, 0x203000, none⟩) (hs .x none [(1, 1)])) (fun s => decide (s.agenda = [.fwdx ⟨1, 0x203000, 0⟩] ∧ (s.homeSec 0 0x80C0).st = .xfx)) = true ∧
    onNext (exec (.getx ⟨0, 0x203000, none⟩) (hs .s none [(1, 1)])) (fun s => decide (s.agenda = [.inv ⟨.core 1, 0x203000, false⟩] ∧ (s.homeSec 0 0x80C0).st = .si)) = true ∧
    onNext (exec (.wrt ⟨.path 0, 0x203000, 7, 1, none, none⟩) (hs .u none []))
      (fun s => decide (s.agenda.getLast? = some (.ack ⟨.wrt 0, 0x203000⟩) ∧ memByte s.mem 0x203000 = 7)) = true := by
  unfold AtRest; decide +kernel

/-- A GETS of core 0 that waits for its owner, core 1; a GETX of core 0 that waits for the copy of core 1, or for the ACKs of tracts; a WRT under
way; a GETS that waits for its fill; a line of no watchers. -/
theorem witness_HomeTakesAnswers :
    (∃ s, s = hs .xfs (some ⟨.gets ⟨0, 0x203000, none⟩, 5, [1], [], false⟩) [(1, 1)] ∧ s.partOf 1 = 0 ∧ s.reaches 1 0x203000 = true ∧ (s.homeSec 0 0x80C0).queue = [] ∧
      (s.entry 0 0x2030).coarse = false ∧ (s.entry 0 0x2030).ptrs.length ≤ 3 ∧ (s.homeSec 0 0x80C0).st = .xfs ∧
      (s.homeSec 0 0x80C0).txn = some ⟨.gets ⟨0, 0x203000, none⟩, 5, [1], [], false⟩ ∧
      onNext (exec (.ownerData ⟨1, 0x203000, 7⟩) s) (fun s => decide (s.agenda = [.data ⟨0, 0x203000, 7, .s⟩] ∧ (s.homeSec 0 0x80C0).st = .s)) = true ∧
      onNext (exec (.clean ⟨1, 0x203000⟩) s) (fun s => decide (s.agenda = [.data ⟨0, 0x203000, 0, .s⟩] ∧ (s.homeSec 0 0x80C0).st = .s)) = true ∧
      onNext (exec (.gone ⟨1, 0x203000, true, 5⟩) s) (fun s => decide ((s.homeSec 0 0x80C0).st = .xfsg)) = true ∧
      onNext (exec (.gone ⟨1, 0x203000, true, 4⟩) s) (fun s => decide ((s.homeSec 0 0x80C0).st = .xfs)) = true) ∧
    (∃ s, s = hs .x none [(0, 1)] ∧ s.partOf 0 = 0 ∧ s.reaches 0 0x203000 = true ∧ inHost 0x203000 = false ∧ (s.homeSec 0 0x80C0).txn = none ∧
      (s.homeSec 0 0x80C0).st = .x ∧ (s.entry 0 0x2030).named 0 = [0] ∧
      onNext (exec (.putx ⟨0, 0x203000, 7⟩) s) (fun s => decide (s.agenda = [.wback ⟨0, 0x203000⟩] ∧ (s.homeSec 0 0x80C0).st = .u ∧ memByte s.mem 0x203000 = 7)) = true ∧
      onNext (exec (.pute ⟨0, 0x203000⟩) s) (fun s => decide (s.agenda = [.wback ⟨0, 0x203000⟩] ∧ (s.homeSec 0 0x80C0).st = .u)) = true) ∧
    (∃ s, s = hs .si (some ⟨.getx ⟨0, 0x203000, none⟩, 5, [1], [], false⟩) [(1, 1)] ∧ s.partOf 1 = 0 ∧ s.reaches 1 0x203000 = true ∧ (s.homeSec 0 0x80C0).queue = [] ∧
      (s.homeSec 0 0x80C0).st = .si ∧ (s.homeSec 0 0x80C0).txn = some ⟨.getx ⟨0, 0x203000, none⟩, 5, [1], [], false⟩ ∧
      onNext (exec (.ack ⟨.inv 1, 0x203000⟩) s) (fun s => decide (s.agenda = [.data ⟨0, 0x203000, 0, .m⟩] ∧ (s.homeSec 0 0x80C0).txn = none)) = true) ∧
    (∃ s, s = hs .si (some ⟨.getx ⟨0, 0x203000, none⟩, 5, [], [63], false⟩) [] ∧ (s.homeSec 0 0x80C0).queue = [] ∧ (s.homeSec 0 0x80C0).st = .si ∧
      (s.homeSec 0 0x80C0).txn = some ⟨.getx ⟨0, 0x203000, none⟩, 5, [], [63], false⟩ ∧
      onNext (exec (.ack ⟨.tracts 0 63, 0x203000⟩) s) (fun s => decide (s.agenda = [.data ⟨0, 0x203000, 0, .m⟩] ∧ (s.homeSec 0 0x80C0).txn = none)) = true) ∧
    (∃ s, s = hs .si (some ⟨.getx ⟨0, 0x203000, none⟩, 5, [], [0, 63], true⟩) [] ∧ (s.homeSec 0 0x80C0).queue = [] ∧ (s.homeSec 0 0x80C0).st = .si ∧
      (s.homeSec 0 0x80C0).txn = some ⟨.getx ⟨0, 0x203000, none⟩, 5, [], [0, 63], true⟩ ∧
      onNext (exec (.ack ⟨.tracts 0 0, 0x203000⟩) s) (fun s => decide ((s.homeSec 0 0x80C0).txn = some ⟨.getx ⟨0, 0x203000, none⟩, 5, [], [63], true⟩)) = true) ∧
    (∃ s e, s = { (hs .u none []).modCore 0 (fun c => { c with acks := [(0x80C0, e)] }) with threads := [] } ∧ s.threads = [] ∧ s.reaches 0 0x203000 = true ∧ (s.core 0).acks = [(0x203000 / 64, e)] ∧
      onNext (exec (.ack ⟨.wrt 0, 0x203000⟩) s) (fun s => decide ((s.core 0).acks = [])) = true ∧
      s.parts.all (fun x => x.2.spilled.isEmpty) = true ∧ (∀ x ∈ ((hs .u none []).core 0).acks, x.1 ≠ 0x203000 / 64)) ∧
    (∃ s q, s = hs .uf (some ⟨.gets ⟨0, 0x203000, none⟩, 5, [], [], false⟩) [] ∧ s.part? 0 = some q ∧ (∀ j < 4, j ≠ 0 → (s.homeSec 0 (4 * 0x2030 + j)).st ≠ .uf) ∧
      (q.setLines 0x2030).length < 16 - q.cvw ∧
      (s.homeSec 0 (4 * 0x2030 + 0)).st = .uf ∧ (s.homeSec 0 (4 * 0x2030 + 0)).txn = some ⟨.gets ⟨0, 64 * (4 * 0x2030 + 0), none⟩, 5, [], [], false⟩ ∧
      (s.homeSec 0 (4 * 0x2030 + 0)).prep = none ∧ (s.homeSec 0 (4 * 0x2030 + 0)).queue = [] ∧ s.lading? 0 (64 * (4 * 0x2030 + 0)) = none ∧
      inHost (64 * (4 * 0x2030 + 0)) = false ∧ onNext (exec (.fillArrives ⟨0, 0x2030⟩) s) (fun s => decide (s.agenda.length = 1 ∧ (s.entry 0 0x2030).inL2 = true)) = true) ∧
    (∃ s q, s = hs .u none [] ∧ s.part? 0 = some q ∧ (∀ j < 4, (s.homeSec 0 (4 * 0x2030 + j)).txn = none ∧ (s.homeSec 0 (4 * 0x2030 + j)).prep = none) ∧
      (s.entry 0 0x2030).inL2 = true ∧ (s.entry 0 0x2030).watchers = [] ∧ (s.entry 0 0x2030).tu = false ∧ (∀ r ∈ q.readers, r.name ≠ 0x2030) ∧ q.hasBlocks 1 = true ∧
      onNext (exec (.l2Replacement ⟨0, 0x2030⟩) s) (fun s => decide ((s.entry 0 0x2030).inL2 = false ∧ s.agenda = [])) = true) := by
  refine ⟨⟨_, rfl, ?_⟩, ⟨_, rfl, ?_⟩, ⟨_, rfl, ?_⟩, ⟨_, rfl, ?_⟩, ⟨_, rfl, ?_⟩, ⟨_, ⟨0, 0, 1⟩, rfl, ?_⟩, ⟨_, _, rfl, rfl, ?_⟩, ⟨_, _, rfl, rfl, ?_⟩⟩ <;> decide +kernel

/-- The sector at 0x203000 in the L1 of core 1. -/
def l1s (x : L1St) : State := (hs .u none []).setL1 1 0x80C0 (.of x 7)

theorem witness_L1TakesMessages :
    (∀ x ∈ [L1St.m, .e, .s, .sw, .l, .isd, .imd, .sma, .mia, .eia, .ild], (l1s x).l1 1 0x80C0 = some (.of x 7) ∧ (L1Sec.of x 7).held = none ∧
      ∀ y ∈ lineSecs 0x203000, ((l1s x).l1 1 y).any (·.nt) = false) ∧ (hs .u none []).l1 1 0x80C0 = none ∧ (hs .u none []).reaches 1 0x203000 = true ∧ (hs .u none []).reaches 1 (2 ^ 50) = false ∧
    onNext (exec (.fwds ⟨1, 0x203000, 5⟩) (l1s .m)) (fun s => decide (s.agenda = [.ownerData ⟨1, 0x203000, 7⟩] ∧ (s.l1 1 0x80C0).map (·.st) = some .s)) = true ∧
    onNext (exec (.fwdx ⟨1, 0x203000, 5⟩) (l1s .e)) (fun s => decide (s.agenda = [.clean ⟨1, 0x203000⟩] ∧ s.l1 1 0x80C0 = none)) = true ∧
    onNext (exec (.fwdx ⟨1, 0x203000, 5⟩) (l1s .mia)) (fun s => decide (s.agenda = [.gone ⟨1, 0x203000, true, 5⟩])) = true ∧
    onNext (exec (.fwdx ⟨1, 0x203000, 5⟩) (l1s .imd)) (fun s => decide ((s.l1 1 0x80C0).map (·.held) = some (some (true, 5)))) = true ∧
    onNext (exec (.wback ⟨1, 0x203000⟩) (l1s .mia)) (fun s => decide (s.l1 1 0x80C0 = none)) = true ∧
    onNext (exec (.inv ⟨.core 1, 0x203000, false⟩) (l1s .sma)) (fun s => decide (s.agenda = [.ack ⟨.inv 1, 0x203000⟩] ∧ (s.l1 1 0x80C0).map (·.st) = some .imd)) = true ∧
    onNext (exec (.l1Eviction ⟨1, 0x203000⟩) (l1s .m)) (fun s => decide (s.agenda = [.putx ⟨1, 0x203000, 7⟩] ∧ (s.l1 1 0x80C0).map (·.st) = some .mia)) = true ∧
    onNext (exec (.data ⟨1, 0x203000, 9, .m⟩) (l1s .sma)) (fun s => decide (s.l1 1 0x80C0 = some (.of .m 9))) = true := by decide +kernel

/-- A partition that holds the host's sector at 2 to the 51 in S. -/
def hostS (b : Bool) : State :=
  (hs .u none []).modPart 0 fun q => { q with fns := [0], sysFns := [0], hostSecs := [(2 ^ 45, b)] }

theorem witness_HostCoherence :
    (∃ s, s = hostS true ∧ s.hostHeld (2 ^ 45) = false ∧ (∀ e ∈ s.parts, e.2.sys = true ∧ (alook (2 ^ 45) e.2.hostSecs).isSome = true) ∧
      onNext (exec (.snpData ⟨2 ^ 51⟩) s) (fun s => decide ((s.part? 0).map (fun q => alook (2 ^ 45) q.hostSecs) = some (some false))) = true ∧
      onNext (exec (.snpInv ⟨2 ^ 51, 7⟩) s) (fun s => decide ((s.part? 0).map (fun q => alook (2 ^ 45) q.hostSecs) = some none ∧ memByte s.mem (2 ^ 51) = 7)) = true) ∧
    (∃ s, s = hs .u none [] ∧ s.partOfPa 0x203000 = some 0 ∧ (∃ q, s.part? 0 = some q ∧ q.decodes 0x203000 = true ∧ q.frozen = false) ∧
      s.homeFree 0 0x80C0 = true ∧ s.lading? 0 0x203000 = none ∧
      onNext (exec (.memWr ⟨0x203000, 7, 1⟩) s) (fun s => decide (memByte s.mem 0x203000 = 7)) = true ∧
      onNext (exec (.hostMemRd ⟨0, 0x203000⟩) s) (fun s => decide ((s.entry 0 0x2030).host = true)) = true) ∧
    ((hostS true).modEntry 0 (2 ^ 43) fun e => e.setSec 0 ⟨.si, some ⟨.getx ⟨0, 2 ^ 51, none⟩, 5, [1], [], false⟩, none, []⟩).hostHeld (2 ^ 45) = true ∧
    (∃ q, ((hs .u none []).modPart 0 fun q => { q with windows := q.windows.map fun w => { w with hdm := [] } }).part? 0 = some q ∧ q.decodes 0x203000 = false) ∧
    (hs .si (some ⟨.getx ⟨0, 0x203000, none⟩, 5, [], [], true⟩) []).homeFree 0 0x80C0 = false ∧
    (∃ s, s = hs .si (some ⟨.getx ⟨0, 0x203000, none⟩, 5, [], [], true⟩) [] ∧ (s.homeSec 0 0x80C0).queue = [] ∧ (s.homeSec 0 0x80C0).txn = some ⟨.getx ⟨0, 0x203000, none⟩, 5, [], [], true⟩ ∧
      onNext (exec (.biSnpInvResponse ⟨0x203000, some 7⟩) s) (fun s => decide (.data ⟨0, 0x203000, 7, .m⟩ ∈ s.agenda)) = true) ∧
    (∃ s q, s.parts = [(0, q)] ∧ (s.homeSec 0 (2 ^ 45)).st = .uf ∧ (s.homeSec 0 (2 ^ 45)).txn = some ⟨.gets ⟨0, 2 ^ 51, none⟩, 5, [], [], false⟩ ∧ (s.homeSec 0 (2 ^ 45)).prep = none ∧
      (s.homeSec 0 (2 ^ 45)).queue = [] ∧ s.lading? 0 (2 ^ 51) = none ∧ (s.entry 0 (2 ^ 45 / 4)).inL2 = true ∧
      onNext (exec (.cxlCacheResponse ⟨2 ^ 51, .rdShared, 7⟩) s) (fun s => decide (s.agenda.length = 1)) = true) := by
  refine ⟨⟨_, rfl, ?_⟩, ⟨_, rfl, by decide +kernel, ⟨_, rfl, ?_⟩, by decide +kernel, by decide +kernel, by decide +kernel, by decide +kernel⟩, by decide +kernel, ⟨_, rfl, by decide +kernel⟩, by decide +kernel,
    ⟨_, rfl, ?_⟩, ⟨(hostS false).modEntry 0 (2 ^ 43) fun e => { e with inL2 := true }.setSec 0 ⟨.uf, some ⟨.gets ⟨0, 2 ^ 51, none⟩, 5, [], [], false⟩, none, []⟩, _, rfl, ?_⟩⟩ <;> decide +kernel

/-- A thread that watches a line. -/
def watchT : Thread := { codeT with watch := [⟨7, 0x2030, 15, 0⟩], st := .sleeping, sleep := some ⟨1024, 5, 0, 0⟩ }

/-- The state with it. -/
def watchS : State := (code (.nop ⟨g0⟩)).setCur watchT

/-- The same thread spilled after its wake. -/
def awayS : State :=
  ((code (.nop ⟨g0⟩)).modPart 0 fun q => { q with spilled := [((0, 1, 0), { watchT with woken := true, tid := 1 })] })

/-- A wake of a line, for the thread of slot 0 or of slot 1, and of a line of no window of the partition. -/
theorem witness_WakesReachTheirThreads :
    watchS.reaches 0 (256 * 0x2030) = true ∧ watchS.reaches 0 (256 * 0x2031) = true ∧ watchS.reaches 0 (256 * 2 ^ 42) = false ∧ awayS.reaches 0 (256 * 0x2030) = true ∧
    (((1 : BitVec 32).extractLsb' 8 18).toNat = 0 ∧ awayS.findThread 0 ((1 : BitVec 32).extractLsb' 0 8).toNat ((1 : BitVec 32).extractLsb' 26 6) = none) ∧
    watchS.findThread ((0 : BitVec 32).extractLsb' 8 18).toNat ((0 : BitVec 32).extractLsb' 0 8).toNat ((0 : BitVec 32).extractLsb' 26 6) = some (0, 0) ∧
    watchS.thread? 0 0 = some watchT ∧ (∃ e ∈ watchT.watch, e.line = 0x2030) ∧ (∀ e ∈ watchT.watch, e.line ≠ 0x2031) ∧ (∃ q, watchS.part? (watchS.partOf 0) = some q) ∧
    (∃ t, awayS.spilled? 0 1 0 = some t ∧ t.woken = true ∧ t.stop = none ∧ t.jump = false ∧ t.repSaved.live = false ∧ (∃ e ∈ t.watch, e.line = 0x2030) ∧ (∀ e ∈ t.watch, e.line ≠ 0x2031) ∧ awayS.carrier t.region 0 = 0) ∧ awayS.thread? 0 1 = none ∧
    watchT.st = .sleeping ∧ (1024 : BitVec 11).getLsbD 10 = true ∧ ({ watchS with gt := 5 } : State).thread? 0 0 = some watchT ∧
    (5 : Word).toNat ≤ ({ watchS with gt := 5 } : State).coreTime 0 ∧ watchT.st ≠ .stopped ∧ watchT.cons = none ∧
    after (.wake ⟨0x2030, 9, 0⟩) watchS (fun t => t.watch.map (·.pending)) = some [9] ∧
    onNext (exec (.wake ⟨2 ^ 42, 9, 0⟩) watchS) (fun s => decide (s.threads = watchS.threads ∧ s.agenda = [])) = true ∧
    onNext (exec (.wake ⟨0x2030, 9, 1⟩) awayS) (fun s => decide ((s.spilled? 0 1 0).map (fun t => t.watch.map (·.pending)) = some [9])) = true ∧
    onNext (exec (.wake ⟨0x2031, 9, 0⟩) watchS) (fun s => decide (s.agenda = [.drop ⟨0x2031, 9, 0⟩])) = true ∧
    onNext (exec (.drop ⟨0x2030, 9, 0⟩) (watchS.modEntry 0 0x2030 fun e => { e with watchers := [⟨1, 9, 0, 0, 0⟩] })) (fun s => decide ((s.entry 0 0x2030).watchers = [])) = true ∧
    onNext (exec (.reload ⟨0, 1, 0⟩) awayS) (fun s => decide ((s.thread? 0 1).map (·.st) = some .running ∧ s.spilled? 0 1 0 = none)) = true ∧
    onNext (exec (.sleepDeadline ⟨0, 0⟩) { watchS with gt := 5 }) (fun s => decide ((s.thread? 0 0).map (·.st) = some .running)) = true ∧
    onNext (exec (.trapEntry ⟨0, 0, ⟨0x34, 0, .lead, 0, 0, 0, 0, 0, 0, 0⟩⟩) watchS) (fun s => decide ((s.thread? 0 0).map (·.st) = some .stopped)) = true := by
  refine ⟨by decide +kernel, by decide +kernel, by decide +kernel, by decide +kernel, by decide +kernel, by decide +kernel, rfl, by decide, by decide, ⟨_, rfl⟩,
    ⟨_, rfl, rfl, rfl, rfl, rfl, by decide, by decide, by decide +kernel⟩, ?_⟩
  decide +kernel

/-- A lading entry of 256 bytes at 0x203000, held by the thread in slot 0 or released, and who waits for it. -/
def lad (x : LadSt) (w : List OpRef) : Lading := ⟨x, 8, 0x203000, 0, 0, 0, 5, false, 100, 0, w, false, [], false⟩

/-- The state with it as entry 0, at a time. -/
def ladS (x : LadSt) (w : List OpRef) (gt : Nat) : State :=
  ({ withOp (code (.nop ⟨g0⟩)) (.acqrWait ⟨0x203000, [⟨none, 0x203000, 1, false⟩], .virt, 0, 1, 0, 0, false, false, .acqr 1 0⟩ 0 8 50) with gt := gt }).modPart 0
    fun q => { q with ladings := [(0, lad x w)] }

/-- A core that has become time-suspect. -/
def late : State := (ladS .releasing [⟨0, 0, 0⟩] 0).modCore 0 fun y => { y with suspectTime := true }

/-- The lease ends at 100; the revocation waits 250 ns beyond it. -/
theorem witness_LadingTable :
    (∀ x ∈ [LadSt.held, .releasing, .revoked], ∀ w ∈ [[], [⟨0, 0, 0⟩]], ∃ q, (ladS x w 351).part? 0 = some q ∧ alook 0 q.ladings = some (lad x w) ∧ (ladS x w 351).ladPending 0 (lad x w) = false ∧ q.frozen = false) ∧
    (ladS .releasing [] 0).ladPending 0 { lad .releasing [] with tries := [(0, 0)] } = true ∧
    (∃ t o a, (ladS .releasing [⟨0, 0, 0⟩] 351).thread? 0 0 = some t ∧ t.op? 0 = some o ∧ o.kind = .acqrWait a 0 8 50 ∧ a.act = .acqr 1 0) ∧
    ((ladS .releasing [⟨0, 0, 0⟩] 351).core 0).suspectTime = false ∧ (late.core 0).suspectTime = true ∧ late.thread? 0 0 = (ladS .releasing [⟨0, 0, 0⟩] 0).thread? 0 0 ∧
    (lad .held [⟨0, 0, 0⟩]).expiry + 250 < (ladS .held [⟨0, 0, 0⟩] 351).gt ∧ (ladS .held [⟨0, 0, 0⟩] 350).gt ≤ (lad .held [⟨0, 0, 0⟩]).expiry + 250 ∧
    250 < (251 : Int).natAbs ∧ (-250 : Int).natAbs ≤ 250 ∧ ((code (.nop ⟨g0⟩)).core 0).suspectTime = false ∧ ((code (.nop ⟨g0⟩)).core 0).missed = 0 ∧
    (∃ s : State, 1 ≤ (s.core 0).missed) ∧
    onNext (exec (.ladingGrant ⟨0, 0⟩) (ladS .releasing [] 0)) (fun s => decide ((s.part? 0).map (·.ladings) = some [])) = true ∧
    onNext (exec (.ladingGrant ⟨0, 0⟩) (ladS .releasing [⟨0, 0, 0⟩] 0))
      (fun s => decide ((s.part? 0).map (fun q => q.ladings.map fun l => (l.2.st, l.2.gen, l.2.expiry)) = some [(.held, 6, 50)])) = true ∧
    onNext (exec (.ladingGrant ⟨0, 0⟩) late) (fun s => decide ((s.thread? 0 0).map (·.rg 1) = some 5 ∧ s.agenda = [.ladingGrant ⟨0, 0⟩])) = true ∧
    onNext (exec (.ladingRevocation ⟨0, 0⟩) (ladS .held [⟨0, 0, 0⟩] 351)) (fun s => decide (s.agenda = [.revoke ⟨0, 0⟩])) = true ∧
    gives (exec (.ladingRevocation ⟨0, 0⟩) (ladS .held [⟨0, 0, 0⟩] 350)) (ladS .held [⟨0, 0, 0⟩] 350) = true ∧
    onNext (exec (.revoke ⟨0, 0⟩) (ladS .revoked [] 0)) (fun s => decide ((s.part? 0).map (fun q => q.ladings.map (·.2.st)) = some [.revoked])) = true ∧
    onNext (exec (.beacon ⟨0, true, 251⟩) (code (.nop ⟨g0⟩))) (fun s => decide ((s.core 0).suspectTime = true ∧ (s.core 0).gtOff = 251)) = true ∧
    onNext (exec (.beacon ⟨0, true, -250⟩) (code (.nop ⟨g0⟩))) (fun s => decide ((s.core 0).suspectTime = false)) = true := by
  refine ⟨?_, by decide +kernel, ⟨_, _, _, rfl, rfl, rfl, rfl⟩, by decide +kernel, by decide +kernel, by decide +kernel, by decide, by decide, by decide, by decide, by decide, by decide,
    ⟨(code (.nop ⟨g0⟩)).modCore 0 fun y => { y with missed := 1 }, by decide +kernel⟩, ?_⟩
  · intro x hx w hw; exact ⟨_, rfl, rfl, by revert x w; decide +kernel, rfl⟩
  · decide +kernel

/-- The fault queue of the region at 0x301000: sixteen entries at 0x302000, none taken. -/
def fltS : State :=
  let s := (code (.nop ⟨g0⟩)).modRegion 0x400000 fun r => { r with fltq := 0x301000, fline := 0x305000 }
  { s.modPart 0 fun q => { q with pending := [⟨0x400000, [], [], none, 1, []⟩] } with mem := memWrite s.mem 0x301000 (toBytes 16 (0x302000 + 4 * 2 ^ 64)) }

theorem rec_of_check {r : RecRes × State} {i : Nat} (h : (match r.1 with | .seq j => decide (j = i) | _ => false) = true) : r = (.seq i, r.2) := by
  obtain ⟨a, s'⟩ := r
  cases a <;> simp_all

/-- A QGET of an empty queue in the lead, and one in the trail. -/
def deadT : Thread :=
  { codeT with line := some (0x200000, lineOf ((encode (.qget ⟨g0, 1, 6⟩)).getD 0)), trailQ := [⟨0x1FFFF4, 0, .qget ⟨g0, 1, 0⟩, false, 0, false⟩] }

/-- A thread whose sequencer is to issue the captured instruction again. -/
def repT : Thread := { codeT with trailQ := [⟨0x1FFFF4, 0, .nop ⟨g0⟩, true, 0, false⟩], rep := { codeT.rep with act := true } }

/-- A sector with one bit wrong. -/
def oneBit : V512 := 1

/-- A walk at the root level that finds the next table. -/
def walkO : Op := { opOf (.acc ⟨0x203000, [], .virt, 0, 8, 0, 0x40, false, false, .loadG 1 false⟩) with walk := some ⟨0x203000, 0x10000, 0, []⟩ }

/-- The state with it. -/
def walkS : State := (code (.nop ⟨g0⟩)).modThread 0 0 fun t => t.addOp walkO

theorem tr_of_check {r : TrRes × State} {a : Nat} (h : (match r.1 with | .ok b sh _ => decide (b = a) && !sh | _ => false) = true) :
    ∃ room s, r = (.ok a false room, s) := by
  obtain ⟨x, s'⟩ := r
  cases x <;> simp_all

theorem fetched_of_check {r : FetchRes × State} {l : V512} (h : (match r.1 with | .ok m => decide (m = l) | _ => false) = true) : ∃ s, r = (.ok l, s) := by
  obtain ⟨x, s'⟩ := r
  cases x <;> simp_all

theorem left_of_check {r : Sum Nat WalkRes} {n : Nat} (h : (match r with | .inl a => decide (a = n) | _ => false) = true) : r = .inl n := by
  cases r <;> simp_all

theorem witness_FetchPipesAndOperations :
    (code (.nop ⟨g0⟩)).thread? 0 0 = some codeT ∧ codeT.st = .running ∧ pcLine codeT.leadPc = 0x200000 ∧
    (∃ l s1, (code (.nop ⟨g0⟩)).fetchLine 0 0 codeT.region 0x200000 = (.ok l, s1)) ∧ lineBad (lineOf nopWord) = false ∧
    parityOk (lineOf nopWord ^^^ oneBit) = false ∧ parityOk (lineOf nopWord ^^^ 0) = true ∧
    (∃ room s2, (code (.nop ⟨g0⟩)).translateR 0 codeT.region 0x200000 .fetch = (.ok 0x200000 false room, s2)) ∧
    (∃ s3, (((code (.nop ⟨g0⟩)).discardCopy 0 0 (0x200000 / 64)).fetchLine 0 0 codeT.region 0x200000) = (.ok (lineOf nopWord), s3)) ∧ deadT.deadlocked = true ∧ (∃ e l, repT.trailQ = e :: l ∧ e.rep = true ∧ repT.rep.act = true) ∧ codeT.deadlocked = false ∧
    (∃ q r, fltS.region? 0x400000 = some r ∧ fltS.part? r.part = some q ∧ q.pending.find? (fun y => y.region = 0x400000) = some ⟨0x400000, [], [], none, 1, []⟩ ∧
      (∃ s1, fltS.placeRec ⟨0x400000, [], [], none, 1, []⟩ (fltS.anyCore r) = (.seq 0, s1) ∧ (s1.part? r.part).isSome = true)) ∧
    (∃ t o, (withOp (code (.nop ⟨g0⟩)) (.msg 0 ⟨0, 0, 0⟩ false)).thread? 0 0 = some t ∧ t.op? 0 = some o ∧ o.goes (t.st == .stopped || t.stop.isSome) = true) ∧
    (∃ t, walkS.thread? 0 0 = some t ∧ t.op? 0 = some walkO ∧ walkO.goes (t.st == .stopped || t.stop.isSome) = false ∧ t.buffered = false) ∧ canonical 0x203000 = true ∧
    canonical (BitVec.ofNat 64 (2 ^ 63)) = false ∧
    (∃ q n, walkS.part? (walkS.partOf 0) = some q ∧ walkStep q walkS.mem 0x203000 0 .load 0x10000 0 [] = .inl n ∧
      (inPriv q 0x10000 = true → walkS.homeFree 0 (pteAddr 0x203000 0x10000 0 / 64) = true ∧ walkS.lading? 0 (pteAddr 0x203000 0x10000 0) = none)) ∧
    onNext (exec (.fetchLineArrival ⟨0, 0, 0x200000, 0, 0⟩) (code (.nop ⟨g0⟩))) (fun s => decide ((s.thread? 0 0).map (·.line) = some (some (0x200000, lineOf nopWord)))) = true ∧
    onNext (exec (.fetchLineArrival ⟨0, 0, 0x200000, 1, 0⟩) (code (.nop ⟨g0⟩)))
      (fun s => decide ((s.core 0).corrected = 1 ∧ (s.thread? 0 0).map (·.line) = some (some (0x200000, lineOf nopWord)))) = true ∧
    onNext (exec (.fetchLineArrival ⟨0, 0, 0x200000, 1, 1⟩) (code (.nop ⟨g0⟩))) (fun s => decide ((s.thread? 0 0).bind (·.stop) |>.map (·.info.cause) |> (· = some 3))) = true ∧
    onNext (exec (.queuedFaultRecordWrite ⟨0x400000⟩) fltS) (fun s => decide ((s.part? 0).map (·.pending) = some [])) = true ∧
    onNext (exec (.streamOperationComplete ⟨0, 0, 0⟩) (withOp (code (.nop ⟨g0⟩)) (.msg 0 ⟨0, 0, 0⟩ false))) (fun s => decide (s.agenda.length = 1)) = true ∧
    onNext (exec (.uncorrectableData (.lading 0 0)) (ladS .held [] 0)) (fun s => decide (s.agenda.contains (.revoke ⟨0, 0⟩))) = true ∧
    (∃ b s1, walkS.poisonAt (.dram 0x203000) = (some b, s1) ∧ s1.thread? 0 0 = walkS.thread? 0 0 ∧ ∀ y, walkO.kind ≠ .copy y) ∧
    (∃ s1, walkS.poisonAt (.l1 0 0x203000) = (none, s1)) ∧
    onNext (exec (.tableWalk ⟨0, 0, 0⟩) walkS) (fun s => decide (s.agenda = [.tableWalk ⟨0, 0, 0⟩])) = true ∧
    onNext (exec (.uncorrectableData (.read ⟨0, 0, 0⟩ (.dram 0x203000))) walkS) (fun s => decide (((s.thread? 0 0).elim [] (·.ops)).map (fun o => o.parked.map (·.cause)) = [some 0x34])) = true := by
  refine ⟨rfl, rfl, by decide, ok_of_check (by decide +kernel), by decide +kernel, by decide +kernel, by decide +kernel, tr_of_check (by decide +kernel),
    fetched_of_check (by decide +kernel), by decide +kernel, ⟨_, _, rfl, rfl, rfl⟩, by decide +kernel, ⟨_, _, rfl, rfl, by decide +kernel, _, rec_of_check (by decide +kernel), by decide +kernel⟩, ⟨_, _, rfl, rfl, by decide +kernel⟩, ⟨_, rfl, by decide +kernel, by decide +kernel, rfl⟩,
    by decide, by decide, ⟨_, 0x14000, rfl, left_of_check (by decide +kernel), by decide +kernel⟩, ?_⟩
  refine ⟨by decide +kernel, by decide +kernel, by decide +kernel, by decide +kernel, by decide +kernel, by decide +kernel,
    ⟨_, _, rfl, by decide +kernel, fun y h => by simp [walkO, opOf] at h⟩, ⟨_, rfl⟩, by decide +kernel, by decide +kernel⟩

/-- Post 5 of the region, with its handler. -/
def post5 : Post := ⟨0x400000, 0x200000, 15, true, 0, false, 0, 15, 0, false, false, false, false, 0, 0⟩

/-- A message of post 5 with a payload of 2 in its second word. -/
def m5 : InMsg := ⟨⟨5, 2 * 2 ^ 64, 0⟩, 0, false, ⟨0, false, false, none, 0x400000⟩⟩

/-- A state in which the post is set at a core and entries stand in the inbox and the deque of core 0. -/
def postS (inbox deque : List InMsg) : State :=
  (((code (.nop ⟨g0⟩)).modRegion 0x400000 fun r => { r with sheap := 0x210000, shlen := 16 * 16 * 64 }).modCore 0 fun y =>
    { y with posts := [(5, post5)], inbox := inbox, deque := deque })

/-- The message on its way. -/
def ev5 : EvMsg := ⟨0, m5.msg, none, false, m5.mark⟩

theorem ctl_of_check {r : Option SliceCtl × State} {y : SliceCtl} (h : (match r.1 with | some z => decide (z = y) | none => false) = true) : r = (some y, r.2) := by
  obtain ⟨a, s'⟩ := r
  cases a <;> simp_all

theorem noCtl_of_check {r : Option SliceCtl × State} (h : r.1.isNone = true) : r = (none, r.2) := by
  obtain ⟨a, s'⟩ := r
  cases a <;> simp_all

theorem wrote_of_check {r : Bool × State} (h : r.1 = true) : r = (true, r.2) := by
  obtain ⟨a, s'⟩ := r
  simp_all

/-- The core's spilled messages, one of the region, in a slice that cannot be read. -/
def spillS : State := ((postS [] []).modRegion 0x400000 fun r => { r with sheap := BitVec.ofNat 64 (2 ^ 40) }).modCore 0 fun y => { y with spilling := [(0x400000, m5)] }

/-- A core about to ask its victim, core 0, whose deque holds the message. -/
def stealS : State := (postS [] [m5]).modCore 1 fun y => { y with posts := [(5, post5)], steals := [(0x400000, 1, (postS [] []).cyclesNs 1 512)] }

theorem witness_Stealing :
    (∃ r : Region, stealS.region? 0x400000 = some r ∧ stealS.idleFor 1 0x400000 = true ∧ (stealS.victims r 1)[0 % max 1 (stealS.victims r 1).length]? = some 0 ∧
      (postS [] []).idleFor 1 0x400000 = false) ∧
    (stealS.core 0).deque.reverse.find? (fun i => stealS.postRegion 0 i.msg.post = some 0x400000) = some m5 ∧
    alook 5 (stealS.core 1).posts = some post5 := ⟨⟨_, rfl, by decide +kernel⟩, by decide +kernel⟩

/-- The same in an ordered region, whose victim has two SPAWNT messages of times 5 and 4. -/
def m4 : InMsg := { m5 with msg := { m5.msg with hdr := 5 + 2 * 2 ^ 6 + 2 ^ 13 + 4 * 2 ^ 16 } }
def orderedS : State :=
  ((stealS.modRegion 0x400000 fun r => { r with emode := 3 }).modCore 0 fun y =>
    { y with deque := [], inbox := [{ m4 with msg := { m4.msg with hdr := m4.msg.hdr + 2 ^ 16 } }, m4] })

theorem witness_OrderedStealing :
    (∃ r : Region, orderedS.region? 0x400000 = some r ∧ r.emode = 3 ∧ orderedS.idleFor 1 0x400000 = true ∧
      (orderedS.victims r 1)[0 % max 1 (orderedS.victims r 1).length]? = some 0 ∧ orderedS.leastKey r (orderedS.orderedQueue 0 0x400000) = some (m4, false)) ∧
    (orderedS.core 0).deque.reverse.find? (fun i => orderedS.postRegion 0 i.msg.post = some 0x400000) = none ∧
    (orderedS.nextMsg 0 5 post5).map (·.1) = some m4 := ⟨⟨_, rfl, by decide +kernel⟩, by decide +kernel⟩

theorem witness_ReplayOfASpilledMessage :
    (∃ s1 s2 r, spillS.region? 0x400000 = some r ∧ (spillS.core 0).inbox.length < 448 ∧
      s1 = spillS.modCore 0 (fun y => { y with spilling := y.spilling.erase (0x400000, m5), served := 0x400000, replaying := true, fulls := y.fulls.filter (· ≠ (0x400000, m5.dest)) }) ∧ s1.sliceCtl 0 0x400000 (s1.slice r m5.dest).1 = (none, s2) ∧ m5.kept = false) ∧
    (∃ r, (postS [m5] []).region? 0x400000 = some r ∧ r.emode = 0) :=
  ⟨⟨_, _, _, rfl, by decide +kernel, rfl, noCtl_of_check (by decide +kernel), rfl⟩, _, rfl, rfl⟩

/-- An inbox with one entry below its limit and one at it; binding into slot 0 of core 0 or another; a victim with a deque. -/
theorem witness_MessagesAndBinding :
    (postS [] []).route 0 5 = 0 ∧ (postS [] []).orphan 0 m5.msg = false ∧ (code (.nop ⟨g0⟩)).orphan 0 m5.msg = true ∧
    alook m5.msg.post ((postS [] []).core 0).posts = some post5 ∧ post5.dmask = false ∧ m5.msg.kind = 0 ∧
    ((postS (List.replicate 511 m5) []).core 0).inbox.length = 511 ∧ ((postS (List.replicate 512 m5) []).core 0).inbox.length = 512 ∧ ((postS [] []).core 0).spilling = [] ∧
    (postS [] []).spillQueued 0x400000 0 = false ∧ ((postS [] []).push [.porterSpill ev5]).spillQueued 0x400000 0 = true ∧
    (∃ r va s1, (postS [] []).postRegion 0 5 = some 0x400000 ∧ (postS [] []).region? 0x400000 = some r ∧ (postS [] []).slice r 0 = (va, 15) ∧
      (postS [] []).sliceCtl 0 0x400000 va = (some ⟨0, 0, 0, 0⟩, s1) ∧
      ∃ s2, s1.devWrite 0 0x400000 (va + BitVec.ofNat 64 (64 + 64 * 0)) (msgBytes m5.msg) false = (true, s2)) ∧
    (spillS.core 0).nextSlice = some (0x400000, m5) ∧ (∃ r, spillS.region? 0x400000 = some r) ∧ spillS.orphan 0 m5.msg = false ∧
    (code (.nop ⟨g0⟩)).winner 0 = none ∧ ((postS [m5] []).winner 0).isSome = true ∧
    (((postS [m5] []).core 0).candidate 5 0).isSome = true ∧ post5.unmasked = true ∧ post5.cls ≤ (postS [m5] []).maxClass 0 0x400000 ∧
    onNext (exec (.messageArrival ev5) (postS [] [])) (fun s => decide ((s.core 0).inbox = [m5])) = true ∧
    onNext (exec (.messageArrival ev5) (postS (List.replicate 512 m5) [])) (fun s => decide (s.agenda = [.porterSpill ev5])) = true ∧
    onNext (exec (.messageArrival ev5) (code (.nop ⟨g0⟩))) (fun s => decide ((s.part? 0).map (·.orphans) = some 1)) = true ∧
    onNext (exec (.porterSpill ev5) (postS [] [])) (fun s => decide ((s.core 0).spilling = [(0x400000, m5)])) = true ∧
    onNext (exec (.porterReplay ⟨0⟩) spillS) (fun s => decide ((s.core 0).inbox = [m5])) = true ∧
    onNext (exec (.binding ⟨0⟩) (postS [m5] [])) (fun s => decide ((s.thread? 0 1).map (fun t => (t.leadPc, t.rg 2)) = some (0x200000, 2))) = true ∧
    onNext (exec (.ageStep ⟨0, 5⟩) (postS [m5] [])) (fun s => decide ((alook 5 (s.core 0).posts).map (·.age) = some 15)) = true ∧
    onNext (exec (.ageStep ⟨0, 5⟩) ((postS [m5] []).modCore 0 fun y => { y with posts := [(5, { post5 with age := 3, stood := 2 * ageStep + 5 })] }))
      (fun s => decide ((alook 5 (s.core 0).posts).map (fun p => (p.age, p.stood)) = some (5, 5))) = true ∧
    onNext (exec (.stealRequest ⟨1, 0x400000⟩) ((postS [] [m5]).modCore 1 fun y => { y with posts := [(5, post5)] }))
      (fun s => decide (s.agenda = [.messageArrival ⟨1, m5.msg, none, true, m5.mark⟩])) = true := by
  refine ⟨by decide +kernel, by decide +kernel, by decide +kernel, by decide +kernel, rfl, by decide +kernel, by decide +kernel, by decide +kernel, rfl, by decide +kernel, by decide +kernel,
    ⟨_, 0x210000, _, by decide +kernel, rfl, by decide +kernel, ctl_of_check (by decide +kernel), _, wrote_of_check (by decide +kernel)⟩, by decide +kernel, ⟨_, rfl⟩, ?_⟩
  decide +kernel

/-- An activation of mode m that has ended, with one sector entry or none. -/
def consT (m : BitVec 2) (l : List SectEntry) (ovf : Bool) : Thread :=
  { codeT with life := .activation 5 m5.msg, ending := true, cons := some { cons1 with mode := m, sects := l, phase := .ended, overflow := ovf, hash := some 9, trig := { m5 with kept := true } } }

/-- The entry of the sector at 0x203000, one byte. -/
def sect0 : SectEntry := ⟨.mem 0x80C0, 0, 7, 1, BitVec.allOnes 512, [], 0, false, false⟩

/-- An activation of mode 1 that clears and has prepared i of its entries. -/
def consP (l : List SectEntry) (i : Nat) : Thread :=
  { consT 1 l false with cons := some { cons1 with mode := 1, sects := l, phase := .clearing i, hash := some 9, trig := { m5 with kept := true } } }

/-- The state with the activation, in a region that pairs and has a clearing order. -/
def consS (t : Thread) (q : List (Nat × Nat)) : State :=
  ((code (.nop ⟨g0⟩)).setCur t).modRegion 0x400000 fun r => { r with emode := 1, clearq := q, pairing := some 0x400000 }

theorem prep_of_check {r : PrepRes} (h : (match r with | .ok _ => true | _ => false) = true) : ∃ s, r = .ok s := by
  cases r <;> simp_all

/-- Clearing with an entry and without, in turn and out of turn, and what ends a consignment otherwise. -/
theorem witness_Consignments :
    (∀ m ∈ [(1 : BitVec 2), 3], ∀ l ∈ [[], [sect0]], ∀ b ∈ [true, false], ∃ y, Holds (consS (consT m l b) [(0, 0)]) 0 0 (consT m l b) y ∧ y.mode = m ∧ y.phase = .ended ∧
      y.sects = l ∧ y.overflow = b ∧ y.demote = false ∧ y.takes = true ∧ y.hash = some 9 ∧ y.msgs = [] ∧ (consT m l b).ops = []) ∧
    (∃ r, (consS (consT 3 [] false) [(0, 0)]).region? 0x400000 = some r ∧ r.clearq.head? = some (0, 0) ∧ r.pairing.isSome = true) ∧
    (∃ r, (consS (consT 3 [] false) [(0, 1)]).region? 0x400000 = some r ∧ r.clearq.head? ≠ some (0, 0)) ∧
    (∃ y s1, Holds (consS (consP [sect0] 0) []) 0 0 (consP [sect0] 0) y ∧ y.phase = .clearing 0 ∧ y.sorted[0]? = some sect0 ∧ sect0.bad = false ∧
      (consS (consP [sect0] 0) []).prepEntry 0 0 (consP [sect0] 0) y sect0 = .ok s1) ∧
    (∃ y, Holds (consS (consP [sect0] 1) []) 0 0 (consP [sect0] 1) y ∧ y.mode = 1 ∧ y.phase = .clearing 1 ∧ y.overflow = false ∧ y.msgs = [] ∧ y.sects = [sect0] ∧
      sect0.place = .mem 0x80C0 ∧ sect0.after = [] ∧ (consP [sect0] 1).ending = true ∧ (consP [sect0] 1).ops = []) ∧
    onNext (exec (.prep ⟨0, 0, 0⟩) (consS (consP [{ sect0 with bad := true }] 0) []))
      (fun s => decide (s.agenda = [.consignmentDrop ⟨0, 0, none, ⟨3, placeSec (.mem 0x80C0)⟩⟩])) = true ∧
    (∃ s : State, ∃ y rd, Holds s 0 0 (consT 3 [] false) y ∧ y.abortable = true ∧ (s.core 1).readers = [rd] ∧ rd.name = 20 / 4 ∧ rd.smask.getLsbD (20 % 4) = true ∧ rd.region = 0x400000 ∧
      keyLt ⟨0, 0⟩ rd.key = true ∧ s.findOrdered 0x400000 rd.key.tid = some (0, 0) ∧
      onNext (exec (.writeIntent ⟨0x400000, .loc 1 20, ⟨0, 0⟩⟩) s) (fun s => decide (s.thread? 0 0 = none)) = true) ∧
    onNext (exec (.clearing ⟨0, 0⟩) (consS (consT 1 [sect0] false) [])) (fun s => decide (s.agenda = [.prep ⟨0, 0, 0⟩])) = true ∧
    onNext (exec (.prep ⟨0, 0, 0⟩) (consS (consP [sect0] 0) [])) (fun s => decide (s.agenda = [.commit ⟨0, 0⟩])) = true ∧
    onNext (exec (.commit ⟨0, 0⟩) (consS (consP [sect0] 1) [])) (fun s => decide (s.thread? 0 0 = none ∧ memByte s.mem 0x203000 = 7)) = true ∧
    onNext (exec (.consignmentDrop ⟨0, 0, none, ⟨3, placeSec (.mem 0x80C0)⟩⟩) (consS (consT 1 [sect0] false) [])) (fun s => decide (s.thread? 0 0 = none ∧ memByte s.mem 0x203000 = 0)) = true ∧
    onNext (exec (.consignmentOverflow ⟨0, 0⟩) (consS (consT 1 [] true) [])) (fun s => decide (s.agenda = [.commit ⟨0, 0⟩])) = true ∧
    onNext (exec (.hashArrival ⟨0, 0, 9⟩) (consS (consT 2 [] false) [])) (fun s => decide (s.agenda = [.clearing ⟨0, 0⟩])) = true ∧
    onNext (exec (.hashArrival ⟨0, 0, 8⟩) (consS (consT 2 [] false) [])) (fun s => decide (s.agenda.length ≠ 0)) = true := by
  refine ⟨?_, ⟨_, rfl, by decide, by decide⟩, ⟨_, rfl, by decide⟩, ?_, ⟨_, ⟨rfl, rfl⟩, rfl, rfl, rfl, rfl, rfl, rfl, rfl, rfl, rfl⟩, by decide +kernel,
    ⟨(consS (consT 3 [] false) []).modCore 1 fun y => { y with readers := [⟨5, 1, ⟨1, 0⟩, 0x400000⟩] }, _, ⟨5, 1, ⟨1, 0⟩, 0x400000⟩, ⟨rfl, rfl⟩, by decide, by decide +kernel, rfl, by decide, rfl,
      by decide, by decide +kernel, by decide +kernel⟩, ?_⟩
  · intro m _ l _ b _; exact ⟨_, ⟨rfl, rfl⟩, rfl, rfl, rfl, rfl, rfl, rfl, rfl, rfl, rfl⟩
  · obtain ⟨s1, h⟩ := prep_of_check (r := (consS (consP [sect0] 0) []).prepEntry 0 0 (consP [sect0] 0)
      { cons1 with mode := 1, sects := [sect0], phase := .clearing 0, hash := some 9, trig := { m5 with kept := true } } sect0) (by decide +kernel)
    exact ⟨_, s1, ⟨rfl, rfl⟩, rfl, by decide +kernel, rfl, h⟩
  · decide +kernel

/-! ### Regions, functions and commands -/

/-- A region that has sent and consumed the same, after a first wave or before it. -/
def waveS (w : Option (Nat × Nat)) (sent : Nat) : State :=
  { (code (.nop ⟨g0⟩)).modRegion 0x400000 fun r => { r with sent := sent, consumed := 3, lastWave := w, tariff := 10, allow := 10, tceil := 20, slots := 1 } with threads := [] }

/-- The same with its thread. -/
def warmS : State := { waveS none 3 with threads := (code (.nop ⟨g0⟩)).threads }

/-- A partition with a drover whose block at 0x220000 has no valid stage, at the last count. -/
def droveS (on : Bool) : State :=
  { (code (.nop ⟨g0⟩)).modPart 0 fun q => { q with drover := ⟨on, 0x220000, []⟩ } with mem := memWrite (code (.nop ⟨g0⟩)).mem 0x220004 [255, 255, 255, 255] }

/-- Two stages, 1 from which core 3 leaves and 2, both of post 5 of the region. -/
def joinS : State :=
  let st : Nat := 1 + 2 ^ 6 * 0 + 5 * 2 ^ 2 + 0x400000 * 2 ^ 64
  { (code (.nop ⟨g0⟩)).modPart 0 fun q => { q with drover := ⟨true, 0x220000, [(3, (1, 2))]⟩ } with
    mem := memWrite (memWrite (code (.nop ⟨g0⟩)).mem (stagePa 0x220000 1) (toBytes 64 st)) (stagePa 0x220000 2) (toBytes 64 st) }

theorem holders_none (s : State) (p : Nat) (h : s.cores.all (fun e => e.2.l1.isEmpty) = true) : ∀ sec, s.holders p sec = [] := by
  intro sec
  simp only [State.holders, List.map_eq_nil_iff, List.filter_eq_nil_iff]
  intro e he
  simp only [List.all_eq_true] at h
  have := h e he
  simp only [List.isEmpty_iff] at this
  simp [this, alook]

/-- The last temperature that leaves class 3, the ceiling, and a wave of each kind. -/
theorem witness_RegionsMetersAndDrover :
    (∃ r, (waveS (some (3, 3)) 3).region? 0x400000 = some r ∧ r.rstate = .live ∧ r.emode ≠ 3 ∧ (waveS (some (3, 3)) 3).quiet 0x400000 r = true ∧ r.lastWave = some (r.sent, r.consumed)) ∧
    (∃ r, (waveS none 3).region? 0x400000 = some r ∧ (waveS none 3).quiet 0x400000 r = true ∧ r.lastWave ≠ some (r.sent, r.consumed)) ∧
    (∃ r, (waveS none 4).region? 0x400000 = some r ∧ (waveS none 4).quiet 0x400000 r = false) ∧
    (∃ s : State, ∃ r, (s.cluster 0).weights = [(0x400000, 1)] ∧ s.region? 0x400000 = some r ∧ r.parent = 0 ∧
      onNext (exec (.energyMeter ⟨0, 10⟩) s) (fun s => decide ((s.region? 0x400000).map (fun r => (r.charge, r.tmasked)) = some (10, true))) = true) ∧
    0x400000 ∈ warmS.regionsOn 0 ∧ (∃ r, warmS.region? 0x400000 = some r ∧ 4 * r.tceil ≤ 80 ∧ 32 + 48 ≤ 4 * r.tceil) ∧
    onNext (exec (.wave ⟨0x400000⟩) (waveS none 3)) (fun s => decide ((s.region? 0x400000).map (·.lastWave) = some (some (3, 3)))) = true ∧
    onNext (exec (.wave ⟨0x400000⟩) (waveS (some (3, 3)) 3)) (fun s => decide ((s.region? 0x400000).map (·.rstate) ≠ some .live)) = true ∧
    onNext (exec (.tariffWindow ⟨()⟩) (waveS none 3)) (fun s => decide ((s.region? 0x400000).map (fun r => (r.charge, r.allow)) = some (0, 10))) = true ∧
    onNext (exec (.temperatureRead ⟨0, 80⟩) warmS) (fun s => decide (alook 0x400000 (s.cluster 0).maxcls = some 0)) = true ∧
    onNext (exec (.temperatureRead ⟨0, 32⟩) warmS) (fun s => decide (alook 0x400000 (s.cluster 0).maxcls = some 3)) = true ∧
    (∃ q, (droveS true).part? 0 = some q ∧ q.drover.on = true ∧ q.drover.block % 64 = 0 ∧ (∀ sec, (droveS true).holders 0 sec = []) ∧
      (∀ line, ((droveS true).entry 0 line).coarse = false ∧ ((droveS true).entry 0 line).host = false) ∧ (∀ i < 16, memNat (droveS true).mem (q.drover.block + 64 + 64 * i) 1 % 2 = 0)) ∧
    (∃ q, (droveS false).part? 0 = some q ∧ q.drover.on = false) ∧
    onNext (exec (.droverPeriod ⟨0⟩) (droveS true)) (fun s => decide (memNat s.mem 0x220004 4 = 0)) = true ∧
    (∃ q, joinS.part? 0 = some q ∧ alook 3 q.drover.moving = some (1, 2)) ∧
    ((joinS.stages 0).1.find? (fun y => y.no = 1)).isSome = true ∧ ((joinS.stages 0).1.find? (fun y => y.no = 2)).isSome = true ∧
    (joinS.stages 0).2.drained 3 5 0x400000 = true ∧
    onNext (exec (.droverCoreJoin ⟨0, 3⟩) joinS) (fun s => decide ((s.part? 0).map (·.drover.moving) = some [])) = true := by
  refine ⟨⟨_, rfl, by decide +kernel⟩, ⟨_, rfl, by decide +kernel⟩, ⟨_, rfl, by decide +kernel⟩,
    ⟨warmS.modCluster 0 fun x => { x with weights := [(0x400000, 1)] }, _, by decide +kernel, rfl, by decide +kernel, by decide +kernel⟩, by decide +kernel,
    ⟨_, rfl, by decide +kernel⟩, by decide +kernel, by decide +kernel, by decide +kernel, by decide +kernel, by decide +kernel,
    ⟨_, rfl, rfl, by decide +kernel, holders_none _ _ (by decide +kernel), fun _ => ⟨rfl, rfl⟩, by decide +kernel⟩, ⟨_, rfl, rfl⟩, ?_⟩
  refine ⟨by decide +kernel, ⟨_, rfl, by decide +kernel⟩, ?_⟩
  decide +kernel

/-- A command: its operation, and its argument dwords. -/
def cmdOf (op : Nat) (l : List Nat) : BitVec 1024 :=
  (BitVec.ofNat 1024 op) ||| (BitVec.ofNat 1024 ((l.zipIdx.map fun x => x.1 * 2 ^ (64 * x.2)).sum) <<< 256)

/-- An accepted queue control block with rings at 0x230000 and 0x240000. -/
def qcb0 : Qcb := ⟨0x230000, 0x240000, 4, 4, 0, 0, false, 0⟩

/-- A queue with commands in slots. -/
def queueOf (st : QState) (l : List CmdSlot) : Queue := ⟨0x220000, some qcb0, 0, 0, st, 0, 0, 100000, l, none, [], 0⟩

/-- Function 0 with its administration queue and queue 1. -/
def fnS (st : QState) (l : List CmdSlot) : State := { code (.nop ⟨g0⟩) with fns := [(0, { Fn.reset with queues := [(0, queueOf st l), (1, queueOf st [])] })] }

/-- A running command in slot 0, or in another state. -/
def slotOf (c : BitVec 1024) (x : CmdSt) : CmdSlot := ⟨0, c, x, true, 0, 0, true⟩

/-- The command runs. -/
def cmdS (c : BitVec 1024) : State := fnS .active [slotOf c .running]

/-- The 128 bytes of a command that is sealed for index 0. -/
def sealedBytes : List Byte := List.replicate 127 0 ++ [255]

/-- That command in the ring. -/
def ringS : State := { (fnS .active []).setQueue 0 0 { queueOf .active [] with pidx := 1 } with mem := memWrite (code (.nop ⟨g0⟩)).mem 0x230000 sealedBytes }

/-- A notify of the whole ring, a command at each stage of its way, the last free place of the completion ring. -/
theorem witness_FunctionQueues :
    ((fnS .active []).fn 0).resetting = false ∧ (((fnS .active []).fn 0).msixAt 63).ctl.getLsbD 0 = true ∧ (code (.nop ⟨g0⟩)).queue? 0 0 = none ∧
    (fnS .active []).queue? 0 0 = some (queueOf .active []) ∧
    (∃ s : State, (s.fn 0).resetting = true) ∧
    ((fnS .active []).pollQcb 0 0).queue? 0 0 = some (queueOf .active []) ∧
    ((16 : BitVec 32).toNat + 2 ^ 32 - 0 % 2 ^ 32) % 2 ^ 32 ≤ 2 ^ qcb0.log2d ∧ (0 + 2 ^ 32 - 0 % 2 ^ 32) % 2 ^ 32 < ((16 : BitVec 32).toNat + 2 ^ 32 - 0 % 2 ^ 32) % 2 ^ 32 ∧
    ringS.queue? 0 0 = some { queueOf .active [] with pidx := 1 } ∧ (0 % 2 ^ 32 ≠ 1) ∧ ringS.ras.noFetch = false ∧ ringS.boot.recovery = false ∧
    (ringS.fnRead 0 0x230000 128).1 = sealedBytes ∧ cmdSealed sealedBytes 0 4 = true ∧
    cmdSealed ((fnS .active []).fnRead 0 0x230000 128).1 0 4 = false ∧
    (∃ z, [slotOf 0 .fetched].find? (fun z => z.st == .fetched) = some z ∧ cmdWait z.cmd = false ∧ (cmdEvent ⟨0, 0, z.idx, z.cmd⟩).isSome = true) ∧
    ((fnS .active []).pickCmd 0).1 = none ∧ ((fnS .active [slotOf 0 .fetched]).pickCmd 0).1 = some (0, slotOf 0 .fetched) ∧
    ((fnS .active [slotOf (cmdOf 15 []) .fetched]).pickCmd 0).1 = some (0, slotOf (cmdOf 15 []) .fetched) ∧ (queueOf .active []).fetchAt ≤ 0 ∧
    14 < (cmdOf 15 []).toNat % 256 ∧ cmdWait (cmdOf 15 []) = false ∧
    cmdCpl (cmdOf 0 []) = false ∧ cmdCpl (cmdOf 256 []) = true ∧ ofBytes ((fnS .active []).fnRead 0 0x220018 8).1 = 0 ∧ (15 + 2 ^ 64 - 0) % 2 ^ 64 < 2 ^ qcb0.log2c ∧
    gives (exec (.registerWrite ⟨0, 8 * 255, 16, false⟩) (fnS .active [])) ((fnS .active []).push [.notify ⟨0, 255, 16⟩]) = true ∧
    onNext (exec (.registerWrite ⟨0, 0x13F0, 5, true⟩) (fnS .active [])) (fun s => decide (((s.fn 0).msixAt 63).addr = 5)) = true ∧
    onNext (exec (.registerWrite ⟨0, 0x13FC, 0, false⟩) (fnS .active [])) (fun s => decide (((s.fn 0).msixAt 63).ctl = 0)) = true ∧
    onNext (exec (.admqcbCreate ⟨0, 0x800, 0x22003F, true⟩) (code (.nop ⟨g0⟩))) (fun s => decide ((s.fn 0).admqcb = 0x220000)) = true ∧
    onNext (exec (.admqcbDestroy ⟨0⟩) (fnS .active [])) (fun s => decide ((s.queue? 0 0).map (·.st) = some .destroyed)) = true ∧
    onNext (exec (.notify ⟨0, 0, 16⟩) (fnS .active [])) (fun s => decide ((s.queue? 0 0).map (·.pidx) = some 16 ∧ s.agenda = [.commandFetch ⟨0, 0⟩])) = true ∧
    onNext (exec (.commandFetch ⟨0, 0⟩) ringS) (fun s => decide ((s.queue? 0 0).map (fun y => (y.cidx, y.slots.length)) = some (1, 1))) = true ∧
    onNext (exec (.commandDispatch ⟨0, 0⟩) (fnS .active [slotOf 0 .fetched])) (fun s => decide (s.agenda.length = 2)) = true ∧
    onNext (exec (.completionWrite ⟨0, 0, 0⟩) (fnS .active [slotOf (cmdOf 256 []) (.done 0 0 0 0)])) (fun s => decide ((s.queue? 0 0).map (fun y => (y.done, y.slots)) = some (1, []))) = true := by
  refine ⟨rfl, by decide +kernel, rfl, rfl, ⟨(fnS .active []).modFn 0 fun x => { x with resetting := true }, by decide +kernel⟩, by decide +kernel, by decide +kernel, by decide +kernel,
    by decide +kernel, by decide, rfl, rfl, by decide +kernel, by decide +kernel, by decide +kernel, ⟨slotOf 0 .fetched, by decide +kernel, by decide +kernel, by decide +kernel⟩, ?_⟩
  decide +kernel

/-- The notify at both ends: D ahead, and one more; a queue that is not active. -/
theorem witness_NotifyRule :
    ((fnS .active []).fn 0).resetting = false ∧ ((fnS .active []).pollQcb 0 0).queue? 0 0 = some (queueOf .active []) ∧ (queueOf .active []).copy = some qcb0 ∧
    ((16 : BitVec 32).toNat + 2 ^ 32 - 0 % 2 ^ 32) % 2 ^ 32 ≤ 2 ^ qcb0.log2d ∧ (0 + 2 ^ 32 - 0 % 2 ^ 32) % 2 ^ 32 < ((16 : BitVec 32).toNat + 2 ^ 32 - 0 % 2 ^ 32) % 2 ^ 32 ∧
    2 ^ qcb0.log2d < ((17 : BitVec 32).toNat + 2 ^ 32 - 0 % 2 ^ 32) % 2 ^ 32 ∧
    ((0 : BitVec 32).toNat + 2 ^ 32 - 0 % 2 ^ 32) % 2 ^ 32 ≤ (0 + 2 ^ 32 - 0 % 2 ^ 32) % 2 ^ 32 ∧
    ((fnS .paused []).pollQcb 0 0).queue? 0 0 = some (queueOf .paused []) ∧ (queueOf .paused []).st ≠ .active ∧
    onNext (exec (.notify ⟨0, 0, 16⟩) (fnS .active [])) (fun s => decide ((s.queue? 0 0).map (·.pidx) = some 16)) = true ∧
    gives (exec (.notify ⟨0, 0, 17⟩) (fnS .active [])) ((fnS .active []).pollQcb 0 0) = true ∧
    gives (exec (.notify ⟨0, 0, 16⟩) (fnS .paused [])) ((fnS .paused []).pollQcb 0 0) = true := by decide +kernel

/-! ### Commands, switches, the link and the module -/

/-- A command in slot 0 of the administration queue. -/
def ev (op : Nat) (l : List Nat) : EvCmd := ⟨0, 0, 0, cmdOf op l⟩

/-- Whether a command runs in its slot and has no reserved bit set. -/
def runsB (s : State) (x : EvCmd) (fields : List (Nat × Nat)) : Bool :=
  (s.slot? x.fn x.q x.idx).any (fun y => y.st == .running && y.step == 0) && !(s.fn x.fn).resetting && !cmdReserved x.cmd fields

theorem runs_of_check (s : State) (x : EvCmd) (fields : List (Nat × Nat)) (h : runsB s x fields = true) : CmdRuns s x fields := by
  simp only [runsB, Bool.and_eq_true, Option.any_eq_true, Bool.not_eq_true', beq_iff_eq] at h
  obtain ⟨⟨⟨y, h1, h2, h3⟩, h4⟩, h5⟩ := h
  exact ⟨⟨y, h1, h2, h3⟩, h4, h5⟩

/-- An access of an ASID under way that has translated, in a partition (R78). -/
def tfHeld (s : State) (asid : BitVec 16) : Bool :=
  ((s.part? 0).elim false fun p => s.threads.any fun e => s.inAsid (homeList p) asid e &&
    e.2.ops.any fun o => o.parked.isNone && o.walk.isNone && o.kind.translated.isSome)

/-- Commands of the function, each running on a small machine. -/
theorem witness_Commands_1 :
    CmdRuns (cmdS (cmdOf 0 [])) (ev 0 []) [] ∧ CmdRuns (cmdS (cmdOf 11 [0xFFFF, 1])) (ev 11 [0xFFFF, 1]) [argF 0 0 16, argD 1] ∧
    CmdRuns (cmdS (cmdOf 7 [7])) (ev 7 [7]) [argF 0 0 16] ∧ CmdRuns (cmdS (cmdOf 12 [0x260000])) (ev 12 [0x260000]) [argD 0] ∧
    CmdRuns (cmdS (cmdOf 13 [0x260000, 0x261000])) (ev 13 [0x260000, 0x261000]) [argD 0, argD 1] ∧
    CmdRuns (cmdS (cmdOf 9 [255, 0x250000])) (ev 9 [255, 0x250000]) [argF 0 0 8, argD 1] ∧
    CmdRuns (cmdS (cmdOf 10 [1])) (ev 10 [1]) [argF 0 0 8] ∧ CmdRuns (cmdS (cmdOf 8 [0x260000, 0])) (ev 8 [0x260000, 0]) [argD 0, argF 1 0 1] ∧
    (∃ s p, (cmdS 0).part? ((cmdS 0).fn 0).part = some p ∧ s = cmdS 0 ∧ s.fnReach 0 0x260000 (8 * (homeList p).length + 8) = true ∧
      s.fnOwns 0 0x260000 1088 = true ∧ s.fnPriv 0 0x260000 1088 = true ∧ s.fnReach 0 0x261000 36 = true ∧ s.queue? 0 255 = none ∧
      s.fnReach 0 0x250000 192 = true ∧ s.queue? 0 1 = some (queueOf .active [])) ∧
    onNext (exec (.nopCommand (ev 0 [])) (cmdS (cmdOf 0 []))) (fun s => decide ((s.slot? 0 0 0).map (·.st) = some (.done 0 0 0 0))) = true ∧
    onNext (exec (.signal (ev 11 [0xFFFF, 1])) (cmdS (cmdOf 11 [0xFFFF, 1]))) (fun s => decide ((s.fn 0).counter 0xFFFF = 1)) = true ∧
    tfHeld (cmdS (cmdOf 7 [7])) 7 = false ∧
    tfHeld (withOp (cmdS (cmdOf 7 [0])) (.acc ⟨0x203000, [⟨none, 0x203000, 8, false⟩], .virt, 0, 8, 0, 0x40, false, false, .loadG 1 false⟩)) 0 = true ∧
    onNext (exec (.tflush (ev 7 [7])) (cmdS (cmdOf 7 [7]))) (fun s => decide ((s.slot? 0 0 0).map (·.st) = some (.done 0 0 0 0))) = true ∧
    onNext (exec (.mapq (ev 12 [0x260000])) (cmdS (cmdOf 12 [0x260000]))) (fun s => decide ((s.slot? 0 0 0).map (·.st) = some (.done 0 0 0 0))) = true ∧
    onNext (exec (.dirdump (ev 13 [0x260000, 0x261000])) (cmdS (cmdOf 13 [0x260000, 0x261000]))) (fun s => decide ((s.slot? 0 0 0).map (·.st) = some (.done 0 0 0 0))) = true ∧
    onNext (exec (.qcreate (ev 9 [255, 0x250000])) (cmdS (cmdOf 9 [255, 0x250000]))) (fun s => decide ((s.queue? 0 255).map (·.addr) = some 0x250000)) = true ∧
    onNext (exec (.qdestroy (ev 10 [1])) (cmdS (cmdOf 10 [1]))) (fun s => decide ((s.queue? 0 1).map (·.st) = some .destroyed)) = true ∧
    onNext (exec (.drover (ev 8 [0x260000, 0])) (cmdS (cmdOf 8 [0x260000, 0]))) (fun s => decide ((s.part? 0).map (·.drover.block) = some 0x260000)) = true := by
  refine ⟨runs_of_check _ _ _ (by decide +kernel), runs_of_check _ _ _ (by decide +kernel), runs_of_check _ _ _ (by decide +kernel),
    runs_of_check _ _ _ (by decide +kernel), runs_of_check _ _ _ (by decide +kernel), runs_of_check _ _ _ (by decide +kernel),
    runs_of_check _ _ _ (by decide +kernel), runs_of_check _ _ _ (by decide +kernel), ⟨_, _, rfl, rfl, by decide +kernel, by decide +kernel,
      by decide +kernel, by decide +kernel, by decide +kernel, by decide +kernel, by decide +kernel⟩, ?_⟩
  decide +kernel

/-- The running command on a region that function 0 launched. -/
def rcmdS (c : BitVec 1024) (f : Region → Region) : State := (cmdS c).modRegion 0x400000 fun r => f { r with launch := some (0, (0, 0)) }

/-- A region control block at 0x600000 whose map at 0x610000 holds cluster 0, with translation from 0x10000 and room for 16 cores. -/
def rcbS : State := { (cmdS (cmdOf 1 [0x600000, 0, 1])) with
  mem := memWrite (cmdS 0).mem 0x600000 (toBytes 512 ((2 ^ 16 - 1) * 2 ^ 256 + 0x610000 * 2 ^ 320 + 2 ^ 384 + 0x10000 * 2 ^ 512 + 16 * 128 * 2 ^ 1216)), regions := [] }

theorem go_of_check {r : LaunchRes} (h : (match r with | .go _ => true | _ => false) = true) : ∃ s, r = .go s := by
  cases r <;> simp_all

theorem table_of_check {r : Option (List Byte) × State} (h : (r.1.any fun bs => (List.range 64).all fun i => !postBad (postEntry bs i)) = true) :
    ∃ bs s, r = (some bs, s) ∧ ∀ i < 64, postBad (postEntry bs i) = false := by
  obtain ⟨o, s⟩ := r
  cases o with
  | none => simp at h
  | some bs => exact ⟨bs, s, rfl, by simpa using h⟩

/-- A LAUNCH of one part and one without parts; a region that has ended and one that has not. -/
theorem witness_Commands_2 :
    CmdRuns rcbS (ev 1 [0x600000, 0, 1]) ([argD 0, argD 1, argF 2 0 8] ++ (List.range 6).map fun i => argD (3 + i)) ∧
    (∃ s1, rcbS.launchSetup (ev 1 [0x600000, 0, 1]) 0x600000 = .go s1) ∧
    CmdRuns (cmdS (cmdOf 1 [0x600000])) (ev 1 [0x600000]) ([argD 0, argD 1, argF 2 0 8] ++ (List.range 6).map fun i => argD (3 + i)) ∧
    (cmdS 0).fnOwns 0 0x600000 512 = true ∧
    (∀ e, ∃ r, (rcmdS 0 fun r => { r with rstate := e }).regionFor 0 0x400000 = .ok r ∧ r.rstate = e ∧ r.crecDue = false) ∧
    CmdRuns (rcmdS (cmdOf 2 [0x400000]) id) (ev 2 [0x400000]) [argD 0] ∧
    CmdRuns (rcmdS (cmdOf 5 [0x400000, 15]) id) (ev 5 [0x400000, 15]) [argD 0, argF 1 0 4] ∧
    CmdRuns (rcmdS (cmdOf 6 [0x400000, 2 ^ 64 - 1]) id) (ev 6 [0x400000, 2 ^ 64 - 1]) [argD 0, argD 1] ∧
    (∃ r bs s1, (rcmdS 0 id).region? 0x400000 = some r ∧ (rcmdS 0 id).postTable 0x400000 r = (some bs, s1) ∧ ∀ i < 64, postBad (postEntry bs i) = false) ∧
    onNext (exec (.launch (ev 1 [0x600000, 0, 1])) rcbS) (fun s => decide ((s.region? 0x600000).map (fun r => (r.cmap, r.sent, r.rstate)) = some ([0], 1, .live) ∧ s.agenda.length = 1)) = true ∧
    onNext (exec (.launch (ev 1 [0x600000])) (cmdS (cmdOf 1 [0x600000]))) (fun s => decide ((s.slot? 0 0 0).map (·.st) = some (.done 3 0 0 0))) = true ∧
    onNext (exec (.rrelease (ev 2 [0x400000])) (rcmdS (cmdOf 2 [0x400000]) fun r => { r with rstate := .ended })) (fun s => decide (s.region? 0x400000 = none)) = true ∧
    onNext (exec (.rrelease (ev 2 [0x400000])) (rcmdS (cmdOf 2 [0x400000]) id)) (fun s => decide ((s.slot? 0 0 0).map (·.st) = some (.done 3 0 0 0))) = true ∧
    onNext (exec (.rprio (ev 5 [0x400000, 15])) (rcmdS (cmdOf 5 [0x400000, 15]) id)) (fun s => decide ((s.region? 0x400000).map (·.prio) = some 15)) = true ∧
    onNext (exec (.postset (ev 6 [0x400000, 2 ^ 64 - 1])) (rcmdS (cmdOf 6 [0x400000, 2 ^ 64 - 1]) id)) (fun s => decide ((s.slot? 0 0 0).map (·.st) = some (.done 0 0 0 0))) = true := by
  refine ⟨runs_of_check _ _ _ (by decide +kernel), go_of_check (by decide +kernel), runs_of_check _ _ _ (by decide +kernel), by decide +kernel,
    fun e => ?_, runs_of_check _ _ _ (by decide +kernel), runs_of_check _ _ _ (by decide +kernel), runs_of_check _ _ _ (by decide +kernel), ?_, ?_⟩
  · cases e <;> exact ⟨_, rfl, rfl, rfl⟩
  · obtain ⟨bs, s1, h⟩ := table_of_check (r := (rcmdS 0 id).postTable 0x400000 { Region.blank with launch := some (0, (0, 0)) }) (by decide +kernel)
    exact ⟨_, bs, s1, rfl, h⟩
  · decide +kernel

/-- A switch that function 0 began. -/
def sw0 : Switch := Switch.begin 0 0x800000 1000 (some (0, (0, 0))) [] []

/-- The same switch once its state is saved. -/
def sw1 : Switch := { sw0 with done := true }

/-- The region vacated once, with its save area at 0, and RESTORE with another save area. -/
def backS (a : Nat) : State := rcmdS (cmdOf 4 [0x400000, a]) fun r => { r with vacated := [{ sw1 with sva := 0 }] }

/-- PREEMPT of the region with its save area at 0x800000, in 10 µs, with a list of one cluster at 0x260000. -/
def preempt (mode : Nat) : List Nat := [0x400000, mode + 2 ^ 16 + 10 * 2 ^ 32, 0x800000, 0x260000]

/-- The region spans two clusters, and the list names cluster 1. -/
def preS (mode : Nat) : State := { rcmdS (cmdOf 3 (preempt mode)) fun r => { r with cmap := [0, 1] } with mem := memWrite (cmdS 0).mem 0x260000 [1, 0] }

/-- A partition of two functions, and one of one function. -/
def fnsS (l : List Nat) : State := (code (.nop ⟨g0⟩)).modPart 0 fun q => { q with fns := l }

/-- Both forms of PREEMPT at the shortest time, RESTORE with and without a switch, RESIZE to the same tract, a deadline on both sides, a quantum's end, a core's removal. -/
theorem witness_SwitchesBegin :
    (∃ r, (preS 0).regionFor 0 0x400000 = .ok r ∧ r.switch = none ∧ r.rstate ≠ .ended ∧ (preS 0).areaOk 0 0x800000 r = true) ∧
    CmdRuns (preS 0) (ev 3 (preempt 0)) (argD 0 :: preemptFields) ∧ (preS 0).fnOwns 0 0x800000 1 = true ∧
    CmdRuns (preS 1) (ev 3 (preempt 1)) (argD 0 :: preemptFields) ∧ cmdArg (cmdOf 3 (preempt 1)) 1 / 2 ^ 32 % 2 ^ 16 = 10 ∧
    (∃ s r, s = preS 1 ∧ s.region? 0x400000 = some r ∧ s.fnReach 0 0x260000 2 = true ∧ mapEntries (s.fnRead 0 0x260000 2).1 1 = some [1] ∧
      ([1].all fun k => r.cmap.contains k && r.aliases.all fun e => clusterOf e.1 ≠ k && clusterOf e.2 ≠ k) = true ∧ (s.fnRead 0 0x260000 2).2.pickHosts r [1] [1] = some [(1, 0)]) ∧
    CmdRuns (rcmdS (cmdOf 4 [0x400000, 0x800000]) id) (ev 4 [0x400000, 0x800000]) [argD 0, argD 1] ∧
    CmdRuns (backS 0x800000) (ev 4 [0x400000, 0x800000]) [argD 0, argD 1] ∧
    (∃ r, (backS 0x800000).regionFor 0 0x400000 = .ok r ∧ r.switch = none ∧ r.vacated.getLast? = some { sw1 with sva := 0 } ∧ (∀ v ∈ r.vacated, v.sva ≠ 0x800000) ∧
      (backS 0x800000).areaOk 0 0x800000 r = true) ∧
    CmdRuns (cmdS (cmdOf 14 [0, 1])) (ev 14 [0, 1]) [argF 0 0 6, argD 1, argD 2, argF 3 0 32] ∧
    (∃ q, (cmdS 0).part? 0 = some q ∧ tractList (cmdOf 14 [0, 1]) = [0] ∧ q.resize = none ∧ (cmdS 0).parts.length = 1 ∧ q.blocksUsed ≤ q.cvw * 512 * 64 ∧
      (cmdS 0).leaving 0 [0] = []) ∧ ((cmdS 0).modPart 0 fun q => { q with tracts := [0] }).partsOk = true ∧
    (∃ q, (fnsS [0, 1]).part? 0 = some q ∧ q.nextFn = some 1 ∧ q.world = none ∧ q.resize = none) ∧ (∃ q, (fnsS [0]).part? 0 = some q ∧ q.nextFn = none) ∧
    (∃ r, (cmdS 0).regions = [(0x400000, r)] ∧ r.switch = none ∧ r.present = true ∧ r.cmap.contains (clusterOf 0) = true ∧ r.aliases = []) ∧
    clusterOf (coreOfCluster 0 15) = clusterOf 0 ∧ (cmdS 0).coreEnabled (coreOfCluster 0 15) = true ∧ (cmdS 0).coreEnabled 0 = true ∧
    onNext (exec (.preemptSwitch (ev 3 (preempt 0))) (preS 0)) (fun s => decide (((s.region? 0x400000).bind (·.switch)).map (fun w => (w.mode, w.deadline)) = some (0, 10000))) = true ∧
    onNext (exec (.preemptSpatial (ev 3 (preempt 1))) (preS 1)) (fun s => decide (((s.region? 0x400000).bind (·.switch)).map (fun w => (w.mode, w.engines)) = some (2, [(1, 0)]))) = true ∧
    onNext (exec (.restore (ev 4 [0x400000, 0x800000])) (rcmdS (cmdOf 4 [0x400000, 0x800000]) id)) (fun s => decide ((s.slot? 0 0 0).map (·.st) = some (.done 3 0 0 0))) = true ∧
    onNext (exec (.restore (ev 4 [0x400000, 0x800000])) (rcmdS (cmdOf 4 [0x400000, 0x800000]) fun r => { r with switch := some sw1 })) (fun s => decide (((s.region? 0x400000).bind (·.switch)).map (·.restore) = some (some (0, (0, 0))))) = true ∧
    sw1.sva = 0x800000 ∧ sw1.done = true ∧ sw1.restore = none ∧ ((backS 0x800000).fnOwns 0 0x800000 1 = true) ∧
    onNext (exec (.restore (ev 4 [0x400000, 0x800000])) (backS 0x800000)) (fun s =>
      decide (((s.region? 0x400000).map fun r => (r.vacated.length, r.switch.map fun w => (w.sva, w.restore.isSome))) = some (0, some (0x800000, true)))) = true ∧
    onNext (exec (.resize (ev 14 [0, 1])) (cmdS (cmdOf 14 [0, 1]))) (fun s => decide (((s.part? 0).bind (·.resize)).map (·.tracts) = some [0])) = true ∧
    onNext (exec (.switchDeadline ⟨0x400000⟩) ({ rcmdS 0 (fun r => { r with switch := some sw0 }) with gt := 1000 })) (fun s => decide (((s.region? 0x400000).bind (·.switch)).map (·.cut) = some true)) = true ∧
    gives (exec (.switchDeadline ⟨0x400000⟩) ({ rcmdS 0 (fun r => { r with switch := some sw0 }) with gt := 999 })) ({ rcmdS 0 (fun r => { r with switch := some sw0 }) with gt := 999 }) = true ∧
    onNext (exec (.quantumExpiry ⟨0⟩) (fnsS [0, 1])) (fun s => decide (((s.part? 0).bind (·.world)).map (fun w => (w.out, w.into)) = some (0, 1))) = true ∧
    onNext (exec (.quantumExpiry ⟨0⟩) (fnsS [0])) (fun s => decide ((s.part? 0).map (·.quantumEnd) = some 2000000)) = true ∧
    onNext (exec (.coreRemoval ⟨0, coreOfCluster 0 15⟩) (cmdS 0)) (fun s => decide (((s.region? 0x400000).bind (·.switch)).map (fun w => (w.mode, w.moves)) = some (2, [(0, coreOfCluster 0 15)]))) = true := by
  refine ⟨⟨_, rfl, by decide +kernel, by decide +kernel, by decide +kernel⟩, runs_of_check _ _ _ (by decide +kernel), by decide +kernel, runs_of_check _ _ _ (by decide +kernel), by decide +kernel, ⟨_, _, rfl, rfl, by decide +kernel, by decide +kernel, by decide +kernel, by decide +kernel⟩, runs_of_check _ _ _ (by decide +kernel), runs_of_check _ _ _ (by decide +kernel), ⟨_, rfl, by decide +kernel, rfl, by decide +kernel, by decide +kernel⟩, runs_of_check _ _ _ (by decide +kernel), ⟨_, rfl, by decide +kernel, rfl, by decide +kernel, by decide +kernel, by decide +kernel⟩, by decide +kernel, ⟨_, rfl, by decide +kernel, rfl, rfl⟩, ⟨_, rfl, by decide +kernel⟩, ⟨_, rfl, by decide +kernel, by decide +kernel, by decide +kernel, rfl⟩, ?_⟩
  decide +kernel

/-- A descriptor from its fields. -/
def dsc (l : List (Nat × Nat × Nat)) : V512 := BitVec.ofNat 512 (packFields l)

/-- Endpoint 0 with one descriptor in its ring of 16, a window of 4096 bytes, and group 255 of the modules 0 and 5. -/
def lnk (d : V512) : State :=
  let s := (code (.nop ⟨g0⟩)).modPart 0 fun q => { q with ports := [0] }
  let m := memWrite s.mem 0 (toBytes 64 (packFields [(0, 1, 1), (2, 3, 7), (16, 16, 0xFFFF), (64, 52, 0x700000), (128, 40, 4096), (192, 52, 0x720000), (244, 4, 4), (256, 52, 0x730000), (320, 64, 1)]))
  let m := memWrite m 0x720000 (toBytes 64 d.toNat)
  { s with mem := memWrite m 0x40FF00 [2, 0, 0, 0, 5, 0] }

/-- What a check says of the descriptor at the head of endpoint 0. -/
def headB (s : State) (P : Part → LinkCtx → V512 → State → Bool) : Bool :=
  match s.part? 0, s.linkCtx 0 0 with
  | some q, (some y, s1) => y.sends && decide (y.sqcons = 0) && decide (0 < y.sqprod) && P q y (s1.readDesc 0 y 0).1 (s1.readDesc 0 y 0).2
  | _, _ => false

theorem head_of_check {s : State} {P : Part → LinkCtx → V512 → State → Bool} (h : headB s P = true) :
    ∃ q y d s', AtHead s ⟨0, 0, 0⟩ q y d s' ∧ P q y d s' = true := by
  unfold headB at h
  split at h
  · rename_i q y s1 h1 h2
    simp only [Bool.and_eq_true, decide_eq_true_eq] at h
    exact ⟨q, y, _, _, ⟨h1, s1, h2, h.1.1.1, h.1.1.2, h.1.2, rfl⟩, h.2⟩
  · simp at h

/-- A GET and a PUT of two bytes on both sides of a 512-byte boundary of the target. -/
def getD : V512 := dsc [(0, 8, 2), (16, 16, 5), (64, 64, 511), (128, 52, 0x740000), (192, 32, 2)]
def putD : V512 := dsc [(0, 8, 1), (16, 16, 5), (64, 64, 511), (128, 52, 0x740000), (192, 32, 2)]

/-- The atomics, 4 and 8 bytes wide. -/
def atomD (op : Nat) : V512 := dsc [(0, 8, op), (10, 2, 2 + op % 2), (16, 16, 5), (64, 64, 8), (256, 64, 7), (320, 64, 9)]

/-- An all-reduce of one i32 in group 255. -/
def allD : V512 := dsc [(0, 8, 6), (16, 16, 255), (64, 64, 4092), (128, 52, 0x740000), (192, 32, 4), (224, 32, 3), (256, 6, 0x11)]

/-- The next descriptor, each operation, one that breaks a limit. -/
theorem witness_CaravanLink_1 :
    (∃ q y d s', AtHead (lnk getD) ⟨0, 0, 0⟩ q y d s' ∧ (decide (d = getD) && !descBad d && decide (s'.openReqs 0 0 = []) && (descEvent ⟨0, 0, 0⟩ d).isSome &&
      q.holds (descF d 128 52) (descF d 192 32) && decide (packetsOf 511 2 = [(0, 1), (1, 1)])) = true) ∧
    (∃ q y d s', AtHead (lnk putD) ⟨0, 0, 0⟩ q y d s' ∧ (decide (d = putD) && !descBad d && q.holds (descF d 128 52) (descF d 192 32) &&
      (match State.linkRead 0 (descF d 128 52) (descF d 192 32) s' with | .ok bs _ => decide (bs = [0, 0]) | _ => false)) = true) ∧
    (∀ op ∈ [3, 4, 5], ∃ q y d s', AtHead (lnk (atomD op)) ⟨0, 0, 0⟩ q y d s' ∧ (decide (descF d 0 8 = op) && !descBad d) = true) ∧
    (∃ q y d s', AtHead (lnk allD) ⟨0, 0, 0⟩ q y d s' ∧ (!descBad d &&
      (match s'.linkCtx 0 (descF d 32 16) with
        | (some y', s2) => decide (collOp d = some (.add, .i32, false)) && decide ((s2.groupOf 0 255).1 = some [0, 5]) && decide (s2.modId = 0) && decide (y'.wlen = 4096) &&
          q.holds (y'.wbase + 4092) 4 && q.holds 0x740000 4 && (match State.linkRead 0 0x740000 4 s2 with | .ok bs s3 => decide (bs = [0, 0, 0, 0] ∧ s3.colls = []) | _ => false)
        | _ => false)) = true) ∧
    (∃ q y d s', AtHead (lnk (dsc [(0, 8, 2)])) ⟨0, 0, 0⟩ q y d s' ∧ (decide (descF d 0 8 = 2) && descBad d) = true) ∧
    onNext (exec (.sqprod ⟨0, 0⟩) (lnk getD)) (fun s => decide (s.agenda = [.get ⟨0, 0, 0⟩])) = true ∧
    onNext (exec (.get ⟨0, 0, 0⟩) (lnk getD)) (fun s => decide ((s.port 0).retry.map (fun k => (k.roff, k.op, k.laddr)) = [(511, .get 1, 0x740000), (512, .get 1, 0x740001)])) = true ∧
    onNext (exec (.put ⟨0, 0, 0⟩) (lnk putD)) (fun s => decide ((s.port 0).retry.map (·.op) = [.put [0], .put [0]])) = true ∧
    onNext (exec (.aadd ⟨0, 0, 0⟩) (lnk (atomD 3))) (fun s => decide ((s.port 0).retry.map (·.op) = [.aadd true 7])) = true ∧
    onNext (exec (.acas ⟨0, 0, 0⟩) (lnk (atomD 4))) (fun s => decide ((s.port 0).retry.map (·.op) = [.acas false 7 9])) = true ∧
    onNext (exec (.aswp ⟨0, 0, 0⟩) (lnk (atomD 5))) (fun s => decide ((s.port 0).retry.map (·.op) = [.aswp true 7])) = true ∧
    onNext (exec (.allred ⟨0, 0, 0⟩) (lnk allD)) (fun s => decide (s.colls.map (fun c => (c.own, c.tag, c.mods)) = [([0, 0, 0, 0], 3, [0, 5])])) = true ∧
    onNext (exec (.get ⟨0, 0, 0⟩) (lnk (dsc [(0, 8, 2)]))) (fun s => decide (s.reqs = [] ∧ memNat s.mem 48 8 = 1)) = true := by
  refine ⟨head_of_check (by decide +kernel), head_of_check (by decide +kernel), ?_, head_of_check (by decide +kernel), head_of_check (by decide +kernel), ?_⟩
  · intro op h
    fin_cases h
    · exact head_of_check (by decide +kernel)
    · exact head_of_check (by decide +kernel)
    · exact head_of_check (by decide +kernel)
  · decide +kernel

/-- A request for endpoint 0 of the partition, at time 0, which is its expiry. -/
def reqE (roff : Nat) (op : LinkOp) : EvLinkReq := ⟨0, 0, 0, 0, 0, roff, op, 0⟩

/-- The port with the context cached, with a packet, or with the limits of its counters. -/
def prt (f : Port → Port) : State := (lnk putD).modPort 0 f
def lpkt (n : Nat) (ans : Option LinkAns) : LinkPkt := ⟨0, 0, 0, 0, 5, 0, 0, .put [0], 0x740000, if ans.isSome then [] else [25000], 0, n, ans⟩

/-- Each way of a request at its target, an answer and a retry at their bounds, a beacon, an abort, an expiry, the fifteenth error. -/
theorem witness_CaravanLink_2 :
    (∃ q, (lnk putD).part? 0 = some q ∧ q.portOf 0 = some 0) ∧ (lnk putD).gt ≤ 0 ∧ (lnk putD).linkStays 0 (reqE 0 (.get 2)) = false ∧ (prt fun y => { y with synced := false }).linkStays 0 (reqE 0 (.get 2)) = true ∧
    (lnk putD).linkHeld 0 = false ∧ ((lnk putD).modPart 0 fun q => { q with frozen := true }).linkHeld 0 = true ∧ ((lnk putD).port 0).synced = true ∧ ((lnk putD).port 0).disabled = false ∧ ((lnk putD).port 0).seen = [] ∧ linkRight (.put [1, 2]) ≠ 2 ∧ linkRight (.get 2) ≠ 2 ∧
    ((lnk putD).port 0).atoms = [] ∧ ((lnk putD).port 0).cached.contains (0, 0) = false ∧ ((lnk putD).port 0).waiting.length < 64 ∧
    (∃ s : State, s = prt (fun y => { y with cached := [(0, 0)] }) ∧ (s.port 0).cached.contains (0, 0) = true ∧ s.linkStays 0 (reqE 4094 (.get 2)) = false ∧ (s.port 0).atoms = [] ∧
      (match s.part? 0, s.linkCtx 0 0 with
        | some q, (c, s1) => (match State.linkTarget q c (reqE 4095 (.put [1, 2])) with | .error 3 => true | _ => false) &&
          (match State.linkTarget q c (reqE 4094 (.put [1, 2])) with | .ok a => (match State.linkPut 0 a [1, 2] s1 with | .ok _ _ => true | _ => false) | _ => false) &&
          (match State.linkTarget q c (reqE 4094 (.get 2)) with | .ok a => (match State.linkRead 0 a 2 s1 with | .ok bs _ => decide (bs = [0, 0]) | _ => false) | _ => false)
        | _, _ => false) = true) ∧
    (∀ a, ((prt fun y => { y with retry := [lpkt 7 a] }).port 0).pkt? 0 = some (lpkt 7 a)) ∧ (lnk putD).gt < 1 ∧ (lpkt 7 none).again ≤ (lnk putD).gt ∧ (lpkt 7 none).tmod ≠ (lnk putD).modId ∧
    (lpkt 7 none).ans = none ∧ (lpkt 7 none).unanswered < 8 ∧ (lpkt 7 none).retirable 0 = false ∧ (lpkt 7 (some (.status 0))).retirable 0 = true ∧
    (∃ c : Coll, ({ lnk putD with colls := [c] } : State).colls.find? (fun c => c.part = 0 && c.group = 0 && c.tag = 0) = some c) ∧
    (((prt fun y => { y with crc := List.replicate 14 0 }).port 0).crc.filter fun t => 0 < t + 1000).length < 15 ∧
    15 ≤ (((prt fun y => { y with crc := List.replicate 15 0 }).port 0).crc.filter fun t => 0 < t + 1000).length ∧
    gives (exec (.linkRequestArrival (reqE 0 (.get 2))) (lnk putD)) (((lnk putD).modPort 0 fun y => { y with waiting := [reqE 0 (.get 2)] }).push [.endpointContextFill ⟨0, 0, 0⟩]) = true ∧
    onNext (exec (.linkRequestArrival (reqE 4094 (.put [1, 2]))) (prt fun y => { y with cached := [(0, 0)] })) (fun s => decide (memNat s.mem 0x700FFE 2 = 0x201 ∧ s.agenda = [.linkAcknowledgement ⟨0, 0, 0, .ok 0 [], 0⟩])) = true ∧
    onNext (exec (.linkRequestArrival (reqE 4095 (.put [1, 2]))) (prt fun y => { y with cached := [(0, 0)] })) (fun s => decide (s.agenda = [.linkAcknowledgement ⟨0, 0, 0, .status 3, 0⟩])) = true ∧
    onNext (exec (.linkRequestArrival (reqE 4094 (.get 2))) (prt fun y => { y with cached := [(0, 0)] })) (fun s => decide (s.agenda = [.linkAcknowledgement ⟨0, 0, 0, .ok 0 [0, 0], 0⟩])) = true ∧
    onNext (exec (.endpointContextFill ⟨0, 0, 0⟩) (prt fun y => { y with waiting := [reqE 0 (.get 2)] })) (fun s => decide ((s.port 0).cached = [(0, 0)] ∧ (s.port 0).waiting = [])) = true ∧
    onNext (exec (.linkAcknowledgement ⟨0, 0, 0, .nack 2000, 25000⟩) (prt fun y => { y with retry := [lpkt 7 none] })) (fun s => decide ((s.port 0).retry.map (fun k => (k.again, k.unanswered)) = [(2000, 6)])) = true ∧
    onNext (exec (.linkAcknowledgement ⟨0, 0, 0, .status 2, 25000⟩) (prt fun y => { y with retry := [lpkt 7 none] })) (fun s => decide ((s.port 0).retry.map (·.ans) = [some (.status 2)] ∧ (s.port 0).retry.map (·.expiries) = [[]])) = true ∧
    onNext (exec (.linkRetry ⟨0, 0, 0⟩) (prt fun y => { y with retry := [lpkt 7 none] })) (fun s => decide ((s.port 0).retry.map (fun k => (k.again, k.unanswered)) = [(20000, 8)])) = true ∧
    onNext (exec (.linkRetire ⟨0, 0, 0⟩) (prt fun y => { y with retry := [lpkt 7 (some (.status 0))] })) (fun s => decide ((s.port 0).retry = [])) = true ∧
    onNext (exec (.linkBeacon ⟨0, -250⟩) (lnk putD)) (fun s => (s.port 0).synced) = true ∧ onNext (exec (.linkBeacon ⟨0, 251⟩) (lnk putD)) (fun s => !(s.port 0).synced) = true ∧
    onNext (exec (.atomicResultCacheExpiry ⟨0, 0, 0, 0⟩) ({ prt (fun y => { y with atoms := [⟨0, 0, 0, 0, 0⟩, ⟨0, 0, 1, 0, 0⟩] }) with gt := 250 })) (fun s => decide ((s.port 0).atoms = [⟨0, 0, 1, 0, 0⟩])) = true ∧
    onNext (exec (.flitCrcFailure ⟨0⟩) (prt fun y => { y with crc := List.replicate 14 0 })) (fun s => decide ((s.port 0).crc.length = 15 ∧ s.agenda = [])) = true ∧
    onNext (exec (.flitCrcFailure ⟨0⟩) (prt fun y => { y with crc := List.replicate 15 0 })) (fun s => decide (s.agenda = [.customsAlarm ⟨1, some 0⟩])) = true := by
  refine ⟨⟨_, rfl, rfl⟩, by decide +kernel, rfl, rfl, rfl, rfl, rfl, rfl, rfl, by decide, by decide, rfl, rfl, by decide +kernel, ⟨_, rfl, by decide +kernel⟩, fun a => ?_, by decide +kernel, by decide +kernel, by decide +kernel, rfl, by decide +kernel, by decide +kernel, by decide +kernel, ?_, ?_⟩
  · rfl
  · exact ⟨⟨0, 0, 0, 0, 0, 0, [], [], [], [], [], false⟩, by decide⟩
  · decide +kernel

/-- FIPS 180-4's example: the digest of "abc". -/
theorem test_sha256 : sha256 [0x61, 0x62, 0x63] = 0xba7816bf8f01cfea414140de5dae2223b00361a396177a9cb410ff61f20015ad := by decide +kernel

/-- The module at an alarm level. -/
def alm (n : Nat) (halted : Bool) : State := { code (.nop ⟨g0⟩) with ras := { (code (.nop ⟨g0⟩)).ras with alarm := n, halted := halted, erased := halted } }

/-- Plans at the ends of their steps, each alarm level, a reset with and without the host's byte, an answer and none. -/
theorem witness_ModuleEvents :
    (code (.nop ⟨g0⟩)).ownerOf (2 ^ 35) = none ∧ (code (.nop ⟨g0⟩)).ras.pllog2n = 0 ∧ (code (.nop ⟨g0⟩)).registersAt (2 ^ 35) = none ∧
    (code (.nop ⟨g0⟩)).l1Ahead (2 ^ 29) = false ∧ (code (.nop ⟨g0⟩)).l2Ahead (2 ^ 29) = false ∧ (code (.nop ⟨g0⟩)).poisonOf (2 ^ 29) = none ∧
    planOk 150 1200 = true ∧ planOk 155 1200 = false ∧ (alm 0 true).ras.halted = true ∧ (alm 2 false).ras.halted = false ∧ (alm 2 false).ras.alarm = 2 ∧ (alm 1 false).ras.alarm ≠ 2 ∧
    (alm 0 true).ras.erased = true ∧ (alm 0 false).ras.erased = false ∧ (∃ s : State, s.ras.erased = false ∧ s.boot.recovery = false) ∧
    onNext (exec (.scrub ⟨.dram (2 ^ 35), .uncorrectable⟩) (code (.nop ⟨g0⟩))) (fun s => decide (s.poisonOf (2 ^ 29) = some 7)) = true ∧
    gives (exec (.scrub ⟨.dram (2 ^ 35), .corrected⟩) (code (.nop ⟨g0⟩))) (code (.nop ⟨g0⟩)) = true ∧
    onNext (exec (.marginReplan ⟨0, 150, 1200⟩) (code (.nop ⟨g0⟩))) (fun s => decide ((s.cluster 0).mv = 150 ∧ (s.cluster 0).mhz = 1200 ∧ (s.cluster 0).grade = 3)) = true ∧
    gives (exec (.scrub ⟨.tile 1 2 0, .uncorrectable⟩) (code (.nop ⟨g0⟩))) ((code (.nop ⟨g0⟩)).push [.tileError ⟨1, 2, 0⟩]) = true ∧
    gives (exec (.marginReplan ⟨0, 150, 1201⟩) (code (.nop ⟨g0⟩))) (code (.nop ⟨g0⟩)) = true ∧
    onNext (exec (.customsAlarm ⟨3, none⟩) (alm 0 false)) (fun s => decide (s.ras.halted = true ∧ s.ras.erased = true)) = true ∧
    onNext (exec (.customsAlarm ⟨1, some 0⟩) (alm 0 false)) (fun s => decide ((s.port 0).disabled = true ∧ s.ras.alarm = 1)) = true ∧
    onNext (exec (.level2Clear ⟨()⟩) (alm 2 false)) (fun s => decide (s.ras.alarm = 0)) = true ∧
    gives (exec (.level2Clear ⟨()⟩) (alm 1 false)) (alm 1 false) = true ∧
    onNext (exec (.coldReset ⟨[]⟩) ({ code (.nop ⟨g0⟩) with mem := memWrite (memWrite [] 5 [1]) (2 ^ 51) [2] })) (fun s => decide (s.threads = [] ∧ s.mem = [(2 ^ 51, 2)])) = true ∧
    onNext (exec (.getMeasurements ⟨7⟩) ({ code (.nop ⟨g0⟩) with boot := { Boot.reset with recovery := false } })) (fun s => decide (s.boot.answers.map (·.nonce) = [7])) = true := by
  refine ⟨by decide +kernel, rfl, by decide +kernel, by decide +kernel, by decide +kernel, by decide +kernel, by decide, by decide, rfl, rfl, rfl, by decide, rfl, rfl,
    ⟨{ code (.nop ⟨g0⟩) with boot := { Boot.reset with recovery := false } }, rfl, rfl⟩, ?_⟩
  decide +kernel

/-! ### Guards, divisions, frames -/

/-- A guard that is false. -/
theorem witness_FalseGuard :
    guardOf (.add ⟨⟨1, false⟩, .w64, 1, 2, 3⟩) = some ⟨1, false⟩ ∧ (two 1 2).curT? = some ((thr.wg 2 1).wg 3 2) ∧ ((thr.wg 2 1).wg 3 2).guard ⟨1, false⟩ = false ∧
    gives (exec (.add ⟨⟨1, false⟩, .w64, 1, 2, 3⟩) (two 1 2)) (two 1 2) = true := by decide +kernel

/-- Division by zero and of the most negative number by -1, in 8 and in 64 bits, and by an immediate. -/
theorem witness_DivisionCorners :
    Runs (two 0x80 0) ((thr.wg 2 0x80).wg 3 0) g0 ∧ uns (bits .w8) (((thr.wg 2 0x80).wg 3 0).rg 3) = 0 ∧ Runs (two 0x80 0xFF) ((thr.wg 2 0x80).wg 3 0xFF) g0 ∧
    sig (bits .w8) (((thr.wg 2 0x80).wg 3 0xFF).rg 2) = -(2 ^ (bits .w8 - 1)) ∧ sig (bits .w8) (((thr.wg 2 0x80).wg 3 0xFF).rg 3) = -1 ∧
    (((thr.wg 2 (2 ^ 63)).wg 3 0).rg 2).toInt = -(2 ^ 63) ∧
    after (.div ⟨g0, .w8, 1, 2, 3⟩) (two 0x80 0) (·.rg 1) = some (2 ^ 64 - 1) ∧ after (.divu ⟨g0, .w8, 1, 2, 3⟩) (two 0x80 0) (·.rg 1) = some (2 ^ 64 - 1) ∧
    after (.rem ⟨g0, .w8, 1, 2, 3⟩) (two 0x80 0) (·.rg 1) = some 0xFFFFFFFFFFFFFF80 ∧ after (.remu ⟨g0, .w8, 1, 2, 3⟩) (two 0x80 0) (·.rg 1) = some 0xFFFFFFFFFFFFFF80 ∧
    after (.div ⟨g0, .w8, 1, 2, 3⟩) (two 0x80 0xFF) (·.rg 1) = some 0xFFFFFFFFFFFFFF80 ∧ after (.rem ⟨g0, .w8, 1, 2, 3⟩) (two 0x80 0xFF) (·.rg 1) = some 0 ∧
    after (.divImm ⟨g0, 1, 2, 0⟩) (two 5 0) (·.rg 1) = some (2 ^ 64 - 1) ∧ after (.remuImm ⟨g0, 1, 2, 0⟩) (two 5 0) (·.rg 1) = some 5 ∧
    after (.divImm ⟨g0, 1, 2, -1⟩) (two (2 ^ 63) 0) (·.rg 1) = some (2 ^ 63) ∧ after (.remuImm ⟨g0, 1, 2, -1⟩) (two (2 ^ 63) 0) (·.rg 1) = some (2 ^ 63) := by
  refine ⟨⟨rfl, by decide +kernel⟩, by decide +kernel, ⟨rfl, by decide +kernel⟩, by decide +kernel, by decide +kernel, by decide +kernel, ?_⟩
  decide +kernel

/-- An instruction of the frame with a register that it writes, and one that may set a flag. -/
theorem witness_RegisterFrame :
    destOf (.add ⟨g0, .w64, 1, 2, 3⟩) = some (.g 1, false) ∧ destOf (.vadd ⟨g0, .f32, .rctl, false, false, 1, 2, 3⟩) = some (.v 1, true) ∧ destOf (.nop ⟨g0⟩) = some (.none, false) ∧
    (two 1 2).curT? = some ((thr.wg 2 1).wg 3 2) ∧ onNext (exec (.add ⟨g0, .w64, 1, 2, 3⟩) (two 1 2)) (fun s => decide (s.curT? = some (((thr.wg 2 1).wg 3 2).wg 1 3))) = true ∧
    onNext (exec (.vadd ⟨g0, .f32, .rctl, false, false, 1, 2, 3⟩) (two 1 2)) (fun s => decide (s.curT?.map (·.g) = some ((thr.wg 2 1).wg 3 2).g)) = true := by decide +kernel

/-- A dword stored at the last place of the scratchpad, and an atomic there. -/
theorem witness_StoreFrame :
    Runs (two 0x27FF8 5) ((thr.wg 2 0x27FF8).wg 3 5) g0 ∧
    localStore ((thr.wg 2 0x27FF8).wg 3 5) (.st ⟨g0, s0, .own, 3, false, 0, 2, 3, 0⟩) = some (g0, 0x27FF8, 8, s0, none) ∧
    localStore ((thr.wg 2 0x27FF8).wg 3 5) (.amoadd ⟨g0, s0, .own, true, 0, 1, 2, 3, 0⟩) = some (g0, 0x27FF8, 8, s0, some 1) ∧
    Quiet ((thr.wg 2 0x27FF8).wg 3 5) ∧ LocalOk (two 0x27FF8 5) 0x27FF8 8 ∧
    onNext (exec (.st ⟨g0, s0, .own, 3, false, 0, 2, 3, 0⟩) (two 0x27FF8 5)) (fun s => decide ((s.core 0).sp = [(0x27FF8, 5)])) = true ∧
    onNext (exec (.amoadd ⟨g0, s0, .own, true, 0, 1, 2, 3, 0⟩) (two 0x27FF8 5)) (fun s => decide ((s.core 0).sp = [(0x27FF8, 5)])) = true := by
  refine ⟨⟨rfl, by decide +kernel⟩, by decide +kernel, by decide +kernel, ?_, ?_, by decide +kernel, by decide +kernel⟩
  · unfold Quiet; decide +kernel
  · unfold LocalOk; decide +kernel

/-! ### Decoding, the canonical form and the step -/

/-- A well-formed instruction and its word, one of another format, and an event, which has none. -/
theorem witness_DecodeOfEncode :
    Instr.wf (.add ⟨g0, .w64, 1, 2, 3⟩) = true ∧ encode (.add ⟨g0, .w64, 1, 2, 3⟩) = some 0x00000420C000000000000000#96 ∧
    decode 0x00000420C000000000000000#96 = .ok (.add ⟨g0, .w64, 1, 2, 3⟩) ∧ encode (.nop ⟨⟨7, true⟩⟩) = some 0x370F00000000000000000000#96 ∧ encode (.wave ⟨0⟩) = none := by decide +kernel

/-- A memory with bytes in order is canonical; one out of order or with a listed zero is not. -/
theorem witness_Canonical :
    Memory.wf [(1, 5), (7, 1)] = true ∧ Memory.wf [(7, 1), (1, 5)] = false ∧ Memory.wf [(1, 0)] = false ∧
    (code (.nop ⟨g0⟩)).mem.wf = true ∧ Memory.wf (memWrite [(1, 5), (7, 1)] 1 [0]) = true ∧ memWrite [(1, 5), (7, 1)] 1 [0] = [(7, 1)] := by decide +kernel

/-- What a check says of a step that issues from a pipe of slot 0 of core 0. -/
def issuesB (s : State) (p : Pipe) (P : State → Thread → Thread → Bool) : Bool :=
  let s0 := s.rouse.takeLater
  match s0.pick with
  | some ((0, 0), t) =>
    let s1 := (s0.tried 0 0).others 0 0
    s.agenda.isEmpty && !s.ras.halted && s.rouse.due.isNone && s0.sched.isEmpty && decide (s0.thread? 0 0 = some t) && t.st == .running && !t.ending &&
      t.parks.isEmpty && t.nextPipe == p && P s1 t (t.turn s1)
  | _ => false

theorem issues_of_check {s : State} {p : Pipe} {P : State → Thread → Thread → Bool} (h : issuesB s p P = true) :
    ∃ s0 s1 t t1, Issues s s0 0 0 t p ∧ s1 = (s0.tried 0 0).others 0 0 ∧ t1 = t.turn s1 ∧ P s1 t t1 = true := by
  simp only [issuesB] at h
  split at h
  · rename_i t h1
    simp only [Bool.and_eq_true, List.isEmpty_iff, Bool.not_eq_true', Option.isNone_iff_eq_none, decide_eq_true_eq, beq_iff_eq] at h
    obtain ⟨⟨⟨⟨⟨⟨⟨⟨⟨a, b⟩, c⟩, d⟩, e⟩, f⟩, g⟩, i⟩, j⟩, k⟩ := h
    exact ⟨_, _, t, _, ⟨a, b, c, rfl, d, h1, e, f, g, i, j⟩, rfl, rfl, k⟩
  · simp at h

/-- What a check says of the line that the lead reads, with an instruction in it. -/
def readB (s1 : State) (t t1 : Thread) (i : Instr) (Q : V512 → Bool) : Bool :=
  match s1.leadLine 0 0 t1 with
  | (.ok l, s2) => s2.unitWaits.isEmpty && !t.jump && t.ahead.isEmpty && !t.rep.capt && decide ((decode (lineSlot l (pcSlot t.leadPc))).toOption = some i) &&
      !(linePair l).getLsbD (pcSlot t.leadPc) && !t1.farAhead t.issued && Q l
  | _ => false

theorem read_of_check {s1 : State} {t t1 : Thread} {i : Instr} {Q : V512 → Bool} (h : readB s1 t t1 i Q = true) :
    ∃ l s2, s1.leadLine 0 0 t1 = (.ok l, s2) ∧ t.jump = false ∧ t.ahead = [] ∧ t.rep.capt = false ∧ decode (lineSlot l (pcSlot t.leadPc)) = .ok i ∧
      PairFits t1 l (pcSlot t.leadPc) i ∧ t1.farAhead t.issued = false ∧ s2.unitWaits = [] ∧ Q l = true := by
  simp only [readB] at h
  split at h
  · rename_i l s2 h2
    simp only [Bool.and_eq_true, Bool.not_eq_true', List.isEmpty_iff, decide_eq_true_eq] at h
    obtain ⟨⟨⟨⟨⟨⟨⟨u, a⟩, b⟩, c⟩, d⟩, e⟩, f⟩, g⟩ := h
    refine ⟨l, s2, h2, a, b, c, ?_, fun x => by simp [e] at x, f, u, g⟩
    cases hd : decode (lineSlot l (pcSlot t.leadPc)) <;> simp_all [Except.toOption]
  · simp at h

/-- An addition of the lead, and a vector addition of the trail; one with two trail instructions before it; an addition that needs a result of the trail. -/
def addW : Slot := 0x00000420C000000000000000#96
def addI : Instr := .add ⟨g0, .w64, 1, 2, 3⟩
def vaddW : Slot := 0x70400420C000000000100000#96
def vaddI : Instr := .vadd ⟨g0, .f32, .rctl, false, false, 1, 2, 3⟩
def busyS : State := (State.reset.load vaddW).modThread 0 0 fun t => { t with trailQ := [⟨0x200000, vaddW, vaddI, false, 0, false⟩], issued := 63, lastPipe := .trail }
def turnS : State := busyS.modThread 0 0 fun t => { t with lastPipe := .lead }
def blockS : State :=
  (State.reset.load addW).modThread 0 0 fun t => { t with trailQ := [⟨0x200000, 0, .qget ⟨g0, 2, 0⟩, false, 0, false⟩], issued := 1, lastPipe := .trail }
def aheadS : State :=
  (State.reset.load addW).modThread 0 0 fun t => { t with ahead := [⟨0x200000, addW, addI, false, 0, false⟩], scanPc := 0x20000C, issued := 1, lastPipe := .trail }

/-- What one step must find for each clause: the lead's turn with a line read, the trail's turn, and the turn of an instruction that was passed. -/
theorem witness_StepRunsTheDecodedInstruction :
    issuesB (State.reset.load addW) .lead (fun s1 t t1 => readB s1 t t1 addI fun l =>
      pipeOf addI == .lead && !t1.stands .lead (lineSlot l (pcSlot t.leadPc)) addI t.issued (secondOfPair l (pcSlot t.leadPc))) = true ∧
    issuesB (State.reset.load vaddW) .lead (fun s1 t t1 => readB s1 t t1 vaddI fun l =>
      pipeOf vaddI == .trail && t.trailQ.isEmpty && !t1.stands .trail (lineSlot l (pcSlot t.leadPc)) vaddI t.issued (secondOfPair l (pcSlot t.leadPc))) = true ∧
    issuesB busyS .lead (fun s1 t t1 => readB s1 t t1 vaddI fun _ => !t.trailQ.isEmpty) = true ∧
    issuesB blockS .lead (fun s1 t t1 => readB s1 t t1 addI fun l =>
      t1.stands .lead (lineSlot l (pcSlot t.leadPc)) addI t.issued (secondOfPair l (pcSlot t.leadPc))) = true ∧
    issuesB turnS .trail (fun _ t t1 => match t.trailQ with
      | e :: rest => !e.rep && rest.isEmpty && !{ t1 with lastPipe := .trail }.stands .trail e.iword e.instr e.no e.pair
      | [] => false) = true ∧
    issuesB aheadS .lead (fun _ t t1 => match t.ahead with
      | e :: rest => !t.jump && rest.isEmpty && !t1.farAhead e.no && !t1.stands .lead e.iword e.instr e.no e.pair
      | [] => false) = true ∧
    onNext (step (State.reset.load addW)) (fun s => decide ((s.thread? 0 0).map (·.leadPc) = some 0x20000C)) = true ∧
    onNext (step (State.reset.load vaddW)) (fun s => decide ((s.thread? 0 0).map (fun t => (t.leadPc, t.trailQ.length)) = some (0x20000C, 0))) = true ∧
    onNext (step busyS) (fun s => decide ((s.thread? 0 0).map (·.trailQ.length) = some 2)) = true ∧
    onNext (step turnS) (fun s => decide ((s.thread? 0 0).map (·.trailQ.length) = some 0)) = true ∧
    onNext (step blockS) (fun s => decide ((s.thread? 0 0).map (fun t => (t.leadPc, t.ahead.length)) = some (0x200000, 1))) = true ∧
    onNext (step aheadS) (fun s => decide ((s.thread? 0 0).map (fun t => (t.leadPc, t.ahead.length)) = some (0x20000C, 0))) = true := by decide +kernel

/-- A halted machine, one with an event to answer, and a canonical one that takes a step. -/
theorem witness_EventsAndHalt :
    (alm 0 true).ras.halted = true ∧ (∀ e ∈ ({ alm 0 true with agenda := [.wave ⟨0⟩] } : State).agenda, Event.wakesHalted e = false) ∧
    ({ waveS none 3 with agenda := [.wave ⟨0x400000⟩] } : State).ras.halted = false ∧
    onNext (step { waveS none 3 with agenda := [.wave ⟨0x400000⟩] }) (fun s => decide ((s.region? 0x400000).map (·.lastWave) = some (some (3, 3)))) = true ∧
    onNext (step { waveS none 3 with agenda := [.wave ⟨0x400000⟩], ras := (alm 0 true).ras }) (fun s => decide ((s.region? 0x400000).map (·.lastWave) = some none ∧ s.agenda = [])) = true := by
  refine ⟨rfl, by simp [Event.wakesHalted], rfl, ?_⟩
  decide +kernel

theorem witness_CanonicalKept :
    Canonical (State.reset.load addW) ∧ onNext (step (State.reset.load addW)) (fun _ => true) = true := by
  refine ⟨⟨by decide +kernel, fun c => ?_⟩, by decide +kernel⟩
  show ((alook c [((0 : Nat), ({ Core.reset with rsbase := 0x100000 } : Core))]).getD Core.reset).sp.wf = true
  simp only [alook]
  split <;> rfl

/-- The last slots of a line. -/
theorem witness_SequentialFlow :
    (0x200000 : Word).toNat % 64 = 0 ∧ nextPc (0x200000 + BitVec.ofNat 64 (12 * 3)) = 0x200000 + BitVec.ofNat 64 48 ∧ nextPc (0x200000 + 48) = 0x200040 ∧
    pcSlot (0x200000 + BitVec.ofNat 64 48) = 4 ∧ (lineSlot (lineOf addW) 0).getLsbD 95 = (lineOf addW).getLsbD 95 := by decide +kernel

end Sys2Proof.Tests
end

/-! ## Proofs: guards (R24, R25)

The guard that a word carries is the guard of the fields that it was packed from, and the meaning of every instruction with a word of that
kind is `guarded` by it. -/

section

namespace Sys2Proof.Machine

open Sys2Proof.Claims

/-! ### The header of a packed word (R24) -/

/-- Bit by bit, a packed word is its fields at their places. -/
theorem packWord_getLsbD (h : Head) (b : BitVec 56) (i : Nat) : (packWord h b).getLsbD i =
    if i < 56 then b.getLsbD i else if i < 62 then h.c.getLsbD (i - 56) else if i < 68 then h.b.getLsbD (i - 62)
    else if i < 74 then h.a.getLsbD (i - 68) else if i < 80 then h.d.getLsbD (i - 74) else if i < 81 then (BitVec.ofBool h.g.neg).getLsbD (i - 80)
    else if i < 84 then h.g.p.getLsbD (i - 81) else if i < 88 then h.fmt.getLsbD (i - 84) else h.opc.getLsbD (i - 88) := by
  unfold packWord
  simp only [BitVec.getLsbD_append, Nat.sub_sub]
  grind

/-- A field of a word is what the word's bits from the field's place on spell. -/
theorem extractLsb'_eq_of_getLsbD {m n lo : Nat} {w : BitVec m} {x : BitVec n} (hx : ∀ i < n, w.getLsbD (lo + i) = x.getLsbD i) :
    w.extractLsb' lo n = x :=
  BitVec.eq_of_getLsbD_eq fun i hi => by simp [hi, hx]

/-- The header read back from a packed word is the one that it was packed from. -/
@[simp] theorem headOf_packWord (h : Head) (b : BitVec 56) : headOf (packWord h b) = h := by
  obtain ⟨opc, fmt, ⟨p, neg⟩, d, a, rb, c⟩ := h
  have hneg : (packWord ⟨opc, fmt, ⟨p, neg⟩, d, a, rb, c⟩ b).getLsbD 80 = neg := (packWord_getLsbD ..).trans (by simp)
  simp only [headOf, Head.mk.injEq, Guard.mk.injEq]
  refine ⟨?_, ?_, ⟨?_, hneg⟩, ?_, ?_, ?_, ?_⟩
  all_goals
    refine extractLsb'_eq_of_getLsbD fun i hi => ?_
    simp (disch := omega) only [packWord_getLsbD, if_pos, if_neg, Nat.add_sub_cancel_left]

/-! ### The guard of an instruction's word (R25) -/

/-- The guard that the statements read from the word of an instruction is the one in the header that the encoder packed. -/
theorem guardOf_eq_of_word {i : Instr} {h : Head} {b : BitVec 56} {g : Guard} (he : encode i = some (packWord h b)) (hg : guardOf i = some g) :
    h.g = g := by
  have hw : guardOf i = if (headOf (packWord h b)).opc = 0x3E then none else some (headOf (packWord h b)).g := by
    rw [guardOf, he]; rfl
  rw [hw, headOf_packWord] at hg
  split at hg
  · cases hg
  · exact Option.some.inj hg

/-- An instruction whose meaning stands under the guard of the header that the encoder packs stands under the guard of its word. -/
theorem exec_guarded_of_word {i : Instr} {h : Head} {b : BitVec 56} {g : Guard} {m : State → Thread → Out} (hg : guardOf i = some g)
    (he : encode i = some (packWord h b)) (hx : ∀ s, exec i s = guarded h.g s (m s)) :
    ∃ f : State → Thread → Out, ∀ s, exec i s = guarded g s (f s) :=
  ⟨m, guardOf_eq_of_word he hg ▸ hx⟩

/-- R25, for all instructions at once: the whole meaning of an instruction stands under the guard that its word carries. For each of them the
encoder packs the guard field of its operands, and the meaning opens with `guarded` by the same field, both by definition; REPE and the
events carry no guard. -/
theorem exec_eq_guarded (i : Instr) (g : Guard) (hg : guardOf i = some g) : ∃ f : State → Thread → Out, ∀ s, exec i s = guarded g s (f s) := by
  cases i with
  | add x | addImm x | sub x | subImm x | mul x | mulImm x | mulh x | mulhImm x | mulhu x | mulhuImm x | div x | divImm x | divu x | divuImm x
  | rem x | remImm x | remu x | remuImm x | min x | minImm x | max x | maxImm x | minu x | minuImm x | maxu x | maxuImm x | and x | andImm x
  | or x | orImm x | xor x | xorImm x | andn x | andnImm x | orn x | ornImm x | shl x | shlImm x | shr x | shrImm x | sra x | sraImm x | rol x
  | rolImm x | clz x | ctz x | popc x | brev x | sext x | zext x | bfx x | bfi x | cmp x | cmpImm x | sel x | mov x | li x | lea x | leaImm x
  | fadd x | fsub x | fmul x | fmin x | fmax x | fabs x | fneg x | ffma x | fcmp x | fclass x | fcvt x | frnd x
  | br x | jmp x | jmpi x | call x | calli x | ret x | loop x | nop x | pand x | por x | pxor x | pnot x | pset x | qput x | qget x | qpeek x
  | qcnt x | repb x | reprun x | repstat x
  | ld x | st x | ldv x | stv x | pfetch x | cflush x | cinv x | scnt x | amoadd x | amoand x | amoor x | amoxor x | amomin x | amomax x
  | amominu x | amomaxu x | amoswp x | amocas x | amofadd x | amofmin x | amofmax x | watch x | unwatch x | watchq x | acqr x | relr x
  | ladq x
  | send x | sendadd x | sendmin x | sendmax x | chopen x | chclose x | chwm x | stn x | lmcfg x | sendm x
  | vadd x | vsub x | vmul x | vfma x | vfms x | vneg x | vabs x | vmin x | vmax x | vand x | vor x | vxor x | vshl x | vshr x | vsra x
  | vcmp x | vsel x | vcvt x | vrcp x | vrsq x | vsqrt x | vexp2 x | vlog2 x | vsinp x | vtanh x | vperm x | vbcast x | vins x | vext x
  | vred x | vscan x | vdot x | vmov x | vsplat x
  | mld x | mst x | mset x | mew x | mfma x | mred x | mcvt x | mgath x | mscat x | mcopy x | fmtset x | fmtget x | lutld x
  | xres x | xload x | xpin x | xunpin x | xrevk x | xqry x | xmm x | xacc x | xzero x | xstat x | acfg x | aget x | afree x | arowi x
  | arowo x | acoli x | acolo x | azero x
  | spawn x | spawnt x | end_ x | sleep x | yield x | thnew x | thstop x | thstart x | thrd x | thwr x | thstat x | thkill x | trap x | mfs x
  | mts x | gtime x | rgnq x =>
    exact exec_guarded_of_word hg rfl fun _ => rfl
  | _ => cases hg

/-- A false guard leaves the state that the instruction was given. -/
theorem exec_of_guard_false {i : Instr} {g : Guard} {s : State} {t : Thread} (hg : guardOf i = some g) (ht : s.curT? = some t)
    (hf : t.guard g = false) : exec i s = .next s := by
  obtain ⟨f, hx⟩ := exec_eq_guarded i g hg
  rw [hx, guarded_false ht hf]

theorem Thread.guard_eq_xor (t : Thread) (g : Guard) : t.guard g = (t.rp g.p ^^ g.neg) := by rw [Thread.guard, Bool.bne_eq_xor]

/-- The guard on p0 is true exactly where it is not negated, since p0 reads one (R26). -/
theorem Thread.guard_p0 (t : Thread) (neg : Bool) : t.guard ⟨0, neg⟩ = !neg := by rw [Thread.guard, Thread.rp_zero, Bool.true_bne]

/-- Settles O44: every meaning with a word is `guarded` by the guard of that word, and the lead PC moves on when the word issues. -/
theorem falseGuard : Obligations.FalseGuard := by
  unfold Obligations.FalseGuard
  exact ⟨Thread.guard_eq_xor, fun _ _ _ _ => exec_of_guard_false, fun t => ⟨t.guard_p0 false, t.guard_p0 true⟩, fun _ _ => rfl⟩

end Sys2Proof.Machine

end

/-! ## Proofs: fused passes (R190, R192)

A step of an FP64 or FP32 pass delivers the exact sum `a * b + acc` as FFMA does, but for a sum of zero, which it makes +0. A sum is zero where
only zeros are added, which the statement names, or where equal magnitudes cancel, which to nearest even is +0 by itself. -/

section

namespace Sys2Proof.Machine

open Sys2Proof.Claims

/-! ### Operands and results -/

/-- FP32 and FP64 operands keep their subnormals (R182). -/
theorem FFmt.read_of_wide {f : FFmt} (hw : f.wide = true) (c : Nat) : f.read c = f.value c := by
  simp [FFmt.read, hw]

/-- A NaN among the operands matters to the flags of a result, not to its code. -/
theorem FFmt.arith_fst_nanIn (f : FFmt) (rm : Round) (b b' : Bool) (v : Val) : (f.arith rm b v).1 = (f.arith rm b' v).1 := by
  cases v <;> rfl

theorem Val.eq_nan_of_isNan {v : Val} (h : v.isNan = true) : v = .nan := by
  cases v with
  | nan => rfl
  | inf | fin => cases h

theorem Val.nan_add (rm : Round) (v : Val) : Val.add rm .nan v = .nan := by
  cases v <;> rfl

/-- FFMA with its two ways to a NaN taken together: its code is the exact sum a * b + c, rounded once (R201). -/
theorem FFmt.ffma_fst_of_wide {f : FFmt} (hw : f.wide = true) (rm : Round) (a b c : Nat) :
    (f.ffma rm false a b c).1 = (f.arith rm false (((f.value a).mul (f.value b)).add rm (f.value c))).1 := by
  simp only [FFmt.ffma, FFmt.read_of_wide hw, Bool.false_eq_true, if_false]
  split
  case isTrue h =>
    have hp : ((f.value a).mul (f.value b)).isNan = true := by simp only [Bool.and_eq_true] at h; exact h.1.1
    rw [Val.eq_nan_of_isNan hp, Val.nan_add]
    rfl
  case isFalse => exact f.arith_fst_nanIn ..

/-! ### Sums of zero -/

theorem isZero_iff {v : Val} : isZero v = true ↔ ∃ s e, v = .fin s 0 e := by
  constructor
  · intro h
    unfold isZero at h
    split at h
    · exact ⟨_, _, rfl⟩
    · cases h
  · rintro ⟨s, e, rfl⟩
    rfl

theorem isZero_add_of_isZero {x y : Val} (rm : Round) (hx : isZero x = true) (hy : isZero y = true) : isZero (x.add rm y) = true := by
  obtain ⟨s, e, rfl⟩ := isZero_iff.mp hx
  obtain ⟨s', e', rfl⟩ := isZero_iff.mp hy
  simp [Val.add, addFin, isZero]

/-- Two finite values with a zero sum are two zeros or cancel; a sum that cancels is +0 to nearest even (R201). -/
theorem addFin_rne_eq_posZero {s₁ s₂ : Bool} {m₁ m₂ : Nat} {e₁ e₂ : Int} (hm : ¬ (m₁ = 0 ∧ m₂ = 0))
    (hz : isZero (addFin .rne s₁ m₁ e₁ s₂ m₂ e₂) = true) : addFin .rne s₁ m₁ e₁ s₂ m₂ e₂ = .fin false 0 0 := by
  obtain ⟨s, e, hv⟩ := isZero_iff.mp hz
  have hzeros : ¬ (decide (m₁ = 0) && decide (m₂ = 0)) = true := by simpa using hm
  simp only [addFin, if_neg hzeros] at hv ⊢
  split_ifs at hv ⊢ with hm₁ hm₂ hsum
  · exact absurd ⟨hm₁, (Val.fin.inj hv).2.1⟩ hm
  · exact absurd (Val.fin.inj hv).2.1 hm₁
  · rfl
  · exact absurd (Int.natAbs_eq_zero.mp (Val.fin.inj hv).2.1) hsum

theorem Val.add_rne_eq_posZero {x y : Val} (hz : isZero (x.add .rne y) = true) (hxy : ¬ (isZero x = true ∧ isZero y = true)) :
    x.add .rne y = .fin false 0 0 := by
  cases x with
  | nan => rw [Val.nan_add] at hz; cases hz
  | inf a =>
    cases y with
    | nan | fin => cases hz
    | inf b => by_cases hab : a = b <;> simp [Val.add, hab, isZero] at hz
  | fin s₁ m₁ e₁ =>
    cases y with
    | nan | inf => cases hz
    | fin s₂ m₂ e₂ => exact addFin_rne_eq_posZero (by rintro ⟨rfl, rfl⟩; exact hxy ⟨rfl, rfl⟩) hz

/-! ### A step of a pass -/

/-- The code that a step of a pass leaves for its exact sum, with a zero as +0 whatever its sign (R192). -/
def passCode (f : FFmt) : Val → Nat
  | .fin _ 0 _ => 0
  | v => (f.arith .rne false v).1

/-- In the FP64 and FP32 modes an element that no mark reaches is the fold of its steps (R190). -/
theorem passElem_f64_fst (g acc : Nat) (ab : List (Val × Val)) :
    (passElem .f64 false g acc ab).1 = ab.foldl (fun c x => passCode fp64 ((x.1.mul x.2).add .rne (fp64.value c))) acc := rfl

theorem passElem_f32_fst (g acc : Nat) (ab : List (Val × Val)) :
    (passElem .f32 false g acc ab).1 = ab.foldl (fun c x => passCode fp32 ((x.1.mul x.2).add .rne (fp32.value c))) acc := rfl

theorem passCode_of_isZero (f : FFmt) {v : Val} (hv : isZero v = true) : passCode f v = 0 := by
  obtain ⟨s, e, rfl⟩ := isZero_iff.mp hv
  rfl

theorem passCode_of_not_isZero (f : FFmt) {v : Val} (hv : ¬ isZero v = true) : passCode f v = (f.arith .rne false v).1 := by
  unfold passCode
  split
  · exact absurd rfl hv
  · rfl

/-- +0 is delivered as the code zero. -/
theorem FFmt.arith_posZero_fst (f : FFmt) (rm : Round) (b : Bool) (e : Int) : (f.arith rm b (.fin false 0 e)).1 = 0 := by
  simp [FFmt.arith, FFmt.deliver, deliverFin, FFmt.signBit]

/-- A step of a pass in a wide format is the fused multiply-add of the statement. -/
theorem passCode_add_eq_fmaStep {f : FFmt} (hw : f.wide = true) (c : Nat) (x : Nat × Nat) :
    passCode f (((f.value x.1).mul (f.value x.2)).add .rne (f.value c)) = fmaStep f c x := by
  by_cases hzeros : isZero ((f.value x.1).mul (f.value x.2)) = true ∧ isZero (f.value c) = true
  · have hstep : fmaStep f c x = 0 := by simp [fmaStep, hzeros]
    obtain ⟨hprod, hacc⟩ := hzeros
    rw [hstep, passCode_of_isZero f (isZero_add_of_isZero .rne hprod hacc)]
  · have hstep : fmaStep f c x = (f.ffma .rne false x.1 x.2 c).1 := by
      simp only [fmaStep, Bool.and_eq_true, if_neg hzeros]
    rw [hstep, FFmt.ffma_fst_of_wide hw]
    by_cases hsum : isZero (((f.value x.1).mul (f.value x.2)).add .rne (f.value c)) = true
    · rw [passCode_of_isZero f hsum, Val.add_rne_eq_posZero hsum hzeros, f.arith_posZero_fst]
    · exact passCode_of_not_isZero f hsum

/-- Settles O58: the element is the fold of its steps over the pairs of codes, and each step is the fused one. -/
theorem fusedPassElement : Obligations.FusedPassElement := by
  unfold Obligations.FusedPassElement
  intro g acc ab
  have h64 : fp64.wide = true := rfl
  have h32 : fp32.wide = true := rfl
  constructor
  · simp only [passElem_f64_fst, List.foldl_map, passCode_add_eq_fmaStep h64]
  · simp only [passElem_f32_fst, List.foldl_map, passCode_add_eq_fmaStep h32]

end Sys2Proof.Machine

end

/-! ## Proofs: division (R194, R196)

The low bits of a register are a word of the operation's width, whose signed and unsigned numbers are those of the statements; each corner is
then a fact about division of words of any width, which the sign extension of R194 carries into gD. -/

section

namespace Sys2Proof.Machine

open Sys2Proof.Claims

/-! ### The low bits of a register (R194) -/

theorem bits_pos (w : Width) : 0 < bits w := by
  cases w <;> decide

/-- The four widths in one equation: the operation on the low bits, sign-extended. -/
theorem atWidth_eq_signExtend (f : (n : Nat) → BitVec n → BitVec n → BitVec n) (w : Width) (a b : Word) :
    atWidth f w a b = (f (bits w) (a.setWidth (bits w)) (b.setWidth (bits w))).signExtend 64 := by
  cases w with
  | w64 => simp only [atWidth, bits, BitVec.setWidth_eq, BitVec.signExtend_eq]
  | w32 | w16 | w8 => rfl

theorem toInt_setWidth_eq_sig (n : Nat) (v : Word) : (v.setWidth n).toInt = sig n v := BitVec.toInt_setWidth v

theorem toNat_setWidth_eq_uns (n : Nat) (v : Word) : ((v.setWidth n).toNat : Int) = uns n v := by
  simp [uns]

theorem cut_eq_signExtend (n : Nat) (r : Int) : cut n r = (BitVec.ofInt n r).signExtend 64 := by
  rw [cut, BitVec.signExtend, BitVec.toInt_ofInt]

theorem cut_natCast (n k : Nat) : cut n (k : Int) = (BitVec.ofNat n k).signExtend 64 := by
  rw [cut_eq_signExtend, BitVec.ofInt_natCast]

theorem cut_toNat (n : Nat) (v : Word) : cut n v.toNat = (v.setWidth n).signExtend 64 := by
  rw [cut_natCast, BitVec.ofNat_toNat]

theorem signExtend_allOnes {n : Nat} (hn : 0 < n) (m : Nat) : (BitVec.allOnes n).signExtend m = BitVec.allOnes m := by
  rw [BitVec.signExtend, BitVec.toInt_allOnes, if_pos hn, BitVec.ofInt_neg, BitVec.ofInt_ofNat, BitVec.neg_one_eq_allOnes]

theorem signExtend_zero (n m : Nat) : (0 : BitVec n).signExtend m = 0 := by
  simp [BitVec.signExtend]

/-- 2^w - 1 is all ones at every width, and its sign extension too. -/
theorem cut_two_pow_sub_one {n : Nat} (hn : 0 < n) : cut n (2 ^ n - 1) = BitVec.allOnes 64 := by
  have hones : (2 ^ n - 1 : Int) = ((2 ^ n - 1 : Nat) : Int) := by simp [Nat.one_le_two_pow]
  rw [hones, ← BitVec.toNat_allOnes, cut_natCast, BitVec.ofNat_toNat, BitVec.setWidth_eq, signExtend_allOnes hn]

theorem cut_minw {n : Nat} (hn : 0 < n) : cut n (-(2 ^ (n - 1))) = (BitVec.intMin n).signExtend 64 := by
  rw [cut_eq_signExtend, ← BitVec.toInt_intMin_of_pos hn, BitVec.ofInt_toInt]

/-! ### The words of the corners -/

theorem setWidth_eq_zero_of_uns {n : Nat} {v : Word} (h : uns n v = 0) : v.setWidth n = 0 := by
  rw [← toNat_setWidth_eq_uns] at h
  exact BitVec.eq_of_toNat_eq ((Int.natCast_eq_zero.mp h).trans BitVec.toNat_zero.symm)

theorem eq_intMin_of_toInt {n : Nat} (hn : 0 < n) {v : BitVec n} (h : v.toInt = -(2 ^ (n - 1))) : v = BitVec.intMin n :=
  BitVec.eq_of_toInt_eq (h.trans (BitVec.toInt_intMin_of_pos hn).symm)

theorem immWord_eq_allOnes {imm : BitVec 48} (h : imm.toInt = -1) : immWord imm = BitVec.allOnes 64 := by
  rw [immWord, BitVec.signExtend, h]
  rfl

/-! ### Division of words (R196) -/

@[simp] theorem iDiv_zero (n : Nat) (a : BitVec n) : iDiv n a 0 = BitVec.allOnes n := if_pos rfl

@[simp] theorem iDivu_zero (n : Nat) (a : BitVec n) : iDivu n a 0 = BitVec.allOnes n := if_pos rfl

@[simp] theorem iRem_zero (n : Nat) (a : BitVec n) : iRem n a 0 = a := if_pos rfl

@[simp] theorem iRemu_zero (n : Nat) (a : BitVec n) : iRemu n a 0 = a := if_pos rfl

theorem ne_zero_of_toInt_eq_neg_one {n : Nat} {b : BitVec n} (hb : b.toInt = -1) : b ≠ 0 := by
  rintro rfl
  simp at hb

/-- The quotient of MINW by -1 does not fit the width; it wraps to MINW. -/
theorem iDiv_intMin {n : Nat} {b : BitVec n} (hb : b.toInt = -1) : iDiv n (BitVec.intMin n) b = BitVec.intMin n := by
  have hb' : b = -1#n := by rw [← BitVec.ofInt_toInt (x := b), hb, BitVec.ofInt_neg, BitVec.ofInt_ofNat]
  rw [iDiv, if_neg (ne_zero_of_toInt_eq_neg_one hb), hb', BitVec.intMin_sdiv_neg_one]

/-- Every number is a multiple of -1. -/
theorem iRem_neg_one {n : Nat} (a : BitVec n) {b : BitVec n} (hb : b.toInt = -1) : iRem n a b = 0 := by
  rw [iRem, if_neg (ne_zero_of_toInt_eq_neg_one hb)]
  exact BitVec.eq_of_toInt_eq (by simp [BitVec.toInt_srem, hb])

theorem iDivu_signExtend {n : Nat} {a b : Word} (hb : b.setWidth n ≠ 0) :
    (iDivu n (a.setWidth n) (b.setWidth n)).signExtend 64 = cut n (uns n a / uns n b) := by
  rw [iDivu, if_neg hb, BitVec.udiv_def, ← cut_natCast, Int.natCast_div, toNat_setWidth_eq_uns, toNat_setWidth_eq_uns]

theorem iRemu_signExtend {n : Nat} {a b : Word} (hb : b.setWidth n ≠ 0) :
    (iRemu n (a.setWidth n) (b.setWidth n)).signExtend 64 = cut n (uns n a % uns n b) := by
  rw [iRemu, if_neg hb, BitVec.umod_def, ← cut_natCast, Int.natCast_mod, toNat_setWidth_eq_uns, toNat_setWidth_eq_uns]

/-! ### The two forms -/

/-- A register form writes its result at the width, sign-extended, into gD. -/
theorem aluA_of_signExtend {f : (n : Nat) → BitVec n → BitVec n → BitVec n} {x : AluA} {s : State} {t : Thread} {v : Word} (hr : Runs s t x.g)
    (hv : (f (bits x.w) ((t.rg x.a).setWidth (bits x.w)) ((t.rg x.b).setWidth (bits x.w))).signExtend 64 = v) :
    aluA f x s = .next (s.setCur (t.wg x.d v)) := by
  rw [← hv, ← atWidth_eq_signExtend]
  exact setG_eq x.d _ hr.1 hr.2

/-- An immediate form writes its result at 64 bits into gD. -/
theorem aluI_of_eq {f : (n : Nat) → BitVec n → BitVec n → BitVec n} {x : AluI} {s : State} {t : Thread} {v : Word} (hr : Runs s t x.g)
    (hv : f 64 (t.rg x.a) (immWord x.imm) = v) : aluI f x s = .next (s.setCur (t.wg x.d v)) :=
  hv ▸ setG_eq x.d _ hr.1 hr.2

/-! ### The corners of the register forms -/

section

variable {x : AluA} {s : State} {t : Thread}

theorem divisionA_next (hr : Runs s t x.g) (i : Instr) (hi : i = .div x ∨ i = .divu x ∨ i = .rem x ∨ i = .remu x) :
    ∃ v, exec i s = .next (s.setCur (t.wg x.d v)) := by
  obtain rfl | rfl | rfl | rfl := hi
  all_goals exact ⟨_, aluA_of_signExtend hr rfl⟩

theorem divisionA_by_zero (hr : Runs s t x.g) (hb : uns (bits x.w) (t.rg x.b) = 0) :
    exec (.div x) s = .next (s.setCur (t.wg x.d (BitVec.allOnes 64))) ∧
    exec (.divu x) s = .next (s.setCur (t.wg x.d (cut (bits x.w) (2 ^ bits x.w - 1)))) ∧
    exec (.rem x) s = .next (s.setCur (t.wg x.d (cut (bits x.w) (t.rg x.a).toNat))) ∧
    exec (.remu x) s = .next (s.setCur (t.wg x.d (cut (bits x.w) (t.rg x.a).toNat))) := by
  have hzero := setWidth_eq_zero_of_uns hb
  have hones := signExtend_allOnes (bits_pos x.w) 64
  rw [cut_two_pow_sub_one (bits_pos x.w), cut_toNat]
  exact ⟨aluA_of_signExtend hr (by rw [hzero, iDiv_zero, hones]), aluA_of_signExtend hr (by rw [hzero, iDivu_zero, hones]),
    aluA_of_signExtend hr (by rw [hzero, iRem_zero]), aluA_of_signExtend hr (by rw [hzero, iRemu_zero])⟩

theorem divisionA_minw_by_neg_one (hr : Runs s t x.g) (ha : sig (bits x.w) (t.rg x.a) = -(2 ^ (bits x.w - 1)))
    (hb : sig (bits x.w) (t.rg x.b) = -1) :
    exec (.div x) s = .next (s.setCur (t.wg x.d (cut (bits x.w) (-(2 ^ (bits x.w - 1)))))) ∧
    exec (.rem x) s = .next (s.setCur (t.wg x.d 0)) ∧
    exec (.divu x) s = .next (s.setCur (t.wg x.d (cut (bits x.w) (uns (bits x.w) (t.rg x.a) / uns (bits x.w) (t.rg x.b))))) ∧
    exec (.remu x) s = .next (s.setCur (t.wg x.d (cut (bits x.w) (uns (bits x.w) (t.rg x.a) % uns (bits x.w) (t.rg x.b))))) := by
  rw [← toInt_setWidth_eq_sig] at ha hb
  have hmin := eq_intMin_of_toInt (bits_pos x.w) ha
  have hne := ne_zero_of_toInt_eq_neg_one hb
  exact ⟨aluA_of_signExtend hr (by rw [hmin, iDiv_intMin hb, cut_minw (bits_pos x.w)]),
    aluA_of_signExtend hr (by rw [iRem_neg_one _ hb, signExtend_zero]),
    aluA_of_signExtend hr (iDivu_signExtend hne), aluA_of_signExtend hr (iRemu_signExtend hne)⟩

end

/-! ### The corners of the immediate forms -/

section

variable {x : AluI} {s : State} {t : Thread}

theorem divisionI_next (hr : Runs s t x.g) (i : Instr) (hi : i = .divImm x ∨ i = .divuImm x ∨ i = .remImm x ∨ i = .remuImm x) :
    ∃ v, exec i s = .next (s.setCur (t.wg x.d v)) := by
  obtain rfl | rfl | rfl | rfl := hi
  all_goals exact ⟨_, aluI_of_eq hr rfl⟩

theorem divisionI_by_zero (hr : Runs s t x.g) (hb : x.imm = 0) :
    exec (.divImm x) s = .next (s.setCur (t.wg x.d (BitVec.allOnes 64))) ∧ exec (.divuImm x) s = .next (s.setCur (t.wg x.d (BitVec.allOnes 64))) ∧
    exec (.remImm x) s = .next (s.setCur (t.wg x.d (t.rg x.a))) ∧ exec (.remuImm x) s = .next (s.setCur (t.wg x.d (t.rg x.a))) := by
  have hzero : immWord x.imm = 0 := by rw [hb]; rfl
  exact ⟨aluI_of_eq hr (by rw [hzero, iDiv_zero]), aluI_of_eq hr (by rw [hzero, iDivu_zero]),
    aluI_of_eq hr (by rw [hzero, iRem_zero]), aluI_of_eq hr (by rw [hzero, iRemu_zero])⟩

/-- As unsigned numbers MINW is below the divisor 2^64 - 1, so the quotient is 0 and the remainder MINW. -/
theorem divisionI_minw_by_neg_one (hr : Runs s t x.g) (ha : (t.rg x.a).toInt = -(2 ^ 63)) (hb : x.imm.toInt = -1) :
    exec (.divImm x) s = .next (s.setCur (t.wg x.d (t.rg x.a))) ∧ exec (.remImm x) s = .next (s.setCur (t.wg x.d 0)) ∧
    exec (.divuImm x) s = .next (s.setCur (t.wg x.d 0)) ∧ exec (.remuImm x) s = .next (s.setCur (t.wg x.d (t.rg x.a))) := by
  have hmin : t.rg x.a = BitVec.intMin 64 := eq_intMin_of_toInt (by decide) ha
  have hones := immWord_eq_allOnes hb
  rw [hmin]
  exact ⟨aluI_of_eq hr (by rw [hmin, hones, iDiv_intMin (by decide)]), aluI_of_eq hr (by rw [hones, iRem_neg_one _ (by decide)]),
    aluI_of_eq hr (by rw [hmin, hones]; decide), aluI_of_eq hr (by rw [hmin, hones]; decide)⟩

end

/-- Settles O45: both forms write gD alone, and by zero and at MINW by -1 they write the values of the table at every width. -/
theorem divisionCorners : Obligations.DivisionCorners := by
  unfold Obligations.DivisionCorners
  exact ⟨fun _ _ _ hr => ⟨divisionA_next hr, divisionA_by_zero hr, divisionA_minw_by_neg_one hr⟩,
    fun _ _ _ hr => ⟨divisionI_next hr, divisionI_by_zero hr, divisionI_minw_by_neg_one hr⟩⟩

end Sys2Proof.Machine

end

/-! ## Proofs: notifies (R387)

A notify is judged on the queue that the poll leaves: with a copy in force its meaning is one choice, by the queue's state and by the distances
of the notify and of PIDX from CIDX. -/

section

namespace Sys2Proof.Machine

/-! ### The queues of a function -/

@[simp] theorem State.queue?_setQueue_self (s : State) (f q : Nat) (y : Queue) : (s.setQueue f q y).queue? f q = some y := by
  simp [State.queue?, State.setQueue, State.fn_modFn]

@[simp] theorem State.setQueue_mem (s : State) (f q : Nat) (y : Queue) : (s.setQueue f q y).mem = s.mem := rfl

@[simp] theorem State.queue?_push (s : State) (es : List Event) (f q : Nat) : (s.push es).queue? f q = s.queue? f q := rfl

/-! ### Acceptance -/

/-- How far an index lies ahead of CIDX, modulo 2^32. -/
def Queue.ahead (y : Queue) (v : Nat) : Nat := (v + 2 ^ 32 - y.cidx % 2 ^ 32) % 2 ^ 32

/-- The queue takes v as its producer index while the control block c is in force (R387). -/
def Queue.accepts (y : Queue) (c : Qcb) (v : Nat) : Bool := y.st == .active && y.ahead v ≤ 2 ^ c.log2d && y.ahead y.pidx < y.ahead v

theorem Queue.accepts_iff (y : Queue) (c : Qcb) (v : Nat) :
    y.accepts c v = true ↔ y.st = .active ∧ y.ahead v ≤ 2 ^ c.log2d ∧ y.ahead y.pidx < y.ahead v := by
  simp [Queue.accepts, and_assoc]

/-- What an accepted notify leaves: the new PIDX, and a fetch unless the entry at CIDX waits for its next try (R388). -/
def State.acceptNotify (s : State) (f q : Nat) (y : Queue) (v : Nat) : State :=
  (s.setQueue f q { y with pidx := v }).push (if y.tries = 0 then [.commandFetch ⟨f, q⟩] else [])

@[simp] theorem State.queue?_acceptNotify (s : State) (f q : Nat) (y : Queue) (v : Nat) :
    (s.acceptNotify f q y v).queue? f q = some { y with pidx := v } := by
  rw [State.acceptNotify, State.queue?_push, State.queue?_setQueue_self]

@[simp] theorem State.acceptNotify_mem (s : State) (f q : Nat) (y : Queue) (v : Nat) : (s.acceptNotify f q y v).mem = s.mem := rfl

/-! ### The meaning of a notify -/

section

variable {s : State} {f q : Nat} {y : Queue} (v : BitVec 32) (hr : (s.fn f).resetting = false) (hq : (s.pollQcb f q).queue? f q = some y)
include hr hq

theorem exec_notify_of_copy {c : Qcb} (hc : y.copy = some c) : exec (.notify ⟨f, q, v⟩) s =
    if y.accepts c v.toNat then .next ((s.pollQcb f q).acceptNotify f q y v.toNat) else .next (s.pollQcb f q) := by
  change execNotify ⟨f, q, v⟩ s = _
  simp only [execNotify, hr, hq, hc, State.acceptNotify]
  rfl

theorem exec_notify_of_no_copy (hc : y.copy = none) : exec (.notify ⟨f, q, v⟩) s = .next (s.pollQcb f q) := by
  change execNotify ⟨f, q, v⟩ s = _
  simp [execNotify, hr, hq, hc]

theorem exec_notify_of_not_active (hst : y.st ≠ .active) : exec (.notify ⟨f, q, v⟩) s = .next (s.pollQcb f q) := by
  cases hc : y.copy with
  | none => exact exec_notify_of_no_copy v hr hq hc
  | some c => rw [exec_notify_of_copy v hr hq hc, if_neg fun ha => hst ((y.accepts_iff c _).mp ha).1]

end

/-- Settles O57: under the copy in force the queue accepts, and then PIDX alone changes in it, or the notify leaves what the poll left; a queue
that is not active accepts nothing. -/
theorem notifyRule : Obligations.NotifyRule := by
  unfold Obligations.NotifyRule
  rintro s _ f q v y hr rfl hq
  refine ⟨fun c hc hact => ?_, exec_notify_of_not_active v hr hq⟩
  rw [exec_notify_of_copy v hr hq hc]
  constructor
  · intro hdepth hbeyond
    rw [if_pos ((y.accepts_iff c _).mpr ⟨hact, hdepth, hbeyond⟩)]
    exact ⟨_, rfl, State.queue?_acceptNotify .., State.acceptNotify_mem ..⟩
  · intro hout
    rw [if_neg]
    intro ha
    obtain ⟨_, hdepth, hbeyond⟩ := (y.accepts_iff c _).mp ha
    exact hout.elim hdepth.not_gt hbeyond.not_ge

end Sys2Proof.Machine

end

/-! ## Proofs: the encoding (R24 to R38)

A packed word gives its header and its body back, and every code of R35 to R37 the value that it stands for. So the decoder of each shape answers
the operands that the encoder of the shape packed, and a row of the opcode map answers the instruction. In the other direction the decoder of
a shape answers only what its last check lets pass, and that check is the one of `Instr.wf`. -/

section

namespace Sys2Proof

open Machine

/-! ### The body of a word (R28 to R34) -/

@[simp] theorem bodyOf_packWord (h : Head) (b : BitVec 56) : bodyOf (packWord h b) = b :=
  extractLsb'_eq_of_getLsbD fun i hi => by rw [packWord_getLsbD, if_pos (by omega), Nat.zero_add]

theorem BodyA.ofBits_pack (b : BodyA) : BodyA.ofBits b.pack = b := by
  obtain ⟨rsv, imm8, ty2, ty, rm, md, fn⟩ := b
  simp only [BodyA.ofBits, BodyA.mk.injEq]
  refine ⟨?_, ?_, ?_, ?_, ?_, ?_, ?_⟩
  all_goals
    refine extractLsb'_eq_of_getLsbD fun i hi => ?_
    simp only [BodyA.pack, BitVec.getLsbD_append]
    grind

theorem BodyI.ofBits_pack (b : BodyI) : BodyI.ofBits b.pack = b := by
  obtain ⟨imm, fn⟩ := b
  simp only [BodyI.ofBits, BodyI.mk.injEq]
  refine ⟨?_, ?_⟩
  all_goals
    refine extractLsb'_eq_of_getLsbD fun i hi => ?_
    simp only [BodyI.pack, BitVec.getLsbD_append]
    grind

theorem BodyM.ofBits_pack (b : BodyM) : BodyM.ofBits b.pack = b := by
  obtain ⟨stream, pmask, scope, am, size, sx, nt, ex, rsv, off⟩ := b
  simp only [BodyM.ofBits, BodyM.mk.injEq]
  refine ⟨?_, ?_, ?_, ?_, ?_, ?_, ?_, ?_, ?_, ?_⟩
  all_goals
    refine extractLsb'_eq_of_getLsbD fun i hi => ?_
    simp only [BodyM.pack, BitVec.getLsbD_append]
    grind

theorem BodyC.ofBits_pack (b : BodyC) : BodyC.ofBits b.pack = b := by
  obtain ⟨stream, pmask, scope, am, ty, seq, rsv, chan, md, fn⟩ := b
  simp only [BodyC.ofBits, BodyC.mk.injEq]
  refine ⟨?_, ?_, ?_, ?_, ?_, ?_, ?_, ?_, ?_, ?_⟩
  all_goals
    refine extractLsb'_eq_of_getLsbD fun i hi => ?_
    simp only [BodyC.pack, BitVec.getLsbD_append]
    grind

theorem BodyN.ofBits_pack (b : BodyN) : BodyN.ofBits b.pack = b := by
  obtain ⟨stream, pmask, scope, ty, rm, dims, rsv, md, fn⟩ := b
  simp only [BodyN.ofBits, BodyN.mk.injEq]
  refine ⟨?_, ?_, ?_, ?_, ?_, ?_, ?_, ?_, ?_⟩
  all_goals
    refine extractLsb'_eq_of_getLsbD fun i hi => ?_
    simp only [BodyN.pack, BitVec.getLsbD_append]
    grind

theorem BodyT.ofBits_pack (b : BodyT) : BodyT.ofBits b.pack = b := by
  obtain ⟨rsv, imm16, fn⟩ := b
  simp only [BodyT.ofBits, BodyT.mk.injEq]
  refine ⟨?_, ?_, ?_⟩
  all_goals
    refine extractLsb'_eq_of_getLsbD fun i hi => ?_
    simp only [BodyT.pack, BitVec.getLsbD_append]
    grind

/-! ### Codes (R26, R30, R31, R35 to R37) -/

@[simp] theorem Width.ofMod_code (w : Width) : Width.ofMod w.code = w := by cases w <;> rfl
@[simp] theorem Width.code_high (w : Width) : w.code.extractLsb' 2 6 = 0 := by cases w <;> rfl
@[simp] theorem ElemType.ofCode_code (ty : ElemType) : ElemType.ofCode ty.code = some ty := by
  cases ty with
  | fmt n => revert n; decide
  | _ => rfl
@[simp] theorem Rm.ofCode_code (r : Rm) : Rm.ofCode r.code = some r := by cases r <;> rfl

@[simp] theorem lo2_setWidth (r : AReg) : lo2 (r.setWidth 6) = r := by revert r; decide
@[simp] theorem lo3_setWidth (r : Reg3) : lo3 (r.setWidth 6) = r := by revert r; decide
@[simp] theorem lo4_setWidth (r : FReg) : lo4 (r.setWidth 6) = r := by revert r; decide
@[simp] theorem lo5_setWidth (r : VReg) : lo5 (r.setWidth 6) = r := by revert r; decide
@[simp] theorem hi2_setWidth (r : AReg) : hi2 (r.setWidth 6) = true := by revert r; decide
@[simp] theorem hi3_setWidth (r : Reg3) : hi3 (r.setWidth 6) = true := by revert r; decide
@[simp] theorem hi4_setWidth (r : FReg) : hi4 (r.setWidth 6) = true := by revert r; decide
@[simp] theorem hi5_setWidth (r : VReg) : hi5 (r.setWidth 6) = true := by revert r; decide
@[simp] theorem lo2_zero : lo2 0#6 = 0 := rfl
@[simp] theorem lo3_zero : lo3 0#6 = 0 := rfl
@[simp] theorem lo5_zero : lo5 0#6 = 0 := rfl
@[simp] theorem hi2_zero : hi2 0#6 = true := rfl
@[simp] theorem hi3_zero : hi3 0#6 = true := rfl
@[simp] theorem hi5_zero : hi5 0#6 = true := rfl
@[simp] theorem flag_ofBool (b : Bool) : flag (BitVec.ofBool b) = b := by cases b <;> rfl
@[simp] theorem strOf_code (s : Str) : strOf s.stream s.pmask s.code = some s := by
  have hbit : ∀ c : BitVec 2, (0#1 ++ c : BitVec 3).getLsbD 2 = false := by decide
  have hlow : (0#1 ++ s.scope : BitVec 3).extractLsb' 0 2 = s.scope := BitVec.extractLsb'_append_eq_right
  rw [strOf, Str.code, hbit, hlow]
  rfl
@[simp] theorem ICond.ofCode_code (c : ICond) : ICond.ofCode c.code = some c := by cases c <;> rfl
@[simp] theorem FCond.ofCode_code (c : FCond) : FCond.ofCode c.code = some c := by cases c <;> rfl
@[simp] theorem VSize.ofCode_code (c : VSize) : VSize.ofCode c.code = some c := by cases c <;> rfl
@[simp] theorem NSize.ofCode_code (c : NSize) : NSize.ofCode c.code = some c := by cases c <;> rfl
@[simp] theorem AmoFmt.ofCode_code (c : AmoFmt) : AmoFmt.ofCode c.code = some c := by cases c <;> rfl
@[simp] theorem RedOp.ofCode_code (c : RedOp) : RedOp.ofCode c.code = some c := by cases c <;> rfl
@[simp] theorem EwOp.ofCode_code (c : EwOp) : EwOp.ofCode c.code = some c := by cases c <;> rfl
@[simp] theorem MRedOp.ofCode_code (c : MRedOp) : MRedOp.ofCode c.code = some c := by cases c <;> rfl
@[simp] theorem SysReg.ofCode_code (c : SysReg) : SysReg.ofCode c.code = some c := by cases c <;> rfl
@[simp] theorem RwReg.ofCode_code (c : RwReg) : RwReg.ofCode c.code = some c := by cases c <;> rfl
@[simp] theorem SrcMode.ofCode_code (c : SrcMode) : SrcMode.ofCode c.code = some c := by cases c <;> rfl
@[simp] theorem AddrMode.ofCode_code (c : AddrMode) : AddrMode.ofCode c.code = c := by cases c <;> rfl

@[simp] theorem MField.ofCode_code (f : MField) : MField.ofCode f.code = some f := by
  cases f with
  | dim k => revert k; decide
  | _ => rfl
@[simp] theorem VCond.ofCode_code (c : VCond) : VCond.ofCode c.code = some c := by
  cases c with
  | int c => cases c <;> rfl
  | flt c => cases c <;> rfl
@[simp] theorem brOfCode_code (c : Option ICond) : brOfCode (brCode c) = some c := by
  cases c with
  | none => rfl
  | some c => cases c <;> rfl

/-! ### Fields that share a byte -/

@[simp] theorem imm8_bfx (x : Bool) (p : BitVec 6) : (0#1 ++ BitVec.ofBool x ++ p : BitVec 8)[7] = false ∧
    (0#1 ++ BitVec.ofBool x ++ p : BitVec 8)[6] = x ∧
    (0#1 ++ BitVec.ofBool x ++ p : BitVec 8).extractLsb' 0 6 = p := by revert x p; decide
@[simp] theorem imm8_bfi (p : BitVec 6) : (0#2 ++ p : BitVec 8)[7] = false ∧ (0#2 ++ p : BitVec 8)[6] = false ∧
    (0#2 ++ p : BitVec 8).extractLsb' 0 6 = p := by revert p; decide
@[simp] theorem md_len (p : BitVec 6) : (p ++ 0#2 : BitVec 8).extractLsb' 0 2 = 0 ∧ (p ++ 0#2 : BitVec 8).extractLsb' 2 6 = p := by revert p; decide
@[simp] theorem imm8_stride (p : BitVec 5) : (0#3 ++ p : BitVec 8).extractLsb' 0 5 = p ∧
    (0#3 ++ p : BitVec 8).extractLsb' 5 3 = 0 := by revert p; decide
@[simp] theorem imm8_lea (p : BitVec 3) : (0#5 ++ p : BitVec 8).extractLsb' 0 3 = p ∧ (0#5 ++ p : BitVec 8).extractLsb' 3 5 = 0 := by revert p; decide
@[simp] theorem md_xres (x : Bool) (p : BitVec 2) : (0#5 ++ BitVec.ofBool x ++ p : BitVec 8)[2] = x ∧
    (0#5 ++ BitVec.ofBool x ++ p : BitVec 8).extractLsb' 0 2 = p ∧
    (0#5 ++ BitVec.ofBool x ++ p : BitVec 8).extractLsb' 3 5 = 0 := by revert x p; decide
@[simp] theorem size_low (p : BitVec 2) : (0#2 ++ p : BitVec 4).extractLsb' 0 2 = p ∧ (0#2 ++ p : BitVec 4).extractLsb' 2 2 = 0 := by revert p; decide
@[simp] theorem imm16_lmcfg (p : BitVec 2) : (0#14 ++ p : BitVec 16).extractLsb' 0 2 = p ∧
    (0#14 ++ p : BitVec 16).extractLsb' 2 14 = 0 := by revert p; decide
@[simp] theorem imm16_scnt (x : Bool) (p : BitVec 3) : (0#12 ++ BitVec.ofBool x ++ p : BitVec 16)[3] = x ∧
    (0#12 ++ BitVec.ofBool x ++ p : BitVec 16).extractLsb' 0 3 = p ∧
    (0#12 ++ BitVec.ofBool x ++ p : BitVec 16).extractLsb' 4 12 = 0 := by revert x p; decide
@[simp] theorem imm16_sleep (p : BitVec 11) : (0#5 ++ p : BitVec 16).extractLsb' 0 11 = p ∧ (0#5 ++ p : BitVec 16).extractLsb' 11 5 = 0 :=
  ⟨BitVec.extractLsb'_append_eq_right, BitVec.extractLsb'_append_eq_left⟩
@[simp] theorem imm_count (p : BitVec 6) : (0#42 ++ p : BitVec 48).extractLsb' 0 6 = p ∧ (0#42 ++ p : BitVec 48).extractLsb' 6 42 = 0 :=
  ⟨BitVec.extractLsb'_append_eq_right, BitVec.extractLsb'_append_eq_left⟩
@[simp] theorem md_two (x y : Bool) : (0#6 ++ BitVec.ofBool x ++ BitVec.ofBool y : BitVec 8)[0] = y ∧
    (0#6 ++ BitVec.ofBool x ++ BitVec.ofBool y : BitVec 8)[1] = x ∧
    (0#6 ++ BitVec.ofBool x ++ BitVec.ofBool y : BitVec 8).extractLsb' 2 6 = 0 := by revert x y; decide
@[simp] theorem md_one (x : Bool) : (0#7 ++ BitVec.ofBool x : BitVec 8)[0] = x ∧ (0#7 ++ BitVec.ofBool x : BitVec 8)[1] = false ∧
    (0#7 ++ BitVec.ofBool x : BitVec 8).extractLsb' 1 7 = 0 ∧ (0#7 ++ BitVec.ofBool x : BitVec 8).extractLsb' 2 6 = 0 := by revert x; decide
@[simp] theorem md_uns (x : Bool) : (0#6 ++ BitVec.ofBool x ++ 0#1 : BitVec 8)[0] = false ∧ (0#6 ++ BitVec.ofBool x ++ 0#1 : BitVec 8)[1] = x ∧
    (0#6 ++ BitVec.ofBool x ++ 0#1 : BitVec 8).extractLsb' 2 6 = 0 := by revert x; decide
@[simp] theorem md_mew (x y : Bool) : (0#5 ++ BitVec.ofBool x ++ BitVec.ofBool y ++ 0#1 : BitVec 8)[0] = false ∧
    (0#5 ++ BitVec.ofBool x ++ BitVec.ofBool y ++ 0#1 : BitVec 8)[1] = y ∧
    (0#5 ++ BitVec.ofBool x ++ BitVec.ofBool y ++ 0#1 : BitVec 8)[2] = x ∧
    (0#5 ++ BitVec.ofBool x ++ BitVec.ofBool y ++ 0#1 : BitVec 8).extractLsb' 3 5 = 0 := by revert x y; decide
@[simp] theorem size_amo (x : Bool) : (1#3 ++ BitVec.ofBool x : BitVec 4)[0] = x ∧
    (1#3 ++ BitVec.ofBool x : BitVec 4).extractLsb' 1 3 = 1 := by revert x; decide
@[simp] theorem imm16_thnew (x : Bool) : (0#15 ++ BitVec.ofBool x : BitVec 16)[0] = x ∧
    (0#15 ++ BitVec.ofBool x : BitVec 16).extractLsb' 1 15 = 0 := by revert x; decide
@[simp] theorem fn_xstat (p : BitVec 4) : (0#4 ++ p : BitVec 8).extractLsb' 0 4 = p := by revert p; decide

/-! ### The checks of a word (R27) -/

@[simp] theorem build_eq_ok {z : Bool} {o : Option α} {x : α} : build z o = .ok x ↔ z = true ∧ o = some x := by
  cases z <;> cases o <;> simp [build]

@[simp] theorem need_true : need true = some () := rfl

theorem chk_of {p : α → Bool} {x : α} (h : p x = true) : chk p x = some x := if_pos h

@[simp] theorem BodyA.noConv_eq (b : BodyA) : b.noConv = (b.rsv == 0 && b.imm8 == 0 && b.ty2 == 0) := rfl
@[simp] theorem BodyA.bare_eq (b : BodyA) : b.bare = (b.noConv && b.ty == 0 && b.md == 0) := rfl
@[simp] theorem BodyM.coreOk_eq (b : BodyM) (h : Head) : b.coreOk h = (b.rsv == 0 && (b.am == 3 || h.c == 0)) := rfl
@[simp] theorem BodyM.noFlags_eq (b : BodyM) : b.noFlags = (b.sx == 0 && b.nt == 0 && b.ex == 0) := rfl
@[simp] theorem BodyM.lineOnly_eq (b : BodyM) : b.lineOnly = (b.am == 0 && b.size == 3 && b.sx == 0) := rfl
@[simp] theorem BodyC.noSrc_eq (b : BodyC) : b.noSrc = (b.rsv == 0 && b.ty == 0 && b.seq == 0) := rfl
@[simp] theorem BodyN.plain_eq (b : BodyN) : b.plain = (b.rsv == 0 && b.ty == 0 && b.dims == 0) := rfl
@[simp] theorem BodyN.noStr_eq (b : BodyN) : b.noStr = (b.stream == 0 && b.pmask == 0 && b.scope == 0) := rfl
@[simp] theorem BodyN.satOnly_eq (b : BodyN) : b.satOnly = (b.md.extractLsb' 3 5 == 0 && b.md.extractLsb' 0 2 == 0) := rfl
@[simp] theorem BodyN.bare_eq (b : BodyN) : b.bare = (b.plain && b.noStr && b.md == 0) := rfl

/-- C of format M is zero or names a core of AM 3. -/
theorem coreFits_iff {am : AddrMode} {c : GReg} : coreFits am c = true ↔ am.code = 3 ∨ c = 0 := by
  cases am <;> simp [coreFits, AddrMode.code]

/-! ### The decoder of a shape answers what its encoder packed -/

theorem decAluA_enc (opc : BitVec 8) (fmt : BitVec 4) (fn : BitVec 8) (x : AluA) :
    decAluA ⟨opc, fmt, x.g, x.d, x.a, x.b, 0⟩ { md := x.w.code, fn := fn } = .ok x := by
  simp [decAluA]

theorem decAluI_enc (opc : BitVec 8) (fmt : BitVec 4) (fn : BitVec 8) (x : AluI) :
    decAluI ⟨opc, fmt, x.g, x.d, x.a, 0, 0⟩ { imm := x.imm, fn := fn } = .ok x := by
  simp [decAluI]

theorem decShI_enc (opc : BitVec 8) (fmt : BitVec 4) (fn : BitVec 8) (x : ShI) :
    decShI ⟨opc, fmt, x.g, x.d, x.a, 0, 0⟩ { imm := 0#42 ++ x.count, fn := fn } = .ok x := by
  simp [decShI]

theorem decUnA_enc (opc : BitVec 8) (fmt : BitVec 4) (fn : BitVec 8) (x : UnA) :
    decUnA ⟨opc, fmt, x.g, x.d, x.a, 0, 0⟩ { md := x.w.code, fn := fn } = .ok x := by
  simp [decUnA]

theorem decExtA_enc (opc : BitVec 8) (fmt : BitVec 4) (fn : BitVec 8) (x : ExtA) (hx : x.ok = true) :
    decExtA ⟨opc, fmt, x.g, x.d, x.a, 0, 0⟩ { imm8 := x.n, fn := fn } = .ok x := by
  simp [decExtA, chk_of hx]

theorem decBfxA_enc (opc : BitVec 8) (fmt : BitVec 4) (fn : BitVec 8) (x : BfxA) (hx : x.ok = true) :
    decBfxA ⟨opc, fmt, x.g, x.d, x.a, 0, 0⟩ { imm8 := 0#1 ++ BitVec.ofBool x.sx ++ x.pos, md := x.len1 ++ 0#2, fn := fn } = .ok x := by
  simp [decBfxA, chk_of hx]

theorem decBfiA_enc (opc : BitVec 8) (fmt : BitVec 4) (fn : BitVec 8) (x : BfiA) (hx : x.ok = true) :
    decBfiA ⟨opc, fmt, x.g, x.d, x.a, 0, 0⟩ { imm8 := 0#2 ++ x.pos, md := x.len1 ++ 0#2, fn := fn } = .ok x := by
  simp [decBfiA, chk_of hx]

theorem decCmpA_enc (opc : BitVec 8) (fmt : BitVec 4) (x : CmpA) :
    decCmpA ⟨opc, fmt, x.g, x.d.setWidth 6, x.a, x.b, 0⟩ { md := x.w.code, fn := x.c.code } = .ok x := by
  simp [decCmpA]

theorem decCmpI_enc (opc : BitVec 8) (fmt : BitVec 4) (x : CmpI) :
    decCmpI ⟨opc, fmt, x.g, x.d.setWidth 6, x.a, 0, 0⟩ { imm := x.imm, fn := x.c.code } = .ok x := by
  simp [decCmpI]

theorem decSelA_enc (opc : BitVec 8) (fmt : BitVec 4) (fn : BitVec 8) (x : SelA) :
    decSelA ⟨opc, fmt, x.g, x.d, x.a, x.b, x.c.setWidth 6⟩ { fn := fn } = .ok x := by
  simp [decSelA]

theorem decGDA_enc (opc : BitVec 8) (fmt : BitVec 4) (fn : BitVec 8) (x : GD) :
    decGDA ⟨opc, fmt, x.g, x.d, x.a, 0, 0⟩ { fn := fn } = .ok x := by
  simp [decGDA]

theorem decLiI_enc (opc : BitVec 8) (fmt : BitVec 4) (fn : BitVec 8) (x : LiI) :
    decLiI ⟨opc, fmt, x.g, x.d, 0, 0, 0⟩ { imm := x.imm, fn := fn } = .ok x := by
  simp [decLiI]

theorem decLeaA_enc (opc : BitVec 8) (fmt : BitVec 4) (fn : BitVec 8) (x : LeaA) :
    decLeaA ⟨opc, fmt, x.g, x.d, x.a, x.b, 0⟩ { imm8 := 0#5 ++ x.k, fn := fn } = .ok x := by
  simp [decLeaA]

theorem decFpR_enc (opc : BitVec 8) (fmt : BitVec 4) (fn : BitVec 8) (x : FpR) (hx : x.ok = true) :
    decFpR ⟨opc, fmt, x.g, x.d, x.a, x.b, 0⟩ { ty := x.ty.code, rm := x.rm.code, fn := fn } = .ok x := by
  simp [decFpR, chk_of hx]

theorem decFpB_enc (opc : BitVec 8) (fmt : BitVec 4) (fn : BitVec 8) (x : FpB) (hx : x.ok = true) :
    decFpB ⟨opc, fmt, x.g, x.d, x.a, x.b, 0⟩ { ty := x.ty.code, fn := fn } = .ok x := by
  simp [decFpB, chk_of hx]

theorem decFpF_enc (opc : BitVec 8) (fmt : BitVec 4) (fn : BitVec 8) (x : FpF) (hx : x.ok = true) :
    decFpF ⟨opc, fmt, x.g, x.d, x.a, x.b, x.c⟩ { ty := x.ty.code, rm := x.rm.code, fn := fn } = .ok x := by
  simp [decFpF, chk_of hx]

theorem decFpC_enc (opc : BitVec 8) (fmt : BitVec 4) (x : FpC) (hx : x.ok = true) :
    decFpC ⟨opc, fmt, x.g, x.d.setWidth 6, x.a, x.b, 0⟩ { ty := x.ty.code, fn := x.c.code } = .ok x := by
  simp [decFpC, chk_of hx]

theorem decFpV_enc (opc : BitVec 8) (fmt : BitVec 4) (fn : BitVec 8) (x : FpV) (hx : x.ok = true) :
    decFpV ⟨opc, fmt, x.g, x.d, x.a, 0, 0⟩
      { ty := x.dst.code, ty2 := x.src.code, rm := x.rm.code, md := 0#5 ++ BitVec.ofBool x.sat ++ 0#2, fn := fn } = .ok x := by
  simp [decFpV, chk_of hx]

theorem decFpN_enc (opc : BitVec 8) (fmt : BitVec 4) (fn : BitVec 8) (x : FpN) (hx : x.ok = true) :
    decFpN ⟨opc, fmt, x.g, x.d, x.a, 0, 0⟩ { ty := x.ty.code, rm := x.rm.code, fn := fn } = .ok x := by
  simp [decFpN, chk_of hx]

theorem decBrB_enc (opc : BitVec 8) (fmt : BitVec 4) (x : BrB) (hx : x.ok = true) :
    decBrB ⟨opc, fmt, x.g, 0, x.a, x.b, 0⟩ { imm := x.disp, fn := brCode x.c } = .ok x := by
  obtain ⟨g, c, a, b, disp⟩ := x
  cases c with
  | none =>
    obtain ⟨rfl, rfl⟩ : a = 0 ∧ b = 0 := by simpa [BrB.ok] using hx
    simp [decBrB, chk, BrB.ok]
  | some c =>
    have h : brCode (some c) ≠ 0#8 := by cases c <;> decide
    simp [decBrB, chk_of hx, h]

theorem decJmpB_enc (opc : BitVec 8) (fmt : BitVec 4) (x : JmpB) :
    decJmpB ⟨opc, fmt, x.g, 0, 0, 0, 0⟩ { imm := x.disp, fn := 0 } = .ok x := by
  simp [decJmpB]

theorem decGSrcA_enc (opc : BitVec 8) (fmt : BitVec 4) (fn : BitVec 8) (x : GSrc) :
    decGSrcA ⟨opc, fmt, x.g, 0, x.a, 0, 0⟩ { fn := fn } = .ok x := by
  simp [decGSrcA]

theorem decCallB_enc (opc : BitVec 8) (fmt : BitVec 4) (x : CallB) :
    decCallB ⟨opc, fmt, x.g, x.d, 0, 0, 0⟩ { imm := x.disp, fn := 0 } = .ok x := by
  simp [decCallB]

theorem decLoopB_enc (opc : BitVec 8) (fmt : BitVec 4) (x : LoopB) :
    decLoopB ⟨opc, fmt, x.g, 0, x.a, 0, 0⟩ { imm := x.disp, fn := 0 } = .ok x := by
  simp [decLoopB]

theorem decPredA_enc (opc : BitVec 8) (fmt : BitVec 4) (fn : BitVec 8) (x : PredA) :
    decPredA ⟨opc, fmt, x.g, x.d.setWidth 6, x.a.setWidth 6, x.b.setWidth 6, 0⟩
      { md := 0#6 ++ BitVec.ofBool x.nb ++ BitVec.ofBool x.na, fn := fn } = .ok x := by
  simp [decPredA]

theorem decPnotA_enc (opc : BitVec 8) (fmt : BitVec 4) (fn : BitVec 8) (x : PnotA) :
    decPnotA ⟨opc, fmt, x.g, x.d.setWidth 6, x.a.setWidth 6, 0, 0⟩ { fn := fn } = .ok x := by
  simp [decPnotA]

theorem decPsetA_enc (opc : BitVec 8) (fmt : BitVec 4) (fn : BitVec 8) (x : PsetA) :
    decPsetA ⟨opc, fmt, x.g, x.d.setWidth 6, x.src.reg?, 0, 0⟩ { imm8 := x.src.imm8, fn := fn } = .ok x := by
  obtain ⟨g, d, src⟩ := x
  cases src with
  | imm v => cases v <;> simp [decPsetA, PsetSrc.imm8, PsetSrc.reg?]
  | reg a => simp [decPsetA, PsetSrc.imm8, PsetSrc.reg?]

theorem decQputA_enc (opc : BitVec 8) (fmt : BitVec 4) (fn : BitVec 8) (x : QputA) :
    decQputA ⟨opc, fmt, x.g, x.q.setWidth 6, x.a, 0, 0⟩ { fn := fn } = .ok x := by
  simp [decQputA]

theorem decQgetA_enc (opc : BitVec 8) (fmt : BitVec 4) (fn : BitVec 8) (x : QgetA) :
    decQgetA ⟨opc, fmt, x.g, x.d, x.q.setWidth 6, 0, 0⟩ { fn := fn } = .ok x := by
  simp [decQgetA]

theorem decRepbA_enc (opc : BitVec 8) (fmt : BitVec 4) (fn : BitVec 8) (x : RepbA) :
    decRepbA ⟨opc, fmt, x.g, 0, x.a, 0, 0⟩
      { imm8 := 0#3 ++ x.stride, md := 0#6 ++ BitVec.ofBool x.reng ++ BitVec.ofBool x.renv, fn := fn } = .ok x := by
  simp [decRepbA]

theorem decGDestA_enc (opc : BitVec 8) (fmt : BitVec 4) (fn : BitVec 8) (x : GDest) :
    decGDestA ⟨opc, fmt, x.g, x.d, 0, 0, 0⟩ { fn := fn } = .ok x := by
  simp [decGDestA]

theorem decLdM_enc (opc : BitVec 8) (fmt : BitVec 4) (x : LdM) (hx : x.ok = true) :
    decLdM ⟨opc, fmt, x.g, x.d, x.a, 0, x.c⟩
      { stream := x.str.stream, pmask := x.str.pmask, scope := x.str.code, off := x.off, am := x.am.code, size := 0#2 ++ x.sz, sx :=
        BitVec.ofBool x.sx, nt := BitVec.ofBool x.nt, ex := BitVec.ofBool x.ex } = .ok x := by
  have h := hx
  rw [LdM.ok, Bool.and_eq_true, coreFits_iff] at h
  simpa [decLdM, chk_of hx] using h.1

theorem decStM_enc (opc : BitVec 8) (fmt : BitVec 4) (x : StM) (hx : x.ok = true) :
    decStM ⟨opc, fmt, x.g, 0, x.a, x.b, x.c⟩
      { stream := x.str.stream, pmask := x.str.pmask, scope := x.str.code, off := x.off, am := x.am.code, size := 0#2 ++ x.sz, nt :=
        BitVec.ofBool x.nt } = .ok x := by
  have h := hx
  rw [StM.ok, coreFits_iff] at h
  simpa [decStM, chk_of hx] using h

theorem decLdvM_enc (opc : BitVec 8) (fmt : BitVec 4) (x : LdvM) (hx : x.ok = true) :
    decLdvM ⟨opc, fmt, x.g, x.d.setWidth 6, x.a, 0, x.c⟩
      { stream := x.str.stream, pmask := x.str.pmask, scope := x.str.code, off := x.off, am := x.am.code, size := x.sz.code, nt :=
        BitVec.ofBool x.nt, ex := BitVec.ofBool x.ex } = .ok x := by
  have h := hx
  rw [LdvM.ok, coreFits_iff] at h
  simpa [decLdvM, chk_of hx] using h

theorem decStvM_enc (opc : BitVec 8) (fmt : BitVec 4) (x : StvM) (hx : x.ok = true) :
    decStvM ⟨opc, fmt, x.g, 0, x.a, x.b.setWidth 6, x.c⟩
      { stream := x.str.stream, pmask := x.str.pmask, scope := x.str.code, off := x.off, am := x.am.code, size := x.sz.code, nt :=
        BitVec.ofBool x.nt } = .ok x := by
  have h := hx
  rw [StvM.ok, coreFits_iff] at h
  simpa [decStvM, chk_of hx] using h

theorem decPfM_enc (opc : BitVec 8) (fmt : BitVec 4) (x : PfM) :
    decPfM ⟨opc, fmt, x.g, 0, x.a, 0, 0⟩
      { stream := x.str.stream, pmask := x.str.pmask, scope := x.str.code, off := x.off, size := 3, nt := BitVec.ofBool x.nt, ex :=
        BitVec.ofBool x.ex } = .ok x := by
  simp [decPfM]

theorem decCacheM_enc (opc : BitVec 8) (fmt : BitVec 4) (x : CacheM) :
    decCacheM ⟨opc, fmt, x.g, 0, x.a, 0, 0⟩
      { stream := x.str.stream, pmask := x.str.pmask, scope := x.str.code, off := x.off, size := 3 } = .ok x := by
  simp [decCacheM]

theorem decScntT_enc (opc : BitVec 8) (fmt : BitVec 4) (fn : BitVec 8) (x : ScntT) (hx : x.ok = true) :
    decScntT ⟨opc, fmt, x.g, x.d, 0, 0, 0⟩ { imm16 := 0#12 ++ BitVec.ofBool x.all ++ x.s, fn := fn } = .ok x := by
  have h := hx
  simp only [ScntT.ok, Bool.or_eq_true, Bool.not_eq_true', beq_iff_eq] at h
  simpa [decScntT, chk_of hx] using h

theorem decAmoM_enc (opc : BitVec 8) (fmt : BitVec 4) (x : AmoM) (hx : x.ok = true) :
    decAmoM ⟨opc, fmt, x.g, x.d, x.a, x.b, x.c⟩
      { stream := x.str.stream, pmask := x.str.pmask, scope := x.str.code, off := x.off, am := x.am.code, size :=
        1#3 ++ BitVec.ofBool x.dword } = .ok x := by
  have h := hx
  rw [AmoM.ok, coreFits_iff] at h
  simpa [decAmoM, chk_of hx] using h

theorem decCasM_enc (opc : BitVec 8) (fmt : BitVec 4) (x : CasM) (hx : x.ok = true) :
    decCasM ⟨opc, fmt, x.g, x.d, x.a, x.b, x.c⟩
      { stream := x.str.stream, pmask := x.str.pmask, scope := x.str.code, off := x.off, am := x.am.code, size :=
        1#3 ++ BitVec.ofBool x.dword } = .ok x := by
  simp [decCasM, chk_of hx]

theorem decAmoF_enc (opc : BitVec 8) (fmt : BitVec 4) (x : AmoF) (hx : x.ok = true) :
    decAmoF ⟨opc, fmt, x.g, x.d, x.a, x.b, x.c⟩
      { stream := x.str.stream, pmask := x.str.pmask, scope := x.str.code, off := x.off, am := x.am.code, size := x.ty.code } = .ok x := by
  have h := hx
  rw [AmoF.ok, coreFits_iff] at h
  simpa [decAmoF, chk_of hx] using h

theorem decWatchM_enc (opc : BitVec 8) (fmt : BitVec 4) (x : WatchM) :
    decWatchM ⟨opc, fmt, x.g, x.d, x.a, x.b, 0⟩
      { stream := x.str.stream, pmask := x.str.pmask, scope := x.str.code, off := x.off, size := 3 } = .ok x := by
  simp [decWatchM]

theorem decRelM_enc (opc : BitVec 8) (fmt : BitVec 4) (x : RelM) :
    decRelM ⟨opc, fmt, x.g, x.d, x.a, 0, 0⟩
      { stream := x.str.stream, pmask := x.str.pmask, scope := x.str.code, off := x.off, size := 3 } = .ok x := by
  simp [decRelM]

theorem decLadM_enc (opc : BitVec 8) (fmt : BitVec 4) (x : LadM) :
    decLadM ⟨opc, fmt, x.g, x.d.setWidth 6, x.a, 0, 0⟩
      { stream := x.str.stream, pmask := x.str.pmask, scope := x.str.code, off := x.off, size := 3 } = .ok x := by
  simp [decLadM]

theorem decSendC_enc (opc : BitVec 8) (fmt : BitVec 4) (fn : BitVec 8) (x : SendC) :
    decSendC ⟨opc, fmt, x.g, 0, x.a, x.b, x.c⟩
      { stream := x.str.stream, pmask := x.str.pmask, scope := x.str.code, am := x.am.code, chan := x.chan, fn := fn } = .ok x := by
  simp [decSendC]

theorem decSendA_enc (opc : BitVec 8) (fmt : BitVec 4) (fn : BitVec 8) (bit : Nat) (x : SendA) (hb : bit = 0 ∨ bit = 1) (hx : x.ok = true) :
    decSendA bit ⟨opc, fmt, x.g, 0, x.a, x.b, x.c⟩
      { stream := x.str.stream, pmask := x.str.pmask, scope := x.str.code, am := x.am.code, ty := x.ty.code, seq := BitVec.ofBool x.seq, chan :=
        x.chan, md := (BitVec.ofBool x.m).setWidth 8 <<< bit, fn := fn } = .ok x := by
  obtain ⟨g, str, am, ty, seq, m, chan, a, b, c⟩ := x
  obtain rfl | rfl := hb
  all_goals cases m <;> simp [decSendA, chk_of hx]

theorem decChopenC_enc (opc : BitVec 8) (fmt : BitVec 4) (fn : BitVec 8) (x : ChopenC) :
    decChopenC ⟨opc, fmt, x.g, x.d, x.a, x.b, 0⟩
      { stream := x.str.stream, pmask := x.str.pmask, scope := x.str.code, chan := x.chan, md := 0#7 ++ BitVec.ofBool x.arith, fn :=
        fn } = .ok x := by
  simp [decChopenC]

theorem decChcloseC_enc (opc : BitVec 8) (fmt : BitVec 4) (fn : BitVec 8) (x : ChcloseC) :
    decChcloseC ⟨opc, fmt, x.g, x.d, 0, 0, 0⟩
      { stream := x.str.stream, pmask := x.str.pmask, scope := x.str.code, chan := x.chan, fn := fn } = .ok x := by
  simp [decChcloseC]

theorem decChwmC_enc (opc : BitVec 8) (fmt : BitVec 4) (fn : BitVec 8) (x : ChwmC) :
    decChwmC ⟨opc, fmt, x.g, x.d, x.a, x.b, 0⟩
      { stream := x.str.stream, pmask := x.str.pmask, scope := x.str.code, chan := x.chan, md :=
        0#6 ++ BitVec.ofBool x.setseq ++ BitVec.ofBool x.setwm, fn := fn } = .ok x := by
  simp [decChwmC]

theorem decStnM_enc (opc : BitVec 8) (fmt : BitVec 4) (x : StnM) (hx : x.ok = true) :
    decStnM ⟨opc, fmt, x.g, 0, x.a, x.b, x.c⟩
      { stream := x.str.stream, pmask := x.str.pmask, scope := x.str.code, off := x.off, am := x.am.code, size := x.sz.code } = .ok x := by
  have h := hx
  rw [StnM.ok, Bool.and_eq_true, coreFits_iff] at h
  simpa [decStnM, chk_of hx] using h.1

theorem decLmcfgT_enc (opc : BitVec 8) (fmt : BitVec 4) (fn : BitVec 8) (x : LmcfgT) :
    decLmcfgT ⟨opc, fmt, x.g, x.d, 0, 0, 0⟩ { imm16 := 0#14 ++ x.code, fn := fn } = .ok x := by
  simp [decLmcfgT]

theorem decMsgC_enc (opc : BitVec 8) (fmt : BitVec 4) (fn : BitVec 8) (x : MsgC) (hx : x.ok = true) :
    decMsgC ⟨opc, fmt, x.g, 0, x.a, x.b, 0⟩ { stream := x.str.stream, pmask := x.str.pmask, scope := x.str.code, fn := fn } = .ok x := by
  simp [decMsgC, chk_of hx]

theorem decVAddV_enc (opc : BitVec 8) (fmt : BitVec 4) (fn : BitVec 8) (x : VAddV) (hx : x.ok = true) :
    decVAddV ⟨opc, fmt, x.g, x.d.setWidth 6, x.a.setWidth 6, x.b.setWidth 6, 0⟩
      { ty := x.ty.code, rm := x.rm.code, md := 0#6 ++ BitVec.ofBool x.uns ++ BitVec.ofBool x.sat, fn := fn } = .ok x := by
  simp [decVAddV, chk_of hx]

theorem decVMulV_enc (opc : BitVec 8) (fmt : BitVec 4) (fn : BitVec 8) (x : VMulV) (hx : x.ok = true) :
    decVMulV ⟨opc, fmt, x.g, x.d.setWidth 6, x.a.setWidth 6, x.b.setWidth 6, 0⟩ { ty := x.ty.code, rm := x.rm.code, fn := fn } = .ok x := by
  simp [decVMulV, chk_of hx]

theorem decVFmaV_enc (opc : BitVec 8) (fmt : BitVec 4) (fn : BitVec 8) (x : VFmaV) (hx : x.ok = true) :
    decVFmaV ⟨opc, fmt, x.g, x.d.setWidth 6, x.a.setWidth 6, x.b.setWidth 6, x.c.setWidth 6⟩
      { ty := x.ty.code, rm := x.rm.code, fn := fn } = .ok x := by
  simp [decVFmaV, chk_of hx]

theorem decVNegV_enc (opc : BitVec 8) (fmt : BitVec 4) (fn : BitVec 8) (x : VNegV) (hx : x.ok = true) :
    decVNegV ⟨opc, fmt, x.g, x.d.setWidth 6, x.a.setWidth 6, 0, 0⟩ { ty := x.ty.code, md := 0#7 ++ BitVec.ofBool x.sat, fn := fn } = .ok x := by
  simp [decVNegV, chk_of hx]

theorem decVMinV_enc (opc : BitVec 8) (fmt : BitVec 4) (fn : BitVec 8) (x : VMinV) (hx : x.ok = true) :
    decVMinV ⟨opc, fmt, x.g, x.d.setWidth 6, x.a.setWidth 6, x.b.setWidth 6, 0⟩
      { ty := x.ty.code, md := 0#6 ++ BitVec.ofBool x.uns ++ 0#1, fn := fn } = .ok x := by
  simp [decVMinV, chk_of hx]

theorem decVLogV_enc (opc : BitVec 8) (fmt : BitVec 4) (fn : BitVec 8) (x : VLogV) :
    decVLogV ⟨opc, fmt, x.g, x.d.setWidth 6, x.a.setWidth 6, x.b.setWidth 6, 0⟩ { fn := fn } = .ok x := by
  simp [decVLogV]

theorem decVShV_enc (opc : BitVec 8) (fmt : BitVec 4) (fn : BitVec 8) (x : VShV) (hx : x.ok = true) :
    decVShV ⟨opc, fmt, x.g, x.d.setWidth 6, x.a.setWidth 6, x.cnt.reg?, 0⟩
      { ty := x.ty.code, imm8 := x.cnt.imm8, md := 0#7 ++ BitVec.ofBool x.cnt.isImm, fn := fn } = .ok x := by
  obtain ⟨g, ty, d, a, cnt⟩ := x
  cases cnt with
  | imm n => simp [decVShV, VCount.isImm, VCount.imm8, VCount.reg?, chk_of hx]
  | reg b => simp [decVShV, VCount.isImm, VCount.imm8, VCount.reg?, chk_of hx]

theorem decVCmpV_enc (opc : BitVec 8) (fmt : BitVec 4) (x : VCmpV) (hx : x.ok = true) :
    decVCmpV ⟨opc, fmt, x.g, x.d.setWidth 6, x.a.setWidth 6, x.b.setWidth 6, 0⟩ { ty := x.ty.code, fn := x.c.code } = .ok x := by
  simp [decVCmpV, chk_of hx]

theorem decVSelV_enc (opc : BitVec 8) (fmt : BitVec 4) (fn : BitVec 8) (x : VSelV) :
    decVSelV ⟨opc, fmt, x.g, x.d.setWidth 6, x.a.setWidth 6, x.b.setWidth 6, x.c.setWidth 6⟩ { fn := fn } = .ok x := by
  simp [decVSelV]

theorem decVCvtV_enc (opc : BitVec 8) (fmt : BitVec 4) (fn : BitVec 8) (x : VCvtV) (hx : x.ok = true) :
    decVCvtV ⟨opc, fmt, x.g, x.d.setWidth 6, x.a.setWidth 6, 0, 0⟩
      { ty := x.dst.code, ty2 := x.src.code, rm := x.rm.code, md := 0#5 ++ BitVec.ofBool x.sat ++ 0#2, imm8 := x.k, fn := fn } = .ok x := by
  simp [decVCvtV, chk_of hx]

theorem decVFunV_enc (opc : BitVec 8) (fmt : BitVec 4) (fn : BitVec 8) (x : VFunV) (hx : x.ok = true) :
    decVFunV ⟨opc, fmt, x.g, x.d.setWidth 6, x.a.setWidth 6, 0, 0⟩ { ty := x.ty.code, fn := fn } = .ok x := by
  simp [decVFunV, chk_of hx]

theorem decVSqrtV_enc (opc : BitVec 8) (fmt : BitVec 4) (fn : BitVec 8) (x : VSqrtV) (hx : x.ok = true) :
    decVSqrtV ⟨opc, fmt, x.g, x.d.setWidth 6, x.a.setWidth 6, 0, 0⟩ { ty := x.ty.code, rm := x.rm.code, fn := fn } = .ok x := by
  simp [decVSqrtV, chk_of hx]

theorem decVPermV_enc (opc : BitVec 8) (fmt : BitVec 4) (fn : BitVec 8) (x : VPermV) (hx : x.ok = true) :
    decVPermV ⟨opc, fmt, x.g, x.d.setWidth 6, x.a.setWidth 6, x.b.setWidth 6, (x.c.getD 0).setWidth 6⟩
      { ty := x.ty.code, md := 0#7 ++ BitVec.ofBool x.c.isSome, fn := fn } = .ok x := by
  obtain ⟨g, ty, d, a, b, c⟩ := x
  cases c with
  | none => simp [decVPermV, chk_of hx]
  | some c => simp [decVPermV, chk_of hx]

theorem decVBcastV_enc (opc : BitVec 8) (fmt : BitVec 4) (fn : BitVec 8) (x : VBcastV) (hx : x.ok = true) :
    decVBcastV ⟨opc, fmt, x.g, x.d.setWidth 6, x.a.setWidth 6, 0, 0⟩ { ty := x.ty.code, imm8 := x.k, fn := fn } = .ok x := by
  simp [decVBcastV, chk_of hx]

theorem decVInsV_enc (opc : BitVec 8) (fmt : BitVec 4) (fn : BitVec 8) (x : VInsV) (hx : x.ok = true) :
    decVInsV ⟨opc, fmt, x.g, x.d.setWidth 6, x.a, 0, 0⟩ { ty := x.ty.code, imm8 := x.k, fn := fn } = .ok x := by
  simp [decVInsV, chk_of hx]

theorem decVExtV_enc (opc : BitVec 8) (fmt : BitVec 4) (fn : BitVec 8) (x : VExtV) (hx : x.ok = true) :
    decVExtV ⟨opc, fmt, x.g, x.d, x.a.setWidth 6, 0, 0⟩ { ty := x.ty.code, imm8 := x.k, fn := fn } = .ok x := by
  simp [decVExtV, chk_of hx]

theorem decVDotV_enc (opc : BitVec 8) (fmt : BitVec 4) (fn : BitVec 8) (x : VDotV) (hx : x.ok = true) :
    decVDotV ⟨opc, fmt, x.g, x.d.setWidth 6, x.a.setWidth 6, x.b.setWidth 6, 0⟩
      { ty := x.acc.code, ty2 := x.src.code, rm := x.rm.code, md := 0#7 ++ BitVec.ofBool x.sat, fn := fn } = .ok x := by
  simp [decVDotV, chk_of hx]

theorem decVMovV_enc (opc : BitVec 8) (fmt : BitVec 4) (fn : BitVec 8) (x : VMovV) :
    decVMovV ⟨opc, fmt, x.g, x.d.setWidth 6, x.a.setWidth 6, 0, 0⟩ { fn := fn } = .ok x := by
  simp [decVMovV]

theorem decVSplatV_enc (opc : BitVec 8) (fmt : BitVec 4) (fn : BitVec 8) (x : VSplatV) :
    decVSplatV ⟨opc, fmt, x.g, x.d.setWidth 6, x.a, 0, 0⟩ { ty := x.ty.code, fn := fn } = .ok x := by
  simp [decVSplatV]

theorem decMldN_enc (opc : BitVec 8) (fmt : BitVec 4) (fn : BitVec 8) (x : MldN) :
    decMldN ⟨opc, fmt, x.g, x.m.setWidth 6, x.a, 0, 0⟩
      { stream := x.str.stream, pmask := x.str.pmask, scope := x.str.code, md := 0#7 ++ BitVec.ofBool x.loc, fn := fn } = .ok x := by
  simp [decMldN]

theorem decMstN_enc (opc : BitVec 8) (fmt : BitVec 4) (fn : BitVec 8) (x : MldN) :
    decMstN ⟨opc, fmt, x.g, 0, x.a, x.m.setWidth 6, 0⟩
      { stream := x.str.stream, pmask := x.str.pmask, scope := x.str.code, md := 0#7 ++ BitVec.ofBool x.loc, fn := fn } = .ok x := by
  simp [decMstN]

theorem decMsetN_enc (opc : BitVec 8) (fmt : BitVec 4) (x : MsetN) (hx : x.ok = true) :
    decMsetN ⟨opc, fmt, x.g, x.d.setWidth 6, x.a, x.b, 0⟩ { fn := x.f.code } = .ok x := by
  obtain ⟨g, f, d, a, b⟩ := x
  cases f with
  | dim k =>
    have h : ∀ k : BitVec 2, 2 ≤ (MField.dim k).code.toNat ∧ (MField.dim k).code.toNat ≤ 5 := by decide
    simp [decMsetN, chk_of hx, h k]
  | base | sbase | ctl =>
    obtain rfl : b = 0 := by simpa [MsetN.ok] using hx
    simp [decMsetN, chk, MsetN.ok]

theorem decMewN_enc (opc : BitVec 8) (fmt : BitVec 4) (x : MewN) (hx : x.ok = true) :
    decMewN ⟨opc, fmt, x.g, x.d.setWidth 6, x.a.setWidth 6, x.b.setWidth 6, 0⟩
      { stream := x.str.stream, pmask := x.str.pmask, scope := x.str.code, ty := x.ty.code, rm := x.rm.code, md :=
        0#5 ++ BitVec.ofBool x.sat ++ BitVec.ofBool x.uns ++ 0#1, fn := x.op.code } = .ok x := by
  have h : x.op.code.toNat < 5 ∨ x.b = 0 := by
    simp only [MewN.ok, Bool.and_eq_true, Bool.or_eq_true, beq_iff_eq] at hx
    obtain ⟨⟨⟨⟨_, h | h⟩, _⟩, _⟩, _⟩ := hx
    · left; revert h; cases x.op <;> decide
    · exact .inr h
  have h' : x.op.code.toNat < 5 ∨ BitVec.setWidth 6 x.b = 0#6 := h.imp_right fun h => by rw [h]; rfl
  simpa [decMewN, chk_of hx] using h'

theorem decMfmaN_enc (opc : BitVec 8) (fmt : BitVec 4) (fn : BitVec 8) (x : MfmaN) (hx : x.ok = true) :
    decMfmaN ⟨opc, fmt, x.g, x.d.setWidth 6, x.a.setWidth 6, x.b.setWidth 6, x.c.setWidth 6⟩
      { stream := x.str.stream, pmask := x.str.pmask, scope := x.str.code, ty := x.ty.code, rm := x.rm.code, md :=
        0#5 ++ BitVec.ofBool x.sat ++ 0#2, fn := fn } = .ok x := by
  simp [decMfmaN, chk_of hx]

theorem decMredN_enc (opc : BitVec 8) (fmt : BitVec 4) (x : MredN) (hx : x.ok = true) :
    decMredN ⟨opc, fmt, x.g, x.d.setWidth 6, x.a.setWidth 6, 0, 0⟩
      { stream := x.str.stream, pmask := x.str.pmask, scope := x.str.code, ty := x.ty.code, rm := x.rm.code, dims := x.dims, md :=
        0#5 ++ BitVec.ofBool x.sat ++ 0#2, fn := x.op.code } = .ok x := by
  simp [decMredN, chk_of hx]

theorem decMcvtN_enc (opc : BitVec 8) (fmt : BitVec 4) (fn : BitVec 8) (x : McvtN) :
    decMcvtN ⟨opc, fmt, x.g, x.d.setWidth 6, x.a.setWidth 6, 0, 0⟩
      { stream := x.str.stream, pmask := x.str.pmask, scope := x.str.code, rm := x.rm.code, md := 0#5 ++ BitVec.ofBool x.sat ++ 0#2, fn :=
        fn } = .ok x := by
  simp [decMcvtN]

theorem decMgathN_enc (opc : BitVec 8) (fmt : BitVec 4) (fn : BitVec 8) (x : MgathN) (hx : x.ok = true) :
    decMgathN ⟨opc, fmt, x.g, x.d.setWidth 6, x.a.setWidth 6, x.b.setWidth 6, 0⟩
      { stream := x.str.stream, pmask := x.str.pmask, scope := x.str.code, ty := x.ty.code, rm := x.rm.code, md :=
        0#5 ++ BitVec.ofBool x.sat ++ 0#2, fn := fn } = .ok x := by
  simp [decMgathN, chk_of hx]

theorem decMscatN_enc (opc : BitVec 8) (fmt : BitVec 4) (x : MscatN) (hx : x.ok = true) :
    decMscatN ⟨opc, fmt, x.g, x.d.setWidth 6, x.a.setWidth 6, x.b.setWidth 6, 0⟩
      { stream := x.str.stream, pmask := x.str.pmask, scope := x.str.code, ty := x.ty.code, rm := x.rm.code, md :=
        0#5 ++ BitVec.ofBool x.sat ++ 0#2, fn := 0#7 ++ BitVec.ofBool x.add } = .ok x := by
  simp [decMscatN, chk_of hx]

theorem decMcopyN_enc (opc : BitVec 8) (fmt : BitVec 4) (fn : BitVec 8) (x : McopyN) :
    decMcopyN ⟨opc, fmt, x.g, x.d.setWidth 6, x.a.setWidth 6, 0, 0⟩
      { stream := x.str.stream, pmask := x.str.pmask, scope := x.str.code, fn := fn } = .ok x := by
  simp [decMcopyN]

theorem decFmtsetA_enc (opc : BitVec 8) (fmt : BitVec 4) (fn : BitVec 8) (x : FmtsetA) :
    decFmtsetA ⟨opc, fmt, x.g, x.d.setWidth 6, x.a, 0, 0⟩ { fn := fn } = .ok x := by
  simp [decFmtsetA]

theorem decFmtgetA_enc (opc : BitVec 8) (fmt : BitVec 4) (fn : BitVec 8) (x : FmtgetA) :
    decFmtgetA ⟨opc, fmt, x.g, x.d, x.a.setWidth 6, 0, 0⟩ { fn := fn } = .ok x := by
  simp [decFmtgetA]

theorem decLutN_enc (opc : BitVec 8) (fmt : BitVec 4) (fn : BitVec 8) (x : LutN) :
    decLutN ⟨opc, fmt, x.g, 0, x.a, 0, 0⟩
      { stream := x.str.stream, pmask := x.str.pmask, scope := x.str.code, md := 0#7 ++ BitVec.ofBool x.loc, fn := fn } = .ok x := by
  simp [decLutN]

theorem decXresX_enc (opc : BitVec 8) (fmt : BitVec 4) (fn : BitVec 8) (x : XresX) (hx : x.ok = true) :
    decXresX ⟨opc, fmt, x.g, x.d, x.a, x.b, 0⟩
      { stream := x.str.stream, pmask := x.str.pmask, scope := x.str.code, ty := x.ty.code, md := 0#5 ++ BitVec.ofBool x.pin ++ x.skind, fn :=
        fn } = .ok x := by
  simp [decXresX, chk_of hx]

theorem decXhX_enc (opc : BitVec 8) (fmt : BitVec 4) (fn : BitVec 8) (x : XhX) :
    decXhX ⟨opc, fmt, x.g, x.d, x.a, 0, 0⟩ { stream := x.str.stream, pmask := x.str.pmask, scope := x.str.code, fn := fn } = .ok x := by
  simp [decXhX]

theorem decXqryX_enc (opc : BitVec 8) (fmt : BitVec 4) (fn : BitVec 8) (x : XqryX) :
    decXqryX ⟨opc, fmt, x.g, x.d.setWidth 6, x.a, 0, 0⟩ { fn := fn } = .ok x := by
  simp [decXqryX]

theorem decXmmX_enc (opc : BitVec 8) (fmt : BitVec 4) (fn : BitVec 8) (x : XmmX) :
    decXmmX ⟨opc, fmt, x.g, x.d.setWidth 6, x.a.setWidth 6, x.b, (drainReg x.drain).setWidth 6⟩
      { stream := x.str.stream, pmask := x.str.pmask, scope := x.str.code, md := drainMod x.drain, fn := fn } = .ok x := by
  obtain ⟨g, str, drain, d, a, b⟩ := x
  cases drain with
  | none => simp [decXmmX, drainMod, drainReg]
  | some y =>
    obtain ⟨m, sat⟩ := y
    cases sat <;> simp [decXmmX, drainMod, drainReg]

theorem decXstatX_enc (opc : BitVec 8) (fmt : BitVec 4) (x : XstatX) (hx : x.ok = true) :
    decXstatX ⟨opc, fmt, x.g, x.d, 0, 0, 0⟩ { fn := 0#4 ++ x.n } = .ok x := by
  simp [decXstatX, chk_of hx]

theorem decAcfgX_enc (opc : BitVec 8) (fmt : BitVec 4) (fn : BitVec 8) (x : AcfgX) :
    decAcfgX ⟨opc, fmt, x.g, x.d, x.a, 0, x.c.setWidth 6⟩ { fn := fn } = .ok x := by
  simp [decAcfgX]

theorem decAgetX_enc (opc : BitVec 8) (fmt : BitVec 4) (fn : BitVec 8) (x : AgetX) :
    decAgetX ⟨opc, fmt, x.g, x.d, x.a.setWidth 6, 0, 0⟩ { fn := fn } = .ok x := by
  simp [decAgetX]

theorem decAviewX_enc (opc : BitVec 8) (fmt : BitVec 4) (fn : BitVec 8) (x : AviewX) :
    decAviewX ⟨opc, fmt, x.g, x.d.setWidth 6, 0, 0, 0⟩ { fn := fn } = .ok x := by
  simp [decAviewX]

theorem decAinX_enc (opc : BitVec 8) (fmt : BitVec 4) (fn : BitVec 8) (x : AinX) :
    decAinX ⟨opc, fmt, x.g, x.d.setWidth 6, x.a.setWidth 6, x.b, 0⟩ { fn := fn } = .ok x := by
  simp [decAinX]

theorem decAoutX_enc (opc : BitVec 8) (fmt : BitVec 4) (fn : BitVec 8) (x : AoutX) :
    decAoutX ⟨opc, fmt, x.g, x.d.setWidth 6, x.a.setWidth 6, x.b, 0⟩ { fn := fn } = .ok x := by
  simp [decAoutX]

theorem decMsgtC_enc (opc : BitVec 8) (fmt : BitVec 4) (fn : BitVec 8) (x : MsgtC) (hx : x.ok = true) :
    decMsgtC ⟨opc, fmt, x.g, 0, x.a, x.b, x.c⟩ { stream := x.str.stream, pmask := x.str.pmask, scope := x.str.code, fn := fn } = .ok x := by
  simp [decMsgtC, chk_of hx]

theorem decGOnlyT_enc (opc : BitVec 8) (fmt : BitVec 4) (fn : BitVec 8) (x : GOnly) :
    decGOnlyT ⟨opc, fmt, x.g, 0, 0, 0, 0⟩ { fn := fn } = .ok x := by
  simp [decGOnlyT]

theorem decSleepT_enc (opc : BitVec 8) (fmt : BitVec 4) (fn : BitVec 8) (x : SleepT) (hx : x.ok = true) :
    decSleepT ⟨opc, fmt, x.g, x.d, x.a, x.b, 0⟩ { imm16 := 0#5 ++ x.sel, fn := fn } = .ok x := by
  simp [decSleepT, chk_of hx]

theorem decThnewT_enc (opc : BitVec 8) (fmt : BitVec 4) (fn : BitVec 8) (x : ThnewT) :
    decThnewT ⟨opc, fmt, x.g, x.d, x.a, x.b, x.c⟩ { imm16 := 0#15 ++ BitVec.ofBool x.start, fn := fn } = .ok x := by
  simp [decThnewT]

theorem decGDT_enc (opc : BitVec 8) (fmt : BitVec 4) (fn : BitVec 8) (x : GD) :
    decGDT ⟨opc, fmt, x.g, x.d, x.a, 0, 0⟩ { fn := fn } = .ok x := by
  simp [decGDT]

theorem decThrdT_enc (opc : BitVec 8) (fmt : BitVec 4) (fn : BitVec 8) (x : ThrdT) :
    decThrdT ⟨opc, fmt, x.g, x.d, x.a, x.b, x.c.setWidth 6⟩ { fn := fn } = .ok x := by
  simp [decThrdT]

theorem decThwrT_enc (opc : BitVec 8) (fmt : BitVec 4) (fn : BitVec 8) (x : ThwrT) :
    decThwrT ⟨opc, fmt, x.g, x.d, x.a, x.b, x.c⟩ { fn := fn } = .ok x := by
  simp [decThwrT]

theorem decTrapT_enc (opc : BitVec 8) (fmt : BitVec 4) (fn : BitVec 8) (x : TrapT) :
    decTrapT ⟨opc, fmt, x.g, 0, 0, 0, 0⟩ { imm16 := x.code, fn := fn } = .ok x := by
  simp [decTrapT]

theorem decMfsT_enc (opc : BitVec 8) (fmt : BitVec 4) (fn : BitVec 8) (x : MfsT) :
    decMfsT ⟨opc, fmt, x.g, x.d, 0, 0, 0⟩ { imm16 := x.r.code, fn := fn } = .ok x := by
  simp [decMfsT]

theorem decMtsT_enc (opc : BitVec 8) (fmt : BitVec 4) (fn : BitVec 8) (x : MtsT) :
    decMtsT ⟨opc, fmt, x.g, 0, x.a, 0, 0⟩ { imm16 := x.r.code, fn := fn } = .ok x := by
  simp [decMtsT]

theorem decGDestT_enc (opc : BitVec 8) (fmt : BitVec 4) (fn : BitVec 8) (x : GDest) :
    decGDestT ⟨opc, fmt, x.g, x.d, 0, 0, 0⟩ { fn := fn } = .ok x := by
  simp [decGDestT]

theorem decRgnqT_enc (opc : BitVec 8) (fmt : BitVec 4) (fn : BitVec 8) (x : RgnqT) :
    decRgnqT ⟨opc, fmt, x.g, x.d, x.sel.arg, 0, 0⟩ { imm16 := x.sel.code, fn := fn } = .ok x := by
  obtain ⟨g, sel, d⟩ := x
  cases sel <;> simp [decRgnqT, RgnSel.code, RgnSel.arg, RgnSel.ofCode]

theorem decFpU_enc (p : FpU → Bool) (opc : BitVec 8) (fmt : BitVec 4) (fn : BitVec 8) (x : FpU) (hx : p x = true) :
    decFpU p ⟨opc, fmt, x.g, x.d, x.a, 0, 0⟩ { ty := x.ty.code, fn := fn } = .ok x := by
  simp [decFpU, chk_of hx]

theorem decVRedV_enc (p : VRedV → Bool) (opc : BitVec 8) (fmt : BitVec 4) (x : VRedV) (hx : p x = true) :
    decVRedV p ⟨opc, fmt, x.g, x.d.setWidth 6, x.a.setWidth 6, 0, 0⟩
      { ty := x.ty.code, rm := x.rm.code, md := 0#6 ++ BitVec.ofBool x.uns ++ 0#1, fn := x.op.code } = .ok x := by
  simp [decVRedV, chk_of hx]

theorem decNop_enc (opc : BitVec 8) (fmt : BitVec 4) (x : GOnly) : decNop ⟨opc, fmt, x.g, 0, 0, 0, 0⟩ {} = .ok x := by
  simp [decNop]

theorem decGSrcX_enc (opc : BitVec 8) (fmt : BitVec 4) (fn : BitVec 8) (x : GSrc) :
    decGSrcX ⟨opc, fmt, x.g, 0, x.a, 0, 0⟩ { fn := fn } = .ok x := by
  simp [decGSrcX]

/-! ### Rows of the opcode map (R38) -/

/-- The checks of the OPC and the FMT come first; then the decoder of the format judges the word's fields. -/
def decodeBody (h : Head) (b : BitVec 56) : Except DecodeErr Instr :=
  match h.fmt.toNat with
  | 0 => decodeA h (.ofBits b)
  | 1 => decodeI h (.ofBits b)
  | 2 => decodeM h (.ofBits b)
  | 3 => decodeB h (.ofBits b)
  | 4 => decodeV h (.ofBits b)
  | 5 => decodeN h (.ofBits b)
  | 6 => decodeX h (.ofBits b)
  | 7 => decodeC h (.ofBits b)
  | 8 => decodeT h (.ofBits b)
  | _ => .error .fmtIllegal

theorem decode_packWord (h : Head) (b : BitVec 56) {n : Nat} (ho : (fmtsOf h.opc.toNat).contains n = true) (hn : h.fmt.toNat = n) :
    decode (packWord h b) = decodeBody h b := by
  have hne : (fmtsOf h.opc.toNat).isEmpty = false := by
    cases hl : fmtsOf h.opc.toNat with
    | nil => rw [hl] at ho; cases ho
    | cons => rfl
  simp only [decode, headOf_packWord, bodyOf_packWord, hne, hn, ho]
  rw [← hn]
  rfl

theorem decode_rowA {h : Head} {b : BodyA} {d : Except DecodeErr α} {f : α → Instr} {x : α} (ho : (fmtsOf h.opc.toNat).contains 0 = true)
    (hf : h.fmt = 0) (hr : decodeA h b = d.map f) (hd : d = .ok x) : decode (packWord h b.pack) = .ok (f x) := by
  rw [decode_packWord h _ ho (by rw [hf]; rfl)]
  simp only [decodeBody, hf, BodyA.ofBits_pack]
  rw [hd] at hr
  exact hr

theorem decode_rowI {h : Head} {b : BodyI} {d : Except DecodeErr α} {f : α → Instr} {x : α} (ho : (fmtsOf h.opc.toNat).contains 1 = true)
    (hf : h.fmt = 1) (hr : decodeI h b = d.map f) (hd : d = .ok x) : decode (packWord h b.pack) = .ok (f x) := by
  rw [decode_packWord h _ ho (by rw [hf]; rfl)]
  simp only [decodeBody, hf, BodyI.ofBits_pack]
  rw [hd] at hr
  exact hr

theorem decode_rowM {h : Head} {b : BodyM} {d : Except DecodeErr α} {f : α → Instr} {x : α} (ho : (fmtsOf h.opc.toNat).contains 2 = true)
    (hf : h.fmt = 2) (hr : decodeM h b = d.map f) (hd : d = .ok x) : decode (packWord h b.pack) = .ok (f x) := by
  rw [decode_packWord h _ ho (by rw [hf]; rfl)]
  simp only [decodeBody, hf, BodyM.ofBits_pack]
  rw [hd] at hr
  exact hr

theorem decode_rowB {h : Head} {b : BodyI} {d : Except DecodeErr α} {f : α → Instr} {x : α} (ho : (fmtsOf h.opc.toNat).contains 3 = true)
    (hf : h.fmt = 3) (hr : decodeB h b = d.map f) (hd : d = .ok x) : decode (packWord h b.pack) = .ok (f x) := by
  rw [decode_packWord h _ ho (by rw [hf]; rfl)]
  simp only [decodeBody, hf, BodyI.ofBits_pack]
  rw [hd] at hr
  exact hr

theorem decode_rowV {h : Head} {b : BodyA} {d : Except DecodeErr α} {f : α → Instr} {x : α} (ho : (fmtsOf h.opc.toNat).contains 4 = true)
    (hf : h.fmt = 4) (hr : decodeV h b = d.map f) (hd : d = .ok x) : decode (packWord h b.pack) = .ok (f x) := by
  rw [decode_packWord h _ ho (by rw [hf]; rfl)]
  simp only [decodeBody, hf, BodyA.ofBits_pack]
  rw [hd] at hr
  exact hr

theorem decode_rowN {h : Head} {b : BodyN} {d : Except DecodeErr α} {f : α → Instr} {x : α} (ho : (fmtsOf h.opc.toNat).contains 5 = true)
    (hf : h.fmt = 5) (hr : decodeN h b = d.map f) (hd : d = .ok x) : decode (packWord h b.pack) = .ok (f x) := by
  rw [decode_packWord h _ ho (by rw [hf]; rfl)]
  simp only [decodeBody, hf, BodyN.ofBits_pack]
  rw [hd] at hr
  exact hr

theorem decode_rowX {h : Head} {b : BodyN} {d : Except DecodeErr α} {f : α → Instr} {x : α} (ho : (fmtsOf h.opc.toNat).contains 6 = true)
    (hf : h.fmt = 6) (hr : decodeX h b = d.map f) (hd : d = .ok x) : decode (packWord h b.pack) = .ok (f x) := by
  rw [decode_packWord h _ ho (by rw [hf]; rfl)]
  simp only [decodeBody, hf, BodyN.ofBits_pack]
  rw [hd] at hr
  exact hr

theorem decode_rowC {h : Head} {b : BodyC} {d : Except DecodeErr α} {f : α → Instr} {x : α} (ho : (fmtsOf h.opc.toNat).contains 7 = true)
    (hf : h.fmt = 7) (hr : decodeC h b = d.map f) (hd : d = .ok x) : decode (packWord h b.pack) = .ok (f x) := by
  rw [decode_packWord h _ ho (by rw [hf]; rfl)]
  simp only [decodeBody, hf, BodyC.ofBits_pack]
  rw [hd] at hr
  exact hr

theorem decode_rowT {h : Head} {b : BodyT} {d : Except DecodeErr α} {f : α → Instr} {x : α} (ho : (fmtsOf h.opc.toNat).contains 8 = true)
    (hf : h.fmt = 8) (hr : decodeT h b = d.map f) (hd : d = .ok x) : decode (packWord h b.pack) = .ok (f x) := by
  rw [decode_packWord h _ ho (by rw [hf]; rfl)]
  simp only [decodeBody, hf, BodyT.ofBits_pack]
  rw [hd] at hr
  exact hr

/-- VSCAN takes no logical reduction (R226). -/
theorem VRedV.fn_le_of_okScan {x : VRedV} (h : x.okScan = true) : x.op.code.toNat ≤ 2 := by
  have hl : x.op.isLogic = false := by simpa using (Bool.and_eq_true_iff.mp h).2
  revert hl
  cases x.op <;> decide

theorem fn_mscat_le (b : Bool) : (0#7 ++ BitVec.ofBool b : BitVec 8).toNat ≤ 1 := by revert b; decide

theorem fn_xstat_toNat (n : BitVec 4) : (0#4 ++ n : BitVec 8).toNat = n.toNat := by revert n; decide

theorem decode_encode (i : Instr) (hwf : i.wf = true) : ∀ w, encode i = some w → decode w = .ok i := by
  rintro w he
  cases i with
  | add x | sub x | mul x | mulh x | mulhu x | div x | divu x | rem x | remu x | min x | max x | minu x | maxu x | and x | or x | xor x | andn x
  | orn x | shl x | shr x | sra x | rol x =>
    cases he
    exact decode_rowA rfl rfl rfl (decAluA_enc _ _ _ _)
  | addImm x | subImm x | mulImm x | mulhImm x | mulhuImm x | divImm x | divuImm x | remImm x | remuImm x | minImm x | maxImm x | minuImm x
  | maxuImm x | andImm x | orImm x | xorImm x | andnImm x | ornImm x | leaImm x =>
    cases he
    exact decode_rowI rfl rfl rfl (decAluI_enc _ _ _ _)
  | shlImm x | shrImm x | sraImm x | rolImm x =>
    cases he
    exact decode_rowI rfl rfl rfl (decShI_enc _ _ _ _)
  | clz x | ctz x | popc x | brev x =>
    cases he
    exact decode_rowA rfl rfl rfl (decUnA_enc _ _ _ _)
  | sext x | zext x =>
    cases he
    exact decode_rowA rfl rfl rfl (decExtA_enc _ _ _ _ hwf)
  | bfx x =>
    cases he
    exact decode_rowA rfl rfl rfl (decBfxA_enc _ _ 0 _ hwf)
  | bfi x =>
    cases he
    exact decode_rowA rfl rfl rfl (decBfiA_enc _ _ 1 _ hwf)
  | cmp x =>
    cases he
    exact decode_rowA rfl rfl rfl (decCmpA_enc _ _ _)
  | cmpImm x =>
    cases he
    exact decode_rowI rfl rfl rfl (decCmpI_enc _ _ _)
  | sel x =>
    cases he
    exact decode_rowA rfl rfl rfl (decSelA_enc _ _ 0 _)
  | mov x | calli x =>
    cases he
    exact decode_rowA rfl rfl rfl (decGDA_enc _ _ 0 _)
  | li x =>
    cases he
    exact decode_rowI rfl rfl rfl (decLiI_enc _ _ 0 _)
  | lea x =>
    cases he
    exact decode_rowA rfl rfl rfl (decLeaA_enc _ _ 0 _)
  | fadd x | fsub x | fmul x =>
    cases he
    exact decode_rowA rfl rfl rfl (decFpR_enc _ _ _ _ hwf)
  | fmin x | fmax x =>
    cases he
    exact decode_rowA rfl rfl rfl (decFpB_enc _ _ _ _ hwf)
  | fabs x | fneg x =>
    cases he
    exact decode_rowA rfl rfl rfl (decFpU_enc FpU.ok _ _ _ _ hwf)
  | ffma x =>
    cases he
    exact decode_rowA rfl rfl rfl (decFpF_enc _ _ 0 _ hwf)
  | fcmp x =>
    cases he
    exact decode_rowA rfl rfl rfl (decFpC_enc _ _ _ hwf)
  | fclass x =>
    cases he
    exact decode_rowA rfl rfl rfl (decFpU_enc FpU.okClass _ _ _ _ hwf)
  | fcvt x =>
    cases he
    exact decode_rowA rfl rfl rfl (decFpV_enc _ _ 0 _ hwf)
  | frnd x =>
    cases he
    exact decode_rowA rfl rfl rfl (decFpN_enc _ _ 0 _ hwf)
  | br x =>
    cases he
    exact decode_rowB rfl rfl rfl (decBrB_enc _ _ _ hwf)
  | jmp x =>
    cases he
    exact decode_rowB rfl rfl rfl (decJmpB_enc _ _ _)
  | jmpi x | ret x | reprun x =>
    cases he
    exact decode_rowA rfl rfl rfl (decGSrcA_enc _ _ 0 _)
  | call x =>
    cases he
    exact decode_rowB rfl rfl rfl (decCallB_enc _ _ _)
  | loop x =>
    cases he
    exact decode_rowB rfl rfl rfl (decLoopB_enc _ _ _)
  | nop x =>
    cases he
    exact decode_rowA rfl rfl rfl (decNop_enc _ _ _)
  | pand x | por x | pxor x =>
    cases he
    exact decode_rowA rfl rfl rfl (decPredA_enc _ _ _ _)
  | pnot x =>
    cases he
    exact decode_rowA rfl rfl rfl (decPnotA_enc _ _ 3 _)
  | pset x =>
    cases he
    exact decode_rowA rfl rfl rfl (decPsetA_enc _ _ 4 _)
  | qput x =>
    cases he
    exact decode_rowA rfl rfl rfl (decQputA_enc _ _ 0 _)
  | qget x | qpeek x | qcnt x =>
    cases he
    exact decode_rowA rfl rfl rfl (decQgetA_enc _ _ 0 _)
  | repb x =>
    cases he
    exact decode_rowA rfl rfl rfl (decRepbA_enc _ _ 0 _)
  | repstat x =>
    cases he
    exact decode_rowA rfl rfl rfl (decGDestA_enc _ _ 1 _)
  | ld x =>
    cases he
    exact decode_rowM rfl rfl rfl (decLdM_enc _ _ _ hwf)
  | st x =>
    cases he
    exact decode_rowM rfl rfl rfl (decStM_enc _ _ _ hwf)
  | ldv x =>
    cases he
    exact decode_rowM rfl rfl rfl (decLdvM_enc _ _ _ hwf)
  | stv x =>
    cases he
    exact decode_rowM rfl rfl rfl (decStvM_enc _ _ _ hwf)
  | pfetch x =>
    cases he
    exact decode_rowM rfl rfl rfl (decPfM_enc _ _ _)
  | cflush x | cinv x =>
    cases he
    exact decode_rowM rfl rfl rfl (decCacheM_enc _ _ _)
  | scnt x =>
    cases he
    exact decode_rowT rfl rfl rfl (decScntT_enc _ _ 0 _ hwf)
  | amoadd x | amoand x | amoor x | amoxor x | amomin x | amomax x | amominu x | amomaxu x | amoswp x =>
    cases he
    exact decode_rowM rfl rfl rfl (decAmoM_enc _ _ _ hwf)
  | amocas x =>
    cases he
    exact decode_rowM rfl rfl rfl (decCasM_enc _ _ _ hwf)
  | amofadd x | amofmin x | amofmax x =>
    cases he
    exact decode_rowM rfl rfl rfl (decAmoF_enc _ _ _ hwf)
  | watch x | unwatch x | watchq x | acqr x =>
    cases he
    exact decode_rowM rfl rfl rfl (decWatchM_enc _ _ _)
  | relr x =>
    cases he
    exact decode_rowM rfl rfl rfl (decRelM_enc _ _ _)
  | ladq x =>
    cases he
    exact decode_rowM rfl rfl rfl (decLadM_enc _ _ _)
  | send x =>
    cases he
    exact decode_rowC rfl rfl rfl (decSendC_enc _ _ 0 _)
  | sendadd x =>
    cases he
    exact decode_rowC rfl rfl rfl (decSendA_enc _ _ 0 _ _ (.inl rfl) hwf)
  | sendmin x | sendmax x =>
    cases he
    exact decode_rowC rfl rfl rfl (decSendA_enc _ _ 0 _ _ (.inr rfl) hwf)
  | chopen x =>
    cases he
    exact decode_rowC rfl rfl rfl (decChopenC_enc _ _ 0 _)
  | chclose x =>
    cases he
    exact decode_rowC rfl rfl rfl (decChcloseC_enc _ _ 0 _)
  | chwm x =>
    cases he
    exact decode_rowC rfl rfl rfl (decChwmC_enc _ _ 0 _)
  | stn x =>
    cases he
    exact decode_rowM rfl rfl rfl (decStnM_enc _ _ _ hwf)
  | lmcfg x =>
    cases he
    exact decode_rowT rfl rfl rfl (decLmcfgT_enc _ _ 0 _)
  | sendm x | spawn x =>
    cases he
    exact decode_rowC rfl rfl rfl (decMsgC_enc _ _ 0 _ hwf)
  | vadd x | vsub x =>
    cases he
    exact decode_rowV rfl rfl rfl (decVAddV_enc _ _ 0 _ hwf)
  | vmul x =>
    cases he
    exact decode_rowV rfl rfl rfl (decVMulV_enc _ _ 0 _ hwf)
  | vfma x | vfms x =>
    cases he
    exact decode_rowV rfl rfl rfl (decVFmaV_enc _ _ 0 _ hwf)
  | vneg x | vabs x =>
    cases he
    exact decode_rowV rfl rfl rfl (decVNegV_enc _ _ 0 _ hwf)
  | vmin x | vmax x =>
    cases he
    exact decode_rowV rfl rfl rfl (decVMinV_enc _ _ 0 _ hwf)
  | vand x | vor x | vxor x =>
    cases he
    exact decode_rowV rfl rfl rfl (decVLogV_enc _ _ 0 _)
  | vshl x | vshr x | vsra x =>
    cases he
    exact decode_rowV rfl rfl rfl (decVShV_enc _ _ 0 _ hwf)
  | vcmp x =>
    cases he
    exact decode_rowV rfl rfl rfl (decVCmpV_enc _ _ _ hwf)
  | vsel x =>
    cases he
    exact decode_rowV rfl rfl rfl (decVSelV_enc _ _ 0 _)
  | vcvt x =>
    cases he
    exact decode_rowV rfl rfl rfl (decVCvtV_enc _ _ 0 _ hwf)
  | vrcp x | vrsq x | vexp2 x | vlog2 x | vsinp x | vtanh x =>
    cases he
    exact decode_rowV rfl rfl rfl (decVFunV_enc _ _ 0 _ hwf)
  | vsqrt x =>
    cases he
    exact decode_rowV rfl rfl rfl (decVSqrtV_enc _ _ 0 _ hwf)
  | vperm x =>
    cases he
    exact decode_rowV rfl rfl rfl (decVPermV_enc _ _ 0 _ hwf)
  | vbcast x =>
    cases he
    exact decode_rowV rfl rfl rfl (decVBcastV_enc _ _ 0 _ hwf)
  | vins x =>
    cases he
    exact decode_rowV rfl rfl rfl (decVInsV_enc _ _ 0 _ hwf)
  | vext x =>
    cases he
    exact decode_rowV rfl rfl rfl (decVExtV_enc _ _ 0 _ hwf)
  | vred x =>
    cases he
    exact decode_rowV rfl rfl (if_pos (by simp)) (decVRedV_enc VRedV.ok _ _ _ hwf)
  | vscan x =>
    cases he
    exact decode_rowV rfl rfl (if_pos (VRedV.fn_le_of_okScan hwf)) (decVRedV_enc VRedV.okScan _ _ _ hwf)
  | vdot x =>
    cases he
    exact decode_rowV rfl rfl rfl (decVDotV_enc _ _ 0 _ hwf)
  | vmov x =>
    cases he
    exact decode_rowV rfl rfl rfl (decVMovV_enc _ _ 0 _)
  | vsplat x =>
    cases he
    exact decode_rowV rfl rfl rfl (decVSplatV_enc _ _ 0 _)
  | mld x =>
    cases he
    exact decode_rowN rfl rfl rfl (decMldN_enc _ _ 0 _)
  | mst x =>
    cases he
    exact decode_rowN rfl rfl rfl (decMstN_enc _ _ 0 _)
  | mset x =>
    cases he
    exact decode_rowN rfl rfl (if_pos (by simp)) (decMsetN_enc _ _ _ hwf)
  | mew x =>
    cases he
    exact decode_rowN rfl rfl (if_pos (by simp)) (decMewN_enc _ _ _ hwf)
  | mfma x =>
    cases he
    exact decode_rowN rfl rfl rfl (decMfmaN_enc _ _ 0 _ hwf)
  | mred x =>
    cases he
    exact decode_rowN rfl rfl (if_pos (by simp)) (decMredN_enc _ _ _ hwf)
  | mcvt x =>
    cases he
    exact decode_rowN rfl rfl rfl (decMcvtN_enc _ _ 0 _)
  | mgath x =>
    cases he
    exact decode_rowN rfl rfl rfl (decMgathN_enc _ _ 0 _ hwf)
  | mscat x =>
    cases he
    exact decode_rowN rfl rfl (if_pos (fn_mscat_le x.add)) (decMscatN_enc _ _ _ hwf)
  | mcopy x =>
    cases he
    exact decode_rowN rfl rfl rfl (decMcopyN_enc _ _ 0 _)
  | fmtset x =>
    cases he
    exact decode_rowA rfl rfl rfl (decFmtsetA_enc _ _ 0 _)
  | fmtget x =>
    cases he
    exact decode_rowA rfl rfl rfl (decFmtgetA_enc _ _ 0 _)
  | lutld x =>
    cases he
    exact decode_rowN rfl rfl rfl (decLutN_enc _ _ 0 _)
  | xres x =>
    cases he
    exact decode_rowX rfl rfl rfl (decXresX_enc _ _ 0 _ hwf)
  | xload x | xpin x | xunpin x | xrevk x =>
    cases he
    exact decode_rowX rfl rfl rfl (decXhX_enc _ _ 0 _)
  | xqry x =>
    cases he
    exact decode_rowX rfl rfl rfl (decXqryX_enc _ _ 0 _)
  | xmm x | xacc x =>
    cases he
    exact decode_rowX rfl rfl rfl (decXmmX_enc _ _ 0 _)
  | xzero x =>
    cases he
    exact decode_rowX rfl rfl rfl (decGSrcX_enc _ _ 0 _)
  | xstat x =>
    cases he
    exact decode_rowX rfl rfl (if_pos (by rw [fn_xstat_toNat]; exact of_decide_eq_true hwf)) (decXstatX_enc _ _ _ hwf)
  | acfg x =>
    cases he
    exact decode_rowX rfl rfl rfl (decAcfgX_enc _ _ 0 _)
  | aget x =>
    cases he
    exact decode_rowX rfl rfl rfl (decAgetX_enc _ _ 0 _)
  | afree x | azero x =>
    cases he
    exact decode_rowX rfl rfl rfl (decAviewX_enc _ _ 0 _)
  | arowi x | acoli x =>
    cases he
    exact decode_rowX rfl rfl rfl (decAinX_enc _ _ 0 _)
  | arowo x | acolo x =>
    cases he
    exact decode_rowX rfl rfl rfl (decAoutX_enc _ _ 1 _)
  | spawnt x =>
    cases he
    exact decode_rowC rfl rfl rfl (decMsgtC_enc _ _ 0 _ hwf)
  | end_ x | yield x =>
    cases he
    exact decode_rowT rfl rfl rfl (decGOnlyT_enc _ _ 0 _)
  | sleep x =>
    cases he
    exact decode_rowT rfl rfl rfl (decSleepT_enc _ _ 0 _ hwf)
  | thnew x =>
    cases he
    exact decode_rowT rfl rfl rfl (decThnewT_enc _ _ 0 _)
  | thstop x | thstat x | thkill x =>
    cases he
    exact decode_rowT rfl rfl rfl (decGDT_enc _ _ 0 _)
  | thstart x =>
    cases he
    exact decode_rowT rfl rfl rfl (decGDT_enc _ _ 1 _)
  | thrd x =>
    cases he
    exact decode_rowT rfl rfl rfl (decThrdT_enc _ _ 0 _)
  | thwr x =>
    cases he
    exact decode_rowT rfl rfl rfl (decThwrT_enc _ _ 0 _)
  | trap x =>
    cases he
    exact decode_rowT rfl rfl rfl (decTrapT_enc _ _ 0 _)
  | mfs x =>
    cases he
    exact decode_rowT rfl rfl rfl (decMfsT_enc _ _ 0 _)
  | mts x =>
    cases he
    exact decode_rowT rfl rfl rfl (decMtsT_enc _ _ 0 _)
  | gtime x =>
    cases he
    exact decode_rowT rfl rfl rfl (decGDestT_enc _ _ 0 _)
  | rgnq x =>
    cases he
    exact decode_rowT rfl rfl rfl (decRgnqT_enc _ _ 0 _)
  | repe x => cases he; rfl
  | _ => cases he

/-! ### What decodes is well formed -/

/-- The operands that a shape's decoder answers pass the check p. -/
def Yields (p : α → Bool) (o : Option α) : Prop := ∀ x, o = some x → p x = true

def Passes (p : α → Bool) (d : Except DecodeErr α) : Prop := ∀ x, d = .ok x → p x = true

/-- What a row of the opcode map answers is well formed and has a word. -/
def Good (d : Except DecodeErr Instr) : Prop := ∀ i, d = .ok i → i.wf = true ∧ (encode i).isSome = true

theorem yields_chk (p : α → Bool) (x : α) : Yields p (chk p x) := by
  intro y hy
  rw [chk] at hy
  split at hy
  case isTrue h => cases hy; exact h
  case isFalse => cases hy

theorem yields_bind {p : β → Bool} {o : Option α} {f : α → Option β} (h : ∀ a, Yields p (f a)) : Yields p (o.bind f) := by
  cases o with
  | none => intro y hy; cases hy
  | some a => exact h a

theorem passes_build {p : α → Bool} {z : Bool} {o : Option α} (h : Yields p o) : Passes p (build z o) := fun x hx =>
  h x (build_eq_ok.mp hx).2

theorem passes_true (d : Except DecodeErr α) : Passes (fun _ => true) d := fun _ _ => rfl

theorem good_error (e : DecodeErr) : Good (.error e) := fun _ h => nomatch h

theorem good_map {f : α → Instr} {d : Except DecodeErr α} (he : ∀ x, (encode (f x)).isSome = true) (hw : Passes (fun x => (f x).wf) d) :
    Good (d.map f) := by
  rintro i hi
  cases d with
  | error => cases hi
  | ok x => cases hi; exact ⟨hw x rfl, he x⟩

theorem decExtA_passes (h : Head) (b : BodyA) : Passes ExtA.ok (decExtA h b) :=
  passes_build <| yields_bind fun _ => yields_chk _ _
theorem decBfxA_passes (h : Head) (b : BodyA) : Passes BfxA.ok (decBfxA h b) :=
  passes_build <| yields_bind fun _ => yields_chk _ _
theorem decBfiA_passes (h : Head) (b : BodyA) : Passes BfiA.ok (decBfiA h b) :=
  passes_build <| yields_bind fun _ => yields_chk _ _
theorem decFpR_passes (h : Head) (b : BodyA) : Passes FpR.ok (decFpR h b) :=
  passes_build <| yields_bind fun _ => yields_bind fun _ => yields_chk _ _
theorem decFpB_passes (h : Head) (b : BodyA) : Passes FpB.ok (decFpB h b) :=
  passes_build <| yields_bind fun _ => yields_bind fun _ => yields_chk _ _
theorem decFpU_passes (p : FpU → Bool) (h : Head) (b : BodyA) : Passes p (decFpU p h b) :=
  passes_build <| yields_bind fun _ => yields_bind fun _ => yields_chk _ _
theorem decFpF_passes (h : Head) (b : BodyA) : Passes FpF.ok (decFpF h b) :=
  passes_build <| yields_bind fun _ => yields_bind fun _ => yields_chk _ _
theorem decFpC_passes (h : Head) (b : BodyA) : Passes FpC.ok (decFpC h b) :=
  passes_build <| yields_bind fun _ => yields_bind fun _ => yields_bind fun _ => yields_chk _ _
theorem decFpV_passes (h : Head) (b : BodyA) : Passes FpV.ok (decFpV h b) :=
  passes_build <| yields_bind fun _ => yields_bind fun _ => yields_bind fun _ => yields_chk _ _
theorem decFpN_passes (h : Head) (b : BodyA) : Passes FpN.ok (decFpN h b) :=
  passes_build <| yields_bind fun _ => yields_bind fun _ => yields_chk _ _
theorem decBrB_passes (h : Head) (b : BodyI) : Passes BrB.ok (decBrB h b) :=
  passes_build <| yields_bind fun _ => yields_chk _ _
theorem decLdM_passes (h : Head) (b : BodyM) : Passes LdM.ok (decLdM h b) :=
  passes_build <| yields_bind fun _ => yields_bind fun _ => yields_chk _ _
theorem decStM_passes (h : Head) (b : BodyM) : Passes StM.ok (decStM h b) :=
  passes_build <| yields_bind fun _ => yields_bind fun _ => yields_chk _ _
theorem decLdvM_passes (h : Head) (b : BodyM) : Passes LdvM.ok (decLdvM h b) :=
  passes_build <| yields_bind fun _ => yields_bind fun _ => yields_bind fun _ => yields_chk _ _
theorem decStvM_passes (h : Head) (b : BodyM) : Passes StvM.ok (decStvM h b) :=
  passes_build <| yields_bind fun _ => yields_bind fun _ => yields_bind fun _ => yields_chk _ _
theorem decScntT_passes (h : Head) (b : BodyT) : Passes ScntT.ok (decScntT h b) :=
  passes_build <| yields_chk _ _
theorem decAmoM_passes (h : Head) (b : BodyM) : Passes AmoM.ok (decAmoM h b) :=
  passes_build <| yields_bind fun _ => yields_bind fun _ => yields_chk _ _
theorem decCasM_passes (h : Head) (b : BodyM) : Passes CasM.ok (decCasM h b) :=
  passes_build <| yields_bind fun _ => yields_bind fun _ => yields_chk _ _
theorem decAmoF_passes (h : Head) (b : BodyM) : Passes AmoF.ok (decAmoF h b) :=
  passes_build <| yields_bind fun _ => yields_bind fun _ => yields_bind fun _ => yields_chk _ _
theorem decStnM_passes (h : Head) (b : BodyM) : Passes StnM.ok (decStnM h b) :=
  passes_build <| yields_bind fun _ => yields_bind fun _ => yields_bind fun _ => yields_chk _ _
theorem decSendA_passes (bit : Nat) (h : Head) (b : BodyC) : Passes SendA.ok (decSendA bit h b) :=
  passes_build <| yields_bind fun _ => yields_bind fun _ => yields_bind fun _ => yields_chk _ _
theorem decMsgC_passes (h : Head) (b : BodyC) : Passes MsgC.ok (decMsgC h b) :=
  passes_build <| yields_bind fun _ => yields_chk _ _
theorem decMsgtC_passes (h : Head) (b : BodyC) : Passes MsgtC.ok (decMsgtC h b) :=
  passes_build <| yields_bind fun _ => yields_chk _ _
theorem decVAddV_passes (h : Head) (b : BodyA) : Passes VAddV.ok (decVAddV h b) :=
  passes_build <| yields_bind fun _ => yields_bind fun _ => yields_chk _ _
theorem decVMulV_passes (h : Head) (b : BodyA) : Passes VMulV.ok (decVMulV h b) :=
  passes_build <| yields_bind fun _ => yields_bind fun _ => yields_chk _ _
theorem decVFmaV_passes (h : Head) (b : BodyA) : Passes VFmaV.ok (decVFmaV h b) :=
  passes_build <| yields_bind fun _ => yields_bind fun _ => yields_chk _ _
theorem decVNegV_passes (h : Head) (b : BodyA) : Passes VNegV.ok (decVNegV h b) :=
  passes_build <| yields_bind fun _ => yields_bind fun _ => yields_chk _ _
theorem decVMinV_passes (h : Head) (b : BodyA) : Passes VMinV.ok (decVMinV h b) :=
  passes_build <| yields_bind fun _ => yields_bind fun _ => yields_chk _ _
theorem decVShV_passes (h : Head) (b : BodyA) : Passes VShV.ok (decVShV h b) :=
  passes_build <| yields_bind fun _ => yields_bind fun _ => yields_chk _ _
theorem decVCmpV_passes (h : Head) (b : BodyA) : Passes VCmpV.ok (decVCmpV h b) :=
  passes_build <| yields_bind fun _ => yields_bind fun _ => yields_bind fun _ => yields_chk _ _
theorem decVCvtV_passes (h : Head) (b : BodyA) : Passes VCvtV.ok (decVCvtV h b) :=
  passes_build <| yields_bind fun _ => yields_bind fun _ => yields_bind fun _ => yields_chk _ _
theorem decVFunV_passes (h : Head) (b : BodyA) : Passes VFunV.ok (decVFunV h b) :=
  passes_build <| yields_bind fun _ => yields_bind fun _ => yields_chk _ _
theorem decVSqrtV_passes (h : Head) (b : BodyA) : Passes VSqrtV.ok (decVSqrtV h b) :=
  passes_build <| yields_bind fun _ => yields_bind fun _ => yields_chk _ _
theorem decVPermV_passes (h : Head) (b : BodyA) : Passes VPermV.ok (decVPermV h b) :=
  passes_build <| yields_bind fun _ => yields_bind fun _ => yields_chk _ _
theorem decVBcastV_passes (h : Head) (b : BodyA) : Passes VBcastV.ok (decVBcastV h b) :=
  passes_build <| yields_bind fun _ => yields_bind fun _ => yields_chk _ _
theorem decVInsV_passes (h : Head) (b : BodyA) : Passes VInsV.ok (decVInsV h b) :=
  passes_build <| yields_bind fun _ => yields_bind fun _ => yields_chk _ _
theorem decVExtV_passes (h : Head) (b : BodyA) : Passes VExtV.ok (decVExtV h b) :=
  passes_build <| yields_bind fun _ => yields_bind fun _ => yields_chk _ _
theorem decVRedV_passes (p : VRedV → Bool) (h : Head) (b : BodyA) : Passes p (decVRedV p h b) :=
  passes_build <| yields_bind fun _ => yields_bind fun _ => yields_bind fun _ => yields_chk _ _
theorem decVDotV_passes (h : Head) (b : BodyA) : Passes VDotV.ok (decVDotV h b) :=
  passes_build <| yields_bind fun _ => yields_bind fun _ => yields_bind fun _ => yields_chk _ _
theorem decMsetN_passes (h : Head) (b : BodyN) : Passes MsetN.ok (decMsetN h b) :=
  passes_build <| yields_bind fun _ => yields_bind fun _ => yields_chk _ _
theorem decMewN_passes (h : Head) (b : BodyN) : Passes MewN.ok (decMewN h b) :=
  passes_build <| yields_bind fun _ => yields_bind fun _ => yields_bind fun _ => yields_bind fun _ => yields_chk _ _
theorem decMfmaN_passes (h : Head) (b : BodyN) : Passes MfmaN.ok (decMfmaN h b) :=
  passes_build <| yields_bind fun _ => yields_bind fun _ => yields_bind fun _ => yields_chk _ _
theorem decMredN_passes (h : Head) (b : BodyN) : Passes MredN.ok (decMredN h b) :=
  passes_build <| yields_bind fun _ => yields_bind fun _ => yields_bind fun _ => yields_bind fun _ => yields_chk _ _
theorem decMgathN_passes (h : Head) (b : BodyN) : Passes MgathN.ok (decMgathN h b) :=
  passes_build <| yields_bind fun _ => yields_bind fun _ => yields_bind fun _ => yields_chk _ _
theorem decMscatN_passes (h : Head) (b : BodyN) : Passes MscatN.ok (decMscatN h b) :=
  passes_build <| yields_bind fun _ => yields_bind fun _ => yields_bind fun _ => yields_chk _ _
theorem decXresX_passes (h : Head) (b : BodyN) : Passes XresX.ok (decXresX h b) :=
  passes_build <| yields_bind fun _ => yields_bind fun _ => yields_bind fun _ => yields_chk _ _
theorem decXstatX_passes (h : Head) (b : BodyN) : Passes XstatX.ok (decXstatX h b) :=
  passes_build <| yields_bind fun _ => yields_chk _ _
theorem decSleepT_passes (h : Head) (b : BodyT) : Passes SleepT.ok (decSleepT h b) :=
  passes_build <| yields_chk _ _

theorem decodeA_good (h : Head) (b : BodyA) : Good (decodeA h b) := by
  simp only [decodeA, fn0]
  repeat' split
  all_goals first | exact good_error _ | refine good_map (fun _ => rfl) ?_
  all_goals first
    | exact passes_true _ | exact decExtA_passes _ _ | exact decBfxA_passes _ _ | exact decBfiA_passes _ _ | exact decFpR_passes _ _
    | exact decFpB_passes _ _ | exact decFpU_passes _ _ _ | exact decFpF_passes _ _ | exact decFpC_passes _ _ | exact decFpV_passes _ _
    | exact decFpN_passes _ _

theorem decodeI_good (h : Head) (b : BodyI) : Good (decodeI h b) := by
  simp only [decodeI, fn0]
  repeat' split
  all_goals first | exact good_error _ | refine good_map (fun _ => rfl) ?_
  all_goals exact passes_true _

theorem decodeM_good (h : Head) (b : BodyM) : Good (decodeM h b) := by
  simp only [decodeM]
  repeat' split
  all_goals first | exact good_error _ | refine good_map (fun _ => rfl) ?_
  all_goals first
    | exact passes_true _ | exact decLdM_passes _ _ | exact decStM_passes _ _ | exact decLdvM_passes _ _ | exact decStvM_passes _ _
    | exact decAmoM_passes _ _ | exact decCasM_passes _ _ | exact decAmoF_passes _ _ | exact decStnM_passes _ _

theorem decodeB_good (h : Head) (b : BodyI) : Good (decodeB h b) := by
  simp only [decodeB]
  repeat' split
  all_goals first | exact good_error _ | refine good_map (fun _ => rfl) ?_
  all_goals first
    | exact passes_true _ | exact decBrB_passes _ _

theorem decodeV_good (h : Head) (b : BodyA) : Good (decodeV h b) := by
  simp only [decodeV, fn0]
  repeat' split
  all_goals first | exact good_error _ | refine good_map (fun _ => rfl) ?_
  all_goals first
    | exact passes_true _ | exact decVAddV_passes _ _ | exact decVMulV_passes _ _ | exact decVFmaV_passes _ _ | exact decVNegV_passes _ _
    | exact decVMinV_passes _ _ | exact decVShV_passes _ _ | exact decVCmpV_passes _ _ | exact decVCvtV_passes _ _ | exact decVFunV_passes _ _
    | exact decVSqrtV_passes _ _ | exact decVPermV_passes _ _ | exact decVBcastV_passes _ _ | exact decVInsV_passes _ _
    | exact decVExtV_passes _ _ | exact decVRedV_passes _ _ _ | exact decVDotV_passes _ _

theorem decodeN_good (h : Head) (b : BodyN) : Good (decodeN h b) := by
  simp only [decodeN, fn0]
  repeat' split
  all_goals first | exact good_error _ | refine good_map (fun _ => rfl) ?_
  all_goals first
    | exact passes_true _ | exact decMsetN_passes _ _ | exact decMewN_passes _ _ | exact decMfmaN_passes _ _ | exact decMredN_passes _ _
    | exact decMgathN_passes _ _ | exact decMscatN_passes _ _

theorem decodeX_good (h : Head) (b : BodyN) : Good (decodeX h b) := by
  simp only [decodeX, fn0]
  repeat' split
  all_goals first | exact good_error _ | refine good_map (fun _ => rfl) ?_
  all_goals first
    | exact passes_true _ | exact decXresX_passes _ _ | exact decXstatX_passes _ _

theorem decodeC_good (h : Head) (b : BodyC) : Good (decodeC h b) := by
  simp only [decodeC, fn0, fnReserved]
  repeat' split
  all_goals first | exact good_error _ | refine good_map (fun _ => rfl) ?_
  all_goals first
    | exact passes_true _ | exact decSendA_passes _ _ _ | exact decMsgC_passes _ _ | exact decMsgtC_passes _ _

theorem decodeT_good (h : Head) (b : BodyT) : Good (decodeT h b) := by
  simp only [decodeT, fn0, fnReserved]
  repeat' split
  all_goals first | exact good_error _ | refine good_map (fun _ => rfl) ?_
  all_goals first
    | exact passes_true _ | exact decScntT_passes _ _ | exact decSleepT_passes _ _

theorem decode_good (w : Slot) : Good (decode w) := by
  simp only [decode]
  split
  · exact good_error _
  split
  · exact good_error _
  split
  · exact decodeA_good _ _
  · exact decodeI_good _ _
  · exact decodeM_good _ _
  · exact decodeB_good _ _
  · exact decodeV_good _ _
  · exact decodeN_good _ _
  · exact decodeX_good _ _
  · exact decodeC_good _ _
  · exact decodeT_good _ _
  · exact good_error _

/-- Settles O50: encoding and decoding row by row of the opcode map. -/
theorem decodeOfEncode : Obligations.DecodeOfEncode := by
  unfold Obligations.DecodeOfEncode
  exact ⟨fun i w hwf => decode_encode i hwf w, decode_good⟩

end Sys2Proof

end

/-! ## Proofs: registers (R26)

A register file is a vector indexed by the register's number, so what a register reads after a write is what the vector holds after `set`. -/

section

namespace Sys2Proof.Machine

open Sys2Proof.Claims

theorem getElem_set_toNat {n : Nat} {xs : Vector α (2 ^ n)} (r r' : BitVec n) (x : α) :
    (xs.set r.toNat x)[r'.toNat] = if r' = r then x else xs[r'.toNat] := by
  rw [Vector.getElem_set]
  simp only [BitVec.toNat_inj, eq_comm]

theorem Thread.rg_wg (t : Thread) (r r' : GReg) (v : Word) :
    (t.wg r v).rg r' = if r' = 0 then 0 else if r' = r then v else t.rg r' := by
  by_cases h' : r' = 0
  · simp [Thread.rg, h']
  by_cases h : r = 0
  · rw [h, Thread.wg_zero, if_neg h', if_neg h']
  · simp only [Thread.rg, Thread.wg, if_neg h, if_neg h']
    exact getElem_set_toNat (n := 6) r r' v

theorem Thread.rg_wg_self (t : Thread) {r : GReg} (h : r ≠ 0) (v : Word) : (t.wg r v).rg r = v := by
  rw [Thread.rg_wg, if_neg h, if_pos rfl]

theorem Thread.rg_wg_ne (t : Thread) {r r' : GReg} (h : r' ≠ r) (v : Word) : (t.wg r v).rg r' = t.rg r' := by
  rw [Thread.rg_wg, if_neg h]
  split
  case isTrue h0 => rw [h0, Thread.rg_zero]
  case isFalse => rfl

/-- One bit of the byte of the p registers replaced. -/
theorem getLsbD_setBit (p : BitVec 8) (r r' : Reg3) (b : Bool) :
    ((p &&& ~~~(1#8 <<< r.toNat)) ||| (BitVec.ofBool b).setWidth 8 <<< r.toNat).getLsbD r'.toNat = if r' = r then b else p.getLsbD r'.toNat := by
  have h8 : r'.toNat < 8 := r'.isLt
  by_cases he : r' = r
  · subst he
    simp [h8]
  · have hne : r'.toNat ≠ r.toNat := fun e => he (BitVec.eq_of_toNat_eq e)
    by_cases hlt : r'.toNat < r.toNat
    · simp [h8, hlt, he]
    · have hsub : r'.toNat - r.toNat ≠ 0 := by omega
      simp [h8, hlt, he, hsub]

theorem Thread.rp_wp (t : Thread) (r r' : Reg3) (b : Bool) :
    (t.wp r b).rp r' = if r' = 0 then true else if r' = r then b else t.rp r' := by
  by_cases h' : r' = 0
  · simp [Thread.rp, h']
  by_cases h : r = 0
  · rw [h, Thread.wp_zero, if_neg h', if_neg h']
  · simp only [Thread.rp, Thread.wp, if_neg h, getLsbD_setBit, decide_eq_false h', Bool.false_or, if_neg h']

theorem Thread.rp_wp_ne (t : Thread) {r r' : Reg3} (h : r' ≠ r) (b : Bool) : (t.wp r b).rp r' = t.rp r' := by
  rw [Thread.rp_wp, if_neg h]
  split
  case isTrue h0 => rw [h0, Thread.rp_zero]
  case isFalse => rfl

theorem Thread.rv_wv (t : Thread) (r r' : VReg) (v : V512) : (t.wv r v).rv r' = if r' = r then v else t.rv r' :=
  getElem_set_toNat (n := 5) r r' v

theorem Thread.rq_wq (t : Thread) (r r' : Reg3) (l : List Word) : (t.wq r l).rq r' = if r' = r then l else t.rq r' :=
  getElem_set_toNat (n := 3) r r' l

theorem Thread.rm_wm (t : Thread) (r r' : Reg3) (v : V512) : (t.wm r v).rm r' = if r' = r then v else t.rm r' :=
  getElem_set_toNat (n := 3) r r' v

theorem Thread.rf_wf (t : Thread) (r r' : FReg) (v : BitVec 32) : (t.wf r v).rf r' = if r' = r then v else t.rf r' :=
  getElem_set_toNat (n := 4) r r' v

theorem Thread.wg_frame (t : Thread) (r : GReg) (v : Word) : ∃ g, t.wg r v = { t with g := g } := by
  unfold Thread.wg
  split
  · exact ⟨t.g, rfl⟩
  · exact ⟨_, rfl⟩

theorem Thread.wp_frame (t : Thread) (r : Reg3) (b : Bool) : ∃ p, t.wp r b = { t with p := p } := by
  unfold Thread.wp
  split
  · exact ⟨t.p, rfl⟩
  · exact ⟨_, rfl⟩

/-- Settles O46: each file reads as a vector after `set`, g0 and p0 apart. -/
theorem hardWiredRegisters : Obligations.HardWiredRegisters := by
  unfold Obligations.HardWiredRegisters
  exact fun t => ⟨t.rg_zero, t.rp_zero, t.wg_zero, t.wp_zero, t.rg_wg, t.rp_wp, t.rv_wv, t.rq_wq, t.rm_wm, t.rf_wf, t.wg_frame, t.wp_frame,
    fun _ _ => ⟨_, rfl⟩⟩

end Sys2Proof.Machine

end

/-! ## Proofs: words, reset and sequential flow (R17, R21, R27, R150, R154, R281) -/

section

namespace Sys2Proof.Machine

open Sys2Proof.Claims

/-- Settles O49: each word is a closed term, which the decoder reduces. -/
theorem decodeWords : Obligations.DecodeWords := by
  unfold Obligations.DecodeWords
  exact ⟨rfl, rfl, rfl, rfl, rfl, rfl, rfl, rfl, rfl, rfl, rfl, rfl, rfl, rfl⟩

/-! ### Reset -/

@[simp] theorem State.core_reset (c : Nat) : State.reset.core c = Core.reset := rfl

/-- Before its first thread the last GEN of a slot counts as 63, which 0 follows (R281). -/
theorem Core.nextGen_reset (n : Nat) : Core.reset.nextGen n = some 0 := by
  have hlast : Core.reset.lastOf n = 63 := rfl
  have hspilled : Core.reset.spilledOf n = 0 := rfl
  rw [Core.nextGen, hlast, hspilled]
  decide

theorem Core.spsz_reset : Core.reset.spsz = 0x28000 := by simp [Core.spsz, Core.reset]

/-- Settles O51: reset is a literal state. -/
theorem resetState : Obligations.ResetState := by
  unfold Obligations.ResetState
  refine ⟨fun c => ⟨rfl, Core.spsz_reset, fun i => ?_⟩, fun _ _ => rfl, fun _ n => Core.nextGen_reset n, fun _ => rfl, rfl, rfl⟩
  exact Vector.getElem_replicate ..

/-- Settles O52: at reset no byte is listed. -/
theorem canonicalAtReset : Obligations.CanonicalAtReset := by
  unfold Obligations.CanonicalAtReset
  exact ⟨State.reset_mem_wf, State.reset_sp_wf⟩

/-! ### Lines and slots -/

theorem pcLine_toNat (pc : Word) : (pcLine pc).toNat = pc.toNat / 64 * 64 := by
  have h : pcLine pc = pc >>> 6 <<< 6 := by
    refine BitVec.eq_of_getLsbD_eq fun i hi => ?_
    have h63 : ∀ i < 64, (63#64).getLsbD i = decide (i < 6) := by decide
    simp only [pcLine, BitVec.getLsbD_and, BitVec.getLsbD_not, h63 i hi, BitVec.getLsbD_shiftLeft, BitVec.getLsbD_ushiftRight]
    by_cases h6 : i < 6
    · simp [h6]
    · simp [h6, hi, show 6 + (i - 6) = i by omega]
  rw [h, BitVec.toNat_shiftLeft, BitVec.toNat_ushiftRight, Nat.shiftLeft_eq, Nat.shiftRight_eq_div_pow]
  have := pc.isLt
  omega

section

variable {line : Word} (hl : line.toNat % 64 = 0)
include hl

/-- A slot lies within its line: the address does not wrap. -/
theorem slotPc_toNat {k : Nat} (hk : k < 5) : (line + BitVec.ofNat 64 (12 * k)).toNat = line.toNat + 12 * k := by
  have := line.isLt
  rw [BitVec.toNat_add, BitVec.toNat_ofNat]
  omega

theorem nextPc_slot {k : Nat} (hk : k < 4) : nextPc (line + BitVec.ofNat 64 (12 * k)) = line + BitVec.ofNat 64 (12 * (k + 1)) := by
  have hpc := slotPc_toNat hl (show k < 5 by omega)
  rw [nextPc, hpc, if_neg (by omega), BitVec.add_assoc]
  congr 1
  exact (BitVec.ofNat_add (12 * k) 12).symm

theorem nextPc_last : nextPc (line + 48) = line + 64 := by
  have hpc := slotPc_toNat hl (show 4 < 5 by omega)
  have h48 : (line + 48).toNat = line.toNat + 12 * 4 := hpc
  rw [nextPc, h48, if_pos (by omega), BitVec.add_assoc]
  rfl

theorem pcLine_slot {k : Nat} (hk : k < 5) : pcLine (line + BitVec.ofNat 64 (12 * k)) = line := by
  refine BitVec.eq_of_toNat_eq ?_
  rw [pcLine_toNat, slotPc_toNat hl hk]
  omega

theorem pcSlot_slot {k : Nat} (hk : k < 5) : pcSlot (line + BitVec.ofNat 64 (12 * k)) = k := by
  rw [pcSlot, slotPc_toNat hl hk]
  omega

end

/-- Settles O56: the arithmetic of a line of five slots of twelve bytes. -/
theorem sequentialFlow : Obligations.SequentialFlow := by
  unfold Obligations.SequentialFlow
  refine ⟨fun _ _ hl hk => nextPc_slot hl hk, fun _ hl => nextPc_last hl, fun _ _ hl hk => ⟨pcLine_slot hl hk, pcSlot_slot hl hk⟩, ?_⟩
  intro l k j _ hj
  rw [lineSlot, BitVec.getLsbD_extractLsb', decide_eq_true hj, Bool.true_and]

end Sys2Proof.Machine

end

/-! ## Proofs: the agenda and the halted machine (R420, R421, assumption 6) -/

section

namespace Sys2Proof.Machine

open Sys2Proof.Claims

/-- With an event pending a machine that runs answers it. -/
theorem step_of_agenda {s : State} {e : Event} {es : List Event} (ha : s.agenda = e :: es) (hh : s.ras.halted = false) :
    step s = Out.after (({ s with agenda := es } : State).answer1 e) State.tock := by
  simp only [step, State.stepOnce, ha, hh]
  rfl

/-- A machine that has halted drops an event that does not wake it. -/
theorem step_of_halted_agenda {s : State} {e : Event} {es : List Event} (ha : s.agenda = e :: es) (hh : s.ras.halted = true)
    (hw : Event.wakesHalted e = false) : step s = .next ({ s with agenda := es } : State).tock := by
  simp only [step, State.stepOnce, ha, hh, hw]
  rfl

/-- With nothing pending in it only time passes. -/
theorem step_of_halted {s : State} (ha : s.agenda = []) (hh : s.ras.halted = true) :
    step s = .next { s with agenda := s.agenda.tail, gt := s.gt + Config.elapsedNs s.fresh, fresh := s.fresh + 1 } := by
  have htail : ({ s with agenda := s.agenda.tail } : State) = s := by rw [ha, List.tail_nil, ← ha]
  have hstep : step s = .next { s with gt := s.gt + Config.elapsedNs s.fresh, fresh := s.fresh + 1 } := by
    simp only [step, State.stepOnce, ha, hh]
    rfl
  rw [hstep]
  conv_lhs => rw [← htail]

theorem haltedMachine : HaltedMachine := by
  intro s hh hw
  by_cases ha : s.agenda = []
  · exact ⟨_, step_of_halted ha hh, rfl, Nat.le_add_right ..⟩
  · obtain ⟨e, es, ha⟩ := List.exists_cons_of_ne_nil ha
    exact ⟨_, step_of_halted_agenda ha hh (hw e (by simp [ha])), by rw [ha]; rfl, le_refl _⟩

/-- Settles O55: the two branches of a step with an event pending, and the one of a halted machine without. -/
theorem eventsAndHalt : Obligations.EventsAndHalt := by
  unfold Obligations.EventsAndHalt
  exact ⟨haltedMachine, fun _ _ _ => step_of_agenda⟩

end Sys2Proof.Machine

end

/-! ## Proofs: integer arithmetic (R194 to R196)

Each operation on words of any width is the integer operation on their signed and unsigned values, cut to the width; the low bits of a register
are a word of the width, and the cut is what R194 sign-extends. -/

section

namespace Sys2Proof.Machine

open Sys2Proof.Claims

/-- The operation on words that the meaning of each two-source operation applies. -/
def aluWords : Alu → (n : Nat) → BitVec n → BitVec n → BitVec n
  | .add => iAdd
  | .sub => iSub
  | .mul => iMul
  | .mulh => iMulh
  | .mulhu => iMulhu
  | .div => iDiv
  | .divu => iDivu
  | .rem => iRem
  | .remu => iRemu
  | .min => iMin
  | .max => iMax
  | .minu => iMinu
  | .maxu => iMaxu

/-! ### The operations on words -/

theorem ofInt_toNat {n : Nat} (a : BitVec n) : BitVec.ofInt n a.toNat = a := by
  rw [BitVec.ofInt_natCast, BitVec.ofNat_toNat, BitVec.setWidth_eq]

theorem setWidth_eq_ofInt {n m : Nat} (a : BitVec n) : a.setWidth m = BitVec.ofInt m a.toNat := by
  rw [BitVec.ofInt_natCast, BitVec.ofNat_toNat]

/-- The upper half of a number of twice the width. -/
theorem extractLsb'_ofInt_two_mul (n : Nat) (z : Int) : (BitVec.ofInt (2 * n) z).extractLsb' n n = BitVec.ofInt n (z / 2 ^ n) := by
  have hpos : (0 : Int) < 2 ^ n := by positivity
  have hdiv : z % (2 ^ n * 2 ^ n) / 2 ^ n = z / 2 ^ n % 2 ^ n := by
    rw [Int.emod_def, Int.emod_def, mul_assoc, Int.sub_mul_ediv_left _ _ hpos.ne', Int.ediv_ediv_of_nonneg hpos.le]
  apply BitVec.eq_of_toNat_eq
  have hcast : (((BitVec.ofInt (2 * n) z).extractLsb' n n).toNat : Int) = (BitVec.ofInt n (z / 2 ^ n)).toNat := by
    have hnn : 0 ≤ z % (2 ^ n * 2 ^ n) := Int.emod_nonneg _ (by positivity)
    have hnn' : 0 ≤ z / 2 ^ n % 2 ^ n := Int.emod_nonneg _ hpos.ne'
    simp [BitVec.extractLsb'_toNat, BitVec.toNat_ofInt, Nat.shiftRight_eq_div_pow, two_mul, pow_add, hnn, hnn', hdiv]
  exact_mod_cast hcast

theorem iMulh_eq_ofInt {n : Nat} (a b : BitVec n) : iMulh n a b = BitVec.ofInt n (a.toInt * b.toInt / 2 ^ n) := by
  rw [iMulh, ← extractLsb'_ofInt_two_mul, BitVec.ofInt_mul]
  rfl

theorem iMulhu_eq_ofInt {n : Nat} (a b : BitVec n) : iMulhu n a b = BitVec.ofInt n (a.toNat * b.toNat / 2 ^ n) := by
  rw [iMulhu, ← extractLsb'_ofInt_two_mul, BitVec.ofInt_mul, setWidth_eq_ofInt, setWidth_eq_ofInt]

theorem toInt_eq_zero_iff {n : Nat} (b : BitVec n) : b.toInt = 0 ↔ b = 0 := by
  rw [← BitVec.toInt_inj]
  simp

theorem toNat_eq_zero_iff {n : Nat} (b : BitVec n) : (b.toNat : Int) = 0 ↔ b = 0 := by
  rw [Int.natCast_eq_zero, ← BitVec.toNat_inj]
  simp

theorem allOnes_eq_ofInt (n : Nat) : BitVec.allOnes n = BitVec.ofInt n (-1) := by
  rw [BitVec.ofInt_neg, BitVec.ofInt_ofNat, BitVec.neg_one_eq_allOnes]

theorem iDiv_eq_ofInt {n : Nat} (a b : BitVec n) : iDiv n a b = BitVec.ofInt n (if b.toInt = 0 then -1 else a.toInt.tdiv b.toInt) := by
  rw [iDiv]
  simp only [toInt_eq_zero_iff]
  split
  · exact allOnes_eq_ofInt n
  · exact BitVec.eq_of_toInt_eq (by rw [BitVec.toInt_sdiv, BitVec.toInt_ofInt])

theorem iDivu_eq_ofInt {n : Nat} (a b : BitVec n) : iDivu n a b = BitVec.ofInt n (if (b.toNat : Int) = 0 then -1 else (a.toNat : Int) / b.toNat) := by
  rw [iDivu]
  simp only [toNat_eq_zero_iff]
  split
  · exact allOnes_eq_ofInt n
  · rw [← Int.natCast_div, ← BitVec.toNat_udiv, ofInt_toNat]

theorem iRem_eq_ofInt {n : Nat} (a b : BitVec n) : iRem n a b = BitVec.ofInt n (if b.toInt = 0 then a.toInt else a.toInt.tmod b.toInt) := by
  rw [iRem]
  simp only [toInt_eq_zero_iff]
  split
  · exact BitVec.ofInt_toInt.symm
  · rw [← BitVec.toInt_srem, BitVec.ofInt_toInt]

theorem iRemu_eq_ofInt {n : Nat} (a b : BitVec n) :
    iRemu n a b = BitVec.ofInt n (if (b.toNat : Int) = 0 then (a.toNat : Int) else (a.toNat : Int) % b.toNat) := by
  rw [iRemu]
  simp only [toNat_eq_zero_iff]
  split
  · exact (ofInt_toNat a).symm
  · rw [← Int.natCast_mod, ← BitVec.toNat_umod, ofInt_toNat]

/-- The signed and the unsigned value of a choice, and the word of either. -/
theorem ite_eq_ofInt_toInt {n : Nat} (p : Prop) [Decidable p] (a b : BitVec n) : (if p then a else b) = BitVec.ofInt n (if p then a.toInt else b.toInt) := by
  split <;> exact BitVec.ofInt_toInt.symm

theorem ite_eq_ofInt_toNat {n : Nat} (p : Prop) [Decidable p] (a b : BitVec n) : (if p then a else b) = BitVec.ofInt n (if p then (a.toNat : Int) else b.toNat) := by
  split <;> exact (ofInt_toNat _).symm

/-- The larger of two that are equal is either. -/
theorem ite_lt_eq_ite_le {α : Type} {a b : α} {k l : Int} (hab : k = l → a = b) : (if k < l then b else a) = if k ≤ l then b else a := by
  obtain h | h | h := lt_trichotomy k l
  · rw [if_pos h, if_pos h.le]
  · rw [if_neg h.not_lt, if_pos h.le, hab h]
  · rw [if_neg h.not_gt, if_neg h.not_ge]

/-- R195 and R196 on words: every operation is the one on their numbers, cut to the width. -/
theorem aluWords_eq_ofInt (f : Alu) {n : Nat} (a b : BitVec n) : aluWords f n a b = BitVec.ofInt n (f.value n a.toInt b.toInt a.toNat b.toNat) := by
  cases f with
  | add => simp only [aluWords, iAdd, Alu.value, BitVec.ofInt_add, BitVec.ofInt_toInt]
  | sub => simp only [aluWords, iSub, Alu.value, Int.sub_eq_add_neg, BitVec.ofInt_add, BitVec.ofInt_neg, BitVec.ofInt_toInt, BitVec.sub_eq_add_neg]
  | mul => simp only [aluWords, iMul, Alu.value, BitVec.ofInt_mul, BitVec.ofInt_toInt]
  | mulh => exact iMulh_eq_ofInt a b
  | mulhu => exact iMulhu_eq_ofInt a b
  | div => exact iDiv_eq_ofInt a b
  | divu => exact iDivu_eq_ofInt a b
  | rem => exact iRem_eq_ofInt a b
  | remu => exact iRemu_eq_ofInt a b
  | min =>
    rw [Alu.value, ← ite_eq_ofInt_toInt, ← ite_not]
    simp only [aluWords, iMin, BitVec.slt_iff_toInt_lt, not_le]
  | max =>
    rw [Alu.value, ← ite_eq_ofInt_toInt]
    simp only [aluWords, iMax, BitVec.slt_iff_toInt_lt]
    exact ite_lt_eq_ite_le fun h => BitVec.eq_of_toInt_eq h
  | minu =>
    rw [Alu.value, ← ite_eq_ofInt_toNat, ← ite_not]
    simp only [aluWords, iMinu, BitVec.ult_iff_lt, not_le, Int.ofNat_lt, BitVec.lt_def]
  | maxu =>
    rw [Alu.value, ← ite_eq_ofInt_toNat]
    simp only [aluWords, iMaxu, BitVec.ult_iff_lt, BitVec.lt_def, ← Int.ofNat_lt]
    exact ite_lt_eq_ite_le fun h => BitVec.eq_of_toNat_eq (Int.ofNat_inj.mp h)

/-! ### The two forms -/

/-- The register form at its width. -/
theorem aluA_eq_cut {f : Alu} {x : AluA} {s : State} {t : Thread} (hr : Runs s t x.g) : aluA (aluWords f) x s = .next (s.setCur (t.wg x.d (cut (bits x.w)
    (f.value (bits x.w) (sig (bits x.w) (t.rg x.a)) (sig (bits x.w) (t.rg x.b)) (uns (bits x.w) (t.rg x.a)) (uns (bits x.w) (t.rg x.b)))))) :=
  aluA_of_signExtend hr (by
    rw [aluWords_eq_ofInt, ← cut_eq_signExtend]
    simp only [toInt_setWidth_eq_sig, toNat_setWidth_eq_uns])

theorem sig_64 (v : Word) : sig 64 v = v.toInt := by
  rw [← toInt_setWidth_eq_sig, BitVec.setWidth_eq]

theorem uns_64 (v : Word) : uns 64 v = v.toNat := by
  rw [← toNat_setWidth_eq_uns, BitVec.setWidth_eq]

theorem cut_64 (r : Int) : cut 64 r = BitVec.ofInt 64 r := by
  rw [cut_eq_signExtend, BitVec.signExtend_eq]

theorem toInt_immWord (imm : BitVec 48) : (immWord imm).toInt = imm.toInt := BitVec.toInt_signExtend_of_le (by decide)

theorem toNat_immWord (imm : BitVec 48) : ((immWord imm).toNat : Int) = imm.toInt % 2 ^ 64 := by
  rw [← toInt_immWord, ← Nat.mod_eq_of_lt (immWord imm).isLt, Int.natCast_mod, BitVec.toInt_eq_toNat_bmod]
  exact Int.bmod_emod.symm

/-- The immediate form at 64 bits. -/
theorem aluI_eq_cut {f : Alu} {x : AluI} {s : State} {t : Thread} (hr : Runs s t x.g) : aluI (aluWords f) x s = .next (s.setCur (t.wg x.d (cut 64
    (f.value 64 (sig 64 (t.rg x.a)) x.imm.toInt (uns 64 (t.rg x.a)) (x.imm.toInt % 2 ^ 64))))) :=
  aluI_of_eq hr (by rw [aluWords_eq_ofInt, toInt_immWord, toNat_immWord, cut_64, sig_64, uns_64])

theorem exec_of_aluReg {i : Instr} {x : AluA} {f : Alu} (h : aluReg i = some (x, f)) (s : State) : exec i s = aluA (aluWords f) x s := by
  cases i <;> cases h <;> rfl

theorem exec_of_aluImm {i : Instr} {x : AluI} {f : Alu} (h : aluImm i = some (x, f)) (s : State) : exec i s = aluI (aluWords f) x s := by
  cases i <;> cases h <;> rfl

/-- Settles O1: each instruction applies its operation on words, which is that of the statement on their numbers. -/
theorem integerArithmetic : Obligations.IntegerArithmetic := by
  unfold Obligations.IntegerArithmetic
  exact ⟨fun _ _ _ _ _ hi hr => (exec_of_aluReg hi _).trans (aluA_eq_cut hr), fun _ _ _ _ _ hi hr => (exec_of_aluImm hi _).trans (aluI_eq_cut hr)⟩

end Sys2Proof.Machine

end

/-! ## Proofs: bitwise operations and shifts (R195)

Bit by bit the low bits of a result are those of the result of the words; a shift is a product or a quotient by a power of two, and a rotation the
sum of the two parts. -/

section

namespace Sys2Proof.Machine

open Sys2Proof.Claims

/-- The operation on words that the meaning of each bitwise operation and shift applies. -/
def bitWords : Bitop → (n : Nat) → BitVec n → BitVec n → BitVec n
  | .and => iAnd
  | .or => iOr
  | .xor => iXor
  | .andn => iAndn
  | .orn => iOrn
  | .shl => iShl
  | .shr => iShr
  | .sra => iSra
  | .rol => iRol

/-! ### Shifts of words as arithmetic -/

theorem shiftLeft_eq_ofInt {n : Nat} (x : BitVec n) (k : Nat) : x <<< k = BitVec.ofInt n ((x.toNat : Int) * 2 ^ k) := by
  have hcast : ((x.toNat : Int) * 2 ^ k) = ((x.toNat * 2 ^ k : Nat) : Int) := by push_cast; rfl
  rw [hcast, BitVec.ofInt_natCast]
  exact BitVec.eq_of_toNat_eq (by rw [BitVec.toNat_shiftLeft, BitVec.toNat_ofNat, Nat.shiftLeft_eq])

theorem ushiftRight_eq_ofInt {n : Nat} (x : BitVec n) (k : Nat) : x >>> k = BitVec.ofInt n ((x.toNat : Int) / 2 ^ k) := by
  have hcast : ((x.toNat : Int) / 2 ^ k) = ((x.toNat / 2 ^ k : Nat) : Int) := by push_cast; rfl
  rw [hcast, ← Nat.shiftRight_eq_div_pow, ← BitVec.toNat_ushiftRight, ofInt_toNat]

theorem sshiftRight_eq_ofInt {n : Nat} (x : BitVec n) (k : Nat) : x.sshiftRight k = BitVec.ofInt n (x.toInt / 2 ^ k) := by
  have hcast : x.toInt / 2 ^ k = (x.sshiftRight k).toInt := by rw [BitVec.toInt_sshiftRight, Int.shiftRight_eq_div_pow]; push_cast; rfl
  rw [hcast, BitVec.ofInt_toInt]

/-- The two parts of a rotated word have no bit in common. -/
theorem rotateLeft_eq_ofInt {n : Nat} (x : BitVec n) {k : Nat} (hk : k < n) :
    x.rotateLeft k = BitVec.ofInt n ((x.toNat : Int) * 2 ^ k + (x.toNat : Int) / 2 ^ (n - k)) := by
  have hcast : ((x.toNat : Int) * 2 ^ k + (x.toNat : Int) / 2 ^ (n - k)) = ((x.toNat * 2 ^ k + x.toNat / 2 ^ (n - k) : Nat) : Int) :=
    by push_cast; rfl
  have hpow : 2 ^ n = 2 ^ (n - k) * 2 ^ k := by rw [← pow_add, Nat.sub_add_cancel hk.le]
  have hlow : x.toNat / 2 ^ (n - k) < 2 ^ k := Nat.div_lt_of_lt_mul (hpow ▸ x.isLt)
  have hhigh : x.toNat * 2 ^ k % 2 ^ n = (x.toNat % 2 ^ (n - k)) <<< k := by rw [hpow, Nat.mul_mod_mul_right, Nat.shiftLeft_eq]
  have hfit : x.toNat * 2 ^ k % 2 ^ n + x.toNat / 2 ^ (n - k) < 2 ^ n := by
    have hmod : x.toNat % 2 ^ (n - k) + 1 ≤ 2 ^ (n - k) := Nat.mod_lt _ (by positivity)
    have hmul := Nat.mul_le_mul_right (2 ^ k) hmod
    rw [← hpow, Nat.add_mul, one_mul] at hmul
    rw [hhigh, Nat.shiftLeft_eq]
    omega
  rw [hcast, BitVec.ofInt_natCast]
  apply BitVec.eq_of_toNat_eq
  rw [BitVec.toNat_rotateLeft, Nat.mod_eq_of_lt hk, BitVec.toNat_ofNat, Nat.shiftRight_eq_div_pow, Nat.shiftLeft_eq, hhigh,
    ← Nat.shiftLeft_add_eq_or_of_lt hlow, ← hhigh, ← Nat.mod_eq_of_lt hfit, Nat.mod_add_mod]

/-! ### The operations at a width -/

/-- A count taken from the low bits of a register is the register's modulo the width. -/
theorem toNat_setWidth_mod {n : Nat} (hn : n ∣ 2 ^ n) (b : Word) : (b.setWidth n).toNat % n = b.toNat % n := by
  rw [BitVec.toNat_setWidth, Nat.mod_mod_of_dvd _ hn]

theorem bits_dvd (w : Width) : bits w ∣ 2 ^ bits w := by
  cases w <;> decide

theorem bits_le (w : Width) : bits w ≤ 64 := by
  cases w <;> decide

/-- R195 on the low n bits of two words. -/
theorem bitWords_eq_ofInt (f : Bitop) {n : Nat} (hpos : 0 < n) (hle : n ≤ 64) (hdvd : n ∣ 2 ^ n) (a b : Word) :
    bitWords f n (a.setWidth n) (b.setWidth n) = BitVec.ofInt n (f.value n a b) := by
  cases f with
  | and => rw [bitWords, iAnd, Bitop.value, ← setWidth_eq_ofInt, BitVec.setWidth_and]
  | or => rw [bitWords, iOr, Bitop.value, ← setWidth_eq_ofInt, BitVec.setWidth_or]
  | xor => rw [bitWords, iXor, Bitop.value, ← setWidth_eq_ofInt, BitVec.setWidth_xor]
  | andn => rw [bitWords, iAndn, Bitop.value, ← setWidth_eq_ofInt, BitVec.setWidth_and, BitVec.setWidth_not hle]
  | orn => rw [bitWords, iOrn, Bitop.value, ← setWidth_eq_ofInt, BitVec.setWidth_or, BitVec.setWidth_not hle]
  | shl => rw [bitWords, iShl, toNat_setWidth_mod hdvd, shiftLeft_eq_ofInt, toNat_setWidth_eq_uns, Bitop.value]
  | shr => rw [bitWords, iShr, toNat_setWidth_mod hdvd, ushiftRight_eq_ofInt, toNat_setWidth_eq_uns, Bitop.value]
  | sra => rw [bitWords, iSra, toNat_setWidth_mod hdvd, sshiftRight_eq_ofInt, toInt_setWidth_eq_sig, Bitop.value]
  | rol => rw [bitWords, iRol, toNat_setWidth_mod hdvd, rotateLeft_eq_ofInt _ (Nat.mod_lt _ hpos), toNat_setWidth_eq_uns, Bitop.value]

theorem bitWords_64 (f : Bitop) (a b : Word) : bitWords f 64 a b = cut 64 (f.value 64 a b) := by
  rw [cut_64, ← bitWords_eq_ofInt f (by decide) (by decide) (by decide), BitVec.setWidth_eq, BitVec.setWidth_eq]

/-! ### The two forms -/

theorem exec_of_bitReg {i : Instr} {x : AluA} {f : Bitop} (h : bitReg i = some (x, f)) (s : State) : exec i s = aluA (bitWords f) x s := by
  cases i <;> cases h <;> rfl

theorem exec_of_bitImm {i : Instr} {g : Guard} {d a : GReg} {b : Word} {f : Bitop} (h : bitImm i = some (g, d, a, b, f)) (s : State) :
    exec i s = setG g d s fun t => bitWords f 64 (t.rg a) b := by
  cases i <;> cases h <;> rfl

theorem bitwiseAndShiftRegister : BitwiseAndShiftRegister := by
  intro i x f s t hi hr
  rw [exec_of_bitReg hi]
  exact aluA_of_signExtend hr (by rw [bitWords_eq_ofInt f (bits_pos _) (bits_le _) (bits_dvd _), cut_eq_signExtend])

theorem bitwiseAndShiftImmediate : BitwiseAndShiftImmediate := by
  rintro i g d a b f s t hi ⟨ht, hg⟩
  rw [exec_of_bitImm hi, setG_eq d _ ht hg, bitWords_64]

/-- Settles O2: both forms apply the operation on words, which is the arithmetic of the statement. -/
theorem bitwiseAndShift : Obligations.BitwiseAndShift := by
  unfold Obligations.BitwiseAndShift
  exact ⟨bitwiseAndShiftRegister, bitwiseAndShiftImmediate⟩

end Sys2Proof.Machine

end

/-! ## Proofs: counts, fields, moves and comparisons (R197 to R199, R205) -/

section

namespace Sys2Proof.Machine

open Sys2Proof.Claims

/-- A one-source operation at its width, sign-extended. -/
theorem aluU_of_signExtend {f : (n : Nat) → BitVec n → BitVec n → BitVec n} {x : UnA} {s : State} {t : Thread} {v : Word} (hr : Runs s t x.g)
    (hv : (f (bits x.w) ((t.rg x.a).setWidth (bits x.w)) 0).signExtend 64 = v) : aluU f x s = .next (s.setCur (t.wg x.d v)) := by
  have hzero : (0 : Word).setWidth (bits x.w) = 0 := BitVec.setWidth_zero ..
  rw [← hv, ← hzero, ← atWidth_eq_signExtend]
  exact setG_eq x.d _ hr.1 hr.2

theorem getLsbD_setWidth_of_lt {n j : Nat} (v : Word) (hj : j < n) : (v.setWidth n).getLsbD j = v.getLsbD j := by
  simp [hj]

/-! ### Counts (R197) -/

/-- How many bits above the first set one are zero. -/
def leadingZeros {n : Nat} (a : BitVec n) : Nat := if a = 0 then n else n - 1 - Nat.log2 a.toNat

theorem log2_toNat_lt {n : Nat} {a : BitVec n} (ha : a ≠ 0) : Nat.log2 a.toNat < n :=
  (Nat.log2_lt (fun h => ha (BitVec.eq_of_toNat_eq (h.trans BitVec.toNat_zero.symm)))).mpr a.isLt

theorem leadingZeros_le {n : Nat} (a : BitVec n) : leadingZeros a ≤ n := by
  unfold leadingZeros
  split <;> omega

theorem getLsbD_of_lt_leadingZeros {n : Nat} {a : BitVec n} {j : Nat} (hj : j < leadingZeros a) : a.getLsbD (n - 1 - j) = false := by
  unfold leadingZeros at hj
  split at hj
  case isTrue ha => rw [ha]; exact BitVec.getLsbD_zero
  case isFalse =>
    have hpow : 2 ^ (Nat.log2 a.toNat + 1) ≤ 2 ^ (n - 1 - j) := Nat.pow_le_pow_right (by decide) (by omega)
    exact Nat.testBit_lt_two_pow (Nat.lt_log2_self.trans_le hpow)

theorem getLsbD_leadingZeros {n : Nat} {a : BitVec n} (h : leadingZeros a < n) : a.getLsbD (n - 1 - leadingZeros a) = true := by
  unfold leadingZeros at h ⊢
  split at h
  case isTrue => exact absurd h (lt_irrefl n)
  case isFalse ha =>
    have hlt := log2_toNat_lt ha
    rw [if_neg ha, show n - 1 - (n - 1 - Nat.log2 a.toNat) = Nat.log2 a.toNat by omega]
    exact Nat.testBit_log2 fun h0 => ha (BitVec.eq_of_toNat_eq (h0.trans BitVec.toNat_zero.symm))

/-- The place of the lowest set bit, the width where there is none. -/
def trailingZeros {n : Nat} (a : BitVec n) : Nat := ((List.range n).find? fun i => a.getLsbD i).getD n

theorem trailingZeros_spec {n : Nat} (a : BitVec n) :
    trailingZeros a ≤ n ∧ (∀ j < trailingZeros a, a.getLsbD j = false) ∧ (trailingZeros a < n → a.getLsbD (trailingZeros a) = true) := by
  unfold trailingZeros
  cases hf : (List.range n).find? fun i => a.getLsbD i with
  | none =>
    have hnone := List.find?_range_eq_none.mp hf
    exact ⟨le_refl n, fun j hj => by simpa using hnone j hj, fun h => absurd h (lt_irrefl n)⟩
  | some i =>
    obtain ⟨hset, hmem, hbelow⟩ := List.find?_range_eq_some.mp hf
    exact ⟨(List.mem_range.mp hmem).le, fun j hj => by simpa using hbelow j hj, fun _ => hset⟩

/-! ### Reversal (R197) -/

/-- The fold of the reversal holds the bits read so far, the first of them on top. -/
theorem testBit_foldl_reverse (b : Nat → Bool) (n j : Nat) :
    ((List.range n).foldl (fun acc i => 2 * acc + (b i).toNat) 0).testBit j = (decide (j < n) && b (n - 1 - j)) := by
  induction n generalizing j with
  | zero => simp
  | succ n ih =>
    rw [List.range_succ, List.foldl_append, List.foldl_cons, List.foldl_nil]
    cases j with
    | zero => cases hb : b n <;> simp [hb]
    | succ j =>
      have hhalf : ∀ m, (2 * m + (b n).toNat) / 2 = m := fun m => by
        have hb := (b n).toNat_lt
        omega
      rw [Nat.testBit_succ, hhalf, ih]
      simp [show n - (j + 1) = n - 1 - j by omega]

theorem getLsbD_iBrev {n j : Nat} (a b : BitVec n) (hj : j < n) : (iBrev n a b).getLsbD j = a.getLsbD (n - 1 - j) := by
  rw [iBrev, BitVec.getLsbD_ofNat, testBit_foldl_reverse]
  simp [hj]

theorem countAndReverse : CountAndReverse := by
  intro x s t hr
  have hlow : ∀ j < bits x.w, ((t.rg x.a).setWidth (bits x.w)).getLsbD j = (t.rg x.a).getLsbD j := fun j => getLsbD_setWidth_of_lt _
  have hpos := bits_pos x.w
  generalize hy : (t.rg x.a).setWidth (bits x.w) = y at hlow
  refine ⟨⟨leadingZeros y, leadingZeros_le y, fun j hj => ?_, fun h => ?_, aluU_of_signExtend hr (by rw [cut_natCast, hy]; rfl)⟩,
    ⟨trailingZeros y, (trailingZeros_spec y).1, fun j hj => ?_, fun h => ?_, aluU_of_signExtend hr (by rw [cut_natCast, hy]; rfl)⟩,
    aluU_of_signExtend hr ?_, ⟨_, fun j hj => ?_, fun j hj hj' => ?_, aluU_of_signExtend hr (by rw [hy])⟩⟩
  · rw [← hlow _ (by omega), getLsbD_of_lt_leadingZeros hj]
  · rw [← hlow _ (by omega), getLsbD_leadingZeros h]
  · rw [← hlow _ (hj.trans_le (trailingZeros_spec y).1), (trailingZeros_spec y).2.1 j hj]
  · rw [← hlow _ h, (trailingZeros_spec y).2.2 h]
  · rw [cut_natCast, hy, iPopc]
    congr 2
    exact List.countP_congr fun j hj => by rw [hlow j (List.mem_range.mp hj)]
  · rw [BitVec.getLsbD_signExtend, if_pos hj, getLsbD_iBrev _ _ hj, hlow _ (by omega)]
    simp [hj.trans_le (bits_le x.w)]
  · rw [BitVec.getLsbD_signExtend, if_neg (by omega), BitVec.msb_eq_getLsbD_last, getLsbD_iBrev _ _ (by omega), Nat.sub_self, hlow 0 hpos]
    simp [hj']

/-! ### Fields (R197, R198) -/

theorem extractLsb'_zero_eq_setWidth {n : Nat} (hn : n ≤ 64) (v : Word) : v.extractLsb' 0 n = v.setWidth n :=
  (BitVec.setWidth_eq_extractLsb' hn).symm

/-- A field of a register is its quotient by the place, modulo the length. -/
theorem extractLsb'_eq_ofNat (v : Word) (pos len : Nat) : v.extractLsb' pos len = BitVec.ofNat len (v.toNat / 2 ^ pos) := by
  rw [← Nat.shiftRight_eq_div_pow]
  rfl

theorem getLsbD_bfi (old v : Word) (pos len : Nat) {j : Nat} (hj : j < 64) : (bfi old v pos len).getLsbD j =
    if pos ≤ j ∧ j < pos + len then v.getLsbD (j - pos) else old.getLsbD j := by
  simp only [bfi, BitVec.getLsbD_or, BitVec.getLsbD_and, BitVec.getLsbD_not, BitVec.getLsbD_shiftLeft, BitVec.getLsbD_setWidth,
    BitVec.getLsbD_allOnes]
  by_cases hlo : j < pos
  · simp [hj, hlo, hlo.not_ge]
  · by_cases hhi : j < pos + len
    · simp [hj, show j - pos < 64 by omega, hlo, hhi, not_lt.mp hlo, show j - pos < len by omega]
    · simp [hj, hlo, hhi, show ¬ j - pos < len by omega]

theorem fieldExtractAndInsert : FieldExtractAndInsert := by
  refine ⟨fun x s t hr _ hn => ⟨?_, ?_⟩, fun x s t hr _ => ?_, fun x s t hr _ => ⟨_, setG_eq x.d _ hr.1 hr.2, fun j hj => ?_⟩⟩
  · rw [cut_toNat, ← extractLsb'_zero_eq_setWidth hn]
    exact setG_eq x.d _ hr.1 hr.2
  · rw [← toNat_setWidth_eq_uns, ← setWidth_eq_ofInt, ← extractLsb'_zero_eq_setWidth hn]
    exact setG_eq x.d _ hr.1 hr.2
  · have hfield := extractLsb'_eq_ofNat (t.rg x.a) x.pos.toNat (x.len1.toNat + 1)
    have hval : (if x.sx then cut (x.len1.toNat + 1) ((t.rg x.a).toNat / 2 ^ x.pos.toNat : Nat)
        else BitVec.ofNat 64 ((t.rg x.a).toNat / 2 ^ x.pos.toNat % 2 ^ (x.len1.toNat + 1))) =
        if x.sx then ((t.rg x.a).extractLsb' x.pos.toNat (x.len1.toNat + 1)).signExtend 64
        else ((t.rg x.a).extractLsb' x.pos.toNat (x.len1.toNat + 1)).setWidth 64 := by
      rw [hfield, cut_natCast, ← BitVec.toNat_ofNat, BitVec.ofNat_toNat]
    exact hval ▸ setG_eq x.d _ hr.1 hr.2
  · simp only [getLsbD_bfi _ _ _ _ hj, ← Nat.add_assoc, Nat.lt_succ_iff]

/-! ### Moves and addresses (R199) -/

theorem immWord_eq_ofInt (imm : BitVec 48) : immWord imm = BitVec.ofInt 64 imm.toInt := rfl

theorem lea_eq_ofNat (a b : Word) (k : Nat) : a + b <<< k = BitVec.ofNat 64 (a.toNat + b.toNat * 2 ^ k) := by
  apply BitVec.eq_of_toNat_eq
  simp [Nat.shiftLeft_eq]

theorem moveSelectAddress : MoveSelectAddress := by
  refine ⟨fun x s t hr => setG_eq x.d _ hr.1 hr.2, fun x s t hr => setG_eq x.d _ hr.1 hr.2, fun x s t hr => setG_eq x.d _ hr.1 hr.2,
    fun x s t hr => ?_, fun x s t hr => ?_⟩
  · rw [← lea_eq_ofNat]
    exact setG_eq x.d _ hr.1 hr.2
  · rw [BitVec.ofInt_add, BitVec.ofInt_toInt, ← immWord_eq_ofInt]
    exact setG_eq x.d _ hr.1 hr.2

/-! ### Comparisons and predicates (R37, R199, R205) -/

/-- A condition on words is the one on their numbers. -/
theorem icond_eq_holds {n : Nat} (c : ICond) (a b : BitVec n) : icond c a b = holds a.toInt b.toInt a.toNat b.toNat c := by
  rw [Bool.eq_iff_iff]
  cases c with
  | eq | ne => simp [icond, holds, BitVec.toNat_inj]
  | lt | ge => simp [icond, holds, ← BitVec.slt_iff_toInt_lt, ← not_lt]
  | ltu | geu => simp [icond, holds, BitVec.ult]

/-- The four widths in one equation. -/
theorem cmpW_eq_icond (c : ICond) (w : Width) (a b : Word) : cmpW c w a b = icond c (a.setWidth (bits w)) (b.setWidth (bits w)) := by
  cases w with
  | w64 => simp only [cmpW, bits, BitVec.setWidth_eq]
  | w32 | w16 | w8 => rfl

/-- A source of a predicate operation, complemented or not. -/
theorem bne_eq_negate_if (b n : Bool) : (b != n) = if n then !b else b := by
  cases n <;> simp

theorem bne_zero_eq_decide (v : Word) : (v != 0) = decide (v ≠ 0) := by
  rw [Bool.eq_iff_iff]
  simp

theorem compareAndPredicates : CompareAndPredicates := by
  refine ⟨fun x s t hr => ?_, fun x s t hr => ?_, fun x s t hr => ?_, fun x s t hr => setP_eq x.d _ hr.1 hr.2, fun x s t hr => ?_⟩
  · rw [← toInt_setWidth_eq_sig, ← toInt_setWidth_eq_sig, ← toNat_setWidth_eq_uns, ← toNat_setWidth_eq_uns, ← icond_eq_holds, ← cmpW_eq_icond]
    exact setP_eq x.d _ hr.1 hr.2
  · rw [← toNat_immWord, ← toInt_immWord, sig_64, uns_64, ← icond_eq_holds]
    exact setP_eq x.d _ hr.1 hr.2
  · simp only [← bne_eq_negate_if]
    exact ⟨setP_eq x.d _ hr.1 hr.2, setP_eq x.d _ hr.1 hr.2, setP_eq x.d _ hr.1 hr.2⟩
  · obtain ⟨g, d, src⟩ := x
    cases src with
    | imm v => exact setP_eq d _ hr.1 hr.2
    | reg a =>
      simp only [← bne_zero_eq_decide]
      exact setP_eq d _ hr.1 hr.2

/-- Settles O3. -/
theorem countsFieldsComparesAndMoves : Obligations.CountsFieldsComparesAndMoves := by
  unfold Obligations.CountsFieldsComparesAndMoves
  exact ⟨countAndReverse, fieldExtractAndInsert, moveSelectAddress, compareAndPredicates⟩

end Sys2Proof.Machine

end

/-! ## Proofs: transfers (R22, R204) -/

section

namespace Sys2Proof.Machine

open Sys2Proof.Claims

/-- A change of the executing thread is that thread put back changed. -/
theorem State.modCur_eq_setCur {s : State} {t : Thread} (h : s.curT? = some t) (f : Thread → Thread) : s.modCur f = s.setCur (f t) := by
  unfold State.curT? at h
  simp [State.modCur, State.setCur, State.modThread, h]

/-! ### A transfer that is taken -/

section

variable {s s' : State} {t : Thread} {pc : Word} {l : V512} (ht : s.curT? = some t)
  (hc : s.checkTarget s.cur.core s.cur.slot t.region pc = (.ok l, s'))
include ht hc

theorem transferLink_of_ok (link done : Thread → Thread) :
    transferLink s pc link done = .next (s'.modCur fun t => done { link t with leadPc := pc, line := some (pcLine pc, l) }) := by
  rw [transferLink, withT_some ht, hc]

theorem transferTo_of_ok (done : Thread → Thread) : transferTo s pc done = .next (landed s' pc l done) := transferLink_of_ok ht hc id done

/-- The link and the lead PC are written to different places. -/
theorem linkTo_of_ok (d : GReg) : linkTo s pc d = .next (landed s' pc l fun t' => t'.wg d (nextPc s.cur.ipc)) := by
  have hwg : ∀ t' : Thread, { t'.wg d (nextPc s.cur.ipc) with leadPc := pc, line := some (pcLine pc, l) } =
      ({ t' with leadPc := pc, line := some (pcLine pc, l) } : Thread).wg d (nextPc s.cur.ipc) := fun t' => by
    unfold Thread.wg
    split <;> rfl
  rw [linkTo, transferLink_of_ok ht hc, landed]
  simp only [hwg, id]

end

/-! ### The conditions -/

/-- BR is taken where its condition, if it has one, holds. -/
theorem brCond_eq_true {c : Option ICond} {a b : Word} :
    (c.elim true fun c => icond c a b) = true ↔ ∀ c', c = some c' → holds (sig 64 a) (sig 64 b) (uns 64 a) (uns 64 b) c' = true := by
  simp only [sig_64, uns_64, ← icond_eq_holds]
  cases c <;> simp

theorem execBr_of_holds {s : State} {t : Thread} {x : BrB} (hr : Runs s t x.g)
    (hc : ∀ c, x.c = some c → holds (sig 64 (t.rg x.a)) (sig 64 (t.rg x.b)) (uns 64 (t.rg x.a)) (uns 64 (t.rg x.b)) c = true) :
    exec (.br x) s = transferTo s (s.target x.disp) id :=
  (guarded_true hr.1 hr.2 _).trans (if_pos (brCond_eq_true.mpr hc))

theorem execBr_of_not_holds {s : State} {t : Thread} {x : BrB} {c : ICond} (hr : Runs s t x.g) (hx : x.c = some c)
    (hc : holds (sig 64 (t.rg x.a)) (sig 64 (t.rg x.b)) (uns 64 (t.rg x.a)) (uns 64 (t.rg x.b)) c = false) : exec (.br x) s = .next s :=
  (guarded_true hr.1 hr.2 _).trans (if_neg fun h => by simp [brCond_eq_true.mp h c hx] at hc)

theorem sub_one_ne_zero_iff (v : Word) : v - 1 ≠ 0 ↔ v ≠ 1 := not_congr sub_eq_zero

/-- LOOP is taken where its counter is g0, which no count reaches, or does not reach zero. -/
theorem execLoop_of_taken {s : State} {t : Thread} {x : LoopB} (hr : Runs s t x.g) (ha : x.a = 0 ∨ t.rg x.a ≠ 1) :
    exec (.loop x) s = transferTo s (s.target x.disp) fun t' => t'.wg x.a (t.rg x.a - 1) :=
  (guarded_true hr.1 hr.2 _).trans (if_pos (by rwa [Bool.or_eq_true, decide_eq_true_iff, decide_eq_true_iff, sub_one_ne_zero_iff]))

theorem execLoop_of_done {s : State} {t : Thread} {x : LoopB} (hr : Runs s t x.g) (ha : x.a ≠ 0) (h1 : t.rg x.a = 1) :
    exec (.loop x) s = .next (s.setCur (t.wg x.a 0)) := by
  have hzero : t.rg x.a - 1 = 0 := by rw [h1]; rfl
  refine (guarded_true hr.1 hr.2 _).trans ?_
  simp only [hzero]
  exact if_neg (by simpa using ha)

theorem transfersTaken : TransfersTaken := by
  intro s s' t l
  refine ⟨fun x hr hcond hc => ?_, fun x hr hc => ?_, fun x hr hc => ⟨?_, ?_⟩, fun x hr hc => ?_, fun x hr hc => ?_, fun x hr ha hc => ?_⟩
  · exact (execBr_of_holds hr hcond).trans (transferTo_of_ok hr.1 hc id)
  · exact (guarded_true hr.1 hr.2 _).trans (transferTo_of_ok hr.1 hc id)
  · exact (guarded_true hr.1 hr.2 _).trans (transferTo_of_ok hr.1 hc id)
  · exact (guarded_true hr.1 hr.2 _).trans (transferTo_of_ok hr.1 hc id)
  · exact (guarded_true hr.1 hr.2 _).trans (linkTo_of_ok hr.1 hc x.d)
  · exact (guarded_true hr.1 hr.2 _).trans (linkTo_of_ok hr.1 hc x.d)
  · exact (execLoop_of_taken hr ha).trans (transferTo_of_ok hr.1 hc _)

theorem transfersNotTaken : TransfersNotTaken := by
  refine ⟨fun s t x c hr hx hc => execBr_of_not_holds hr hx hc, fun s t x hr ha h1 => execLoop_of_done hr ha h1,
    fun s t x hr => guarded_true hr.1 hr.2 _, ?_⟩
  rintro s t g ht hg
  refine ⟨?_, ?_, ?_, ?_, ?_, ?_, ?_⟩
  all_goals rintro x rfl
  · exact guarded_false ht hg _
  · exact guarded_false ht hg _
  · exact ⟨guarded_false ht hg _, guarded_false ht hg _⟩
  · exact guarded_false ht hg _
  · exact guarded_false ht hg _
  · exact guarded_false ht hg _
  · exact guarded_false ht hg _

/-- Settles O5: each transfer is the one shared transfer to its target under its condition. -/
theorem transfers : Obligations.Transfers := by
  unfold Obligations.Transfers
  exact ⟨transfersTaken, transfersNotTaken⟩

end Sys2Proof.Machine

end

/-! ## Proofs: queues and repetition (R206, R208 to R213) -/

section

namespace Sys2Proof.Machine

open Sys2Proof.Claims

/-! ### Queue registers -/

theorem execQput_of_room {s : State} {t : Thread} {x : QputA} (hr : Runs s t x.g) (h : (t.rq x.q).length < queueDepth x.q) :
    exec (.qput x) s = .next (s.setCur (t.wq x.q (t.rq x.q ++ [t.rg x.a]))) :=
  (guarded_true hr.1 hr.2 _).trans (if_neg h.not_ge)

theorem execQput_of_full {s : State} {t : Thread} {x : QputA} (hr : Runs s t x.g) (h : queueDepth x.q ≤ (t.rq x.q).length) :
    exec (.qput x) s = .next s.unissue :=
  (guarded_true hr.1 hr.2 _).trans (if_pos h)

section

variable {s : State} {t : Thread} {x : QgetA} (hr : Runs s t x.g)
include hr

theorem execQget_of_cons {v : Word} {l : List Word} (h : t.rq x.q = v :: l) : exec (.qget x) s = .next (s.setCur ((t.wq x.q l).wg x.d v)) := by
  refine (guarded_true hr.1 hr.2 _).trans ?_
  simp only [h]

theorem execQpeek_of_cons {v : Word} {l : List Word} (h : t.rq x.q = v :: l) : exec (.qpeek x) s = .next (s.setCur (t.wg x.d v)) := by
  refine (guarded_true hr.1 hr.2 _).trans ?_
  simp only [h]

theorem execQget_of_nil (h : t.rq x.q = []) : exec (.qget x) s = .next s.unissue := by
  refine (guarded_true hr.1 hr.2 _).trans ?_
  simp only [h, wait]

theorem execQpeek_of_nil (h : t.rq x.q = []) : exec (.qpeek x) s = .next s.unissue := by
  refine (guarded_true hr.1 hr.2 _).trans ?_
  simp only [h, wait]

end

theorem queueRegisters : QueueRegisters :=
  ⟨fun _ _ _ hr => ⟨execQput_of_room hr, execQput_of_full hr⟩,
    fun _ _ x hr => ⟨fun _ _ h => ⟨execQget_of_cons hr h, execQpeek_of_cons hr h⟩, fun h => ⟨execQget_of_nil hr h, execQpeek_of_nil hr h⟩,
      setG_eq x.d _ hr.1 hr.2⟩⟩

/-! ### The repetition buffer -/

/-- What REPB leaves in the buffer's state. -/
def RepState.opened (r : RepState) (x : RepbA) (pa : Nat) : RepState :=
  { r with savePa := pa, stride := x.stride, renv := x.renv, reng := x.reng, buf := [], valid := false, capt := true, run := none }

theorem execRepb_of_ok {s s' : State} {t : Thread} {x : RepbA} {pa : Nat} {sh : Bool} {e : Nat} (hr : Runs s t x.g) (hact : t.rep.act = false)
    (hal : (t.rg x.a).toNat % 512 = 0) (htr : s.translateR s.cur.core t.region (t.rg x.a) .store = (.ok pa sh e, s')) :
    exec (.repb x) s = .next (s'.modCur fun t => { t with rep := t.rep.opened x pa }) := by
  refine (guarded_true hr.1 hr.2 _).trans ?_
  simp only [hact, htr, hal]
  rfl

theorem execRepe_of_capt {s : State} {t : Thread} (x : EvNone) (ht : s.curT? = some t) (hc : t.rep.capt = true) :
    exec (.repe x) s = .next (s.setCur { t with rep := { t.rep with capt := false, valid := true } }) :=
  (withT_some ht _).trans (if_pos hc)

section

variable {s : State} {t : Thread} {x : GSrc} (hr : Runs s t x.g) (hv : t.rep.valid = true) (hact : t.rep.act = false)
  (hn : (t.rg x.a).toNat ≤ 1048575)
include hr hv hact hn

theorem execReprun_of_passes (hne : t.rg x.a ≠ 0 ∧ t.rep.buf ≠ []) : exec (.reprun x) s = .next (s.setCur { t with
    rep := { t.rep with act := true, pass := 0, npass := (t.rg x.a).toNat, idx := 0, run := some (s.cur.ipc, s.cur.iword) }
    trailQ := t.trailQ ++ [⟨s.cur.ipc, s.cur.iword, s.cur.instr, true, s.cur.no, false⟩] }) := by
  have hpos : (t.rg x.a).toNat ≠ 0 := fun h => hne.1 (BitVec.eq_of_toNat_eq h)
  refine (guarded_true hr.1 hr.2 _).trans ?_
  simp [hv, hact, hn.not_gt, hpos, hne.2]

omit hn in
theorem execReprun_of_none (h0 : t.rg x.a = 0) : exec (.reprun x) s = .next (s.setCur { t with
    rep := { t.rep with pass := 0, npass := 0, idx := 0, run := some (s.cur.ipc, s.cur.iword) } }) := by
  refine (guarded_true hr.1 hr.2 _).trans ?_
  simp [hv, hact, h0]

end

/-- A bit of a number is its quotient's parity. -/
theorem getLsbD_ofNat_of_div {w n i : Nat} {b : Bool} (hi : i < w) (h : n / 2 ^ i % 2 = b.toNat) : (BitVec.ofNat w n).getLsbD i = b := by
  rw [BitVec.getLsbD_ofNat, Nat.testBit_eq_decide_div_mod_eq, h]
  simp [hi]

/-- The fields of the word of R213 that the statement names. -/
theorem RepState.word_fields (r : RepState) : (BitVec.ofNat 64 r.word).extractLsb' 18 6 = BitVec.ofNat 6 r.buf.length ∧
    (BitVec.ofNat 64 r.word).getLsbD 5 = r.act ∧ (BitVec.ofNat 64 r.word).getLsbD 4 = r.valid ∧ (BitVec.ofNat 64 r.word).getLsbD 3 = r.capt := by
  have hbit : ∀ b : Bool, bitN b = b.toNat := fun b => by cases b <;> rfl
  have ha := r.act.toNat_lt
  have hv := r.valid.toNat_lt
  have hc := r.capt.toNat_lt
  have hg := r.reng.toNat_lt
  have hw := r.renv.toNat_lt
  have hword : r.word = r.pass % 2 ^ 20 * 2 ^ 44 + r.npass % 2 ^ 20 * 2 ^ 24 + r.buf.length % 2 ^ 6 * 2 ^ 18 + r.idx % 2 ^ 5 * 2 ^ 13 +
      r.stride.toNat % 2 ^ 5 * 2 ^ 8 + r.reng.toNat * 2 ^ 7 + r.renv.toNat * 2 ^ 6 + r.act.toNat * 2 ^ 5 + r.valid.toNat * 2 ^ 4 + r.capt.toNat * 2 ^ 3 := by
    simp only [RepState.word, packFields, List.foldl_cons, List.foldl_nil, hbit]
    omega
  refine ⟨BitVec.eq_of_toNat_eq ?_, ?_, ?_, ?_⟩
  · rw [BitVec.extractLsb'_toNat, BitVec.toNat_ofNat, BitVec.toNat_ofNat, Nat.shiftRight_eq_div_pow]
    omega
  all_goals exact getLsbD_ofNat_of_div (by decide) (by omega)

theorem repetitionBuffer : RepetitionBuffer := by
  refine ⟨fun s s' t x pa sh e hr hact hal htr ht' => ⟨t.rep.opened x pa, ?_, rfl, rfl, rfl, rfl, rfl, rfl, rfl⟩,
    fun s t x ht hc => execRepe_of_capt x ht hc,
    fun s t x hr hv hact hn => ⟨fun hne => ⟨_, execReprun_of_passes hr hv hact hn hne, rfl, rfl, rfl, rfl, rfl, rfl, rfl, rfl⟩,
      fun h0 => ⟨_, execReprun_of_none hr hv hact h0, hact, rfl, rfl⟩⟩,
    fun s t x hr => ⟨_, setG_eq x.d _ hr.1 hr.2, t.rep.word_fields⟩⟩
  rw [execRepb_of_ok hr hact hal htr, State.modCur_eq_setCur ht', State.modCur_eq_setCur ht']

/-- Settles O6. -/
theorem queuesAndRepetition : Obligations.QueuesAndRepetition := by
  unfold Obligations.QueuesAndRepetition
  exact ⟨queueRegisters, repetitionBuffer⟩

end Sys2Proof.Machine

end

/-! ## Proofs: scalar floating point (R200 to R203) -/

section

namespace Sys2Proof.Machine

open Sys2Proof.Claims

/-- A conversion or a classification by a valid type is its result; by an invalid descriptor the trap of R175. -/
theorem FFmt.fclass_le (f : FFmt) (c : Nat) : f.fclass c ≤ 8 := by
  unfold FFmt.fclass
  split
  · exact le_refl 8
  · split <;> decide
  · split_ifs <;> decide

theorem execFclass_of_flt {s : State} {t : Thread} {x : FpU} {f : FFmt} (hr : Runs s t x.g) (hn : numFmt t.rf x.ty = some (.flt f)) :
    exec (.fclass x) s = .next (s.setCur (t.wg x.d (1#64 <<< f.fclass (lowCode f.width (t.rg x.a))))) := by
  refine (guarded_true hr.1 hr.2 _).trans ?_
  simp only [hn]

theorem execFclass_of_none {s : State} {t : Thread} {x : FpU} (hr : Runs s t x.g) (hn : numFmt t.rf x.ty = none) :
    exec (.fclass x) s = trapAt s 0x1E 0 0 := by
  refine (guarded_true hr.1 hr.2 _).trans ?_
  simp only [hn]
  rfl

theorem execFcvt_of_some {s : State} {t : Thread} {x : FpV} {nd ns : NumFmt} {r : Nat × Fl} (hr : Runs s t x.g) (hd : numFmt t.rf x.dst = some nd)
    (hs : numFmt t.rf x.src = some ns)
    (hc : r = convert x.dst x.src nd ns (t.round x.rm) x.sat (ns.operand (s.core s.cur.core).lut (t.rg x.a).toNat)) :
    exec (.fcvt x) s = .next (s.setCur ((t.wg x.d (nd.toReg r.1)).orFlags r.2)) := by
  refine (guarded_true hr.1 hr.2 _).trans ?_
  simp only [hd, hs, hc]

theorem execFcvt_of_none {s : State} {t : Thread} {x : FpV} (hr : Runs s t x.g) (hn : numFmt t.rf x.dst = none ∨ numFmt t.rf x.src = none) :
    exec (.fcvt x) s = trapAt s 0x1E 0 0 := by
  refine (guarded_true hr.1 hr.2 _).trans ?_
  obtain hn | hn := hn
  · simp only [hn]
    rfl
  · simp only [hn]
    cases numFmt t.rf x.dst <;> rfl

/-- A result with its flags is the thread of the statement. -/
theorem orFlags_wg_eq_floated (t : Thread) (d : GReg) (r : Nat × Fl) : (t.wg d (BitVec.ofNat 64 r.1)).orFlags r.2 = floated t d r := by
  simp only [Thread.orFlags, floated, Thread.wg_rctl]

theorem setF_eq_floated {s : State} {t : Thread} {g : Guard} (d : GReg) (r : Thread → Nat × Fl) (hr : Runs s t g) :
    setF g d s r = .next (s.setCur (floated t d (r t))) := by
  rw [setF_eq d r hr.1 hr.2, orFlags_wg_eq_floated]

/-- A result without flags leaves RCTL. -/
theorem setF_eq_of_no_flags {s : State} {t : Thread} {g : Guard} (d : GReg) (r : Thread → Nat) (hr : Runs s t g) :
    setF g d s (fun t => (r t, 0)) = .next (s.setCur (t.wg d (BitVec.ofNat 64 (r t)))) := by
  rw [setF_eq d _ hr.1 hr.2, Thread.orFlags_zero]

theorem scalarFloatResults : ScalarFloatResults :=
  ⟨fun x _ _ hr => ⟨setF_eq_floated x.d _ hr, setF_eq_floated x.d _ hr, setF_eq_floated x.d _ hr⟩,
    fun x _ _ hr => ⟨setF_eq_of_no_flags x.d _ hr, setF_eq_of_no_flags x.d _ hr⟩,
    fun x _ _ hr => ⟨setF_eq_of_no_flags x.d _ hr, setF_eq_of_no_flags x.d _ hr⟩,
    fun x _ _ hr => setF_eq_floated x.d _ hr,
    fun x _ _ hr => setF_eq_floated x.d _ hr,
    fun x _ _ hr => setP_eq x.d _ hr.1 hr.2⟩

theorem scalarClassAndConvert : ScalarClassAndConvert := by
  refine ⟨fun x s t f hr hn => ⟨_, f.fclass_le _, execFclass_of_flt hr hn⟩, fun x s t nd ns hr hd hs => ⟨_, rfl, ?_⟩,
    fun x s t hr hn => execFcvt_of_none hr hn, fun x s t hr hn => execFclass_of_none hr hn⟩
  rw [execFcvt_of_some hr hd hs rfl]
  simp only [Thread.orFlags, Thread.wg_rctl]

/-- Settles O4. -/
theorem scalarFloatingPoint : Obligations.ScalarFloatingPoint := by
  unfold Obligations.ScalarFloatingPoint
  exact ⟨scalarFloatResults, scalarClassAndConvert⟩

end Sys2Proof.Machine

end

/-! ## Proofs: the lanes of a vector register (R216, R217) -/

section

namespace Sys2Proof.Machine

open Sys2Proof.Claims

/-! ### Lanes -/

theorem lane_lt_512 {w k : Nat} (hk : k < 512 / w) : w * k + w ≤ 512 := by
  have hw : 0 < w := Nat.pos_of_ne_zero fun h => by simp [h] at hk
  have hmul := (Nat.le_div_iff_mul_le hw).mp (Nat.succ_le_of_lt hk)
  rwa [Nat.succ_mul, Nat.mul_comm] at hmul

/-- The number of a list of lanes holds the lane k at its place. -/
theorem foldr_lanes_div_mod (w k : Nat) (l : List Nat) :
    l.foldr (fun x acc => x % 2 ^ w + 2 ^ w * acc) 0 / 2 ^ (w * k) % 2 ^ w = l.getD k 0 % 2 ^ w := by
  induction l generalizing k with
  | nil => simp
  | cons x l ih =>
    rw [List.foldr_cons]
    cases k with
    | zero => rw [Nat.mul_zero, pow_zero, Nat.div_one, Nat.add_mul_mod_self_left, Nat.mod_mod, List.getD_cons_zero]
    | succ k =>
      have hlow : x % 2 ^ w / 2 ^ w = 0 := Nat.div_eq_of_lt (Nat.mod_lt _ (by positivity))
      rw [Nat.mul_succ, Nat.add_comm (w * k), pow_add, ← Nat.div_div_eq_div_mul, Nat.add_mul_div_left _ _ (by positivity), hlow, Nat.zero_add, ih,
        List.getD_cons_succ]

/-- What a register made of lanes holds in each. -/
theorem lane_ofLanes {w k : Nat} (hk : k < 512 / w) (l : List Nat) : lane w (ofLanes w l) k = l.getD k 0 % 2 ^ w := by
  rw [← foldr_lanes_div_mod, lane, ofLanes, BitVec.extractLsb'_toNat, BitVec.toNat_ofNat, Nat.shiftRight_eq_div_pow]
  generalize l.foldr (fun x acc => x % 2 ^ w + 2 ^ w * acc) 0 = n
  have hsplit : 512 = w * k + (512 - w * k) := by have := lane_lt_512 hk; omega
  rw [hsplit, pow_add, Nat.mod_mul_right_div_self, Nat.mod_mod_of_dvd]
  exact pow_dvd_pow 2 (by have := lane_lt_512 hk; omega)

theorem lane_ofLanes_range {w k : Nat} (hk : k < 512 / w) (f : Nat → Nat) : lane w (ofLanes w ((List.range (512 / w)).map f)) k = f k % 2 ^ w := by
  rw [lane_ofLanes hk, List.getD_eq_getElem _ _ (by simpa using hk)]
  simp

theorem lane_lt (w : Nat) (v : V512) (k : Nat) : lane w v k < 2 ^ w := BitVec.isLt _

theorem lane_mod (w : Nat) (v : V512) (k : Nat) : lane w v k % 2 ^ w = lane w v k := Nat.mod_eq_of_lt (lane_lt w v k)

@[simp] theorem lane_zero (w k : Nat) : lane w 0 k = 0 := by
  simp [lane]

@[simp] theorem lanes_length (w : Nat) (v : V512) : (lanes w v).length = 512 / w := by
  simp [lanes]

theorem lanes_getD {w k : Nat} (hk : k < 512 / w) (v : V512) : (lanes w v).getD k 0 = lane w v k := by
  rw [List.getD_eq_getElem _ _ (by simpa using hk)]
  simp [lanes]

/-! ### Results of lanes -/

theorem laneRes_fst (w : Nat) (l : List (Nat × Fl)) : (laneRes w l).1 = ofLanes w (l.map (·.1)) := rfl

theorem getLsbD_foldl_or (l : List (Nat × Fl)) (f : Fl) (b : Nat) :
    (l.foldl (fun f x => f ||| x.2) f).getLsbD b = true ↔ f.getLsbD b = true ∨ ∃ x ∈ l, x.2.getLsbD b = true := by
  induction l generalizing f with
  | nil => simp
  | cons x l ih => rw [List.foldl_cons, ih, BitVec.getLsbD_or, Bool.or_eq_true, or_assoc, List.exists_mem_cons_iff]

/-- The flags of lane results are those of some lane. -/
theorem getLsbD_laneRes_snd (w : Nat) (l : List (Nat × Fl)) (b : Nat) :
    (laneRes w l).2.getLsbD b = true ↔ ∃ x ∈ l, x.2.getLsbD b = true := by
  rw [laneRes, getLsbD_foldl_or]
  simp

/-- Results without flags. -/
theorem laneRes_no_flags (w n : Nat) (f : Nat → Nat) :
    laneRes w ((List.range n).map fun i => (f i, 0)) = (ofLanes w ((List.range n).map f), 0) := by
  refine Prod.ext ?_ (BitVec.eq_of_getLsbD_eq fun b _ => ?_)
  · rw [laneRes_fst, List.map_map]
    rfl
  · rw [Bool.eq_iff_iff, getLsbD_laneRes_snd]
    simp

/-- The meanings that act lane by lane: vD and RCTL take the results and the flags of all lanes. -/
def laneResults (w : Nat) (f : Nat → Nat × Fl) : V512 × Fl := laneRes w ((List.range (512 / w)).map f)

theorem lane_laneResults {w k : Nat} (hk : k < 512 / w) (f : Nat → Nat × Fl) : lane w (laneResults w f).1 k = (f k).1 % 2 ^ w := by
  rw [laneResults, laneRes_fst, List.map_map, lane_ofLanes_range hk]
  rfl

theorem getLsbD_laneResults_snd (w : Nat) (f : Nat → Nat × Fl) (b : Nat) :
    (laneResults w f).2.getLsbD b = true ↔ ∃ k < 512 / w, (f k).2.getLsbD b = true := by
  rw [laneResults, getLsbD_laneRes_snd]
  simp

theorem laneResults_lanes (w : Nat) (v : V512) (f : Nat → Nat × Fl) : laneRes w ((lanes w v).map f) = laneResults w fun i => f (lane w v i) := by
  rw [laneResults, lanes, List.map_map]
  rfl

/-- A vector result with its flags. -/
theorem setV_of_runs {s : State} {t : Thread} {g : Guard} (d : VReg) (r : Thread → V512 × Fl) (hr : Runs s t g) :
    setV g d s r = .next (s.setCur { t.wv d (r t).1 with rctl := t.rctl ||| ((r t).2.setWidth 64 <<< 16) }) :=
  setV_eq d r hr.1 hr.2

/-! ### The lanewise instructions (R218 to R221, R227) -/

theorem LaneOp.all_eq (op : LaneOp) (ty : ElemType) (rm : Round) (sat uns : Bool) (a b c : V512) : op.all ty rm sat uns a b c =
    laneResults (laneW ty) fun i => op.one ty rm sat uns (lane (laneW ty) a i) (lane (laneW ty) b i) (lane (laneW ty) c i) := rfl

section

variable {s : State} {t : Thread}

/-- The state after the lane results f of width w in vD. -/
def lanesWritten (s : State) (t : Thread) (w : Nat) (d : VReg) (f : Nat → Nat × Fl) : State :=
  s.setCur { t.wv d (laneResults w f).1 with rctl := t.rctl ||| ((laneResults w f).2.setWidth 64 <<< 16) }

theorem setV_of_lanes {g : Guard} {w : Nat} {d : VReg} {f : Nat → Nat × Fl} {r : Thread → V512 × Fl} (hr : Runs s t g) (h : r t = laneResults w f) :
    setV g d s r = .next (lanesWritten s t w d f) := by
  rw [setV_of_runs d r hr, h, lanesWritten]

theorem vAddSub_of_runs (op : LaneOp) {x : VAddV} (hr : Runs s t x.g) : vAddSub op x s = .next (lanesWritten s t (laneW x.ty) x.d fun i =>
    op.one x.ty (t.round x.rm) x.sat x.uns (lane (laneW x.ty) (t.rv x.a) i) (lane (laneW x.ty) (t.rv x.b) i) 0) :=
  setV_of_lanes hr (by simp only [LaneOp.all_eq, lane_zero])

theorem execVmul_of_runs {x : VMulV} (hr : Runs s t x.g) : execVmul x s = .next (lanesWritten s t (laneW x.ty) x.d fun i =>
    LaneOp.mul.one x.ty (t.round x.rm) false false (lane (laneW x.ty) (t.rv x.a) i) (lane (laneW x.ty) (t.rv x.b) i) 0) :=
  setV_of_lanes hr (by simp only [LaneOp.all_eq, lane_zero])

theorem vFma_of_runs (op : LaneOp) {x : VFmaV} (hr : Runs s t x.g) : vFma op x s = .next (lanesWritten s t (laneW x.ty) x.d fun i =>
    op.one x.ty (t.round x.rm) false false (lane (laneW x.ty) (t.rv x.a) i) (lane (laneW x.ty) (t.rv x.b) i) (lane (laneW x.ty) (t.rv x.c) i)) :=
  setV_of_lanes hr rfl

theorem vNegAbs_of_runs (op : LaneOp) {x : VNegV} (hr : Runs s t x.g) : vNegAbs op x s = .next (lanesWritten s t (laneW x.ty) x.d fun i =>
    op.one x.ty .rne x.sat false (lane (laneW x.ty) (t.rv x.a) i) 0 0) :=
  setV_of_lanes hr (by simp only [LaneOp.all_eq, lane_zero])

theorem vMinMax_of_runs (op : LaneOp) {x : VMinV} (hr : Runs s t x.g) : vMinMax op x s = .next (lanesWritten s t (laneW x.ty) x.d fun i =>
    op.one x.ty .rne false x.uns (lane (laneW x.ty) (t.rv x.a) i) (lane (laneW x.ty) (t.rv x.b) i) 0) :=
  setV_of_lanes hr (by simp only [LaneOp.all_eq, lane_zero])

theorem vShift_of_runs (op : Nat → Nat → Nat → Nat) {x : VShV} (hr : Runs s t x.g) : vShift op x s = .next (lanesWritten s t (laneW x.ty) x.d fun i =>
    (op (laneW x.ty) (lane (laneW x.ty) (t.rv x.a) i) (VCount.at x.cnt t (laneW x.ty) i), 0)) :=
  setV_of_lanes hr (by simp only [laneResults, laneRes_no_flags])

theorem execVcmp_of_runs {x : VCmpV} (hr : Runs s t x.g) : execVcmp x s = .next (lanesWritten s t (laneW x.ty) x.d fun i =>
    (if vcond x.c x.ty (lane (laneW x.ty) (t.rv x.a) i) (lane (laneW x.ty) (t.rv x.b) i) then 2 ^ laneW x.ty - 1 else 0, 0)) :=
  setV_of_lanes hr (by simp only [laneResults, laneRes_no_flags])

theorem vFun_of_runs (fn : SpFn) {g : Guard} (ty : ElemType) (rm : Rm) (d a : VReg) (hr : Runs s t g) :
    vFun fn g ty rm d a s = .next (lanesWritten s t (laneW ty) d fun i => (ffmt ty).special fn (t.round rm) (lane (laneW ty) (t.rv a) i)) :=
  setV_of_lanes hr (laneResults_lanes ..)

theorem execVdot_of_runs {x : VDotV} (hr : Runs s t x.g) : execVdot x s = .next (lanesWritten s t 32 x.d fun i =>
    dotLane x.acc x.src (t.round x.rm) x.sat (s.core s.cur.core).lut (lane 32 (t.rv x.d) i) ((List.range (32 / dotW x.src)).map fun j =>
      (lane (dotW x.src) (t.rv x.a) (32 / dotW x.src * i + j), lane (dotW x.src) (t.rv x.b) (32 / dotW x.src * i + j)))) :=
  setV_of_lanes hr rfl

end

/-- Each instruction that acts on its lanes one by one writes the results of its lanes, with their flags. -/
theorem exec_of_lanewise {i : Instr} {s : State} {t : Thread} {g : Guard} {w : Nat} {d : VReg} {f : Nat → Nat × Fl}
    (hi : lanewise s t i = some (g, w, d, f)) (hr : Runs s t g) : exec i s = .next (lanesWritten s t w d f) := by
  cases i with
  | vadd x | vsub x => cases hi; exact vAddSub_of_runs _ hr
  | vmul x => cases hi; exact execVmul_of_runs hr
  | vneg x | vabs x => cases hi; exact vNegAbs_of_runs _ hr
  | vmin x | vmax x => cases hi; exact vMinMax_of_runs _ hr
  | vfma x | vfms x => cases hi; exact vFma_of_runs _ hr
  | vshl x => cases hi; exact vShift_of_runs (fun _ a c => a * 2 ^ c) hr
  | vshr x => cases hi; exact vShift_of_runs (fun _ a c => a / 2 ^ c) hr
  | vsra x =>
    cases hi
    exact (vShift_of_runs (fun w a c => wrapN w (sextN w a / (2 ^ c : Nat))) hr).trans (by simp only [Nat.cast_pow, Nat.cast_ofNat])
  | vcmp x => cases hi; exact execVcmp_of_runs hr
  | vrcp x | vrsq x | vsqrt x | vexp2 x | vlog2 x | vsinp x | vtanh x => cases hi; exact vFun_of_runs _ x.ty _ x.d x.a hr
  | vdot x => cases hi; exact execVdot_of_runs hr
  | _ => cases hi

/-- Settles O7. -/
theorem vectorLanewise : Obligations.VectorLanewise := by
  unfold Obligations.VectorLanewise
  intro i s t g w d f hi hr
  exact ⟨_, _, exec_of_lanewise hi hr, fun k hk => lane_laneResults hk f, fun b _ => getLsbD_laneResults_snd w f b⟩

end Sys2Proof.Machine

end

/-! ## Proofs: bitwise vector instructions and lane movements (R219, R224) -/

section

namespace Sys2Proof.Machine

open Sys2Proof.Claims

/-! ### Lane widths -/

theorem NumFmt.lane_cases (n : NumFmt) : n.lane = 4 ∨ n.lane = 8 ∨ n.lane = 16 ∨ n.lane = 32 ∨ n.lane = 64 := by
  unfold NumFmt.lane
  dsimp only
  split_ifs <;> simp

theorem NumFmt.lane_pos (n : NumFmt) : 0 < n.lane := by
  have := n.lane_cases
  omega

theorem NumFmt.lane_dvd (n : NumFmt) : n.lane ∣ 512 := by
  obtain h | h | h | h | h := n.lane_cases <;> rw [h] <;> decide

theorem NumFmt.lanes_pos (n : NumFmt) : 0 < 512 / n.lane := Nat.div_pos (Nat.le_of_dvd (by decide) n.lane_dvd) n.lane_pos

/-! ### Bits (R219) -/

section

variable {s : State} {t : Thread} {g : Guard}

/-- A vector result without flags leaves RCTL. -/
theorem setV_of_no_flags (d : VReg) (v : Thread → V512) (hr : Runs s t g) : setV g d s (fun t => (v t, 0)) = .next (s.setCur (t.wv d (v t))) := by
  rw [setV_eq d _ hr.1 hr.2, Thread.orFlags_zero]

end

/-- A selection by a mask takes each bit from one of the two. -/
theorem getLsbD_select (a b c : V512) (j : Nat) (hj : j < 512) :
    ((a &&& c) ||| (b &&& ~~~c)).getLsbD j = if c.getLsbD j then a.getLsbD j else b.getLsbD j := by
  simp only [BitVec.getLsbD_or, BitVec.getLsbD_and, BitVec.getLsbD_not, hj, decide_true, Bool.true_and]
  cases c.getLsbD j <;> simp

theorem vectorBitwise : VectorBitwise :=
  ⟨fun x _ _ hr => ⟨setV_of_no_flags x.d _ hr, setV_of_no_flags x.d _ hr, setV_of_no_flags x.d _ hr⟩,
    fun x _ _ hr => ⟨_, setV_of_no_flags x.d _ hr, fun j hj => getLsbD_select _ _ _ j hj⟩,
    fun x _ _ hr => setV_of_no_flags x.d _ hr⟩

/-! ### Lane movements (R224) -/

section

variable {s : State} {t : Thread}

theorem withLane_of_some {g : Guard} {ty : ElemType} {n : NumFmt} (hr : Runs s t g) (hn : numFmt t.rf ty = some n) (f : Thread → Nat → Out) :
    withLane g ty s f = f t n.lane := by
  refine (guarded_true hr.1 hr.2 _).trans ?_
  simp only [hn]

theorem withLane_of_none {g : Guard} {ty : ElemType} (hr : Runs s t g) (hn : numFmt t.rf ty = none) (f : Thread → Nat → Out) :
    withLane g ty s f = trapAt s 0x1E 0 0 := by
  refine (guarded_true hr.1 hr.2 _).trans ?_
  simp only [hn]
  rfl

/-- The table of VPERM: the lanes of the first source, and those of the second if it has one. -/
def permTab (w : Nat) (t : Thread) (x : VPermV) : List Nat := lanes w (t.rv x.a) ++ (match x.c with | some c => lanes w (t.rv c) | none => [])

theorem execVperm_of_some {x : VPermV} {n : NumFmt} (hr : Runs s t x.g) (hn : numFmt t.rf x.ty = some n) (h4 : n.lane ≠ 4) :
    exec (.vperm x) s = .next (s.setCur (t.wv x.d (ofLanes n.lane ((List.range (512 / n.lane)).map fun i =>
      (permTab n.lane t x).getD (lane n.lane (t.rv x.b) i % (permTab n.lane t x).length) 0)))) := by
  change execVperm x s = _
  rw [execVperm, withLane_of_some hr hn]
  exact if_neg h4

/-- What the table answers for an index, with one register and with two. -/
theorem permTab_getD {w : Nat} (hw : 0 < 512 / w) (t : Thread) (x : VPermV) (i : Nat) : (permTab w t x).getD (i % (permTab w t x).length) 0 =
    match x.c with
    | none => lane w (t.rv x.a) (i % (512 / w))
    | some c => let j := i % (2 * (512 / w)); if j < 512 / w then lane w (t.rv x.a) j else lane w (t.rv c) (j - 512 / w) := by
  unfold permTab
  cases x.c with
  | none =>
    simp only [List.append_nil, lanes_length]
    exact lanes_getD (Nat.mod_lt _ hw) _
  | some c =>
    simp only [List.length_append, lanes_length, ← two_mul]
    split
    case isTrue hlt => rw [List.getD_append _ _ _ _ (by simpa using hlt), lanes_getD hlt]
    case isFalse hge =>
      have hlt : i % (2 * (512 / w)) - 512 / w < 512 / w := by
        have := Nat.mod_lt i (show 0 < 2 * (512 / w) by omega)
        omega
      rw [List.getD_append_right _ _ _ _ (by simpa using hge), lanes_length, lanes_getD hlt]

theorem execVbcast_of_some {x : VBcastV} {n : NumFmt} (hr : Runs s t x.g) (hn : numFmt t.rf x.ty = some n) (hk : x.k.toNat < 512 / n.lane) :
    exec (.vbcast x) s = .next (s.setCur (t.wv x.d (ofLanes n.lane (List.replicate (512 / n.lane) (lane n.lane (t.rv x.a) x.k.toNat))))) := by
  change execVbcast x s = _
  rw [execVbcast, withLane_of_some hr hn]
  exact if_neg hk.not_ge

theorem execVins_of_some {x : VInsV} {n : NumFmt} (hr : Runs s t x.g) (hn : numFmt t.rf x.ty = some n) (hk : x.k.toNat < 512 / n.lane) :
    exec (.vins x) s = .next (s.setCur (t.wv x.d (ofLanes n.lane ((List.range (512 / n.lane)).map fun i =>
      if i = x.k.toNat then (t.rg x.a).toNat else lane n.lane (t.rv x.d) i)))) := by
  change execVins x s = _
  rw [execVins, withLane_of_some hr hn]
  exact if_neg hk.not_ge

theorem execVext_of_some {x : VExtV} {n : NumFmt} (hr : Runs s t x.g) (hn : numFmt t.rf x.ty = some n) (hk : x.k.toNat < 512 / n.lane) :
    exec (.vext x) s = .next (s.setCur (t.wg x.d (if x.ty.isI || x.ty = .i4 then BitVec.ofInt 64 (sextN n.lane (lane n.lane (t.rv x.a) x.k.toNat))
      else BitVec.ofNat 64 (lane n.lane (t.rv x.a) x.k.toNat)))) := by
  change execVext x s = _
  rw [execVext, withLane_of_some hr hn]
  exact if_neg hk.not_ge

theorem execVsplat_of_some {x : VSplatV} {n : NumFmt} (hr : Runs s t x.g) (hn : numFmt t.rf x.ty = some n) :
    exec (.vsplat x) s = .next (s.setCur (t.wv x.d (ofLanes n.lane (List.replicate (512 / n.lane) (t.rg x.a).toNat)))) := by
  change execVsplat x s = _
  rw [execVsplat, withLane_of_some hr hn]

end

theorem lane_ofLanes_replicate {w k : Nat} (hk : k < 512 / w) (c : Nat) : lane w (ofLanes w (List.replicate (512 / w) c)) k = c % 2 ^ w := by
  rw [lane_ofLanes hk, List.getD_eq_getElem _ _ (by simpa using hk), List.getElem_replicate]

/-- The signed reading of a code is its cut to the width. -/
theorem sextN_eq_bmod {w : Nat} (hw : 0 < w) (c : Nat) : sextN w c = Int.bmod c (2 ^ w) := by
  have hhalf : 2 ^ w = 2 * 2 ^ (w - 1) := by rw [← pow_succ', Nat.sub_add_cancel hw]
  have hmod : ((c : Int) % (2 ^ w : Nat)) = ((c % 2 ^ w : Nat) : Int) := (Int.natCast_mod ..).symm
  rw [sextN, Int.bmod_def, hmod]
  split_ifs <;> omega

theorem ofInt_sextN {w : Nat} (hw : 0 < w) (c : Nat) : BitVec.ofInt 64 (sextN w c) = cut w c := by
  rw [sextN_eq_bmod hw, cut]

theorem vectorMoves : VectorMoves := by
  refine ⟨fun x s t n hr hn h4 => ⟨_, execVperm_of_some hr hn h4, fun k hk => ?_⟩, fun x s t n hr hn hx => ⟨_, execVbcast_of_some hr hn hx,
    fun k hk => ?_⟩,
    fun x s t n hr hn hx => ⟨_, execVins_of_some hr hn hx, fun k hk => ?_⟩, fun x s t n hr hn hx => ?_,
    fun x s t n hr hn => ⟨_, execVsplat_of_some hr hn, fun k hk => lane_ofLanes_replicate hk _⟩⟩
  · rw [lane_ofLanes_range hk, permTab_getD n.lanes_pos]
    cases x.c with
    | none => exact lane_mod ..
    | some c =>
      dsimp only
      split <;> exact lane_mod ..
  · rw [lane_ofLanes_replicate hk, lane_mod]
  · rw [lane_ofLanes_range hk]
    split
    · rfl
    · exact lane_mod ..
  · rw [execVext_of_some hr hn hx, ofInt_sextN n.lane_pos]

/-- Settles O8. -/
theorem vectorBitwiseAndMoves : Obligations.VectorBitwiseAndMoves := by
  unfold Obligations.VectorBitwiseAndMoves
  exact ⟨vectorBitwise, vectorMoves⟩

end Sys2Proof.Machine

end

/-! ## Proofs: reductions, scans and conversions (R220, R225, R226) -/

section

namespace Sys2Proof.Machine

open Sys2Proof.Claims

theorem laneW_cases (ty : ElemType) : laneW ty = 8 ∨ laneW ty = 16 ∨ laneW ty = 32 ∨ laneW ty = 64 := by
  cases ty with
  | fmt n => exact .inr (.inr (.inr rfl))
  | _ => decide

theorem lanesW_pos (ty : ElemType) : 0 < 512 / laneW ty := by
  obtain h | h | h | h := laneW_cases ty <;> rw [h] <;> decide

/-! ### Reductions (R225) -/

/-- A register made of one lane is zero elsewhere. -/
theorem lane_ofLanes_singleton {w k : Nat} (hk : k < 512 / w) (hk0 : k ≠ 0) (c : Nat) : lane w (ofLanes w [c]) k = 0 := by
  rw [lane_ofLanes hk, List.getD_eq_default _ _ (Nat.pos_of_ne_zero hk0), Nat.zero_mod]

theorem execVred_of_runs {s : State} {t : Thread} {x : VRedV} {r : Nat × Fl} (hr : Runs s t x.g)
    (h : r = redTree (redStep x.op x.ty (t.round x.rm) x.uns) 7 (lanes (laneW x.ty) (t.rv x.a)) 0) :
    exec (.vred x) s = .next (s.setCur { t.wv x.d (ofLanes (laneW x.ty) [r.1]) with rctl := t.rctl ||| (r.2.setWidth 64 <<< 16) }) := by
  change execVred x s = _
  rw [execVred, setV_of_runs _ _ hr, h]

/-! ### Scans (R226) -/

/-- The running reduction of lanes. -/
def scanLane (f : Nat → Nat → Nat × Fl) (src : Nat → Nat) : Nat → Nat × Fl
  | 0 => (src 0, 0)
  | k + 1 => f (scanLane f src k).1 (src (k + 1))

theorem scanList_eq (f : Nat → Nat → Nat × Fl) (src : Nat → Nat) (m n : Nat) :
    scanList f (scanLane f src n).1 ((List.range m).map fun i => src (n + 1 + i)) = (List.range m).map fun i => scanLane f src (n + 1 + i) := by
  induction m generalizing n with
  | zero => rfl
  | succ m ih =>
    have hnext := ih (n + 1)
    simp only [show ∀ i, n + 1 + 1 + i = n + 1 + (i + 1) by omega] at hnext
    simp only [List.range_succ_eq_map, List.map_cons, List.map_map, scanList, Function.comp_def, Nat.succ_eq_add_one]
    exact congrArg₂ List.cons rfl hnext

theorem scan_lanes {w : Nat} (hw : 0 < 512 / w) (f : Nat → Nat → Nat × Fl) (v : V512) : (match lanes w v with
    | [] => (0, 0)
    | y :: l => laneRes w ((y, 0) :: scanList f y l)) = laneResults w (scanLane f (lane w v)) := by
  obtain ⟨m, hm⟩ := Nat.exists_eq_succ_of_ne_zero hw.ne'
  have hscan := scanList_eq f (lane w v) m 0
  simp only [Nat.zero_add, Nat.add_comm 1] at hscan
  simp only [lanes, laneResults, hm, Nat.succ_eq_add_one, List.range_succ_eq_map, List.map_cons, List.map_map, Function.comp_def]
  exact congrArg (fun l => laneRes w ((lane w v 0, 0) :: l)) hscan

theorem execVscan_of_runs {s : State} {t : Thread} {x : VRedV} (hr : Runs s t x.g) : exec (.vscan x) s =
    .next (lanesWritten s t (laneW x.ty) x.d (scanLane (redStep x.op x.ty (t.round x.rm) x.uns) (lane (laneW x.ty) (t.rv x.a)))) := by
  change execVscan x s = _
  exact setV_of_lanes hr (scan_lanes (lanesW_pos x.ty) _ _)

/-! ### Conversions (R220) -/

/-- Lane widths are powers of two. -/
theorem NumFmt.lane_eq_two_pow (n : NumFmt) : ∃ j ≤ 9, n.lane = 2 ^ j := by
  obtain h | h | h | h | h := n.lane_cases
  · exact ⟨2, by decide, h⟩
  · exact ⟨3, by decide, h⟩
  · exact ⟨4, by decide, h⟩
  · exact ⟨5, by decide, h⟩
  · exact ⟨6, by decide, h⟩

/-- The lanes of a wider format are fewer by the quotient of the widths. -/
theorem NumFmt.lanes_div (a b : NumFmt) (h : a.lane ≤ b.lane) : 512 / b.lane ≤ 512 / a.lane ∧ 512 / a.lane / (512 / b.lane) = b.lane / a.lane := by
  obtain ⟨i, hi, ha⟩ := a.lane_eq_two_pow
  obtain ⟨j, hj, hb⟩ := b.lane_eq_two_pow
  rw [ha, hb] at h ⊢
  have hij : i ≤ j := (Nat.pow_le_pow_iff_right (by decide)).mp h
  have hdiv : ∀ k ≤ 9, 512 / 2 ^ k = 2 ^ (9 - k) := fun k hk => Nat.pow_div (x := 2) (m := 9) hk (by decide)
  rw [hdiv i hi, hdiv j hj, Nat.pow_div (by omega) (by decide), Nat.pow_div hij (by decide)]
  exact ⟨Nat.pow_le_pow_right (by decide) (by omega), by congr 1; omega⟩

section

variable {s : State} {t : Thread} {x : VCvtV} {fd fs : NumFmt}

/-- The conversion of a code under the modifiers of an instruction. -/
def vcvtCode (s : State) (t : Thread) (x : VCvtV) (fd fs : NumFmt) (c : Nat) : Nat × Fl :=
  convert x.dst x.src fd fs (t.round x.rm) x.sat (fs.operand (s.core s.cur.core).lut c)

/-- The lanes that a conversion leaves. -/
def vcvtLanes (s : State) (t : Thread) (x : VCvtV) (fd fs : NumFmt) : List (Nat × Fl) :=
  cvtLanes (512 / fd.lane) (512 / fs.lane) x.k.toNat (vcvtCode s t x fd fs) (lane fs.lane (t.rv x.a)) (lane fd.lane (t.rv x.d))

theorem execVcvt_of_some (hr : Runs s t x.g) (hd : numFmt t.rf x.dst = some fd) (hs : numFmt t.rf x.src = some fs)
    (hk : x.k.toNat < max (512 / fd.lane) (512 / fs.lane) / min (512 / fd.lane) (512 / fs.lane)) :
    exec (.vcvt x) s = .next (s.setCur ((t.wv x.d (laneRes fd.lane (vcvtLanes s t x fd fs)).1).orFlags (laneRes fd.lane (vcvtLanes s t x fd fs)).2)) := by
  refine (guarded_true hr.1 hr.2 _).trans ?_
  simp only [hd, hs, if_neg hk.not_ge]
  rfl

theorem execVcvt_of_none (hr : Runs s t x.g) (hn : numFmt t.rf x.dst = none ∨ numFmt t.rf x.src = none) : exec (.vcvt x) s = trapAt s 0x1E 0 0 := by
  refine (guarded_true hr.1 hr.2 _).trans ?_
  obtain hn | hn := hn
  · simp only [hn]
    rfl
  · simp only [hn]
    cases numFmt t.rf x.dst <;> rfl

theorem laneRes_vcvtLanes_widening (h : fs.lane ≤ fd.lane) : laneRes fd.lane (vcvtLanes s t x fd fs) = laneResults fd.lane fun i =>
    vcvtCode s t x fd fs (lane fs.lane (t.rv x.a) (x.k.toNat * (512 / fd.lane) + i)) := by
  rw [vcvtLanes, cvtLanes, if_pos (fs.lanes_div fd h).1]
  rfl

theorem laneRes_vcvtLanes_narrowing (h : 512 / fs.lane < 512 / fd.lane) : laneRes fd.lane (vcvtLanes s t x fd fs) = laneResults fd.lane fun i =>
    if x.k.toNat * (512 / fs.lane) ≤ i ∧ i < (x.k.toNat + 1) * (512 / fs.lane) then
      vcvtCode s t x fd fs (lane fs.lane (t.rv x.a) (i - x.k.toNat * (512 / fs.lane)))
    else (lane fd.lane (t.rv x.d) i, 0) := by
  rw [vcvtLanes, cvtLanes, if_neg h.not_ge]
  simp only [Bool.and_eq_true, decide_eq_true_eq, Nat.succ_mul, laneResults]

end

/-- A narrower lane has more than a wider one. -/
theorem NumFmt.lanes_lt (a b : NumFmt) (h : a.lane < b.lane) : 512 / b.lane < 512 / a.lane := by
  obtain ⟨hle, hdiv⟩ := a.lanes_div b h.le
  refine lt_of_le_of_ne hle fun heq => ?_
  rw [heq, Nat.div_self a.lanes_pos] at hdiv
  obtain ⟨i, _, ha⟩ := a.lane_eq_two_pow
  obtain ⟨j, _, hb⟩ := b.lane_eq_two_pow
  have hij : i < j := (Nat.pow_lt_pow_iff_right (by decide : 1 < 2)).mp (ha ▸ hb ▸ h)
  rw [ha, hb, Nat.pow_div hij.le (by decide)] at hdiv
  exact (Nat.one_lt_two_pow (by omega : j - i ≠ 0)).ne hdiv

/-- Settles O9. -/
theorem vectorReductions : Obligations.VectorReductions := by
  unfold Obligations.VectorReductions
  refine ⟨fun x s t hr => ⟨_, execVred_of_runs hr rfl, lane_ofLanes (lanesW_pos x.ty) _, fun k hk hk0 => lane_ofLanes_singleton hk hk0 _⟩,
    fun x s t hr => ⟨_, _, _, execVscan_of_runs hr, rfl, fun _ _ => rfl, fun k hk => lane_laneResults hk _, fun b _ => getLsbD_laneResults_snd _ _ b⟩,
    fun x s t fd fs hr hd hs => ⟨fun hle hk => ⟨_, _, execVcvt_of_some hr hd hs ?_, fun i hi => ?_⟩, fun hlt hk => ⟨_, _,
      execVcvt_of_some hr hd hs ?_, fun i hi => ?_⟩⟩,
    fun s t => ⟨fun x => execVcvt_of_none, fun x hr hn => ?_, fun x hr hn => ?_, fun x hr hn => ?_, fun x hr hn => ?_, fun x hr hn => ?_⟩⟩
  · obtain ⟨hle', hdiv⟩ := fs.lanes_div fd hle
    rwa [max_eq_right hle', min_eq_left hle', hdiv]
  · rw [laneRes_vcvtLanes_widening hle, lane_laneResults hi, vcvtCode]
  · obtain ⟨hle', hdiv⟩ := fd.lanes_div fs hlt.le
    rwa [max_eq_left hle', min_eq_right hle', hdiv]
  · rw [laneRes_vcvtLanes_narrowing (fd.lanes_lt fs hlt), lane_laneResults hi]
    split
    · rfl
    · exact lane_mod ..
  · change execVperm x s = _
    rw [execVperm, withLane_of_none hr hn]
  · change execVbcast x s = _
    rw [execVbcast, withLane_of_none hr hn]
  · change execVins x s = _
    rw [execVins, withLane_of_none hr hn]
  · change execVext x s = _
    rw [execVext, withLane_of_none hr hn]
  · change execVsplat x s = _
    rw [execVsplat, withLane_of_none hr hn]

end Sys2Proof.Machine

end

/-! ## Proofs: the frame of the register instructions -/

section

namespace Sys2Proof.Machine

open Sys2Proof.Claims

/-- A thread after a write to its one destination and to the sticky flags, the latter of a floating instruction only. -/
inductive Written (t : Thread) : Dest → Bool → Thread → Prop where
  | g (r : GReg) (v : Word) : Written t (.g r) false (t.wg r v)
  | gFlags (r : GReg) (v : Word) (f : Fl) : Written t (.g r) true ((t.wg r v).orFlags f)
  | p (r : Reg3) (b : Bool) : Written t (.p r) false (t.wp r b)
  | v (r : VReg) (v : V512) : Written t (.v r) false (t.wv r v)
  | vFlags (r : VReg) (v : V512) (f : Fl) : Written t (.v r) true ((t.wv r v).orFlags f)

/-- The outcome of an instruction that writes one destination: the state as it was, or with that write in the executing thread. -/
def WritesOnly (s : State) (t : Thread) (d : Dest) (fl : Bool) (o : Out) : Prop :=
  ∀ s', o = .next s' → s' = s ∨ ∃ t', Written t d fl t' ∧ s' = s.setCur t'

/-! ### The shared results -/

section

variable {s : State} {t : Thread} (ht : s.curT? = some t) (g : Guard)
include ht

theorem writesOnly_guarded {d : Dest} {fl : Bool} {f : Thread → Out} (hf : WritesOnly s t d fl (f t)) : WritesOnly s t d fl (guarded g s f) := by
  intro s' h
  obtain ⟨t₁, ht₁, ⟨_, rfl⟩ | ⟨_, h⟩⟩ := guarded_next h
  · exact .inl rfl
  · cases ht.symm.trans ht₁
    exact hf s' h

theorem writesOnly_setG (d : GReg) (r : Thread → Word) : WritesOnly s t (.g d) false (setG g d s r) :=
  writesOnly_guarded ht g fun _ h => .inr ⟨_, .g d _, (Host.Outcome.next.inj h).symm⟩

theorem writesOnly_setP (d : Reg3) (r : Thread → Bool) : WritesOnly s t (.p d) false (setP g d s r) :=
  writesOnly_guarded ht g fun _ h => .inr ⟨_, .p d _, (Host.Outcome.next.inj h).symm⟩

theorem writesOnly_setF (d : GReg) (r : Thread → Nat × Fl) : WritesOnly s t (.g d) true (setF g d s r) :=
  writesOnly_guarded ht g fun _ h => .inr ⟨_, .gFlags d _ _, (Host.Outcome.next.inj h).symm⟩

theorem writesOnly_setF_no_flags (d : GReg) (r : Thread → Nat) : WritesOnly s t (.g d) false (setF g d s fun t => (r t, 0)) :=
  writesOnly_guarded ht g fun _ h => .inr ⟨_, .g d (BitVec.ofNat 64 (r t)), by
    rw [← Thread.orFlags_zero (t.wg d _)]
    exact (Host.Outcome.next.inj h).symm⟩

theorem writesOnly_setV (d : VReg) (r : Thread → V512 × Fl) : WritesOnly s t (.v d) true (setV g d s r) :=
  writesOnly_guarded ht g fun _ h => .inr ⟨_, .vFlags d _ _, (Host.Outcome.next.inj h).symm⟩

theorem writesOnly_setV_no_flags (d : VReg) (r : Thread → V512) : WritesOnly s t (.v d) false (setV g d s fun t => (r t, 0)) :=
  writesOnly_guarded ht g fun _ h => .inr ⟨_, .v d (r t), by
    rw [← Thread.orFlags_zero (t.wv d _)]
    exact (Host.Outcome.next.inj h).symm⟩

theorem writesOnly_nop : WritesOnly s t .none false (guarded g s fun _ => .next s) :=
  writesOnly_guarded ht g fun _ h => .inl (Host.Outcome.next.inj h).symm

end

/-- Every register instruction writes its one destination. -/
theorem writesOnly_exec {i : Instr} {s : State} {t : Thread} {d : Dest} {fl : Bool} (hi : destOf i = some (d, fl)) (ht : s.curT? = some t) :
    WritesOnly s t d fl (exec i s) := by
  cases i with
  | add x | addImm x | sub x | subImm x | mul x | mulImm x | mulh x | mulhImm x | mulhu x | mulhuImm x | div x | divImm x | divu x | divuImm x
  | rem x | remImm x | remu x | remuImm x | min x | minImm x | max x | maxImm x | minu x | minuImm x | maxu x | maxuImm x | and x | andImm x
  | or x | orImm x | xor x | xorImm x | andn x | andnImm x | orn x | ornImm x | shl x | shlImm x | shr x | shrImm x | sra x | sraImm x | rol x
  | rolImm x | clz x | ctz x | popc x | brev x | sext x | zext x | bfx x | bfi x | sel x | mov x | li x | lea x | leaImm x | qcnt x
  | repstat x => cases hi; exact writesOnly_setG ht x.g x.d _
  | cmp x | cmpImm x | fcmp x | pand x | por x | pxor x | pnot x | pset x => cases hi; exact writesOnly_setP ht x.g x.d _
  | fadd x | fsub x | fmul x | ffma x | frnd x => cases hi; exact writesOnly_setF ht x.g x.d _
  | fmin x | fmax x | fabs x | fneg x => cases hi; exact writesOnly_setF_no_flags ht x.g x.d _
  | nop x => cases hi; exact writesOnly_nop ht x.g
  | vadd x | vsub x =>
    cases hi
    change WritesOnly s t _ _ (vAddSub _ x s)
    exact writesOnly_setV ht x.g x.d _
  | vmul x =>
    cases hi
    change WritesOnly s t _ _ (execVmul x s)
    exact writesOnly_setV ht x.g x.d _
  | vfma x | vfms x =>
    cases hi
    change WritesOnly s t _ _ (vFma _ x s)
    exact writesOnly_setV ht x.g x.d _
  | vneg x | vabs x =>
    cases hi
    change WritesOnly s t _ _ (vNegAbs _ x s)
    exact writesOnly_setV ht x.g x.d _
  | vmin x | vmax x =>
    cases hi
    change WritesOnly s t _ _ (vMinMax _ x s)
    exact writesOnly_setV ht x.g x.d _
  | vrcp x | vrsq x | vexp2 x | vlog2 x | vsinp x | vtanh x | vsqrt x =>
    cases hi
    change WritesOnly s t _ _ (vFun _ x.g x.ty _ x.d x.a s)
    exact writesOnly_setV ht x.g x.d _
  | vred x =>
    cases hi
    change WritesOnly s t _ _ (execVred x s)
    exact writesOnly_setV ht x.g x.d _
  | vscan x =>
    cases hi
    change WritesOnly s t _ _ (execVscan x s)
    exact writesOnly_setV ht x.g x.d _
  | vdot x =>
    cases hi
    change WritesOnly s t _ _ (execVdot x s)
    exact writesOnly_setV ht x.g x.d _
  | vand x | vor x | vxor x | vshl x | vshr x | vsra x | vcmp x | vsel x | vmov x => cases hi; exact writesOnly_setV_no_flags ht x.g x.d _
  | _ => cases hi

/-! ### What such a write keeps -/

/-- What the frame says of the executing thread before and after. -/
def ThreadFrame (t t' : Thread) (d : Dest) (fl : Bool) : Prop :=
  t' = { t with g := t'.g, p := t'.p, v := t'.v, rctl := t'.rctl } ∧
    (∀ r, d ≠ .g r → t'.rg r = t.rg r) ∧ (∀ r, d ≠ .p r → t'.rp r = t.rp r) ∧ (∀ r, d ≠ .v r → t'.rv r = t.rv r) ∧
    (∀ j, (fl = false ∨ j < 16 ∨ 21 ≤ j) → t'.rctl.getLsbD j = t.rctl.getLsbD j) ∧ (∀ j, t.rctl.getLsbD j = true → t'.rctl.getLsbD j = true)

theorem threadFrame_refl (t : Thread) (d : Dest) (fl : Bool) : ThreadFrame t t d fl :=
  ⟨rfl, fun _ _ => rfl, fun _ _ => rfl, fun _ _ => rfl, fun _ _ => rfl, fun _ h => h⟩

/-- The sticky flags of a floating result. -/
theorem ThreadFrame.orFlags {t t' : Thread} {d : Dest} (h : ThreadFrame t t' d false) (f : Fl) : ThreadFrame t (t'.orFlags f) d true := by
  obtain ⟨hrest, hg, hp, hv, hother, hmono⟩ := h
  refine ⟨?_, hg, hp, hv, fun j hj => ?_, fun j hj => Thread.orFlags_mono _ f j (hmono j hj)⟩
  · conv_lhs => rw [hrest]
    rfl
  · rw [Thread.orFlags_other _ _ _ (hj.resolve_left Bool.noConfusion), hother j (.inl rfl)]

theorem threadFrame_wg (t : Thread) (r : GReg) (v : Word) : ThreadFrame t (t.wg r v) (.g r) false := by
  refine ⟨?_, fun r' hr => ?_, fun _ _ => ?_, fun _ _ => ?_, fun _ _ => by rw [Thread.wg_rctl], fun j hj => by rwa [Thread.wg_rctl]⟩
  · unfold Thread.wg
    split <;> rfl
  · exact Thread.rg_wg_ne t (fun h => hr (by rw [h])) v
  · simp [Thread.rp]
  · simp [Thread.rv]

theorem threadFrame_wp (t : Thread) (r : Reg3) (b : Bool) : ThreadFrame t (t.wp r b) (.p r) false := by
  refine ⟨?_, fun _ _ => ?_, fun r' hr => ?_, fun _ _ => ?_, fun _ _ => by rw [Thread.wp_rctl], fun j hj => by rwa [Thread.wp_rctl]⟩
  · unfold Thread.wp
    split <;> rfl
  · simp [Thread.rg]
  · exact Thread.rp_wp_ne t (fun h => hr (by rw [h])) b
  · simp [Thread.rv]

theorem threadFrame_wv (t : Thread) (r : VReg) (v : V512) : ThreadFrame t (t.wv r v) (.v r) false := by
  refine ⟨rfl, fun _ _ => rfl, fun _ _ => rfl, fun r' hr => ?_, fun _ _ => rfl, fun _ hj => hj⟩
  rw [Thread.rv_wv, if_neg fun h => hr (by rw [h])]

theorem Written.frame {t t' : Thread} {d : Dest} {fl : Bool} (h : Written t d fl t') : ThreadFrame t t' d fl := by
  cases h with
  | g r v => exact threadFrame_wg t r v
  | gFlags r v f => exact (threadFrame_wg t r v).orFlags f
  | p r b => exact threadFrame_wp t r b
  | v r v => exact threadFrame_wv t r v
  | vFlags r v f => exact (threadFrame_wv t r v).orFlags f

/-- Another slot keeps its thread. -/
theorem State.thread?_setCur_ne (s : State) (t : Thread) {c k : Nat} (h : (c, k) ≠ (s.cur.core, s.cur.slot)) :
    (s.setCur t).thread? c k = s.thread? c k :=
  alook_aset_ne _ _ _ _ h.symm

/-- Settles O47: every such instruction is one shared result, which writes its destination in the executing thread. -/
theorem registerFrame : Obligations.RegisterFrame := by
  unfold Obligations.RegisterFrame
  intro i s s' t d fl hi ht h
  obtain rfl | ⟨t', hw, rfl⟩ := writesOnly_exec hi ht s' h
  · obtain ⟨hrest, hg, hp, hv, hother, hmono⟩ := threadFrame_refl t d fl
    exact ⟨t, ht, hrest, rfl, hg, hp, hv, hother, hmono, fun _ _ _ => rfl, fun _ => rfl, fun _ _ => rfl⟩
  · obtain ⟨hrest, hg, hp, hv, hother, hmono⟩ := hw.frame
    exact ⟨t', State.curT?_setCur s t', hrest, rfl, hg, hp, hv, hother, hmono, fun _ _ => State.thread?_setCur_ne s t', fun _ => rfl, fun _ _ => rfl⟩

end Sys2Proof.Machine

end

/-! ## Proofs: fields packed into a word

The fields of a record lie apart, so that their sum is their union bit by bit, and each is read back from its place. -/

section

namespace Sys2Proof.Machine

/-- No two fields of a record share a bit. -/
def recordApart : List (Nat × Nat × Nat) → Bool
  | [] => true
  | f :: l => (l.all fun g => decide (f.1 + f.2.1 ≤ g.1) || decide (g.1 + g.2.1 ≤ f.1)) && recordApart l

/-- Bit i of a record as one of its fields holds it. -/
def fieldBit (i : Nat) (f : Nat × Nat × Nat) : Bool := decide (f.1 ≤ i) && decide (i < f.1 + f.2.1) && f.2.2.testBit (i - f.1)

theorem testBit_field (f : Nat × Nat × Nat) (i : Nat) : (f.2.2 % 2 ^ f.2.1 * 2 ^ f.1).testBit i = fieldBit i f := by
  rw [Nat.testBit_mul_two_pow, Nat.testBit_mod_two_pow, fieldBit]
  by_cases h : f.1 ≤ i
  · simp [h, Nat.sub_lt_iff_lt_add' h]
  · simp [h]

theorem packFields_cons (f : Nat × Nat × Nat) (l : List (Nat × Nat × Nat)) : packFields (f :: l) = f.2.2 % 2 ^ f.2.1 * 2 ^ f.1 + packFields l := by
  have hacc : ∀ (l : List (Nat × Nat × Nat)) (n : Nat),
      l.foldl (fun acc g => acc + g.2.2 % 2 ^ g.2.1 * 2 ^ g.1) n = n + l.foldl (fun acc g => acc + g.2.2 % 2 ^ g.2.1 * 2 ^ g.1) 0 := by
    intro l
    induction l with
    | nil => intro n; rfl
    | cons g l ih => intro n; rw [List.foldl_cons, List.foldl_cons, ih, ih (0 + _), Nat.zero_add, Nat.add_assoc]
  rw [packFields, List.foldl_cons, hacc, Nat.zero_add]
  rfl

/-- Bit by bit a record is its fields. -/
theorem getLsbD_packFields {l : List (Nat × Nat × Nat)} (hl : recordApart l = true) (n i : Nat) :
    (BitVec.ofNat n (packFields l)).getLsbD i = (decide (i < n) && l.any (fieldBit i)) := by
  induction l generalizing i with
  | nil => simp [packFields]
  | cons f l ih =>
    simp only [recordApart, Bool.and_eq_true, List.all_eq_true, Bool.or_eq_true, decide_eq_true_eq] at hl
    obtain ⟨hf, hl⟩ := hl
    have hzero : BitVec.ofNat n (f.2.2 % 2 ^ f.2.1 * 2 ^ f.1) &&& BitVec.ofNat n (packFields l) = 0#n := by
      apply BitVec.eq_of_getLsbD_eq
      intro j hj
      rw [BitVec.getLsbD_and, ih hl, BitVec.getLsbD_ofNat, testBit_field, BitVec.getLsbD_zero, Bool.eq_false_iff]
      simp only [fieldBit, Ne, Bool.and_eq_true, List.any_eq_true, decide_eq_true_eq]
      rintro ⟨⟨_, ⟨hlo, hhi⟩, _⟩, _, g, hg, ⟨hlo', hhi'⟩, _⟩
      have := hf g hg
      omega
    rw [packFields_cons, BitVec.ofNat_add, BitVec.add_eq_or_of_and_eq_zero _ _ hzero, BitVec.getLsbD_or, ih hl, BitVec.getLsbD_ofNat, testBit_field,
      List.any_cons, Bool.and_or_distrib_left]

theorem fieldBit_of_apart {f g : Nat × Nat × Nat} (h : f.1 + f.2.1 ≤ g.1 ∨ g.1 + g.2.1 ≤ f.1) {i : Nat} (hi : i < f.2.1) :
    fieldBit (f.1 + i) g = false := by
  rw [Bool.eq_false_iff]
  simp only [fieldBit, Ne, Bool.and_eq_true, decide_eq_true_eq]
  rintro ⟨⟨hlo, hhi⟩, _⟩
  omega

/-- At the place of a field of it, a record is that field. -/
theorem any_fieldBit {l : List (Nat × Nat × Nat)} (hl : recordApart l = true) {f : Nat × Nat × Nat} (hf : f ∈ l) {i : Nat} (hi : i < f.2.1) :
    l.any (fieldBit (f.1 + i)) = f.2.2.testBit i := by
  have hself : fieldBit (f.1 + i) f = f.2.2.testBit i := by simp [fieldBit, hi]
  induction l with
  | nil => cases hf
  | cons g l ih =>
    simp only [recordApart, Bool.and_eq_true, List.all_eq_true, Bool.or_eq_true, decide_eq_true_eq] at hl
    obtain ⟨hg, hl⟩ := hl
    rw [List.any_cons]
    obtain rfl | hf := List.mem_cons.mp hf
    · have hrest : l.any (fieldBit (f.1 + i)) = false := List.any_eq_false.mpr fun g' hg' => by simp [fieldBit_of_apart (hg g' hg') hi]
      rw [hself, hrest, Bool.or_false]
    · rw [ih hl hf, fieldBit_of_apart (hg f hf).symm hi, Bool.false_or]

/-- A field is read back from its place. -/
theorem extractLsb'_packFields {l : List (Nat × Nat × Nat)} (lo w v : Nat) (hf : (lo, w,
  v) ∈ l) (hl : recordApart l = true) {n : Nat} (hn : lo + w ≤ n) :
    (BitVec.ofNat n (packFields l)).extractLsb' lo w = BitVec.ofNat w v :=
  BitVec.eq_of_getLsbD_eq fun i hi => by
    rw [BitVec.getLsbD_extractLsb', getLsbD_packFields hl, any_fieldBit hl hf hi, BitVec.getLsbD_ofNat]
    simp [hi, show lo + i < n by omega]

theorem testBit_bitN (b : Bool) : (bitN b).testBit 0 = b := by
  cases b <;> rfl

/-- A truth value is read back from its place. -/
theorem getLsbD_packFields_bitN {l : List (Nat × Nat × Nat)} (lo : Nat) (b : Bool) (hf : (lo, 1, bitN b) ∈ l) (hl : recordApart l = true) {n : Nat}
    (hn : lo < n) : (BitVec.ofNat n (packFields l)).getLsbD lo = b := by
  have hbit := any_fieldBit hl hf (i := 0) Nat.zero_lt_one
  rw [Nat.add_zero, testBit_bitN] at hbit
  rw [getLsbD_packFields hl, hbit]
  simp [hn]

end Sys2Proof.Machine

end

/-! ## Proofs: system registers and region queries (R46 to R52, R317 to R319) -/

section

namespace Sys2Proof.Machine

open Sys2Proof.Claims

/-! ### System registers -/

section

variable {s : State} {t : Thread}

theorem execMfs_of_some {x : MfsT} {v : Word} (hr : Runs s t x.g) (hv : s.sysReg s.cur.core t x.r = some v) :
    exec (.mfs x) s = .next (s.setCur (t.wg x.d v)) := by
  refine (guarded_true hr.1 hr.2 _).trans ?_
  simp only [hv]

/-- A thread that is not a copy of a pair reads its own TID. -/
theorem State.readTid_of_no_cons (s : State) {t : Thread} (hc : t.cons = none) : s.readTid t = some t.tid := by
  simp [State.readTid, hc]

theorem lcoreWord_eq (t : Thread) (c : Nat) : lcoreWord (t.tid.extractLsb' 8 18).toNat c =
    BitVec.ofNat 64 (t.tid.toNat / 2 ^ 8 % 2 ^ 18 + c % 512 * 2 ^ 18 + c / 512 % 512 * 2 ^ 27) := by
  have hlcn : (t.tid.extractLsb' 8 18).toNat = t.tid.toNat / 2 ^ 8 % 2 ^ 18 := by rw [BitVec.extractLsb'_toNat, Nat.shiftRight_eq_div_pow]
  have hfields : ∀ a b d : Nat, packFields [(0, 18, a), (18, 9, b), (27, 9, d)] = a % 2 ^ 18 + b % 2 ^ 9 * 2 ^ 18 + d % 2 ^ 9 * 2 ^ 27 :=
    fun a b d => by
    have hnil : packFields [] = 0 := rfl
    simp only [packFields_cons, hnil, pow_zero, Nat.mul_one, Nat.add_zero, Nat.add_assoc]
  rw [lcoreWord, hfields, hlcn, Nat.mod_mod, coreX, coreY, show (2 : Nat) ^ 9 = 512 by norm_num, Nat.mod_mod]

theorem execMts_of_sclamp {x : MtsT} (hr : Runs s t x.g) (hx : x.r = .sclamp) :
    exec (.mts x) s = .next (s.setCur { t with sclamp := sclampWrite (t.rg x.a) }) := by
  refine (guarded_true hr.1 hr.2 _).trans ?_
  simp only [hx]

theorem execMts_of_rctl {x : MtsT} (hr : Runs s t x.g) (hx : x.r = .rctl) :
    exec (.mts x) s = .next (s.setCur { t with rctl := rctlWrite t.rctl (t.rg x.a) }) := by
  refine (guarded_true hr.1 hr.2 _).trans ?_
  simp only [hx]

theorem sclampWrite_eq_ofNat (v : Word) : sclampWrite v = BitVec.ofNat 64 (v.toNat % 2 ^ 32) := by
  apply BitVec.eq_of_toNat_eq
  rw [sclampWrite, BitVec.toNat_and, BitVec.toNat_ofNat]
  exact (Nat.and_two_pow_sub_one_eq_mod v.toNat 32).trans (Nat.mod_eq_of_lt (by omega)).symm

/-- A flag is cleared by a one. -/
theorem getLsbD_rctlWrite (old v : Word) {j : Nat} (hj : j < 5) : (rctlWrite old v).getLsbD (16 + j) = (old.getLsbD (16 + j) && !v.getLsbD (16 + j)) := by
  have hhigh : ∀ x : BitVec 4, x.getLsbD (16 + j) = false := fun x => BitVec.getLsbD_of_ge _ _ (by omega)
  simp [rctlWrite, hj, hhigh, show 16 + j < 64 by omega]

/-- The mode is taken where it is one of the five. -/
theorem rctlWrite_toNat_mod (old v : Word) :
    (rctlWrite old v).toNat % 16 = if 1 ≤ v.toNat % 16 ∧ v.toNat % 16 ≤ 5 then v.toNat % 16 else old.toNat % 16 := by
  have hlow : ∀ (f : BitVec 64) (r : BitVec 4), ((f <<< 16) ||| r.setWidth 64).toNat % 16 = r.toNat := fun f r => by
    have hr : ((f <<< 16) ||| r.setWidth 64).extractLsb' 0 4 = r := by
      apply BitVec.eq_of_getLsbD_eq
      intro i hi
      simp [hi, show i < 64 by omega, show i < 16 by omega]
    have := congrArg BitVec.toNat hr
    rwa [BitVec.extractLsb'_toNat, Nat.shiftRight_zero] at this
  have hrm : ∀ x : Word, (x.extractLsb' 0 4).toNat = x.toNat % 16 := fun x => by rw [BitVec.extractLsb'_toNat, Nat.shiftRight_zero]
  simp only [rctlWrite, hlow, hrm, Bool.and_eq_true, decide_eq_true_eq]
  split <;> exact hrm _

theorem execGtime_of_runs {x : GDest} (hr : Runs s t x.g) : exec (.gtime x) s = .next (s.setCur
    ({ t with lastGt := max t.lastGt (s.coreTime s.cur.core) }.wg x.d (BitVec.ofNat 64 (packFields
      [(0, 63, max t.lastGt (s.coreTime s.cur.core)), (63, 1, bitN (s.core s.cur.core).suspectTime)])))) :=
  guarded_true hr.1 hr.2 _

end

theorem timeWord_toNat_mod {n : Nat} (hn : n < 2 ^ 63) (b : Bool) : (BitVec.ofNat 64 (packFields [(0, 63, n), (63, 1,
  bitN b)])).toNat % 2 ^ 63 = n := by
  have hfield := congrArg BitVec.toNat (extractLsb'_packFields (n := 64) (l := [(0, 63, n), (63, 1, bitN b)]) 0 63 n (by simp) rfl (by decide))
  rwa [BitVec.extractLsb'_toNat, Nat.shiftRight_zero, BitVec.toNat_ofNat n 63, Nat.mod_eq_of_lt hn] at hfield

theorem timeWord_getLsbD (n : Nat) (b : Bool) : (BitVec.ofNat 64 (packFields [(0, 63, n), (63, 1, bitN b)])).getLsbD 63 = b :=
  getLsbD_packFields_bitN 63 b (by simp) rfl (by decide)

theorem systemRegisters : SystemRegisters := by
  intro s t
  refine ⟨fun x v hr hc hv => execMfs_of_some hr ?_, fun x hr hx => ?_, fun x hr hx => ⟨_, execMts_of_rctl hr hx,
    fun j hj => getLsbD_rctlWrite _ _ hj,
    rctlWrite_toNat_mod _ _⟩, fun x hr hcore hlast => ⟨_, _, execGtime_of_runs hr, le_max_left _ _, le_max_right _ _,
      timeWord_toNat_mod (max_lt hlast hcore) _,
      timeWord_getLsbD _ _⟩⟩
  · obtain ⟨hx, rfl⟩ | ⟨hx, rfl⟩ | ⟨hx, rfl⟩ | ⟨hx, rfl⟩ | ⟨hx, rfl⟩ | ⟨hx, rfl⟩ | ⟨hx, rfl⟩ | ⟨hx, rfl⟩ | ⟨hx, rfl⟩ | ⟨hx, rfl⟩ | ⟨hx, rfl⟩ |
      ⟨hx, hg, rfl⟩ | ⟨hx, rfl⟩ := hv
    case inl =>
      rw [hx, State.sysReg, s.readTid_of_no_cons hc, Option.map_some, BitVec.ofNat_toNat]
    case inr.inr.inr.inr.inr.inr.inr.inr.inr.inl =>
      rw [hx, State.sysReg, BitVec.ofNat_toNat]
    case inr.inr.inr.inr.inr.inr.inr.inr.inr.inr.inr.inl =>
      rw [hx, State.sysReg, Thread.home, hg, Option.getD_none]
    case inr.inr.inr.inr.inr.inr.inr.inr.inr.inr.inr.inr =>
      rw [hx, State.sysReg, lcoreWord_eq]
    all_goals rw [hx, State.sysReg]
  · rw [execMts_of_sclamp hr hx, sclampWrite_eq_ofNat]

/-! ### Region queries -/

theorem execRgnq_of_region {s : State} {t : Thread} {x : RgnqT} {r : Region} (hr : Runs s t x.g) (hreg : s.region? t.region = some r) :
    exec (.rgnq x) s = .next (s.setCur (t.wg x.d (s.rgnq s.cur.core t r x.sel))) := by
  refine (guarded_true hr.1 hr.2 _).trans ?_
  rw [hreg]
  rfl

section

variable (s : State) (c : Nat) (t : Thread) (r : Region)

theorem rgnq_cores : (s.rgnq c t r .cores).extractLsb' 0 18 = BitVec.ofNat 18 (s.mapOrig r).length ∧
    (s.rgnq c t r .cores).extractLsb' 32 14 = BitVec.ofNat 14 r.cmap.length :=
  ⟨extractLsb'_packFields 0 18 _ (by simp) rfl (by decide), extractLsb'_packFields 32 14 _ (by simp) rfl (by decide)⟩

theorem rgnq_attrs : (s.rgnq c t r .attrs).extractLsb' 0 4 = BitVec.ofNat 4 r.prio ∧ (s.rgnq c t r .attrs).extractLsb' 4 2 = r.emode ∧
    (s.rgnq c t r .attrs).getLsbD 6 = r.swmode ∧ (s.rgnq c t r .attrs).getLsbD 7 = r.lmperm ∧
    (s.rgnq c t r .attrs).extractLsb' 8 8 = BitVec.ofNat 8 r.slots ∧ (s.rgnq c t r .attrs).extractLsb' 24 12 = BitVec.ofNat 12 r.rquota := by
  have hmode : BitVec.ofNat 2 r.emode.toNat = r.emode := by rw [BitVec.ofNat_toNat, BitVec.setWidth_eq]
  exact ⟨extractLsb'_packFields 0 4 _ (by simp) rfl (by decide), (extractLsb'_packFields 4 2 r.emode.toNat (by simp) rfl (by decide)).trans hmode,
    getLsbD_packFields_bitN 6 _ (by simp) rfl (by decide), getLsbD_packFields_bitN 7 _ (by simp) rfl (by decide),
    extractLsb'_packFields 8 8 _ (by simp) rfl (by decide), extractLsb'_packFields 24 12 _ (by simp) rfl (by decide)⟩

theorem rgnq_lcoreOf_none {a : GReg} (h : s.physOf r (t.rg a).toNat = none) : s.rgnq c t r (.lcoreOf a) = BitVec.allOnes 64 := by
  simp only [State.rgnq, h]

theorem rgnq_lcoreOf_some {a : GReg} {d : Nat} (h : s.physOf r (t.rg a).toNat = some d) :
    (s.rgnq c t r (.lcoreOf a)).extractLsb' 18 9 = BitVec.ofNat 9 (d % 512) ∧
      (s.rgnq c t r (.lcoreOf a)).extractLsb' 27 9 = BitVec.ofNat 9 (d / 512) := by
  simp only [State.rgnq, h]
  exact ⟨extractLsb'_packFields 18 9 _ (by simp [coreX]) rfl (by decide), extractLsb'_packFields 27 9 _ (by simp [coreY]) rfl (by decide)⟩

theorem rgnq_frontier : (s.rgnq c t r .frontier).getLsbD 63 = (r.emode != 3) ∧
    (r.emode = 3 → (s.rgnq c t r .frontier).extractLsb' 0 48 = BitVec.ofNat 48 r.frontier.ts) :=
  ⟨getLsbD_packFields_bitN 63 _ (by simp) rfl (by decide), fun h => extractLsb'_packFields 0 48 _ (by simp [h]) rfl (by decide)⟩

theorem rgnq_state : (s.rgnq c t r .state).extractLsb' 0 2 = BitVec.ofNat 2 r.rstate.code ∧
    (s.rgnq c t r .state).extractLsb' 32 32 = BitVec.ofNat 32 r.rlive :=
  ⟨extractLsb'_packFields 0 2 _ (by simp) rfl (by decide), extractLsb'_packFields 32 32 _ (by simp) rfl (by decide)⟩

end

theorem regionQuery : RegionQuery := by
  intro s t x r hr hreg
  refine ⟨_, execRgnq_of_region hr hreg, fun hx => ?_, fun hx => ?_, fun a hx h => ?_, fun a d hx h => ?_, fun hx => ?_, fun hx => ?_⟩
  all_goals rw [hx]
  · exact rgnq_cores ..
  · exact rgnq_attrs ..
  · exact rgnq_lcoreOf_none _ _ _ _ h
  · exact rgnq_lcoreOf_some _ _ _ _ h
  · exact rgnq_frontier ..
  · exact rgnq_state ..

/-- Settles O24. -/
theorem systemRegistersAndRegionQuery : Obligations.SystemRegistersAndRegionQuery := by
  unfold Obligations.SystemRegistersAndRegionQuery
  exact ⟨systemRegisters, regionQuery⟩

end Sys2Proof.Machine

end

/-! ## Proofs: what an abort of readers leaves (R337) -/
section
namespace Sys2Proof.Machine
open Sys2Proof.Claims

/-- Nothing of memory, of a scratchpad, of the executing instruction or of what awaits an acknowledgement has changed. -/
structure State.BytesKept (s s' : State) : Prop where
  mem : s'.mem = s.mem
  cur : s'.cur = s.cur
  sp : ∀ c, (s'.core c).sp = (s.core c).sp
  acks : ∀ r, Unacked s r → Unacked s' r

theorem State.BytesKept.refl (s : State) : s.BytesKept s := ⟨rfl, rfl, fun _ => rfl, fun _ h => h⟩

theorem State.BytesKept.trans {s s1 s2 : State} (h : s.BytesKept s1) (h' : s1.BytesKept s2) : s.BytesKept s2 :=
  ⟨h'.mem.trans h.mem, h'.cur.trans h.cur, fun c => (h'.sp c).trans (h.sp c), fun r hr => h'.acks r (h.acks r hr)⟩

theorem State.BytesKept.of_cores {s s' : State} (hm : s'.mem = s.mem) (hu : s'.cur = s.cur) (hc : s'.cores = s.cores) : s.BytesKept s' :=
  ⟨hm, hu, fun c => by simp only [State.core, hc], fun r h => by simpa only [Unacked, hc] using h⟩

theorem State.BytesKept.foldl {α : Type} (f : State → α → State) (h : ∀ (s : State) a, s.BytesKept (f s a)) (l : List α) (s : State) :
    s.BytesKept (l.foldl f s) := by
  induction l generalizing s with
  | nil => exact .refl s
  | cons a l ih => exact (h s a).trans (ih (f s a))

theorem mem_aset {κ α : Type} [DecidableEq κ] {k : κ} {v : α} {l : List (κ × α)} {e : κ × α} (h : e ∈ aset k v l) : e = (k, v) ∨ e ∈ l := by
  induction l with
  | nil => simpa [aset] using h
  | cons x l ih =>
    obtain ⟨k', v'⟩ := x
    by_cases hk : k' = k
    · simp only [aset, if_pos hk, List.mem_cons] at h
      exact h.imp id fun h => List.mem_cons_of_mem _ h
    · simp only [aset, if_neg hk, List.mem_cons] at h
      rcases h with h | h
      · exact .inr (h ▸ List.mem_cons_self)
      · exact (ih h).imp id fun h => List.mem_cons_of_mem _ h

theorem alook_map {κ α β : Type} [DecidableEq κ] (k : κ) (f : α → β) (l : List (κ × α)) :
    alook k (l.map fun e => (e.1, f e.2)) = (alook k l).map f := by
  induction l with
  | nil => rfl
  | cons x l ih =>
    simp only [List.map_cons, alook]
    split <;> simp_all

theorem mem_of_alook {κ α : Type} [DecidableEq κ] {k : κ} {v : α} {l : List (κ × α)} (h : alook k l = some v) : (k, v) ∈ l := by
  induction l with
  | nil => simp [alook] at h
  | cons x l ih =>
    obtain ⟨k', v'⟩ := x
    by_cases hk : k' = k
    · simp only [alook, if_pos hk, Option.some.injEq] at h
      exact List.mem_cons.mpr (.inl (by rw [hk, h]))
    · simp only [alook, if_neg hk] at h
      exact List.mem_cons_of_mem _ (ih h)

/-- The acknowledgements that a core awaits are in no other operation's name than those of the cores listed. -/
theorem unacked_core {s : State} {r : OpRef} (h : Unacked s r) (c : Nat) : ∀ x ∈ (s.core c).acks, x.2 ≠ r := by
  unfold State.core
  cases hc : alook c s.cores with
  | none => intro x hx; simp [Core.reset] at hx
  | some y => exact h _ (mem_of_alook hc)

theorem State.BytesKept.modCore (s : State) (c : Nat) (f : Core → Core) (hsp : (f (s.core c)).sp = (s.core c).sp)
    (ha : (f (s.core c)).acks = (s.core c).acks) : s.BytesKept (s.modCore c f) where
  mem := rfl
  cur := rfl
  sp d := by
    rw [State.core_modCore]
    split
    next h => subst h; exact hsp
    next => rfl
  acks r h e he := by
    rcases mem_aset he with rfl | he
    · exact fun x hx => unacked_core h c x (ha ▸ hx)
    · exact h e he

theorem State.BytesKept.mapCores {s s' : State} (f : Core → Core) (hsp : ∀ y, (f y).sp = y.sp) (ha : ∀ y, (f y).acks = y.acks)
    (hm : s'.mem = s.mem) (hu : s'.cur = s.cur) (hc : s'.cores = s.cores.map fun e => (e.1, f e.2)) : s.BytesKept s' where
  mem := hm
  cur := hu
  sp c := by
    simp only [State.core, hc, alook_map]
    cases alook c s.cores <;> simp [hsp]
  acks r h e he := by
    rw [hc] at he
    obtain ⟨e, hm, rfl⟩ := List.mem_map.mp he
    exact fun x hx => h e hm x (ha e.2 ▸ hx)

theorem State.BytesKept.modRegion (s : State) (r : Nat) (f : Region → Region) : s.BytesKept (s.modRegion r f) :=
  .of_cores (State.modRegion_mem ..) (State.modRegion_cur ..) (State.modRegion_cores ..)

theorem State.BytesKept.modPart (s : State) (p : Nat) (f : Part → Part) : s.BytesKept (s.modPart p f) :=
  .of_cores (State.modPart_mem ..) (State.modPart_cur ..) (State.modPart_cores ..)

theorem State.BytesKept.freeEntry (s : State) (c : Nat) (t : Thread) (keep : Option InMsg) : s.BytesKept (s.freeEntry c t keep) := by
  unfold State.freeEntry
  split
  · exact .modCore s c _ rfl rfl
  · exact .refl s

theorem State.BytesKept.dropReaders (s : State) (c : Nat) (t : Thread) : s.BytesKept (s.dropReaders c t) := by
  unfold State.dropReaders
  refine .trans ?_ (.modPart _ _ _)
  refine .trans ?_ (.modCore _ c _ rfl rfl)
  exact .mapCores (fun y => { y with readers := y.readers.filter fun r => !(r.key.tid = t.tid.toNat && r.region = t.region) })
    (fun _ => rfl) (fun _ => rfl) rfl rfl rfl

theorem State.BytesKept.leaveQueue (s : State) (region c k : Nat) (again : Bool) : s.BytesKept (s.leaveQueue region c k again) := by
  unfold State.leaveQueue
  split
  · exact .refl s
  · split
    · exact .refl s
    · dsimp only
      split
      · exact (State.BytesKept.modRegion s _ _).trans (.of_cores rfl rfl rfl)
      · exact .modRegion s _ _

theorem State.BytesKept.dropActivation (s : State) (c k : Nat) (keep : Option InMsg) : s.BytesKept (s.dropActivation c k keep) := by
  unfold State.dropActivation
  split
  · exact .refl s
  next t _ =>
    have h : s.BytesKept (((((s.delThread c k).freeEntry c t keep).dropReaders c t).dropIntents t).leaveQueue t.region c k keep.isSome) := by
      refine .trans ?_ (.leaveQueue _ _ c k _)
      refine .trans ?_ (.of_cores (s := ((s.delThread c k).freeEntry c t keep).dropReaders c t) rfl rfl rfl)
      refine .trans ?_ (.dropReaders _ c t)
      exact .trans (s1 := s.delThread c k) (.of_cores rfl rfl rfl) (.freeEntry _ c t keep)
    dsimp only
    split
    · exact h.trans (.modRegion _ _ _)
    · exact h

theorem State.BytesKept.discardMsgs (s : State) (dead : InMsg → Bool) : s.BytesKept (s.discardMsgs dead) := by
  unfold State.discardMsgs
  refine .trans (.foldl (fun s (i : InMsg) => s.consume i.mark.region 1) (fun s i => .modRegion s i.mark.region _)
    (s.unconsumed.filter fun i => dead i && i.mark.region ≠ 0) s) ?_
  exact .mapCores (fun y => { y with
      inbox := y.inbox.filter fun i => i.kept || !dead i, deque := y.deque.filter fun i => i.kept || !dead i,
      spilling := y.spilling.map fun y => (y.1, { y.2 with kept := y.2.kept || dead y.2 }) })
    (fun _ => rfl) (fun _ => rfl) rfl rfl rfl

theorem State.BytesKept.killTag (s : State) (p : Nat) (tag : BitVec 16) : s.BytesKept (s.killTag p tag) := by
  unfold State.killTag
  split
  · exact .refl s
  · refine .trans ?_ (.discardMsgs _ _)
    exact .trans (.modPart s p _) (.foldl _ (fun s (e : (Nat × Nat) × Thread) => .dropActivation s e.1.1 e.1.2 none) _ _)

theorem State.BytesKept.abortOrdered (s : State) (c k : Nat) : s.BytesKept (s.abortOrdered c k) := by
  unfold State.abortOrdered
  split
  · exact .refl s
  · split
    · exact .refl s
    · exact (State.BytesKept.dropActivation s c k _).trans (.killTag _ _ _)

theorem State.BytesKept.abortReaders (s : State) (rs : List Reader) : s.BytesKept (s.abortReaders rs) := by
  refine .foldl _ (fun s r => ?_) rs s
  split
  · exact .abortOrdered s _ _
  · exact .refl s

/-! ### What a write to a scratchpad leaves -/

@[simp] theorem State.spWrite_cur (s : State) (c o : Nat) (bs : List Byte) (w : Option (Nat × Key)) : (s.spWrite c o bs w).cur = s.cur :=
  (State.BytesKept.abortReaders s _).cur

@[simp] theorem State.spWrite_mem (s : State) (c o : Nat) (bs : List Byte) (w : Option (Nat × Key)) : (s.spWrite c o bs w).mem = s.mem :=
  (State.BytesKept.abortReaders s _).mem

theorem State.spWrite_sp (s : State) (c o : Nat) (bs : List Byte) (w : Option (Nat × Key)) (d : Nat) :
    ((s.spWrite c o bs w).core d).sp = if c = d then memWrite (s.core c).sp o bs else (s.core d).sp := by
  unfold State.spWrite
  rw [State.core_modCore]
  split
  next h => exact congrArg (memWrite · o bs) ((State.BytesKept.abortReaders s _).sp c)
  next => exact (State.BytesKept.abortReaders s _).sp d

theorem unacked_spWrite {s : State} {r : OpRef} (h : Unacked s r) (c o : Nat) (bs : List Byte) (w : Option (Nat × Key)) :
    Unacked (s.spWrite c o bs w) r := by
  intro e he
  rcases mem_aset he with rfl | he
  · exact unacked_core ((State.BytesKept.abortReaders s _).acks r h) c
  · exact (State.BytesKept.abortReaders s _).acks r h e he

/-- A write to a scratchpad (R151): its own bytes, no other byte of it, no other scratchpad and no memory. -/
theorem scratchpadWrite : ScratchpadWrite := by
  unfold ScratchpadWrite
  intro s c o bs w
  refine ⟨fun a => ?_, fun d hd => ?_, s.spWrite_mem c o bs w⟩
  · rw [s.spWrite_sp, if_pos rfl, memByte_memWrite]
  · rw [s.spWrite_sp, if_neg (Ne.symm hd)]

end Sys2Proof.Machine
end

/-! ## Proofs: an access of a quiet thread performs at its issue (R113, R152) -/
section
namespace Sys2Proof.Machine
open Sys2Proof.Claims

/-! ### A quiet thread -/

theorem Thread.not_buffered_of_cons {t : Thread} (h : t.cons = none) : t.buffered = false := by
  simp [Thread.buffered, h]

theorem Quiet.noEdges {t : Thread} (h : Quiet t) (pm : BitVec 8) (no : Nat) : t.edges pm no = [] := by
  obtain ⟨-, hops, htr, hah, -, hfw⟩ := h
  simp [Thread.edges, Thread.opEdges, Thread.queued, hops, htr, hah, hfw]

theorem Quiet.noBehind {t : Thread} (h : Quiet t) (s : State) (c no : Nat) (a : MemAcc) : t.behind s c no a = [] := by
  obtain ⟨-, hops, htr, hah, -, -⟩ := h
  simp [Thread.behind, Thread.behindOps, Thread.queuedMeets, Thread.queued, hops, htr, hah]

theorem Quiet.notStale {t : Thread} (h : Quiet t) (l : List Seg) : t.staleAt l = none := by
  obtain ⟨-, -, -, -, hst, -⟩ := h
  simp [Thread.staleAt, hst]

theorem Quiet.notFull {t : Thread} (h : Quiet t) (n : BitVec 3) : t.full n = false := by
  obtain ⟨-, hops, -, -, -, -⟩ := h
  simp [Thread.full, Thread.counter, hops]

theorem Quiet.notBuffered {t : Thread} (h : Quiet t) : t.buffered = false := Thread.not_buffered_of_cons h.1

/-- The owner of the access of the executing instruction. -/
theorem whoAcc_newOp (s : State) (t : Thread) (str : Str) (pm : BitVec 8) (sc : BitVec 2) (deps : List Dep) (a b : MemAcc) :
    s.whoAcc s.cur.core s.cur.slot t (s.newOp t (some str.stream) pm sc deps (.acc b)) a = owner s t str a.nt := rfl

/-- The access of a quiet thread performs at its issue. -/
theorem issueSegs_of_quiet {s : State} {t : Thread} (hq : Quiet t) (ht : s.curT? = some t) (str : Str) (a : MemAcc) (room : Nat) :
    ∃ o : Op, o.id = t.nextOp ∧ o.kind = .acc a ∧ issueSegs s t str 0 a room =
      ((s.setCur (counted s t str)).performAcc (owner (s.setCur (counted s t str)) t str a.nt) t (s.effScope s.cur.core str.scope 0) a room (me s t)
        |>.issue o (me s t)) := by
  refine ⟨s.newOp t (some str.stream) str.pmask (s.effScope s.cur.core str.scope 0) [] (.acc a), rfl, rfl, ?_⟩
  simp only [issueSegs, Quiet.notStale hq, Quiet.noBehind hq, Quiet.noEdges hq, Quiet.notBuffered hq, Bool.false_and, Bool.false_eq_true,
    if_false, List.append_nil, List.dedup_nil, List.isEmpty_nil, if_true, State.countCur, State.modCur_eq_setCur ht]
  rfl

/-- What has performed at its issue, and whose acknowledgement nothing awaits, is over. -/
theorem issue_done {s : State} {r : OpRef} (o : Op) (h : Unacked s r) : (Perf.done s).issue o r = .next s := by
  have hn : (s.cores.any fun e => e.2.acks.any fun x => x.2 = r) = false := by
    simp only [List.any_eq_false, decide_eq_true_eq, Bool.not_eq_true]
    intro e he
    simpa using h e he
  simp [Perf.issue, hn]

theorem issueSegs_done {s s' : State} {t : Thread} (hq : Quiet t) (ht : s.curT? = some t) (str : Str) (a : MemAcc) (room : Nat)
    (hp : (s.setCur (counted s t str)).performAcc (owner (s.setCur (counted s t str)) t str a.nt) t (s.effScope s.cur.core str.scope 0) a room
      (me s t) = .done s') (hu : Unacked s' (me s t)) : issueSegs s t str 0 a room = .next s' := by
  obtain ⟨o, -, -, h⟩ := issueSegs_of_quiet hq ht str a room
  rw [h, hp, issue_done o hu]

/-! ### The own scratchpad (R152) -/

theorem memEa_eq_ea (t : Thread) (a : GReg) (off : BitVec 32) : memEa t a off = ea t a off := by
  rw [memEa, ea, BitVec.ofInt_add, BitVec.ofInt_toInt, BitVec.signExtend]

/-- The run of n bytes at an offset of the own scratchpad. -/
def ownRun (s : State) (o n : Nat) : List Seg := [⟨some s.cur.core, o, n, false⟩]

theorem issueAcc_own {s : State} {t : Thread} (hq : Quiet t) (str : Str) (a : MemAcc) (ham : a.am = .own)
    (hat : a.act.atom = true → a.addr.toNat % a.n = 0) (hl : LocalOk s a.addr.toNat a.n) :
    issueAcc s t str a = issueSegs s t str 0 { a with segs := ownRun s a.addr.toNat a.n } 0 := by
  obtain ⟨hlt, hsz, hch, hsh, -, -, -⟩ := hl
  have hal : (!a.act.atom || decide (a.addr.toNat % a.n = 0)) = true := by
    cases h : a.act.atom
    · rfl
    · simpa using hat h
  have hloc : s.locCheck s.cur.core t a.am a.lcn a.addr a.n a.act.ret a.act.atom = .segs (ownRun s a.addr.toNat a.n) := by
    have hlt' : a.addr.toNat < 16777216 := hlt
    simp [State.locCheck, ham, hal, hlt', hsz, ownRun]
  rw [issueAcc]
  simp only [hloc]
  simp only [Quiet.notFull hq, State.segsWait, State.segsShrink, ownRun, List.any_cons, List.any_nil, Option.any_some, hch, hsh,
    Bool.or_false, Bool.false_eq_true, if_false, ham, scopeFloor]

theorem flatMap_aset_of_nil {κ α β : Type} [DecidableEq κ] {k : κ} (v : α) (f : κ × α → List β) (h : ∀ v, f (k, v) = []) (l : List (κ × α)) :
    (aset k v l).flatMap f = l.flatMap f := by
  induction l with
  | nil => simp [aset, h]
  | cons x l ih =>
    obtain ⟨k', v'⟩ := x
    by_cases hk : k' = k
    · simp [aset, hk, h]
    · simp [aset, hk, ih]

/-- A thread finds no store of its own in the store path of the others. -/
theorem pathStores_setCur (s : State) (t : Thread) {w : Who} (hc : w.core = s.cur.core) (hk : w.slot = s.cur.slot) (l : List Seg) :
    (s.setCur t).pathStores w false l = s.pathStores w false l :=
  flatMap_aset_of_nil t _ (fun v => by simp [hc, hk]) s.threads

/-- An access to the own scratchpad sees in the state in which it performs what it saw when it was issued. -/
theorem localOk_setCur {s : State} {o n : Nat} (h : LocalOk s o n) (t t' : Thread) (str : Str) (nt : Bool) :
    (s.setCur t').spHeld s.cur.core o n = false ∧ (s.setCur t').spPoison s.cur.core o n = none ∧
      (s.setCur t').pathStores (owner (s.setCur t') t str nt) false (ownRun s o n) = [] := by
  obtain ⟨-, -, -, -, hh, hp, hps⟩ := h
  refine ⟨hh, hp, ?_⟩
  rw [pathStores_setCur s t' rfl rfl]
  exact hps

/-! ### Reads and writes of one run -/

theorem readSegs_own {s : State} {c o n : Nat} (w : Who) (via : Via) (hh : s.spHeld c o n = false) (hp : s.spPoison c o n = none) :
    State.readSegs w via [⟨some c, o, n, false⟩] s = .ok (memBytes (s.core c).sp o n) s := by
  simp [State.readSegs, gotAll, State.readSeg, hh, hp, Got.bind]

theorem storeSegs_own {s : State} {c o n : Nat} (w : Who) (bs : List Byte) (hn : bs.length = n) (hh : s.spHeld c o n = false) :
    State.storeSegs w [⟨some c, o, n, false⟩] bs s = .ok () (s.spWrite c o bs none) := by
  subst hn
  simp [State.storeSegs, gotAll, State.ownSeg, hh, Got.bind, cutSegs, State.putSeg]

theorem pathSegs_own {s : State} {c o n : Nat} (w : Who) (bs : List Byte) (hn : bs.length = n) (hh : s.spHeld c o n = false) :
    State.pathSegs w [⟨some c, o, n, false⟩] bs none s = .ok () (s.spWrite c o bs none) := by
  subst hn
  simp [State.pathSegs, gotAll, State.pathSeg, hh, Got.bind, cutSegs]

theorem readFor_of_noStores {s : State} {w : Who} {t : Thread} {ex : Bool} {l : List Seg} (hc : t.cons = none)
    (hp : s.pathStores w false l = []) : State.readFor w t (.l1 ex) l s = State.readSegs w (.l1 ex) l s := by
  have hv : (Via.l1 ex == .path) = false := rfl
  simp [State.readFor, Thread.not_buffered_of_cons hc, State.readBound, hv, hp]

/-- A read-modify-write of a run of the own scratchpad writes what its function makes of the bytes. -/
theorem rmw_own {s : State} {c o n : Nat} (w : Who) (home : Bool) (f : List Byte → Option (List Byte)) (hh : s.spHeld c o n = false)
    (hp : s.spPoison c o n = none) (hps : s.pathStores w false [⟨some c, o, n, false⟩] = [])
    (hn : ∀ new, f (memBytes (s.core c).sp o n) = some new → new.length = n) :
    State.rmw w home [⟨some c, o, n, false⟩] f s = .ok (memBytes (s.core c).sp o n)
      ((f (memBytes (s.core c).sp o n)).elim s fun new => s.spWrite c o new none) := by
  have hr : s.rmwHeld w [⟨some c, o, n, false⟩] = false := by simp [State.rmwHeld, hps]
  have ho : gotAll (State.ownSeg w) [⟨some c, o, n, false⟩] s = .ok [()] s := by simp [gotAll, State.ownSeg, hh, Got.bind]
  cases hf : f (memBytes (s.core c).sp o n) with
  | none => cases home <;> simp [State.rmw, hr, ho, readSegs_own w _ hh hp, Got.bind, hf]
  | some new =>
    cases home <;> simp [State.rmw, hr, ho, readSegs_own w _ hh hp, Got.bind, hf, storeSegs_own w new (hn new hf) hh,
      pathSegs_own w new (hn new hf) hh]

end Sys2Proof.Machine
end

/-! ## Proofs: loads and stores of the own scratchpad (R132, R133, R170, R232) -/
section
namespace Sys2Proof.Machine
open Sys2Proof.Claims

theorem aset_aset {κ α : Type} [DecidableEq κ] (k : κ) (v v' : α) (l : List (κ × α)) : aset k v' (aset k v l) = aset k v' l := by
  induction l with
  | nil => simp [aset]
  | cons x l ih =>
    obtain ⟨k', u⟩ := x
    by_cases hk : k' = k
    · simp [aset, hk]
    · simp [aset, hk, ih]

theorem State.setCur_setCur (s : State) (t t' : Thread) : (s.setCur t).setCur t' = s.setCur t' := by
  simp only [State.setCur, State.setThread, aset_aset]

theorem State.modThread_setCur (s : State) (t : Thread) (f : Thread → Thread) :
    (s.setCur t).modThread s.cur.core s.cur.slot f = s.setCur (f t) :=
  (State.modCur_eq_setCur (State.curT?_setCur s t) f).trans (State.setCur_setCur s t _)

theorem loadValue_eq_loaded (sx : Bool) {bs : List Byte} (h : 0 < bs.length) : loadValue sx bs = loaded sx bs := by
  cases sx
  · rfl
  · exact ofInt_sextN (by omega) _

/-- A load of a quiet thread from its own scratchpad binds the bytes there. -/
theorem issueAcc_own_load {s : State} {t : Thread} (hq : Quiet t) (ht : s.curT? = some t) (hu : Unacked s (me s t)) (str : Str) (a : MemAcc)
    (ham : a.am = .own) (hl : LocalOk s a.ea.toNat a.n) (hact : a.act matches .loadG .. | .loadV _ | .loadM _) :
    issueAcc s t str a = .next (s.setCur (a.act.bind (localBytes s a.ea.toNat a.n) (counted s t str))) := by
  have haddr : a.addr = a.ea := by
    unfold MemAcc.addr
    split <;> simp_all
  have hat : a.act.atom = false := by
    cases h : a.act <;> simp_all [AccAct.atom]
  rw [← haddr] at hl ⊢
  rw [issueAcc_own hq str a ham (by simp [hat]) hl]
  obtain ⟨hh, hp, hps⟩ := localOk_setCur hl t (counted s t str) str a.nt
  refine issueSegs_done hq ht str _ 0 ?_ hu
  have hr := (readFor_of_noStores (ex := a.ex) hq.1 hps).trans (readSegs_own _ _ hh hp)
  cases h : a.act with
  | loadG | loadV | loadM =>
    simp only [State.performAcc, hr]
    exact congrArg Perf.done (State.modThread_setCur s _ _)
  | _ => simp [h] at hact

/-- A store of a quiet thread to its own scratchpad writes its bytes there. -/
theorem issueAcc_own_store {s : State} {t : Thread} (hq : Quiet t) (ht : s.curT? = some t) (hu : Unacked s (me s t)) (str : Str) (a : MemAcc)
    (ham : a.am = .own) {bs : List Byte} (hact : a.act = .store bs) (hn : bs.length = a.n) (hl : LocalOk s a.ea.toNat a.n) :
    issueAcc s t str a = .next ((s.setCur (counted s t str)).spWrite s.cur.core a.ea.toNat bs none) := by
  have haddr : a.addr = a.ea := by simp [MemAcc.addr, hact]
  rw [← haddr] at hl ⊢
  rw [issueAcc_own hq str a ham (by simp [hact, AccAct.atom]) hl]
  obtain ⟨hh, -, -⟩ := localOk_setCur hl t (counted s t str) str a.nt
  refine issueSegs_done hq ht str _ 0 ?_ (unacked_spWrite (s := s.setCur (counted s t str)) hu _ _ _ _)
  simp only [State.performAcc, hact, ownRun, storeSegs_own _ bs hn hh]
  rfl

/-- The accesses that read before they write. -/
def AccAct.rmw : AccAct → Bool
  | .amo .. | .cas .. | .amof .. | .stn .. => true
  | _ => false

/-- A read-modify-write of a quiet thread on its own scratchpad writes what its function gives and binds the old bytes. -/
theorem issueAcc_own_rmw {s : State} {t : Thread} (hq : Quiet t) (ht : s.curT? = some t) (hu : Unacked s (me s t)) (str : Str) (a : MemAcc)
    (ham : a.am = .own) (hact : a.act.rmw = true) (hat : a.act.atom = true → a.addr.toNat % a.n = 0) {u : Option (List Byte)}
    (hup : a.act.update a.ea a.n (localBytes s a.addr.toNat a.n) = u) (hn : ∀ new ∈ u, new.length = a.n) (hl : LocalOk s a.addr.toNat a.n) :
    issueAcc s t str a = .next ((u.elim (s.setCur (counted s t str)) fun new =>
        (s.setCur (counted s t str)).spWrite s.cur.core a.addr.toNat new none).modThread s.cur.core s.cur.slot
      (a.act.bind (localBytes s a.addr.toNat a.n))) := by
  rw [issueAcc_own hq str a ham hat hl]
  obtain ⟨hh, hp, hps⟩ := localOk_setCur hl t (counted s t str) str a.nt
  have hold : memBytes ((s.setCur (counted s t str)).core s.cur.core).sp a.addr.toNat a.n = localBytes s a.addr.toNat a.n := rfl
  have hr := fun home => rmw_own (owner (s.setCur (counted s t str)) t str a.nt) home (a.act.update a.ea a.n) hh hp hps
    (fun new h => hn new (hup.symm.trans h))
  simp only [hold, hup] at hr
  refine issueSegs_done hq ht str _ 0 (s' := State.modThread _ _ _ _) ?_ ?_
  · cases h : a.act with
    | amo | cas | amof | stn =>
      simp only [h] at hr ⊢
      simp only [State.performAcc, ownRun, hr]
      rfl
    | _ => simp [h, AccAct.rmw] at hact
  · have hk : ∀ x : State, Unacked x (me s t) → ∀ c k f, Unacked (x.modThread c k f) (me s t) := fun x hx c k f => by
      simpa only [Unacked, State.modThread_cores] using hx
    cases u with
    | none => exact hk (s.setCur (counted s t str)) hu _ _ _
    | some new => exact hk _ (unacked_spWrite (s := s.setCur (counted s t str)) hu _ _ _ _) _ _ _

theorem aset_of_alook {κ α : Type} [DecidableEq κ] {k : κ} {v : α} {l : List (κ × α)} (h : alook k l = some v) : aset k v l = l := by
  induction l with
  | nil => simp [alook] at h
  | cons x l ih =>
    obtain ⟨k', u⟩ := x
    by_cases hk : k' = k
    · simp only [alook, if_pos hk, Option.some.injEq] at h
      simp [aset, hk, h]
    · simp only [alook, if_neg hk] at h
      simp [aset, hk, ih h]

theorem State.modThread_id (s : State) (c k : Nat) : (s.modThread c k fun t => t) = s := by
  unfold State.modThread
  cases h : s.thread? c k with
  | none => rfl
  | some t => exact congrArg (fun l => { s with threads := l }) (aset_of_alook h)

theorem accN_own {s : State} {t : Thread} {g : Guard} (hr : Runs s t g) (str : Str) {a : GReg} {n : Nat} (hn : (t.rg a).toNat % n = 0)
    (act : Thread → AccAct) :
    accN g str true a n act s = issueAcc s t str ⟨t.rg a, [], .own, 0, n, sizeCode n, s.opc, false, false, act t⟩ := by
  refine (guarded_true hr.1 hr.2 _).trans ?_
  simp [hn]

theorem accM_own {s : State} {t : Thread} {g : Guard} (hr : Runs s t g) (str : Str) (am : AddrMode) (a c : GReg) (off : BitVec 32) (n : Nat)
    (size : BitVec 4) (ex nt : Bool) (act : Thread → AccAct) :
    accM g str am a c off n size ex nt act s = issueAcc s t str ⟨ea t a off, [], am, t.rg c, n, size, s.opc, ex, nt, act t⟩ :=
  (guarded_true hr.1 hr.2 _).trans (by rw [memEa_eq_ea])

theorem localLoads : LocalLoads := by
  intro s t hq hu
  refine ⟨fun x hr ham hl => ?_, fun x hr ham hl => ?_, fun x hr hloc hn hl => ?_, fun x hr hloc hn hl => ?_⟩
  · refine (accM_own hr ..).trans ?_
    rw [issueAcc_own_load hq hr.1 hu x.str _ ham hl rfl]
    simp only [AccAct.bind]
    rw [loadValue_eq_loaded x.sx (by simp [localBytes])]
  · exact (accM_own hr ..).trans (issueAcc_own_load hq hr.1 hu x.str _ ham hl rfl)
  · have h : execMld x s = accN x.g x.str true x.a 64 (fun _ => .loadM x.m) s := by rw [execMld, hloc]
    exact h.trans ((accN_own hr x.str hn _).trans (issueAcc_own_load hq hr.1 hu x.str _ rfl hl rfl))
  · have h : execLutld x s = accN x.g x.str true x.a 16 (fun _ => .loadLut) s := by rw [execLutld, hloc]
    refine h.trans ((accN_own hr x.str hn _).trans ?_)
    rw [issueAcc_own hq x.str _ rfl (by simp [AccAct.atom]) hl]
    obtain ⟨hh, hp, hps⟩ := localOk_setCur hl t (counted s t x.str) x.str false
    refine issueSegs_done hq hr.1 x.str _ 0 ?_ ?_
    · have hld := (readFor_of_noStores (ex := false) hq.1 hps).trans (readSegs_own _ _ hh hp)
      exact congrArg (fun r => Got.perf r fun bs s' => s'.modCore s.cur.core fun y => { y with lut := bs }) hld
    · exact (State.BytesKept.modCore _ _ _ rfl rfl).acks _ hu

theorem stnByte_getLsbD (z : NSize) (p : Nat) (v : Word) (old : Byte) {j : Nat} (hj : j < 8) :
    (stnByte z p v old).getLsbD j = if p ≤ j ∧ j < p + z.bits then v.getLsbD (j - p) else old.getLsbD j := by
  have hb : z.bits ≤ 8 := by cases z <;> decide
  by_cases h : p ≤ j ∧ j < p + z.bits
  · have h1 : j - p < z.bits := by omega
    have h3 : ¬ j < p := by omega
    simp [stnByte, h, hj, h1, h3]
  · have h4 : j < p ∨ z.bits ≤ j - p := by omega
    rcases h4 with h4 | h4
    · simp [stnByte, hj, h4, if_neg h]
    · have h5 : ¬ j - p < z.bits := by omega
      simp [stnByte, hj, h5, if_neg h]

theorem localStores : LocalStores := by
  intro s t hq hu
  refine ⟨fun x hr ham hl => ?_, fun x hr ham hl => ?_, fun x hr hloc hn hl => ?_, fun x n o p hr ham hn ho hp hl => ?_⟩
  · exact (accM_own hr ..).trans (issueAcc_own_store hq hr.1 hu x.str _ ham rfl (toBytes_length ..) hl)
  · exact (accM_own hr ..).trans (issueAcc_own_store hq hr.1 hu x.str _ ham rfl (toBytes_length ..) hl)
  · have h : execMst x s = accN x.g x.str true x.a 64 (fun t => .store (toBytes 64 (t.rm x.m).toNat)) s := by rw [execMst, hloc]
    exact h.trans ((accN_own hr x.str hn _).trans (issueAcc_own_store hq hr.1 hu x.str _ rfl rfl (toBytes_length ..) hl))
  · have hn' : n = x.sz.bits := by rw [hn]; cases x.sz <;> rfl
    subst hn' ho hp
    have ho : (BitVec.ofNat 64 ((ea t x.a x.off).toNat / (8 / x.sz.bits))).toNat = (ea t x.a x.off).toNat / (8 / x.sz.bits) := by
      rw [BitVec.toNat_ofNat, Nat.mod_eq_of_lt (lt_of_le_of_lt (Nat.div_le_self ..) (ea t x.a x.off).isLt)]
    refine ⟨_, (accM_own hr ..).trans ?_, fun j hj => stnByte_getLsbD x.sz _ (t.rg x.b) _ hj⟩
    refine (issueAcc_own_rmw hq hr.1 hu x.str _ ham rfl (by simp [AccAct.atom])
      (u := some [stnByte x.sz (stnPos x.sz (ea t x.a x.off)) (t.rg x.b)
        (memByte (s.core s.cur.core).sp ((ea t x.a x.off).toNat / (8 / x.sz.bits)))]) ?_ ?_ ?_).trans ?_
    · simp [AccAct.update, MemAcc.addr, ho, localBytes, memBytes]
    · simp
    · simpa only [MemAcc.addr, ho] using hl
    · simp only [MemAcc.addr, ho, Option.elim_some]
      exact congrArg Host.Outcome.next (State.modThread_id ..)

/-- Settles O10: with nothing that holds it, an access of a quiet thread performs at its issue, on one run of the own scratchpad. -/
theorem localLoadsAndStores : Obligations.LocalLoadsAndStores := ⟨localLoads, localStores⟩

end Sys2Proof.Machine
end

/-! ## Proofs: atomics on the own scratchpad (R137, R138, R140) -/
section
namespace Sys2Proof.Machine
open Sys2Proof.Claims

theorem toBytes_mod (n x : Nat) : toBytes n (x % 256 ^ n) = toBytes n x := by
  have h := toBytes_ofBytes (toBytes n x)
  rwa [toBytes_length, ofBytes_toBytes] at h

theorem toBytes_setWidth (n : Nat) (v : Word) : toBytes n (v.setWidth (8 * n)).toNat = toBytes n v.toNat := by
  rw [BitVec.toNat_setWidth, pow_mul]
  exact toBytes_mod n v.toNat

theorem amoFn_eq_amoVal (f : AmoFn) {w : Nat} (hw : w ≤ 64) (a b : Word) :
    amoFn f w (a.setWidth w) (b.setWidth w) = (amoVal w a b f).setWidth w := by
  cases f with
  | add => exact (BitVec.setWidth_add a b hw).symm
  | and => exact BitVec.setWidth_and.symm
  | or => exact BitVec.setWidth_or.symm
  | xor => exact BitVec.setWidth_xor.symm
  | min | max =>
    simp only [amoFn, amoVal, BitVec.slt, toInt_setWidth_eq_sig, decide_eq_true_eq]
    split <;> rfl
  | minu | maxu =>
    simp only [amoFn, amoVal, BitVec.ult, decide_eq_true_eq, ← toNat_setWidth_eq_uns, Nat.cast_lt]
    split <;> rfl
  | swp => rfl

/-- The word in the n bytes that an atomic finds. -/
theorem toNat_ofBytes_word {bs : List Byte} (h : bs.length ≤ 8) : (BitVec.ofNat 64 (ofBytes bs)).toNat = ofBytes bs := by
  rw [BitVec.toNat_ofNat, Nat.mod_eq_of_lt]
  calc ofBytes bs < 256 ^ bs.length := ofBytes_lt bs
    _ ≤ 256 ^ 8 := Nat.pow_le_pow_right (by decide) h
    _ = 2 ^ 64 := by decide

theorem amoBytes_eq (f : AmoFn) {n : Nat} (hn : n = 4 ∨ n = 8) (bs : List Byte) (b : Word) :
    amoBytes f n bs b = toBytes n (amoVal (8 * n) (BitVec.ofNat 64 (ofBytes bs)) b f).toNat := by
  rw [← toBytes_setWidth]
  rcases hn with rfl | rfl
  · rw [← amoFn_eq_amoVal f (by decide), BitVec.setWidth_ofNat_of_le (by decide)]
    rfl
  · rw [← amoFn_eq_amoVal f (by decide), BitVec.setWidth_eq, BitVec.setWidth_eq]
    rfl

theorem exec_of_amoOf {i : Instr} {x : AmoM} {f : AmoFn} (h : amoOf i = some (x, f)) (s : State) : exec i s = amoM f x s := by
  unfold amoOf at h
  split at h <;> cases h <;> rfl

/-- An atomic of a quiet thread on its own scratchpad: the word written, if any, and the register that takes the old one. -/
theorem issueAcc_own_atom {s : State} {t : Thread} (hq : Quiet t) (ht : s.curT? = some t) (hu : Unacked s (me s t)) (str : Str) (a : MemAcc)
    (ham : a.am = .own) (hact : a.act matches .amo .. | .cas .. | .amof ..) (hat : a.ea.toNat % a.n = 0) {u : Option (List Byte)}
    (hup : a.act.update a.ea a.n (localBytes s a.ea.toNat a.n) = u) (hn : ∀ new ∈ u, new.length = a.n) (hl : LocalOk s a.ea.toNat a.n) :
    issueAcc s t str a = .next ((u.elim (s.setCur (counted s t str)) fun new =>
        (s.setCur (counted s t str)).spWrite s.cur.core a.ea.toNat new none).modCur (a.act.bind (localBytes s a.ea.toNat a.n))) := by
  have haddr : a.addr = a.ea := by
    unfold MemAcc.addr
    split <;> simp_all
  have hrmw : a.act.rmw = true := by cases h : a.act <;> simp_all [AccAct.rmw]
  rw [← haddr] at hup hl hat ⊢
  refine (issueAcc_own_rmw hq ht hu str a ham hrmw (fun _ => hat) (haddr ▸ hup) hn hl).trans ?_
  have hcur : (u.elim (s.setCur (counted s t str)) fun new =>
      (s.setCur (counted s t str)).spWrite s.cur.core a.addr.toNat new none).cur = s.cur := by
    cases u with
    | none => rfl
    | some new => exact State.spWrite_cur ..
  rw [State.modCur, hcur]

/-- The old word that an atomic of n bytes binds, sign-extended. -/
theorem loadValue_true_word (s : State) (o : Nat) {n : Nat} (hn : n = 4 ∨ n = 8) :
    loadValue true (localBytes s o n) = cut (8 * n) (BitVec.ofNat 64 (ofBytes (localBytes s o n))).toNat := by
  have hlen : (localBytes s o n).length = n := by simp [localBytes]
  rw [toNat_ofBytes_word (by omega), loadValue_eq_loaded true (by omega), loaded, if_pos rfl, hlen]

theorem AmoM.width (dword : Bool) : (if dword then 8 else 4) = 4 ∨ (if dword then 8 else 4) = 8 := by
  cases dword
  · exact .inl rfl
  · exact .inr rfl

theorem amocas_bytes_eq_iff {bs : List Byte} {n : Nat} (h : bs.length = n) (hn : n ≤ 8) (c : Word) :
    ofBytes bs = c.toNat % 2 ^ (8 * n) ↔ uns (8 * n) (BitVec.ofNat 64 (ofBytes bs)) = uns (8 * n) c := by
  have hlt : ofBytes bs < 2 ^ (8 * n) := by
    rw [pow_mul, ← h]
    exact ofBytes_lt bs
  rw [uns, uns, toNat_ofBytes_word (by omega)]
  norm_cast
  rw [Nat.mod_eq_of_lt hlt]

theorem AmoFmt.width_eq (ty : AmoFmt) : ty.fmt.width = 8 * ty.bytes := by cases ty <;> rfl

theorem exec_of_amofOf {i : Instr} {x : AmoF} {f : FFmt → Nat → Nat → Nat} (h : amofOf i = some (x, f)) :
    ∃ k : AmofFn, (∀ s, exec i s = amofM k x s) ∧ amofCode k = f := by
  unfold amofOf at h
  split at h <;> cases h
  · exact ⟨.add, fun _ => rfl, rfl⟩
  · exact ⟨.min, fun _ => rfl, rfl⟩
  · exact ⟨.max, fun _ => rfl, rfl⟩

theorem bind_amo (f : AmoFn) (d : GReg) (b : Word) (bs : List Byte) :
    (AccAct.amo f d b).bind bs = fun t => t.wg d (loadValue true bs) := rfl

theorem bind_cas (d : GReg) (b c : Word) (bs : List Byte) : (AccAct.cas d b c).bind bs = fun t => t.wg d (loadValue true bs) := rfl

theorem localIntegerAtomic {s : State} {t : Thread} (hq : Quiet t) (hu : Unacked s (me s t)) {i : Instr} {x : AmoM} {f : AmoFn} {n : Nat} {old : Word}
    (hi : amoOf i = some (x, f)) (hr : Runs s t x.g) (ham : x.am = .own) (hn : n = if x.dword then 8 else 4)
    (hal : (ea t x.a x.off).toNat % n = 0) (hl : LocalOk s (ea t x.a x.off).toNat n)
    (hold : old = BitVec.ofNat 64 (ofBytes (localBytes s (ea t x.a x.off).toNat n))) :
    exec i s = .next (((s.setCur (counted s t x.str)).spWrite s.cur.core (ea t x.a x.off).toNat
        (toBytes n (amoVal (8 * n) old (t.rg x.b) f).toNat) none).modCur fun t => t.wg x.d (cut (8 * n) old.toNat)) := by
  have hw := hn ▸ AmoM.width x.dword
  subst hold
  rw [exec_of_amoOf hi]
  refine (accM_own hr ..).trans ?_
  rw [← hn]
  refine (issueAcc_own_atom hq hr.1 hu x.str ⟨_, _, _, _, _, _, _, _, _,
    .amo f x.d (t.rg x.b)⟩ ham rfl hal (congrArg some (amoBytes_eq f hw _ _)) ?_ hl).trans ?_
  · simp
  · rw [bind_amo, loadValue_true_word s _ hw]
    rfl

theorem localCas {s : State} {t : Thread} (hq : Quiet t) (hu : Unacked s (me s t)) {x : CasM} {n : Nat} {old : Word}
    (hr : Runs s t x.g) (ham : x.am = .own) (hn : n = if x.dword then 8 else 4) (hal : (ea t x.a x.off).toNat % n = 0)
    (hl : LocalOk s (ea t x.a x.off).toNat n) (hold : old = BitVec.ofNat 64 (ofBytes (localBytes s (ea t x.a x.off).toNat n))) :
    exec (.amocas x) s = .next (((if uns (8 * n) old = uns (8 * n) (t.rg x.c) then (s.setCur (counted s t x.str)).spWrite s.cur.core
        (ea t x.a x.off).toNat (toBytes n (t.rg x.b).toNat) none else s.setCur (counted s t x.str))).modCur
      fun t => t.wg x.d (cut (8 * n) old.toNat)) := by
  have hw := hn ▸ AmoM.width x.dword
  have hiff := amocas_bytes_eq_iff (bs := localBytes s (ea t x.a x.off).toNat n) (memBytes_length ..) (by omega) (t.rg x.c)
  subst hold
  refine (accM_own hr ..).trans ?_
  rw [← hn]
  refine (issueAcc_own_atom hq hr.1 hu x.str _ ham rfl hal rfl ?_ hl).trans ?_
  · intro new hnew
    simp only [AccAct.update] at hnew
    split at hnew <;> cases hnew
    exact toBytes_length ..
  · rw [bind_cas, loadValue_true_word s _ hw]
    simp only [AccAct.update, hiff]
    split <;> rfl

theorem localFloatAtomic {s : State} {t : Thread} (hq : Quiet t) (hu : Unacked s (me s t)) {i : Instr} {x : AmoF} {f : FFmt → Nat → Nat → Nat}
    {n old : Nat} (hi : amofOf i = some (x, f)) (hr : Runs s t x.g) (ham : x.am = .own) (hn : n = x.ty.bytes)
    (hal : (ea t x.a x.off).toNat % n = 0) (hl : LocalOk s (ea t x.a x.off).toNat n)
    (hold : old = ofBytes (localBytes s (ea t x.a x.off).toNat n)) :
    exec i s = .next (((s.setCur (counted s t x.str)).spWrite s.cur.core (ea t x.a x.off).toNat
        (toBytes n (f x.ty.fmt old ((t.rg x.b).toNat % 2 ^ (8 * n)))) none).modCur fun t => t.wg x.d (BitVec.ofNat 64 old)) := by
  obtain ⟨k, hk, rfl⟩ := exec_of_amofOf hi
  subst hold hn
  rw [hk]
  refine (accM_own hr ..).trans ?_
  refine (issueAcc_own_atom hq hr.1 hu x.str _ ham rfl hal (u := some (toBytes x.ty.bytes _)) rfl ?_ hl).trans ?_
  · simp
  · rw [lowCode, AmoFmt.width_eq]
    rfl

/-- Settles O11: an atomic of a quiet thread on its own scratchpad is one read-modify-write of its word. -/
theorem localAtomics : Obligations.LocalAtomics := by
  intro s t hq hu
  refine ⟨fun i x f n old hi hr ham hn hal hl hold => localIntegerAtomic hq hu hi hr ham hn hal hl hold,
    fun x n old hr ham hn hal hl hold => ⟨fun he => ?_, fun he => ?_⟩,
    fun i x f n old hi hr ham hn hal hl hold => localFloatAtomic hq hu hi hr ham hn hal hl hold⟩
  · rw [localCas hq hu hr ham hn hal hl hold, if_pos he]
  · rw [localCas hq hu hr ham hn hal hl hold, if_neg he, State.modCur]
    exact congrArg Host.Outcome.next (State.modThread_setCur s _ _)

end Sys2Proof.Machine
end

/-! ## Proofs: where the frame of a store to the own scratchpad fails -/
section
namespace Sys2Proof.Machine
open Sys2Proof.Claims

/-- A message of no content. -/
def emptyMsg : InMsg := ⟨⟨0, 0, 0⟩, 0, false, .new⟩

/-- The consignment of a running ordered activation, with the tag that its messages carry and the tag of the message that started it. -/
def orderedCons (tag sptag : BitVec 16) : Consign :=
  ⟨3, [], [], false, false, 0, true, false, tag, sptag, ⟨0, 0⟩, none, emptyMsg, .running, none, false, false⟩

/-- A thread of region 1 with a TID. -/
def plainThread (tid : BitVec 32) : Thread := .fresh tid 1 .resident 0x200000

/-- A store of the low byte of g0 to offset 0 of the own scratchpad. -/
def storeZero : StM := ⟨⟨0, false⟩, ⟨0, 0, 0⟩, .own, 0, false, 0, 0, 0, 0⟩

/-- The thread of slot 0 executes; the ordered activation of slot 1 has read sector 0 of the scratchpad and owns the live tag 5. The list of threads holds
a second entry for slot 0, behind the one that reads of the slot find, whose activation carries tag 5. -/
def shadowedState : State :=
  { State.reset with
    parts := [(0, { Part.blank with tags := [(5, ⟨⟨0, 0⟩, 0, .live⟩)] })]
    cores := [(0, { Core.reset with readers := [⟨0, 1, ⟨0, 7⟩, 1⟩] })]
    threads := [((0, 0), plainThread 0), ((0, 1), { plainThread 7 with cons := some (orderedCons 5 0) }),
      ((0, 0), { plainThread 0 with cons := some (orderedCons 0 5) })]
    cur := ⟨0, 0, .lead, 0x200000, 0, none, .nop ⟨0, false⟩, 0, 0⟩ }

/-- The store aborts the reader in slot 1, and with it what carries its tag: the slot that the second entry names,
  which is that of the storing thread. -/
theorem shadowedState_store :
    (((shadowedState.setCur (counted shadowedState (plainThread 0) storeZero.str)).spWrite 0 0 [0] none).curT?).isNone = true := by
  decide +kernel

theorem shadowedState_runs : Runs shadowedState (plainThread 0) storeZero.g := ⟨rfl, rfl⟩

theorem shadowedState_quiet : Quiet (plainThread 0) := ⟨rfl, rfl, rfl, rfl, rfl, rfl⟩

theorem shadowedState_localOk : LocalOk shadowedState 0 1 := by
  refine ⟨by decide, by decide, ?_, ?_, ?_, ?_, ?_⟩ <;> decide +kernel

theorem shadowedState_unacked (r : OpRef) : Unacked shadowedState r := by
  intro e he x hx
  simp only [shadowedState, List.mem_singleton] at he
  subst he
  simp [Core.reset] at hx

/-- Refutes O48: a state may list a slot twice. The first entry is the slot's thread; the second, an activation,
  still counts among those that carry the
tag of an activation which the store aborts (R335, R337), and with it the slot of the storing thread itself is freed. -/
theorem not_storeFrame : ¬ Obligations.StoreFrame := by
  unfold Obligations.StoreFrame
  intro h
  have hs := (localStores shadowedState (plainThread 0) shadowedState_quiet (shadowedState_unacked _)).1 storeZero shadowedState_runs rfl
    shadowedState_localOk
  obtain ⟨-, -, -, t', ht', -⟩ := h (.st storeZero) shadowedState _ (plainThread 0) storeZero.g 0 1 storeZero.str none rfl shadowedState_runs
    shadowedState_quiet shadowedState_localOk hs
  have hn := shadowedState_store
  have hb : toBytes (2 ^ storeZero.sz.toNat) ((plainThread 0).rg storeZero.b).toNat = [0] := by decide +kernel
  have he : (ea (plainThread 0) storeZero.a storeZero.off).toNat = 0 := by decide +kernel
  rw [hb, he] at ht'
  rw [show shadowedState.cur.core = 0 from rfl] at ht'
  rw [ht'] at hn
  cases hn

end Sys2Proof.Machine
end

/-! ## Proofs: accesses by virtual address and the line paths (R107, R132 to R148) -/
section
namespace Sys2Proof.Machine
open Sys2Proof.Claims

theorem unacked_modThread {s : State} {r : OpRef} (h : Unacked s r) (c k : Nat) (f : Thread → Thread) : Unacked (s.modThread c k f) r := by
  simpa only [Unacked, State.modThread_cores] using h

theorem accM_virt {s : State} {t : Thread} {g : Guard} (hr : Runs s t g) (hq : Quiet t) (str : Str) (a c : GReg) (off : BitVec 32) {n : Nat}
    (size : BitVec 4) (ex nt : Bool) (act : Thread → AccAct) (hat : (act t).atom = false) {l : List Seg} {room : Nat} {s1 : State}
    (htr : s.accTranslate s.cur.core t (ea t a off) n (act t).tr = (.ok l room, s1)) :
    accM g str .virt a c off n size ex nt act s = issueSegs s1 t str 0 ⟨ea t a off, l, .virt, t.rg c, n, size, s.opc, ex, nt, act t⟩ room := by
  refine (accM_own hr ..).trans ?_
  rw [issueAcc]
  simp only [State.locCheck, hat, Bool.not_false, Bool.true_or, if_true, Quiet.notFull hq, Bool.false_eq_true, if_false, Quiet.notBuffered hq,
    Bool.false_and, htr]

/-- An access that translates performs at once in a quiet thread. -/
theorem accM_virt_done {s s1 s' : State} {t : Thread} {g : Guard} (hr : Runs s t g) (hq : Quiet t) (ht : s1.curT? = some t) (hcur : s1.cur = s.cur)
    (str : Str) (a c : GReg) (off : BitVec 32) {n : Nat} (size : BitVec 4) (ex nt : Bool) (act : Thread → AccAct) (hat : (act t).atom = false)
    {l : List Seg} {room : Nat} (htr : s.accTranslate s.cur.core t (ea t a off) n (act t).tr = (.ok l room, s1))
    (hp : (s1.setCur (counted s1 t str)).performAcc (owner (s1.setCur (counted s1 t str)) t str nt) t (s1.effScope s1.cur.core str.scope 0)
      ⟨ea t a off, l, .virt, t.rg c, n, size, s.opc, ex, nt, act t⟩ room (me s1 t) = .done s')
    (hu : Unacked s' (me s t)) : accM g str .virt a c off n size ex nt act s = .next s' := by
  rw [accM_virt hr hq str a c off size ex nt act hat htr]
  refine issueSegs_done hq ht str _ room hp ?_
  rwa [me, hcur]

theorem loaded_eq_loadValue (sx : Bool) (bs : List Byte) : loaded sx bs = loadValue sx bs := by
  cases bs with
  | nil => cases sx <;> decide
  | cons b bs => exact (loadValue_eq_loaded sx (by simp)).symm

/-- A load whose bytes no store of the core's store path holds binds what its runs read. -/
theorem perf_load {s s3 : State} {w : Who} {t : Thread} {sc : BitVec 2} {a : MemAcc} {room : Nat} {ref : OpRef} {bs : List Byte}
    (hc : t.cons = none) (hact : a.act matches .loadG .. | .loadV _) (hps : s.pathStores w false a.segs = [])
    (hrd : State.readSegs w (.l1 a.ex) a.segs s = .ok bs s3) :
    s.performAcc w t sc a room ref = .done (s3.modThread w.core w.slot (a.act.bind bs)) := by
  have h := (readFor_of_noStores (ex := a.ex) hc hps).trans hrd
  cases ha : a.act with
  | loadG | loadV =>
    simp only [State.performAcc, ha, h]
    rfl
  | _ => simp [ha] at hact

/-- A load that translates, with its bytes read. -/
theorem accM_virt_load {s s1 s3 : State} {t : Thread} {g : Guard} (hr : Runs s t g) (hq : Quiet t) (ht : s1.curT? = some t) (hcur : s1.cur = s.cur)
    (str : Str) (a c : GReg) (off : BitVec 32) {n : Nat} (size : BitVec 4) (ex nt : Bool) {act : AccAct} (hact : act matches .loadG .. | .loadV _)
    {l : List Seg} {room : Nat} {bs : List Byte} (htr : s.accTranslate s.cur.core t (ea t a off) n .load = (.ok l room, s1))
    (hps : (s1.setCur (counted s1 t str)).pathStores (owner (s1.setCur (counted s1 t str)) t str nt) false l = [])
    (hrd : State.readSegs (owner (s1.setCur (counted s1 t str)) t str nt) (.l1 ex) l (s1.setCur (counted s1 t str)) = .ok bs s3)
    (hu : Unacked s3 (me s t)) :
    accM g str .virt a c off n size ex nt (fun _ => act) s = .next (s3.modThread s.cur.core s.cur.slot (act.bind bs)) := by
  have hat : act.atom = false := by cases act <;> simp_all [AccAct.atom]
  have htk : act.tr = .load := by cases act <;> simp_all [AccAct.tr]
  have hp := perf_load (a := ⟨ea t a off, l, .virt, t.rg c, n, size, s.opc, ex, nt, act⟩) (sc := s1.effScope s1.cur.core str.scope 0) (room := room)
    (ref := me s1 t) hq.1 hact hps hrd
  have hw : (owner (s1.setCur (counted s1 t str)) t str nt).core = s.cur.core ∧ (owner (s1.setCur (counted s1 t str)) t str nt).slot = s.cur.slot :=
    ⟨congrArg Cur.core hcur, congrArg Cur.slot hcur⟩
  rw [hw.1, hw.2] at hp
  exact accM_virt_done hr hq ht hcur str a c off size ex nt (fun _ => act) hat (htk ▸ htr) hp (unacked_modThread hu _ _ _)

/-- A store that translates, with its runs written. -/
theorem accM_virt_store {s s1 s3 : State} {t : Thread} {g : Guard} (hr : Runs s t g) (hq : Quiet t) (ht : s1.curT? = some t) (hcur : s1.cur = s.cur)
    (str : Str) (a c : GReg) (off : BitVec 32) {n : Nat} (size : BitVec 4) (nt : Bool) (bs : Thread → List Byte) {l : List Seg} {room : Nat}
    (htr : s.accTranslate s.cur.core t (ea t a off) n .store = (.ok l room, s1))
    (hst : State.storeSegs { owner (s1.setCur (counted s1 t str)) t str nt with op := some t.nextOp } l (bs t)
      (s1.setCur (counted s1 t str)) = .ok () s3)
    (hu : Unacked s3 (me s t)) : accM g str .virt a c off n size false nt (fun t => .store (bs t)) s = .next s3 :=
  accM_virt_done hr hq ht hcur str a c off size false nt (fun t => .store (bs t)) rfl htr (congrArg (fun r => Got.perf r fun _ s => s) hst) hu

theorem addressedAccesses : AddressedAccesses := by
  rintro s s1 _ s3 t l room str hq ht hcur rfl hu
  refine ⟨fun x bs hr ham hstr htr hps hrd => ?_, fun x bs hr ham hstr htr hps hrd => ?_, fun x hr ham hstr htr hst => ?_,
    fun x hr ham hstr htr hst => ?_⟩ <;> subst hstr
  · have hx : exec (.ld x) s = accM x.g x.str x.am x.a x.c x.off (2 ^ x.sz.toNat) (x.sz.setWidth 4) x.ex x.nt (fun _ => .loadG x.d x.sx) s := rfl
    rw [hx, ham, accM_virt_load hr hq ht hcur x.str x.a x.c x.off _ x.ex x.nt rfl htr hps hrd hu, loaded_eq_loadValue]
    rfl
  · have hx : exec (.ldv x) s = accM x.g x.str x.am x.a x.c x.off x.sz.bytes (sizeCode x.sz.bytes) x.ex x.nt (fun _ => .loadV x.d) s := rfl
    rw [hx, ham, accM_virt_load hr hq ht hcur x.str x.a x.c x.off _ x.ex x.nt rfl htr hps hrd hu]
    rfl
  · have hx : exec (.st x) s = accM x.g x.str x.am x.a x.c x.off (2 ^ x.sz.toNat) (x.sz.setWidth 4) false x.nt
      (fun t => .store (toBytes (2 ^ x.sz.toNat) (t.rg x.b).toNat)) s := rfl
    rw [hx, ham, accM_virt_store hr hq ht hcur x.str x.a x.c x.off _ x.nt _ htr hst hu]
  · have hx : exec (.stv x) s = accM x.g x.str x.am x.a x.c x.off x.sz.bytes (sizeCode x.sz.bytes) false x.nt
      (fun t => .store (toBytes x.sz.bytes (t.rv x.b).toNat)) s := rfl
    rw [hx, ham, accM_virt_store hr hq ht hcur x.str x.a x.c x.off _ x.nt _ htr hst hu]

end Sys2Proof.Machine
end

/-! ## Proofs: where PFETCH changes its thread -/
section
namespace Sys2Proof.Machine
open Sys2Proof.Claims

/-- Two levels of page table: the leaf maps the first 16 GiB on themselves, readable and not yet accessed. -/
def unaccessedTables : Memory := [(0x10000, 1), (0x10001, 0x40), (0x10002, 1), (0x14000, 0x3F)]

/-- `shadowedState`, where the activation of slot 1 has read the leaf of the page table in place of the scratchpad. -/
def shadowedWalk : State :=
  { shadowedState with
    mem := unaccessedTables
    regions := [(1, Region.blank)]
    parts := [(0, { Part.blank with tags := [(5, ⟨⟨0, 0⟩, 0, .live⟩)], readers := [⟨0x140, 1, ⟨0, 7⟩, 1⟩] })] }

/-- PFETCH of address 0. -/
def prefetchZero : PfM := ⟨⟨0, false⟩, ⟨0, 0, 0⟩, false, false, 0, 0⟩

/-- The step leaves no thread in the slot that executes. -/
def freesItsSlot (o : Out) : Bool :=
  match o with
  | .next s => s.curT?.isNone
  | _ => false

/-- The walk sets A in the leaf, and that write aborts the reader and what carries its tag. -/
theorem shadowedWalk_pfetch : freesItsSlot (exec (.pfetch prefetchZero) shadowedWalk) = true := by
  decide +kernel

/-- Refutes O13: the walk of a PFETCH sets A, and the write of the entry aborts an activation that has read it (R75,
  R335). In a state that lists a slot
twice the abort frees the slot of the prefetching thread, as in `not_storeFrame`. -/
theorem not_addressedAccessesAndCounters : ¬ Obligations.AddressedAccessesAndCounters := by
  rintro ⟨-, -, hpf⟩
  obtain ⟨s', hs', ht⟩ := hpf shadowedWalk (plainThread 0) prefetchZero ⟨rfl, rfl⟩ rfl
  have h := shadowedWalk_pfetch
  rw [hs', freesItsSlot, ht] at h
  cases h

end Sys2Proof.Machine
end

/-! ## Proofs: the line paths and the statuses of WATCH (R135, R141 to R148) -/
section
namespace Sys2Proof.Machine
open Sys2Proof.Claims

/-- A path whose status goes to a register. -/
theorem accM_virt_status {s s1 s3 : State} {t : Thread} {g : Guard} (hr : Runs s t g) (hq : Quiet t) (ht : s1.curT? = some t) (hcur : s1.cur = s.cur)
    (str : Str) (a : GReg) (off : BitVec 32) (act : Thread → AccAct) (hat : (act t).atom = false) {l : List Seg} {room : Nat} (f : Thread → Thread)
    (htr : s.accTranslate s.cur.core t (ea t a off) 1 (act t).tr = (.ok l room, s1))
    (hp : (s1.setCur (counted s1 t str)).performAcc (owner (s1.setCur (counted s1 t str)) t str false) t (s1.effScope s1.cur.core str.scope 0)
      ⟨ea t a off, l, .virt, t.rg 0, 1, 3, s.opc, false, false, act t⟩ room (me s1 t) = .done (s3.modThread s1.cur.core s1.cur.slot f))
    (hu : Unacked s3 (me s t)) : accM g str .virt a 0 off 1 3 false false act s = .next (s3.modThread s.cur.core s.cur.slot f) := by
  rw [← hcur]
  exact accM_virt_done hr hq ht hcur str a 0 off 3 false false act hat htr hp (unacked_modThread hu _ _ _)

theorem linePaths : LinePaths := by
  rintro s s1 _ t pa room sh str w a off k hq ht hcur rfl rfl htr
  have hme : me s1 t = ⟨s.cur.core, s.cur.slot, t.nextOp⟩ := by rw [me, hcur]
  refine ⟨fun g s3 hr hk hs3 hlv hu hsc => ?_, fun g s3 hr hk hs3 hlv hu => ?_, fun g d b n s3 hr hk hfree hw hu => ?_,
    fun g d b n s3 hr hk hw hu => ?_, fun g d b n s3 hr hk hfree hw hu => ?_, fun g d b v s3 hr hk hw hu => ?_,
    fun g d n s3 hr hk hw hu => ?_, fun g d hr hk hu => ?_⟩ <;> subst hk
  · refine accM_virt_done hr hq ht hcur str a 0 off 3 false false (fun _ => .flush) rfl htr ?_ hu
    have hsc' : s1.effScope s1.cur.core str.scope 0 ≠ 3 := by rw [hcur]; exact hsc
    simp only [State.performAcc, MemAcc.pa, List.head?_cons, Option.elim_some, ← hs3, if_neg hsc']
    rw [show (owner (s1.setCur (counted s1 t str)) t str false).core = s.cur.core from congrArg Cur.core hcur, hlv, Bool.and_false]
    rfl
  · refine accM_virt_done hr hq ht hcur str a 0 off 3 false false (fun _ => .inval) rfl htr ?_ hu
    simp only [State.performAcc, MemAcc.pa, List.head?_cons, Option.elim_some, ← hs3]
    rw [show (owner (s1.setCur (counted s1 t str)) t str false).core = s.cur.core from congrArg Cur.core hcur, hlv, Bool.and_false]
    rfl
  · refine accM_virt_status hr hq ht hcur str a off (fun t => .watch d (t.rg b)) rfl _ htr ?_ hu
    simp only [State.performAcc, MemAcc.pa, List.head?_cons, Option.elim_some, hfree, if_true, hw]
    rfl
  · refine accM_virt_status hr hq ht hcur str a off (fun t => .unwatch d (t.rg b)) rfl _ htr ?_ hu
    simp only [State.performAcc, MemAcc.pa, List.head?_cons, Option.elim_some, hw]
    rfl
  · refine accM_virt_status hr hq ht hcur str a off (fun t => .watchq d (t.rg b)) rfl _ htr ?_ hu
    simp only [State.performAcc, MemAcc.pa, List.head?_cons, Option.elim_some, hfree, if_true, hw]
    rfl
  · refine accM_virt_status hr hq ht hcur str a off (fun t => .acqr d (t.rg b)) rfl _ htr ?_ hu
    simp only [State.performAcc, MemAcc.pa, List.head?_cons, Option.elim_some, hme, hw]
    rfl
  · refine accM_virt_status hr hq ht hcur str a off (fun _ => .relr d) rfl _ htr ?_ hu
    simp only [State.performAcc, MemAcc.pa, List.head?_cons, Option.elim_some, hw]
    rfl
  · exact accM_virt_status hr hq ht hcur str a off (fun _ => .ladq d) rfl _ htr rfl hu

/-! ### WATCH -/

theorem entry_modEntry {s : State} {p : Nat} (h : (s.part? p).isSome) (line : Nat) (f : DirEntry → DirEntry) :
    (s.modEntry p line f).entry p line = f (s.entry p line) := by
  obtain ⟨q, hq⟩ := Option.isSome_iff_exists.mp h
  simp [State.entry, State.modEntry, State.part?_modPart, hq, Part.entry]

theorem modEntry_of_part_none {s : State} {p : Nat} (h : s.part? p = none) (line : Nat) (f : DirEntry → DirEntry) : s.modEntry p line f = s := by
  simp [State.modEntry, State.modPart, h]

@[simp] theorem State.modEntry_threads (s : State) (p line : Nat) (f : DirEntry → DirEntry) : (s.modEntry p line f).threads = s.threads :=
  State.modPart_threads ..

/-- The threads and the directory of a partition are as they were, but for the owners that a line's entry of the L2 names. -/
structure State.WatchersKept (p line : Nat) (s s' : State) : Prop where
  threads : s'.threads = s.threads
  watchers : (s'.entry p line).watchers = (s.entry p line).watchers
  inL2 : (s'.entry p line).inL2 = (s.entry p line).inL2

theorem State.WatchersKept.trans {p line : Nat} {s s1 s2 : State} (h : s.WatchersKept p line s1) (h' : s1.WatchersKept p line s2) :
    s.WatchersKept p line s2 :=
  ⟨h'.threads.trans h.threads, h'.watchers.trans h.watchers, h'.inL2.trans h.inL2⟩

theorem State.WatchersKept.of_parts {p line : Nat} {s s' : State} (ht : s'.threads = s.threads) (hp : s'.parts = s.parts) :
    s.WatchersKept p line s' := by
  have he : s'.entry p line = s.entry p line := by simp only [State.entry, State.part?, hp]
  exact ⟨ht, by rw [he], by rw [he]⟩

theorem State.WatchersKept.foldl {α : Type} {p line : Nat} (f : State → α → State) (l : List α)
    (h : ∀ (s : State), ∀ a ∈ l, s.WatchersKept p line (f s a)) (s : State) : s.WatchersKept p line (l.foldl f s) := by
  induction l generalizing s with
  | nil => exact ⟨rfl, rfl, rfl⟩
  | cons a l ih =>
    exact (h s a List.mem_cons_self).trans (ih (fun s b hb => h s b (List.mem_cons_of_mem _ hb)) _)

theorem State.WatchersKept.modEntry {p line : Nat} (s : State) {f : DirEntry → DirEntry}
    (hw : (f (s.entry p line)).watchers = (s.entry p line).watchers) (hl : (f (s.entry p line)).inL2 = (s.entry p line).inL2) :
    s.WatchersKept p line (s.modEntry p line f) := by
  cases hq : s.part? p with
  | none => rw [modEntry_of_part_none hq]; exact ⟨rfl, rfl, rfl⟩
  | some q =>
    have he := entry_modEntry (s := s) (p := p) (by simp [hq]) line f
    exact ⟨State.modEntry_threads .., by rw [he, hw], by rw [he, hl]⟩

theorem State.WatchersKept.recallOne (p line : Nat) (s : State) (sec : Nat) (drop : Bool) (c : Nat) :
    s.WatchersKept p line (s.recallOne sec drop c) := by
  refine .of_parts ?_ ?_ <;>
  · unfold State.recallOne
    repeat' split
    all_goals rfl

theorem State.WatchersKept.recall (p line : Nat) (s : State) {sec : Nat} (hsec : sec / 4 = line) (drop : Bool) (keep : Option Nat) :
    s.WatchersKept p line (s.recall p sec drop keep) := by
  subst hsec
  unfold State.recall
  refine .trans (.foldl (fun s c => s.recallOne sec drop c) ((s.holders p sec).filter fun c => some c ≠ keep)
    (fun s c _ => .recallOne p (sec / 4) s sec drop c) s) ?_
  refine .modEntry _ ?_ ?_
  · dsimp only
    repeat' split
    all_goals rfl
  · dsimp only
    repeat' split
    all_goals rfl

theorem State.WatchersKept.hostGet (p line : Nat) (s : State) (sec : Nat) (own : Bool) : s.WatchersKept p line (s.hostGet p sec own) := by
  unfold State.hostGet
  split
  · have he : (s.modPart p fun q => { q with hostSecs := aset sec (own || (alook sec q.hostSecs).getD false) q.hostSecs }).entry p line
        = s.entry p line := by
      cases hq : s.part? p <;> simp [State.entry, State.part?_modPart, hq, Part.entry]
    exact ⟨State.modPart_threads .., by rw [he], by rw [he]⟩
  · exact ⟨rfl, rfl, rfl⟩

theorem State.WatchersKept.armDown (p line : Nat) (s : State) (mask : BitVec 4) : s.WatchersKept p line (s.armDown p line mask) := by
  refine .foldl _ _ (fun s i hi => ?_) s
  have hi : i < 4 := List.mem_range.mp hi
  split
  · exact (State.WatchersKept.hostGet p line s _ false).trans (.recall p line _ (by omega) false none)
  · exact ⟨rfl, rfl, rfl⟩

/-- The first watcher of a line in the L2 needs no block. -/
theorem addWatcher_first {s : State} {p line : Nat} (x : Watcher) (hw : (s.entry p line).watchers = []) (hl : (s.entry p line).inL2 = true) :
    ∃ s', s.addWatcher p line x = some s' ∧ s'.threads = s.threads := by
  simp [State.addWatcher, hw, hl]

theorem watchMask_eq (ctl : Word) (pa : Nat) :
    watchMask ctl pa = if ctl.toNat % 16 = 0 then 1#4 <<< (pa / 64 % 4) else ctl.setWidth 4 := by
  have h : ctl.extractLsb' 0 4 = ctl.setWidth 4 := extractLsb'_zero_eq_setWidth (by decide) ctl
  have h0 : ctl.setWidth 4 = 0 ↔ ctl.toNat % 16 = 0 := by
    rw [← BitVec.toNat_inj, BitVec.toNat_setWidth]
    rfl
  simp only [watchMask, h, h0]

theorem ctlReserved_iff (ctl : Word) : ctl.extractLsb' 4 60 ≠ 0 ↔ ctl.toNat / 16 ≠ 0 := by
  rw [ne_eq, ← BitVec.toNat_inj, BitVec.extractLsb'_toNat, Nat.shiftRight_eq_div_pow]
  have := ctl.isLt
  rw [Nat.mod_eq_of_lt (by omega)]
  rfl

theorem watchStatuses : WatchStatuses := by
  intro s w t pa ctl ht
  refine ⟨fun hc => ?_, fun hc hl h8 => ?_, fun hc hw hn hl s' st hres => ?_⟩
  · rw [State.watchLine, if_pos ((ctlReserved_iff ctl).mpr hc)]
  · have hc' : ¬ ctl.extractLsb' 4 60 ≠ 0 := fun h => (ctlReserved_iff ctl).mp h hc
    have hl' : (t.watch.any fun e => e.line = pa / 256) = false := by
      simpa only [List.any_eq_false, List.all_eq_true, decide_eq_true_eq] using hl
    simp only [State.watchLine, if_neg hc', ht, hl', Bool.false_eq_true, if_false, h8, if_true]
  · have hc' : ¬ ctl.extractLsb' 4 60 ≠ 0 := fun h => (ctlReserved_iff ctl).mp h hc
    have hk := State.WatchersKept.armDown w.p (pa / 256) s (watchMask ctl pa)
    obtain ⟨s1, hs1, hth⟩ := addWatcher_first ⟨1, watchMask ctl pa, watchTarget w.tid (s.homeCore w), 0, 0⟩ (hk.watchers.trans hn)
      (hk.inL2.trans hl)
    have ht1 : s1.thread? w.core w.slot = some t := by
      rw [State.thread?, hth, hk.threads]
      exact ht
    simp only [State.watchLine, if_neg hc', ht, hw, List.any_nil, Bool.false_eq_true, if_false, List.length_nil, hs1] at hres
    obtain ⟨rfl, rfl⟩ := Prod.mk.inj hres
    refine ⟨rfl, _, (State.thread?_modThread_self ..).trans (congrArg _ ht1), ?_⟩
    rw [watchMask_eq]
    rfl

/-- Settles O12: each path by the one lemma of an access that translates; a watch by what the recall of the owners leaves of the line. -/
theorem linePathsAndWatches : Obligations.LinePathsAndWatches := ⟨linePaths, watchStatuses⟩

end Sys2Proof.Machine
end

/-! ## Proofs: a store that hits M in the L1 reads back (R94, R107) -/
section
namespace Sys2Proof.Machine
open Sys2Proof.Claims

theorem ofBytes_testBit (l : List Byte) (j : Nat) : (ofBytes l).testBit j = (l.getD (j / 8) 0).getLsbD (j % 8) := by
  induction l generalizing j with
  | nil => simp [ofBytes]
  | cons b l ih =>
    have hb : b.toNat < 2 ^ 8 := b.isLt
    rw [ofBytes, add_comm, show (256 : Nat) = 2 ^ 8 from rfl, Nat.testBit_two_pow_mul_add _ hb]
    split
    next h => simp [Nat.div_eq_of_lt h, Nat.mod_eq_of_lt h, BitVec.getLsbD]
    next h =>
      have h1 : j / 8 = (j - 8) / 8 + 1 := by omega
      have h2 : j % 8 = (j - 8) % 8 := by omega
      rw [ih, h1, h2, List.getD_cons_succ]

theorem expandMask_getLsbD (mask : BitVec 64) {j : Nat} (hj : j < 512) : (expandMask mask).getLsbD j = mask.getLsbD (j / 8) := by
  have hi : j / 8 < 64 := by omega
  have h8 : j % 8 < 8 := by omega
  have hones : (255 : Byte).getLsbD (j % 8) = true := by
    revert h8
    generalize j % 8 = i
    revert i
    decide
  have hg : ((List.range 64).map fun i => if mask.getLsbD i then (255 : Byte) else 0).getD (j / 8) 0
      = if mask.getLsbD (j / 8) then 255 else 0 := by
    simp [hi]
  rw [expandMask, BitVec.getLsbD_ofNat, ofBytes_testBit, hg]
  split
  next h => rw [hones, h, decide_eq_true hj]; rfl
  next h => rw [Bool.eq_false_iff.mpr h, show (0 : Byte) = 0#8 from rfl, BitVec.getLsbD_zero, Bool.and_false]

theorem mergeSector_getLsbD (old new : V512) (mask : BitVec 64) {j : Nat} (hj : j < 512) :
    (mergeSector old new mask).getLsbD j = if mask.getLsbD (j / 8) then new.getLsbD j else old.getLsbD j := by
  simp only [mergeSector, BitVec.getLsbD_or, BitVec.getLsbD_and, BitVec.getLsbD_not, expandMask_getLsbD mask hj, hj, decide_true, Bool.true_and]
  cases mask.getLsbD (j / 8) <;> simp

/-- A write that no reader has read aborts nothing, and one of a sector that no translation used clears no mark. -/
theorem beforeWrite_of_noReaders {s : State} {p sec : Nat} (w : Option (Nat × Key))
    (hr : ∀ r ∈ (s.part? p).elim [] (·.readers), r.name ≠ sec / 4) (htu : (s.entry p (sec / 4)).tu = false) : s.beforeWrite p sec w = s := by
  have hh : ((s.part? p).elim [] fun q => hitReaders q.readers (sec / 4) (sec % 4) w) = [] := by
    cases hq : s.part? p with
    | none => rfl
    | some q =>
      simp only [hq, Option.elim_some] at hr ⊢
      refine List.filter_eq_nil_iff.mpr fun r hm => ?_
      simp [hr r hm]
  simp [State.beforeWrite, hh, State.abortReaders, State.clearTu, htu]

@[simp] theorem State.linkWrite_cores (s : State) (p sec : Nat) : (s.linkWrite p sec).cores = s.cores := by
  unfold State.linkWrite
  split
  · rfl
  · dsimp only
    split <;> rfl

@[simp] theorem State.linkWrite_mem (s : State) (p sec : Nat) : (s.linkWrite p sec).mem = s.mem := by
  unfold State.linkWrite
  split
  · rfl
  · dsimp only
    split <;> rfl

@[simp] theorem State.linkWrite_parts (s : State) (p sec : Nat) : (s.linkWrite p sec).parts = s.parts := by
  unfold State.linkWrite
  split
  · rfl
  · dsimp only
    split <;> rfl

/-- The L1 of a core after one of its sectors is set. -/
theorem l1_setL1 (s : State) (c sec sec' : Nat) (x : L1Sec) : (s.setL1 c sec x).l1 c sec' = if sec = sec' then some x else s.l1 c sec' := by
  simp [State.l1, State.setL1, State.core_modCore, alook_aset]

/-- A store to a sector in M. -/
theorem l1Put_m {s : State} {w : Who} {sec : Nat} {x : L1Sec} {d : V512} {mask : BitVec 64} (hx : s.l1 w.core sec = some x) (hm : x.st = .m)
    (hb : x.bad = none) (hr : ∀ r ∈ (s.part? w.p).elim [] (·.readers), r.name ≠ sec / 4) (htu : (s.entry w.p (sec / 4)).tu = false) :
    s.l1Put w sec d mask = ((s.setPoison sec none).setL1 w.core sec { x.merge d mask with st := .m }).linkWrite w.p sec := by
  have hbad : (x.merge d mask).bad = none := by simp [L1Sec.merge, hb]
  simp only [State.l1Put, hx, hm, beforeWrite_of_noReaders none hr htu, hbad, Option.isSome_none, Bool.false_eq_true, if_false]

theorem storeThenLoad : StoreThenLoad := by
  rintro s _ w sec x d mask ex hx hm hb rfl hr htu hlad
  have hcores : ∀ c sec', (s.l1Put w sec d mask).l1 c sec' = ((s.setPoison sec none).setL1 w.core sec { x.merge d mask with st := .m }).l1 c sec' :=
    fun c sec' => by simp only [l1Put_m hx hm hb hr htu, State.l1, State.core, State.linkWrite_cores]
  have hparts : (s.l1Put w sec d mask).parts = s.parts := by
    rw [l1Put_m hx hm hb hr htu, State.linkWrite_parts]
    rfl
  have hself : (s.l1Put w sec d mask).l1 w.core sec = some { x.merge d mask with st := .m } := by
    rw [hcores, l1_setL1, if_pos rfl]
  have hsee : (s.l1Put w sec d mask).ladSee w (64 * sec) = .none := by
    simp only [State.ladSee, State.lading?, State.part?, hparts]
    rw [show (alook w.p s.parts).elim [] (·.ladings) = [] from hlad]
    rfl
  have hbad : (x.merge d mask).bad = none := by simp [L1Sec.merge, hb]
  refine ⟨⟨mergeSector x.data d mask, ?_, fun j hj => mergeSector_getLsbD x.data d mask hj⟩, fun sec' hs => ?_, ?_⟩
  · simp only [State.l1Read, hsee, hself, hbad]
    rfl
  · rw [hcores, l1_setL1, if_neg (Ne.symm hs)]
    rfl
  · rw [l1Put_m hx hm hb hr htu, State.linkWrite_mem]
    rfl

/-- Settles O14: the write of a run changes its bytes alone, and the store into a sector in M merges its bytes there. -/
theorem storedBytesReadBack : Obligations.StoredBytesReadBack := ⟨scratchpadWrite, storeThenLoad⟩

end Sys2Proof.Machine
end

/-! ## Proofs: an LMCFG of the present split keeps what another slot's LMCFG waits for -/
section
namespace Sys2Proof.Machine
open Sys2Proof.Claims

/-- Slot 0 executes in a region that may split the local memory; an LMCFG of slot 1 waits for the accesses to the bytes from 96 KiB on. -/
def waitingSplit : State :=
  { State.reset with
    parts := [(0, Part.blank)]
    regions := [(1, { Region.blank with lmperm := true })]
    cores := [(0, { Core.reset with shrink := some (98304, 1) })]
    threads := [((0, 0), plainThread 0)]
    cur := ⟨0, 0, .lead, 0x200000, 0, none, .nop ⟨0, false⟩, 0, 0⟩ }

/-- LMCFG of the split that a core has at reset. -/
def presentSplit : LmcfgT := ⟨⟨0, false⟩, 0, 0⟩

theorem waitingSplit_lmcfg :
    exec (.lmcfg presentSplit) waitingSplit = .next (waitingSplit.modCur fun t => t.wg presentSplit.d 0) := by
  have hr : Runs waitingSplit (plainThread 0) presentSplit.g := ⟨rfl, rfl⟩
  change execLmcfg presentSplit waitingSplit = _
  rw [execLmcfg, guarded_true hr.1 hr.2]
  rfl

/-- Refutes O16: LMCFG with the present code changes no split,
  and it takes back the LMCFG that waits on its core only where its own slot asked for it;
the statement drops it whatever slot it is of (R171). -/
theorem not_channelsAndLocalMemorySplit : ¬ Obligations.ChannelsAndLocalMemorySplit := by
  rintro ⟨-, h⟩
  obtain ⟨-, -, hsame, -⟩ := h waitingSplit (plainThread 0) presentSplit { Region.blank with lmperm := true } ⟨rfl, rfl⟩ rfl
  have he := waitingSplit_lmcfg.symm.trans (hsame rfl rfl rfl)
  have hs := congrArg (fun o : Out => match o with
    | .next s' => (s'.core 0).shrink
    | _ => none) he
  exact absurd hs (by decide +kernel)

end Sys2Proof.Machine
end

/-! ## Proofs: the copies leave (R155, R160, R161, R163 to R165) -/
section
namespace Sys2Proof.Machine
open Sys2Proof.Claims

/-! ### The pieces of a run -/

/-- The end of the first j pieces of n bytes from a on. -/
def chunkEnd (g a n j : Nat) : Nat := max a (min (a + n) (g * (a / g + j)))

theorem mem_chunks {g a n : Nat} {x : Nat × Nat} (hx : x ∈ chunks g a n) :
    a ≤ x.1 ∧ 0 < x.2 ∧ x.1 + x.2 ≤ a + n ∧ x.1 % g + x.2 ≤ g := by
  obtain ⟨i, -, hi⟩ := List.mem_filterMap.mp hx
  dsimp only at hi
  split at hi
  next hlt =>
    cases hi
    rcases Nat.eq_zero_or_pos g with rfl | hg
    · simp at hlt
    · have h1 : g * (a / g + i) ≤ max a (g * (a / g + i)) := le_max_right ..
      have h2 : max a (g * (a / g + i)) < g * (a / g + i) + g := by omega
      have h3 : max a (g * (a / g + i)) % g = max a (g * (a / g + i)) - g * (a / g + i) := by
        rw [← Nat.sub_add_cancel h1, Nat.add_mul_mod_self_left, Nat.mod_eq_of_lt (by omega), Nat.add_sub_cancel]
      rw [h3]
      omega
  next => cases hi

/-- The bytes of consecutive pieces are the bytes of the run. -/
theorem chunks_flatMap {g a n : Nat} (hg : 0 < g) (bs : List Byte) (hbs : bs.length = n) :
    (chunks g a n).flatMap (fun x => (bs.drop (x.1 - a)).take x.2) = bs := by
  have key : ∀ j, (((List.range j).filterMap fun i =>
      let lo := max a (g * (a / g + i))
      let hi := min (a + n) (g * (a / g + i) + g)
      if lo < hi then some (lo, hi - lo) else none).flatMap fun x => (bs.drop (x.1 - a)).take x.2) = bs.take (chunkEnd g a n j - a) := by
    intro j
    induction j with
    | zero =>
      have : g * (a / g) ≤ a := Nat.mul_div_le a g
      simp [chunkEnd]
      omega
    | succ j ih =>
      have hs : g * (a / g + (j + 1)) = g * (a / g + j) + g := by ring
      rw [List.range_succ, List.filterMap_append, List.flatMap_append, ih]
      simp only [List.filterMap_cons, List.filterMap_nil]
      by_cases hlt : max a (g * (a / g + j)) < min (a + n) (g * (a / g + j) + g)
      · have hlo : chunkEnd g a n j = max a (g * (a / g + j)) := by unfold chunkEnd; omega
        have hhi : chunkEnd g a n (j + 1) = min (a + n) (g * (a / g + j) + g) := by unfold chunkEnd; omega
        rw [if_pos hlt]
        simp only [List.flatMap_cons, List.flatMap_nil, List.append_nil]
        rw [hlo, hhi, ← List.take_add]
        congr 1
        omega
      · have he : chunkEnd g a n (j + 1) = chunkEnd g a n j := by unfold chunkEnd; omega
        rw [if_neg hlt, he]
        simp
  have hk : a + n ≤ g * (a / g + ((a + n + g - 1) / g - a / g)) := by
    have h1 : a / g ≤ (a + n + g - 1) / g := Nat.div_le_div_right (by omega)
    rw [Nat.add_sub_cancel' h1]
    have h2 := Nat.lt_mul_div_succ (a + n + g - 1) hg
    rw [Nat.mul_add] at h2
    omega
  refine (key _).trans (List.take_of_length_le ?_)
  unfold chunkEnd
  omega

theorem memBytes_drop_take (m : Memory) (a n j k : Nat) (h : j + k ≤ n) : ((memBytes m a n).drop j).take k = memBytes m (a + j) k := by
  refine List.ext_getElem (by simp; omega) fun i h1 h2 => ?_
  have hi : i < k := by simpa using h2
  have h3 := memBytes_getD m a n (j + i) (by omega)
  have h4 := memBytes_getD m (a + j) k i hi
  rw [List.getD_eq_getElem _ _ (by simp; omega)] at h3
  rw [List.getD_eq_getElem _ _ h2] at h4
  rw [List.getElem_take, List.getElem_drop, h3, h4, Nat.add_assoc]

/-! ### What a copy reads -/

/-- The stores that a path of a thread may bind are its own, where no other thread's store path holds a byte. -/
theorem pathStores_own {s : State} {w : Who} {l : List Seg} (h : s.pathStores w false l = []) : ∀ p ∈ s.pathStores w true l, p.1.slot = w.slot := by
  intro p hp
  obtain ⟨e, he, hpe⟩ := List.mem_flatMap.mp hp
  have h0 := List.flatMap_eq_nil_iff.mp h e he
  by_cases hk : e.1.2 = w.slot
  · split at hpe
    · cases hpe
    · obtain ⟨o, -, ho⟩ := List.mem_filterMap.mp hpe
      split at ho
      · split at ho
        · cases ho
          exact hk
        · cases ho
      · cases ho
  · simp only [hk, decide_false, Bool.false_and, Bool.or_false, Bool.not_false, Bool.not_true] at h0 hpe
    rw [h0] at hpe
    cases hpe

theorem forwardRun_own {x : Seg} {c : Nat} (hc : x.core = some c) (bs : List Byte) (a : MemAcc) : forwardRun x bs a = bs := by
  unfold forwardRun
  split
  · simp [hc]
  · rfl

theorem dedup_length_le_one {l : List Nat} {k : Nat} (h : ∀ x ∈ l, x = k) : l.dedup.length ≤ 1 := by
  have hs : l.dedup ⊆ [k] := fun x hx => by simpa using h x (List.mem_dedup.mp hx)
  exact (List.subperm_of_subset (List.nodup_dedup l) hs).length_le

/-- What a read of the own scratchpad by a path of the thread may change: what its operations wait for. -/
structure State.OnlyWaits (c k : Nat) (s s' : State) : Prop where
  agenda : s'.agenda = s.agenda
  mem : s'.mem = s.mem
  cores : s'.cores = s.cores
  cur : s'.cur = s.cur
  thread : ∀ t, s.thread? c k = some t → ∃ t', s'.thread? c k = some t' ∧ t'.g = t.g ∧ t'.ops.map (·.stream) = t.ops.map (·.stream)

theorem State.OnlyWaits.refl (c k : Nat) (s : State) : State.OnlyWaits c k s s :=
  ⟨rfl, rfl, rfl, rfl, fun t h => ⟨t, h, rfl, rfl⟩⟩

theorem State.OnlyWaits.trans {c k : Nat} {s s1 s2 : State} (h : s.OnlyWaits c k s1) (h' : s1.OnlyWaits c k s2) : s.OnlyWaits c k s2 where
  agenda := h'.agenda.trans h.agenda
  mem := h'.mem.trans h.mem
  cores := h'.cores.trans h.cores
  cur := h'.cur.trans h.cur
  thread t ht := by
    obtain ⟨t1, h1, hg1, ho1⟩ := h.thread t ht
    obtain ⟨t2, h2, hg2, ho2⟩ := h'.thread t1 h1
    exact ⟨t2, h2, hg2.trans hg1, ho2.trans ho1⟩

theorem State.OnlyWaits.modThread (c k : Nat) (s : State) {f : Thread → Thread} (hg : ∀ t, (f t).g = t.g)
    (ho : ∀ t, (f t).ops.map (·.stream) = t.ops.map (·.stream)) : s.OnlyWaits c k (s.modThread c k f) where
  agenda := State.modThread_agenda ..
  mem := State.modThread_mem ..
  cores := State.modThread_cores ..
  cur := State.modThread_cur ..
  thread t ht := ⟨f t, (State.thread?_modThread_self ..).trans (congrArg _ ht), hg t, ho t⟩

theorem bindsPath_streams (t : Thread) (n : BitVec 3) (id : Nat) (l : List OpRef) :
    (t.bindsPath n id l).ops.map (·.stream) = t.ops.map (·.stream) := by
  rw [Thread.bindsPath, List.map_map]
  refine List.map_congr_left fun o _ => ?_
  dsimp only [Function.comp]
  split <;> rfl

/-- A path of a thread reads the bytes of a run of the own scratchpad. -/
theorem readFor_path_own {s : State} {w : Who} {t : Thread} {o n : Nat} (hc : t.cons = none) (hh : s.spHeld w.core o n = false)
    (hp : s.spPoison w.core o n = none) (hps : s.pathStores w false [⟨some w.core, o, n, false⟩] = []) :
    ∃ s', State.readFor w t .path [⟨some w.core, o, n, false⟩] s = .ok (memBytes (s.core w.core).sp o n) s' ∧ s.OnlyWaits w.core w.slot s' := by
  have hr := readSegs_own w .path hh hp
  have hv : (Via.path == .path) = true := rfl
  simp only [State.readFor, Thread.not_buffered_of_cons hc, Bool.false_eq_true, if_false, State.readBound, hv]
  split
  · exact ⟨s, hr, .refl ..⟩
  · have hone : ¬ 1 < ((s.pathStores w true [⟨some w.core, o, n, false⟩]).map (·.1.slot)).dedup.length := by
      refine not_lt.mpr (dedup_length_le_one (k := w.slot) fun x hx => ?_)
      obtain ⟨p, hp, rfl⟩ := List.mem_map.mp hx
      exact pathStores_own hps p hp
    have hfold : ∀ (l : List (OpRef × MemAcc)) (bs : List Byte),
        l.foldl (fun b p => forwardRun ⟨some w.core, o, n, false⟩ b p.2) bs = bs := by
      intro l
      induction l with
      | nil => exact fun _ => rfl
      | cons p l ih => exact fun bs => by rw [List.foldl_cons, forwardRun_own rfl, ih]
    have hlen : (memBytes (s.core w.core).sp o n).take n = memBytes (s.core w.core).sp o n := List.take_of_length_le (by simp)
    rw [if_neg hone, hr]
    simp only [Got.bind, cutSegs, List.map_cons, List.map_nil, hfold, List.flatten_cons, List.flatten_nil, List.append_nil, hlen]
    refine ⟨_, rfl, ?_⟩
    split
    · exact .modThread _ _ _ (fun _ => rfl) (fun t => bindsPath_streams t _ _ _)
    · exact .refl ..

/-! ### The operation of a copy instruction -/

theorem modOp_streams (t : Thread) (id : Nat) {f : Op → Op} (hf : ∀ o, (f o).stream = o.stream) :
    (t.modOp id f).ops.map (·.stream) = t.ops.map (·.stream) := by
  rw [Thread.modOp, List.map_map]
  refine List.map_congr_left fun o _ => ?_
  dsimp only [Function.comp]
  split
  · exact hf o
  · rfl

/-- A copy from the own scratchpad sends all its bytes at once. -/
theorem tryCopy_own {s : State} {c k : Nat} {t : Thread} {o : Op} {x : CopyOp} (hc : t.cons = none) (ht : s.thread? c k = some t)
    (ham : x.am = .own) (hsent : x.sent = false) (hnext : x.next = 0) (hch : s.chanWaits c x.ea.toNat x.len = false)
    (hh : s.spHeld c x.ea.toNat x.len = false) (hp : s.spPoison c x.ea.toNat x.len = none)
    (hps : s.pathStores (s.whoOp c k t o) false [⟨some c, x.ea.toNat, x.len, false⟩] = []) :
    ∃ s' t', s.tryCopy c k t o x = s' ∧ s'.agenda = s.agenda ++ x.events ⟨c, k, o.id⟩ t.region (memBytes (s.core c).sp x.ea.toNat x.len)
        ++ [.sendComplete ⟨c, k, o.id⟩] ∧ s'.thread? c k = some t' ∧ t'.g = t.g ∧ t'.ops.map (·.stream) = t.ops.map (·.stream) ∧
      s'.mem = s.mem ∧ s'.cores = s.cores ∧ s'.cur = s.cur := by
  have hcs : s.copySrc c t x x.len = (.ok [⟨some c, x.ea.toNat, x.len, false⟩], s) := by
    simp only [State.copySrc, ham, hnext, Nat.add_zero, Nat.sub_zero]
  have hw : s.segsWait [⟨some c, x.ea.toNat, x.len, false⟩] = false := by
    simp [State.segsWait, hch]
  obtain ⟨s1, hrd, h1⟩ := readFor_path_own (w := s.whoOp c k t o) hc hh hp hps
  let x' : CopyOp := { x with next := x.len, sent := true }
  have hdone : s.tryCopy c k t o x = ((s1.push (x.events ⟨c, k, o.id⟩ t.region (memBytes (s.core c).sp x.ea.toNat x.len))).setCopy c k o.id x').push
      [.sendComplete ⟨c, k, o.id⟩] := by
    simp only [State.tryCopy, hsent, Bool.false_eq_true, if_false, Thread.not_buffered_of_cons hc, Bool.false_and, hcs, hw]
    rw [show State.readFor (s.whoOp c k t o) t .path [⟨some c, x.ea.toNat, x.len, false⟩] s = _ from hrd]
    rfl
  obtain ⟨t1, ht1, hg1, ho1⟩ := h1.thread t ht
  refine ⟨_, t1.modOp o.id fun o => { o with kind := .copy x' }, hdone, ?_, ?_, hg1, ?_, ?_, ?_, ?_⟩
  · simp only [State.push_agenda, State.setCopy, State.modThread_agenda, h1.agenda]
  · simp only [State.thread?_push, State.setCopy, State.thread?_modThread_self]
    rw [show s1.thread? c k = some t1 from ht1]
    rfl
  · exact (modOp_streams t1 o.id (f := fun o => { o with kind := .copy x' }) fun _ => rfl).trans ho1
  · simp only [State.push_mem, State.setCopy, State.modThread_mem, h1.mem]
  · simp only [State.push_cores, State.setCopy, State.modThread_cores, h1.cores]
  · simp only [State.push_cur, State.setCopy, State.modThread_cur, h1.cur]

/-- The operation that a copy instruction with its source in the own scratchpad becomes. -/
def ownCopy (t : Thread) (a b c : GReg) (chan : BitVec 4) (d : Nat) (arith : Option (ArithOp × ElemType × Bool)) (seq : Bool) : CopyOp :=
  let x : CopyOp := ⟨t.rg a, .own, (t.rg b).toNat, d, ((t.rg c).extractLsb' 0 18).toNat, chan, ((t.rg c).extractLsb' 20 18).toNat, arith,
    if seq then some ((t.rg c).extractLsb' 48 16) else none, 0, 0, false, 0, 0, 0, 0⟩
  { x with total := x.count }

/-- A copy instruction of a quiet thread from its own scratchpad sends all at its issue, and its operation stays. -/
theorem issueCopy_own {s : State} {t : Thread} {g : Guard} (hq : Quiet t) (hr : Runs s t g) (str : Str) {am : SrcMode} {a b c : GReg}
    (chan : BitVec 4) (arith : Option (ArithOp × ElemType × Bool)) {seq : Bool} {d doff : Nat}
    (hok : CopyOk s t am (t.rg a) (t.rg b) (t.rg c) d (arith.elim 1 fun y => elemBytes y.2.1) doff seq) (hal : arith = none → doff % 64 = 0) :
    ∃ (s' : State) (t' : Thread) (o : Op), issueCopy g str am a b c chan arith seq s = .next s' ∧
      s'.agenda = s.agenda ++ (ownCopy t a b c chan d arith seq).events (me s t) t.region (localBytes s (t.rg a).toNat (t.rg b).toNat)
        ++ [.sendComplete (me s t)] ∧
      s'.curT? = some t' ∧ t'.ops = [o] ∧ o.stream = some str.stream ∧ t'.g = t.g ∧ s'.mem = s.mem ∧ s'.cores = s.cores := by
  obtain ⟨rfl, hd, hl, hmax, hlen, hga, rfl, hdoff, hz1, hz2, hz3⟩ := hok
  obtain ⟨hlt, hsz, hch, hsh, hh, hp, hps⟩ := id hl
  let t1 : Thread := (t.countClamp (s.clamps s.cur.core str.scope (scopeFloor s.cur.core .named (some d)))).addOp
    (s.newOp t (some str.stream) str.pmask (s.effScope s.cur.core str.scope (scopeFloor s.cur.core .named (some d))) []
      (.copy (ownCopy t a b c chan d arith seq)))
  have hchk : ((t.rg c).extractLsb' 38 10 ≠ 0 || (t.rg c).extractLsb' 18 2 ≠ 0 || (!seq && (t.rg c).extractLsb' 48 16 ≠ 0) ||
      196608 < (t.rg b).toNat || (if arith.isSome then (t.rg b).toNat % (arith.elim 1 fun y => elemBytes y.2.1) ≠ 0 ||
        ((t.rg c).extractLsb' 20 18).toNat % (arith.elim 1 fun y => elemBytes y.2.1) ≠ 0 ||
        (t.rg a).toNat % (arith.elim 1 fun y => elemBytes y.2.1) ≠ 0 else ((t.rg c).extractLsb' 20 18).toNat % 64 ≠ 0 : Bool)) = false := by
    have h3 : (!seq && decide ((t.rg c).extractLsb' 48 16 ≠ 0)) = false := by
      rcases hz3 with rfl | h
      · rfl
      · simp [h]
    cases arith with
    | none =>
      simp only [hz1, hz2, h3, hal rfl, not_lt.mpr hmax, ne_eq, not_true_eq_false, decide_false, Bool.or_self, Option.isSome_none,
        Bool.false_eq_true, if_false]
    | some y =>
      simp only [hz1, hz2, h3, hlen, hga, hdoff, not_lt.mpr hmax, ne_eq, not_true_eq_false, decide_false, Bool.or_self, Option.isSome_some,
        if_true]
  have hrun : issueCopy g str .own a b c chan arith seq s = .next ((s.setCur t1).tryCopy s.cur.core s.cur.slot t1
      (s.newOp t (some str.stream) str.pmask (s.effScope s.cur.core str.scope (scopeFloor s.cur.core .named (some d))) []
        (.copy (ownCopy t a b c chan d arith seq))) (ownCopy t a b c chan d arith seq)) := by
    refine (guarded_true hr.1 hr.2 _).trans ?_
    simp only [hd, hchk, Bool.false_eq_true, if_false]
    have hloc : (if (decide ((t.rg b).toNat = 0) || decide (srcMode .own = .virt)) = true then LocRes.virt
        else s.locCheck s.cur.core t (srcMode .own) 0 (t.rg a) (t.rg b).toNat false false) = .virt ∨
        (if (decide ((t.rg b).toNat = 0) || decide (srcMode .own = .virt)) = true then LocRes.virt
        else s.locCheck s.cur.core t (srcMode .own) 0 (t.rg a) (t.rg b).toNat false false) = .segs (ownRun s (t.rg a).toNat (t.rg b).toNat) := by
      by_cases h0 : (t.rg b).toNat = 0
      · exact .inl (by simp [h0])
      · have hlt' : (t.rg a).toNat < 16777216 := hlt
        exact .inr (by simp [h0, srcMode, State.locCheck, hlt', hsz, ownRun])
    have hshr : s.segsShrink (ownRun s (t.rg a).toNat (t.rg b).toNat) = false := by
      simp [State.segsShrink, ownRun, hsh]
    have hcur : ((s.modCur (·.countClamp (s.clamps s.cur.core str.scope (scopeFloor s.cur.core .named (some d))))).enterOp
        (s.newOp t (some str.stream) str.pmask (s.effScope s.cur.core str.scope (scopeFloor s.cur.core .named (some d))) []
          (.copy (ownCopy t a b c chan d arith seq)))) = s.setCur t1 := by
      rw [State.modCur_eq_setCur hr.1, State.enterOp, State.modCur_eq_setCur (State.curT?_setCur ..), State.setCur_setCur]
    have hvirt : (decide ((t.rg b).toNat = 0) || decide (srcMode .own ≠ .virt)) = true := by simp [srcMode]
    rcases hloc with h | h <;>
    · simp only [h, hshr, Quiet.notFull hq, hvirt, Quiet.notBuffered hq, Quiet.noEdges hq, Bool.or_self, Bool.false_eq_true, if_false, if_true,
        List.isEmpty_nil, Bool.not_true]
      refine Eq.trans (b := match (s.setCur t1).curT? with
        | some t' => .next ((s.setCur t1).tryCopy s.cur.core (s.setCur t1).cur.slot t' (s.newOp t (some str.stream) str.pmask
            (s.effScope s.cur.core str.scope (scopeFloor s.cur.core .named (some d))) [] (.copy (ownCopy t a b c chan d arith seq)))
            (ownCopy t a b c chan d arith seq))
        | none => .next (s.setCur t1)) ?_ (by rw [State.curT?_setCur]; rfl)
      rw [← hcur]
      rfl
  have hclamp : ∀ b, (t.countClamp b).ops = t.ops ∧ (t.countClamp b).cons = t.cons ∧ (t.countClamp b).g = t.g ∧
      (t.countClamp b).region = t.region := fun b => by
    unfold Thread.countClamp
    split <;> exact ⟨rfl, rfl, rfl, rfl⟩
  obtain ⟨hco, hcc, hcg, hcr⟩ := hclamp (s.clamps s.cur.core str.scope (scopeFloor s.cur.core .named (some d)))
  obtain ⟨s', t', hs', hag, ht', hg', ho', hm', hc', hu'⟩ := tryCopy_own (s := s.setCur t1) (c := s.cur.core) (k := s.cur.slot) (t := t1)
    (o := s.newOp t (some str.stream) str.pmask (s.effScope s.cur.core str.scope (scopeFloor s.cur.core .named (some d))) []
        (.copy (ownCopy t a b c chan d arith seq))) (x := ownCopy t a b c chan d arith seq) (hcc.trans hq.1) (State.curT?_setCur ..) rfl rfl rfl
    hch hh hp ((pathStores_setCur s t1 rfl rfl _).trans hps)
  have hops : t'.ops.map (·.stream) = [some str.stream] := by
    rw [ho', Thread.addOp_ops, hco, hq.2.1]
    rfl
  obtain ⟨o, ho, hos⟩ := List.map_eq_singleton_iff.mp hops
  refine ⟨s', t', o, hrun.trans (congrArg Host.Outcome.next hs'), ?_, ?_, ho, hos, hg'.trans hcg, hm', hc'⟩
  · rw [hag, show t1.region = t.region from hcr]
    rfl
  · rw [State.curT?, hu']
    exact ht'

/-! ### What leaves -/

/-- The packets of a copy are one for each piece of a granule of the channel. -/
theorem events_packets {x : CopyOp} (h : x.arith = none) (ref : OpRef) (region : Nat) (bs : List Byte) :
    x.events ref region bs = ((chunks 64 (x.off + x.next) bs.length).map fun g : Nat × Nat =>
      (⟨ref, region, x.dst, x.lcn, x.chan, g.1, (bs.drop (g.1 - x.off - x.next)).take g.2, g.1 + g.2 = x.off + x.len⟩ : EvPacket)).map
        .packetArrival := by
  simp only [CopyOp.events, h, List.map_map]
  rfl

theorem sendPackets {s : State} {t : Thread} {d doff : Nat} (hq : Quiet t) {x : SendC} (hr : Runs s t x.g)
    (hok : CopyOk s t x.am (t.rg x.a) (t.rg x.b) (t.rg x.c) d 1 doff false) (hal : doff % 64 = 0) :
    ∃ (s' : State) (es : List EvPacket) (t' : Thread) (o : Op), exec (.send x) s = .next s' ∧
        s'.agenda = s.agenda ++ es.map .packetArrival ++ [.sendComplete ⟨s.cur.core, s.cur.slot, t.nextOp⟩] ∧
        s'.curT? = some t' ∧ t'.ops = [o] ∧ o.stream = some x.str.stream ∧ t'.g = t.g ∧ s'.mem = s.mem ∧ s'.cores = s.cores ∧
        es.flatMap (·.bytes) = localBytes s (t.rg x.a).toNat (t.rg x.b).toNat ∧
        ∀ e ∈ es, e.dst = d ∧ e.chan = x.chan ∧ doff ≤ e.off ∧ 0 < e.bytes.length ∧ e.off % 64 + e.bytes.length ≤ 64 ∧
          e.bytes = ((localBytes s (t.rg x.a).toNat (t.rg x.b).toNat).drop (e.off - doff)).take e.bytes.length := by
  have hdoff : doff = ((t.rg x.c).extractLsb' 20 18).toNat := hok.2.2.2.2.2.2.1
  obtain ⟨s', t', o, he, hag, ht, ho, hs, hg, hm, hc⟩ := issueCopy_own hq hr x.str x.chan none hok fun _ => hal
  rw [events_packets rfl] at hag
  have hlen : (localBytes s (t.rg x.a).toNat (t.rg x.b).toNat).length = (t.rg x.b).toNat := memBytes_length ..
  refine ⟨s', _, t', o, he, hag, ht, ho, hs, hg, hm, hc, ?_, ?_⟩
  · rw [List.flatMap_map]
    have hf := chunks_flatMap (g := 64) (a := ((t.rg x.c).extractLsb' 20 18).toNat) (by decide)
      (localBytes s (t.rg x.a).toNat (t.rg x.b).toNat) rfl
    exact hf
  · intro e he
    obtain ⟨g, hg, rfl⟩ := List.mem_map.mp he
    obtain ⟨h1, h2, h3, h4⟩ := mem_chunks hg
    have hb : (((localBytes s (t.rg x.a).toNat (t.rg x.b).toNat).drop (g.1 - doff)).take g.2).length = g.2 := by
      rw [List.length_take, List.length_drop, hlen]
      rw [hlen] at h3
      simp only [ownCopy] at h1 h3
      omega
    refine ⟨rfl, rfl, ?_, ?_, ?_, ?_⟩
    · rw [hdoff]; exact h1
    all_goals rw [hdoff] at hb
    · exact hb.symm ▸ h2
    · exact hb.symm ▸ h4
    · rw [hdoff]
      exact congrArg (fun n => List.take n (List.drop (g.1 - ((t.rg x.c).extractLsb' 20 18).toNat) (localBytes s (t.rg x.a).toNat (t.rg x.b).toNat)))
        hb.symm

/-- The elements of the source bytes of a copy. -/
theorem sourceElems (m : Memory) (a n k : Nat) :
    (List.range (n / k)).map (fun i => BitVec.ofNat 64 (ofBytes (((memBytes m a n).drop (k * i)).take k))) =
      (List.range (n / k)).map fun i => (BitVec.ofNat 64 (memNat m (a + k * i) k) : Word) := by
  refine List.map_congr_left fun i hi => ?_
  have h : k * i + k ≤ n := by
    calc k * i + k = k * (i + 1) := by ring
      _ ≤ k * (n / k) := Nat.mul_le_mul_left k (List.mem_range.mp hi)
      _ ≤ n := Nat.mul_div_le n k
  rw [memBytes_drop_take m a n (k * i) k h]
  rfl

theorem flatMap_getD_range (l : List Word) : ((List.range l.length).flatMap fun i => [l.getD i 0]) = l := by
  rw [← List.map_eq_flatMap (f := fun i => l.getD i 0)]
  refine List.ext_getElem (by simp) fun i h1 h2 => ?_
  simp [h2]

/-- The updates of a copy: one for each element, or one of all where they are sequenced. -/
def updatesOf (x : CopyOp) (op : ArithOp) (ty : ElemType) (m : Bool) (ref : OpRef) (region : Nat) (es : List Word) : List EvUpdate :=
  match x.seq with
  | some q => if es.isEmpty then [] else [⟨ref, region, x.dst, x.lcn, x.chan, x.off, op, ty, m, es, some q⟩]
  | none => (List.range es.length).map fun i => ⟨ref, region, x.dst, x.lcn, x.chan, x.off + x.next + elemBytes ty * i, op, ty, m, [es.getD i 0], none⟩

theorem events_updates {x : CopyOp} {op : ArithOp} {ty : ElemType} {m : Bool} (h : x.arith = some (op, ty, m)) (ref : OpRef) (region : Nat)
    (bs : List Byte) :
    x.events ref region bs = (updatesOf x op ty m ref region ((List.range (bs.length / elemBytes ty)).map fun i =>
      BitVec.ofNat 64 (ofBytes ((bs.drop (elemBytes ty * i)).take (elemBytes ty))))).map .updateArrival := by
  simp only [CopyOp.events, h, updatesOf]
  cases x.seq with
  | none =>
    rw [List.map_map]
    rfl
  | some q =>
    dsimp only
    split <;> rfl

theorem updatesOf_elems (x : CopyOp) (op : ArithOp) (ty : ElemType) (m : Bool) (ref : OpRef) (region : Nat) (es : List Word) :
    (updatesOf x op ty m ref region es).flatMap (·.elems) = es := by
  unfold updatesOf
  split
  · split
    next h => exact (List.isEmpty_iff.mp h).symm
    next => simp
  · rw [List.flatMap_map]
    exact flatMap_getD_range es

theorem mem_updatesOf {x : CopyOp} {op : ArithOp} {ty : ElemType} {m : Bool} {ref : OpRef} {region : Nat} {es : List Word} {e : EvUpdate}
    (h : e ∈ updatesOf x op ty m ref region es) : e.dst = x.dst ∧ e.chan = x.chan ∧ e.op = op ∧ e.ty = ty ∧ e.m = m := by
  unfold updatesOf at h
  split at h
  · split at h
    · cases h
    · rw [List.mem_singleton] at h
      subst h
      exact ⟨rfl, rfl, rfl, rfl, rfl⟩
  · obtain ⟨i, -, rfl⟩ := List.mem_map.mp h
    exact ⟨rfl, rfl, rfl, rfl, rfl⟩

theorem sendUpdates {s : State} {t : Thread} {d doff : Nat} (hq : Quiet t) {x : SendA} {op : ArithOp} (hr : Runs s t x.g)
    (hok : CopyOk s t x.am (t.rg x.a) (t.rg x.b) (t.rg x.c) d (elemBytes x.ty) doff x.seq) :
    ∃ (s' : State) (es : List EvUpdate) (t' : Thread) (o : Op),
        issueCopy x.g x.str x.am x.a x.b x.c x.chan (some (op, x.ty, x.m)) x.seq s = .next s' ∧
        s'.agenda = s.agenda ++ es.map .updateArrival ++ [.sendComplete ⟨s.cur.core, s.cur.slot, t.nextOp⟩] ∧
        s'.curT? = some t' ∧ t'.ops = [o] ∧ o.stream = some x.str.stream ∧ t'.g = t.g ∧ s'.mem = s.mem ∧ s'.cores = s.cores ∧
        (∀ e ∈ es, e.dst = d ∧ e.chan = x.chan ∧ e.op = op ∧ e.ty = x.ty ∧ e.m = x.m) ∧
        es.flatMap (·.elems) = (List.range ((t.rg x.b).toNat / elemBytes x.ty)).map (fun k => BitVec.ofNat 64
          (memNat (s.core s.cur.core).sp ((t.rg x.a).toNat + elemBytes x.ty * k) (elemBytes x.ty))) ∧
        (x.seq = false → ∀ k < es.length, (es.map (·.off))[k]? = some (doff + elemBytes x.ty * k) ∧ (es.map (·.elems.length))[k]? = some 1) ∧
        (x.seq = true → es.length ≤ 1 ∧ ∀ e ∈ es, e.seq = some ((t.rg x.c).extractLsb' 48 16) ∧ e.off = doff) := by
  have hdoff : doff = ((t.rg x.c).extractLsb' 20 18).toNat := hok.2.2.2.2.2.2.1
  obtain ⟨s', t', o, he, hag, ht, ho, hs, hg, hm, hc⟩ := issueCopy_own hq hr x.str x.chan (some (op, x.ty, x.m)) hok (fun h => by cases h)
  rw [events_updates rfl, localBytes, memBytes_length, sourceElems] at hag
  refine ⟨s', _, t', o, he, hag, ht, ho, hs, hg, hm, hc, fun e h => mem_updatesOf h, updatesOf_elems .., fun hseq k hk => ?_, fun hseq => ?_⟩
  · have hn : (ownCopy t x.a x.b x.c x.chan d (some (op, x.ty, x.m)) x.seq).seq = none := by simp [ownCopy, hseq]
    simp only [updatesOf, hn, List.length_map, List.length_range] at hk
    simp only [updatesOf, hn, List.length_map, List.length_range, List.map_map, List.getElem?_map, List.getElem?_range hk, hdoff]
    exact ⟨rfl, rfl⟩
  · have hn : (ownCopy t x.a x.b x.c x.chan d (some (op, x.ty, x.m)) x.seq).seq = some ((t.rg x.c).extractLsb' 48 16) := by simp [ownCopy, hseq]
    simp only [updatesOf, hn]
    split
    · simp
    · refine ⟨le_refl 1, fun e h => ?_⟩
      rw [List.mem_singleton] at h
      subst h
      exact ⟨rfl, hdoff.symm⟩

/-- Settles O15: a copy of a quiet thread reads its source at once, so that all its packets or updates leave with its issue. -/
theorem copiesLeave : Obligations.CopiesLeave := by
  intro s t d doff hq
  refine ⟨fun x hr hok hal => sendPackets hq hr hok hal, fun i x op hi hr hok => ?_⟩
  rcases hi with ⟨rfl, rfl⟩ | ⟨rfl, rfl⟩ | ⟨rfl, rfl⟩
  all_goals exact sendUpdates hq hr hok

end Sys2Proof.Machine
end

/-! ## Proofs: the messages leave (R284, R300 to R302) -/
section
namespace Sys2Proof.Machine
open Sys2Proof.Claims

/-! ### The header and the payload -/

/-- The fields of a header (R284). -/
def hdrFields (post kind prio : Nat) (ts : Option Nat) (src : BitVec 32) (devsub : Nat) (sptag : BitVec 16) : List (Nat × Nat × Nat) :=
  [(0, 6, post), (6, 2, kind), (8, 4, prio), (13, 1, bitN ts.isSome), (16, 48, ts.getD 0), (64, 32, src.toNat), (96, 8, devsub), (104, 16,
    sptag.toNat)]

theorem mkHdr_eq_packFields (post kind prio : Nat) (ts : Option Nat) (src : BitVec 32) (devsub : Nat) (sptag : BitVec 16) :
    mkHdr post kind prio ts src devsub sptag = BitVec.ofNat 128 (packFields (hdrFields post kind prio ts src devsub sptag)) := by
  have h1 : src.toNat % 2 ^ 32 = src.toNat := Nat.mod_eq_of_lt src.isLt
  have h2 : sptag.toNat % 2 ^ 16 = sptag.toNat := Nat.mod_eq_of_lt sptag.isLt
  refine congrArg (BitVec.ofNat 128) ?_
  simp only [hdrFields, packFields_cons, h1, h2]
  cases ts with
  | none => simp [packFields, bitN, Nat.add_assoc]
  | some v => simp [packFields, bitN, Nat.add_assoc]

theorem hdrFields_apart (post kind prio : Nat) (ts : Option Nat) (src : BitVec 32) (devsub : Nat) (sptag : BitVec 16) :
    recordApart (hdrFields post kind prio ts src devsub sptag) = true := rfl

/-- What a header is read for: the message with it. -/
theorem msg_of_mkHdr (post kind prio : Nat) (ts : Option Nat) (src : BitVec 32) (devsub : Nat) (sptag : BitVec 16) (pay : BitVec 384) (tag : BitVec 16) :
    let m : Msg := ⟨mkHdr post kind prio ts src devsub sptag, pay, tag⟩
    m.post = post % 64 ∧ m.kind = kind % 4 ∧ m.tsv = ts.isSome ∧ m.ts = ts.getD 0 % 2 ^ 48 ∧ m.srcTid = src := by
  have hl := hdrFields_apart post kind prio ts src devsub sptag
  simp only [Msg.post, Msg.kind, Msg.tsv, Msg.ts, Msg.srcTid, mkHdr_eq_packFields]
  refine ⟨?_, ?_, ?_, ?_, ?_⟩
  · rw [extractLsb'_packFields 0 6 post (by simp [hdrFields]) hl (by decide)]
    exact BitVec.toNat_ofNat post 6
  · rw [extractLsb'_packFields 6 2 kind (by simp [hdrFields]) hl (by decide)]
    exact BitVec.toNat_ofNat kind 2
  · exact getLsbD_packFields_bitN 13 ts.isSome (by simp [hdrFields]) hl (by decide)
  · rw [extractLsb'_packFields 16 48 (ts.getD 0) (by simp [hdrFields]) hl (by decide)]
    exact BitVec.toNat_ofNat _ 48
  · rw [extractLsb'_packFields 64 32 src.toNat (by simp [hdrFields]) hl (by decide), BitVec.ofNat_toNat, BitVec.setWidth_eq]

theorem payload_extract (t : Thread) (a : GReg) {k : Nat} (hk : k < 6) :
    (t.payload a).extractLsb' (64 * k) 64 = t.rg (a + BitVec.ofNat 6 k) := by
  have hl : recordApart ((List.range 6).map fun i => (64 * i, 64, (t.rg (a + BitVec.ofNat 6 i)).toNat)) = true := rfl
  rw [Thread.payload, extractLsb'_packFields (64 * k) 64 (t.rg (a + BitVec.ofNat 6 k)).toNat (List.mem_map.mpr ⟨k, List.mem_range.mpr hk, rfl⟩) hl
    (by omega), BitVec.ofNat_toNat, BitVec.setWidth_eq]

/-! ### The instructions -/

/-- What a message in flight leaves of the state that it leaves. -/
theorem sendMsg_eq (s : State) (core : Nat) (m : Msg) (src : Option OpRef) :
    ∃ e : EvMsg, e.core = core ∧ e.msg = m ∧ e.src = src ∧ (s.sendMsg core m src .new).agenda = s.agenda ++ [.messageArrival e] ∧
      (s.sendMsg core m src .new).threads = s.threads ∧ (s.sendMsg core m src .new).cur = s.cur ∧ (s.sendMsg core m src .new).mem = s.mem := by
  refine ⟨⟨core, m, src, false, { MsgMark.new with region := (s.postRegion (s.route core m.post) m.post).getD 0 }⟩, rfl, rfl, rfl, ?_⟩
  unfold State.sendMsg
  cases s.postRegion (s.route core m.post) m.post with
  | none => exact ⟨rfl, rfl, rfl, rfl⟩
  | some r =>
    refine ⟨?_, State.modRegion_threads .., State.modRegion_cur .., State.modRegion_mem ..⟩
    exact congrArg (· ++ _) (State.modRegion_agenda ..)

/-- A message of a quiet thread leaves at its issue, and its operation stays. -/
theorem issueMsg_of_quiet {s : State} {t : Thread} (hq : Quiet t) (ht : s.curT? = some t) (str : Str) (kind core post : Nat) (ts : Option Nat)
    (a : GReg) (gb gc : Word) :
    ∃ (s' : State) (e : EvMsg) (t' : Thread) (o : Op), issueMsg s t str kind core post ts a gb gc = .next s' ∧
      s'.agenda = s.agenda ++ [.messageArrival e] ∧ e.core = core ∧ e.src = some (me s t) ∧
      e.msg = ⟨s.msgHdr t post kind ts 0, t.payload a, (s.region? t.region).elim 0 (·.tag)⟩ ∧
      s'.curT? = some t' ∧ t'.ops = [o] ∧ o.stream = some str.stream ∧ t'.g = t.g ∧ s'.mem = s.mem := by
  let floor := if kind = 0 then scopeFloor s.cur.core .named (some core) else 0
  let msg : Msg := ⟨s.msgHdr t post kind ts 0, t.payload a, (s.region? t.region).elim 0 (·.tag)⟩
  let o := s.newOp t (some str.stream) str.pmask (s.effScope s.cur.core str.scope floor) [] (.msg core msg true)
  let t1 := (t.countClamp (s.clamps s.cur.core str.scope floor)).addOp o
  have hcur : (s.modCur (·.countClamp (s.clamps s.cur.core str.scope floor))).enterOp o = s.setCur t1 := by
    rw [State.modCur_eq_setCur ht, State.enterOp, State.modCur_eq_setCur (State.curT?_setCur ..), State.setCur_setCur]
  have hrun : issueMsg s t str kind core post ts a gb gc = .next ((s.setCur t1).sendMsg core msg (some (me s t)) .new) := by
    rw [← hcur, issueMsg]
    simp only [Quiet.notFull hq, Quiet.notBuffered hq, Quiet.noEdges hq, Bool.false_eq_true, if_false, List.isEmpty_nil, if_true]
    rfl
  obtain ⟨e, hec, hem, hes, hag, hth, hu, hm⟩ := sendMsg_eq (s.setCur t1) core msg (some (me s t))
  have hclamp : ∀ b, (t.countClamp b).ops = t.ops ∧ (t.countClamp b).g = t.g := fun b => by
    unfold Thread.countClamp
    split <;> exact ⟨rfl, rfl⟩
  refine ⟨_, e, t1, o, hrun, hag, hec, hes, hem, ?_, ?_, rfl, (hclamp _).2, hm⟩
  · rw [State.curT?, State.thread?, hth, hu]
    exact State.curT?_setCur s t1
  · exact (Thread.addOp_ops ..).trans (by rw [(hclamp _).1, hq.2.1]; rfl)

theorem extractLsb'_eq_zero_of_lt {v : Word} {lo w : Nat} (h : v.toNat < 2 ^ lo) : v.extractLsb' lo w = 0 := by
  rw [← BitVec.toNat_inj, BitVec.extractLsb'_toNat, Nat.shiftRight_eq_div_pow, Nat.div_eq_of_lt h]
  simp

/-- Settles O17: each form passes its checks, and its message leaves with the header and the payload that the fields give. -/
theorem messagesLeave : Obligations.MessagesLeave := by
  intro s t r hq hreg i str g a core post kind ts hi hr
  have hrun : ∃ gb gc, exec i s = issueMsg s t str kind core post ts a gb gc ∧ post < 64 ∧ kind < 4 ∧ ts.getD 0 < 2 ^ 48 := by
    rcases hi with ⟨b, rfl, rfl, rfl, rfl, hz, ho⟩ | ⟨b, rfl, rfl, rfl, rfl, hp, rfl⟩ | ⟨b, c, rfl, rfl, rfl, hc, rfl, hp, rfl⟩
    · refine ⟨t.rg b, 0, (guarded_true hr.1 hr.2 _).trans ?_, BitVec.isLt _, by decide, by decide⟩
      simp only [hreg, Option.bind_some, ho, hz, ne_eq, not_true_eq_false, if_false]
    · refine ⟨t.rg b, 0, (guarded_true hr.1 hr.2 _).trans ?_, hp, by decide, by decide⟩
      simp only [extractLsb'_eq_zero_of_lt (lo := 6) (w := 58) hp, ne_eq, not_true_eq_false, if_false]
      rfl
    · refine ⟨t.rg b, t.rg c, (guarded_true hr.1 hr.2 _).trans ?_, hp, by decide, hc⟩
      simp only [extractLsb'_eq_zero_of_lt (lo := 6) (w := 58) hp, extractLsb'_eq_zero_of_lt (lo := 48) (w := 16) hc, hq.1, ne_eq,
        not_true_eq_false, decide_false, Bool.or_self, Bool.false_eq_true, if_false, Option.any_none]
      rfl
  obtain ⟨gb, gc, he, hpost, hkind, hts⟩ := hrun
  obtain ⟨s', m, t', o, hn, hag, hmc, hms, hmm, ht', ho, hos, hg, hm⟩ := issueMsg_of_quiet hq hr.1 str kind core post ts a gb gc
  obtain ⟨f1, f2, f3, f4, f5⟩ := msg_of_mkHdr post kind ((s.region? t.region).elim 0 (·.prio)) ts t.tid 0 0 (t.payload a)
    ((s.region? t.region).elim 0 (·.tag))
  refine ⟨s', m, t', o, he.trans hn, hag, hmc, hms, ?_, ?_, ?_, ?_, ?_, fun k hk => ?_, ht', ho, hos, hg, hm⟩ <;> rw [hmm]
  · exact f1.trans (Nat.mod_eq_of_lt hpost)
  · exact f2.trans (Nat.mod_eq_of_lt hkind)
  · exact f5
  · exact f3
  · exact f4.trans (Nat.mod_eq_of_lt hts)
  · exact payload_extract t a hk

end Sys2Proof.Machine
end

/-! ## Proofs: where a trap loses its thread -/
section
namespace Sys2Proof.Machine
open Sys2Proof.Claims

/-- `shadowedWalk`, where the leaf of the page table gives the right to write as well. -/
def shadowedFrame : State := { shadowedWalk with mem := [(0x10000, 1), (0x10001, 0x40), (0x10002, 1), (0x14000, 0x7F)] }

/-- A software trap's report. -/
def plainTrap : TrapInfo := ⟨0x20, 0, .lead, 0, 0, 0, 0x200000, 0, 0, 0⟩

/-- The walk of the frame's write sets A and D in the leaf, and that write aborts the reader and what carries its tag. -/
theorem shadowedFrame_trap : ((shadowedFrame.takeTrap 0 0 plainTrap 12 []).thread? 0 0).isNone = true := by
  decide +kernel

/-- Refutes O25: the frame of a trap is written through the page table,
  whose entry takes A and D; in a state that lists a slot twice that write can abort
what the second entry names, and the trapping thread's slot is freed (R75, R335, R369). -/
theorem not_trapsTaken : ¬ Obligations.TrapsTaken := by
  rintro ⟨-, h, -⟩
  obtain ⟨t', x, ht, -⟩ := h shadowedFrame 0 0 (plainThread 0) plainTrap 12 [] rfl rfl
  have hn := shadowedFrame_trap
  rw [ht] at hn
  cases hn

end Sys2Proof.Machine
end

/-! ## Proofs: the elements of a pass (O22) -/

section
namespace Sys2Proof.Machine
open Sys2Proof.Claims

/-! ### The integer pass (R191) -/

theorem wrapN_eq_emod (w : Nat) (x : Int) : (wrapN w x : Int) = x % (2 ^ w : Nat) :=
  Int.toNat_of_nonneg (Int.emod_nonneg _ (by positivity))

theorem sextN_emod {w : Nat} (hw : 0 < w) (c : Nat) : sextN w c % ((2 ^ w : Nat) : Int) = (c : Int) % (2 ^ w : Nat) := by
  rw [sextN_eq_bmod hw, Int.bmod_emod]

/-- One step of an integer pass adds its product modulo 2^32. -/
theorem wrapN_sextN_add (c : Nat) (p : Int) : (wrapN 32 (sextN 32 c + p) : Int) = (c + p) % 2 ^ 32 := by
  rw [wrapN_eq_emod, Int.add_emod, sextN_emod (by decide), ← Int.add_emod]
  rfl

theorem foldl_add_eq (l : List Int) (a : Int) : l.foldl (· + ·) a = a + l.foldl (· + ·) 0 := by
  induction l generalizing a with
  | nil => simp
  | cons x xs ih => rw [List.foldl_cons, List.foldl_cons, ih (a + x), ih (0 + x)]; ring

theorem integerPassElement : IntegerPassElement := by
  intro marked g acc ab hacc
  simp only [passElem]
  generalize hb : false = b
  clear hb
  induction ab generalizing acc b with
  | nil => simpa using (Int.emod_eq_of_lt (Int.natCast_nonneg acc) (by exact_mod_cast hacc)).symm
  | cons x xs ih =>
    have hstep := wrapN_sextN_add acc (x.1.toInt * x.2.toInt)
    have hlt : wrapN 32 (sextN 32 acc + x.1.toInt * x.2.toInt) < 2 ^ 32 := by omega
    rw [List.foldl_cons, ih _ hlt, hstep, List.map_cons, List.foldl_cons, foldl_add_eq _ (0 + _), Int.emod_add_emod]
    congr 1
    ring

/-! ### A value written with a smaller exponent is delivered the same (R179, R185) -/

theorem log2_mul_two_pow {m : Nat} (hm : m ≠ 0) (k : Nat) : Nat.log2 (m * 2 ^ k) = Nat.log2 m + k := by
  induction k with
  | zero => simp
  | succ k ih =>
    have hmk : m * 2 ^ k ≠ 0 := by positivity
    rw [Nat.pow_succ, ← Nat.mul_assoc, Nat.mul_comm _ 2, Nat.log2_two_mul hmk, ih, Nat.add_assoc]

theorem topBit_mul_two_pow {m : Nat} (hm : m ≠ 0) (e : Int) (k : Nat) : topBit (m * 2 ^ k) (e - k) = topBit m e := by
  simp only [topBit, log2_mul_two_pow hm]
  omega

/-- Rounding to nearest even looks at the value, not at how its magnitude and exponent share it. -/
theorem roundAt_mul_two_pow (s : Bool) (m : Nat) (e q : Int) (k : Nat) :
    roundAt .rne s (m * 2 ^ k) (e - k) false q = roundAt .rne s m e false q := by
  by_cases hq : q ≤ e - k
  · have hqe : q ≤ e := by omega
    have hd : (e - q).toNat = k + (e - k - q).toNat := by omega
    simp [roundAt, hq, hqe, hd, Nat.pow_add, Nat.mul_assoc]
  · by_cases hqe : q ≤ e
    · have hk : k = (e - q).toNat + (q - (e - k)).toNat := by omega
      have hm : m * 2 ^ k = m * 2 ^ (e - q).toNat * 2 ^ (q - (e - k)).toNat := by
        conv_lhs => rw [hk]
        rw [Nat.pow_add, Nat.mul_assoc]
      have hpos := Nat.two_pow_pos (q - (e - k)).toNat
      simp [roundAt, hq, hqe, hm, hpos.ne]
    · have hd : (q - (e - k)).toNat = (q - e).toNat + k := by omega
      have hpos : 0 < 2 ^ k := by positivity
      have hlt (a b : Nat) : a * 2 ^ k < 2 * (b * 2 ^ k) ↔ a < 2 * b := by
        rw [← Nat.mul_assoc, Nat.mul_lt_mul_right hpos]
      have heq (a b : Nat) : 2 * (b * 2 ^ k) = a * 2 ^ k ↔ 2 * b = a := by
        rw [← Nat.mul_assoc, Nat.mul_left_inj hpos.ne']
      simp only [roundAt, hq, hqe, hd, if_false, Nat.pow_add _ _ k, Nat.mul_div_mul_right _ _ hpos, Nat.mul_mod_mul_right, hlt, heq,
        Bool.false_eq_true, Nat.add_zero,
        ne_eq, Nat.mul_eq_zero, hpos.ne', or_false]

theorem deliver_mul_two_pow (f : FFmt) (s : Bool) {m : Nat} (hm : m ≠ 0) (e : Int) (k : Nat) :
    f.deliver .rne false false (.fin s (m * 2 ^ k) (e - k)) = f.deliver .rne false false (.fin s m e) := by
  have hmk : m * 2 ^ k ≠ 0 := by positivity
  simp only [FFmt.deliver, deliverFin, hm, hmk, topBit_mul_two_pow hm, roundAt_mul_two_pow]

/-! ### The window of one product (R189) -/

/-- The window of one product reaches below the product's last bit. -/
theorem windowFloor_le {g m : Nat} (hg : g ≤ 32) (hm : m < 2 ^ 22) (e : Int) : topBit m e + (Nat.log2 g : Nat) - 54 ≤ e := by
  have hlm : Nat.log2 m ≤ 22 := by
    rw [Nat.log2_eq_log_two]
    exact (Nat.log_mono_right hm.le).trans (by rw [Nat.log_pow (by decide)])
  have hlg : Nat.log2 g ≤ 5 := by
    rw [Nat.log2_eq_log_two]
    exact (Nat.log_mono_right hg).trans (by rw [show 32 = 2 ^ 5 from rfl, Nat.log_pow (by decide)])
  simp only [topBit]
  omega

theorem windowOfOneProduct : WindowOfOneProduct := by
  intro g m s e _ hg hm hlt
  set l := topBit m e + (Nat.log2 g : Nat) - 54 with hl
  have hle : l ≤ e := windowFloor_le hg hlt e
  obtain ⟨k, hk⟩ : ∃ k : Nat, l = e - k := ⟨(e - l).toNat, by omega⟩
  have hfloor : floorAt m e l = m * 2 ^ k := by
    rw [floorAt, if_pos hle, show (e - l).toNat = k by omega]
  have hpos : 0 < m * 2 ^ k := by positivity
  have hw : windowSum g [.fin s m e] = (fp32.deliver .rne false false (.fin s (m * 2 ^ k) l)).1 := by
    have hcast : ((m : Int) * 2 ^ k) = (m * 2 ^ k : Nat) := by push_cast; rfl
    have hneg : ¬ ((m * 2 ^ k : Nat) : Int) < 0 := by omega
    have hpos' : ((m * 2 ^ k : Nat) : Int) > 0 := by omega
    cases s <;> simp only [windowSum, hm.ne', ← hl, hfloor, if_false, List.filterMap_cons, List.filterMap_nil, List.foldl_nil, List.map_cons,
      List.map_nil, List.foldl_cons, Int.zero_add, Bool.false_eq_true, if_true, Int.natAbs_neg, Int.natAbs_natCast, Int.neg_eq_zero]
    · rw [if_neg (by exact_mod_cast hpos.ne'), decide_eq_false hneg]
    · rw [if_neg (by exact_mod_cast hpos.ne'), decide_eq_true (Int.neg_neg_of_pos hpos')]
  rw [hw, hk, deliver_mul_two_pow fp32 s hm.ne']

/-- Settles O22: an integer pass by induction on its products, a window of one product by moving the exponent of the product. -/
theorem passElements : Obligations.PassElements := ⟨integerPassElement, windowOfOneProduct⟩

end Sys2Proof.Machine
end

/-! ## Proofs: YIELD rounds its 64 cycles up (O23) -/

section
namespace Sys2Proof.Machine
open Sys2Proof.Claims

/-- A plain thread in slot 0 of core 0, and nothing else. -/
def oneThread : State := { State.reset with threads := [((0, 0), plainThread 0)] }

/-- When the YIELD of the thread in slot 0 of core 0 ends, after an instruction. -/
def yieldEnds (o : Out) : Option Nat :=
  match o with
  | .next s => (s.thread? 0 0).map (·.yieldAt)
  | _ => none

/-- At 1500 MHz 64 cycles are 42 2/3 ns: `cyclesNs` rounds up to 43. -/
theorem yieldEnds_oneThread : yieldEnds (exec (.yield ⟨⟨0, false⟩⟩) oneThread) = some 43 := by
  decide +kernel

/-- Refutes O23: at the reset clock of 1500 MHz YIELD sets the thread aside for 43 ns, not for the 42 of the statement. -/
theorem not_sleepEndAndYield : ¬ Obligations.SleepEndAndYield := by
  rintro ⟨-, -, -, h⟩
  obtain ⟨hy, -⟩ := h oneThread (plainThread 0) ⟨⟨0, false⟩⟩ ⟨rfl, rfl⟩
  have hends := yieldEnds_oneThread
  rw [hy] at hends
  exact absurd hends (by decide +kernel)

end Sys2Proof.Machine
end

/-! ## Proofs: XQRY of a guest reads the guest table (O20) -/

section
namespace Sys2Proof.Machine
open Sys2Proof.Claims

/-- A residency of one tile at index 0, in a state. -/
def residencyIn (st : ResSt) : Residency :=
  ⟨st, false, .f32, 0, false, true, false, false, 1, 0, 0, 64, 0, 1, 0, 0, 0, [], [], 0, none, false⟩

/-- A plain thread of core 4 that runs as a guest. -/
def guestThread : Thread := { plainThread 0 with guest := some (4, 0) }

/-- The thread of core 4, of the next cluster, runs as a guest on core 0; entry 0 is loading in the guest table and resident in the cluster's own. -/
def guestOfCluster : State :=
  { State.reset with
    threads := [((0, 0), guestThread)]
    clusters := [(0, { Cluster.reset with table := [((true, 0), residencyIn .loading), ((false, 0), residencyIn .resident)] })] }

/-- The STATE field in the vector register 1 of the thread in slot 0 of core 0 after an instruction. -/
def queriedState (o : Out) : Option (BitVec 3) :=
  match o with
  | .next s => (s.thread? 0 0).map fun t => (t.rv 1).extractLsb' 0 3
  | _ => none

/-- XQRY answers the entry of the guest table. -/
theorem queriedState_guestOfCluster : queriedState (exec (.xqry ⟨⟨0, false⟩, 1, 0⟩) guestOfCluster) = some 1 := by
  decide +kernel

/-- Refutes O20: a guest's handles name the guest table first (R375), so XQRY answers the entry there and not the one of the same index, engine and
tag in the cluster's own table, which the statement names. -/
theorem not_engineStatusAndResidencies : ¬ Obligations.EngineStatusAndResidencies := by
  rintro ⟨h, -⟩
  obtain ⟨-, -, hq⟩ := h guestOfCluster guestThread (show _ = true by decide +kernel)
  obtain ⟨v, hx, hst, -⟩ := hq ⟨⟨0, false⟩, 1, 0⟩ (residencyIn .resident) ⟨rfl, rfl⟩ (by decide +kernel) rfl (by decide +kernel) (by decide +kernel)
  have hv : queriedState (exec (.xqry ⟨⟨0, false⟩, 1, 0⟩) guestOfCluster) = some (v.extractLsb' 0 3) := by
    rw [hx]
    rfl
  rw [queriedState_guestOfCluster, hst] at hv
  exact absurd hv (by decide)

end Sys2Proof.Machine
end

/-! ## Proofs: reported traps and THSTOP lose a thread too (O30, O32) -/

section
namespace Sys2Proof.Machine
open Sys2Proof.Claims

/-- After an instruction nothing stands in slot 0 of core 0. -/
def slotEmptied (o : Out) : Bool :=
  match o with
  | .next s => (s.thread? 0 0).isNone
  | _ => false

/-- The frame of the trap that an agent reports aborts what the second entry of the slot names. -/
theorem slotEmptied_trapEntry : slotEmptied (exec (.trapEntry ⟨0, 0, plainTrap⟩) shadowedFrame) = true := by
  decide +kernel

/-- Refutes O30: the write of a reported trap's frame through the page table can free the slot of the trapping thread in a state that lists a slot
twice (R75, R335, R369). -/
theorem not_wakesReachTheirThreads : ¬ Obligations.WakesReachTheirThreads := by
  intro h
  obtain ⟨-, -, -, -, -, -, htrap⟩ := h shadowedFrame
  obtain ⟨s', t', y, hx, ht, -⟩ := htrap ⟨0, 0, plainTrap⟩ (plainThread 0) rfl (by decide) rfl
  have hn := slotEmptied_trapEntry
  rw [hx] at hn
  rw [slotEmptied, ht] at hn
  cases hn

/-- THSTOP of the thread in slot 0 of core 0. -/
def stopFirst : EvThReq := ⟨⟨0, 0, 0⟩, 0, 0, .stop, 1⟩

/-- The frame of the stop aborts what the second entry of the slot names. -/
theorem slotEmptied_stop : slotEmptied (exec (.threadStateRequest stopFirst) shadowedFrame) = true := by
  decide +kernel

/-- Refutes O32: the write of the stop's frame through the page table can free the slot of the stopped thread in a state that lists a slot twice
(R75, R310, R335). -/
theorem not_threadStateRequests : ¬ Obligations.ThreadStateRequests := by
  rintro ⟨-, h⟩
  obtain ⟨-, hslot⟩ := h shadowedFrame stopFirst
  obtain ⟨-, -, hstop, -⟩ := hslot 0 0 (plainThread 0) (by decide +kernel) (by decide +kernel)
  obtain ⟨s', t', y, hx, ht, -⟩ := hstop rfl rfl (by decide) rfl rfl rfl
  have hn := slotEmptied_stop
  rw [hx] at hn
  rw [slotEmptied, ht] at hn
  cases hn

end Sys2Proof.Machine
end

/-! ## Proofs: passes that run -/
section
namespace Sys2Proof.Machine
open Sys2Proof.Claims

/-- An instruction of the engine under a true guard, on a core that has one. -/
theorem withEngine_true {s : State} {t : Thread} {g : Guard} (he : HasEngine s) (hr : Runs s t g) (f : Thread → Out) : withEngine g s f = f t := by
  refine (guarded_true hr.1 hr.2 _).trans ?_
  exact if_pos he

/-- A fresh pass begins by zeroing the views of XMM, then runs. -/
theorem beginPass_fresh (s : State) (c k : Nat) (o : Op) (x : MatOp) (y : Pass) (htile : x.tile = 0) (hrow : x.row = 0) (hlut : x.lut = none) :
    s.beginPass c k o x y =
      (s.modThread c k fun t => (if x.acc then t else t.zeroSpan y.views).modOp o.id fun o =>
        { o with kind := .mat { x with wts := some (y.key, y.res), lut := some (s.core c).lut } }).runPass c k
        { o with kind := .mat { x with wts := some (y.key, y.res), lut := some (s.core c).lut } }
        { x with wts := some (y.key, y.res), lut := some (s.core c).lut } y y.res := by
  rw [State.beginPass]
  simp only [htile, hrow, hlut, Option.getD_none, ne_eq, not_true_eq_false, decide_true, decide_false, Bool.and_true, Bool.false_and,
    Bool.false_eq_true, if_false]
  cases x.acc <;> rfl

/-- A quiet thread's pass whose checks pass and whose weights are there begins at once. -/
theorem issuePass_go {s s1 : State} {t : Thread} {x : XmmX} {y : Pass} (acc : Bool) (he : HasEngine s) (hr : Runs s t x.g) (hq : Quiet t)
    (hsh : (s.core s.cur.core).shrink = none) {m : MatOp}
    (hm : m = ⟨acc, x.d, t.rm x.a, x.drain.map fun d => (t.rm d.1, d.2), none, t.rg x.b, t.fmt, none, none, 0, 0, 0, x.str.stream, none⟩)
    (hc : s.passCheck s.cur.core t m = .ok y) (hp : s.passState s.cur.core s.cur.slot y = .go s1) {floor : BitVec 2}
    (hfl : floor = (m.a :: m.drain.toList.map (·.1)).foldl (fun a b => wider a (spaceFloor b)) 0) {m1 : MatOp} {o : Op}
    (hm1 : m1 = { m with dop := x.drain.map fun _ => t.nextOp + 1 })
    (ho : o = s.newOp t (some x.str.stream) x.str.pmask (s.effScope s.cur.core x.str.scope floor) [] (.mat m1)) :
    issuePass acc x s = .next ((match m1.dop with
      | some d => ((s1.modCur (·.countClamp (s1.clamps s.cur.core x.str.scope floor))).enterOp o).enterOp { o with id := d, kind := .drain }
      | none => (s1.modCur (·.countClamp (s1.clamps s.cur.core x.str.scope floor))).enterOp o).beginPass s.cur.core s.cur.slot o m1 y) := by
  have hn : t.counter x.str.stream.toNat = 0 := by rw [Thread.counter, hq.2.1]; rfl
  subst hm hfl hm1 ho
  rw [issuePass, withEngine_true he hr]
  have hfew : ¬ 63 < 0 + (if (x.drain.map fun d => (t.rm d.1, d.2)).isSome then 2 else 1) := by split <;> decide
  simp only [hc, hn, hfew, hsh, Option.any_none, decide_false, Bool.or_self, Bool.false_eq_true, if_false, Quiet.noEdges hq, List.isEmpty_nil,
    Bool.not_true, hp]
  cases x.drain <;> rfl

/-- Settles O21: with its checks passed, no edge to wait for and its weights there, the pass enters its operations, begins and runs. -/
theorem passesRun : Obligations.PassesRun := by
  intro acc s s1 s2 t t1 x m m1 n y o he hr hq hsh hm hc hp hcur ht1 _ _ hm1 hn ho hs2
  have hgo := issuePass_go acc he hr hq hsh hm hc hp rfl hm1 ho
  have henter : (s1.modCur (·.countClamp (s1.clamps s.cur.core x.str.scope
      ((m.a :: m.drain.toList.map (·.1)).foldl (fun a b => wider a (spaceFloor b)) 0)))).enterOp o = s2 := by
    rw [hs2, State.modCur_eq_setCur ht1, State.enterOp, State.modCur_eq_setCur (State.curT?_setCur ..), State.setCur_setCur]
  have hexec : exec (if acc then .xacc x else .xmm x) s = issuePass acc x s := by cases acc <;> rfl
  have hs2c : s2.cur = s.cur := by rw [hs2]; exact hcur
  have hs2l : s2.cores = s1.cores := by rw [hs2]; rfl
  rw [hexec, hgo, henter, beginPass_fresh _ _ _ _ _ _ (by rw [hm1, hm]) (by rw [hm1, hm]) (by rw [hm1, hm])]
  have hacc : m1.acc = acc := by rw [hm1, hm]
  have hid : o.id = t.nextOp := by rw [ho]; rfl
  have hlut : ∀ d : Option Nat, ((match d with
      | some d => s2.enterOp { o with id := d, kind := .drain }
      | none => s2).core s.cur.core).lut = (s1.core s.cur.core).lut := by
    intro d
    cases d <;> simp [State.core, State.enterOp, hs2l]
  have hmod : ∀ (d : Option Nat) (f : Thread → Thread), (match d with
      | some d => s2.enterOp { o with id := d, kind := .drain }
      | none => s2).modThread s.cur.core s.cur.slot f = (match d with
      | some d => s2.enterOp { o with id := d, kind := .drain }
      | none => s2).modCur f := by
    intro d f
    cases d <;> simp [State.modCur, State.enterOp, hs2c]
  subst hacc
  rw [hlut, hmod, ← hid, hn] <;> rfl

end Sys2Proof.Machine
end

/-! ## Proofs: the L1's rows of R94 -/
section
namespace Sys2Proof.Machine
open Sys2Proof.Claims

theorem mem_lineSecs (pa : Nat) : pa / 64 ∈ lineSecs pa := by
  rw [lineSecs, List.mem_map]
  exact ⟨pa / 64 % 4, List.mem_range.2 (Nat.mod_lt _ (by decide)), by omega⟩

theorem execWback_of_reaches {s : State} {c pa : Nat} (h : s.reaches c pa = true) :
    exec (.wback ⟨c, pa⟩) s = .next (match s.l1 c (pa / 64) with
      | some y => if y.leaves then s.delL1 c (pa / 64) else s
      | none => s) := by
  change execWback _ s = _
  rw [execWback, State.fromHome, if_pos h]
  simp only
  cases s.l1 c (pa / 64) <;> rfl

/-- The state, and the entry of the Lading Table, that a grant gives to a sector that awaits it (R94). -/
def granted : L1St → Grant → Option (L1St × Nat)
  | .isd, .s => some (.s, 0)
  | .isd, .e => some (.e, 0)
  | .imd, .m | .sma, .m => some (.m, 0)
  | .imd, .sw | .sma, .sw => some (.sw, 0)
  | .ild, .l i => some (.l, i)
  | _, _ => none

/-- The answer of DATA in a state that the grant fits, with no forward held. -/
theorem execData_granted {s : State} {c pa i : Nat} {x : L1Sec} {st : L1St} {d : V512} {g : Grant} (h : s.reaches c pa = true)
    (hx : s.l1 c (pa / 64) = some x) (hheld : x.held = none) (hg : granted x.st g = some (st, i)) :
    exec (.data ⟨c, pa, d, g⟩) s = .next (s.setL1 c (pa / 64)
      { L1Sec.of st d with entry := i, nt := x.nt, rd := x.rd, bad := if x.st == .sma then x.bad else s.poisonOf (pa / 64) }) := by
  have hrow : exec (.data ⟨c, pa, d, g⟩) s = s.fromHome c pa fun s => match s.l1 c (pa / 64) with
      | none => .next s
      | some y => match granted y.st g with
        | none => .next s
        | some (st, i) => .next (match y.held with
          | some (inv, txn) => (s.setL1 c (pa / 64) { L1Sec.of st d with
              entry := i, nt := y.nt, rd := y.rd, bad := if y.st == .sma then y.bad else s.poisonOf (pa / 64) }).forward c pa inv txn
          | none => s.setL1 c (pa / 64) { L1Sec.of st d with
              entry := i, nt := y.nt, rd := y.rd, bad := if y.st == .sma then y.bad else s.poisonOf (pa / 64) }) := rfl
  rw [hrow, State.fromHome, if_pos h]
  simp only [hx, hg, hheld]

/-- What L1 EVICTION takes: its own sector, unless another one of the line is placed first for replacement. -/
theorem execL1Eviction_own {s : State} {c pa : Nat} {x : L1Sec} (hx : s.l1 c (pa / 64) = some x)
    (h : (∀ y ∈ lineSecs pa, (s.l1 c y).any (·.nt) = false) ∨ x.nt = true) :
    exec (.l1Eviction ⟨c, pa⟩) s = .next (s.evict (s.partOf c) c (pa / 64) true true) := by
  change execL1Eviction _ s = _
  have hsec : (if ((lineSecs pa).filter fun y => (s.l1 c y).any (·.nt)).contains (pa / 64) then pa / 64
      else ((lineSecs pa).filter fun y => (s.l1 c y).any (·.nt)).head?.getD (pa / 64)) = pa / 64 := by
    rcases h with h | h
    · rw [List.filter_eq_nil_iff.2 fun y hy => by rw [h y hy]; decide]
      rfl
    · rw [if_pos]
      rw [List.contains_iff_mem, List.mem_filter]
      exact ⟨mem_lineSecs pa, by rw [hx]; exact h⟩
  rw [execL1Eviction]
  simp only [hsec]

theorem forward_none {s : State} {c pa : Nat} (hx : s.l1 c (pa / 64) = none) (inv : Bool) (no : Nat) :
    s.forward c pa inv no = s.push [.gone ⟨c, pa, false, no⟩] := by
  rw [State.forward, hx]

/-- What a forward does to a sector that the L1 has (R94). -/
theorem forward_some {s : State} {c pa : Nat} {x : L1Sec} (hx : s.l1 c (pa / 64) = some x) (inv : Bool) (no : Nat) :
    s.forward c pa inv no = (match x.st with
      | .m => (if inv then (s.setPoison (pa / 64) x.bad).delL1 c (pa / 64)
          else (s.setPoison (pa / 64) x.bad).setL1 c (pa / 64) { x with st := .s, held := none }).push [.ownerData ⟨c, pa, x.data⟩]
      | .e => (if inv then (s.setPoison (pa / 64) x.bad).delL1 c (pa / 64)
          else (s.setPoison (pa / 64) x.bad).setL1 c (pa / 64) { x with st := .s, held := none }).push [.clean ⟨c, pa⟩]
      | .mia => s.push [.gone ⟨c, pa, true, no⟩]
      | .isd | .imd | .sma => s.setL1 c (pa / 64) { x with held := some (inv, no) }
      | _ => s.push [.gone ⟨c, pa, false, no⟩]) := by
  rw [State.forward, hx]
  obtain ⟨st, data, dirty, entry, held, nt, rd, bad⟩ := x
  cases st <;> rfl

theorem execInv_core (s : State) (c pa : Nat) :
    exec (.inv ⟨.core c, pa, false⟩) s = .next ((s.invAt (pa / 64) c).push [.ack ⟨.inv c, pa⟩]) := rfl

/-- Settles O28, row by row of R94. -/
theorem l1TakesMessages : Obligations.L1TakesMessages := by
  rintro s c pa sec no rfl
  have hfs : ∀ no, exec (.fwds ⟨c, pa, no⟩) s = .next (s.forward c pa false no) := fun _ => rfl
  have hfx : ∀ no, exec (.fwdx ⟨c, pa, no⟩) s = .next (s.forward c pa true no) := fun _ => rfl
  refine ⟨fun hn => ⟨?_, fun d g => ?_⟩, fun hr hx => ⟨?_, ?_, ?_, ?_, fun d g => ?_⟩, ?_⟩
  · exact if_neg (by rw [hn]; decide)
  · exact if_neg (by rw [hn]; decide)
  · rw [hfs, forward_none hx]
  · rw [hfx, forward_none hx]
  · rw [execInv_core, State.invAt, hx]
  · rw [execWback_of_reaches hr, hx]
  · change execData _ s = _
    rw [execData, State.fromHome, if_pos hr]
    simp only [hx]
  · rintro x s1 hr hx rfl
    rw [hfs, hfx, forward_some hx, forward_some hx]
    refine ⟨fun h => ?_, fun h => ?_, fun hl => ?_, fun h => ?_, fun h => ?_, fun h => ?_, fun h => ?_, fun h => ?_, fun h => ?_, fun d hh => ?_⟩
    · simp [h]
    · simp [h]
    · rw [execL1Eviction_own hx hl, State.evict, hx]
      refine ⟨fun h => ?_, fun h => ?_, ?_⟩
      · simp [h]
      · simp [h]
      · rintro (h | h) <;> simp [h]
    · simp [h]
    · simp [h]
    · rw [execWback_of_reaches hr, hx]
      rcases h with h | h <;> simp [h, L1Sec.leaves]
    · rcases h with h | h | h <;> simp [h]
    · rw [execInv_core, State.invAt, hx]
      rcases h with h | h <;> simp [h]
    · rw [execInv_core, State.invAt, hx]
      simp [h]
    · refine ⟨fun h => ⟨?_, ?_⟩, fun b hb h => ?_, fun i h => ?_⟩
      · rw [execData_granted (st := .s) (i := 0) hr hx hh (by rw [h]; rfl), h]; rfl
      · rw [execData_granted (st := .e) (i := 0) hr hx hh (by rw [h]; rfl), h]; rfl
      · have hbad : (if x.st == .sma then x.bad else s.poisonOf (pa / 64)) = b := by
          rw [hb]
          rcases h with h | h <;> rw [h] <;> rfl
        constructor
        · rw [execData_granted (st := .m) (i := 0) hr hx hh (by rcases h with h | h <;> rw [h] <;> rfl), hbad]; rfl
        · rw [execData_granted (st := .sw) (i := 0) hr hx hh (by rcases h with h | h <;> rw [h] <;> rfl), hbad]; rfl
      · rw [execData_granted (st := .l) (i := i) hr hx hh (by rw [h]; rfl), h]; rfl

end Sys2Proof.Machine
end

/-! ## Proofs: fetch, pipes, and operations that go on -/
section
namespace Sys2Proof.Machine
open Sys2Proof.Claims

/-- A line that the fetch path delivers has passed its check (R19). -/
theorem parityOk_of_fetchLine {s s1 : State} {c k region : Nat} {pc : Word} {l : V512} (h : s.fetchLine c k region pc = (.ok l, s1)) :
    parityOk l = true := by
  rw [State.fetchLine] at h
  dsimp only at h
  grind

theorem fetchAndPipes : FetchAndPipes := by
  refine ⟨fun s s1 x t l ht hrun hva hf => ⟨fun hflip hbad => ?_, fun pa room l2 s2 s3 hpar htr hf2 => ⟨fun hpar2 hbad => ?_, fun hpar2 => ?_⟩⟩,
    fun s c k t ht => ⟨fun hd => ?_, fun hd => ?_, fun e l hq hrep hact => ?_⟩, fun s s1 g i r q q1 y hr hp hy hplace hq1 hw => ?_⟩
  · change execFetchLineArrival x s = _
    rw [execFetchLineArrival]
    simp [ht, hrun, hva, hf, hflip, parityOk_of_fetchLine hf, hbad]
  · change execFetchLineArrival x s = _
    rw [execFetchLineArrival]
    simp [ht, hrun, hva, hf, hpar, htr, hf2, hpar2, hbad]
  · have hx : exec (.fetchLineArrival x) s = .next (s3.fetchTrap x.core x.slot 0x03 0 0 12) := by
      change execFetchLineArrival x s = _
      rw [execFetchLineArrival]
      simp [ht, hrun, hva, hf, hpar, htr, hf2, hpar2]
    exact ⟨_, hx, rfl⟩
  · have hx : exec (.pipeDeadlock ⟨c, k⟩) s =
        .next (s.takeTrap c k ⟨0x24, 0, .trail, 7, 0, 0, t.trailAt, (t.trailQ.head?).elim 0 (·.iword), 0, 0⟩ 12 []) := by
      change execPipeDeadlock _ s = _
      simp [execPipeDeadlock, ht, hd]
    exact ⟨_, hx, rfl, rfl, rfl⟩
  · change execPipeDeadlock _ s = _
    simp [execPipeDeadlock, ht, hd]
  · change execReissue _ s = _
    simp [execReissue, ht, hq, hrep, hact]
  · let f : Part → Part := fun q => { q with pending := q.pending.erase y }
    let f' : Part → Part := fun q => { q with merge := q.merge.map fun k => if y.key.any (sameKey k) then { k with idx := some i } else k }
    let s2 := (s1.modPart r.part f).modPart r.part f'
    have hs2 : (s2.part? r.part).map (·.pending) = some (q1.pending.erase y) := by
      simp only [s2, State.part?_modPart, if_pos, hq1, Option.map_some]
      rfl
    have hx : exec (.queuedFaultRecordWrite ⟨g⟩) s = .next (if ((s2.part? r.part).elim [] (·.pending)).any fun z => z.region = g
        then s2.push [.queuedFaultRecordWrite ⟨g⟩] else s2) := by
      change execQueuedFaultRecordWrite _ s = _
      rw [execQueuedFaultRecordWrite]
      simp only [hr, hp, Option.elim_some, hy, hplace, hw]
      rfl
    refine ⟨_, hx, ?_, ?_⟩
    · split <;> exact hs2
    · split <;> simp [s2, State.push]

theorem op?_id {t : Thread} {id : Nat} {o : Op} (h : t.op? id = some o) : o.id = id := by
  rw [Thread.op?] at h
  exact of_decide_eq_true (List.find?_some (p := fun o : Op => decide (o.id = id)) h)

theorem owns_of_op? {t : Thread} {id : Nat} {o : Op} (h : t.op? id = some o) : t.owns id = true :=
  List.any_eq_true.2 ⟨o, List.mem_of_find?_eq_some h, decide_eq_true (op?_id h)⟩

theorem withOp_of_op? {s : State} {r : OpRef} {t : Thread} {o : Op} (ht : s.thread? r.core r.slot = some t) (ho : t.op? r.op = some o)
    (f : Nat → Nat → State → State) : s.withOp r f = f r.core r.slot s := by
  rw [State.withOp, ht, Option.any_some, owns_of_op? ho, if_pos rfl]

theorem execStreamOperationComplete_of_op? {s : State} {r : OpRef} {t : Thread} {o : Op} (ht : s.thread? r.core r.slot = some t)
    (ho : t.op? r.op = some o) : exec (.streamOperationComplete r) s =
      .next (if o.goes (t.st == .stopped || t.stop.isSome) then s.tryOp r.core r.slot t o else s) := by
  change (.next (s.withOp r _) : Out) = _
  rw [withOp_of_op? ht ho, State.goOn, ht, Option.bind_some, ho]
  rfl

/-- What a table walk does at its next entry when it may read it (R74). -/
theorem execTableWalk_of_op? {s : State} {r : OpRef} {t : Thread} {o : Op} (ht : s.thread? r.core r.slot = some t)
    (ho : t.op? r.op = some o) : exec (.tableWalk r) s = .next (s.walkOnAt r) := by
  change (.next (s.withOp r _) : Out) = _
  rw [withOp_of_op? ht ho]

theorem poisonedOp_of_op? {s : State} {r : OpRef} {t : Thread} {o : Op} {b : Bad} (ht : s.thread? r.core r.slot = some t)
    (ho : t.op? r.op = some o) (hk : ∀ y, o.kind ≠ .copy y) :
    ∃ k pipe, s.poisonedOp r.core r.slot r.op b = s.bindBad r.core r.slot t o b o.kind.addr k pipe := by
  rw [State.poisonedOp, ht, Option.bind_some, ho]
  cases h : o.kind with
  | copy y => exact absurd h (hk y)
  | _ => simp only [Option.map_some, h]; exact ⟨_, _, rfl⟩

theorem sendMsg_agenda (s : State) (core : Nat) (m : Msg) (src : Option OpRef) (mark : MsgMark) :
    ∃ mk, (s.sendMsg core m src mark).agenda = s.agenda ++ [.messageArrival ⟨core, m, src, false, mk⟩] := by
  unfold State.sendMsg
  cases s.postRegion (s.route core m.post) m.post with
  | none => exact ⟨_, rfl⟩
  | some r => exact ⟨_, congrArg (· ++ _) (State.modRegion_agenda ..)⟩

theorem operationsGoOn : OperationsGoOn := by
  intro s r t o ht ho
  have hid := op?_id ho
  refine ⟨fun hg => ?_, fun hg => ?_, fun core m hg hk => ?_, fun w a hw hk => ⟨fun hc => ?_, fun q s1 n hc hq hs1 hfree hstep hlvl => ?_⟩,
    fun x b s1 hp ht1 hk => ⟨fun hb => ?_, fun hb => ?_⟩, fun x s1 hp => ?_, fun p i l hl hheld => ?_⟩
  · rw [execStreamOperationComplete_of_op? ht ho, if_pos hg]
  · rw [execStreamOperationComplete_of_op? ht ho, if_neg (by rw [hg]; decide)]
  · rw [execStreamOperationComplete_of_op? ht ho, if_pos hg, State.tryOp, hk]
    simp only [cond_false, State.tryMsg]
    obtain ⟨mk, hmk⟩ := sendMsg_agenda (s.modThread r.core r.slot fun t => t.modOp o.id fun o => { o with kind := .msg core m true }) core m
      (some ⟨r.core, r.slot, o.id⟩) .new
    exact ⟨_, mk, rfl, by rw [hmk, State.modThread_agenda]⟩
  · rw [execTableWalk_of_op? ht ho, State.walkOnAt, ht, Option.bind_some, ho]
    simp only [Option.map_some, hw, hk, hc]
    exact ⟨_, rfl⟩
  · rw [execTableWalk_of_op? ht ho, State.walkOnAt, ht, Option.bind_some, ho]
    have hread : (inPriv q w.table && (!s.homeFree (s.partOf r.core) (pteAddr w.va w.table w.lvl / 64) ||
        ((s.lading? (s.partOf r.core) (pteAddr w.va w.table w.lvl)).any fun l => !l.2.clear))) = false := by
      cases hpriv : inPriv q w.table with
      | false => rfl
      | true => rw [(hfree hpriv).1, (hfree hpriv).2]; rfl
    simp only [Option.map_some, hw, hk, hc, hq, hread, ← hs1, hstep, hlvl, hid]
    rfl
  · obtain ⟨k, pipe, hpo⟩ := poisonedOp_of_op? (b := b) ht1 ho hk
    change execUncorrectableData (.read r x) s = _
    rw [execUncorrectableData, hp]
    simp only [withOp_of_op? ht1 ho, hpo, State.bindBad, hb, if_true]
  · obtain ⟨k, pipe, hpo⟩ := poisonedOp_of_op? (b := b) ht1 ho hk
    refine ⟨k, pipe, ?_⟩
    change execUncorrectableData (.read r x) s = _
    rw [execUncorrectableData, hp]
    simp only [withOp_of_op? ht1 ho, hpo, State.bindBad, hb, Bool.false_eq_true, if_false]
  · change execUncorrectableData (.read r x) s = _
    rw [execUncorrectableData, hp]
  · change ∃ s', execUncorrectableData (.lading p i) s = .next s' ∧ _
    rw [execUncorrectableData]
    simp only [hl, Option.filter_some, hheld, beq_self_eq_true, if_true]
    exact ⟨_, rfl, List.mem_append_right _ (List.mem_singleton_self _)⟩

/-- Settles O33. -/
theorem fetchPipesAndOperations : Obligations.FetchPipesAndOperations := ⟨fetchAndPipes, operationsGoOn⟩

end Sys2Proof.Machine
end

/-! ## Proofs: tensor instructions and manifest registers -/
section
namespace Sys2Proof.Machine
open Sys2Proof.Claims

/-- A tensor instruction with a true guard meets its checks first. -/
theorem issueTensor_checks {s : State} {t : Thread} {g : Guard} (hr : Runs s t g) (str : Str) (rm : Rm) (d : Reg3) (srcs : List (Reg3 × Bool))
    (scaled : Bool) (rel : Thread → Option Nat) {n : Nat}
    (h : firstBad s s.cur.core t.rf (⟨t.rm d, true, false, scaled⟩ :: srcs.map fun y => ⟨t.rm y.1, false, y.2, false⟩) = some n) :
    issueTensor g str rm d srcs scaled rel s = manifTrap s n := by
  refine (guarded_true hr.1 hr.2 _).trans ?_
  simp only [h]

theorem spaceFloor_lt (m : V512) : (spaceFloor m).toNat < 2 := by
  unfold spaceFloor
  split <;> decide

theorem wider_toNat (a b : BitVec 2) : (wider a b).toNat = max a.toNat b.toNat := by
  unfold wider
  rw [BitVec.ult_eq_decide]
  split <;> rename_i h <;> simp only [decide_eq_true_eq] at h <;> omega

theorem foldl_wider_lt (l : List V512) (a : BitVec 2) (ha : a.toNat < 2) : (l.foldl (fun a m => wider a (spaceFloor m)) a).toNat < 2 := by
  induction l generalizing a with
  | nil => exact ha
  | cons m l ih => exact ih _ (by rw [wider_toNat]; exact max_lt ha (spaceFloor_lt m))

/-- The floor that the spaces of manifests give never reaches the scope that R122 clamps. -/
theorem clamps_of_spaces (s : State) (c : Nat) (sc : BitVec 2) (l : List V512) :
    s.clamps c sc (l.foldl (fun a m => wider a (spaceFloor m)) 0) = s.clamps c sc 0 := by
  have h3 : ∀ f : BitVec 2, f.toNat < 2 → (wider sc f = 3 ↔ sc = 3) := by
    intro f hf
    rw [← BitVec.toNat_inj, ← BitVec.toNat_inj, wider_toNat]
    change max sc.toNat f.toNat = 3 ↔ sc.toNat = 3
    omega
  rw [State.clamps, State.clamps]
  simp only [h3 _ (foldl_wider_lt l 0 (by decide)), h3 0 (by decide)]

theorem countClamp_st (t : Thread) (b : Bool) : (t.countClamp b).st = t.st := by
  unfold Thread.countClamp
  split <;> rfl

/-- An operation whose element loop runs to its end delivers its flags and completes (R235). -/
theorem tryTensor_done {s s2 : State} {c k : Nat} {t : Thread} {o : Op} {x x' : TensorOp} (hst : t.st ≠ .stopped)
    (hloop : tensorLoop ⟨c, k, t, o.scope, { x with lut := some (x.lut.getD (s.core c).lut) }, ⟨false, o.no, o.stream.map fun n => (n, o.id)⟩⟩
      (x.total - x.n) { x with lut := some (x.lut.getD (s.core c).lut) } s = (.done, x', s2)) :
    s.tryTensor c k t o x = (s2.modThread c k fun t => t.orFlags x'.fl).finishOp c k o.id := by
  rw [State.tryTensor, if_neg (by simpa using hst)]
  have hx : ({ x with lut := some (x.lut.getD (s.core c).lut) } : TensorOp).total = x.total := rfl
  simp only [hx, hloop]

/-- A quiet thread's tensor instruction whose checks pass runs its element loop at once (R235). -/
theorem issueTensor_of_quiet {s s1 s2 : State} {t : Thread} {g : Guard} {str : Str} {rm : Rm} {d : Reg3} {srcs : List (Reg3 × Bool)}
    {scaled : Bool} {rel : Thread → Option Nat} {x x' : TensorOp} {o : Op} (hr : Runs s t g) (hq : Quiet t) (hst : t.st ≠ .stopped)
    (hsh : (s.core s.cur.core).shrink = none) (hrel : rel t = none)
    (hb : firstBad s s.cur.core t.rf (⟨t.rm d, true, false, scaled⟩ :: srcs.map fun y => ⟨t.rm y.1, false, y.2, false⟩) = none)
    (hx : x = ⟨s.cur.instr, t.rm d, ((srcs.map fun y => t.rm y.1)[0]?).getD 0, ((srcs.map fun y => t.rm y.1)[1]?).getD 0,
      ((srcs.map fun y => t.rm y.1)[2]?).getD 0, t.fmt, some (s.core s.cur.core).lut, t.fixRm rm, 0, 0, 0⟩)
    (ho : o = s.newOp t (some str.stream) str.pmask (s.effScope s.cur.core str.scope
      ((t.rm d :: srcs.map fun y => t.rm y.1).foldl (fun a m => wider a (spaceFloor m)) 0)) [] (.tensor { x with lut := none }))
    (hs1 : s1 = s.setCur ((counted s t str).addOp o))
    (hloop : tensorLoop ⟨s.cur.core, s.cur.slot, (counted s t str).addOp o, o.scope, x, ⟨false, s.cur.no, some (str.stream, t.nextOp)⟩⟩ x.total x
      s1 = (.done, x', s2)) :
    issueTensor g str rm d srcs scaled rel s =
      .next ((s2.modThread s.cur.core s.cur.slot fun t => { t with rctl := t.rctl ||| (x'.fl.setWidth 64 <<< 16) }).finishOp
        s.cur.core s.cur.slot t.nextOp) := by
  have hms : (((⟨t.rm d, true, false, scaled⟩ : MUse) :: srcs.map fun y => ⟨t.rm y.1, false, y.2, false⟩).map (·.bits)) =
      t.rm d :: srcs.map fun y => t.rm y.1 := by
    rw [List.map_cons, List.map_map]
    rfl
  have hbehind : ∀ l, t.behindTensor s s.cur.core s.cur.no l = [] := fun l => by rw [Thread.behindTensor, hq.2.1]; rfl
  have hcur : ∀ b, (s.modCur (·.countClamp b)).enterOp o = s.setCur ((t.countClamp b).addOp o) := fun b => by
    rw [State.modCur_eq_setCur hr.1, State.enterOp, State.modCur_eq_setCur (State.curT?_setCur ..), State.setCur_setCur]
  refine (guarded_true hr.1 hr.2 _).trans ?_
  simp only [hb, hrel, Quiet.notFull hq, hsh, Option.any_none, Bool.or_self, Bool.false_eq_true, if_false, hms, Quiet.noEdges hq, hbehind,
    List.append_nil, List.dedup_nil, clamps_of_spaces, List.isEmpty_nil, if_true]
  have hop : s.newOp t (some str.stream) str.pmask (s.effScope s.cur.core str.scope
      ((t.rm d :: srcs.map fun y => t.rm y.1).foldl (fun a m => wider a (spaceFloor m)) 0)) [] (.tensor ⟨s.cur.instr,
      (t.rm d :: srcs.map fun y => t.rm y.1).getD 0 0, (t.rm d :: srcs.map fun y => t.rm y.1).getD 1 0,
      (t.rm d :: srcs.map fun y => t.rm y.1).getD 2 0, (t.rm d :: srcs.map fun y => t.rm y.1).getD 3 0, t.fmt, none, t.fixRm rm, 0, 0, 0⟩) = o := by
    rw [ho, hx]
    rfl
  rw [hop, hcur, show s.setCur ((t.countClamp (s.clamps s.cur.core str.scope 0)).addOp o) = s1 from hs1.symm]
  have ht1 : s1.thread? s.cur.core s.cur.slot = some ((counted s t str).addOp o) := by rw [hs1]; exact State.curT?_setCur ..
  have hlut : (s1.core s.cur.core).lut = (s.core s.cur.core).lut := by rw [hs1]; rfl
  simp only [ht1]
  refine congrArg Host.Outcome.next ((tryTensor_done (x' := x') (s2 := s2) ((countClamp_st t _).symm ▸ hst) ?_).trans (by rw [ho]; rfl))
  have hox : o.id = t.nextOp ∧ o.no = s.cur.no ∧ o.stream = some str.stream := by rw [ho]; exact ⟨rfl, rfl, rfl⟩
  rw [hox.1, hox.2.1, hox.2.2, Option.getD_none, hlut]
  rw [hx] at hloop
  exact hloop

/-- Tensor instructions by what the statement says of each: its operands, and that no condition of its manifests fails. -/
theorem exec_tensor {i : Instr} {g : Guard} {str : Str} {rm : Rm} {d : Reg3} {srcs : List (Reg3 × Bool)} {scaled : Bool}
    (h : tensor i = some (g, str, rm, d, srcs, scaled)) :
    ∃ rel : Thread → Option Nat, (∀ s, exec i s = issueTensor g str rm d srcs scaled rel s) ∧ ∀ t, agree t i = true → rel t = none := by
  cases i <;> simp only [tensor, Option.some.injEq, Prod.mk.injEq, reduceCtorEq] at h <;> obtain ⟨rfl, rfl, rfl, rfl, rfl, rfl⟩ := h <;>
    refine ⟨_, fun s => rfl, fun t ht => ?_⟩ <;> grind [agree, failIf]

theorem tensorInstructionsComplete : TensorInstructionsComplete := by
  intro i s s1 s2 t g str rm d srcs scaled x x' o hi hr hq hst hcur hsh hag hb hx ho hs1 hloop
  obtain ⟨rel, hexec, hrel⟩ := exec_tensor hi
  rw [hexec]
  exact issueTensor_of_quiet hr hq hst hsh (hrel t hag) hb (by rw [hx, hcur]) ho hs1 hloop

theorem tensorManifestTrap : TensorManifestTrap := by
  intro i s t g str rm d srcs scaled n hi hr hb hn
  obtain ⟨rel, hexec, -⟩ := exec_tensor hi
  rw [hexec, issueTensor_checks hr _ _ _ _ _ _ hb, manifTrap, if_neg hn]

/-- A replaced field reads its new value, every other bit the old one. -/
theorem putField_getLsbD (v : V512) (lo n x j : Nat) (hj : j < 512) :
    (putField v lo n x).getLsbD j = if lo ≤ j ∧ j < lo + n then x.testBit (j - lo) else v.getLsbD j := by
  simp only [putField, BitVec.getLsbD_or, BitVec.getLsbD_and, BitVec.getLsbD_not, BitVec.getLsbD_shiftLeft, BitVec.getLsbD_setWidth,
    BitVec.getLsbD_allOnes, BitVec.getLsbD_ofNat, hj, decide_true, Bool.true_and]
  by_cases hlo : lo ≤ j
  · by_cases hn : j < lo + n
    · simp [hlo, hn, show ¬ j < lo by omega, show j - lo < 512 by omega, show j - lo < n by omega]
    · simp [hn, show ¬ j - lo < n by omega]
  · simp [hlo, show j < lo by omega]

theorem manifestRegisters : ManifestRegisters := by
  refine ⟨fun s t x hr => ⟨_, guarded_true hr.1 hr.2 _, fun j hj => ?_⟩, fun s t x hr => ?_, fun s t x hr => ?_⟩
  · cases x.f <;> simp only [MField.put, putField_getLsbD _ _ _ _ _ hj, BitVec.testBit_toNat, Nat.zero_testBit]
    case base => simp
    case dim k => split <;> split <;> grind
    case ctl => split <;> split <;> grind
  · rw [extractLsb'_zero_eq_setWidth (by decide)]
    exact guarded_true hr.1 hr.2 _
  · refine (guarded_true hr.1 hr.2 _).trans ?_
    rw [BitVec.ofNat_toNat]

/-- Settles O18. -/
theorem tensorInstructions : Obligations.TensorInstructions := ⟨tensorInstructionsComplete, tensorManifestTrap, manifestRegisters⟩

end Sys2Proof.Machine
end

/-! ## Proofs: accumulator views and their moves -/
section
namespace Sys2Proof.Machine
open Sys2Proof.Claims

/-- A field of a shape that ACFG takes from a register. -/
theorem shapeField_setWidth (v : Word) {lo w : Nat} (h : lo + w ≤ 14) :
    ((v.setWidth 16 &&& 0x3FFF).extractLsb' lo w).toNat = v.toNat / 2 ^ lo % 2 ^ w := by
  have hv : (v.setWidth 16 &&& 0x3FFF).extractLsb' lo w = v.extractLsb' lo w := by
    refine BitVec.eq_of_getLsbD_eq fun i hi => ?_
    rw [show (0x3FFF : BitVec 16) = (BitVec.allOnes 14).setWidth 16 by decide]
    rw [BitVec.getLsbD_extractLsb', BitVec.getLsbD_and, BitVec.getLsbD_setWidth, BitVec.getLsbD_setWidth, BitVec.getLsbD_allOnes,
      BitVec.getLsbD_extractLsb']
    simp [hi, show lo + i < 16 by omega, show lo + i < 14 by omega]
  rw [hv, BitVec.extractLsb'_toNat, Nat.shiftRight_eq_div_pow]

theorem shapeRows_setWidth (v : Word) : shapeRows (v.setWidth 16 &&& 0x3FFF) = v.toNat % 64 := by
  rw [shapeRows, shapeField_setWidth v (by decide)]
  simp

theorem shapeCols_setWidth (v : Word) : shapeCols (v.setWidth 16 &&& 0x3FFF) = v.toNat / 64 % 64 := shapeField_setWidth v (by decide)

theorem shapeKind_setWidth (v : Word) : shapeKind (v.setWidth 16 &&& 0x3FFF) = v.toNat / 4096 % 4 := shapeField_setWidth v (by decide)

/-- What AGET reads of a configured view (R278). -/
def agetWord (t : Thread) (a : AReg) : Word :=
  BitVec.ofNat 64 (packFields [(0, 16, (t.shape a).toNat), (18, 1, bitN (t.view a).ovf), (20, 4, (t.view a).tile?.getD 0),
    (16, 2, match (t.view a).place with | .tile _ _ => 0 | .saved => 1 | .zero => 2)])

theorem withDirty_false (x : BitVec 16) : withDirty x false = x &&& 0xBFFF := by simp [withDirty]

theorem accumulatorViews : AccumulatorViews := by
  intro s t he
  refine ⟨?_, fun x hr h => ?_, fun x hr h => ⟨agetWord t x.a, ?_, ?_, ?_⟩, fun x hr => ?_, fun x hr h => ?_, fun x hr h => ?_⟩
  · rintro x sh rows cols kind hr rfl rfl rfl rfl
    refine ⟨fun h => (withEngine_true he hr _).trans ?_, fun h1 h2 h3 h4 h5 h6 => (withEngine_true he hr _).trans ?_⟩
    · simp only [shapeRows_setWidth, shapeCols_setWidth, shapeKind_setWidth]
      rw [if_pos (by simpa [or_assoc] using h)]
      rfl
    · simp only [shapeRows_setWidth, shapeCols_setWidth, shapeKind_setWidth]
      rw [if_neg (by simp only [Bool.or_eq_true, Bool.and_eq_true, decide_eq_true_eq]; omega)]
      rfl
  · refine (withEngine_true he hr _).trans ?_
    rw [h]
    rfl
  · refine (withEngine_true he hr _).trans ?_
    simp only [if_neg h]
    rfl
  · rw [agetWord, extractLsb'_packFields 0 16 (t.shape x.a).toNat (.head _) rfl (by decide), BitVec.ofNat_toNat, BitVec.setWidth_eq]
  · exact getLsbD_packFields_bitN 18 _ (.tail _ (.head _)) rfl (by decide)
  · exact withEngine_true he hr _
  · refine (withEngine_true he hr _).trans ?_
    rw [if_neg h, withDirty_false]
  · exact (withEngine_true he hr _).trans (if_pos h)

/-! ### Shapes and elements of a view -/

theorem shape_setShape (t : Thread) (a : AReg) (x : BitVec 16) : (t.setShape a x).shape a = x := by
  refine BitVec.eq_of_getLsbD_eq fun i hi => ?_
  have ha : a.toNat < 4 := a.isLt
  have hones : (0xFFFF#64).getLsbD i = true := by
    rw [show 0xFFFF#64 = (BitVec.allOnes 16).setWidth 64 by decide, BitVec.getLsbD_setWidth, BitVec.getLsbD_allOnes]
    simp [hi, show i < 64 by omega]
  simp only [Thread.shape, Thread.setShape, BitVec.getLsbD_extractLsb', BitVec.getLsbD_or, BitVec.getLsbD_and, BitVec.getLsbD_not,
    BitVec.getLsbD_shiftLeft, BitVec.getLsbD_setWidth, hi, show 16 * a.toNat + i < 64 by omega, show ¬ 16 * a.toNat + i < 16 * a.toNat by omega,
    Nat.add_sub_cancel_left, hones, show i < 64 by omega]
  simp

theorem shapeCols_withDirty (x : BitVec 16) : shapeCols (withDirty x true) = shapeCols x := by
  refine congrArg BitVec.toNat (BitVec.eq_of_getLsbD_eq fun i hi => ?_)
  rw [withDirty, if_pos rfl]
  simp only [BitVec.getLsbD_extractLsb', BitVec.getLsbD_or, BitVec.getLsbD_and, hi, decide_true, Bool.true_and]
  interval_cases i <;> simp

theorem view_setView (t : Thread) (a : AReg) (v : View) : (t.setView a v).view a = v := by
  simp [Thread.view, Thread.setView]

theorem setView_view (t : Thread) (a : AReg) : t.setView a (t.view a) = t := by
  have h : t.views.set a.toNat (t.views[a.toNat]) = t.views := by simp
  rw [Thread.setView, Thread.view, h]

theorem setView_setView (t : Thread) (a : AReg) (v w : View) : (t.setView a v).setView a w = t.setView a w := by
  simp [Thread.setView]

/-- Elements written one after the other are one write of the list with all of them. -/
theorem foldl_putElem (t : Thread) (a : AReg) (l : List Nat) (pos : Nat → Nat × Nat) (w : Nat → Word) :
    l.foldl (fun t j => t.putElem a (pos j).1 (pos j).2 (w j)) t = t.setView a { t.view a with
      elems := l.foldl (fun e j => e.set ((pos j).1 * shapeCols (t.shape a) + (pos j).2) (w j)) (t.view a).elems } := by
  induction l generalizing t with
  | nil => exact (setView_view t a).symm
  | cons j l ih =>
    rw [List.foldl_cons, ih, Thread.putElem, view_setView, setView_setView]
    rfl

theorem getD_foldl_set_of_ne {α : Type} (l : List Nat) (pos : Nat → Nat) (w : Nat → α) (e : List α) (k : Nat) (d : α) (h : ∀ j ∈ l, pos j ≠ k) :
    (l.foldl (fun e j => e.set (pos j) (w j)) e).getD k d = e.getD k d := by
  induction l generalizing e with
  | nil => rfl
  | cons j l ih =>
    rw [List.foldl_cons, ih _ fun i hi => h i (.tail _ hi), List.getD_eq_getElem?_getD, List.getElem?_set_ne (h j (.head _)),
      ← List.getD_eq_getElem?_getD]

theorem getD_foldl_set_of_mem {α : Type} (l : List Nat) (pos : Nat → Nat) (w : Nat → α) (e : List α) (k : Nat) (d : α) (hk : k ∈ l)
    (h : ∀ j ∈ l, pos j = pos k → j = k) (hlen : pos k < e.length) : (l.foldl (fun e j => e.set (pos j) (w j)) e).getD (pos k) d = w k := by
  induction l generalizing e with
  | nil => cases hk
  | cons j l ih =>
    rw [List.foldl_cons]
    by_cases hkl : k ∈ l
    · exact ih _ hkl (fun i hi => h i (.tail _ hi)) (by rwa [List.length_set])
    · obtain rfl : k = j := by cases hk with | head => rfl | tail _ h => exact absurd h hkl
      rw [getD_foldl_set_of_ne l pos w _ _ d fun i hi hp => hkl (h i (.tail _ hi) hp ▸ hi), List.getD_eq_getElem?_getD,
        List.getElem?_set_self hlen, Option.getD_some]

/-- An element of a view after the moves of a row or a column, which leave it dirty. -/
theorem elem_moved (t : Thread) (a : AReg) (l : List Nat) (pos : Nat → Nat × Nat) (w : Nat → Word) (r c : Nat) :
    ((l.foldl (fun t j => t.putElem a (pos j).1 (pos j).2 (w j)) t).dirty a).elem a r c =
      (l.foldl (fun e j => e.set ((pos j).1 * shapeCols (t.shape a) + (pos j).2) (w j)) (t.view a).elems).getD
        (r * shapeCols (t.shape a) + c) 0 := by
  rw [foldl_putElem, Thread.dirty, Thread.elem, shape_setShape, shapeCols_withDirty]
  exact congrArg (fun v : View => v.elems.getD (r * shapeCols (t.shape a) + c) 0) (view_setView ..)

theorem moved_files (t : Thread) (a : AReg) (l : List Nat) (pos : Nat → Nat × Nat) (w : Nat → Word) :
    ((l.foldl (fun t j => t.putElem a (pos j).1 (pos j).2 (w j)) t).dirty a).g = t.g ∧
      ((l.foldl (fun t j => t.putElem a (pos j).1 (pos j).2 (w j)) t).dirty a).v = t.v := by
  rw [foldl_putElem]
  exact ⟨rfl, rfl⟩

/-- Registers of a list, one after the other from the first, each read the value that was written to it. -/
theorem rv_foldl_wv (t : Thread) (f : VReg) (val : Nat → V512) {m q : Nat} (hm : m ≤ 32) (hq : q < m) :
    ((List.range m).foldl (fun t r => t.wv (f + BitVec.ofNat 5 r) (val r)) t).rv (f + BitVec.ofNat 5 q) = val q := by
  induction m with
  | zero => cases hq
  | succ m ih =>
    rw [List.range_succ, List.foldl_append, List.foldl_cons, List.foldl_nil, Thread.rv_wv]
    rcases Nat.lt_succ_iff_lt_or_eq.1 hq with h | rfl
    · rw [if_neg (fun he => ?_), ih (by omega) h]
      have := congrArg BitVec.toNat (add_left_cancel he)
      rw [BitVec.toNat_ofNat, BitVec.toNat_ofNat] at this
      omega
    · rw [if_pos rfl]

theorem putList_files (t : Thread) (f : VReg) (b : Nat) (l : List Word) : (t.putList f b l).g = t.g ∧ (t.putList f b l).views = t.views := by
  have h : ∀ (m : Nat) (val : Nat → V512), ((List.range m).foldl (fun t r => t.wv (f + BitVec.ofNat 5 r) (val r)) t).g = t.g ∧
      ((List.range m).foldl (fun t r => t.wv (f + BitVec.ofNat 5 r) (val r)) t).views = t.views := by
    intro m val
    induction m with
    | zero => exact ⟨rfl, rfl⟩
    | succ m ih => rw [List.range_succ, List.foldl_append]; exact ih
  exact h _ _

theorem kindBytes_eq (k : Nat) : kindBytes k = 4 ∨ kindBytes k = 8 := by
  unfold kindBytes
  split <;> simp

/-- A lane of a list of fewer than 64 elements reads the element, cut to its width. -/
theorem lane_putList (t : Thread) (f : VReg) {b : Nat} (hb : b = 4 ∨ b = 8) (l : List Word) (hl : l.length < 64) {i : Nat} (hi : i < l.length) :
    lane (8 * b) ((t.putList f b l).rv (f + BitVec.ofNat 5 (i / (64 / b)))) (i % (64 / b)) = (l.getD i 0).toNat % 2 ^ (8 * b) := by
  have he : 64 / b = 512 / (8 * b) ∧ 0 < 64 / b ∧ (l.length + 64 / b - 1) / (64 / b) ≤ 32 ∧ i / (64 / b) < (l.length + 64 / b - 1) / (64 / b) := by
    rcases hb with rfl | rfl <;> norm_num <;> omega
  obtain ⟨hlanes, hpos, hfew, hreg⟩ := he
  rw [Thread.putList]
  rw [rv_foldl_wv t f _ hfew hreg, hlanes, lane_ofLanes_range (hlanes ▸ Nat.mod_lt _ hpos), Nat.div_add_mod']

/-! ### The moves -/

/-- A move of a view in a tile, with its checks passed. -/
theorem tileMove_tile {s : State} {t : Thread} {g : Guard} {a : AReg} {idx : GReg} {n : Nat} {bk : Bool} (he : HasEngine s) (hr : Runs s t g)
    (hp : (t.view a).place = .tile n bk) (hrows : shapeRows (t.shape a) ≠ 0) (row : Bool)
    (hi : (t.rg idx).toNat < if row then shapeRows (t.shape a) else shapeCols (t.shape a)) (f : Thread → Nat → Nat → Nat → Thread) :
    tileMove g a idx row s f = .next (s.setCur (f t (t.rg idx).toNat (if row then shapeCols (t.shape a) else shapeRows (t.shape a))
      (kindBytes (shapeKind (t.shape a))))) := by
  have hbring : s.bringView s.cur.core s.cur.slot a = (true, s) := by
    rw [State.bringView, show s.thread? s.cur.core s.cur.slot = some t from hr.1]
    simp only [hp]
  refine (withEngine_true he hr _).trans ?_
  simp only [if_neg hrows, if_neg (Nat.not_le.2 hi), hbring, State.modCur_eq_setCur hr.1]

/-- AROWI and ACOLI write row or column i of a view. -/
def moveIn (a : AReg) (f : VReg) (row : Bool) (t : Thread) (i n b : Nat) : Thread :=
  ((List.range n).foldl (fun t' j => if row then t'.putElem a i j (t.listElem f b j) else t'.putElem a j i (t.listElem f b j)) t).dirty a

/-- AROWO and ACOLO read row or column i of a view. -/
def moveOut (a : AReg) (f : VReg) (row : Bool) (t : Thread) (i n b : Nat) : Thread :=
  t.putList f b ((List.range n).map fun j => if row then t.elem a i j else t.elem a j i)

theorem execArowi_eq (g : Guard) (a : AReg) (f : VReg) (i : GReg) (s : State) :
    exec (.arowi ⟨g, a, f, i⟩) s = tileMove g a i true s (moveIn a f true) := rfl

theorem execAcoli_eq (g : Guard) (a : AReg) (f : VReg) (i : GReg) (s : State) :
    exec (.acoli ⟨g, a, f, i⟩) s = tileMove g a i false s (moveIn a f false) := rfl

theorem execArowo_eq (g : Guard) (a : AReg) (f : VReg) (i : GReg) (s : State) :
    exec (.arowo ⟨g, f, a, i⟩) s = tileMove g a i true s (moveOut a f true) := rfl

theorem execAcolo_eq (g : Guard) (a : AReg) (f : VReg) (i : GReg) (s : State) :
    exec (.acolo ⟨g, f, a, i⟩) s = tileMove g a i false s (moveOut a f false) := rfl

/-- Two places of a view are one only when their rows and their columns are. -/
theorem place_eq {cols r c r' c' : Nat} (hc : c < cols) (hc' : c' < cols) (h : r * cols + c = r' * cols + c') : r = r' ∧ c = c' := by
  have hdiv : ∀ {r c : Nat}, c < cols → (r * cols + c) / cols = r := fun {r c} hc => by
    rw [Nat.mul_comm, Nat.mul_add_div (Nat.zero_lt_of_lt hc), Nat.div_eq_of_lt hc, Nat.add_zero]
  have hr : r = r' := by rw [← hdiv (r := r) hc, h, hdiv hc']
  exact ⟨hr, by rw [hr] at h; omega⟩

theorem place_lt {rows cols r c : Nat} (hr : r < rows) (hc : c < cols) : r * cols + c < rows * cols :=
  calc r * cols + c < r * cols + cols := by omega
    _ = (r + 1) * cols := by rw [Nat.succ_mul]
    _ ≤ rows * cols := Nat.mul_le_mul_right _ hr

theorem shapeRows_lt (x : BitVec 16) : shapeRows x < 64 := (x.extractLsb' 0 6).isLt

theorem shapeCols_lt (x : BitVec 16) : shapeCols x < 64 := (x.extractLsb' 6 6).isLt

theorem viewMoves : ViewMoves := by
  rintro s t b rows cols n bk a he hp rfl rfl rfl hlen hrows
  refine ⟨fun g f i hr hi => ⟨_, (execArowi_eq ..).trans (tileMove_tile he hr hp hrows true hi _), ?_, ?_, fun r h c hc => ?_⟩,
    fun g f i hr hi => ⟨_, (execAcoli_eq ..).trans (tileMove_tile he hr hp hrows false hi _), ?_, ?_, fun r h c hc => ?_⟩,
    fun g f i hr hi => ⟨_, (execArowo_eq ..).trans (tileMove_tile he hr hp hrows true hi _), (putList_files ..).1, (putList_files ..).2,
      fun c hc => ?_⟩,
    fun g f i hr hi => ⟨_, (execAcolo_eq ..).trans (tileMove_tile he hr hp hrows false hi _), (putList_files ..).1, (putList_files ..).2,
      fun r hrr => ?_⟩⟩
  · exact (moved_files t a _ (fun j => ((t.rg i).toNat, j)) _).1
  · exact (moved_files t a _ (fun j => ((t.rg i).toNat, j)) _).2
  · refine (elem_moved t a _ (fun j => ((t.rg i).toNat, j)) _ r c).trans ?_
    by_cases hri : r = (t.rg i).toNat
    · subst hri
      refine Eq.trans ?_ (if_pos rfl).symm
      exact getD_foldl_set_of_mem (List.range (shapeCols (t.shape a))) (fun j => (t.rg i).toNat * shapeCols (t.shape a) + j) _ _ c 0
        (List.mem_range.2 hc) (fun j _ hj => Nat.add_left_cancel hj) (hlen ▸ place_lt h hc)
    · refine Eq.trans ?_ (if_neg hri).symm
      exact getD_foldl_set_of_ne _ _ _ _ _ _ fun j hj hpl => hri (place_eq (List.mem_range.1 hj) hc hpl).1.symm
  · exact (moved_files t a _ (fun j => (j, (t.rg i).toNat)) _).1
  · exact (moved_files t a _ (fun j => (j, (t.rg i).toNat)) _).2
  · refine (elem_moved t a _ (fun j => (j, (t.rg i).toNat)) _ r c).trans ?_
    by_cases hci : c = (t.rg i).toNat
    · subst hci
      refine Eq.trans ?_ (if_pos rfl).symm
      exact getD_foldl_set_of_mem (List.range (shapeRows (t.shape a))) (fun j => j * shapeCols (t.shape a) + (t.rg i).toNat) _ _ r 0
        (List.mem_range.2 h) (fun j _ hj => (place_eq hc hc hj).1) (hlen ▸ place_lt h hc)
    · refine Eq.trans ?_ (if_neg hci).symm
      exact getD_foldl_set_of_ne _ _ _ _ _ _ fun j _ hpl => hci (place_eq hi hc hpl).2.symm
  · refine (lane_putList t f (kindBytes_eq _) _ (by simpa using shapeCols_lt _) (by simpa using hc)).trans ?_
    rw [List.getD_eq_getElem _ _ (by simpa using hc)]
    simp
  · refine (lane_putList t f (kindBytes_eq _) _ (by simpa using shapeRows_lt _) (by simpa using hrr)).trans ?_
    rw [List.getD_eq_getElem _ _ (by simpa using hrr)]
    simp

/-- Settles O19. -/
theorem accumulatorViewsAndMoves : Obligations.AccumulatorViewsAndMoves := ⟨accumulatorViews, viewMoves⟩

end Sys2Proof.Machine
end

/-! ## Proofs: the home takes answers -/
section
namespace Sys2Proof.Machine
open Sys2Proof.Claims

/-! ### The sectors of an entry -/

theorem sec_setSec_self (e : DirEntry) {i : Nat} (hi : i < 4) (x : HomeSec) : (e.setSec i x).sec i = x := by
  simp [DirEntry.sec, DirEntry.setSec, Vector.setIfInBounds, hi, List.getD_eq_getElem?_getD]

theorem sec_setSec_ne (e : DirEntry) {i j : Nat} (h : i ≠ j) (x : HomeSec) : (e.setSec i x).sec j = e.sec j := by
  simp [DirEntry.sec, DirEntry.setSec, Vector.setIfInBounds, h, List.getD_eq_getElem?_getD]

@[simp] theorem setSec_watchers (e : DirEntry) (i : Nat) (x : HomeSec) : (e.setSec i x).watchers = e.watchers := rfl
@[simp] theorem setSec_coarse (e : DirEntry) (i : Nat) (x : HomeSec) : (e.setSec i x).coarse = e.coarse := rfl
@[simp] theorem setSec_ptrs (e : DirEntry) (i : Nat) (x : HomeSec) : (e.setSec i x).ptrs = e.ptrs := rfl
@[simp] theorem setSec_inL2 (e : DirEntry) (i : Nat) (x : HomeSec) : (e.setSec i x).inL2 = e.inL2 := rfl

theorem part?_modEntry_isSome (s : State) (p p' line : Nat) (f : DirEntry → DirEntry) :
    ((s.modEntry p line f).part? p').isSome = (s.part? p').isSome := by
  rw [State.modEntry, State.part?_modPart]
  split
  · next h => subst h; simp
  · rfl

/-- A partition whose home has a sector that is not at rest is there. -/
theorem part?_isSome_of_st {s : State} {p sec : Nat} {st : HomeSt} (h : (s.homeSec p sec).st = st) (hst : st ≠ .u) : (s.part? p).isSome = true := by
  cases hp : s.part? p with
  | some q => rfl
  | none =>
    refine absurd ?_ hst
    rw [← h, State.homeSec, State.entry, hp]
    have hm : sec % 4 < 4 := Nat.mod_lt _ (by decide)
    generalize sec % 4 = i at hm
    interval_cases i <;> rfl

theorem homeSec_modHome {s : State} {p : Nat} (hp : (s.part? p).isSome) (sec : Nat) (f : HomeSec → HomeSec) :
    (s.modHome p sec f).homeSec p sec = f (s.homeSec p sec) := by
  rw [State.homeSec, State.modHome, entry_modEntry hp, sec_setSec_self _ (Nat.mod_lt _ (by decide))]
  rfl

@[simp] theorem modEntry_agenda (s : State) (p line : Nat) (f : DirEntry → DirEntry) : (s.modEntry p line f).agenda = s.agenda :=
  State.modPart_agenda ..
@[simp] theorem modEntry_mem (s : State) (p line : Nat) (f : DirEntry → DirEntry) : (s.modEntry p line f).mem = s.mem := State.modPart_mem ..
@[simp] theorem modHome_agenda (s : State) (p sec : Nat) (f : HomeSec → HomeSec) : (s.modHome p sec f).agenda = s.agenda := State.modPart_agenda ..
@[simp] theorem modHome_mem (s : State) (p sec : Nat) (f : HomeSec → HomeSec) : (s.modHome p sec f).mem = s.mem := State.modPart_mem ..

theorem part?_modHome_isSome (s : State) (p p' sec : Nat) (f : HomeSec → HomeSec) :
    ((s.modHome p sec f).part? p').isSome = (s.part? p').isSome := part?_modEntry_isSome ..

theorem entry_modHome {s : State} {p : Nat} (hp : (s.part? p).isSome) (sec : Nat) (f : HomeSec → HomeSec) :
    (s.modHome p sec f).entry p (sec / 4) = (s.entry p (sec / 4)).setSec (sec % 4) (f (s.homeSec p sec)) := entry_modEntry hp _ _

/-! ### Holders and grants -/

theorem aset_length_le {κ α : Type} [DecidableEq κ] (k : κ) (v : α) (l : List (κ × α)) : (aset k v l).length ≤ l.length + 1 := by
  induction l with
  | nil => exact Nat.le_refl _
  | cons e l ih =>
    rw [aset]
    split
    · exact Nat.le_succ _
    · exact Nat.succ_le_succ ih

theorem addPtr_length_le {ptrs : List (Nat × BitVec 4)} (h : ptrs.length ≤ 3) (c i : Nat) : (addPtr ptrs c i).length ≤ 4 :=
  (aset_length_le _ _ _).trans (Nat.succ_le_succ h)

/-- The state of a sector whose grant has left. -/
def grantSt : Grant → HomeSt
  | .e | .m => .x
  | .s | .sw => .s
  | .l _ => .u

/-- A grant of a sector of a line that is not in coarse mode and has a pointer to spare: DATA leaves, and only the entry changes. -/
theorem sendData_eq {s : State} {p sec c : Nat} {g : Grant} (hg : ∀ i, g ≠ .l i) (hc : (s.entry p (sec / 4)).coarse = false)
    (hl : (s.entry p (sec / 4)).ptrs.length ≤ 3) :
    s.sendData p sec c g = (s.modEntry p (sec / 4) fun e =>
      { e.setSec (sec % 4) { e.sec (sec % 4) with st := grantSt g } with ptrs := addPtr (s.entry p (sec / 4)).ptrs c (sec % 4) }).push
        [.data ⟨c, 64 * sec, memSector s.mem (64 * sec), g⟩] := by
  have hadd : ∀ st, s.addHolder p sec c st = s.modEntry p (sec / 4) fun e =>
      { e.setSec (sec % 4) { e.sec (sec % 4) with st := st } with ptrs := addPtr (s.entry p (sec / 4)).ptrs c (sec % 4) } := fun st => by
    rw [State.addHolder]
    simp only [hc, Bool.false_eq_true, if_false, if_pos (addPtr_length_le hl c (sec % 4))]
  cases g with
  | l i => exact absurd rfl (hg i)
  | _ => simp only [State.sendData, hadd, modEntry_mem, grantSt]

/-- What a grant leaves (R91). -/
structure Granted (s s' : State) (p sec c : Nat) (g : Grant) : Prop where
  agenda : s'.agenda = s.agenda ++ [.data ⟨c, 64 * sec, memSector s.mem (64 * sec), g⟩]
  mem : s'.mem = s.mem
  home : s'.homeSec p sec = { s.homeSec p sec with st := grantSt g }
  inL2 : (s'.entry p (sec / 4)).inL2 = (s.entry p (sec / 4)).inL2
  others : ∀ j, j ≠ sec % 4 → (s'.entry p (sec / 4)).sec j = (s.entry p (sec / 4)).sec j

theorem sendData_granted {s : State} {p sec c : Nat} {g : Grant} (hp : (s.part? p).isSome) (hg : ∀ i, g ≠ .l i)
    (hc : (s.entry p (sec / 4)).coarse = false) (hl : (s.entry p (sec / 4)).ptrs.length ≤ 3) : Granted s (s.sendData p sec c g) p sec c g := by
  rw [sendData_eq hg hc hl]
  have hent := entry_modEntry hp (sec / 4) fun e =>
    { e.setSec (sec % 4) { e.sec (sec % 4) with st := grantSt g } with ptrs := addPtr (s.entry p (sec / 4)).ptrs c (sec % 4) }
  refine ⟨congrArg (· ++ _) (modEntry_agenda ..), modEntry_mem .., ?_, (congrArg DirEntry.inL2 hent :), fun j hj => ?_⟩
  · exact (congrArg (DirEntry.sec · (sec % 4)) hent).trans (sec_setSec_self _ (Nat.mod_lt _ (by decide)) _)
  · exact (congrArg (DirEntry.sec · j) hent).trans (sec_setSec_ne _ (Ne.symm hj) _)

theorem nextReq_of_empty {s : State} {p sec : Nat} (h : (s.homeSec p sec).queue = []) : s.nextReq p sec = s := by
  rw [State.nextReq, h, List.length_nil, State.drainHome]
  split
  · rfl
  · rw [h]

theorem nextReq_granted {s s' : State} {p sec c : Nat} {g : Grant} (h : Granted s s' p sec c g) (hq : (s.homeSec p sec).queue = []) :
    s'.nextReq p sec = s' := nextReq_of_empty (by rw [h.home]; exact hq)

/-! ### Owner data, CLEAN and GONE -/

/-- The owner has answered a GETS: its sector is granted as S (R95). -/
theorem answerFwd_gets {s : State} {p sec c o pa no : Nat} (hst : (s.homeSec p sec).st = .xfs) (hq : (s.homeSec p sec).queue = [])
    (hc : (s.entry p (sec / 4)).coarse = false) (hl : (s.entry p (sec / 4)).ptrs.length ≤ 3)
    (ht : (s.homeSec p sec).txn = some ⟨.gets ⟨c, pa, none⟩, no, [o], [], false⟩) (keep : Bool) :
    (s.answerFwd p sec o keep).mem = s.mem ∧
      (s.answerFwd p sec o keep).agenda = s.agenda ++ [.data ⟨c, 64 * sec, memSector s.mem (64 * sec), .s⟩] ∧
      ((s.answerFwd p sec o keep).homeSec p sec).st = .s ∧ ((s.answerFwd p sec o keep).homeSec p sec).txn = none := by
  have hp := part?_isSome_of_st hst (by decide)
  let f : HomeSec → HomeSec := fun h => { h with txn := none, st := if keep then .s else .u }
  let cut : DirEntry → DirEntry := fun e =>
    { e with ptrs := (e.ptrs.map fun x => if x.1 = o then (x.1, x.2 &&& ~~~(1#4 <<< (sec % 4))) else x).filter fun x => x.2 ≠ 0 }
  let s1 := s.modHome p sec f
  let s2 := if keep then s1 else s1.modEntry p (sec / 4) cut
  have hp1 : (s1.part? p).isSome := by rw [part?_modHome_isSome]; exact hp
  have he1 : s1.entry p (sec / 4) = (s.entry p (sec / 4)).setSec (sec % 4) (f (s.homeSec p sec)) := entry_modHome hp sec f
  have hs2 : s2.mem = s.mem ∧ s2.agenda = s.agenda ∧ (s2.part? p).isSome ∧ (s2.entry p (sec / 4)).coarse = false ∧
      (s2.entry p (sec / 4)).ptrs.length ≤ 3 ∧ s2.homeSec p sec = f (s.homeSec p sec) := by
    cases keep with
    | true => exact ⟨modHome_mem .., modHome_agenda .., hp1, (congrArg DirEntry.coarse he1 :).trans hc,
        (congrArg (fun e => e.ptrs.length) he1 :).trans_le hl, homeSec_modHome hp sec f⟩
    | false =>
      have he2 : s2.entry p (sec / 4) = cut (s1.entry p (sec / 4)) := entry_modEntry hp1 _ _
      refine ⟨(modEntry_mem ..).trans (modHome_mem ..), (modEntry_agenda ..).trans (modHome_agenda ..),
        (part?_modEntry_isSome ..).trans hp1, ?_, ?_, ?_⟩
      · rw [he2, he1]; exact hc
      · rw [he2, he1]
        exact (List.length_filter_le _ _).trans (by rw [List.length_map]; exact hl)
      · rw [State.homeSec, he2, he1]
        exact sec_setSec_self _ (Nat.mod_lt _ (by decide)) _
  obtain ⟨hm, ha, hp2, hc2, hl2, hh2⟩ := hs2
  have hgr := sendData_granted (c := c) (g := .s) hp2 (fun _ h => by cases h) hc2 hl2
  have hrun : s.answerFwd p sec o keep = s2.sendData p sec c .s := by
    rw [State.answerFwd, ht]
    exact nextReq_granted hgr (by rw [hh2]; exact hq)
  rw [hrun]
  refine ⟨hgr.mem.trans hm, by rw [hgr.agenda, ha, hm], by rw [hgr.home]; rfl, by rw [hgr.home, hh2]⟩

theorem awaited_of_txn {s : State} {p sec c : Nat} {req : Event} {no : Nat} {tracts : List Nat} {host : Bool}
    (h : (s.homeSec p sec).txn = some ⟨req, no, [c], tracts, host⟩) : s.awaited p sec c = true := by
  rw [State.awaited, h]
  simp

/-- Data written into the L2 changes memory and leaves the sectors of the home. -/
theorem homeSec_putL2 {s : State} {p : Nat} (hp : (s.part? p).isSome) (sec : Nat) (d : V512) :
    (s.putL2 p sec d).homeSec p sec = s.homeSec p sec ∧ ((s.putL2 p sec d).entry p (sec / 4)).coarse = (s.entry p (sec / 4)).coarse ∧
      ((s.putL2 p sec d).entry p (sec / 4)).ptrs = (s.entry p (sec / 4)).ptrs ∧ (s.putL2 p sec d).mem = memWrite s.mem (64 * sec) (sectorBytes d) ∧
      (s.putL2 p sec d).agenda = s.agenda := by
  have he : (s.putL2 p sec d).entry p (sec / 4) = { s.entry p (sec / 4) with dirty := (s.entry p (sec / 4)).dirty ||| (1#4 <<< (sec % 4)) } :=
    entry_modEntry (s := { s with mem := memWrite s.mem (64 * sec) (sectorBytes d) }) hp _ _
  refine ⟨?_, by rw [he], by rw [he], modEntry_mem .., modEntry_agenda ..⟩
  rw [State.homeSec, he]
  rfl

theorem cohReply_of_reaches {s : State} {c pa : Nat} (h : s.reaches c pa = true) (f : State → State) : s.cohReply c pa f = .next (f s) := by
  rw [State.cohReply, if_pos h]

section
variable {s : State} {c pa : Nat} (h : s.reaches c pa = true)
include h

theorem execOwnerData_of_reaches (d : V512) : exec (.ownerData ⟨c, pa, d⟩) s = .next (if s.awaited (s.partOf c) (pa / 64) c then
    (s.putL2 (s.partOf c) (pa / 64) d).ownerAnswer (s.partOf c) (pa / 64) c else s) := cohReply_of_reaches (c := c) (pa := pa) h _

theorem execClean_of_reaches : exec (.clean ⟨c, pa⟩) s = .next (s.ownerAnswer (s.partOf c) (pa / 64) c) :=
  (rfl : _ = execClean ⟨c, pa⟩ s).trans (cohReply_of_reaches h _)

theorem execGone_of_reaches (dirty : Bool) (n : Nat) : exec (.gone ⟨c, pa, dirty, n⟩) s = .next (s.gone ⟨c, pa, dirty, n⟩) :=
  (rfl : _ = execGone ⟨c, pa, dirty, n⟩ s).trans (cohReply_of_reaches h _)

theorem execPutx_of_reaches (d : V512) : exec (.putx ⟨c, pa, d⟩) s = .next (s.putx ⟨c, pa, d⟩) :=
  (rfl : _ = execPutx ⟨c, pa, d⟩ s).trans (cohReply_of_reaches h _)

theorem execPute_of_reaches : exec (.pute ⟨c, pa⟩) s = .next (if (s.homeSec (s.partOf c) (pa / 64)).st == .x &&
    (s.entry (s.partOf c) (pa / 64 / 4)).named (pa / 64 % 4) = [c] then (s.push [.wback ⟨c, pa⟩]).ownerOut (s.partOf c) (pa / 64)
    else s.push [.wback ⟨c, pa⟩]) := (rfl : _ = execPute ⟨c, pa⟩ s).trans (cohReply_of_reaches h _)

theorem execAckInv_of_reaches (hc : c < portAgent 0) : exec (.ack ⟨.inv c, pa⟩) s =
    .next (if s.awaited (s.partOf c) (pa / 64) c then s.replyIn (s.partOf c) (pa / 64) c else s) := by
  refine (rfl : _ = execAck ⟨.inv c, pa⟩ s).trans ?_
  rw [execAck]
  simp only [if_neg (Nat.not_le.2 hc), cohReply_of_reaches h]

theorem execAckWrt_of_reaches : exec (.ack ⟨.wrt c, pa⟩) s = .next (s.ackIn c (pa / 64)) :=
  (rfl : _ = s.cohReply c pa fun s => s.ackIn c (pa / 64)).trans (cohReply_of_reaches h _)

end

/-- The combined reply of a tract that is awaited (R91). -/
theorem execAckTracts_of_txn {s : State} {p j pa : Nat} {t : Txn} (hp : s.partOfPa pa = some p) (ht : (s.homeSec p (pa / 64)).txn = some t)
    (hj : t.tracts.contains j = true) : exec (.ack ⟨.tracts p j, pa⟩) s = .next (s.tractsIn p (pa / 64) j) := by
  refine (rfl : _ = execAck ⟨.tracts p j, pa⟩ s).trans ?_
  rw [execAck]
  simp only [hp, ne_eq, not_true_eq_false, if_false, ht, Option.any_some, hj, if_true]

theorem ownerAnswer_xfs {s : State} {p sec c : Nat} (ha : s.awaited p sec c = true) (hst : (s.homeSec p sec).st = .xfs) :
    s.ownerAnswer p sec c = s.answerFwd p sec c true := by
  simp [State.ownerAnswer, ha, hst]

/-! ### Evictions of the owner -/

theorem named_cutPtr (e : DirEntry) (i : Nat) (hi : i < 4) : ({ e with ptrs := cutPtr e.ptrs none i } : DirEntry).named i = [] := by
  rw [DirEntry.named, List.map_eq_nil_iff, List.filter_eq_nil_iff]
  intro x hx
  obtain ⟨hx, -⟩ := List.mem_filter.1 hx
  obtain ⟨y, -, rfl⟩ := List.mem_map.1 hx
  simp [hi]

/-- The sole owner's sector is free once it is out. -/
theorem ownerOut_free {s : State} {p : Nat} (hp : (s.part? p).isSome) (sec : Nat) :
    ((s.ownerOut p sec).homeSec p sec).st = .u ∧ ((s.ownerOut p sec).entry p (sec / 4)).named (sec % 4) = [] ∧
      (s.ownerOut p sec).mem = s.mem ∧ (s.ownerOut p sec).agenda = s.agenda := by
  have hm : sec % 4 < 4 := Nat.mod_lt _ (by decide)
  have he : (s.ownerOut p sec).entry p (sec / 4) = _ := entry_modEntry hp (sec / 4) _
  refine ⟨?_, ?_, modEntry_mem .., modEntry_agenda ..⟩
  · rw [State.homeSec, he]
    exact congrArg HomeSec.st (sec_setSec_self _ hm _)
  · rw [he]
    exact named_cutPtr ((s.entry p (sec / 4)).setSec (sec % 4) _) _ hm

/-! ### Invalidations -/

theorem uncoarse_facts (e : DirEntry) {i : Nat} (hi : i < 4) (hl : e.ptrs.length ≤ 3) :
    e.uncoarse.coarse = false ∧ e.uncoarse.ptrs.length ≤ 3 ∧ e.uncoarse.watchers = e.watchers ∧
      (e.uncoarse.sec i).txn = (e.sec i).txn ∧ (e.uncoarse.sec i).queue = (e.sec i).queue := by
  rw [DirEntry.uncoarse]
  split
  · have hsec : (e.secs.map fun h => if h.txn.isNone then { h with st := .u } else h).toList.getD i .idle =
        if (e.sec i).txn.isNone then { e.sec i with st := .u } else e.sec i := by
      simp [DirEntry.sec, List.getD_eq_getElem?_getD, hi]
    refine ⟨rfl, Nat.zero_le _, rfl, ?_, ?_⟩ <;>
    · rw [DirEntry.sec, hsec]
      split <;> rfl
  · next hc => exact ⟨eq_false_of_ne_true hc, hl, rfl, rfl, rfl⟩

/-- The last answer of an invalidation for a GETX grants the sector (the S_I row of R95). -/
theorem checkSi_getx {s : State} {p sec c pa no : Nat} (hp : (s.part? p).isSome) (hq : (s.homeSec p sec).queue = [])
    (hl : (s.entry p (sec / 4)).ptrs.length ≤ 3) (ht : (s.homeSec p sec).txn = some ⟨.getx ⟨c, pa, none⟩, no, [], [], false⟩) :
    ∃ d, (((s.checkSi p sec).nextReq p sec).homeSec p sec).txn = none ∧ ((s.checkSi p sec).nextReq p sec).agenda = s.agenda ++
      [.data ⟨c, 64 * sec, d, if (s.entry p (sec / 4)).watched (sec % 4) then .sw else .m⟩] ∧ ((s.checkSi p sec).nextReq p sec).mem = s.mem := by
  have hm : sec % 4 < 4 := Nat.mod_lt _ (by decide)
  let f : HomeSec → HomeSec := fun h => { h with txn := none, st := .u }
  let cut : DirEntry → DirEntry := fun e => { e.uncoarse with ptrs := cutPtr e.uncoarse.ptrs (some c) (sec % 4) }
  let s1 := s.modHome p sec f
  let s2 := s1.modEntry p (sec / 4) cut
  have hp1 : (s1.part? p).isSome := (part?_modHome_isSome ..).trans hp
  have hp2 : (s2.part? p).isSome := (part?_modEntry_isSome ..).trans hp1
  have he1 : s1.entry p (sec / 4) = (s.entry p (sec / 4)).setSec (sec % 4) (f (s.homeSec p sec)) := entry_modHome hp sec f
  have he2 : s2.entry p (sec / 4) = cut (s1.entry p (sec / 4)) := entry_modEntry hp1 _ _
  obtain ⟨hco, hpl, hw, htx, hqu⟩ := uncoarse_facts (s1.entry p (sec / 4)) hm (by rw [he1]; exact hl)
  have hs1 : (s1.entry p (sec / 4)).sec (sec % 4) = f (s.homeSec p sec) := homeSec_modHome hp sec f
  have hwat : (s2.entry p (sec / 4)).watched (sec % 4) = (s.entry p (sec / 4)).watched (sec % 4) := by
    have hwl : (s2.entry p (sec / 4)).watchers = (s.entry p (sec / 4)).watchers := by
      rw [he2]
      exact hw.trans (by rw [he1]; rfl)
    rw [DirEntry.watched, hwl]
    rfl
  have hgr := sendData_granted (c := c) (g := if (s2.entry p (sec / 4)).watched (sec % 4) then .sw else .m) hp2
    (fun i h => by split at h <;> cases h) (by rw [he2]; exact hco)
    (by rw [he2]; exact (List.length_filter_le _ _).trans (by rw [List.length_map]; exact hpl))
  have hend : s.checkSi p sec = s2.sendData p sec c (if (s2.entry p (sec / 4)).watched (sec % 4) then .sw else .m) := by
    rw [State.checkSi, ht]
    rfl
  have h2 : s2.homeSec p sec = ((s1.entry p (sec / 4)).uncoarse.sec (sec % 4)) := by rw [State.homeSec, he2]; rfl
  rw [hend, nextReq_granted hgr (by rw [h2, hqu, hs1]; exact hq)]
  refine ⟨memSector s2.mem (64 * sec), ?_, ?_, hgr.mem.trans ((modEntry_mem ..).trans (modHome_mem ..))⟩
  · rw [hgr.home, h2]
    exact htx.trans (by rw [hs1])
  · rw [hgr.agenda, hwat]
    exact congrArg (· ++ _) ((modEntry_agenda ..).trans (modHome_agenda ..))

/-- A transaction with the answer that has come in taken from what it awaits. -/
theorem checkSi_modHome {s : State} {p sec c pa no : Nat} (hst : (s.homeSec p sec).st = .si) (hq : (s.homeSec p sec).queue = [])
    (hl : (s.entry p (sec / 4)).ptrs.length ≤ 3) {f : HomeSec → HomeSec} (hf : (f (s.homeSec p sec)).queue = (s.homeSec p sec).queue)
    (ht : (f (s.homeSec p sec)).txn = some ⟨.getx ⟨c, pa, none⟩, no, [], [], false⟩) :
    ∃ d, ((((s.modHome p sec f).checkSi p sec).nextReq p sec).homeSec p sec).txn = none ∧ (((s.modHome p sec f).checkSi p sec).nextReq p sec).agenda =
      s.agenda ++ [.data ⟨c, 64 * sec, d, if (s.entry p (sec / 4)).watched (sec % 4) then .sw else .m⟩] := by
  have hp := part?_isSome_of_st hst (by decide)
  have he := entry_modHome hp sec f
  obtain ⟨d, h1, h2, -⟩ := checkSi_getx (s := s.modHome p sec f) (c := c) (pa := pa) (no := no) ((part?_modHome_isSome ..).trans hp)
    (by rw [homeSec_modHome hp, hf, hq]) (by rw [he]; exact hl) (by rw [homeSec_modHome hp, ht])
  refine ⟨d, h1, h2.trans ?_⟩
  rw [modHome_agenda, he]
  rfl

/-! ### The ACK of a WRT -/

theorem ackIn_of_none {s : State} {c sec : Nat} (h : ∀ x ∈ (s.core c).acks, x.1 ≠ sec) : s.ackIn c sec = s := by
  rw [State.ackIn, List.find?_eq_none.2 fun x hx => by simpa using h x hx]

theorem withOp_of_none {s : State} (ht : s.threads = []) (hs : s.parts.all (fun x => x.2.spilled.isEmpty) = true) (r : OpRef)
    (f : Nat → Nat → State → State) : s.withOp r f = s := by
  have hthread : s.thread? r.core r.slot = none := by rw [State.thread?, ht]; rfl
  have hspilled : s.spilledOwner r.op = none := by
    rw [State.spilledOwner, List.findSome?_eq_none_iff]
    intro x hx
    rw [List.isEmpty_iff.1 (List.all_eq_true.1 hs x hx)]
    rfl
  rw [State.withOp, hthread, ht, hspilled]
  rfl

/-! ### Fills -/

theorem foldl_of_one {α β : Type} (F : β → α → β) (l : List α) (hl : l.Nodup) {i : α} (hi : i ∈ l) (s : β)
    (hbefore : ∀ j ∈ l, j ≠ i → F s j = s) (hafter : ∀ j ∈ l, j ≠ i → F (F s i) j = F s i) : l.foldl F s = F s i := by
  induction l generalizing s with
  | nil => cases hi
  | cons j l ih =>
    obtain ⟨hj, hl⟩ := List.nodup_cons.1 hl
    rw [List.foldl_cons]
    by_cases hji : j = i
    · subst hji
      have hid : ∀ l' : List α, (∀ k ∈ l', F (F s j) k = F s j) → l'.foldl F (F s j) = F s j := by
        intro l'
        induction l' with
        | nil => exact fun _ => rfl
        | cons k l' ih' => exact fun h => by rw [List.foldl_cons, h k (.head _)]; exact ih' fun m hm => h m (.tail _ hm)
      exact hid l fun k hk => hafter k (.tail _ hk) fun he => hj (he ▸ hk)
    · rw [hbefore j (.head _) hji]
      exact ih hl ((List.mem_cons.1 hi).resolve_left (Ne.symm hji)) s (fun k hk => hbefore k (.tail _ hk)) fun k hk => hafter k (.tail _ hk)

/-- FILL ARRIVES at one sector of the line. -/
def fillSector (p line : Nat) (s : State) (i : Nat) : State :=
  match (s.homeSec p (4 * line + i)).st, (s.homeSec p (4 * line + i)).txn with
  | .uf, some t =>
    let s := s.modHome p (4 * line + i) fun h => { h with st := .u, txn := none }
    (if (s.entry p line).inL2 then s.serve p (4 * line + i) t.req else s.serveHit p (4 * line + i) t.req).nextReq p (4 * line + i)
  | _, _ => s

theorem execFillArrives_eq (s : State) (p line : Nat) :
    exec (.fillArrives ⟨p, line⟩) s = .next ((List.range 4).foldl (fillSector p line) (s.takeWay p line)) := rfl

theorem fillSector_of_st {s : State} {p line j : Nat} (h : (s.homeSec p (4 * line + j)).st ≠ .uf) : fillSector p line s j = s := by
  rw [fillSector]
  split
  · next h' _ => exact absurd h' h
  · rfl

theorem fifth_of_ptrs {e : DirEntry} (h : e.ptrs.length ≤ 3) (c i : Nat) : e.fifth c i = false := by
  rw [DirEntry.fifth, decide_eq_false (Nat.not_lt.2 (addPtr_length_le h c i)), Bool.and_false]

/-- A GETS of a free sector that the L2 holds is granted at once (the U row of R95). -/
theorem serve_gets_free {s : State} {p sec c pa : Nat} (hu : s.homeSec p sec = { s.homeSec p sec with st := .u, txn := none, prep := none })
    (hlad : s.lading? p (64 * sec) = none) (hhost : inHost (64 * sec) = false) (hc : (s.entry p (sec / 4)).coarse = false)
    (hl : (s.entry p (sec / 4)).ptrs.length ≤ 3) (hin : (s.entry p (sec / 4)).inL2 = true) :
    ∃ g, (∀ i, g ≠ .l i) ∧ s.serve p sec (.gets ⟨c, pa, none⟩) = s.sendData p sec c g := by
  have hst : ((s.entry p (sec / 4)).sec (sec % 4)).st = .u := by rw [← State.homeSec, hu]
  have htx : (s.homeSec p sec).txn = none := by rw [hu]
  have hpr : (s.homeSec p sec).prep = none := by rw [hu]
  have hem : (s.entry p (sec / 4)).emptying (sec % 4) = false := by rw [DirEntry.emptying, hc]; rfl
  refine ⟨if (s.entry p (sec / 4)).watched (sec % 4) || (s.entry p (sec / 4)).coarse || (s.portHolds p sec).isSome then .s else .e,
    ?_, ?_⟩
  · intro i h
    split at h <;> cases h
  rw [State.serve]
  simp only [htx, hpr, hlad, hem, hhost, hin, isWrt, reqGrant, fifth_of_ptrs hl, Option.isSome_none, Bool.false_eq_true, if_false, Option.filter_none,
    Bool.and_false, Bool.false_and, Bool.or_self, Option.any_some, Bool.not_true]
  rw [State.serveHit]
  simp only [hst]

theorem homeSec_line (s : State) (p line : Nat) {j : Nat} (hj : j < 4) : s.homeSec p (4 * line + j) = (s.entry p line).sec j := by
  rw [State.homeSec, show (4 * line + j) / 4 = line by omega, show (4 * line + j) % 4 = j by omega]

/-- The one sector of a line that awaits its fill is granted (R95, R96). -/
theorem fill_granted {s : State} {p line i c : Nat} {q : Part} (hq : s.part? p = some q) (hi : i < 4)
    (ho : ∀ j < 4, j ≠ i → (s.homeSec p (4 * line + j)).st ≠ .uf) (hroom : (q.setLines line).length < 16 - q.cvw)
    (hst : (s.homeSec p (4 * line + i)).st = .uf)
    (ht : ∃ no wait tracts host, (s.homeSec p (4 * line + i)).txn = some ⟨.gets ⟨c, 64 * (4 * line + i), none⟩, no, wait, tracts, host⟩)
    (hprep : (s.homeSec p (4 * line + i)).prep = none) (hque : (s.homeSec p (4 * line + i)).queue = [])
    (hlad : s.lading? p (64 * (4 * line + i)) = none) (hhost : inHost (64 * (4 * line + i)) = false) (hc : (s.entry p line).coarse = false)
    (hl : (s.entry p line).ptrs.length ≤ 3) :
    ∃ s' d g, exec (.fillArrives ⟨p, line⟩) s = .next s' ∧ (s'.entry p line).inL2 = true ∧
      s'.agenda = s.agenda ++ [.data ⟨c, 64 * (4 * line + i), d, g⟩] := by
  obtain ⟨no, wait, tracts, host, ht⟩ := ht
  have hp : (s.part? p).isSome = true := by rw [hq]; rfl
  have hdiv : (4 * line + i) / 4 = line := by omega
  have hmod : (4 * line + i) % 4 = i := by omega
  let f : HomeSec → HomeSec := fun h => { h with st := .u, txn := none }
  let s1 := s.modEntry p line fun e => { e with inL2 := true }
  let s2 := s1.modHome p (4 * line + i) f
  have htake : s.takeWay p line = s1 := by
    rw [State.takeWay, hq]
    exact if_pos hroom
  have he1 : s1.entry p line = { s.entry p line with inL2 := true } := entry_modEntry hp _ _
  have hp1 : (s1.part? p).isSome := (part?_modEntry_isSome ..).trans hp
  have hh1 : ∀ j < 4, s1.homeSec p (4 * line + j) = s.homeSec p (4 * line + j) := fun j hj => by
    rw [homeSec_line _ _ _ hj, homeSec_line _ _ _ hj, he1]
    rfl
  have he2 : s2.entry p line = (s1.entry p line).setSec i (f (s.homeSec p (4 * line + i))) := by
    have h := entry_modHome hp1 (4 * line + i) f
    rwa [hdiv, hmod, hh1 i hi] at h
  have hp2 : (s2.part? p).isSome := (part?_modHome_isSome ..).trans hp1
  have hh2 : s2.homeSec p (4 * line + i) = f (s.homeSec p (4 * line + i)) := by rw [homeSec_line _ _ _ hi, he2, sec_setSec_self _ hi]
  have hlad2 : s2.lading? p (64 * (4 * line + i)) = none := by
    rw [← hlad]
    simp [s2, s1, State.lading?, State.modHome, State.modEntry, State.part?_modPart, hq]
  have hin2 : (s2.entry p line).inL2 = true := by rw [he2, he1]; rfl
  have hc2 : (s2.entry p ((4 * line + i) / 4)).coarse = false := by rw [hdiv, he2, he1]; exact hc
  have hl2 : (s2.entry p ((4 * line + i) / 4)).ptrs.length ≤ 3 := by rw [hdiv, he2, he1]; exact hl
  obtain ⟨g, hg, hserve⟩ := serve_gets_free (c := c) (pa := 64 * (4 * line + i)) (s := s2) (p := p) (sec := 4 * line + i)
    (by rw [hh2, ← hprep]) hlad2 hhost hc2 hl2 (by rw [hdiv]; exact hin2)
  have hgr := sendData_granted (c := c) hp2 hg hc2 hl2
  have hstep : fillSector p line s1 i = s2.sendData p (4 * line + i) c g := by
    rw [fillSector, hh1 i hi, hst, ht]
    change (if (s2.entry p line).inL2 then s2.serve p (4 * line + i) _ else _).nextReq p (4 * line + i) = _
    rw [if_pos hin2, hserve, nextReq_granted hgr (by rw [hh2]; exact hque)]
  have hothers : ∀ j < 4, j ≠ i → ((fillSector p line s1 i).homeSec p (4 * line + j)).st ≠ .uf := fun j hj hji => by
    rw [hstep, homeSec_line _ _ _ hj]
    have h := hgr.others j (by rwa [hmod])
    rw [hdiv] at h
    rw [h, he2, sec_setSec_ne _ (Ne.symm hji), ← homeSec_line _ _ _ hj, hh1 j hj]
    exact ho j hj hji
  have hfold := foldl_of_one (fillSector p line) (List.range 4) List.nodup_range (List.mem_range.2 hi) s1
    (fun j hj hji => fillSector_of_st (by rw [hh1 j (List.mem_range.1 hj)]; exact ho j (List.mem_range.1 hj) hji))
    (fun j hj hji => fillSector_of_st (hothers j (List.mem_range.1 hj) hji))
  refine ⟨_, memSector s2.mem (64 * (4 * line + i)), g, by rw [execFillArrives_eq, htake, hfold], ?_, ?_⟩
  · have h := hgr.inL2
    rw [hdiv] at h
    rw [hstep, h, hin2]
  · rw [hstep, hgr.agenda]
    exact congrArg (· ++ _) ((modHome_agenda ..).trans (modEntry_agenda ..))

/-! ### Replacement -/

theorem foldl_keeps {α β γ : Type} (g : β → γ) (F : β → α → β) (l : List α) (h : ∀ b, ∀ a ∈ l, g (F b a) = g b) (b : β) :
    g (l.foldl F b) = g b := by
  induction l generalizing b with
  | nil => rfl
  | cons a l ih => exact (ih (fun b a ha => h b a (.tail _ ha)) _).trans (h b a (.head _))

/-- Calling copies back leaves the agenda and the partitions there are. -/
theorem recall_keeps (s : State) (p sec : Nat) (drop : Bool) (keep : Option Nat) :
    (s.recall p sec drop keep).agenda = s.agenda ∧ ∀ p', ((s.recall p sec drop keep).part? p').isSome = (s.part? p').isSome := by
  have hone : ∀ (s : State) (c : Nat), (s.recallOne sec drop c).agenda = s.agenda ∧ (s.recallOne sec drop c).parts = s.parts := fun s c => by
    unfold State.recallOne
    repeat' split
    all_goals exact ⟨rfl, rfl⟩
  unfold State.recall
  refine ⟨(modEntry_agenda ..).trans (foldl_keeps State.agenda _ _ (fun s c _ => (hone s c).1) s), fun p' => ?_⟩
  refine (part?_modEntry_isSome ..).trans (congrArg (fun l => (alook p' l).isSome) (foldl_keeps State.parts _ _ (fun s c _ => (hone s c).2) s))

/-- The agenda and the watchers of a line stay, and the partition is there as before. -/
structure LineKept (p line : Nat) (s s' : State) : Prop where
  agenda : s'.agenda = s.agenda
  part : (s'.part? p).isSome = (s.part? p).isSome
  watchers : (s'.entry p line).watchers = (s.entry p line).watchers

theorem LineKept.trans {p line : Nat} {s s1 s2 : State} (h : LineKept p line s s1) (h' : LineKept p line s1 s2) : LineKept p line s s2 :=
  ⟨h'.agenda.trans h.agenda, h'.part.trans h.part, h'.watchers.trans h.watchers⟩

theorem LineKept.modEntry {p line : Nat} (s : State) {f : DirEntry → DirEntry} (hf : ∀ e, (f e).watchers = e.watchers) :
    LineKept p line s (s.modEntry p line f) := by
  refine ⟨modEntry_agenda .., part?_modEntry_isSome .., ?_⟩
  cases hp : s.part? p with
  | none => rw [modEntry_of_part_none hp]
  | some q => rw [entry_modEntry (by rw [hp]; rfl), hf]

/-- The sectors of a line are called back one after the other. -/
theorem LineKept.recalls {p line : Nat} (s : State) (sec : Nat → Nat) (hsec : ∀ i < 4, sec i / 4 = line) :
    LineKept p line s ((List.range 4).foldl (fun s i => s.recall p (sec i) true none) s) :=
  ⟨foldl_keeps State.agenda _ _ (fun _ _ _ => (recall_keeps ..).1) s,
    foldl_keeps (fun s : State => (s.part? p).isSome) _ _ (fun _ _ _ => (recall_keeps ..).2 p) s,
    foldl_keeps (fun s : State => (s.entry p line).watchers) _ _
      (fun s i hi => (State.WatchersKept.recall p line s (hsec i (List.mem_range.1 hi)) true none).watchers) s⟩

theorem LineKept.leaveCoarse (p line : Nat) (s : State) : LineKept p line s (s.leaveCoarse p line) := by
  unfold State.leaveCoarse
  split
  · exact (LineKept.recalls s (fun i => line * 4 + i) (fun i hi => by omega)).trans (.modEntry _ fun _ => rfl)
  · exact ⟨rfl, rfl, rfl⟩

theorem LineKept.clearTu (p line : Nat) (s : State) : LineKept p line s (s.clearTu p (4 * line)) := by
  have hd : 4 * line / 4 = line := by omega
  unfold State.clearTu
  rw [hd]
  split
  · obtain ⟨ha, hp, hw⟩ := LineKept.modEntry (p := p) (line := line) s (f := fun e => { e with tu := false }) fun _ => rfl
    exact ⟨ha, hp, hw⟩
  · exact ⟨rfl, rfl, rfl⟩

/-- Replacement may choose a line at rest whose shell can be written. -/
theorem replaceable_of_free {s : State} {p line : Nat} {q : Part} (hq : s.part? p = some q) (hfree : ∀ j < 4, s.homeFree p (4 * line + j) = true)
    (hin : (s.entry p line).inL2 = true)
    (hshell : (s.entry p line).watchers = [] ∧ (s.entry p line).tu = false ∧ (∀ r ∈ q.readers, r.name ≠ line) ∨ q.hasBlocks 1 = true) :
    s.replaceable p q line = true := by
  have hent : s.entry p line = q.entry line := by rw [State.entry, hq]; rfl
  have hlf : s.lineFree p line = true := List.all_eq_true.2 fun j hj => hfree j (List.mem_range.1 hj)
  rw [State.replaceable, ← hent, hin, hlf]
  rcases hshell with ⟨hw, htu, hr⟩ | hb
  · rw [DirEntry.shell, hw, htu, List.any_eq_false.2 fun r hr' => by simpa using hr r hr']
    rfl
  · rw [hb]
    simp

/-- What the host is told of the sectors of a line that leaves the L2 (R96). -/
def goneMsgs (q : Part) (e : DirEntry) (line : Nat) (mem : Memory) : List Event :=
  (q.hostSecs.filter fun y => y.1 / 4 = line && !e.watched (y.1 % 4)).map fun y =>
    .cxlCacheResponse ⟨64 * y.1, if y.2 then .dirtyEvict else .cleanEvict, memSector mem (64 * y.1)⟩

theorem replaceLine_eq {s : State} {p line : Nat} {q : Part} (hq : s.part? p = some q) (hrep : s.replaceable p q line = true) :
    ∃ s1, LineKept p line s s1 ∧
      s.replaceLine p line = (s1.push (goneMsgs q (q.entry line) line s1.mem)).modEntry p line fun e => { e with inL2 := false, dirty := 0 } := by
  refine ⟨_, ((LineKept.leaveCoarse p line s).trans (.recalls _ (fun i => 4 * line + i) fun i hi => by omega)).trans (.clearTu p line _), ?_⟩
  rw [State.replaceLine, hq]
  simp only [hrep, Bool.not_true, Bool.false_eq_true, if_false, goneMsgs]

/-- The line is out of the L2, what it needs in its shell stays, and the host is told of the sectors that it held there (R95, R96). -/
theorem replaceLine_gone {s : State} {p line : Nat} {q : Part} (hq : s.part? p = some q) (hfree : ∀ j < 4, s.homeFree p (4 * line + j) = true)
    (hin : (s.entry p line).inL2 = true)
    (hshell : (s.entry p line).watchers = [] ∧ (s.entry p line).tu = false ∧ (∀ r ∈ q.readers, r.name ≠ line) ∨ q.hasBlocks 1 = true) :
    ((s.replaceLine p line).entry p line).inL2 = false ∧ ((s.replaceLine p line).entry p line).dirty = 0 ∧
      ((s.replaceLine p line).entry p line).watchers = (s.entry p line).watchers ∧
      (s.replaceLine p line).agenda = s.agenda ++ goneMsgs q (s.entry p line) line (s.replaceLine p line).mem := by
  have hent : s.entry p line = q.entry line := by rw [State.entry, hq]; rfl
  obtain ⟨s1, hk, hrun⟩ := replaceLine_eq hq (replaceable_of_free hq hfree hin hshell)
  have hp1 : ((s1.push (goneMsgs q (q.entry line) line s1.mem)).part? p).isSome := hk.part.trans (by rw [hq]; rfl)
  rw [hrun, entry_modEntry hp1, modEntry_agenda, modEntry_mem, hent]
  refine ⟨rfl, rfl, hk.watchers.trans (by rw [hent]), ?_⟩
  change s1.agenda ++ _ = _
  rw [hk.agenda]
  rfl

/-- Settles O27. -/
theorem homeTakesAnswers : Obligations.HomeTakesAnswers := by
  refine ⟨?_, ?_, ?_, ?_, ?_, ?_⟩
  · rintro s c o pa p sec no d rfl rfl hr hq hc hl hst ht
    have hp := part?_isSome_of_st hst (by decide)
    have haw := awaited_of_txn ht
    refine ⟨?_, ?_, ?_, ?_, fun dirty n hn => ?_⟩
    · obtain ⟨h1, h2, h3, h4, h5⟩ := homeSec_putL2 hp (pa / 64) d
      have haw' : (s.putL2 (s.partOf o) (pa / 64) d).awaited (s.partOf o) (pa / 64) o = true := awaited_of_txn (by rw [h1]; exact ht)
      obtain ⟨hm, ha, hs, hx⟩ := answerFwd_gets (s := s.putL2 (s.partOf o) (pa / 64) d) (by rw [h1]; exact hst) (by rw [h1]; exact hq)
        (by rw [h2]; exact hc) (by rw [h3]; exact hl) (by rw [h1]; exact ht) true
      refine ⟨_, ?_, hm.trans h4, ?_, hs, hx⟩
      · rw [execOwnerData_of_reaches hr, if_pos haw, ownerAnswer_xfs haw' (by rw [h1]; exact hst)]
      · rw [ha, h5, hm]
    · obtain ⟨hm, ha, hs, hx⟩ := answerFwd_gets hst hq hc hl ht true
      exact ⟨_, by rw [execClean_of_reaches hr, ownerAnswer_xfs haw hst], hm, ha, hs, hx⟩
    · obtain ⟨hm, ha, hs, hx⟩ := answerFwd_gets hst hq hc hl ht false
      refine ⟨_, ?_, hm, ha, hs, hx⟩
      rw [execGone_of_reaches hr]
      simp [State.gone, haw, ht, hst]
    · rw [execGone_of_reaches hr]
      simp [State.gone, haw, ht, hst]
    · rw [execGone_of_reaches hr]
      simp [State.gone, ht, Ne.symm hn]
  · rintro s c pa p sec d rfl hr rfl ht hh hst hn
    have hp := part?_isSome_of_st hst (by decide)
    constructor
    · obtain ⟨h1, h2, h3, h4⟩ := ownerOut_free (s := (s.push [.wback ⟨c, pa⟩]).putL2 (s.partOf c) (pa / 64) d) (p := s.partOf c)
        ((part?_modEntry_isSome ..).trans hp) (pa / 64)
      obtain ⟨-, -, -, h5, h6⟩ := homeSec_putL2 (s := s.push [.wback ⟨c, pa⟩]) hp (pa / 64) d
      refine ⟨_, ?_, h3.trans h5, h4.trans h6, h1, h2⟩
      have haw : (s.push [.wback ⟨c, pa⟩]).awaited (s.partOf c) (pa / 64) c = false := by
        change (s.homeSec (s.partOf c) (pa / 64)).txn.any _ = false
        rw [ht]
        rfl
      have hnamed : ((s.push [.wback ⟨c, pa⟩]).entry (s.partOf c) (pa / 64 / 4)).named (pa / 64 % 4) = [c] := hn
      rw [execPutx_of_reaches hr]
      simp [State.putx, haw, hst, hh, hnamed]
    · obtain ⟨h1, h2, h3, h4⟩ := ownerOut_free (s := s.push [.wback ⟨c, pa⟩]) (p := s.partOf c) hp (pa / 64)
      refine ⟨_, ?_, h3, h4, h1, h2⟩
      rw [execPute_of_reaches hr]
      simp [hst, hn]
  · rintro s c o pa p sec no host rfl hq hst hpa hl
    have hp := part?_isSome_of_st hst (by decide)
    refine ⟨fun ho hpo hr ht => ?_, fun j ht => ?_, fun j k hjk ht => ?_⟩
    · subst hpo
      obtain ⟨d, h1, h2⟩ := checkSi_modHome (c := c) (pa := pa) (no := no) hst hq hl
        (f := fun h => { h with txn := h.txn.map fun t => { t with wait := t.wait.filter (· ≠ o) } }) rfl (by rw [ht]; simp)
      refine ⟨_, d, ?_, h1, h2⟩
      rw [execAckInv_of_reaches hr ho, if_pos (awaited_of_txn ht), State.replyIn]
    · obtain ⟨d, h1, h2⟩ := checkSi_modHome (c := c) (pa := pa) (no := no) hst hq hl
        (f := fun h => { h with txn := h.txn.map fun t => { t with tracts := t.tracts.filter (· ≠ j) } }) rfl (by rw [ht]; simp)
      refine ⟨_, d, ?_, h1, h2⟩
      rw [execAckTracts_of_txn hpa ht (by simp), State.tractsIn]
    · let f : HomeSec → HomeSec := fun h => { h with txn := h.txn.map fun t => { t with tracts := t.tracts.filter (· ≠ j) } }
      have ht' : ((s.modHome p (pa / 64) f).homeSec p (pa / 64)).txn = some ⟨.getx ⟨c, pa, none⟩, no, [], [k], host⟩ := by
        rw [homeSec_modHome hp]
        simp [f, ht, Ne.symm hjk]
      have hcheck : (s.modHome p (pa / 64) f).checkSi p (pa / 64) = s.modHome p (pa / 64) f := by
        rw [State.checkSi, ht']
        rfl
      refine ⟨_, ?_, ht'⟩
      rw [execAckTracts_of_txn hpa ht (by simp), State.tractsIn]
      change Host.Outcome.next (((s.modHome p (pa / 64) f).checkSi p (pa / 64)).nextReq p (pa / 64)) = _
      rw [hcheck, nextReq_of_empty (by rw [homeSec_modHome hp]; exact hq)]
  · intro s c pa e hr
    refine ⟨fun h => by rw [execAckWrt_of_reaches hr, ackIn_of_none h], fun ha ht hs => ?_⟩
    rw [execAckWrt_of_reaches hr, State.ackIn, ha]
    simp only [List.find?_cons, decide_true]
    refine congrArg Host.Outcome.next ((withOp_of_none (s := s.modCore c fun y => { y with acks := y.acks.erase (pa / 64, e) }) ht hs ..).trans ?_)
    rw [State.modCore, State.modCore, ha, List.erase_cons_head]
  · intro s p line i c q hq hi ho hroom hst ht hprep hque hlad hhost hc hl
    exact fill_granted hq hi ho hroom hst ht hprep hque hlad hhost hc hl
  · intro s p line q hq hfree hin hshell
    exact ⟨_, rfl, replaceLine_gone hq hfree hin hshell⟩

end Sys2Proof.Machine
end

/-! ## What the home's accesses to memory leave unchanged -/
section
namespace Sys2Proof.Machine
open Sys2Proof.Claims

/-! ### The parts of the state that an access of the home does not change -/

/-- A region without its counts, its clearing queue and the messages that a switch has saved. -/
def Region.lasting (r : Region) : Region :=
  { r with sent := 0, consumed := 0, faults := 0, clearq := [], switch := r.switch.map fun w => { w with saved := [] } }

/-- A partition without its directory, its readers and tags, and the records on their way. -/
def Part.lasting (q : Part) : Part := { q with dir := [], readers := [], tags := [], merge := [], pending := [], errs := [], errWait := [] }

/-- A core without its L1, its queues of messages and its readers. -/
def Core.lasting (y : Core) : Core := { y with l1 := [], inbox := [], deque := [], spilling := [], readers := [] }

/-- A cluster without its residencies, the counters of its engine and its count of error events. -/
def Cluster.lasting (k : Cluster) : Cluster := { k with table := [], side0 := .reset, side1 := .reset, events := 0 }

/-- A thread without the state of its table walks. -/
def Thread.lasting (t : Thread) : Thread := { t with ops := t.ops.map fun o => { o with walk := none } }

/-- The physical log without its records. -/
def Ras.lasting (r : Ras) : Ras := { r with plprod := 0, plcons := 0, open_ := [] }

/-- The state without what the accesses of the home change. Cores, clusters and threads are spoken of one by one. -/
def State.lasting (s : State) : State :=
  { s with
    mem := [], threads := [], cores := [], tlbs := [], clusters := [], poison := [], agenda := [], later := [], timers := [], unitWaits := [],
      fresh := 0
    parts := s.parts.map fun e => (e.1, e.2.lasting)
    regions := s.regions.map fun e => (e.1, e.2.lasting)
    ras := s.ras.lasting }

/-- What the table of threads holds for a slot. -/
def State.entriesAt (s : State) (k : Nat × Nat) : List Thread := (s.threads.filter fun e => e.1 = k).map fun e => e.2.lasting

/-- What an access of the home, with all that it calls back and aborts, leaves: only residencies become stale, only activations with a consignment
leave their slots, and memory stays canonical. -/
structure State.HomeKept (s s' : State) : Prop where
  rest : s'.lasting = s.lasting
  cores : ∀ c, (s'.core c).lasting = (s.core c).lasting
  clusters : ∀ k, (s'.cluster k).lasting = (s.cluster k).lasting
  resids : ∀ k key, s'.resid? k key = s.resid? k key ∨ s'.resid? k key = (s.resid? k key).map Residency.stale
  threads : ∀ k, s'.entriesAt k = s.entriesAt k ∨ s'.entriesAt k = [] ∧ ∃ t ∈ s.entriesAt k, t.cons.isSome
  mem : s.mem.wf = true → s'.mem.wf = true

theorem Residency.stale_stale (r : Residency) : r.stale.stale = r.stale := by
  obtain ⟨st, _⟩ := r
  cases st <;> rfl

theorem State.HomeKept.refl (s : State) : s.HomeKept s := ⟨rfl, fun _ => rfl, fun _ => rfl, fun _ _ => .inl rfl, fun _ => .inl rfl, id⟩

theorem State.HomeKept.trans {s s1 s2 : State} (h : s.HomeKept s1) (h' : s1.HomeKept s2) : s.HomeKept s2 where
  rest := h'.rest.trans h.rest
  cores c := (h'.cores c).trans (h.cores c)
  clusters k := (h'.clusters k).trans (h.clusters k)
  resids k key := by
    rcases h.resids k key with e | e <;> rcases h'.resids k key with e' | e'
    · exact .inl (e'.trans e)
    · exact .inr (by rw [e', e])
    · exact .inr (e'.trans e)
    · exact .inr (by rw [e', e, Option.map_map]; exact congrArg (Option.map · _) (funext Residency.stale_stale))
  threads k := by
    rcases h.threads k with e | ⟨e, hc⟩ <;> rcases h'.threads k with e' | ⟨e', hc'⟩
    · exact .inl (e'.trans e)
    · exact .inr ⟨e', e ▸ hc'⟩
    · exact .inr ⟨e'.trans e, hc⟩
    · exact .inr ⟨e', hc⟩
  mem := fun hm => h'.mem (h.mem hm)

/-- A change of the records that come and go alone. -/
theorem State.HomeKept.of_lasting {s s' : State} (hr : s'.lasting = s.lasting) (hc : s'.cores = s.cores) (hk : s'.clusters = s.clusters)
    (ht : s'.threads = s.threads) (hm : s.mem.wf = true → s'.mem.wf = true) : s.HomeKept s' where
  rest := hr
  cores c := by rw [State.core, State.core, hc]
  clusters k := by rw [State.cluster, State.cluster, hk]
  resids k key := .inl (by rw [State.resid?, State.resid?, State.cluster, State.cluster, hk])
  threads k := .inl (by rw [State.entriesAt, State.entriesAt, ht])
  mem := hm

theorem State.HomeKept.foldl {α : Type} (f : State → α → State) (l : List α) (h : ∀ (s : State), ∀ a ∈ l, s.HomeKept (f s a)) (s : State) :
    s.HomeKept (l.foldl f s) := by
  induction l generalizing s with
  | nil => exact .refl s
  | cons a l ih => exact (h s a (.head _)).trans (ih (fun s b hb => h s b (.tail _ hb)) _)

/-- A fold that carries the state beside something else. -/
theorem State.HomeKept.foldl_at {α β : Type} (g : β → State) (f : β → α → β) (h : ∀ b a, (g b).HomeKept (g (f b a))) (l : List α) (b : β) :
    (g b).HomeKept (g (l.foldl f b)) := by
  induction l generalizing b with
  | nil => exact .refl _
  | cons a l ih => exact (h b a).trans (ih _)

theorem State.HomeKept.ite {s s1 s2 : State} {p : Prop} [Decidable p] (h1 : s.HomeKept s1) (h2 : s.HomeKept s2) :
    s.HomeKept (if p then s1 else s2) := by
  split
  · exact h1
  · exact h2

/-! ### Single changes -/

theorem State.HomeKept.push (s : State) (es : List Event) : s.HomeKept (s.push es) := .of_lasting rfl rfl rfl rfl id

theorem State.HomeKept.later1 (s : State) (e : Event) : s.HomeKept (s.later1 e) := by
  unfold State.later1
  split
  · exact .refl s
  · exact .of_lasting rfl rfl rfl rfl id

theorem State.HomeKept.freeWord (s : State) : s.HomeKept s.freeWord.2 := .of_lasting rfl rfl rfl rfl id

theorem State.HomeKept.setPoison (s : State) (sec : Nat) (kind : Option Nat) : s.HomeKept (s.setPoison sec kind) := .of_lasting rfl rfl rfl rfl id

theorem State.HomeKept.fillTlb (s : State) (cl : Nat) (e : TlbEntry) : s.HomeKept (s.fillTlb cl e) := .of_lasting rfl rfl rfl rfl id

theorem State.HomeKept.unitAt (s : State) (p sec : Nat) (write : Bool) : s.HomeKept (s.unitAt p sec write) := by
  unfold State.unitAt
  split
  · exact .refl s
  · exact .of_lasting rfl rfl rfl rfl id

/-- A key's value replaced by one that looks the same. -/
theorem map_aset_of_alook {κ α β : Type} [DecidableEq κ] {k : κ} {l : List (κ × α)} {x : α} (h : alook k l = some x) (g : α → β) {y : α}
    (hy : g y = g x) : (aset k y l).map (fun e => (e.1, g e.2)) = l.map fun e => (e.1, g e.2) := by
  induction l with
  | nil => cases h
  | cons e l ih =>
    obtain ⟨k', x'⟩ := e
    rw [alook] at h
    rw [aset]
    split at h
    · next hk => cases h; rw [if_pos hk, List.map_cons, List.map_cons, hy, hk]
    · next hk => rw [if_neg hk, List.map_cons, List.map_cons, ih h]

theorem State.HomeKept.modPart (s : State) (p : Nat) (f : Part → Part) (h : ∀ q, (f q).lasting = q.lasting) : s.HomeKept (s.modPart p f) := by
  unfold State.modPart
  split
  · next q hq => exact .of_lasting (congrArg (fun l => { s.lasting with parts := l }) (map_aset_of_alook hq Part.lasting (h q))) rfl rfl rfl id
  · exact .refl s

theorem State.HomeKept.modRegion (s : State) (r : Nat) (f : Region → Region) (h : ∀ x, (f x).lasting = x.lasting) : s.HomeKept (s.modRegion r f) := by
  unfold State.modRegion
  split
  · next x hx => exact .of_lasting (congrArg (fun l => { s.lasting with regions := l }) (map_aset_of_alook hx Region.lasting (h x))) rfl rfl rfl id
  · exact .refl s

theorem State.HomeKept.modEntry (s : State) (p line : Nat) (f : DirEntry → DirEntry) : s.HomeKept (s.modEntry p line f) :=
  .modPart s p _ fun _ => rfl

theorem State.HomeKept.modCore (s : State) (c : Nat) (f : Core → Core) (h : ∀ y, (f y).lasting = y.lasting) : s.HomeKept (s.modCore c f) where
  rest := rfl
  cores c' := by
    rw [State.modCore, State.core_setCore]
    split
    · next hc => rw [h, hc]
    · rfl
  clusters _ := rfl
  resids _ _ := .inl rfl
  threads _ := .inl rfl
  mem := id

theorem State.HomeKept.delL1 (s : State) (c sec : Nat) : s.HomeKept (s.delL1 c sec) := .modCore s c _ fun _ => rfl

theorem State.HomeKept.setL1 (s : State) (c sec : Nat) (x : L1Sec) : s.HomeKept (s.setL1 c sec x) := .modCore s c _ fun _ => rfl

/-! ### Aborts -/

theorem State.core_mapCores (s : State) (f : Core → Core) (hf : f .reset = .reset) (c : Nat) :
    ({ s with cores := s.cores.map fun e => (e.1, f e.2) } : State).core c = f (s.core c) := by
  rw [State.core, State.core, alook_map]
  cases alook c s.cores with
  | none => exact hf.symm
  | some y => rfl

/-- A change of every core. -/
theorem State.HomeKept.mapCores (s : State) (f : Core → Core) (hf : f .reset = .reset) (h : ∀ y, (f y).lasting = y.lasting) :
    s.HomeKept { s with cores := s.cores.map fun e => (e.1, f e.2) } where
  rest := rfl
  cores c := by rw [State.core_mapCores s f hf, h]
  clusters _ := rfl
  resids _ _ := .inl rfl
  threads _ := .inl rfl
  mem := id

theorem State.HomeKept.consume (s : State) (region n : Nat) : s.HomeKept (s.consume region n) := .modRegion s region _ fun _ => rfl

theorem State.HomeKept.leaveQueue (s : State) (region c k : Nat) (again : Bool) : s.HomeKept (s.leaveQueue region c k again) := by
  unfold State.leaveQueue
  split
  · exact .refl s
  · split
    · exact .refl s
    · dsimp only
      have h : ∀ q : List (Nat × Nat), s.HomeKept (s.modRegion region fun r => { r with clearq := q }) := fun q => .modRegion s region _ fun _ => rfl
      split
      · exact (h _).trans (.push _ _)
      · exact h _

theorem State.HomeKept.freeEntry (s : State) (c : Nat) (t : Thread) (keep : Option InMsg) : s.HomeKept (s.freeEntry c t keep) := by
  unfold State.freeEntry
  split
  · exact .modCore s c _ fun _ => rfl
  · exact .refl s

theorem State.HomeKept.dropReaders (s : State) (c : Nat) (t : Thread) : s.HomeKept (s.dropReaders c t) := by
  unfold State.dropReaders
  dsimp only
  refine .trans ?_ (.modPart _ _ _ fun _ => rfl)
  refine .trans ?_ (.modCore _ c _ fun _ => rfl)
  exact .mapCores s (fun y => { y with readers := y.readers.filter fun r => !(decide (r.key.tid = t.tid.toNat) && decide (r.region = t.region)) }) rfl
    fun _ => rfl

theorem State.HomeKept.dropIntents (s : State) (t : Thread) : s.HomeKept (s.dropIntents t) := .of_lasting rfl rfl rfl rfl id

theorem filter_adel {κ α : Type} [DecidableEq κ] (k k' : κ) (l : List (κ × α)) :
    (adel k l).filter (fun e => e.1 = k') = if k = k' then [] else l.filter fun e => e.1 = k' := by
  rw [adel, List.filter_filter]
  split
  · next h => subst h; exact List.filter_eq_nil_iff.2 fun e _ => by simp
  · next h => exact List.filter_congr fun e _ => by by_cases he : e.1 = k' <;> simp [he, Ne.symm h]

/-- An entry of a slot is there when a thread is. -/
theorem State.mem_entriesAt {s : State} {c k : Nat} {t : Thread} (h : s.thread? c k = some t) : t.lasting ∈ s.entriesAt (c, k) :=
  List.mem_map.2 ⟨((c, k), t), List.mem_filter.2 ⟨mem_of_alook h, decide_eq_true rfl⟩, rfl⟩

/-- A slot that a consignment holds, or that is empty already, is freed. -/
theorem State.HomeKept.delThread (s : State) (c k : Nat) (h : s.entriesAt (c, k) = [] ∨ ∃ t ∈ s.entriesAt (c, k), t.cons.isSome) :
    s.HomeKept (s.delThread c k) where
  rest := rfl
  cores _ := rfl
  clusters _ := rfl
  resids _ _ := .inl rfl
  threads k' := by
    have he : (s.delThread c k).entriesAt k' = if (c, k) = k' then [] else s.entriesAt k' := by
      rw [State.entriesAt, State.delThread, filter_adel]
      split <;> rfl
    rw [he]
    split
    · next hk =>
      subst hk
      exact h.elim (fun h => .inl h.symm) fun h => .inr ⟨rfl, h⟩
    · exact .inl rfl
  mem := id

theorem State.HomeKept.dropActivation (s : State) (c k : Nat) (keep : Option InMsg)
    (h : s.entriesAt (c, k) = [] ∨ ∃ t ∈ s.entriesAt (c, k), t.cons.isSome) : s.HomeKept (s.dropActivation c k keep) := by
  unfold State.dropActivation
  split
  · exact .refl s
  · next t ht =>
    have hdrop := ((((State.HomeKept.delThread s c k h).trans (.freeEntry _ c t keep)).trans (.dropReaders _ c t)).trans (.dropIntents _ t)).trans
      (.leaveQueue _ t.region c k keep.isSome)
    dsimp only
    split
    · exact hdrop.trans (.modRegion _ _ _ fun _ => rfl)
    · exact hdrop

theorem State.HomeKept.discardMsgs (s : State) (dead : InMsg → Bool) : s.HomeKept (s.discardMsgs dead) := by
  unfold State.discardMsgs
  refine .trans (.foldl (fun (s : State) (i : InMsg) => s.consume i.mark.region 1) (s.unconsumed.filter fun i => dead i && i.mark.region ≠ 0)
    (fun s i _ => .consume s _ _) s) ?_
  generalize (s.unconsumed.filter fun i => dead i && i.mark.region ≠ 0).foldl (fun (s : State) i => s.consume i.mark.region 1) s = s1
  refine (State.HomeKept.mapCores s1 (fun y => { y with
    inbox := y.inbox.filter fun i => i.kept || !dead i, deque := y.deque.filter fun i => i.kept || !dead i,
    spilling := y.spilling.map fun z => (z.1, { z.2 with kept := z.2.kept || dead z.2 }) }) rfl fun _ => rfl).trans ?_
  refine .of_lasting (congrArg (fun l => { s1.lasting with regions := l }) ?_) rfl rfl rfl id
  rw [List.map_map]
  refine List.map_congr_left fun e _ => ?_
  simp only [Function.comp, Region.lasting, Option.map_map]
  rfl

/-- Activations are dropped one after the other, each with its consignment or gone before. -/
theorem State.HomeKept.dropActivations (l : List ((Nat × Nat) × Thread)) (s : State)
    (h : ∀ e ∈ l, s.entriesAt e.1 = [] ∨ ∃ t ∈ s.entriesAt e.1, t.cons.isSome) :
    s.HomeKept (l.foldl (fun s e => s.dropActivation e.1.1 e.1.2 none) s) := by
  induction l generalizing s with
  | nil => exact .refl s
  | cons e l ih =>
    have hdrop := State.HomeKept.dropActivation s e.1.1 e.1.2 none (h e (.head _))
    refine hdrop.trans (ih _ fun e' he' => ?_)
    rcases hdrop.threads e'.1 with hk | hk
    · rw [hk]
      exact h e' (.tail _ he')
    · exact .inl hk.1

theorem State.HomeKept.killTag (s : State) (p : Nat) (tag : BitVec 16) : s.HomeKept (s.killTag p tag) := by
  unfold State.killTag
  split
  · exact .refl s
  · refine .trans ?_ (.discardMsgs _ _)
    refine .trans ?_ (.dropActivations _ _ fun e he => ?_)
    · exact .modPart s p _ fun _ => rfl
    · obtain ⟨hm, hc⟩ := List.mem_filter.1 he
      refine .inr ⟨e.2.lasting, List.mem_map.2 ⟨e, List.mem_filter.2 ⟨hm, decide_eq_true rfl⟩, rfl⟩, ?_⟩
      cases hcons : e.2.cons with
      | some y => exact Option.isSome_iff_exists.2 ⟨y, hcons⟩
      | none => simp [hcons] at hc

theorem State.HomeKept.abortOrdered (s : State) (c k : Nat) : s.HomeKept (s.abortOrdered c k) := by
  unfold State.abortOrdered
  split
  · exact .refl s
  · next x hx =>
    split
    · exact .refl s
    · obtain ⟨t, ht, hc⟩ := Option.bind_eq_some_iff.1 hx
      exact (State.HomeKept.dropActivation s c k _ (.inr ⟨t.lasting, State.mem_entriesAt ht, Option.isSome_iff_exists.2 ⟨x, hc⟩⟩)).trans
        (.killTag _ _ _)

theorem State.HomeKept.abortReaders (s : State) (rs : List Reader) : s.HomeKept (s.abortReaders rs) :=
  .foldl _ rs (fun s r _ => by
    split
    · exact .abortOrdered s _ _
    · exact .refl s) s

/-- The entries of the threads change in their walks alone. -/
theorem State.entriesAt_map {s s' : State} {g : (Nat × Nat) × Thread → (Nat × Nat) × Thread} (ht : s'.threads = s.threads.map g)
    (hk : ∀ e, (g e).1 = e.1) (hl : ∀ e, (g e).2.lasting = e.2.lasting) (k : Nat × Nat) : s'.entriesAt k = s.entriesAt k := by
  rw [State.entriesAt, State.entriesAt, ht, List.filter_map, List.map_map]
  have hf : ((fun e : (Nat × Nat) × Thread => decide (e.1 = k)) ∘ g) = fun e => decide (e.1 = k) := funext fun e => by
    rw [Function.comp, hk]
  rw [hf]
  exact List.map_congr_left fun e _ => hl e

theorem State.HomeKept.clearTu (s : State) (p sec : Nat) : s.HomeKept (s.clearTu p sec) := by
  unfold State.clearTu
  split
  · refine (State.HomeKept.modEntry s p (sec / 4) _).trans
      ⟨rfl, fun _ => rfl, fun _ => rfl, fun _ _ => .inl rfl, fun k => .inl (State.entriesAt_map rfl (fun e => ?_) (fun e => ?_) k), id⟩
    · split <;> rfl
    · split
      · simp only [Thread.lasting, List.map_map]
        rfl
      · rfl
  · exact .refl s

/-! ### Copies called back, lines replaced, writes and reads at the home -/

theorem State.HomeKept.recallOne (s : State) (sec : Nat) (drop : Bool) (c : Nat) : s.HomeKept (s.recallOne sec drop c) := by
  unfold State.recallOne
  split
  · exact .refl s
  · next x _ =>
    have hmem : s.HomeKept (if x.st == .m || x.st == .mia then { s with mem := memWrite s.mem (64 * sec) (sectorBytes x.data) } else s) := by
      split
      · exact .of_lasting rfl rfl rfl rfl (memWrite_wf _ _ _)
      · exact .refl s
    have hbad : ∀ s : State, s.HomeKept (if x.st == .m || x.st == .mia || x.st == .e then s.setPoison sec x.bad else s) := fun s => by
      split
      · exact .setPoison s sec _
      · exact .refl s
    refine (hmem.trans (hbad _)).trans ?_
    exact .ite (.setL1 _ c sec _) (.ite (.ite (.setL1 _ c sec _) (.refl _)) (.ite (.delL1 _ c sec) (.ite (.setL1 _ c sec _) (.refl _))))

theorem State.HomeKept.recall (s : State) (p sec : Nat) (drop : Bool) (keep : Option Nat) : s.HomeKept (s.recall p sec drop keep) := by
  unfold State.recall
  exact (State.HomeKept.foldl (fun s c => s.recallOne sec drop c) ((s.holders p sec).filter fun c => some c ≠ keep)
    (fun s c _ => .recallOne s sec drop c) s).trans (.modEntry _ _ _ _)

theorem State.HomeKept.leaveCoarse (s : State) (p line : Nat) : s.HomeKept (s.leaveCoarse p line) := by
  unfold State.leaveCoarse
  split
  · exact (State.HomeKept.foldl (fun s i => s.recall p (line * 4 + i) true none) (List.range 4) (fun s i _ => .recall s p _ true none) s).trans
      (.modEntry _ _ _ _)
  · exact .refl s

theorem State.HomeKept.replaceLine (s : State) (p line : Nat) : s.HomeKept (s.replaceLine p line) := by
  unfold State.replaceLine
  split
  · exact .refl s
  · split
    · exact .refl s
    · exact (((State.HomeKept.leaveCoarse s p line).trans (.foldl (fun s i => s.recall p (4 * line + i) true none) (List.range 4)
        (fun s i _ => .recall s p _ true none) _)).trans (.clearTu _ p (4 * line))).trans ((State.HomeKept.push _ _).trans (.modEntry _ p line _))

theorem State.HomeKept.takeWay (s : State) (p line : Nat) : s.HomeKept (s.takeWay p line) := by
  unfold State.takeWay
  split
  · exact .refl s
  · dsimp only
    split
    · exact .modEntry s p line _
    · split
      · exact .refl s
      · refine .trans ?_ (.modEntry _ p line _)
        exact (State.HomeKept.of_lasting (s := s) (s' := { s with fresh := s.fresh + 1 }) rfl rfl rfl rfl id).trans (.replaceLine _ p _)

theorem State.HomeKept.fill (s : State) (p line : Nat) : s.HomeKept (s.fill p line) := by
  unfold State.fill
  split
  · exact .refl s
  · exact .takeWay s p line

theorem State.HomeKept.biSnoop (s : State) (p sec : Nat) : s.HomeKept (s.biSnoop p sec) := by
  unfold State.biSnoop
  split
  · dsimp only
    split
    · refine .trans ?_ (.modEntry _ _ _ _)
      exact .of_lasting rfl rfl rfl rfl (memWrite_wf _ _ _)
    · exact .of_lasting rfl rfl rfl rfl id
  · exact .refl s

theorem State.HomeKept.beforeWrite (s : State) (p sec : Nat) (w : Option (Nat × Key)) : s.HomeKept (s.beforeWrite p sec w) :=
  (State.HomeKept.abortReaders s _).trans (.clearTu _ p sec)

theorem State.HomeKept.modCluster (s : State) (k : Nat) (f : Cluster → Cluster) (h : ∀ x, (f x).lasting = x.lasting)
    (ht : ∀ key, alook key (f (s.cluster k)).table = alook key (s.cluster k).table ∨
      alook key (f (s.cluster k)).table = (alook key (s.cluster k).table).map Residency.stale) : s.HomeKept (s.modCluster k f) where
  rest := rfl
  cores _ := rfl
  clusters k' := by
    rw [State.cluster, State.modCluster, alook_aset]
    split
    · next hk => rw [Option.getD_some, h, hk]
    · rfl
  resids k' key := by
    rw [State.resid?, State.resid?, State.cluster, State.modCluster, alook_aset]
    split
    · next hk => subst hk; exact ht key
    · exact .inl rfl
  threads _ := .inl rfl
  mem := id

theorem State.HomeKept.modSide (s : State) (k : Nat) (side : Bool) (f : Side → Side) : s.HomeKept (s.modSide k side f) := by
  refine .modCluster s k _ (fun x => ?_) fun key => .inl ?_ <;> cases side <;> rfl

theorem State.HomeKept.markStale (s : State) (k : Nat) (h : BitVec 32) : s.HomeKept (s.markStale k h) := by
  unfold State.markStale
  split
  · next e key r hr =>
    refine .trans ?_ (.modSide _ e r.side _)
    refine .modCluster s e _ (fun _ => rfl) fun key' => ?_
    rw [alook_aset]
    split
    · next hk =>
      subst hk
      obtain ⟨x, -, hx⟩ := List.exists_of_findSome?_eq_some hr
      obtain ⟨r', hr', he⟩ := Option.map_eq_some_iff.1 hx
      obtain ⟨hr', -⟩ := Option.filter_eq_some_iff.1 hr'
      cases he
      exact .inr (by rw [hr']; rfl)
    · exact .inl rfl
  · exact .refl s

theorem State.HomeKept.markSector (s : State) (p sec : Nat) : s.HomeKept (s.markSector p sec) := by
  unfold State.markSector
  exact .foldl _ _ (fun s x _ => .markStale s _ _) s

theorem State.HomeKept.sendMsg (s : State) (core : Nat) (m : Msg) (src : Option OpRef) (mark : MsgMark) : s.HomeKept (s.sendMsg core m src mark) := by
  unfold State.sendMsg
  refine .trans ?_ (.push _ _)
  split
  · exact .modRegion s _ _ fun _ => rfl
  · exact .refl s

theorem State.HomeKept.sendWakes (s : State) (p line : Nat) (mask : BitVec 4) : s.HomeKept (s.sendWakes p line mask) := by
  unfold State.sendWakes
  refine .foldl _ _ (fun s w _ => ?_) s
  dsimp only
  split
  · exact .refl s
  · split
    · exact .push s _
    · split
      · exact .sendMsg s _ _ _ _
      · exact .refl s

theorem State.HomeKept.linkWrite (s : State) (p sec : Nat) : s.HomeKept (s.linkWrite p sec) := by
  unfold State.linkWrite
  split
  · exact .refl s
  · dsimp only
    split
    · exact .refl s
    · exact .push s _

theorem State.HomeKept.homeStore (s : State) (p sec : Nat) (keep : Option Nat) (data : V512) (mask : BitVec 64) :
    s.HomeKept (s.homeStore p sec keep data mask) := by
  unfold State.homeStore
  dsimp only
  refine .trans ?_ (.linkWrite _ p sec)
  refine .trans ?_ (.sendWakes _ p _ _)
  have hmark := (State.HomeKept.markSector s p sec).trans (.modEntry _ p (sec / 4) fun e =>
    { e with dirty := if e.inL2 then e.dirty ||| (1#4 <<< (sec % 4)) else e.dirty })
  refine hmark.trans ?_
  have hmem := fun s : State => State.HomeKept.of_lasting (s := s) (s' := { s with
    mem := memMerge s.mem (64 * sec) data mask, poison := if mask = BitVec.allOnes 64 then adel sec s.poison else s.poison })
    rfl rfl rfl rfl (memMerge_wf _ _ _ _)
  split
  · split
    · exact (hmem _).trans (.setL1 _ _ _ _)
    · exact hmem _
  · exact hmem _

theorem State.HomeKept.homeApply (s : State) (p sec : Nat) (keep : Option Nat) (data : V512) (mask : BitVec 64) (w : Option (Nat × Key)) :
    s.HomeKept (s.homeApply p sec keep data mask w) :=
  (((State.HomeKept.fill s p (sec / 4)).trans (.beforeWrite _ p sec w)).trans (.recall _ p sec true keep)).trans (.homeStore _ p sec keep data mask)

theorem State.HomeKept.homeWrite (s : State) (p sec : Nat) (keep : Option Nat) (data : V512) (mask : BitVec 64) (w : Option (Nat × Key)) :
    s.HomeKept (s.homeWrite p sec keep data mask w) := (State.HomeKept.biSnoop s p sec).trans (.homeApply _ p sec keep data mask w)

theorem State.HomeKept.homeRead (s : State) (p sec : Nat) : s.HomeKept (s.homeRead p sec) := by
  unfold State.homeRead
  dsimp only
  split
  · exact .fill s p _
  · exact (State.HomeKept.fill s p _).trans (.recall _ p sec false none)

theorem State.HomeKept.homeReadBytes (s : State) (p pa n : Nat) : s.HomeKept (s.homeReadBytes p pa n).2 := by
  unfold State.homeReadBytes
  exact .foldl _ _ (fun s x _ => (State.HomeKept.unitAt s p x.1 false).trans (.homeRead _ p x.1)) s

theorem State.HomeKept.homeWriteBytes (s : State) (p pa : Nat) (bs : List Byte) (w : Option (Nat × Key)) :
    s.HomeKept (s.homeWriteBytes p pa bs w) := by
  unfold State.homeWriteBytes
  refine .foldl _ _ (fun s x _ => ?_) s
  obtain ⟨sec, o, n⟩ := x
  refine (State.HomeKept.unitAt s p sec true).trans ?_
  exact .homeWrite _ p sec none _ _ w

theorem State.HomeKept.memPut (s : State) (a : Nat) (bs : List Byte) : s.HomeKept (s.memPut a bs) :=
  .of_lasting rfl rfl rfl rfl (memWrite_wf _ _ _)

/-! ### Translation, and the device's accesses of virtual memory -/

theorem State.HomeKept.markTu (s : State) (p sec : Nat) : s.HomeKept (s.markTu p sec) := .modEntry s p _ _

theorem State.HomeKept.setAd (s : State) (p a : Nat) (write : Bool) : s.HomeKept (s.setAd p a write) := by
  unfold State.setAd
  dsimp only
  generalize memDword s.mem a ||| (if write then 0x600#64 else 0x200#64) = e
  split
  · exact .refl s
  · refine .trans ?_ (.markTu _ p _)
    refine .trans ?_ (.homeWriteBytes _ p a _ none)
    exact .modEntry s p _ _

/-- A level of a walk has its entry read. -/
def State.readPte (s : State) (p : Nat) (q : Part) (t a : Nat) : State :=
  if inPriv q t then ((s.unitAt p (a / 64) false).homeRead p (a / 64)).markTu p (a / 64) else s

theorem State.walkFrom_cons {s : State} {p : Nat} {q : Part} (hq : s.part? p = some q) (va : Word) (asid : BitVec 16) (k : TrKind) (t : Nat)
    (srcs : List Nat) (lvl : Nat) (lvls : List Nat) : s.walkFrom p va asid k t srcs (lvl :: lvls) =
      match walkStep q (s.readPte p q t (pteAddr va t lvl)).mem va asid k t lvl srcs with
      | .inl t' => (s.readPte p q t (pteAddr va t lvl)).walkFrom p va asid k t' (srcs ++ [pteAddr va t lvl / 64]) lvls
      | .inr (.ok e) => (.ok e, (s.readPte p q t (pteAddr va t lvl)).setAd p (pteAddr va t lvl) k.writes)
      | .inr r => (r, s.readPte p q t (pteAddr va t lvl)) := by
  rw [State.walkFrom, hq]
  rfl

theorem State.HomeKept.readPte (s : State) (p : Nat) (q : Part) (t a : Nat) : s.HomeKept (s.readPte p q t a) := by
  unfold State.readPte
  split
  · refine .trans ?_ (.markTu _ p _)
    refine .trans ?_ (.homeRead _ p _)
    exact .unitAt s p _ false
  · exact .refl s

theorem State.HomeKept.walkFrom (p : Nat) (va : Word) (asid : BitVec 16) (k : TrKind) (lvls : List Nat) (s : State) (t : Nat) (srcs : List Nat) :
    s.HomeKept (s.walkFrom p va asid k t srcs lvls).2 := by
  induction lvls generalizing s t srcs with
  | nil => exact .refl s
  | cons lvl lvls ih =>
    cases hq : s.part? p with
    | none => rw [State.walkFrom, hq]; exact .refl s
    | some q =>
      rw [State.walkFrom_cons hq]
      have hread := State.HomeKept.readPte s p q t (pteAddr va t lvl)
      split
      · exact hread.trans (ih _ _ _)
      · dsimp only
        exact hread.trans (.setAd _ p _ _)
      · exact hread

theorem State.HomeKept.walk (s : State) (p : Nat) (va : Word) (asid : BitVec 16) (troot : Nat) (k : TrKind) :
    s.HomeKept (s.walk p va asid troot k).2 := by
  unfold State.walk
  split
  · exact .refl s
  · exact .walkFrom p va asid k _ s troot []

theorem State.HomeKept.translate (s : State) (p cl : Nat) (asid : BitVec 16) (troot : Nat) (va : Word) (k : TrKind) :
    s.HomeKept (s.translate p cl asid troot va k).2 := by
  have hwalk := State.HomeKept.walk s p va asid troot k
  unfold State.translate
  cases hw : s.walk p va asid troot k with
  | mk r s1 =>
    rw [hw] at hwalk
    have hvia : s.HomeKept (match (r, s1) with
      | (.ok e, s') => (e.place (s.part? p) va.toNat, s'.fillTlb cl e)
      | (.fault f, s') => (.fault f, s')).2 := by
      cases r with
      | ok e => exact hwalk.trans (.fillTlb _ _ _)
      | fault f => exact hwalk
    dsimp only
    split
    · exact hvia
    · simp only [apply_ite Prod.snd]
      exact .ite hvia (.ite (.refl s) (.ite (.refl s) (.ite hvia (.ite hvia (.refl s)))))

theorem State.HomeKept.translateR (s : State) (core region : Nat) (va : Word) (k : TrKind) : s.HomeKept (s.translateR core region va k).2 := by
  unfold State.translateR
  split
  · exact .translate s _ _ _ _ va k
  · exact .refl s

theorem State.HomeKept.translateRun (core region : Nat) (k : TrKind) (fuel : Nat) (s : State) (va : Word) (n : Nat) :
    s.HomeKept (s.translateRun core region va n k fuel).2 := by
  induction fuel generalizing s va n with
  | zero => exact .refl s
  | succ fuel ih =>
    rw [State.translateRun]
    have htr := State.HomeKept.translateR s core region va k
    split
    · exact .refl s
    · split <;> rename_i h <;> rw [h] at htr
      · exact htr
      · next pa sh room s1 =>
        split
        · exact htr
        · have hrec := ih s1 (va + BitVec.ofNat 64 room) (n - room)
          split <;> rename_i h' <;> rw [h'] at hrec
          · exact htr.trans hrec
          · exact htr.trans hrec

theorem State.HomeKept.devRuns (s : State) (core region : Nat) (va : Word) (n : Nat) (k : TrKind) (noSh : Bool) :
    s.HomeKept (s.devRuns core region va n k noSh).2 := by
  unfold State.devRuns
  have hrun := State.HomeKept.translateRun core region k (n / 4096 + 2) s va n
  split
  · exact .refl s
  · split <;> rename_i h <;> rw [h] at hrun
    · exact hrun
    · simp only [apply_ite Prod.snd]
      exact .ite hrun hrun

/-- The bytes of runs read one after the other. -/
theorem State.HomeKept.readRuns {s : State} (f : List Byte × State → Run → List Byte × State) 
    (hf : ∀ (b : List Byte × State) (a : Run), b.2.HomeKept (f b a).2) (rs : List Run)
    (b : List Byte × State) (hs : s.HomeKept b.2) : s.HomeKept (rs.foldl f b).2 :=
  hs.trans (.foldl_at Prod.snd f hf rs b)

theorem State.HomeKept.devRead (s : State) (core region : Nat) (va : Word) (n : Nat) : s.HomeKept (s.devRead core region va n).2 := by
  unfold State.devRead
  have hrun := State.HomeKept.translateRun core region .pathR (n / 4096 + 2) s va n
  split
  · exact .refl s
  · split <;> rename_i h <;> rw [h] at hrun
    · exact hrun
    · refine .readRuns _ (fun b a => ?_) _ _ hrun
      dsimp only
      split
      · exact .refl _
      · exact .homeReadBytes _ _ _ _

theorem State.HomeKept.writeRuns (s : State) (p : Nat) (rs : List Run) (bs : List Byte) (w : Option (Nat × Key)) :
    s.HomeKept (s.writeRuns p rs bs w) := by
  unfold State.writeRuns
  refine .foldl_at Prod.fst _ (fun b a => ?_) rs (s, bs)
  dsimp only
  split
  · exact .memPut _ _ _
  · exact .homeWriteBytes _ p _ _ w

theorem State.HomeKept.devWrite (s : State) (core region : Nat) (va : Word) (bs : List Byte) (noSh : Bool) :
    s.HomeKept (s.devWrite core region va bs noSh).2 := by
  unfold State.devWrite
  have hrun := State.HomeKept.devRuns s core region va bs.length .store noSh
  split <;> rename_i h <;> rw [h] at hrun
  · exact hrun
  · dsimp only
    exact hrun.trans (.writeRuns _ _ _ bs none)

/-! ### Fault records -/

theorem State.HomeKept.queueCtl (s : State) (core region : Nat) : s.HomeKept (s.queueCtl core region).2 := by
  unfold State.queueCtl
  split
  · exact .refl s
  · next r _ =>
    have hrun := State.HomeKept.devRuns s core region r.fltq 64 .store true
    split
    · exact .refl s
    · split <;> rename_i h <;> rw [h] at hrun
      · exact hrun
      · next rs s1 =>
        have hread := State.HomeKept.readRuns (s := s) (fun acc (x : Run) => (acc.1 ++ (acc.2.homeReadBytes r.part x.pa x.len).1,
          (acc.2.homeReadBytes r.part x.pa x.len).2)) (fun b a => .homeReadBytes _ _ _ _) rs ([], s1) hrun
        dsimp only
        simp only [apply_ite Prod.snd]
        exact .ite hread hread

theorem State.HomeKept.writeDword (s : State) (p : Nat) (rs : List Run) (off v : Nat) : s.HomeKept (s.writeDword p rs off v) := by
  unfold State.writeDword
  split
  · exact .homeWriteBytes s p _ _ none
  · exact .refl s

theorem State.HomeKept.modFline (s : State) (core region off : Nat) (f : Nat → Nat) : s.HomeKept (s.modFline core region off f) := by
  unfold State.modFline
  split
  · exact .refl s
  · next r _ =>
    have hrun := State.HomeKept.devRuns s core region r.fline 64 .store false
    split <;> rename_i h <;> rw [h] at hrun
    · next x xs s1 =>
      have hread := hrun.trans (.homeReadBytes s1 r.part (x.pa + off) 8)
      dsimp only
      split
      · exact hread.trans (.writeDword _ _ _ _ _)
      · exact hread
    · exact hrun

theorem State.HomeKept.loseRec (s : State) (core region : Nat) : s.HomeKept (s.loseRec core region) := .modFline s core region 16 _

theorem State.HomeKept.setOvf (s : State) (core region : Nat) : s.HomeKept (s.setOvf core region) := by
  unfold State.setOvf
  have hq := State.HomeKept.queueCtl s core region
  dsimp only
  split <;> rename_i h <;> rw [h] at hq
  · next q s1 =>
    split
    · next r _ _ =>
      have hread := hq.trans (.homeReadBytes s1 ((s.region? region).elim 0 (·.part)) (r.pa + 32) 8)
      split
      · exact hread
      · exact hread.trans (.writeDword _ _ _ _ _)
    · exact hq
  · exact hq

theorem State.HomeKept.ringSlots (s : State) (core region qbase n prod k : Nat) : s.HomeKept (s.ringSlots core region qbase n prod k).2 := by
  induction k with
  | zero => exact .refl s
  | succ k ih =>
    rw [State.ringSlots]
    split <;> rename_i h <;> rw [h] at ih
    · exact ih
    · next l s1 =>
      have hrun := State.HomeKept.devRuns s1 core region (BitVec.ofNat 64 (qbase + 64 * ((prod + k) % n))) 64 .store false
      split <;> rename_i h' <;> rw [h'] at hrun
      · exact ih.trans hrun
      · exact ih.trans hrun

theorem State.HomeKept.placeRec (s : State) (x : PendingRec) (core : Nat) : s.HomeKept (s.placeRec x core).2 := by
  unfold State.placeRec
  have hq := State.HomeKept.queueCtl s core x.region
  dsimp only
  split <;> rename_i h <;> rw [h] at hq
  · exact hq.trans (.loseRec _ _ _)
  · next q s1 =>
    split
    · exact hq
    · have hring := State.HomeKept.ringSlots s1 core x.region q.qbase q.n q.prod (1 + (contRecs x.cont x.cont.length).length)
      split <;> rename_i h' <;> rw [h'] at hring
      · exact (hq.trans hring).trans (.loseRec _ _ _)
      · refine (hq.trans hring).trans ?_
        refine .trans ?_ (.modRegion _ _ _ fun _ => rfl)
        refine .trans ?_ (.modFline _ _ _ _ _)
        refine .trans ?_ (.foldl _ _ (fun s e _ => .writeRuns s _ _ _ none) _)
        exact .writeDword _ _ _ _ _

/-- A record that finds its ring full waits, with OVF set; any other leaves what its placing left. -/
theorem State.HomeKept.waitRec (s : State) (core region p : Nat) (f : Part → Part) (h : ∀ q, (f q).lasting = q.lasting) :
    s.HomeKept (((s.setOvf core region).modPart p f).later1 (.queuedFaultRecordWrite ⟨region⟩)) :=
  ((State.HomeKept.setOvf s core region).trans (.modPart _ p f h)).trans (.later1 _ _)

/-- A record that repeats no earlier one is placed, or waits behind those that wait. -/
def State.freshRec (s : State) (core p : Nat) (x : PendingRec) : RecRes × State :=
  let (res, s) := if ((s.part? p).elim [] (·.pending)).any fun y => y.region = x.region then (RecRes.waits, s) else s.placeRec x core
  let s := match res with
    | .waits => ((s.setOvf core x.region).modPart p fun q => { q with pending := q.pending ++ [x] }).later1 (.queuedFaultRecordWrite ⟨x.region⟩)
    | _ => s
  match x.key, res with
  | some k, res =>
    let k' : MergeKey := match res with
      | .seq i => { k with idx := some i }
      | .lost => { k with lost := true }
      | .waits => k
    (res, s.modPart p fun q =>
      { q with merge := q.keepMerge ((q.merge.filter fun y => !sameKey k y) ++ [k']) k' })
  | none, res => (res, s)

theorem State.HomeKept.freshRec (s : State) (core p : Nat) (x : PendingRec) : s.HomeKept (s.freshRec core p x).2 := by
  have hplace : s.HomeKept (if ((s.part? p).elim [] (·.pending)).any fun y => y.region = x.region then (RecRes.waits,
    s) else s.placeRec x core).2 := by
    split
    · exact .refl s
    · exact .placeRec s x core
  unfold State.freshRec
  split
  next res s1 h =>
    rw [h] at hplace
    have hwait : s.HomeKept (match (generalizing := false) res with
        | .waits => ((s1.setOvf core x.region).modPart p fun q => { q with pending := q.pending ++ [x] }).later1 (.queuedFaultRecordWrite ⟨x.region⟩)
        | _ => s1) := by
      cases res with
      | waits => exact hplace.trans (.waitRec _ _ _ _ _ fun _ => rfl)
      | seq i => exact hplace
      | lost => exact hplace
    dsimp only
    split
    · exact hwait.trans (.modPart _ _ _ fun _ => rfl)
    · exact hwait

theorem State.HomeKept.appendRec (s : State) (core region : Nat) (fields : List (Nat × Nat × Nat)) (cont : List Nat) (key : Option MergeKey)
    (w : Option (Nat × Nat)) : s.HomeKept (s.appendRec core region fields cont key w).2 := by
  unfold State.appendRec
  split
  · exact .refl s
  · next r _ =>
    have hfresh := State.HomeKept.freshRec s core r.part ⟨region, fields, cont, key, 1, w.toList⟩
    dsimp only
    split
    · exact hfresh
    · next k _ =>
      split
      · split
        · exact .loseRec s _ _
        · exact .modPart s _ _ fun _ => rfl
      · next i _ =>
        have hq := State.HomeKept.queueCtl s core region
        split <;> rename_i h <;> rw [h] at hq
        · exact hfresh
        · next q s1 =>
          split
          · exact hfresh
          · have hrun := State.HomeKept.devRuns s1 core region (BitVec.ofNat 64 (q.qbase + 64 * (i % q.n))) 64 .store false
            split <;> rename_i h' <;> rw [h'] at hrun
            · next x _ s2 =>
              exact ((hq.trans hrun).trans (.homeReadBytes s2 r.part (x.pa + 4) 4)).trans (.homeWriteBytes _ _ _ _ _)
            · exact (hq.trans hrun).trans (.loseRec _ _ _)

/-! ### Writes of the host, and reports of errors -/

theorem State.HomeKept.hostWrite (s : State) (a : Nat) (bs : List Byte) : s.HomeKept (s.hostWrite a bs) :=
  (State.HomeKept.foldl _ s.hostParts (fun s p _ => .homeWriteBytes s p _ bs none) s).trans (.memPut _ _ _)

theorem State.HomeKept.hostRead (s : State) (a n : Nat) : s.HomeKept (s.hostRead a n).2 :=
  .foldl _ s.hostParts (fun s p _ => .homeReadBytes s p _ n) s

theorem State.HomeKept.setRas {s s1 : State} (h : s.HomeKept s1) (r : Ras) (hr : r.lasting = s.ras.lasting) : s.HomeKept { s1 with ras := r } :=
  h.trans (.of_lasting (congrArg (fun x => { s1.lasting with ras := x }) (hr.trans (congrArg State.ras h.rest).symm)) rfl rfl rfl id)

theorem State.HomeKept.physReport (s : State) (p : Option Nat) (e : ErrEvent) : s.HomeKept (s.physReport p e) := by
  unfold State.physReport
  dsimp only
  have hword := State.HomeKept.freeWord s
  split
  · exact hword
  · split
    · refine .trans ?_ (.hostWrite _ _ _)
      exact hword.trans (.hostRead _ _ _)
    · split
      · exact hword
      · refine .setRas ?_ _ rfl
        exact hword.trans (.hostWrite _ _ _)

theorem State.HomeKept.virtReport (s : State) (p : Nat) (e : ErrEvent) : s.HomeKept (s.virtReport p e) := by
  unfold State.virtReport
  split
  · next q g _ _ =>
    have hread := State.HomeKept.homeReadBytes s p (errCtlPa q) 40
    extract_lets a
    split
    next bs s1 h =>
    rw [h] at hread
    extract_lets w qbase lg prod cons slot
    split
    · exact hread
    · split
      · next k _ =>
        have hdev := State.HomeKept.devRead s1 e.core g (slot k.idx + 4) 4
        split <;> rename_i h' <;> rw [h'] at hdev
        · exact (hread.trans hdev).trans (.devWrite _ _ _ _ _ _)
        · exact hread.trans hdev
      · split
        · exact hread.trans (.homeWriteBytes _ _ _ _ _)
        · next s2 s3 _ _ _ _ =>
          have hprod : s.HomeKept s2 := hread.trans (.homeWriteBytes _ _ _ _ _)
          have hrec : s.HomeKept s3 := hprod.trans (.devWrite _ _ _ _ _ _)
          exact hrec.trans (.modPart _ _ _ fun _ => rfl)
  · exact .modPart _ _ _ fun _ => rfl
  · exact .refl s

theorem State.HomeKept.report (s : State) (p : Option Nat) (e : ErrEvent) : s.HomeKept (s.report p e) := by
  unfold State.report
  have hphys := State.HomeKept.physReport s p e
  have hevents : ∀ s : State, s.HomeKept (s.modCluster (clusterOf e.core) fun k => { k with events := k.events + 1 }) :=
    fun s => .modCluster s _ _ (fun _ => rfl) fun _ => .inl rfl
  cases p with
  | none => exact hphys.trans (.ite (hevents _) (.refl _))
  | some p => exact (hphys.trans (.virtReport _ p e)).trans (.ite (hevents _) (.refl _))

theorem State.HomeKept.confined (s : State) (c pa : Nat) : s.HomeKept (s.confined c pa) := .physReport s none _

/-! ### What follows for the state's parts -/

theorem State.HomeKept.part? {s s' : State} (h : s.HomeKept s') (p : Nat) : (s'.part? p).map Part.lasting = (s.part? p).map Part.lasting := by
  rw [State.part?, State.part?, ← alook_map, ← alook_map]
  exact congrArg (alook p ·.parts) h.rest

theorem State.HomeKept.region? {s s' : State} (h : s.HomeKept s') (r : Nat) : (s'.region? r).map Region.lasting = (s.region? r).map Region.lasting := by
  rw [State.region?, State.region?, ← alook_map, ← alook_map]
  exact congrArg (alook r ·.regions) h.rest

theorem State.HomeKept.gt {s s' : State} (h : s.HomeKept s') : s'.gt = s.gt := (congrArg State.gt h.rest :)

theorem State.HomeKept.fns {s s' : State} (h : s.HomeKept s') : s'.fns = s.fns := (congrArg State.fns h.rest :)

theorem State.HomeKept.cur {s s' : State} (h : s.HomeKept s') : s'.cur = s.cur := (congrArg State.cur h.rest :)

theorem State.HomeKept.ports {s s' : State} (h : s.HomeKept s') : s'.ports = s.ports := (congrArg State.ports h.rest :)

theorem State.HomeKept.sp {s s' : State} (h : s.HomeKept s') (c : Nat) : (s'.core c).sp = (s.core c).sp := (congrArg Core.sp (h.cores c) :)

theorem head?_filter_alook {κ α : Type} [DecidableEq κ] (k : κ) (l : List (κ × α)) : ((l.filter fun e => e.1 = k).head?).map (·.2) = alook k l := by
  rw [List.head?_filter]
  induction l with
  | nil => rfl
  | cons e l ih => by_cases he : e.1 = k <;> simp [alook, he, ih]

theorem State.head?_entriesAt (s : State) (c k : Nat) : (s.entriesAt (c, k)).head? = (s.thread? c k).map Thread.lasting := by
  rw [State.entriesAt, List.head?_map, State.thread?, ← head?_filter_alook, Option.map_map]
  rfl

/-- A slot's thread keeps all but its walks, or is gone with its consignment. -/
theorem State.HomeKept.thread? {s s' : State} (h : s.HomeKept s') (c k : Nat) :
    (s'.thread? c k).map Thread.lasting = (s.thread? c k).map Thread.lasting ∨ s'.thread? c k = none := by
  rcases h.threads (c, k) with he | ⟨he, -⟩
  · exact .inl (by rw [← State.head?_entriesAt, ← State.head?_entriesAt, he])
  · have hn : (s'.thread? c k).map Thread.lasting = none := by rw [← State.head?_entriesAt, he]; rfl
    exact .inr (Option.map_eq_none_iff.1 hn)

theorem State.HomeKept.thread?_none {s s' : State} (h : s.HomeKept s') {c k : Nat} (hn : s.thread? c k = none) : s'.thread? c k = none := by
  rcases h.thread? c k with he | he
  · exact Option.map_eq_none_iff.1 (he.trans (by rw [hn]; rfl))
  · exact he

theorem State.HomeKept.canonical {s s' : State} (h : s.HomeKept s') (hc : Canonical s) : Canonical s' :=
  ⟨h.mem hc.1, fun c => by rw [h.sp]; exact hc.2 c⟩

/-! ### What the end of an operation leaves unchanged -/

/-- The state but its threads, its agenda, the threads that have spilled and the numbers of their slots. -/
structure State.OpKept (s s' : State) : Prop where
  rest : { s' with threads := [], agenda := [], parts := [], cores := [] } = { s with threads := [], agenda := [], parts := [], cores := [] }
  parts : ∀ p, (s'.part? p).map (fun q => { q with spilled := [] }) = (s.part? p).map fun q => { q with spilled := [] }
  cores : ∀ c, { s'.core c with spilledMap := [] } = { s.core c with spilledMap := [] }

theorem State.OpKept.refl (s : State) : s.OpKept s := ⟨rfl, fun _ => rfl, fun _ => rfl⟩

theorem State.OpKept.trans {s s1 s2 : State} (h : s.OpKept s1) (h' : s1.OpKept s2) : s.OpKept s2 :=
  ⟨h'.rest.trans h.rest, fun p => (h'.parts p).trans (h.parts p), fun c => (h'.cores c).trans (h.cores c)⟩

theorem State.OpKept.ite {s s1 s2 : State} {p : Prop} [Decidable p] (h1 : s.OpKept s1) (h2 : s.OpKept s2) : s.OpKept (if p then s1 else s2) := by
  split
  · exact h1
  · exact h2

theorem State.OpKept.push (s : State) (es : List Event) : s.OpKept (s.push es) := ⟨rfl, fun _ => rfl, fun _ => rfl⟩

theorem State.OpKept.setThread (s : State) (c k : Nat) (t : Thread) : s.OpKept (s.setThread c k t) := ⟨rfl, fun _ => rfl, fun _ => rfl⟩

theorem State.OpKept.delThread (s : State) (c k : Nat) : s.OpKept (s.delThread c k) := ⟨rfl, fun _ => rfl, fun _ => rfl⟩

theorem State.OpKept.setSpilled (s : State) (p : Nat) (f : List ((Nat × Nat × Nat) × Thread) → List ((Nat × Nat × Nat) × Thread)) :
    s.OpKept (s.modPart p fun q => { q with spilled := f q.spilled }) := by
  refine ⟨?_, fun p' => ?_, fun c => ?_⟩
  · unfold State.modPart
    split <;> rfl
  · rw [part?_modPart]
    split
    · next h => subst h; cases s.part? p <;> rfl
    · rfl
  · unfold State.modPart
    split <;> rfl

theorem State.OpKept.setSpilledMap (s : State) (c : Nat) (f : Core → List (Nat × BitVec 64)) :
    s.OpKept (s.modCore c fun y => { y with spilledMap := f y }) := by
  refine ⟨rfl, fun _ => rfl, fun c' => ?_⟩
  rw [State.modCore, State.core_setCore]
  split
  · next h => rw [h]
  · rfl

theorem State.OpKept.tryFree (s : State) (c k : Nat) : s.OpKept (s.tryFree c k) := by
  unfold State.tryFree
  split
  · split
    · exact .refl s
    · split
      · exact .delThread s c k
      · exact .delThread s c k
      · exact .ite (.refl s) (.push s _)
      · exact .refl s
  · exact .refl s

theorem State.OpKept.unfar (s : State) (r : OpRef) : s.OpKept (s.unfar r) := by
  unfold State.unfar
  generalize s.threads = l
  induction l generalizing s with
  | nil => exact .refl s
  | cons e l ih =>
    refine .trans ?_ (ih _)
    exact .ite ((State.OpKept.setThread s _ _ _).trans (.push _ _)) (.refl s)

theorem State.OpKept.finishHere (s : State) (c k id : Nat) : s.OpKept (s.finishHere c k id) := by
  unfold State.finishHere
  split
  · exact .refl s
  · refine .ite (.setThread s c k _) ?_
    refine .trans ?_ (.tryFree _ c k)
    refine .trans ?_ (.unfar _ _)
    exact (State.OpKept.setThread s c k _).trans (.push _ _)

theorem State.OpKept.inSpilled (s : State) (p : Nat) (key : Nat × Nat × Nat) (t : Thread) (f : Nat → Nat → State → State)
    (hf : ∀ c k (s : State), s.OpKept (f c k s)) : s.OpKept (s.inSpilled p key t f) := by
  have hin : s.OpKept (f key.1 key.2.1 ((s.modPart p fun q => { q with spilled := adel key q.spilled }).setThread key.1 key.2.1 t)) := by
    refine .trans ?_ (hf _ _ _)
    exact (State.OpKept.setSpilled s p (adel key)).trans (.setThread _ _ _ _)
  have hout : ∀ (s : State) (x : Option Thread), s.OpKept (match x with
      | some x => s.setThread key.1 key.2.1 x
      | none => s.delThread key.1 key.2.1) := fun s x => by
    cases x with
    | some x => exact .setThread s _ _ _
    | none => exact .delThread s _ _
  unfold State.inSpilled
  refine .trans ?_ (hout _ _)
  split
  · exact hin.trans (.setSpilled _ p _)
  · exact hin.trans (.setSpilledMap _ _ _)

theorem State.OpKept.withOp (s : State) (r : OpRef) (f : Nat → Nat → State → State) (hf : ∀ c k (s : State),
  s.OpKept (f c k s)) : s.OpKept (s.withOp r f) := by
  unfold State.withOp
  refine .ite (hf _ _ s) ?_
  split
  · exact hf _ _ s
  · split
    · exact .inSpilled s _ _ _ f hf
    · exact .refl s

theorem State.OpKept.finishOp (s : State) (c k id : Nat) : s.OpKept (s.finishOp c k id) := .withOp s _ _ fun c k s => .finishHere s c k id

theorem State.OpKept.mem {s s' : State} (h : s.OpKept s') : s'.mem = s.mem := (congrArg State.mem h.rest :)

theorem State.OpKept.regions {s s' : State} (h : s.OpKept s') : s'.regions = s.regions := (congrArg State.regions h.rest :)

theorem State.OpKept.clusters {s s' : State} (h : s.OpKept s') : s'.clusters = s.clusters := (congrArg State.clusters h.rest :)

theorem State.OpKept.fns {s s' : State} (h : s.OpKept s') : s'.fns = s.fns := (congrArg State.fns h.rest :)

theorem State.OpKept.sp {s s' : State} (h : s.OpKept s') (c : Nat) : (s'.core c).sp = (s.core c).sp := (congrArg Core.sp (h.cores c) :)

theorem State.OpKept.ladings {s s' : State} (h : s.OpKept s') (p : Nat) : (s'.part? p).map Part.ladings = (s.part? p).map Part.ladings := by
  have hp := congrArg (Option.map Part.ladings) (h.parts p)
  rwa [Option.map_map, Option.map_map] at hp

end Sys2Proof.Machine
end

/-! ## Proofs: consignments -/
section
namespace Sys2Proof.Machine
open Sys2Proof.Claims

/-! ### Clearing begins -/

theorem modThread_of_thread {s : State} {c k : Nat} {t : Thread} (h : s.thread? c k = some t) (f : Thread → Thread) :
    s.modThread c k f = s.setThread c k (f t) := by
  rw [State.modThread, h]

/-- The thread of a slot with its consignment in another phase. -/
def Thread.inPhase (t : Thread) (y : Consign) (ph : ConsPhase) : Thread := { t with cons := some { y with phase := ph } }

theorem modCons_phase {s : State} {c k : Nat} {t : Thread} {y : Consign} (h : Holds s c k t y) (ph : ConsPhase) :
    s.modCons c k (fun z => { z with phase := ph }) = s.setThread c k (t.inPhase y ph) := by
  obtain ⟨ht, hy⟩ := h
  rw [State.modCons, modThread_of_thread ht, hy]
  rfl

theorem beginClear_of_holds {s : State} {c k : Nat} {t : Thread} {y : Consign} (h : Holds s c k t y) :
    s.beginClear c k = (s.setThread c k (t.inPhase y (.clearing 0))).push [if y.sects.isEmpty then .commit ⟨c, k⟩ else .prep ⟨c, k, 0⟩] := by
  rw [State.beginClear, modCons_phase h, State.thread?_setThread_self]
  rfl

/-- What the beginning of a clearing leaves. -/
theorem beginClear_spec {s : State} {c k : Nat} {t : Thread} {y : Consign} (h : Holds s c k t y) :
    (s.beginClear c k).thread? c k = some { t with cons := some { y with phase := .clearing 0 } } ∧ (s.beginClear c k).mem = s.mem ∧
      (s.beginClear c k).agenda = s.agenda ++ [if y.sects.isEmpty then .commit ⟨c, k⟩ else .prep ⟨c, k, 0⟩] := by
  rw [beginClear_of_holds h]
  exact ⟨State.thread?_setThread_self s c k _, rfl, rfl⟩

theorem execClearing_of_holds {s : State} {c k : Nat} {t : Thread} {y : Consign} (h : Holds s c k t y) (hm2 : ¬y.mode = 2) :
    execClearing ⟨c, k⟩ s =
      if (y.phase == .ended && t.ops.isEmpty) || (y.takes && y.overflow) then
        if y.mode = 1 ∨ (s.region? t.region).elim false (fun r => r.clearq.head? = some (c, k)) = true then .next (s.beginClear c k) else .next s
      else .next s := by
  obtain ⟨ht, hy⟩ := h
  rw [execClearing, ht]
  dsimp only
  rw [hy]
  dsimp only
  rw [if_neg hm2]
  by_cases hr : ((y.phase == .ended && t.ops.isEmpty) || (y.takes && y.overflow)) = true
  · rw [hr, if_neg (by decide), if_pos rfl]
    by_cases h1 : y.mode = 1
    · rw [if_pos h1, if_pos (.inl h1)]
    · rw [if_neg h1]
      exact if_congr (by rw [or_iff_right h1]) rfl rfl
  · rw [if_neg hr, if_pos (by rw [Bool.not_eq_true] at hr; rw [hr]; rfl)]

/-! ### The commit of a unit of one entry -/

theorem sendMsg_mem (s : State) (c : Nat) (m : Msg) (src : Option OpRef) (mark : MsgMark) : (s.sendMsg c m src mark).mem = s.mem := by
  rw [State.sendMsg, State.push_mem]
  split
  · exact State.modRegion_mem ..
  · rfl

theorem sendWakes_mem (s : State) (p line : Nat) (mask : BitVec 4) : (s.sendWakes p line mask).mem = s.mem := by
  rw [State.sendWakes]
  refine foldl_keeps State.mem _ _ (fun s w _ => ?_) s
  dsimp only
  split
  · rfl
  · split
    · rfl
    · split
      · exact sendMsg_mem ..
      · rfl

theorem markStale_mem (s : State) (k : Nat) (h : BitVec 32) : (s.markStale k h).mem = s.mem := by
  rw [State.markStale]
  split <;> rfl

theorem markSector_mem (s : State) (p sec : Nat) : (s.markSector p sec).mem = s.mem :=
  foldl_keeps State.mem _ _ (fun s x _ => markStale_mem s x.eng x.target) s

theorem homeStore_mem (s : State) (p sec : Nat) (data : V512) (mask : BitVec 64) :
    (s.homeStore p sec none data mask).mem = memMerge s.mem (64 * sec) data mask := by
  rw [State.homeStore, State.linkWrite_mem, sendWakes_mem]
  exact congrArg (memMerge · (64 * sec) data mask) ((modEntry_mem ..).trans (markSector_mem s p sec))

/-- What the parts of a release that touch the core, the partition and the region leave. -/
structure State.SlotsKept (s s' : State) : Prop where
  threads : s'.threads = s.threads
  mem : s'.mem = s.mem

theorem State.SlotsKept.refl (s : State) : s.SlotsKept s := ⟨rfl, rfl⟩

theorem State.SlotsKept.trans {s s1 s2 : State} (h : s.SlotsKept s1) (h' : s1.SlotsKept s2) : s.SlotsKept s2 :=
  ⟨h'.threads.trans h.threads, h'.mem.trans h.mem⟩

theorem State.SlotsKept.modPart (s : State) (p : Nat) (f : Part → Part) : s.SlotsKept (s.modPart p f) := ⟨modPart_threads .., modPart_mem ..⟩

theorem State.SlotsKept.modRegion (s : State) (r : Nat) (f : Region → Region) : s.SlotsKept (s.modRegion r f) :=
  ⟨modRegion_threads .., modRegion_mem ..⟩

theorem State.SlotsKept.freeEntry (s : State) (c : Nat) (t : Thread) (keep : Option InMsg) : s.SlotsKept (s.freeEntry c t keep) := by
  unfold State.freeEntry
  split
  · exact ⟨rfl, rfl⟩
  · exact .refl s

theorem State.SlotsKept.dropReaders (s : State) (c : Nat) (t : Thread) : s.SlotsKept (s.dropReaders c t) := by
  unfold State.dropReaders
  refine .trans ?_ (.modPart _ _ _)
  exact ⟨rfl, rfl⟩

theorem State.SlotsKept.leaveQueue (s : State) (region c k : Nat) (again : Bool) : s.SlotsKept (s.leaveQueue region c k again) := by
  unfold State.leaveQueue
  split
  · exact .refl s
  · split
    · exact .refl s
    · dsimp only
      split
      · exact (State.SlotsKept.modRegion s region _).trans ⟨rfl, rfl⟩
      · exact .modRegion s region _

theorem State.SlotsKept.thread? {s s' : State} (h : s.SlotsKept s') (c k : Nat) : s'.thread? c k = s.thread? c k := by
  rw [State.thread?, State.thread?, h.threads]

theorem State.thread?_delThread_self (s : State) (c k : Nat) : (s.delThread c k).thread? c k = none := by
  rw [State.thread?_delThread, if_pos rfl]

/-- The slot is empty, or holds a thread that has ended with all its operations and with a consignment. -/
def EndedSlot (s : State) (c k : Nat) : Prop := ∀ t, s.thread? c k = some t → t.ending = true ∧ t.ops = [] ∧ t.cons.isSome

theorem State.SlotsKept.ended {s s' : State} (h : s.SlotsKept s') {c k : Nat} (he : EndedSlot s c k) : EndedSlot s' c k :=
  fun t ht => he t (h.thread? c k ▸ ht)

theorem tryFree_mem (s : State) (c k : Nat) : (s.tryFree c k).mem = s.mem := (State.OpKept.tryFree s c k).mem

/-- A released consignment's slot is freed. -/
theorem tryFree_released {s s' : State} {c k : Nat} (h : EndedSlot s c k)
    (hk : (s.modCons c k fun y => { y with sects := [], msgs := [], phase := .released }).SlotsKept s') :
    (s'.tryFree c k).thread? c k = none ∧ (s'.tryFree c k).mem = s.mem := by
  refine ⟨?_, (tryFree_mem s' c k).trans (hk.mem.trans (State.modThread_mem ..))⟩
  have ht' := hk.thread? c k
  cases ht : s.thread? c k with
  | none =>
    rw [State.modCons, State.modThread, ht] at ht'
    dsimp only at ht'
    rw [State.tryFree, ht', ht]
    exact ht'.trans ht
  | some t =>
    obtain ⟨hend, hops, hcons⟩ := h t ht
    obtain ⟨y, hy⟩ := Option.isSome_iff_exists.1 hcons
    rw [State.modCons, modThread_of_thread ht, State.thread?_setThread_self] at ht'
    rw [State.tryFree, ht']
    simp [hend, hops, hy, State.thread?_delThread_self]

theorem releaseCons_plain (s : State) (c k : Nat) (t : Thread) (y : Consign) (hm : y.mode = 1) (ho : y.overflow = false) (hms : y.msgs = [])
    (h : EndedSlot s c k) : (s.releaseCons c k t y).thread? c k = none ∧ (s.releaseCons c k t y).mem = s.mem := by
  have hone : y.mode ≠ 3 ∧ y.mode ≠ 2 := by rw [hm]; decide
  have hkept := ((State.SlotsKept.modRegion s t.region fun r => r).trans (.modPart _ _ _)).trans
    ((State.SlotsKept.freeEntry ((s.modRegion t.region fun r => r).clearTag ((s.modRegion t.region fun r => r).partOf c) y.tag) c t none).trans
      (.dropReaders _ c t))
  unfold State.releaseCons
  simp only [hone, ho, hms, if_false, Bool.false_eq_true, State.startHeld, List.foldl_nil]
  rw [← hkept.mem]
  split
  · exact tryFree_released (hkept.ended h) (.modPart _ _ _)
  · exact tryFree_released (hkept.ended h) (.modPart _ _ _)

/-! ### Activations are dropped -/

theorem dropActivation_thread?_self (s : State) (c k : Nat) (keep : Option InMsg) : (s.dropActivation c k keep).thread? c k = none := by
  unfold State.dropActivation
  split
  · assumption
  · next t _ =>
    have hread := (State.SlotsKept.freeEntry (s.delThread c k) c t keep).trans (.dropReaders _ c t)
    have hint := hread.trans (s2 := (((s.delThread c k).freeEntry c t keep).dropReaders c t).dropIntents t) ⟨rfl, rfl⟩
    have hdrop := hint.trans (.leaveQueue _ t.region c k keep.isSome)
    dsimp only
    split
    · exact ((hdrop.trans (.modRegion _ _ _)).thread? c k).trans (State.thread?_delThread_self s c k)
    · exact (hdrop.thread? c k).trans (State.thread?_delThread_self s c k)


/-- A unit of one entry in memory commits: its bytes are written, and its slot is free. -/
theorem execCommit_one {s : State} {c k : Nat} {t : Thread} {y : Consign} (h : Holds s c k t y) {e : SectEntry} {sec i : Nat} (hm : y.mode = 1)
    (hph : y.phase = .clearing i) (ho : y.overflow = false) (hms : y.msgs = []) (hs : y.sects = [e]) (hp : e.place = .mem sec) (ha : e.after = [])
    (hend : t.ending = true) (hops : t.ops = []) :
    ∃ s', exec (.commit ⟨c, k⟩) s = .next s' ∧ s'.thread? c k = none ∧
      s'.mem = memMerge s.mem (64 * sec) (mergeBits (memSector s.mem (64 * sec)) e.data e.bits) e.mask := by
  obtain ⟨ht, hy⟩ := h
  have hsort : y.sorted = [e] := by rw [Consign.sorted, hs]; exact List.mergeSort_singleton _
  have hfree : s.HomeKept (s.unprep c k e) := by
    rw [State.unprep, hp]
    exact .modEntry s _ _ _
  have hmem : (s.unprep c k e).mem = s.mem := by
    rw [State.unprep, hp]
    exact modEntry_mem ..
  have hcommit : (s.unprep c k e).commitEntry c t e =
      (s.unprep c k e).homeStore ((s.unprep c k e).partOf c) sec none (mergeBits (memSector s.mem (64 * sec)) e.data e.bits) e.mask := by
    have happly : ∀ old, e.applyTo old = mergeBits old e.data e.bits := fun old => by rw [SectEntry.applyTo, ha]; rfl
    simp only [State.commitEntry, hp, happly, hmem]
  have hkept := hfree.trans (.homeStore (s.unprep c k e) ((s.unprep c k e).partOf c) sec none (mergeBits (memSector s.mem (64 * sec)) e.data e.bits) e.mask)
  rw [← hcommit] at hkept
  have hended : EndedSlot ((s.unprep c k e).commitEntry c t e) c k := by
    intro t' ht'
    rcases hkept.thread? c k with hsame | hnone
    · rw [ht', ht] at hsame
      have hl : t'.lasting = t.lasting := Option.some.inj hsame
      refine ⟨(congrArg Thread.ending hl :).trans hend, ?_, Option.isSome_iff_exists.2 ⟨y, (congrArg Thread.cons hl :).trans hy⟩⟩
      exact List.map_eq_nil_iff.1 ((congrArg Thread.ops hl :).trans (by rw [Thread.lasting, hops]; rfl))
    · rw [ht'] at hnone
      cases hnone
  obtain ⟨hn, hmem'⟩ := releaseCons_plain _ c k t y hm ho hms hended
  refine ⟨_, ?_, hn, hmem'.trans ?_⟩
  · refine (rfl : _ = execCommit ⟨c, k⟩ s).trans ?_
    simp only [execCommit, ht, hy, hph, hsort]
    rfl
  · rw [hcommit, homeStore_mem, hmem]

theorem dropActivation_thread?_none {s : State} {c k : Nat} (h : s.thread? c k = none) (c' k' : Nat) (keep : Option InMsg) :
    (s.dropActivation c' k' keep).thread? c k = none := by
  unfold State.dropActivation
  split
  · exact h
  · next t _ =>
    have hdel : (s.delThread c' k').thread? c k = none := by
      rw [State.thread?_delThread, h, ite_self]
    have hread := (State.SlotsKept.freeEntry (s.delThread c' k') c' t keep).trans (.dropReaders _ c' t)
    have hint := hread.trans (s2 := (((s.delThread c' k').freeEntry c' t keep).dropReaders c' t).dropIntents t) ⟨rfl, rfl⟩
    have hdrop := hint.trans (.leaveQueue _ t.region c' k' keep.isSome)
    dsimp only
    split
    · exact ((hdrop.trans (.modRegion _ _ _)).thread? c k).trans hdel
    · exact (hdrop.thread? c k).trans hdel

theorem dropBoth_thread? (s : State) (c k : Nat) (x : Consign) (keep : Option InMsg) : (s.dropBoth c k x keep).thread? c k = none := by
  unfold State.dropBoth
  dsimp only
  have hmine : ∀ (s : State) (mine : Option InMsg) (p : Nat), ((s.dropActivation c k mine).killTag p x.tag).thread? c k = none := fun s mine p =>
    (State.HomeKept.killTag _ p x.tag).thread?_none (dropActivation_thread?_self s c k mine)
  split
  · exact dropActivation_thread?_none (hmine _ _ _) _ _ _
  · exact hmine _ _ _

theorem lostMsg_thread? {s : State} {c k : Nat} (h : s.thread? c k = none) (t : Thread) (cause : BitVec 8) (i : InMsg) :
    (s.lostMsg c t cause i).thread? c k = none :=
  (State.HomeKept.appendRec _ _ _ _ _ _ _).thread?_none (((State.SlotsKept.modRegion s _ _).thread? c k).trans h)

theorem dropCons_thread? {s : State} {c k : Nat} (h : ∀ t, s.thread? c k = some t → t.cons.isSome) (count : Bool) :
    (s.dropCons c k count).thread? c k = none := by
  unfold State.dropCons
  split
  · assumption
  · next t ht =>
    split
    · next hn =>
      have hc := h t ht
      rw [hn] at hc
      cases hc
    · next x _ =>
      dsimp only
      split
      · exact lostMsg_thread? (dropBoth_thread? s c k x none) _ _ _
      · split
        · exact lostMsg_thread? (dropBoth_thread? s c k x none) _ _ _
        · exact dropBoth_thread? s c k x _

theorem consignmentsClear : ConsignmentsClear := by
  intro s c k t y h
  obtain ⟨ht, hy⟩ := h
  refine ⟨fun hm hph hops => ?_, fun r hm hr hq => ?_, fun r hm hph hops hr hq => ?_, fun i e s1 hph he hbad hprep => ?_, fun i e hph he hbad => ?_,
    fun e sec i hm hph ho hms hs hp ha hend hops => execCommit_one ⟨ht, hy⟩ hm hph ho hms hs hp ha hend hops⟩
  · refine ⟨s.beginClear c k, ?_, (beginClear_spec ⟨ht, hy⟩).1, (beginClear_spec ⟨ht, hy⟩).2.2⟩
    refine (execClearing_of_holds ⟨ht, hy⟩ (by rw [hm]; decide)).trans ?_
    exact (if_pos (by rw [hph, hops]; rfl)).trans (if_pos (.inl hm))
  · refine (execClearing_of_holds ⟨ht, hy⟩ (by rw [hm]; decide)).trans ?_
    have hno : ¬(y.mode = 1 ∨ (s.region? t.region).elim false (fun r => r.clearq.head? = some (c, k)) = true) := by
      rw [hr, hm]
      simpa using hq
    rw [if_neg hno, ite_self]
  · refine ⟨s.beginClear c k, ?_, (beginClear_spec ⟨ht, hy⟩).1, (beginClear_spec ⟨ht, hy⟩).2.1⟩
    refine (execClearing_of_holds ⟨ht, hy⟩ (by rw [hm]; decide)).trans ?_
    exact (if_pos (by rw [hph, hops]; rfl)).trans (if_pos (.inr (by rw [hr]; exact decide_eq_true hq)))
  · refine (rfl : _ = execPrep ⟨c, k, i⟩ s).trans ?_
    simp only [execPrep, ht, hy, he, hph, hbad, hprep, bne_self_eq_false, Bool.false_eq_true, if_false]
  · refine (rfl : _ = execPrep ⟨c, k, i⟩ s).trans ?_
    simp only [execPrep, ht, hy, he, hph, hbad, bne_self_eq_false, Bool.false_eq_true, if_false, if_true]

/-- A report leaves a consignment in its slot, or takes the thread away. -/
theorem State.HomeKept.holds {s s' : State} (hk : s.HomeKept s') {c k : Nat} {t : Thread} {y : Consign} (h : Holds s c k t y) :
    ∀ t', s'.thread? c k = some t' → t'.cons = some y := by
  intro t' ht'
  rcases hk.thread? c k with hsame | hnone
  · rw [ht', h.1] at hsame
    exact (congrArg Thread.cons (Option.some.inj hsame) :).trans h.2
  · rw [ht'] at hnone
    cases hnone

theorem execConsignmentDrop_of_holds {s : State} {c k : Nat} {t : Thread} {y : Consign} (h : Holds s c k t y) (va : Option Word) (b : Bad)
    (hd : y.demote = false) : ∃ s', exec (.consignmentDrop ⟨c, k, va, b⟩) s = .next s' ∧ s'.thread? c k = none := by
  have hk := State.HomeKept.report s (some (s.partOf c)) ⟨2, b.kind, some b.sec, va, (s.thread? c k).elim 0 (·.tid), c,
    (s.thread? c k).map (·.region)⟩
  refine ⟨_, ?_, dropCons_thread? (fun t' ht' => by rw [hk.holds h t' ht']; rfl) true⟩
  refine (rfl : _ = execConsignmentDrop ⟨c, k, va, b⟩ s).trans ?_
  have hb : (s.thread? c k).bind (·.cons) = some y := by rw [h.1]; exact h.2
  simp only [execConsignmentDrop, hb, hd]
  rfl

/-- The one reader of a sector that a write intent with an earlier key names is aborted. -/
theorem execWriteIntent_one {s : State} {g d sec c k : Nat} {key : Key} {rd : Reader} {t : Thread} {y : Consign} (h : Holds s c k t y)
    (ha : y.abortable = true) (hrs : (s.core d).readers = [rd]) (hname : rd.name = sec / 4) (hbit : rd.smask.getLsbD (sec % 4) = true)
    (hr : rd.region = g) (hkey : keyLt key rd.key = true) (hf : s.findOrdered g rd.key.tid = some (c, k)) :
    ∃ s', exec (.writeIntent ⟨g, .loc d sec, key⟩) s = .next s' ∧ s'.thread? c k = none := by
  have hhit : hitReaders ((s.core d).readers.filter fun r => r.region = g) (sec / 4) (sec % 4) (some (g, key)) = [rd] := by
    simp [hitReaders, hrs, hname, hbit, hr, hkey]
  have hb : (s.thread? c k).bind (·.cons) = some y := by rw [h.1]; exact h.2
  refine ⟨s.abortReaders [rd], (rfl : _ = execWriteIntent ⟨g, .loc d sec,
    key⟩ s).trans (congrArg (fun l => (.next (s.abortReaders l) : Out)) hhit), ?_⟩
  rw [State.abortReaders, List.foldl_cons, List.foldl_nil, hr, hf]
  dsimp only
  rw [State.abortOrdered, hb]
  simp only [ha]
  exact (State.HomeKept.killTag _ _ _).thread?_none (dropActivation_thread?_self s c k _)

theorem consignmentsDrop : ConsignmentsDrop := by
  refine ⟨fun s c k t y h => ⟨fun va b hd => execConsignmentDrop_of_holds h va b hd, fun r hr ho htk hm => ?_, fun r hr ho => ?_,
    fun r hh hr hhash => ⟨?_, ?_⟩⟩,
    fun s g d sec c k key rd t y h ha hrs hname hbit hr hkey hf => execWriteIntent_one h ha hrs hname hbit hr hkey hf⟩
  · refine ⟨s.beginClear c k, ?_, (beginClear_spec h).1, (beginClear_spec h).2.2⟩
    refine (rfl : _ = execConsignmentOverflow ⟨c, k⟩ s).trans ?_
    simp only [execConsignmentOverflow, h.1, h.2, hr, ho, htk, hm]
    rfl
  · refine (rfl : _ = execConsignmentOverflow ⟨c, k⟩ s).trans ?_
    simp only [execConsignmentOverflow, h.1, h.2, hr]
    rcases ho with ho | ho
    · simp [ho]
    · simp [ho]
  · refine (rfl : _ = execHashArrival ⟨c, k, hh⟩ s).trans ?_
    simp only [execHashArrival, h.1, h.2, hr, hhash, if_true]
  · rintro g ⟨o1, o2, o3⟩ hg ho hsec
    refine ⟨s.resend t c k y ((s.origOf r (s.pairAt r (s.baseLcn r y.trig) o2)).getD c) { y.trig.mark with second := true, pair := none }, _, ?_,
      List.getLast?_concat .., rfl, rfl⟩
    refine (rfl : _ = execHashArrival ⟨c, k, g⟩ s).trans ?_
    simp only [execHashArrival, h.1, h.2, hr, hhash, if_neg (Ne.symm hg), ho, hsec]
    rfl

/-- Settles O36: clearing by the phases of the one consignment, and every drop through the frame of the reports and records that it makes. -/
theorem consignments : Obligations.Consignments := ⟨consignmentsClear, consignmentsDrop⟩

end Sys2Proof.Machine
end

/-! ## Proofs: residencies -/
section
namespace Sys2Proof.Machine
open Sys2Proof.Claims

/-! ### The table of an engine -/

theorem cluster_modCluster (s : State) (k : Nat) (f : Cluster → Cluster) : (s.modCluster k f).cluster k = f (s.cluster k) := by
  rw [State.cluster, State.modCluster, alook_aset, if_pos rfl]
  rfl

theorem resid?_setResid (s : State) (k : Nat) (key : Bool × Nat) (r : Residency) : (s.setResid k key r).resid? k key = some r := by
  rw [State.resid?, State.setResid, cluster_modCluster, alook_aset, if_pos rfl]

theorem resid?_modSide (s : State) (k : Nat) (side : Bool) (f : Side → Side) (key : Bool × Nat) :
    (s.modSide k side f).resid? k key = s.resid? k key := by
  rw [State.resid?, State.modSide, cluster_modCluster]
  cases side <;> rfl

theorem State.OpKept.resid? {s s' : State} (h : s.OpKept s') (k : Nat) (key : Bool × Nat) : s'.resid? k key = s.resid? k key := by
  rw [State.resid?, State.resid?, State.cluster, State.cluster, h.clusters]

theorem resid?_endLoader (s : State) (r : Residency) (k : Nat) (key : Bool × Nat) : (s.endLoader r).resid? k key = s.resid? k key := by
  rw [State.endLoader]
  split
  · exact (State.OpKept.finishOp s _ _ _).resid? k key
  · rfl

theorem Residency.stale_st {r : Residency} (h : r.st = .evicted ∨ r.st = .stale) : r.stale.st = .stale := by
  rcases h with h | h <;> simp [Residency.stale, h]

theorem Residency.stale_held (r : Residency) : r.stale.held = r.held := by
  rw [Residency.stale]
  split <;> rfl

theorem State.HomeKept.elim {α : Type} {s s1 : State} (h : s.HomeKept s1) (x : Option α) (f : α → State) (hf : ∀ a, s1.HomeKept (f a)) :
    s.HomeKept (x.elim s1 f) := by
  cases x with
  | none => exact h
  | some a => exact h.trans (hf a)

/-- A table's entry is there after an access of the home, with a stale mark or as it was. -/
theorem State.HomeKept.resid?_some {s s' : State} (h : s.HomeKept s') {k : Nat} {key : Bool × Nat} {r : Residency} (hr : s.resid? k key = some r) :
    s'.resid? k key = some r ∨ s'.resid? k key = some r.stale := by
  rcases h.resids k key with he | he
  · exact .inl (he.trans hr)
  · exact .inr (by rw [he, hr]; rfl)

/-- An evicted entry keeps a stale mark, and its slots are free. -/
def Residency.evict (r : Residency) : Residency := { r with st := if r.st == .stale then .stale else .evicted, held := false, data := [] }

theorem evictRes_of_resid {s : State} {k : Nat} {key : Bool × Nat} {r : Residency} (h : s.resid? k key = some r) :
    (s.evictRes k key).resid? k key = some r.evict := by
  rw [State.evictRes, h]
  exact (resid?_modSide ..).trans (resid?_setResid ..)

/-! ### The rows of the table -/

theorem execResidencyLoadComplete_loading {s : State} {k i : Nat} {r : Residency} (hr : s.resid? k (resKey i) = some r) (hst : r.st = .loading) :
    ∃ s' r', exec (.residencyLoadComplete ⟨k, i⟩) s = .next s' ∧ s'.resid? k (resKey i) = some r' ∧
      r'.st = (if r.mark then .stale else if r.pin then .pinned else .resident) ∧ r'.mark = false ∧ r'.data = r.data ∧ r'.loader = none := by
  let r' := { r with
    st := if r.mark then .stale else if r.pin then .pinned else .resident, mark := false, loader := none
    special := if r.mark then r.special else (List.range r.tiles).any fun t => specialTile (r.tile t) }
  refine ⟨(s.setResid k (resKey i) r').endLoader r, r', ?_, (resid?_endLoader _ r k _).trans (resid?_setResid s k (resKey i) _), rfl, rfl, rfl, rfl⟩
  refine (rfl : _ = execResidencyLoadComplete ⟨k, i⟩ s).trans ?_
  simp only [execResidencyLoadComplete, hr, hst, bne_self_eq_false, Bool.false_eq_true, if_false]
  rfl

theorem execResidencyLoadFault_loading {s : State} {k i : Nat} {r : Residency} (hr : s.resid? k (resKey i) = some r) (hst : r.st = .loading)
    (cause : BitVec 8) (lv : BitVec 3) (b : Option Bad) :
    ∃ s' r', exec (.residencyLoadFault ⟨k, i, cause, lv, b⟩) s = .next s' ∧ s'.resid? k (resKey i) = some r' ∧ (r'.st = .evicted ∨ r'.st = .stale) ∧
      r'.held = false := by
  have hset := resid?_setResid s k (resKey i) { r with st := .evicted, held := false, data := [], loader := none }
  rw [show exec (.residencyLoadFault ⟨k, i, cause, lv, b⟩) s = execResidencyLoadFault ⟨k, i, cause, lv, b⟩ s from rfl]
  simp only [execResidencyLoadFault, hr, hst, bne_self_eq_false, Bool.false_eq_true, if_false]
  have hend : ∀ s1 : State, (s.setResid k (resKey i) { r with st := .evicted, held := false, data := [], loader := none }).HomeKept s1 →
      ∃ s' r', Host.Outcome.next (s1.endLoader r) = (.next s' : Out) ∧ s'.resid? k (resKey i) = some r' ∧ (r'.st = .evicted ∨ r'.st = .stale) ∧
        r'.held = false := fun s1 hk => by
    rcases hk.resid?_some hset with he | he
    · exact ⟨_, _, rfl, (resid?_endLoader s1 r k _).trans he, .inl rfl, rfl⟩
    · exact ⟨_, _, rfl, (resid?_endLoader s1 r k _).trans he, .inr rfl, rfl⟩
  exact hend _ (.elim (.appendRec _ _ _ _ _ _ _) b _ fun _ => .report _ _ _)

theorem execTileError_held {s : State} {k i : Nat} {r : Residency} (hr : s.resid? k (resKey i) = some r) (hheld : r.held = true) (hst : r.st ≠ .loading)
    (tile : Nat) : ∃ s' r', exec (.tileError ⟨k, i, tile⟩) s = .next s' ∧ s'.resid? k (resKey i) = some r' ∧ (r'.st = .evicted ∨ r'.st = .stale) ∧
      r'.held = false := by
  have hr1 := (State.HomeKept.report s (some (s.partOf (coreOfCluster k 0))) ⟨4, 5, none, none, 0, coreOfCluster k 0, some r.owner⟩).resid?_some hr
  obtain ⟨r1, hr1⟩ : ∃ r1, (s.report (some (s.partOf (coreOfCluster k 0))) ⟨4, 5, none, none, 0, coreOfCluster k 0,
    some r.owner⟩).resid? k (resKey i) =
    some r1 := hr1.elim (fun h => ⟨_, h⟩) fun h => ⟨_, h⟩
  rw [show exec (.tileError ⟨k, i, tile⟩) s = execTileError ⟨k, i, tile⟩ s from rfl]
  simp only [execTileError, hr, hheld, Bool.true_and, bne_iff_ne.2 hst, if_true]
  refine ⟨_, _, rfl, evictRes_of_resid hr1, ?_, rfl⟩
  rw [Residency.evict]
  dsimp only
  split
  · exact .inr rfl
  · exact .inl rfl

theorem execStaleMark_of_resid {s : State} {k i : Nat} {r : Residency} (hr : s.resid? k (resKey i) = some r) :
    ∃ s', exec (.staleMark ⟨k, i⟩) s = .next s' ∧ s'.resid? k (resKey i) = some r.stale := by
  refine ⟨_, ?_, (resid?_modSide _ k r.side (·.bump 5 1) _).trans (resid?_setResid s k (resKey i) r.stale)⟩
  refine (rfl : _ = execStaleMark ⟨k, i⟩ s).trans ?_
  rw [execStaleMark, hr]

theorem residencyEvents : ResidencyEvents := by
  refine ⟨fun s k i r hr => ⟨fun hst => execResidencyLoadComplete_loading hr hst,
    fun hst cause lv b => execResidencyLoadFault_loading hr hst cause lv b,
    fun hst => ?_, fun hst => ?_, fun hst => ?_, fun hheld hst tile => execTileError_held hr hheld hst tile⟩, fun s x t o ht ho hk => ?_,
      fun s k w hp => ?_⟩
  · have hne : (r.st != .loading) = true := bne_iff_ne.2 hst
    refine ⟨(rfl : _ = execResidencyLoadComplete ⟨k, i⟩ s).trans ?_, fun cause lv b => (rfl : _ = execResidencyLoadFault ⟨k, i, cause, lv,
      b⟩ s).trans ?_⟩
    · rw [execResidencyLoadComplete, show s.resid? k (resKey i) = some r from hr]
      exact if_pos hne
    · rw [execResidencyLoadFault, show s.resid? k (resKey i) = some r from hr]
      exact if_pos hne
  · obtain ⟨s', he, hs⟩ := execStaleMark_of_resid (s := s) (i := i) hr
    refine ⟨s', r.stale, he, hs, ?_, Residency.stale_held r⟩
    rcases hst with h | h | h <;> simp [Residency.stale, h]
  · obtain ⟨s', he, hs⟩ := execStaleMark_of_resid (s := s) (i := i) hr
    refine ⟨s', r.stale, he, hs, ?_, ?_⟩ <;> simp [Residency.stale, hst]
  · refine (rfl : _ = execDrainComplete x s).trans ?_
    rw [execDrainComplete, withOp_of_op? ht ho, ht, Option.bind_some, ho, Option.map_some, hk]
  · rw [show exec (.engineConfigurationWrite ⟨k, w⟩) s = execEngineConfigurationWrite ⟨k, w⟩ s from rfl, execEngineConfigurationWrite]
    dsimp only
    rw [hp]
    have hmask : (w.extractLsb' 0 2 = 0) = (w.toNat % 4 = 0) := by
      rw [← BitVec.toNat_inj]
      simp
    simp only [hmask]
    generalize (if w.toNat % 4 = 0 then 0 else w &&& 0xFFFF3#64) = word
    split
    · next h => exact ⟨s, rfl, h.symm⟩
    · exact ⟨_, rfl, congrArg Cluster.cfg (cluster_modCluster ..)⟩

/-- An XRES after its operand checks: translation, the fit, and the decision as an operation. -/
def State.decideXres (s : State) (t : Thread) (x : XresX) (fdesc : BitVec 32) : Out :=
  let c := s.cur.core
  let k := s.cur.slot
  let count : State → State := fun s => s.modCur (·.countClamp (s.clamps c x.str.scope 0))
  let o := s.newOp t (some x.str.stream) x.str.pmask (s.effScope c x.str.scope 0) []
    (.res x.d (.xres x.ty x.skind x.pin (t.rg x.a) (t.rg x.b) fdesc))
  match s.translateR c t.region (t.rg x.a) .pathR with
  | (.fault f, s) =>
    if f.walk then .next ((count s).park c k o ⟨f.cause, BitVec.ofNat 3 f.level, t.rg x.a⟩ 0 f.span 4 .lead)
    else trapAcc s f.cause 4 f.level f.span (t.rg x.a)
  | (.ok .., s1) =>
    match s1.xresFit c t.region x.ty x.skind (t.rg x.a) (t.rg x.b).toNat fdesc with
    | .error false => badFormat s1
    | _ =>
      match ((count s1).enterOp o).curT? with
      | some t' => .next (((count s1).enterOp o).tryXres c k t' o x.d x.ty x.skind x.pin (t.rg x.a) (t.rg x.b) fdesc)
      | none => .next ((count s1).enterOp o)

/-- A decision that takes an entry begins its load, with the handle in gD. -/
theorem decideXres_taken {s s1 s2 s3 : State} {t t3 : Thread} {x : XresX} {fdesc : BitVec 32} {pa room cont : Nat} {sh : Bool} {o : Op}
    {key : Bool × Nat} {r : Residency} (htr : s.translateR s.cur.core t.region (t.rg x.a) .pathR = (.ok pa sh room, s1)) (ht1 : s1.curT? = some t)
    (hc1 : s1.cur = s.cur) (hfit : s1.xresFit s.cur.core t.region x.ty x.skind (t.rg x.a) (t.rg x.b).toNat fdesc = .ok cont)
    (ho : o = s.newOp t (some x.str.stream) x.str.pmask (s.effScope s.cur.core x.str.scope 0) []
      (.res x.d (.xres x.ty x.skind x.pin (t.rg x.a) (t.rg x.b) fdesc))) (hs2 : s2 = (s1.setCur (counted s1 t x.str)).enterOp o)
    (hx : s2.xres s.cur.core ((counted s1 t x.str).addOp o) x.ty x.skind x.pin (t.rg x.a) (t.rg x.b).toNat fdesc (me s t) = .taken key r s3)
    (ht3 : s3.curT? = some t3) (hc3 : s3.cur = s.cur) :
    s.decideXres t x fdesc = .next ((s3.setCur ((t3.wg x.d (statusWord 0 (r.handle key.2))).modOp o.id fun o =>
      { o with kind := .res x.d (.load key) })).push [.streamOperationComplete ⟨s.cur.core, s.cur.slot, o.id⟩]) := by
  have hcount : (s1.modCur (·.countClamp (s1.clamps s.cur.core x.str.scope 0))) = s1.setCur (counted s1 t x.str) := by
    rw [State.modCur_eq_setCur ht1, counted, hc1]
  have hin : s2.curT? = some ((counted s1 t x.str).addOp o) := by
    rw [hs2, State.enterOp, State.modCur_eq_setCur (State.curT?_setCur ..), State.curT?_setCur]
  have hid : (⟨s.cur.core, s.cur.slot, o.id⟩ : OpRef) = me s t := by rw [ho]; rfl
  have hdeps : o.deps = [] := by rw [ho]; rfl
  unfold State.decideXres
  dsimp only
  rw [htr]
  dsimp only
  rw [hfit, hcount, ← ho, ← hs2, hin]
  dsimp only
  rw [State.tryXres, hid, hx]
  dsimp only
  rw [hdeps, ← hc3, ← State.modCur, State.modCur_eq_setCur ht3]
  rfl

theorem residencyCreation : ResidencyCreation := by
  intro s t x he hr hq
  refine ⟨fun hbad => ?_, fun pa room cont sh fdesc s1 s2 s3 o key r t3 hlo hhi hal hk3 hkind hfd htr ht1 hc1 hfit ho hs2 hx ht3 hc3 => ?_⟩
  · refine (withEngine_true he hr _).trans ?_
    simp only [Quiet.notFull hq, Quiet.notBuffered hq, Bool.false_eq_true, if_false]
    have hif : ((t.rg x.b = 0 || 2048 < (t.rg x.b).toNat || (t.rg x.a).toNat % 64 ≠ 0 || x.skind = 3 || (x.skind ≠ 0 && !ElemType.scales x.ty)) : Bool) = true := by
      rcases hbad with h | h | h <;> simp [h, ← BitVec.toNat_inj]
    rw [if_pos hif, State.modCur_eq_setCur hr.1, State.modCur_eq_setCur (State.curT?_setCur ..), State.setCur_setCur]
    rfl
  · have hif : ((t.rg x.b = 0 || 2048 < (t.rg x.b).toNat || (t.rg x.a).toNat % 64 ≠ 0 || x.skind = 3 || (x.skind ≠ 0 && !ElemType.scales x.ty)) : Bool) ≠ true := by
      have h0 : t.rg x.b ≠ 0#64 := fun h => by simp [h] at hlo
      rcases hkind with h | h <;> simp [h, hhi, hal, h0, show x.skind ≠ 3#2 from hk3]
    let t4 := (t3.wg x.d (statusWord 0 (r.handle key.2))).modOp o.id fun o => { o with kind := .res x.d (.load key) }
    refine ⟨(s3.setCur t4).push [.streamOperationComplete ⟨s.cur.core, s.cur.slot, o.id⟩], t4, ?_, State.curT?_setCur s3 t4, ?_⟩
    · refine (withEngine_true he hr _).trans ?_
      simp only [Quiet.notFull hq, Quiet.notBuffered hq, Quiet.noEdges hq, Bool.false_eq_true, if_false]
      rw [if_neg hif]
      subst hfd
      exact decideXres_taken htr ht1 hc1 hfit ho hs2 hx ht3 hc3
    · rw [Thread.modOp_rg]
      by_cases hd : x.d = 0
      · rw [if_pos hd, hd, Thread.rg_zero]
      · rw [if_neg hd, Thread.rg_wg_self _ hd, statusWord]
        simp

/-- Settles O38: each row of the table of residencies, with the reports and the ends of operations on its way framed. -/
theorem residenciesComeAndGo : Obligations.ResidenciesComeAndGo := ⟨residencyCreation, residencyEvents⟩

end Sys2Proof.Machine
end

/-! ## Proofs: the Lading Table -/
section
namespace Sys2Proof.Machine
open Sys2Proof.Claims

/-! ### Entries -/

theorem alook_mapAt {κ α : Type} [DecidableEq κ] (i : κ) (f : α → α) (l : List (κ × α)) :
    alook i (l.map fun e => if e.1 = i then (e.1, f e.2) else e) = (alook i l).map f := by
  induction l with
  | nil => rfl
  | cons e l ih => by_cases he : e.1 = i <;> simp [alook, he, ih]

theorem ladings_modLading {s : State} {p i : Nat} {q : Part} {l : Lading} (hq : s.part? p = some q) (hl : alook i q.ladings = some l)
    (f : Lading → Lading) : ∃ q', (s.modLading p i f).part? p = some q' ∧ alook i q'.ladings = some (f l) := by
  refine ⟨_, by rw [State.modLading, State.part?_modPart, if_pos rfl, hq]; rfl, ?_⟩
  exact (alook_mapAt i f q.ladings).trans (by rw [hl]; rfl)

theorem State.OpKept.bind_ladings {s s' : State} (h : s.OpKept s') (p i : Nat) :
    ((s'.part? p).bind fun q => alook i q.ladings) = (s.part? p).bind fun q => alook i q.ladings := by
  have hl := congrArg (fun o : Option (List (Nat × Lading)) => o.bind (alook i)) (h.ladings p)
  simpa [Option.bind_map] using hl

theorem State.OpKept.modThread (s : State) (c k : Nat) (f : Thread → Thread) : s.OpKept (s.modThread c k f) := by
  unfold State.modThread
  split
  · exact .setThread s c k _
  · exact .refl s

/-! ### Grants -/

theorem State.HomeKept.clearRegion (s : State) (p base log2 : Nat) : s.HomeKept (s.clearRegion p base log2) := by
  unfold State.clearRegion
  refine .trans ?_ (.foldl _ _ (fun s sec _ => .recall s p sec true none) _)
  exact .foldl _ _ (fun s sec _ => .biSnoop s p sec) s

/-- The entry that a grant makes. -/
theorem grant_ladings {s : State} {p i : Nat} {q : Part} {l : Lading} (hq : s.part? p = some q) (hl : alook i q.ladings = some l) (lease : Nat) (w : Who)
    (rest : List OpRef) :
    ((s.grant p i l.base l.log2 lease w rest).2.part? p).bind (fun q => alook i q.ladings) =
      some ⟨.held, l.log2, l.base, w.tid, w.core, w.slot, l.gen + 1, false, s.gt + lease, l.disc, rest, false, [], false⟩ := by
  have hk := State.HomeKept.clearRegion s p l.base l.log2
  obtain ⟨q', hq', -⟩ := Option.map_eq_some_iff.1 ((hk.part? p).trans (congrArg _ hq))
  rw [State.grant, State.part?_modPart, if_pos rfl, hq', hq, hk.gt, Option.bind_some, hl]
  simp

theorem find_waiter {s : State} {r : OpRef} {t : Thread} {o : Op} (ht : s.thread? r.core r.slot = some t) (ho : t.op? r.op = some o) :
    ((s.thread? r.core r.slot).bind fun t => (t.op? r.op).map fun o => (t, o)) = some (t, o) := by
  rw [ht, Option.bind_some, ho]
  rfl

/-- The register that the status of an ACQR goes to. -/
def MemAcc.acqrDest (a : MemAcc) : GReg :=
  match a.act with
  | .acqr d _ => d
  | _ => 0

/-- A grant that neither waits nor finds its entry held, for the oldest waiting ACQR. -/
theorem ladGrant_waiter {s : State} {p i : Nat} {q : Part} {l : Lading} (hq : s.part? p = some q) (hl : alook i q.ladings = some l) (hst : l.st ≠ .held)
    (hp : s.ladPending p l = false) {r : OpRef} {rest : List OpRef} (hw : l.waiters = r :: rest) {t : Thread} {o : Op}
    (ht : s.thread? r.core r.slot = some t) (ho : t.op? r.op = some o) {a : MemAcc} {n g lease : Nat} (hk : o.kind = .acqrWait a n g lease) :
    s.ladGrant p i =
      if (s.core r.core).suspectTime then
        (((s.modLading p i fun x => { x with waiters := rest }).push [.ladingGrant ⟨p,
          i⟩]).modThread r.core r.slot fun t => t.wg a.acqrDest 5).finishOp r.core r.slot r.op
      else
        ((s.grant p i l.base l.log2 lease (s.who r.core r.slot t) rest).2.modThread r.core r.slot fun u =>
          u.wg a.acqrDest (ladStatus 0 i (s.grant p i l.base l.log2 lease (s.who r.core r.slot t) rest).1)).finishOp r.core r.slot r.op := by
  have hne : ¬(l.st == .held) = true := fun h => hst (eq_of_beq h)
  have hdrop : l.waiters.dropWhile (fun r => ((s.thread? r.core r.slot).bind fun t => (t.op? r.op).map fun o => (t, o)).isNone) = r :: rest := by
    rw [hw, List.dropWhile_cons_of_neg]
    rw [find_waiter ht ho]
    exact Bool.false_ne_true
  rw [State.ladGrant, hq, Option.bind_some, hl]
  dsimp only
  rw [if_neg hne, if_neg (by rw [hp]; decide), hdrop]
  dsimp only
  rw [find_waiter ht ho]
  dsimp only
  rw [hk]
  rfl

/-! ### Discards -/

theorem l1_foldl_delL1 (s : State) (c : Nat) (xs : List (Nat × L1Sec)) (e : Nat × L1Sec) :
    e ∈ ((xs.foldl (fun s x => s.delL1 c x.1) s).core c).l1 ↔ e ∈ (s.core c).l1 ∧ ∀ x ∈ xs, x.1 ≠ e.1 := by
  induction xs generalizing s with
  | nil => simp
  | cons x xs ih =>
    rw [List.foldl_cons, ih, State.delL1, State.core_modCore, if_pos rfl, adel, List.mem_filter]
    simp only [List.forall_mem_cons, decide_eq_true_eq, and_assoc, ne_comm (a := e.1)]

theorem core_modLading (s : State) (p i : Nat) (f : Lading → Lading) (c : Nat) : (s.modLading p i f).core c = s.core c := by
  rw [State.core, State.modLading, State.modPart_cores, State.core]

/-- The holder's thread's mark changes no core, no lading and no event. -/
theorem markRevoked_keeps (s : State) (p core : Nat) (tid : BitVec 32) (g : StaleGrant) :
    (s.markRevoked p core tid g).cores = s.cores ∧ (s.markRevoked p core tid g).mem = s.mem ∧ (s.markRevoked p core tid g).agenda = s.agenda ∧
      (s.markRevoked p core tid g).later = s.later ∧ ((s.markRevoked p core tid g).part? p).map Part.ladings = (s.part? p).map Part.ladings := by
  unfold State.markRevoked
  refine ⟨State.modPart_cores .., State.modPart_mem .., State.modPart_agenda .., State.modPart_later .., ?_⟩
  rw [State.part?_modPart, if_pos rfl]
  cases h : s.part? p <;> rw [State.part?] at h ⊢ <;> simp only [h] <;> rfl

theorem ladingTable_revoke {s : State} {p i : Nat} {q : Part} {l : Lading} (hq : s.part? p = some q) (hl : alook i q.ladings = some l) :
    ∃ s' l', exec (.revoke ⟨p, i⟩) s = .next s' ∧ (s'.part? p).bind (fun q => alook i q.ladings) = some l' ∧ l'.st = .revoked ∧
      l'.disc = ((s.core l.core).l1.filter fun e =>
        ((e.2.st == .l && e.2.entry == i) || (e.2.st == .ild && l.covers (64 * e.1))) && e.2.dirty != 0).length ∧
      (∀ e ∈ (s'.core l.core).l1, (e.2.st = .l → e.2.entry ≠ i) ∧ (e.2.st = .ild → l.covers (64 * e.1) = false)) ∧ s'.mem = s.mem ∧ l'.clear = true ∧
      s'.agenda = s.agenda ++ s.later ++ [.ladingGrant ⟨p, i⟩] ∧ s'.later = [] := by
  let xs := s.ladSecs i l
  let dirty := (xs.filter fun e => e.2.dirty ≠ 0).map (·.1)
  let s1 := xs.foldl (fun s e => s.delL1 l.core e.1) s
  let s2 := s1.modLading p i fun x => { x with st := .revoked, disc := dirty.length }
  let g : StaleGrant := ⟨i, l.gen.toNat, dirty.length, l.base, l.log2, (dirty.map (64 * ·)).mergeSort (· ≤ ·)⟩
  let s3 := s2.markRevoked p l.core l.tid g
  have hdel : (s1.part? p, s1.mem, s1.agenda, s1.later) = (s.part? p, s.mem, s.agenda, s.later) :=
    foldl_keeps (fun s : State => (s.part? p, s.mem, s.agenda, s.later)) (fun s (e : Nat × L1Sec) => s.delL1 l.core e.1) xs (fun _ _ _ => rfl) s
  simp only [Prod.mk.injEq] at hdel
  obtain ⟨hpart, hmem, hag, hlat⟩ := hdel
  obtain ⟨q2, hq2, hl2⟩ := ladings_modLading (s := s1) (hpart.trans hq) hl fun x => { x with st := .revoked, disc := dirty.length }
  obtain ⟨hc3, hm3, ha3, ht3, hp3⟩ := markRevoked_keeps s2 p l.core l.tid g
  obtain ⟨q3, hq3, hlq3⟩ := Option.map_eq_some_iff.1 (hp3.trans (congrArg _ hq2))
  obtain ⟨q4, hq4, hl4⟩ := ladings_modLading (s := s3) (i := i) hq3 (by rw [hlq3]; exact hl2) fun l => { l with clear := true, waitAcc := false }
  refine ⟨s3.ladNext p i, { l with st := .revoked, disc := dirty.length, clear := true, waitAcc := false }, ?_, ?_, rfl, ?_, ?_, ?_, rfl, ?_, rfl⟩
  · refine (rfl : _ = execRevoke ⟨p, i⟩ s).trans ?_
    rw [execRevoke, State.discard, hq, Option.bind_some, hl]
    rfl
  · exact (congrArg (·.bind fun q => alook i q.ladings) hq4).trans hl4
  · change dirty.length = _
    rw [List.length_map, show xs = (s.core l.core).l1.filter _ from rfl, List.filter_filter]
    refine congrArg List.length (List.filter_congr fun e _ => ?_)
    rw [Bool.and_comm]
    simp [bne, beq_eq_decide]
  · intro e he
    have hcore : (s3.ladNext p i).core l.core = s1.core l.core := by
      refine (core_modLading s3 p i _ l.core : (s3.ladNext p i).core l.core = s3.core l.core).trans ?_
      rw [State.core, hc3]
      exact core_modLading s1 p i _ l.core
    rw [hcore] at he
    obtain ⟨hin, hout⟩ := (l1_foldl_delL1 s l.core xs e).1 he
    have hno : ¬((e.2.st == .l && decide (e.2.entry = i)) || (e.2.st == .ild && l.covers (64 * e.1))) = true :=
      fun h => hout e (List.mem_filter.2 ⟨hin, h⟩) rfl
    refine ⟨fun hst hi => hno ?_, fun hst => ?_⟩
    · rw [hst, hi]
      simp
    · rw [hst] at hno
      simpa using hno
  · refine (State.modPart_mem .. : (s3.ladNext p i).mem = s3.mem).trans (hm3.trans ((State.modPart_mem ..).trans hmem))
  · have ha : s3.agenda = s.agenda := ha3.trans ((State.modPart_agenda ..).trans hag)
    have hl : s3.later = s.later := ht3.trans ((State.modPart_later ..).trans hlat)
    rw [← ha, ← hl]
    exact congrArg₂ (· ++ · ++ _) (State.modPart_agenda ..) (State.modPart_later ..)

/-! ### Beacons -/

theorem core_modCore_self (s : State) (c : Nat) (f : Core → Core) : (s.modCore c f).core c = f (s.core c) := by
  rw [State.core_modCore, if_pos rfl]

theorem core_suspectTime (s : State) (c : Nat) : (s.suspectTime c).core c = { s.core c with suspectTime := true } := by
  rw [State.suspectTime]
  exact (foldl_keeps (fun s : State => s.core c) (fun (s : State) (i : Nat) => s.modLading (s.partOf c) i fun l =>
    { l with tsus := true, expiry := min l.expiry s.gt }) _ (fun s i _ => core_modLading s _ i _ c) _).trans (core_modCore_self s c _)

/-- Settles O31: each status of an entry at its grant, the discard at the holder sector by sector, and the beacons by the core's mark. -/
theorem ladingTable : Obligations.LadingTable := by
  refine ⟨fun s p i q l hq hl => ⟨fun hst hp => ?_, fun hst hp hw => ?_, fun r rest t o a n g lease hst hp hw ht ho hk => ⟨fun hsus d x hact => ?_,
    fun hsus => ?_⟩,
    fun hst hw hex hfr => ?_, fun hno => ?_, ladingTable_revoke hq hl⟩, fun s x => ⟨fun ha hd => ?_, fun ha hd hs => ?_, fun ha hm => ?_,
      fun ha hm => ?_⟩⟩
  · have hne : ¬(l.st == .held) = true := fun h => hst (eq_of_beq h)
    refine (rfl : _ = execLadingGrant ⟨p, i⟩ s).trans ?_
    rw [execLadingGrant, State.ladGrant, hq, Option.bind_some, hl]
    dsimp only
    rw [if_neg hne, if_pos hp]
  · have hne : ¬(l.st == .held) = true := fun h => hst (eq_of_beq h)
    refine ⟨s.modPart p fun q => { q with ladings := adel i q.ladings, ladRest := aset i ⟨l.gen, l.disc⟩ q.ladRest }, ?_, ?_, ?_⟩
    · refine (rfl : _ = execLadingGrant ⟨p, i⟩ s).trans ?_
      rw [execLadingGrant, State.ladGrant, hq, Option.bind_some, hl]
      dsimp only
      rw [if_neg hne, if_neg (by rw [hp]; decide), hw]
      rfl
    · rw [State.part?_modPart, if_pos rfl, hq]
      exact (alook_adel ..).trans (if_pos rfl)
    · rw [State.part?_modPart, if_pos rfl, hq]
      exact (alook_aset ..).trans (if_pos rfl)
  · refine (rfl : _ = execLadingGrant ⟨p, i⟩ s).trans ?_
    rw [execLadingGrant, ladGrant_waiter hq hl hst hp hw ht ho hk, if_pos hsus, MemAcc.acqrDest, hact]
  · have hend := fun d => ((State.OpKept.modThread (s.grant p i l.base l.log2 lease (s.who r.core r.slot t) rest).2 r.core r.slot fun u =>
      u.wg d (ladStatus 0 i (s.grant p i l.base l.log2 lease (s.who r.core r.slot t) rest).1)).trans (.finishOp _ r.core r.slot r.op)).bind_ladings p i
    refine ⟨_, _, ?_, (hend a.acqrDest).trans (grant_ladings hq hl lease _ rest), rfl, rfl, rfl, rfl, rfl, rfl, rfl, rfl⟩
    refine (rfl : _ = execLadingGrant ⟨p, i⟩ s).trans ?_
    rw [execLadingGrant, ladGrant_waiter hq hl hst hp hw ht ho hk, if_neg (by rw [hsus]; decide)]
  · refine (rfl : _ = execLadingRevocation ⟨p, i⟩ s).trans ?_
    rw [execLadingRevocation, hq, Option.bind_some, hl]
    have hif : (l.st == .held && (l.waitAcc || !l.waiters.isEmpty) && decide (l.expiry + 250 < s.gt)) = true := by
      rcases hw with h | h <;> simp [hst, h, hex]
    exact (if_pos hif).trans (if_neg (by rw [Option.any_some, hfr]; decide))
  · refine (rfl : _ = execLadingRevocation ⟨p, i⟩ s).trans ?_
    rw [execLadingRevocation, hq, Option.bind_some, hl]
    have hif : ¬(l.st == .held && (l.waitAcc || !l.waiters.isEmpty) && decide (l.expiry + 250 < s.gt)) = true := by
      rcases hno with h | h
      · simp [h]
      · simp [Nat.not_lt.2 h]
    exact if_neg hif
  · let s1 := s.modCore x.core fun y => { y with missed := 0, gtOff := x.diff }
    have h1 : s1.core x.core = _ := core_modCore_self s x.core _
    refine ⟨if (s.core x.core).suspectTime then s1 else s1.suspectTime x.core, ?_, ?_⟩
    · refine (rfl : _ = execBeacon x s).trans ?_
      simp only [execBeacon, ha, hd, Bool.not_true, Bool.false_eq_true, if_false, decide_true, if_true]
      rfl
    · split
      · next hsus => exact ⟨(congrArg Core.suspectTime h1 :).trans hsus, congrArg Core.gtOff h1, congrArg Core.missed h1⟩
      · rw [core_suspectTime, h1]
        exact ⟨rfl, rfl, rfl⟩
  · refine (rfl : _ = execBeacon x s).trans ?_
    simp only [execBeacon, ha, hs, Nat.not_lt.2 hd, Bool.not_true, Bool.false_eq_true, if_false, decide_false, Bool.false_and]
  · let s1 := s.modCore x.core fun y => { y with missed := y.missed + 1 }
    have h1 : s1.core x.core = _ := core_modCore_self s x.core _
    cases hsus : (s.core x.core).suspectTime with
    | true =>
      refine ⟨s1, ?_, (congrArg Core.suspectTime h1 :).trans hsus⟩
      refine (rfl : _ = execBeacon x s).trans ?_
      simp only [execBeacon, ha, hsus, Bool.not_true, Bool.not_false, if_true, Bool.and_false, Bool.false_eq_true, if_false]
      rfl
    | false =>
      refine ⟨s1.suspectTime x.core, ?_, by rw [core_suspectTime]⟩
      refine (rfl : _ = execBeacon x s).trans ?_
      simp only [execBeacon, ha, hsus, ge_iff_le, hm, decide_true, Bool.not_false, Bool.and_true, if_true]
      rfl
  · have h1 := core_modCore_self s x.core fun y => { y with missed := y.missed + 1 }
    refine ⟨s.modCore x.core fun y => { y with missed := y.missed + 1 }, ?_, (congrArg Core.missed h1 :).trans (by rw [hm]),
      (congrArg Core.suspectTime h1 :)⟩
    refine (rfl : _ = execBeacon x s).trans ?_
    simp [execBeacon, ha, hm]

end Sys2Proof.Machine
end

/-! ## Proofs: copies at their target -/
section
namespace Sys2Proof.Machine
open Sys2Proof.Claims

/-! ### Answers -/

/-- What an answer leaves: cores, memory and the events before it. -/
structure State.AnswerKept (s s' : State) : Prop where
  cores : s'.cores = s.cores
  mem : s'.mem = s.mem
  agenda : s'.agenda = s.agenda

theorem State.AnswerKept.modThread (s : State) (c k : Nat) (f : Thread → Thread) : s.AnswerKept (s.modThread c k f) := by
  unfold State.modThread
  split <;> exact ⟨rfl, rfl, rfl⟩

/-- A change of a thread that has spilled, which stays spilled. -/
theorem State.AnswerKept.inSpilled (s : State) (p : Nat) (key : Nat × Nat × Nat) (t : Thread) (f : Thread → Thread) :
    s.AnswerKept (s.inSpilled p key t fun c k s => s.modThread c k f) := by
  unfold State.inSpilled
  dsimp only
  rw [modThread_of_thread (State.thread?_setThread_self ..), State.thread?_setThread_self]
  dsimp only
  split <;> exact ⟨(State.modPart_cores ..).trans (State.modPart_cores ..), (State.modPart_mem ..).trans (State.modPart_mem ..),
    (State.modPart_agenda ..).trans (State.modPart_agenda ..)⟩

theorem State.AnswerKept.withOp (s : State) (r : OpRef) (f : Thread → Thread) : s.AnswerKept (s.withOp r fun c k s => s.modThread c k f) := by
  unfold State.withOp
  split
  · exact .modThread s _ _ f
  · split
    · exact .modThread s _ _ f
    · split
      · exact .inSpilled s _ _ _ f
      · exact ⟨rfl, rfl, rfl⟩

theorem answer_keeps (s : State) (r : OpRef) (n bytes : Nat) (ok : Bool) :
    (s.answer r n bytes ok).cores = s.cores ∧ (s.answer r n bytes ok).mem = s.mem ∧
      (s.answer r n bytes ok).agenda = s.agenda ++ [.sendComplete r] := by
  rw [State.answer]
  obtain ⟨hc, hm, ha⟩ := State.AnswerKept.withOp s r fun t => t.modOp r.op fun o => { o with kind := match o.kind with
    | .copy x => .copy (if ok then { x with acked := x.acked + n, bytes := x.bytes + bytes } else { x with refused := x.refused + n })
    | k => k }
  exact ⟨hc, hm, congrArg (· ++ _) ha⟩

theorem core_answer (s : State) (r : OpRef) (n bytes : Nat) (ok : Bool) (c : Nat) : (s.answer r n bytes ok).core c = s.core c := by
  rw [State.core, State.core, (answer_keeps s r n bytes ok).1]

/-! ### Packets -/

theorem Channel.wm_le_rise (n : Nat) (x : Channel) : x.wm ≤ (Channel.rise n x).wm := by
  induction n generalizing x with
  | zero => exact le_rfl
  | succ n ih =>
    rw [Channel.rise]
    split
    · exact le_trans (Nat.le_add_right x.wm 64) (ih { x with wm := x.wm + 64, arrived := x.arrived >>> 1 })
    · exact le_rfl

theorem Channel.wm_le_arrive (x : Channel) (off : Nat) : x.wm ≤ (x.arrive off).wm := by
  rw [Channel.arrive]
  split
  · exact le_rfl
  · exact wm_le_rise 129 { x with arrived := x.arrived ||| (1#128 <<< ((off / 64 * 64 - x.wm) / 64)) }

/-- The state after a packet was written and its granule counted. -/
def State.packetWritten (s : State) (x : EvPacket) : State :=
  (((s.spWrite x.dst ((s.chan x.dst x.chan).base + x.off) x.bytes none).setChan x.dst x.chan ((s.chan x.dst x.chan).arrive x.off)).answer x.src 1
    x.bytes.length true)

theorem sp_packetWritten (s : State) (x : EvPacket) :
    ((s.packetWritten x).core x.dst).sp = memWrite (s.core x.dst).sp ((s.chan x.dst x.chan).base + x.off) x.bytes := by
  rw [State.packetWritten, core_answer, State.setChan, core_modCore_self]
  exact (State.spWrite_sp ..).trans (if_pos rfl)

theorem chan_packetWritten (s : State) (x : EvPacket) : (s.packetWritten x).chan x.dst x.chan = (s.chan x.dst x.chan).arrive x.off := by
  rw [State.packetWritten, State.chan, core_answer, State.setChan, core_modCore_self]
  exact Vector.getElem_set_self _

theorem packetAtItsChannel : PacketAtItsChannel := by
  intro s x hg
  refine ⟨fun hbad => ?_, fun ho ha hlen hheld hwm => ?_, rfl⟩
  · obtain ⟨hc, hm, hag⟩ := answer_keeps s x.src 1 0 false
    refine ⟨s.answer x.src 1 0 false, ?_, hc, hm, hag⟩
    refine (rfl : _ = (.next (s.packet x) : Out)).trans (congrArg (fun s => (.next s : Out)) (if_pos ?_))
    rcases hbad with h | h | h <;> simp [h]
  · have hif : ¬(!(s.chan x.dst x.chan).isOpen || (s.chan x.dst x.chan).arith || decide ((s.chan x.dst x.chan).len < x.off + x.bytes.length) ||
        s.guestLcn x.region x.lcn) = true := by
      simp [ho, ha, Nat.not_lt.2 hlen, hg]
    have hrun : s.packet x = if ((s.packetWritten x).chan x.dst x.chan).wm = (s.chan x.dst x.chan).wm then s.packetWritten x
        else (s.packetWritten x).push ((s.packetWritten x).chanEvents x.dst x.chan) := by
      rw [State.packet]
      exact (if_neg hif).trans ((if_neg (by rw [hheld]; decide)).trans (if_neg (Nat.not_le.2 hwm)))
    refine ⟨s.packet x, rfl, ?_, ?_⟩
    · have hsp : ((s.packet x).core x.dst).sp = ((s.packetWritten x).core x.dst).sp := by
        rw [hrun]
        split <;> rfl
      rw [hsp, sp_packetWritten, memBytes_memWrite_self]
    · have hch : (s.packet x).chan x.dst x.chan = (s.packetWritten x).chan x.dst x.chan := by
        rw [hrun]
        split <;> rfl
      rw [hch, chan_packetWritten]
      exact Channel.wm_le_arrive ..

/-! ### Updates -/

theorem arithCode_add {ty : ElemType} (h : ty.isI = true) (old new : Nat) :
    arithCode .add ty false old new = (old + new) % 2 ^ (8 * elemBytes ty) := by
  have hw : 0 < 8 * elemBytes ty := by cases ty <;> exact Nat.succ_pos _
  have hsum : ((wrapN (8 * elemBytes ty) (sextN (8 * elemBytes ty) old + sextN (8 * elemBytes ty) new) : Nat) : Int) =
      ((old + new) % 2 ^ (8 * elemBytes ty) : Nat) := by
    rw [wrapN_eq_emod, Int.add_emod, sextN_emod hw, sextN_emod hw, ← Int.add_emod]
    norm_cast
  rw [arithCode, if_pos h]
  exact Int.ofNat.inj hsum

theorem execUpdateArrival_refused {s : State} {x : EvUpdate} {v : Word} (hx : x.elems = [v])
    (hbad : (s.chan x.dst x.chan).isOpen = false ∨ (s.chan x.dst x.chan).arith = false ∨ (s.chan x.dst x.chan).len < x.off + elemBytes x.ty) :
    exec (.updateArrival x) s = .next (s.answer x.src 1 0 false) := by
  refine (rfl : _ = (.next (s.update x) : Out)).trans (congrArg (fun s => (.next s : Out)) ?_)
  rw [State.update, hx]
  refine if_pos ?_
  rcases hbad with h | h | h <;> simp [h]

/-- The state after one element was updated and answered. -/
def State.elemUpdated (s : State) (x : EvUpdate) (v : Word) : State :=
  (s.applyElems x.dst x.op x.ty x.m ((s.chan x.dst x.chan).base + x.off) [v]).answer x.src 1 (1 * elemBytes x.ty) true

theorem sp_elemUpdated (s : State) (x : EvUpdate) (v : Word) :
    ((s.elemUpdated x v).core x.dst).sp = memWrite (s.core x.dst).sp ((s.chan x.dst x.chan).base + x.off) (toBytes (elemBytes x.ty)
      (arithCode x.op x.ty x.m (memNat (s.core x.dst).sp ((s.chan x.dst x.chan).base + x.off) (elemBytes x.ty)) v.toNat)) := by
  rw [State.elemUpdated, core_answer]
  exact (State.spWrite_sp ..).trans (if_pos rfl)

/-- An update of one element at its open channel, in range and not held. -/
theorem execUpdateArrival_open {s : State} {x : EvUpdate} {v : Word} (hx : x.elems = [v]) (ho : (s.chan x.dst x.chan).isOpen = true)
    (ha : (s.chan x.dst x.chan).arith = true) (hlen : x.off + elemBytes x.ty ≤ (s.chan x.dst x.chan).len) (hg : s.guestLcn x.region x.lcn = false)
    (hheld : s.spHeld x.dst ((s.chan x.dst x.chan).base + x.off) (elemBytes x.ty) = false) :
    exec (.updateArrival x) s = .next (match x.seq with
      | none => s.elemUpdated x v
      | some q =>
        if (q - (s.chan x.dst x.chan).seqnext).toNat = 0 then
          ((s.elemUpdated x v).setChan x.dst x.chan { s.chan x.dst x.chan with seqnext := (s.chan x.dst x.chan).seqnext + 1 }).releaseHold x.dst x.chan
        else if (q - (s.chan x.dst x.chan).seqnext).toNat ≤ 32767 then
          if (s.core x.dst).hold.length < 16 then s.modCore x.dst fun y => { y with hold := y.hold ++ [x] }
          else { s with later := s.later ++ [.updateArrival x] }
        else s.answer x.src 1 0 false) := by
  have hif : ¬(!(s.chan x.dst x.chan).isOpen || !(s.chan x.dst x.chan).arith || decide ((s.chan x.dst x.chan).len < x.off + 1 * elemBytes x.ty) ||
      s.guestLcn x.region x.lcn) = true := by
    simp [ho, ha, Nat.not_lt.2 hlen, hg]
  refine (rfl : _ = (.next (s.update x) : Out)).trans (congrArg (fun s => (.next s : Out)) ?_)
  rw [State.update, hx]
  refine (if_neg hif).trans ((if_neg (by rw [List.length_singleton, Nat.one_mul, hheld]; decide)).trans ?_)
  rfl

theorem updatesAndRemoteStores : UpdatesAndRemoteStores := by
  refine ⟨fun s x v n base hx hn hb => ⟨fun hbad => ?_, fun ho ha hlen hg hheld => ⟨fun hseq hop hm hI => ?_, fun q hseq h1 h2 hroom => ?_⟩⟩,
    fun s r t o y ht ho hk => ⟨fun hc hr => ?_, fun hc => ?_⟩, fun s x bs hact => ⟨fun hlen hw hh => ?_, fun hlen => ?_⟩⟩
  · obtain ⟨hc, hm, hag⟩ := answer_keeps s x.src 1 0 false
    exact ⟨_, execUpdateArrival_refused hx (hn ▸ hbad), hc, hm, hag⟩
  · subst hn hb
    have hsp := sp_elemUpdated s x v
    refine ⟨_, execUpdateArrival_open hx ho ha hlen hg hheld |>.trans (by rw [hseq]), ?_, fun a hout => ?_⟩
    · rw [hsp, memNat_memWrite, hop, hm, arithCode_add hI, show 256 = 2 ^ 8 from rfl, ← pow_mul, Nat.mod_mod]
    · rw [hsp]
      exact memByte_memWrite_out _ _ _ _ (by rw [toBytes_length]; exact hout)
  · subst hn hb
    refine (execUpdateArrival_open hx ho ha hlen hg hheld).trans ?_
    rw [hseq]
    dsimp only
    rw [if_neg (by omega), if_pos h2, if_pos hroom]
  · refine (rfl : _ = (.next (s.copyDone r) : Out)).trans (congrArg (fun s => (.next s : Out)) ?_)
    rw [State.copyDone, withOp_of_op? ht ho, State.copyDoneAt, ht]
    dsimp only
    rw [ho]
    dsimp only
    rw [hk]
    exact (if_pos hc).trans (by rw [if_pos hr])
  · refine (rfl : _ = (.next (s.copyDone r) : Out)).trans (congrArg (fun s => (.next s : Out)) ?_)
    rw [State.copyDone, withOp_of_op? ht ho, State.copyDoneAt, ht]
    dsimp only
    rw [ho]
    dsimp only
    rw [hk]
    exact if_neg (by rw [hc]; decide)
  · refine (rfl : _ = execRemoteStoreArrival x s).trans ?_
    simp only [execRemoteStoreArrival, hact, RemoteAct.len, RemoteAct.reads, Nat.not_lt.2 hlen, hw, hh, Bool.or_self, Bool.false_eq_true, if_false,
      remoteNew]
  · refine ⟨_, (rfl : _ = execRemoteStoreArrival x s).trans (if_pos (by rw [hact]; exact hlen)), fun d => ?_⟩
    exact ((State.OpKept.finishOp _ _ _ _).sp d).trans ((State.HomeKept.appendRec _ _ _ _ _ _ _).sp d)

/-- Settles O34: a packet and an update by their one write to the scratchpad, the answers by what they leave. -/
theorem copiesArrive : Obligations.CopiesArrive := ⟨packetAtItsChannel, updatesAndRemoteStores⟩

end Sys2Proof.Machine
end

/-! ## Proofs: the host's snoops, writes and reads -/
section
namespace Sys2Proof.Machine
open Sys2Proof.Claims

/-! ### What a home tracks for the host -/

/-- What the homes of a partition track of a sector of the host. -/
def State.hostSec? (s : State) (p sec : Nat) : Option Bool := (s.part? p).bind fun q => alook sec q.hostSecs

/-- The sector is tracked as `v` in a partition, and as before in the others. -/
structure HostSet (sec p : Nat) (v : Option Bool) (s s' : State) : Prop where
  parts : ∀ p', (s'.part? p').isSome = (s.part? p').isSome
  self : (s.part? p).isSome → s'.hostSec? p sec = v
  others : ∀ p', p' ≠ p → s'.hostSec? p' sec = s.hostSec? p' sec

theorem State.HomeKept.part?_isSome {s s' : State} (h : s.HomeKept s') (p : Nat) : (s'.part? p).isSome = (s.part? p).isSome := by
  have hp := congrArg Option.isSome (h.part? p)
  simpa using hp

theorem State.HomeKept.hostSec? {s s' : State} (h : s.HomeKept s') (p sec : Nat) : s'.hostSec? p sec = s.hostSec? p sec := by
  have hp := congrArg (fun o : Option Part => o.bind fun q => alook sec q.hostSecs) (h.part? p)
  rw [Option.bind_map, Option.bind_map] at hp
  exact hp

theorem HostSet.setHostSec (sec p : Nat) (own : Option Bool) (s : State) : HostSet sec p own s (s.setHostSec p sec own) where
  parts p' := by
    rw [State.setHostSec, State.part?_modPart]
    split
    · next h => rw [h, Option.isSome_map]
    · rfl
  self hp := by
    obtain ⟨q, hq⟩ := Option.isSome_iff_exists.1 hp
    rw [State.hostSec?, State.setHostSec, State.part?_modPart, if_pos rfl, hq]
    cases own with
    | none => exact (alook_adel ..).trans (if_pos rfl)
    | some o => exact (alook_aset ..).trans (if_pos rfl)
  others p' hne := by rw [State.hostSec?, State.setHostSec, State.part?_modPart, if_neg (Ne.symm hne), State.hostSec?]

theorem HostSet.after {sec p : Nat} {v : Option Bool} {s s1 s2 : State} (h : s.HomeKept s1) (h' : HostSet sec p v s1 s2) : HostSet sec p v s s2 where
  parts p' := (h'.parts p').trans (h.part?_isSome p')
  self hp := h'.self (by rw [h.part?_isSome]; exact hp)
  others p' hne := (h'.others p' hne).trans (h.hostSec? p' sec)

theorem HostSet.before {sec p : Nat} {v : Option Bool} {s s1 s2 : State} (h : HostSet sec p v s s1) (h' : s1.HomeKept s2) : HostSet sec p v s s2 where
  parts p' := (h'.part?_isSome p').trans (h.parts p')
  self hp := (h'.hostSec? p sec).trans (h.self hp)
  others p' hne := (h'.hostSec? p' sec).trans (h.others p' hne)

/-- A change of every partition that a condition names sets what they track. -/
theorem hostSec?_foldl {sec : Nat} {v : Option Bool} (b : Nat × Part → Bool) (f : Nat → State → State) (hf : ∀ p s, HostSet sec p v s (f p s))
    (l : List (Nat × Part)) (s : State) (p : Nat) (hp : (s.part? p).isSome) (h : (∃ e ∈ l, b e = true ∧ e.1 = p) ∨ s.hostSec? p sec = v) :
    (l.foldl (fun s e => if b e then f e.1 s else s) s).hostSec? p sec = v := by
  induction l generalizing s with
  | nil =>
    rcases h with ⟨e, he, -⟩ | h
    · cases he
    · exact h
  | cons e l ih =>
    rw [List.foldl_cons]
    by_cases hb : b e = true
    · rw [if_pos hb]
      refine ih _ (by rw [(hf e.1 s).parts]; exact hp) ?_
      by_cases he : e.1 = p
      · exact .inr (by subst he; exact (hf e.1 s).self hp)
      · refine h.imp (fun ⟨e', he', hb', hp'⟩ => ?_) fun h => ((hf e.1 s).others p (Ne.symm he)).trans h
        rcases List.mem_cons.1 he' with rfl | he'
        · exact absurd hp' he
        · exact ⟨e', he', hb', hp'⟩
    · rw [if_neg hb]
      refine ih s hp (h.imp_left fun ⟨e', he', hb', hp'⟩ => ?_)
      rcases List.mem_cons.1 he' with rfl | he'
      · exact absurd hb' hb
      · exact ⟨e', he', hb', hp'⟩

theorem part?_of_mem {s : State} {e : Nat × Part} (h : e ∈ s.parts) : (s.part? e.1).isSome := by
  rw [State.part?]
  induction hl : s.parts generalizing s with
  | nil => rw [hl] at h; cases h
  | cons x l ih =>
    rw [alook]
    split
    · rfl
    · next hne =>
      rw [hl] at h
      rcases List.mem_cons.1 h with rfl | h
      · exact absurd rfl hne
      · exact ih (s := { s with parts := l }) h rfl

/-- What the partitions that track a sector for the host track after a snoop. -/
theorem hostSec?_forHost {sec : Nat} {v : Option Bool} {f : Nat → State → State} (hf : ∀ p s, HostSet sec p v s (f p s)) (s : State) (e : Nat × Part)
    (he : e ∈ s.parts) (hs : e.2.sys = true) (hh : (alook sec e.2.hostSecs).isSome) :
    ((s.forHost sec f).part? e.1).bind (fun q => alook sec q.hostSecs) = v :=
  hostSec?_foldl (fun e => e.2.sys && (alook sec e.2.hostSecs).isSome) f hf s.parts s e.1 (part?_of_mem he)
    (.inl ⟨e, he, by rw [hs, hh]; rfl, rfl⟩)

/-! ### No home's read makes a core an owner -/

/-- Every modified copy was one before. -/
def NoNewM (s s' : State) : Prop := ∀ c sec x, s'.l1 c sec = some x → x.st = .m → ∃ x0, s.l1 c sec = some x0 ∧ x0.st = .m

theorem NoNewM.of_cores {s s' : State} (h : s'.cores = s.cores) : NoNewM s s' := fun c sec x hx hm => by
  rw [State.l1, State.core, h] at hx
  exact ⟨x, hx, hm⟩

theorem NoNewM.trans {s s1 s2 : State} (h : NoNewM s s1) (h' : NoNewM s1 s2) : NoNewM s s2 := fun c sec x hx hm => by
  obtain ⟨x1, hx1, hm1⟩ := h' c sec x hx hm
  exact h c sec x1 hx1 hm1

theorem NoNewM.foldl {α : Type} {f : State → α → State} (h : ∀ s a, NoNewM s (f s a)) (l : List α) (s : State) : NoNewM s (l.foldl f s) := by
  induction l generalizing s with
  | nil => exact .of_cores rfl
  | cons a l ih => exact (h s a).trans (ih _)

theorem l1_delL1_at (s : State) (c sec c' sec' : Nat) : (s.delL1 c sec).l1 c' sec' = if c = c' ∧ sec = sec' then none else s.l1 c' sec' := by
  rw [State.l1, State.delL1, State.core_modCore]
  by_cases hc : c = c'
  · subst hc
    rw [if_pos rfl]
    exact (alook_adel ..).trans (by by_cases hs : sec = sec' <;> simp [hs, State.l1])
  · rw [if_neg hc, if_neg fun h => hc h.1, State.l1]

theorem l1_setL1_at (s : State) (c sec : Nat) (x : L1Sec) (c' sec' : Nat) :
    (s.setL1 c sec x).l1 c' sec' = if c = c' ∧ sec = sec' then some x else s.l1 c' sec' := by
  rw [State.l1, State.setL1, State.core_modCore]
  by_cases hc : c = c'
  · subst hc
    rw [if_pos rfl]
    exact (alook_aset ..).trans (by by_cases hs : sec = sec' <;> simp [hs, State.l1])
  · rw [if_neg hc, if_neg fun h => hc h.1, State.l1]

theorem NoNewM.setL1 (s : State) (c sec : Nat) {x : L1Sec} (h : x.st ≠ .m) : NoNewM s (s.setL1 c sec x) := fun c' sec' y hy hm => by
  rw [l1_setL1_at] at hy
  split at hy
  · cases hy
    exact absurd hm h
  · exact ⟨y, hy, hm⟩

theorem NoNewM.delL1 (s : State) (c sec : Nat) : NoNewM s (s.delL1 c sec) := fun c' sec' y hy hm => by
  rw [l1_delL1_at] at hy
  split at hy
  · cases hy
  · exact ⟨y, hy, hm⟩

theorem NoNewM.modEntry (s : State) (p line : Nat) (f : DirEntry → DirEntry) : NoNewM s (s.modEntry p line f) := .of_cores (State.modPart_cores ..)

/-- The copy that a recall reaches is taken out of its state M. -/
theorem recallOne_l1 (s : State) (sec : Nat) (drop : Bool) (c : Nat) :
    NoNewM s (s.recallOne sec drop c) ∧ ∀ x, (s.recallOne sec drop c).l1 c sec = some x → x.st ≠ .m := by
  unfold State.recallOne
  split
  · next hn => exact ⟨.of_cores rfl, fun x hx => by rw [hn] at hx; cases hx⟩
  · next x hx =>
    have hset : ∀ (s1 : State) (y : L1Sec), s1.cores = s.cores → y.st ≠ .m →
        NoNewM s (s1.setL1 c sec y) ∧ ∀ z, (s1.setL1 c sec y).l1 c sec = some z → z.st ≠ .m := fun s1 y h1 hy =>
      ⟨(NoNewM.of_cores h1).trans (.setL1 s1 c sec hy), fun z hz => by
        rw [l1_setL1_at, if_pos ⟨rfl, rfl⟩] at hz
        cases hz
        exact hy⟩
    have hsame : ∀ s1 : State, s1.cores = s.cores → x.st ≠ .m → NoNewM s s1 ∧ ∀ z, s1.l1 c sec = some z → z.st ≠ .m := fun s1 h1 hy =>
      ⟨.of_cores h1, fun z hz => by
        rw [State.l1, State.core, h1] at hz
        cases hx.symm.trans hz
        exact hy⟩
    extract_lets s1 s2
    have h2 : s2.cores = s.cores := by
      simp only [s2, s1]
      split <;> split <;> rfl
    split
    · exact hset s2 _ h2 (show L1St.eia ≠ .m by decide)
    · split
      · next hst =>
        split
        · exact hset s2 _ h2 (show L1St.imd ≠ .m by decide)
        · exact hsame s2 h2 (by rw [eq_of_beq hst]; decide)
      · split
        · exact ⟨(NoNewM.of_cores h2).trans (.delL1 s2 c sec), fun z hz => by rw [l1_delL1_at, if_pos ⟨rfl, rfl⟩] at hz; cases hz⟩
        · split
          · exact hset s2 _ h2 (show L1St.s ≠ .m by decide)
          · next hno => exact hsame s2 h2 fun hm => hno (by rw [hm]; rfl)

/-- A core in the list of those called back keeps no M. -/
theorem recallOne_foldl_noM (sec : Nat) (drop : Bool) (hs : List Nat) (s : State) {c : Nat} (hc : c ∈ hs) {x : L1Sec}
    (hx : (hs.foldl (fun s c => s.recallOne sec drop c) s).l1 c sec = some x) : x.st ≠ .m := by
  induction hs generalizing s with
  | nil => cases hc
  | cons a l ih =>
    rcases List.mem_cons.1 hc with rfl | hc
    · intro hm
      obtain ⟨x0, hx0, hm0⟩ := NoNewM.foldl (fun s c => (recallOne_l1 s sec drop c).1) l _ _ _ _ hx hm
      exact (recallOne_l1 s sec drop c).2 x0 hx0 hm0
    · exact ih _ hc hx

theorem NoNewM.recall (s : State) (p sec : Nat) (drop : Bool) (keep : Option Nat) : NoNewM s (s.recall p sec drop keep) := by
  unfold State.recall
  exact (NoNewM.foldl (fun s c => (recallOne_l1 s sec drop c).1) _ s).trans (.modEntry _ _ _ _)

/-- No holder of a sector is left in M where every one is called back. -/
theorem mem_holders {s : State} {c sec : Nat} {x : L1Sec} (hx : s.l1 c sec = some x) (hm : x.st = .m) : c ∈ s.holders (s.partOf c) sec := by
  rw [State.l1, State.core] at hx
  cases hy : alook c s.cores with
  | none =>
    rw [hy] at hx
    cases hx
  | some y =>
    rw [hy] at hx
    refine List.mem_map.2 ⟨(c, y), List.mem_filter.2 ⟨mem_of_alook hy, ?_⟩, rfl⟩
    rw [show alook sec y.l1 = some x from hx]
    simp [hm]

/-- No holder of a sector is left in M where every one is called back. -/
theorem recall_noM (s : State) (sec : Nat) (drop : Bool) (c : Nat) (x : L1Sec) (hx : (s.recall (s.partOf c) sec drop none).l1 c sec = some x) :
    x.st ≠ .m := by
  intro hm
  obtain ⟨x0, hx0, hm0⟩ := NoNewM.modEntry _ _ _ _ _ _ _ hx hm
  obtain ⟨x1, hx1, hm1⟩ := NoNewM.foldl (fun s c => (recallOne_l1 s sec drop c).1) _ _ _ _ _ hx0 hm0
  refine recallOne_foldl_noM sec drop _ s (List.mem_filter.2 ⟨mem_holders hx1 hm1, ?_⟩) hx0 hm0
  simp

theorem NoNewM.leaveCoarse (s : State) (p line : Nat) : NoNewM s (s.leaveCoarse p line) := by
  unfold State.leaveCoarse
  split
  · exact (NoNewM.foldl (fun s i => .recall s p (line * 4 + i) true none) _ s).trans (.modEntry _ _ _ _)
  · exact .of_cores rfl

theorem NoNewM.clearTu (s : State) (p sec : Nat) : NoNewM s (s.clearTu p sec) := by
  unfold State.clearTu
  split
  · exact .of_cores (State.modPart_cores ..)
  · exact .of_cores rfl

theorem NoNewM.replaceLine (s : State) (p line : Nat) : NoNewM s (s.replaceLine p line) := by
  unfold State.replaceLine
  split
  · exact .of_cores rfl
  · split
    · exact .of_cores rfl
    · extract_lets e s1 s2 gone s3
      have h1 : NoNewM s s1 := (NoNewM.leaveCoarse s p line).trans (.foldl (fun s i => .recall s p (4 * line + i) true none) _ _)
      have h2 : NoNewM s s2 := h1.trans (.clearTu _ _ _)
      have h3 : NoNewM s s3 := h2.trans (.of_cores (State.push_cores ..))
      exact h3.trans (.modEntry _ _ _ _)

theorem NoNewM.fill (s : State) (p line : Nat) : NoNewM s (s.fill p line) := by
  unfold State.fill
  split
  · exact .of_cores rfl
  · unfold State.takeWay
    split
    · exact .of_cores rfl
    · dsimp only
      split
      · exact .modEntry s _ _ _
      · split
        · exact .of_cores rfl
        · refine .trans ?_ (.modEntry _ _ _ _)
          exact .trans (.of_cores rfl) (.replaceLine { s with fresh := s.fresh + 1 } p _)

theorem NoNewM.homeRead (s : State) (p sec : Nat) : NoNewM s (s.homeRead p sec) := by
  unfold State.homeRead
  dsimp only
  split
  · exact .fill s p _
  · exact (NoNewM.fill s p _).trans (.recall _ p sec false none)

theorem find?_map_lasting (l : List (Nat × Part)) (n : Nat) :
    ((l.map fun e => (e.1, e.2.lasting)).find? fun e => e.2.tracts.contains n).map (·.1) = (l.find? fun e => e.2.tracts.contains n).map (·.1) := by
  rw [List.find?_map, Option.map_map]
  rfl

theorem partOf_eq_find? (s : State) (c : Nat) :
    s.partOf c = (((s.parts.map fun e => (e.1, e.2.lasting)).find? fun e => e.2.tracts.contains (tractOf c)).map (·.1)).getD 0 := by
  rw [find?_map_lasting, State.partOf]
  cases s.parts.find? fun e => e.2.tracts.contains (tractOf c) <;> rfl

theorem State.HomeKept.partOf {s s' : State} (h : s.HomeKept s') (c : Nat) : s'.partOf c = s.partOf c := by
  rw [partOf_eq_find?, partOf_eq_find?]
  exact congrArg (fun l : List (Nat × Part) => ((l.find? fun e => e.2.tracts.contains (tractOf c)).map (·.1)).getD 0) (congrArg State.parts h.rest :)

theorem homeRead_noM (s : State) (sec c : Nat) {x : L1Sec} (hx : (s.homeRead (s.partOf c) sec).l1 c sec = some x) : x.st ≠ .m := by
  intro hm
  have hp : (s.fill (s.partOf c) (sec / 4)).partOf c = s.partOf c := (State.HomeKept.fill s _ _).partOf c
  rw [State.homeRead] at hx
  split at hx
  · next he =>
    have hin := mem_holders hx hm
    rw [hp, List.isEmpty_iff.1 he] at hin
    cases hin
  · exact recall_noM (s.fill (s.partOf c) (sec / 4)) sec false c x (by rw [hp]; exact hx) hm

/-- After a read at every home that tracks a sector for the host, no core of those partitions has it in M. -/
theorem forHost_homeRead_noM (sec : Nat) (l : List (Nat × Part)) (s : State) (e : Nat × Part) (he : e ∈ l) (hs : e.2.sys = true)
    (hh : (alook sec e.2.hostSecs).isSome) (c : Nat) (x : L1Sec) (hc : s.partOf c = e.1)
    (hx : (l.foldl (fun s e => if e.2.sys && (alook sec e.2.hostSecs).isSome then s.homeRead e.1 sec else s) s).l1 c sec = some x) : x.st ≠ .m := by
  have hstep : ∀ (s : State) (e : Nat × Part), s.HomeKept (if e.2.sys && (alook sec e.2.hostSecs).isSome then s.homeRead e.1 sec else s) :=
    fun s e => .ite (.homeRead s _ _) (.refl s)
  have hnew : ∀ (s : State) (e : Nat × Part), NoNewM s (if e.2.sys && (alook sec e.2.hostSecs).isSome then s.homeRead e.1 sec else s) := fun s e => by
    split
    · exact .homeRead s _ _
    · exact .of_cores rfl
  induction l generalizing s with
  | nil => cases he
  | cons a l ih =>
    rcases List.mem_cons.1 he with rfl | he
    · intro hm
      obtain ⟨x0, hx0, hm0⟩ := NoNewM.foldl hnew l _ _ _ _ hx hm
      dsimp only at hx0
      rw [hs, hh, ← hc] at hx0
      exact homeRead_noM s sec c hx0 hm0
    · exact ih _ he (by rw [(hstep s a).partOf, hc]) hx

/-! ### Snoops -/

theorem snoops (s : State) (pa sec : Nat) (d : V512) (hsec : sec = pa / 64) (hfree : s.hostHeld sec = false) :
    (∃ s', exec (.snpData ⟨pa⟩) s = .next s' ∧ ∀ e ∈ s.parts, e.2.sys = true → (alook sec e.2.hostSecs).isSome →
      (s'.part? e.1).bind (fun q => alook sec q.hostSecs) = some false) ∧
    (∃ s', exec (.snpCur ⟨pa⟩) s = .next s' ∧ ∀ e ∈ s.parts, e.2.sys = true → (alook sec e.2.hostSecs).isSome →
      ∀ c x, s.partOf c = e.1 → s'.l1 c sec = some x → x.st ≠ .m) ∧
    (∃ s' m, exec (.snpInv ⟨pa, d⟩) s = .next s' ∧ s'.mem = memWrite m (64 * sec) (sectorBytes d) ∧
      ∀ e ∈ s.parts, e.2.sys = true → (alook sec e.2.hostSecs).isSome → (s'.part? e.1).bind (fun q => alook sec q.hostSecs) = none) := by
  subst hsec
  have hno : ¬s.hostHeld (pa / 64) = true := by rw [hfree]; decide
  let inv : Nat → State → State := fun p s =>
    let s := ((s.beforeWrite p (pa / 64) none).recall p (pa / 64) true none).markSector p (pa / 64)
    let s := s.setHostSec p (pa / 64) none
    if (s.entry p (pa / 64 / 4)).watched (pa / 64 % 4) then s.push [.rdSharedReread ⟨pa, d⟩] else s
  have hinv : ∀ p s, HostSet (pa / 64) p none s (inv p s) := fun p s => by
    have hbefore := ((State.HomeKept.beforeWrite s p (pa / 64) none).trans (.recall _ p (pa / 64) true none)).trans (.markSector _ p (pa / 64))
    exact (HostSet.after hbefore (.setHostSec _ p none _)).before (.ite (.push _ _) (.refl _))
  refine ⟨⟨_, (rfl : _ = execSnpData ⟨pa⟩ s).trans (if_neg hno), fun e he hs hh => ?_⟩, ⟨_, (rfl : _ = execSnpCur ⟨pa⟩ s).trans (if_neg hno), ?_⟩,
    ⟨_, (s.forHost (pa / 64) inv).mem, (rfl : _ = execSnpInv ⟨pa, d⟩ s).trans (if_neg hno), rfl,
      fun e he hs hh => hostSec?_forHost hinv s e he hs hh⟩⟩
  · exact hostSec?_forHost (fun p s => HostSet.after (.homeRead s p _) (.setHostSec _ p (some false) _)) s e he hs hh
  · intro e he hs hh c x hc hx
    exact forHost_homeRead_noM _ s.parts s e he hs hh c x hc hx

theorem execRdSharedReread_sets (s : State) (pa sec : Nat) (d : V512) (hsec : sec = pa / 64) :
    ∃ s', exec (.rdSharedReread ⟨pa, d⟩) s = .next s' ∧ s'.mem = memWrite s.mem (64 * sec) (sectorBytes d) ∧
      ∀ e ∈ s.parts, e.2.sys = true → (e.2.entry (sec / 4)).watched (sec % 4) = true →
        (s'.part? e.1).bind (fun q => alook sec q.hostSecs) = some false := by
  subst hsec
  let f : Nat → State → State := fun p s => (s.setHostSec p (pa / 64) (some false)).sendWakes p (pa / 64 / 4) (1#4 <<< (pa / 64 % 4))
  let s1 : State := { s with mem := memWrite s.mem (64 * (pa / 64)) (sectorBytes d) }
  refine ⟨_, rfl, ?_, fun e he hs hw => ?_⟩
  · refine foldl_keeps State.mem _ s.parts (fun s e _ => ?_) s1
    dsimp only
    split
    · exact (sendWakes_mem ..).trans (State.modPart_mem ..)
    · rfl
  · exact hostSec?_foldl (fun e => e.2.sys && (e.2.entry (pa / 64 / 4)).watched (pa / 64 % 4)) f
      (fun p s => (HostSet.setHostSec (pa / 64) p (some false) s).before (.sendWakes _ p _ _)) s.parts s1 e.1 (part?_of_mem he)
      (.inl ⟨e, he, by rw [hs, hw]; rfl, rfl⟩)

/-! ### The host's answers -/

theorem execCxlCacheResponse_evict (s : State) (pa sec : Nat) (d : V512) (hsec : sec = pa / 64) (r : CxlReq) (hr : r = .dirtyEvict ∨ r = .cleanEvict) :
    ∃ s', exec (.cxlCacheResponse ⟨pa, r, d⟩) s = .next s' ∧ s'.mem = s.mem ∧
      ∀ e ∈ s.parts, (s'.part? e.1).bind (fun q => alook sec q.hostSecs) = none := by
  subst hsec
  have hrun : exec (.cxlCacheResponse ⟨pa, r, d⟩) s = .next (s.parts.foldl (fun s e => s.setHostSec e.1 (pa / 64) none) s) := by
    rcases hr with rfl | rfl <;> rfl
  refine ⟨_, hrun, foldl_keeps State.mem _ s.parts (fun s e _ => State.modPart_mem ..) s, fun e he => ?_⟩
  exact hostSec?_foldl (fun _ => true) (fun p s => s.setHostSec p (pa / 64) none) (fun p s => .setHostSec _ p none s) s.parts s e.1 (part?_of_mem he)
    (.inl ⟨e, he, rfl, rfl⟩)

/-- A GETS that a home with the line serves where the host's sector is tracked: it is granted. -/
theorem serve_gets_tracked {s : State} {p sec c pa : Nat} (hu : s.homeSec p sec = { s.homeSec p sec with st := .u, txn := none, prep := none })
    (hlad : s.lading? p (64 * sec) = none) {b : Bool} (hgot : s.hostSec? p sec = some b) (hc : (s.entry p (sec / 4)).coarse = false)
    (hl : (s.entry p (sec / 4)).ptrs.length ≤ 3) (hin : (s.entry p (sec / 4)).inL2 = true) :
    ∃ g, (∀ i, g ≠ .l i) ∧ s.serve p sec (.gets ⟨c, pa, none⟩) = s.sendData p sec c g := by
  have hst : ((s.entry p (sec / 4)).sec (sec % 4)).st = .u := by rw [← State.homeSec, hu]
  have htx : (s.homeSec p sec).txn = none := by rw [hu]
  have hpr : (s.homeSec p sec).prep = none := by rw [hu]
  have hem : (s.entry p (sec / 4)).emptying (sec % 4) = false := by rw [DirEntry.emptying, hc]; rfl
  have hgot' : ((s.part? p).bind fun q => alook sec q.hostSecs) = some b := hgot
  refine ⟨if (s.entry p (sec / 4)).watched (sec % 4) || (s.entry p (sec / 4)).coarse || (s.portHolds p sec).isSome then .s else .e,
    ?_, ?_⟩
  · intro i h
    split at h <;> cases h
  rw [State.serve]
  simp only [htx, hpr, hlad, hem, hgot', hin, isWrt, reqGrant, fifth_of_ptrs hl, Option.isSome_none, Bool.false_eq_true, if_false, Option.filter_none,
    Bool.and_false, Bool.false_and, Bool.or_self, Option.any_some, Bool.not_true]
  rw [State.serveHit]
  simp only [hst]

theorem execCxlCacheResponse_rdShared {s : State} {pa sec : Nat} {d : V512} (hsec : sec = pa / 64) {p : Nat} {q : Part} {c no : Nat}
    (hs : s.parts = [(p, q)]) (hst : (s.homeSec p sec).st = .uf) (ht : (s.homeSec p sec).txn = some ⟨.gets ⟨c, pa, none⟩, no, [], [], false⟩)
    (hprep : (s.homeSec p sec).prep = none) (hq : (s.homeSec p sec).queue = []) (hlad : s.lading? p (64 * sec) = none)
    (hin : (s.entry p (sec / 4)).inL2 = true) (hc : (s.entry p (sec / 4)).coarse = false) (hl : (s.entry p (sec / 4)).ptrs.length ≤ 3) :
    ∃ s' v g, exec (.cxlCacheResponse ⟨pa, .rdShared, d⟩) s = .next s' ∧ s'.agenda = s.agenda ++ [.data ⟨c, 64 * sec, v, g⟩] ∧
      (s'.part? p).bind (fun q => alook sec q.hostSecs) = some false := by
  subst hsec
  let f : HomeSec → HomeSec := fun h => { h with st := .u, txn := none }
  let s1 : State := { s with mem := memWrite s.mem (64 * (pa / 64)) (sectorBytes d) }
  let s2 := s1.setHostSec p (pa / 64) (some false)
  let s3 := s2.modHome p (pa / 64) f
  have hp : s.part? p = some q := by simp [State.part?, hs, alook]
  have hq2 : s2.part? p = some { q with hostSecs := aset (pa / 64) false q.hostSecs } := by
    exact (State.part?_modPart ..).trans ((if_pos rfl).trans (congrArg (Option.map _) (show s1.part? p = some q from hp)))
  have hp2 : (s2.part? p).isSome := by rw [hq2]; rfl
  have he2 : s2.entry p (pa / 64 / 4) = s.entry p (pa / 64 / 4) := by simp [State.entry, hq2, hp, Part.entry]
  have hh2 : s2.homeSec p (pa / 64) = s.homeSec p (pa / 64) := by rw [State.homeSec, he2, State.homeSec]
  have hh3 : s3.homeSec p (pa / 64) = f (s.homeSec p (pa / 64)) := by rw [homeSec_modHome hp2, hh2]
  have he3 : s3.entry p (pa / 64 / 4) = (s.entry p (pa / 64 / 4)).setSec (pa / 64 % 4) (f (s.homeSec p (pa / 64))) := by
    rw [entry_modHome hp2, he2, hh2]
  have hp3 : (s3.part? p).isSome := (part?_modHome_isSome ..).trans hp2
  have hhome : s2.HomeKept s3 := .modEntry _ _ _ _
  have hgot : s3.hostSec? p (pa / 64) = some false :=
    (hhome.hostSec? p _).trans ((HostSet.setHostSec (pa / 64) p (some false) s1).self (by rw [show s1.part? p = some q from hp]; rfl))
  have hlad3 : s3.lading? p (64 * (pa / 64)) = none := by
    rw [← hlad]
    simp [s3, State.lading?, State.modHome, State.modEntry, State.part?_modPart, hq2, hp]
  obtain ⟨g, hg, hserve⟩ := serve_gets_tracked (c := c) (pa := pa) (by rw [hh3, ← hprep]) hlad3 hgot (by rw [he3]; exact hc) (by rw [he3]; exact hl)
    (by rw [he3]; exact hin)
  have hgr := sendData_granted (c := c) hp3 hg (by rw [he3]; exact hc) (by rw [he3]; exact hl)
  have hrun : exec (.cxlCacheResponse ⟨pa, .rdShared, d⟩) s = .next (s3.sendData p (pa / 64) c g) := by
    refine (rfl : _ = execCxlCacheResponse ⟨pa, .rdShared, d⟩ s).trans ?_
    rw [execCxlCacheResponse, hs, List.foldl_cons, List.foldl_nil]
    dsimp only
    rw [hst, ht]
    exact congrArg (fun s => (.next s : Out)) ((congrArg (·.nextReq p (pa / 64)) hserve).trans (nextReq_granted hgr (by rw [hh3]; exact hq)))
  refine ⟨_, memSector s3.mem (64 * (pa / 64)), g, hrun, ?_, ?_⟩
  · rw [hgr.agenda]
    exact congrArg (· ++ _) ((modHome_agenda ..).trans (State.modPart_agenda ..))
  · rw [sendData_eq hg (by rw [he3]; exact hc) (by rw [he3]; exact hl)]
    exact (((State.HomeKept.modEntry s3 p _ _).trans (.push _ _)).hostSec? p _).trans hgot

/-! ### The host's accesses to device memory -/

theorem execMemWr_of_decodes {s : State} {p pa : Nat} {q : Part} (hpa : s.partOfPa pa = some p) (hq : s.part? p = some q) (hd : q.decodes pa = true)
    (hlad : s.lading? p pa = none) (d : V512) (m : BitVec 64) :
    exec (.memWr ⟨pa, d, m⟩) s = if q.frozen || !s.homeFree p (pa / 64) || ((s.entry p (pa / 64 / 4)).tu && s.tuHeld (pa / 64 / 4) none) then
      .next { s with later := s.later ++ [.memWr ⟨pa, d, m⟩] } else .next (s.homeWrite p (pa / 64) none d m none) := by
  have hf : ((s.partOfPa pa).filter fun p => (s.part? p).any fun q => q.decodes pa) = some p := by simp [hpa, hq, hd]
  refine (rfl : _ = execMemWr ⟨pa, d, m⟩ s).trans ?_
  simp only [execMemWr, hf, hlad, hq, Option.filter_none, Option.isSome_none, Bool.or_false, Option.elim_some, Option.elim_none]

theorem execHostMemRd_of_decodes {s : State} {p pa : Nat} {q : Part} (hq : s.part? p = some q) (hd : q.decodes pa = true) (hf : q.frozen = false)
    (hfree : s.homeFree p (pa / 64) = true) (hlad : s.lading? p pa = none) :
    exec (.hostMemRd ⟨p, pa⟩) s = .next ((s.homeRead p (pa / 64)).modEntry p (pa / 256) fun e => { e with host := true }) := by
  refine (rfl : _ = execHostMemRd ⟨p, pa⟩ s).trans ?_
  simp only [execHostMemRd, hq, hd, hf, hfree, hlad, Option.filter_none, Option.isSome_none, Bool.or_false, Bool.not_true, Bool.false_eq_true,
    if_false]

theorem homeRead_inL2 {s : State} {p sec : Nat} (hin : (s.entry p (sec / 4)).inL2 = true) : (s.homeRead p sec).agenda = s.agenda := by
  rw [State.homeRead, State.fill, hin, if_pos rfl]
  split
  · rfl
  · exact (recall_keeps ..).1

/-- The host has given its copy up: the data goes into the L2, and the GETX that waited is granted. -/
theorem execBiSnpInvResponse_getx {s : State} {p pa sec : Nat} {q : Part} {d : V512} (hpa : s.partOfPa pa = some p) (hq : s.part? p = some q)
    (hsec : sec = pa / 64) {c no : Nat} (hqu : (s.homeSec p sec).queue = []) (hl : (s.entry p (sec / 4)).ptrs.length ≤ 3)
    (ht : (s.homeSec p sec).txn = some ⟨.getx ⟨c, pa, none⟩, no, [], [], true⟩) :
    ∃ s' v, exec (.biSnpInvResponse ⟨pa, some d⟩) s = .next s' ∧ s'.mem = memWrite s.mem (64 * sec) (sectorBytes d) ∧
      .data ⟨c, 64 * sec, v, if (s.entry p (sec / 4)).watched (sec % 4) then .sw else .m⟩ ∈ s'.agenda ∧ (s'.homeSec p sec).txn = none := by
  subst hsec
  have hp : (s.part? p).isSome := by rw [hq]; rfl
  let f : HomeSec → HomeSec := fun h => { h with txn := h.txn.map fun t => { t with host := false } }
  let s1 := s.putL2 p (pa / 64) d
  let s2 := s1.modHome p (pa / 64) f
  have hp1 : (s1.part? p).isSome := (part?_modEntry_isSome ..).trans hp
  have hp2 : (s2.part? p).isSome := (part?_modHome_isSome ..).trans hp1
  obtain ⟨hh1, -, hpt1, hm1, ha1⟩ := homeSec_putL2 hp (pa / 64) d
  have hh2 : s2.homeSec p (pa / 64) = f (s.homeSec p (pa / 64)) := by rw [homeSec_modHome hp1, hh1]
  have he2 : s2.entry p (pa / 64 / 4) = (s1.entry p (pa / 64 / 4)).setSec (pa / 64 % 4) (f (s1.homeSec p (pa / 64))) := entry_modHome hp1 _ f
  have hw1 : (s1.entry p (pa / 64 / 4)).watchers = (s.entry p (pa / 64 / 4)).watchers := by
    have he1 : s1.entry p (pa / 64 / 4) = { s.entry p (pa / 64 / 4) with dirty := (s.entry p (pa / 64 / 4)).dirty ||| (1#4 <<< (pa / 64 % 4)) } :=
      entry_modEntry (s := { s with mem := memWrite s.mem (64 * (pa / 64)) (sectorBytes d) }) hp _ _
    rw [he1]
  obtain ⟨v, h1, h2, h3⟩ := checkSi_getx (c := c) (pa := pa) (no := no) hp2 (by rw [hh2]; exact hqu) (by rw [he2]; exact hpt1 ▸ hl) (by rw [hh2]; simp [f, ht])
  refine ⟨_, v, ?_, h3.trans ((modHome_mem ..).trans hm1), ?_, h1⟩
  · refine (rfl : _ = execBiSnpInvResponse ⟨pa, some d⟩ s).trans ?_
    simp only [execBiSnpInvResponse, hpa, ht, Option.any_some, if_true]
    rfl
  · rw [h2]
    refine List.mem_append_right _ (List.mem_singleton.2 ?_)
    rw [DirEntry.watched, DirEntry.watched, he2, ← hw1]
    rfl

/-- Settles O29: what a snoop sets at each home that tracks the sector, no M left by a read at the homes,
  and the host's accesses by the home's steps. -/
theorem hostCoherence : Obligations.HostCoherence := by
  refine ⟨fun s pa sec d hsec => ⟨fun hh => ?_, fun hf => (snoops s pa sec d hsec hf).1, fun hf => (snoops s pa sec d hsec hf).2.1,
    fun hf => (snoops s pa sec d hsec hf).2.2, execRdSharedReread_sets s pa sec d hsec, fun r hr => execCxlCacheResponse_evict s pa sec d hsec r hr,
    fun p q c no hs hst ht hprep hq hlad hin hc hl => execCxlCacheResponse_rdShared hsec hs hst ht hprep hq hlad hin hc hl⟩,
    fun s p pa sec q d m hpa hq hsec => ⟨fun hd => ?_, fun hd hf hfree hlad => ⟨fun htu => ?_, fun hin => ?_⟩, fun hd hlad hno => ?_,
      fun c no hqu hl ht => execBiSnpInvResponse_getx hpa hq hsec hqu hl ht⟩⟩
  · subst hsec
    exact ⟨(rfl : _ = execSnpData ⟨pa⟩ s).trans (if_pos hh), (rfl : _ = execSnpCur ⟨pa⟩ s).trans (if_pos hh),
      (rfl : _ = execSnpInv ⟨pa, d⟩ s).trans (if_pos hh)⟩
  · refine ⟨(rfl : _ = execMemWr ⟨pa, d, m⟩ s).trans ?_, (rfl : _ = execHostMemRd ⟨p, pa⟩ s).trans ?_⟩
    · have hno : ((s.partOfPa pa).filter fun p => (s.part? p).any fun q => q.decodes pa) = none := by simp [hpa, hq, hd]
      rw [execMemWr, hno]
    · rw [execHostMemRd, hq]
      exact if_pos (by rw [hd]; rfl)
  · subst hsec
    rw [execMemWr_of_decodes hpa hq hd hlad, hf, hfree, htu]
    rfl
  · subst hsec
    refine ⟨_, execHostMemRd_of_decodes hq hd hf hfree hlad, ?_, (modEntry_agenda ..).trans (homeRead_inL2 hin)⟩
    rw [entry_modEntry ((State.HomeKept.homeRead s p (pa / 64)).part?_isSome p |>.trans (by rw [hq]; rfl))]
  · subst hsec
    rw [execMemWr_of_decodes hpa hq hd hlad]
    refine if_pos ?_
    rcases hno with h | h <;> simp [h]

end Sys2Proof.Machine
end

/-! ## What the stop and the end of a thread leave unchanged -/
section
namespace Sys2Proof.Machine
open Sys2Proof.Claims

/-- A region without its state, its counts and what a switch under way has collected. -/
def Region.standing (r : Region) : Region :=
  { r.lasting with rstate := .live, rlive := 0, disc := 0, switch := r.switch.map fun w => { w with saved := [], stopped := [] } }

/-- A partition without its spilled threads and its ladings. -/
def Part.standing (q : Part) : Part := { q.lasting with ladings := [], spilled := [] }

/-- A core without its posts, the marks of spilled threads and what waits at its scratchpad. -/
def Core.standing (y : Core) : Core := { y.lasting with posts := [], spilledMap := [], shrink := none, prepped := [] }

/-- The state without what the stop or the end of a thread changes. Partitions, regions and cores are spoken of one by one. -/
def State.standing (s : State) : State := { s.lasting with parts := [], regions := [] }

/-- What the stop, the drop or the end of threads leaves. -/
structure State.StopKept (s s' : State) : Prop where
  rest : s'.standing = s.standing
  parts : ∀ p, (s'.part? p).map Part.standing = (s.part? p).map Part.standing
  regions : ∀ r, (s'.region? r).map Region.standing = (s.region? r).map Region.standing
  cores : ∀ c, (s'.core c).standing = (s.core c).standing
  mem : s.mem.wf = true → s'.mem.wf = true

theorem State.StopKept.refl (s : State) : s.StopKept s := ⟨rfl, fun _ => rfl, fun _ => rfl, fun _ => rfl, id⟩

theorem State.StopKept.trans {s s1 s2 : State} (h : s.StopKept s1) (h' : s1.StopKept s2) : s.StopKept s2 :=
  ⟨h'.rest.trans h.rest, fun p => (h'.parts p).trans (h.parts p), fun r => (h'.regions r).trans (h.regions r),
    fun c => (h'.cores c).trans (h.cores c), fun hm => h'.mem (h.mem hm)⟩

theorem State.StopKept.ite {s s1 s2 : State} {p : Prop} [Decidable p] (h1 : s.StopKept s1) (h2 : s.StopKept s2) :
    s.StopKept (if p then s1 else s2) := by
  split
  · exact h1
  · exact h2

theorem State.StopKept.foldl {α : Type} (f : State → α → State) (l : List α) (h : ∀ (s : State), ∀ a ∈ l, s.StopKept (f s a)) (s : State) :
    s.StopKept (l.foldl f s) := by
  induction l generalizing s with
  | nil => exact .refl s
  | cons a l ih => exact (h s a (.head _)).trans (ih (fun s b hb => h s b (.tail _ hb)) _)

theorem Option.map_comp_congr {α β γ : Type} {f : α → β} {g : α → γ} {k : β → γ} (hk : ∀ a, g a = k (f a)) {x y : Option α} (h : x.map f = y.map f) :
    x.map g = y.map g := by
  rw [show g = k ∘ f from funext hk, ← Option.map_map, h, Option.map_map]

theorem State.HomeKept.stop {s s' : State} (h : s.HomeKept s') : s.StopKept s' where
  rest := congrArg (fun x : State => { x with parts := [], regions := [] }) h.rest
  parts p := Option.map_comp_congr (k := fun q => { q with ladings := [], spilled := [] }) (fun _ => rfl) (h.part? p)
  regions r := Option.map_comp_congr
    (k := fun r => { r with rstate := .live, rlive := 0, disc := 0, switch := r.switch.map fun w => { w with stopped := [] } })
    (fun r => by cases hs : r.switch <;> simp [Region.standing, Region.lasting, hs]) (h.region? r)
  cores c := congrArg (fun y : Core => { y with posts := [], spilledMap := [], shrink := none, prepped := [] }) (h.cores c)
  mem := h.mem

theorem State.OpKept.stop {s s' : State} (h : s.OpKept s') : s.StopKept s' where
  rest := congrArg (fun x : State => { x.lasting with parts := [], regions := [] }) h.rest
  parts p := Option.map_comp_congr (k := fun q => { q.lasting with ladings := [], spilled := [] }) (fun _ => rfl) (h.parts p)
  regions r := by rw [State.region?, State.region?, h.regions]
  cores c := congrArg (fun y : Core => { y.lasting with posts := [], spilledMap := [], shrink := none, prepped := [] }) (h.cores c)
  mem := fun hm => by rw [h.mem]; exact hm

/-! ### Single changes -/

theorem State.StopKept.modPart (s : State) (p : Nat) (f : Part → Part) (h : ∀ q, (f q).standing = q.standing) : s.StopKept (s.modPart p f) where
  rest := by unfold State.modPart; split <;> rfl
  parts p' := by
    rw [State.part?_modPart]
    split
    · next e => subst e; cases s.part? p <;> simp [h]
    · rfl
  regions r := by unfold State.modPart; split <;> rfl
  cores c := by unfold State.modPart; split <;> rfl
  mem hm := by rw [State.modPart_mem]; exact hm

theorem State.StopKept.modRegion (s : State) (g : Nat) (f : Region → Region) (h : ∀ r, (f r).standing = r.standing) :
    s.StopKept (s.modRegion g f) where
  rest := by unfold State.modRegion; split <;> rfl
  parts p := by unfold State.modRegion; split <;> rfl
  regions g' := by
    rw [State.region?_modRegion]
    split
    · next e => subst e; cases s.region? g <;> simp [h]
    · rfl
  cores c := by unfold State.modRegion; split <;> rfl
  mem hm := by rw [State.modRegion_mem]; exact hm

theorem State.StopKept.modCore (s : State) (c : Nat) (f : Core → Core) (h : ∀ y, (f y).standing = y.standing) : s.StopKept (s.modCore c f) where
  rest := rfl
  parts _ := rfl
  regions _ := rfl
  cores c' := by
    rw [State.core_modCore]
    split
    · next e => subst e; exact h _
    · rfl
  mem := id

theorem State.core_mapCores_at (s : State) (f : Nat → Core → Core) (hf : ∀ c, f c .reset = .reset) (c : Nat) :
    ({ s with cores := s.cores.map fun e => (e.1, f e.1 e.2) } : State).core c = f c (s.core c) := by
  simp only [State.core]
  induction s.cores with
  | nil => exact (hf c).symm
  | cons e l ih =>
    simp only [List.map_cons, alook]
    split
    · next h => subst h; rfl
    · exact ih

/-- A change of every core, by its number. -/
theorem State.StopKept.mapCores (s : State) (f : Nat → Core → Core) (hf : ∀ c, f c .reset = .reset) (h : ∀ c y, (f c y).standing = y.standing) :
    s.StopKept { s with cores := s.cores.map fun e => (e.1, f e.1 e.2) } where
  rest := rfl
  parts _ := rfl
  regions _ := rfl
  cores c := by rw [State.core_mapCores_at s f hf, h]
  mem := id

theorem State.StopKept.threads (s : State) (l : List ((Nat × Nat) × Thread)) : s.StopKept { s with threads := l } :=
  ⟨rfl, fun _ => rfl, fun _ => rfl, fun _ => rfl, id⟩

theorem State.StopKept.agenda (s : State) (l l' : List Event) : s.StopKept { s with agenda := l, later := l' } :=
  ⟨rfl, fun _ => rfl, fun _ => rfl, fun _ => rfl, id⟩

theorem State.StopKept.timer (s : State) (at_ : Nat) (e : Event) : s.StopKept (s.timer at_ e) :=
  ⟨rfl, fun _ => rfl, fun _ => rfl, fun _ => rfl, id⟩

theorem State.StopKept.setThread (s : State) (c k : Nat) (t : Thread) : s.StopKept (s.setThread c k t) := .threads s _

theorem State.StopKept.delThread (s : State) (c k : Nat) : s.StopKept (s.delThread c k) := .threads s _

theorem State.StopKept.modThread (s : State) (c k : Nat) (f : Thread → Thread) : s.StopKept (s.modThread c k f) :=
  (State.OpKept.modThread s c k f).stop

theorem State.StopKept.finishOp (s : State) (c k id : Nat) : s.StopKept (s.finishOp c k id) := (State.OpKept.finishOp s c k id).stop

theorem State.StopKept.tryFree (s : State) (c k : Nat) : s.StopKept (s.tryFree c k) := (State.OpKept.tryFree s c k).stop

theorem State.StopKept.modLading (s : State) (p i : Nat) (f : Lading → Lading) : s.StopKept (s.modLading p i f) := .modPart s p _ fun _ => rfl

theorem State.StopKept.modSwitch (s : State) (g : Nat) (f : Switch → Switch)
    (h : ∀ w, ({ f w with saved := [], stopped := [] } : Switch) = { w with saved := [], stopped := [] }) : s.StopKept (s.modSwitch g f) :=
  .modRegion s g _ fun r => by
    cases hs : r.switch with
    | none => simp [Region.standing, Region.lasting, hs]
    | some w => simpa [Region.standing, Region.lasting, hs] using h w

theorem State.StopKept.homeWriteBytes (s : State) (p pa : Nat) (bs : List Byte) (w : Option (Nat × Key)) :
    s.StopKept (s.homeWriteBytes p pa bs w) := (State.HomeKept.homeWriteBytes s p pa bs w).stop

theorem State.StopKept.devWrite (s : State) (core region : Nat) (va : Word) (bs : List Byte) (noSh : Bool) :
    s.StopKept (s.devWrite core region va bs noSh).2 := (State.HomeKept.devWrite s core region va bs noSh).stop

theorem State.StopKept.appendRec (s : State) (core region : Nat) (fields : List (Nat × Nat × Nat)) (cont : List Nat) (key : Option MergeKey)
    (wait : Option (Nat × Nat)) : s.StopKept (s.appendRec core region fields cont key wait).2 :=
  (State.HomeKept.appendRec s core region fields cont key wait).stop

theorem State.StopKept.dropShrink (s : State) (c k : Nat) : s.StopKept (s.dropShrink c k) := .ite (.modCore s c _ fun _ => rfl) (.refl s)

/-! ### The end of a thread (R303, R314) -/

theorem State.StopKept.markRevoked (s : State) (p core : Nat) (tid : BitVec 32) (g : StaleGrant) : s.StopKept (s.markRevoked p core tid g) := by
  unfold State.markRevoked
  exact (State.StopKept.threads s _).trans (.modPart _ p _ fun _ => rfl)

theorem State.StopKept.ladNext (s : State) (p i : Nat) : s.StopKept (s.ladNext p i) := (State.StopKept.modLading s p i _).trans (.agenda _ _ _)

theorem State.StopKept.delL1s (s : State) (c : Nat) (xs : List (Nat × L1Sec)) : s.StopKept (xs.foldl (fun s e => s.delL1 c e.1) s) :=
  .foldl _ _ (fun s e _ => (State.HomeKept.delL1 s c e.1).stop) s

theorem State.StopKept.discard (s : State) (p i : Nat) (mark : Bool) : s.StopKept (s.discard p i mark) := by
  unfold State.discard
  split
  · exact .refl s
  · extract_lets xs dirty s1 s2 g s3
    have h1 : s.StopKept s1 := .delL1s s _ _
    have h2 : s.StopKept s2 := h1.trans (.modLading s1 p i _)
    have h3 : s.StopKept s3 := .ite (h2.trans (.markRevoked _ _ _ _ _)) h2
    exact h3.trans (.ladNext s3 p i)

theorem State.StopKept.release (s : State) (p i : Nat) : s.StopKept (s.release p i) := by
  unfold State.release
  split
  · exact .refl s
  · refine .trans ?_ (.ladNext _ p i)
    refine .trans ((State.StopKept.modLading s p i _).trans (.delL1s _ _ _)) (.foldl _ _ (fun s e _ => ?_) _)
    exact .ite (.refl s) (State.HomeKept.homeWrite s p _ none _ _ none).stop

theorem State.StopKept.endGrants (s : State) (c k : Nat) (kill : Bool) : s.StopKept (s.endGrants c k kill) := by
  unfold State.endGrants
  split
  · exact .refl s
  · refine .trans (.foldl _ _ (fun s i _ => .ite (.discard s _ i false) (.release s _ i)) s) (.foldl _ _ (fun s o _ => ?_) _)
    split
    · exact (State.StopKept.modLading s _ _ _).trans (.finishOp _ _ _ _)
    · split
      · exact .finishOp _ _ _ _
      · exact .refl s
    · exact .refl s

theorem State.StopKept.dropCopy (s : State) (x : Consign) : s.StopKept (s.dropCopy x) := by
  unfold State.dropCopy
  split
  · exact (State.HomeKept.discardMsgs s _).stop
  · exact .refl s

theorem State.StopKept.discardCons (s : State) (c k : Nat) : s.StopKept (s.discardCons c k) := by
  unfold State.discardCons
  split
  · exact .refl s
  · split
    · exact .refl s
    · refine .trans (.trans ?_ (.dropCopy _ _)) (State.HomeKept.killTag _ _ _).stop
      refine .trans ?_ (.modThread _ c k _)
      exact (((State.HomeKept.freeEntry s c _ none).trans (.dropReaders _ c _)).trans (.leaveQueue _ _ c k false)).stop

theorem State.StopKept.syncRegion (s : State) (g : Nat) : s.StopKept (s.syncRegion g) := by
  unfold State.syncRegion
  split
  · exact .refl s
  · exact .homeWriteBytes s _ _ _ none

theorem State.StopKept.disarm (s : State) (p k idx : Nat) (r : Residency) : s.StopKept (s.disarm p k idx r) :=
  .foldl _ _ (fun s line _ => (State.HomeKept.modEntry s p line _).stop) s

theorem State.StopKept.clusters (s : State) (k : Nat) (f : Cluster → Cluster) : s.StopKept (s.modCluster k f) :=
  ⟨rfl, fun _ => rfl, fun _ => rfl, fun _ => rfl, id⟩

theorem State.StopKept.endLoader (s : State) (r : Residency) : s.StopKept (s.endLoader r) := by
  unfold State.endLoader
  split
  · exact .finishOp s _ _ _
  · exact .refl s

theorem State.StopKept.revokeRes (s : State) (k : Nat) (key : Bool × Nat) : s.StopKept (s.revokeRes k key) := by
  unfold State.revokeRes
  split
  · exact .refl s
  · exact ((State.StopKept.disarm s _ _ _ _).trans (.clusters _ k _)).trans (.endLoader _ _)

theorem State.StopKept.revokeRegion (s : State) (g : Nat) : s.StopKept (s.revokeRegion g) :=
  .foldl _ _ (fun s _ _ => .foldl _ _ (fun s _ _ => .ite (.revokeRes s _ _) (.refl s)) s) s

theorem State.StopKept.endRegion (s : State) (g : Nat) : s.StopKept (s.endRegion g) := by
  unfold State.endRegion
  split
  · exact .refl s
  · refine .ite (.refl s) ?_
    extract_lets s1 s2
    have h1 : s.StopKept s1 := .revokeRegion s g
    have h2 : s1.StopKept s2 := .mapCores s1 (fun _ y => { y with posts := y.posts.filter fun p => p.2.region ≠ g }) (fun _ => rfl) fun _ _ => rfl
    refine .trans ?_ (.syncRegion _ g)
    exact (h1.trans h2).trans (.modRegion s2 g _ fun _ => rfl)

theorem State.StopKept.releaseThread (s : State) (c k : Nat) : s.StopKept (s.releaseThread c k) := by
  unfold State.releaseThread
  split
  · exact .refl s
  · extract_lets t s1 s2
    have h2 : s.StopKept s2 := (State.StopKept.setThread s c k _).trans (.dropShrink s1 c k)
    refine .ite ?_ h2
    refine .trans (.trans ?_ (.syncRegion _ _)) (.endRegion _ _)
    exact h2.trans (.modRegion s2 _ _ fun _ => rfl)

theorem State.StopKept.dropStill (s : State) (c k : Nat) : s.StopKept (s.dropStill c k) := by
  unfold State.dropStill
  split
  · exact .refl s
  · exact .foldl _ _ (fun s i _ => .finishOp s c k i) s

theorem State.StopKept.killSlot (s : State) (c k : Nat) : s.StopKept (s.killSlot c k) := by
  have h := ((State.StopKept.endGrants s c k true).trans (.discardCons _ c k)).trans (.releaseThread _ c k)
  exact ((h.trans (.modThread _ c k _)).trans (.dropStill _ c k)).trans (.tryFree _ c k)

theorem State.StopKept.kill (s : State) (c k : Nat) : s.StopKept (s.kill c k) := by
  unfold State.kill
  split
  · exact (State.StopKept.killSlot s c k).trans (.killSlot _ _ _)
  · exact .killSlot s c k

theorem State.StopKept.inSpilled (s : State) (p : Nat) (key : Nat × Nat × Nat) (t : Thread) (f : Nat → Nat → State → State)
    (hf : ∀ c k (s : State), s.StopKept (f c k s)) : s.StopKept (s.inSpilled p key t f) := by
  have hin : s.StopKept (f key.1 key.2.1 ((s.modPart p fun q => { q with spilled := adel key q.spilled }).setThread key.1 key.2.1 t)) := by
    refine .trans (.trans ?_ (.setThread _ _ _ _)) (hf _ _ _)
    exact .modPart s p _ fun _ => rfl
  have hout : ∀ (s : State) (x : Option Thread), s.StopKept (match x with
      | some x => s.setThread key.1 key.2.1 x
      | none => s.delThread key.1 key.2.1) := fun s x => by
    cases x with
    | some x => exact .setThread s _ _ _
    | none => exact .delThread s _ _
  unfold State.inSpilled
  refine .trans ?_ (hout _ _)
  split
  · exact hin.trans (.modPart _ p _ fun _ => rfl)
  · exact hin.trans (.modCore _ _ _ fun _ => rfl)

theorem State.StopKept.killSpilled (s : State) (core slot gen : Nat) (t : Thread) : s.StopKept (s.killSpilled core slot gen t) :=
  .inSpilled s _ _ t _ fun c k s => .kill s c k

/-! ### The stop of a thread (R369, R370, R427) -/

theorem State.StopKept.withdraw (s : State) (c k : Nat) : s.StopKept (s.withdraw c k).2 := by
  unfold State.withdraw
  split
  · exact .refl s
  · exact .foldl _ _ (fun s e _ => (State.StopKept.modLading s _ _ _).trans (.finishOp _ _ _ _)) s

theorem State.StopKept.recordProgress (s : State) (c : Nat) (t : Thread) : s.StopKept (s.recordProgress c t) := by
  unfold State.recordProgress
  split
  · exact (State.HomeKept.modSide s _ _ _).stop
  · exact .refl s

theorem State.StopKept.saveContext (s : State) (c k : Nat) : s.StopKept (s.saveContext c k) := by
  unfold State.saveContext
  split
  · exact .refl s
  · next t _ =>
    have h := (State.HomeKept.memPut s (s.ctxPa c k) t.context).stop
    exact .ite (h.trans (.homeWriteBytes _ _ _ _ none)) h

theorem State.StopKept.halt (s : State) (c k : Nat) (i : TrapInfo) : s.StopKept (s.halt c k i) := by
  unfold State.halt
  split
  · exact .refl s
  · refine .trans (.trans ?_ (.devWrite _ _ _ _ _ _)) (.modThread _ c k _)
    refine .trans (.trans ?_ (.dropShrink _ c k)) (.saveContext _ c k)
    exact (State.StopKept.recordProgress s c _).trans (.setThread _ c k _)

theorem State.StopKept.parkRecs (s : State) (c k region : Nat) (tid : BitVec 32) (l : List (TrapInfo × (Nat × List Nat))) :
    s.StopKept (s.parkRecs c k region tid l) :=
  .foldl _ _ (fun s _ _ => .appendRec s c region _ _ _ _) s

theorem State.StopKept.stopThread (s : State) (c k detail : Nat) : s.StopKept (s.stopThread c k detail) := by
  unfold State.stopThread
  split
  · exact .refl s
  · refine .ite (.refl s) ?_
    exact (((State.StopKept.setThread s c k _).trans (.halt _ c k _)).trans (.parkRecs _ c k _ _ _)).trans (.modThread _ c k _)

theorem State.StopKept.saveView (s : State) (c k : Nat) (a : AReg) : s.StopKept (s.saveView c k a) := by
  unfold State.saveView
  split
  · exact .refl s
  · refine .trans (.trans ?_ (.modThread _ c k _)) (.homeWriteBytes _ _ _ _ none)
    exact .foldl _ _ (fun s i _ => .homeWriteBytes s _ _ _ none) s

theorem State.StopKept.dropTile (s : State) (c k : Nat) (a : AReg) : s.StopKept (s.dropTile c k a) := by
  unfold State.dropTile
  split
  · exact .refl s
  · dsimp only
    split
    · exact .ite (.saveView s c k a) (.modThread s c k _)
    · exact .refl s

theorem State.StopKept.loseView (s : State) (c k : Nat) (a : AReg) : s.StopKept (s.loseView c k a) := by
  unfold State.loseView
  split
  · exact .refl s
  · exact (State.StopKept.modThread s c k _).trans (.appendRec _ _ _ _ _ _ _)

theorem State.StopKept.saveViews (s : State) (c k : Nat) (vacate : Bool) : s.StopKept (s.saveViews c k vacate) := by
  refine .foldl _ _ (fun s i _ => ?_) s
  dsimp only
  split
  · exact .refl s
  · refine .ite (.refl s) (.ite (.ite (.dropTile s c k _) (.refl s)) ?_)
    exact .ite (.saveView s c k _) (.ite (.loseView s c k _) (.refl s))

theorem State.StopKept.switchOut (s : State) (c k detail : Nat) (vacate : Bool) : s.StopKept (s.switchOut c k detail vacate) :=
  (((State.StopKept.withdraw s c k).trans (.stopThread _ c k detail)).trans (.saveViews _ c k vacate)).trans (.modThread _ c k _)

theorem State.StopKept.unprep (s : State) (c k : Nat) (e : SectEntry) : s.StopKept (s.unprep c k e) := by
  unfold State.unprep
  split
  · exact (State.HomeKept.modEntry s _ _ _).stop
  · exact .refl s
  · exact .modCore s _ _ fun _ => rfl

theorem State.StopKept.dropActivation (s : State) (c k : Nat) (keep : Option InMsg) : s.StopKept (s.dropActivation c k keep) := by
  unfold State.dropActivation
  split
  · exact .refl s
  · next t _ =>
    have hdrop := (State.StopKept.delThread s c k).trans
      ((((State.HomeKept.freeEntry _ c t keep).trans (.dropReaders _ c t)).trans (.dropIntents _ t)).trans (.leaveQueue _ t.region c k keep.isSome)).stop
    exact .ite (hdrop.trans (.modRegion _ _ _ fun _ => rfl)) hdrop

theorem State.StopKept.dropBoth (s : State) (c k : Nat) (x : Consign) (keep : Option InMsg) : s.StopKept (s.dropBoth c k x keep) := by
  have h : s.StopKept ((((x.sects.foldl (fun s e => s.unprep c k e) s).dropCopy x).dropActivation c k (if x.copy then none else keep)).killTag
      (s.partOf c) x.tag) :=
    (((State.StopKept.foldl _ _ (fun s e _ => .unprep s c k e) s).trans (.dropCopy _ x)).trans (.dropActivation _ c k _)).trans
      (State.HomeKept.killTag _ _ _).stop
  unfold State.dropBoth
  dsimp only
  split
  · exact h.trans (.dropActivation _ _ _ _)
  · exact h

theorem State.StopKept.lostMsg (s : State) (c : Nat) (t : Thread) (cause : BitVec 8) (i : InMsg) : s.StopKept (s.lostMsg c t cause i) :=
  .trans (.modRegion s t.region (fun r => { r with disc := r.disc + 1 }) fun _ => rfl) (.appendRec _ _ _ _ _ _ _)

theorem State.StopKept.dropCons (s : State) (c k : Nat) (count : Bool) : s.StopKept (s.dropCons c k count) := by
  unfold State.dropCons
  split
  · exact .refl s
  · split
    · exact .refl s
    · exact .ite ((State.StopKept.dropBoth s c k _ _).trans (.lostMsg _ _ _ _ _))
        (.ite ((State.StopKept.dropBoth s c k _ _).trans (.lostMsg _ _ _ _ _)) (.dropBoth s c k _ _))

theorem State.StopKept.stopOne (s : State) (region : Nat) (w : Switch) (acts : Bool) (c k : Nat) : s.StopKept (s.stopOne region w acts c k) := by
  unfold State.stopOne
  split
  · exact .refl s
  · refine .ite (.refl s) (.ite (.dropCons s c k false) (.ite (.refl s) (.ite ?_ ?_)))
    · exact (State.StopKept.withdraw s c k).trans (.modThread _ c k _)
    · exact (State.StopKept.switchOut s c k _ _).trans (.modSwitch _ region _ fun _ => rfl)

theorem State.StopKept.modSpilled (s : State) (core slot gen : Nat) (f : Thread → Thread) : s.StopKept (s.modSpilled core slot gen f) :=
  .modPart s _ _ fun _ => rfl

theorem State.StopKept.stopSpilled (s : State) (core slot gen : Nat) (t : Thread) (detail : Nat) : s.StopKept (s.stopSpilled core slot gen t detail) := by
  unfold State.stopSpilled
  refine .trans (.trans ?_ (.devWrite _ core _ _ _ false)) (.modSpilled _ core slot gen _)
  exact .ite (.homeWriteBytes s _ _ _ none) (.refl s)

theorem State.StopKept.stopAll (s : State) (region : Nat) (w : Switch) (acts : Bool) : s.StopKept (s.stopAll region w acts) := by
  unfold State.stopAll
  refine .trans (.foldl _ _ (fun s n _ => .stopOne s region w acts _ _) s) (.foldl _ _ (fun s e _ => ?_) _)
  exact (State.StopKept.stopSpilled s _ _ _ _ _).trans (.modSwitch _ region _ fun _ => rfl)

theorem State.StopKept.switchMask (s : State) (region : Nat) (w : Switch) (on : Bool) : s.StopKept (s.switchMask region w on) := by
  refine ⟨rfl, fun _ => rfl, fun _ => rfl, fun c => ?_, id⟩
  simp only [State.core, State.switchMask]
  induction s.cores with
  | nil => rfl
  | cons e l ih =>
    simp only [List.map_cons, alook]
    have he : ∀ q : Prop, [Decidable q] → (if q then (e.1, { e.2 with posts := e.2.posts.map fun p => if p.2.region = region then
        (p.1, { p.2 with smask := on }) else p }) else e).1 = e.1 := fun q _ => by split <;> rfl
    rw [he]
    split
    · simp only [Option.getD_some]
      split <;> rfl
    · exact ih

theorem State.StopKept.reframe (s : State) (c k : Nat) : s.StopKept (s.reframe c k) := by
  unfold State.reframe
  split
  · exact .refl s
  · split
    · exact .refl s
    · exact (State.StopKept.devWrite s _ _ _ _ _).trans (.modThread _ c k _)

theorem State.StopKept.cutSend (s : State) (c k : Nat) (o : Op) (x : CopyOp) : s.StopKept (s.cutSend c k o x) :=
  (State.StopKept.agenda s _ _).trans (.modThread _ c k _)

theorem State.StopKept.cutSends (s : State) (frame : Bool) (c k : Nat) : s.StopKept (s.cutSends frame c k) := by
  unfold State.cutSends
  split
  · exact .refl s
  · refine .ite (.refl s) ?_
    have h : ∀ l : List (Op × CopyOp), s.StopKept (l.foldl (fun s e => s.cutSend c k e.1 e.2) s) := fun l =>
      .foldl _ l (fun s e _ => .cutSend s c k e.1 e.2) s
    exact .ite ((h _).trans (.reframe _ c k)) (h _)

/-! ### What follows -/

theorem State.StopKept.fns {s s' : State} (h : s.StopKept s') : s'.fns = s.fns := (congrArg State.fns h.rest :)

theorem State.StopKept.gt {s s' : State} (h : s.StopKept s') : s'.gt = s.gt := (congrArg State.gt h.rest :)

theorem State.StopKept.sp {s s' : State} (h : s.StopKept s') (c : Nat) : (s'.core c).sp = (s.core c).sp := (congrArg Core.sp (h.cores c) :)

theorem State.StopKept.canonical {s s' : State} (h : s.StopKept s') (hc : Canonical s) : Canonical s' :=
  ⟨h.mem hc.1, fun c => by rw [h.sp]; exact hc.2 c⟩

/-- A switch that is under way goes on, but for what it has collected. -/
theorem State.StopKept.switch {s s' : State} (h : s.StopKept s') {g : Nat} {r : Region} {w : Switch} (hr : s.region? g = some r)
    (hw : r.switch = some w) : ∃ r' w', s'.region? g = some r' ∧ r'.switch = some w' ∧ w' = { w with saved := w'.saved, stopped := w'.stopped } := by
  have hg := h.regions g
  rw [hr] at hg
  obtain ⟨r', hr', he⟩ := Option.map_eq_some_iff.mp hg
  have hsw := congrArg Region.switch he
  simp only [Region.standing, Region.lasting, hw] at hsw
  obtain ⟨w', hw', he'⟩ := Option.map_eq_some_iff.mp hsw
  refine ⟨r', w', hr', hw', ?_⟩
  simp only [Switch.mk.injEq] at he'
  cases w'
  simp_all

end Sys2Proof.Machine
end

/-! ## The queues of the front end: what its operations leave of them -/
section
namespace Sys2Proof.Machine
open Sys2Proof.Claims

/-- A slot without the progress of its command. -/
def CmdSlot.standing (z : CmdSlot) : CmdSlot := { z with st := .fetched, step := 0, disc := 0 }

/-- A queue without its state, its copy and the progress of its commands. -/
def Queue.standing (y : Queue) : Queue :=
  { y with copy := none, st := .active, tries := 0, fetchAt := 0, creator := none, destroyers := [], slots := y.slots.map CmdSlot.standing }

/-- What the acceptance of a copy, a completion or a state of a queue leaves: every queue stays, with its place, its counts and its commands. -/
structure State.QueuesKept (s s' : State) : Prop where
  admqcb : ∀ f, (s'.fn f).admqcb = (s.fn f).admqcb
  queues : ∀ f q, (s'.queue? f q).map Queue.standing = (s.queue? f q).map Queue.standing

theorem State.QueuesKept.refl (s : State) : s.QueuesKept s := ⟨fun _ => rfl, fun _ _ => rfl⟩

theorem State.QueuesKept.trans {s s1 s2 : State} (h : s.QueuesKept s1) (h' : s1.QueuesKept s2) : s.QueuesKept s2 :=
  ⟨fun f => (h'.admqcb f).trans (h.admqcb f), fun f q => (h'.queues f q).trans (h.queues f q)⟩

theorem State.QueuesKept.ite {s s1 s2 : State} {p : Prop} [Decidable p] (h1 : s.QueuesKept s1) (h2 : s.QueuesKept s2) :
    s.QueuesKept (if p then s1 else s2) := by
  split
  · exact h1
  · exact h2

theorem State.QueuesKept.foldl {α : Type} (f : State → α → State) (l : List α) (h : ∀ (s : State) a, s.QueuesKept (f s a)) (s : State) :
    s.QueuesKept (l.foldl f s) := by
  induction l generalizing s with
  | nil => exact .refl s
  | cons a l ih => exact (h s a).trans (ih _)

theorem State.QueuesKept.of_fns {s s' : State} (h : s'.fns = s.fns) : s.QueuesKept s' :=
  ⟨fun f => by rw [State.fn, State.fn, h], fun f q => by rw [State.queue?, State.queue?, State.fn, State.fn, h]⟩

theorem State.QueuesKept.queue? {s s' : State} (h : s.QueuesKept s') {f q : Nat} {y : Queue} (hq : s.queue? f q = some y) :
    ∃ y', s'.queue? f q = some y' ∧ y'.standing = y.standing := by
  have he := h.queues f q
  rw [hq] at he
  exact Option.map_eq_some_iff.mp he

/-! ### Single changes -/

theorem State.queue?_setQueue (s : State) (f q f' q' : Nat) (y : Queue) :
    (s.setQueue f q y).queue? f' q' = if f = f' ∧ q = q' then some y else s.queue? f' q' := by
  rw [State.setQueue, State.queue?, State.fn_modFn]
  by_cases hf : f = f'
  · subst hf
    simp only [if_true, alook_aset, true_and, State.queue?]
  · simp only [hf, if_false, false_and, State.queue?]

theorem State.admqcb_setQueue (s : State) (f q f' : Nat) (y : Queue) : ((s.setQueue f q y).fn f').admqcb = (s.fn f').admqcb := by
  rw [State.setQueue, State.fn_modFn]
  split
  · next h => rw [h]
  · rfl

theorem State.QueuesKept.setQueue {s : State} {f q : Nat} {y y' : Queue} (hq : s.queue? f q = some y) (h : y'.standing = y.standing) :
    s.QueuesKept (s.setQueue f q y') where
  admqcb f' := s.admqcb_setQueue f q f' y'
  queues f' q' := by
    rw [State.queue?_setQueue]
    split
    · next he => obtain ⟨rfl, rfl⟩ := he; rw [hq]; exact congrArg some h
    · rfl

theorem State.QueuesKept.modQueue (s : State) (f q : Nat) (g : Queue → Queue) (h : ∀ y, (g y).standing = y.standing) :
    s.QueuesKept (s.modQueue f q g) := by
  unfold State.modQueue
  split
  · next y hq => exact .setQueue hq (h y)
  · exact .refl s

theorem State.QueuesKept.modFn (s : State) (f : Nat) (g : Fn → Fn) (ha : ∀ y, (g y).admqcb = y.admqcb) (hq : ∀ y, (g y).queues = y.queues) :
    s.QueuesKept (s.modFn f g) where
  admqcb f' := by
    rw [State.fn_modFn]
    split
    · next h => rw [ha, h]
    · rfl
  queues f' q := by
    rw [State.queue?, State.fn_modFn]
    split
    · next h => rw [hq, h]; rfl
    · rfl

theorem State.QueuesKept.push (s : State) (es : List Event) : s.QueuesKept (s.push es) := .of_fns rfl

theorem State.QueuesKept.modSlot (s : State) (f q idx : Nat) (g : CmdSlot → CmdSlot) (h : ∀ z, (g z).standing = z.standing) :
    s.QueuesKept (s.modSlot f q idx g) := by
  refine .modQueue s f q _ fun y => ?_
  have hs : (y.slots.map fun z => if z.sealed && z.idx = idx then g z else z).map CmdSlot.standing = y.slots.map CmdSlot.standing := by
    rw [List.map_map]
    refine List.map_congr_left fun z _ => ?_
    simp only [Function.comp]
    split
    · exact h z
    · rfl
  simp only [Queue.standing, hs]

theorem State.QueuesKept.finishCmd (s : State) (f q idx status detail disp disc : Nat) :
    s.QueuesKept (s.finishCmd f q idx status detail disp disc) :=
  .trans (.modSlot s f q idx (fun z => { z with st := .done status detail disp disc }) fun _ => rfl) (.push _ _)

theorem State.HomeKept.fnRead (s : State) (f : Nat) (a : Word) (n : Nat) : s.HomeKept (s.fnRead f a n).2 := by
  unfold State.fnRead
  split
  · exact .refl s
  · split
    · exact .hostRead s _ n
    · exact .homeReadBytes s _ _ n

theorem State.HomeKept.fnWrite (s : State) (f : Nat) (a : Word) (bs : List Byte) : s.HomeKept (s.fnWrite f a bs) :=
  .ite (.refl s) (.ite (.hostWrite s _ bs) (.homeWriteBytes s _ _ bs none))

theorem State.QueuesKept.fnWrite (s : State) (f : Nat) (a : Word) (bs : List Byte) : s.QueuesKept (s.fnWrite f a bs) :=
  .of_fns (State.HomeKept.fnWrite s f a bs).fns

theorem queue?_of_fns {s s' : State} (h : s'.fns = s.fns) (f q : Nat) : s'.queue? f q = s.queue? f q := by
  rw [State.queue?, State.queue?, State.fn, State.fn, h]

theorem State.queue?_fnRead (s : State) (f : Nat) (a : Word) (n f' q : Nat) : (s.fnRead f a n).2.queue? f' q = s.queue? f' q :=
  queue?_of_fns (State.HomeKept.fnRead s f a n).fns f' q

theorem State.queue?_fnWrite (s : State) (f : Nat) (a : Word) (bs : List Byte) (f' q : Nat) : (s.fnWrite f a bs).queue? f' q = s.queue? f' q :=
  queue?_of_fns (State.HomeKept.fnWrite s f a bs).fns f' q

/-! ### The states of a queue (R383, R394) -/

theorem State.QueuesKept.putQState (s : State) (f q : Nat) (st : QState) : s.QueuesKept (s.putQState f q st) := by
  unfold State.putQState
  split
  · next y hq =>
    refine .trans ?_ (.fnWrite _ _ _ _)
    exact .setQueue hq rfl
  · exact .refl s

theorem State.queue?_putQState {s : State} {f q : Nat} {y : Queue} (hq : s.queue? f q = some y) (st : QState) :
    (s.putQState f q st).queue? f q = some { y with st := st } := by
  rw [State.putQState, hq]
  exact (State.queue?_fnWrite ..).trans (State.queue?_setQueue_self ..)

theorem State.QueuesKept.checkDrained (s : State) (f q : Nat) : s.QueuesKept (s.checkDrained f q) := by
  unfold State.checkDrained
  split
  · exact .ite ((State.QueuesKept.putQState s f q _).trans (.foldl _ _ (fun s (d : Nat × Nat) => .finishCmd s f d.1 d.2 0 0 0 0) _)) (.refl s)
  · exact .refl s

theorem State.QueuesKept.dropParts (s : State) (f q : Nat) (y : CmdSlot) : s.QueuesKept (s.dropParts f q y) := by
  unfold State.dropParts
  refine .ite ?_ (.refl s)
  refine .trans (.of_fns ?_) (.modSlot _ f q _ _ fun _ => rfl)
  exact State.modRegion_fns ..

theorem State.QueuesKept.startDrain (s : State) (f q : Nat) : s.QueuesKept (s.startDrain f q) := by
  unfold State.startDrain
  split
  · refine .ite (.refl s) (.trans (.trans (.putQState s f q _) (.foldl _ _ (fun s y => ?_) _)) (.checkDrained _ f q))
    split
    · exact .finishCmd s f q _ 7 0 0 0
    · exact .dropParts s f q y
  · exact .refl s

/-- The state of a queue without its slots, which a completion changes. -/
theorem queueState_finishCmd (s : State) (f q idx status detail disp disc f' q' : Nat) :
    ((s.finishCmd f q idx status detail disp disc).queue? f' q').map (·.st) = (s.queue? f' q').map (·.st) := by
  rw [State.finishCmd, State.queue?_push, State.modSlot, State.modQueue]
  split
  · next y hq =>
    rw [State.queue?_setQueue]
    split
    · next he => obtain ⟨rfl, rfl⟩ := he; rw [hq]; rfl
    · rfl
  · rfl

/-- A queue without commands is destroyed as it begins to drain. -/
theorem startDrain_empty {s : State} {f q : Nat} {y : Queue} (hq : s.queue? f q = some y) (hst : y.st = .active) (hsl : y.slots = []) :
    ∃ y', (s.startDrain f q).queue? f q = some y' ∧ y'.st = .destroyed := by
  have hd : (s.putQState f q .draining).queue? f q = some { y with st := .draining } := State.queue?_putQState hq _
  have hx := State.queue?_putQState hd .destroyed
  have hfin : (s.startDrain f q).queue? f q = (y.destroyers.foldl (fun s d => s.finishCmd f d.1 d.2 0 0 0 0)
      ((s.putQState f q .draining).putQState f q .destroyed)).queue? f q := by
    rw [State.startDrain, hq]
    simp [hst, hsl, State.checkDrained, hd]
  have hkeep := foldl_keeps (fun s => (s.queue? f q).map (·.st)) (fun s (d : Nat × Nat) => s.finishCmd f d.1 d.2 0 0 0 0) y.destroyers
    (fun s d _ => queueState_finishCmd s f d.1 d.2 0 0 0 0 f q) ((s.putQState f q .draining).putQState f q .destroyed)
  simp only [hx, Option.map_some, ← hfin] at hkeep
  exact Option.map_eq_some_iff.mp hkeep

/-! ### Copies of a control block (R384, R385) -/

theorem State.QueuesKept.acceptCopy {s : State} {f q : Nat} {y : Queue} (hq : s.queue? f q = some y) (c : Qcb) :
    s.QueuesKept (s.acceptCopy f q y c) := by
  unfold State.acceptCopy
  extract_lets first s1 s2
  have h1 : s.QueuesKept s1 := .setQueue hq rfl
  have h2 : s.QueuesKept s2 := by
    refine h1.trans ?_
    unfold s2
    split
    · exact .finishCmd s1 f _ _ 0 0 0 0
    · exact .refl s1
  clear_value s2
  split
  · exact h2
  · exact h2
  · exact h2
  · exact h2.trans (.startDrain s2 f q)
  · exact .ite (h2.trans (.putQState s2 f q _)) h2
  · exact h2.trans (.putQState s2 f q _)
  · refine .trans (.trans (h2.trans (.putQState s2 f q _)) (.modQueue _ f q _ fun y => ?_)) (.push _ _)
    split <;> rfl

/-- A poll leaves the queue with the time of the next one, whatever it finds. -/
theorem pollQcb_keeps {s : State} {f q : Nat} {y : Queue} (hq : s.queue? f q = some y) (hr : y.st ≠ .draining) (hd : y.st ≠ .destroyed) :
    (s.setQueue f q { y with pollAt := s.gt + 100000 }).QueuesKept (s.pollQcb f q) := by
  have hs : (y.st == .draining || y.st == .destroyed) = false := by simp [hr, hd]
  rw [State.pollQcb, hq]
  simp only [hs, Bool.false_eq_true, if_false]
  set s1 := s.setQueue f q { y with pollAt := s.gt + 100000 }
  set s2 := (s1.fnRead f y.addr 8).2
  set r := s2.fnRead f (y.addr + BitVec.ofNat 64 (64 + 64 * (ofBytes (s1.fnRead f y.addr 8).1 % 2))) 64
  have hw : r.2.fns = s1.fns := (State.HomeKept.fnRead s2 f _ 64).fns.trans (State.HomeKept.fnRead s1 f y.addr 8).fns
  have hr1 : s1.QueuesKept r.2 := .of_fns hw
  have hq1 : r.2.queue? f q = some { y with pollAt := s.gt + 100000 } := (queue?_of_fns hw f q).trans (State.queue?_setQueue_self ..)
  have hg : r.2.gt = s.gt := (State.HomeKept.fnRead s2 f _ 64).gt.trans (State.HomeKept.fnRead s1 f y.addr 8).gt
  rw [hg]
  clear_value r s2 s1
  refine .ite hr1 ?_
  split
  · exact hr1.trans (.putQState r.2 f q _)
  · exact hr1.trans (.acceptCopy hq1 _)

theorem queue?_pollQcb {s : State} {f q : Nat} {y : Queue} (hq : s.queue? f q = some y) :
    (∀ f', ((s.pollQcb f q).fn f').admqcb = (s.fn f').admqcb) ∧ ∃ y', (s.pollQcb f q).queue? f q = some y' ∧ y'.addr = y.addr := by
  by_cases hs : (y.st == .draining || y.st == .destroyed) = true
  · have he : s.pollQcb f q = s := by
      rw [State.pollQcb, hq]
      exact if_pos hs
    rw [he]
    exact ⟨fun _ => rfl, y, hq, rfl⟩
  · obtain ⟨hr, hd⟩ : y.st ≠ .draining ∧ y.st ≠ .destroyed := by simpa using hs
    have hk := pollQcb_keeps hq hr hd
    obtain ⟨y', hy', he⟩ := hk.queue? (State.queue?_setQueue_self ..)
    exact ⟨fun f' => (hk.admqcb f').trans (State.admqcb_setQueue ..), y', hy', (congrArg Queue.addr he :)⟩

/-- A queue that is created is there, at its address. -/
theorem queue?_createQueue (s : State) (f q : Nat) (addr : Word) (creator : Option (Nat × Nat)) :
    (∀ f', ((s.createQueue f q addr creator).fn f').admqcb = (s.fn f').admqcb) ∧
      ∃ y, (s.createQueue f q addr creator).queue? f q = some y ∧ y.addr = addr := by
  let y : Queue := ⟨addr, none, 0, 0, .paused, 0, 0, 0, [], creator, [], 0⟩
  have hk := (State.QueuesKept.putQState (s.setQueue f q y) f q .paused).trans (.fnWrite _ f (addr + 8) (toBytes 8 0))
  obtain ⟨y1, h1, he1⟩ := hk.queue? (State.queue?_setQueue_self ..)
  obtain ⟨ha, y2, h2, he2⟩ := queue?_pollQcb h1
  exact ⟨fun f' => (ha f').trans ((hk.admqcb f').trans (State.admqcb_setQueue ..)), y2, h2, he2.trans (congrArg Queue.addr he1 :)⟩

end Sys2Proof.Machine
end

/-! ## O39: the function registers and the command queues -/
section
namespace Sys2Proof.Machine
open Sys2Proof.Claims

/-! ### Function registers (R380, R390) -/

theorem msixAt_aset (x : Fn) (n : Nat) (e : MsixEntry) : ({ x with msix := aset n e x.msix } : Fn).msixAt n = e := by
  simp [Fn.msixAt]

theorem msixAt_signalVec (s : State) (f v n : Nat) (port : Word → Nat) : ((s.signalVec f v port).fn f).msixAt n = (s.fn f).msixAt n := by
  unfold State.signalVec
  dsimp only
  split
  · rfl
  · split
    · rw [State.fn_modFn, if_pos rfl]; rfl
    · change ((s.modFn f fun y => { y with pba := y.pba &&& ~~~(1#64 <<< v) }).fn f).msixAt n = _
      rw [State.fn_modFn, if_pos rfl]
      rfl

/-- A write of an MSI-X entry stores it; unmasking alone may signal. -/
theorem execRegisterWrite_msix (s : State) (f off : Nat) (v : Word) (wide : Bool) (n : Nat) (hlo : 0x1000 ≤ off) (hhi : off < 0x1400)
    (hal : off % (if wide then 8 else 4) = 0) (hn : (off - 0x1000) / 16 = n) :
    let e := ((s.fn f).msixAt n).put (off % 16) v wide
    ∃ s', exec (.registerWrite ⟨f, off, v, wide⟩) s = .next s' ∧ (s'.fn f).msixAt n = e ∧ (e.ctl.getLsbD 0 = true → s'.msis = s.msis) := by
  subst hn
  intro e
  let s1 := s.modFn f fun y => { y with msix := aset ((off - 0x1000) / 16) e y.msix }
  have h1 : (s1.fn f).msixAt ((off - 0x1000) / 16) = e := by
    rw [State.fn_modFn, if_pos rfl]
    exact msixAt_aset ..
  refine ⟨if !e.ctl.getLsbD 0 && (s1.fn f).pba.getLsbD ((off - 0x1000) / 16) then s1.signalVec f ((off - 0x1000) / 16) else s1, ?_, ?_, fun hc => ?_⟩
  · refine (rfl : _ = execRegisterWrite ⟨f, off, v, wide⟩ s).trans ?_
    have h0 : ¬off < 0x800 := by omega
    have h8 : ¬off = 0x800 := by omega
    have h84 : ¬off = 0x804 := by omega
    simp only [execRegisterWrite, h0, h8, h84, hlo, hhi, hal, decide_false, decide_true, Bool.false_and, Bool.and_self, Bool.or_self,
      Bool.false_eq_true, if_false, if_true]
    rfl
  · split
    · exact (msixAt_signalVec ..).trans h1
    · exact h1
  · rw [hc]
    rfl

theorem functionRegisters : FunctionRegisters := by
  unfold FunctionRegisters
  intro s f v
  refine ⟨fun q hq wide => ?_, ?_, fun n hn hm => ?_, fun n hn => ?_, fun hq hr hv => ?_, fun y hq hst hsl => ?_, fun q n hr => ?_,
    fun q n y c hr hq hc hst hd ha => ?_⟩
  · refine (rfl : _ = execRegisterWrite ⟨f, 8 * q, v, wide⟩ s).trans ?_
    have h : (decide (8 * q < 0x800) && decide (8 * q % 8 = 0)) = true := by
      rw [Bool.and_eq_true, decide_eq_true_eq, decide_eq_true_eq]
      omega
    have hd : 8 * q / 8 = q := by omega
    simp only [execRegisterWrite, h, hd, if_true]
  · rfl
  · obtain ⟨s', he, hx, hmsi⟩ := execRegisterWrite_msix s f (0x1000 + 16 * n) v true n (by omega) (by omega) (by simp; omega) (by omega)
    have h0 : (0x1000 + 16 * n) % 16 = 0 := by omega
    rw [h0] at hx hmsi
    exact ⟨s', he, hx, hmsi hm⟩
  · obtain ⟨s', he, hx, _⟩ := execRegisterWrite_msix s f (0x1000 + 16 * n + 12) v false n (by omega) (by omega) (by simp; omega) (by omega)
    have h12 : (0x1000 + 16 * n + 12) % 16 = 12 := by omega
    rw [h12] at hx
    exact ⟨s', he, hx⟩
  · let s1 := s.modFn f fun y => { y with admqcb := v &&& ~~~63#64 }
    obtain ⟨hadm, y, hy, _⟩ := queue?_createQueue s1 f 0 (v &&& ~~~63#64) none
    refine ⟨s1.createQueue f 0 (v &&& ~~~63#64) none, ?_, (hadm f).trans ?_, by rw [hy]; rfl⟩
    · refine (rfl : _ = execAdmqcbCreate ⟨f, 0x800, v, true⟩ s).trans ?_
      simp only [execAdmqcbCreate, hq, hr, hv, Option.any_none, decide_false, Bool.or_self, Bool.false_eq_true, if_false]
      rfl
    · exact congrArg Fn.admqcb ((State.fn_modFn s f f _).trans (if_pos rfl))
  · let s1 := s.modFn f fun y => { y with admqcb := 0 }
    have hf1 : s1.fn f = { s.fn f with admqcb := 0 } := (State.fn_modFn s f f _).trans (if_pos rfl)
    have hq1 : s1.queue? f 0 = some y := by
      rw [State.queue?, hf1]
      exact hq
    obtain ⟨y', hy', hd⟩ := startDrain_empty hq1 hst hsl
    refine ⟨s1.startDrain f 0, y', ?_, ?_, hy', hd⟩
    · refine (rfl : _ = execAdmqcbDestroy ⟨f⟩ s).trans ?_
      simp [execAdmqcbDestroy, hq, hst, s1]
    · rw [(State.QueuesKept.startDrain s1 f 0).admqcb, hf1]
  · refine (rfl : _ = execNotify ⟨f, q, n⟩ s).trans ?_
    simp [execNotify, hr]
  · rw [exec_notify_of_copy n hr hq hc, if_pos ((y.accepts_iff c _).mpr ⟨hst, hd, ha⟩)]
    rfl

/-! ### Fetch, dispatch and completion (R386, R388, R389) -/

theorem execCommandFetch_of_fetch {s s1 : State} {f q : Nat} {y : Queue} {c : Qcb} {bs : List Byte} (hq : s.queue? f q = some y) (hc : y.copy = some c)
    (hst : y.st = .active) (hat : y.fetchAt ≤ s.gt) (hne : y.cidx % 2 ^ 32 ≠ y.pidx) (hr : (s.fn f).resetting = false) (hn : s.ras.noFetch = false)
    (hb : s.boot.recovery = false) (hread : s.fnRead f (c.rbase + BitVec.ofNat 64 (128 * (y.cidx % 2 ^ c.log2d))) 128 = (bs, s1)) :
    (cmdSealed bs y.cidx c.log2d = true → exec (.commandFetch ⟨f, q⟩) s = .next
      ((((s1.setQueue f q { y with cidx := y.cidx + 1, tries := 0 }).fnWrite f (y.addr + 8) (toBytes 8 (y.cidx + 1))).enterCmd f q y.cidx
        (BitVec.ofNat 1024 (ofBytes bs))).push [.commandFetch ⟨f, q⟩])) ∧
    (cmdSealed bs y.cidx c.log2d = false → y.tries < 8 → exec (.commandFetch ⟨f, q⟩) s =
      .next ((s1.setQueue f q { y with tries := y.tries + 1, fetchAt := s1.gt + 1000 }).timer (s1.gt + 1000) (.commandFetch ⟨f, q⟩))) := by
  have hgo : (y.st != .active || decide (s.gt < y.fetchAt) || decide (y.cidx % 2 ^ 32 = y.pidx) || (s.fn f).resetting || s.ras.noFetch ||
      s.boot.recovery) = false := by
    simp [hst, hat, hr, hn, hb]
    omega
  constructor
  · intro hs
    refine (rfl : _ = execCommandFetch ⟨f, q⟩ s).trans ?_
    simp only [execCommandFetch, hq, hc, hgo, hread, hs, Bool.false_eq_true, if_false, if_true]
  · intro hs ht
    refine (rfl : _ = execCommandFetch ⟨f, q⟩ s).trans ?_
    simp only [execCommandFetch, hq, hc, hgo, hread, hs, ht, Bool.false_eq_true, if_false, if_true]

/-- A fetched entry takes a slot of its queue, whatever becomes of it there. -/
theorem queue?_enterCmd {s : State} {f q : Nat} {y : Queue} (hq : s.queue? f q = some y) (idx : Nat) (c : BitVec 1024) :
    ∃ y', (s.enterCmd f q idx c).queue? f q = some y' ∧ y'.cidx = y.cidx ∧ ∃ z ∈ y'.slots, z.idx = idx ∧ z.cmd = c := by
  unfold State.enterCmd
  extract_lets x none_ excess z s1
  have h1 : s1.queue? f q = some { y with slots := y.slots ++ [z] } := by
    change (s.modQueue f q _).queue? f q = _
    rw [State.modQueue, hq]
    exact State.queue?_setQueue_self ..
  have hk : s1.QueuesKept (if excess then s1.finishCmd f q idx 2 0 0 0 else s1.push [.commandDispatch ⟨f, q⟩]) :=
    .ite (.finishCmd s1 f q idx 2 0 0 0) (.push s1 _)
  obtain ⟨y', hy', he⟩ := hk.queue? h1
  have hz : z.standing ∈ y'.slots.map CmdSlot.standing := by
    rw [show y'.slots.map CmdSlot.standing = (y.slots ++ [z]).map CmdSlot.standing from congrArg Queue.slots he]
    exact List.mem_map_of_mem (by simp)
  obtain ⟨z', hz', hs⟩ := List.mem_map.mp hz
  exact ⟨y', hy', (congrArg Queue.cidx he :), z', hz', (congrArg CmdSlot.idx hs :), (congrArg CmdSlot.cmd hs :)⟩

theorem mem_insertQueue {e a : Nat × Queue} {l : List (Nat × Queue)} (h : a ∈ insertQueue e l) : a = e ∨ a ∈ l := by
  induction l with
  | nil => simpa [insertQueue] using h
  | cons x l ih =>
    simp only [insertQueue] at h
    split at h
    · simpa using h
    · rcases List.mem_cons.mp h with rfl | h
      · exact .inr (.head _)
      · exact (ih h).imp id (.tail _)

theorem mem_foldr_insertQueue {a : Nat × Queue} {l : List (Nat × Queue)} (h : a ∈ l.foldr insertQueue []) : a ∈ l := by
  induction l with
  | nil => exact h
  | cons e l ih =>
    rcases mem_insertQueue h with rfl | h
    · exact .head _
    · exact .tail _ (ih h)

/-- A ready command is the oldest fetched one of its queue, and its WAIT holds (R386). -/
theorem mem_ready {x : Fn} {q : Nat} {z : CmdSlot} (h : (q, z) ∈ x.ready) : ∃ y, (q, y) ∈ x.queues ∧
    y.slots.find? (fun z => z.st == .fetched) = some z ∧ (cmdWait z.cmd = true → cmdBits z.cmd 128 64 ≤ (x.counter (cmdBits z.cmd 16 16)).toNat) := by
  obtain ⟨⟨q', y⟩, hy, he⟩ := List.mem_filterMap.mp h
  obtain ⟨z', hz', heq⟩ := Option.map_eq_some_iff.mp he
  obtain ⟨rfl, rfl⟩ := Prod.mk.inj heq
  obtain ⟨hf, hg⟩ := Option.filter_eq_some_iff.mp hz'
  refine ⟨y, mem_foldr_insertQueue hy, hf, fun hw => ?_⟩
  simpa [Fn.goes, hw] using hg

theorem pickCmd_mem {s s1 : State} {f q : Nat} {z : CmdSlot} (h : s.pickCmd f = (some (q, z), s1)) : (q, z) ∈ (s.fn f).ready := by
  unfold State.pickCmd at h
  split at h
  · simp at h
  · next a l hl =>
    rw [hl]
    split at h
    · obtain ⟨ha, _⟩ := Prod.mk.inj h
      exact Option.some.inj ha ▸ .head _
    · obtain ⟨ha, _⟩ := Prod.mk.inj h
      rw [← Option.some.inj ha,
        List.getD_eq_getElem (a :: l) a (show s.freeWord.1.toNat % (l.length + 1) < (a :: l).length from Nat.mod_lt _ l.length.succ_pos)]
      exact List.getElem_mem _

theorem cmdEvent_undefined (x : EvCmd) (h : 14 < x.cmd.toNat % 256) : cmdEvent x = none := by
  have hop : cmdOp x.cmd = x.cmd.toNat % 256 := by simp [cmdOp, cmdBits]
  rw [← hop] at h
  obtain ⟨k, hk⟩ : ∃ k, cmdOp x.cmd = k + 15 := ⟨cmdOp x.cmd - 15, by omega⟩
  rw [cmdEvent, hk]
  rfl

theorem execCompletionWrite_silent {s : State} {f q : Nat} {y : Queue} {z : CmdSlot} {st d n m : Nat} (hq : s.queue? f q = some y) (hsl : y.slots = [z])
    (hz : z.st = .done st d n m) (hr : (s.fn f).resetting = false) (hc : cmdCpl z.cmd = false) (h2 : st ≠ 2) (h9 : st ≠ 9) :
    exec (.completionWrite ⟨f, q, z.idx⟩) s = .next (s.freeSlot f q z st) := by
  refine (rfl : _ = execCompletionWrite ⟨f, q, z.idx⟩ s).trans ?_
  simp [execCompletionWrite, hq, hsl, hz, hr, hc, h2, h9]

theorem State.QueuesKept.signalVec (s : State) (f v : Nat) (port : Word → Nat) : s.QueuesKept (s.signalVec f v port) := by
  unfold State.signalVec
  refine .ite (.refl s) (.ite (.modFn s f _ (fun _ => rfl) fun _ => rfl) ?_)
  refine .trans (.modFn s f (fun y => { y with pba := y.pba &&& ~~~(1#64 <<< v) }) (fun _ => rfl) fun _ => rfl) (.of_fns rfl)

/-- The one command of a queue that is freed leaves the queue without slots. -/
theorem queue?_freeSlot_single {s : State} {f q : Nat} {y : Queue} {z : CmdSlot} (hq : s.queue? f q = some y) (hsl : y.slots.map CmdSlot.standing = [z.standing])
    (st : Nat) : ∃ y', (s.freeSlot f q z st).queue? f q = some y' ∧ y'.done = y.done ∧ y'.slots = [] := by
  unfold State.freeSlot
  extract_lets s1 i s2
  have hf : (y.slots.filter fun w => decide (w.idx ≠ z.idx) || decide (w.sealed ≠ z.sealed)) = [] := by
    obtain ⟨w, hw, he⟩ := List.map_eq_singleton_iff.mp hsl
    have hi : w.idx = z.idx := (congrArg CmdSlot.idx he :)
    have hs : w.sealed = z.sealed := (congrArg CmdSlot.sealed he :)
    simp [hw, hi, hs]
  have h1 : s1.queue? f q = some { y with slots := [] } := by
    change (s.modQueue f q _).queue? f q = _
    rw [State.modQueue, hq]
    refine (State.queue?_setQueue_self ..).trans ?_
    simp only [hf]
  have hk : s1.QueuesKept ((s2.retryWaits f).checkDrained f q) := by
    refine .trans (.trans ?_ (.push s2 _)) (.checkDrained _ f q)
    exact .ite (.modFn s1 f _ (fun _ => rfl) fun _ => rfl) (.refl s1)
  obtain ⟨y', hy', he⟩ := hk.queue? h1
  exact ⟨y', hy', (congrArg Queue.done he :), List.map_eq_nil_iff.mp (congrArg Queue.slots he)⟩

theorem execCompletionWrite_room {s s1 : State} {f q : Nat} {y : Queue} {z : CmdSlot} {c : Qcb} {bs : List Byte} {st d n m : Nat} (hq : s.queue? f q = some y)
    (hsl : y.slots = [z]) (hz : z.st = .done st d n m) (hr : (s.fn f).resetting = false) (hcpl : cmdCpl z.cmd = true) (hc : y.copy = some c)
    (hread : s.fnRead f (y.addr + 24) 8 = (bs, s1)) (hroom : (y.done + 2 ^ 64 - ofBytes bs) % 2 ^ 64 < 2 ^ c.log2c) :
    ∃ s' y', exec (.completionWrite ⟨f, q, z.idx⟩) s = .next s' ∧ s'.queue? f q = some y' ∧ y'.done = y.done + 1 ∧ y'.slots = [] := by
  obtain ⟨rfl, rfl⟩ : (s.fnRead f (y.addr + 24) 8).1 = bs ∧ (s.fnRead f (y.addr + 24) 8).2 = s1 := by
    rw [hread]
    exact ⟨rfl, rfl⟩
  let s1 := (s.fnRead f (y.addr + 24) 8).2
  let at_ := c.cbase + BitVec.ofNat 64 (32 * (y.done % 2 ^ c.log2c))
  let s2 := s1.fnWrite f at_ (cplBytes z.cmd z.idx y.done c.log2c st d n m s1.gt)
  let s3 := s2.modQueue f q fun z => { z with done := z.done + 1 }
  let s4 := if cmdIrq z.cmd && c.ven then s3.signalVec f c.vec (fun a => s3.hostPort f (if at_.getLsbD 63 then at_ else a)) else s3
  have h1 : s1.queue? f q = some y := by
    rw [← hq]
    exact State.queue?_fnRead ..
  have h3 : s3.queue? f q = some { y with done := y.done + 1 } := by
    change (s2.modQueue f q _).queue? f q = _
    rw [State.modQueue, (State.queue?_fnWrite s1 f at_ _ f q).trans h1]
    exact State.queue?_setQueue_self ..
  have h4 : s3.QueuesKept s4 := .ite (.signalVec s3 f _ _) (.refl s3)
  obtain ⟨y4, hy4, he4⟩ := h4.queue? h3
  have hs4 : y4.slots.map CmdSlot.standing = [z.standing] := (congrArg Queue.slots he4).trans (by simp [Queue.standing, hsl])
  obtain ⟨y', hy', hd, hs⟩ := queue?_freeSlot_single hy4 hs4 st
  refine ⟨s4.freeSlot f q z st, y', ?_, hy', hd.trans (congrArg Queue.done he4 :), hs⟩
  refine (rfl : _ = execCompletionWrite ⟨f, q, z.idx⟩ s).trans ?_
  simp only [execCompletionWrite, hq, hsl, hz, hr, hcpl, hc, List.find?_cons, decide_true, Bool.and_self, Bool.not_true, Bool.false_and,
    Bool.false_eq_true, if_false]
  rw [if_pos hroom]

/-! ### Function level reset (R397) -/

theorem State.fns_resetFn (s : State) (f : Nat) : (s.resetFn f).fns = (s.modFn f fun y => { y with resetting := true }).fns := by
  unfold State.resetFn
  extract_lets l s1 s2 s3 away s4 mine
  have h3 : s2.StopKept s3 := .foldl _ _ (fun s n _ => .killSlot s _ _) s2
  have h4 : s3.StopKept s4 := .foldl _ _ (fun s e _ => .killSpilled s _ _ _ _) s3
  exact (h4.fns.trans h3.fns :)

theorem State.fn_resetFn (s : State) (f f' : Nat) : (s.resetFn f).fn f' = if f = f' then { s.fn f with resetting := true } else s.fn f' := by
  rw [State.fn, State.fns_resetFn]
  exact State.fn_modFn ..

theorem resetting_foldl_resetFn (l : List Nat) (s : State) (f : Nat) (h : f ∈ l ∨ (s.fn f).resetting = true) :
    ((l.foldl (fun s f => s.resetFn f) s).fn f).resetting = true := by
  induction l generalizing s with
  | nil => exact h.resolve_left (by simp)
  | cons g l ih =>
    refine ih _ ?_
    by_cases hg : g = f
    · refine .inr ?_
      rw [State.fn_resetFn, if_pos hg]
    · rw [State.fn_resetFn, if_neg hg]
      exact h.imp_left fun hm => (List.mem_cons.mp hm).resolve_left (Ne.symm hg)

theorem functionLevelReset (s : State) (f : Nat) : ∃ s', exec (.functionLevelReset ⟨f⟩) s = .next s' ∧ (f ≠ 0 → (s'.fn f).resetting = true) ∧
    (f = 0 → (s'.fn 0).resetDue = true ∧ ∀ e ∈ s.fns, e.1 ≠ 0 → (s'.fn e.1).resetting = true) := by
  by_cases h0 : f = 0
  · subst h0
    let vfs := ((s.fns.map (·.1)).filter (· ≠ 0)).mergeSort (· ≤ ·)
    refine ⟨(vfs.foldl (fun s f => s.resetFn f) s).modFn 0 fun y => { y with resetDue := true }, rfl, fun h => absurd rfl h, fun _ => ⟨?_,
      fun e he hne => ?_⟩⟩
    · rw [State.fn_modFn, if_pos rfl]
    · rw [State.fn_modFn, if_neg (Ne.symm hne)]
      refine resetting_foldl_resetFn vfs s e.1 (.inl ?_)
      rw [List.mem_mergeSort, List.mem_filter]
      exact ⟨List.mem_map_of_mem he, by simpa using hne⟩
  · refine ⟨s.resetFn f, (rfl : _ = execFunctionLevelReset ⟨f⟩ s).trans (if_neg h0), fun _ => ?_, fun h => absurd h h0⟩
    rw [State.fn_resetFn, if_pos rfl]

theorem queuesRun : QueuesRun := by
  unfold QueuesRun
  refine ⟨fun s f q y hq => ⟨fun hd hr => ?_, fun c bs s1 hc hst hat hne hres hn hb hread => ⟨fun hs => ?_, fun hs ht => ?_⟩, fun s1 h => ?_,
    fun q' z s1 hres hp => ⟨?_, fun e he => ?_, fun hop => ?_⟩, fun z c bs s1 st d n m _ hsl hz hres => ⟨fun hc h2 h9 => ?_,
      fun hcpl hc hread hroom => ?_⟩⟩,
    fun s f => ⟨_, rfl, ?_, rfl⟩, fun s u => rfl, functionLevelReset⟩
  · obtain ⟨y', hy', he⟩ := (pollQcb_keeps hq hr hd).queue? (State.queue?_setQueue_self ..)
    exact ⟨s.pollQcb f q, y', rfl, hy', (congrArg Queue.pollAt he :)⟩
  · let s2 := (s1.setQueue f q { y with cidx := y.cidx + 1, tries := 0 }).fnWrite f (y.addr + 8) (toBytes 8 (y.cidx + 1))
    have h2 : s2.queue? f q = some { y with cidx := y.cidx + 1, tries := 0 } := (State.queue?_fnWrite ..).trans (State.queue?_setQueue_self ..)
    obtain ⟨y', hy', hci, hz⟩ := queue?_enterCmd h2 y.cidx (BitVec.ofNat 1024 (ofBytes bs))
    exact ⟨_, y', (execCommandFetch_of_fetch hq hc hst hat hne hres hn hb hread).1 hs, hy', hci, hz⟩
  · exact (execCommandFetch_of_fetch hq hc hst hat hne hres hn hb hread).2 hs ht
  · refine (rfl : _ = execCommandDispatch ⟨f, q⟩ s).trans ?_
    rcases h with h | ⟨h, rfl⟩
    · simp [execCommandDispatch, h]
    · simp [execCommandDispatch, h]
  · exact mem_ready (pickCmd_mem hp)
  · refine (rfl : _ = execCommandDispatch ⟨f, q⟩ s).trans ?_
    simp [execCommandDispatch, hres, hp, he]
  · refine (rfl : _ = execCommandDispatch ⟨f, q⟩ s).trans ?_
    simp [execCommandDispatch, hres, hp, cmdEvent_undefined ⟨f, q', z.idx, z.cmd⟩ hop]
  · exact execCompletionWrite_silent hq hsl hz hres hc h2 h9
  · exact execCompletionWrite_room hq hsl hz hres hcpl hc hread hroom
  · change ((s.modFn f fun y => { y with plugin := false }).fn f).plugin = false
    rw [State.fn_modFn, if_pos rfl]

/-- Settles O39: a register write is the event that its offset names; every operation of the front end keeps a queue with its place, its counts and
its commands, so what a poll, a fetch or a completion has changed in it stands at the end. -/
theorem functionQueues : Obligations.FunctionQueues := ⟨functionRegisters, queuesRun⟩

end Sys2Proof.Machine
end

/-! ## O40: the commands -/
section
namespace Sys2Proof.Machine
open Sys2Proof.Claims

/-! ### A command that runs (R386, R392, R393) -/

theorem asCommand_runs {s : State} {x : EvCmd} {adm priv : Bool} {fields : List (Nat × Nat)} (h : CmdRuns s x fields) (ha : adm = true → x.q = 0)
    (hp : priv = true → x.fn = 0) (f : State → State) : asCommand x adm priv fields s f = .next (f s) := by
  obtain ⟨⟨y, hy, hst, _⟩, hres, hrsv⟩ := h
  have hadm : (adm && decide (x.q ≠ 0)) = false := by
    cases adm
    · rfl
    · simp [ha rfl]
  have hpriv : (priv && decide (x.fn ≠ 0)) = false := by
    cases priv
    · rfl
    · simp [hp rfl]
  simp only [asCommand, hy, hst, hres, hrsv, hadm, hpriv, bne_self_eq_false, Bool.or_self, Bool.false_eq_true, if_false]

theorem asCommand_plain {s : State} {x : EvCmd} {fields : List (Nat × Nat)} (h : CmdRuns s x fields) (f : State → State) :
    asCommand x false false fields s f = .next (f s) :=
  asCommand_runs h (fun h => absurd h Bool.false_ne_true) (fun h => absurd h Bool.false_ne_true) f

theorem regionCommand_runs {s : State} {x : EvCmd} {fields : List (Nat × Nat)} {r : Region} (h : CmdRuns s x (argD 0 :: fields))
    (hr : s.regionFor x.fn (cmdArg x.cmd 0) = .ok r) (f : Nat → Region → State → State) :
    regionCommand x fields s f = .next (f (cmdArg x.cmd 0) r s) := by
  rw [regionCommand, asCommand_plain h]
  simp only [hr]

theorem region?_of_regionFor {s : State} {f rcb : Nat} {r : Region} (h : s.regionFor f rcb = .ok r) : s.region? rcb = some r := by
  unfold State.regionFor at h
  split at h
  · simp at h
  · split at h
    · simp at h
    · next r' hr =>
      split at h
      · simp at h
      · split at h
        · cases h; exact hr
        · simp at h

/-- A completion changes the functions' queues alone. -/
theorem finishCmd_rest (s : State) (f q idx status detail disp disc : Nat) :
    ({ s.finishCmd f q idx status detail disp disc with fns := [], agenda := [] } : State) = { s with fns := [], agenda := [] } := by
  unfold State.finishCmd State.modSlot State.modQueue
  split <;> rfl

@[simp] theorem finishCmd_mem (s : State) (f q idx status detail disp disc : Nat) : (s.finishCmd f q idx status detail disp disc).mem = s.mem :=
  (congrArg State.mem (finishCmd_rest s f q idx status detail disp disc) :)

@[simp] theorem finishCmd_tlbs (s : State) (f q idx status detail disp disc : Nat) : (s.finishCmd f q idx status detail disp disc).tlbs = s.tlbs :=
  (congrArg State.tlbs (finishCmd_rest s f q idx status detail disp disc) :)

@[simp] theorem finishCmd_parts (s : State) (f q idx status detail disp disc : Nat) : (s.finishCmd f q idx status detail disp disc).parts = s.parts :=
  (congrArg State.parts (finishCmd_rest s f q idx status detail disp disc) :)

@[simp] theorem finishCmd_regions (s : State) (f q idx status detail disp disc : Nat) :
    (s.finishCmd f q idx status detail disp disc).regions = s.regions :=
  (congrArg State.regions (finishCmd_rest s f q idx status detail disp disc) :)

theorem counters_modQueue (s : State) (f q : Nat) (g : Queue → Queue) (f' : Nat) : ((s.modQueue f q g).fn f').counters = (s.fn f').counters := by
  unfold State.modQueue
  split
  · rw [State.setQueue, State.fn_modFn]
    split
    · next h => rw [h]
    · rfl
  · rfl

/-! ### Translations, the map and the queues (R79, R354, R385, R394) -/

/-- What TFLUSH leaves of the TLBs. -/
theorem tlbs_flushed (here : List Nat) (asid : BitVec 16) (tlbs : List (Nat × List TlbEntry)) (k : Nat) (l : List TlbEntry) (hk : k ∈ here)
    (h : alook k (tlbs.map fun e => if here.contains e.1 then (e.1, e.2.filter fun t => t.asid ≠ asid) else e) = some l) : ∀ t ∈ l,
      t.asid ≠ asid := by
  induction tlbs with
  | nil => simp [alook] at h
  | cons e tl ih =>
    rw [List.map_cons] at h
    by_cases he : e.1 = k
    · have hc : here.contains e.1 = true := by simpa [he] using hk
      rw [if_pos hc, alook, if_pos he, Option.some.injEq] at h
      intro t ht
      rw [← h] at ht
      simpa using (List.mem_filter.mp ht).2
    · refine ih ?_
      split at h
      · rwa [alook, if_neg he] at h
      · obtain ⟨k', v⟩ := e
        rwa [alook, if_neg he] at h

theorem extract_low6_of_mod {n : Nat} (h : n % 64 = 0) : (BitVec.ofNat 64 n).extractLsb' 0 6 = 0 := by
  apply BitVec.eq_of_toNat_eq
  simp
  omega

theorem State.HomeKept.stages (s : State) (p : Nat) : s.HomeKept (s.stages p).2 := by
  unfold State.stages
  split
  · exact .refl s
  · next q _ =>
    refine .trans (.homeReadBytes s p q.drover.block 8) ?_
    exact .foldl_at (fun acc : List Stage × State => acc.2) _ (fun acc i => .homeReadBytes acc.2 p (stagePa q.drover.block i) 64) _
      ([], (s.homeReadBytes p q.drover.block 8).2)

theorem part?_of_parts {s s' : State} (h : s'.parts = s.parts) (p : Nat) : s'.part? p = s.part? p := by rw [State.part?, State.part?, h]

theorem region?_of_regions {s s' : State} (h : s'.regions = s.regions) (r : Nat) : s'.region? r = s.region? r := by
  rw [State.region?, State.region?, h]

theorem State.HomeKept.drover {s s' : State} (h : s.HomeKept s') {p : Nat} {q : Part} (hq : s.part? p = some q) :
    ∃ q', s'.part? p = some q' ∧ q'.drover = q.drover := by
  have hp := h.part? p
  rw [hq] at hp
  obtain ⟨q', hq', he⟩ := Option.map_eq_some_iff.mp hp
  exact ⟨q', hq', (congrArg Part.drover he :)⟩

/-- DROVER off: the block is noted, the drover stands. -/
theorem execDrover_off {s : State} {x : EvCmd} {p : Part} (h : CmdRuns s x [argD 0, argF 1 0 1]) (howns : s.fnOwns x.fn (cmdArg x.cmd 0) 1088 = true)
    (hpriv : s.fnPriv x.fn (cmdArg x.cmd 0) 1088 = true) (hoff : cmdArg x.cmd 1 = 0) (hp : s.part? (s.fn x.fn).part = some p) :
    ∃ s' p', exec (.drover x) s = .next s' ∧ s'.part? (s.fn x.fn).part = some p' ∧ p'.drover.on = false ∧ p'.drover.block = cmdArg x.cmd 0 := by
  let k := (s.fn x.fn).part
  let b := cmdArg x.cmd 0
  let s1 := s.modPart k fun q => { q with drover := { q.drover with block := b } }
  let s2 := (s1.stages k).2
  let r := s2.homeReadBytes k b 1
  let s4 := r.2.homeWriteBytes k b (toBytes 1 (ofBytes r.1 / 2 * 2 + bitN false)) none
  let s5 := s4.modPart k fun q => { q with drover := { q.drover with on := false } }
  have h1 : s1.part? k = some { p with drover := { p.drover with block := b } } := by
    rw [State.part?_modPart, if_pos rfl, hp]
    rfl
  have hk : s1.HomeKept s4 := ((State.HomeKept.stages s1 k).trans (.homeReadBytes s2 k b 1)).trans (.homeWriteBytes r.2 k b _ none)
  obtain ⟨q4, hq4, hd⟩ := hk.drover h1
  refine ⟨s5.endCmd x 0, { q4 with drover := { q4.drover with on := false } }, ?_, ?_, rfl, ?_⟩
  · refine (rfl : _ = execDrover x s).trans ?_
    rw [execDrover, asCommand_plain h]
    have h10 : ¬cmdArg x.cmd 1 = 1 := by omega
    simp only [howns, hpriv, h10, decide_false, Bool.not_true, Bool.false_eq_true, if_false, Bool.false_and]
    rfl
  · refine (part?_of_parts (finishCmd_parts s5 x.fn x.q x.idx 0 0 0 0) k).trans ?_
    rw [State.part?_modPart, if_pos rfl, hq4]
    rfl
  · exact (congrArg Drover.block hd :)

theorem commandsOfTheFunction : CommandsOfTheFunction := by
  unfold CommandsOfTheFunction
  refine fun s x => ⟨fun h => ?_, fun h => ?_, fun p held h hp hheld => ⟨fun ht => ?_, fun hf => ?_⟩, fun p h hp hreach => ?_,
    fun p h hq hf hp howns hreach => ?_, fun h hq hne hal hnone hreach => ?_, fun y h hq hne hy hst hsl => ?_,
    fun p h howns hpriv hoff hp => execDrover_off h howns hpriv hoff hp⟩
  · exact (rfl : _ = execNopCommand x s).trans (asCommand_plain h _)
  · let s1 := s.modFn x.fn fun y =>
      { y with counters := aset (cmdArg x.cmd 0) (y.counter (cmdArg x.cmd 0) + BitVec.ofNat 64 (cmdArg x.cmd 1)) y.counters }
    refine ⟨(s1.endCmd x 0).retryWaits x.fn, (rfl : _ = execSignal x s).trans (asCommand_plain h _), ?_⟩
    have hc : (((s1.endCmd x 0).retryWaits x.fn).fn x.fn).counters = (s1.fn x.fn).counters := counters_modQueue ..
    rw [Fn.counter, hc, State.fn_modFn, if_pos rfl, alook_aset_self]
    rfl
  · refine (rfl : _ = execTflush x s).trans ?_
    rw [execTflush, asCommand_plain h]
    simp only [hp, Option.elim_some]
    rw [if_pos (hheld.symm.trans ht)]
  · let asid := BitVec.ofNat 16 (cmdArg x.cmd 0)
    let s1 : State := { s with
      tlbs := s.tlbs.map fun e => if (homeList p).contains e.1 then (e.1, e.2.filter fun t => t.asid ≠ asid) else e
      threads := s.threads.map fun e => if s.inAsid (homeList p) asid e then (e.1, s.againWalks e.2) else e }
    refine ⟨s1.endCmd x 0, ?_, finishCmd_mem .., fun k l hk hl => ?_⟩
    · refine (rfl : _ = execTflush x s).trans ?_
      rw [execTflush, asCommand_plain h]
      simp only [hp, Option.elim_some]
      rw [if_neg (by rw [← hheld, hf]; exact Bool.false_ne_true)]
    · rw [State.endCmd, finishCmd_tlbs] at hl
      exact tlbs_flushed _ _ _ k l hk hl
  · refine (rfl : _ = execMapq x s).trans ?_
    rw [execMapq, asCommand_plain h]
    simp only [hp, hreach, Bool.not_true, Bool.false_eq_true, if_false]
    rfl
  · refine (rfl : _ = execDirdump x s).trans ?_
    rw [execDirdump, asCommand_runs h (fun _ => hq) fun _ => hf]
    simp only [hp, howns, hreach, Bool.not_true, Bool.or_self, Bool.false_eq_true, if_false]
    rfl
  · obtain ⟨_, y, hy, ha⟩ := queue?_createQueue s x.fn (cmdArg x.cmd 0) (BitVec.ofNat 64 (cmdArg x.cmd 1)) (some (x.q, x.idx))
    refine ⟨_, y, ?_, hy, ha⟩
    refine (rfl : _ = execQcreate x s).trans ?_
    rw [execQcreate, asCommand_runs h (fun _ => hq) fun h => absurd h Bool.false_ne_true]
    simp only [hnone, hreach, hne, extract_low6_of_mod hal, Option.any_none, decide_false, ne_eq, not_true, Bool.or_self, Bool.not_true,
      Bool.false_eq_true,
      if_false]
  · let s1 := s.setQueue x.fn (cmdArg x.cmd 0) { y with destroyers := y.destroyers ++ [(x.q, x.idx)] }
    obtain ⟨y', hy', hd⟩ := startDrain_empty (s := s1) (State.queue?_setQueue_self ..) hst hsl
    refine ⟨s1.startDrain x.fn (cmdArg x.cmd 0), y', ?_, hy', hd⟩
    refine (rfl : _ = execQdestroy x s).trans ?_
    rw [execQdestroy, asCommand_runs h (fun _ => hq) fun h => absurd h Bool.false_ne_true]
    simp [hne, hy, hst, s1]

/-! ### The region commands (R291, R292, R341, R346) -/

theorem State.HomeKept.siblingBefore (p rcb fuel : Nat) (s : State) (a : Nat) : s.HomeKept (s.siblingBefore p rcb a fuel).2 := by
  induction fuel generalizing s a with
  | zero => exact .refl s
  | succ fuel ih =>
    unfold State.siblingBefore
    split
    · exact .refl s
    · have hread := State.HomeKept.homeReadBytes s p (a + 16) 8
      dsimp only
      split
      · exact hread
      · exact hread.trans (ih _ _)

theorem State.HomeKept.region?_none {s s' : State} (h : s.HomeKept s') {r : Nat} (hn : s.region? r = none) : s'.region? r = none := by
  have hr := h.region? r
  rw [hn] at hr
  exact Option.map_eq_none_iff.mp hr

/-- A region that has left its tree is gone. -/
theorem region?_unlinkRegion (s : State) (rcb : Nat) (r : Region) : (s.unlinkRegion rcb r).region? rcb = none := by
  unfold State.unlinkRegion
  extract_lets s1
  have h1 : s1.region? rcb = none := (alook_adel ..).trans (if_pos rfl)
  split
  · exact h1
  · split
    next sib s2 hs2 =>
    split
    next first s3 hs3 =>
    have h3 : s1.HomeKept s3 := by
      have ha := State.HomeKept.homeReadBytes s1 r.part (rcb + 16) 8
      have hb := State.HomeKept.homeReadBytes s2 r.part (r.parent + 8) 8
      rw [hs2] at ha
      rw [hs3] at hb
      exact ha.trans hb
    extract_lets put s4
    have h4 : s3.HomeKept s4 := by
      unfold s4
      split
      · exact .homeWriteBytes s3 r.part _ sib none
      · have hs := State.HomeKept.siblingBefore r.part rcb (s3.regions.length + 1) s3 (ofBytes first)
        split
        · next he => rw [he] at hs; exact hs.trans (.homeWriteBytes _ r.part _ sib none)
        · next he => rw [he] at hs; exact hs
    have hn : s4.region? rcb = none := (h3.trans h4).region?_none h1
    rw [State.region?_modRegion]
    split
    · next hp => rw [hp, hn]; rfl
    · exact hn

theorem regionCommands : RegionCommands := by
  unfold RegionCommands
  refine fun s x => ⟨fun s1 h hsl hgo => ?_, fun p h hsl hp howns hn => ?_, fun r hr => ⟨fun h hst hdue => ?_, fun h hst => ?_, fun h => ?_,
    fun bs s1 h hpr htab hgood => ?_⟩⟩
  · refine (rfl : _ = execLaunch x s).trans ?_
    obtain ⟨y, hy, _, hstep⟩ := h.1
    rw [execLaunch, asCommand_plain h]
    simp only [hy, hsl, hstep, hgo, Bool.false_eq_true, if_false, if_true]
  · refine (rfl : _ = execLaunch x s).trans ?_
    obtain ⟨y, hy, _, hstep⟩ := h.1
    have hset : s.launchSetup x (cmdArg x.cmd 0) = .fail 3 0 := by
      simp [State.launchSetup, hp, howns, nparts, hn]
    rw [execLaunch, asCommand_plain h]
    simp only [hy, hsl, hstep, hset, Bool.false_eq_true, if_false, if_true]
    rfl
  · refine ⟨(s.unlinkRegion (cmdArg x.cmd 0) r).endCmd x 0, ?_, (region?_of_regions (finishCmd_regions ..) _).trans (region?_unlinkRegion ..)⟩
    refine (rfl : _ = execRrelease x s).trans ?_
    rw [execRrelease, regionCommand_runs h hr]
    simp [hst, hdue]
  · refine (rfl : _ = execRrelease x s).trans ?_
    rw [execRrelease, regionCommand_runs h hr]
    simp [hst, State.endCmd]
  · let s1 := s.modRegion (cmdArg x.cmd 0) fun r => { r with prio := cmdArg x.cmd 1 }
    have h1 : s1.region? (cmdArg x.cmd 0) = some { r with prio := cmdArg x.cmd 1 } := by
      rw [State.region?_modRegion, if_pos rfl, region?_of_regionFor hr]
      rfl
    refine ⟨_, { r with prio := cmdArg x.cmd 1 }, (rfl : _ = execRprio x s).trans (regionCommand_runs h hr _), ?_, rfl⟩
    refine (region?_of_regions ((finishCmd_regions ..).trans ?_) _).trans h1
    refine foldl_keeps State.regions _ _ (fun s c _ => ?_) s1
    exact State.modCore_regions s c _
  · refine (rfl : _ = execPostset x s).trans ?_
    rw [execPostset, regionCommand_runs h hr]
    have hl : ((postList (r.posts &&& BitVec.ofNat 64 (cmdArg x.cmd 1))).any fun i => postBad (postEntry bs i)) = false := by
      rw [List.any_eq_false]
      intro i hi
      rw [hgood i (List.mem_range.mp (List.mem_filter.mp hi).1)]
      exact Bool.false_ne_true
    simp only [hpr, htab, hl, Bool.not_true, Bool.false_eq_true, if_false]
    rfl

/-- Settles O40: a command in a running slot passes the checks that all share, and its effect is what its completion, which touches the queues
alone, leaves. -/
theorem commands : Obligations.Commands := ⟨commandsOfTheFunction, regionCommands⟩

end Sys2Proof.Machine
end

/-! ## O41: the beginning of switches -/
section
namespace Sys2Proof.Machine
open Sys2Proof.Claims

theorem State.StopKept.startStops (s : State) (g : Nat) (w : Switch) :
    (s.modRegion g fun r => { r with switch := some w }).StopKept (s.startSwitch g w) := by
  unfold State.startSwitch
  exact ((State.StopKept.switchMask _ g w true).trans (.stopAll _ g w _)).trans (.timer _ _ _)

/-- A switch that begins stands at its region as it was begun, but for what it collects. -/
theorem startSwitch_switch {s : State} {g : Nat} {r : Region} (hr : s.region? g = some r) (w : Switch) :
    ∃ r' w', (s.startSwitch g w).region? g = some r' ∧ r'.switch = some w' ∧ w' = { w with saved := w'.saved, stopped := w'.stopped } := by
  refine (State.StopKept.startStops s g w).switch (r := { r with switch := some w }) ?_ rfl
  rw [State.region?_modRegion, if_pos rfl, hr]
  rfl

theorem State.HomeKept.region?_some {s s' : State} (h : s.HomeKept s') {g : Nat} {r : Region} (hr : s.region? g = some r) :
    ∃ r', s'.region? g = some r' := by
  have hg := h.region? g
  rw [hr] at hg
  obtain ⟨r', hr', _⟩ := Option.map_eq_some_iff.mp hg
  exact ⟨r', hr'⟩

/-! ### PREEMPT and RESTORE (R371 to R375) -/

theorem cmdBits_arg (c : BitVec 1024) (i lo n : Nat) (h : lo + n ≤ 64) : cmdBits c (256 + 64 * i + lo) n = cmdArg c i / 2 ^ lo % 2 ^ n := by
  have hs : 2 ^ 64 = 2 ^ lo * 2 ^ (64 - lo) := by rw [← pow_add]; congr 1; omega
  have hd : 2 ^ n ∣ 2 ^ (64 - lo) := pow_dvd_pow 2 (by omega)
  simp only [cmdArg, cmdBits, BitVec.extractLsb'_toNat, Nat.shiftRight_eq_div_pow]
  rw [hs, Nat.mod_mul_right_div_self, Nat.mod_mod_of_dvd _ hd, Nat.div_div_eq_div_mul, ← pow_add]

theorem preemptWith_runs {s : State} {x : EvCmd} {r : Region} {us : Nat} (hr : s.regionFor x.fn (cmdArg x.cmd 0) = .ok r)
    (hus : us = cmdArg x.cmd 1 / 2 ^ 32 % 2 ^ 16) (h : CmdRuns s x (argD 0 :: preemptFields)) (howns : s.fnOwns x.fn (cmdArg x.cmd 2) 1 = true)
    (harea : s.areaOk x.fn (cmdArg x.cmd 2) r = true) (hlo : 10 ≤ us) (hhi : us ≤ 10000) (hsw : r.switch = none) (hst : r.rstate ≠ .ended)
    (f : Nat → Region → Nat → Nat → State → State) :
    preemptWith x s f = .next (f (cmdArg x.cmd 0) r (cmdArg x.cmd 2) (s.gt + 1000 * us) s) := by
  have hbits : cmdBits x.cmd (256 + 64 + 32) 16 = us := (cmdBits_arg x.cmd 1 32 16 (by omega)).trans hus.symm
  rw [preemptWith, regionCommand_runs h hr]
  simp [howns, harea, hbits, hsw, hst, Nat.not_lt.mpr hlo, Nat.not_lt.mpr hhi]

theorem execPreemptSpatial_runs {s s1 : State} {x : EvCmd} {r : Region} {us n : Nat} {a : Word} {bs : List Byte} {l : List Nat} {hosts : List (Nat × Nat)}
    (hr : s.regionFor x.fn (cmdArg x.cmd 0) = .ok r) (hrun : ∀ f,
      preemptWith x s f = .next (f (cmdArg x.cmd 0) r (cmdArg x.cmd 2) (s.gt + 1000 * us) s))
    (hmode : cmdArg x.cmd 1 % 4 = 1) (hn : n = cmdArg x.cmd 1 / 2 ^ 16 % 2 ^ 14) (hpos : 0 < n) (ha : a = BitVec.ofNat 64 (cmdArg x.cmd 3))
    (hreach : s.fnReach x.fn a (2 * n) = true) (hread : s.fnRead x.fn a (2 * n) = (bs, s1)) (hmap : mapEntries bs n = some l) (hnd : l.Nodup)
    (hall : (l.all fun k => r.cmap.contains k && r.aliases.all fun e => clusterOf e.1 ≠ k && clusterOf e.2 ≠ k) = true)
    (hhosts : s1.pickHosts r l l = some hosts) :
    ∃ s' r' w, exec (.preemptSpatial x) s = .next s' ∧ s'.region? (cmdArg x.cmd 0) = some r' ∧ r'.switch = some w ∧ w.mode = 2 ∧
      w.engines = hosts ∧ w.deadline = s.gt + 1000 * us := by
  let w0 := Switch.begin 2 (cmdArg x.cmd 2) (s.gt + 1000 * us) (some (x.fn, (x.q, x.idx))) (s1.coreMoves hosts) hosts
  have hk := State.HomeKept.fnRead s x.fn a (2 * n)
  rw [hread] at hk
  obtain ⟨r1, hr1⟩ := hk.region?_some (region?_of_regionFor hr)
  obtain ⟨r', w, hr', hw, he⟩ := startSwitch_switch hr1 w0
  refine ⟨s1.startSwitch (cmdArg x.cmd 0) w0, r', w, ?_, hr', hw, (congrArg Switch.mode he :), (congrArg Switch.engines he :),
    (congrArg Switch.deadline he :)⟩
  have hm : cmdBits x.cmd (256 + 64) 2 = 1 := by
    have := cmdBits_arg x.cmd 1 0 2 (by omega)
    rw [this]
    simpa using hmode
  have hb : cmdBits x.cmd (256 + 64 + 16) 14 = n := (cmdBits_arg x.cmd 1 16 14 (by omega)).trans hn.symm
  have hno : (!decide l.Nodup || !(l.all fun k => r.cmap.contains k && r.aliases.all fun e => clusterOf e.1 ≠ k && clusterOf e.2 ≠ k)) = false := by
    rw [hall, decide_eq_true hnd]
    rfl
  subst ha
  refine (rfl : _ = execPreemptSpatial x s).trans ?_
  rw [execPreemptSpatial, hrun]
  simp only [hm, hb, hpos.ne', hreach, hread, hmap, hno, hhosts, ne_eq, not_true, decide_false, Bool.or_self, Bool.not_true, Bool.false_eq_true,
    if_false]
  rfl

theorem execRestore_runs {s : State} {x : EvCmd} {r : Region} (hr : s.regionFor x.fn (cmdArg x.cmd 0) = .ok r) (h : CmdRuns s x [argD 0, argD 1])
    (howns : s.fnOwns x.fn (cmdArg x.cmd 1) 1 = true) :
    (∀ w, r.switch = some w → w.done = true → (w.sva = cmdArg x.cmd 1 ∨ ∀ v ∈ r.vacated, v.sva ≠ cmdArg x.cmd 1) → w.restore = none →
      s.areaOk x.fn (cmdArg x.cmd 1) r = true → exec (.restore x) s = .next (s.modSwitch (cmdArg x.cmd 0) fun w =>
        { w with sva := cmdArg x.cmd 1, restore := some (x.fn, (x.q, x.idx)) })) ∧
    (∀ w, r.switch = none → r.vacated.getLast? = some w → (∀ v ∈ r.vacated, v.sva ≠ cmdArg x.cmd 1) →
      s.areaOk x.fn (cmdArg x.cmd 1) r = true → exec (.restore x) s = .next (s.modRegion (cmdArg x.cmd 0) fun r =>
        { r with switch := some { w with sva := cmdArg x.cmd 1, restore := some (x.fn, (x.q, x.idx)) }, vacated := r.vacated.filter (· ≠ w) })) ∧
    (r.switch = none → r.vacated = [] → exec (.restore x) s = .next (s.finishCmd x.fn x.q x.idx 3 0 0 0)) := by
  have hrun := regionCommand_runs (fields := [argD 1]) h hr
  refine ⟨fun w hw hd hsva hres harea => ?_, fun w hw hl hno harea => ?_, fun hw hv => ?_⟩
  · refine (rfl : _ = execRestore x s).trans ?_
    rw [execRestore, hrun]
    have hwait : (!w.done || (decide (w.sva ≠ cmdArg x.cmd 1) && r.vacated.any fun v => v.sva = cmdArg x.cmd 1)) = false := by
      rcases hsva with h | h
      · simp [hd, h]
      · simpa [hd] using fun _ => h
    simp only [howns, harea, hw, hwait, hres, Option.isSome_none, Bool.not_true, Bool.false_eq_true, if_false]
  · refine (rfl : _ = execRestore x s).trans ?_
    rw [execRestore, hrun]
    have hto : r.toReturn (cmdArg x.cmd 1) = some w := by
      rw [Region.toReturn, List.find?_eq_none.mpr fun v hv => by simpa using hno v hv]
      exact hl
    simp only [howns, harea, hw, hto, Bool.not_true, Bool.false_eq_true, if_false]
  · refine (rfl : _ = execRestore x s).trans ?_
    rw [execRestore, hrun]
    have hto : r.toReturn (cmdArg x.cmd 1) = none := by simp [Region.toReturn, hv]
    simp only [howns, hw, hto, Bool.not_true, Bool.false_eq_true, if_false]
    split <;> rfl

theorem switchCommands (s : State) (x : EvCmd) (r : Region) (us : Nat) (hr : s.regionFor x.fn (cmdArg x.cmd 0) = .ok r)
    (hus : us = cmdArg x.cmd 1 / 2 ^ 32 % 2 ^ 16) (h : CmdRuns s x (argD 0 :: preemptFields)) (howns : s.fnOwns x.fn (cmdArg x.cmd 2) 1 = true)
    (harea : s.areaOk x.fn (cmdArg x.cmd 2) r = true) (hlo : 10 ≤ us) (hhi : us ≤ 10000) (hsw : r.switch = none) (hst : r.rstate ≠ .ended) :
    ∃ s' r' w, exec (.preemptSwitch x) s = .next s' ∧ s'.region? (cmdArg x.cmd 0) = some r' ∧ r'.switch = some w ∧
      w.mode = (if r.swmode then 1 else 0) ∧ w.sva = cmdArg x.cmd 2 ∧ w.deadline = s.gt + 1000 * us ∧ w.done = false := by
  let w0 := Switch.begin (if r.swmode then 1 else 0) (cmdArg x.cmd 2) (s.gt + 1000 * us) (some (x.fn, (x.q, x.idx))) [] []
  obtain ⟨r', w, hr', hw, he⟩ := startSwitch_switch (region?_of_regionFor hr) w0
  exact ⟨s.startSwitch (cmdArg x.cmd 0) w0, r', w,
    (rfl : _ = execPreemptSwitch x s).trans (preemptWith_runs hr hus h howns harea hlo hhi hsw hst _), hr', hw, (congrArg Switch.mode he :),
    (congrArg Switch.sva he :), (congrArg Switch.deadline he :), (congrArg Switch.done he :)⟩

/-! ### RESIZE, deadlines, quanta and the removal of a core (R370, R376, R377, R396) -/

theorem execResize_runs {s : State} {x : EvCmd} {q : Part} {l : List Nat} (h : CmdRuns s x [argF 0 0 6, argD 1, argD 2, argF 3 0 32]) (hq : x.q = 0)
    (hf : x.fn = 0) (hp : s.part? (cmdArg x.cmd 0) = some q) (hl : l = tractList x.cmd) (hne : l ≠ []) (hres : q.resize = none)
    (hok : (s.modPart (cmdArg x.cmd 0) fun q => { q with tracts := l }).partsOk = true)
    (hfree : ∀ e ∈ s.parts, e.1 = cmdArg x.cmd 0 ∨ ∀ t ∈ l, e.2.tracts.contains t = false) (hroom : q.blocksUsed ≤ q.cvw * 512 * (64 * l.length))
    (hleave : s.leaving (cmdArg x.cmd 0) l = []) :
    exec (.resize x) s = .next (s.modPart (cmdArg x.cmd 0) fun q => { q with resize := some ⟨l, (x.fn, (x.q, x.idx)), []⟩ }) := by
  subst hl
  have hany : (s.parts.any fun e => e.1 ≠ cmdArg x.cmd 0 && (tractList x.cmd).any fun t => e.2.tracts.contains t) = false := by
    rw [List.any_eq_false]
    intro e he
    rcases hfree e he with h | h
    · simp [h]
    · simpa using fun _ t ht => by simpa using h t ht
  refine (rfl : _ = execResize x s).trans ?_
  rw [execResize, asCommand_runs h (fun _ => hq) fun _ => hf]
  have hemp : (tractList x.cmd).isEmpty = false := by simpa using hne
  simp only [hp, hemp, hres, hany, hok, hleave, Nat.not_lt.mpr hroom, Option.isSome_none, Bool.or_self, Bool.not_true, Bool.false_eq_true, if_false,
    List.any_nil, List.map_nil, List.foldl_nil]

theorem switchDeadline (s : State) (g : Nat) (r : Region) (w : Switch) (hr : s.region? g = some r) (hw : r.switch = some w) :
    ((w.done = true ∨ s.gt < w.deadline) → exec (.switchDeadline ⟨g⟩) s = .next s) ∧
    (w.done = false → w.deadline ≤ s.gt → ∃ s' r' w', exec (.switchDeadline ⟨g⟩) s = .next s' ∧ s'.region? g = some r' ∧ r'.switch = some w' ∧
      w'.cut = true) := by
  have hs : (s.region? g).bind (·.switch) = some w := by rw [hr]; exact hw
  constructor
  · intro h
    refine (rfl : _ = execSwitchDeadline ⟨g⟩ s).trans ?_
    simp only [execSwitchDeadline, hs]
    rcases h with h | h <;> simp [h]
  · intro hd hle
    let s1 := s.stopAll g w true
    let mine := ((s1.region? g).bind (·.switch)).elim [] (·.stopped)
    let l := s1.threads.filter fun e => e.2.region = g && w.covers e.1.1 && e.2.st == .stopped
    let s2 := l.foldl (fun s e => s.cutSends (mine.contains e.2.tid) e.1.1 e.1.2) s1
    have hk : s.StopKept s2 := (State.StopKept.stopAll s g w true).trans (.foldl _ _ (fun s e _ => .cutSends s _ _ _) s1)
    obtain ⟨r2, w2, hr2, hw2, _⟩ := hk.switch hr hw
    refine ⟨s2.modSwitch g fun w => { w with cut := true }, { r2 with switch := some { w2 with cut := true } }, { w2 with cut := true }, ?_, ?_,
      rfl, rfl⟩
    · refine (rfl : _ = execSwitchDeadline ⟨g⟩ s).trans ?_
      simp only [execSwitchDeadline, hs, hd, Nat.not_lt.mpr hle, decide_false, Bool.or_self, Bool.false_eq_true, if_false]
      rfl
    · rw [State.modSwitch, State.region?_modRegion, if_pos rfl, hr2]
      simp [hw2]

theorem standing_startSwitch (s : State) (g : Nat) (w : Switch) (p : Nat) :
    ((s.startSwitch g w).part? p).map Part.standing = (s.part? p).map Part.standing :=
  ((State.StopKept.startStops s g w).parts p).trans (congrArg (Option.map Part.standing) (part?_of_parts (State.modRegion_parts s g _) p))

theorem part?_freeArea (s : State) (n p : Nat) : (s.freeArea n).2.part? p = s.part? p := rfl

/-- The world switch of a partition, which what its regions do leaves. -/
theorem world_of_standing {q q' : Part} (h : q'.standing = q.standing) : q'.world = q.world := (congrArg Part.world h :)

theorem execQuantumExpiry_switch {s : State} {p : Nat} {q : Part} {f : Nat} (hq : s.part? p = some q) (hf : q.nextFn = some f) (hw : q.world = none)
    (hres : q.resize = none) : ∃ s' q', exec (.quantumExpiry ⟨p⟩) s = .next s' ∧ s'.part? p = some q' ∧ q'.world = some ⟨q.active, f, false,
      false⟩ := by
  let s1 := s.modPart p fun q => { q with world := some ⟨q.active, f, false, false⟩ }
  let mine := (s1.regionsOf q.active).filter fun e => e.2.part = p
  let s2 := (mine.filter fun e => e.2.switch.any (·.done)).foldl (fun s e => s.dropKept e.1) s1
  let s3 := (mine.filter fun e => e.2.switch.any fun w => !w.done).foldl (fun s e => s.modSwitch e.1 fun w => { w with drop := true }) s2
  let s4 := (mine.filter fun e => e.2.switch.isNone).foldl (fun s e =>
    (s.freeArea p).2.startSwitch e.1 { Switch.begin (if e.2.swmode then 1 else 0) (s.freeArea p).1 ((s.freeArea p).2.gt + 1000000) none [] [] with world := true }) s3
  have h1 : s1.part? p = some { q with world := some ⟨q.active, f, false, false⟩ } := by
    rw [State.part?_modPart, if_pos rfl, hq]
    rfl
  have h2 : s1.StopKept s2 := .foldl _ _ (fun s e _ => .foldl _ _ (fun s e _ => .dropCons s _ _ false) s) s1
  have h3 : (s3.part? p).map Part.standing = (s2.part? p).map Part.standing :=
    foldl_keeps (fun s : State => (s.part? p).map Part.standing) _ _
      (fun s e _ => congrArg (Option.map Part.standing) (part?_of_parts (State.modRegion_parts s e.1 _) p)) s2
  have h4 : (s4.part? p).map Part.standing = (s3.part? p).map Part.standing :=
    foldl_keeps (fun s : State => (s.part? p).map Part.standing) _ _
      (fun s e _ => by rw [standing_startSwitch, part?_freeArea]) s3
  have he := h4.trans (h3.trans (h2.parts p))
  rw [h1] at he
  obtain ⟨q', hq', hst⟩ := Option.map_eq_some_iff.mp he
  refine ⟨s4, q', ?_, hq', world_of_standing hst⟩
  refine (rfl : _ = execQuantumExpiry ⟨p⟩ s).trans ?_
  simp only [execQuantumExpiry, hq, hf, hw, hres, Option.isSome_none, Bool.or_self, Bool.false_eq_true, if_false]
  rfl

theorem execCoreRemoval_single {s : State} {c h g : Nat} {r : Region} (hreg : s.regions = [(g, r)]) (hsw : r.switch = none) (hp : r.present = true)
    (hmap : r.cmap.contains (clusterOf c) = true) (hal : r.aliases = []) (hcl : clusterOf h = clusterOf c) (hne : h ≠ c) (hh : s.coreEnabled h = true)
    (hc : s.coreEnabled c = true) : ∃ s' r' w, exec (.coreRemoval ⟨c, h⟩) s = .next s' ∧ s'.region? g = some r' ∧ r'.switch = some w ∧ w.mode = 2 ∧
      w.moves = [(c, h)] ∧ w.keep = true := by
  have hhost : ∀ n, r.hostOf n = n := fun n => by simp [Region.hostOf, hal, alook]
  have hr : s.region? g = some r := by simp [State.region?, hreg, alook]
  let w0 : Switch := { Switch.begin 2 (s.freeArea r.part).1 ((s.freeArea r.part).2.gt + 1000000) none [(c, h)] [] with keep := true }
  obtain ⟨r', w, hr', hw, he⟩ := startSwitch_switch (s := (s.freeArea r.part).2) hr w0
  refine ⟨(s.freeArea r.part).2.startSwitch g w0, r', w, ?_, hr', hw, (congrArg Switch.mode he :), (congrArg Switch.moves he :),
    (congrArg Switch.keep he :)⟩
  refine (rfl : _ = execCoreRemoval ⟨c, h⟩ s).trans ?_
  have hl : (s.regions.filter fun e => e.2.present && e.2.cmap.contains (clusterOf c) && e.2.hostOf c = c).map (·.1) = [g] := by
    rw [hreg]
    simp [hp, hhost, List.contains_iff_mem.mp hmap]
  have hf : ((s.region? g).filter fun r => r.switch.isNone) = some r := by simp [hr, hsw]
  simp only [execCoreRemoval, hl]
  simp only [hcl, hne, hh, hc, hr, hsw, hhost, List.any_cons, List.any_nil, Option.any_some, List.foldl_cons, List.foldl_nil, ne_eq, not_true,
    decide_false,
    Option.isSome_none, Bool.or_self, Bool.not_true, Bool.false_eq_true, if_false]
  rw [hr] at hf
  simp only [hf]
  rfl

/-- Settles O41: a command that passes its checks begins the switch that it names, and the stops that follow leave the switch, its region and the
partition as they are, but for what the switch collects. -/
theorem switchesBegin : Obligations.SwitchesBegin := by
  unfold Obligations.SwitchesBegin
  refine ⟨fun s x r us hr hus => ⟨fun h howns harea hlo hhi hsw hst =>
      ⟨switchCommands s x r us hr hus h howns harea hlo hhi hsw hst, fun n a bs s1 l hosts hmode hn hpos ha hreach hread hmap hnd hall hhosts => ?_⟩,
      fun w h hw hd hsva hres howns harea => ?_, fun w h hw hl hno howns harea => ?_, fun h hw hv howns => ?_⟩,
    fun s x q l h hq hf hp hl hne hres hok hfree hroom hleave => execResize_runs h hq hf hp hl hne hres hok hfree hroom hleave,
    switchDeadline, fun s p q hq => ⟨fun hn => ?_, fun f hf hw hres => execQuantumExpiry_switch hq hf hw hres⟩,
    fun s c h g r hreg hsw hp hmap hal hcl hne hh hc => execCoreRemoval_single hreg hsw hp hmap hal hcl hne hh hc⟩
  · exact execPreemptSpatial_runs hr (preemptWith_runs hr hus h howns harea hlo hhi hsw hst) hmode hn hpos ha hreach hread hmap hnd hall hhosts
  · exact (execRestore_runs hr h howns).1 w hw hd hsva hres harea
  · exact (execRestore_runs hr h howns).2.1 w hw hl hno harea
  · exact (execRestore_runs hr h howns).2.2 hw hv
  · refine (rfl : _ = execQuantumExpiry ⟨p⟩ s).trans ?_
    simp only [execQuantumExpiry, hq, hn]

end Sys2Proof.Machine
end

/-! ## O43: the module -/
section
namespace Sys2Proof.Machine
open Sys2Proof.Claims

/-- With a log too small for any record a report leaves the state, but for a fresh word. -/
theorem physReport_noLog {s : State} (h : s.ras.pllog2n = 0) (p : Option Nat) (e : ErrEvent) : s.physReport p e = s.freeWord.2 := by
  unfold State.physReport
  exact if_pos (by rw [h]; rfl)

/-- A sector that nothing has newer is poisoned by the scrub, with the kind of DRAM (R411, R413). -/
theorem scrubPoison_poisons {s : State} {sec : Nat} (ho : s.ownerOf (64 * sec) = none) (hlog : s.ras.pllog2n = 0) (hreg : s.registersAt (64 * sec) = none)
    (h1 : s.l1Ahead sec = false) (h2 : s.l2Ahead sec = false) (hp : s.poisonOf sec = none) :
    s.scrubPoison sec = s.freeWord.2.setPoison sec (some 7) := by
  have hreg' : (s.freeWord.2.setPoison sec (some 7)).registersAt (64 * sec) = none := hreg
  have hnew : (s.freeWord.2.l1Ahead sec || s.freeWord.2.l2Ahead sec || (s.freeWord.2.poisonOf sec).isSome) = false := by
    rw [show s.freeWord.2.l1Ahead sec = false from h1, show s.freeWord.2.l2Ahead sec = false from h2, show s.freeWord.2.poisonOf sec = none from hp]
    rfl
  unfold State.scrubPoison
  rw [ho]
  simp only [Option.map_none, State.report, physReport_noLog hlog]
  refine (congrArg (fun b : State => if b.l1Ahead sec || b.l2Ahead sec || (b.poisonOf sec).isSome then b else b.poisonMem sec 7)
    (show _ = s.freeWord.2 from rfl)).trans ?_
  rw [hnew]
  refine (if_neg Bool.false_ne_true).trans ?_
  rw [State.poisonMem, State.poisonRegisters, hreg']

theorem planOk_of_steps {mv mhz : Nat} (h1 : mv ≤ 150) (h2 : mv % 5 = 0) (h3 : 1200 ≤ mhz) (h4 : mhz ≤ 1500) (h5 : mhz % 25 = 0) : planOk mv mhz = true := by
  simp [planOk, h1, h2, h3, h4, h5]

/-- Settles O43: each event of the module changes its own registers, and what else it does leaves them. -/
theorem moduleEvents : Obligations.ModuleEvents := by
  unfold Obligations.ModuleEvents
  refine ⟨fun s pa => ⟨rfl, fun k i t => rfl, fun h => ?_, fun ho hlog hreg h1 h2 hp => ⟨s.scrubPoison (pa / 64), rfl, ?_⟩⟩,
    fun s k mv mhz => ⟨fun h => ?_, fun h1 h2 h3 h4 h5 => ?_⟩,
    fun s => ⟨fun h x => ?_, fun h p => ⟨s.lockDown, ?_, rfl, rfl, rfl, rfl, rfl⟩, fun h n => ?_, fun u h2 hh => ?_, fun u h => ?_⟩,
    fun s x => ⟨_, rfl, rfl, rfl, rfl, rfl, rfl, fun a => ?_⟩, fun s x => ⟨fun h => ?_, fun h hr => ?_⟩⟩
  · refine (rfl : _ = execScrub ⟨.dram pa, .corrected⟩ s).trans ?_
    simp only [execScrub, h, Option.elim_none]
  · rw [scrubPoison_poisons ho hlog hreg h1 h2 hp]
    exact ⟨alook_aset_self .., rfl⟩
  · refine (rfl : _ = execMarginReplan ⟨k, mv, mhz⟩ s).trans ?_
    simp only [execMarginReplan, h, Bool.not_false, if_true]
  · have hok := planOk_of_steps h1 h2 h3 h4 h5
    refine ⟨_, (rfl : _ = execMarginReplan ⟨k, mv, mhz⟩ s).trans (if_neg (by rw [hok]; exact Bool.false_ne_true)), ?_⟩
    rw [cluster_modCluster]
    exact ⟨rfl, rfl, rfl⟩
  · exact (rfl : _ = execCustomsAlarm x s).trans (if_pos h)
  · refine (rfl : _ = execCustomsAlarm ⟨3, p⟩ s).trans ?_
    rw [execCustomsAlarm, h]
    rfl
  · let s1 := s.modPort n fun y => { y with disabled := true }
    refine ⟨s1.raise 1, ?_, ?_, le_max_right ..⟩
    · refine (rfl : _ = execCustomsAlarm ⟨1, some n⟩ s).trans ?_
      rw [execCustomsAlarm, h]
      rfl
    · have hports : (s1.raise 1).ports = s1.ports := (State.HomeKept.physReport s1 none alarmEvent).ports
      rw [State.port, hports]
      exact congrArg Port.disabled ((State.port_modPort s n n _).trans (if_pos rfl))
  · refine ⟨_, (rfl : _ = execLevel2Clear ⟨u⟩ s).trans (if_neg ?_), rfl, rfl⟩
    simp [h2, hh]
  · refine (rfl : _ = execLevel2Clear ⟨u⟩ s).trans (if_pos ?_)
    simp [h]
  · rw [show (fun e : Nat × Byte => decide (2 ^ 51 ≤ e.1)) = fun c => (fun n => decide (2 ^ 51 ≤ n)) c.1 from rfl]
    exact (memByte_filter (fun n => decide (2 ^ 51 ≤ n)) s.mem a).trans (if_congr decide_eq_true_iff rfl rfl)
  · refine (rfl : _ = execGetMeasurements x s).trans (if_pos ?_)
    rw [h]
    rfl
  · refine ⟨_, ⟨s.boot.regs, s.modId, x.nonce, Config.planDigest s.fresh, Config.signature s.fresh⟩,
      (rfl : _ = execGetMeasurements x s).trans (if_neg ?_), rfl, rfl, rfl⟩
    rw [h, hr]
    exact Bool.false_ne_true

end Sys2Proof.Machine
end

/-! ## O42: Caravan Link -/
section
namespace Sys2Proof.Machine
open Sys2Proof.Claims

/-! ### What the port reads and writes at the homes -/

theorem State.HomeKept.linkCtx (s : State) (p e : Nat) : s.HomeKept (s.linkCtx p e).2 := by
  unfold State.linkCtx
  split
  · exact .refl s
  · next q _ => exact .homeReadBytes s p (ctxAddr q e) 64

theorem State.HomeKept.putCtx (s : State) (p e off v : Nat) : s.HomeKept (s.putCtx p e off v) := by
  unfold State.putCtx
  split
  · exact .homeWriteBytes s p _ _ none
  · exact .refl s

theorem State.HomeKept.linkComplete (s : State) (p e i : Nat) (d : V512) (status : Nat) (old : Word) : s.HomeKept (s.linkComplete p e i d status old) := by
  unfold State.linkComplete
  split
  · next s1 h =>
    have hk := State.HomeKept.linkCtx s p e
    rwa [h] at hk
  · next x s1 h =>
    have hk := State.HomeKept.linkCtx s p e
    rw [h] at hk
    refine .trans (.trans hk ?_) (.putCtx _ p e _ _)
    refine .ite (.refl s1) (.ite (.homeWriteBytes s1 p _ _ none) (.ite (.memPut s1 _ _) (.confined s1 _ _)))

theorem State.HomeKept.colls {s s' : State} (h : s.HomeKept s') : s'.colls = s.colls := (congrArg State.colls h.rest :)

theorem endReq_colls (s : State) (r : LinkReq) (status : Nat) (old : Word) : (s.endReq r status old).colls = s.colls :=
  (State.HomeKept.linkComplete _ _ _ _ _ _ _).colls

theorem endReq_ports (s : State) (r : LinkReq) (status : Nat) (old : Word) : (s.endReq r status old).ports = s.ports :=
  (State.HomeKept.linkComplete _ _ _ _ _ _ _).ports

/-! ### Descriptors (R402 to R404) -/

/-- A descriptor at the head of its ring that breaks a limit completes with status 1. -/
theorem issueDesc_bad {s s1 : State} {x : EvDesc} {q : Part} {y : LinkCtx} {d : V512} (h : AtHead s x q y d s1) {op : Nat} (hop : descF d 0 8 = op)
    (hbad : descBad d = true) (f : V512 → Part → State → Except Nat (Got (List (Nat × LinkOp × Nat)))) :
    issueDesc x op s f = .next ((s1.consumeDesc x).linkComplete x.part x.ep x.idx d 1 0) := by
  obtain ⟨hq, s0, hctx, hs, hc, hp, hd⟩ := h
  simp only [issueDesc, hq, hctx, hs, hc, Nat.not_le.mpr hp, hd, hop, hbad, ne_eq, not_true, decide_false, Bool.not_true, Bool.or_self,
    Bool.false_eq_true,
    if_false, if_true]

/-- One whose checks pass is issued with the packets that its operation gives. -/
theorem issueDesc_issued {s s1 s2 : State} {x : EvDesc} {q : Part} {y : LinkCtx} {d : V512} (h : AtHead s x q y d s1) {op : Nat}
    (hop : descF d 0 8 = op) (hbad : descBad d = false) {f : V512 → Part → State → Except Nat (Got (List (Nat × LinkOp × Nat)))}
    {l : List (Nat × LinkOp × Nat)} (hf : f d q s1 = .ok (.ok l s2)) : issueDesc x op s f = .next ((s2.openReq x d l).consumeDesc x) := by
  obtain ⟨hq, s0, hctx, hs, hc, hp, hd⟩ := h
  simp only [issueDesc, hq, hctx, hs, hc, Nat.not_le.mpr hp, hd, hop, hbad, hf, ne_eq, not_true, decide_false, Bool.not_true, Bool.or_self,
    Bool.false_eq_true, if_false]

theorem execSqprod_issues {s s1 : State} {x : EvDesc} {q : Part} {y : LinkCtx} {d : V512} (h : AtHead s x q y d s1) {e : Event}
    (hopen : s1.openReqs x.part x.ep = []) (he : descEvent x d = some e) : exec (.sqprod ⟨x.part, x.ep⟩) s = .next (s1.push [e]) := by
  obtain ⟨hq, s0, hctx, hs, hc, hp, hd⟩ := h
  refine (rfl : _ = execSqprod ⟨x.part, x.ep⟩ s).trans ?_
  simp only [execSqprod, hctx, hs, hc, Nat.not_le.mpr hp, hd, hopen, he, List.isEmpty_nil, decide_false, Bool.not_true, Bool.and_false, Bool.or_self,
    Bool.false_eq_true, if_false]

/-! ### The bytes that a port reads -/

theorem Got.bind_eq_ok {α β : Type} {x : Got α} {f : α → State → Got β} {b : β} {s : State} (h : x.bind f = .ok b s) :
    ∃ a s1, x = .ok a s1 ∧ f a s1 = .ok b s := by
  cases x with
  | ok a s1 => exact ⟨a, s1, rfl, h⟩
  | busy _ => simp [Got.bind] at h
  | poison _ _ => simp [Got.bind] at h

/-- A run of bytes has a first piece, which is not empty and lies in its sector. -/
theorem pieces_head (a : Nat) {n : Nat} (hn : 0 < n) : ∃ y l, pieces a n = y :: l ∧ 0 < y.2.2 ∧ y.2.1 + y.2.2 ≤ 64 := by
  have hmem : ∀ y ∈ pieces a n, 0 < y.2.2 ∧ y.2.1 + y.2.2 ≤ 64 := fun y hy => by
    obtain ⟨i, _, hi⟩ := List.mem_filterMap.mp hy
    dsimp only at hi
    split at hi
    · next hlt =>
      obtain rfl := Option.some.inj hi
      have := min_le_right (a + n) (64 * (a / 64 + i) + 64)
      have := le_max_right a (64 * (a / 64 + i))
      dsimp only
      omega
    · simp at hi
  have hne : pieces a n ≠ [] := fun h => by
    have h0 : (a / 64, max a (64 * (a / 64)) - 64 * (a / 64), min (a + n) (64 * (a / 64) + 64) - max a (64 * (a / 64))) ∈ pieces a n :=
      List.mem_filterMap.mpr ⟨0, List.mem_range.mpr (by omega), if_pos (by omega)⟩
    rw [h] at h0
    simp at h0
  obtain ⟨y, l, hl⟩ := List.exists_cons_of_ne_nil hne
  exact ⟨y, l, hl, hmem y (hl ▸ .head _)⟩

theorem sectorPart_ne_nil (d : V512) {o n : Nat} (hn : 0 < n) (h : o + n ≤ 64) : sectorPart d o n ≠ [] := fun he => by
  have hl := congrArg List.length he
  simp [sectorPart, sectorBytes] at hl
  omega

/-- A read of a port that is answered brings bytes. -/
theorem linkRead_ne_nil {p a n : Nat} {s s1 : State} {bs : List Byte} (hn : 0 < n) (h : State.linkRead p a n s = .ok bs s1) : bs ≠ [] := by
  unfold State.linkRead at h
  split at h
  · simp at h
  · split at h
    · obtain ⟨y, l, hl, hpos, hle⟩ := pieces_head a hn
      obtain ⟨as, s2, has, hb⟩ := Got.bind_eq_ok h
      rw [hl] at has
      obtain ⟨v, s3, hv, hrest⟩ := Got.bind_eq_ok has
      obtain ⟨vs, s4, _, hvs⟩ := Got.bind_eq_ok hrest
      obtain ⟨d, s5, _, hd⟩ := Got.bind_eq_ok hv
      obtain ⟨rfl, _⟩ := Got.ok.inj hb
      obtain ⟨rfl, _⟩ := Got.ok.inj hvs
      obtain ⟨rfl, _⟩ := Got.ok.inj hd
      intro hf
      exact sectorPart_ne_nil d hpos hle (List.flatten_eq_nil_iff.mp hf _ (.head _))
    · unfold State.memGet at h
      split at h
      · simp at h
      · obtain ⟨rfl, _⟩ := Got.ok.inj h
        intro hf
        have := congrArg List.length hf
        simp at this
        omega

/-! ### ALLRED (R408) -/

theorem sendPkt_colls (s : State) (p e i tmod tep roff : Nat) (op : LinkOp) (laddr : Nat) : (s.sendPkt p e i tmod tep roff op laddr).colls = s.colls := by
  unfold State.sendPkt
  split
  · rfl
  · dsimp only
    split <;> rfl

theorem sendColl_colls (s : State) (c : Coll) (r : LinkReq) (no : Nat) (bs : List Byte) (op : Nat → List Byte → LinkOp) :
    (s.sendColl c r no bs op).colls = s.colls :=
  foldl_keeps State.colls _ _ (fun s _ _ => sendPkt_colls s _ _ _ _ _ _ _ _) s

/-- Nothing that has come is the whole of what a member with elements awaits. -/
theorem Coll.whole_nil {c : Coll} (h : c.own ≠ []) : c.whole [] = none := by
  have hl : ¬0 = c.own.length := fun h0 => h (List.length_eq_zero_iff.mp h0.symm)
  simp [Coll.whole, hl]

/-- The root of two members or more cannot combine before a child has sent. -/
theorem Coll.full_root {c : Coll} (hno : c.no = 0) (hm : 2 ≤ c.mods.length) (hown : c.own ≠ []) (hl : c.left = []) : c.full = false := by
  have h1 : 1 ∈ c.children := List.mem_filter.mpr ⟨by simp [hno], by simp; omega⟩
  unfold Coll.full
  rw [List.all_eq_false]
  refine ⟨1, h1, ?_⟩
  simp [hl, Coll.whole_nil hown]

/-- A member that has just posted its part, and is not a root alone, keeps it; it may have sent it up. -/
theorem collStep_posted {s : State} {c : Coll} (hc : s.colls = [c]) (hroot : c.no = 0 → c.full = false) :
    ∃ b, (s.collStep c).colls = [{ c with sentUp := b }] := by
  unfold State.collStep
  split
  · exact ⟨c.sentUp, hc⟩
  · next r hr =>
    split
    · exact ⟨c.sentUp, hc⟩
    · dsimp only
      split
      · next h0 => simp [hroot h0] at hr
      · refine ⟨true, (sendColl_colls ..).trans ?_⟩
        simp [State.modColl, hc]

/-- What ALLRED posts. -/
def postedColl (x : EvDesc) (d : V512) (l : List Nat) (me : Nat) (bs : List Byte) : Coll :=
  ⟨x.part, x.ep, x.idx, descF d 16 16, d.extractLsb' 224 32, l.idxOf me, l, bs, [], [], [], false⟩

theorem execAllred_posts {s s1 s2 s3 : State} {x : EvDesc} {q : Part} {y y' : LinkCtx} {d : V512} (h : AtHead s x q y d s1) {op : ArithOp} {ty : ElemType}
    {sat : Bool} {l : List Nat} {bs : List Byte} (hbad : descBad d = false) (hop : descF d 0 8 = 6)
    (hctx : s1.linkCtx x.part (descF d 32 16) = (some y', s2)) (hcoll : collOp d = some (op, ty, sat))
    (hgrp : (s2.groupOf x.part (descF d 16 16)).1 = some l) (hg : descF d 16 16 < 256) (hn : descF d 192 32 % elemBytes ty = 0)
    (hme : l.contains s2.modId = true) (hw : y'.wlen ≠ 0) (hin : descF d 64 64 + descF d 192 32 ≤ y'.wlen)
    (hto : q.holds (y'.wbase + descF d 64 64) (descF d 192 32) = true) (hfrom : q.holds (descF d 128 52) (descF d 192 32) = true)
    (hread : State.linkRead x.part (descF d 128 52) (descF d 192 32) s2 = .ok bs s3) (hnone : s3.colls = []) (hm : 2 ≤ l.length) :
    ∃ s' c, exec (.allred x) s = .next s' ∧ s'.colls = [c] ∧ c.part = x.part ∧ c.ep = x.ep ∧ c.idx = x.idx ∧ c.own = bs ∧
      c.tag = d.extractLsb' 224 32 ∧ c.mods = l := by
  let c := postedColl x d l s3.modId bs
  let s4 := ((({ s3 with colls := s3.colls ++ [c] } : State).openReq x d []).consumeDesc x)
  have hlen : 0 < descF d 192 32 := by
    rw [Nat.pos_iff_ne_zero]
    intro h0
    rw [descBad, hop, h0] at hbad
    simp [isAtomicOp] at hbad
  have h4 : s4.colls = [c] := by
    refine (State.HomeKept.putCtx _ _ _ _ _).colls.trans ?_
    change s3.colls ++ [c] = [c]
    rw [hnone]
    rfl
  have hroot : c.no = 0 → c.full = false := fun h0 => Coll.full_root h0 hm (linkRead_ne_nil hlen hread) rfl
  obtain ⟨b, hb⟩ := collStep_posted h4 hroot
  refine ⟨s4.collStep c, { c with sentUp := b }, ?_, hb, rfl, rfl, rfl, rfl, rfl, rfl⟩
  obtain ⟨hq, s0, hctx0, hs, hc, hp, hd⟩ := h
  refine (rfl : _ = execAllred x s).trans ?_
  simp only [execAllred, issueDesc, hq, hctx0, hs, hc, Nat.not_le.mpr hp, hd, hop, hbad, hctx, hcoll, hgrp, Nat.not_le.mpr hg, hn, hme, hw,
    Nat.not_lt.mpr hin, hto, hfrom, hread, Got.bind, ne_eq, not_true, decide_false, Bool.not_true, Bool.or_self, Bool.false_eq_true, if_false]
  have hf : s4.colls.filter (fun c => decide (c.part = x.part) && decide (c.ep = x.ep) && decide (c.idx = x.idx)) = [c] := by
    rw [h4]
    simp [c, postedColl]
  exact congrArg (fun l : List Coll => (.next (l.foldl (fun s c => s.collStep c) s4) : Out)) hf

theorem descriptorsIssue : DescriptorsIssue := by
  unfold DescriptorsIssue
  intro s s1 x q y d h
  refine ⟨fun e hopen he => execSqprod_issues h hopen he, fun i hi hbad => ?_, fun hbad hop hin => ?_, fun bs s2 hbad hop hin hread => ?_,
    fun hbad hop => (rfl : _ = execAadd x s).trans ?_, fun hbad hop => (rfl : _ = execAcas x s).trans ?_,
    fun hbad hop => (rfl : _ = execAswp x s).trans ?_,
    fun y' s2 s3 op ty sat l bs hbad hop hctx hcoll hgrp hg hn hme hw hin hto hfrom hread hnone hm =>
      execAllred_posts h hbad hop hctx hcoll hgrp hg hn hme hw hin hto hfrom hread hnone hm⟩
  · rcases hi with ⟨rfl, hop⟩ | ⟨rfl, hop⟩ | ⟨rfl, hop⟩ | ⟨rfl, hop⟩ | ⟨rfl, hop⟩
    · exact (rfl : _ = execPut x s).trans (issueDesc_bad h hop hbad _)
    · exact (rfl : _ = execGet x s).trans (issueDesc_bad h hop hbad _)
    · refine (rfl : _ = execAadd x s).trans ?_
      rw [execAadd, issueAtomic]
      exact issueDesc_bad h hop hbad _
    · refine (rfl : _ = execAcas x s).trans ?_
      rw [execAcas, issueAtomic]
      exact issueDesc_bad h hop hbad _
    · refine (rfl : _ = execAswp x s).trans ?_
      rw [execAswp, issueAtomic]
      exact issueDesc_bad h hop hbad _
  · refine (rfl : _ = execGet x s).trans (issueDesc_issued h hop hbad ?_)
    simp only [hin, Bool.not_true, Bool.false_eq_true, if_false]
  · refine (rfl : _ = execPut x s).trans (issueDesc_issued h hop hbad ?_)
    simp only [hin, hread, Got.bind, Bool.not_true, Bool.false_eq_true, if_false]
  · rw [execAadd, issueAtomic]
    exact issueDesc_issued h hop hbad rfl
  · rw [execAcas, issueAtomic]
    exact issueDesc_issued h hop hbad rfl
  · rw [execAswp, issueAtomic]
    exact issueDesc_issued h hop hbad rfl

/-! ### Requests at their target (R404 to R406) -/

section

variable {s : State} {x : EvLinkReq} {q : Part} {n : Nat} (hq : s.part? x.part = some q) (hn : q.portOf x.tep = some n) (hexp : s.gt ≤ x.expiry)
  (hdis : (s.port n).disabled = false)
include hq hn hexp hdis

theorem execLinkRequestArrival_held (h : s.linkStays n x = true ∨ s.linkHeld x.part = true) :
    exec (.linkRequestArrival x) s = .next (s.later1 (.linkRequestArrival x)) := by
  have hh : (s.linkStays n x || s.linkHeld x.part) = true := by simpa using h
  refine (rfl : _ = execLinkRequestArrival x s).trans ?_
  simp only [execLinkRequestArrival, hq, hn, Option.bind_some, Option.map_some, Nat.not_lt.mpr hexp, hdis, hh, decide_false, Bool.or_self,
    Bool.false_eq_true, if_false, if_true]

variable (hat : (s.port n).atoms = []) (hseen : (s.port n).seen = []) (hs : s.linkStays n x = false) (hh : s.linkHeld x.part = false)
include hat hseen hs hh

theorem execLinkRequestArrival_uncached (hc : (s.port n).cached.contains (x.part, x.tep) = false) (hw : (s.port n).waiting.length < 64) :
    exec (.linkRequestArrival x) s =
      .next ((s.modPort n fun y => { y with waiting := y.waiting ++ [x] }).push [.endpointContextFill ⟨x.part, n, x.tep⟩]) := by
  refine (rfl : _ = execLinkRequestArrival x s).trans ?_
  simp only [execLinkRequestArrival, hq, hn, Option.bind_some, Option.map_some, Nat.not_lt.mpr hexp, hdis, hs, hh, hat, hseen, hc, Nat.not_le.mpr hw,
    List.append_nil, List.find?_nil, decide_false, Bool.or_self, Bool.not_false, Bool.false_eq_true, if_false, if_true]

/-- A request whose context is at hand is judged by it, then applied. -/
theorem execLinkRequestArrival_cached (hr : linkRight x.op ≠ 2) (hc : (s.port n).cached.contains (x.part,
  x.tep) = true) {c : Option LinkCtx} {s1 : State}
    (hctx : s.linkCtx x.part x.tep = (c, s1)) :
    (∀ st, State.linkTarget q c x = .error st → exec (.linkRequestArrival x) s = .next (s1.linkAnswer x (.status st))) ∧
    (∀ a, State.linkTarget q c x = .ok a → exec (.linkRequestArrival x) s = .next (s1.linkApply x n a)) := by
  have hrun : exec (.linkRequestArrival x) s = match State.linkTarget q c x with
      | .error st => .next (s1.linkAnswer x (.status st))
      | .ok a => .next (s1.linkApply x n a) := by
    refine (rfl : _ = execLinkRequestArrival x s).trans ?_
    simp only [execLinkRequestArrival, hq, hn, Option.bind_some, Option.map_some, Nat.not_lt.mpr hexp, hdis, hs, hh, hat, hseen, hc, hctx,
      List.append_nil, List.find?_nil, decide_false, Bool.or_self, Bool.not_true, Bool.false_eq_true, if_false]
    split
    · next hop => simp [hop, linkRight] at hr
    · next hop => simp [hop, linkRight] at hr
    · rfl
  exact ⟨fun st h => by rw [hrun, h], fun a h => by rw [hrun, h]⟩

end

/-! ### The packets of a port (R399, R405) -/

theorem execEndpointContextFill_caches (s : State) (p n ep : Nat) : ∃ s', exec (.endpointContextFill ⟨p, n, ep⟩) s = .next s' ∧
    (p, ep) ∈ (s'.port n).cached ∧ ∀ z ∈ (s'.port n).waiting, z.part ≠ p ∨ z.tep ≠ ep := by
  have hport : ∀ (s1 : State) (f : Port → Port) (es : List Event), ((s1.modPort n f).push es).port n = f (s1.port n) := fun s1 f es =>
    (State.port_modPort s1 n n f).trans (if_pos rfl)
  refine ⟨_, rfl, ?_, ?_⟩
  · rw [hport]
    simp
  · rw [hport]
    intro z hz
    have hz' : z ∈ ((s.port n).waiting.partition fun z => decide (z.part = p) && decide (z.tep = ep)).2 := hz
    rw [List.partition_eq_filter_filter] at hz'
    simpa [imp_iff_not_or] using (List.mem_filter.mp hz').2

section

variable {s : State} {n req : Nat} {k : LinkPkt} (hk : (s.port n).pkt? req = some k)
include hk

theorem execLinkAcknowledgement_unsynced (hans : k.ans = none) (hs : (s.port n).synced = false) (p : Nat) (a : LinkAns) (cp : Nat) :
    exec (.linkAcknowledgement ⟨p, n, req, a, cp⟩) s = .next (s.later1 (.linkAcknowledgement ⟨p, n, req, a, cp⟩)) := by
  refine (rfl : _ = execLinkAcknowledgement ⟨p, n, req, a, cp⟩ s).trans ?_
  simp only [execLinkAcknowledgement, hk, hans, hs, Option.isSome_none, Bool.not_false, Bool.false_eq_true, if_false, if_true]

theorem execLinkAcknowledgement_nack (hans : k.ans = none) (hs : (s.port n).synced = true) (p ns cp : Nat) :
    exec (.linkAcknowledgement ⟨p, n, req, .nack ns, cp⟩) s =
      .next (s.modPkt n req fun k => { k with again := s.gt + ns, unanswered := k.unanswered - 1 }) := by
  refine (rfl : _ = execLinkAcknowledgement ⟨p, n, req, .nack ns, cp⟩ s).trans ?_
  simp only [execLinkAcknowledgement, hk, hans, hs, Option.isSome_none, Bool.not_true, Bool.false_eq_true, if_false]

theorem execLinkAcknowledgement_status (hans : k.ans = none) (hs : (s.port n).synced = true) (p st cp : Nat) :
    exec (.linkAcknowledgement ⟨p, n, req, .status st, cp⟩) s =
      .next ((s.modPkt n req fun k => { k with ans := some (.status st), expiries := k.expiries.filter (· ≠ cp) }).push
        [.linkRetire ⟨k.part, n, req⟩]) := by
  refine (rfl : _ = execLinkAcknowledgement ⟨p, n, req, .status st, cp⟩ s).trans ?_
  simp only [execLinkAcknowledgement, hk, hans, hs, Option.isSome_none, Bool.not_true, Bool.false_eq_true, if_false]
  split
  · next h => cases h
  · rfl

theorem execLinkRetry_waits (h : k.ans.isSome ∨ s.gt < k.again) (p : Nat) : exec (.linkRetry ⟨p, n, req⟩) s = .next s := by
  have hw : (k.ans.isSome || decide (s.gt < k.again)) = true := by simpa using h
  refine (rfl : _ = execLinkRetry ⟨p, n, req⟩ s).trans ?_
  simp only [execLinkRetry, hk, hw, if_true]

theorem execLinkRetry_sends (hans : k.ans = none) (ha : k.again ≤ s.gt) (hu : k.unanswered < 8) (hm : k.tmod ≠ s.modId) (p : Nat) :
    exec (.linkRetry ⟨p, n, req⟩) s =
      .next (s.modPkt n req fun k => { k with expiries := k.expiries ++ [s.gt + 25000], again := s.gt + 20000, unanswered := k.unanswered + 1 }) := by
  refine (rfl : _ = execLinkRetry ⟨p, n, req⟩ s).trans ?_
  simp only [execLinkRetry, hk, hans, Nat.not_lt.mpr ha, Nat.not_le.mpr hu, Option.isSome_none, decide_false, Bool.or_self, Bool.false_eq_true,
    if_false]
  refine congrArg (fun b => (.next b : Out)) (if_neg ?_)
  rw [Bool.and_eq_true, decide_eq_true_eq]
  exact fun h => hm h.1

theorem execLinkRetire_waits (h : k.retirable s.gt = false) (p : Nat) : exec (.linkRetire ⟨p, n, req⟩) s = .next s := by
  refine (rfl : _ = execLinkRetire ⟨p, n, req⟩ s).trans ?_
  simp only [execLinkRetire, hk, h, Bool.not_false, if_true]

theorem execLinkRetire_leaves (h : k.retirable s.gt = true) (p : Nat) :
    ∃ s', exec (.linkRetire ⟨p, n, req⟩) s = .next s' ∧ (s'.port n).retry = (s.port n).retry.erase k := by
  let s1 := s.modPort n fun y => { y with retry := y.retry.erase k }
  have h1 : (s1.port n).retry = (s.port n).retry.erase k := congrArg Port.retry ((State.port_modPort s n n _).trans (if_pos rfl))
  have hports : ∀ s' : State, s'.ports = s1.ports → (s'.port n).retry = (s.port n).retry.erase k := fun s' hp => by
    rw [State.port, hp]
    exact h1
  have hrun : ∃ s', execLinkRetire ⟨p, n, req⟩ s = .next s' ∧ s'.ports = s1.ports := by
    simp only [execLinkRetire, hk, h, Bool.not_true, Bool.false_eq_true, if_false]
    split
    · next r a _ _ =>
      split
      · refine ⟨_, rfl, ?_⟩
        unfold State.collEnd
        split
        · exact endReq_ports ..
        · rfl
      · refine ⟨_, rfl, (apply_ite State.ports _ _ _).trans ?_⟩
        rw [endReq_ports, ite_self]
    · exact ⟨_, rfl, rfl⟩
  obtain ⟨s', he, hp⟩ := hrun
  exact ⟨s', he, hports s' hp⟩

end

theorem execCollectiveAbort_ends {s : State} {x : EvCollAbort} {c : Coll}
    (hc : s.colls.find? (fun c => c.part = x.part && c.group = x.group && c.tag = x.tag) = some c)
    (hs : x.first = false ∨ ∀ n, (s.part? c.part).bind (·.portOf c.ep) = some n → (s.port n).synced = true) :
    ∃ s', exec (.collectiveAbort x) s = .next s' ∧ s'.colls = s.colls.erase c := by
  let n := if x.first then (s.part? c.part).bind (·.portOf c.ep) else none
  have hn : (n.any fun n => !(s.port n).synced) = false := by
    rcases hs with h | h
    · simp [n, h]
    · cases hb : (s.part? c.part).bind (·.portOf c.ep) with
      | none => simp [n, hb]
      | some m =>
        by_cases hf : x.first = true
        · simp [n, hf, hb, h m hb]
        · simp [n, hf]
  let s1 := n.elim s fun n => s.abortPeers c n
  have h1 : s1.colls = s.colls := by
    unfold s1
    cases n <;> rfl
  refine ⟨match s1.collReq c with
    | some r => ({ s1 with colls := s1.colls.erase c } : State).endReq r 5 0
    | none => { s1 with colls := s1.colls.erase c }, ?_, ?_⟩
  · refine (rfl : _ = execCollectiveAbort x s).trans ?_
    unfold execCollectiveAbort
    rw [hc]
    exact if_neg (by rw [show (if x.first then (s.part? c.part).bind (·.portOf c.ep) else none) = n from rfl, hn]; exact Bool.false_ne_true)
  · rw [← h1]
    split
    · exact endReq_colls ..
    · rfl

theorem execAtomicResultCacheExpiry_keeps (s : State) (x : EvAtom) : ∃ s', exec (.atomicResultCacheExpiry x) s = .next s' ∧
  ∀ e ∈ (s'.port x.port).atoms,
    e ∈ (s.port x.port).atoms ∧ (e.smod = x.smod → e.sport = x.sport → e.req = x.req → s.gt < e.expiry + 250) := by
  refine ⟨_, rfl, fun e he => ?_⟩
  rw [State.port_modPort, if_pos rfl] at he
  obtain ⟨hm, hf⟩ := List.mem_filter.mp he
  refine ⟨hm, fun h1 h2 h3 => ?_⟩
  simpa [h1, h2, h3] using hf

theorem linkPackets : LinkPackets := by
  unfold LinkPackets
  refine ⟨fun s x q n hq hn hexp hdis hr hat hseen => ⟨fun h => execLinkRequestArrival_held hq hn hexp hdis h, fun hs hh =>
      ⟨fun hc hw => execLinkRequestArrival_uncached hq hn hexp hdis hat hseen hs hh hc hw, fun c s1 hc hctx => ?_⟩⟩,
    execEndpointContextFill_caches,
    fun s n req k hk => ⟨fun p a cp ha hs => execLinkAcknowledgement_unsynced hk ha hs p a cp,
      fun p ns cp ha hs => execLinkAcknowledgement_nack hk ha hs p ns cp, fun p st cp ha hs => execLinkAcknowledgement_status hk ha hs p st cp,
      fun p h => execLinkRetry_waits hk h p, fun p ha hag hu hm => execLinkRetry_sends hk ha hag hu hm p, fun p h => execLinkRetire_waits hk h p,
      fun p h => execLinkRetire_leaves hk h p⟩,
    fun s n diff => rfl, fun s x c hc hs => execCollectiveAbort_ends hc hs, execAtomicResultCacheExpiry_keeps, fun s n hl => ?_, fun s n hl => ?_⟩
  · obtain ⟨herr, hok⟩ := execLinkRequestArrival_cached hq hn hexp hdis hat hseen hs hh hr hc hctx
    refine ⟨herr, fun a bs s2 ha hop hput => ?_, fun a m bs s2 ha hop hread => ?_⟩
    · rw [hok a ha]
      simp only [State.linkApply, hop, hput]
    · rw [hok a ha]
      simp only [State.linkApply, hop, hread]
  · refine (rfl : _ = execFlitCrcFailure ⟨n⟩ s).trans ?_
    refine congrArg (fun b => (.next b : Out)) (if_neg ?_)
    simp only [List.length_append, List.length_cons, List.length_nil]
    omega
  · refine ⟨_, (rfl : _ = execFlitCrcFailure ⟨n⟩ s).trans (congrArg (fun b => (.next b : Out)) (if_pos ?_)), rfl⟩
    simp only [List.length_append, List.length_cons, List.length_nil]
    omega

/-- Settles O42: a descriptor at the head of its ring is judged, then issued; a packet is judged by the context of its target and by the state of
its port, and what the homes do for it leaves the ports and the collectives. -/
theorem caravanLink : Obligations.CaravanLink := ⟨descriptorsIssue, linkPackets⟩

end Sys2Proof.Machine
end

/-! ## Proofs/O37: waves, meters and the drover -/
section
namespace Sys2Proof.Machine
open Sys2Proof.Claims

/-! ### The state of a region through its end -/

theorem State.HomeKept.rstate {s s' : State} (h : s.HomeKept s') (g : Nat) : (s'.region? g).map (·.rstate) = (s.region? g).map (·.rstate) := by
  simpa [Option.map_map, Function.comp_def, Region.lasting] using congrArg (Option.map Region.rstate) (h.region? g)

theorem rstate_modRegion (s : State) (g g' : Nat) (f : Region → Region) (h : ∀ r, (f r).rstate = r.rstate) :
    ((s.modRegion g f).region? g').map (·.rstate) = (s.region? g').map (·.rstate) := by
  rw [State.region?_modRegion]
  split
  · next e =>
    subst e
    rw [Option.map_map]
    exact congrArg (Option.map · _) (funext h)
  · rfl

theorem rstate_of_regions {s s' : State} (h : s'.regions = s.regions) (g : Nat) :
    (s'.region? g).map (·.rstate) = (s.region? g).map (·.rstate) := by
  rw [region?_of_regions h]

theorem rstate_writeCrec (s : State) (g g' : Nat) (r : Region) :
    ((s.writeCrec g r).region? g').map (·.rstate) = (s.region? g').map (·.rstate) := by
  rw [State.writeCrec]
  have hp : s.HomeKept (if r.crec.toNat % 32 = 0 then s.devWrite (s.anyCore r) g r.crec r.record true else (false, s)).2 := by
    split
    · exact .devWrite s _ g r.crec r.record true
    · exact .refl s
  generalize (if r.crec.toNat % 32 = 0 then s.devWrite (s.anyCore r) g r.crec r.record true else (false, s)) = p at hp ⊢
  obtain ⟨ok, s0⟩ := p
  dsimp -zeta only
  extract_lets s1 s2
  have h1 : (s1.region? g').map (·.rstate) = (s.region? g').map (·.rstate) :=
    (rstate_modRegion s0 g g' (fun r => { r with crecDue := false, crecLost := !ok }) fun _ => rfl).trans (hp.rstate g')
  have h2 : (s2.region? g').map (·.rstate) = (s1.region? g').map (·.rstate) := by
    refine rstate_of_regions ?_ g'
    unfold s2
    split
    · split
      · split
        · exact finishCmd_regions ..
        · rfl
      · rfl
    · rfl
  split
  · exact h2.trans h1
  · exact ((State.HomeKept.appendRec s2 _ g _ _ _ _).rstate g').trans (h2.trans h1)

theorem revokeRes_regions (s : State) (k : Nat) (key : Bool × Nat) : (s.revokeRes k key).regions = s.regions := by
  unfold State.revokeRes
  split
  · rfl
  · next r _ =>
    have hd (p k idx : Nat) : (s.disarm p k idx r).regions = s.regions :=
      foldl_keeps State.regions _ _ (fun s line _ => State.modPart_regions s p _) s
    have hl (s : State) : (s.endLoader r).regions = s.regions := by
      unfold State.endLoader
      split
      · exact (State.OpKept.finishOp ..).regions
      · rfl
    exact (hl _).trans (hd ..)

theorem revokeRegion_regions (s : State) (g : Nat) : (s.revokeRegion g).regions = s.regions :=
  foldl_keeps State.regions _ _ (fun s e _ => foldl_keeps State.regions _ _ (fun s x _ => by
    split
    · exact revokeRes_regions ..
    · rfl) s) s

theorem State.HomeKept.syncRegion (s : State) (g : Nat) : s.HomeKept (s.syncRegion g) := by
  unfold State.syncRegion
  split
  · exact .refl _
  · exact .homeWriteBytes _ _ _ _ _

/-- A region that has terminated is then terminated or ended. -/
theorem endRegion_of_terminated {s : State} {g : Nat} (h : (s.region? g).map (·.rstate) = some .terminated) :
    ∃ r', (s.endRegion g).region? g = some r' ∧ (r'.rstate = .terminated ∨ r'.rstate = .ended) := by
  obtain ⟨r, hr, hst⟩ := Option.map_eq_some_iff.mp h
  rw [State.endRegion, hr]
  dsimp only
  split
  · exact ⟨r, hr, .inl hst⟩
  · let s1 := s.revokeRegion g
    let s2 : State := { s1 with cores := s1.cores.map fun (e : Nat × Core) => (e.1, { e.2 with posts := e.2.posts.filter fun p => p.2.region ≠ g }) }
    have h2 : (s2.region? g) = some r := (region?_of_regions (revokeRegion_regions s g) g).trans hr
    have h3 : (((s2.modRegion g fun r => { r with rstate := .ended }).syncRegion g).region? g).map (·.rstate) = some .ended := by
      refine ((State.HomeKept.syncRegion _ g).rstate g).trans ?_
      rw [State.region?_modRegion, if_pos rfl, h2]
      rfl
    obtain ⟨r', hr', hst'⟩ := Option.map_eq_some_iff.mp h3
    exact ⟨r', hr', .inr hst'⟩

theorem rstate_terminate {s : State} {g : Nat} {r : Region} (hr : s.region? g = some r) :
    ((s.terminate g).region? g).map (·.rstate) = some .terminated := by
  refine ((State.HomeKept.syncRegion _ g).rstate g).trans ?_
  rw [State.region?_modRegion, if_pos rfl]
  exact congrArg (Option.map _) (congrArg (Option.map _) hr)

theorem afterTermination_of_terminated {s : State} {g : Nat} (h : (s.region? g).map (·.rstate) = some .terminated) :
    ∃ r', (s.afterTermination g).region? g = some r' ∧ (r'.rstate = .terminated ∨ r'.rstate = .ended) := by
  obtain ⟨r, hr, _⟩ := Option.map_eq_some_iff.mp h
  rw [State.afterTermination, hr]
  refine endRegion_of_terminated (Eq.trans ?_ h)
  split
  · exact rstate_writeCrec s g g r
  · rfl

/-! ### Waves (R291) -/

theorem execWave_live {s : State} {g : Nat} {r : Region} (hr : s.region? g = some r) (hl : r.rstate = .live) (hm : r.emode ≠ 3) :
    exec (.wave ⟨g⟩) s =
      if s.quiet g r then
        if r.lastWave = some (r.sent, r.consumed) then .next ((s.terminate g).afterTermination g)
        else .next (s.modRegion g fun r => { r with lastWave := some (r.sent, r.consumed) })
      else .next (s.modRegion g fun r => { r with lastWave := none }) := by
  refine (rfl : _ = execWave ⟨g⟩ s).trans ?_
  rw [execWave]
  simp only [hr]
  rw [if_pos (by rw [hl]; rfl), if_neg hm]

theorem wavesTerminate : WavesTerminate := by
  intro s g r hr hl hm
  rw [execWave_live hr hl hm]
  refine ⟨fun hq hw => ?_, fun hq hw => by rw [if_pos hq, if_neg hw], fun hq => by rw [if_neg (by rw [hq]; decide)]⟩
  obtain ⟨r', hr', hst⟩ := afterTermination_of_terminated (rstate_terminate hr)
  exact ⟨_, r', by rw [if_pos hq, if_pos hw], hr', hst⟩

/-! ### What an L1 that is gated gives up -/

theorem State.HomeKept.dropOwner (s : State) (p c sec : Nat) : s.HomeKept (s.dropOwner p c sec) := .modEntry s p _ _

theorem State.HomeKept.homeBytes (s : State) (p sec : Nat) (data : V512) (dirty : BitVec 64) (bad : Option Nat) :
    s.HomeKept (s.homeBytes p sec data dirty bad) :=
  (State.HomeKept.homeWrite s p sec none data dirty none).trans (.ite (.setPoison _ _ _) (.refl _))

theorem State.HomeKept.evict (s : State) (p c sec : Nat) (keepData msgs : Bool) : s.HomeKept (s.evict p c sec keepData msgs) := by
  unfold State.evict
  split
  · exact .refl s
  · next x _ =>
    extract_lets put s1 s2 s3 s4
    have h1 : s.HomeKept s1 := .ite (.of_lasting rfl rfl rfl rfl (memWrite_wf _ _ _)) (.refl s)
    have h2 : s1.HomeKept s2 := .ite (.push _ _) (.refl _)
    have h3 : s2.HomeKept s3 := .ite (.modEntry _ _ _ _) (.refl _)
    have h4 : s.HomeKept (s.delL1 c sec) := .delL1 s c sec
    have held : s.HomeKept (if msgs = true then
        (s.setL1 c sec { x with st := if put = true then .mia else .eia }).push [if put = true then .putx ⟨c, 64 * sec, x.data⟩ else .pute ⟨c,
          64 * sec⟩]
      else (s3.delL1 c sec).dropOwner p c sec) :=
      .ite ((State.HomeKept.setL1 s c sec _).trans (.push _ _))
        (((h1.trans h2).trans h3).trans ((State.HomeKept.delL1 s3 c sec).trans (.dropOwner _ p c sec)))
    split
    · exact held
    · exact held
    · exact h4
    · exact h4
    · exact .ite h4 (.ite (h4.trans (.push _ _)) (h4.trans (.homeBytes _ _ _ _ _ _)))
    · exact .refl s

theorem State.HomeKept.dropL1 (s : State) (c : Nat) : s.HomeKept (s.dropL1 c) :=
  .foldl (fun s sec => s.giveUp c sec) _ (fun s sec _ => .evict s _ c sec true _) s

theorem State.HomeKept.gate (s : State) (k : Nat) : s.HomeKept (s.gate k) :=
  .ite (.foldl (fun s c => s.dropL1 c) _ (fun s c _ => .dropL1 s c) s) (.refl s)

/-! ### Meters (R351, R352) -/

/-- A root has no ancestor but itself. -/
theorem ancestors_of_root {s : State} {g : Nat} {r : Region} (hr : s.region? g = some r) (hp : r.parent = 0) : s.ancestors g = [g] := by
  rw [State.ancestors, State.chain, hr]
  simp [hp]

theorem region?_map (s : State) (f : Region → Region) (g : Nat) :
    State.region? { s with regions := s.regions.map fun e => (e.1, f e.2) } g = (s.region? g).map f := alook_map g f s.regions

/-- A region that has reached its allowance, masked. -/
def Region.masked (r : Region) : Region := if r.spent then { r with tmasked := true } else r

theorem execEnergyMeter_of_one {s : State} {k e g n : Nat} {r : Region} (hw : (s.cluster k).weights = [(g, n)]) (hn : 0 < n)
    (hr : s.region? g = some r) (hp : r.parent = 0) :
    ∃ s' r', exec (.energyMeter ⟨k, e⟩) s = .next s' ∧ s'.region? g = some r' ∧
      r'.lasting = (Region.masked { r with charge := r.charge + e }).lasting ∧
      (s'.cluster k).weights = [] := by
  let s1 := s.modRegion g fun r => { r with charge := r.charge + e }
  let noWeights : Cluster → Cluster := fun k => { k with weights := [] }
  let s2 := s1.modCluster k noWeights
  let s3 : State := { s2 with regions := s2.regions.map fun e => (e.1, e.2.masked) }
  let finish : State → Out := fun s1 =>
    .next (State.gate (State.retariff { s1.modCluster k noWeights with regions := s1.regions.map fun e => (e.1, e.2.masked) }) k)
  have hx : exec (.energyMeter ⟨k, e⟩) s = .next (s3.retariff.gate k) := by
    have hfin : exec (.energyMeter ⟨k, e⟩) s = finish ((s.cluster k).weights.foldl
        (fun s' x => s'.chargeUp x.1 (e * x.2 / max 1 ((s.cluster k).weights.map (·.2)).sum)) s) := rfl
    have he : e * n / max 1 n = e := by rw [Nat.max_eq_right hn, Nat.mul_div_cancel _ hn]
    have hone : s.chargeUp g e = s1 := by rw [State.chargeUp, ancestors_of_root hr hp]; rfl
    rw [hfin, hw]
    refine Eq.trans ?_ (congrArg finish hone)
    simp [he]
  have hr3 : s3.retariff.region? g = some (Region.masked { r with charge := r.charge + e }) := by
    refine (region?_map s2 Region.masked g).trans ?_
    rw [show s2.region? g = s1.region? g from rfl, State.region?_modRegion, if_pos rfl, hr]
    rfl
  have hg : s3.retariff.HomeKept (s3.retariff.gate k) := .gate _ k
  have hreg := hg.region? g
  rw [hr3] at hreg
  obtain ⟨r', hr', hl⟩ := Option.map_eq_some_iff.mp hreg
  refine ⟨_, r', hx, hr', hl, (congrArg Cluster.weights (hg.clusters k) :).trans ?_⟩
  exact congrArg Cluster.weights (cluster_modCluster s1 k noWeights)

/-- 12 °C below the ceiling every class is allowed, at the ceiling none but 0. -/
theorem maxClassAt_cool {q t was : Nat} (h : q + 48 ≤ 4 * t) : maxClassAt q t was = 3 := by
  have hno : overLimit q (t - 10) (was < 3) = false := by
    unfold overLimit
    split <;> exact decide_eq_false (by omega)
  rw [maxClassAt, hno]
  rfl

theorem maxClassAt_hot {q t was : Nat} (h : 4 * t ≤ q) : maxClassAt q t was = 0 := by
  have hover (d : Nat) (b : Bool) : overLimit q (t - d) b = true := by
    unfold overLimit
    split <;> exact decide_eq_true (by omega)
  rw [maxClassAt, hover 10, hover 5, show overLimit q t (was < 1) = true from hover 0 _]
  rfl

theorem alook_mapKeys {α : Type} {g : Nat} {l : List Nat} (f : Nat → α) (h : g ∈ l) : alook g (l.map fun g => (g, f g)) = some (f g) := by
  induction l with
  | nil => cases h
  | cons a l ih =>
    rw [List.map_cons, alook]
    split
    · next e => rw [e]
    · next e => exact ih ((List.mem_cons.mp h).resolve_left fun h => e h.symm)

theorem meters : Meters := by
  refine ⟨fun s k e g n r hw hn hr hp => ?_, fun s u g r hr => ?_, fun s k q => ?_⟩
  · obtain ⟨s', r', hx, hr', hl, hw'⟩ := execEnergyMeter_of_one (e := e) hw hn hr hp
    have hc : r'.charge = (Region.masked { r with charge := r.charge + e }).charge := (congrArg Region.charge hl :)
    have ht : r'.tmasked = (Region.masked { r with charge := r.charge + e }).tmasked := (congrArg Region.tmasked hl :)
    refine ⟨s', r', hx, hr', hc.trans ?_, ht.trans ?_, hw'⟩
    · unfold Region.masked
      split <;> rfl
    · unfold Region.masked
      split
      · next hs => exact ((congrArg (r.tmasked || ·) hs).trans (Bool.or_true _)).symm
      · next hs => exact ((congrArg (r.tmasked || ·) (Bool.eq_false_iff.mpr hs)).trans (Bool.or_false _)).symm
  · exact ⟨_, r.newWindow, rfl, (region?_map s Region.newWindow g).trans (congrArg _ hr), rfl, rfl⟩
  · let read : Cluster → Cluster := fun x => { x with
      quarter := q
      maxcls := (s.regionsOn k).map fun g => (g, maxClassAt q ((s.region? g).elim 0 (·.tceil)) ((alook g (s.cluster k).maxcls).getD 3))
      throttle := s.throttleFor k q }
    refine ⟨(s.modCluster k read).push (heatAlarm q), rfl, congrArg Cluster.quarter (cluster_modCluster s k read), fun g r hg hr => ?_⟩
    have hmax : alook g (((s.modCluster k read).push (heatAlarm q)).cluster k).maxcls =
        some (maxClassAt q r.tceil ((alook g (s.cluster k).maxcls).getD 3)) := by
      refine (congrArg (fun x => alook g (Cluster.maxcls x)) (cluster_modCluster s k read)).trans ?_
      refine (alook_mapKeys (fun g => maxClassAt q ((s.region? g).elim 0 (·.tceil)) ((alook g (s.cluster k).maxcls).getD 3)) hg).trans ?_
      rw [hr]
      rfl
    rw [hmax]
    exact ⟨fun h => congrArg some (maxClassAt_hot h), fun h => congrArg some (maxClassAt_cool h)⟩

end Sys2Proof.Machine
end

/-! ## Proofs/O37: bytes written at the home, and a home without copies -/
section
namespace Sys2Proof.Machine
open Sys2Proof.Claims

/-! ### The bytes of a run of a sector -/

theorem toBytes_getLsbD {n i j : Nat} (x : Nat) (hi : i < n) (hj : j < 8) : ((toBytes n x).getD i 0).getLsbD j = x.testBit (8 * i + j) := by
  have h := ofBytes_testBit (toBytes n x) (8 * i + j)
  rw [show (8 * i + j) / 8 = i by omega, show (8 * i + j) % 8 = j by omega, ofBytes_toBytes, show 256 = 2 ^ 8 from rfl, ← Nat.pow_mul,
    Nat.testBit_mod_two_pow, decide_eq_true (by omega), Bool.true_and] at h
  exact h.symm

theorem memSector_getLsbD (m : Memory) (a : Nat) {k j : Nat} (hk : k < 64) (hj : j < 8) :
    (memSector m a).getLsbD (8 * k + j) = (memByte m (a + k)).getLsbD j := by
  rw [memSector, BitVec.getLsbD_ofNat, memNat, ofBytes_testBit, show (8 * k + j) / 8 = k by omega, show (8 * k + j) % 8 = j by omega,
    memBytes_getD m a 64 k hk, decide_eq_true (by omega), Bool.true_and]

theorem memByte_memMerge (m : Memory) (a : Nat) (d : V512) (mask : BitVec 64) (x : Nat) :
    memByte (memMerge m a d mask) x = if a ≤ x ∧ x < a + 64 ∧ mask.getLsbD (x - a) then sectorByte d (x - a) else memByte m x := by
  by_cases hin : a ≤ x ∧ x < a + 64
  · obtain ⟨k, rfl⟩ := Nat.exists_eq_add_of_le hin.1
    have hk : k < 64 := by omega
    rw [memMerge, memByte_memWrite_in _ _ _ _ hin.1 (by simpa [sectorBytes] using hk)]
    refine BitVec.eq_of_getLsbD_eq fun j hj => ?_
    rw [Nat.add_sub_cancel_left, sectorBytes, toBytes_getLsbD _ hk hj]
    refine (mergeSector_getLsbD _ d mask (by omega)).trans ?_
    rw [show (8 * k + j) / 8 = k by omega, memSector_getLsbD m a hk hj]
    by_cases hb : mask.getLsbD k
    · rw [if_pos hb, if_pos ⟨hin.1, hin.2, hb⟩, sectorByte, BitVec.getLsbD_extractLsb', decide_eq_true hj, Bool.true_and]
    · rw [if_neg hb, if_neg fun h => hb h.2.2]
  · rw [memMerge, memByte_memWrite_out _ _ _ _ (by simp only [sectorBytes, toBytes_length]; omega), if_neg fun h => hin ⟨h.1, h.2.1⟩]

theorem runMask_getLsbD {o n k : Nat} (hn : o + n ≤ 64) (hk : k < 64) : (runMask o n).getLsbD k = decide (o ≤ k ∧ k < o + n) := by
  rw [runMask, BitVec.getLsbD_shiftLeft, BitVec.getLsbD_ushiftRight, BitVec.getLsbD_allOnes, Bool.eq_iff_iff]
  simp only [Bool.and_eq_true, Bool.not_eq_true', decide_eq_true_eq, decide_eq_false_iff_not]
  omega

theorem sectorByte_runData (bs : List Byte) {o k : Nat} (ho : o ≤ k) (hk : k < 64) : sectorByte (runData o bs) k = bs.getD (k - o) 0 := by
  refine BitVec.eq_of_getLsbD_eq fun j hj => ?_
  rw [sectorByte, BitVec.getLsbD_extractLsb', runData, BitVec.getLsbD_ofNat, show 256 ^ o = 2 ^ (8 * o) by rw [Nat.pow_mul],
    Nat.testBit_mul_two_pow, show 8 * k + j - 8 * o = 8 * (k - o) + j by omega, ofBytes_testBit, show (8 * (k - o) + j) / 8 = k - o by omega,
    show (8 * (k - o) + j) % 8 = j by omega]
  simp only [hj, show 8 * k + j < 512 by omega, show 8 * o ≤ 8 * k + j by omega, decide_true, Bool.true_and]

/-- A run of a sector that is merged into memory is its bytes there, and every other byte is as before. -/
theorem memByte_memMerge_run (m : Memory) (a o : Nat) (bs : List Byte) (h : o + bs.length ≤ 64) (x : Nat) :
    memByte (memMerge m a (runData o bs) (runMask o bs.length)) x =
      if a + o ≤ x ∧ x < a + o + bs.length then bs.getD (x - (a + o)) 0 else memByte m x := by
  rw [memByte_memMerge]
  by_cases hx : a ≤ x ∧ x < a + 64
  · rw [runMask_getLsbD h (by omega)]
    by_cases hr : a + o ≤ x ∧ x < a + o + bs.length
    · rw [if_pos ⟨hx.1, hx.2, decide_eq_true (by omega)⟩, if_pos hr, sectorByte_runData bs (by omega) (by omega), Nat.sub_sub]
    · rw [if_neg fun hm => hr (by have := of_decide_eq_true hm.2.2; omega), if_neg hr]
  · rw [if_neg fun hm => hx ⟨hm.1, hm.2.1⟩, if_neg (by omega)]

theorem memBytes_memMerge_run (m : Memory) (a o : Nat) (bs : List Byte) (h : o + bs.length ≤ 64) :
    memBytes (memMerge m a (runData o bs) (runMask o bs.length)) (a + o) bs.length = bs := by
  refine (memBytes_congr _ (memWrite m (a + o) bs) _ _ fun x h1 h2 => ?_).trans (memBytes_memWrite_self m (a + o) bs)
  rw [memByte_memMerge_run m a o bs h, if_pos ⟨h1, h2⟩, memByte_memWrite_in _ _ _ _ h1 h2]

end Sys2Proof.Machine
end

/-! ## Proofs/O37: the copies that a home tracks -/
section
namespace Sys2Proof.Machine
open Sys2Proof.Claims

/-- The state of a sector in a core's L1. -/
def Core.stAt (y : Core) (sec : Nat) : Option L1St := (alook sec y.l1).map (·.st)

/-- No copy comes to be, no line turns to coarse mode or to the host, and memory keeps its bytes: what an abort, a mark or a message leaves. -/
structure State.TrackKept (s s' : State) : Prop where
  mem : s'.mem = s.mem
  partOf : ∀ c, s'.partOf c = s.partOf c
  entries : ∀ p line, (s'.entry p line).coarse = (s.entry p line).coarse ∧ (s'.entry p line).host = (s.entry p line).host
  cores : ∀ e' ∈ s'.cores, (∀ sec, e'.2.stAt sec = none) ∨ ∃ e ∈ s.cores, e.1 = e'.1 ∧ ∀ sec, e'.2.stAt sec = e.2.stAt sec

theorem State.TrackKept.refl (s : State) : s.TrackKept s := ⟨rfl, fun _ => rfl, fun _ _ => ⟨rfl, rfl⟩, fun e he => .inr ⟨e, he, rfl, fun _ => rfl⟩⟩

theorem State.TrackKept.trans {s s1 s2 : State} (h : s.TrackKept s1) (h' : s1.TrackKept s2) : s.TrackKept s2 where
  mem := h'.mem.trans h.mem
  partOf c := (h'.partOf c).trans (h.partOf c)
  entries p line := ⟨(h'.entries p line).1.trans (h.entries p line).1, (h'.entries p line).2.trans (h.entries p line).2⟩
  cores e' he' := by
    rcases h'.cores e' he' with hn | ⟨e1, he1, hc1, hs1⟩
    · exact .inl hn
    · rcases h.cores e1 he1 with hn | ⟨e, he, hc, hs⟩
      · exact .inl fun sec => (hs1 sec).trans (hn sec)
      · exact .inr ⟨e, he, hc.trans hc1, fun sec => (hs1 sec).trans (hs sec)⟩

theorem State.TrackKept.of_same {s s' : State} (hm : s'.mem = s.mem) (hp : s'.parts = s.parts) (hc : s'.cores = s.cores) : s.TrackKept s' where
  mem := hm
  partOf c := by rw [State.partOf, State.partOf, hp]
  entries p line := by rw [State.entry, State.entry, State.part?, State.part?, hp]; exact ⟨rfl, rfl⟩
  cores e he := .inr ⟨e, hc ▸ he, rfl, fun _ => rfl⟩

theorem State.TrackKept.ite {s s1 s2 : State} {b : Prop} [Decidable b] (h1 : s.TrackKept s1) (h2 : s.TrackKept s2) :
    s.TrackKept (if b then s1 else s2) := by
  split
  · exact h1
  · exact h2

theorem State.TrackKept.foldl {α : Type} (f : State → α → State) (l : List α) (h : ∀ (s : State), ∀ a ∈ l, s.TrackKept (f s a)) (s : State) :
    s.TrackKept (l.foldl f s) := by
  induction l generalizing s with
  | nil => exact .refl s
  | cons a l ih => exact (h s a (.head _)).trans (ih (fun s b hb => h s b (.tail _ hb)) _)

theorem State.TrackKept.modRegion (s : State) (g : Nat) (f : Region → Region) : s.TrackKept (s.modRegion g f) :=
  .of_same (State.modRegion_mem ..) (State.modRegion_parts ..) (State.modRegion_cores ..)

theorem State.TrackKept.push (s : State) (es : List Event) : s.TrackKept (s.push es) := .of_same rfl rfl rfl

theorem State.TrackKept.modPart (s : State) (p : Nat) (f : Part → Part) (hl : ∀ q, (f q).lasting = q.lasting)
    (h : ∀ q line, ((f q).entry line).coarse = (q.entry line).coarse ∧
      ((f q).entry line).host = (q.entry line).host) : s.TrackKept (s.modPart p f) where
  mem := State.modPart_mem ..
  partOf := (State.HomeKept.modPart s p f hl).partOf
  entries p' line := by
    rw [State.entry, State.entry, State.part?_modPart]
    split
    · next e =>
      subst e
      cases s.part? p with
      | none => exact ⟨rfl, rfl⟩
      | some q => exact h q line
    · exact ⟨rfl, rfl⟩
  cores e he := .inr ⟨e, State.modPart_cores s p f ▸ he, rfl, fun _ => rfl⟩

theorem State.TrackKept.modEntry (s : State) (p line : Nat) (f : DirEntry → DirEntry) (h : ∀ e, (f e).coarse = e.coarse ∧ (f e).host = e.host) :
    s.TrackKept (s.modEntry p line f) :=
  .modPart s p _ (fun _ => rfl) fun q l => by
    rw [Part.entry, alook_aset]
    split
    · next e => exact e ▸ h _
    · exact ⟨rfl, rfl⟩

theorem State.TrackKept.modCore (s : State) (c : Nat) (f : Core → Core) (h : ∀ y sec, (f y).stAt sec = y.stAt sec) : s.TrackKept (s.modCore c f) where
  mem := rfl
  partOf _ := rfl
  entries _ _ := ⟨rfl, rfl⟩
  cores e' he' := by
    rcases mem_aset he' with rfl | he
    · cases hc : alook c s.cores with
      | none => exact .inl fun sec => (h _ sec).trans (by rw [State.core, hc]; rfl)
      | some y => exact .inr ⟨(c, y), mem_of_alook hc, rfl, fun sec => (h _ sec).trans (by rw [State.core, hc]; rfl)⟩
    · exact .inr ⟨e', he, rfl, fun _ => rfl⟩

theorem State.TrackKept.mapCores (s : State) (f : Core → Core) (h : ∀ y, (f y).l1 = y.l1) :
    s.TrackKept { s with cores := s.cores.map fun e => (e.1, f e.2) } where
  mem := rfl
  partOf _ := rfl
  entries _ _ := ⟨rfl, rfl⟩
  cores e' he' := by
    obtain ⟨e, he, rfl⟩ := List.mem_map.mp he'
    exact .inr ⟨e, he, rfl, fun sec => by rw [Core.stAt, h]; rfl⟩

/-! ### Aborts, marks and messages -/

theorem State.TrackKept.freeEntry (s : State) (c : Nat) (t : Thread) (keep : Option InMsg) : s.TrackKept (s.freeEntry c t keep) := by
  unfold State.freeEntry
  split
  · exact .modCore s c _ fun _ _ => rfl
  · exact .refl s

theorem State.TrackKept.dropReaders (s : State) (c : Nat) (t : Thread) : s.TrackKept (s.dropReaders c t) := by
  unfold State.dropReaders
  dsimp only
  refine .trans ?_ (.modPart _ _ _ (fun _ => rfl) fun _ _ => ⟨rfl, rfl⟩)
  refine .trans ?_ (.modCore _ c _ fun y sec => ?_)
  · exact .mapCores s (fun y => { y with readers := y.readers.filter fun r => !(decide (r.key.tid = t.tid.toNat) && decide (r.region = t.region)) })
      fun _ => rfl
  · refine (congrArg (Option.map L1Sec.st) (alook_map sec (fun x : L1Sec => { x with rd := x.rd &&& ~~~(readBit t.tid) }) y.l1)).trans ?_
    rw [Option.map_map]
    rfl

theorem State.TrackKept.leaveQueue (s : State) (region c k : Nat) (again : Bool) : s.TrackKept (s.leaveQueue region c k again) := by
  unfold State.leaveQueue
  split
  · exact .refl s
  · split
    · exact .refl s
    · dsimp only
      have h (q : List (Nat × Nat)) : s.TrackKept (s.modRegion region fun r => { r with clearq := q }) := .modRegion s region _
      split
      · exact (h _).trans (.push _ _)
      · exact h _

theorem State.TrackKept.dropActivation (s : State) (c k : Nat) (keep : Option InMsg) : s.TrackKept (s.dropActivation c k keep) := by
  unfold State.dropActivation
  split
  · exact .refl s
  · next t _ =>
    have hdel : s.TrackKept (s.delThread c k) := .of_same rfl rfl rfl
    have hint (s : State) : s.TrackKept (s.dropIntents t) := .of_same rfl rfl rfl
    have hdrop : s.TrackKept (((((s.delThread c k).freeEntry c t keep).dropReaders c t).dropIntents t).leaveQueue t.region c k keep.isSome) :=
      (((hdel.trans (.freeEntry _ c t keep)).trans (.dropReaders _ c t)).trans (hint _)).trans (.leaveQueue _ _ _ _ _)
    exact .ite (hdrop.trans (.modRegion _ _ _)) hdrop

theorem State.TrackKept.discardMsgs (s : State) (dead : InMsg → Bool) : s.TrackKept (s.discardMsgs dead) := by
  unfold State.discardMsgs
  refine .trans (.foldl (fun (s : State) (i : InMsg) => s.consume i.mark.region 1) (s.unconsumed.filter fun i => dead i && i.mark.region ≠ 0)
    (fun s i _ => .modRegion s _ _) s) ?_
  generalize (s.unconsumed.filter fun i => dead i && i.mark.region ≠ 0).foldl (fun (s : State) i => s.consume i.mark.region 1) s = s1
  exact (State.TrackKept.mapCores s1 (fun y => { y with
    inbox := y.inbox.filter fun i => i.kept || !dead i, deque := y.deque.filter fun i => i.kept || !dead i,
    spilling := y.spilling.map fun z => (z.1, { z.2 with kept := z.2.kept || dead z.2 }) }) fun _ => rfl).trans (.of_same rfl rfl rfl)

theorem State.TrackKept.killTag (s : State) (p : Nat) (tag : BitVec 16) : s.TrackKept (s.killTag p tag) := by
  unfold State.killTag
  refine .ite (.refl s) ?_
  refine .trans ?_ (.discardMsgs _ _)
  refine .trans ?_ (.foldl _ _ (fun s e _ => .dropActivation s _ _ none) _)
  exact .modPart s p _ (fun _ => rfl) fun _ _ => ⟨rfl, rfl⟩

theorem State.TrackKept.abortReaders (s : State) (rs : List Reader) : s.TrackKept (s.abortReaders rs) :=
  .foldl _ rs (fun s r _ => by
    split
    · next c k _ =>
      unfold State.abortOrdered
      split
      · exact .refl s
      · exact .ite (.refl s) ((State.TrackKept.dropActivation s c k _).trans (.killTag _ _ _))
    · exact .refl s) s

theorem State.TrackKept.clearTu (s : State) (p sec : Nat) : s.TrackKept (s.clearTu p sec) :=
  .ite ((State.TrackKept.modEntry s p (sec / 4) (fun e => { e with tu := false }) fun _ => ⟨rfl, rfl⟩).trans (.of_same rfl rfl rfl)) (.refl s)

theorem State.TrackKept.beforeWrite (s : State) (p sec : Nat) (w : Option (Nat × Key)) : s.TrackKept (s.beforeWrite p sec w) :=
  (State.TrackKept.abortReaders s _).trans (.clearTu _ p sec)

theorem State.TrackKept.unitAt (s : State) (p sec : Nat) (write : Bool) : s.TrackKept (s.unitAt p sec write) :=
  .ite (.refl s) (.of_same rfl rfl rfl)

theorem State.TrackKept.modCluster (s : State) (k : Nat) (f : Cluster → Cluster) : s.TrackKept (s.modCluster k f) := .of_same rfl rfl rfl

theorem State.TrackKept.markStale (s : State) (k : Nat) (h : BitVec 32) : s.TrackKept (s.markStale k h) := by
  unfold State.markStale
  split
  · exact (State.TrackKept.modCluster s _ _).trans (.modCluster _ _ _)
  · exact .refl s

theorem State.TrackKept.markSector (s : State) (p sec : Nat) : s.TrackKept (s.markSector p sec) := by
  unfold State.markSector
  exact .foldl _ _ (fun s x _ => .markStale s _ _) s

theorem State.TrackKept.sendMsg (s : State) (core : Nat) (m : Msg) (src : Option OpRef) (mark : MsgMark) : s.TrackKept (s.sendMsg core m src mark) := by
  rw [State.sendMsg]
  refine .trans ?_ (.push _ _)
  split
  · exact .modRegion s _ _
  · exact .refl s

theorem State.TrackKept.sendWakes (s : State) (p line : Nat) (mask : BitVec 4) : s.TrackKept (s.sendWakes p line mask) :=
  .foldl _ _ (fun s _ _ => .ite (.refl s) (.ite (.push s _) (.ite (.sendMsg s _ _ _ _) (.refl s)))) s

theorem State.TrackKept.linkWrite (s : State) (p sec : Nat) : s.TrackKept (s.linkWrite p sec) := by
  unfold State.linkWrite
  split
  · exact .refl s
  · exact .ite (.refl s) (.push s _)

/-! ### A home without copies -/

/-- No core of a partition holds a sector, no line of it is in coarse mode, and the host has none. -/
def State.Calm (s : State) (p : Nat) : Prop := (∀ sec, s.holders p sec = []) ∧ ∀ line, (s.entry p line).coarse = false ∧ (s.entry p line).host = false

/-- A state of a sector that the home tracks. -/
def tracked : Option L1St → Bool
  | some x => x == .m || x == .e || x == .s || x == .sw || x == .sma || (x == .mia || x == .eia)
  | none => false

theorem holders_eq_nil (s : State) (p sec : Nat) : s.holders p sec = [] ↔ ∀ e ∈ s.cores, s.partOf e.1 = p → tracked (e.2.stAt sec) = false := by
  rw [State.holders, List.map_eq_nil_iff, List.filter_eq_nil_iff]
  refine forall₂_congr fun e _ => ?_
  have ht : tracked (e.2.stAt sec) = (match alook sec e.2.l1 with
      | some x => x.st == .m || x.st == .e || x.st == .s || x.st == .sw || x.st == .sma || x.leaves
      | none => false) := by
    rw [Core.stAt]
    cases alook sec e.2.l1 <;> rfl
  rw [ht]
  refine ⟨fun h hp => Bool.eq_false_iff.mpr fun hm => h (Bool.and_eq_true_iff.mpr ⟨decide_eq_true hp, hm⟩), fun h hm => ?_⟩
  obtain ⟨hp, hx⟩ := Bool.and_eq_true_iff.mp hm
  exact absurd hx (Bool.eq_false_iff.mp (h (of_decide_eq_true hp)))

theorem State.TrackKept.calm {s s' : State} (h : s.TrackKept s') {p : Nat} (hc : s.Calm p) : s'.Calm p := by
  refine ⟨fun sec => (holders_eq_nil s' p sec).mpr fun e' he' hp => ?_, fun line => ?_⟩
  · rcases h.cores e' he' with hn | ⟨e, he, h1, hs⟩
    · rw [hn]; rfl
    · rw [hs]
      exact (holders_eq_nil s p sec).mp (hc.1 sec) e he (by rw [h1, ← h.partOf, hp])
  · rw [(h.entries p line).1, (h.entries p line).2]
    exact hc.2 line

theorem State.Calm.recall {s : State} {p : Nat} (h : s.Calm p) (sec : Nat) (drop : Bool) (keep : Option Nat) :
    s.TrackKept (s.recall p sec drop keep) := by
  rw [State.recall, h.1 sec]
  exact .modEntry s p _ _ fun e => by
    dsimp only [DirEntry.setSec]
    split <;> [exact ⟨rfl, rfl⟩; split <;> exact ⟨rfl, rfl⟩]

theorem State.Calm.leaveCoarse {s : State} {p : Nat} (h : s.Calm p) (line : Nat) : s.leaveCoarse p line = s := by
  rw [State.leaveCoarse, (h.2 line).1]
  rfl

theorem State.Calm.biSnoop {s : State} {p : Nat} (h : s.Calm p) (sec : Nat) : s.biSnoop p sec = s := by
  rw [State.biSnoop, (h.2 (sec / 4)).2]
  rfl

/-- Steps that a calm home takes one after the other. -/
theorem State.Calm.foldl {α : Type} {p : Nat} (f : State → α → State) (l : List α) (h : ∀ (s : State), s.Calm p → ∀ a ∈ l, s.TrackKept (f s a))
    {s : State} (hc : s.Calm p) : s.TrackKept (l.foldl f s) := by
  induction l generalizing s with
  | nil => exact .refl s
  | cons a l ih =>
    have h1 := h s hc a (.head _)
    exact h1.trans (ih (fun s hc b hb => h s hc b (.tail _ hb)) (h1.calm hc))

theorem State.Calm.replaceLine {s : State} {p : Nat} (h : s.Calm p) (line : Nat) : s.TrackKept (s.replaceLine p line) := by
  unfold State.replaceLine
  split
  · exact .refl s
  · refine .ite (.refl s) ?_
    rw [h.leaveCoarse]
    extract_lets e s1 s2 gone s3
    have h1 : s.TrackKept s1 := h.foldl _ _ fun s hc i _ => hc.recall _ true none
    exact ((h1.trans (.clearTu s1 p (4 * line))).trans (.push s2 _)).trans (.modEntry s3 p line _ fun _ => ⟨rfl, rfl⟩)

theorem State.Calm.takeWay {s : State} {p : Nat} (h : s.Calm p) (line : Nat) : s.TrackKept (s.takeWay p line) := by
  unfold State.takeWay
  have enter (s : State) : s.TrackKept (s.modEntry p line fun e => { e with inL2 := true }) := .modEntry s p line _ fun _ => ⟨rfl, rfl⟩
  split
  · exact .refl s
  · refine .ite (enter s) ?_
    split
    · exact .refl s
    · have hf : s.TrackKept { s with fresh := s.fresh + 1 } := .of_same rfl rfl rfl
      exact (hf.trans ((hf.calm h).replaceLine _)).trans (enter _)

theorem State.Calm.fill {s : State} {p : Nat} (h : s.Calm p) (line : Nat) : s.TrackKept (s.fill p line) := .ite (.refl s) (h.takeWay line)

theorem State.Calm.homeRead {s : State} {p : Nat} (h : s.Calm p) (sec : Nat) : s.TrackKept (s.homeRead p sec) :=
  .ite (h.fill _) ((h.fill _).trans (((h.fill _).calm h).recall _ _ _))

/-- A calm home reads what memory holds. -/
theorem State.Calm.homeReadBytes {s : State} {p : Nat} (h : s.Calm p) (pa n : Nat) :
    (s.homeReadBytes p pa n).1 = memBytes s.mem pa n ∧ s.TrackKept (s.homeReadBytes p pa n).2 := by
  have hone (s : State) (hc : s.Calm p) (sec : Nat) : s.TrackKept ((s.unitAt p sec false).homeRead p sec) :=
    (State.TrackKept.unitAt s p sec false).trans (((State.TrackKept.unitAt s p sec false).calm hc).homeRead sec)
  have hk : s.TrackKept (s.homeReadBytes p pa n).2 := by
    unfold State.homeReadBytes
    exact h.foldl _ _ fun s hc x _ => hone s hc x.1
  exact ⟨congrArg (memBytes · pa n) hk.mem, hk⟩

/-- A calm home takes a write into memory, and stays calm. -/
theorem State.Calm.homeWrite {s : State} {p : Nat} (h : s.Calm p) (sec : Nat) (data : V512) (mask : BitVec 64) (w : Option (Nat × Key)) :
    (s.homeWrite p sec none data mask w).mem = memMerge s.mem (64 * sec) data mask ∧ (s.homeWrite p sec none data mask w).Calm p := by
  rw [State.homeWrite, h.biSnoop, State.homeApply]
  let s1 := (s.fill p (sec / 4)).beforeWrite p sec w
  have h1 : s.TrackKept s1 := (h.fill _).trans (.beforeWrite _ p sec w)
  have h2 : s.TrackKept (s1.recall p sec true none) := h1.trans ((h1.calm h).recall sec true none)
  refine ⟨(homeStore_mem ..).trans (congrArg (memMerge · _ data mask) h2.mem), ?_⟩
  rw [State.homeStore]
  refine ((State.TrackKept.sendWakes _ p (sec / 4) _).trans (.linkWrite _ p sec)).calm ?_
  have h3 := (h2.trans (.markSector _ p sec)).trans (.modEntry _ p (sec / 4)
    (fun e => { e with dirty := if e.inL2 then e.dirty ||| (1#4 <<< (sec % 4)) else e.dirty }) fun _ => ⟨rfl, rfl⟩)
  have hmem (s : State) (m : Memory) (l : List (Nat × Nat)) (hc : s.Calm p) : State.Calm { s with mem := m, poison := l } p := hc
  exact hmem _ _ _ (h3.calm h)

end Sys2Proof.Machine
end

/-! ## Proofs/O37: the drover's period and its cores -/
section
namespace Sys2Proof.Machine
open Sys2Proof.Claims

theorem pieces_inSector (m : Nat) {o n : Nat} (h : o + n ≤ 64) (hn : 0 < n) : pieces (64 * m + o) n = [(m, o, n)] := by
  rw [pieces]
  have hk : (64 * m + o + n + 63) / 64 - (64 * m + o) / 64 = 1 := by omega
  have hm : (64 * m + o) / 64 = m := by omega
  have hlo : max (64 * m + o) (64 * m) = 64 * m + o := by omega
  have hhi : min (64 * m + o + n) (64 * m + 64) = 64 * m + o + n := by omega
  simp only [hk, List.range_one, List.filterMap_cons, List.filterMap_nil, Nat.add_zero]
  simp only [hm, hlo, hhi]
  rw [if_pos (by omega)]
  simp only [Nat.add_sub_cancel_left, show 64 * m + o + n - (64 * m + o) = n by omega]

/-- A calm home takes bytes within a sector into memory. -/
theorem State.Calm.homeWriteBytes {s : State} {p : Nat} (h : s.Calm p) (m : Nat) {o : Nat} (bs : List Byte) (hb : o + bs.length ≤ 64) (hn : 0 < bs.length) :
    (s.homeWriteBytes p (64 * m + o) bs none).mem = memMerge s.mem (64 * m) (runData o bs) (runMask o bs.length) ∧
      (s.homeWriteBytes p (64 * m + o) bs none).Calm p := by
  have hu : s.TrackKept (s.unitAt p m true) := .unitAt s p m true
  have hw : s.homeWriteBytes p (64 * m + o) bs none = (s.unitAt p m true).homeWrite p m none (runData o bs) (runMask o bs.length) none := by
    rw [State.homeWriteBytes, pieces_inSector m hb hn]
    simp
  rw [hw, ← hu.mem]
  exact (hu.calm h).homeWrite m _ _ _

theorem stageOf_unused {m : Memory} {a : Nat} (i : Nat) (h : memNat m a 1 % 2 = 0) : Stage.ofBytes? i (memBytes m a 64) = none := by
  have hb : ofBytes (memBytes m a 64) % 2 = 0 := by
    have h1 : memNat m a 1 = (memByte m a).toNat := rfl
    rw [memBytes, ofBytes]
    omega
  rw [Stage.ofBytes?]
  exact if_pos hb

/-- No stage of a calm home's block is valid when no stage entry is. -/
theorem State.Calm.stages {s : State} {p : Nat} {q : Part} (h : s.Calm p) (hq : s.part? p = some q)
    (hno : ∀ i < 16, memNat s.mem (q.drover.block + 64 + 64 * i) 1 % 2 = 0) : (s.stages p).1 = [] ∧ s.TrackKept (s.stages p).2 := by
  have hall (l : List Nat) (hl : ∀ i ∈ l, i < 16) (acc : List Stage × State) (ha : acc.1 = [] ∧ s.TrackKept acc.2) :
      let r := l.foldl (fun (acc : List Stage × State) i =>
        (acc.1 ++ (Stage.ofBytes? i (acc.2.homeReadBytes p (stagePa q.drover.block i) 64).1).toList,
          (acc.2.homeReadBytes p (stagePa q.drover.block i) 64).2)) acc
      r.1 = [] ∧ s.TrackKept r.2 := by
    induction l generalizing acc with
    | nil => exact ha
    | cons i l ih =>
      refine ih (fun j hj => hl j (.tail _ hj)) _ ⟨?_, ha.2.trans ((ha.2.calm h).homeReadBytes _ 64).2⟩
      dsimp only
      rw [ha.1, ((ha.2.calm h).homeReadBytes _ 64).1, stageOf_unused i (by rw [ha.2.mem]; exact hno i (hl i (.head _)))]
      rfl
  obtain ⟨_, hr⟩ := h.homeReadBytes q.drover.block 8
  rw [State.stages, hq]
  refine hall _ (fun i hi => ?_) ([], _) ⟨rfl, hr⟩
  have hn := List.mem_range.mp hi
  split at hn
  · exact hn
  · exact hn.trans (Nat.mod_lt _ (by decide))

theorem execDroverPeriod_on {s : State} {p : Nat} {q : Part} (hq : s.part? p = some q) (hon : q.drover.on = true) (hb : q.drover.block % 64 = 0)
    (hc : s.Calm p) (hno : ∀ i < 16, memNat s.mem (q.drover.block + 64 + 64 * i) 1 % 2 = 0) :
    ∃ s', exec (.droverPeriod ⟨p⟩) s = .next s' ∧
      memNat s'.mem (q.drover.block + 4) 4 = (memNat s.mem (q.drover.block + 4) 4 + 1) % 2 ^ 32 := by
  obtain ⟨m, hm⟩ : ∃ m, q.drover.block = 64 * m := ⟨q.drover.block / 64, by omega⟩
  let x := s.homeReadBytes p (q.drover.block + 4) 4
  let bs := toBytes 4 (ofBytes x.1 + 1)
  let s2 := x.2.homeWriteBytes p (q.drover.block + 4) bs none
  obtain ⟨hx, hx2⟩ := hc.homeReadBytes (q.drover.block + 4) 4
  have hlen : bs.length = 4 := toBytes_length 4 _
  obtain ⟨hmem, hcalm⟩ : s2.mem = memMerge s.mem (64 * m) (runData 4 bs) (runMask 4 bs.length) ∧ s2.Calm p := by
    have hw := (hx2.calm hc).homeWriteBytes m (o := 4) bs (by omega) (by omega)
    rwa [hx2.mem, show 64 * m + 4 = q.drover.block + 4 by rw [hm]] at hw
  have hkept : s.HomeKept s2 := (State.HomeKept.homeReadBytes s p _ 4).trans (.homeWriteBytes _ p _ bs none)
  obtain ⟨q2, hq2, hd⟩ := hkept.drover hq
  obtain ⟨hl, hk⟩ := hcalm.stages hq2 fun i hi => by
    rw [hd, hmem, show memNat (memMerge s.mem (64 * m) (runData 4 bs) (runMask 4 bs.length)) (q.drover.block + 64 + 64 * i) 1 =
      memNat s.mem (q.drover.block + 64 + 64 * i) 1 from congrArg ofBytes (memBytes_congr _ _ _ _ fun y h1 h2 => by
        rw [memByte_memMerge_run _ _ _ _ (by omega), if_neg (by omega)])]
    exact hno i hi
  refine ⟨(s2.stages p).2, ?_, ?_⟩
  · refine (rfl : _ = execDroverPeriod ⟨p⟩ s).trans ?_
    rw [execDroverPeriod]
    simp only [hq, hon]
    rw [if_neg (by decide)]
    have hs : s2.stages p = ([], (s2.stages p).2) := by rw [← hl]
    rw [hs]
    rfl
  · have hbytes : memNat s2.mem (q.drover.block + 4) 4 = ofBytes bs := by
      have h := memBytes_memMerge_run s.mem (64 * m) 4 bs (by omega)
      rw [hlen] at h
      rw [memNat, hmem, hm, hlen, h]
    rw [hk.mem, hbytes, ofBytes_toBytes, hx]
    rfl

theorem execDroverCoreJoin_next {s s1 : State} {p c di ri : Nat} {q : Part} {l : List Stage} {d r : Stage} (hq : s.part? p = some q)
    (hm : alook c q.drover.moving = some (di, ri)) (hs : s.stages p = (l, s1)) (hd : l.find? (fun y => y.no = di) = some d)
    (hr : l.find? (fun y => y.no = ri) = some r) :
    (s1.drained c d.post d.region = false → exec (.droverCoreJoin ⟨p, c⟩) s = .next s1) ∧
    (s1.drained c d.post d.region = true → ∃ s2 : State, exec (.droverCoreJoin ⟨p, c⟩) s =
      .next (s2.modPart p fun q => { q with drover := { q.drover with moving := adel c q.drover.moving } })) := by
  refine ⟨fun h => ?_, fun h => ?_⟩
  · refine (rfl : _ = execDroverCoreJoin ⟨p, c⟩ s).trans ?_
    simp only [execDroverCoreJoin, hq, Option.bind_some, hm, hs, hd, hr]
    rw [if_pos (by rw [h]; rfl)]
  · refine Exists.imp (fun s2 h => (rfl : exec _ s = execDroverCoreJoin ⟨p, c⟩ s).trans h) ?_
    simp only [execDroverCoreJoin, hq, Option.bind_some, hm, hs, hd, hr]
    rw [if_neg (by rw [h]; decide)]
    exact ⟨_, rfl⟩

theorem droverRuns : DroverRuns := by
  refine ⟨fun s p q hq => ⟨fun hon => ?_, fun hon hb hh he hno => execDroverPeriod_on hq hon hb ⟨hh, he⟩ hno⟩,
    fun s s1 p c di ri q l d r hq hm hs hd hr => ⟨fun h => (execDroverCoreJoin_next hq hm hs hd hr).1 h, fun h => ?_⟩⟩
  · refine (rfl : _ = execDroverPeriod ⟨p⟩ s).trans ?_
    simp only [execDroverPeriod, hq]
    rw [if_pos (by rw [hon]; rfl)]
  · obtain ⟨s2, hx⟩ := (execDroverCoreJoin_next hq hm hs hd hr).2 h
    refine ⟨_, hx, ?_⟩
    rw [State.part?_modPart, if_pos rfl]
    cases s2.part? p with
    | none => rfl
    | some q => exact (alook_adel c c _).trans (if_pos rfl)

/-- Settles O37: a quiet region terminates at its second wave, the meter and the reading of a cluster act on the regions there, and a period of the
drover writes its counter at a home without copies. -/
theorem regionsMetersAndDrover : Obligations.RegionsMetersAndDrover := ⟨wavesTerminate, meters, droverRuns⟩

end Sys2Proof.Machine
end

/-! ## Proofs/O54: where a lead instruction that stands loses its thread -/
section
namespace Sys2Proof.Machine
open Sys2Proof.Claims

/-- END with p0 as its guard (R39). -/
def endWord : Slot := 0xC28000000000000000000000#96

/-- An ordered activation that has read the leaf of its page table, with an instruction in its trail and END at its lead PC, before which the trail
has to be empty (R303). -/
def leafReader : Thread :=
  { Thread.fresh 0 0x400000 (.activation 0 emptyMsg.msg) 0x200000 with
    cons := some (orderedCons 0 0)
    trailQ := [⟨0x1FFFF4, nopWord, .nop ⟨0, false⟩, false, 0, false⟩]
    issued := 1 }

/-- That activation alone, before a walk has set A in the leaf; its reader record stands at the home (R334). -/
def leafState : State :=
  let s := State.reset.load endWord
  { s with
    mem := memWrite s.mem 0x14000 (toBytes 8 0x4FF)
    parts := [(0, { Part.blank with readers := [⟨0x140, 1, ⟨0, 0⟩, 0x400000⟩] })]
    threads := [((0, 0), leafReader)] }

/-- The state in which its turn begins. -/
def leafTurn : State := (leafState.rouse.takeLater.tried 0 0).others 0 0

/-- The state after the line at its lead PC has been entered. -/
def leafEntered : State := (leafTurn.leadLine 0 0 (leafReader.turn leafTurn)).2

theorem leafState_issues : Issues leafState leafState.rouse.takeLater 0 0 leafReader .lead :=
  ⟨rfl, rfl, Option.isNone_iff_eq_none.mp (by decide +kernel), rfl, rfl, rfl, rfl, rfl, rfl, rfl, rfl⟩

theorem leafTurn_line : (leafTurn.leadLine 0 0 (leafReader.turn leafTurn)).1 = .ok (lineOf endWord) := by
  decide +kernel

theorem leafTurn_leadLine : leafTurn.leadLine 0 0 (leafReader.turn leafTurn) = (.ok (lineOf endWord), leafEntered) :=
  Prod.ext leafTurn_line (by rw [leafEntered])

theorem leafTurn_pairFits : PairFits (leafReader.turn leafTurn) (lineOf endWord) 0 (.end_ ⟨⟨0, false⟩⟩) := fun h =>
  absurd h (by decide +kernel)

/-- The fetch's walk sets A in the leaf; that write aborts the activation that fetches. -/
theorem leafState_step : (match step leafState with
    | .next s => (s.thread? 0 0).isNone
    | _ => false) = true := by
  decide +kernel

/-- Refutes O54: the walk of an instruction fetch sets A in a leaf, and the write of the leaf aborts every activation that has read it (R75, R335),
the fetching one as well. Where END stands for the trail the step therefore leaves no thread in the slot. -/
theorem not_stepRunsTheDecodedInstruction : ¬ Obligations.StepRunsTheDecodedInstruction := by
  rintro ⟨hlead, -, -⟩
  obtain ⟨-, -, -, hstands⟩ := hlead leafState _ leafTurn leafEntered 0 0 0 leafReader _ (lineOf endWord) (.end_ ⟨⟨0, false⟩⟩) leafState_issues rfl
    rfl rfl rfl (by decide +kernel) leafTurn_leadLine (by decide +kernel) rfl leafTurn_pairFits (by decide +kernel)
  obtain ⟨s', t', hs', -, ht', -⟩ := hstands rfl (by decide +kernel) (by decide +kernel)
  have h := leafState_step
  rw [hs'] at h
  simp only [ht', Option.isNone_some, Bool.false_eq_true] at h

end Sys2Proof.Machine
end

/-! ## Proofs/O35: messages at their core -/
section
namespace Sys2Proof.Machine
open Sys2Proof.Claims

theorem State.OpKept.sent (s : State) (src : Option OpRef) : s.OpKept (s.sent src) := by
  unfold State.sent
  split
  · exact .finishOp s _ _ _
  · exact .refl s

theorem State.OpKept.inbox {s s' : State} (h : s.OpKept s') (c : Nat) : (s'.core c).inbox = (s.core c).inbox := (congrArg Core.inbox (h.cores c) :)

theorem State.OpKept.spilling {s s' : State} (h : s.OpKept s') (c : Nat) : (s'.core c).spilling = (s.core c).spilling :=
  (congrArg Core.spilling (h.cores c) :)

theorem State.OpKept.orphans {s s' : State} (h : s.OpKept s') (p : Nat) : (s'.part? p).map (·.orphans) = (s.part? p).map (·.orphans) := by
  have hp := congrArg (Option.map Part.orphans) (h.parts p)
  rwa [Option.map_map, Option.map_map] at hp

theorem core_enterInbox (s : State) (c : Nat) (i : InMsg) : ((s.enterInbox c i).core c).inbox = (s.core c).inbox ++ [i] :=
  congrArg Core.inbox (core_modCore_self s c _)

/-! ### Arrival (R285, R287, R348) -/

theorem execMessageArrival_orphan {s : State} {x : EvMsg} {c : Nat} (hc : c = s.route x.core x.msg.post) (ho : s.orphan c x.msg = true) {q : Part}
    (hq : s.part? (s.partOf c) = some q) :
    ∃ s', exec (.messageArrival x) s = .next s' ∧ (s'.part? (s.partOf c)).map (·.orphans) = some (q.orphans + 1) ∧
      (s'.core c).inbox = (s.core c).inbox := by
  subst hc
  let c := s.route x.core x.msg.post
  let s1 := s.dropOrphan c x.mark
  have hk : s1.OpKept (s1.sent x.src) := .sent s1 x.src
  refine ⟨s1.sent x.src, ?_, (hk.orphans _).trans ?_, (hk.inbox c).trans ?_⟩
  · refine (rfl : _ = execMessageArrival x s).trans ?_
    rw [execMessageArrival]
    exact if_pos ho
  · have hp : s1.part? (s.partOf c) = some { q with orphans := q.orphans + 1 } := by
      refine (part?_of_parts (State.modRegion_parts ..) _).trans ?_
      rw [State.part?_modPart, if_pos rfl, hq]
      rfl
    rw [hp]
    rfl
  · exact congrArg Core.inbox (congrArg (fun l : List (Nat × Core) => (alook c l).getD .reset)
      ((State.modRegion_cores ..).trans (State.modPart_cores ..)))

/-- A message of KIND 0 that no mask turns away goes to the inbox of its core, or to the slice. -/
theorem execMessageArrival_posted {s : State} {x : EvMsg} {c : Nat} {p : Post} (hc : c = s.route x.core x.msg.post) (ho : s.orphan c x.msg = false)
    (hp : alook x.msg.post (s.core c).posts = some p) (hd : p.dmask = false) (hk : x.msg.kind = 0) :
    exec (.messageArrival x) s =
      if 512 ≤ (s.core c).inbox.length || ((s.core c).spilling.any fun e => e.1 = p.region && e.2.dest = x.core) || s.spillQueued p.region x.core then
        .next (s.push [.porterSpill x])
      else .next ((s.enterInbox c ⟨x.msg, x.core, false, x.mark⟩).sent x.src) := by
  subst hc
  refine (rfl : _ = execMessageArrival x s).trans ?_
  rw [execMessageArrival]
  simp only [ho, hp, hd, hk, Bool.false_eq_true, if_false, Bool.not_false, if_true]
  rfl

/-! ### The porter (R348, R349) -/

theorem execPorterSpill_room {s s1 s2 : State} {x : EvMsg} {c g n : Nat} {r : Region} {va : Word} {y : SliceCtl}
    (hc : c = s.route x.core x.msg.post) (hg : s.postRegion c x.msg.post = some g) (hr : s.region? g = some r) (hs : s.slice r x.core = (va, n))
    (hy : s.sliceCtl c g va = (some y, s1)) (hroom : y.count < n)
    (hw : s1.devWrite c g (va + BitVec.ofNat 64 (64 + 64 * y.head)) (msgBytes x.msg) false = (true, s2)) :
    ∃ s', exec (.porterSpill x) s = .next s' ∧ (s'.core c).spilling.getLast? = some (g, ⟨x.msg, x.core, false, x.mark⟩) := by
  let s3 := (s2.devWrite c g va (SliceCtl.bytes { y with head := (y.head + 1) % n, count := y.count + 1 }) false).2
  let s4 := s3.modCore c fun z => { z with spilling := z.spilling ++ [(g, ⟨x.msg, x.core, false, x.mark⟩)] }
  refine ⟨s4.sent x.src, ?_, ?_⟩
  · subst hc
    refine (rfl : _ = execPorterSpill x s).trans ?_
    simp only [execPorterSpill, hg, hr, Option.bind_some, Option.map_some, hs, hy]
    rw [if_pos hroom, hw]
    rfl
  · rw [(State.OpKept.sent s4 x.src).spilling]
    refine (congrArg (fun z : Core => z.spilling.getLast?) (core_modCore_self s3 c _)).trans ?_
    exact List.getLast?_concat

theorem execPorterReplay_idle {s : State} {c : Nat} (h : 448 ≤ (s.core c).inbox.length ∨ (s.core c).spilling = []) :
    exec (.porterReplay ⟨c⟩) s = .next (s.modCore c Core.settled) := by
  have hn : (if (s.core c).inbox.length < 448 then (s.core c).nextSlice else none) = none := by
    rcases h with h | h
    · exact if_neg (by omega)
    · have hs : (s.core c).nextSlice = none := by rw [Core.nextSlice, h]; rfl
      rw [hs, ite_self]
  refine (rfl : _ = execPorterReplay ⟨c⟩ s).trans ?_
  rw [execPorterReplay]
  simp only [hn]

/-- A record that cannot be read is replayed as the core holds it. -/
theorem execPorterReplay_unread {s s1 s2 : State} {c g : Nat} {i : InMsg} {r : Region} (hlen : (s.core c).inbox.length < 448)
    (hn : (s.core c).nextSlice = some (g, i)) (hr : s.region? g = some r)
    (h1 : s1 = s.modCore c fun y =>
      { y with spilling := y.spilling.erase (g, i), served := g, replaying := true, fulls := y.fulls.filter (· ≠ (g, i.dest)) })
    (hctl : s1.sliceCtl c g (s1.slice r i.dest).1 = (none, s2)) (hk : i.kept = false) (ho : s2.orphan c i.msg = false) :
    ∃ s', exec (.porterReplay ⟨c⟩) s = .next s' ∧ (s'.core c).inbox = (s2.core c).inbox ++ [i] := by
  refine ⟨(s2.enterInbox c i).modCore c Core.settled, ?_, ?_⟩
  · have hr1 : s1.region? g = some r := by rw [h1]; exact hr
    refine (rfl : _ = execPorterReplay ⟨c⟩ s).trans ?_
    rw [execPorterReplay]
    simp only [if_pos hlen, hn]
    rw [← h1]
    simp only [hr1, hctl, hk, ho, Bool.false_eq_true, if_false]
  · rw [core_modCore_self]
    exact core_enterInbox s2 c i

theorem messagesArrive : MessagesArrive := by
  intro s x c hc
  refine ⟨rfl, fun ho q hq => execMessageArrival_orphan hc ho hq, fun p ho hp hd hk => ⟨fun hl hs hq => ?_, fun h => ?_⟩,
    fun g r va n y s1 s2 hg hr hs hy hroom hw => execPorterSpill_room hc hg hr hs hy hroom hw, execPorterReplay_idle,
    fun g i r s1 s2 hl hn hr h1 hctl hk ho => execPorterReplay_unread hl hn hr h1 hctl hk ho⟩
  · refine ⟨_, (execMessageArrival_posted hc ho hp hd hk).trans (if_neg ?_), ?_⟩
    · rw [hs, hq, List.any_nil, Bool.or_false, Bool.or_false, decide_eq_true_eq]
      omega
    · rw [(State.OpKept.sent _ x.src).inbox, core_enterInbox]
  · refine (execMessageArrival_posted hc ho hp hd hk).trans (if_pos ?_)
    rcases h with h | h
    · rw [decide_eq_true h]; rfl
    · rw [h, Bool.or_true]

end Sys2Proof.Machine
end

/-! ## Proofs/O35: a thread alone in its slot through a fetch and a trap -/
section
namespace Sys2Proof.Machine
open Sys2Proof.Claims

/-! ### What a fetch leaves unchanged -/

/-- What a fetch leaves: only activations with a consignment leave their slots, and memory and the scratchpads stay canonical. -/
structure State.FetchKept (s s' : State) : Prop where
  threads : ∀ k, s'.entriesAt k = s.entriesAt k ∨ s'.entriesAt k = [] ∧ ∃ t ∈ s.entriesAt k, t.cons.isSome
  canonical : Canonical s → Canonical s'

theorem State.HomeKept.fetch {s s' : State} (h : s.HomeKept s') : s.FetchKept s' := ⟨h.threads, h.canonical⟩

theorem State.FetchKept.refl (s : State) : s.FetchKept s := (State.HomeKept.refl s).fetch

theorem State.FetchKept.trans {s s1 s2 : State} (h : s.FetchKept s1) (h' : s1.FetchKept s2) : s.FetchKept s2 where
  threads k := by
    rcases h.threads k with e | ⟨e, hc⟩ <;> rcases h'.threads k with e' | ⟨e', hc'⟩
    · exact .inl (e'.trans e)
    · exact .inr ⟨e', e ▸ hc'⟩
    · exact .inr ⟨e'.trans e, hc⟩
    · exact .inr ⟨e', hc⟩
  canonical hc := h'.canonical (h.canonical hc)

theorem State.FetchKept.modPart (s : State) (p : Nat) (f : Part → Part) : s.FetchKept (s.modPart p f) where
  threads k := .inl (by rw [State.entriesAt, State.entriesAt, State.modPart_threads])
  canonical hc := ⟨by rw [State.modPart_mem]; exact hc.1, fun c => by rw [State.core, State.modPart_cores]; exact hc.2 c⟩

theorem State.FetchKept.modCore (s : State) (c : Nat) (f : Core → Core) (h : ∀ y, (f y).sp = y.sp) : s.FetchKept (s.modCore c f) where
  threads _ := .inl rfl
  canonical hc := ⟨hc.1, fun c' => by
    rw [State.core_modCore]
    split
    · rw [h]; exact hc.2 c
    · exact hc.2 c'⟩

theorem State.HomeKept.addHolder (s : State) (p sec c : Nat) (st : HomeSt) : s.HomeKept (s.addHolder p sec c st) := by
  unfold State.addHolder
  exact .ite (.modEntry _ _ _ _) (.ite (.modEntry _ _ _ _)
    ((State.HomeKept.foldl (fun s i => s.recall p (sec / 4 * 4 + i) false none) _ (fun s i _ => .recall s _ _ _ _) s).trans (.modEntry _ _ _ _)))

theorem State.HomeKept.grantRead (s : State) (p c sec : Nat) : s.HomeKept (s.grantRead p c sec) := by
  unfold State.grantRead
  exact ((State.HomeKept.homeRead s p sec).trans (.addHolder _ _ _ _ _)).trans (.setL1 _ c sec _)

theorem State.HomeKept.readLine (s : State) (c sec : Nat) (sh own : Bool) : s.HomeKept (s.readLine c sec sh own).2 := by
  unfold State.readLine
  split
  · exact .refl s
  · split
    · exact .refl s
    · exact .ite (.refl s) (.grantRead s _ c sec)

theorem State.HomeKept.discardCopy (s : State) (p c sec : Nat) : s.HomeKept (s.discardCopy p c sec) := by
  unfold State.discardCopy
  split
  · exact .ite (.refl s) ((State.HomeKept.delL1 s c sec).trans (.modEntry _ _ _ _))
  · exact .refl s

theorem State.HomeKept.corr (s : State) (p kind : Nat) : s.HomeKept (s.corr p kind) := by
  unfold State.corr
  split
  · exact .refl s
  · exact (State.HomeKept.homeReadBytes s p _ 4).trans (.homeWriteBytes _ p _ _ none)

theorem State.FetchKept.fetchLine (s : State) (c k region : Nat) (pc : Word) : s.FetchKept (s.fetchLine c k region pc).2 := by
  have ht := (State.HomeKept.translateR s c region (pcLine pc) .fetch).fetch
  unfold State.fetchLine
  generalize s.translateR c region (pcLine pc) .fetch = r at ht ⊢
  obtain ⟨res, s1⟩ := r
  replace ht : s.FetchKept s1 := ht
  cases res with
  | fault f => exact ht
  | ok pa sh x =>
    dsimp only
    generalize (if sh then FetchAt.free else s1.fetchAt c k (pa / 64)) = see
    split
    · exact ht.trans (.modPart s1 _ _)
    · exact ht
    · have h1 := (State.HomeKept.readLine s1 c (pa / 64) sh (see == .mine)).fetch
      generalize s1.readLine c (pa / 64) sh (see == .mine) = r1 at h1 ⊢
      obtain ⟨l1, s2⟩ := r1
      replace h1 : s.FetchKept s2 := ht.trans h1
      dsimp only
      split
      · exact h1
      · have h2 : s2.FetchKept (if sh || see == .mine then s2 else s2.discardCopy (s2.partOf c) c (pa / 64)) := by
          split
          · exact .refl _
          · exact (State.HomeKept.discardCopy _ _ _ _).fetch
        generalize (if sh || see == .mine then s2 else s2.discardCopy (s2.partOf c) c (pa / 64)) = s3 at h2 ⊢
        replace h2 := h1.trans h2
        split
        · exact h2
        · have h3 := (State.HomeKept.readLine s3 c (pa / 64) sh (see == .mine)).fetch
          generalize s3.readLine c (pa / 64) sh (see == .mine) = r3 at h3 ⊢
          obtain ⟨l3, s4⟩ := r3
          replace h3 : s.FetchKept s4 := h2.trans h3
          dsimp only
          split
          · have h4 : s4.FetchKept (s4.modCore c fun x => { x with corrected := x.corrected + 1 }) := .modCore s4 c _ fun _ => rfl
            exact (h3.trans h4).trans (State.HomeKept.corr _ _ _).fetch
          · exact h3

theorem State.FetchKept.checkTarget (s : State) (c k region : Nat) (pc : Word) : s.FetchKept (s.checkTarget c k region pc).2 := by
  have h := State.FetchKept.fetchLine s c k region pc
  unfold State.checkTarget
  split
  · exact .refl s
  · generalize s.fetchLine c k region pc = r at h ⊢
    obtain ⟨res, s1⟩ := r
    replace h : s.FetchKept s1 := h
    cases res with
    | ok l =>
      dsimp only
      split
      · exact h
      · split <;> exact h
    | trap cause d lv span => exact h
    | busy => exact h

/-! ### A slot with one entry -/

/-- What binding gives a thread and neither its fetch nor its trap takes. -/
def Thread.gist (t : Thread) : Life × Word × Nat × BitVec 32 × Vector Word 64 := (t.life, t.leadPc, t.region, t.tid, t.g)

/-- The table of threads lists a slot once, for a thread in direct mode. -/
def State.SoleAt (s : State) (c k : Nat) (x : Life × Word × Nat × BitVec 32 × Vector Word 64) : Prop :=
  ∃ t, s.entriesAt (c, k) = [t] ∧ t.gist = x ∧ t.cons = none

theorem filter_aset {κ α : Type} [DecidableEq κ] (k : κ) (v : α) (l : List (κ × α)) :
    (aset k v l).filter (fun e => e.1 = k) = (k, v) :: (l.filter fun e => e.1 = k).tail := by
  induction l with
  | nil => simp [aset]
  | cons x l ih =>
    obtain ⟨k', v'⟩ := x
    by_cases h : k' = k
    · simp [aset, h]
    · simp [aset, h, ih]

theorem entriesAt_setThread (s : State) (c k : Nat) (t : Thread) :
    (s.setThread c k t).entriesAt (c, k) = t.lasting :: (s.entriesAt (c, k)).tail := by
  rw [State.entriesAt, State.setThread, filter_aset, List.map_cons, List.map_tail]
  rfl

section
variable {s s' : State} {c k : Nat} {x : Life × Word × Nat × BitVec 32 × Vector Word 64}

theorem State.SoleAt.of_free (h : s.thread? c k = none) {t : Thread} (hc : t.cons = none) : (s.setThread c k t).SoleAt c k t.gist := by
  have hn : s.entriesAt (c, k) = [] := by
    rw [← List.head?_eq_none_iff, State.head?_entriesAt, h]
    rfl
  exact ⟨t.lasting, by rw [entriesAt_setThread, hn, List.tail_nil], rfl, hc⟩

theorem State.SoleAt.of_threads (h : s.SoleAt c k x) (ht : s'.threads = s.threads) : s'.SoleAt c k x := by
  obtain ⟨t, he, hx⟩ := h
  exact ⟨t, by rw [State.entriesAt, ht]; exact he, hx⟩

theorem State.SoleAt.of_fetch (h : s.SoleAt c k x) (hk : s.FetchKept s') : s'.SoleAt c k x := by
  obtain ⟨t, he, hx, hc⟩ := h
  rcases hk.threads (c, k) with h' | ⟨-, t', ht', hc'⟩
  · exact ⟨t, h'.trans he, hx, hc⟩
  · rw [he, List.mem_singleton] at ht'
    rw [ht', hc] at hc'
    cases hc'

theorem State.SoleAt.setThread (h : s.SoleAt c k x) {t : Thread} (hx : t.gist = x) (hc : t.cons = none) : (s.setThread c k t).SoleAt c k x := by
  obtain ⟨t', he, -⟩ := h
  exact ⟨t.lasting, by rw [entriesAt_setThread, he, List.tail_cons], hx, hc⟩

theorem State.SoleAt.thread? (h : s.SoleAt c k x) : ∃ t, s.thread? c k = some t ∧ t.gist = x ∧ t.cons = none := by
  obtain ⟨t, he, hx, hc⟩ := h
  have ht := State.head?_entriesAt s c k
  rw [he, List.head?_cons] at ht
  obtain ⟨t', ht', hl⟩ := Option.map_eq_some_iff.mp ht.symm
  subst hl
  exact ⟨t', ht', hx, hc⟩

theorem State.SoleAt.modThread (h : s.SoleAt c k x) (f : Thread → Thread) (hf : ∀ t, (f t).gist = t.gist ∧ (f t).cons = t.cons) :
    (s.modThread c k f).SoleAt c k x := by
  obtain ⟨t, ht, hx, hc⟩ := h.thread?
  rw [State.modThread, ht]
  exact h.setThread ((hf t).1.trans hx) ((hf t).2.trans hc)

/-! ### A trap -/

theorem recordProgress_threads (s : State) (c : Nat) (t : Thread) : (s.recordProgress c t).threads = s.threads := by
  unfold State.recordProgress
  split
  · unfold State.modSide
    exact State.modCluster_threads ..
  · rfl

theorem dropShrink_threads (s : State) (c k : Nat) : (s.dropShrink c k).threads = s.threads := by
  unfold State.dropShrink
  split <;> rfl

theorem State.HomeKept.saveContext (s : State) (c k : Nat) : s.HomeKept (s.saveContext c k) := by
  unfold State.saveContext
  split
  · exact .refl s
  · exact .ite ((State.HomeKept.memPut s _ _).trans (.homeWriteBytes _ _ _ _ none)) (.memPut s _ _)

theorem State.SoleAt.halt (h : s.SoleAt c k x) (i : TrapInfo) : (s.halt c k i).SoleAt c k x := by
  obtain ⟨t, ht, hx, hc⟩ := h.thread?
  rw [State.halt, ht]
  dsimp -zeta only
  extract_lets ds s1 rest rep old tpc t1 recseq x1 s2 s3 bytes
  have h1 : s1.SoleAt c k x := h.of_threads (recordProgress_threads s c t)
  have h2 : s2.SoleAt c k x := (h1.setThread (t := { t1 with stop := some x1 }) hx hc).of_threads (dropShrink_threads ..)
  have h3 : s3.SoleAt c k x := h2.of_fetch (State.HomeKept.saveContext s2 c k).fetch
  exact (h3.of_fetch (State.HomeKept.devWrite s3 c t.region t.trapb bytes false).fetch).modThread _ fun _ => ⟨rfl, rfl⟩

theorem State.SoleAt.endTrap (h : s.SoleAt c k x) (recseq : Word) : (s.endTrap c k recseq).SoleAt c k x := by
  obtain ⟨t, ht, -⟩ := h.thread?
  rw [State.endTrap, ht]
  dsimp only
  split
  · exact h
  · next y _ =>
    split
    · exact h
    · have h1 : State.FetchKept s (if y.frameLost then s else (s.devWrite c t.region (frameVa t 72) (toBytes 8 recseq.toNat) false).2) := by
        split
        · exact .refl s
        · exact (State.HomeKept.devWrite s c t.region _ _ false).fetch
      exact (h.of_fetch (h1.trans (State.HomeKept.modFline _ c t.region 8 (· + 1)).fetch)).modThread _ fun _ => ⟨rfl, rfl⟩

theorem State.SoleAt.takeTrap (h : s.SoleAt c k x) (i : TrapInfo) (span : Nat) (cont : List Nat) : (s.takeTrap c k i span cont).SoleAt c k x := by
  obtain ⟨t, ht, -⟩ := h.thread?
  rw [State.takeTrap, ht]
  dsimp -zeta only
  extract_lets s1 lost
  have h1 : s1.SoleAt c k x := h.halt i
  have h2 := h1.of_fetch
    (State.HomeKept.appendRec s1 c t.region (recFields s1 c t.tid i lost) cont (mergeKey t.region i.cause i.level span i.faddr) (some (c, k))).fetch
  generalize s1.appendRec c t.region (recFields s1 c t.tid i lost) cont (mergeKey t.region i.cause i.level span i.faddr) (some (c, k)) = r at h2 ⊢
  obtain ⟨res, s2⟩ := r
  cases res with
  | seq n => exact h2.endTrap _
  | lost => exact h2.endTrap _
  | waits => exact h2

theorem State.SoleAt.startThread (h : s.SoleAt c k x) : (s.startThread c k).SoleAt c k x := by
  obtain ⟨t, ht, hx, hc⟩ := h.thread?
  rw [State.startThread, ht]
  dsimp -zeta only
  extract_lets pc t1
  have h1 := h.of_fetch (State.FetchKept.checkTarget s c k t1.region pc)
  generalize s.checkTarget c k t1.region pc = r at h1 ⊢
  obtain ⟨res, s1⟩ := r
  cases res with
  | ok l => exact h1.setThread hx hc
  | busy => exact h1.setThread hx hc
  | trap cause d lv span => exact (h1.setThread (t := { t1 with line := none }) hx hc).takeTrap _ _ _

end

end Sys2Proof.Machine
end

/-! ## Proofs/O35: binding, ageing and stealing -/
section
namespace Sys2Proof.Machine
open Sys2Proof.Claims

/-! ### Binding (R343) -/

/-- Room is made at a slot that no thread holds. -/
theorem thread?_of_findSlot {s : State} {c orig : Nat} {x : Nat × Nat × BitVec 6} (h : s.findSlot c orig = some x) : s.thread? c x.1 = none := by
  rw [State.findSlot] at h
  split at h
  · obtain ⟨k, -, hk⟩ := List.exists_of_findSome?_eq_some h
    dsimp only at hk
    split at hk
    · next hf =>
      obtain ⟨g, -, rfl⟩ := Option.map_eq_some_iff.mp hk
      exact Option.isNone_iff_eq_none.mp hf
    · cases hk
  · dsimp only at h
    split at h
    · cases h
    · next k hk =>
      obtain ⟨n, -, hn⟩ := List.exists_of_findSome?_eq_some h
      split at hn
      · cases hn
      · obtain ⟨g, -, rfl⟩ := Option.map_eq_some_iff.mp hn
        exact Option.isNone_iff_eq_none.mp (List.find?_some (p := fun k => (s.thread? c k).isNone) hk)

theorem thread?_of_makeRoom {c orig region : Nat} {fuel : Nat} {s s1 : State} {x : Nat × Nat × BitVec 6}
    (h : s.makeRoom c orig region fuel = some (x, s1)) : s1.thread? c x.1 = none := by
  induction fuel generalizing s with
  | zero => cases h
  | succ fuel ih =>
    rw [State.makeRoom] at h
    split at h
    · obtain ⟨e, -, he⟩ := Option.bind_eq_some_iff.mp h
      obtain ⟨s', -, hs'⟩ := Option.bind_eq_some_iff.mp he
      exact ih hs'
    · split at h
      · next x' hx =>
        cases h
        exact thread?_of_findSlot hx
      · obtain ⟨e, -, he⟩ := Option.bind_eq_some_iff.mp h
        obtain ⟨s', -, hs'⟩ := Option.bind_eq_some_iff.mp he
        exact ih hs'

/-- The post that wins has a free slot. -/
theorem thread?_of_winner {s s1 : State} {c post : Nat} {p : Post} {m : InMsg × Bool} {x : Nat × Nat × BitVec 6}
    (h : s.winner c = some (post, p, m, x, s1)) : s1.thread? c x.1 = none := by
  rw [State.winner] at h
  obtain ⟨e, -, he⟩ := List.mem_filterMap.mp (List.mem_of_find?_eq_some h)
  obtain ⟨y, hy, hyx⟩ := Option.map_eq_some_iff.mp he
  cases hyx
  rw [State.eligible] at hy
  split at hy
  · split at hy
    · cases hy
    · split at hy
      · next hroom =>
        split at hy
        · cases hy
          exact thread?_of_makeRoom hroom
        · cases hy
      · cases hy
  · cases hy

theorem mkTid_gen (gen : BitVec 6) (lcn slot : Nat) : (mkTid gen lcn slot).extractLsb' 26 6 = gen := by
  rw [mkTid, extractLsb'_packFields 26 6 gen.toNat (.head _) rfl (by decide), BitVec.ofNat_toNat, BitVec.setWidth_eq]

/-- The registers of a thread that binds: r1 to r6 hold the payload (R56). -/
def Thread.withPayload (t : Thread) (pay : BitVec 384) (hdr : BitVec 128) : Thread :=
  (((List.range 6).foldl (fun t j => t.wg (BitVec.ofNat 6 (1 + j)) (pay.extractLsb' (64 * j) 64)) t).wg 7 (hdr.extractLsb' 0 64)).wg 8
    (hdr.extractLsb' 64 64)

theorem rg_withPayload (t : Thread) (pay : BitVec 384) (hdr : BitVec 128) {j : Nat} (hj : j < 6) :
    (t.withPayload pay hdr).rg (BitVec.ofNat 6 (1 + j)) = pay.extractLsb' (64 * j) 64 := by
  rw [Thread.withPayload]
  simp only [List.range, List.range.loop, List.foldl_cons, List.foldl_nil]
  interval_cases j <;> simp (disch := decide) only [Thread.rg_wg_ne, Thread.rg_wg_self]

theorem withPayload_keeps (t : Thread) (pay : BitVec 384) (hdr : BitVec 128) :
    (t.withPayload pay hdr).life = t.life ∧ (t.withPayload pay hdr).leadPc = t.leadPc ∧ (t.withPayload pay hdr).region = t.region ∧
      (t.withPayload pay hdr).tid = t.tid := by
  have h {α : Type} (g : Thread → α) (hg : ∀ (t : Thread) r v, g (t.wg r v) = g t) : g (t.withPayload pay hdr) = g t := by
    rw [Thread.withPayload, hg, hg]
    exact foldl_keeps g _ _ (fun t j _ => hg t _ _) t
  exact ⟨h _ Thread.wg_life, h _ Thread.wg_leadPc, h _ Thread.wg_region, h _ Thread.wg_tid⟩

/-- A thread of direct mode with an issue priority. -/
def Thread.direct (t : Thread) (prio : Nat) : Thread := { t with prio := prio, cons := none }

theorem Thread.gist_direct (t : Thread) (prio : Nat) : (t.direct prio).gist = t.gist := rfl

theorem Thread.gist_eq_iff {t t' : Thread} :
    t.gist = t'.gist ↔ t.life = t'.life ∧ t.leadPc = t'.leadPc ∧ t.region = t'.region ∧ t.tid = t'.tid ∧ t.g = t'.g := by
  simp only [Thread.gist, Prod.mk.injEq]

theorem Thread.rg_congr {t t' : Thread} (h : t.g = t'.g) (r : GReg) : t.rg r = t'.rg r := by rw [Thread.rg, Thread.rg, h]

/-- A thread that is placed in a free slot is alone there. -/
theorem soleAt_place {s : State} {c orig region : Nat} {x : Nat × Nat × BitVec 6} {life : Life} {pc : Word} {f : Thread → Thread} {r : Region}
    (hr : s.region? region = some r) (hfree : s.thread? c x.1 = none) (hc : ∀ t, (f t).cons = none) :
    ∃ t : Thread, t.life = life ∧ t.leadPc = pc ∧ t.region = region ∧ t.tid.extractLsb' 26 6 = x.2.2 ∧
      (s.place c orig x region life pc f).SoleAt c x.1 (f t).gist := by
  let lcn := (s.lcnOf r orig).getD 0
  let plcn := ((s.region? (s.rootOf region)).bind fun q => s.lcnOf q orig).getD 0
  let t : Thread := { Thread.fresh (mkTid x.2.2 lcn x.2.1) region life pc with
    rgn := r.selfva
    passb := r.passa
    fltq := r.fltq
    trapb := r.trapa + BitVec.ofNat 64 (512 * (256 * plcn + x.2.1))
    nextOp := 2 ^ 64 * s.fresh
    prio := r.prio
    issuedAt := s.gt
    guest := if c = orig then none else some (orig, x.2.1)
    st := .bound }
  have hp : s.place c orig x region life pc f = (s.modCore orig fun y => { y with lastGen := aset x.2.1 x.2.2 y.lastGen }).setThread c x.1 (f t) := by
    rw [State.place, hr]
  exact ⟨t, rfl, rfl, rfl, mkTid_gen _ _ _, hp ▸ State.SoleAt.of_free hfree (hc t)⟩

/-- What binding in mode 0 does before the thread stands in its slot leaves the slot free. -/
theorem bind_direct {s : State} {c post : Nat} {p : Post} {i : InMsg} {deque : Bool} {x : Nat × Nat × BitVec 6} {r : Region}
    (hr : s.region? p.region = some r) (hm : r.emode = 0) (hfree : s.thread? c x.1 = none) :
    ∃ (s3 : State) (r3 : Region) (hdr : BitVec 128), s3.thread? c x.1 = none ∧ s3.region? p.region = some r3 ∧
      s.bind c post p (i, deque) x = (s3.place c i.dest x p.region (.activation post i.msg) p.hpc fun t =>
        (t.withPayload i.msg.pay hdr).direct p.ep).startThread c x.1 := by
  let p' : Post := { p with age := 0, streak := if deque then p.streak + 1 else 0, stood := 0 }
  let s1 := (s.modCore c fun y => { (y.take i deque false) with rotation := post + 1 }).modCore c fun y => { y with posts := aset post p' y.posts }
  let s2 := if i.mark.region = p.region then s1.consume p.region 1 else s1
  let s3 := if i.mark.pair.any (·.2) then s2 else (s2.modRegion p.region fun r => { r with acts := r.acts + 1 }).syncRegion p.region
  let hdr := (i.msg.hdr &&& ~~~0xF00#128) ||| BitVec.ofNat 128 (max i.msg.prio p.ep * 256)
  have h2 : s1.HomeKept s2 := .ite (.consume s1 _ 1) (.refl s1)
  have hf2 : s2.thread? c x.1 = none := h2.thread?_none hfree
  obtain ⟨r2, hr2⟩ := h2.region?_some (show s1.region? p.region = some r from hr)
  have h3 : (s2.modRegion p.region fun r => { r with acts := r.acts + 1 }).HomeKept
      ((s2.modRegion p.region fun r => { r with acts := r.acts + 1 }).syncRegion p.region) := .syncRegion _ _
  have hs3 : s3.thread? c x.1 = none ∧ ∃ r3, s3.region? p.region = some r3 := by
    unfold s3
    split
    · exact ⟨hf2, r2, hr2⟩
    · refine ⟨h3.thread?_none ?_, h3.region?_some (r := { r2 with acts := r2.acts + 1 }) ?_⟩
      · rw [State.thread?, State.modRegion_threads]
        exact hf2
      · rw [State.region?_modRegion, if_pos rfl, hr2]
        rfl
  obtain ⟨hf3, r3, hr3⟩ := hs3
  refine ⟨s3, r3, hdr, hf3, hr3, ?_⟩
  rw [State.bind, hr]
  simp only [hm, mkConsign]
  rfl

theorem execBinding_direct {s s1 : State} {c post : Nat} {p : Post} {m : InMsg × Bool} {x : Nat × Nat × BitVec 6} {r : Region}
    (h : s.winner c = some (post, p, m, x, s1)) (hr : s1.region? p.region = some r) (hm : r.emode = 0) :
    ∃ s' t, exec (.binding ⟨c⟩) s = .next s' ∧ s'.thread? c x.1 = some t ∧ t.life = .activation post m.1.msg ∧ t.leadPc = p.hpc ∧
      t.region = p.region ∧
      t.tid.extractLsb' 26 6 = x.2.2 ∧ t.cons = none ∧ ∀ j < 6, t.rg (BitVec.ofNat 6 (1 + j)) = m.1.msg.pay.extractLsb' (64 * j) 64 := by
  obtain ⟨s3, r3, hdr, hf3, hr3, hb⟩ := bind_direct (i := m.1) (deque := m.2) (c := c) (post := post) hr hm (thread?_of_winner h)
  obtain ⟨t0, hlife, hpc, hreg, htid, hsole⟩ := soleAt_place (orig := m.1.dest) (life := .activation post m.1.msg) (pc := p.hpc)
    (f := fun t => (t.withPayload m.1.msg.pay hdr).direct p.ep) hr3 hf3 fun _ => rfl
  obtain ⟨t, ht, hg, hc⟩ := hsole.startThread.thread?
  refine ⟨_, t, ?_, ht, ?_⟩
  · refine (rfl : _ = execBinding ⟨c⟩ s).trans ?_
    rw [execBinding, h]
    exact congrArg _ hb
  · let w := t0.withPayload m.1.msg.pay hdr
    obtain ⟨h1, h2, h3, h4, h5⟩ := Thread.gist_eq_iff.mp (hg.trans (Thread.gist_direct w p.ep))
    obtain ⟨w1, w2, w3, w4⟩ := withPayload_keeps t0 m.1.msg.pay hdr
    refine ⟨?_, ?_, ?_, ?_, hc, fun j hj => ?_⟩
    · rw [h1, w1, hlife]
    · rw [h2, w2, hpc]
    · rw [h3, w3, hreg]
    · rw [h4, w4, htid]
    · rw [Thread.rg_congr h5]
      exact rg_withPayload t0 _ hdr hj

/-! ### Ageing and stealing (R343, R286) -/

theorem execStealRequest_eq {s s1 : State} {c g n : Nat} {r : Region} (hr : s.region? g = some r) (hn : n = ((s.core c).stealOf g).1)
    (h1 : s1 = s.modCore c fun y => { y with steals := aset g (n + 1, s.gt + s.cyclesNs c 512) y.steals }) :
    exec (.stealRequest ⟨c, g⟩) s =
      match (if s1.idleFor c g then (s1.victims r c)[n % max 1 (s1.victims r c).length]? else none) with
      | none => .next s1
      | some v =>
        match s1.stealable v g r with
        | none => .next s1
        | some (i, deque) =>
          .next ((s1.modCore v fun z => if deque then { z with deque := (z.deque.reverse.erase i).reverse } else { z with inbox := z.inbox.erase i }).push
            [.messageArrival ⟨c, i.msg, none, true, i.mark⟩]) := by
  subst hn h1
  refine (rfl : _ = execStealRequest ⟨c, g⟩ s).trans ?_
  rw [execStealRequest]
  have hr1 (f : Core → Core) : (s.modCore c f).region? g = some r := hr
  simp only [hr1] <;> rfl

theorem bindingAndStealing : BindingAndStealing := by
  refine ⟨fun s c h => ?_, fun s s1 c post p m x r h hr hm => execBinding_direct h hr hm, fun s c post p hp => ?_,
    fun s s1 c g v n r i hr hn h1 => ?_⟩
  · refine (rfl : _ = execBinding ⟨c⟩ s).trans ?_
    rw [execBinding, h]
  · refine ⟨_, rfl, ?_⟩
    refine (congrArg (fun y : Core => alook post y.posts) (core_modCore_self s c _)).trans ?_
    let older : Post → Post := fun p => { p with age := min 15 (p.age + p.stood / ageStep), stood := p.stood % ageStep }
    refine (alook_mapAt post older (s.core c).posts).trans ?_
    rw [hp]
    rfl
  · have hx := execStealRequest_eq hr hn h1
    have hag : s1.agenda = s.agenda := by rw [h1]; rfl
    refine ⟨fun hi => ?_, fun hi hv hf => ?_, fun i hi hv hm hf hl => ?_⟩
    · rw [hx, hi]
      rfl
    · have hst : s1.stealable v g r = some (i, true) := by rw [State.stealable, hf]
      rw [hx, if_pos hi, hv]
      simp only [hst]
      refine ⟨_, rfl, ?_, ?_⟩
      · rw [← hag]; rfl
      · simp [State.core_modCore]
    · have hst : s1.stealable v g r = some (i, false) := by rw [State.stealable, hf, if_pos hm, hl]
      rw [hx, if_pos hi, hv]
      simp only [hst]
      refine ⟨_, rfl, ?_, ?_⟩
      · rw [← hag]; rfl
      · simp [State.core_modCore]

/-- Settles O35: a message enters the inbox of its core or the slice, the binder's post takes it into a free slot, and an idle core takes work. -/
theorem messagesAndBinding : Obligations.MessagesAndBinding := ⟨messagesArrive, bindingAndStealing⟩

end Sys2Proof.Machine
end

/-! ## Proofs/O53: The canonical form, and what keeps it

Memory and the scratchpads are written by `memWrite` and `memMerge`, filtered, or cleared, and nothing else touches them. So the canonical
form is kept function by function: a lemma for each function of the model, in the model's order, from the lemmas of what it calls. -/

section
namespace Sys2Proof.Machine

open Sys2Proof.Claims

/-! ### The fields that the canonical form is about -/

/-- Memory and the scratchpads of a table of cores are canonical. -/
def PartsCanonical (m : Memory) (cs : List (Nat × Core)) : Prop := m.wf = true ∧ ∀ c, ((alook c cs).getD .reset).sp.wf = true

theorem canonical_iff (s : State) : Canonical s ↔ PartsCanonical s.mem s.cores := Iff.rfl

theorem canonical_core {s : State} (h : Canonical s) (c : Nat) : (s.core c).sp.wf = true := h.2 c

theorem canonical_later {s : State} (h : Canonical s) (l : List Event) : Canonical { s with later := l } := h

theorem canonical_push {s : State} (h : Canonical s) (es : List Event) : Canonical (s.push es) := h

theorem canonical_setThread {s : State} (h : Canonical s) (c k : Nat) (t : Thread) : Canonical (s.setThread c k t) := h

theorem canonical_memWrite {s : State} (h : Canonical s) (a : Nat) (bs : List Byte) : Canonical { s with mem := memWrite s.mem a bs } :=
  ⟨memWrite_wf _ _ _ h.1, h.2⟩

theorem canonical_memMerge {s : State} (h : Canonical s) (a : Nat) (d : V512) (m : BitVec 64) : Canonical { s with mem := memMerge s.mem a d m } :=
  ⟨memMerge_wf _ _ _ _ h.1, h.2⟩

theorem canonical_modCore {s : State} (h : Canonical s) (c : Nat) (f : Core → Core) (hf : (f (s.core c)).sp.wf = true) : Canonical (s.modCore c f) :=
  ⟨h.1, State.sp_wf_modCore s c f h.2 hf⟩

theorem alook_map_fst (f : Nat × α → Nat × α) (h : ∀ e, (f e).1 = e.1) (c : Nat) (l : List (Nat × α)) :
    alook c (l.map f) = (alook c l).map fun x => (f (c, x)).2 := by
  induction l with
  | nil => rfl
  | cons e l ih =>
    obtain ⟨k, x⟩ := e
    by_cases hk : k = c
    · subst hk
      simp [alook, h]
    · simp [alook, h, hk, ih]

/-- Cores that change in place and keep their scratchpads stay canonical. -/
theorem canonical_mapCores {s : State} (h : Canonical s) (f : Nat × Core → Nat × Core) (hk : ∀ e, (f e).1 = e.1) (hf : ∀ e, (f e).2.sp = e.2.sp) :
    Canonical { s with cores := s.cores.map f } := by
  refine ⟨h.1, fun c => ?_⟩
  have hc := h.2 c
  rw [State.core] at hc ⊢
  rw [alook_map_fst f hk]
  cases hx : alook c s.cores with
  | none => exact Memory.wf_nil
  | some x =>
    rw [hx] at hc
    exact (congrArg Memory.wf (hf (c, x))).trans hc

theorem Core.sp_take (y : Core) (i : InMsg) (d k : Bool) : (y.take i d k).sp = y.sp := by
  unfold Core.take
  split <;> rfl

theorem State.OpKept.canonical {s s' : State} (h : s.OpKept s') (hc : Canonical s) : Canonical s' :=
  ⟨by rw [h.mem]; exact hc.1, fun c => by rw [h.sp]; exact hc.2 c⟩

/-! ### Folds -/

theorem canonical_foldl {s : State} (f : State → β → State) (l : List β) (h : Canonical s) (hf : ∀ s, Canonical s → ∀ b, Canonical (f s b)) :
    Canonical (l.foldl f s) := by
  induction l generalizing s with
  | nil => exact h
  | cons b l ih => exact ih (hf s h b)

theorem canonical_foldl_snd {x : γ × State} (f : γ × State → β → γ × State) (l : List β) (h : Canonical x.2)
    (hf : ∀ x, Canonical x.2 → ∀ b, Canonical (f x b).2) : Canonical (l.foldl f x).2 := by
  induction l generalizing x with
  | nil => exact h
  | cons b l ih => exact ih (hf x h b)

theorem canonical_optionElim {s : State} (h : Canonical s) (o : Option α) (f : α → State) (hf : ∀ a, Canonical (f a)) : Canonical (o.elim s f) := by
  cases o with
  | none => exact h
  | some a => exact hf a

/-! ### What the functions answer -/

/-- The next state of an outcome is canonical. -/
def OutCanonical : Out → Prop
  | .next s => Canonical s
  | _ => True

theorem OutCanonical.next {s : State} (h : Canonical s) : OutCanonical (.next s) := h

theorem OutCanonical.ite {p : Prop} [Decidable p] {o o' : Out} (h : OutCanonical o) (h' : OutCanonical o') : OutCanonical (if p then o else o') := by
  split
  · exact h
  · exact h'

/-- A state that may be there is canonical. -/
def OptCanonical : Option State → Prop
  | some s => Canonical s
  | none => True

theorem OptCanonical.map {o : Option α} {f : α → State} (h : ∀ a, o = some a → Canonical (f a)) : OptCanonical (o.map f) := by
  cases o with
  | none => trivial
  | some a => exact h a rfl

theorem OptCanonical.bind {o : Option α} {f : α → Option State} (h : ∀ a, o = some a → OptCanonical (f a)) : OptCanonical (o.bind f) := by
  cases o with
  | none => trivial
  | some a => exact h a rfl

theorem OptCanonical.of_eq {o : Option State} (h : OptCanonical o) {s : State} (hs : o = some s) : Canonical s := by
  subst hs
  exact h

theorem OptCanonical.getD {o : Option State} (h : OptCanonical o) {s : State} (hs : Canonical s) : Canonical (o.getD s) := by
  cases o with
  | none => exact hs
  | some a => exact h

theorem OptCanonical.orElse {o p : Option State} (h : OptCanonical o) (hp : OptCanonical p) : OptCanonical (o <|> p) := by
  cases o with
  | none => exact hp
  | some a => exact h

theorem optCanonical_findSome? {f : α → Option State} {l : List α} (h : ∀ a, OptCanonical (f a)) : OptCanonical (l.findSome? f) := by
  induction l with
  | nil => trivial
  | cons a l ih =>
    have ha := h a
    rw [List.findSome?_cons]
    cases hf : f a with
    | none => exact ih
    | some s =>
      rw [hf] at ha
      exact ha

/-- The state that a part of an access leaves. -/
def Got.state : Got α → State
  | .ok _ s => s
  | .busy s => s
  | .poison _ s => s

/-- The state that a part of a tensor instruction leaves. -/
def TRes.state : TRes α → State
  | .ok _ s => s
  | .busy s => s
  | .fault _ s => s
  | .poison _ _ s => s
  | .full s => s

/-- The state that performing an access leaves. -/
def Perf.state : Perf → State
  | .done s => s
  | .busy s => s
  | .poison _ s => s
  | .waits _ _ _ s => s

/-- The state that a PREP leaves. -/
def PrepRes.state : PrepRes → State
  | .ok s => s
  | .waits s => s

/-- The state that the decision of XRES leaves. -/
def XresEnd.state : XresEnd → State
  | .fault _ s => s
  | .badFmt s => s
  | .status _ s => s
  | .taken _ _ s => s

/-- The state that the checks of a pass leave. -/
def PassGo.state : PassGo → State
  | .trap _ s => s
  | .busy s => s
  | .reload s => s
  | .go s => s

/-- The state of a launch that goes on is canonical. -/
def LaunchCanonical : LaunchRes → Prop
  | .go s => Canonical s
  | _ => True

/-- The state after the split of a launch is canonical. -/
def SplitCanonical : SplitRes → Prop
  | .ok s => Canonical s
  | _ => True

/-- The state that the parts of a descriptor leave is canonical. -/
def PartCanonical : Except Nat (Got α) → Prop
  | .ok x => Canonical x.state
  | .error _ => True

end Sys2Proof.Machine
end

/-! ## Proofs/O53: The canonical form at the homes -/

section
namespace Sys2Proof.Machine

open Sys2Proof.Claims

variable {s : State}

/-! ### Threads, cores and tables -/

theorem canonical_delThread (h : Canonical s) (c k) : Canonical (s.delThread c k) := (State.StopKept.delThread ..).canonical h

theorem canonical_modThread (h : Canonical s) (c k f) : Canonical (s.modThread c k f) := (State.StopKept.modThread ..).canonical h

theorem canonical_modPart (h : Canonical s) (p f) : Canonical (s.modPart p f) := by
  unfold State.modPart
  split
  · exact h
  · exact h

theorem canonical_modRegion (h : Canonical s) (p f) : Canonical (s.modRegion p f) := by
  unfold State.modRegion
  split
  · exact h
  · exact h

theorem canonical_setCur (h : Canonical s) (t) : Canonical (s.setCur t) := canonical_setThread h ..

theorem canonical_modCur (h : Canonical s) (f) : Canonical (s.modCur f) := canonical_modThread h ..

theorem canonical_later1 (h : Canonical s) (e) : Canonical (s.later1 e) := (State.HomeKept.later1 ..).canonical h

theorem canonical_timer (h : Canonical s) (at_ e) : Canonical (s.timer at_ e) := (State.StopKept.timer ..).canonical h

theorem canonical_modCluster (h : Canonical s) (k f) : Canonical (s.modCluster k f) := h

theorem canonical_weigh (h : Canonical s) (k region n) : Canonical (s.weigh k region n) := canonical_modCluster h ..

theorem outCanonical_withT (f : Thread → Out) (hf : ∀ t, OutCanonical (f t)) : OutCanonical (withT s f) := by
  unfold withT
  split
  · exact hf _
  · trivial

theorem outCanonical_guarded (h : Canonical s) (g : Guard) (f : Thread → Out) (hf : ∀ t, OutCanonical (f t)) : OutCanonical (guarded g s f) :=
  outCanonical_withT _ fun t => .ite (hf t) (.next h)

theorem canonical_unissue (h : Canonical s) : Canonical s.unissue := canonical_modCur h ..

theorem outCanonical_wait (h : Canonical s) : OutCanonical (wait s) := canonical_unissue h ..

theorem canonical_freeWord (h : Canonical s) : Canonical s.freeWord.2 := (State.HomeKept.freeWord ..).canonical h

/-! ### Homes and L1s -/

theorem canonical_consume (h : Canonical s) (region n) : Canonical (s.consume region n) := (State.HomeKept.consume ..).canonical h

theorem canonical_dropReaders (h : Canonical s) (c t) : Canonical (s.dropReaders c t) := (State.HomeKept.dropReaders ..).canonical h

theorem canonical_freeEntry (h : Canonical s) (c t keep) : Canonical (s.freeEntry c t keep) := (State.HomeKept.freeEntry ..).canonical h

theorem canonical_freeTags (h : Canonical s) (p) : Canonical (s.freeTags p) := canonical_modPart h ..

theorem canonical_abortReaders (h : Canonical s) (rs) : Canonical (s.abortReaders rs) := (State.HomeKept.abortReaders ..).canonical h

theorem canonical_modEntry (h : Canonical s) (p line f) : Canonical (s.modEntry p line f) := (State.HomeKept.modEntry ..).canonical h

theorem canonical_setL1 (h : Canonical s) (c sec x) : Canonical (s.setL1 c sec x) := (State.HomeKept.setL1 ..).canonical h

theorem canonical_delL1 (h : Canonical s) (c sec) : Canonical (s.delL1 c sec) := (State.HomeKept.delL1 ..).canonical h

theorem canonical_setPoison (h : Canonical s) (sec kind) : Canonical (s.setPoison sec kind) := (State.HomeKept.setPoison ..).canonical h

theorem canonical_memPut (h : Canonical s) (a bs) : Canonical (s.memPut a bs) := (State.HomeKept.memPut ..).canonical h

theorem canonical_recall (h : Canonical s) (p sec drop keep) : Canonical (s.recall p sec drop keep) := (State.HomeKept.recall ..).canonical h

theorem canonical_addHolder (h : Canonical s) (p sec c st) : Canonical (s.addHolder p sec c st) := (State.HomeKept.addHolder ..).canonical h

theorem canonical_leaveCoarse (h : Canonical s) (p line) : Canonical (s.leaveCoarse p line) := (State.HomeKept.leaveCoarse ..).canonical h

theorem canonical_fifthOut (h : Canonical s) (p sec c) : Canonical (s.fifthOut p sec c) := by
  grind [State.fifthOut, canonical_modEntry, canonical_leaveCoarse]

theorem canonical_clearTu (h : Canonical s) (p sec) : Canonical (s.clearTu p sec) := (State.HomeKept.clearTu ..).canonical h

theorem canonical_replaceLine (h : Canonical s) (p line) : Canonical (s.replaceLine p line) := (State.HomeKept.replaceLine ..).canonical h

theorem canonical_takeWay (h : Canonical s) (p line) : Canonical (s.takeWay p line) := (State.HomeKept.takeWay ..).canonical h

theorem canonical_fill (h : Canonical s) (p line) : Canonical (s.fill p line) := (State.HomeKept.fill ..).canonical h

theorem canonical_biSnoop (h : Canonical s) (p sec) : Canonical (s.biSnoop p sec) := (State.HomeKept.biSnoop ..).canonical h

theorem canonical_homeRead (h : Canonical s) (p sec) : Canonical (s.homeRead p sec) := (State.HomeKept.homeRead ..).canonical h

theorem canonical_grantRead (h : Canonical s) (p c sec) : Canonical (s.grantRead p c sec) := (State.HomeKept.grantRead ..).canonical h

theorem canonical_beforeWrite (h : Canonical s) (p sec w) : Canonical (s.beforeWrite p sec w) := (State.HomeKept.beforeWrite ..).canonical h

theorem canonical_grantWrite (h : Canonical s) (p c sec) : Canonical (s.grantWrite p c sec) := by
  grind [State.grantWrite, canonical_addHolder, canonical_recall, canonical_biSnoop, canonical_setL1, canonical_fill, canonical_leaveCoarse,
    canonical_fifthOut]

theorem canonical_modSide (h : Canonical s) (k side f) : Canonical (s.modSide k side f) := (State.HomeKept.modSide ..).canonical h

theorem canonical_sendMsg (h : Canonical s) (core m src mark) : Canonical (s.sendMsg core m src mark) := (State.HomeKept.sendMsg ..).canonical h

theorem canonical_markSector (h : Canonical s) (p sec) : Canonical (s.markSector p sec) := (State.HomeKept.markSector ..).canonical h

theorem canonical_sendWakes (h : Canonical s) (p line mask) : Canonical (s.sendWakes p line mask) := (State.HomeKept.sendWakes ..).canonical h

theorem canonical_modPort (h : Canonical s) (n f) : Canonical (s.modPort n f) := h

theorem canonical_linkWrite (h : Canonical s) (p sec) : Canonical (s.linkWrite p sec) := (State.HomeKept.linkWrite ..).canonical h

theorem canonical_homeStore (h : Canonical s) (p sec keep data mask) : Canonical (s.homeStore p sec keep data mask) :=
  (State.HomeKept.homeStore ..).canonical h

theorem canonical_homeApply (h : Canonical s) (p sec keep data mask w) : Canonical (s.homeApply p sec keep data mask w) :=
  (State.HomeKept.homeApply ..).canonical h

theorem canonical_homeWrite (h : Canonical s) (p sec keep data mask w) : Canonical (s.homeWrite p sec keep data mask w) :=
  (State.HomeKept.homeWrite ..).canonical h

theorem canonical_modLading (h : Canonical s) (p i f) : Canonical (s.modLading p i f) := (State.StopKept.modLading ..).canonical h

theorem canonical_ladWait (h : Canonical s) (p i next) : Canonical (s.ladWait p i next) := canonical_modLading h ..

theorem canonical_homeWriteBytes (h : Canonical s) (p pa bs w) : Canonical (s.homeWriteBytes p pa bs w) :=
  (State.HomeKept.homeWriteBytes ..).canonical h

theorem canonical_homeReadBytes (h : Canonical s) (p pa n) : Canonical (s.homeReadBytes p pa n).2 := (State.HomeKept.homeReadBytes ..).canonical h

theorem canonical_spWrite (h : Canonical s) (c o bs w) : Canonical (s.spWrite c o bs w) := by
  unfold State.spWrite
  have h := canonical_abortReaders h
  exact canonical_modCore (h _) c _ (memWrite_wf _ _ _ ((h _).2 c))

/-! ### Translation -/

theorem canonical_markTu (h : Canonical s) (p sec) : Canonical (s.markTu p sec) := (State.HomeKept.markTu ..).canonical h

theorem canonical_setAd (h : Canonical s) (p a write) : Canonical (s.setAd p a write) := (State.HomeKept.setAd ..).canonical h

theorem canonical_fillTlb (h : Canonical s) (cl e) : Canonical (s.fillTlb cl e) := (State.HomeKept.fillTlb ..).canonical h

theorem canonical_translateR (h : Canonical s) (core region va k) : Canonical (s.translateR core region va k).2 :=
  (State.HomeKept.translateR ..).canonical h

theorem canonical_translateRun (h : Canonical s) (core region va n k a) : Canonical (s.translateRun core region va n k a).2 :=
  (State.HomeKept.translateRun ..).canonical h

theorem canonical_devRead (h : Canonical s) (core region va n) : Canonical (s.devRead core region va n).2 := (State.HomeKept.devRead ..).canonical h

theorem canonical_devWrite (h : Canonical s) (core region va bs noSh) : Canonical (s.devWrite core region va bs noSh).2 :=
  (State.HomeKept.devWrite ..).canonical h

/-! ### Operations, traps and transfers -/

theorem canonical_tryFree (h : Canonical s) (c k) : Canonical (s.tryFree c k) := (State.StopKept.tryFree ..).canonical h

theorem canonical_finishHere (h : Canonical s) (c k id) : Canonical (s.finishHere c k id) := (State.OpKept.finishHere ..).canonical h

theorem canonical_inSpilled (h : Canonical s) (p : Nat) (key : Nat × Nat × Nat) (t : Thread) (f : Nat → Nat → State → State)
    (hf : ∀ c k s, Canonical s → Canonical (f c k s)) : Canonical (s.inSpilled p key t f) := by
  unfold State.inSpilled
  extract_lets c k occupant s1 s2
  have h1 : Canonical s1 := hf _ _ _ (canonical_setThread (canonical_modPart h ..) ..)
  have h2 : Canonical s2 := by
    unfold s2
    split
    · exact canonical_modPart h1 ..
    · exact canonical_modCore h1 _ _ (h1.2 _)
  clear_value occupant
  split
  · exact canonical_setThread h2 ..
  · exact canonical_delThread h2 ..

theorem canonical_withOp (h : Canonical s) (r : OpRef) (f : Nat → Nat → State → State) (hf : ∀ c k s, Canonical s → Canonical (f c k s)) :
    Canonical (s.withOp r f) := by
  unfold State.withOp
  (repeat' split)
  · exact hf _ _ _ h
  · exact hf _ _ _ h
  · exact canonical_inSpilled h _ _ _ _ hf
  · exact h

theorem canonical_finishOp (h : Canonical s) (c k id) : Canonical (s.finishOp c k id) := (State.StopKept.finishOp ..).canonical h

theorem canonical_saveContext (h : Canonical s) (c k) : Canonical (s.saveContext c k) := (State.HomeKept.saveContext ..).canonical h

theorem canonical_modFline (h : Canonical s) (core region off f) : Canonical (s.modFline core region off f) :=
  (State.HomeKept.modFline ..).canonical h

theorem canonical_placeRec (h : Canonical s) (x core) : Canonical (s.placeRec x core).2 := (State.HomeKept.placeRec ..).canonical h

theorem canonical_appendRec (h : Canonical s) (core region fields cont key w) : Canonical (s.appendRec core region fields cont key w).2 :=
  (State.HomeKept.appendRec ..).canonical h

theorem canonical_endTrap (h : Canonical s) (c k recseq) : Canonical (s.endTrap c k recseq) := by
  grind [State.endTrap, canonical_modThread, canonical_modFline, ! . canonical_devWrite]

theorem canonical_dropShrink (h : Canonical s) (c k) : Canonical (s.dropShrink c k) := (State.StopKept.dropShrink ..).canonical h

theorem canonical_halt (h : Canonical s) (c k i) : Canonical (s.halt c k i) := (State.StopKept.halt ..).canonical h

theorem canonical_takeTrap (h : Canonical s) (c k i span cont) : Canonical (s.takeTrap c k i span cont) := by
  grind [State.takeTrap, canonical_halt, canonical_endTrap, ! . canonical_appendRec]

theorem canonical_parkRecs (h : Canonical s) (c k region tid l) : Canonical (s.parkRecs c k region tid l) := (State.StopKept.parkRecs ..).canonical h

theorem canonical_trapParked (h : Canonical s) (c k) : Canonical (s.trapParked c k) := by
  grind [State.trapParked, canonical_setThread, canonical_parkRecs, canonical_takeTrap]

theorem canonical_stopThread (h : Canonical s) (c k detail) : Canonical (s.stopThread c k detail) := (State.StopKept.stopThread ..).canonical h

theorem outCanonical_trapAt (h : Canonical s) (cause detail faddr) : OutCanonical (trapAt s cause detail faddr) := by
  grind [trapAt, OutCanonical, canonical_unissue, canonical_takeTrap]

theorem outCanonical_trapAcc (h : Canonical s) (cause acck level span faddr) : OutCanonical (trapAcc s cause acck level span faddr) := by
  grind [trapAcc, OutCanonical, canonical_unissue, canonical_takeTrap]

theorem canonical_discardCopy (h : Canonical s) (p c sec) : Canonical (s.discardCopy p c sec) := (State.HomeKept.discardCopy ..).canonical h

theorem canonical_corr (h : Canonical s) (p kind) : Canonical (s.corr p kind) := (State.HomeKept.corr ..).canonical h

theorem canonical_fetchLine (h : Canonical s) (c k region pc) : Canonical (s.fetchLine c k region pc).2 := (State.FetchKept.fetchLine ..).canonical h

theorem canonical_checkTarget (h : Canonical s) (c k region pc) : Canonical (s.checkTarget c k region pc).2 :=
  (State.FetchKept.checkTarget ..).canonical h

theorem canonical_wordAt (h : Canonical s) (c k region pc) : Canonical (s.wordAt c k region pc).2 := by
  grind [State.wordAt, ! . canonical_fetchLine]

theorem outCanonical_transferLink (h : Canonical s) (pc link done) : OutCanonical (transferLink s pc link done) := by
  grind [transferLink, OutCanonical, ! . outCanonical_wait, ! . canonical_checkTarget, outCanonical_withT, canonical_modCur, canonical_unissue,
    canonical_takeTrap]

theorem outCanonical_transferTo (h : Canonical s) (pc done) : OutCanonical (transferTo s pc done) := outCanonical_transferLink h ..

theorem canonical_replayBits (h : Canonical s) (c t x) : Canonical (s.replayBits c t x).2 := by
  grind [State.replayBits, ! . canonical_devRead]

theorem canonical_readRep (h : Canonical s) (c t) : Canonical (s.readRep c t).2 := by
  grind [State.readRep, ! . canonical_homeReadBytes]

theorem canonical_resumeTrap (h : Canonical s) (c k t cause sub) : Canonical (s.resumeTrap c k t cause sub) := by
  grind [State.resumeTrap, canonical_setThread, canonical_takeTrap]

theorem canonical_replayOps (h : Canonical s) (c t x) : Canonical (s.replayOps c t x).2 := canonical_replayBits h ..

theorem canonical_resume (h : Canonical s) (c k) : Canonical (s.resume c k) := by
  unfold State.resume
  (repeat' split) <;>
    grind [! . canonical_checkTarget, canonical_resumeTrap, ! . canonical_readRep, canonical_push, ! . canonical_replayOps, canonical_setThread,
    canonical_takeTrap]

/-! ### Scratchpads and packets -/

theorem canonical_setChan (h : Canonical s) (c n x) : Canonical (s.setChan c n x) := by
  grind [State.setChan, canonical_modCore, canonical_core]

theorem canonical_refusedRec (h : Canonical s) (c t pc x) : Canonical (s.refusedRec c t pc x) := canonical_appendRec h ..

theorem canonical_copyDoneAt (h : Canonical s) (c k id) : Canonical (s.copyDoneAt c k id) := by
  grind [State.copyDoneAt, canonical_finishOp, canonical_refusedRec]

theorem canonical_copyDone (h : Canonical s) (r) : Canonical (s.copyDone r) := by
  grind [State.copyDone, canonical_copyDoneAt, canonical_withOp]

theorem canonical_answer (h : Canonical s) (r n bytes ok) : Canonical (s.answer r n bytes ok) := by
  grind [State.answer, canonical_modThread, canonical_withOp, canonical_push]

theorem canonical_packet (h : Canonical s) (x) : Canonical (s.packet x) := by
  grind [State.packet, canonical_iff, canonical_answer, canonical_setChan, canonical_push, canonical_spWrite]

/-! ### Errors -/

theorem canonical_virtReport (h : Canonical s) (p e) : Canonical (s.virtReport p e) := (State.HomeKept.virtReport ..).canonical h

theorem canonical_lateErrs (h : Canonical s) (p) : Canonical (s.lateErrs p) := by
  grind [State.lateErrs, canonical_virtReport, canonical_modPart, canonical_foldl]

theorem canonical_physReport (h : Canonical s) (p e) : Canonical (s.physReport p e) := (State.HomeKept.physReport ..).canonical h

theorem canonical_report (h : Canonical s) (p e) : Canonical (s.report p e) := (State.HomeKept.report ..).canonical h

theorem canonical_consumed (h : Canonical s) (c t b va) : Canonical (s.consumed c t b va) := canonical_report h ..

theorem canonical_confined (h : Canonical s) (c pa) : Canonical (s.confined c pa) := (State.HomeKept.confined ..).canonical h

end Sys2Proof.Machine
end

/-! ## Proofs/O53: The canonical form on the memory paths -/

section
namespace Sys2Proof.Machine

open Sys2Proof.Claims

variable {s : State}

/-! ### Scalar instructions -/

theorem outCanonical_setG (h : Canonical s) (g d r) : OutCanonical (setG g d s r) := by
  grind [setG, OutCanonical, outCanonical_guarded, canonical_setCur]

theorem outCanonical_setP (h : Canonical s) (g d r) : OutCanonical (setP g d s r) := by
  grind [setP, OutCanonical, outCanonical_guarded, canonical_setCur]

theorem outCanonical_aluA (h : Canonical s) (f x) : OutCanonical (aluA f x s) := outCanonical_setG h ..

theorem outCanonical_aluI (h : Canonical s) (f x) : OutCanonical (aluI f x s) := outCanonical_setG h ..

theorem outCanonical_aluSh (h : Canonical s) (f x) : OutCanonical (aluSh f x s) := outCanonical_setG h ..

theorem outCanonical_aluU (h : Canonical s) (f x) : OutCanonical (aluU f x s) := outCanonical_setG h ..

theorem outCanonical_setF (h : Canonical s) (g d r) : OutCanonical (setF g d s r) := by
  grind [setF, OutCanonical, outCanonical_guarded, canonical_setCur]

theorem outCanonical_fpR (h : Canonical s) (op x) : OutCanonical (fpR op x s) := outCanonical_setF h ..

theorem outCanonical_fpMinMax (h : Canonical s) (big x) : OutCanonical (fpMinMax big x s) := outCanonical_setF h ..

theorem outCanonical_badFormat (h : Canonical s) : OutCanonical (badFormat s) := outCanonical_trapAt h ..

theorem outCanonical_execFclass (h : Canonical s) (x) : OutCanonical (execFclass x s) := by
  grind [execFclass, OutCanonical, outCanonical_guarded, canonical_setCur, ! . outCanonical_badFormat]

theorem outCanonical_execFcvt (h : Canonical s) (x) : OutCanonical (execFcvt x s) := by
  grind [execFcvt, OutCanonical, outCanonical_guarded, canonical_setCur, ! . outCanonical_badFormat]

/-! ### The memory paths -/

theorem canonical_gotBind {x : Got α} (h : Canonical x.state) (f : α → State → Got β) (hf : ∀ a s, Canonical s → Canonical (f a s).state) :
    Canonical (x.bind f).state := by
  cases x with
  | ok a s => exact hf a s h
  | busy s => exact h
  | poison b s => exact h

theorem canonical_gotAll (h : Canonical s) (f : β → State → Got α) (l : List β) (hf : ∀ b s, Canonical s → Canonical (f b s).state) :
    Canonical (gotAll f l s).state := by
  induction l generalizing s with
  | nil => exact h
  | cons b l ih => exact canonical_gotBind (hf b s h) _ fun _ _ h => canonical_gotBind (ih h) _ fun _ _ h => h

theorem canonical_hostGet (h : Canonical s) (p sec own) : Canonical (s.hostGet p sec own) := by
  grind [State.hostGet, canonical_modPart]

theorem canonical_awaitAck (h : Canonical s) (c sec r) : Canonical (s.awaitAck c sec r) := by
  grind [State.awaitAck, canonical_modCore, canonical_core]

theorem canonical_unlessBad (h : Canonical s) (kind : Option Nat) (sec : Nat) (x : Got α) (hx : Canonical x.state) :
    Canonical (Got.unlessBad kind sec s x).state := by
  cases kind with
  | none => exact hx
  | some k => exact h

theorem canonical_markNt (h : Canonical s) (w sec) : Canonical (s.markNt w sec) := by
  grind [State.markNt, canonical_setL1]

theorem canonical_askHome (h : Canonical s) (w sec st ex lad) : Canonical (s.askHome w sec st ex lad) := by
  grind [State.askHome, canonical_setL1, canonical_push]

theorem canonical_l1Read (h : Canonical s) (w sec ex) : Canonical (s.l1Read w sec ex).state := by
  grind [State.l1Read, Got.state, canonical_askHome, canonical_markNt, canonical_grantRead, canonical_grantWrite, canonical_setL1,
    canonical_ladWait, canonical_hostGet, canonical_unlessBad]

theorem canonical_l1Put (h : Canonical s) (w sec data mask) : Canonical (s.l1Put w sec data mask) := by
  grind [State.l1Put, canonical_setPoison, canonical_homeWrite, canonical_awaitAck, canonical_beforeWrite, canonical_setL1, canonical_linkWrite,
    canonical_push]

theorem canonical_l1Own (h : Canonical s) (w sec) : Canonical (s.l1Own w sec).state := by
  grind [State.l1Own, Got.state, canonical_askHome, canonical_markNt, canonical_grantWrite, canonical_setL1, canonical_ladWait, canonical_hostGet]

theorem canonical_pathSec (h : Canonical s) (w sec) : Canonical (s.pathSec w sec).state := by
  grind [State.pathSec, Got.state, canonical_homeRead, canonical_ladWait, canonical_hostGet, canonical_unlessBad]

theorem canonical_pathPut (h : Canonical s) (w sec data mask key) : Canonical (s.pathPut w sec data mask key).state := by
  grind [State.pathPut, Got.state, canonical_homeWrite, canonical_setL1, canonical_ladWait, canonical_hostGet]

theorem canonical_memGet (h : Canonical s) (a n) : Canonical (s.memGet a n).state := by
  grind [State.memGet, Got.state]

theorem canonical_readSeg (h : Canonical s) (w via x) : Canonical (State.readSeg w via x s).state := by
  grind [State.readSeg, Got.state, canonical_gotAll, ! . canonical_memGet, ! . canonical_pathSec, canonical_gotBind, ! . canonical_l1Read]

theorem canonical_readSegs (h : Canonical s) (w via l) : Canonical (State.readSegs w via l s).state := by
  grind [State.readSegs, Got.state, ! . canonical_readSeg, canonical_gotAll, canonical_gotBind]

theorem canonical_ownSeg (h : Canonical s) (w x) : Canonical (State.ownSeg w x s).state := by
  grind [State.ownSeg, Got.state, canonical_gotAll, ! . canonical_l1Own, canonical_gotBind]

theorem canonical_putSeg (h : Canonical s) (w x bs) : Canonical (State.putSeg w x bs s) := by
  grind [State.putSeg, canonical_memPut, canonical_l1Put, canonical_spWrite, canonical_foldl]

theorem canonical_storeSegs (h : Canonical s) (w l bs) : Canonical (State.storeSegs w l bs s).state := by
  grind [State.storeSegs, Got.state, canonical_gotAll, canonical_putSeg, ! . canonical_ownSeg, canonical_gotBind, canonical_foldl]

theorem canonical_pathSeg (h : Canonical s) (w x bs key) : Canonical (State.pathSeg w x bs key s).state := by
  grind [State.pathSeg, Got.state, canonical_memPut, canonical_gotAll, ! . canonical_pathPut, canonical_gotBind, canonical_spWrite]

theorem canonical_pathSegs (h : Canonical s) (w l bs key) : Canonical (State.pathSegs w l bs key s).state := by
  grind [State.pathSegs, Got.state, canonical_gotAll, canonical_gotBind, ! . canonical_pathSeg]

theorem canonical_consWrite (h : Canonical s) (c k t l bs parts scope) : Canonical (s.consWrite c k t l bs parts scope) := by
  grind [State.consWrite, canonical_modThread, canonical_push]

theorem canonical_consAct (h : Canonical s) (c k t d off act n scope) : Canonical (s.consAct c k t d off act n scope) := by
  grind [State.consAct, canonical_modThread, canonical_push]

theorem optCanonical_enterReader (h : Canonical s) (w key pl) : OptCanonical (s.enterReader w key pl) := by
  unfold State.enterReader
  (repeat' split) <;> grind [OptCanonical, canonical_modEntry, canonical_modCore, canonical_recall, canonical_modPart, canonical_core]

theorem canonical_markRead (h : Canonical s) (w pl) : Canonical (s.markRead w pl) := by
  unfold State.markRead
  (repeat' split) <;> grind [canonical_setL1]

theorem optCanonical_enterReaders (h : Canonical s) (w key l) : OptCanonical (s.enterReaders w key l) := by
  induction l generalizing s with
  | nil => exact h
  | cons p l ih =>
    unfold State.enterReaders
    exact .bind fun s1 hs => ih ((optCanonical_enterReader h w key p).of_eq hs)

theorem canonical_readBound (h : Canonical s) (w via l) : Canonical (State.readBound w via l s).state := by
  grind [State.readBound, Got.state, canonical_modThread, ! . canonical_readSegs, canonical_gotBind]

theorem canonical_readFor (h : Canonical s) (w t via l) : Canonical (State.readFor w t via l s).state := by
  grind [State.readFor, OptCanonical, Got.state, canonical_markRead, ! . canonical_readBound, ! . optCanonical_enterReaders, canonical_gotBind,
    canonical_foldl]

/-! ### Watches and ladings -/

theorem canonical_homeBytes (h : Canonical s) (p sec data dirty bad) : Canonical (s.homeBytes p sec data dirty bad) :=
  (State.HomeKept.homeBytes ..).canonical h

theorem canonical_evict (h : Canonical s) (p c sec keepData msgs) : Canonical (s.evict p c sec keepData msgs) := (State.HomeKept.evict ..).canonical h

theorem canonical_giveUp (h : Canonical s) (c sec) : Canonical (s.giveUp c sec) := canonical_evict h ..

theorem canonical_dropL1 (h : Canonical s) (c) : Canonical (s.dropL1 c) := (State.HomeKept.dropL1 ..).canonical h

theorem canonical_flushSec (h : Canonical s) (w sec) : Canonical (s.flushSec w sec) := by
  grind [State.flushSec, canonical_evict, canonical_setL1, canonical_homeBytes]

theorem canonical_flushLine (h : Canonical s) (w pa) : Canonical (s.flushLine w pa) := by
  grind [State.flushLine, canonical_flushSec, canonical_foldl]

theorem canonical_cleanHome (h : Canonical s) (p pa) : Canonical (s.cleanHome p pa) := by
  grind [State.cleanHome, canonical_modEntry, canonical_push]

theorem canonical_invalLine (h : Canonical s) (w pa) : Canonical (s.invalLine w pa) := by
  grind [State.invalLine, canonical_evict, canonical_foldl]

theorem optCanonical_addWatcher (h : Canonical s) (p line x) : OptCanonical (s.addWatcher p line x) := by
  grind [State.addWatcher, OptCanonical, canonical_modEntry]

theorem canonical_cutWatcher (h : Canonical s) (p line kind target mask) : Canonical (s.cutWatcher p line kind target mask).2 :=
  canonical_modEntry h ..

theorem canonical_armDown (h : Canonical s) (p line mask) : Canonical (s.armDown p line mask) := by
  grind [State.armDown, canonical_recall, canonical_hostGet, canonical_foldl]

theorem canonical_watchLine (h : Canonical s) (w pa ctl) : Canonical (s.watchLine w pa ctl).2 := by
  grind [State.watchLine, OptCanonical, canonical_armDown, canonical_modThread, ! . optCanonical_addWatcher]

theorem canonical_unwatchLine (h : Canonical s) (w pa ctl) : Canonical (s.unwatchLine w pa ctl).2 := by
  grind [State.unwatchLine, ! . canonical_cutWatcher, canonical_modThread]

theorem canonical_watchqLine (h : Canonical s) (w pa ctl) : Canonical (s.watchqLine w pa ctl).2 := by
  grind [State.watchqLine, OptCanonical, canonical_armDown, ! . optCanonical_addWatcher]

theorem canonical_clearRegion (h : Canonical s) (p base log2) : Canonical (s.clearRegion p base log2) := (State.HomeKept.clearRegion ..).canonical h

theorem canonical_grant (h : Canonical s) (p idx base log2 lease w waiters) : Canonical (s.grant p idx base log2 lease w waiters).2 := by
  grind [State.grant, canonical_modPart, canonical_clearRegion]

theorem canonical_acquire (h : Canonical s) (w ea pa room ctl ref) : Canonical (s.acquire w ea pa room ctl ref).2 := by
  grind [State.acquire, ! . canonical_grant, canonical_modLading]

theorem canonical_release (h : Canonical s) (p idx) : Canonical (s.release p idx) := (State.StopKept.release ..).canonical h

theorem canonical_relr (h : Canonical s) (w pa) : Canonical (s.relr w pa).2 := by
  grind [State.relr, canonical_release]

theorem canonical_ladGrant (h : Canonical s) (p i) : Canonical (s.ladGrant p i) := by
  unfold State.ladGrant
  (repeat' split) <;>
    grind [canonical_modThread, ! . canonical_grant, canonical_modLading, canonical_later1, canonical_finishOp, canonical_push, canonical_modPart]

theorem outCanonical_execLadingRevocation (h : Canonical s) (x) : OutCanonical (execLadingRevocation x s) := by
  grind [execLadingRevocation, OutCanonical, canonical_modLading, canonical_later1, canonical_push]

theorem canonical_discard (h : Canonical s) (p idx mark) : Canonical (s.discard p idx mark) := (State.StopKept.discard ..).canonical h

theorem canonical_endGrants (h : Canonical s) (c k kill) : Canonical (s.endGrants c k kill) := (State.StopKept.endGrants ..).canonical h

theorem canonical_suspectTime (h : Canonical s) (c) : Canonical (s.suspectTime c) := by
  grind [State.suspectTime, canonical_modCore, canonical_modLading, canonical_core, canonical_foldl]

theorem outCanonical_execBeacon (h : Canonical s) (x) : OutCanonical (execBeacon x s) := by
  grind [execBeacon, OutCanonical, canonical_modCore, canonical_suspectTime, canonical_core]

/-! ### Loads, stores and atomics -/

theorem canonical_gotPerf {x : Got α} (h : Canonical x.state) (f : α → State → State) (hf : ∀ a s, Canonical s → Canonical (f a s)) :
    Canonical (x.perf f).state := by
  cases x with
  | ok a s => exact hf a s h
  | busy s => exact h
  | poison b s => exact h

theorem canonical_rmw (h : Canonical s) (w home l f) : Canonical (State.rmw w home l f s).state := by
  grind [State.rmw, Got.state, ! . canonical_readSegs, ! . canonical_pathSegs, canonical_gotAll, ! . canonical_ownSeg, ! . canonical_storeSegs,
    canonical_gotBind]

theorem canonical_performAcc (h : Canonical s) (w t scope a room ref) : Canonical (State.performAcc w t scope a room ref s).state := by
  grind [State.performAcc, Perf.state, ! . canonical_acquire, canonical_flushLine, ! . canonical_unwatchLine, ! . canonical_watchLine,
    canonical_modThread, canonical_modCore, canonical_invalLine, canonical_cleanHome, ! . canonical_rmw, canonical_gotPerf, ! . canonical_readFor,
    ! . canonical_storeSegs, ! . canonical_watchqLine, ! . canonical_relr, canonical_core]

theorem canonical_addDesc (h : Canonical s) (c k o) : Canonical (s.addDesc c k o) := by
  grind [State.addDesc, canonical_modThread, ! . canonical_devRead, ! . canonical_devWrite]

theorem canonical_park (h : Canonical s) (c k o p detail span acck pipe aux cont bad) :
    Canonical (s.park c k o p detail span acck pipe aux cont bad) := by
  unfold State.park
  grind [canonical_optionElim, ! . canonical_wordAt, canonical_consumed, canonical_parkRecs, canonical_addDesc, canonical_trapParked,
    canonical_modThread, canonical_setThread]

theorem canonical_bindBad (h : Canonical s) (c k t o b va acck pipe) : Canonical (s.bindBad c k t o b va acck pipe) := by
  grind [State.bindBad, canonical_push, canonical_park]

theorem canonical_copyBad (h : Canonical s) (c k t o x b) : Canonical (s.copyBad c k t o x b) := by
  grind [State.copyBad, canonical_consumed, canonical_finishOp, canonical_push, ! . canonical_appendRec]

theorem canonical_accTranslate (h : Canonical s) (c t va n k) : Canonical (s.accTranslate c t va n k).2 := by
  grind [State.accTranslate, ! . canonical_translateRun]

theorem canonical_enterOp (h : Canonical s) (o) : Canonical (s.enterOp o) := canonical_modCur h ..

theorem canonical_defer (h : Canonical s) (r) : Canonical (s.defer r) := by
  grind [State.defer, canonical_iff]

theorem outCanonical_overflowWait (h : Canonical s) (x) : OutCanonical (overflowWait s x) := by
  grind [overflowWait, OutCanonical, ! . outCanonical_wait, canonical_modCur, canonical_unissue, canonical_push]

theorem outCanonical_staleTrap (h : Canonical s) (t g acck ea) : OutCanonical (staleTrap s t g acck ea) := by
  grind [staleTrap, OutCanonical, canonical_unissue, canonical_takeTrap, canonical_setCur]

theorem outCanonical_perfIssue {r : Perf} (h : Canonical r.state) (o : Op) (ref : OpRef) : OutCanonical (r.issue o ref) := by
  unfold Perf.issue
  cases r with
  | done s =>
    refine .next ?_
    split
    · exact canonical_enterOp h _
    · exact h
  | busy s => exact canonical_defer (canonical_enterOp h _) _
  | poison b s =>
    dsimp only
    split
    · refine .next (canonical_bindBad ?_ ..)
      split
      · exact canonical_unissue h
      · exact h
    · exact .next h
  | waits i k g s =>
    dsimp only
    split
    · exact .next (canonical_enterOp h _)
    · exact .next h

theorem canonical_performCons (h : Canonical s) (w t scope a) : Canonical (State.performCons w t scope a s).state := by
  grind [State.performCons, Perf.state, canonical_modThread, canonical_consAct, canonical_gotPerf, ! . canonical_readFor, canonical_consWrite]

theorem canonical_countCur (h : Canonical s) (str floor) : Canonical (s.countCur str floor) := canonical_modCur h ..

theorem outCanonical_issueSegs (h : Canonical s) (t str floor a room) : OutCanonical (issueSegs s t str floor a room) := by
  grind [issueSegs, OutCanonical, outCanonical_perfIssue, ! . outCanonical_wait, canonical_enterOp, ! . canonical_performCons,
    ! . outCanonical_staleTrap, ! . outCanonical_overflowWait, canonical_countCur, ! . canonical_performAcc]

theorem outCanonical_issueRemote (h : Canonical s) (t str a dst act) : OutCanonical (issueRemote s t str a dst act) := by
  grind [issueRemote, OutCanonical, canonical_enterOp, canonical_countCur, canonical_push]

theorem outCanonical_issueAcc (h : Canonical s) (t str a) : OutCanonical (issueAcc s t str a) := by
  grind [issueAcc, OutCanonical, ! . outCanonical_issueSegs, ! . outCanonical_wait, ! . outCanonical_trapAcc, canonical_enterOp,
    ! . outCanonical_issueRemote, ! . canonical_accTranslate, canonical_countCur, canonical_push, canonical_setCur, canonical_park]

theorem canonical_overflowOf (h : Canonical s) (c k) : Canonical (s.overflowOf c k) := by
  grind [State.overflowOf, canonical_modThread, canonical_push]

theorem canonical_enterPath (h : Canonical s) (c k id) : Canonical (s.enterPath c k id) := by
  grind [State.enterPath, canonical_push, canonical_setThread]

theorem canonical_tryAcc (h : Canonical s) (c k t o a) : Canonical (s.tryAcc c k t o a) := by
  unfold State.tryAcc
  extract_lets ref go
  have hgo (a : MemAcc) (room : Nat) {s : State} (h : Canonical s) : Canonical (go a room s) := by
    unfold go
    extract_lets behind x full
    split
    · exact canonical_modThread h ..
    · split
      · exact canonical_park h ..
      · split
        · exact canonical_defer h ..
        · split
          · exact canonical_park (canonical_modThread h ..) ..
          · generalize hr : (if x.any fun x => !x.takes then Perf.busy s else _) = r
            have hp : Canonical r.state := by
              subst hr
              (repeat' split)
              · exact h
              · exact canonical_overflowOf h ..
              · exact canonical_performCons h ..
              · exact canonical_performAcc h ..
            clear hr
            cases r with
            | done s => exact canonical_finishOp hp ..
            | busy s => exact canonical_defer (canonical_enterPath hp ..) ..
            | poison b s => exact canonical_bindBad hp ..
            | waits i g l s => exact canonical_modThread hp ..
  clear_value go
  split
  · have ht := canonical_accTranslate h c t a.ea a.n a.act.tr
    split <;> rename_i heq <;> replace ht := heq ▸ ht
    · exact hgo _ _ (canonical_modThread ht ..)
    · split
      · exact canonical_defer ht ..
      · exact canonical_push (canonical_modThread ht ..) _
    · exact canonical_park ht ..
  · exact hgo _ _ h

theorem canonical_walkOnAt (h : Canonical s) (r) : Canonical (s.walkOnAt r) := by
  unfold State.walkOnAt
  (repeat' split) <;> grind [canonical_iff, canonical_markTu, canonical_trapParked, canonical_fillTlb, canonical_modThread, canonical_setAd,
    canonical_homeRead, canonical_ladWait, canonical_park, canonical_optionElim, canonical_push, canonical_setThread]

theorem canonical_walkOn (h : Canonical s) (r) : Canonical (s.walkOn r) := by
  grind [State.walkOn, canonical_walkOnAt, canonical_withOp]

theorem canonical_poisonedOp (h : Canonical s) (c k id b) : Canonical (s.poisonedOp c k id b) := by
  grind [State.poisonedOp, canonical_copyBad, canonical_bindBad]

theorem outCanonical_execRemoteStoreArrival (h : Canonical s) (x) : OutCanonical (execRemoteStoreArrival x s) := by
  grind [execRemoteStoreArrival, OutCanonical, canonical_iff, canonical_finishOp, canonical_poisonedOp, ! . canonical_appendRec, canonical_spWrite]

theorem outCanonical_accM (h : Canonical s) (g str am a c off n size ex nt act) : OutCanonical (accM g str am a c off n size ex nt act s) := by
  grind [accM, outCanonical_guarded, ! . outCanonical_issueAcc]

theorem canonical_prefetch (h : Canonical s) (w pa ex) : Canonical (s.prefetch w pa ex) := by
  grind [State.prefetch, canonical_askHome, canonical_markNt, canonical_grantRead, canonical_grantWrite, canonical_setL1, canonical_foldl]

theorem outCanonical_execPfetch (h : Canonical s) (x) : OutCanonical (execPfetch x s) := by
  grind [execPfetch, OutCanonical, ! . canonical_translateR, outCanonical_guarded, canonical_prefetch]

theorem outCanonical_execScnt (h : Canonical s) (x) : OutCanonical (execScnt x s) := by
  grind [execScnt, OutCanonical, ! . outCanonical_wait, outCanonical_guarded, canonical_setCur]

theorem outCanonical_amoM (h : Canonical s) (f x) : OutCanonical (amoM f x s) := outCanonical_accM h ..

theorem outCanonical_amofM (h : Canonical s) (f x) : OutCanonical (amofM f x s) := outCanonical_accM h ..

/-! ### Copies and channels -/

theorem canonical_applyElems (h : Canonical s) (c op ty m o l) : Canonical (s.applyElems c op ty m o l) := by
  induction l generalizing s o with
  | nil => exact h
  | cons v l ih => exact ih (canonical_spWrite h ..) _

theorem canonical_releaseHold (h : Canonical s) (c n) : Canonical (s.releaseHold c n) := by
  grind [State.releaseHold, canonical_modCore, canonical_push, canonical_core]

theorem canonical_update (h : Canonical s) (x) : Canonical (s.update x) := by
  grind [State.update, canonical_iff, canonical_answer, canonical_setChan, canonical_modCore, canonical_applyElems, canonical_releaseHold,
    canonical_core]

theorem canonical_copySrc (h : Canonical s) (c t x till) : Canonical (s.copySrc c t x till).2 := by
  grind [State.copySrc, ! . canonical_translateRun]

theorem canonical_setCopy (h : Canonical s) (c k id x) : Canonical (s.setCopy c k id x) := canonical_modThread h ..

theorem canonical_holdCopy (h : Canonical s) (c k o x y) : Canonical (s.holdCopy c k o x y) := by
  grind [State.holdCopy, canonical_modThread, canonical_overflowOf, canonical_defer, canonical_finishOp]

theorem canonical_tryCopy (h : Canonical s) (c k t o x) : Canonical (s.tryCopy c k t o x) := by
  unfold State.tryCopy
  (repeat' split) <;> grind [Got.state, canonical_copyBad, ! . canonical_copySrc, canonical_defer, canonical_holdCopy, ! . canonical_readFor,
    canonical_setCopy, canonical_push, canonical_park]

theorem outCanonical_holdMsg (h : Canonical s) (count : State → State) (x : Consign) (y : HeldMsg) (hc : Canonical (count s)) :
    OutCanonical (holdMsg s count x y) := .ite (outCanonical_wait h) (.ite (outCanonical_overflowWait h _) (.next (canonical_modCur hc _)))

theorem outCanonical_issueCopy (h : Canonical s) (g str am a b c chan arith seq) : OutCanonical (issueCopy g str am a b c chan arith seq s) := by
  refine outCanonical_guarded h _ _ fun t => ?_
  extract_lets core ga len gc doff size mode loc shrinks deps
  split
  · exact outCanonical_trapAt h ..
  next d _ =>
    refine .ite (outCanonical_trapAt h ..) ?_
    extract_lets x0 x floor count o start
    clear_value loc shrinks
    split
    · exact outCanonical_trapAcc h ..
    · refine .ite (outCanonical_wait h) ?_
      have hcount {s : State} (h : Canonical s) : Canonical (count s) := canonical_modCur h _
      have hstart {s : State} (h : Canonical s) : OutCanonical (start s) := by
        unfold start
        split
        · exact outCanonical_holdMsg h _ _ _ (hcount h)
        · extract_lets s1
          have h1 : Canonical s1 := canonical_enterOp (hcount h) _
          (repeat' split)
          · exact h1
          · exact canonical_tryCopy h1 ..
          · exact h1
      clear_value start count
      refine .ite (hstart h) ?_
      have ht := canonical_translateR h core t.region ga .pathR
      split <;> rename_i heq <;> replace ht := heq ▸ ht
      · exact hstart ht
      · exact .ite (.next (canonical_park (hcount ht) ..)) (outCanonical_trapAcc ht ..)

theorem canonical_chopen (h : Canonical s) (c region n arith base len) : Canonical (s.chopen c region n arith base len).2 := by
  grind [State.chopen, canonical_setChan]

theorem canonical_dropHold (h : Canonical s) (c n) : Canonical (s.dropHold c n) := by
  grind [State.dropHold, canonical_answer, canonical_modCore, canonical_core, canonical_foldl]

theorem canonical_chclose (h : Canonical s) (c n) : Canonical (s.chclose c n).2 := by
  grind [State.chclose, canonical_dropHold, canonical_setChan]

theorem canonical_chwm (h : Canonical s) (c n setwm setseq wm seq ro) : Canonical (s.chwm c n setwm setseq wm seq ro).2 := by
  grind [State.chwm, canonical_setChan, canonical_push, canonical_releaseHold]

theorem canonical_doChan (h : Canonical s) (c region n a) : Canonical (s.doChan c region n a).2 := by
  unfold State.doChan
  (repeat' split) <;> grind [! . canonical_chclose, ! . canonical_chopen, ! . canonical_chwm]

theorem canonical_chanAct (h : Canonical s) (c t n act) : Canonical (s.chanAct c t n act).2 := by
  unfold State.chanAct
  (repeat' split) <;> grind [! . canonical_doChan]

theorem canonical_tryChan (h : Canonical s) (c k t o d n act) : Canonical (s.tryChan c k t o d n act) := by
  grind [State.tryChan, canonical_modThread, ! . canonical_chanAct, canonical_finishOp]

theorem outCanonical_issueChan (h : Canonical s) (g str d n act) : OutCanonical (issueChan g str d n act s) := by
  grind [issueChan, OutCanonical, ! . outCanonical_wait, canonical_enterOp, ! . canonical_chanAct, canonical_modCur, outCanonical_guarded,
    canonical_setCur]

theorem canonical_resplit (h : Canonical s) (c code) : Canonical (s.resplit c code).2 := by
  unfold State.resplit
  dsimp only
  (repeat' split) <;> grind [canonical_modCore, Memory.wf_filter, canonical_foldl, canonical_evict, canonical_core]

theorem outCanonical_execLmcfg (h : Canonical s) (x) : OutCanonical (execLmcfg x s) := by
  grind [execLmcfg, OutCanonical, ! . outCanonical_wait, canonical_modCore, canonical_dropShrink, canonical_modCur, outCanonical_guarded,
    ! . canonical_resplit, canonical_setCur, canonical_core]

end Sys2Proof.Machine
end

/-! ## Proofs/O53: The canonical form in the vector, tensor and matrix units -/

section
namespace Sys2Proof.Machine

open Sys2Proof.Claims

variable {s : State}

/-! ### Vector instructions -/

theorem outCanonical_setV (h : Canonical s) (g d r) : OutCanonical (setV g d s r) := by
  grind [setV, OutCanonical, outCanonical_guarded, canonical_setCur]

theorem outCanonical_vAddSub (h : Canonical s) (op x) : OutCanonical (vAddSub op x s) := outCanonical_setV h ..

theorem outCanonical_vFma (h : Canonical s) (op x) : OutCanonical (vFma op x s) := outCanonical_setV h ..

theorem outCanonical_vNegAbs (h : Canonical s) (op x) : OutCanonical (vNegAbs op x s) := outCanonical_setV h ..

theorem outCanonical_vMinMax (h : Canonical s) (op x) : OutCanonical (vMinMax op x s) := outCanonical_setV h ..

theorem outCanonical_vLog (h : Canonical s) (f x) : OutCanonical (vLog f x s) := outCanonical_setV h ..

theorem outCanonical_vShift (h : Canonical s) (f x) : OutCanonical (vShift f x s) := outCanonical_setV h ..

theorem outCanonical_badLane (h : Canonical s) : OutCanonical (badLane s) := outCanonical_trapAt h ..

theorem outCanonical_execVcvt (h : Canonical s) (x) : OutCanonical (execVcvt x s) := by
  grind [execVcvt, OutCanonical, ! . outCanonical_badLane, outCanonical_guarded, canonical_setCur, ! . outCanonical_badFormat]

theorem outCanonical_vFun (h : Canonical s) (fn g ty rm d a) : OutCanonical (vFun fn g ty rm d a s) := outCanonical_setV h ..

theorem outCanonical_withLane (h : Canonical s) (g : Guard) (ty : ElemType) (f : Thread → Nat → Out) (hf : ∀ t n, OutCanonical (f t n)) :
    OutCanonical (withLane g ty s f) := by
  refine outCanonical_guarded h _ _ fun t => ?_
  split
  · exact hf _ _
  · exact outCanonical_badFormat h

theorem outCanonical_execVperm (h : Canonical s) (x) : OutCanonical (execVperm x s) := by
  grind [execVperm, OutCanonical, ! . outCanonical_badLane, outCanonical_withLane, canonical_setCur]

theorem outCanonical_execVbcast (h : Canonical s) (x) : OutCanonical (execVbcast x s) := by
  grind [execVbcast, OutCanonical, ! . outCanonical_badLane, outCanonical_withLane, canonical_setCur]

theorem outCanonical_execVins (h : Canonical s) (x) : OutCanonical (execVins x s) := by
  grind [execVins, OutCanonical, ! . outCanonical_badLane, outCanonical_withLane, canonical_setCur]

theorem outCanonical_execVext (h : Canonical s) (x) : OutCanonical (execVext x s) := by
  grind [execVext, OutCanonical, ! . outCanonical_badLane, outCanonical_withLane, canonical_setCur]

theorem outCanonical_execVsplat (h : Canonical s) (x) : OutCanonical (execVsplat x s) := by
  grind [execVsplat, OutCanonical, outCanonical_withLane, canonical_setCur]

/-! ### Tensor instructions -/

theorem outCanonical_manifTrap (h : Canonical s) (sub) : OutCanonical (manifTrap s sub) := by
  grind [manifTrap, ! . outCanonical_trapAt, ! . outCanonical_badFormat]

theorem canonical_tresBind {x : TRes α} (h : Canonical x.state) (f : α → State → TRes β) (hf : ∀ a s, Canonical s → Canonical (f a s).state) :
    Canonical (x.bind f).state := by
  cases x with
  | ok a s => exact hf a s h
  | busy s => exact h
  | fault e s => exact h
  | poison b va s => exact h
  | full s => exact h

theorem canonical_gotElem {x : Got α} (h : Canonical x.state) (va : Word) : Canonical (x.elem va).state := by
  cases x with
  | ok a s => exact h
  | busy s => exact h
  | poison b s => exact h

theorem canonical_spaceSegs (h : Canonical s) (c t sp chan a n k) : Canonical (s.spaceSegs c t sp chan a n k).state := by
  grind [State.spaceSegs, TRes.state, ! . canonical_translateRun]

theorem canonical_spaceRead (h : Canonical s) (c k t b sp chan a n) : Canonical (s.spaceRead c k t b sp chan a n).state := by
  grind [State.spaceRead, ! . canonical_spaceSegs, canonical_tresBind, ! . canonical_readFor, canonical_gotElem]

theorem canonical_spaceWrite (h : Canonical s) (c k t b sp chan a bit cont n code scope) :
    Canonical (s.spaceWrite c k t b sp chan a bit cont n code scope).state := by
  grind [State.spaceWrite, TRes.state, ! . canonical_spaceSegs, ! . canonical_pathSegs, canonical_tresBind, ! . canonical_rmw,
    ! . canonical_storeSegs, canonical_gotElem, canonical_consWrite]

theorem canonical_getElem (h : Canonical s) (c k t b fmt m i) : Canonical (s.getElem c k t b fmt m i).state := by
  grind [State.getElem, TRes.state, ! . canonical_spaceRead, canonical_tresBind]

theorem canonical_putElem (h : Canonical s) (c k t b fmt m i code scope) : Canonical (s.putElem c k t b fmt m i code scope).state := by
  grind [State.putElem, TRes.state, ! . canonical_spaceWrite]

theorem canonical_readElem (h : Canonical s) (c k t b fmt lut m i) : Canonical (s.readElem c k t b fmt lut m i).state := by
  grind [State.readElem, TRes.state, ! . canonical_spaceRead, canonical_tresBind, ! . canonical_getElem]

theorem canonical_tctxRead (h : Canonical s) (y m i) : Canonical (TCtx.read y m i s).state := canonical_readElem h ..

theorem canonical_tctxWrite (h : Canonical s) (y m i code) : Canonical (TCtx.write y m i code s).state := canonical_putElem h ..

theorem canonical_tctxLoad (h : Canonical s) (y ty m i) : Canonical (TCtx.load y ty m i s).state := by
  grind [TCtx.load, TRes.state, ! . canonical_tctxRead, canonical_tresBind]

theorem canonical_tctxStore (h : Canonical s) (y ty sat m i r) : Canonical (TCtx.store y ty sat m i r s).state := by
  grind [TCtx.store, TRes.state, canonical_tresBind, ! . canonical_tctxWrite]

theorem canonical_tctxReduce (h : Canonical s) (y op ty ma l acc) : Canonical (TCtx.reduce y op ty ma l acc s).state := by
  induction l generalizing s acc with
  | nil => exact h
  | cons i l ih => exact canonical_tresBind (canonical_tctxLoad h ..) _ fun _ _ h => ih h _

theorem canonical_tctxAmax (h : Canonical s) (y ma l acc) : Canonical (TCtx.amax y ma l acc s).state := by
  induction l generalizing s acc with
  | nil => exact h
  | cons i l ih => exact canonical_tresBind (canonical_tctxRead h ..) _ fun _ _ h => ih h _

theorem canonical_tctxCvtScaled (h : Canonical s) (y md ma i) : Canonical (TCtx.cvtScaled y md ma i s).state := by
  grind [TCtx.cvtScaled, TRes.state, ! . canonical_tctxRead, canonical_tresBind, ! . canonical_spaceWrite, ! . canonical_tctxWrite,
    ! . canonical_tctxAmax]

theorem canonical_tctxIndex (h : Canonical s) (y mb i) : Canonical (TCtx.index y mb i s).state := by
  grind [TCtx.index, TRes.state, ! . canonical_tctxRead, canonical_tresBind]

theorem canonical_tctxStep (h : Canonical s) (y) : Canonical (TCtx.step y s).state := by
  unfold TCtx.step
  (repeat' split) <;> grind [TRes.state, ! . canonical_tctxCvtScaled, ! . canonical_tctxRead, ! . canonical_tctxReduce, canonical_tresBind,
    ! . canonical_tctxLoad, ! . canonical_tctxIndex, ! . canonical_tctxStore, ! . canonical_tctxWrite, ! . canonical_getElem]

theorem canonical_tensorLoop (h : Canonical s) (y n x) : Canonical (tensorLoop y n x s).2.2 := by
  induction n generalizing s x with
  | zero => exact h
  | succ n ih =>
    unfold tensorLoop
    split
    · exact h
    next t _ =>
      have hs := canonical_tctxStep h { y with t := t, x := x }
      split <;> rename_i heq <;> rw [heq] at hs
      · exact ih hs _
      all_goals exact hs

theorem canonical_tryTensor (h : Canonical s) (c k t o x) : Canonical (s.tryTensor c k t o x) := by
  grind [State.tryTensor, canonical_modThread, canonical_overflowOf, ! . canonical_tensorLoop, canonical_defer, canonical_finishOp,
    canonical_bindBad, canonical_park]

theorem outCanonical_issueTensor (h : Canonical s) (g str rm d srcs scaled rel) : OutCanonical (issueTensor g str rm d srcs scaled rel s) := by
  grind [issueTensor, OutCanonical, canonical_tryTensor, ! . outCanonical_manifTrap, ! . outCanonical_wait, canonical_enterOp, canonical_modCur,
    outCanonical_guarded]

theorem outCanonical_accN (h : Canonical s) (g str loc a n act) : OutCanonical (accN g str loc a n act s) := by
  grind [accN, ! . outCanonical_trapAcc, outCanonical_guarded, ! . outCanonical_issueAcc]

theorem outCanonical_execMset (h : Canonical s) (x) : OutCanonical (execMset x s) := by
  grind [execMset, OutCanonical, outCanonical_guarded, canonical_setCur]

theorem outCanonical_execFmtset (h : Canonical s) (x) : OutCanonical (execFmtset x s) := by
  grind [execFmtset, OutCanonical, outCanonical_guarded, canonical_setCur]

/-! ### The engine -/

theorem canonical_choose (h : Canonical s) (l : List α) : Canonical (s.choose l).2 := by
  cases l with
  | nil => exact h
  | cons a l => exact canonical_freeWord h

theorem canonical_setResid (h : Canonical s) (k key r) : Canonical (s.setResid k key r) := canonical_modCluster h ..

theorem canonical_evictRes (h : Canonical s) (k key) : Canonical (s.evictRes k key) := by
  grind [State.evictRes, canonical_setResid, canonical_modSide]

theorem canonical_allocate (h : Canonical s) (k side g n fuel) : Canonical (s.allocate k side g n fuel).2 := by
  induction fuel generalizing s with
  | zero => exact h
  | succ fuel ih =>
    unfold State.allocate
    grind [canonical_evictRes]

theorem canonical_alloc (h : Canonical s) (k side region n) : Canonical (s.alloc k side region n).2 := canonical_allocate h ..

theorem canonical_armAll (h : Canonical s) (p k idx r l) : Canonical (s.armAll p k idx r l).2 := by
  induction l generalizing s with
  | nil => exact h
  | cons sec l ih =>
    unfold State.armAll
    grind [canonical_armDown, ! . optCanonical_addWatcher, OptCanonical]

theorem canonical_disarm (h : Canonical s) (p k idx r) : Canonical (s.disarm p k idx r) := (State.StopKept.disarm ..).canonical h

theorem canonical_startLoad (h : Canonical s) (k key r loader) : Canonical (s.startLoad k key r loader) := by
  grind [State.startLoad, canonical_modCluster, canonical_setResid]

theorem canonical_tryLoad (h : Canonical s) (c k t o key d) : Canonical (s.tryLoad c k t o key d) := by
  grind [State.tryLoad, Got.state, canonical_setResid, canonical_modThread, canonical_confined, canonical_defer, canonical_finishOp,
    ! . canonical_readBound, canonical_push]

theorem canonical_endLoader (h : Canonical s) (r) : Canonical (s.endLoader r) := (State.StopKept.endLoader ..).canonical h

theorem outCanonical_execResidencyLoadComplete (h : Canonical s) (x) : OutCanonical (execResidencyLoadComplete x s) := by
  grind [execResidencyLoadComplete, OutCanonical, canonical_setResid, canonical_endLoader]

theorem outCanonical_execResidencyLoadFault (h : Canonical s) (x) : OutCanonical (execResidencyLoadFault x s) := by
  grind [execResidencyLoadFault, OutCanonical, canonical_setResid, canonical_endLoader, canonical_report, ! . canonical_appendRec,
    canonical_optionElim]

theorem outCanonical_execTileError (h : Canonical s) (x) : OutCanonical (execTileError x s) := by
  grind [execTileError, OutCanonical, canonical_iff, canonical_report, canonical_evictRes]

theorem outCanonical_execStaleMark (h : Canonical s) (x) : OutCanonical (execStaleMark x s) := by
  grind [execStaleMark, OutCanonical, canonical_setResid, canonical_modSide]

theorem canonical_revokeRes (h : Canonical s) (k key) : Canonical (s.revokeRes k key) := (State.StopKept.revokeRes ..).canonical h

theorem canonical_revokeRegion (h : Canonical s) (region) : Canonical (s.revokeRegion region) := (State.StopKept.revokeRegion ..).canonical h

theorem optCanonical_endedRes (h : Canonical s) : OptCanonical s.endedRes :=
  optCanonical_findSome? fun _ => .map fun _ _ => canonical_revokeRes h ..

theorem canonical_dropTile (h : Canonical s) (c k a) : Canonical (s.dropTile c k a) := (State.StopKept.dropTile ..).canonical h

theorem canonical_getTile (h : Canonical s) (k side) : Canonical (s.getTile k side).2 := by
  grind [State.getTile, canonical_choose, canonical_dropTile]

theorem canonical_bringView (h : Canonical s) (c k a) : Canonical (s.bringView c k a).2 := by
  grind [State.bringView, canonical_modThread, ! . canonical_homeReadBytes, ! . canonical_getTile]

theorem canonical_bringViews (h : Canonical s) (c k l) : Canonical (s.bringViews c k l).2 := by
  induction l generalizing s with
  | nil => exact h
  | cons a l ih =>
    unfold State.bringViews
    grind [! . canonical_bringView]

theorem canonical_saveViews (h : Canonical s) (c k vacate) : Canonical (s.saveViews c k vacate) := (State.StopKept.saveViews ..).canonical h

theorem canonical_vacateRes (h : Canonical s) (k key) : Canonical (s.vacateRes k key) := by
  grind [State.vacateRes, canonical_evictRes]

/-! ### Matrix instructions -/

theorem outCanonical_withEngine (h : Canonical s) (g : Guard) (f : Thread → Out) (hf : ∀ t, OutCanonical (f t)) : OutCanonical (withEngine g s f) :=
  outCanonical_guarded h _ _ fun t => .ite (hf t) (outCanonical_trapAt h ..)

theorem canonical_xres (h : Canonical s) (c t ty skind pin ea n fdesc ref) : Canonical (s.xres c t ty skind pin ea n fdesc ref).state := by
  unfold State.xres
  (repeat' split) <;> grind [XresEnd.state, ! . canonical_translateR, canonical_disarm, ! . canonical_armAll, canonical_startLoad,
    canonical_choose, ! . canonical_alloc]

theorem canonical_tryXres (h : Canonical s) (c k t o d ty skind pin ea n fdesc) : Canonical (s.tryXres c k t o d ty skind pin ea n fdesc) := by
  grind [State.tryXres, XresEnd.state, canonical_modThread, canonical_finishOp, canonical_push, canonical_park, ! . canonical_xres]

theorem outCanonical_execXres (h : Canonical s) (x) : OutCanonical (execXres x s) := by
  grind [execXres, OutCanonical, ! . canonical_translateR, outCanonical_withEngine, ! . outCanonical_wait, ! . outCanonical_trapAcc,
    canonical_enterOp, canonical_tryXres, canonical_modCur, ! . outCanonical_badFormat, canonical_park]

theorem canonical_beginLoad (h : Canonical s) (c k t str d key r) : Canonical (s.beginLoad c k t str d key r) := by
  grind [State.beginLoad, canonical_enterOp, canonical_startLoad, canonical_push]

theorem outCanonical_withHandle (h : Canonical s) (x : XhX) (f : Thread → (Bool × Nat) → Residency → State → (Nat → State → Out) → Out)
    (hf : ∀ t key r s fin, Canonical s → (∀ n s, Canonical s → OutCanonical (fin n s)) → OutCanonical (f t key r s fin)) :
    OutCanonical (withHandle x s f) := by
  refine outCanonical_withEngine h _ _ fun t => ?_
  split
  · exact outCanonical_trapAt h ..
  · have hc := canonical_setCur h (t.countClamp (s.clamps s.cur.core x.str.scope 0))
    exact .ite (outCanonical_wait h) (.ite (.next (canonical_modCur hc _)) (.ite (.next (canonical_modCur hc _))
      (hf _ _ _ _ _ hc fun _ _ h => .next (canonical_modCur h _))))

theorem outCanonical_execXload (h : Canonical s) (x) : OutCanonical (execXload x s) := by
  grind [execXload, OutCanonical, outCanonical_withHandle, canonical_beginLoad, ! . canonical_alloc]

theorem outCanonical_execXpin (h : Canonical s) (x) : OutCanonical (execXpin x s) := by
  grind [execXpin, OutCanonical, canonical_setResid, outCanonical_withHandle, canonical_beginLoad, ! . canonical_alloc]

theorem outCanonical_execXunpin (h : Canonical s) (x) : OutCanonical (execXunpin x s) := by
  grind [execXunpin, canonical_setResid, outCanonical_withHandle]

theorem canonical_tryRevoke (h : Canonical s) (c k o d key gen) : Canonical (s.tryRevoke c k o d key gen) := by
  grind [State.tryRevoke, canonical_revokeRes, canonical_modThread, canonical_defer, canonical_finishOp]

theorem outCanonical_execXrevk (h : Canonical s) (x) : OutCanonical (execXrevk x s) := by
  grind [execXrevk, OutCanonical, canonical_revokeRes, canonical_enterOp, outCanonical_withHandle, canonical_defer]

theorem canonical_tryRes (h : Canonical s) (c k t o d act) : Canonical (s.tryRes c k t o d act) := by
  unfold State.tryRes
  (repeat' split) <;> grind [canonical_tryXres, canonical_tryLoad, canonical_tryRevoke]

theorem outCanonical_execXqry (h : Canonical s) (x) : OutCanonical (execXqry x s) := by
  grind [execXqry, OutCanonical, outCanonical_withEngine, ! . outCanonical_trapAt, canonical_setCur]

theorem outCanonical_execXzero (h : Canonical s) (x) : OutCanonical (execXzero x s) := by
  grind [execXzero, OutCanonical, outCanonical_withEngine, canonical_modSide]

theorem outCanonical_execXstat (h : Canonical s) (x) : OutCanonical (execXstat x s) := by
  grind [execXstat, OutCanonical, outCanonical_withEngine, canonical_setCur]

theorem outCanonical_execAcfg (h : Canonical s) (x) : OutCanonical (execAcfg x s) := by
  grind [execAcfg, OutCanonical, outCanonical_withEngine, canonical_setCur]

theorem outCanonical_execAget (h : Canonical s) (x) : OutCanonical (execAget x s) := by
  grind [execAget, OutCanonical, outCanonical_withEngine, canonical_setCur]

theorem outCanonical_execAfree (h : Canonical s) (x) : OutCanonical (execAfree x s) := by
  grind [execAfree, OutCanonical, outCanonical_withEngine, canonical_setCur]

theorem outCanonical_execAzero (h : Canonical s) (x) : OutCanonical (execAzero x s) := by
  grind [execAzero, OutCanonical, outCanonical_withEngine, ! . outCanonical_trapAt, canonical_setCur]

theorem outCanonical_tileMove (h : Canonical s) (g a idx row f) : OutCanonical (tileMove g a idx row s f) := by
  grind [tileMove, OutCanonical, outCanonical_withEngine, ! . outCanonical_trapAt, canonical_modCur, ! . canonical_bringView]

theorem outCanonical_tileIn (h : Canonical s) (x row) : OutCanonical (tileIn x row s) := outCanonical_tileMove h ..

theorem outCanonical_tileOut (h : Canonical s) (x row) : OutCanonical (tileOut x row s) := outCanonical_tileMove h ..

theorem canonical_passState (h : Canonical s) (c k y) : Canonical (s.passState c k y).state := by
  grind [State.passState, PassGo.state, canonical_modCluster, canonical_setResid, ! . canonical_bringViews, ! . canonical_alloc, canonical_modSide]

theorem canonical_rowRead (h : Canonical s) (c k t b x m r l) : Canonical (s.rowRead c k t b x m r l).state := by
  induction l generalizing s with
  | nil => exact h
  | cons i l ih => exact canonical_tresBind (canonical_readElem h ..) _ fun _ _ h => canonical_tresBind (ih h) _ fun _ _ h => h

theorem canonical_feedRow (h : Canonical s) (c k b y x w) : Canonical (s.feedRow c k b y x w).state := by
  grind [State.feedRow, canonical_iff, TRes.state, canonical_modThread, canonical_weigh, canonical_tresBind, ! . canonical_rowRead,
    canonical_modSide]

theorem canonical_drainPlace (h : Canonical s) (c t f m r l) : Canonical (s.drainPlace c t f m r l).state := by
  induction l generalizing s with
  | nil => exact h
  | cons j l ih => exact canonical_tresBind (canonical_spaceSegs h ..) _ fun _ _ h => ih h

theorem canonical_drainElems (h : Canonical s) (c k b y x mc sat scope l) : Canonical (s.drainElems c k b y x mc sat scope l).state := by
  induction l generalizing s with
  | nil => exact h
  | cons j l ih =>
    unfold State.drainElems
    dsimp only
    split
    · exact h
    · exact canonical_tresBind (canonical_putElem h ..) _ fun _ _ h => ih h

theorem canonical_drainRow (h : Canonical s) (c k b y x mc sat scope) : Canonical (s.drainRow c k b y x mc sat scope).state := by
  grind [State.drainRow, TRes.state, ! . canonical_drainElems, canonical_tresBind, ! . canonical_drainPlace]

theorem canonical_passLoop (h : Canonical s) (c k b y scope w fuel x) : Canonical (State.passLoop c k b y scope w fuel x s).2.2 := by
  induction fuel generalizing s x with
  | zero => exact h
  | succ fuel ih =>
    unfold State.passLoop
    grind [TRes.state, ! . canonical_drainRow, ! . canonical_feedRow]

theorem canonical_fetched (h : Canonical s) (c k id) : Canonical (s.fetched c k id) := by
  grind [State.fetched, canonical_push, canonical_setThread]

theorem canonical_runPass (h : Canonical s) (c k o x y w) : Canonical (s.runPass c k o x y w) := by
  grind [State.runPass, canonical_modThread, canonical_fetched, canonical_overflowOf, ! . canonical_passLoop, canonical_defer, canonical_finishOp,
    canonical_push, canonical_modSide, canonical_bindBad, canonical_park]

theorem canonical_beginPass (h : Canonical s) (c k o x y) : Canonical (s.beginPass c k o x y) := by
  grind [State.beginPass, canonical_modThread, canonical_modSide, canonical_runPass]

theorem canonical_failPass (h : Canonical s) (c k o cause sub) : Canonical (s.failPass c k o cause sub) := canonical_park h ..

theorem canonical_tryMat (h : Canonical s) (c k t o x) : Canonical (s.tryMat c k t o x) := by
  grind [State.tryMat, PassGo.state, canonical_modThread, canonical_startLoad, ! . canonical_passState, canonical_failPass, canonical_defer,
    canonical_push, canonical_beginPass, canonical_runPass]

theorem outCanonical_issuePass (h : Canonical s) (acc x) : OutCanonical (issuePass acc x s) := by
  unfold issuePass
  grind [OutCanonical, PassGo.state, outCanonical_withEngine, ! . outCanonical_trapAt, ! . outCanonical_wait, canonical_enterOp,
    ! . canonical_passState, canonical_modCur, canonical_beginLoad, canonical_beginPass, ! . outCanonical_badFormat]

theorem outCanonical_execDrainComplete (h : Canonical s) (x) : OutCanonical (execDrainComplete x s) := by
  grind [execDrainComplete, OutCanonical, canonical_finishOp, canonical_withOp]

end Sys2Proof.Machine
end

/-! ## Proofs/O53: The canonical form of threads and messages -/

section
namespace Sys2Proof.Machine

open Sys2Proof.Claims

variable {s : State}

/-! ### Threads -/

theorem optCanonical_spill (h : Canonical s) (c k) : OptCanonical (s.spill c k) := by
  grind [State.spill, OptCanonical, canonical_saveViews, canonical_saveContext, canonical_modThread, canonical_modCore, canonical_delThread,
    canonical_modPart, canonical_core]

theorem canonical_makeRoom (h : Canonical s) (c orig region fuel) : ∀ x, s.makeRoom c orig region fuel = some x → Canonical x.2 := by
  induction fuel generalizing s with
  | zero => intro x hx; cases hx
  | succ fuel ih =>
    intro x hx
    have hspill (c k s') (hs : s.spill c k = some s') : Canonical s' := (optCanonical_spill h c k).of_eq hs
    unfold State.makeRoom at hx
    (repeat' split at hx) <;> grind [Option.bind_eq_some_iff]

theorem canonical_syncRegion (h : Canonical s) (region) : Canonical (s.syncRegion region) := (State.HomeKept.syncRegion ..).canonical h

theorem canonical_place (h : Canonical s) (c orig at_ region life pc f) : Canonical (s.place c orig at_ region life pc f) := by
  grind [State.place, canonical_modCore, canonical_setThread, canonical_core]

theorem canonical_startThread (h : Canonical s) (c k) : Canonical (s.startThread c k) := by
  grind [State.startThread, ! . canonical_checkTarget, canonical_setThread, canonical_takeTrap]

theorem canonical_modSpilled (h : Canonical s) (core slot gen f) : Canonical (s.modSpilled core slot gen f) :=
  (State.StopKept.modSpilled ..).canonical h

theorem canonical_delSpilled (h : Canonical s) (core slot gen) : Canonical (s.delSpilled core slot gen) := by
  grind [State.delSpilled, canonical_modCore, canonical_modPart, canonical_core]

theorem canonical_reloadSlot (h : Canonical s) (c a b) : ∀ x, s.reloadSlot c a b = some x → Canonical x.2 := by
  intro x hx
  have hspill (c k s') (hs : s.spill c k = some s') : Canonical s' := (optCanonical_spill h c k).of_eq hs
  unfold State.reloadSlot at hx
  (repeat' split at hx) <;> grind [Option.bind_eq_some_iff, Option.map_eq_some_iff]

theorem optCanonical_reload (h : Canonical s) (a b g) : OptCanonical (s.reload a b g) := by
  unfold State.reload
  split
  · trivial
  next t _ =>
    split
    · trivial
    · refine .map fun x hx => ?_
      have hs := canonical_reloadSlot h _ _ _ x hx
      have hm := canonical_modCore (canonical_delSpilled hs a b g) a (fun y => { y with lastGen := aset b (BitVec.ofNat 6 g) y.lastGen })
        ((canonical_delSpilled hs a b g).2 a)
      dsimp only
      (repeat' split) <;>
      grind [canonical_setThread, ! . canonical_readRep, canonical_resumeTrap, canonical_startThread]

theorem canonical_seat (h : Canonical s) (c a b) : ∀ x, s.seat c a b = some x → Canonical x.2 := by
  intro x hx
  have hs := canonical_modCore (canonical_delSpilled h c a b) c (fun y => { y with lastGen := aset a (BitVec.ofNat 6 b) y.lastGen })
    ((canonical_delSpilled h c a b).2 c)
  unfold State.seat at hx
  dsimp only at hx
  (repeat' split at hx) <;> grind [Option.map_eq_some_iff, canonical_setThread]

theorem outCanonical_execReload (h : Canonical s) (x) : OutCanonical (execReload x s) := (optCanonical_reload h ..).getD h

theorem outCanonical_execWake (h : Canonical s) (x) : OutCanonical (execWake x s) := by
  grind [execWake, OutCanonical, canonical_modSpilled, canonical_confined, canonical_push, canonical_setThread]

theorem outCanonical_execSleep (h : Canonical s) (x) : OutCanonical (execSleep x s) := by
  grind [execSleep, OutCanonical, ! . outCanonical_trapAt, canonical_modCur, outCanonical_guarded, canonical_unissue, canonical_setCur]

theorem canonical_wakeSleepers (h : Canonical s) : Canonical s.wakeSleepers := h

theorem outCanonical_execSleepDeadline (h : Canonical s) (x) : OutCanonical (execSleepDeadline x s) := by
  grind [execSleepDeadline, OutCanonical, canonical_setThread, canonical_modPart]

theorem outCanonical_execYield (h : Canonical s) (x) : OutCanonical (execYield x s) := by
  grind [execYield, OutCanonical, outCanonical_guarded, canonical_setCur]

theorem canonical_endRegion (h : Canonical s) (region) : Canonical (s.endRegion region) := (State.StopKept.endRegion ..).canonical h

theorem canonical_releaseThread (h : Canonical s) (c k) : Canonical (s.releaseThread c k) := (State.StopKept.releaseThread ..).canonical h

theorem outCanonical_execEnd (h : Canonical s) (x) : OutCanonical (execEnd x s) := by
  grind [execEnd, OutCanonical, canonical_modThread, canonical_dropReaders, canonical_freeEntry, canonical_freeTags, outCanonical_guarded,
    canonical_releaseThread, canonical_endGrants, canonical_tryFree]

theorem canonical_discardCons (h : Canonical s) (c k) : Canonical (s.discardCons c k) := (State.StopKept.discardCons ..).canonical h

theorem canonical_killSlot (h : Canonical s) (c k) : Canonical (s.killSlot c k) := (State.StopKept.killSlot ..).canonical h

theorem canonical_kill (h : Canonical s) (c k) : Canonical (s.kill c k) := (State.StopKept.kill ..).canonical h

theorem outCanonical_execTrap (h : Canonical s) (x) : OutCanonical (execTrap x s) := by
  grind [execTrap, OutCanonical, outCanonical_guarded, canonical_takeTrap]

theorem outCanonical_execTrapEntry (h : Canonical s) (x) : OutCanonical (execTrapEntry x s) := by
  grind [execTrapEntry, OutCanonical, canonical_takeTrap]

theorem outCanonical_execMfs (h : Canonical s) (x) : OutCanonical (execMfs x s) := by
  grind [execMfs, OutCanonical, ! . outCanonical_wait, outCanonical_guarded, canonical_setCur]

theorem outCanonical_execMts (h : Canonical s) (x) : OutCanonical (execMts x s) := by
  grind [execMts, OutCanonical, outCanonical_guarded, canonical_setCur]

theorem outCanonical_execGtime (h : Canonical s) (x) : OutCanonical (execGtime x s) := by
  grind [execGtime, OutCanonical, outCanonical_guarded, canonical_setCur]

theorem outCanonical_execRgnq (h : Canonical s) (x) : OutCanonical (execRgnq x s) := by
  grind [execRgnq, OutCanonical, outCanonical_guarded, canonical_setCur]

/-! ### Messages -/

theorem canonical_ownTag (h : Canonical s) (c k x) : Canonical (s.ownTag c k x).2 := by
  grind [State.ownTag, canonical_modThread, canonical_modPart]

theorem canonical_tryMsg (h : Canonical s) (c k o core m) : Canonical (s.tryMsg c k o core m) := by
  grind [State.tryMsg, canonical_modThread, canonical_sendMsg]

theorem outCanonical_issueMsg (h : Canonical s) (t str kind core post ts a gb gc) : OutCanonical (issueMsg s t str kind core post ts a gb gc) := by
  unfold issueMsg
  (repeat' split) <;> grind [OutCanonical, ! . outCanonical_wait, canonical_enterOp, outCanonical_holdMsg, canonical_modCur, ! . canonical_ownTag,
    canonical_sendMsg]

theorem outCanonical_msgTrap (h : Canonical s) (sub) : OutCanonical (msgTrap s sub) := outCanonical_trapAt h ..

theorem outCanonical_execSendm (h : Canonical s) (x) : OutCanonical (execSendm x s) := by
  grind [execSendm, ! . outCanonical_trapAt, ! . outCanonical_issueMsg, ! . outCanonical_msgTrap, outCanonical_guarded]

theorem outCanonical_execSpawn (h : Canonical s) (x) : OutCanonical (execSpawn x s) := by
  grind [execSpawn, ! . outCanonical_issueMsg, ! . outCanonical_msgTrap, outCanonical_guarded]

theorem outCanonical_execSpawnt (h : Canonical s) (x) : OutCanonical (execSpawnt x s) := by
  grind [execSpawnt, ! . outCanonical_issueMsg, ! . outCanonical_msgTrap, outCanonical_guarded]

theorem canonical_sliceCtl (h : Canonical s) (c region va) : Canonical (s.sliceCtl c region va).2 := by
  grind [State.sliceCtl, ! . canonical_devRead]

theorem canonical_sent (h : Canonical s) (src) : Canonical (s.sent src) := (State.OpKept.sent ..).canonical h

theorem outCanonical_execPorterSpill (h : Canonical s) (x) : OutCanonical (execPorterSpill x s) := by
  grind [execPorterSpill, OutCanonical, canonical_modCore, ! . canonical_sliceCtl, canonical_sent, canonical_timer, ! . canonical_appendRec,
    ! . canonical_devWrite, canonical_core]

theorem canonical_dropOrphan (h : Canonical s) (c mark) : Canonical (s.dropOrphan c mark) := by
  grind [State.dropOrphan, canonical_consume, canonical_modPart]

theorem canonical_enterInbox (h : Canonical s) (c i) : Canonical (s.enterInbox c i) := canonical_modCore h _ _ (h.2 c)

theorem canonical_stages (h : Canonical s) (p) : Canonical (s.stages p).2 := (State.HomeKept.stages ..).canonical h

theorem canonical_memberList (h : Canonical s) (x) : Canonical (s.memberList x).2 := by
  grind [State.memberList, ! . canonical_devRead]

theorem canonical_modPost (h : Canonical s) (c post f) : Canonical (s.modPost c post f) := by
  grind [State.modPost, canonical_modCore, canonical_core]

theorem canonical_members (h : Canonical s) (p post) : Canonical (s.members p post).2 := by
  grind [State.members, ! . canonical_memberList, ! . canonical_stages]

theorem outCanonical_execMessageArrival (h : Canonical s) (x) : OutCanonical (execMessageArrival x s) := by
  grind [execMessageArrival, OutCanonical, ! . canonical_members, canonical_modCore, canonical_sent, canonical_push, canonical_dropOrphan,
    canonical_enterInbox, canonical_core]

theorem outCanonical_execPorterReplay (h : Canonical s) (x) : OutCanonical (execPorterReplay x s) := by
  have hset {s : State} (h : Canonical s) (c : Nat) : Canonical (s.modCore c Core.settled) := canonical_modCore h _ _ (h.2 c)
  unfold execPorterReplay
  extract_lets c y enter
  have henter (i : InMsg) {s : State} (h : Canonical s) : Canonical (enter i s) := by
    unfold enter
    (repeat' split)
    · exact h
    · exact canonical_dropOrphan h ..
    · exact canonical_enterInbox h ..
  clear_value enter
  split
  · exact hset h c
  next g i _ =>
    extract_lets s1
    have h1 : Canonical s1 := canonical_modCore h _ _ (h.2 c)
    clear_value s1
    split
    · refine hset ?_ c
      split
      · exact h1
      · exact canonical_dropOrphan h1 ..
    next r _ =>
      dsimp only
      have hc := canonical_sliceCtl h1 c g (s1.slice r i.dest).1
      split <;> rename_i heq <;> replace hc := heq ▸ hc
      · exact hset (henter _ hc) c
      · exact hset (henter _ (canonical_devWrite (canonical_devRead hc ..) ..)) c

theorem canonical_eligible (h : Canonical s) (c post p) : ∀ x, s.eligible c post p = some x → Canonical x.2.2 := by
  grind [State.eligible, → canonical_makeRoom]

theorem canonical_winner (h : Canonical s) (c) : ∀ x, s.winner c = some x → Canonical x.2.2.2.2 := by
  intro x hx
  obtain ⟨e, -, he⟩ := List.mem_filterMap.1 (List.mem_of_find?_eq_some hx)
  obtain ⟨y, hy, rfl⟩ := Option.map_eq_some_iff.1 he
  exact canonical_eligible h _ _ _ y hy

theorem canonical_takeFrontier (h : Canonical s) (region) : Canonical (s.takeFrontier region) := by
  grind [State.takeFrontier, canonical_iff, canonical_modRegion]

theorem canonical_bind (h : Canonical s) (c post p m x) : Canonical (s.bind c post p m x) := by
  unfold State.bind
  split
  · exact h
  next r _ =>
    have hk {s : State} (h : Canonical s) (f : Core → Core) (hf : (f (s.core c)).sp = (s.core c).sp) : Canonical (s.modCore c f) :=
      canonical_modCore h _ _ (by rw [hf]; exact h.2 _)
    dsimp only
    refine canonical_startThread ?_ ..
    have hs := hk (hk h (fun y => { (y.take m.1 m.2 (r.emode ≠ 0)) with rotation := post + 1 }) (Core.sp_take ..))
    grind [canonical_takeFrontier, canonical_place, canonical_syncRegion, canonical_consume, canonical_push, canonical_modRegion]

theorem outCanonical_execBinding (h : Canonical s) (x) : OutCanonical (execBinding x s) := by
  grind [execBinding, OutCanonical, → canonical_winner, canonical_bind]

theorem canonical_agePosts (h : Canonical s) (n) : Canonical (s.agePosts n) :=
  canonical_mapCores h _ (fun _ => rfl) fun _ => rfl

theorem outCanonical_execStealRequest (h : Canonical s) (x) : OutCanonical (execStealRequest x s) := by
  unfold execStealRequest
  grind [OutCanonical, canonical_modCore, canonical_core, canonical_push, canonical_setThread]

/-! ### Consignments -/

theorem canonical_modCons (h : Canonical s) (c k f) : Canonical (s.modCons c k f) := canonical_modThread h ..

theorem canonical_beginClear (h : Canonical s) (c k) : Canonical (s.beginClear c k) := by
  grind [State.beginClear, canonical_push, canonical_modCons]

theorem canonical_prepEntry (h : Canonical s) (c k t x e) : Canonical (s.prepEntry c k t x e).state := by
  grind [State.prepEntry, PrepRes.state, canonical_modEntry, canonical_modCore, canonical_recall, canonical_biSnoop, canonical_beforeWrite,
    canonical_evict, canonical_abortReaders, canonical_ladWait, canonical_hostGet, canonical_core]

theorem canonical_unprep (h : Canonical s) (c k e) : Canonical (s.unprep c k e) := (State.StopKept.unprep ..).canonical h

theorem canonical_commitEntry (h : Canonical s) (c t e) : Canonical (s.commitEntry c t e) := by
  unfold State.commitEntry
  split
  · exact canonical_homeStore h ..
  · split
    · exact canonical_memMerge (canonical_setPoison h ..) ..
    · exact canonical_memMerge h ..
  next d sec _ =>
    have hs (y : Core) (o bs b) (hy : y.sp.wf = true) : ({ y.spPut o bs with spBad := b } : Core).sp.wf = true := memWrite_wf _ _ _ hy
    dsimp only
    split
    · exact canonical_appendRec (canonical_modCore h _ _ (hs _ _ _ _ (h.2 d))) ..
    · exact canonical_modCore h _ _ (hs _ _ _ _ (h.2 d))

theorem canonical_startHeld (h : Canonical s) (c k l) : Canonical (s.startHeld c k l) := by
  grind [State.startHeld, canonical_push, canonical_setThread, canonical_foldl]

theorem canonical_nextUnit (h : Canonical s) (region done) : Canonical (s.nextUnit region done) := by
  grind [State.nextUnit, canonical_takeFrontier, canonical_push, canonical_modRegion]

theorem canonical_clearTag (h : Canonical s) (p tag) : Canonical (s.clearTag p tag) := canonical_modPart h ..

theorem canonical_releaseCons (h : Canonical s) (c k t x) : Canonical (s.releaseCons c k t x) := by
  grind [State.releaseCons, canonical_clearTag, canonical_dropReaders, canonical_freeEntry, canonical_startHeld, canonical_freeTags,
    canonical_nextUnit, canonical_tryFree, canonical_modCons, canonical_discardCons, canonical_modRegion]

theorem outCanonical_execCommit (h : Canonical s) (x) : OutCanonical (execCommit x s) := by
  grind [execCommit, OutCanonical, canonical_releaseCons, canonical_commitEntry, canonical_unprep, canonical_foldl]

theorem canonical_dropBoth (h : Canonical s) (c k x keep) : Canonical (s.dropBoth c k x keep) := (State.StopKept.dropBoth ..).canonical h

theorem canonical_dropCons (h : Canonical s) (c k count) : Canonical (s.dropCons c k count) := (State.StopKept.dropCons ..).canonical h

theorem outCanonical_execConsignmentDrop (h : Canonical s) (x) : OutCanonical (execConsignmentDrop x s) := by
  grind [execConsignmentDrop, OutCanonical, canonical_report, canonical_dropCons]

theorem outCanonical_execPrep (h : Canonical s) (x) : OutCanonical (execPrep x s) := by
  unfold execPrep
  (repeat' split) <;> grind [OutCanonical, canonical_iff, PrepRes.state, ! . canonical_prepEntry, canonical_push, canonical_modCons]

theorem canonical_resend (h : Canonical s) (t c k x core mark) : Canonical (s.resend t c k x core mark) := by
  grind [State.resend, canonical_dropBoth, canonical_push, canonical_modRegion]

theorem outCanonical_execHashArrival (h : Canonical s) (x) : OutCanonical (execHashArrival x s) := by
  unfold execHashArrival
  (repeat' split) <;> grind [OutCanonical, canonical_resend, canonical_modCore, canonical_dropBoth, ! . canonical_appendRec, canonical_modCons,
    canonical_modRegion, canonical_core, canonical_push, canonical_setThread]

theorem canonical_pairEnded (h : Canonical s) (c k x) : Canonical (s.pairEnded c k x) := by
  grind [State.pairEnded, canonical_push, canonical_modCons]

theorem outCanonical_execClearing (h : Canonical s) (x) : OutCanonical (execClearing x s) := by
  grind [execClearing, OutCanonical, canonical_beginClear, canonical_pairEnded]

theorem outCanonical_execConsignmentOverflow (h : Canonical s) (x) : OutCanonical (execConsignmentOverflow x s) := by
  grind [execConsignmentOverflow, OutCanonical, canonical_resend, canonical_beginClear, canonical_modRegion]

theorem outCanonical_execWriteIntent (h : Canonical s) (x) : OutCanonical (execWriteIntent x s) := by
  grind [execWriteIntent, OutCanonical, canonical_abortReaders]

end Sys2Proof.Machine
end

/-! ## Proofs/O53: The canonical form at the host interface -/

section
namespace Sys2Proof.Machine

open Sys2Proof.Claims

variable {s : State}

/-! ### Queues of the functions -/

theorem canonical_modFn (h : Canonical s) (f g) : Canonical (s.modFn f g) := h

theorem canonical_setQueue (h : Canonical s) (f q x) : Canonical (s.setQueue f q x) := canonical_modFn h ..

theorem canonical_modQueue (h : Canonical s) (f q g) : Canonical (s.modQueue f q g) := by
  grind [State.modQueue, canonical_setQueue]

theorem canonical_fnRead (h : Canonical s) (f a n) : Canonical (s.fnRead f a n).2 := (State.HomeKept.fnRead ..).canonical h

theorem canonical_fnWrite (h : Canonical s) (f a bs) : Canonical (s.fnWrite f a bs) := (State.HomeKept.fnWrite ..).canonical h

theorem canonical_modSlot (h : Canonical s) (f q idx g) : Canonical (s.modSlot f q idx g) := canonical_modQueue h ..

theorem canonical_finishCmd (h : Canonical s) (f q idx status detail disp disc) : Canonical (s.finishCmd f q idx status detail disp disc) := by
  grind [State.finishCmd, canonical_modSlot, canonical_push]

theorem canonical_putQState (h : Canonical s) (f q st) : Canonical (s.putQState f q st) := by
  grind [State.putQState, canonical_setQueue, canonical_fnWrite]

theorem canonical_checkDrained (h : Canonical s) (f q) : Canonical (s.checkDrained f q) := by
  grind [State.checkDrained, canonical_finishCmd, canonical_putQState, canonical_foldl]

theorem canonical_dropParts (h : Canonical s) (f q y) : Canonical (s.dropParts f q y) := by
  grind [State.dropParts, canonical_modSlot, canonical_modRegion]

theorem canonical_startDrain (h : Canonical s) (f q) : Canonical (s.startDrain f q) := by
  grind [State.startDrain, canonical_finishCmd, canonical_checkDrained, canonical_dropParts, canonical_putQState, canonical_foldl]

theorem canonical_acceptCopy (h : Canonical s) (f q x c) : Canonical (s.acceptCopy f q x c) := by
  grind [State.acceptCopy, canonical_setQueue, canonical_finishCmd, canonical_push, canonical_modQueue, canonical_putQState, canonical_startDrain]

theorem canonical_pollQcb (h : Canonical s) (f q) : Canonical (s.pollQcb f q) := by
  grind [State.pollQcb, canonical_acceptCopy, canonical_setQueue, ! . canonical_fnRead, canonical_putQState]

theorem canonical_createQueue (h : Canonical s) (f q addr creator) : Canonical (s.createQueue f q addr creator) := by
  grind [State.createQueue, canonical_setQueue, canonical_pollQcb, canonical_fnWrite, canonical_putQState]

theorem outCanonical_execNotify (h : Canonical s) (x) : OutCanonical (execNotify x s) := by
  grind [execNotify, OutCanonical, canonical_setQueue, canonical_pollQcb, canonical_push]

theorem outCanonical_execAdmqcbCreate (h : Canonical s) (x) : OutCanonical (execAdmqcbCreate x s) := by
  grind [execAdmqcbCreate, OutCanonical, canonical_createQueue, canonical_modFn]

theorem outCanonical_execAdmqcbDestroy (h : Canonical s) (x) : OutCanonical (execAdmqcbDestroy x s) := by
  grind [execAdmqcbDestroy, OutCanonical, canonical_modFn, canonical_startDrain]

theorem canonical_signalVec (h : Canonical s) (f v port) : Canonical (s.signalVec f v port) := by
  grind [State.signalVec, canonical_iff, canonical_modFn]

theorem outCanonical_execRegisterWrite (h : Canonical s) (x) : OutCanonical (execRegisterWrite x s) := by
  grind [execRegisterWrite, OutCanonical, canonical_modFn, canonical_push, canonical_signalVec]

theorem canonical_retryWaits (h : Canonical s) (f) : Canonical (s.retryWaits f) := canonical_push h ..

theorem canonical_enterCmd (h : Canonical s) (f q idx c) : Canonical (s.enterCmd f q idx c) := by
  grind [State.enterCmd, canonical_finishCmd, canonical_push, canonical_modQueue]

theorem outCanonical_execCommandFetch (h : Canonical s) (x) : OutCanonical (execCommandFetch x s) := by
  grind [execCommandFetch, OutCanonical, canonical_setQueue, ! . canonical_fnRead, canonical_enterCmd, canonical_timer, canonical_fnWrite,
    canonical_push, canonical_putQState]

theorem canonical_pickCmd (h : Canonical s) (f) : Canonical (s.pickCmd f).2 := by
  grind [State.pickCmd, ! . canonical_freeWord]

theorem outCanonical_execCommandDispatch (h : Canonical s) (x) : OutCanonical (execCommandDispatch x s) := by
  grind [execCommandDispatch, OutCanonical, canonical_modSlot, canonical_finishCmd, ! . canonical_pickCmd, canonical_push]

theorem outCanonical_asCommand (h : Canonical s) (x : EvCmd) (adm priv : Bool) (fields : List (Nat × Nat)) (f : State → State)
    (hf : Canonical (f s)) : OutCanonical (asCommand x adm priv fields s f) := by
  unfold asCommand
  split
  · exact h
  · exact .ite (.next h) (.ite (.next (canonical_finishCmd h ..)) (.ite (.next (canonical_finishCmd h ..))
      (.ite (.next (canonical_finishCmd h ..)) (.next hf))))

theorem canonical_endCmd (h : Canonical s) (x status detail) : Canonical (s.endCmd x status detail) := canonical_finishCmd h ..

theorem canonical_freeSlot (h : Canonical s) (f q y status) : Canonical (s.freeSlot f q y status) := by
  grind [State.freeSlot, canonical_retryWaits, canonical_modFn, canonical_checkDrained, canonical_modQueue]

theorem outCanonical_execCompletionWrite (h : Canonical s) (x) : OutCanonical (execCompletionWrite x s) := by
  unfold execCompletionWrite
  (repeat' split) <;> grind [OutCanonical, ! . canonical_fnRead, canonical_later1, canonical_fnWrite, canonical_signalVec, canonical_modQueue,
    canonical_freeSlot]

theorem outCanonical_execPluginOverrun (h : Canonical s) (x) : OutCanonical (execPluginOverrun x s) := by
  grind [execPluginOverrun, OutCanonical, canonical_retryWaits, canonical_modFn]

/-! ### Waves -/

theorem canonical_orderedWave (h : Canonical s) (region r) : Canonical (s.orderedWave region r) := by
  grind [State.orderedWave, canonical_takeFrontier, canonical_freeTags, canonical_push, canonical_modRegion]

theorem canonical_writeCrec (h : Canonical s) (region r) : Canonical (s.writeCrec region r) := by
  grind [State.writeCrec, canonical_finishCmd, ! . canonical_appendRec, ! . canonical_devWrite, canonical_modRegion]

theorem canonical_terminate (h : Canonical s) (g) : Canonical (s.terminate g) := by
  unfold State.terminate
  refine canonical_syncRegion (canonical_modRegion ?_ ..) _
  exact canonical_mapCores h _ (fun _ => rfl) fun _ => rfl

theorem canonical_afterTermination (h : Canonical s) (region) : Canonical (s.afterTermination region) := by
  grind [State.afterTermination, canonical_writeCrec, canonical_endRegion]

theorem outCanonical_execWave (h : Canonical s) (x) : OutCanonical (execWave x s) := by
  grind [execWave, OutCanonical, canonical_afterTermination, canonical_orderedWave, canonical_terminate, canonical_modRegion]

/-! ### Meters and the drover -/

theorem canonical_retariff (h : Canonical s) : Canonical s.retariff := canonical_mapCores h _ (fun _ => rfl) fun _ => rfl

theorem canonical_chargeUp (h : Canonical s) (region n) : Canonical (s.chargeUp region n) := by
  grind [State.chargeUp, canonical_modRegion, canonical_foldl]

theorem canonical_gate (h : Canonical s) (k) : Canonical (s.gate k) := (State.HomeKept.gate ..).canonical h

theorem outCanonical_execEnergyMeter (h : Canonical s) (x) : OutCanonical (execEnergyMeter x s) := by
  grind [execEnergyMeter, OutCanonical, canonical_iff, canonical_modCluster, canonical_chargeUp, canonical_retariff, canonical_gate, canonical_foldl]

theorem canonical_heat (h : Canonical s) : Canonical s.heat := h

theorem canonical_rethrottle (h : Canonical s) (l) : Canonical (s.rethrottle l) := by
  grind [State.rethrottle, canonical_modCluster, canonical_foldl]

theorem outCanonical_execTemperatureRead (h : Canonical s) (x) : OutCanonical (execTemperatureRead x s) := by
  grind [execTemperatureRead, OutCanonical, canonical_modCluster, canonical_push]

theorem canonical_putStage (h : Canonical s) (p block x) : Canonical (s.putStage p block x) := canonical_homeWriteBytes h ..

theorem canonical_putMembers (h : Canonical s) (x l) : Canonical (s.putMembers x l) := by
  grind [State.putMembers, ! . canonical_devWrite]

theorem canonical_droverMasks (h : Canonical s) (p) : Canonical (s.droverMasks p) := by
  grind [State.droverMasks, canonical_modPost, ! . canonical_memberList, ! . canonical_stages, canonical_foldl]

theorem canonical_occupancy (h : Canonical s) (x) : Canonical (s.occupancy x).2 := by
  grind [State.occupancy, ! . canonical_devRead]

theorem canonical_moveUnit (h : Canonical s) (p d r all u) : Canonical (s.moveUnit p d r all u) := by
  grind [State.moveUnit, canonical_modPost, canonical_putMembers, canonical_modPart, canonical_foldl]

theorem outCanonical_execDroverPeriod (h : Canonical s) (x) : OutCanonical (execDroverPeriod x s) := by
  grind [execDroverPeriod, OutCanonical, canonical_putStage, canonical_moveUnit, ! . canonical_homeReadBytes, ! . canonical_memberList,
    canonical_homeWriteBytes, ! . canonical_occupancy, ! . canonical_stages, canonical_foldl, ! . canonical_foldl_snd]

theorem outCanonical_execDroverCoreJoin (h : Canonical s) (x) : OutCanonical (execDroverCoreJoin x s) := by
  grind [execDroverCoreJoin, OutCanonical, canonical_modPost, canonical_putMembers, ! . canonical_memberList, ! . canonical_stages, canonical_modPart]

/-! ### Coherence messages -/

theorem canonical_modHome (h : Canonical s) (p sec f) : Canonical (s.modHome p sec f) := canonical_modEntry h ..

theorem canonical_sendData (h : Canonical s) (p sec c g) : Canonical (s.sendData p sec c g) := by
  unfold State.sendData
  (repeat' split) <;> grind [canonical_addHolder, canonical_push]

theorem canonical_openTxn (h : Canonical s) (p sec st req wait tracts host) : Canonical (s.openTxn p sec st req wait tracts host) := by
  grind [State.openTxn, canonical_iff, canonical_modHome, canonical_push, canonical_modPart]

theorem canonical_endSi (h : Canonical s) (p sec req) : Canonical (s.endSi p sec req) := by
  unfold State.endSi
  (repeat' split) <;> grind [canonical_setPoison, canonical_modHome, canonical_sendData, canonical_modEntry, canonical_homeApply, canonical_push]

theorem canonical_checkSi (h : Canonical s) (p sec) : Canonical (s.checkSi p sec) := by
  grind [State.checkSi, canonical_endSi]

theorem canonical_invalidate (h : Canonical s) (p sec req keep) : Canonical (s.invalidate p sec req keep) := by
  unfold State.invalidate
  (repeat' split) <;> grind [canonical_checkSi, canonical_openTxn, canonical_push]

theorem canonical_serveHit (h : Canonical s) (p sec req) : Canonical (s.serveHit p sec req) := by
  unfold State.serveHit
  (repeat' split) <;> grind [canonical_invalidate, canonical_sendData, canonical_openTxn, canonical_push]

theorem canonical_coarsen (h : Canonical s) (p line) : Canonical (s.coarsen p line) := canonical_modEntry h ..

theorem canonical_downgrade (h : Canonical s) (p line) : Canonical (s.downgrade p line) := by
  grind [State.downgrade, canonical_openTxn, canonical_push, canonical_foldl]

theorem canonical_serve (h : Canonical s) (p sec req) : Canonical (s.serve p sec req) := by
  unfold State.serve
  extract_lets hh e lad own stale sd s1 s2 own' got
  clear_value own stale own' got
  have hd : Canonical sd := canonical_downgrade h ..
  have h1 : Canonical s1 := by grind [canonical_coarsen]
  have h2 : Canonical s2 := by grind [canonical_clearTu]
  clear_value s1 s2 lad sd
  (repeat' split) <;> grind [canonical_modHome, canonical_later, canonical_ladWait, canonical_push, canonical_openTxn, canonical_serveHit]

theorem canonical_drainHome (h : Canonical s) (p sec fuel) : Canonical (s.drainHome p sec fuel) := by
  induction fuel generalizing s with
  | zero => exact h
  | succ fuel ih =>
    unfold State.drainHome
    grind [canonical_serve, canonical_modHome]

theorem canonical_nextReq (h : Canonical s) (p sec) : Canonical (s.nextReq p sec) := canonical_drainHome h ..

theorem canonical_deny (h : Canonical s) (c pa) : Canonical (s.deny c pa) := by
  grind [State.deny, canonical_confined, canonical_delL1, canonical_setThread, canonical_takeTrap, canonical_park]

theorem canonical_request (h : Canonical s) (c pa req) : Canonical (s.request c pa req) := by
  grind [State.request, canonical_serve, canonical_nextReq, canonical_deny]

theorem outCanonical_execWrt (h : Canonical s) (x) : OutCanonical (execWrt x s) := by
  grind [execWrt, OutCanonical, canonical_serve, canonical_nextReq, canonical_request]

theorem canonical_answerFwd (h : Canonical s) (p sec o keep) : Canonical (s.answerFwd p sec o keep) := by
  grind [State.answerFwd, canonical_modHome, canonical_sendData, canonical_modEntry, canonical_nextReq]

theorem canonical_replyIn (h : Canonical s) (p sec c) : Canonical (s.replyIn p sec c) := by
  grind [State.replyIn, canonical_modHome, canonical_checkSi, canonical_nextReq]

theorem canonical_tractsIn (h : Canonical s) (p sec j) : Canonical (s.tractsIn p sec j) := by
  grind [State.tractsIn, canonical_modHome, canonical_checkSi, canonical_nextReq]

theorem outCanonical_cohReply (h : Canonical s) (c pa : Nat) (f : State → State) (hf : Canonical (f s)) : OutCanonical (s.cohReply c pa f) := by
  refine OutCanonical.next ?_
  split
  · exact hf
  · exact canonical_confined h ..

theorem canonical_putL2 (h : Canonical s) (p sec d) : Canonical (s.putL2 p sec d) :=
  canonical_modEntry (canonical_memWrite h ..) ..

theorem canonical_ownerAnswer (h : Canonical s) (p sec c) : Canonical (s.ownerAnswer p sec c) := by
  grind [State.ownerAnswer, canonical_replyIn, canonical_answerFwd]

theorem outCanonical_execOwnerData (h : Canonical s) (x) : OutCanonical (execOwnerData x s) := by
  grind [execOwnerData, outCanonical_cohReply, canonical_putL2, canonical_ownerAnswer]

theorem outCanonical_execClean (h : Canonical s) (x) : OutCanonical (execClean x s) := by
  grind [execClean, outCanonical_cohReply, canonical_ownerAnswer]

theorem canonical_gone (h : Canonical s) (x) : Canonical (s.gone x) := by
  grind [State.gone, canonical_modHome, canonical_replyIn, canonical_answerFwd]

theorem outCanonical_execGone (h : Canonical s) (x) : OutCanonical (execGone x s) := by
  grind [execGone, outCanonical_cohReply, canonical_gone]

theorem canonical_ownerOut (h : Canonical s) (p sec) : Canonical (s.ownerOut p sec) := canonical_modEntry h ..

theorem canonical_putx (h : Canonical s) (x) : Canonical (s.putx x) := by
  grind [State.putx, canonical_replyIn, canonical_putL2, canonical_answerFwd, canonical_ownerOut, canonical_push]

theorem outCanonical_execPutx (h : Canonical s) (x) : OutCanonical (execPutx x s) := by
  grind [execPutx, outCanonical_cohReply, canonical_putx]

theorem outCanonical_execPute (h : Canonical s) (x) : OutCanonical (execPute x s) := by
  grind [execPute, outCanonical_cohReply, canonical_ownerOut, canonical_push]

theorem canonical_ackIn (h : Canonical s) (c sec) : Canonical (s.ackIn c sec) := by
  grind [State.ackIn, canonical_modCore, canonical_withOp, canonical_finishHere, canonical_core]

theorem outCanonical_execAck (h : Canonical s) (x) : OutCanonical (execAck x s) := by
  grind [execAck, OutCanonical, outCanonical_cohReply, canonical_tractsIn, canonical_confined, canonical_replyIn, canonical_ackIn]

theorem outCanonical_execFillArrives (h : Canonical s) (x) : OutCanonical (execFillArrives x s) := by
  grind [execFillArrives, OutCanonical, canonical_serve, canonical_serveHit, canonical_modHome, canonical_nextReq, canonical_takeWay, canonical_foldl]

theorem canonical_forward (h : Canonical s) (c pa inv txn) : Canonical (s.forward c pa inv txn) := by
  grind [State.forward, canonical_setPoison, canonical_setL1, canonical_push, canonical_delL1]

theorem canonical_invAt (h : Canonical s) (sec c) : Canonical (s.invAt sec c) := by
  grind [State.invAt, canonical_setL1, canonical_delL1]

theorem outCanonical_execInv (h : Canonical s) (x) : OutCanonical (execInv x s) := by
  grind [execInv, OutCanonical, canonical_invAt, canonical_push, canonical_foldl]

theorem outCanonical_fromHome (h : Canonical s) (c pa : Nat) (f : State → Out) (hf : OutCanonical (f s)) : OutCanonical (s.fromHome c pa f) :=
  .ite hf (.next (canonical_confined h ..))

theorem outCanonical_execData (h : Canonical s) (x) : OutCanonical (execData x s) := by
  unfold execData
  grind [OutCanonical, outCanonical_fromHome, canonical_setL1, canonical_forward]

theorem outCanonical_execWback (h : Canonical s) (x) : OutCanonical (execWback x s) := by
  grind [execWback, OutCanonical, outCanonical_fromHome, canonical_delL1]

theorem canonical_forHost (h : Canonical s) (sec : Nat) (f : Nat → State → State) (hf : ∀ p s, Canonical s → Canonical (f p s)) :
    Canonical (s.forHost sec f) :=
  canonical_foldl _ _ h fun s h e => by
    split
    · exact hf _ _ h
    · exact h

theorem canonical_setHostSec (h : Canonical s) (p sec own) : Canonical (s.setHostSec p sec own) := canonical_modPart h ..

theorem outCanonical_execSnpData (h : Canonical s) (x) : OutCanonical (execSnpData x s) := by
  grind [execSnpData, OutCanonical, canonical_iff, canonical_forHost, canonical_homeRead, canonical_setHostSec]

theorem outCanonical_execSnpInv (h : Canonical s) (x) : OutCanonical (execSnpInv x s) := by
  grind [execSnpInv, OutCanonical, canonical_iff, canonical_forHost, canonical_recall, canonical_beforeWrite, canonical_markSector,
    canonical_setHostSec, canonical_memWrite, canonical_push, canonical_setThread]

theorem outCanonical_execSnpCur (h : Canonical s) (x) : OutCanonical (execSnpCur x s) := by
  grind [execSnpCur, OutCanonical, canonical_iff, canonical_forHost, canonical_homeRead]

theorem outCanonical_execRdSharedReread (h : Canonical s) (x) : OutCanonical (execRdSharedReread x s) := by
  grind [execRdSharedReread, OutCanonical, canonical_sendWakes, canonical_setHostSec, canonical_foldl, canonical_memWrite]

theorem outCanonical_execBiSnpInvResponse (h : Canonical s) (x) : OutCanonical (execBiSnpInvResponse x s) := by
  grind [execBiSnpInvResponse, OutCanonical, canonical_modHome, canonical_putL2, canonical_checkSi, canonical_nextReq]

theorem outCanonical_execMemWr (h : Canonical s) (x) : OutCanonical (execMemWr x s) := by
  grind [execMemWr, OutCanonical, canonical_iff, canonical_homeWrite, canonical_ladWait, canonical_optionElim]

theorem outCanonical_execHostMemRd (h : Canonical s) (x) : OutCanonical (execHostMemRd x s) := by
  grind [execHostMemRd, OutCanonical, canonical_iff, canonical_modEntry, canonical_homeRead, canonical_ladWait, canonical_optionElim]

theorem outCanonical_execCxlCacheResponse (h : Canonical s) (x) : OutCanonical (execCxlCacheResponse x s) := by
  grind [execCxlCacheResponse, OutCanonical, canonical_serve, canonical_modHome, canonical_nextReq, canonical_setHostSec, canonical_foldl,
    canonical_memWrite]

/-! ### Commands -/

theorem outCanonical_regionCommand (h : Canonical s) (x : EvCmd) (fields : List (Nat × Nat)) (f : Nat → Region → State → State)
    (hf : ∀ rcb r, Canonical (f rcb r s)) : OutCanonical (regionCommand x fields s f) := by
  refine outCanonical_asCommand h _ _ _ _ _ ?_
  dsimp only
  split
  · exact canonical_endCmd h ..
  · exact hf _ _

theorem outCanonical_execNopCommand (h : Canonical s) (x) : OutCanonical (execNopCommand x s) := by
  grind [execNopCommand, canonical_endCmd, outCanonical_asCommand]

theorem outCanonical_execSignal (h : Canonical s) (x) : OutCanonical (execSignal x s) := by
  grind [execSignal, canonical_retryWaits, canonical_endCmd, canonical_modFn, outCanonical_asCommand]

theorem outCanonical_execTflush (h : Canonical s) (x) : OutCanonical (execTflush x s) := by
  grind [execTflush, canonical_iff, canonical_endCmd, outCanonical_asCommand, canonical_later1]

theorem canonical_rcbMap (h : Canonical s) (f p b parent) : Canonical (s.rcbMap f p b parent).2 := by
  grind [State.rcbMap, ! . canonical_homeReadBytes]

theorem canonical_postTable (h : Canonical s) (region r) : Canonical (s.postTable region r).2 := canonical_devRead h ..

theorem canonical_copyPosts (h : Canonical s) (region r bs l) : Canonical (s.copyPosts region r bs l) := by
  grind [State.copyPosts, canonical_modCore, canonical_core, canonical_foldl]

theorem canonical_pickPairing (h : Canonical s) (l) : Canonical (s.pickPairing l).2 := by
  grind [State.pickPairing, canonical_choose]

theorem splitCanonical_splitAll (h : Canonical s) (g code l) : SplitCanonical (s.splitAll g code l) := by
  induction l generalizing s with
  | nil => exact h
  | cons c l ih =>
    unfold State.splitAll
    grind [! . canonical_resplit, SplitCanonical]

theorem launchCanonical_launchFail (n : Nat) : LaunchCanonical (launchFail n) := trivial

theorem canonical_linkRegion (h : Canonical s) (rcb r) : Canonical (s.linkRegion rcb r) := by
  grind [State.linkRegion, ! . canonical_homeReadBytes, canonical_homeWriteBytes, canonical_modRegion]

theorem canonical_zeroSlices (h : Canonical s) (rcb r) : Canonical (s.zeroSlices rcb r) := by
  grind [State.zeroSlices, ! . canonical_devWrite, canonical_foldl]

theorem canonical_putOffsets (h : Canonical s) (rcb r) : Canonical (s.putOffsets rcb r) := by
  grind [State.putOffsets, canonical_homeWriteBytes]

theorem launchCanonical_launchOn (h : Canonical s) (x rcb r) : LaunchCanonical (s.launchOn x rcb r) := by
  unfold State.launchOn
  (repeat' split) <;> grind [canonical_iff, LaunchCanonical, SplitCanonical, canonical_linkRegion, canonical_copyPosts, canonical_syncRegion,
    ! . canonical_pickPairing, canonical_zeroSlices, ! . canonical_postTable, canonical_retariff, canonical_rethrottle, canonical_putOffsets,
    launchCanonical_launchFail, ! . splitCanonical_splitAll]

theorem launchCanonical_launchSetup (h : Canonical s) (x rcb) : LaunchCanonical (s.launchSetup x rcb) := by
  unfold State.launchSetup
  (repeat' split) <;> grind [LaunchCanonical, ! . canonical_rcbMap, ! . launchCanonical_launchOn, ! . canonical_homeReadBytes,
    launchCanonical_launchFail]

theorem canonical_launchPart (h : Canonical s) (x rcb k) : Canonical (s.launchPart x rcb k) := by
  grind [State.launchPart, canonical_modSlot, canonical_consume, canonical_push]

theorem outCanonical_execLaunch (h : Canonical s) (x) : OutCanonical (execLaunch x s) := by
  grind [execLaunch, LaunchCanonical, canonical_launchPart, canonical_endCmd, outCanonical_asCommand, canonical_later1, canonical_lateErrs,
    ! . launchCanonical_launchSetup]

theorem canonical_siblingBefore (h : Canonical s) (p rcb a a4) : Canonical (s.siblingBefore p rcb a a4).2 :=
  (State.HomeKept.siblingBefore ..).canonical h

theorem canonical_unlinkRegion (h : Canonical s) (rcb r) : Canonical (s.unlinkRegion rcb r) := by
  grind [State.unlinkRegion, canonical_iff, ! . canonical_homeReadBytes, canonical_homeWriteBytes, ! . canonical_siblingBefore, canonical_modRegion]

theorem outCanonical_execRrelease (h : Canonical s) (x) : OutCanonical (execRrelease x s) := by
  grind [execRrelease, outCanonical_regionCommand, canonical_endCmd, canonical_unlinkRegion, canonical_later1]

theorem outCanonical_execRprio (h : Canonical s) (x) : OutCanonical (execRprio x s) := by
  grind [execRprio, canonical_modCore, outCanonical_regionCommand, canonical_endCmd, canonical_modRegion, canonical_core, canonical_foldl]

theorem outCanonical_execPostset (h : Canonical s) (x) : OutCanonical (execPostset x s) := by
  grind [execPostset, canonical_copyPosts, outCanonical_regionCommand, canonical_endCmd, ! . canonical_postTable]

theorem outCanonical_execDrover (h : Canonical s) (x) : OutCanonical (execDrover x s) := by
  grind [execDrover, canonical_endCmd, ! . canonical_homeReadBytes, canonical_droverMasks, outCanonical_asCommand, canonical_homeWriteBytes,
    ! . canonical_stages, canonical_modPart]

theorem outCanonical_execQcreate (h : Canonical s) (x) : OutCanonical (execQcreate x s) := by
  grind [execQcreate, canonical_createQueue, canonical_endCmd, outCanonical_asCommand]

theorem outCanonical_execQdestroy (h : Canonical s) (x) : OutCanonical (execQdestroy x s) := by
  grind [execQdestroy, canonical_setQueue, canonical_endCmd, canonical_checkDrained, outCanonical_asCommand, canonical_startDrain]

theorem outCanonical_execMapq (h : Canonical s) (x) : OutCanonical (execMapq x s) := by
  grind [execMapq, canonical_endCmd, outCanonical_asCommand, canonical_fnWrite]

theorem outCanonical_execDirdump (h : Canonical s) (x) : OutCanonical (execDirdump x s) := by
  grind [execDirdump, canonical_endCmd, outCanonical_asCommand, canonical_fnWrite]

/-! ### Requests for threads -/

theorem canonical_rightsFrom (h : Canonical s) (w t tid inTree n va acc) : Canonical (State.rightsFrom w t tid inTree n va acc s).state := by
  induction n generalizing s va acc with
  | zero => exact h
  | succ n ih =>
    have ht := canonical_translateRun h w.core w.region va 256 .load 3
    unfold State.rightsFrom
    split <;> rename_i heq <;> rw [heq] at ht
    · exact ht
    · refine canonical_gotBind (canonical_readFor ht ..) _ fun bs s h => ?_
      split
      · exact ih h _ _
      · exact h

theorem canonical_sendRequest (h : Canonical s) (t d succ core tid req after) : Canonical (s.sendRequest t d succ core tid req after) := by
  grind [State.sendRequest, canonical_push, canonical_setCur]

theorem canonical_tryRequest (h : Canonical s) (c k t o d succ core tid req) : Canonical (s.tryRequest c k t o d succ core tid req) := by
  grind [State.tryRequest, canonical_modThread, canonical_push]

theorem outCanonical_issueRequest (h : Canonical s) (g d succ a req) : OutCanonical (issueRequest g d succ a req s) := by
  refine outCanonical_guarded h _ _ fun t => ?_
  have hr := canonical_rightsFrom h (s.who s.cur.core s.cur.slot t) t ((t.rg a).extractLsb' 0 32)
  dsimp only
  split <;> rename_i heq <;> replace hr := heq ▸ hr ..
  · exact outCanonical_wait hr
  · split
    · exact canonical_push (canonical_unissue hr) _
    · exact canonical_modCur (canonical_report hr ..) _
  · (repeat' split)
    · exact canonical_modCur hr _
    · exact canonical_modCur hr _
    · exact canonical_sendRequest hr ..
    · exact canonical_modCur hr _

theorem outCanonical_execThnew (h : Canonical s) (x) : OutCanonical (execThnew x s) := by
  grind [execThnew, OutCanonical, outCanonical_guarded, canonical_sendRequest, canonical_setCur]

theorem canonical_reply (h : Canonical s) (src v ok) : Canonical (s.reply src v ok) := by
  grind [State.reply, canonical_modThread, canonical_finishOp, canonical_withOp]

theorem canonical_stopSpilled (h : Canonical s) (core slot gen t detail) : Canonical (s.stopSpilled core slot gen t detail) :=
  (State.StopKept.stopSpilled ..).canonical h

theorem canonical_thRead (h : Canonical s) (c t x off) : Canonical (s.thRead c t x off).2 := by
  grind [State.thRead, ! . canonical_devRead]

theorem canonical_thWrite (h : Canonical s) (c : Nat) (t : Thread) (x : StopInfo) (off : Nat) (v : Word) (area : Nat → Bool) (ctx : Option Nat)
    (set : Thread → State → State) (hf : ∀ t, Canonical (set t s)) : Canonical (s.thWrite c t x off v area ctx set).2 := by
  unfold State.thWrite
  split
  · (repeat' split)
    · exact h
    · exact canonical_memPut (hf _) ..
    · exact hf _
  · split
    · exact h
    · exact canonical_devWrite h ..

theorem canonical_unstop (h : Canonical s) (core slot gen t) : Canonical (s.unstop core slot gen t) := by
  grind [State.unstop, canonical_modSpilled, canonical_push, ! . canonical_replayOps]

theorem canonical_killSpilled (h : Canonical s) (core slot gen t) : Canonical (s.killSpilled core slot gen t) :=
  (State.StopKept.killSpilled ..).canonical h

theorem canonical_applyRequest (h : Canonical s) (x req) : Canonical (s.applyRequest x req).2.2 := by
  unfold State.applyRequest
  (repeat' split) <;> grind [canonical_modSpilled, ! . canonical_thRead, canonical_resume, canonical_killSpilled, canonical_stopThread,
    canonical_kill, canonical_unstop, canonical_thWrite, → canonical_seat, canonical_stopSpilled, canonical_setThread]

theorem canonical_create (h : Canonical s) (core region pc g1 start) : Canonical (s.create core region pc g1 start).2 := by
  grind [State.create, canonical_saveContext, canonical_modThread, canonical_place, canonical_syncRegion, → canonical_makeRoom,
    canonical_startThread, canonical_modRegion]

theorem outCanonical_execThreadStateRequest (h : Canonical s) (x) : OutCanonical (execThreadStateRequest x s) := by
  grind [execThreadStateRequest, OutCanonical, canonical_reply, canonical_later1, ! . canonical_create, ! . canonical_applyRequest]

end Sys2Proof.Machine
end

/-! ## Proofs/O53: The canonical form under switches, the link and control -/

section
namespace Sys2Proof.Machine

open Sys2Proof.Claims

variable {s : State}

/-! ### Switches -/

theorem canonical_withdraw (h : Canonical s) (c k) : Canonical (s.withdraw c k).2 := (State.StopKept.withdraw ..).canonical h

theorem canonical_switchOut (h : Canonical s) (c k detail vacate) : Canonical (s.switchOut c k detail vacate) :=
  (State.StopKept.switchOut ..).canonical h

theorem canonical_cutSends (h : Canonical s) (frame c k) : Canonical (s.cutSends frame c k) := (State.StopKept.cutSends ..).canonical h

theorem canonical_switchMask (h : Canonical s) (region w on) : Canonical (s.switchMask region w on) := (State.StopKept.switchMask ..).canonical h

theorem canonical_modSwitch (h : Canonical s) (region f) : Canonical (s.modSwitch region f) := canonical_modRegion h ..

theorem canonical_stopAll (h : Canonical s) (region w acts) : Canonical (s.stopAll region w acts) := (State.StopKept.stopAll ..).canonical h

theorem canonical_startSwitch (h : Canonical s) (region w) : Canonical (s.startSwitch region w) := by
  grind [State.startSwitch, canonical_switchMask, canonical_timer, canonical_stopAll, canonical_modRegion]

theorem outCanonical_execSwitchDeadline (h : Canonical s) (x) : OutCanonical (execSwitchDeadline x s) := by
  grind [execSwitchDeadline, OutCanonical, canonical_stopAll, canonical_modSwitch, canonical_cutSends, canonical_foldl]

theorem canonical_unqueue (h : Canonical s) (at_ l) : Canonical (s.unqueue at_ l) := by
  grind [State.unqueue, canonical_modCore, canonical_core]

theorem canonical_movePoison (h : Canonical s) (c a o n) : Canonical (s.movePoison c a o n) := by
  grind [State.movePoison, canonical_setPoison, canonical_foldl]

theorem canonical_backPoison (h : Canonical s) (c a o n) : Canonical (s.backPoison c a o n) := by
  grind [State.backPoison, canonical_modCore, canonical_core]

theorem canonical_saveArea (h : Canonical s) (region r w lcn orig msgs) : Canonical (s.saveArea region r w lcn orig msgs) := by
  grind [State.saveArea, ! . canonical_chclose, canonical_movePoison, canonical_homeWriteBytes, canonical_modSwitch, canonical_unqueue,
    canonical_foldl]

theorem canonical_readMsgs (h : Canonical s) (p a l) : Canonical (s.readMsgs p a l).2 := by
  grind [State.readMsgs, ! . canonical_homeReadBytes, ! . canonical_foldl_snd]

theorem canonical_loadArea (h : Canonical s) (region r w sva lcn orig) : Canonical (s.loadArea region r w sva lcn orig) := by
  grind [State.loadArea, canonical_setChan, canonical_modCore, ! . canonical_homeReadBytes, ! . canonical_readMsgs, canonical_backPoison,
    canonical_spWrite, canonical_core, canonical_foldl]

theorem canonical_cleanL (h : Canonical s) (c sec) : Canonical (s.cleanL c sec) := by
  grind [State.cleanL, canonical_setL1, canonical_homeBytes]

theorem canonical_cleanL1 (h : Canonical s) (c) : Canonical (s.cleanL1 c) := by
  grind [State.cleanL1, canonical_giveUp, canonical_cleanL, canonical_foldl]

theorem canonical_endFor (h : Canonical s) (cmd status) : Canonical (s.endFor cmd status) := by
  unfold State.endFor
  (repeat' split) <;> grind [canonical_finishCmd]

theorem canonical_displace (h : Canonical s) (c k) : Canonical (s.displace c k) := by
  grind [State.displace, canonical_modCore, canonical_delThread, canonical_modPart, canonical_core]

theorem canonical_newRsbase (h : Canonical s) (c) : Canonical (s.newRsbase c).2 := canonical_freeWord h ..

theorem canonical_finishStop (h : Canonical s) (region r w) : Canonical (s.finishStop region r w) := by
  grind [State.finishStop, canonical_saveContext, canonical_modCore, canonical_displace, canonical_modSwitch, ! . canonical_newRsbase,
    canonical_saveArea, canonical_cleanL1, canonical_endFor, canonical_core, canonical_foldl]

theorem canonical_moveThread (h : Canonical s) (c k d j guest) : Canonical (s.moveThread c k d j guest) := by
  grind [State.moveThread, canonical_saveViews, canonical_delThread, canonical_setThread, canonical_modPart]

theorem canonical_roomAt (h : Canonical s) (c) : ∀ x, s.roomAt c = some x → Canonical x.2 := by
  intro x hx
  have hspill (c k s') (hs : s.spill c k = some s') : Canonical s' := (optCanonical_spill h c k).of_eq hs
  unfold State.roomAt at hx
  (repeat' split at hx) <;> grind [Option.bind_eq_some_iff, Option.map_eq_some_iff]

theorem optCanonical_rehome (h : Canonical s) (cut m l) : OptCanonical (s.rehome cut m l) := by
  induction l generalizing s with
  | nil => exact h
  | cons e l ih =>
    unfold State.rehome
    (repeat' split)
    · exact ih h
    · trivial
    · exact .bind fun e he => ih (canonical_moveThread (canonical_roomAt h _ e he) ..)
    · exact ih h

theorem canonical_vacateAway (h : Canonical s) (ks) : Canonical (s.vacateAway ks) := by
  grind [State.vacateAway, canonical_saveViews, canonical_inSpilled, canonical_foldl]

theorem canonical_moveTable (h : Canonical s) (k h1) : Canonical (s.moveTable k h1) := by
  grind [State.moveTable, canonical_vacateRes, canonical_modCluster, canonical_foldl]

theorem canonical_returnTable (h : Canonical s) (k h1) : Canonical (s.returnTable k h1) := by
  grind [State.returnTable, canonical_vacateRes, canonical_modCluster, canonical_foldl]

theorem canonical_moveMsgs (h : Canonical s) (region c h1 dest) : Canonical (s.moveMsgs region c h1 dest) := by
  grind [State.moveMsgs, canonical_modCore, canonical_enterInbox, canonical_unqueue, canonical_core, canonical_foldl, canonical_push,
    canonical_setThread]

theorem canonical_restart (h : Canonical s) (region tids) : Canonical (s.restart region tids) := by
  grind [State.restart, canonical_resume, canonical_unstop, canonical_foldl]

theorem optCanonical_finishSpatial (h : Canonical s) (g r w) : OptCanonical (s.finishSpatial g r w) := by
  unfold State.finishSpatial
  extract_lets
  split
  · trivial
  · refine .map fun s' hs => ?_
    replace h := (optCanonical_rehome h _ _ _).of_eq hs
    extract_lets s1 s2 _ s3 s4
    have h1 : Canonical s1 := canonical_vacateAway h _
    have h2 : Canonical s2 := canonical_foldl _ _ h1 fun _ h _ => canonical_moveTable h ..
    have h3 : Canonical s3 := canonical_foldl _ _ h2 fun _ h _ => canonical_dropL1 (canonical_saveArea h ..) ..
    have h4 : Canonical s4 := canonical_foldl _ _ h3 fun _ h _ => canonical_moveMsgs h ..
    exact canonical_endFor (canonical_restart (canonical_modRegion (canonical_modRegion h4 ..) ..) ..) ..

theorem canonical_stopGuests (h : Canonical s) (region w) : Canonical (s.stopGuests region w) := by
  grind [State.stopGuests, canonical_dropCons, canonical_switchOut, canonical_modSwitch, canonical_foldl]

theorem optCanonical_seatAll (h : Canonical s) (l) : OptCanonical (s.seatAll l) := by
  induction l generalizing s with
  | nil => exact h
  | cons e l ih => exact .bind fun x hx => ih (canonical_seat h _ _ _ x hx)

theorem optCanonical_sendBack (h : Canonical s) (l) : OptCanonical (s.sendBack l) := by
  induction l generalizing s with
  | nil => exact h
  | cons c l ih =>
    unfold State.sendBack
    grind [canonical_moveThread, OptCanonical]

theorem optCanonical_finishRestore (h : Canonical s) (g r w) : OptCanonical (s.finishRestore g r w) := by
  unfold State.finishRestore
  refine .map fun s' hs => ?_
  replace h := (optCanonical_seatAll h _).of_eq hs
  extract_lets s1 s2 s3
  have h1 : Canonical s1 := canonical_foldl _ _ h fun _ h _ => canonical_modCore h _ _ (h.2 _)
  have h2 : Canonical s2 := canonical_foldl _ _ h1 fun _ h _ => canonical_loadArea h ..
  have h3 : Canonical s3 := by grind [canonical_switchMask]
  exact canonical_endFor (canonical_restart (canonical_modRegion h3 ..) ..) ..

theorem optCanonical_finishReturn (h : Canonical s) (g r w) : OptCanonical (s.finishReturn g r w) := by
  unfold State.finishReturn
  split
  · trivial
  · refine .map fun s' hs => ?_
    replace h := (optCanonical_sendBack h _).of_eq hs
    extract_lets s1 s2 s3 r' s4 s5
    have h1 : Canonical s1 := canonical_foldl _ _ h fun _ h _ => canonical_returnTable h ..
    have h2 : Canonical s2 := canonical_foldl _ _ h1 fun _ h _ => canonical_moveMsgs h ..
    have h3 : Canonical s3 := canonical_modRegion h2 ..
    have h4 : Canonical s4 := canonical_foldl _ _ h3 fun _ h _ => canonical_loadArea h ..
    have h5 : Canonical s5 := by grind [canonical_switchMask]
    exact canonical_endFor (canonical_restart (canonical_modRegion h5 ..) ..) ..

theorem optCanonical_leaveLate (h : Canonical s) (g w) : OptCanonical (s.leaveLate g w) := by
  unfold State.leaveLate
  split
  · trivial
  · exact .map fun _ _ => canonical_displace h ..

theorem optCanonical_switchStep (h : Canonical s) (region r w) : OptCanonical (s.switchStep region r w) := by
  grind [State.switchStep, OptCanonical, ! . optCanonical_leaveLate, canonical_stopGuests, canonical_finishStop, ! . optCanonical_finishReturn,
    ! . optCanonical_finishRestore, canonical_modSwitch, ! . optCanonical_finishSpatial]

theorem outCanonical_preemptWith (h : Canonical s) (x : EvCmd) (f : Nat → Region → Nat → Nat → State → State) (hf : ∀ rcb r a b,
  Canonical (f rcb r a b s)) :
    OutCanonical (preemptWith x s f) := by
  refine outCanonical_regionCommand h _ _ _ fun rcb r => ?_
  dsimp only
  (repeat' split)
  · exact canonical_endCmd h ..
  · exact canonical_endCmd h ..
  · exact hf ..

theorem outCanonical_execPreemptSwitch (h : Canonical s) (x) : OutCanonical (execPreemptSwitch x s) := by
  grind [execPreemptSwitch, canonical_startSwitch, outCanonical_preemptWith]

theorem outCanonical_execPreemptSpatial (h : Canonical s) (x) : OutCanonical (execPreemptSpatial x s) := by
  grind [execPreemptSpatial, ! . canonical_fnRead, canonical_endCmd, canonical_startSwitch, outCanonical_preemptWith]

theorem outCanonical_execRestore (h : Canonical s) (x) : OutCanonical (execRestore x s) := by
  grind [execRestore, outCanonical_regionCommand, canonical_endCmd, canonical_later1, canonical_modSwitch, canonical_modRegion]

theorem canonical_freeArea (h : Canonical s) (p) : Canonical (s.freeArea p).2 := canonical_freeWord h ..

theorem outCanonical_execCoreRemoval (h : Canonical s) (x) : OutCanonical (execCoreRemoval x s) := by
  grind [execCoreRemoval, OutCanonical, ! . canonical_freeArea, canonical_startSwitch, canonical_later1, canonical_foldl]

theorem canonical_migrate (h : Canonical s) (old new) : Canonical (s.migrate old new) := by
  grind [State.migrate, canonical_push, canonical_sendMsg, canonical_foldl]

theorem canonical_freeze (h : Canonical s) (p) : Canonical (s.freeze p) := by
  grind [State.freeze, canonical_modThread, canonical_stopThread, ! . canonical_withdraw, canonical_stopSpilled, canonical_modPart, canonical_foldl]

theorem canonical_freezeL1 (h : Canonical s) (c) : Canonical (s.freezeL1 c) := by
  grind [State.freezeL1, canonical_evict, canonical_cleanL, canonical_foldl]

theorem canonical_finishResize (h : Canonical s) (p z) : Canonical (s.finishResize p z) := by
  grind [State.finishResize, canonical_freezeL1, canonical_restart, canonical_migrate, canonical_modPart, canonical_endFor, canonical_foldl]

theorem outCanonical_execResize (h : Canonical s) (x) : OutCanonical (execResize x s) := by
  grind [execResize, ! . canonical_freeArea, canonical_endCmd, canonical_startSwitch, outCanonical_asCommand, canonical_later1, canonical_modPart,
    canonical_foldl]

theorem optCanonical_resizeStep (h : Canonical s) (p q) : OptCanonical (s.resizeStep p q) := by
  grind [State.resizeStep, OptCanonical, canonical_freeze, canonical_finishResize]

theorem canonical_dropKept (h : Canonical s) (region) : Canonical (s.dropKept region) := by
  grind [State.dropKept, canonical_dropCons, canonical_foldl]

theorem outCanonical_execQuantumExpiry (h : Canonical s) (x) : OutCanonical (execQuantumExpiry x s) := by
  grind [execQuantumExpiry, OutCanonical, ! . canonical_freeArea, canonical_startSwitch, canonical_modSwitch, canonical_modPart,
    canonical_dropKept, canonical_foldl]

theorem canonical_trimTo (h : Canonical s) (k side share l) : Canonical (s.trimTo k side share l) := by
  induction l generalizing s with
  | nil => exact h
  | cons c l ih =>
    unfold State.trimTo
    grind [canonical_vacateRes]

theorem canonical_worldFlush (h : Canonical s) (p w) : Canonical (s.worldFlush p w) := by
  grind [State.worldFlush, canonical_dropL1, canonical_modPart, canonical_foldl]

theorem canonical_worldSwitch (h : Canonical s) (p w) : Canonical (s.worldSwitch p w) := by
  grind [State.worldSwitch, canonical_trimTo, canonical_replaceLine, canonical_modCore, canonical_modSwitch, canonical_modPart, Memory.wf_nil,
    canonical_foldl]

theorem optCanonical_worldStep (h : Canonical s) (p q) : OptCanonical (s.worldStep p q) := by
  grind [State.worldStep, OptCanonical, canonical_worldFlush, canonical_modPart, canonical_worldSwitch]

theorem canonical_resetFn (h : Canonical s) (f) : Canonical (s.resetFn f) := by
  unfold State.resetFn
  extract_lets l s1 s2 s3 away s4 mine
  have h1 : Canonical s1 := canonical_modFn h ..
  have h2 : Canonical s2 := canonical_mapCores h1 _ (fun _ => rfl) fun _ => rfl
  have h3 : Canonical s3 := canonical_foldl _ _ h2 fun _ h _ => canonical_killSlot h ..
  exact canonical_push (canonical_foldl _ _ h3 fun _ h _ => canonical_killSpilled h ..) _

theorem outCanonical_execFunctionLevelReset (h : Canonical s) (x) : OutCanonical (execFunctionLevelReset x s) := by
  grind [execFunctionLevelReset, OutCanonical, canonical_resetFn, canonical_modFn, canonical_foldl]

theorem canonical_discardQueued (h : Canonical s) (l) : Canonical (s.discardQueued l) := canonical_mapCores h _ (fun _ => rfl) fun _ => rfl

theorem optCanonical_resetStep (h : Canonical s) (f y) : OptCanonical (s.resetStep f y) := by
  unfold State.resetStep
  extract_lets l s1 s2
  have h1 : Canonical s1 := canonical_foldl _ _ (canonical_discardQueued h _) fun _ h _ => canonical_revokeRegion h ..
  have h2 : Canonical s2 := canonical_mapCores h1 _ (fun _ => rfl) fun _ => rfl
  (repeat' split)
  · trivial
  · exact canonical_modFn (canonical_resetFn h _) ..
  · trivial
  · exact canonical_modFn h2 ..

theorem outCanonical_execEngineConfigurationWrite (h : Canonical s) (x) : OutCanonical (execEngineConfigurationWrite x s) := by
  grind [execEngineConfigurationWrite, OutCanonical, canonical_revokeRes, canonical_saveViews, canonical_modCluster, canonical_vacateAway,
    canonical_later1, canonical_foldl]

/-! ### The caravan link -/

theorem canonical_linkRead (h : Canonical s) (p a n) : Canonical (State.linkRead p a n s).state := by
  grind [State.linkRead, Got.state, canonical_gotAll, ! . canonical_memGet, ! . canonical_pathSec, canonical_gotBind]

theorem canonical_linkPut (h : Canonical s) (p a bs) : Canonical (State.linkPut p a bs s).state := by
  grind [State.linkPut, Got.state, canonical_memPut, canonical_gotAll, canonical_homeWriteBytes, ! . canonical_pathSec, canonical_gotBind]

theorem canonical_linkCtx (h : Canonical s) (p e) : Canonical (s.linkCtx p e).2 := (State.HomeKept.linkCtx ..).canonical h

theorem canonical_putCtx (h : Canonical s) (p e off v) : Canonical (s.putCtx p e off v) := (State.HomeKept.putCtx ..).canonical h

theorem canonical_readDesc (h : Canonical s) (p x i) : Canonical (s.readDesc p x i).2 := canonical_homeReadBytes h ..

theorem canonical_linkComplete (h : Canonical s) (p e i d status old) : Canonical (s.linkComplete p e i d status old) :=
  (State.HomeKept.linkComplete ..).canonical h

theorem canonical_consumeDesc (h : Canonical s) (x) : Canonical (s.consumeDesc x) := canonical_putCtx h ..

theorem outCanonical_execSqprod (h : Canonical s) (x) : OutCanonical (execSqprod x s) := by
  grind [execSqprod, OutCanonical, ! . canonical_linkCtx, ! . canonical_readDesc, canonical_consumeDesc, canonical_linkComplete, canonical_push]

theorem canonical_sendPkt (h : Canonical s) (p e i tmod tep roff op laddr) : Canonical (s.sendPkt p e i tmod tep roff op laddr) := by
  grind [State.sendPkt, canonical_modPort, canonical_push]

theorem canonical_openReq (h : Canonical s) (x d pkts) : Canonical (s.openReq x d pkts) := by
  grind [State.openReq, canonical_iff, canonical_sendPkt, canonical_foldl]

theorem outCanonical_issueDesc (h : Canonical s) (x : EvDesc) (op : Nat) (f : V512 → Part → State → Except Nat (Got (List (Nat × LinkOp × Nat))))
    (hf : ∀ d q s, Canonical s → PartCanonical (f d q s)) : OutCanonical (issueDesc x op s f) := by
  have hl := canonical_linkCtx h x.part x.ep
  unfold issueDesc
  split
  next q y s1 hq he =>
    replace hl : Canonical s1 := by rw [he] at hl; exact hl
    refine .ite (.next hl) ?_
    have hd := canonical_readDesc hl x.part y x.idx
    revert hd
    rcases s1.readDesc x.part y x.idx with ⟨d, s2⟩
    intro hd
    refine .ite (.next hd) (.ite (.next (canonical_linkComplete (canonical_consumeDesc hd _) ..)) ?_)
    have hp := hf d q s2 hd
    split <;> rename_i heq <;> replace hp := heq ▸ hp
    · exact canonical_linkComplete (canonical_consumeDesc hd _) ..
    · exact canonical_consumeDesc (canonical_openReq hp ..) _
    · exact canonical_later1 hp _
    · exact canonical_linkComplete (canonical_consumeDesc (canonical_report hp ..) _) ..
  next heq _ =>
    rw [heq] at hl
    exact .next hl

theorem outCanonical_execPut (h : Canonical s) (x) : OutCanonical (execPut x s) :=
  outCanonical_issueDesc h _ _ _ fun d q s h => by
    dsimp only
    split
    · trivial
    · exact canonical_gotBind (canonical_linkRead h ..) _ fun _ _ h => h

theorem outCanonical_execGet (h : Canonical s) (x) : OutCanonical (execGet x s) :=
  outCanonical_issueDesc h _ _ _ fun d q s h => by
    dsimp only
    split
    · trivial
    · exact h

theorem outCanonical_issueAtomic (h : Canonical s) (x op f) : OutCanonical (issueAtomic x op s f) :=
  outCanonical_issueDesc h _ _ _ fun _ _ _ h => h

theorem outCanonical_execAadd (h : Canonical s) (x) : OutCanonical (execAadd x s) := outCanonical_issueAtomic h ..

theorem outCanonical_execAcas (h : Canonical s) (x) : OutCanonical (execAcas x s) := outCanonical_issueAtomic h ..

theorem outCanonical_execAswp (h : Canonical s) (x) : OutCanonical (execAswp x s) := outCanonical_issueAtomic h ..

theorem canonical_linkAnswer (h : Canonical s) (x a) : Canonical (s.linkAnswer x a) := by
  grind [State.linkAnswer, canonical_modPort, canonical_push]

theorem canonical_linkApply (h : Canonical s) (x n a) : Canonical (s.linkApply x n a) := by
  unfold State.linkApply
  (repeat' split) <;> grind [Got.state, canonical_modPort, ! . canonical_linkRead, canonical_report, ! . canonical_linkPut, canonical_later1,
    canonical_linkAnswer]

theorem canonical_modPkt (h : Canonical s) (n req f) : Canonical (s.modPkt n req f) := canonical_modPort h ..

theorem canonical_modColl (h : Canonical s) (c f) : Canonical (s.modColl c f) := h

theorem canonical_endReq (h : Canonical s) (r status old) : Canonical (s.endReq r status old) := by
  grind [State.endReq, canonical_iff, canonical_linkComplete, canonical_push]

theorem canonical_collEnd (h : Canonical s) (r) : Canonical (s.collEnd r) := by
  grind [State.collEnd, canonical_endReq]

theorem canonical_sendColl (h : Canonical s) (c r no bs op) : Canonical (s.sendColl c r no bs op) := by
  grind [State.sendColl, canonical_sendPkt, canonical_foldl]

theorem canonical_collResult (h : Canonical s) (c bs) : Canonical (s.collResult c bs) := by
  grind [State.collResult, canonical_iff, canonical_sendColl, canonical_memPut, ! . canonical_linkCtx, canonical_homeWriteBytes, canonical_collEnd,
    canonical_foldl]

theorem canonical_collStep (h : Canonical s) (c) : Canonical (s.collStep c) := by
  grind [State.collStep, canonical_sendColl, canonical_modColl, canonical_collResult]

theorem outCanonical_execAllred (h : Canonical s) (x) : OutCanonical (execAllred x s) := by
  unfold execAllred
  extract_lets r
  have hr : OutCanonical r := by
    refine outCanonical_issueDesc h _ _ _ fun d q s h => ?_
    have hl := canonical_linkCtx h x.part (descF d 32 16)
    dsimp only
    (repeat' split)
    · trivial
    · trivial
    · trivial
    · exact canonical_gotBind (canonical_linkRead hl ..) _ fun _ _ h => h
    · trivial
    · trivial
  clear_value r
  cases r with
  | next s =>
    have hs : Canonical s := hr
    exact canonical_foldl _ _ hs fun _ h _ => canonical_collStep h _
  | fault => trivial
  | refused => trivial

theorem canonical_collPacket (h : Canonical s) (n x) : Canonical (s.collPacket n x) := by
  grind [State.collPacket, canonical_modPort, canonical_collStep, canonical_modColl, canonical_collResult, canonical_later1, canonical_linkAnswer]

theorem canonical_abortPeers (h : Canonical s) (c n) : Canonical (s.abortPeers c n) := canonical_modPort h ..

theorem outCanonical_execCollectiveAbort (h : Canonical s) (x) : OutCanonical (execCollectiveAbort x s) := by
  grind [execCollectiveAbort, OutCanonical, canonical_iff, canonical_endReq, canonical_later1, canonical_abortPeers, canonical_optionElim]

theorem outCanonical_execLinkRequestArrival (h : Canonical s) (x) : OutCanonical (execLinkRequestArrival x s) := by
  grind [execLinkRequestArrival, OutCanonical, canonical_modPort, ! . canonical_linkCtx, canonical_linkApply, canonical_later1,
    canonical_collPacket, canonical_push, canonical_linkAnswer]

theorem outCanonical_execEndpointContextFill (h : Canonical s) (x) : OutCanonical (execEndpointContextFill x s) := by
  grind [execEndpointContextFill, OutCanonical, canonical_modPort, canonical_choose, canonical_push]

theorem outCanonical_execLinkAcknowledgement (h : Canonical s) (x) : OutCanonical (execLinkAcknowledgement x s) := by
  unfold execLinkAcknowledgement
  (repeat' split) <;> grind [OutCanonical, Got.state, canonical_modPkt, ! . canonical_linkPut, canonical_later1, canonical_push]

theorem canonical_dropPkts (h : Canonical s) (n r) : Canonical (s.dropPkts n r) := canonical_modPort h ..

theorem outCanonical_execLinkRetry (h : Canonical s) (x) : OutCanonical (execLinkRetry x s) := by
  grind [execLinkRetry, OutCanonical, canonical_iff, canonical_modPort, canonical_dropPkts, canonical_modPkt, canonical_endReq, canonical_push]

theorem outCanonical_execLinkRetire (h : Canonical s) (x) : OutCanonical (execLinkRetire x s) := by
  grind [execLinkRetire, OutCanonical, canonical_iff, canonical_modPort, canonical_endReq, canonical_collEnd]

/-! ### Scrubs, alarms and reset -/

theorem canonical_lostThread (h : Canonical s) (c t kind) : Canonical (s.lostThread c t kind) := canonical_appendRec h ..

theorem canonical_poisonSlot (h : Canonical s) (c k) : Canonical (s.poisonSlot c k) := by
  grind [State.poisonSlot, canonical_kill, canonical_lostThread, canonical_report]

theorem canonical_poisonRegisters (h : Canonical s) (pa) : Canonical (s.poisonRegisters pa) := by
  grind [State.poisonRegisters, canonical_poisonSlot]

theorem canonical_poisonMem (h : Canonical s) (sec kind) : Canonical (s.poisonMem sec kind) := by
  grind [State.poisonMem, canonical_setPoison, canonical_poisonRegisters]

theorem canonical_scrubPoison (h : Canonical s) (sec) : Canonical (s.scrubPoison sec) := by
  grind [State.scrubPoison, canonical_poisonMem, canonical_report]

theorem outCanonical_execScrub (h : Canonical s) (x) : OutCanonical (execScrub x s) := by
  grind [execScrub, OutCanonical, canonical_scrubPoison, canonical_corr, canonical_optionElim, canonical_push, canonical_setThread]

theorem canonical_recovered (h : Canonical s) (p) : Canonical (s.recovered p) := canonical_report h ..

theorem canonical_brokenChain (h : Canonical s) (p line readable) : Canonical (s.brokenChain p line readable) := by
  grind [State.brokenChain, canonical_modEntry, canonical_sendWakes]

theorem canonical_corrected (h : Canonical s) (x) : Canonical (s.corrected x) := by
  grind [State.corrected, canonical_corr, canonical_optionElim]

theorem canonical_poisonAt (h : Canonical s) (x) : Canonical (s.poisonAt x).2 := by
  unfold State.poisonAt
  (repeat' split) <;> grind [canonical_poisonMem, canonical_setPoison, canonical_modCore, canonical_corrected, canonical_setL1, canonical_core]

theorem outCanonical_execUncorrectableData (h : Canonical s) (x) : OutCanonical (execUncorrectableData x s) := by
  unfold execUncorrectableData
  (repeat' split) <;> grind [OutCanonical, canonical_poisonSlot, canonical_killSpilled, canonical_lostThread, canonical_corrected,
    canonical_report, canonical_modLading, canonical_physReport, canonical_recovered, ! . canonical_poisonAt, canonical_withOp,
    canonical_poisonedOp, canonical_push, canonical_brokenChain, canonical_modCons]

theorem outCanonical_execMarginReplan (h : Canonical s) (x) : OutCanonical (execMarginReplan x s) := by
  grind [execMarginReplan, OutCanonical, canonical_modCluster]

theorem canonical_raise (h : Canonical s) (level) : Canonical (s.raise level) := canonical_physReport h ..

theorem canonical_lockDown (h : Canonical s) : Canonical s.lockDown := h

theorem outCanonical_execCustomsAlarm (h : Canonical s) (x) : OutCanonical (execCustomsAlarm x s) := by
  grind [execCustomsAlarm, OutCanonical, canonical_iff, canonical_modPort, canonical_retariff, canonical_raise, canonical_lockDown]

theorem outCanonical_execLevel2Clear (h : Canonical s) (x) : OutCanonical (execLevel2Clear x s) := by
  grind [execLevel2Clear, OutCanonical, canonical_iff, canonical_retariff, canonical_push]

theorem outCanonical_execFlitCrcFailure (h : Canonical s) (x) : OutCanonical (execFlitCrcFailure x s) := by
  grind [execFlitCrcFailure, OutCanonical, canonical_modPort, canonical_push]

theorem outCanonical_execColdReset (h : Canonical s) (x) : OutCanonical (execColdReset x s) := ⟨Memory.wf_filter _ _ h.1, State.reset_sp_wf⟩

theorem outCanonical_execGetMeasurements (h : Canonical s) (x) : OutCanonical (execGetMeasurements x s) := by
  grind [execGetMeasurements, OutCanonical, canonical_iff]

/-! ### Control flow -/

theorem outCanonical_execBr (h : Canonical s) (x) : OutCanonical (execBr x s) := by
  grind [execBr, OutCanonical, outCanonical_guarded, ! . outCanonical_transferTo]

theorem outCanonical_execJmp (h : Canonical s) (x) : OutCanonical (execJmp x s) := by
  grind [execJmp, outCanonical_guarded, ! . outCanonical_transferTo]

theorem outCanonical_execJmpi (h : Canonical s) (x) : OutCanonical (execJmpi x s) := by
  grind [execJmpi, outCanonical_guarded, ! . outCanonical_transferTo]

theorem outCanonical_linkTo (h : Canonical s) (pc d) : OutCanonical (linkTo s pc d) := outCanonical_transferLink h ..

theorem outCanonical_execCall (h : Canonical s) (x) : OutCanonical (execCall x s) := by
  grind [execCall, ! . outCanonical_linkTo, outCanonical_guarded]

theorem outCanonical_execCalli (h : Canonical s) (x) : OutCanonical (execCalli x s) := by
  grind [execCalli, ! . outCanonical_linkTo, outCanonical_guarded]

theorem outCanonical_execRet (h : Canonical s) (x) : OutCanonical (execRet x s) := by
  grind [execRet, outCanonical_guarded, ! . outCanonical_transferTo]

theorem outCanonical_execLoop (h : Canonical s) (x) : OutCanonical (execLoop x s) := by
  grind [execLoop, OutCanonical, outCanonical_guarded, ! . outCanonical_transferTo, canonical_setCur]

theorem outCanonical_execNop (h : Canonical s) (x) : OutCanonical (execNop x s) := by
  grind [execNop, OutCanonical, outCanonical_guarded]

theorem outCanonical_pred2 (h : Canonical s) (f x) : OutCanonical (pred2 f x s) := outCanonical_setP h ..

theorem outCanonical_execQput (h : Canonical s) (x) : OutCanonical (execQput x s) := by
  grind [execQput, OutCanonical, ! . outCanonical_wait, outCanonical_guarded, canonical_setCur]

theorem outCanonical_execQget (h : Canonical s) (x) : OutCanonical (execQget x s) := by
  grind [execQget, OutCanonical, ! . outCanonical_wait, outCanonical_guarded, canonical_setCur]

theorem outCanonical_execQpeek (h : Canonical s) (x) : OutCanonical (execQpeek x s) := by
  grind [execQpeek, OutCanonical, ! . outCanonical_wait, outCanonical_guarded, canonical_setCur]

theorem outCanonical_repTrap (h : Canonical s) (sub) : OutCanonical (repTrap s sub) := outCanonical_trapAt h ..

theorem outCanonical_execRepb (h : Canonical s) (x) : OutCanonical (execRepb x s) := by
  grind [execRepb, OutCanonical, ! . canonical_translateR, ! . outCanonical_wait, ! . outCanonical_trapAcc, canonical_modCur, outCanonical_guarded,
    ! . outCanonical_repTrap]

theorem outCanonical_execRepe (h : Canonical s) (x) : OutCanonical (execRepe x s) := by
  grind [execRepe, OutCanonical, outCanonical_withT, ! . outCanonical_repTrap, canonical_setCur]

theorem outCanonical_execReprun (h : Canonical s) (x) : OutCanonical (execReprun x s) := by
  grind [execReprun, OutCanonical, ! . outCanonical_wait, outCanonical_guarded, ! . outCanonical_repTrap, canonical_setCur]

/-! ### Fetched lines -/

theorem canonical_fetchTrap (h : Canonical s) (c k cause detail level span) : Canonical (s.fetchTrap c k cause detail level span) :=
  canonical_takeTrap h ..

theorem outCanonical_execFetchLineArrival (h : Canonical s) (x) : OutCanonical (execFetchLineArrival x s) := by
  unfold execFetchLineArrival
  generalize parityOk = par
  split
  · exact h
  next t _ =>
    split
    · exact h
    · have hf := canonical_fetchLine h x.core x.slot t.region x.va
      split <;> rename_i heq <;> replace hf := heq ▸ hf
      · exact canonical_fetchTrap hf ..
      · exact canonical_later hf _
      next l s1 =>
        extract_lets take again
        have htake (l : V512) {s : State} (h : Canonical s) : Canonical (take l s) := by
          unfold take
          split
          · exact canonical_fetchTrap h ..
          · exact canonical_modThread h ..
        clear_value take
        have ha : Canonical again := by
          have ht := canonical_translateR hf x.core t.region x.va .fetch
          unfold again
          split <;> rename_i heq <;> replace ht := heq ▸ ht
          · exact canonical_discardCopy ht ..
          · exact ht
        refine .ite (.next (htake l hf)) ?_
        clear_value again
        have hf := canonical_fetchLine ha x.core x.slot t.region x.va
        generalize again.fetchLine x.core x.slot t.region x.va = z at hf ⊢
        obtain ⟨f, s2⟩ := z
        cases f with
        | ok l2 => exact .ite (.next (htake l2 (canonical_corr (canonical_modCore hf _ _ (hf.2 _)) ..))) (.next (canonical_fetchTrap hf ..))
        | busy => exact canonical_later hf _
        | trap => exact canonical_fetchTrap hf ..

theorem outCanonical_execPipeDeadlock (h : Canonical s) (x) : OutCanonical (execPipeDeadlock x s) := by
  grind [execPipeDeadlock, OutCanonical, canonical_takeTrap]

theorem outCanonical_execReissue (h : Canonical s) (x) : OutCanonical (execReissue x s) := by
  grind [execReissue, OutCanonical, canonical_iff]

theorem canonical_endTraps (h : Canonical s) (l seq) : Canonical (s.endTraps l seq) := by
  grind [State.endTraps, canonical_endTrap, canonical_foldl]

theorem outCanonical_execQueuedFaultRecordWrite (h : Canonical s) (x) : OutCanonical (execQueuedFaultRecordWrite x s) := by
  grind [execQueuedFaultRecordWrite, OutCanonical, ! . canonical_placeRec, canonical_later1, canonical_push, canonical_endTraps, canonical_modPart]

/-! ### Completion -/

theorem canonical_tryRemote (h : Canonical s) (c k t o dst lcn off act) : Canonical (s.tryRemote c k t o dst lcn off act) := by
  grind [State.tryRemote, canonical_modThread, canonical_push]

theorem canonical_tryOp (h : Canonical s) (c k t o) : Canonical (s.tryOp c k t o) := by
  grind [State.tryOp, canonical_tryRequest, canonical_tryRes, canonical_tryTensor, canonical_tryChan, canonical_tryMsg, canonical_tryRemote,
    canonical_tryMat, canonical_tryCopy, canonical_tryAcc]

theorem canonical_goOn (h : Canonical s) (c k id) : Canonical (s.goOn c k id) := by
  grind [State.goOn, canonical_tryOp]

theorem outCanonical_execStreamOperationComplete (h : Canonical s) (x) : OutCanonical (execStreamOperationComplete x s) := by
  grind [execStreamOperationComplete, OutCanonical, canonical_goOn, canonical_withOp]

end Sys2Proof.Machine
end

/-! ## Proofs/O53: CanonicalKept -/

section
namespace Sys2Proof.Machine

open Sys2Proof.Claims

variable {s : State}

/-! ### Every instruction -/

theorem outCanonical_exec (h : Canonical s) (i) : OutCanonical (exec i s) := by
  unfold exec
  cases i with
  | add | sub | mul | mulh | mulhu | div | divu | rem | remu | min | max | minu | maxu | and | or | xor | andn | orn | shl | shr | sra | rol =>
    exact outCanonical_aluA h ..
  | addImm | subImm | mulImm | mulhImm | mulhuImm | divImm | divuImm | remImm | remuImm | minImm | maxImm | minuImm | maxuImm | andImm | orImm
    | xorImm | andnImm | ornImm =>
    exact outCanonical_aluI h ..
  | shlImm | shrImm | sraImm | rolImm => exact outCanonical_aluSh h ..
  | clz | ctz | popc | brev => exact outCanonical_aluU h ..
  | sext | zext | bfx | bfi | sel | mov | li | lea | leaImm | qcnt | repstat | fmtget => exact outCanonical_setG h ..
  | cmp | cmpImm | fcmp | pnot | pset => exact outCanonical_setP h ..
  | fadd | fsub | fmul => exact outCanonical_fpR h ..
  | fmin | fmax => exact outCanonical_fpMinMax h ..
  | fabs | fneg | ffma | frnd => exact outCanonical_setF h ..
  | fclass => exact outCanonical_execFclass h ..
  | fcvt => exact outCanonical_execFcvt h ..
  | br => exact outCanonical_execBr h ..
  | jmp => exact outCanonical_execJmp h ..
  | jmpi => exact outCanonical_execJmpi h ..
  | call => exact outCanonical_execCall h ..
  | calli => exact outCanonical_execCalli h ..
  | ret => exact outCanonical_execRet h ..
  | loop => exact outCanonical_execLoop h ..
  | nop => exact outCanonical_execNop h ..
  | pand | por | pxor => exact outCanonical_pred2 h ..
  | qput => exact outCanonical_execQput h ..
  | qget => exact outCanonical_execQget h ..
  | qpeek => exact outCanonical_execQpeek h ..
  | repb => exact outCanonical_execRepb h ..
  | repe => exact outCanonical_execRepe h ..
  | reprun => exact outCanonical_execReprun h ..
  | ld | st | ldv | stv | cflush | cinv | amocas | watch | unwatch | watchq | acqr | relr | ladq | stn => exact outCanonical_accM h ..
  | pfetch => exact outCanonical_execPfetch h ..
  | scnt => exact outCanonical_execScnt h ..
  | amoadd | amoand | amoor | amoxor | amomin | amomax | amominu | amomaxu | amoswp => exact outCanonical_amoM h ..
  | amofadd | amofmin | amofmax => exact outCanonical_amofM h ..
  | send | sendadd | sendmin | sendmax => exact outCanonical_issueCopy h ..
  | chopen | chclose | chwm => exact outCanonical_issueChan h ..
  | lmcfg => exact outCanonical_execLmcfg h ..
  | sendm => exact outCanonical_execSendm h ..
  | vadd | vsub => exact outCanonical_vAddSub h ..
  | vmul | vcmp | vsel | vred | vscan | vdot | vmov => exact outCanonical_setV h ..
  | vfma | vfms => exact outCanonical_vFma h ..
  | vneg | vabs => exact outCanonical_vNegAbs h ..
  | vmin | vmax => exact outCanonical_vMinMax h ..
  | vand | vor | vxor => exact outCanonical_vLog h ..
  | vshl | vshr | vsra => exact outCanonical_vShift h ..
  | vcvt => exact outCanonical_execVcvt h ..
  | vrcp | vrsq | vsqrt | vexp2 | vlog2 | vsinp | vtanh => exact outCanonical_vFun h ..
  | vperm => exact outCanonical_execVperm h ..
  | vbcast => exact outCanonical_execVbcast h ..
  | vins => exact outCanonical_execVins h ..
  | vext => exact outCanonical_execVext h ..
  | vsplat => exact outCanonical_execVsplat h ..
  | mld | mst | lutld => exact outCanonical_accN h ..
  | mset => exact outCanonical_execMset h ..
  | mew | mfma | mred | mcvt | mgath | mscat | mcopy => exact outCanonical_issueTensor h ..
  | fmtset => exact outCanonical_execFmtset h ..
  | xres => exact outCanonical_execXres h ..
  | xload => exact outCanonical_execXload h ..
  | xpin => exact outCanonical_execXpin h ..
  | xunpin => exact outCanonical_execXunpin h ..
  | xrevk => exact outCanonical_execXrevk h ..
  | xqry => exact outCanonical_execXqry h ..
  | xmm | xacc => exact outCanonical_issuePass h ..
  | xzero => exact outCanonical_execXzero h ..
  | xstat => exact outCanonical_execXstat h ..
  | acfg => exact outCanonical_execAcfg h ..
  | aget => exact outCanonical_execAget h ..
  | afree => exact outCanonical_execAfree h ..
  | arowi | acoli => exact outCanonical_tileIn h ..
  | arowo | acolo => exact outCanonical_tileOut h ..
  | azero => exact outCanonical_execAzero h ..
  | spawn => exact outCanonical_execSpawn h ..
  | spawnt => exact outCanonical_execSpawnt h ..
  | end_ => exact outCanonical_execEnd h ..
  | sleep => exact outCanonical_execSleep h ..
  | yield => exact outCanonical_execYield h ..
  | thnew => exact outCanonical_execThnew h ..
  | thstop | thstart | thrd | thwr | thstat | thkill => exact outCanonical_issueRequest h ..
  | trap => exact outCanonical_execTrap h ..
  | mfs => exact outCanonical_execMfs h ..
  | mts => exact outCanonical_execMts h ..
  | gtime => exact outCanonical_execGtime h ..
  | rgnq => exact outCanonical_execRgnq h ..
  | fetchLineArrival => exact outCanonical_execFetchLineArrival h ..
  | pipeDeadlock => exact outCanonical_execPipeDeadlock h ..
  | reissue => exact outCanonical_execReissue h ..
  | tableWalk => exact canonical_walkOn h ..
  | queuedFaultRecordWrite => exact outCanonical_execQueuedFaultRecordWrite h ..
  | gets | getx => exact canonical_request h ..
  | wrt => exact outCanonical_execWrt h ..
  | putx => exact outCanonical_execPutx h ..
  | pute => exact outCanonical_execPute h ..
  | fwds | fwdx => exact canonical_forward h ..
  | inv => exact outCanonical_execInv h ..
  | data => exact outCanonical_execData h ..
  | ownerData => exact outCanonical_execOwnerData h ..
  | clean => exact outCanonical_execClean h ..
  | gone => exact outCanonical_execGone h ..
  | ack => exact outCanonical_execAck h ..
  | wback => exact outCanonical_execWback h ..
  | fillArrives => exact outCanonical_execFillArrives h ..
  | l2Replacement => exact canonical_replaceLine h ..
  | l1Eviction => exact canonical_evict h ..
  | wake => exact outCanonical_execWake h ..
  | drop => exact canonical_modEntry h ..
  | snpData => exact outCanonical_execSnpData h ..
  | snpInv => exact outCanonical_execSnpInv h ..
  | snpCur => exact outCanonical_execSnpCur h ..
  | rdSharedReread => exact outCanonical_execRdSharedReread h ..
  | biSnpInvResponse => exact outCanonical_execBiSnpInvResponse h ..
  | memWr => exact outCanonical_execMemWr h ..
  | hostMemRd => exact outCanonical_execHostMemRd h ..
  | ladingGrant => exact canonical_ladGrant h ..
  | beacon => exact outCanonical_execBeacon h ..
  | ladingRevocation => exact outCanonical_execLadingRevocation h ..
  | revoke => exact canonical_discard h ..
  | packetArrival => exact canonical_packet h ..
  | packetRetry | sliceFullRetry | frontEndRestart => exact canonical_push h ..
  | updateArrival => exact canonical_update h ..
  | sendComplete => exact canonical_copyDone h ..
  | remoteStoreArrival => exact outCanonical_execRemoteStoreArrival h ..
  | streamOperationComplete => exact outCanonical_execStreamOperationComplete h ..
  | messageArrival => exact outCanonical_execMessageArrival h ..
  | binding => exact outCanonical_execBinding h ..
  | ageStep => exact canonical_modPost h ..
  | stealRequest => exact outCanonical_execStealRequest h ..
  | reload => exact outCanonical_execReload h ..
  | yieldExpiry => exact canonical_modThread h ..
  | porterSpill => exact outCanonical_execPorterSpill h ..
  | porterReplay => exact outCanonical_execPorterReplay h ..
  | wave => exact outCanonical_execWave h ..
  | energyMeter => exact outCanonical_execEnergyMeter h ..
  | tariffWindow => exact canonical_retariff h ..
  | temperatureRead => exact outCanonical_execTemperatureRead h ..
  | droverPeriod => exact outCanonical_execDroverPeriod h ..
  | droverCoreJoin => exact outCanonical_execDroverCoreJoin h ..
  | trapEntry => exact outCanonical_execTrapEntry h ..
  | uncorrectableData => exact outCanonical_execUncorrectableData h ..
  | switchDeadline => exact outCanonical_execSwitchDeadline h ..
  | clearing => exact outCanonical_execClearing h ..
  | prep => exact outCanonical_execPrep h ..
  | commit => exact outCanonical_execCommit h ..
  | consignmentDrop => exact outCanonical_execConsignmentDrop h ..
  | consignmentOverflow => exact outCanonical_execConsignmentOverflow h ..
  | hashArrival => exact outCanonical_execHashArrival h ..
  | writeIntent => exact outCanonical_execWriteIntent h ..
  | staleMark => exact outCanonical_execStaleMark h ..
  | residencyLoadComplete => exact outCanonical_execResidencyLoadComplete h ..
  | residencyLoadFault => exact outCanonical_execResidencyLoadFault h ..
  | drainComplete => exact outCanonical_execDrainComplete h ..
  | tileError => exact outCanonical_execTileError h ..
  | nopCommand => exact outCanonical_execNopCommand h ..
  | launch => exact outCanonical_execLaunch h ..
  | rrelease => exact outCanonical_execRrelease h ..
  | preemptSwitch => exact outCanonical_execPreemptSwitch h ..
  | preemptSpatial => exact outCanonical_execPreemptSpatial h ..
  | restore => exact outCanonical_execRestore h ..
  | rprio => exact outCanonical_execRprio h ..
  | postset => exact outCanonical_execPostset h ..
  | tflush => exact outCanonical_execTflush h ..
  | drover => exact outCanonical_execDrover h ..
  | qcreate => exact outCanonical_execQcreate h ..
  | qdestroy => exact outCanonical_execQdestroy h ..
  | signal => exact outCanonical_execSignal h ..
  | mapq => exact outCanonical_execMapq h ..
  | dirdump => exact outCanonical_execDirdump h ..
  | resize => exact outCanonical_execResize h ..
  | notify => exact outCanonical_execNotify h ..
  | admqcbCreate => exact outCanonical_execAdmqcbCreate h ..
  | admqcbDestroy => exact outCanonical_execAdmqcbDestroy h ..
  | registerWrite => exact outCanonical_execRegisterWrite h ..
  | qcbPoll => exact canonical_pollQcb h ..
  | commandFetch => exact outCanonical_execCommandFetch h ..
  | commandDispatch => exact outCanonical_execCommandDispatch h ..
  | completionWrite => exact outCanonical_execCompletionWrite h ..
  | pluginOverrun => exact outCanonical_execPluginOverrun h ..
  | quantumExpiry => exact outCanonical_execQuantumExpiry h ..
  | functionLevelReset => exact outCanonical_execFunctionLevelReset h ..
  | sqprod => exact outCanonical_execSqprod h ..
  | put => exact outCanonical_execPut h ..
  | get => exact outCanonical_execGet h ..
  | aadd => exact outCanonical_execAadd h ..
  | acas => exact outCanonical_execAcas h ..
  | aswp => exact outCanonical_execAswp h ..
  | allred => exact outCanonical_execAllred h ..
  | linkRequestArrival => exact outCanonical_execLinkRequestArrival h ..
  | linkAcknowledgement => exact outCanonical_execLinkAcknowledgement h ..
  | linkRetry => exact outCanonical_execLinkRetry h ..
  | linkRetire => exact outCanonical_execLinkRetire h ..
  | linkBeacon | atomicResultCacheExpiry => exact canonical_modPort h ..
  | collectiveAbort => exact outCanonical_execCollectiveAbort h ..
  | scrub => exact outCanonical_execScrub h ..
  | marginReplan => exact outCanonical_execMarginReplan h ..
  | customsAlarm => exact outCanonical_execCustomsAlarm h ..
  | level2Clear => exact outCanonical_execLevel2Clear h ..
  | coldReset => exact outCanonical_execColdReset h ..
  | getMeasurements => exact outCanonical_execGetMeasurements h ..
  | sleepDeadline => exact outCanonical_execSleepDeadline h ..
  | threadStateRequest => exact outCanonical_execThreadStateRequest h ..
  | cxlCacheResponse => exact outCanonical_execCxlCacheResponse h ..
  | flitCrcFailure => exact outCanonical_execFlitCrcFailure h ..
  | endpointContextFill => exact outCanonical_execEndpointContextFill h ..
  | coreRemoval => exact outCanonical_execCoreRemoval h ..
  | engineConfigurationWrite => exact outCanonical_execEngineConfigurationWrite h ..

/-! ### What is due -/

theorem canonical_rouse (h : Canonical s) : Canonical s.rouse := by
  grind [State.rouse, canonical_iff, canonical_wakeSleepers, canonical_heat]

theorem optCanonical_recurring (h : Canonical s) : OptCanonical s.recurring := by
  grind [State.recurring, OptCanonical, canonical_iff, canonical_push]

theorem optCanonical_timed (h : Canonical s) : OptCanonical s.timed := by
  grind [State.timed, OptCanonical, canonical_iff, canonical_push]

theorem optCanonical_underWay (h : Canonical s) : OptCanonical s.underWay := by
  unfold State.underWay
  refine .orElse (optCanonical_endedRes h) (.orElse (optCanonical_findSome? fun e => ?_) (.orElse (optCanonical_findSome? fun e => ?_)
    (.orElse (optCanonical_findSome? fun e => ?_) (optCanonical_findSome? fun e => ?_))))
  · cases e.2.switch with
    | none => trivial
    | some w => exact optCanonical_switchStep h ..
  · exact optCanonical_resizeStep h ..
  · exact optCanonical_worldStep h ..
  · exact optCanonical_resetStep h ..

theorem optCanonical_due (h : Canonical s) : OptCanonical s.due :=
  .orElse (optCanonical_timed h) (.orElse (optCanonical_recurring h) (.orElse (.map fun _ _ => h) (optCanonical_underWay h)))

/-! ### Every event -/

theorem outCanonical_runEvent (h : Canonical s) (e) : OutCanonical (runEvent e s) := by
  unfold runEvent
  cases e with
  | fetchLineArrival => exact outCanonical_execFetchLineArrival h ..
  | pipeDeadlock => exact outCanonical_execPipeDeadlock h ..
  | reissue => exact outCanonical_execReissue h ..
  | tableWalk => exact canonical_walkOn h ..
  | queuedFaultRecordWrite => exact outCanonical_execQueuedFaultRecordWrite h ..
  | gets | getx => exact canonical_request h ..
  | wrt => exact outCanonical_execWrt h ..
  | putx => exact outCanonical_execPutx h ..
  | pute => exact outCanonical_execPute h ..
  | fwds | fwdx => exact canonical_forward h ..
  | inv => exact outCanonical_execInv h ..
  | data => exact outCanonical_execData h ..
  | ownerData => exact outCanonical_execOwnerData h ..
  | clean => exact outCanonical_execClean h ..
  | gone => exact outCanonical_execGone h ..
  | ack => exact outCanonical_execAck h ..
  | wback => exact outCanonical_execWback h ..
  | fillArrives => exact outCanonical_execFillArrives h ..
  | l2Replacement => exact canonical_replaceLine h ..
  | l1Eviction => exact canonical_evict h ..
  | wake => exact outCanonical_execWake h ..
  | drop => exact canonical_modEntry h ..
  | snpData => exact outCanonical_execSnpData h ..
  | snpInv => exact outCanonical_execSnpInv h ..
  | snpCur => exact outCanonical_execSnpCur h ..
  | rdSharedReread => exact outCanonical_execRdSharedReread h ..
  | biSnpInvResponse => exact outCanonical_execBiSnpInvResponse h ..
  | memWr => exact outCanonical_execMemWr h ..
  | hostMemRd => exact outCanonical_execHostMemRd h ..
  | ladingGrant => exact canonical_ladGrant h ..
  | beacon => exact outCanonical_execBeacon h ..
  | ladingRevocation => exact outCanonical_execLadingRevocation h ..
  | revoke => exact canonical_discard h ..
  | packetArrival => exact canonical_packet h ..
  | packetRetry | sliceFullRetry | frontEndRestart => exact canonical_push h ..
  | updateArrival => exact canonical_update h ..
  | sendComplete => exact canonical_copyDone h ..
  | remoteStoreArrival => exact outCanonical_execRemoteStoreArrival h ..
  | streamOperationComplete => exact outCanonical_execStreamOperationComplete h ..
  | messageArrival => exact outCanonical_execMessageArrival h ..
  | binding => exact outCanonical_execBinding h ..
  | ageStep => exact canonical_modPost h ..
  | stealRequest => exact outCanonical_execStealRequest h ..
  | reload => exact outCanonical_execReload h ..
  | yieldExpiry => exact canonical_modThread h ..
  | porterSpill => exact outCanonical_execPorterSpill h ..
  | porterReplay => exact outCanonical_execPorterReplay h ..
  | wave => exact outCanonical_execWave h ..
  | energyMeter => exact outCanonical_execEnergyMeter h ..
  | tariffWindow => exact canonical_retariff h ..
  | temperatureRead => exact outCanonical_execTemperatureRead h ..
  | droverPeriod => exact outCanonical_execDroverPeriod h ..
  | droverCoreJoin => exact outCanonical_execDroverCoreJoin h ..
  | trapEntry => exact outCanonical_execTrapEntry h ..
  | uncorrectableData => exact outCanonical_execUncorrectableData h ..
  | switchDeadline => exact outCanonical_execSwitchDeadline h ..
  | clearing => exact outCanonical_execClearing h ..
  | prep => exact outCanonical_execPrep h ..
  | commit => exact outCanonical_execCommit h ..
  | consignmentDrop => exact outCanonical_execConsignmentDrop h ..
  | consignmentOverflow => exact outCanonical_execConsignmentOverflow h ..
  | hashArrival => exact outCanonical_execHashArrival h ..
  | writeIntent => exact outCanonical_execWriteIntent h ..
  | staleMark => exact outCanonical_execStaleMark h ..
  | residencyLoadComplete => exact outCanonical_execResidencyLoadComplete h ..
  | residencyLoadFault => exact outCanonical_execResidencyLoadFault h ..
  | drainComplete => exact outCanonical_execDrainComplete h ..
  | tileError => exact outCanonical_execTileError h ..
  | nopCommand => exact outCanonical_execNopCommand h ..
  | launch => exact outCanonical_execLaunch h ..
  | rrelease => exact outCanonical_execRrelease h ..
  | preemptSwitch => exact outCanonical_execPreemptSwitch h ..
  | preemptSpatial => exact outCanonical_execPreemptSpatial h ..
  | restore => exact outCanonical_execRestore h ..
  | rprio => exact outCanonical_execRprio h ..
  | postset => exact outCanonical_execPostset h ..
  | tflush => exact outCanonical_execTflush h ..
  | drover => exact outCanonical_execDrover h ..
  | qcreate => exact outCanonical_execQcreate h ..
  | qdestroy => exact outCanonical_execQdestroy h ..
  | signal => exact outCanonical_execSignal h ..
  | mapq => exact outCanonical_execMapq h ..
  | dirdump => exact outCanonical_execDirdump h ..
  | resize => exact outCanonical_execResize h ..
  | notify => exact outCanonical_execNotify h ..
  | admqcbCreate => exact outCanonical_execAdmqcbCreate h ..
  | admqcbDestroy => exact outCanonical_execAdmqcbDestroy h ..
  | registerWrite => exact outCanonical_execRegisterWrite h ..
  | qcbPoll => exact canonical_pollQcb h ..
  | commandFetch => exact outCanonical_execCommandFetch h ..
  | commandDispatch => exact outCanonical_execCommandDispatch h ..
  | completionWrite => exact outCanonical_execCompletionWrite h ..
  | pluginOverrun => exact outCanonical_execPluginOverrun h ..
  | quantumExpiry => exact outCanonical_execQuantumExpiry h ..
  | functionLevelReset => exact outCanonical_execFunctionLevelReset h ..
  | sqprod => exact outCanonical_execSqprod h ..
  | put => exact outCanonical_execPut h ..
  | get => exact outCanonical_execGet h ..
  | aadd => exact outCanonical_execAadd h ..
  | acas => exact outCanonical_execAcas h ..
  | aswp => exact outCanonical_execAswp h ..
  | allred => exact outCanonical_execAllred h ..
  | linkRequestArrival => exact outCanonical_execLinkRequestArrival h ..
  | linkAcknowledgement => exact outCanonical_execLinkAcknowledgement h ..
  | linkRetry => exact outCanonical_execLinkRetry h ..
  | linkRetire => exact outCanonical_execLinkRetire h ..
  | linkBeacon | atomicResultCacheExpiry => exact canonical_modPort h ..
  | collectiveAbort => exact outCanonical_execCollectiveAbort h ..
  | scrub => exact outCanonical_execScrub h ..
  | marginReplan => exact outCanonical_execMarginReplan h ..
  | customsAlarm => exact outCanonical_execCustomsAlarm h ..
  | level2Clear => exact outCanonical_execLevel2Clear h ..
  | coldReset => exact outCanonical_execColdReset h ..
  | getMeasurements => exact outCanonical_execGetMeasurements h ..
  | sleepDeadline => exact outCanonical_execSleepDeadline h ..
  | threadStateRequest => exact outCanonical_execThreadStateRequest h ..
  | cxlCacheResponse => exact outCanonical_execCxlCacheResponse h ..
  | flitCrcFailure => exact outCanonical_execFlitCrcFailure h ..
  | endpointContextFill => exact outCanonical_execEndpointContextFill h ..
  | coreRemoval => exact outCanonical_execCoreRemoval h ..
  | engineConfigurationWrite => exact outCanonical_execEngineConfigurationWrite h ..

/-! ### Issue -/

theorem outCanonical_after {o : Out} (h : OutCanonical o) (f : State → State) (hf : ∀ s, Canonical s → Canonical (f s)) :
    OutCanonical (o.after f) := by
  cases o with
  | next s => exact hf s h
  | fault => trivial
  | refused => trivial

theorem canonical_at (h : Canonical s) (c k p pc w rep i no blocked) : Canonical (s.at c k p pc w rep i no blocked) := h

theorem canonical_leadLineEnter (h : Canonical s) (c k t) : Canonical (State.leadLine.enter c k t s).2 := by
  grind [State.leadLine.enter, ! . canonical_fetchLine]

theorem canonical_leadLine (h : Canonical s) (c k t) : Canonical (s.leadLine c k t).2 := by
  grind [State.leadLine, ! . canonical_leadLineEnter]

theorem outCanonical_capture (h : Canonical s) (c k t l w i) : OutCanonical (s.capture c k t l w i) := by
  unfold State.capture
  (repeat' split) <;> grind [OutCanonical, canonical_modThread, ! . outCanonical_trapAt, ! . outCanonical_exec, canonical_at, canonical_setThread]

theorem outCanonical_leadWaits (h : Canonical s) (c k) : OutCanonical (s.leadWaits c k) := canonical_modThread h ..

theorem outCanonical_leadHolds (h : Canonical s) (c k l) : OutCanonical (s.leadHolds c k l) := by
  grind [State.leadHolds, canonical_modThread, ! . outCanonical_leadWaits]

theorem outCanonical_passOn (h : Canonical s) (c k t) : OutCanonical (s.passOn c k t) := by
  grind [State.passOn, OutCanonical, ! . outCanonical_leadWaits, canonical_setThread, ! . canonical_fetchLine]

theorem canonical_settle (h : Canonical s) (c k) : Canonical (s.settle c k) := by
  grind [State.settle, canonical_push, canonical_setThread]

theorem outCanonical_execSettled (h : Canonical s) (i c k) : OutCanonical (execSettled i c k s) := by
  grind [execSettled, OutCanonical, canonical_settle, ! . outCanonical_exec]

theorem outCanonical_leadAhead (h : Canonical s) (c k t e rest) : OutCanonical (s.leadAhead c k t e rest) := by
  grind [State.leadAhead, ! . outCanonical_execSettled, canonical_at, ! . outCanonical_passOn, canonical_setThread]

theorem outCanonical_leadStep (h : Canonical s) (c k t defer) : OutCanonical (s.leadStep c k t defer) := by
  grind [State.leadStep, OutCanonical, canonical_modThread, ! . outCanonical_leadAhead, ! . outCanonical_leadWaits, canonical_startThread,
    ! . outCanonical_leadHolds, ! . outCanonical_exec, canonical_at, ! . canonical_leadLine, canonical_setThread, canonical_takeTrap,
    ! . outCanonical_capture]

theorem outCanonical_trailStep (h : Canonical s) (c k t) : OutCanonical (s.trailStep c k t) := by
  grind [State.trailStep, OutCanonical, ! . outCanonical_execSettled, canonical_at, canonical_setThread]

theorem canonical_others (h : Canonical s) (c k) : Canonical (s.others c k) := h

theorem canonical_endTurn (h : Canonical s) (c k old cycles) : Canonical (s.endTurn c k old cycles) := by
  grind [State.endTurn, canonical_modThread, canonical_weigh]

theorem canonical_tried (h : Canonical s) (c k) : Canonical (s.tried c k) := by
  grind [State.tried, canonical_modPart]

theorem outCanonical_issue (h : Canonical s) (c k p defer) : OutCanonical (s.issue c k p defer) := by
  grind [State.issue, OutCanonical, canonical_endTurn, canonical_tried, ! . outCanonical_leadStep, outCanonical_after, canonical_others,
    ! . outCanonical_trailStep]

theorem canonical_noteWaits (h : Canonical s) (l next) : Canonical (s.noteWaits l next) := by
  grind [State.noteWaits, canonical_ladWait, canonical_foldl]

theorem outCanonical_orBack {o : Out} (h : OutCanonical o) (back : List (Nat × Nat) → State) (hf : ∀ l, Canonical (back l)) :
    OutCanonical (o.orBack back) := by
  cases o with
  | next s =>
    refine OutCanonical.next ?_
    split
    · exact h
    · exact hf _
  | fault => trivial
  | refused => trivial

theorem canonical_passed (h : Canonical s) (c k l) : Canonical (s.passed c k l) := by
  grind [State.passed, canonical_tried, canonical_modThread, canonical_noteWaits, canonical_others]

theorem outCanonical_issueNext (h : Canonical s) : OutCanonical s.issueNext := by
  grind [State.issueNext, OutCanonical, canonical_iff, ! . outCanonical_issue, outCanonical_orBack, canonical_passed]

/-! ### The clock -/

theorem canonical_tick (h : Canonical s) : Canonical s.tick := canonical_agePosts h ..

theorem canonical_tock (h : Canonical s) : Canonical s.tock := h

theorem canonical_takeLater (h : Canonical s) : Canonical s.takeLater := h

theorem outCanonical_answer1 (h : Canonical s) (e) : OutCanonical (s.answer1 e) := by
  grind [State.answer1, ! . outCanonical_runEvent, canonical_later1, canonical_noteWaits, outCanonical_orBack]

theorem outCanonical_stepOnce (h : Canonical s) : OutCanonical s.stepOnce := by
  grind [State.stepOnce, OutCanonical, OptCanonical, canonical_iff, ! . optCanonical_due, canonical_rouse, outCanonical_after,
    ! . outCanonical_answer1, canonical_noteWaits, canonical_tick, ! . outCanonical_issueNext, canonical_takeLater, canonical_tock]

/-! ### CanonicalKept -/

/-- Settles O53: every function of the model that changes the state keeps the canonical form, because memory and the scratchpads are only ever
written by `memWrite` and `memMerge`, filtered, or cleared. -/
theorem canonicalKept : Obligations.CanonicalKept := by
  unfold Obligations.CanonicalKept
  intro s s' h hs
  have hn : OutCanonical (step s) := outCanonical_stepOnce h
  rw [hs] at hn
  exact hn

end Sys2Proof.Machine
end
